-- ==== Sys2Proof/Word.lean ====
section
/-!
DEFINITION. The words the LM1 manual counts in: bytes, 16-, 32- and 64-bit words, and nothing more.
Addresses are natural numbers once they are computed; register words and sequencer registers are bit vectors.
-/
namespace Sys2Proof

/-- One byte of a store, of device memory or of a message. -/
abbrev Byte := BitVec 8

/-- A register word of the aperture (R411, R412). -/
abbrev W32 := BitVec 32

/-- A sequencer register, a seed, a GTIME value (R234, R305, R349). -/
abbrev W64 := BitVec 64

end Sys2Proof
end

