-- ==== Sys2Proof/Syntax.lean ====
section
/-!
DEFINITION. The commands of the LM1 block: one constructor for each row of the opcode table, with the row's operands. A
command is an event at the block's boundary or inside it: a write or read of a register, a packet, an expiry, a step of an
engine. What the environment decides (which element an upset strikes, what a message carries) is an operand.
Rows of notes/assumptions: DEDUCED 97, 99; DESIGN CHOICE 88; PRESUMED 207.
-/
namespace Sys2Proof

/-- The path an aperture access takes (R412). Kernel-queue commands and the management controller are privileged. -/
inductive Path where
  | host | kq | mgmt
deriving DecidableEq, Repr

/-- A matrix array and its island, MA[00]–MA[19]. -/
abbrev ArrayId := Fin 20
/-- A compute die CD[0]–CD[3]. -/
abbrev DieId := Fin 4
/-- A stack HS[00]–HS[23], with its MC, MPE and NMU. -/
abbrev StackId := Fin 24
/-- A fabric port FP[00]–FP[35]. -/
abbrev PortId := Fin 36
/-- A sequencer by its ENGINES bit number: arrays 0–19, DMA sequencers 20–23, exchange halves 24–25 (R213). Array
sequencers are named by physical array here. -/
abbrev SeqId := Fin 26
/-- A router half, or an exchange-engine half. -/
abbrev HalfId := Fin 2
/-- A queue: user queues 0–1,023, kernel queues 1,024–1,039 (R208). -/
abbrev QueueId := Fin 1040
/-- A context. -/
abbrev CtxId := Fin 64
/-- A DMA channel of one engine. -/
abbrev ChanId := Fin 32
/-- A store with check bits: an array's ALS, or a die's DSS (R138). -/
inductive StoreRef where
  | als (n : ArrayId)
  | dss (d : DieId)
deriving DecidableEq, Repr


/-- A link: a fabric port 0–35, or the Brixcia port 36. -/
abbrev LnkId := Fin 37

/-- What the peer's INIT flits say (R246, R250, R317): device, port, PAIR_SIDE, whether it bonds, its last good sequence
number, and its receive buffers in bytes (the Brixcia Link's channels 3 and 4). -/
structure InitPar where
  dev : Nat := 0
  port : Nat := 0
  side : Bool := false
  bond : Bool := false
  last : Nat := 4095
  bufs : List Nat := []
deriving DecidableEq, Repr

/-- The sender of an ABANDON, and whether it says that a dispatch's keys are equal (R282, R294). -/
structure Abandon where
  src : Nat
  routeInvalid : Bool := false
deriving DecidableEq, Repr

/-- What a grant is for (R276, R279, R280, R294, R297): an operand for a node's chunk, of whichever child of the node the
receiver forms (size 0: the root's value, for the member that delivers the result); a chunk or segment that
goes down a distribution tree; an ALL_TO_ALL segment; a dispatch's rows; a row returned by a combine. -/
inductive XUse where
  | operand (lo size chunk : Nat)
  | segment (rank piece : Nat)
  | pair (rank : Nat)
  | rows
  | row (t r : Nat)
deriving DecidableEq, Repr

/-- A control packet of the exchange engine (R276): its kind, source device, operation, check word, and body. -/
inductive CtrlPkt where
  | grant (src op pcheck : Nat) (use : XUse) (handle value : Nat) (rows : List (Nat × Nat))
  | count (src op pcheck value : Nat) (counts : List Nat) (tokens : List (List Nat))
  | finish (src op rank : Nat)
  | abandon (src : Abandon) (op : Nat)
  | notice (op fenced : Nat)
deriving DecidableEq, Repr

/-- A data packet that the router has ejected to an exchange half (R252): TYPE DATA_RED or DATA, LAST, SRC, MSG_ID, OP,
EPOCH, OFFSET, TOTAL, HANDLE, PCRC, the payload and the poison of its 64 B blocks. -/
structure DataPkt where
  red : Bool
  last : Bool
  src : Nat
  msgId : Nat
  op : Nat
  offset : Nat
  total : Nat
  handle : Nat
  data : List Byte
  poison : List Bool
  epoch : Nat
  pcrc : Nat
deriving DecidableEq, Repr

/-- How a unit of the stacks differs from what was written there (R172): which of its 69 symbols, 64 of ciphertext, two of its tag
share and three of check, and which of the three copies of its poison bit. -/
structure UnitErr where
  symbols : List (Fin 69) := []
  copies : Fin 8 := 0
deriving DecidableEq, Repr

/-- What a CMP carries: the old value of an ATOMIC, and whether it is poisoned (R319, R320). -/
structure CmpData where
  bytes : List Byte := []
  poison : Bool := false
deriving DecidableEq, Repr

/-- An access of the test port (R373, R400): a debug instruction or a boundary scan, and whether it leaves the port in a Shift state. -/
structure TapAccess where
  debug : Bool := false
  shift : Bool := false
deriving DecidableEq, Repr

/-- A data packet of MIRROR_DEPOSIT or MIRROR_SEND that has arrived over the pair link (R368): its 32 B header, its sealed payload with
the tag last, and the partner addresses and lengths of the runs of bytes that its plaintext holds. -/
structure PairPkt where
  head : List Byte
  body : List Byte
  places : List (Nat × Nat)
deriving DecidableEq, Repr

/-- An offer of a DHCP server (R361): the server of the file (siaddr or option 66) and the file (option 67), where it names them. -/
structure DhcpOpts where
  server : Option W32 := none
  file : Option (List Byte) := none
deriving DecidableEq, Repr

/-- A client's side of a TLS 1.3 handshake with the management port (R369): its ClientHello messages, the second where the first is answered
by a HelloRetryRequest; the scheme and the bytes of its signature; and the content of its Finished message. -/
structure TlsClient where
  hellos : List (List Byte) := []
  scheme : Nat := 0
  signature : List Byte := []
  finished : List Byte := []
deriving DecidableEq, Repr

/-- The header of a management message (R371). -/
structure MsgHead where
  rid : W32
  type : Fin 65536
  flags : Fin 65536 := 0
  length : Nat := 0
  status : Fin 65536 := 0
  reserved : Fin 65536 := 0
deriving DecidableEq, Repr

inductive Instr where
  /-- A die-to-die bridge transfer fails its CRC check; the bridge retries it, counts the retry in NOC.RETRY, and raises fatal class BRIDGE on the ninth failure. (R15) -/
  | bridgeAttemptFail (d : DieId) (k : Fin 3) (link : Bool) (first : Bool)
  /-- After a fatal error, every engine has stopped at its abort point and the deposit starts to be written. (R389) -/
  | fatalEnginesStopped
  /-- An engine that has not reported within 10 ms of a fatal error is recorded as not stopped, and the dump proceeds. (R389) -/
  | fatalStopTimeout
  /-- The post-fatal dump finishes its sections and rewrites its header with COMPLETE set. (R390) -/
  | depositWriteDone
  /-- The array sequencer issues the matrix instruction at an ALS address; the array reads and checks the descriptor, its sub-array table and its epilogue descriptor at issue. (R66) -/
  | mmi (n : SeqId)
  /-- An exposed B-tile load completes and the array moves from LOAD to RAMP_UP. (R61) -/
  | bTileLoadDone (n : ArrayId)
  /-- A preload of the shadow B buffer completes, or marks the buffer poisoned. (R74) -/
  | preloadDone (n : ArrayId)
  /-- The soft-start ramp-up has run RAMP cycles; the array enters ACTIVE and the first A row enters. (R70) -/
  | rampUpDone (n : ArrayId)
  /-- A waiting preloaded or kept instruction enters its first A row once its issue, its preload and the interlocks of R69 and R92 allow. (R74) -/
  | mmFirstRow (n : ArrayId)
  /-- The last accumulator row of a matrix instruction is written; a spill starts, or the epilogue becomes eligible to read. (R73) -/
  | mmAccumulationEnd (n : ArrayId)
  /-- A binary64 spill of the accumulator rows completes. (R92) -/
  | spillEnd (n : ArrayId)
  /-- The epilogue begins reading an instruction's accumulator rows once the read port and R69 allow. (R69) -/
  | epilogueStart (n : ArrayId)
  /-- An epilogue writes its last output row, its statistics records and column amax vectors; misses are declared and a REPLAY barrier is judged. (R113) -/
  | epilogueEnd (n : ArrayId)
  /-- A matrix instruction completes in issue order; ARR.ITAG_DONE and MDONE update. (R73) -/
  | mmInstructionComplete (n : ArrayId)
  /-- The ramp-down has run RAMP cycles; the array enters HELD when a hold is pending, otherwise IDLE. (R71) -/
  | rampDownDone (n : ArrayId)
  /-- A write of the ramp length takes effect at the next ramp; a value outside 16 to 64 is ignored and logged. (R70) -/
  | arrRampCfgWrite (p : Path) (n : ArrayId) (v : W32)
  /-- The die power agent raises a hold on an island's units, which stop at their hold points. (R71) -/
  | holdRaise (i : Fin 50) (engine : Option (Fin 70))
  /-- A hold is withdrawn and the held units resume. (R71) -/
  | holdRelease (i : Fin 50)
  /-- A unit of work that waited for a current reservation obtains it and begins. (R335) -/
  | reservationGranted (e : Fin 70) (amps : List Nat)
  /-- An engine's quiet debt reaches zero, so it may begin its next unit of work. (R343) -/
  | quietDebtPaid (e : Fin 70)
  /-- An accumulator element read shows a bit error; a single-bit error is corrected and counted, an uncorrectable one poisons the element and is recorded. (R78) -/
  | accEccError (n : ArrayId) (row : Fin 4096) (col : Fin 512) (uncorrectable : Bool) (tag : Fin 65536)
  /-- The array sequencer issues a rescale-table load from the ALS. (R237) -/
  | tld (n : SeqId)
  /-- A rescale-table load writes its last entry and TDONE increments. (R101) -/
  | tableLoadDone (n : ArrayId)
  /-- A write of QNT.CLEAR.TFLAG clears QNT.TFLAG_LO and QNT.TFLAG_HI. (R114) -/
  | qntClearTflag (p : Path) (n : ArrayId)
  /-- A write of QNT.CLEAR.MISS clears QNT.MISS_FIRST and QNT.MISS_POS. (R114) -/
  | qntClearMiss (p : Path) (n : ArrayId)
  /-- The array sequencer issues the vector instruction at an ALS address; the vector engine reads and checks the descriptor at issue. (R118) -/
  | vei (n : SeqId)
  /-- A vector instruction stores its last row and its statistics record, or stops on poison; VDONE and VEC.ITAG_DONE update. (R132) -/
  | vecInstructionEnd (n : ArrayId)
  /-- An ALS or DSS read shows a bit error; it is corrected and counted, or the block's poison bit is set and the error recorded. (R138) -/
  | alsEccError (st : StoreRef) (addr : Nat) (uncorrectable : Bool)
  /-- A write of ALS.SCRUB.START requests a scrub of the array's ALS. (R139) -/
  | alsScrubStart (p : Path) (n : ArrayId)
  /-- Once every access already accepted by a bank has been served, the requested ALS scrub begins. (R139) -/
  | alsScrubBegin (n : ArrayId)
  /-- An ALS scrub completes; waiting accesses proceed and see zeros. (R139) -/
  | alsScrubEnd (n : ArrayId)
  /-- A write that changes a DSS partition's owner or VALID bit starts a scrub of the partition. (R140) -/
  | dssPartOwnerWrite (p : Path) (d : DieId) (part : Fin 16) (v : W32)
  /-- A DSS partition scrub completes and SCRUBBING clears. (R140) -/
  | dssScrubEnd (d : DieId) (p : Fin 16)
  /-- A write of a channel's configuration sets its owner, quota and priority, validates or disables it, or is ignored and logged when it breaks the quota rules. (R141) -/
  | dmaChCfgWrite (p : Path) (d : DieId) (c : ChanId) (v : W32)
  /-- A write of a channel's INTERVAL arms its timer afresh and resets FIRED. (R146) -/
  | dmaTimerWrite (p : Path) (d : DieId) (c : ChanId) (v : W32)
  /-- A channel's interval timer expires and adds one start. (R146) -/
  | dmaTimerExpiry (d : DieId) (c : ChanId)
  /-- A write of a channel's START field adds n starts to PENDING. (R145) -/
  | dmaChStartWrite (p : Path) (d : DieId) (c : ChanId) (n : Fin 256)
  /-- ACTION resume restarts a halted channel at its latched burst, after a fresh translation and ownership check. (R152) -/
  | dmaResume (p : Path) (d : DieId) (c : ChanId)
  /-- ACTION skip continues a halted channel after its latched burst, or completes the transfer. (R152) -/
  | dmaSkip (p : Path) (d : DieId) (c : ChanId)
  /-- ACTION abort abandons a halted channel's descriptor; NEXT advances and the channel becomes IDLE. (R152) -/
  | dmaAbort (p : Path) (d : DieId) (c : ChanId)
  /-- A valid idle channel with starts pending takes one up and fetches and checks the descriptor at NEXT. (R145) -/
  | dmaDescriptorFetch (d : DieId) (c : ChanId)
  /-- The read engine issues a channel's next burst, once the buffer quota, the ownership check and any hold allow. (R144) -/
  | dmaBurstIssue (d : DieId) (c : ChanId) (b : Nat)
  /-- A burst's source data returns; it is decompressed where needed, or a read fault halts the channel. (R144) -/
  | dmaBurstReadDone (d : DieId) (c : ChanId) (b : Nat)
  /-- The write engine writes a burst to its destinations in ascending burst order, carrying poison onward. (R144) -/
  | dmaBurstWritten (d : DieId) (c : ChanId)
  /-- A transfer's last burst has been written; DONE_COUNT increments, NEXT advances and any chained start is given. (R147) -/
  | dmaTransferComplete (d : DieId) (c : ChanId)
  /-- A memory controller serves a read: it corrects the block, checks its tag, and decrypts the data or delivers it poisoned. (R168) -/
  | mcRead (owner : Fin 65) (pa : Nat) (len : Nat)
  /-- The MPE encrypts and tags a whole-block write, or performs the read-modify-write of a partial write. (R169) -/
  | mcWrite (owner : Fin 65) (pa : Nat) (data : List Byte)
  /-- A unit read from HBM needs correction or is uncorrectable; it is counted, written back corrected, or poisoned. (R172) -/
  | mcEccError (pa : Nat) (err : UnitErr)
  /-- The patrol timer drives the reading and correction of every unit of the stack once per pass. (R173) -/
  | mcPatrol (st : StackId) (units : List Nat) (errs : List UnitErr)
  /-- The copy of a retired row into a spare completes; the row is remapped and waiting accesses are served. (R174) -/
  | rowRetireDone (st : StackId) (ch : Fin 32) (row : Nat)
  /-- A command or write on a channel interface fails parity or CRC; it is retried, and the ninth failure retires the channel. (R175) -/
  | mcInterfaceError (st : StackId) (ch : Fin 32) (first : Bool)
  /-- An engine presents a virtual address; a TLB hit translates it, a miss starts a walk. (R164) -/
  | mmuTranslate (die : DieId) (req : Fin 5) (c : CtxId) (va : Nat) (write : Bool)
  /-- A page walk completes; the TLB is filled, or a fault is returned to the requester and latched. (R163) -/
  | pageWalkDone (die : DieId) (req : Fin 5) (c : CtxId) (va : Nat) (write : Bool)
  /-- A write of MMU.MAP.DLOCAL takes effect only while no context is resident; otherwise it is ignored and logged. (R161) -/
  | mmuMapWrite (p : Path) (v : W32)
  /-- MMU.INVAL with SCOPE 0b01 starts an invalidation of every context's translations. (R164) -/
  | mmuInvalAll (p : Path)
  /-- MMU.INVAL with SCOPE 0b10 starts an invalidation of context CTX. (R164) -/
  | mmuInvalCtx (p : Path) (c : CtxId)
  /-- MMU.INVAL with SCOPE 0b11 starts an invalidation of the page of context CTX that holds VA. (R164) -/
  | mmuInvalPage (p : Path) (c : CtxId)
  /-- An invalidation completes once walks in progress have been discarded and every access made under the old entry has been accepted. (R164) -/
  | invalidationComplete
  /-- The command starts the optimiser step on every NMU after checking the command as a whole. (R183) -/
  | nmuUpdate (q : QueueId)
  /-- An NMU fetches and checks its next update descriptor; a fault stops that NMU. (R192) -/
  | nmuDescriptorFetch (u : StackId)
  /-- An NMU writes one update block whole, or skips a block with a poisoned operand. (R191) -/
  | nmuBlockWritten (u : StackId)
  /-- A kernel-queue command binds the mirror pair after the pair-link handshake, or releases the binding. (R196) -/
  | mirrorBind (q : QueueId)
  /-- A SHARE, CERT, SIGNATURE or FINISHED MGMT packet of the pair handshake arrives over the pair link. (R367) -/
  | pairHandshakeMsgRx (p : PortId) (body : List Byte) (last : Bool)
  /-- The pair handshake succeeds and derives the GCM keys, or fails with BIND_MISMATCH. (R367) -/
  | pairHandshakeDone (good : Bool) (epoch : W32)
  /-- Sends the gradient portions of the listed blocks to the partner, and the header when CLOSE is set. (R197) -/
  | mirrorDeposit (q : QueueId)
  /-- Streams the committed weights and moments of an epoch to the partner. (R198) -/
  | mirrorSend (q : QueueId)
  /-- On the receiver after a loss, applies the deposited update to every mirror block not yet at the epoch. (R202) -/
  | mirrorRedo (q : QueueId)
  /-- The receiver writes an arriving deposit packet and opens or continues DEPOSIT_OPEN. (R200) -/
  | depositBlockRx (u : StackId) (epoch : W32) (pkt : PairPkt) (last : Bool) (good : Bool)
  /-- The closing count of a deposit is reached; the receiver enters DEPOSIT_CLOSED and acknowledges. (R197) -/
  | depositClose (epoch : W32) (count : Nat) (header : Nat)
  /-- A mirror packet arrives and is assembled in the reassembly buffer; a whole block is written. (R198) -/
  | mirrorBlockRx (u : StackId) (j : Fin 1048576) (epoch : W32) (pkt : PairPkt) (whole : Bool) (good : Bool)
  /-- Every write of a mirror block has been accepted; its map entry takes the epoch. (R198) -/
  | mirrorBlockWritten (u : StackId) (j : Fin 1048576)
  /-- The closing count of the stream has been written; PAIR_EPOCH advances and the receiver acknowledges. (R200) -/
  | mirrorStreamClose (epoch : W32) (count : Nat)
  /-- The partner's acknowledgement arrives and completes the waiting deposit or send command. (R198) -/
  | mirrorAckRx (stream : Bool) (epoch : W32)
  /-- A write of DB.TAIL advances the queue tail, or is ignored, or stops the queue on a ring overrun. (R210) -/
  | doorbellWrite (p : Path) (q : QueueId) (v : W32)
  /-- A write of DB.CQ_HEAD frees completion-ring space and releases held records. (R219) -/
  | cqHeadWrite (p : Path) (q : QueueId) (v : W32)
  /-- The front end fetches a command from a ring and checks it; a failure becomes its status. (R214) -/
  | commandFetch (q : QueueId)
  /-- A fetched command starts once its predecessor has started, its fence is met and its engines are free and held. (R215) -/
  | commandStart (q : QueueId)
  /-- A command completes; its flags merge and its completion record is written in completion order. (R219) -/
  | commandComplete (q : QueueId)
  /-- A queue's TIMEOUT_US elapses for a started command or a FENCE_WAIT; its engines are aborted and the command ends TIMEOUT. (R217) -/
  | commandTimeout (q : QueueId)
  /-- A record write meets a fault; the record goes to the orphan ring and the queue becomes ORPHANED. (R221) -/
  | completionWriteFault (q : QueueId)
  /-- Starts every named sequencer on its command list in one front-end cycle. (R232) -/
  | runList (q : QueueId)
  /-- Gives COUNT starts to each selected DMA channel. (R213) -/
  | dmaStart (q : QueueId)
  /-- Applies a resume, skip or abort action to one DMA channel. (R213) -/
  | dmaAction (q : QueueId)
  /-- The queue waits until the fence value reaches TARGET. (R216) -/
  | fenceWait (q : QueueId)
  /-- The front end rereads a waited fence after an LM1 FENCE_SIGNAL completes, or at least every 2 µs. (R216) -/
  | fencePoll (q : QueueId)
  /-- Stores the maximum of the old value and VALUE at the fence, indivisibly. (R216) -/
  | fenceSignal (q : QueueId)
  /-- Completes at once. (R212) -/
  | nop (q : QueueId)
  /-- Writes the context's flag word to memory and clears it when CLEAR is set. (R228) -/
  | flagsRead (q : QueueId)
  /-- Makes a context resident with its mode, quantum, save area, root table and address ranges. (R223) -/
  | ctxCreate (q : QueueId)
  /-- Discards a context with no remaining resources and invalidates its root table. (R223) -/
  | ctxDestroy (q : QueueId)
  /-- Creates a user queue for a context and makes it RUNNING. (R213) -/
  | queueCreate (q : QueueId)
  /-- Drains a queue: unstarted commands end ABORTED and every engine working for it is told to abort. (R229) -/
  | queueDestroy (q : QueueId)
  /-- An engine told to abort reaches its abort point and reports. (R229) -/
  | engineAbortReached (eng : Nat) (chan : Option (Fin 32)) (rows : Nat)
  /-- Every engine has reported; started commands end ABORTED and the context's stores are scrubbed. (R229) -/
  | queueDestroyDrained (q : QueueId)
  /-- The scrubs end; the report and the destroy record are written and the queue becomes DISABLED. (R229) -/
  | queueDestroyComplete (q : QueueId)
  /-- Maps a context's logical array to a physical array, or releases the mapping. (R224) -/
  | arrayAssign (q : QueueId)
  /-- Resumes a stopped or orphaned queue, optionally at a new head. (R213) -/
  | queueResume (q : QueueId)
  /-- Generates or clears the key set of a context slot in all 24 MPEs. (R366) -/
  | keyBind (q : QueueId)
  /-- Starts a TLB invalidation and completes when it completes. (R213) -/
  | tlbInval (q : QueueId)
  /-- Writes zeros under a named owner over whole 2 MiB pages of device memory. (R169) -/
  | memInit (q : QueueId)
  /-- Writes up to six aperture words with privilege, in ascending order. (R213) -/
  | regWrite (q : QueueId)
  /-- Reads up to five aperture words with privilege into memory. (R213) -/
  | regRead (q : QueueId)
  /-- A write of a kernel queue's configuration enables the queue, or is ignored and logged while the queue is enabled. (R231) -/
  | kqCfgWrite (p : Path) (k : Fin 16) (v : W32)
  /-- A holder's time-slice quantum elapses, so the array may switch at its next command boundary. (R226) -/
  | quantumExpiry (n : ArrayId)
  /-- At a command boundary a shared array begins switching to the oldest ready context; channels enter WAIT_ARRAY and state is saved. (R227) -/
  | contextSwitchBegin (n : ArrayId)
  /-- The incoming context's image is restored and the array belongs to the new holder. (R227) -/
  | contextSwitchEnd (n : ArrayId)
  /-- Sequencer: rd = ra + rb. (R236) -/
  | add (n : SeqId)
  /-- Sequencer: rd = ra − rb. (R236) -/
  | sub (n : SeqId)
  /-- Sequencer: bitwise AND of two registers. (R236) -/
  | seqAnd (n : SeqId)
  /-- Sequencer: bitwise OR of two registers. (R236) -/
  | seqOr (n : SeqId)
  /-- Sequencer: bitwise XOR of two registers. (R236) -/
  | seqXor (n : SeqId)
  /-- Sequencer: shift left by a register amount. (R236) -/
  | shl (n : SeqId)
  /-- Sequencer: logical shift right by a register amount. (R236) -/
  | shr (n : SeqId)
  /-- Sequencer: multiply modulo 2^64. (R236) -/
  | mul (n : SeqId)
  /-- Sequencer: set rd to 1 if ra < rb unsigned, else 0. (R236) -/
  | sltu (n : SeqId)
  /-- Sequencer: add a sign-extended immediate. (R236) -/
  | addi (n : SeqId)
  /-- Sequencer: AND with a zero-extended immediate. (R236) -/
  | andi (n : SeqId)
  /-- Sequencer: OR with a zero-extended immediate. (R236) -/
  | ori (n : SeqId)
  /-- Sequencer: shift left by an immediate. (R236) -/
  | shli (n : SeqId)
  /-- Sequencer: logical shift right by an immediate. (R236) -/
  | shri (n : SeqId)
  /-- Sequencer: load a 16-bit immediate into one quarter of rd. (R236) -/
  | ldh (n : SeqId)
  /-- Sequencer: load a 64-bit word from a context virtual address. (R236) -/
  | ld (n : SeqId)
  /-- Sequencer: store a 64-bit word to a context virtual address. (R236) -/
  | st (n : SeqId)
  /-- Sequencer: load a 32-bit ALS word. (R236) -/
  | lda (n : SeqId)
  /-- Sequencer: store a 32-bit ALS word, complete before the next instruction. (R237) -/
  | sta (n : SeqId)
  /-- Sequencer: branch if equal. (R236) -/
  | beq (n : SeqId)
  /-- Sequencer: branch if not equal. (R236) -/
  | bne (n : SeqId)
  /-- Sequencer: branch if less than, unsigned. (R236) -/
  | bltu (n : SeqId)
  /-- Sequencer: relative jump. (R236) -/
  | jmp (n : SeqId)
  /-- Sequencer: push the return PC and jump. (R236) -/
  | call (n : SeqId)
  /-- Sequencer: pop the PC from the return stack. (R236) -/
  | ret (n : SeqId)
  /-- Sequencer: set a loop counter. (R236) -/
  | lset (n : SeqId)
  /-- Sequencer: decrement a loop counter and branch while it is non-zero. (R236) -/
  | lnext (n : SeqId)
  /-- Exchange sequencer: issue an exchange operation into its half's start queue. (R237) -/
  | xci (n : SeqId)
  /-- Sequencer: give starts to a DMA channel or events to a sibling sequencer. (R238) -/
  | sig (n : SeqId)
  /-- Sequencer: wait for a count or a fence condition. (R239) -/
  | wait (n : SeqId)
  /-- A waiting sequencer's condition comes to hold and it resumes. (R239) -/
  | waitSatisfied (n : SeqId)
  /-- Sequencer: store the maximum of the old value and rb at a fence. (R236) -/
  | fsig (n : SeqId)
  /-- Sequencer: write a trace record carrying an immediate. (R242) -/
  | mark (n : SeqId)
  /-- Sequencer: end the list and begin draining. (R240) -/
  | seqEnd (n : SeqId)
  /-- Every operation a sequencer issued has ended; it reports its status, and siblings stop on a failure. (R240) -/
  | sequencerDrained (n : SeqId)
  /-- Advancing the trace head frees ring space and releases a stalled sequencer. (R242) -/
  | seqTraceHeadWrite (p : Path) (n : SeqId) (v : W32)
  /-- LNK.CTRL.ENABLE brings a port up from DOWN, or takes it down. (R246) -/
  | lnkEnable (p : Path) (port : PortId) (on : Bool)
  /-- LNK.CTRL.FENCE fences a port with its transmitters idle, or returns it to DETECT. (R261) -/
  | lnkFence (p : Path) (port : PortId) (on : Bool)
  /-- A write of RETRAIN retrains an UP or PROBATION port. (R246) -/
  | lnkRetrain (p : Path) (port : PortId)
  /-- LNK.CTRL.BOND requests bonding of FP[32]–FP[35]; it is logged elsewhere. (R250) -/
  | lnkBond (p : Path) (port : PortId) (on : Bool)
  /-- Signal appears on all lanes of a port in DETECT, and it moves to EQUALIZE. (R246) -/
  | signalDetect (p : LnkId)
  /-- Transmit equalisation completes and the port enters LOCK. (R246) -/
  | equalizeDone (p : LnkId)
  /-- 64 consecutive codewords decode in sequence and the port enters INIT. (R246) -/
  | lockAchieved (p : LnkId)
  /-- DETECT to INIT not completed within 500 ms; the port becomes FAILED. (R246) -/
  | trainingTimeout (p : LnkId)
  /-- One second in FAILED with ENABLE set returns the port to DETECT. (R246) -/
  | failedRetry (p : LnkId)
  /-- 50 ms without all eight lanes lets the Brixcia port lock on four lanes. (R317) -/
  | bxlHalfWidthTimeout (hi : Bool)
  /-- A port completes its error-free probation and becomes UP but not eligible. (R262) -/
  | probationEnd (p : PortId)
  /-- Each GTIME second, uncorrectable codewords over the threshold make an UP port retrain. (R247) -/
  | degradeCheck (p : LnkId)
  /-- A received RS codeword is decoded, correcting or discarding its five flits. (R245) -/
  | codewordRx (p : LnkId) (low high : List (List (BitVec 10))) (inits : List InitPar)
  /-- ACK has not advanced for 2 µs with flits outstanding; the sender replays, and the eighth such replay retrains the port. (R249) -/
  | replayTimeout (p : LnkId)
  /-- A retrain fails to reach probation within 500 ms; the replay buffer and its packets are discarded. (R249) -/
  | retrainExpiry (p : LnkId)
  /-- The 1 µs timer sends a CREDIT flit when credits are owed. (R253) -/
  | creditTimer (p : LnkId)
  /-- The router forwards the packet at the head of an input buffer on an adaptive or escape port, or drops it. (R254) -/
  | packetForward (input : Fin 38) (vc : Fin 4)
  /-- A packet stays at a buffer head longer than RTR.STALL and is dropped. (R255) -/
  | packetStallTimeout (input : Fin 38) (vc : Fin 4)
  /-- An ejected data packet is checked and moves its message record through OPEN, TAIL_SEEN, COMPLETE or BROKEN. (R260) -/
  | messagePacketRx (h : HalfId) (k : DataPkt)
  /-- After every payload write of a complete message is accepted, completion is delivered to the operation. (R260) -/
  | messageCompletion (h : HalfId) (src : Nat) (msgId : Nat)
  /-- A write of RTR.EPOCH_AT_HI arms a route-epoch advance. (R256) -/
  | rtrEpochArm (p : Path) (v : W32)
  /-- GTIME reaches the armed time; the route banks rotate and probationed ports become eligible. (R256) -/
  | epochAdvance
  /-- A write of TDATA_HI commits a table entry to the next bank. (R265) -/
  | rtrTdataCommit (p : Path) (v : W32)
  /-- A TDATA_LO write with KIND fence sets a fence-set word, taking effect at once. (R261) -/
  | rtrFenceWrite (p : Path) (v : W32)
  /-- Every PERIOD_NS the router samples each port's occupancy into its histogram. (R258) -/
  | histSample
  /-- FREEZE stops every histogram bin and records the GTIME. (R258) -/
  | histFreeze (p : Path) (on : Bool)
  /-- CLEAR zeroes every histogram bin. (R265) -/
  | histClear (p : Path)
  /-- Hands an operation descriptor to an exchange half's start queue. (R269) -/
  | collective (q : QueueId)
  /-- An exchange half begins its next queued operation: it reads and checks the descriptor and group and consumes any CARRY. (R269) -/
  | xchOpBegin (h : HalfId)
  /-- A GRANT control packet gives a child a handle, and it sends its operand. (R276) -/
  | grantRx (h : HalfId) (src : Nat) (op : Nat) (pcheck : Nat) (use : XUse) (handle : Nat) (value : Nat) (rows : List (Nat × Nat))
  /-- A COUNT control packet delivers a count; once all are known the receiver allocates and grants. (R280) -/
  | countRx (h : HalfId) (src : Nat) (op : Nat) (pcheck : Nat) (value : Nat) (counts : List Nat) (tokens : List (List Nat))
  /-- An END control packet names a missing member. (R281) -/
  | endRx (h : HalfId) (src : Nat) (op : Nat) (rank : Nat)
  /-- An ABANDON treats its sender as missing. (R282) -/
  | abandonRx (h : HalfId) (src : Abandon) (op : Nat)
  /-- A notice names a fenced member as missing and is relayed with END. (R281) -/
  | fencedNoticeRx (h : HalfId) (op : Nat) (fenced : Nat)
  /-- A DATA_RED operand lands in a router slot; with both operands present the node combines and forwards. (R277) -/
  | reductionSlotOperand (h : HalfId) (src : Nat) (msgId : Nat)
  /-- A control packet held for an unstarted operation for 1 s is discarded. (R276) -/
  | earlyPacketExpiry (i : Nat)
  /-- DEADLINE_US elapses at a node owner; children with no chunk delivered are declared late. (R283) -/
  | lateDeadline (op : Nat)
  /-- An exchange operation ends at this member with its status; XDONE increments. (R269) -/
  | xchOpEnd (op : Nat)
  /-- Requests that catalogue entries be written into both copies. (R289) -/
  | catLoad (q : QueueId)
  /-- With no DISPATCH live, the load invalidates CAT.GEN and starts writing. (R289) -/
  | catLoadBegin
  /-- The load finishes and records GEN, or fails and leaves CAT.GEN invalid. (R289) -/
  | catLoadDone
  /-- A write sets the catalogue owner, or is ignored and logged while a dispatch or load is live. (R300) -/
  | catCtrlWrite (p : Path) (v : W32)
  /-- Hands a dispatch descriptor to an exchange half. (R292) -/
  | dispatch (q : QueueId)
  /-- A receiver holds every slot count, sorts candidates, allocates rows and grants handles. (R294) -/
  | dispatchCountsComplete (op : Nat)
  /-- Rows, summaries and map entries are written and the dispatch ends. (R294) -/
  | dispatchEnd (op : Nat)
  /-- Hands a combine descriptor to an exchange half. (R297) -/
  | combine (q : QueueId)
  /-- Every mapped row has arrived; the source computes Y in ascending token order. (R297) -/
  | combineRowsArrived (op : Nat)
  /-- Increments or sets the step counter and optionally writes a state snapshot. (R306) -/
  | stepAdvance (q : QueueId)
  /-- Sets the seed, the choice-log configuration and the choice counter. (R307) -/
  | seedSet (q : QueueId)
  /-- A host register or window read is served and answered with MMIO_CMP. (R322) -/
  | mmioRd (tag : Fin 4096) (addr : Nat) (size : Nat)
  /-- A posted host write to a register or to the device-memory window. (R322) -/
  | mmioWr (addr : Nat) (poison : Bool) (data : List Byte)
  /-- A host DATA response fills a read or a cache line with the granted state. (R325) -/
  | bxlData (tag : Fin 4096) (addr : Nat) (state : Fin 4) (status : Fin 16) (poison : Bool) (data : List Byte)
  /-- A host CMP completes a write, claim, eviction, writeback or atomic. (R325) -/
  | cmp (tag : Fin 4096) (addr : Nat) (state : Fin 4) (status : Fin 16) (data : CmpData)
  /-- A translation response fills the address translation cache or yields a translation fault. (R327) -/
  | xlateRsp (tag : Fin 4096) (addr : Nat) (status : Fin 16) (page : Fin 4) (r : Bool) (w : Bool)
  /-- A host snoop invalidates a cached line and is answered with SNP_RSP. (R325) -/
  | snpInv (tag : Fin 4096) (addr : Nat)
  /-- A host snoop downgrades a cached line to S and is answered with SNP_RSP. (R325) -/
  | snpShr (tag : Fin 4096) (addr : Nat)
  /-- The host invalidates translations; XINV_DONE follows once in-flight uses drain. (R328) -/
  | xlateInv (tag : Fin 4096) (addr : Nat) (pages : Fin 1048576) (all : Bool)
  /-- A request gets no response within BXL.TIMEOUT and ends with a bus error, its tag retired. (R330) -/
  | bxlResponseTimeout (tag : Fin 4096)
  /-- Unmasking a vector whose pending bit is set sends one INTR. (R329) -/
  | bxlVecMaskWrite (p : Path) (i : Fin 64) (v : W32)
  /-- A write of BXL.CTRL.RETRAIN retrains the Brixcia port. (R332) -/
  | bxlRetrain (p : Path)
  /-- A write of BOOT_CTRL.GO starts reading the firmware image from host memory. (R331) -/
  | bootGo
  /-- The image is in boot SRAM and verification begins, or the load is rejected. (R331) -/
  | bootImageLoaded
  /-- Enters a power setpoint in the pending table. (R338) -/
  | pwrSetpoint (q : QueueId)
  /-- Enters a frequency-mode change in the pending table. (R338) -/
  | pwrMode (q : QueueId)
  /-- GTIME reaches an entry's start; the ramp or mode becomes active. (R339) -/
  | setpointActivation
  /-- Every 2 µs the scheduled and effective caps and the duty are recomputed and energy integrated. (R342) -/
  | capRecompute (uj : Nat)
  /-- Every 2 µs each rail's current is estimated; an excess over the peak stretches islands. (R334) -/
  | currentEstimate (amps : List Nat)
  /-- Every 10 ms the duty is trimmed or untrimmed against the estimate. (R344) -/
  | dutyTrim (mean : Nat) (most : Nat)
  /-- At most every 100 µs in ceiling mode, F_CEIL steps to hold the cap. (R345) -/
  | ceilingAdjust (up : Bool)
  /-- An accepted brake assertion sets the brake cap and stretches islands. (R346) -/
  | pwrBrakeAssert
  /-- An accepted release lets the brake cap rise until it lapses. (R346) -/
  | pwrBrakeRelease
  /-- An accepted regulator alert holds its rails at brake current. (R336) -/
  | vrAlertAssert (i : Fin 8)
  /-- An accepted alert release restores the rails' limits. (R336) -/
  | vrAlertRelease (i : Fin 8)
  /-- An island's supply falls 40 mV below nominal and its clock is stretched. (R336) -/
  | droopDetect (n : ArrayId)
  /-- Every 100 µs the sensors are read and the thermal cap and stack refresh adjusted. (R347) -/
  | thermalSample (junction : List Nat) (stackTemps : List Nat)
  /-- An accepted TIME_PPS edge locks, steps or slews GTIME and applies an armed set. (R350) -/
  | ppsEdge
  /-- Three seconds without an accepted edge clear LOCKED. (R350) -/
  | ppsLockLoss
  /-- A write of PWR.GTIME_SET_HI arms a set for the next edge. (R350) -/
  | gtimeSetArm (p : Path) (v : W32)
  /-- An accepted fall of PKG_RESET_N stops every island and loses every key set. (R407) -/
  | pkgResetAssert
  /-- An accepted release of PKG_RESET_N, held until PWR_GOOD has been high for 10 ms. (R406) -/
  | pkgResetRelease
  /-- PWR_GOOD is accepted high and begins the 10 ms before an effective release. (R406) -/
  | pwrGoodRise
  /-- PWR_GOOD falls while running, with the effects of a reset. (R407) -/
  | pwrGoodFall
  /-- The effective release zeroes GTIME, samples the straps and starts the boot ROM. (R406) -/
  | effectiveResetRelease (straps : Fin 512)
  /-- The colophon copies are read and verified; boot moves to PUF or halts. (R356) -/
  | colophonVerifyDone (sigsA : Bool) (sigsB : Bool)
  /-- The key-encryption key is derived and the device keys unwrapped, or the device halts. (R357) -/
  | pufUnwrapDone (ok : Bool)
  /-- A firmware image transfer begins and boot enters LOADING. (R359) -/
  | imageTransferBegin
  /-- The image is checked; it runs, or is rejected with a reason. (R360) -/
  | imageVerifyDone (digest : Bool) (rsa : Bool) (slh : Bool)
  /-- Stacks are trained and the structure key generated; READY asserts. (R362) -/
  | fwInitDone (failed : List (StackId × Fin 32)) (margins : List Nat)
  /-- A DHCP offer naming a server and a file is taken and TFTP starts. (R361) -/
  | dhcpOfferRx (addr : W32) (opts : DhcpOpts)
  /-- Every 4 s without a usable offer, the DHCP request is repeated. (R361) -/
  | dhcpRetry
  /-- A TFTP data block of the image is received and acknowledged. (R361) -/
  | tftpBlockRx (tsize : Option Nat) (block : Fin 65536) (data : List Byte)
  /-- A 1 s TFTP timeout retries, and the fifth ends the transfer with REASON 0xC. (R361) -/
  | tftpTimeout
  /-- A write of the DCB area is taken, or is ignored and logged when locked. (R364) -/
  | dcbAreaWrite (i : Fin 896) (v : W32)
  /-- A write of the commit word locks the DCB for checking, or records NO_COMMIT. (R364) -/
  | dcbCommit (v : W32)
  /-- The DCB checks finish; the fields are applied and outputs released, or the DCB is HELD. (R364) -/
  | dcbCheckDone
  /-- A TLS 1.3 handshake on port 4480 completes with client authentication, or fails. (R369) -/
  | mgmtSessionOpen (client : TlsClient) (chain : List (List Byte))
  /-- 300 s without a message closes a management session. (R369) -/
  | sessionIdleTimeout (sid : Nat)
  /-- Management message returning the public part of the colophon. (R371) -/
  | identity (sid : Nat) (h : MsgHead)
  /-- Management message requesting a signed attestation report for a nonce. (R372) -/
  | attest (sid : Nat) (h : MsgHead) (nonce : List Byte)
  /-- A signed report is generated and returned. (R372) -/
  | attestReportDone
  /-- Management REG_READ reads up to 64 register words with privilege. (R371) -/
  | mgmtRegRead (sid : Nat) (h : MsgHead) (os : List Nat)
  /-- Management REG_WRITE writes up to 64 words to the allowed pages. (R371) -/
  | mgmtRegWrite (sid : Nat) (h : MsgHead) (ws : List (Nat × Nat))
  /-- Management COUNTER_READ returns values for up to 64 counter selectors. (R382) -/
  | mgmtCounterRead (sid : Nat) (h : MsgHead) (sels : List Nat)
  /-- Management message entering a power setpoint. (R371) -/
  | setpoint (sid : Nat) (h : MsgHead) (word : W32) (start : Nat)
  /-- Management message entering a mode change. (R371) -/
  | mgmtMode (sid : Nat) (h : MsgHead) (word : W32) (start : Nat)
  /-- Management DCB write, always answered UNAVAILABLE. (R371) -/
  | dcbWrite (sid : Nat) (h : MsgHead)
  /-- Management message returning bytes of the deposit. (R391) -/
  | depositRead (sid : Nat) (h : MsgHead) (off : Nat) (len : Nat)
  /-- Management message returning bytes of the lifetime log. (R394) -/
  | logRead (sid : Nat) (h : MsgHead) (off : Nat) (len : Nat)
  /-- Changes a trust anchor and closes sessions that rested on a removed one. (R370) -/
  | trustSet (sid : Nat) (h : MsgHead) (k : Nat) (cls : Nat) (fingerprint : Nat)
  /-- Clears every context key slot, halts the front end and unlocks debug until reset. (R373) -/
  | debugUnlock (sid : Nat) (h : MsgHead)
  /-- An SMBus read at address 0x4C returns sideband status bytes. (R374) -/
  | smbusRead (o : Fin 32) (n : Fin 33) (block : Bool) (pec : Bool)
  /-- Every 100 ms the sideband values are refreshed. (R374) -/
  | smbusRefresh
  /-- Writes a context's sixteen counters to memory. (R379) -/
  | counterRead (q : QueueId)
  /-- Writes up to five counter values named by selectors to physical memory. (R382) -/
  | gcounterRead (q : QueueId)
  /-- A write of a counter slot's selection zeroes its value. (R380) -/
  | cntSelWrite (p : Path) (page : Fin 4096) (k : Fin 8) (v : W32)
  /-- At each period multiple of GTIME the selected counters are sampled into a ledger record. (R383) -/
  | ledgerSample
  /-- Writing 1 to ERR_FIRST.VALID clears the page's whole error record. (R385) -/
  | errFirstClear (p : Path) (page : Fin 4096)
  /-- Enabling a page's error interrupt while INT_RAW is set raises the vector. (R415) -/
  | intEnableWrite (p : Path) (page : Fin 4096) (on : Bool)
  /-- A write of OBS.LOG_CTRL.FLUSH requests a lifetime record with the given SHUTDOWN. (R394) -/
  | logFlush (p : Path) (v : W32)
  /-- Every 600 s of powered time a lifetime record write falls due. (R394) -/
  | logPeriodicWrite
  /-- A lifetime record flash write completes and BUSY clears. (R394) -/
  | logWriteDone
  /-- Each second, powered time and the temperature and power histograms are updated. (R392) -/
  | lifetimeSecondTick (temps : List Nat) (watts : Nat)
  /-- An array's voltage margin is measured at the first unassigned moment after 24 h, and FMAX_EFF derated. (R393) -/
  | marginMeasure (n : ArrayId) (mv : Nat)
  /-- CTRL.QUIESCE raises or withdraws a hold on every unit of the island. (R417) -/
  | ctrlQuiesce (p : Path) (i : Fin 49) (on : Bool)
  /-- Every unit of a quiesced island has stopped and STATUS.QUIESCED is set. (R417) -/
  | quiesceComplete (i : Fin 49)
  /-- CTRL.ENABLE stops or restarts a quiesced array island's clock. (R417) -/
  | ctrlEnable (p : Path) (n : ArrayId) (on : Bool)
  /-- CTRL.BLOCK_RESET empties the crossings, stops the units and resets an array or die island. (R417) -/
  | ctrlBlockReset (p : Path) (i : Fin 24)
  /-- The block reset's scrubs end and RESETTING clears. (R417) -/
  | blockResetDone (i : Fin 24)
  /-- A read of a low word captures its high word for the next read. (R413) -/
  | registerLoRead (p : Path) (w : Fin 4194304)
  /-- A write to any register without a row of its own, including RW1C clears, ignored writes and unassigned offsets. (R412) -/
  | registerWrite (p : Path) (w : Fin 4194304) (v : W32)
  /-- A low pulse on PWR_BRAKE_N shorter than 1 µs ends without being accepted and increments PWR.BRAKE_COUNT.FILTERED. (R352) -/
  | pwrBrakePulseFiltered
  /-- The management controller's 100 ms watchdog expires, its lockstep pair disagrees, or its SRAM or ROM reads uncorrectably; fatal class MGMT halts the device with REASON 0x4. (R388) -/
  | mgmtControllerFault
  /-- A handshake crossing's sequence check fails, raising fatal class CROSSING and starting the fatal path. (R388) -/
  | crossingSequenceFail (k : Fin 50)
  /-- An uncorrectable error in front-end state (queue pointers, contexts, flags, counters, seeds) raises fatal class FE_STATE. (R388) -/
  | feStateUncorrectable
  /-- An uncorrectable error in MPE key storage or in the security engine raises fatal class KEY_STORE. (R388) -/
  | keyStoreUncorrectable (st : Option StackId)
  /-- A request tag retired after a response timeout becomes free again once 2 × BXL.TIMEOUT.MS has elapsed. (R330) -/
  | bxlTagRetirementEnd (tag : Fin 4096)
  /-- The memory controller writes a corrected HBM unit back when it next has an idle cycle on that bank. (R172) -/
  | eccCorrectedWriteback (pa : Nat)
  /-- An SMBus write transaction to address 0x4C on the sideband has every write byte NAKed after the address. (R374) -/
  | smbusWrite (bytes : List Byte)
  /-- An IEEE 1149.1 test-port access performs boundary scan at any time, with debug instructions answered only after DEBUG_UNLOCK. (R373) -/
  | testPortAccess (debug : TapAccess)
deriving DecidableEq, Repr

end Sys2Proof
end

