-- ==== Sys2Proof/Decode.lean ====
section
/-!
DEFINITION. The opcode table gives the rows of this block no bits: a command is an event, not a word. No word spells one.
Rows of notes/assumptions: DESIGN CHOICE 5.
-/
namespace Sys2Proof

/-- The command that a word spells by the table's bits: none, since no row has bits. -/
def decodeTableWord (_nbits _w : Nat) : Option Instr := none

end Sys2Proof
end

