-- ==== Sys2Proof/Config.lean ====
section
/-!
DEFINITION. The values the LM1 manual leaves open: each is a constant with no body, so nothing can be proved of its value
and every statement holds whatever it is. `State.draws` counts the free values drawn, where one depends on no operand.
Rows of notes/assumptions: DEDUCED 24, 33, 38, 45, 72, 76, 109, 144, 150, 191; DESIGN CHOICE 10, 31, 51, 60, 85, 96, 100, 102,
110, 125, 131, 146, 157, 162, 168, 180, 181, 184, 185, 186, 187, 189.
-/
namespace Sys2Proof.Config

/-- The three check symbols of the 64 B of ciphertext and 2 B of tag share of a unit (R172 names the code and gives it no
polynomial). Log entry 180. -/
opaque rsCheck : List Byte → List Byte

/-- What the code finds of a unit with three or more symbols in error, by draw, before reduction to nothing, one corrected symbol or an
uncorrectable unit (R172 states what it does up to two). Log entry 180. -/
opaque rsBeyond : Nat → Nat

/-- How many further rows of an instruction have been read or stored where a hold or a scrub finds it, by draw, before reduction to
the rows that are left (R132, R139). Log entries 38, 45. -/
opaque rowsDone : Nat → Nat

/-- Whether an access in progress had been served for a line of an ALS when a scrub was requested, by draw and line (R139). Log
entry 38. -/
opaque servedLine : Nat → Nat → Bool

/-- Whether traffic from one link die to the other that has no destination fabric port takes the upper row, by the two dies (R14). Log
entry 144. -/
opaque linkRow : Nat → Nat → Bool

/-- What a 16-bit count of missed groups holds when the count does not fit (R108, R128 state no result). -/
opaque missCount : Nat → Nat

/-- The row, 1 KiB of one pseudo-channel, that holds a 64 B unit of a channel (R174 gives no placement of rows). -/
opaque rowOf : Nat → Nat

/-- ERR_INFO of the record of an event whose code the manual does not give (the MC, LNK and RTR pages: R176, R263), by block
code, event and operand. -/
opaque errInfo : Nat → Nat → Nat → Nat

/-- ERR_ADDR of such a record. -/
opaque errAddr : Nat → Nat → Nat → Nat

/-- The choice an engine makes among equals that the manual does not order (a free reduction slot, a staging block: R277), by
the draw's number. -/
opaque pick : Nat → Nat

/-- The value of an element of a reduction whose leaf map names no leaf at all (R274 gives an empty node no value). -/
opaque emptyReduction : Nat → Nat

/-- WBASE of a local expert slot that no catalogue entry names (R293 states none). -/
opaque unnamedBase : Nat → Nat

/-- An entry of a saved rescale table whose memory was lost to poison (R225 states no result), by the draw's number. -/
opaque lostEntry : Nat → Nat

/-- A count of island cycles that a trace record carries (R242): timing, which the model does not hold, by the draw's number. -/
opaque cycles : Nat → Nat

/-- The header of a command whose fetch met a fault (R214 gives its record a status and no SEQ or OPC), by the draw's
number. -/
opaque lostHeader : Nat → Nat

/-- The 128 bytes of a deposit header, as one number, from its fields (R197 gives no layout). -/
opaque headerBytes : Nat → Nat

/-- The fields of a deposit header read from bytes that this device did not write there. -/
opaque headerFields : Nat → Nat

/-- How many items a block reset discards in the crossings into its island (R21): what is in a crossing is timing, which the
model does not hold; by the draw's number. -/
opaque crossItems : Nat → Nat

/-- What a ledger record holds for a selector that names no counter (R383 states nothing), by the draw's number. -/
opaque lostSelector : Nat → Nat

/-- Which copy of a context switch is in progress between its two ends, and how many rows it has moved (R95): timing, which the
model does not hold, by the draw's number. -/
opaque xferPhase : Nat → Nat

/-- A byte that the on-die entropy source gives (R365), by the draw's number and the byte's. Log entry 184. -/
opaque entropy : Nat → Nat → Nat

/-- The root public keys that the boot ROM holds (R356): the RSA modulus and exponent, and the 32 B of the SLH-DSA key, first byte
most significant. Log entry 185. -/
opaque rootRsaN : Nat
opaque rootRsaE : Nat
opaque rootSlh : Nat

/-- What the reserved 64 KiB of a die's DSS hold at a power-up (R357), by power-up and die. Log entry 186. -/
opaque powerUpState : Nat → Nat → List Byte

/-- The secret that the fuzzy extractor yields of a power-up state and a die's helper data (R357), before reduction to 256 bits. Log
entry 186. -/
opaque fuzzyExtract : List Byte → List Byte → Nat

/-- Where in WRAPPED the two wrapped keys begin, and the length of the first (R355 gives neither). Log entry 187. -/
opaque wrappedRsaAt : Nat
opaque wrappedRsaLen : Nat
opaque wrappedSlhAt : Nat

/-- The modulus and private exponent that the bytes of an unwrapped RSA private key stand for (R355 gives no format). Log entry 187. -/
opaque rsaKeyOf : List Nat → Nat × Nat

/-- The moment for which GTIME 0 stands, in seconds of UTC from 1 March of the year 0, before the year 9507 (R349 and R370 give none). Log
entry 191. -/
opaque gtimeZero : Fin 300000000000

/-- The transcript hash of the pair handshake (R367), over the shares, the chains and the signatures of the lower and the higher side. Log
entry 189. -/
opaque transcriptHash : List (List Byte) → Nat

/-- The 32 B of a FINISHED message (R367), from the transcript hash, the sender's side, and whether it has found the handshake good. Log
entry 189. -/
opaque finishedBody : Nat → Nat → Bool → Nat

/-- R290: what a read of a catalogue entry shows: 1 a corrected bit error, 2 an uncorrectable one, otherwise none (log entry
110). -/
opaque catError : Nat → BitVec 2

/-- R334, R335: the estimated amperes of an engine's unit that begins at a time, on a rail (log entry 131). -/
opaque unitAmps : Nat → Nat → Nat → Nat

/-- The body of an INIT flit (R248): the parameters it carries, in an order the manual does not give. -/
opaque initBody : List Nat → Nat

/-- The 48 B body of a control packet between the members of a pair, whose layout the manual does not give. -/
opaque pairBody : List Nat → Nat

/-- How long an exchange half is active with a message, in ns (R343; log entry 109). -/
opaque messageNs : Nat → Nat

/-- Whether a byte of a deposit's section is lost where state is unreadable (R391; log entry 181). -/
opaque dumpLost : Nat → Nat → Bool

end Sys2Proof.Config
end

