-- ==== Sys2Proof/Machine/Tab.lean ====
section
/-!
DEFINITION. A sparse table: a list of (key, value) pairs with strictly rising keys and no entry that equals what an
unlisted key reads as. Every memory of the LM1 (bytes), the register words and the instance tables (queues, channels,
islands) are kept in this one canonical form, so that equal contents are equal data.
-/
namespace Sys2Proof

/-- Key and value pairs, keys rising; `d` below is always the value an unlisted key reads as. -/
abbrev Tab (α : Type) := List (Nat × α)

/-- The entry of key `k`, if it is listed. -/
def tabFind {α : Type} : Tab α → Nat → Option α
  | [], _ => none
  | (k', v) :: t, k => if k' = k then some v else tabFind t k

/-- What key `k` reads as. -/
def tabGet {α : Type} (d : α) (t : Tab α) (k : Nat) : α := (tabFind t k).getD d

/-- Lists `v` at `k`, in key order. -/
def tabPut {α : Type} : Tab α → Nat → α → Tab α
  | [], k, v => [(k, v)]
  | (k', v') :: t, k, v =>
    if k < k' then (k, v) :: (k', v') :: t
    else if k = k' then (k, v) :: t
    else (k', v') :: tabPut t k v

/-- Unlists `k`. -/
def tabDrop {α : Type} : Tab α → Nat → Tab α
  | [], _ => []
  | (k', v') :: t, k => if k' = k then tabDrop t k else (k', v') :: tabDrop t k

/-- Writes `v` at `k`, keeping the canonical form. -/
def tabSet {α : Type} [DecidableEq α] (d : α) (t : Tab α) (k : Nat) (v : α) : Tab α :=
  if v = d then tabDrop t k else tabPut t k v

/-- Changes the value at `k` by `f`. -/
def tabMod {α : Type} [DecidableEq α] (d : α) (t : Tab α) (k : Nat) (f : α → α) : Tab α :=
  tabSet d t k (f (tabGet d t k))

/-- Every listed key is above `lo`, keys rise, and no listed value is the default. -/
def tabWfFrom {α : Type} [DecidableEq α] (d : α) : Nat → Tab α → Bool
  | _, [] => true
  | lo, (k, v) :: t => decide (lo ≤ k) && (decide (v ≠ d) && tabWfFrom d (k + 1) t)

/-- The canonical form. -/
def tabWf {α : Type} [DecidableEq α] (d : α) (t : Tab α) : Bool := tabWfFrom d 0 t

/-- Unlists every key that `p` holds of (a scrub, a discard). -/
def tabErase {α : Type} (p : Nat → Bool) (t : Tab α) : Tab α := t.filter fun e => !p e.1

/-- The entries of one table at the keys that `p` holds of, and those of another at all others. -/
def tabMix {α : Type} [DecidableEq α] (d : α) (p : Nat → Bool) (s t : Tab α) : Tab α :=
  (tabErase (fun k => !p k) s).foldl (fun t e => tabSet d t e.1 e.2) (tabErase p t)

/-- Writes the values of `vs` at `k`, `k + 1`, … -/
def tabFill {α : Type} [DecidableEq α] (d : α) : Tab α → Nat → List α → Tab α
  | t, _, [] => t
  | t, k, v :: vs => tabFill d (tabSet d t k v) (k + 1) vs

/-- The `n` values at `k`, `k + 1`, … -/
def tabSlice {α : Type} (d : α) (t : Tab α) : Nat → Nat → List α
  | _, 0 => []
  | k, n + 1 => tabGet d t k :: tabSlice d t (k + 1) n

end Sys2Proof
end

