-- ==== Sys2Proof/Machine/Bits.lean ====
section
/-!
DEFINITION. Bit fields, byte order and CRC-32C. Every multi-byte structure the LM1 defines is little-endian (R11): a
structure read from memory is held as one natural number whose bit 8·o + i is bit i of the byte at offset o, and a field
of the manual's tables is cut out of it.
-/
namespace Sys2Proof

/-- Bits [lo + w − 1 : lo] of `x`. -/
def bits (x lo w : Nat) : Nat := x / 2 ^ lo % 2 ^ w

/-- The field of width `w` at bit `lo` of the word at byte offset `off` of a little-endian structure. -/
def fld (x off lo w : Nat) : Nat := bits x (8 * off + lo) w

/-- One bit of the word at byte offset `off`. -/
def flag (x off lo : Nat) : Bool := fld x off lo 1 == 1

/-- `x` with bits [lo + w − 1 : lo] replaced by `v`. -/
def withBits (x lo w v : Nat) : Nat :=
  x - bits x lo w * 2 ^ lo + (v % 2 ^ w) * 2 ^ lo

/-- The number the bytes spell, first byte least significant. -/
def leNat : List Byte → Nat
  | [] => 0
  | b :: bs => b.toNat + 256 * leNat bs

/-- The `n` bytes that spell `x`, least significant first. -/
def leBytes : Nat → Nat → List Byte
  | _, 0 => []
  | x, n + 1 => BitVec.ofNat 8 x :: leBytes (x / 256) n

/-- A structure laid out field by field: each entry is (bit position, width, value). -/
def pack : List (Nat × Nat × Nat) → Nat
  | [] => 0
  | (lo, w, v) :: fs => (v % 2 ^ w) * 2 ^ lo + pack fs

/-- `b` as a bit. -/
def bit (b : Bool) : Nat := if b then 1 else 0

/-- A `w`-bit two's-complement number read as an integer. -/
def sext (w x : Nat) : Int := if x % 2 ^ w < 2 ^ (w - 1) then (x % 2 ^ w : Nat) else (x % 2 ^ w : Nat) - (2 ^ w : Nat)

/-- The largest value of a saturating 32-bit counter. -/
def max32 : Nat := 4294967295

/-- A counter of `w` bits that stays at its largest value. -/
def satAdd (w x n : Nat) : Nat := min (x + n) (2 ^ w - 1)

/-- One bit step of CRC-32C, reflected, polynomial 0x1EDC6F41. -/
def crcBit (c : Nat) : Nat := if c % 2 = 1 then (c / 2) ^^^ 0x82F63B78 else c / 2

/-- `n` bit steps. -/
def crcBits : Nat → Nat → Nat
  | 0, c => c
  | n + 1, c => crcBits n (crcBit c)

/-- The running register of CRC-32C over `bs`. -/
def crcRun : List Byte → Nat → Nat
  | [], c => c
  | b :: bs, c => crcRun bs (crcBits 8 (c ^^^ b.toNat))

/-- CRC-32C (Castagnoli): initial value and final complement all ones. -/
def crc32c (bs : List Byte) : Nat := crcRun bs max32 ^^^ max32

/-- ceil(log2 n) for n ≥ 1. -/
def clog2 (n : Nat) : Nat := if n ≤ 1 then 0 else Nat.log2 (n - 1) + 1

/-- ceil(a / b). -/
def ceilDiv (a b : Nat) : Nat := (a + b - 1) / b

/-- The number of one bits among the low `n` bits of `x`. -/
def popcount : Nat → Nat → Nat
  | 0, _ => 0
  | n + 1, x => x % 2 + popcount n (x / 2)

/-- The positions of the one bits of `x` among the low `n`, ascending. -/
def setBits (n x : Nat) : List Nat := (List.range n).filter fun i => x.testBit i

end Sys2Proof
end

