-- ==== Sys2Proof/Machine/Cipher.lean ====
section
/-!
DEFINITION. Ciphers. That of the protection engines: AES-256 in XTS mode over a 64 B unit (R166) and AES-256-CMAC over a
256 B block's ciphertext, address and owner (R167); and the seal of the pair link's data packets, AES-256-GCM (R368). The
block cipher and its modes follow the standards that the manual names (FIPS 197, IEEE 1619, NIST SP 800-38B and 800-38D). Byte
strings are lists, first byte first.
Rows of notes/assumptions: DEDUCED 15, 166; PRESUMED 163.
-/
namespace Sys2Proof

/-! AES-256 -/

/-- The substitution table, its first entry the most significant byte. -/
def sboxTable : Nat :=
  0x637c777bf26b6fc53001672bfed7ab76ca82c97dfa5947f0add4a2af9ca472c0b7fd9326363ff7cc34a5e5f171d8311504c723c31896059a071280e2eb27b27509832c1a1b6e5aa0523bd6b329e32f8453d100ed20fcb15b6acbbe394a4c58cfd0efaafb434d338545f9027f503c9fa851a3408f929d38f5bcb6da2110fff3d2cd0c13ec5f974417c4a77e3d645d197360814fdc222a908846eeb814de5e0bdbe0323a0a4906245cc2d3ac629195e479e7c8376d8dd54ea96c56f4ea657aae08ba78252e1ca6b4c6e8dd741f4bbd8b8a703eb5664803f60e613557b986c11d9ee1f8981169d98e949b1e87e9ce5528df8ca1890dbfe6426841992d0fb054bb16

def subByte (x : Nat) : Nat := sboxTable / 2 ^ (8 * (255 - x % 256)) % 256

/-- Multiplication by x in GF(2^8) modulo x^8 + x^4 + x^3 + x + 1. -/
def gfDouble (x : Nat) : Nat := if x < 128 then 2 * x else (2 * x - 256) ^^^ 0x1B

/-- Two byte strings, byte by byte. -/
def xorBytes (a b : List Nat) : List Nat := List.zipWith (· ^^^ ·) a b

/-- The round constant of step `i`. -/
def roundConst : Nat → Nat
  | 0 => 1
  | i + 1 => gfDouble (roundConst i)

/-- The next word of the key schedule, from the words so far, newest first (R166). -/
def nextKeyWord (ws : List (List Nat)) (i : Nat) : List Nat :=
  let p := ws.headD []
  let t := if i % 8 = 0 then xorBytes ((p.drop 1 ++ p.take 1).map subByte) [roundConst (i / 8 - 1), 0, 0, 0]
    else if i % 8 = 4 then p.map subByte
    else p
  xorBytes (ws.getD 7 []) t

/-- The sixty words of the schedule of a 32 B key. -/
def keySchedule (key : List Nat) : List (List Nat) :=
  let first := ((List.range 8).map fun i => (key.drop (4 * i)).take 4).reverse
  ((List.range 52).foldl (fun ws i => nextKeyWord ws (i + 8) :: ws) first).reverse

/-- The key of a round, 16 B. -/
def roundKey (ws : List (List Nat)) (r : Nat) : List Nat := ((ws.drop (4 * r)).take 4).flatten

/-- The rows of the state shift: byte 4c + r comes from column c + r. -/
def shiftRows (b : List Nat) : List Nat := (List.range 16).map fun k => b.getD (4 * ((k / 4 + k % 4) % 4) + k % 4) 0

/-- One column of the state is mixed. -/
def mixColumn (c : List Nat) : List Nat :=
  (List.range 4).map fun r =>
    let a := fun k => c.getD ((r + k) % 4) 0
    gfDouble (a 0) ^^^ (gfDouble (a 1) ^^^ a 1) ^^^ a 2 ^^^ a 3

def mixColumns (b : List Nat) : List Nat := (List.range 4).flatMap fun c => mixColumn ((b.drop (4 * c)).take 4)

/-- AES-256 encryption of one 16 B block under a schedule. -/
def aesBlock (ws : List (List Nat)) (b : List Nat) : List Nat :=
  let b := (List.range 13).foldl (fun b r => xorBytes (mixColumns (shiftRows (b.map subByte))) (roundKey ws (r + 1))) (xorBytes b (roundKey ws 0))
  xorBytes (shiftRows (b.map subByte)) (roundKey ws 14)

/-! XTS (R166) -/

/-- The bytes of a number, least significant first, and the number of such bytes. -/
def littleBytes (v n : Nat) : List Nat := (List.range n).map fun i => v / 2 ^ (8 * i) % 256
def littleVal (b : List Nat) : Nat := b.foldr (fun x v => x + 256 * v) 0

/-- Multiplication of a little-endian element of GF(2^128) by its primitive element. -/
def tweakDouble (t : Nat) : Nat := if t < 2 ^ 127 then 2 * t else (2 * t - 2 ^ 128) ^^^ 0x87

/-- The sixteen-byte blocks of a data unit, each under its own tweak. -/
def xtsBlocks (k1 : List (List Nat)) : Nat → Nat → List Nat → List Nat
  | 0, _, _ => []
  | n + 1, t, p =>
    let w := littleBytes t 16
    xorBytes (aesBlock k1 (xorBytes (p.take 16) w)) w ++ xtsBlocks k1 n (tweakDouble t) (p.drop 16)

/-- AES-256-XTS of a data unit of whole blocks: the 64 B key Key1 ‖ Key2 and the data unit sequence number. -/
def xtsEncrypt (key : List Nat) (seq : Nat) (plain : List Nat) : List Nat :=
  let t := littleVal (aesBlock (keySchedule (key.drop 32)) (littleBytes seq 16))
  xtsBlocks (keySchedule (key.take 32)) (plain.length / 16) t plain

/-! CMAC (R167) -/

/-- The number whose most significant byte comes first. -/
def bigVal (b : List Nat) : Nat := b.foldl (fun v x => 256 * v + x) 0
def bigBytes (v n : Nat) : List Nat := (littleBytes v n).reverse

/-- The chain over the whole blocks of a message but the last. -/
def cmacChain (k : List (List Nat)) : Nat → List Nat → List Nat → List Nat
  | 0, x, _ => x
  | n + 1, x, m => cmacChain k n (aesBlock k (xorBytes x (m.take 16))) (m.drop 16)

/-- AES-256-CMAC of a message, 16 B. -/
def aesCmac (key m : List Nat) : List Nat :=
  let k := keySchedule key
  let l := bigVal (aesBlock k (List.replicate 16 0))
  let k1 := tweakDouble l
  let n := (m.length - 1) / 16
  let last := m.drop (16 * n)
  let whole := last.length = 16
  let x := if whole then xorBytes last (bigBytes k1 16)
    else xorBytes (last ++ 0x80 :: List.replicate (15 - last.length) 0) (bigBytes (tweakDouble k1) 16)
  aesBlock k (xorBytes (cmacChain k n (List.replicate 16 0) m) x)

/-! GCM (R368) -/

/-- The product of two blocks in the field of GCM, a block's first bit being its coefficient of x^0. -/
def ghashMul : Nat → Nat → Nat → Nat → Nat
  | 0, _, _, z => z
  | k + 1, x, v, z =>
    ghashMul k (2 * x % 2 ^ 128) (if v % 2 = 1 then v / 2 ^^^ (0xE1 * 2 ^ 120) else v / 2) (if x ≥ 2 ^ 127 then z ^^^ v else z)

/-- The hash over whole blocks. -/
def ghash (h : Nat) : Nat → Nat → List Nat → Nat
  | 0, y, _ => y
  | n + 1, y, m => ghash h n (ghashMul 128 (y ^^^ bigVal (m.take 16)) h 0) (m.drop 16)

/-- A string filled with zeros to whole blocks. -/
def padBlocks (m : List Nat) : List Nat := m ++ List.replicate ((16 - m.length % 16) % 16) 0

/-- Counter mode from a counter value. -/
def ctrBlocks (k : List (List Nat)) (nonce : List Nat) : Nat → Nat → List Nat → List Nat
  | 0, _, _ => []
  | n + 1, c, p => xorBytes (aesBlock k (nonce ++ bigBytes c 4)) (p.take 16) ++ ctrBlocks k nonce n (c + 1) (p.drop 16)

/-- AES-256-GCM with a 12 B nonce: the ciphertext and its 16 B tag. -/
def gcmSeal (key nonce aad plain : List Nat) : List Nat :=
  let k := keySchedule key
  let c := ctrBlocks k nonce ((plain.length + 15) / 16) 2 plain
  let m := padBlocks aad ++ padBlocks c ++ bigBytes (8 * aad.length) 8 ++ bigBytes (8 * c.length) 8
  c ++ xorBytes (bigBytes (ghash (bigVal (aesBlock k (List.replicate 16 0))) (m.length / 16) 0 m) 16) (aesBlock k (nonce ++ bigBytes 1 4))

/-- Bytes as numbers, and numbers as bytes. -/
def nats (b : List Byte) : List Nat := b.map (·.toNat)
def ofNats (b : List Nat) : List Byte := b.map (BitVec.ofNat 8)

/-- The nonce of the pair's data packet `ctr` in a direction: 32 zero bits and the counter; and its additional data, header bytes 0x04 to
0x1B (R368). -/
def pairNonce (ctr : Nat) : List Nat := List.replicate 4 0 ++ littleBytes ctr 8
def pairAad (head : List Byte) : List Nat := nats ((head.drop 4).take 24)

/-- The payload of the pair's data packet `ctr` under the key of its direction (R367, R368). -/
def pairSeal (key : List Nat) (ctr : Nat) (head plain : List Byte) : List Byte :=
  ofNats (gcmSeal key (pairNonce ctr) (pairAad head) (nats plain))

/-! The units and blocks of device memory -/

/-- The 64 B XTS key and the 32 B CMAC key of a key set (R165). -/
def xtsKey (set : List Nat) : List Nat := set.take 64
def cmacKey (set : List Nat) : List Nat := (set.drop 64).take 32

/-- The ciphertext of a 64 B unit under a key set: its sequence number is PA[43:6] (R166). -/
def unitCipher (set : List Nat) (pa : Nat) (plain : List Byte) : List Byte :=
  ofNats (xtsEncrypt (xtsKey set) (pa / 64 % 2 ^ 38) (nats plain))

/-- The message a block's tag is taken over: its ciphertext, PA[43:8] and the owner number (R167). -/
def tagMessage (owner block : Nat) (cipher : List Byte) : List Nat :=
  nats cipher ++ littleBytes (block % 2 ^ 36) 8 ++ [owner]

/-- The 64-bit tag of a block under an owner's key set, its leftmost byte most significant (R167). -/
def blockTag (set : List Nat) (owner block : Nat) (cipher : List Byte) : Nat :=
  bigVal ((aesCmac (cmacKey set) (tagMessage owner block cipher)).take 8)

end Sys2Proof
end

