-- ==== Sys2Proof/Machine/Hash.lean ====
section
/-!
DEFINITION. The hash functions that the manual names: SHA-384 (R360, R367, R370, R372), SHA-256 for the SLH-DSA-SHA2-128s signatures
(R355), HMAC, HKDF-SHA-384 (R357, R367) and MGF1 (R355), after FIPS 180-4, RFC 2104, RFC 5869 and RFC 8017. Byte strings are lists of
numbers below 256, first byte first.
Rows of notes/assumptions: PRESUMED 199.
-/
namespace Sys2Proof

/-- One of the SHA-2 functions: the bits of a word, the rounds, the rotations of Σ0, Σ1, σ0 and σ1 (the last of the σ a shift), and the
initial words. -/
structure Sha where
  w : Nat
  rounds : Nat
  s0 : Nat × Nat × Nat
  s1 : Nat × Nat × Nat
  m0 : Nat × Nat × Nat
  m1 : Nat × Nat × Nat
  init : List Nat
deriving DecidableEq, Repr

/-- The round constants of SHA-512, eighty words of 64 bits, the first most significant: those of SHA-256 are the upper halves of the
first sixty-four. -/
def shaTable : Nat :=
  0x428a2f98d728ae227137449123ef65cdb5c0fbcfec4d3b2fe9b5dba58189dbbc3956c25bf348b53859f111f1b605d019923f82a4af194f9bab1c5ed5da6d8118d807aa98a303024212835b0145706fbe243185be4ee4b28c550c7dc3d5ffb4e272be5d74f27b896f80deb1fe3b1696b19bdc06a725c71235c19bf174cf692694e49b69c19ef14ad2efbe4786384f25e30fc19dc68b8cd5b5240ca1cc77ac9c652de92c6f592b02754a7484aa6ea6e4835cb0a9dcbd41fbd476f988da831153b5983e5152ee66dfaba831c66d2db43210b00327c898fb213fbf597fc7beef0ee4c6e00bf33da88fc2d5a79147930aa72506ca6351e003826f142929670a0e6e7027b70a8546d22ffc2e1b21385c26c9264d2c6dfc5ac42aed53380d139d95b3df650a73548baf63de766a0abb3c77b2a881c2c92e47edaee692722c851482353ba2bfe8a14cf10364a81a664bbc423001c24b8b70d0f89791c76c51a30654be30d192e819d6ef5218d69906245565a910f40e35855771202a106aa07032bbd1b819a4c116b8d2d0c81e376c085141ab532748774cdf8eeb9934b0bcb5e19b48a8391c0cb3c5c95a634ed8aa4ae3418acb5b9cca4f7763e373682e6ff3d6b2b8a3748f82ee5defb2fc78a5636f43172f6084c87814a1f0ab728cc702081a6439ec90befffa23631e28a4506cebde82bde9bef9a3f7b2c67915c67178f2e372532bca273eceea26619cd186b8c721c0c207eada7dd6cde0eb1ef57d4f7fee6ed17806f067aa72176fba0a637dc5a2c898a6113f9804bef90dae1b710b35131c471b28db77f523047d8432caab7b40c724933c9ebe0a15c9bebc431d67c49c100d4c4cc5d4becb3e42b6597f299cfc657e2a5fcb6fab3ad6faec6c44198c4a475817

/-- The words of a number of `n` words of `w` bits, the first most significant. -/
def bigWords (w n v : Nat) : List Nat := (List.range n).map fun i => v / 2 ^ (w * (n - 1 - i)) % 2 ^ w

/-- SHA-256. -/
def sha256p : Sha where
  w := 32
  rounds := 64
  s0 := (2, 13, 22)
  s1 := (6, 11, 25)
  m0 := (7, 18, 3)
  m1 := (17, 19, 10)
  init := bigWords 32 8 0x6a09e667bb67ae853c6ef372a54ff53a510e527f9b05688c1f83d9ab5be0cd19

/-- SHA-384. -/
def sha384p : Sha where
  w := 64
  rounds := 80
  s0 := (28, 34, 39)
  s1 := (14, 18, 41)
  m0 := (1, 8, 7)
  m1 := (19, 61, 6)
  init := bigWords 64 8 0xcbbb9d5dc1059ed8629a292a367cd5079159015a3070dd17152fecd8f70e593967332667ffc00b318eb44a8768581511db0c2e0d64f98fa747b5481dbefa4fa4

namespace ShaOps

/-- Rotation right of a word. -/
def rotr (w n x : Nat) : Nat := x / 2 ^ n + x % 2 ^ n * 2 ^ (w - n)

def rot3 (w : Nat) (r : Nat × Nat × Nat) (x : Nat) : Nat := rotr w r.1 x ^^^ rotr w r.2.1 x ^^^ rotr w r.2.2 x
def shift3 (w : Nat) (r : Nat × Nat × Nat) (x : Nat) : Nat := rotr w r.1 x ^^^ rotr w r.2.1 x ^^^ (x / 2 ^ r.2.2)

/-- The next word of the message schedule, from the words so far, newest first. -/
def nextWord (p : Sha) (ws : List Nat) : Nat :=
  (shift3 p.w p.m1 (ws.getD 1 0) + ws.getD 6 0 + shift3 p.w p.m0 (ws.getD 14 0) + ws.getD 15 0) % 2 ^ p.w

/-- The schedule of a block of sixteen words. -/
def schedule (p : Sha) (block : List Nat) : List Nat :=
  ((List.range (p.rounds - 16)).foldl (fun ws _ => nextWord p ws :: ws) block.reverse).reverse

/-- The constant of a round. -/
def roundWord (p : Sha) (i : Nat) : Nat := shaTable / 2 ^ (64 * (79 - i)) % 2 ^ 64 / 2 ^ (64 - p.w)

/-- One round over the eight working words. -/
def round (p : Sha) (v : List Nat) (kw : Nat) : List Nat :=
  match v with
  | [a, b, c, d, e, f, g, h] =>
    let t := h + rot3 p.w p.s1 e + (e &&& f ^^^ (2 ^ p.w - 1 - e) &&& g) + kw
    [(t + rot3 p.w p.s0 a + (a &&& b ^^^ a &&& c ^^^ b &&& c)) % 2 ^ p.w, a, b, c, (d + t) % 2 ^ p.w, e, f, g]
  | _ => v

/-- One block into the chaining words. -/
def compress (p : Sha) (h block : List Nat) : List Nat :=
  let kw := (schedule p block).zipIdx.map fun e => e.1 + roundWord p e.2
  List.zipWith (fun x y => (x + y) % 2 ^ p.w) h (kw.foldl (round p) h)

/-- The words of a block of bytes. -/
def blockWords (p : Sha) (m : List Nat) : List Nat :=
  (List.range 16).map fun i => bigVal ((m.drop (p.w / 8 * i)).take (p.w / 8))

/-- The whole blocks of a padded message. -/
def blocks (p : Sha) : Nat → List Nat → List Nat → List Nat
  | 0, h, _ => h
  | n + 1, h, m => blocks p n (compress p h (blockWords p (m.take (2 * p.w)))) (m.drop (2 * p.w))

/-- The padding of a message of `n` bytes: a one bit, zeros, and the length in bits in a quarter of a word pair. -/
def padding (p : Sha) (n : Nat) : List Nat :=
  let block := 2 * p.w
  0x80 :: List.replicate ((2 * block - 1 - p.w / 4 - n % block) % block) 0 ++ bigBytes (8 * n) (p.w / 4)

/-- The digest of a message, eight words. -/
def digest (p : Sha) (m : List Nat) : List Nat :=
  let all := m ++ padding p m.length
  (blocks p (all.length / (2 * p.w)) p.init all).flatMap fun x => bigBytes x (p.w / 8)

end ShaOps

/-- SHA-256 of a byte string, 32 B. -/
def sha256 (m : List Nat) : List Nat := ShaOps.digest sha256p m

/-- SHA-384 of a byte string, 48 B. -/
def sha384 (m : List Nat) : List Nat := (ShaOps.digest sha384p m).take 48

/-- SHA-384 of bytes, as the number that `leBytes` writes out as the digest. -/
def sha384Of (m : List Byte) : Nat := littleVal (sha384 (nats m))

/-- HMAC over a hash function with blocks of `block` bytes. -/
def hmac (hash : List Nat → List Nat) (block : Nat) (key m : List Nat) : List Nat :=
  let k := if key.length > block then hash key else key
  let k := k ++ List.replicate (block - k.length) 0
  hash (k.map (· ^^^ 0x5C) ++ hash (k.map (· ^^^ 0x36) ++ m))

def hmac384 : List Nat → List Nat → List Nat := hmac sha384 128

/-- The first block of HKDF-SHA-384, up to 48 B: extract with a salt, an empty one being 48 zero bytes, and expand with an info
string (RFC 5869). -/
def hkdf384 (salt ikm info : List Nat) (n : Nat) : List Nat :=
  let prk := hmac384 (if salt.isEmpty then List.replicate 48 0 else salt) ikm
  (hmac384 prk (info ++ [1])).take n

/-- MGF1 over a hash function: `n` bytes from a seed. -/
def mgf1 (hash : List Nat → List Nat) (size : Nat) (seed : List Nat) (n : Nat) : List Nat :=
  ((List.range ((n + size - 1) / size)).flatMap fun i => hash (seed ++ bigBytes i 4)).take n

/-- The bytes of an ASCII string. -/
def asciiBytes (t : String) : List Nat := t.toList.map (·.toNat)

end Sys2Proof
end

