-- ==== Sys2Proof/Machine/PubKey.lean ====
section
/-!
DEFINITION. The security engine's other primitives: RSASSA-PSS with RSA-3072 (R355, R367, R372; RFC 8017), ECDH on P-384 (R367; NIST SP
800-56A), AES-256 key unwrapping with padding (R355, R357; NIST SP 800-38F), the CTR_DRBG with AES-256 (R365; NIST SP 800-90A), and
opening what AES-256-GCM sealed (R368).
Rows of notes/assumptions: DEDUCED 166; PRESUMED 199.
-/
namespace Sys2Proof

/-! RSASSA-PSS -/

/-- An RSA public key. -/
structure RsaPub where
  n : Nat := 0
  e : Nat := 0
deriving DecidableEq, Repr

/-- `x ^ e` modulo `n`, over the lowest `k` bits of the exponent. -/
def powMod (n : Nat) : Nat → Nat → Nat → Nat
  | 0, _, _ => 1 % n
  | k + 1, x, e => (if e % 2 = 1 then x else 1) * powMod n k (x * x % n) (e / 2) % n

/-- The hash that a PSS encoding carries, of a message and a salt. -/
def pssHash (m salt : List Nat) : List Nat := sha384 (List.replicate 8 0 ++ sha384 m ++ salt)

/-- The 384 B encoding of a message under a 48 B salt. -/
def pssEncode (m salt : List Nat) : List Nat :=
  let h := pssHash m salt
  let db := xorBytes (List.replicate 286 0 ++ 1 :: salt) (mgf1 sha384 48 h 335)
  db.headD 0 % 128 :: db.drop 1 ++ h ++ [0xBC]

/-- Whether an encoding is one of a message, in `n` bits (RFC 8017, 9.1.2, with a salt of 48 B). -/
def pssVerify (n : Nat) (m em : List Nat) : Bool :=
  let len := (n + 7) / 8
  let top := 2 ^ (n - 8 * (len - 1))
  let h := (em.drop (len - 49)).take 48
  let db := xorBytes (em.take (len - 49)) (mgf1 sha384 48 h (len - 49))
  let db := db.headD 0 % top :: db.drop 1
  em.length == len && decide (98 ≤ len) && em.getD (len - 1) 0 == 0xBC && decide (em.headD 0 < top) &&
    db.take (len - 97) == List.replicate (len - 98) 0 ++ [1] && h == pssHash m (db.drop (len - 97))

/-- Whether a signature is one of a message under a public key: of 384 B for a modulus of 3,072 bits. -/
def rsaVerify (k : RsaPub) (m sig : List Nat) : Bool :=
  let n := k.n.log2
  let v := powMod k.n (k.e.log2 + 1) (bigVal sig) k.e
  sig.length == (n + 8) / 8 && decide (bigVal sig < k.n) && decide (v < 2 ^ n) && pssVerify n m (bigBytes v ((n + 7) / 8))

/-- The signature of a message under a modulus and a private exponent, with a salt. -/
def rsaSign (n d : Nat) (m salt : List Nat) : List Nat := bigBytes (powMod n 3072 (bigVal (pssEncode m salt)) d) 384

/-! ECDH on P-384 -/

namespace P384

def p : Nat := 2 ^ 384 - 2 ^ 128 - 2 ^ 96 + 2 ^ 32 - 1
def b : Nat := 0xb3312fa7e23ee7e4988e056be3f82d19181d9c6efe8141120314088f5013875ac656398d8a2ed19d2a85c8edd3ec2aef
/-- The order of the base point. -/
def order : Nat := 0xffffffffffffffffffffffffffffffffffffffffffffffffc7634d81f4372ddf581a0db248b0a77aecec196accc52973
def baseX : Nat := 0xaa87ca22be8b05378eb1c71ef320ad746e1d3b628ba79b9859f741e082542a385502f25dbf55296c3a545e3872760ab7
def baseY : Nat := 0x3617de4a96262c6f5d9e98bf9292dc29f8f41dbd289a147ce9da3113b5f0b8c00a60b1ce1d7e819d7a431d7c90ea0e5f

/-- A point in Jacobian coordinates: z = 0 is the point at infinity. -/
structure Point where
  x : Nat
  y : Nat
  z : Nat
deriving DecidableEq, Repr

def mul (a c : Nat) : Nat := a * c % p
def sub (a c : Nat) : Nat := (a + (p - c % p)) % p

/-- A point and itself. -/
def double (q : Point) : Point :=
  let zz := mul q.z q.z
  let s := mul 4 (mul q.x (mul q.y q.y))
  let m := mul 3 (mul (sub q.x zz) (q.x + zz))
  let x := sub (mul m m) (2 * s)
  let yy := mul q.y q.y
  { x := x, y := sub (mul m (sub s x)) (mul 8 (mul yy yy)), z := mul 2 (mul q.y q.z) }

/-- The sum of two points. -/
def add (q r : Point) : Point :=
  if q.z = 0 then r else if r.z = 0 then q
  else
    let zq := mul q.z q.z
    let zr := mul r.z r.z
    let u := mul q.x zr
    let s := mul q.y (mul zr r.z)
    let h := sub (mul r.x zq) u
    let d := sub (mul r.y (mul zq q.z)) s
    if h = 0 then (if d = 0 then double q else { x := 1, y := 1, z := 0 })
    else
      let hh := mul h h
      let v := mul u hh
      let x := sub (sub (mul d d) (mul h hh)) (2 * v)
      { x := x, y := sub (mul d (sub v x)) (mul s (mul h hh)), z := mul h (mul q.z r.z) }

/-- A multiple of a point, over the lowest `k` bits of the factor. -/
def times : Nat → Nat → Point → Point
  | 0, _, _ => { x := 1, y := 1, z := 0 }
  | k + 1, n, q => let r := times k (n / 2) (double q)
    if n % 2 = 1 then add q r else r

/-- The coordinates of a point other than the one at infinity. -/
def affine (q : Point) : Nat × Nat :=
  let i := powMod p 384 (q.z % p) (p - 2)
  (mul q.x (mul i i), mul q.y (mul i (mul i i)))

/-- Whether coordinates are those of a point of the curve. -/
def onCurve (x y : Nat) : Bool := decide (x < p) && decide (y < p) && mul y y == (mul x (mul x x) + 3 * (p - x) + b) % p

end P384

/-- The public share of a private scalar: 97 B, uncompressed. -/
def ecShare (d : Nat) : List Nat :=
  let a := P384.affine (P384.times 384 d ⟨P384.baseX, P384.baseY, 1⟩)
  4 :: bigBytes a.1 48 ++ bigBytes a.2 48

/-- The secret that a scalar below the order shares with a peer's share: the x-coordinate, 48 B. `none` for a share that is no point of the
curve; no other multiple of a point is the one at infinity, the order being prime. -/
def ecSecret (d : Nat) (share : List Nat) : Option (List Nat) :=
  let x := bigVal ((share.drop 1).take 48)
  let y := bigVal ((share.drop 49).take 48)
  if share.length = 97 && share.headD 0 == 4 && P384.onCurve x y then
    some (bigBytes (P384.affine (P384.times 384 d ⟨x, y, 1⟩)).1 48)
  else none

/-! AES-256 key unwrapping -/

def invSboxTable : Nat :=
  0x52096ad53036a538bf40a39e81f3d7fb7ce339829b2fff87348e4344c4dee9cb547b9432a6c2233dee4c950b42fac34e082ea16628d924b2765ba2496d8bd12572f8f66486689816d4a45ccc5d65b6926c704850fdedb9da5e154657a78d9d8490d8ab008cbcd30af7e45805b8b34506d02c1e8fca3f0f02c1afbd0301138a6b3a9111414f67dcea97f2cfcef0b4e67396ac7422e7ad3585e2f937e81c75df6e47f11a711d29c5896fb7620eaa18be1bfc563e4bc6d279209adbc0fe78cd5af41fdda8338807c731b11210592780ec5f60517fa919b54a0d2de57a9f93c99cefa0e03b4dae2af5b0c8ebbb3c83539961172b047eba77d626e169146355210c7d

def invSubByte (x : Nat) : Nat := invSboxTable / 2 ^ (8 * (255 - x % 256)) % 256
def invShiftRows (b : List Nat) : List Nat := (List.range 16).map fun k => b.getD (4 * ((k / 4 + 4 - k % 4) % 4) + k % 4) 0

/-- One column of the state is unmixed. -/
def invMixColumn (c : List Nat) : List Nat :=
  (List.range 4).map fun r =>
    let a := fun k => c.getD ((r + k) % 4) 0
    let d := gfDouble
    d (d (d (a 0 ^^^ a 1 ^^^ a 2 ^^^ a 3) ^^^ a 0 ^^^ a 2) ^^^ a 0 ^^^ a 1) ^^^ a 1 ^^^ a 2 ^^^ a 3

def invMixColumns (b : List Nat) : List Nat := (List.range 4).flatMap fun c => invMixColumn ((b.drop (4 * c)).take 4)

/-- AES-256 decryption of one 16 B block under a schedule. -/
def aesInverse (ws : List (List Nat)) (b : List Nat) : List Nat :=
  let b := (invShiftRows (xorBytes b (roundKey ws 14))).map invSubByte
  let b := (List.range 13).foldl (fun b i => (invShiftRows (invMixColumns (xorBytes b (roundKey ws (13 - i))))).map invSubByte) b
  xorBytes b (roundKey ws 0)

/-- The steps of the unwrapping function over `n` eight-byte registers, step `t` downward: the first register and the others. -/
def unwrapSteps (k : List (List Nat)) (n : Nat) : Nat → List Nat × List (List Nat) → List Nat × List (List Nat)
  | 0, x => x
  | t + 1, (a, rs) =>
    let i := t % n
    let b := aesInverse k (xorBytes a (bigBytes (t + 1) 8) ++ rs.getD i [])
    unwrapSteps k n t (b.take 8, rs.set i (b.drop 8))

/-- Unwrapping of a key with padding under a 32 B key: `none` where the integrity check fails. -/
def kwpUnwrap (kek c : List Nat) : Option (List Nat) :=
  let n := c.length / 8 - 1
  let k := keySchedule kek
  let x : List Nat × List Nat :=
    if n = 1 then let b := aesInverse k c
      (b.take 8, b.drop 8)
    else
      let r := unwrapSteps k n (6 * n) (c.take 8, (List.range n).map fun i => (c.drop (8 * i + 8)).take 8)
      (r.1, r.2.flatten)
  let len := bigVal (x.1.drop 4)
  if c.length % 8 = 0 && decide (1 ≤ n) && bigVal (x.1.take 4) == 0xA65959A6 && decide (8 * (n - 1) < len) && decide (len ≤ 8 * n) &&
      (x.2.drop len).all (· == 0) then some (x.2.take len)
  else none

/-! The CTR_DRBG -/

/-- The state of the generator: key, V, and the requests since it was seeded. -/
structure Drbg where
  key : List Nat := []
  v : Nat := 0
  count : Nat := 0
deriving DecidableEq, Repr

/-- `n` blocks of output after V. -/
def drbgBlocks (d : Drbg) (n : Nat) : List Nat :=
  let k := keySchedule d.key
  (List.range n).flatMap fun i => aesBlock k (bigBytes ((d.v + i + 1) % 2 ^ 128) 16)

/-- The update with 48 B of provided data. -/
def drbgUpdate (d : Drbg) (data : List Nat) : Drbg :=
  let t := xorBytes (drbgBlocks d 3) data
  { d with key := t.take 32, v := bigVal (t.drop 32) }

/-- A generator seeded with 48 B of entropy. -/
def drbgSeed (entropy : List Nat) : Drbg := { drbgUpdate { key := List.replicate 32 0 } entropy with count := 1 }

/-- A generator seeded again. -/
def drbgReseed (d : Drbg) (entropy : List Nat) : Drbg := { drbgUpdate d entropy with count := 1 }

/-- A request for `n` bytes. -/
def drbgBytes (d : Drbg) (n : Nat) : Drbg × List Nat :=
  let m := (n + 15) / 16
  let next := drbgUpdate { d with v := (d.v + m) % 2 ^ 128 } (List.replicate 48 0)
  ({ next with count := d.count + 1 }, (drbgBlocks d m).take n)

/-! AES-256-GCM opened -/

/-- The plaintext of what AES-256-GCM sealed, the 16 B tag last: `none` where the tag does not agree. -/
def gcmOpen (key nonce aad sealed : List Nat) : Option (List Nat) :=
  let n := sealed.length - 16
  let c := sealed.take n
  let plain := ctrBlocks (keySchedule key) nonce ((n + 15) / 16) 2 c
  if decide (16 ≤ sealed.length) && gcmSeal key nonce aad plain == sealed then some plain else none

/-- The plaintext of the pair's data packet `ctr` under the key of its direction (R368): `none` where its tag fails. -/
def pairOpen (key : List Nat) (ctr : Nat) (head sealed : List Byte) : Option (List Byte) :=
  (gcmOpen key (pairNonce ctr) (pairAad head) (nats sealed)).map ofNats

end Sys2Proof
end

