-- ==== Sys2Proof/Machine/Regs.lean ====
section
/-!
DEFINITION. The register aperture (R411–R421): which page an offset lies in, which word of the page it names, and, for
every register of every page, which bits take which kind of write and what the word holds after reset.
-/
namespace Sys2Proof

/-- The blocks of R416, with the two kinds of page that have no header. -/
inductive Block where
  | dev | mbx | pwr | obs | sec | fe
  | arr | acc | vec | seq | als | qnt
  | dss | dma | noc | dpw
  | mc | mpe | nmu
  | lnk | rtr | xch | cat | bxl | mmu
  | catWin | doorbell
deriving DecidableEq, Repr

/-- ID.BLOCK of a page (R416). -/
def blockCode : Block → Nat
  | .dev => 0x01 | .mbx => 0x02 | .pwr => 0x03 | .obs => 0x04 | .sec => 0x05 | .fe => 0x08
  | .arr => 0x10 | .acc => 0x11 | .vec => 0x12 | .seq => 0x13 | .als => 0x14 | .qnt => 0x15
  | .dss => 0x18 | .dma => 0x19 | .noc => 0x1A | .dpw => 0x1B
  | .mc => 0x20 | .mpe => 0x21 | .nmu => 0x22
  | .lnk => 0x28 | .rtr => 0x29 | .xch => 0x2A | .cat => 0x2B | .bxl => 0x30 | .mmu => 0x31
  | .catWin => 0 | .doorbell => 0

/-- The base of page `i` of a block (R411, R414). -/
def pageBase (b : Block) (i : Nat) : Nat :=
  match b with
  | .dev => 0x0000000 | .mbx => 0x0001000 | .pwr => 0x0002000 | .obs => 0x0003000 | .sec => 0x0004000
  | .fe => 0x0010000 + 0x1000 * i
  | .arr => 0x0100000 + 0x10000 * i
  | .acc => 0x0101000 + 0x10000 * i
  | .vec => 0x0102000 + 0x10000 * i
  | .seq => 0x0103000 + 0x10000 * i
  | .als => 0x0104000 + 0x10000 * i
  | .qnt => 0x0105000 + 0x10000 * i
  | .dss => 0x0300000 + 0x10000 * i
  | .dma => 0x0301000 + 0x10000 * i
  | .noc => 0x0302000 + 0x10000 * i
  | .dpw => 0x0303000 + 0x10000 * i
  | .mc => 0x0380000 + 0x4000 * i
  | .mpe => 0x0381000 + 0x4000 * i
  | .nmu => 0x0382000 + 0x4000 * i
  | .lnk => 0x0400000 + 0x1000 * i
  | .rtr => 0x0440000 | .xch => 0x0450000 | .cat => 0x0460000 | .catWin => 0x0461000
  | .bxl => 0x0480000 | .mmu => 0x04C0000
  | .doorbell => 0x0800000 + 0x1000 * i

/-- The page an aperture offset lies in, by its block and instance; `none` for an unassigned range (R411). -/
def pageOf (off : Nat) : Option (Block × Nat) :=
  let p := off / 0x1000
  if off ≥ 2 ^ 24 then none
  else if p = 0 then some (.dev, 0)
  else if p = 1 then some (.mbx, 0)
  else if p = 2 then some (.pwr, 0)
  else if p = 3 then some (.obs, 0)
  else if p = 4 then some (.sec, 0)
  else if p < 0x10 then none
  else if p < 0x14 then some (.fe, p - 0x10)
  else if p < 0x100 then none
  else if p < 0x240 then
    let n := (p - 0x100) / 16
    match (p - 0x100) % 16 with
    | 0 => some (.arr, n)
    | 1 => some (.acc, n)
    | 2 => some (.vec, n)
    | 3 => some (.seq, n)
    | 4 => some (.als, n)
    | 5 => some (.qnt, n)
    | _ => none
  else if p < 0x300 then none
  else if p < 0x340 then
    let d := (p - 0x300) / 16
    match (p - 0x300) % 16 with
    | 0 => some (.dss, d)
    | 1 => some (.dma, d)
    | 2 => some (.noc, d)
    | 3 => some (.dpw, d)
    | _ => none
  else if p < 0x380 then none
  else if p < 0x3E0 then
    let s := (p - 0x380) / 4
    match (p - 0x380) % 4 with
    | 0 => some (.mc, s)
    | 1 => some (.mpe, s)
    | 2 => some (.nmu, s)
    | _ => none
  else if p < 0x400 then none
  else if p < 0x424 then some (.lnk, p - 0x400)
  else if p = 0x440 then some (.rtr, 0)
  else if p = 0x450 then some (.xch, 0)
  else if p = 0x460 then some (.cat, 0)
  else if p = 0x461 then some (.catWin, 0)
  else if p = 0x480 then some (.bxl, 0)
  else if p = 0x4C0 then some (.mmu, 0)
  else if p < 0x800 then none
  else if p < 0xC10 then some (.doorbell, p - 0x800)
  else none

/-- A register word: the bits each kind of write acts on (R9), whether reads are privileged, and the reset value. A bit
in no mask is read only or reserved. -/
structure Lay where
  rw : Nat
  rwk : Nat
  w1c : Nat
  wo : Nat
  rop : Bool
  reset : Nat
deriving DecidableEq, Repr

/-- A read-only word. -/
def ro (reset : Nat) : Lay := ⟨0, 0, 0, 0, false, reset⟩
/-- A word with RWK bits. -/
def rwk (mask reset : Nat) : Lay := ⟨0, mask, 0, 0, false, reset⟩
/-- A word with RW1C bits. -/
def w1c (mask : Nat) : Lay := ⟨0, 0, mask, 0, false, 0⟩
/-- A word with RW bits. -/
def rwLay (mask reset : Nat) : Lay := ⟨mask, 0, 0, 0, false, reset⟩
/-- A privileged-read word. -/
def ropLay : Lay := ⟨0, 0, 0, 0, true, 0⟩

/-- A run of `count` words from `first`, `stride` bytes apart, of one layout. -/
structure Run where
  first : Nat
  count : Nat
  stride : Nat
  lay : Lay
deriving DecidableEq, Repr

/-- One word. -/
def one (off : Nat) (l : Lay) : Run := ⟨off, 1, 4, l⟩

def all32 : Nat := 0xFFFFFFFF

/-- The common header (R415, R380, R385). CTRL, STATUS and INT_STATUS read as the island stands. -/
def headerRuns : List Run :=
  [one 0x000 (ro 0), one 0x004 (ro 1), one 0x008 (ro 0), one 0x00C (rwk 7 1), one 0x010 (ro 1),
   one 0x014 (w1c 1), one 0x018 (rwk 1 0), one 0x01C (ro 0),
   one 0x020 ⟨0, 0, 1, 0, false, 0⟩, ⟨0x024, 6, 4, ro 0⟩,
   ⟨0x040, 8, 4, rwk 0xFFFF 0⟩, ⟨0x060, 16, 4, ropLay⟩]

/-- The sequencer block of R243 at `b`. -/
def seqRuns (b : Nat) : List Run :=
  [one b (ro 0), one (b + 4) (ro 0), one (b + 8) (w1c 0x10), one (b + 0xC) (ro 0),
   one (b + 0x10) (rwk 0xFFFFF000 0), one (b + 0x14) (rwk 0xFFF 0), one (b + 0x18) (rwk 0x1FF 0),
   one (b + 0x1C) (ro 0), one (b + 0x20) (rwk all32 0), one (b + 0x24) (w1c all32)]

/-- The block-specific registers of a page. -/
def blockRuns (b : Block) (i : Nat) : List Run :=
  match b with
  | .dev => [⟨0x100, 8, 4, ro 0⟩, one 0x120 (w1c all32)]
  | .mbx => [⟨0x100, 0x380, 4, rwLay all32 0⟩, one 0xF00 ⟨0, 0, 0, all32, false, 0⟩, one 0xF04 (ro 0)]
  | .pwr =>
    [one 0x100 (ro 0), one 0x104 (ro 0), one 0x108 (ro 0x780400), one 0x10C (rwk 0x0FFF0FFF 0x0A280258),
     one 0x110 (rwk 0xFFF 0x384), one 0x114 (w1c all32), one 0x118 (rwk 0x7F 0x5F), one 0x11C (ro 0),
     ⟨0x120, 2, 4, ropLay⟩, ⟨0x128, 2, 4, ro 0⟩, ⟨0x130, 2, 4, rwk all32 0⟩, one 0x138 (ro 0), one 0x13C (ro 0),
     one 0x140 (w1c all32), ⟨0x180, 20, 4, rwk 0xFF00 0x600000⟩,
     ⟨0x200, 15, 0x10, rwk 0x0FFF0FFF 0⟩, ⟨0x204, 15, 0x10, rwk 0x000FFF7F 0⟩, ⟨0x208, 15, 0x10, w1c 0x0FFF0000⟩,
     ⟨0x20C, 15, 0x10, w1c all32⟩]
  | .obs =>
    [one 0x100 (rwk 0x7FFFFFFF 0), one 0x104 (rwk 0xFFFFF000 0), one 0x108 (rwk 0xFFF 0), one 0x10C (ro 0),
     one 0x110 (rwk all32 0), one 0x114 (w1c all32), ⟨0x120, 32, 4, rwk all32 0⟩, one 0x1A0 (rwk 0xFFFFF001 0),
     one 0x1A4 (rwk 0x1F0FFF 0), one 0x1A8 (ro 0), one 0x1AC (rwk all32 0), one 0x1B0 (w1c all32),
     one 0x1B4 (rwk 0x07FF07FF 0), one 0x1C0 (rwk 0xFFE00001 0), one 0x1C4 (rwk 0xFFF 0), one 0x1C8 (ro 0),
     ⟨0x1D0, 8, 4, ro 0⟩, one 0x1F0 (ro 0), one 0x200 (rwk 3 0), one 0x204 (ro 0)]
  | .sec =>
    [one 0x100 (ro 0x100), one 0x104 (ro 0), one 0x108 (ro 0), one 0x10C (w1c all32), one 0x110 (w1c all32),
     one 0x114 (ro 0)]
  | .fe =>
    match i with
    | 0 => [one 0x100 (rwk 0xFFFFF000 0), one 0x104 (rwk 0xFFF 0), one 0x108 (rwk 0x1FFFF 0), one 0x10C (ro 0),
            one 0x110 (rwk all32 0), one 0x114 (ro 0), one 0x118 (ro 0), one 0x11C (w1c all32)]
    | 1 => [⟨0x100, 20, 4, ro 0⟩, ⟨0x180, 20, 4, ro 0⟩]
    | 2 => [⟨0x100, 16, 0x20, rwk 0xFFFFF000 0⟩, ⟨0x104, 16, 0x20, rwk 0xFFF 0⟩, ⟨0x108, 16, 0x20, rwk 0x1FFFF 0⟩,
            ⟨0x10C, 16, 0x20, rwk 0xFFFFF000 0⟩, ⟨0x110, 16, 0x20, rwk 0xFFF 0⟩, ⟨0x114, 16, 0x20, rwk 0x1F 0⟩,
            ⟨0x118, 16, 0x20, rwk all32 0⟩]
    | _ => []
  | .arr => [one 0x100 (rwk 0x7F 0x30), one 0x104 (ro 0), one 0x108 (ro 0), one 0x10C (ro 0)]
  | .acc => [⟨0x100, 4, 4, ro 0⟩, one 0x110 (w1c all32)]
  | .vec => [⟨0x100, 3, 4, ro 0⟩, one 0x10C (w1c all32)]
  | .seq => seqRuns 0x100
  | .als => [one 0x100 (rwk 1 0), one 0x104 (w1c all32), one 0x108 (ro 0), one 0x10C (w1c all32)]
  | .qnt =>
    [one 0x100 (ro 0), one 0x104 (ro 0), one 0x108 ⟨0, 0, 0, 3, false, 0⟩, one 0x10C (ro 0), one 0x110 (ro 0),
     ⟨0x114, 3, 4, w1c all32⟩, one 0x120 (ro 0), one 0x124 (ro 0)]
  | .dss => [⟨0x100, 16, 4, rwk 0x7F 0⟩, one 0x140 (w1c all32)]
  | .dma =>
    [one 0x100 (ro 0), one 0x104 (w1c all32)] ++ seqRuns 0x200 ++
    [⟨0x400, 32, 0x40, rwk 0x7FFF 0⟩, ⟨0x404, 32, 0x40, rwk 0xFFFFFFC0 0⟩, ⟨0x408, 32, 0x40, rwk all32 0⟩,
     ⟨0x40C, 32, 0x40, rwk 0xFFFFFF 0⟩, ⟨0x410, 32, 0x40, rwk 0xFFFF 0⟩, ⟨0x414, 32, 0x40, w1c 0x800⟩,
     ⟨0x418, 32, 0x40, ro 0⟩, ⟨0x41C, 32, 0x40, rwk 0x3FF 0⟩, ⟨0x420, 32, 0x40, ro 0⟩, ⟨0x424, 32, 0x40, ro 0⟩,
     ⟨0x428, 32, 0x40, ro 0⟩, ⟨0x42C, 32, 0x40, ro 0⟩, ⟨0x430, 32, 0x40, ro 0⟩]
  | .noc => [⟨0x100, 3, 4, w1c all32⟩, one 0x10C (w1c 0xF)]
  | .dpw => [one 0x100 (ro 0), one 0x104 (w1c all32), ⟨0x108, 2, 4, ro 0⟩, ⟨0x110, 4, 4, ro 0⟩]
  | .mc =>
    [one 0x100 (ro 0), one 0x104 (ro 0), one 0x108 (rwk 0x1FF 0x104), one 0x10C (rwk 0xFFFF 0x18), one 0x110 (ro 0x900),
     one 0x114 (w1c all32), one 0x118 (w1c all32), ⟨0x200, 32, 4, w1c all32⟩, ⟨0x280, 32, 4, w1c all32⟩]
  | .mpe => [one 0x100 (w1c all32), one 0x104 (ro 0), one 0x108 (w1c all32), ⟨0x10C, 4, 4, ro 0⟩]
  | .nmu =>
    [⟨0x100, 2, 4, ro 0⟩, one 0x108 (w1c 0x10), one 0x10C (ro 0), one 0x110 (w1c all32), one 0x114 (w1c all32),
     one 0x118 (ro 0)] ++ (if i = 0 then [⟨0x200, 5, 4, ro 0⟩] else [])
  | .lnk =>
    [one 0x100 (rwk 0xF 0), one 0x104 (rwk 1 0), one 0x108 (ro 0), one 0x10C (rwk 0xFFFF 0xA), one 0x110 (rwk 0xFFFF 0x10),
     ⟨0x114, 5, 4, w1c all32⟩]
  | .rtr =>
    [one 0x100 (rwk 0x7FFF 0x7FFF), one 0x104 (ro 0), one 0x108 (rwk all32 0), one 0x10C (rwk all32 0),
     one 0x110 (rwk 0x7FFF 0), one 0x114 (rwk all32 0), one 0x118 (rwk all32 0), one 0x11C (rwk 0xFFFFF 0x82030),
     one 0x120 (rwk 0xFFFF 0x64), one 0x124 ⟨0, 0x1FFFF, 0, 0x20000, false, 0x64⟩, ⟨0x128, 2, 4, ro 0⟩,
     ⟨0x140, 9, 4, w1c all32⟩, ⟨0x200, 288, 4, ro 0⟩]
  | .xch =>
    [⟨0x100, 2, 4, ro 0⟩, ⟨0x108, 2, 4, ro 0x400⟩, one 0x110 (rwk 0x7FF 0x100), one 0x114 (ro 0),
     ⟨0x118, 6, 4, w1c all32⟩] ++ seqRuns 0x200 ++ seqRuns 0x240
  | .cat =>
    [one 0x100 (rwk 0x7F 0), one 0x104 (ro all32), one 0x108 (ro 0), one 0x10C (rwk 0x1FF 0), one 0x110 (w1c all32),
     one 0x114 (w1c all32), ⟨0x200, 64, 4, ro 0⟩]
  | .bxl =>
    [one 0x100 (ro 0), one 0x104 (rwk 1 0), one 0x108 (rwk 0x3FFF 0), one 0x10C (rwk 0xFF 0), one 0x110 (rwk 0xFFFF 0x32),
     one 0x114 (w1c 0x4000), one 0x118 (ro 0), one 0x11C (ro 0), one 0x120 (ro 0), ⟨0x140, 8, 4, w1c all32⟩,
     one 0x180 (rwLay 1 0), one 0x184 (rwLay 0xFFFFFFC0 0), one 0x188 (rwLay all32 0), one 0x18C (rwLay 0x1FFFFFF 0),
     one 0x190 (ro 0), ⟨0x400, 64, 4, rwLay all32 all32⟩, ⟨0x500, 64, 4, ro 0⟩]
  | .mmu =>
    [one 0x100 (rwk 0x7F 0), one 0x104 (rwk 0xFF 0), one 0x108 (rwk all32 0), one 0x10C (rwk 0xFFFF 0),
     ⟨0x180, 4, 0x10, w1c 0x4000⟩, ⟨0x184, 4, 0x10, ro 0⟩, ⟨0x188, 4, 0x10, ro 0⟩,
     ⟨0x200, 64, 8, rwk 0xFFFFF001 0⟩, ⟨0x204, 64, 8, rwk 0xFFF 0⟩]
  | .catWin => [⟨0, 1024, 4, ropLay⟩]
  | .doorbell =>
    [one 0x000 (rwLay all32 0), ⟨0x004, 4, 4, ro 0⟩, one 0x014 (rwLay all32 0), one 0x018 (ro 0)]

/-- Whether a run holds the word at page offset `po`. -/
def Run.has (r : Run) (po : Nat) : Bool :=
  decide (r.first ≤ po) && decide ((po - r.first) % r.stride = 0) && decide ((po - r.first) / r.stride < r.count)

/-- The layout of a word of a page; `none` for a reserved offset. -/
def layIn (b : Block) (i po : Nat) : Option Lay :=
  let runs := if b == .catWin || b == .doorbell then blockRuns b i else headerRuns ++ blockRuns b i
  (runs.find? fun r => r.has po).map (·.lay)

/-- The rail limits of R333: continuous and peak amperes, window in microseconds. -/
def railReset (r : Nat) : Nat × Nat × Nat :=
  if r < 4 then (800, 1000, 10)
  else if r < 8 then (160, 200, 10)
  else match r with
    | 8 => (300, 360, 10)
    | 9 => (110, 130, 50)
    | 10 => (12, 15, 100)
    | 11 => (4, 5, 100)
    | 12 => (360, 450, 10)
    | 13 => (480, 560, 10)
    | _ => (24, 30, 100)

/-- The layout of the word at an aperture offset (4 B aligned), with the resets that differ by instance. -/
def layOf (off : Nat) : Option Lay :=
  match pageOf off with
  | none => none
  | some (b, i) =>
    let po := off % 0x1000
    match layIn b i po with
    | none => none
    | some l =>
      if b == .pwr && decide (0x200 ≤ po) then
        let (c, p, w) := railReset ((po - 0x200) / 0x10)
        match po % 0x10 with
        | 0 => some { l with reset := c + 0x10000 * p }
        | 4 => some { l with reset := w + (c / 3) * 0x100 }
        | _ => some l
      else some l

/-- What a register word holds after reset: 0 for a reserved or unassigned offset. -/
def regReset (off : Nat) : BitVec 32 := BitVec.ofNat 32 ((layOf off).elim 0 (·.reset))

/-- CAPS (R415, R421): which CTRL fields a page honours and how many units it has. -/
def honoursQ : Block → Bool
  | .arr | .acc | .vec | .seq | .als | .qnt | .dss | .dma | .noc | .dpw | .nmu | .rtr | .xch => true
  | _ => false

def honoursE : Block → Bool
  | .arr | .acc | .vec | .seq | .als | .qnt => true
  | _ => false

def honoursR : Block → Bool
  | .arr | .acc | .vec | .seq | .als | .qnt | .dss | .dma | .noc | .dpw => true
  | _ => false

def pageUnits : Block → Nat
  | .arr | .qnt | .dss => 16
  | .mc | .dma => 32
  | .noc => 3
  | .rtr | .xch => 2
  | _ => 1

def capsOf (b : Block) : Nat :=
  pack [(0, 4, 8), (4, 1, bit (honoursQ b)), (5, 1, bit (honoursE b)), (6, 1, bit (honoursR b)), (16, 16, pageUnits b)]

/-- Whether the page belongs to an array group. -/
def isArrayPage : Block → Bool
  | .arr | .acc | .vec | .seq | .als | .qnt => true
  | _ => false

/-- The island whose CTRL rules govern a page (R421): arrays 0–19, dies 20–23, stack bases 24–47, the two router islands
48 and 49, which govern RTR, XCH and CAT together under 48. -/
def islandOf (b : Block) (i : Nat) : Option Nat :=
  match b with
  | .arr | .acc | .vec | .seq | .als | .qnt => some i
  | .dss | .dma | .noc | .dpw => some (20 + i)
  | .nmu => some (24 + i)
  | .rtr | .xch | .cat => some 48
  | _ => none

/-- The event codes a page's counter slots accept (R381). -/
def eventOk (b : Block) (i ev : Nat) : Bool :=
  ev == 0 ||
  match b with
  | .arr => decide (0x10 ≤ ev) && decide (ev ≤ 0x13)
  | .vec => ev == 0x18 || ev == 0x19
  | .als => ev == 0x20 || ev == 0x21
  | .dma => decide (0x28 ≤ ev) && decide (ev ≤ 0x2A)
  | .mc => decide (0x30 ≤ ev) && decide (ev ≤ 0x32)
  | .nmu => ev == 0x38
  | .lnk => decide (0x40 ≤ ev) && decide (ev ≤ 0x42)
  | .rtr => ev == 0x48 || ev == 0x49
  | .xch => ev == 0x50 || ev == 0x51
  | .fe => i == 0 && (ev == 0x58 || ev == 0x59)
  | .bxl => ev == 0x60 || ev == 0x61
  | _ => false

end Sys2Proof
end

