-- ==== Sys2Proof/Machine/Num.lean ====
section
/-!
DEFINITION. Exact numbers and the one rounding of the LM1. A value is held exactly (a sign, a numerator, a power of two);
every engine forms its result exactly and rounds it once, so products, sums, quotients and square roots share the one
function `roundTo` (R32, R35, R82, R112, R121).
-/
namespace Sys2Proof

/-- A floating-point value as an engine sees it. A finite value is (−1)^neg × num × 2^exp. The payload of a NaN is its
fraction, top-aligned in 52 bits, so that it survives a widening or narrowing as far as the destination allows (R34). -/
inductive Val where
  | nan (sig neg : Bool) (pay : Nat)
  | inf (neg : Bool)
  | fin (neg : Bool) (num : Nat) (exp : Int)
deriving DecidableEq, Repr

/-- The sticky flags of R49, as bits of the flag byte. -/
def fNV : Nat := 1
/-- Divide by zero (R49). -/
def fDZ : Nat := 2
/-- Overflow (R49). -/
def fOF : Nat := 4
/-- Underflow (R49). -/
def fUF : Nat := 8
/-- Inexact (R49). -/
def fNX : Nat := 16
/-- Scale miss (R49, R105). -/
def fSM : Nat := 32
/-- Tile flag (R49, R53). -/
def fTF : Nat := 64

/-- The canonical quiet NaN (R29). -/
def qNaN : Val := .nan false false (2 ^ 51)

/-- The zero of sign `neg`. -/
def zeroV (neg : Bool) : Val := .fin neg 0 0

/-- 1.0 -/
def oneV : Val := .fin false 1 0

def isNan : Val → Bool
  | .nan .. => true
  | _ => false

def isSig : Val → Bool
  | .nan s _ _ => s
  | _ => false

def isInf : Val → Bool
  | .inf _ => true
  | _ => false

def isFin : Val → Bool
  | .fin .. => true
  | _ => false

def isZero : Val → Bool
  | .fin _ n _ => n == 0
  | _ => false

def negOf : Val → Bool
  | .nan _ n _ => n
  | .inf n => n
  | .fin n _ _ => n

/-- The value with its sign turned. -/
def negV : Val → Val
  | .nan s n p => .nan s (!n) p
  | .inf n => .inf (!n)
  | .fin n m e => .fin (!n) m e

def absV : Val → Val
  | .nan s _ p => .nan s false p
  | .inf _ => .inf false
  | .fin _ m e => .fin false m e

/-- The rounding attributes (R121) and stochastic rounding under the 32-bit draw u (R112). -/
inductive RM where
  | rne | rna | rup | rdn | rtz
  | sr (u : Nat)
deriving DecidableEq, Repr

/-- Whether the magnitude `lo + r / d` (r < d) is rounded up to `lo + 1`. The stochastic draw compares with the distance
from the lower of the two adjacent values, which for a negative number is the larger magnitude (R112). -/
def roundsUp (mode : RM) (neg : Bool) (lo r d : Nat) : Bool :=
  match mode with
  | .rne => decide (2 * r > d) || (decide (2 * r = d) && lo % 2 == 1)
  | .rna => decide (2 * r ≥ d)
  | .rup => decide (r > 0) && !neg
  | .rdn => decide (r > 0) && neg
  | .rtz => false
  | .sr u => decide (r > 0) && (if neg then decide (2 ^ 32 * (d - r) ≤ u * d) else decide (u * d < 2 ^ 32 * r))

/-- floor(log2 (num / den)) for num, den > 0. -/
def floorLog (num den : Nat) : Int :=
  let l : Int := (Nat.log2 num : Nat) - (Nat.log2 den : Nat)
  let ge := if l ≥ 0 then decide (num ≥ den * 2 ^ l.toNat) else decide (num * 2 ^ (-l).toNat ≥ den)
  if ge then l else l - 1

/-- num / den × 2^exp in units of 2^q: the whole part, the remainder and the divisor. -/
def inUnits (num den : Nat) (exp q : Int) : Nat × Nat × Nat :=
  let n := if exp ≥ q then num * 2 ^ (exp - q).toNat else num
  let d := if exp ≥ q then den else den * 2 ^ (q - exp).toNat
  (n / d, n % d, d)

/-- A rounded magnitude m × 2^e, whether it differs from the exact one, and whether the exact one, rounded with an
unbounded exponent, lies below the smallest normal (the underflow test of R49). -/
structure Rnd where
  m : Nat
  e : Int
  inexact : Bool
  tiny : Bool
deriving DecidableEq, Repr

/-- Rounds num / den × 2^exp once, to `fb` fraction bits, with the subnormal spacing of smallest normal 2^emin. The grid
goes on above the largest finite value. -/
def roundTo (fb : Nat) (emin : Int) (mode : RM) (neg : Bool) (num den : Nat) (exp : Int) : Rnd :=
  if num = 0 then ⟨0, emin - fb, false, false⟩
  else
    let top := floorLog num den + exp
    let q := max (top - fb) (emin - fb)
    let (lo, r, d) := inUnits num den exp q
    let m := if roundsUp mode neg lo r d then lo + 1 else lo
    let qu := top - fb
    let (lou, ru, du) := inUnits num den exp qu
    let mu := if roundsUp mode neg lou ru du then lou + 1 else lou
    let tiny := decide (top < emin) && !(decide (top + 1 = emin) && decide (mu = 2 ^ (fb + 1)))
    ⟨m, q, decide (r ≠ 0), tiny⟩

/-- An IEEE-shaped interchange format: exponent and fraction widths (R29, R44). -/
structure Ieee where
  eb : Nat
  fb : Nat
deriving DecidableEq, Repr

def fp64 : Ieee := ⟨11, 52⟩
def fp32 : Ieee := ⟨8, 23⟩
def fp16 : Ieee := ⟨5, 10⟩
def bf16 : Ieee := ⟨8, 7⟩
/-- The accumulator word (R44). -/
def aw48 : Ieee := ⟨10, 37⟩

def ieeeBias (f : Ieee) : Nat := 2 ^ (f.eb - 1) - 1
def ieeeEmin (f : Ieee) : Int := 1 - (ieeeBias f : Nat)

/-- Reads a code of the format. -/
def ieeeVal (f : Ieee) (code : Nat) : Val :=
  let s := bits code (f.eb + f.fb) 1 == 1
  let e := bits code f.fb f.eb
  let m := bits code 0 f.fb
  if e = 2 ^ f.eb - 1 then
    if m = 0 then .inf s else .nan (bits m (f.fb - 1) 1 == 0) s (m * 2 ^ (52 - f.fb))
  else if e = 0 then .fin s m (ieeeEmin f - f.fb)
  else .fin s (2 ^ f.fb + m) ((e : Int) - (ieeeBias f : Nat) - f.fb)

def ieeeSign (f : Ieee) (neg : Bool) : Nat := if neg then 2 ^ (f.eb + f.fb) else 0
def ieeeInf (f : Ieee) (neg : Bool) : Nat := ieeeSign f neg + (2 ^ f.eb - 1) * 2 ^ f.fb
def ieeeMaxFin (f : Ieee) (neg : Bool) : Nat := ieeeInf f neg - 1
/-- The canonical quiet NaN's code (R29). -/
def ieeeQNaN (f : Ieee) : Nat := ieeeInf f false + 2 ^ (f.fb - 1)

/-- The quiet NaN's code with the payload kept as far as the fraction allows (R34). -/
def ieeeNaN (f : Ieee) (neg : Bool) (pay : Nat) : Nat :=
  let m := pay / 2 ^ (52 - f.fb) % 2 ^ f.fb
  ieeeInf f neg + (if bits m (f.fb - 1) 1 = 1 then m else m + 2 ^ (f.fb - 1))

/-- The code of a magnitude that lies on the grid and within the range. -/
def ieeeCode (f : Ieee) (neg : Bool) (m : Nat) (e : Int) : Nat :=
  if m < 2 ^ f.fb then ieeeSign f neg + m
  else
    let (m, e) := if m = 2 ^ (f.fb + 1) then (2 ^ f.fb, e + 1) else (m, e)
    ieeeSign f neg + (e + f.fb + (ieeeBias f : Nat)).toNat * 2 ^ f.fb + (m - 2 ^ f.fb)

/-- Whether an overflow under the attribute gives infinity (R35, R112, R121). -/
def overflowsToInf (mode : RM) (neg : Bool) : Bool :=
  match mode with
  | .rne | .rna | .sr _ => true
  | .rup => !neg
  | .rdn => neg
  | .rtz => false

/-- Rounds the exact magnitude num / den × 2^exp to the format: its code and the flags raised (R35, R49). -/
def ieeeRoundQ (f : Ieee) (mode : RM) (neg : Bool) (num den : Nat) (exp : Int) : Nat × Nat :=
  let r := roundTo f.fb (ieeeEmin f) mode neg num den exp
  if decide (r.m ≠ 0) && decide ((Nat.log2 r.m : Nat) + r.e > (ieeeBias f : Nat)) then
    (if overflowsToInf mode neg then ieeeInf f neg else ieeeMaxFin f neg, fOF + fNX)
  else
    (ieeeCode f neg r.m r.e, (if r.inexact then fNX else 0) ||| (if r.inexact && r.tiny then fUF else 0))

/-- An exact result: NaN and infinity as they are, a finite value as a quotient num / den × 2^exp. -/
inductive Ex where
  | nan (neg : Bool) (pay : Nat)
  | inf (neg : Bool)
  | fin (neg : Bool) (num den : Nat) (exp : Int)
deriving DecidableEq, Repr

def exOf : Val → Ex
  | .nan _ n p => .nan n p
  | .inf n => .inf n
  | .fin n m e => .fin n m 1 e

/-- The canonical NaN as an exact result. -/
def exNaN : Ex := .nan false (2 ^ 51)

/-- Rounds an exact result to an IEEE destination. `keep` keeps a NaN's sign and payload (the vector lanes); every other
engine writes the canonical NaN (R34). -/
def ieeeRound (f : Ieee) (mode : RM) (keep : Bool) : Ex → Nat × Nat
  | .nan n p => (if keep then ieeeNaN f n p else ieeeQNaN f, 0)
  | .inf n => (ieeeInf f n, 0)
  | .fin n num den e => ieeeRoundQ f mode n num den e

/-- The first NaN among the operands, quieted, or the canonical one (R34). -/
def firstNaN : List Val → Ex
  | [] => exNaN
  | .nan _ n p :: _ => .nan n (if bits p 51 1 = 1 then p else 2 ^ 51 + p)
  | _ :: vs => firstNaN vs

/-- NV when an operand is a signalling NaN (R34). -/
def sigFlag (vs : List Val) : Nat := if vs.any isSig then fNV else 0

/-- Aligns two finite values: their integers in units of the smaller exponent, and that exponent. -/
def alignV (n1 : Bool) (m1 : Nat) (e1 : Int) (n2 : Bool) (m2 : Nat) (e2 : Int) : Int × Int × Int :=
  let e := min e1 e2
  let a : Int := (m1 * 2 ^ (e1 - e).toNat : Nat)
  let b : Int := (m2 * 2 ^ (e2 - e).toNat : Nat)
  (if n1 then -a else a, if n2 then -b else b, e)

/-- The exact product of two values and the flags of R81. -/
def mulV (a b : Val) : Ex × Nat :=
  match a, b with
  | .fin n1 m1 e1, .fin n2 m2 e2 => (.fin (n1 != n2) (m1 * m2) 1 (e1 + e2), 0)
  | .nan .., _ => (firstNaN [a, b], sigFlag [a, b])
  | _, .nan .. => (firstNaN [a, b], sigFlag [a, b])
  | .inf n1, x => if isZero x then (exNaN, fNV) else (.inf (n1 != negOf x), 0)
  | x, .inf n2 => if isZero x then (exNaN, fNV) else (.inf (negOf x != n2), 0)

/-- The exact sum of two finite values; an exact zero is −0 when both are −0, or when the attribute rounds downward and
the terms differ in sign (IEEE 754-2019, R121), and +0 otherwise. -/
def addFin (down : Bool) (n1 : Bool) (m1 : Nat) (e1 : Int) (n2 : Bool) (m2 : Nat) (e2 : Int) : Val :=
  let (a, b, e) := alignV n1 m1 e1 n2 m2 e2
  let s := a + b
  if s = 0 then
    let bothNeg := n1 && n2
    let bothPos := !n1 && !n2
    zeroV (bothNeg || (down && !bothPos))
  else .fin (decide (s < 0)) s.natAbs e

/-- The exact sum of two values and its flags (R34, R81). -/
def addV (down : Bool) (a b : Val) : Val × Nat :=
  match a, b with
  | .fin n1 m1 e1, .fin n2 m2 e2 => (addFin down n1 m1 e1 n2 m2 e2, 0)
  | .nan .., _ => (match firstNaN [a, b] with | .nan n p => .nan false n p | _ => qNaN, sigFlag [a, b])
  | _, .nan .. => (match firstNaN [a, b] with | .nan n p => .nan false n p | _ => qNaN, sigFlag [a, b])
  | .inf n1, .inf n2 => if n1 = n2 then (.inf n1, 0) else (qNaN, fNV)
  | .inf n1, _ => (.inf n1, 0)
  | _, .inf n2 => (.inf n2, 0)

/-- An exact product as a value again (its divisor is 1). -/
def exVal : Ex → Val
  | .nan n p => .nan false n p
  | .inf n => .inf n
  | .fin n m _ e => .fin n m e

/-- The exact value of a × b + c. A product of 0 and ∞ sets NV whatever c is, and the result is then the first NaN operand
or the canonical one (R34). -/
def fmaV (down : Bool) (a b c : Val) : Val × Nat :=
  if isNan a || isNan b || isNan c then
    let bad := (isInf a && isZero b) || (isZero a && isInf b)
    (exVal (firstNaN [a, b, c]), sigFlag [a, b, c] ||| (if bad then fNV else 0))
  else
    let (p, f1) := mulV a b
    if f1 ≠ 0 then (qNaN, f1) else addV down (exVal p) c

/-- The sum of finite terms in units of 2^e. -/
def sumUnits (e : Int) : List Val → Int
  | [] => 0
  | .fin n m ex :: vs =>
    let a : Int := (m * 2 ^ (ex - e).toNat : Nat)
    (if n then -a else a) + sumUnits e vs
  | _ :: vs => sumUnits e vs

/-- The least exponent among the finite terms. -/
def minExp : List Val → Int
  | [] => 0
  | [.fin _ _ e] => e
  | .fin _ _ e :: vs => min e (minExp vs)
  | _ :: vs => minExp vs

/-- Whether infinities of both signs stand among the terms of a sum. -/
def bothInf (vs : List Val) : Bool := vs.contains (.inf false) && vs.contains (.inf true)

/-- The exact sum of a list of terms under R34 and R81: NaN if any term is NaN; NaN where both infinities are among them; the
exact real sum otherwise; a zero sum is −0 when every term is −0 and +0 otherwise. Both infinities set NV, beside a NaN too. -/
def sumV (vs : List Val) : Val × Nat :=
  if vs.any isNan then (exVal (firstNaN vs), sigFlag vs ||| (if bothInf vs then fNV else 0))
  else if bothInf vs then (qNaN, fNV)
  else if vs.any isInf then (.inf (vs.any fun v => v == .inf true), 0)
  else
    let e := minExp vs
    let s := sumUnits e vs
    if s = 0 then (zeroV (vs.all fun v => negOf v), 0)
    else (.fin (decide (s < 0)) s.natAbs e, 0)

/-- One step of Newton's integer square root, from above. -/
def isqrtGo (n : Nat) : Nat → Nat → Nat
  | 0, x => x
  | fuel + 1, x => let y := (x + n / x) / 2; if y < x then isqrtGo n fuel y else x

/-- floor(√n). -/
def isqrt (n : Nat) : Nat := if n = 0 then 0 else isqrtGo n (Nat.log2 n + 8) (2 ^ (Nat.log2 n / 2 + 1))

/-- √x to more bits than any destination keeps, the last bit set when it is not exact, so that it rounds as √x does. -/
def sqrtV (a : Val) : Ex × Nat :=
  match a with
  | .nan .. => (firstNaN [a], sigFlag [a])
  | .inf false => (.inf false, 0)
  | .inf true => (exNaN, fNV)
  | .fin n 0 e => (.fin n 0 1 e, 0)
  | .fin true _ _ => (exNaN, fNV)
  | .fin false m e =>
    let e2 := if e % 2 = 0 then e else e - 1
    let m2 := if e % 2 = 0 then m else 2 * m
    let big := m2 * 2 ^ 256
    let r := isqrt big
    (.fin false (2 * r + (if r * r = big then 0 else 1)) 1 (e2 / 2 - 129), 0)

/-- The exact quotient a / b and its flags. -/
def divV (a b : Val) : Ex × Nat :=
  match a, b with
  | .nan .., _ => (firstNaN [a, b], sigFlag [a, b])
  | _, .nan .. => (firstNaN [a, b], sigFlag [a, b])
  | .inf _, .inf _ => (exNaN, fNV)
  | .inf n1, x => (.inf (n1 != negOf x), 0)
  | x, .inf n2 => (.fin (negOf x != n2) 0 1 0, 0)
  | .fin n1 m1 e1, .fin n2 m2 e2 =>
    if m2 = 0 then (if m1 = 0 then (exNaN, fNV) else (.inf (n1 != n2), fDZ))
    else (.fin (n1 != n2) m1 m2 (e1 - e2), 0)

/-- The order of two numbers that are not NaN: −1, 0 or 1; −0 equals +0. -/
def cmpV (a b : Val) : Int :=
  match a, b with
  | .fin n1 m1 e1, .fin n2 m2 e2 =>
    let (x, y, _) := alignV n1 m1 e1 n2 m2 e2
    if x < y then -1 else if x = y then 0 else 1
  | .inf n1, .inf n2 => if n1 = n2 then 0 else if n1 then -1 else 1
  | .inf n1, _ => if n1 then -1 else 1
  | _, .inf n2 => if n2 then 1 else -1
  | _, _ => 0

/-- IEEE 754-2019 minimum and maximum: a NaN operand gives a NaN, −0 is less than +0 (R33). -/
def minmaxV (wantMax : Bool) (a b : Val) : Val × Nat :=
  if isNan a || isNan b then (exVal (firstNaN [a, b]), sigFlag [a, b])
  else
    let c := cmpV a b
    let aLess := decide (c < 0) || (decide (c = 0) && negOf a && !negOf b)
    let r := if aLess then (if wantMax then b else a) else (if wantMax then a else b)
    (r, 0)

/-- add_round of R82: the running AW48 value and an exact group sum, one rounding. -/
def addRound (acc : Nat) (t : Val) : Nat × Nat :=
  let a := ieeeVal aw48 acc
  if isNan a || isNan t then (ieeeQNaN aw48, sigFlag [a, t])
  else
    match addV false a t with
    | (v, f) => match ieeeRound aw48 .rne false (exOf v) with
      | (c, g) => (c, (f ||| g) &&& (fNV + fNX))

end Sys2Proof
end

