-- ==== Sys2Proof/Machine/Formats.lean ====
section
/-!
DEFINITION. The sixteen number formats of the LM1 (R28–R48), the choice of a group scale (R103), the encoding of one
element (R42), the Ledger formats (R43), the packing of stored tensors (R36), CBG-64 (R110) and DIGEST64 (R129).
Rows of notes/assumptions: DESIGN CHOICE 154.
-/
namespace Sys2Proof

/-- The formats a format code names (R28). -/
inductive Fmt where
  | fp32 | bf16 | fp16 | fp64
  | e4m3 | e5m2 | e3m2 | e2m3 | e2m1 | int8
  | q4 | q8x64 | q8x128
  | lg8s | lg8u
  | aw48
deriving DecidableEq, Repr

/-- The format of a 5-bit code; a reserved code names none (R28). -/
def fmtOf (code : Nat) : Option Fmt :=
  match code with
  | 0x00 => some .fp32
  | 0x01 => some .bf16
  | 0x02 => some .fp16
  | 0x03 => some .fp64
  | 0x08 => some .e4m3
  | 0x09 => some .e5m2
  | 0x0A => some .e3m2
  | 0x0B => some .e2m3
  | 0x0C => some .e2m1
  | 0x0D => some .int8
  | 0x10 => some .q4
  | 0x11 => some .q8x64
  | 0x12 => some .q8x128
  | 0x18 => some .lg8s
  | 0x19 => some .lg8u
  | 0x1F => some .aw48
  | _ => none

/-- Bits of one element code (R28). -/
def elemBits : Fmt → Nat
  | .fp32 => 32
  | .bf16 | .fp16 => 16
  | .fp64 => 64
  | .e4m3 | .e5m2 | .int8 | .q8x64 | .q8x128 | .lg8s | .lg8u => 8
  | .e3m2 | .e2m3 => 6
  | .e2m1 | .q4 => 4
  | .aw48 => 48

/-- Elements of one group; 0 for a format without groups (R28). -/
def groupSize : Fmt → Nat
  | .e4m3 | .e5m2 | .e3m2 | .e2m3 | .e2m1 | .int8 | .q4 => 32
  | .q8x64 => 64
  | .q8x128 | .lg8s | .lg8u => 128
  | _ => 0

/-- Bytes of one stored group scale (R36). -/
def scaleBytes : Fmt → Nat
  | .lg8s | .lg8u => 2
  | _ => 1

def isIeee : Fmt → Bool
  | .fp32 | .bf16 | .fp16 | .fp64 | .aw48 => true
  | _ => false

def isMx : Fmt → Bool
  | .e4m3 | .e5m2 | .e3m2 | .e2m3 | .e2m1 | .int8 => true
  | _ => false

def isQuire : Fmt → Bool
  | .q4 | .q8x64 | .q8x128 => true
  | _ => false

def isLedger : Fmt → Bool
  | .lg8s | .lg8u => true
  | _ => false

/-- Block-scaled: MX or Quire (R36). -/
def isBlock (f : Fmt) : Bool := isMx f || isQuire f

/-- The interchange shape of an IEEE format. -/
def ieeeOf : Fmt → Ieee
  | .bf16 => Sys2Proof.bf16
  | .fp16 => Sys2Proof.fp16
  | .fp64 => Sys2Proof.fp64
  | .aw48 => Sys2Proof.aw48
  | _ => Sys2Proof.fp32

/-- An element format of the tables of R37 and R39: exponent and fraction widths, bias, the largest finite magnitude as
an integer times a power of two, and whether it has element NaN codes. -/
structure Elt where
  eb : Nat
  fb : Nat
  bias : Nat
  maxNum : Nat
  maxExp : Int
  hasNaN : Bool
deriving DecidableEq, Repr

/-- The element parameters of a block-scaled format (R37, R40, R41). MXINT8 steps by 2^−6 and is treated on its own. -/
def eltOf : Fmt → Elt
  | .e5m2 => ⟨5, 2, 15, 7, 13, true⟩
  | .e3m2 => ⟨3, 2, 3, 7, 2, false⟩
  | .e2m3 => ⟨2, 3, 1, 15, -1, false⟩
  | .e2m1 | .q4 => ⟨2, 1, 1, 3, 1, false⟩
  | .int8 => ⟨0, 7, 0, 127, -6, false⟩
  | _ => ⟨4, 3, 7, 7, 6, true⟩

/-- The value of an element code without its scale (R37, R38). A NaN code reads as a quiet NaN of its sign with the canonical payload
(log entry 154). -/
def eltVal (f : Fmt) (code : Nat) : Val :=
  match f with
  | .int8 => let c := sext 8 code; .fin (decide (c < 0)) c.natAbs (-6)
  | _ =>
    let t := eltOf f
    let s := bits code (t.eb + t.fb) 1 == 1
    let e := bits code t.fb t.eb
    let m := bits code 0 t.fb
    if f == .e5m2 && e == 31 then (if m = 0 then .inf s else .nan false s (2 ^ 51))
    else if t.hasNaN && f != .e5m2 && e == 15 && m == 7 then .nan false s (2 ^ 51)
    else if e = 0 then .fin s m (1 - (t.bias : Nat) - t.fb)
    else .fin s (2 ^ t.fb + m) ((e : Int) - t.bias - t.fb)

/-- The value of a group scale code: `none` for its NaN code (R37, R39, R40). -/
def scaleVal (f : Fmt) (code : Nat) : Option (Nat × Int) :=
  if code = 0xFF then none
  else if isMx f then some (1, (code : Int) - 127)
  else
    let e := code / 8
    let m := code % 8
    if e = 0 then some (m, -17) else some (8 + m, (e : Int) - 18)

/-- An element of a block-scaled tensor read with its group's scale: element × scale, exact (R38, R40, R41). A NaN element
code reads as NaN whatever the scale is. -/
def blockVal (f : Fmt) (scale code : Nat) : Val :=
  match scaleVal f scale with
  | none => qNaN
  | some (sn, se) =>
    match eltVal f code with
    | .fin n m e => .fin n (m * sn) (e + se)
    | v => v

/-- 2^(−k/8) to 256 bits, the last bit set where it is irrational: (numerator, exponent). -/
def pow2Eighth (k : Nat) : Nat × Int :=
  let a := ceilDiv k 8
  let j := 8 * a - k
  if j = 0 then (1, -(a : Int))
  else
    let r := isqrt (isqrt (isqrt (2 ^ (j + 8 * 256))))
    (2 * r + 1, -(a : Int) - 257)

/-- Decodes a Ledger element to FP32 with its flags (R43). -/
def ledgerVal (f : Fmt) (scale code : Nat) : Nat × Nat :=
  match ieeeVal bf16 scale with
  | .fin _ 0 _ => (if f == .lg8s && code == 0x80 then ieeeQNaN fp32 else 0, 0)
  | .fin false m e =>
    match f with
    | .lg8s =>
      if code = 0x80 then (ieeeQNaN fp32, 0)
      else
        let c := sext 8 code
        if c = 0 then (0, 0) else ieeeRoundQ fp32 .rne (decide (c < 0)) (m * c.natAbs) 127 e
    | _ =>
      if code = 0 then (0, 0)
      else
        let (n, x) := pow2Eighth (255 - code)
        ieeeRoundQ fp32 .rne false (m * n) 1 (e + x)
  | _ => (ieeeQNaN fp32, fNV)

/-- encode_LG8S of R43: the code and its flags. -/
def encodeLG8S (x : Val) (scale : Nat) : Nat × Nat :=
  match x, ieeeVal bf16 scale with
  | .fin neg m e, .fin _ sm se =>
    if sm = 0 then (0, 0)
    else
      let (lo, r, d) := inUnits (127 * m) sm (e - se) 0
      let c := if roundsUp .rne neg lo r d then lo + 1 else lo
      let f := if r ≠ 0 then fNX else 0
      let f := if c > 127 then f ||| fOF else f
      let c := min c 127
      (if neg then (256 - c) % 256 else c, f)
  | .nan s _ _, _ => (0x80, if s then fNV else 0)
  | .inf _, _ => (0x80, fNV)
  | _, _ => (0x80, 0)

/-- How many k of 0..7 have m^16 ≥ 2^(2k+1), where m = n / d (R43). -/
def lgSteps (n d : Nat) : Nat :=
  ((List.range 8).filter fun k => decide (n ^ 16 ≥ 2 ^ (2 * k + 1) * d ^ 16)).length

/-- encode_LG8U of R43 for a value that is zero or positive: the code and its flags. -/
def encodeLG8U (m : Nat) (e : Int) (scale : Nat) : Nat × Nat :=
  match ieeeVal bf16 scale with
  | .fin _ sm se =>
    if m = 0 || sm = 0 then (0, 0)
    else
      let fl := floorLog m sm
      let el := fl + (e - se)
      if el ≥ 0 then
        if decide (el = 0) && decide (m * 2 ^ (-fl).toNat = sm * 2 ^ fl.toNat) then (255, 0)
        else (255, fOF + fNX)
      else
        let n := m * 2 ^ (-fl).toNat
        let d := sm * 2 ^ fl.toNat
        let j := lgSteps n d
        let c : Int := 255 + 8 * el + j
        if c < 1 then (0, fUF + fNX)
        else (c.toNat, if n ^ 16 = 2 ^ (2 * j) * d ^ 16 then 0 else fNX)
  | _ => (0, 0)

/-- Whether a group that holds `x` is written by encode_LG8U as scale 0x7FC0 with all codes 0, and the flag (R43). -/
def lg8uBad (x : Val) : Option Nat :=
  match x with
  | .nan s _ _ => some (if s then fNV else 0)
  | .inf _ => some fNV
  | .fin neg m _ => if neg && m != 0 then some fNV else none

/-- One encoded element: its code, the flags it raised, whether it saturated. -/
structure Enc where
  code : Nat
  flags : Nat
  sat : Bool
deriving DecidableEq, Repr

/-- The code an element takes for a NaN: the element NaN of the formats that have one, 0 in a NaN block (R37, R41). -/
def nanCode (f : Fmt) : Nat :=
  match f with
  | .e5m2 => 0x7E
  | .e4m3 | .q8x64 | .q8x128 => 0x7F
  | _ => 0

/-- The code of a magnitude m × 2^e on the element grid, within the range. -/
def eltCode (t : Elt) (neg : Bool) (m : Nat) (e : Int) : Nat :=
  let s := if neg then 2 ^ (t.eb + t.fb) else 0
  if m < 2 ^ t.fb then s + m
  else
    let (m, e) := if m = 2 ^ (t.fb + 1) then (2 ^ t.fb, e + 1) else (m, e)
    s + (e + t.fb + (t.bias : Nat)).toNat * 2 ^ t.fb + (m - 2 ^ t.fb)

/-- encode_element of R42 for a finite value and a non-zero finite total scale sn × 2^se. -/
def encodeFin (f : Fmt) (mode : RM) (neg : Bool) (m : Nat) (e : Int) (sn : Nat) (se : Int) : Enc :=
  match f with
  | .int8 =>
    let (lo, r, d) := inUnits m sn (e - se) (-6)
    let q := if roundsUp mode neg lo r d then lo + 1 else lo
    let fl := if r ≠ 0 then fNX else 0
    if q > 127 then ⟨if neg then 129 else 127, fl ||| fOF ||| fNX, true⟩
    else
      let fl := if q = 0 && r ≠ 0 then fl ||| fUF else fl
      ⟨if neg then (256 - q) % 256 else q, fl, false⟩
  | _ =>
    let t := eltOf f
    let r := roundTo t.fb (1 - (t.bias : Nat)) mode neg m sn (e - se)
    let overs := cmpV (.fin false r.m r.e) (.fin false t.maxNum t.maxExp) > 0
    let fl := if r.inexact then fNX else 0
    let fl := if r.inexact && r.tiny then fl ||| fUF else fl
    if overs then
      let top := 2 ^ (t.eb + t.fb) - 1
      let maxCode := match f with
        | .e5m2 => 0x7B
        | .e3m2 | .e2m3 | .e2m1 | .q4 => top
        | _ => 0x7E
      ⟨(if neg then 2 ^ (t.eb + t.fb) else 0) + maxCode, fl ||| fOF ||| fNX, true⟩
    else ⟨eltCode t neg r.m r.e, fl, false⟩

/-- encode_element of R42. The total scale is `none` for a NaN scale; infinities and NaNs follow R37 and R41. -/
def encodeElem (f : Fmt) (mode : RM) (x : Val) (scale : Option (Nat × Int)) : Enc :=
  match x with
  | .nan s _ _ => ⟨nanCode f, if s then fNV else 0, false⟩
  | .inf neg =>
    match scale with
    | none => ⟨nanCode f, fNV, false⟩
    | some _ => if f == .e5m2 then ⟨if neg then 0xFC else 0x7C, 0, false⟩ else ⟨nanCode f, fNV, false⟩
  | .fin neg m e =>
    match scale with
    | none => ⟨nanCode f, 0, false⟩
    | some (0, _) =>
      let t := eltOf f
      ⟨if neg && f != .int8 then 2 ^ (t.eb + t.fb) else 0, 0, false⟩
    | some (sn, se) => encodeFin f mode neg m e sn se

/-- The scale codes of a format in ascending value, without zero and NaN (R37, R39). -/
def scaleCodes (f : Fmt) : List Nat := if isMx f then List.range 255 else (List.range 254).map (· + 1)

/-- |y| ≤ maxfinite(F) × X × sc, exactly. -/
def fitsScale (f : Fmt) (x : Nat × Int) (y sc : Val) : Bool :=
  match sc with
  | .fin _ cn ce =>
    let t := eltOf f
    decide (cmpV (absV y) (.fin false (t.maxNum * x.1 * cn) (t.maxExp + x.2 + ce)) ≤ 0)
  | _ => false

/-- |y| < maxfinite(F) × X × sc, exactly. -/
def belowScale (f : Fmt) (x : Nat × Int) (y sc : Val) : Bool :=
  match sc with
  | .fin _ cn ce =>
    let t := eltOf f
    decide (cmpV (absV y) (.fin false (t.maxNum * x.1 * cn) (t.maxExp + x.2 + ce)) < 0)
  | _ => false

/-- How a chosen scale misses (R103). -/
inductive Miss where
  | none | overs | under
deriving DecidableEq, Repr

/-- choose_scale of R103: each element is (y, sc). The scale code, the miss and the flags. -/
def chooseScale (f : Fmt) (ys : List (Val × Val)) : Nat × Miss × Nat :=
  let scBad := fun (v : Val) => match v with
    | .fin n m _ => n || m == 0
    | _ => true
  if f == .q4 && ys.any (fun p => scBad p.2) then (0xFF, .none, fNV)
  else if !(eltOf f).hasNaN && ys.any (fun p => !isFin p.1) then (0xFF, .none, 0)
  else
    let fin := ys.filter fun p => isFin p.1
    if fin.all (fun p => isZero p.1) then (0, .none, 0)
    else
      match (scaleCodes f).find? (fun c => match scaleVal f c with
        | some x => fin.all (fun p => fitsScale f x p.1 p.2)
        | none => false) with
      | none => (0xFE, .overs, 0)
      | some c =>
        let low := if isMx f then 0 else 1
        match scaleVal f low with
        | some x => if fin.all (fun p => belowScale f x p.1 p.2) then (c, .under, 0) else (c, .none, 0)
        | none => (c, .none, 0)

/-- One encoded group: scale code, element codes, flags, the declared miss, saturated and underflowed counts (R105). -/
structure EncGroup where
  scale : Nat
  codes : List Nat
  flags : Nat
  miss : Miss
  sat : Nat
  ufl : Nat
deriving DecidableEq, Repr

/-- The total scale X × sc of an element (R42), with the divisor `den` of an exact quotient brought over to it. -/
def totalScale (f : Fmt) (code : Nat) (sc : Val) (den : Nat) : Option (Nat × Int) :=
  match scaleVal f code, sc with
  | some (n, e), .fin _ cn ce => if f == .q4 then some (n * cn * den, e + ce) else some (n * den, e)
  | _, _ => none

/-- A channel scale times the divisor of an exact quotient, as choose_scale compares with it. -/
def scaleDen (sc : Val) (den : Nat) : Val :=
  match sc with
  | .fin n m e => .fin n (m * den) e
  | v => v

/-- Whether an element code has magnitude zero. -/
def isZeroCode (f : Fmt) (code : Nat) : Bool :=
  match f with
  | .int8 => code == 0
  | _ => let t := eltOf f; code % 2 ^ (t.eb + t.fb) == 0

/-- A result on its way to a store: the numerator y of the exact value y / den, its channel scale, and how it rounds. -/
structure Elem where
  y : Val
  den : Nat
  sc : Val
  mode : RM
deriving DecidableEq, Repr

/-- Quantises one group (R103–R105, R42). `none` stands for an element that a poisoned input excludes (R422); its code is
0 and lies in a poisoned block. -/
def quantGroup (f : Fmt) (els : List (Option Elem)) : EncGroup :=
  let scOf := fun (e : Elem) => if f == .q4 then e.sc else oneV
  let live := els.filterMap fun o => o.map fun e => (e.y, scaleDen (scOf e) e.den)
  let (code, miss, fl0) := chooseScale f live
  let encs := els.map fun o => match o with
    | none => ((⟨0, 0, false⟩ : Enc), false)
    | some x =>
      let e := encodeElem f x.mode x.y (totalScale f code (scOf x) x.den)
      (e, isFin x.y && !isZero x.y && isZeroCode f e.code && code != 0xFF)
  let ufl := (encs.filter (·.2)).length
  let flags := encs.foldl (fun a e => a ||| e.1.flags) fl0
  let miss := match miss with
    | .under => if ufl > 0 then Miss.under else .none
    | m => m
  { scale := code
    codes := encs.map (·.1.code)
    flags := if miss = .none then flags else flags ||| fSM
    miss := miss
    sat := (encs.filter (·.1.sat)).length
    ufl := ufl }

/-- Stores one group: a block-scaled group under R103 to R105, or elements of an IEEE format, each by the conversion of R35
(`keep` keeps a NaN's sign and payload, R34). -/
def narrowGroup (f : Fmt) (keep : Bool) (els : List (Option Elem)) : EncGroup :=
  if !isIeee f then quantGroup f els
  else
    let encs := els.map fun o => match o with
      | none => (0, 0, false)
      | some x =>
        let ex := match x.y with
          | .fin n m e => Ex.fin n m x.den e
          | v => exOf v
        let (c, fl) := ieeeRound (ieeeOf f) x.mode keep ex
        (c, fl, isFin x.y && !isZero x.y && isZero (ieeeVal (ieeeOf f) c))
    { scale := 0
      codes := encs.map (·.1)
      flags := encs.foldl (fun a e => a ||| e.2.1) 0
      miss := .none
      sat := 0
      ufl := (encs.filter (·.2.2)).length }

/-- The pattern that a stored element's digest contribution takes (R129). -/
def digestPattern (f : Fmt) (scale code : Nat) : Nat := if isIeee f then code else code + 2 ^ 16 * scale

/-- The little-endian stream of `n`-bit codes that a row of elements is packed into (R36). -/
def packCodes (w : Nat) : List Nat → Nat
  | [] => 0
  | c :: cs => c % 2 ^ w + 2 ^ w * packCodes w cs

/-- The `n` codes of `w` bits of a packed row. -/
def unpackCodes (w : Nat) : Nat → Nat → List Nat
  | _, 0 => []
  | x, n + 1 => x % 2 ^ w :: unpackCodes w (x / 2 ^ w) n

/-- Bytes of a row of `n` elements. -/
def rowBytes (f : Fmt) (n : Nat) : Nat := ceilDiv (n * elemBits f) 8

/-- Multiplication modulo 2^64. -/
def mul64 (a b : Nat) : Nat := a * b % 2 ^ 64

def cbgK1 : Nat := 0xA3C59F1D6E27B48B
def cbgK2 : Nat := 0xE74F3A91C0D62B15
def cbgK3 : Nat := 0x8B1D5C7AF3E29467
def cbgM1 : Nat := 0xD9E143B72C5A8F0D
def cbgM2 : Nat := 0x94A7F15E6B3CD281

/-- The mixing function f of R110. -/
def mixF (x : Nat) : Nat :=
  let x := x ^^^ (x / 2 ^ 31)
  let x := mul64 x cbgM1
  let x := x ^^^ (x / 2 ^ 27)
  let x := mul64 x cbgM2
  x ^^^ (x / 2 ^ 33)

/-- CBG-64 (R110). -/
def cbg64 (seed step stream index : Nat) : Nat :=
  let a := mixF (seed ^^^ mul64 step cbgK1)
  let b := mixF (a ^^^ mul64 stream cbgK2)
  mixF (b ^^^ mul64 index cbgK3)

/-- The 32-bit draw u = out[63:32] of R112. -/
def srDraw (seed step stream index : Nat) : Nat := cbg64 seed step stream index / 2 ^ 32

/-- The DIGEST64 contribution of a stored element (R129). -/
def digestOf (idx pattern : Nat) : Nat := mixF (mul64 idx cbgK3 ^^^ mul64 pattern cbgK1)

/-- The digest DFIN writes for a sum of partials (R130). -/
def digestFin (sum tensorId : Nat) : Nat := mixF (sum % 2 ^ 64 ^^^ mul64 tensorId cbgK2)

end Sys2Proof
end

