-- ==== Sys2Proof/Machine/VecTypes.lean ====
section
/-!
DEFINITION. What a unit of vector or epilogue arithmetic gathers as it runs (R52, R108, R128), and the progress of a vector
instruction that a hold has stopped between two rows (R132): plain data, so that State can hold it.
-/
namespace Sys2Proof.Machine

open Sys2Proof

/-- The tally of flagged elements: count, ANY_NAN, ANY_INF, the first flagged position (key) and its kind. -/
structure Tally where
  count : Nat := 0
  anyNan : Bool := false
  anyInf : Bool := false
  first : Option (Nat × Nat) := none
deriving DecidableEq, Repr

/-- The statistics of a run of values (R108): the exact sums, the largest magnitude, whether any finite value was seen. -/
structure Sums where
  any : Bool := false
  sum : Val := zeroV true
  sumsq : Val := zeroV true
  amax : Val := zeroV false
deriving DecidableEq, Repr

/-- What a tile has gathered so far. -/
structure TileStat where
  tally : Tally := {}
  sums : Sums := {}
  cols : List Val := []
  sat : Nat := 0
  ufl : Nat := 0
  overs : Nat := 0
  under : Nat := 0
  missFirst : Option (Nat × Nat) := none
  dpart : Nat := 0
  excluded : Bool := false
deriving DecidableEq, Repr

/-- How far an epilogue has come (R96, R139): the accumulator rows read and stored, and what it has gathered: its flags, each tile's
statistics, and the first poisoned input. -/
structure EpiMid where
  rows : Nat := 0
  flags : Nat := 0
  tiles : List TileStat := []
  hit : Option (Nat × Nat) := none
deriving DecidableEq, Repr

/-- One result on its way to the store, with what the statistics take. -/
structure VRes where
  elem : Elem
  work : Val
  idx : Nat
deriving DecidableEq, Repr

/-- How far a vector instruction has come (R132): the rows stored, the rows of a column-group band that is not complete, and what
its statistics have gathered. The next row is `stored` plus the rows of the band. -/
structure VecMid where
  stored : Nat := 0
  band : List (List VRes) := []
  stat : TileStat := {}
deriving DecidableEq, Repr

/-- The row that a stopped instruction goes on with. -/
def VecMid.next (m : VecMid) : Nat := m.stored + m.band.length

end Sys2Proof.Machine
end

