-- ==== Sys2Proof/Machine/State.lean ====
section
/-!
DEFINITION. The state of the LM1: every register, store, buffer, table, queue, counter and pin the manual gives it, as
plain data, and the commands that wait, first in, first out. State.reset is the device just after the effective release of
PKG_RESET_N (R406).
Rows of notes/assumptions: DEDUCED 4, 15, 26, 30, 43, 57, 66, 153, 201; DESIGN CHOICE 3, 10, 11, 12, 13, 14, 44, 94, 184, 185,
192.
-/
namespace Sys2Proof.Machine

open Sys2Proof

/-- How the block stops. -/
inductive Fault where
  /-- Raised by the memory-controller commands for a physical address outside device memory: no memory controller holds it
  (R24). Safe: the manual gives no access there. -/
  | noSuchAddress
deriving DecidableEq, Repr

/-- Why a command has no meaning here. -/
inductive Refusal where
  /-- Raised by the dispatcher alone, for a command that has no meaning yet. Safe. -/
  | notModelled (mnemonic : String)
deriving DecidableEq, Repr

/-- A clock island's control state (R17, R415–R417). `hold` is the die power agent's hold, `quiesce` the page's. -/
structure Island where
  enable : Bool := true
  quiesce : Bool := false
  quiesced : Bool := false
  hold : Bool := false
  resetting : Bool := false
  /-- Clock cycles are being skipped; some were since the island's last timestamped record, which every record sets anew while some
  still are; and the island has been stopped since then (R335, R336, R346, R351). -/
  stretched : Bool := false
  stretchMark : Bool := false
  resumeMark : Bool := false
  /-- The clock is stretched until the engine's next hold point, by an assertion of PWR_BRAKE_N (R346). -/
  braked : Bool := false
  /-- An array island's present frequency in 6.25 MHz units (R345). -/
  freq : Nat := 0x60
  /-- Register writes that a stopped array island takes when it runs again (R418): offset, value, privileged. -/
  writes : List (Nat × Nat × Bool) := []
  /-- Signals to a stopped array island's sequencer, delivered when it runs again (R20, R238): event counter, count. -/
  signals : List (Nat × Nat) := []
  /-- A die island's DMA read engine: the channel it served last among those of PRIO 0, and of PRIO 1 (R141). -/
  readLast : Nat := 31
  readLastPrio : Nat := 31
deriving DecidableEq, Repr

/-- The metadata of one 256 B block of device memory (R167, R172): the owner and key generation its tag was made
under (`none`: the tag matches no key set), and the poison bits of its four 64 B units, each in the three copies that the stacks
hold: those of unit u are bits 3u to 3u + 2. The ciphertext, the tag and the check symbols that the stacks hold follow from these and
the plaintext (`State.heldBlock`, `State.heldMeta`). -/
structure MemBlk where
  tag : Option (Nat × Nat) := none
  poison : Nat := 0
deriving DecidableEq, Repr

/-- What waits for the end of a row's copy (R174): an access of a controller's own, a record of a ring with the vector that announces
it, or an MMIO message, behind which all later ones wait (R323). -/
inductive MemWait where
  | read (owner pa len : Nat)
  | write (owner pa : Nat) (data : List Byte)
  | ring (pa : Nat) (data : List Byte) (vector : Option Nat)
  | mmioRd (tag addr size : Nat)
  | mmioWr (addr : Nat) (poison : Bool) (data : List Byte)
deriving DecidableEq, Repr

/-- A row whose copy into a spare is in progress (R174). -/
structure RowCopy where
  chan : Nat
  row : Nat
deriving DecidableEq, Repr

/-- Device memory behind the controllers and protection engines (R157–R178). -/
structure Mem where
  bytes : Tab Byte := []
  blks : Tab MemBlk := []
  /-- The key generation loaded for each owner 0–64; 0: no key set (R165). -/
  keys : Tab Nat := []
  /-- Generations given so far. -/
  nextKey : Nat := 0
  /-- The 96 B of each generation's key set: the XTS key, then the CMAC key (R165). One that no owner holds is the model's own record of
  what the stacks' contents were made with. -/
  sets : Tab (List Nat) := []
  /-- Corrected errors of a row in this patrol pass, by channel × 2^24 + row (R174). -/
  rowErr : Tab Nat := []
  copies : List RowCopy := []
  retired : List RowCopy := []
  /-- Spare rows used, by channel 32s + ch. -/
  spares : Tab Nat := []
  /-- Corrected units that wait for an idle cycle of their bank (R172). -/
  writeback : List Nat := []
  /-- Failed attempts of the interface transfer in progress, by channel (R175). -/
  ifTry : Tab Nat := []
  /-- The last unit data a controller delivered, with its poison bits: the model's own record of the response. -/
  lastData : List Byte := []
  lastPoison : List Bool := []
  /-- What the stacks hold of the block that a controller served last: its ciphertext and its tag (R166, R167); none where its tag
  matches no key set. The model's own record. -/
  lastBlock : Option (List Byte × Nat) := none
  /-- The 8 B of metadata of each of that block's four units (R172). The model's own record. -/
  lastMeta : List Byte := []
  /-- Accesses that wait for a row's copy to end, in the order in which they came (R170, R174). -/
  waiting : List MemWait := []
  /-- Rows that found no spare (R174). -/
  unretired : List RowCopy := []
  /-- GTIME of each stack's last patrol pass (R173). -/
  patrolAt : Tab Nat := []
deriving DecidableEq, Repr

/-- A translation held by a TLB (R164): virtual page base, log2 of the page size, physical page base, W. -/
structure TlbEntry where
  ctx : Nat
  va : Nat
  log : Nat
  pa : Nat
  w : Bool
deriving DecidableEq, Repr

/-- A level-2 table pointer of a walk cache (R164). -/
structure WalkPtr where
  ctx : Nat
  vaHi : Nat
  table : Nat
deriving DecidableEq, Repr

/-- A page walk in progress (R164). `discard`: an invalidation covers it. -/
structure Walk where
  die : Nat
  req : Nat
  ctx : Nat
  va : Nat
  write : Bool
  discard : Bool
deriving DecidableEq, Repr

/-- An invalidation in progress: its scope, context and address, and the queue command that waits for it (R164). -/
structure Inval where
  scope : Nat
  ctx : Nat
  va : Nat
  waiter : Option (Nat × Nat) := none
deriving DecidableEq, Repr

/-- What a translation answers: a physical address, a fault code of R163, or nothing yet. -/
inductive XAns where
  | pa (a : Nat)
  | fault (code : Nat)
  /-- No answer yet: a table lies in a row that is being copied (R174). -/
  | wait
deriving DecidableEq, Repr

/-- The device MMU (R162–R164). -/
structure Mmu where
  tlb : Tab (List TlbEntry) := []
  walkCache : Tab (List WalkPtr) := []
  walks : List Walk := []
  inval : Option Inval := none
  /-- The last answer given to a requester: the physical address or the fault code of R163. The model's own record. -/
  answer : Option XAns := none
deriving DecidableEq, Repr

/-! Array islands -/

/-- A local store: its bytes and the poison bit of each 64 B block (R134, R138, R140). -/
structure Store where
  bytes : Tab Byte := []
  poison : Tab Bool := []
deriving DecidableEq, Repr

/-- What a scrub found of an ALS while a matrix instruction read its A rows: the store, and the row cycles, counted over all sweeps of
the passes, that had been read from it by then (R139). -/
structure SeenRows where
  als : Store
  rows : Nat
deriving DecidableEq, Repr

/-- What a scrub found of an ALS while a load read it: the store, and the draw that says which lines had been served by then (R139). -/
structure SeenLines where
  als : Store
  draw : Nat
deriving DecidableEq, Repr

/-- The same for the bursts of a DMA channel that were reading the ALS of an array (R139). -/
structure SeenBursts where
  arr : Nat
  lines : SeenLines
  bursts : List Nat
deriving DecidableEq, Repr

/-- One sub-array's part of a loaded B tile: the element codes by K row and the scale codes by K group (R55, R60). -/
structure SubTile where
  rows : List (List Nat) := []
  scales : List (List Nat) := []
deriving DecidableEq, Repr

/-- A B buffer (R59–R61). `key` is what a use must match (R60); `poisoned` the ALS address of a poisoned block that the
load met and the sub-array that met it (R68). -/
structure Tile where
  valid : Bool := false
  key : List Nat := []
  subs : List SubTile := []
  poisoned : Option (Nat × Nat) := none
deriving DecidableEq, Repr

/-- Why an instruction may not execute, found at issue: status code of R220, ERR_INFO code, ERR_ADDR, tag, sub-array. -/
structure IssueFail where
  status : Nat
  code : Nat
  addr : Nat
  itag : Nat
  sub : Nat
deriving DecidableEq, Repr

/-- A matrix instruction as read at issue: the descriptor, the sub-array table entries, the epilogue descriptor, the
failure of its checks if any, and the seed and step of its command (R63, R66, R99, R111). -/
structure MmInstr where
  desc : Nat := 0
  tab : List Nat := []
  epi : Nat := 0
  fail : Option IssueFail := none
  seed : Nat := 0
  step : Nat := 0
  /-- Table loads issued to the array before it (R101). -/
  epoch : Nat := 0
  /-- What scrubs found of the ALS while its A rows, and its B tile, were read, oldest first (R139). -/
  rows : List SeenRows := []
  lines : List SeenLines := []
deriving DecidableEq, Repr

/-- How far a stage of an accumulated instruction has come. -/
inductive Stage where
  | none | waiting | running | done
deriving DecidableEq, Repr

/-- A status an engine ended its command with: the code of R220, the ERR_INFO code and the detail of INFO[63:16]. -/
structure EndStatus where
  status : Nat
  code : Nat := 0
  detail : Nat := 0
deriving DecidableEq, Repr

/-- An instruction whose rows have been written and which waits for its spill, its epilogue and its turn to complete
(R73). -/
structure MmPost where
  instr : MmInstr
  spill : Stage := .none
  epi : Stage := .none
  /-- How far a running spill has come where a scrub found it: the rows spilled, the poisoned buffer block that stopped it, and the first
  poisoned element (R94, R139); and a running epilogue. -/
  spilled : Nat := 0
  spillStop : Option Nat := none
  spillHit : Option Nat := none
  epiMid : EpiMid := {}
  /-- What the epilogue met that ends the command (R106, R422). -/
  bad : Option EndStatus := none
deriving DecidableEq, Repr

/-- ARR.STATE.STATE (R71, R75). -/
inductive ArrState where
  | stopped | idle | load | rampUp | active | rampDown | held
deriving DecidableEq, Repr

/-- A rescale-table load in progress (R101, R237). -/
structure TableLoad where
  addr : Nat
  first : Nat
  count : Nat
  epoch : Nat
  /-- What scrubs found of the ALS while it was read, oldest first (R139). -/
  lines : List SeenLines := []
deriving DecidableEq, Repr

/-- An instruction whose rows have entered, with the tile it multiplies by. -/
structure MmFlow where
  instr : MmInstr
  tile : Tile
deriving DecidableEq, Repr

/-- A matrix array with its accumulator memory, rescale table and quantiser (chapters 3 to 5). -/
structure Arr where
  state : ArrState := .stopped
  abort : Bool := false
  /-- The ramp length of the ramp in progress (R70). -/
  ramp : Nat := 0
  stat : Tile := {}
  shadow : Tile := {}
  /-- The executing instruction, until its successor begins or its accumulation ends. -/
  exec : Option MmInstr := none
  /-- The executing instruction's tile is not there while the panels are already active: its exposed load, or the preload it uses, is in
  progress (R71, R74). -/
  loading : Bool := false
  wait : Option MmInstr := none
  /-- Instructions whose last A row has entered and whose accumulation has not ended, oldest first. -/
  flow : List MmFlow := []
  /-- Accumulated instructions that have not completed, oldest first (R73). -/
  post : List MmPost := []
  /-- The instruction whose preload of the shadow buffer is in progress (R74). -/
  preload : Option MmInstr := none
  /-- Flags of the command in progress, for the ARR and QNT bytes (R51). -/
  flags : Nat := 0
  qflags : Nat := 0
  failed : Option EndStatus := none
  /-- ARR.ITAG_FAIL holds a failure since ERR_FIRST was last cleared (R75). -/
  failHeld : Bool := false
  acc : Tab Nat := []
  accPoison : Tab Bool := []
  rescale : Tab Nat := []
  tableLoad : Option TableLoad := none
  tldIssued : Nat := 0
  /-- A REPLAY = 1 instruction holds issue (R106). -/
  barrier : Bool := false
deriving DecidableEq, Repr

/-- A vector instruction as read at issue (R118). -/
structure VecInstr where
  desc : Nat := 0
  fail : Option IssueFail := none
  seed : Nat := 0
  step : Nat := 0
deriving DecidableEq, Repr

/-- A vector engine (R116–R133). `mid` is how far the executing instruction has come. -/
structure VecEng where
  exec : Option VecInstr := none
  mid : VecMid := {}
  wait : Option VecInstr := none
  held : Bool := false
  abort : Bool := false
  flags : Nat := 0
  failed : Option EndStatus := none
  /-- VEC.ITAG_FAIL holds a failure since ERR_FIRST was last cleared (R133). -/
  failHeld : Bool := false
  /-- Digests delivered to the command (R130, R219). -/
  digest : Nat := 0
  digestValid : Bool := false
  lastTag : Nat := 0
deriving DecidableEq, Repr

/-- An ALS scrub (R139): requested, or running. -/
inductive Scrub where
  | none | requested | running
deriving DecidableEq, Repr

/-! Die islands: DMA and DSS -/

/-- DMA_CH.STATUS.STATE (R148). -/
inductive ChState where
  | disabled | idle | active | waitArray | halted
deriving DecidableEq, Repr

/-- One burst of a transfer whose data has been read (R144): its bytes and the poison of its 64 B blocks. -/
structure BurstData where
  index : Nat
  bytes : List Byte
  poison : List Bool
  /-- Where the burst's chunks begin in a compressed stream (R150, R152). -/
  pos : Nat := 0
deriving DecidableEq, Repr

/-- A DMA channel's engine state (R143–R152). Its configuration, counts and fault latches are in the register file. -/
structure DmaCh where
  state : ChState := .disabled
  pending : Nat := 0
  overrun : Bool := false
  next : Nat := 0
  /-- The descriptor taken up, when one has been read. -/
  desc : Option Nat := none
  /-- A start has been taken up and the descriptor at NEXT is to be fetched. -/
  fetching : Bool := false
  /-- Bursts issued and not returned. -/
  issued : List Nat := []
  /-- Bursts returned and not written. -/
  buffer : List BurstData := []
  /-- Bursts written or skipped: the index of the next burst to write. -/
  written : Nat := 0
  /-- Those of them that a skip left unwritten (R152). -/
  skipped : Nat := 0
  /-- The write of burst `written` has begun: a hold lets it complete (R149). -/
  writing : Bool := false
  /-- Issued bursts, and a write begun, that a block reset of their array island answered with BLOCK_RESET (R21, R151). -/
  refused : List Nat := []
  /-- The array whose block reset answered the write, by its place in the die. -/
  writeRefused : Option Nat := none
  /-- The bursts whose unit of work has begun and not ended, with the GTIME at which it began (R335, R343). -/
  began : List (Nat × Nat) := []
  /-- A descriptor that has been read and met a descriptor fault (R151, R152). -/
  faulted : Option Nat := none
  /-- Position in the compressed stream of the next burst to read (R150). -/
  streamPos : Nat := 0
  /-- ALS lines (array × 2^18 + line) a write of this transfer has been accepted for (R137). -/
  lines : List Nat := []
  /-- What scrubs found of a source ALS while bursts were reading it, oldest first (R139). -/
  seen : List SeenBursts := []
deriving DecidableEq, Repr

/-! The front end -/

/-- A fetched command that has not completed (R211–R219). -/
structure Cmd where
  /-- Ring index of the command. -/
  n : Nat := 0
  /-- Its bytes, first byte least significant. -/
  raw : Nat := 0
  /-- Status of the checks of R214 (0: passed), the offset of the offending field, and when they were made. -/
  check : Nat := 0
  checkOff : Nat := 0
  started : Bool := false
  /-- The command's operation has been carried out or handed to its engines. -/
  acted : Bool := false
  /-- The command has ended, with this status and INFO, and awaits its completion. -/
  ended : Bool := false
  status : Nat := 0
  info : Nat := 0xFF
  digest : Nat := 0
  digestValid : Bool := false
  start : Nat := 0
  waitSince : Nat := 0
  /-- Choices made by the command (R309). -/
  choices : Nat := 0
  /-- COUNTER_READ: its context's counters in the start cycle (R379). -/
  snap : List Nat := []
  /-- The place of the command's end among those of its queue (R219). -/
  endNo : Nat := 0
  /-- Engine codes (R220) that work for the command and have not reported; those told to abort. -/
  engines : List Nat := []
  aborted : Bool := false
  /-- The status to end with once the aborted engines have reported (R217, R229). -/
  abortStatus : Nat := 0
  detailWritten : Bool := false
  flags : Nat := 0
  /-- The seed and step counter when the command started (R111, R308). -/
  seed0 : Nat := 0
  step0 : Nat := 0
deriving DecidableEq, Repr

/-- DB.STATE.STATE (R209, R222). -/
inductive QState where
  | disabled | running | waiting | stopped | orphaned | draining
deriving DecidableEq, Repr

/-- A completion record that is held (R219, R221): its 32 bytes as a number and whether it raises the vector. -/
structure Held where
  word : Nat
  vector : Bool
deriving DecidableEq, Repr

/-- One entry of a queue destroy's report (R230). -/
structure Report where
  engine : Nat
  /-- The DMA channel, for a channel's own entry. -/
  unit : Option Nat := none
  final : Nat := 0
  progress : Nat := 0
  tag : Nat := 0
  next : Nat := 0
  aborted : Nat := 0
  done : Bool := false
deriving DecidableEq, Repr

/-- A queue destroy in progress on the destroyed queue (R229): the destroying command's queue and index, the report, and
whether its scrubs run. -/
structure Destroy where
  byQueue : Nat
  byCmd : Nat
  reports : List Report
  scrubbing : Bool := false
deriving DecidableEq, Repr

/-- A queue (R208, R209). A kernel queue takes its configuration from the KQ registers when it is enabled. -/
structure Queue where
  state : QState := .disabled
  reason : Nat := 0
  stopSeq : Nat := 0
  tail : Nat := 0
  head : Nat := 0
  /-- Ring indices completed, beyond the count in `doneN`. -/
  doneN : Nat := 0
  doneSet : List Nat := []
  cqTail : Nat := 0
  cqHead : Nat := 0
  log : Nat := 0
  big : Bool := false
  cqLog : Nat := 0
  ring : Nat := 0
  cq : Nat := 0
  timeout : Nat := 0
  vector : Nat := 0
  ctx : Nat := 0
  cmds : List Cmd := []
  held : List Held := []
  /-- Commands that have ended. -/
  ends : Nat := 0
  /-- The write of the first held record has met a fault (R221). -/
  wfault : Bool := false
  /-- A record write has failed since the queue last resumed: its records go to the orphan ring (R221). -/
  orphan : Bool := false
  /-- The command that is next to start, and GTIME since when it waits for nothing but its engines and arrays (R215, R226). -/
  since : Option (Nat × Nat) := none
  destroy : Option Destroy := none
deriving DecidableEq, Repr

/-- A saved image of a logical array: whether the ALS part is still good (R229). The bytes are in the save area (R225). -/
structure SaveImg where
  alsValid : Bool
deriving DecidableEq, Repr

/-- A context (R223, R224, R305, R377). -/
structure Ctx where
  resident : Bool := false
  mode : Nat := 0
  quantum : Nat := 0
  extent : Nat := 0
  saveBase : Nat := 0
  ranges : List (Nat × Nat) := []
  /-- Physical array of logical array L, plus 1; 0: not mapped. -/
  map : Tab Nat := []
  images : Tab (Option SaveImg) := []
  flags : Nat := 0
  counters : Tab Nat := []
  seed : Nat := 0
  step : Nat := 0
  choice : Nat := 0
  logLog2 : Nat := 0
  logBase : Nat := 0
  logFaults : Nat := 0
deriving DecidableEq, Repr

/-- Which context holds a physical array (R226, R227). `lastCtx` is the context that last held it (R139). -/
structure Holder where
  ctx : Option Nat := none
  since : Nat := 0
  incoming : Option Nat := none
  lastCtx : Option Nat := none
  quantumOver : Bool := false
  /-- The outgoing context's state has been saved (R227). -/
  saved : Bool := false
deriving DecidableEq, Repr

/-! Sequencers -/

/-- SEQ.STATE.STATE (R243). -/
inductive SeqState where
  | idle | run | stall | wait | held | drain
deriving DecidableEq, Repr

/-- A sequencer (R232–R243). -/
structure Seq where
  state : SeqState := .idle
  sibling : Bool := false
  ctx : Nat := 0
  waitSrc : Nat := 0
  pc : Nat := 0
  list : Nat := 0
  regs : Tab Nat := []
  lc : Tab Nat := []
  stack : List Nat := []
  ev : Tab Nat := []
  mdone : Nat := 0
  vdone : Nat := 0
  tdone : Nat := 0
  xdone : Nat := 0
  /-- The queue and command index of the RUN_LIST, its ENGINES, and the ENGINES bit number of this sequencer. -/
  queue : Nat := 0
  cmd : Nat := 0
  engines : Nat := 0
  bitNo : Nat := 0
  /-- What the list has ended with, while it drains. -/
  ending : Option EndStatus := none
  /-- Whether the ending contributes no status (a sibling stop). -/
  silent : Bool := false
  traceLost : Bool := false
  /-- The instruction word of the WAIT in progress. -/
  waitWord : Nat := 0
  /-- Exchange operations issued by this list and not ended. -/
  xops : Nat := 0
deriving DecidableEq, Repr

/-! What the LM1 sends -/

/-- What a message is: Brixcia messages (R319), fabric packets and flits (R251, R260), answers of the management
controller and the sideband. -/
inductive MsgKind where
  | intr | mmioCmp | memRead | memWrite | claim | evict | writeback | atomic | xlateReq | xinvDone | sndRsp | snpRsp
  | packet | control | dataRed | notice | pair | flit | mgmtReply | mgmtPush | smbusReply | dhcp | tftp | pin | boot | testPort | tls
deriving DecidableEq, Repr

/-- A message the LM1 has sent: the model's own record of its outputs, oldest first. `at` is a port, a tag, a session or a
vector, as the kind has it. -/
structure Msg where
  kind : MsgKind
  dest : Nat := 0
  args : List Nat := []
  data : List Byte := []
deriving DecidableEq, Repr

/-! The Brixcia Link -/

/-- The stable state of a host line (R325). -/
inductive LineState where
  | i | s | e | m
deriving DecidableEq, Repr

/-- A line of the host-line cache: its stable state and bytes, and whether a WB or EVICT of it has been sent (R325). -/
structure HostLine where
  st : LineState := .i
  data : List Byte := []
  leaving : Bool := false
  /-- The line arrived poisoned, and leaves so. -/
  poison : Bool := false
deriving DecidableEq, Repr

/-- A request outstanding on the link (R319–R321): its type, address (host physical, or host I/O for XLATE), size, the
agent that made it, the I/O address it was translated from, and when it was sent. -/
structure Req where
  mtype : Nat
  addr : Nat
  size : Nat
  agent : Nat
  io : Nat := 0
  req : Nat := 0
  ctx : Nat := 0
  write : Bool := false
  sent : Nat := 0
  /-- The ranges invalidated while a translation is in flight: first address, one past the last, and whether it is everything. -/
  invs : List (Nat × Nat × Bool) := []
deriving DecidableEq, Repr

/-- What a request ended with, kept until its agent takes it: 0 OK, 1 bus error, 2 translation fault. -/
structure HostAns where
  agent : Nat
  mtype : Nat
  addr : Nat
  size : Nat
  result : Nat
  code : Nat := 0
  poison : Bool := false
  data : List Byte := []
deriving DecidableEq, Repr

/-- An entry of the address translation cache (R327). -/
structure AtcEntry where
  io : Nat
  log : Nat
  pa : Nat
  w : Bool
deriving DecidableEq, Repr

/-- An XLATE_INV that waits for its in-flight uses: tag, range, and whether it covers everything (R328). -/
structure XInv where
  tag : Nat
  lo : Nat
  hi : Nat
  all : Bool
  /-- Tags of the requests that used a removed entry, or translations in flight, that have not returned. -/
  tags : List Nat
deriving DecidableEq, Repr

/-- The companion link beyond its registers (R316–R332). -/
structure Bxl where
  lines : Tab HostLine := []
  /-- Lines held, most recently used first (R324). -/
  order : List Nat := []
  reqs : Tab (Option Req) := []
  answers : List HostAns := []
  /-- GTIME at which a retired tag is free again (R330). -/
  retired : Tab Nat := []
  atc : List AtcEntry := []
  xinvs : List XInv := []
  /-- The boot image as read into boot SRAM (R331, R359): bytes read so far. -/
  bootPos : Nat := 0
deriving DecidableEq, Repr
/-! Power and time -/

/-- An entry of the pending table (R337): a setpoint (target in W, slope in W/ms) or a mode. -/
structure PwrEntry where
  isMode : Bool
  start : Nat
  target : Nat
  slope : Nat
deriving DecidableEq, Repr

/-- A cap that moves linearly with GTIME, in microwatts: `slope` W/ms is `slope` microwatts per nanosecond (R339). -/
structure Ramp where
  from_ : Nat
  target : Nat
  slope : Nat
  start : Nat
deriving DecidableEq, Repr

/-- The power controller and the reference clock's discipline (R333–R352). Engines are numbered arrays 0–19, vector engines
20–39, DMA engines 40–43, NMUs 44–67, exchange halves 68–69. -/
structure Pwr where
  /-- The active ramp, if one has been activated; caps are in microwatts. -/
  ramp : Option Ramp := none
  sched : Nat := 3200000000
  eff : Nat := 3200000000
  ceiling : Bool := false
  table : List PwrEntry := []
  /-- Brake accepted as asserted, and the rise after its release (R346). -/
  braked : Bool := false
  brakeRise : Option Ramp := none
  /-- The thermal cap: its value, whether it now falls (`some true`), rises or holds, and since when (R347). -/
  thermal : Option Nat := none
  thermalFall : Option Bool := none
  thermalAt : Nat := 0
  /-- GTIME of the last reading of the sensors. -/
  sampleAt : Nat := 0
  /-- The hottest junction sensor at that reading (R374). -/
  hotJunction : Nat := 0
  /-- Accepted VR_ALERT_N inputs (R336). -/
  alerts : Nat := 0
  trim : Nat := 0
  /-- The model's duty less the trim (R342, R344). -/
  duty : Nat := 1024
  fceil : Nat := 0x78
  ceilAt : Nat := 0
  /-- GTIME of the last recomputation of the caps, of the last estimate and of the last trim. -/
  capAt : Nat := 0
  estAt : Nat := 0
  trimAt : Nat := 0
  trip : Bool := false
  /-- Energy in microjoules (R348). -/
  energy : Nat := 0
  /-- Microjoules of the last interval that was added, and the nanojoules below one that the next takes up. -/
  lastUj : Nat := 0
  restNj : Nat := 0
  /-- The estimates since the last trim, in milliwatts: their sum, their number and the greatest (R344). -/
  winSum : Nat := 0
  winN : Nat := 0
  winMax : Nat := 0
  /-- Rails whose islands are stretched because the estimate exceeded the peak (R335). -/
  overs : List Nat := []
  /-- Stacks above 85 °C, refreshed at twice the rate (R347). -/
  hotStacks : List Nat := []
  locked : Bool := false
  armed : Bool := false
  /-- Offset still to be slewed away, in ns, and the cycles since the last 9 ns or 11 ns cycle (R350). -/
  slew : Int := 0
  slewPhase : Nat := 0
  lastEdge : Nat := 0
  /-- Quiet debt by engine, the engines that wait for it to be paid, and quiet time paid by die (R343). -/
  debt : Tab Nat := []
  quietWait : List Nat := []
  quietPaid : Tab Nat := []
  /-- The context whose unit a DMA engine began last, plus 1: it pays the engine's quiet debt. -/
  debtCtx : Tab Nat := []
  /-- GTIME + 1 at which each engine's unit of work began. -/
  active : Tab Nat := []
  /-- Engines whose next unit waits for a reservation, and the amperes reserved by engine × 16 + rail (R335). -/
  resWait : List Nat := []
  resv : Tab Nat := []
deriving DecidableEq, Repr

/-! What outlives a reset -/

/-- The working lifetime record (R392, R394): counts saturate. Bins are kept by group × 32 + bin, channels by 32s + ch. -/
structure Life where
  /-- The record continues the log in flash. -/
  begun : Bool := false
  seq : Nat := 0
  shutdown : Bool := false
  fatal : Bool := false
  fmaxFloor : Bool := false
  boots : Nat := 0
  unclean : Nat := 0
  fatals : Nat := 0
  powerOn : Nat := 0
  fwVersion : Nat := 0
  temp : Tab Nat := []
  power : Tab Nat := []
  margin : Tab Nat := []
  fmaxEff : Tab Nat := []
  eccCorr : Tab Nat := []
  retiredRows : Tab Nat := []
  /-- Channels of each stack ever retired, as a mask. -/
  retiredCh : Tab Nat := []
  /-- Replays (2p) and retrains (2p + 1) of port p; 36 is the Brixcia Link. -/
  link : Tab Nat := []
  /-- Fatal records by slot, as 256-bit numbers. -/
  fatalLast : Tab Nat := []
deriving DecidableEq, Repr

/-! The fabric -/

/-- A packet (R252): its header fields, its payload or 48 B control body, and the poison of its payload's 64 B blocks. -/
structure Pkt where
  typ : Nat := 1
  vc : Nat := 1
  last : Bool := false
  down : Bool := false
  hops : Nat := 0
  dst : Nat := 0
  src : Nat := 0
  msgId : Nat := 0
  op : Nat := 0
  epoch : Nat := 0
  offset : Nat := 0
  total : Nat := 0
  handle : Nat := 0
  pcrc : Nat := 0
  body : List Byte := []
  poison : List Bool := []
deriving DecidableEq, Repr

/-- An input buffer of the router: its packets, head first, and the GTIME at which the head became the head (R255). -/
structure InBuf where
  pkts : List Pkt := []
  since : Nat := 0
deriving DecidableEq, Repr

/-- The link layer of a port, of the Brixcia port or of the bonded pair link (R248–R250, R253, R318, R321). -/
structure LinkLayer where
  next : Nat := 0
  /-- Sent and unacknowledged: sequence number and body, oldest first. -/
  replay : List (Nat × List Byte) := []
  /-- The bytes of packets begun that are in no flit yet, and the packets that are not begun. -/
  begun : List Byte := []
  waiting : List (List Byte) := []
  expect : Nat := 0
  nakked : Bool := false
  replays : Nat := 0
  ackAt : Nat := 0
  stream : List Byte := []
  /-- 64 B units sent, and returned by the peer, by virtual channel, modulo 2^16. -/
  used : Tab Nat := []
  returned : Tab Nat := []
  /-- Units this end has freed, and has told the peer of. -/
  freed : Tab Nat := []
  told : Tab Nat := []
  /-- Messages that wait for credits: channel and bytes; and how many messages of the outbox have been taken (R319, R321). -/
  held : List (Nat × List Byte) := []
  taken : Nat := 0
deriving DecidableEq, Repr

/-- A port beyond its registers (R246, R247, R262): when it entered DETECT or FAILED, whether a retrain is in progress,
the peer's INIT parameters, when its error-free run began, uncorrectable codewords of the GTIME second, its codeword counter
(R245), and when it last sent a CREDIT flit (R253). -/
structure PortX where
  since : Nat := 0
  retrained : Bool := false
  /-- The Brixcia port's retrain has failed (R318); the port was bonded when it left UP (R250). -/
  lost : Bool := false
  wasBonded : Bool := false
  /-- The link layer whose last good number its INIT flit named (R250). -/
  offered : Nat := 0
  init : Option InitPar := none
  errFree : Nat := 0
  uncorr : Nat := 0
  second : Nat := 0
  counter : Nat := 0
  creditAt : Nat := 0
deriving DecidableEq, Repr

/-- The throttle of a half (R257): whether it is in force, the router cycle of the sixteen, and what the sixteen have injected. -/
structure Throttle where
  on : Bool := false
  cycle : Nat := 0
  sent : Nat := 0
deriving DecidableEq, Repr

/-- The router (R254–R258, R261). Banks are kept by index, members at 2,048 + index. -/
structure Router where
  cur : Tab Nat := []
  prev : Tab Nat := []
  next : Tab Nat := []
  fence : Tab Nat := []
  /-- GTIME + 1 of the last advance. -/
  advanced : Nat := 0
  /-- Input buffers by 4 × input + channel: inputs 0–35 the ports, 36–37 the exchange halves. -/
  inb : Tab InBuf := []
  sampled : Nat := 0
  nextMsg : Nat := 0
  /-- The round-robin position of the bonded pair link. -/
  rr : Nat := 0
  throttle : Tab Throttle := []
deriving DecidableEq, Repr

/-! The exchange engine -/

/-- An operation that waits in a half's start queue (R237, R269): its descriptor, context, the sequencer that issued it if
one did, and the command it belongs to. `kind` is the KIND its command allows: 0 a collective, 9 DISPATCH, 10 COMBINE, 15
any (XCI). -/
structure XReq where
  kind : Nat
  addr : Nat
  ctx : Nat
  seq : Option Nat
  queue : Nat
  cmd : Nat
deriving DecidableEq, Repr

/-- A trailer (R273). Late ranges are (LO, SIZE). -/
structure Trailer where
  flags : Nat := 0
  poison : Bool := false
  late : List (Nat × Nat) := []
deriving DecidableEq, Repr

/-- A reduction operand or value: working codes and trailer. -/
structure XVal where
  vals : List Nat := []
  tr : Trailer := {}
deriving DecidableEq, Repr

/-- A handle this member has granted and whose message has not been delivered: its number, what it is for, the rank it was
granted to, and the extents its payload goes to as it arrives, in order. The use of an operand names the child. -/
structure XHandle where
  id : Nat
  use : XUse
  rank : Nat
  place : List (Nat × Nat) := []
deriving DecidableEq, Repr

/-- A grant this member has received and not answered. -/
structure XGrant where
  use : XUse
  rank : Nat
  handle : Nat
  value : Nat := 0
  rows : List (Nat × Nat) := []
deriving DecidableEq, Repr

/-- A node chunk that this member owns and has granted handles for (R277): its router slot, if it has one, the staging
blocks it holds, and whether it has been computed. -/
structure XNode where
  lo : Nat
  size : Nat
  chunk : Nat
  slot : Option Nat := none
  stage : List Nat := []
  formed : Bool := false
deriving DecidableEq, Repr

/-- The operand of a child node for a chunk, as it was delivered. -/
structure XOpnd where
  lo : Nat
  size : Nat
  chunk : Nat
  val : XVal
deriving DecidableEq, Repr

/-- A message that an operation has to send and that waits for the half to begin it (R335, R343): its use and rank, whether it is an
operand for a router slot, its handle, its bytes and the poison of its 64 B blocks. -/
structure XOut where
  use : XUse
  rank : Nat
  red : Bool
  handle : Nat
  data : List Byte
  poison : List Bool
deriving DecidableEq, Repr

/-- A piece of a distribution tree that stands at this member (R279): the tree's root rank, the piece or chunk, its bytes
and the poison of its 64 B blocks. -/
structure XSeg where
  rank : Nat
  piece : Nat
  data : List Byte := []
  poison : List Bool := []
deriving DecidableEq, Repr

/-- A routing looked up at the source (R294): token, routing, destination rank, slot, TOKEN, and its row once granted
(`some none`: dropped). -/
structure Route where
  t : Nat
  r : Nat
  rank : Nat
  slot : Nat
  token : Nat
  row : Option (Option Nat) := none
deriving DecidableEq, Repr

/-- A live operation of an exchange half (R269–R284, R291–R298), and a late one whose chunks still go to CARRY. -/
structure Xop where
  half : Nat
  req : XReq
  desc : Nat
  mode : Nat := 0
  group : List Nat := []
  /-- The rank that holds each leaf of CANONICAL mode, 65,535 none; of a combine, its TOPK records. -/
  leafMap : List Nat := []
  pcheck : Nat := 0
  began : Nat := 0
  /-- This member's data at SRC (token rows, expert rows), with the poison of its 64 B blocks. -/
  src : List Byte := []
  srcPoison : List Bool := []
  /-- CARRY as consumed at the beginning, as binary64 codes, with the poison of its 64 B blocks. -/
  carryIn : List Nat := []
  carryPoison : List Bool := []
  forced : Option (List (Nat × Nat)) := none
  opnds : List XOpnd := []
  nodes : List XNode := []
  handles : List XHandle := []
  grants : List XGrant := []
  /-- What has been granted to a rank, and what has been sent to one. -/
  granted : List (XUse × Nat) := []
  sent : List (XUse × Nat) := []
  /-- Messages made up and not yet begun, in order. -/
  outq : List XOut := []
  segs : List XSeg := []
  missing : List Nat := []
  /-- Child nodes declared late here, and late operands that have arrived for CARRY: LO, chunk, values, poison; and
  those added or lost. -/
  late : List (Nat × Nat) := []
  lateIn : List (Nat × Nat × List Nat × Bool) := []
  lateDone : List (Nat × Nat) := []
  /-- Late ranges of the delivered trailers, and their flags and poison; and when the last trailer of a reduction was delivered. -/
  total : Trailer := {}
  whole : Option Nat := none
  /-- The counts an ALL_TO_ALL sends, or a combine's map entries; the counts received by rank, with TOKENs by slot. -/
  countsSrc : List Nat := []
  counts : List (Nat × List Nat × List (List Nat)) := []
  allotted : Bool := false
  accepted : List Nat := []
  truncated : Bool := false
  routes : List Route := []
  /-- COMBINE: the metadata of each output row as (slot, row, SRC_RANK, R, t), and the staged rows by t × K + r. -/
  rows : List (Nat × Nat × Nat × Nat × Nat) := []
  staged : List Nat := []
  nextHandle : Nat := 0x8000
  poisoned : Bool := false
  /-- The deadline of R283 has been judged; a combine has written Y; the operation holds its sequence slot (R291). -/
  judged : Bool := false
  combined : Bool := false
  holdsSlot : Bool := false
  /-- Status and code the operation ends with at this member, when something has ended it early. -/
  ending : Option Nat := none
  code : Nat := 0
deriving DecidableEq, Repr

/-- States of a message record (R260). -/
inductive RecState where
  | opened | tailSeen | complete | broken
deriving DecidableEq, Repr

/-- A message record of an exchange half (R259, R260): its payload by offset, with the poison of its blocks. -/
structure MsgRec where
  half : Nat
  src : Nat
  msgId : Nat
  state : RecState
  op : Nat
  total : Nat
  handle : Nat := 0
  n : Nat := 0
  parts : List (Nat × List Byte × List Bool) := []
deriving DecidableEq, Repr

/-- A control packet held for an operation that has not begun (R276). -/
structure Early where
  half : Nat
  since : Nat
  pkt : CtrlPkt
deriving DecidableEq, Repr

/-- The exchange engine (R266–R298): start queues by half, live operations in the order they began, message records, early
control packets, ended operations whose late chunks are still to come, and the slots of each half in use. -/
structure Xch where
  queue : Tab (List XReq) := []
  ops : List Xop := []
  recs : List MsgRec := []
  early : List Early := []
  carry : List Xop := []
deriving DecidableEq, Repr

/-- A sequence slot (R291): 0 IDLE, 1 DISPATCHING, 2 DISPATCHED, 3 COMBINING. -/
structure SSlot where
  state : Nat := 0
  ctx : Nat := 0
  op : Nat := 0
  map : Nat := 0
  t : Nat := 0
  k : Nat := 0
  lost : Bool := false
  queue : Nat := 0
deriving DecidableEq, Repr

/-- A catalogue load in progress (R289). -/
structure CatLoad where
  queue : Nat
  cmd : Nat
  ctx : Nat
  first : Nat
  count : Nat
  src : Nat
  gen : Nat
  begun : Bool := false
  at_ : Nat := 0
deriving DecidableEq, Repr

/-- The catalogue (R288–R291, R300): entries as 128-bit numbers, poisoned entries, sequence slots, the load. -/
structure Cat where
  entries : Tab Nat := []
  bad : Tab Bool := []
  slots : Tab SSlot := []
  load : Option CatLoad := none
deriving DecidableEq, Repr

/-! Update units and the mirror pair -/

/-- NMU.STATE.STATE (R206). -/
inductive NmuState where
  | idle | update | deposit | send | redo
deriving DecidableEq, Repr

/-- The fields of an update command that every NMU works under (R183, R184, R187, R190). -/
structure NmuCmd where
  queue : Nat := 0
  cmd : Nat := 0
  ctx : Nat := 0
  word : Nat := 0
  stream : Nat := 0
  seed : Nat := 0
  step : Nat := 0
  epoch : Nat := 0
  hyp : List Nat := []
  clip : Nat := 0
  /-- Added to every address (MIRROR_REDO, R202). -/
  shift : Nat := 0
  table : Nat := 0
  /-- The fields of the deposit header that a closing deposit sends (R197), in the model's own order. -/
  header : Nat := 0
deriving DecidableEq, Repr

/-- An update unit (R180–R194). -/
structure Nmu where
  state : NmuState := .idle
  cmd : NmuCmd := {}
  list : Nat := 0
  count : Nat := 0
  next : Nat := 0
  desc : Option Nat := none
  done : Nat := 0
  sent : Nat := 0
  fault : Option Nat := none
  skipped : Option Nat := none
  abort : Bool := false
  flags : Nat := 0
  /-- A request of the unit was answered with BLOCK_RESET (R21, R192). -/
  refused : Bool := false
deriving DecidableEq, Repr

/-- A mirror block in the reassembly buffer (R198): its stack and index, epoch, and whether every byte has arrived. -/
structure Reasm where
  s : Nat
  j : Nat
  epoch : Nat
  parts : List (Nat × Nat × List Byte)
  whole : Bool := false
deriving DecidableEq, Repr

/-- A message of the pair handshake as it arrives in fragments (R367). -/
structure HsPart where
  data : List Byte := []
  next : Nat := 0
  whole : Bool := false
deriving DecidableEq, Repr

/-- The pair-link handshake in progress (R367): the ephemeral private key, what this member sent, and the peer's messages. -/
structure Handshake where
  eph : Nat := 0
  myShare : List Byte := []
  mySig : List Byte := []
  share : HsPart := {}
  cert : HsPart := {}
  signature : HsPart := {}
  finished : HsPart := {}
deriving DecidableEq, Repr

/-- The mirror pair beyond its registers (R195–R203, R367, R368). -/
structure Pair where
  offset : Nat := 0
  map : Nat := 0
  hdr : Nat := 0
  e0 : Nat := 0
  peer : Nat := 0
  /-- The waiting MIRROR_BIND: queue, command, and its fields. -/
  binding : Option (Nat × Nat) := none
  hs : Handshake := {}
  /-- The keys of the two directions, 32 B each (R367), and their packet counters (R368). -/
  txKey : List Nat := []
  rxKey : List Nat := []
  txCtr : Nat := 0
  rxCtr : Nat := 0
  /-- The sender's side: blocks deposited in the open epoch, the epoch of the last acknowledged deposit, and what its
  closing command said. -/
  depSent : Nat := 0
  depEpoch : Nat := 0
  depAcked : Bool := false
  depWord : Nat := 0
  depTable : Nat := 0
  /-- The deposit or send command that waits for the partner's acknowledgement: queue, command, whether it is a send, and
  the unit that reports for it. -/
  waiting : Option (Nat × Nat × Bool × Nat) := none
  /-- The fields of the header that the closed deposit brought. -/
  header : Nat := 0
  /-- The receiver's side: deposit blocks counted. -/
  rxDep : Nat := 0
  reasm : List Reasm := []
deriving DecidableEq, Repr

/-! Management -/

/-- A management session (R369–R371): its class (1 READ, 2 CONTROL), anchor, and the GTIME of its last message. -/
structure Session where
  id : Nat
  cls : Nat
  anchor : Nat
  last : Nat
deriving DecidableEq, Repr

/-- The network boot and the management port (R361, R369): 0 idle, 1 asking, 2 fetching, 3 asking for an address alone; the server and
the file of the transfer, whether the server has answered the request's options, the next block, retries, and tsize. -/
structure NetBoot where
  phase : Nat := 0
  server : Nat := 0
  file : List Byte := []
  acked : Bool := false
  next : Nat := 1
  retries : Nat := 0
  tsize : Nat := 0
  asked : Nat := 0
  heard : Nat := 0
deriving DecidableEq, Repr

/-- What a management message asks for (R371). -/
inductive MgmtReq where
  | identity
  | attest (nonce : List Byte)
  | regRead (os : List Nat)
  | regWrite (ws : List (Nat × Nat))
  | counterRead (sels : List Nat)
  | setpoint (word : W32) (start : Nat)
  | mode (word : W32) (start : Nat)
  | dcbWrite
  | depositRead (off len : Nat)
  | logRead (off len : Nat)
  | trustSet (k cls fingerprint : Nat)
  | debugUnlock
deriving DecidableEq, Repr

/-- A management message that waits (R371): its session, header and request. -/
structure MgmtWait where
  sid : Nat
  head : MsgHead
  req : MgmtReq
deriving DecidableEq, Repr

/-- The management port's IPv4 address, prefix length and gateway (R361, R363, R369). -/
structure PortAddr where
  addr : Nat := 0
  prefixLen : Nat := 0
  gateway : Nat := 0
deriving DecidableEq, Repr

/-- An unwrapped RSA private key: modulus and private exponent (R357). -/
structure RsaPriv where
  n : Nat := 0
  d : Nat := 0
deriving DecidableEq, Repr

/-- The management controller and the security engine beyond their registers. -/
structure Mgmt where
  /-- The root public keys of the boot ROM (R356). -/
  romRsa : RsaPub := { n := Config.rootRsaN, e := Config.rootRsaE }
  romSlh : List Nat := bigBytes Config.rootSlh 32
  /-- Power-ups so far, by which the power-up state of the stores is named (R357). -/
  powerUp : Nat := 0
  /-- The device's private keys, unwrapped (R357). -/
  devRsa : RsaPriv := {}
  devSlh : List Nat := []
  /-- The generator of key sets (R365). -/
  drbg : Drbg := {}
  image : List Byte := []
  measure : Nat := 0
  sessions : List Session := []
  nextSession : Nat := 0
  /-- Anchors in force: class + 4 × fingerprint. -/
  anchors : Tab Nat := []
  /-- Attestation requests in order: session, request number, nonce. -/
  attest : List (Nat × Nat × Nat) := []
  /-- Messages that wait, in the order in which they came (R371). -/
  held : List MgmtWait := []
  net : NetBoot := {}
  ip : PortAddr := {}
  /-- The sideband's 32 bytes, as last refreshed (R374), and when: before the first, OUTPUTS_HELD alone (R364). -/
  smb : List Nat := 2 :: List.replicate 31 0
  smbAt : Nat := 0
  /-- The bytes of a multi-byte sideband field, held since its lowest byte was read. -/
  smbHeld : List Nat := []
  dcbHash : Nat := 0
  /-- Commands of the front end are stopped by DEBUG_UNLOCK (R373). -/
  debugHalt : Bool := false
deriving DecidableEq, Repr

/-- The pins (R399–R401, R406): accepted levels, the REF_CLK cycles since PWR_GOOD was accepted high, the straps, and the
outputs: READY's level and whether its push-pull output is on, FAULT_N and THERM_TRIP_N pulled low, and whether TDO is driven. -/
structure Pins where
  resetN : Bool := true
  powerGood : Bool := true
  goodFor : Nat := 1000000
  /-- The device is held in reset. -/
  inReset : Bool := false
  straps : Nat := 0
  /-- PKG_RESET_N has been accepted as released (R406). -/
  released : Bool := true
  ready : Bool := false
  /-- READY is driven, and not high-Z (R400). -/
  driven : Bool := true
  fault : Bool := false
  trip : Bool := false
  /-- The test port is in a Shift state, so TDO is driven (R400). -/
  shift : Bool := false
deriving DecidableEq, Repr

/-- The observation hub beyond its registers (R383, R389, R394). -/
structure Obs where
  ledgerNo : Nat := 0
  ledgerLost : Bool := false
  ledgerAt : Nat := 0
  /-- COUNTER_RESET starts in this front-end cycle (R384): queue, context, SEQ and the counters before the reset. -/
  resets : List (Nat × Nat × Nat × Nat × List Nat) := []
  /-- The fatal path: 0 none, 1 engines aborting, 2 dump, 3 done; and when it began. -/
  fatal : Nat := 0
  fatalAt : Nat := 0
  stopped : List Report := []
  second : Nat := 0
  /-- A flash write in progress carries SHUTDOWN; a further one is queued. -/
  flushNow : Bool := false
  flushNext : Option Bool := none
  periodicAt : Nat := 0
  logSecond : Nat := 0
  marginAt : Tab Nat := []
deriving DecidableEq, Repr


/-- The state of the LM1. -/
structure State where
  /-- Commands that wait, first in, first out. -/
  pending : List Instr := []
  gtime : Nat := 0
  /-- Register words by aperture offset; an unlisted word reads as its reset value. -/
  regs : Tab W32 := []
  /-- High words captured by a read of their low word, plus 1, by the offset of the high word (R413). -/
  hiCap : Tab Nat := []
  isl : Tab Island := []
  mem : Mem := {}
  mmu : Mmu := {}
  arr : Tab Arr := []
  vec : Tab VecEng := []
  als : Tab Store := []
  alsScrub : Tab Scrub := []
  dss : Tab Store := []
  dma : Tab DmaCh := []
  ctx : Tab Ctx := []
  queues : Tab Queue := []
  holder : Tab Holder := []
  seq : Tab Seq := []
  /-- Messages sent, oldest first: the model's own record of the block's outputs. -/
  outbox : List Msg := []
  /-- How many free values have been drawn: the model's own counter. -/
  draws : Nat := 0
  bxl : Bxl := {}
  pwr : Pwr := {}
  /-- A fatal error, a thermal trip or an asserted reset has stopped every island (R347, R389, R407). -/
  halted : Bool := false
  life : Life := {}
  link : Tab LinkLayer := []
  port : Tab PortX := []
  rtr : Router := {}
  xch : Xch := {}
  cat : Cat := {}
  nmu : Tab Nmu := []
  pair : Pair := {}
  mgmt : Mgmt := {}
  pins : Pins := {}
  obs : Obs := {}
  /-- Attempts of the bridge transfer in progress, by die × 8 + bridge × 2, + 1 where the link die receives (R15);
  and at 64 + die whether a transfer has crossed a bridge since NOC.RETRY_MAX was cleared (R420). -/
  bridge : Tab Nat := []
  /-- The package flash (R355, R392). -/
  flash : Tab Byte := []
deriving DecidableEq, Repr

/-- The bytes of a colophon copy at a flash offset that are not zero (R355): MAGIC, FORMAT, LENGTH, GRADE 20 and FMAX_CAL 0x78
for every array. The package modelled is a PMK-LM1-20 with no other identity. -/
def colophonCopy (base : Nat) : Tab Byte :=
  [(base, 0x31), (base + 1, 0x43), (base + 2, 0x4D), (base + 3, 0x4C), (base + 4, 1), (base + 8, 0x30), (base + 9, 0xD3),
   (base + 0x20, 20)] ++ (List.range 20).map fun n => (base + 0x30 + n, 0x78)

/-- The device just after the effective release of PKG_RESET_N, with no command waiting. -/
def State.reset : State := { flash := colophonCopy 0 ++ colophonCopy 0x100000 }

end Sys2Proof.Machine
end

