-- ==== Sys2Proof/Machine/Ops.lean ====
section
/-!
DEFINITION. The shared operations of the block: register words and their counters, error records and the error ring
(R385–R387), interrupt vectors (R329), page and context counters (R377–R381), device memory behind its controllers and
protection engines (R160, R165–R170), and translation (R162–R164).
Rows of notes/assumptions: DEDUCED 15, 16, 19, 34, 35, 36, 56, 63, 112, 144, 151; DESIGN CHOICE 9, 11, 12, 152, 180, 184, 214.
-/
namespace Sys2Proof.Machine

open Sys2Proof

/-- What a command answers. -/
abbrev Out := Host.Outcome State Fault Refusal

/-! Registers -/

/-- The word at an aperture offset, as the register file holds it. -/
def State.rget (s : State) (off : Nat) : Nat := (tabGet (regReset off) s.regs off).toNat

/-- Writes a word of the register file. -/
def State.rset (s : State) (off v : Nat) : State :=
  { s with regs := tabSet (regReset off) s.regs off (BitVec.ofNat 32 v) }

/-- A register of a page. -/
def State.reg (s : State) (b : Block) (i po : Nat) : Nat := s.rget (pageBase b i + po)
def State.setReg (s : State) (b : Block) (i po v : Nat) : State := s.rset (pageBase b i + po) v

/-- A field of a register. -/
def State.field (s : State) (b : Block) (i po lo w : Nat) : Nat := bits (s.reg b i po) lo w
def State.setField (s : State) (b : Block) (i po lo w v : Nat) : State :=
  s.setReg b i po (withBits (s.reg b i po) lo w v)

/-- Adds to a counter that saturates at 0xFFFF_FFFF. -/
def State.bump (s : State) (b : Block) (i po n : Nat) : State := s.setReg b i po (satAdd 32 (s.reg b i po) n)

/-- A 64-bit value held in a low and a high word. -/
def State.reg64 (s : State) (b : Block) (i lo hi : Nat) : Nat := s.reg b i lo + 2 ^ 32 * s.reg b i hi

def State.send (s : State) (m : Msg) : State := { s with outbox := s.outbox ++ [m] }

/-! Page counters -/

/-- Adds `n` events of code `ev` to the slots of a page that count it (R380). -/
def countSlot (b : Block) (i ev : Nat) (c : Option Nat) (n : Nat) (s : State) (k : Nat) : State :=
  let sel := s.reg b i (0x40 + 4 * k)
  if sel.testBit 8 && bits sel 0 8 == ev && (!sel.testBit 9 || c == some (bits sel 10 6)) then
    let v := (s.reg64 b i (0x60 + 8 * k) (0x64 + 8 * k) + n) % 2 ^ 64
    (s.setReg b i (0x60 + 8 * k) (v % 2 ^ 32)).setReg b i (0x64 + 8 * k) (v / 2 ^ 32)
  else s

def countEvent (s : State) (b : Block) (i ev : Nat) (c : Option Nat) (n : Nat) : State :=
  (List.range 8).foldl (countSlot b i ev c n) s

/-! Instance tables -/

def State.islOf (s : State) (i : Nat) : Island := tabGet {} s.isl i
def State.setIsl (s : State) (i : Nat) (v : Island) : State := { s with isl := tabSet {} s.isl i v }
def State.arrOf (s : State) (n : Nat) : Arr := tabGet {} s.arr n
def State.setArr (s : State) (n : Nat) (v : Arr) : State := { s with arr := tabSet {} s.arr n v }
def State.vecOf (s : State) (n : Nat) : VecEng := tabGet {} s.vec n
def State.setVec (s : State) (n : Nat) (v : VecEng) : State := { s with vec := tabSet {} s.vec n v }
def State.alsOf (s : State) (n : Nat) : Store := tabGet {} s.als n
def State.setAls (s : State) (n : Nat) (v : Store) : State := { s with als := tabSet {} s.als n v }
def State.dssOf (s : State) (d : Nat) : Store := tabGet {} s.dss d
def State.setDss (s : State) (d : Nat) (v : Store) : State := { s with dss := tabSet {} s.dss d v }
/-- Channel c of DMA[d] is kept at 32d + c. -/
def State.chOf (s : State) (k : Nat) : DmaCh := tabGet {} s.dma k
def State.setCh (s : State) (k : Nat) (v : DmaCh) : State := { s with dma := tabSet {} s.dma k v }
def State.ctxOf (s : State) (c : Nat) : Ctx := tabGet {} s.ctx c
def State.setCtx (s : State) (c : Nat) (v : Ctx) : State := { s with ctx := tabSet {} s.ctx c v }
def State.queueOf (s : State) (q : Nat) : Queue := tabGet {} s.queues q
def State.setQueue (s : State) (q : Nat) (v : Queue) : State := { s with queues := tabSet {} s.queues q v }
def State.holderOf (s : State) (n : Nat) : Holder := tabGet {} s.holder n
def State.setHolder (s : State) (n : Nat) (v : Holder) : State := { s with holder := tabSet {} s.holder n v }
def State.seqOf (s : State) (n : Nat) : Seq := tabGet {} s.seq n
def State.setSeq (s : State) (n : Nat) (v : Seq) : State := { s with seq := tabSet {} s.seq n v }

/-- The disabled-array mask of the colophon (DEV.DISABLED, R3). -/
def State.arrayDisabled (s : State) (n : Nat) : Bool := (s.reg .dev 0 0x108).testBit n

/-! Vectors -/

/-- Raises an interrupt vector: masked, its pending bit is set; otherwise one INTR is sent (R329). Once THERM_TRIP_N is asserted none
is raised (R389). -/
def raiseVector (s : State) (v : Nat) : State :=
  if s.pwr.trip then s
  else if (s.reg .bxl 0 (0x400 + 4 * (v / 32))).testBit (v % 32) then
    s.setReg .bxl 0 (0x500 + 4 * (v / 32)) (s.reg .bxl 0 (0x500 + 4 * (v / 32)) ||| 2 ^ (v % 32))
  else s.send { kind := .intr, dest := v }

/-! Device memory -/

/-- One past the last byte of device memory (R24). -/
def devEnd : Nat := 0x1A280000000

/-- The first byte of the host window (R24). -/
def hostBase : Nat := 2 ^ 43

/-- Bytes of the interleaved range, for k = MMU.MAP.DLOCAL (R159). -/
def interleaved (k : Nat) : Nat := 2 ^ 30 * (1674 - 24 * k)

/-- The placement function of R160: stack, channel, channel block, byte. -/
def placeOf (k pa : Nat) : Nat × Nat × Nat × Nat :=
  let i := interleaved k
  if pa < i then
    let b := pa / 512
    let u := b % 3
    let w := b / 3
    let o := w / 256
    let x := (w % 256) ^^^ bits o 0 8 ^^^ bits o 8 8 ^^^ bits o 16 7
    let c := 256 * u + x
    (c / 32, c % 32, o, pa % 512)
  else
    let g := 2 ^ 30 * (6 * k)
    let d := (pa - i) / g
    let b := (pa - i - g * d) / 512
    let u := b % 3
    let w := b / 3
    let o := w / 64
    let x := (w % 64) ^^^ bits o 0 6 ^^^ bits o 6 6 ^^^ bits o 12 6 ^^^ bits o 18 5
    let c := 64 * u + x
    (6 * d + c / 32, c % 32, 16384 * (279 - 4 * k) + o, pa % 512)

/-- MMU.MAP.DLOCAL. -/
def State.dlocal (s : State) : Nat := s.field .mmu 0 0x100 0 7

/-- The range of R159 an address lies in: 0 interleaved, 1 + d die-local to CD[d]. -/
def rangeOf (k pa : Nat) : Nat := if pa < interleaved k then 0 else 1 + (pa - interleaved k) / (2 ^ 30 * (6 * k))

/-- An error the protection engine captures: its stack, code, address, whether a write, owner (R178). -/
structure MemEvent where
  stack : Nat
  code : Nat
  pa : Nat
  write : Bool
  owner : Nat
deriving DecidableEq, Repr

/-- The answer to a read: whether it was refused for want of a key set or an address, the bytes, and the poison of each
64 B unit touched. -/
structure Rd where
  bus : Bool := false
  bytes : List Byte := []
  poison : List Bool := []
deriving DecidableEq, Repr

def Rd.bad (r : Rd) : Bool := r.poison.any id

/-- The key generation an owner's key set has; 0 when it is absent (R165). -/
def Mem.keyOf (m : Mem) (owner : Nat) : Nat := tabGet 0 m.keys owner

/-- The key set of a generation. -/
def Mem.keySet (m : Mem) (gen : Nat) : List Nat := tabGet [] m.sets gen

def State.setBlk (s : State) (b : Nat) (v : MemBlk) : State :=
  { s with mem := { s.mem with blks := tabSet {} s.mem.blks b v } }

/-- Counts an error that meets a full record (R385, R386). -/
def countMore (s : State) (b : Block) (i : Nat) : State :=
  let m := s.reg b i 0x24
  if m % 2 ^ 31 = 2 ^ 31 - 1 then s.setReg b i 0x24 (2 ^ 32 - 1) else s.setReg b i 0x24 (m + 1)

/-- Whether the channel that holds an address is retired (R175). -/
def State.chanRetired (s : State) (pa : Nat) : Bool :=
  let (st, ch, _, _) := placeOf s.dlocal pa
  (s.reg .mc st 0x104).testBit ch

/-- The channel 32s + ch and the row that hold a physical address. -/
def rowAt (s : State) (pa : Nat) : RowCopy :=
  let (st, ch, o, b) := placeOf s.dlocal pa
  ⟨32 * st + ch, Config.rowOf ((512 * o + b) / 64)⟩

/-- Whether the row that holds an address is being copied, so that an access to it waits (R174). -/
def rowBusy (s : State) (pa : Nat) : Bool := s.mem.copies.contains (rowAt s pa)

/-- Whether some row that holds one of the bytes [pa, pa + len) is being copied. -/
def rowsBusy (s : State) (pa len : Nat) : Bool :=
  !s.mem.copies.isEmpty && (List.range ((pa % 512 + len - 1) / 512 + 1)).any fun i => rowBusy s (pa / 512 * 512 + 512 * i)

/-- An access waits for a row's copy to end (R174). -/
def memWaits (s : State) (w : MemWait) : State := { s with mem := { s.mem with waiting := s.mem.waiting ++ [w] } }

/-- Whether a unit of a block is poisoned: its bit as read from the three copies by majority (R172). -/
def MemBlk.bad (b : MemBlk) (u : Nat) : Bool := decide (popcount 3 (bits b.poison (3 * u) 3) ≥ 2)

/-- Writes all three copies of a unit's poison bit. -/
def MemBlk.mark (b : MemBlk) (u : Nat) (v : Bool) : MemBlk := { b with poison := withBits b.poison (3 * u) 3 (7 * bit v) }

/-- Every copy of a block's poison bits set. -/
def allPoison : Nat := 0xFFF

/-- What the stacks hold of a 256 B block: the ciphertext of its four units and its tag (R166, R167). Where the tag matches no key
set, neither is known. -/
def State.heldBlock (s : State) (b : Nat) : Option (List Byte × Nat) :=
  match (tabGet {} s.mem.blks b).tag with
  | none => none
  | some (owner, gen) =>
    let cipher := (List.range 4).flatMap fun u => unitCipher (s.mem.keySet gen) (256 * b + 64 * u) (tabSlice 0 s.mem.bytes (256 * b + 64 * u) 64)
    some (cipher, blockTag (s.mem.keySet gen) owner b cipher)

/-- The 8 B of metadata of each unit of a block (R172): its quarter of the tag, the check symbols, the copies of its poison bit, and
2 B reserved. Unit u holds the bits from 16u of the tag (log entry 214). -/
def State.heldMeta (s : State) (b : Nat) : List Byte :=
  match s.heldBlock b with
  | none => []
  | some (cipher, tag) => (List.range 4).flatMap fun u =>
      let share := leBytes (bits tag (16 * u) 16) 2
      share ++ (Config.rsCheck ((cipher.drop (64 * u)).take 64 ++ share)).take 3 ++
        leBytes (bits (tabGet {} s.mem.blks b).poison (3 * u) 3) 1 ++ leBytes 0 2

/-- Counts and captures an integrity failure in the MPE page's own registers (R168, R178). -/
def tagFail (s : State) (st owner : Nat) (write : Bool) : State :=
  let s := s.bump .mpe st 0x100 1
  if (s.reg .mpe st 0x104).testBit 8 then s
  else s.setReg .mpe st 0x104 (pack [(0, 7, owner), (7, 1, bit write), (8, 1, 1)])

/-- The context an owner number stands for; none for the structure key (R165). -/
def ownerCtx (owner : Nat) : Option Nat := if owner < 64 then some owner else none

/-- Serves a read of bytes within one 256 B block under an owner whose key set is loaded (R168, R172, R175): the poison
of the units touched. The tag is checked for every unit of the block that is not poisoned. -/
def readBlk (s : State) (owner pa len : Nat) : State × List Bool × List MemEvent :=
  let b := pa / 256
  let u0 := pa % 256 / 64
  let us := (List.range ((pa % 256 + len - 1) / 64 + 1 - u0)).map (· + u0)
  if s.chanRetired pa then (s, us.map fun _ => true, [])
  else
    let blk := tabGet {} s.mem.blks b
    let (st, _, _, _) := placeOf s.dlocal pa
    let s := countEvent s .mc st 0x30 (ownerCtx owner) 4
    let bad := us.map blk.bad
    let nbad := (bad.filter id).length
    let s := if nbad > 0 then s.bump .mpe st 0x108 nbad else s
    if (List.range 4).all blk.bad then (s, bad, [])
    else if blk.tag = some (owner, s.mem.keyOf owner) then (s, bad, [])
    else (tagFail s st owner false, us.map fun _ => true, [⟨st, 0x01, b * 256, false, owner⟩])

/-- Reads a run of bytes block by block. -/
def readBlks : Nat → State → Nat → Nat → Nat → State × List Bool × List MemEvent
  | 0, s, _, _, _ => (s, [], [])
  | fuel + 1, s, owner, pa, len =>
    if len = 0 then (s, [], [])
    else
      let n := min len (256 - pa % 256)
      let (s, p, e) := readBlk s owner pa n
      let (s, p', e') := readBlks fuel s owner (pa + n) (len - n)
      (s, p ++ p', e ++ e')

/-- Whether bytes [pa, pa + len) are device memory. -/
def inDevice (pa len : Nat) : Bool := decide (pa + len ≤ devEnd)

/-- A read of device memory under an owner, without the error records it gives rise to. -/
def devReadRaw (s : State) (owner pa len : Nat) : State × Rd × List MemEvent :=
  if !inDevice pa len then (s, { bus := true }, [])
  else if s.mem.keyOf owner = 0 then
    let (st, _, _, _) := placeOf s.dlocal pa
    (s, { bus := true }, [⟨st, 0x02, pa, false, owner⟩])
  else
    let (s, p, e) := readBlks (len / 256 + 2) s owner pa len
    let raw := tabSlice 0 s.mem.bytes pa len
    let bytes := if p.any id then
        (List.range len).map fun i => if p.getD ((pa + i) / 64 - pa / 64) false then 0 else raw.getD i 0
      else raw
    (s, { bytes := bytes, poison := p }, e)

/-- A write of bytes within one 256 B block under a loaded key set (R169, R175). -/
def writeBlk (s : State) (owner pa : Nat) (data : List Byte) : State × List MemEvent :=
  let (st, _, _, _) := placeOf s.dlocal pa
  if s.chanRetired pa then
    (countMore s .mc st, [])
  else
    let b := pa / 256
    let blk := tabGet {} s.mem.blks b
    let key := (owner, s.mem.keyOf owner)
    let s := countEvent s .mc st 0x31 (ownerCtx owner) ((pa % 256 + data.length - 1) / 64 + 1 - pa % 256 / 64)
    let s := if data.length = 256 then s else countEvent s .mc st 0x30 (ownerCtx owner) 4
    let s := { s with mem := { s.mem with bytes := tabFill 0 s.mem.bytes pa data } }
    let lo := pa % 256
    let hi := lo + data.length
    if lo = 0 && hi = 256 then (s.setBlk b ⟨some key, 0⟩, [])
    else if blk.tag = some key then
      let whole := (List.range 4).filter fun u => decide (lo ≤ 64 * u) && decide (64 * u + 64 ≤ hi)
      (s.setBlk b { whole.foldl (fun x u => x.mark u false) blk with tag := some key }, [])
    else
      (tagFail (s.setBlk b ⟨none, allPoison⟩) st owner true, [⟨st, 0x01, b * 256, true, owner⟩])

/-- Writes a run of bytes block by block. -/
def writeBlks : Nat → State → Nat → Nat → List Byte → State × List MemEvent
  | 0, s, _, _, _ => (s, [])
  | fuel + 1, s, owner, pa, data =>
    if data.isEmpty then (s, [])
    else
      let n := 256 - pa % 256
      let (s, e) := writeBlk s owner pa (data.take n)
      let (s, e') := writeBlks fuel s owner (pa + n) (data.drop n)
      (s, e ++ e')

/-- A write of device memory under an owner, without its error records; the flag says that it was refused. -/
def devWriteRaw (s : State) (owner pa : Nat) (data : List Byte) : State × Bool × List MemEvent :=
  if !inDevice pa data.length then (s, true, [])
  else if s.mem.keyOf owner = 0 then
    let (st, _, _, _) := placeOf s.dlocal pa
    (s, true, [⟨st, 0x02, pa, true, owner⟩])
  else
    let (s, e) := writeBlks (data.length / 256 + 2) s owner pa data
    (s, false, e)

/-- Marks 64 B units poisoned (R153, R172). -/
def poisonUnits (s : State) : List Nat → State
  | [] => s
  | pa :: us =>
    let blk := tabGet {} s.mem.blks (pa / 256)
    poisonUnits (s.setBlk (pa / 256) (blk.mark (pa % 256 / 64) true)) us

/-! Error records -/

/-- What an error carries into its page's record (R385): SEVERITY, context, UNIT, ERR_ADDR, ERR_INFO. -/
structure Err where
  sev : Nat
  ctx : Option Nat := none
  unit : Nat := 0
  addr : Nat := 0
  info : Nat := 0
deriving DecidableEq, Repr

/-- SEVERITY codes (R385). -/
def sevLogged : Nat := 0
def sevCorrected : Nat := 1
def sevFailed : Nat := 2
def sevFatal : Nat := 3

/-- The error vector that a capture in a page raises: on a rise of INT_STATUS (R386, R415). -/
def captureVector (s : State) (b : Block) (i : Nat) : Option Nat :=
  if s.reg b i 0x14 % 2 = 0 && s.reg b i 0x18 % 2 = 1 then some (s.field .obs 0 0x1B4 0 11) else none

/-- Raises the vector that announces a record, if any. -/
def announce (s : State) : Option Nat → State
  | some v => raiseVector s v
  | none => s

/-- Writes the page's record and raises INT_RAW (R386). -/
def captureWords (s : State) (b : Block) (i : Nat) (e : Err) : State :=
  let first := pack [(0, 1, 1), (1, 2, e.sev), (3, 1, bit e.ctx.isSome), (4, 6, e.ctx.getD 0), (16, 8, e.unit)]
  let s := s.setReg b i 0x20 first
  let s := s.setReg b i 0x28 (e.addr % 2 ^ 32)
  let s := s.setReg b i 0x2C (e.addr / 2 ^ 32)
  let s := s.setReg b i 0x30 e.info
  let s := s.setReg b i 0x34 (s.gtime % 2 ^ 32)
  let s := s.setReg b i 0x38 (s.gtime / 2 ^ 32)
  s.setReg b i 0x14 1

/-! Bridges between dies (R13, R14, R420): the compute dies are 0 to 3, LD[0] is 4 and LD[1] 5 -/

/-- The compute dies whose NOC pages count the bridge transfers of a path from die `a` to die `b`: along the row first, then along the
column, and between the link dies along the upper or the lower row. What a link die receives is counted at the compute die at the
other end of its bridge. -/
def bridgePath (upper : Bool) (a b : Nat) : List Nat :=
  if a = b then []
  else if a ≥ 4 && b ≥ 4 then
    let r := if upper then 0 else 2
    [r + (a - 4), r + (b - 4), r + (b - 4)]
  else if a ≥ 4 then
    let d := b / 2 * 2 + (a - 4)
    d :: (if d = b then [] else [b])
  else
    let d := a / 2 * 2 + (if b ≥ 4 then b - 4 else b % 2)
    (if d = a then [] else [d]) ++ (if b ≥ 4 then [d] else if d = b then [] else [b])

/-- A transfer crosses the bridges from die `a` to die `b`, and needs one attempt at least on each (R420; log entry 144). -/
def crossOnce (s : State) (upper : Bool) (a b : Nat) : State :=
  if a = b then s else { s with bridge := (bridgePath upper a b).foldl (fun t d => tabSet 0 t (64 + d) 1) s.bridge }

/-- Traffic between two dies with no destination fabric port. -/
def crossTo (s : State) (a b : Nat) : State := crossOnce s (Config.linkRow a b) a b

/-- A request from die `a` to die `b`, and its response where it has been given. -/
def cross (s : State) (a b : Nat) (answered : Bool := true) : State :=
  let s := crossTo s a b
  if answered then crossTo s b a else s

/-- The die whose stacks hold an address of device memory, and LD[0] for the host window. -/
def State.dieOf (s : State) (pa : Nat) : Nat := if pa ≥ hostBase then 4 else (placeOf s.dlocal pa).1 / 6

/-- An access from a die to the bytes [pa, pa + len) of physical memory crosses the bridges to the dies that hold them. -/
def reach (s : State) (die pa len : Nat) (answered : Bool := true) : State :=
  if pa ≥ hostBase then cross s die 4 answered
  else if inDevice pa len then
    ((List.range ((pa % 512 + len - 1) / 512 + 1)).map fun i => s.dieOf (pa / 512 * 512 + 512 * i)).foldl (fun s d => cross s die d answered) s
  else s

/-- The 32 B error-ring record of a captured page record (R387). -/
def ringRecord (s : State) (b : Block) (i : Nat) : List Byte :=
  leBytes (pack [(0, 32, s.reg b i 0x34), (32, 32, s.reg b i 0x38), (64, 12, pageBase b i / 0x1000),
    (96, 32, s.reg b i 0x20), (128, 32, s.reg b i 0x30), (192, 32, s.reg b i 0x28), (224, 32, s.reg b i 0x2C)]) 32

/-- Appends the record of a capture to the error ring, and raises the vector once it is accepted (R323, R387); where the row is being
copied both wait (R174). -/
def errorRing (s : State) (b : Block) (i : Nat) (v : Option Nat) : State × List MemEvent :=
  let cfg := s.reg .obs 0 0x1A0
  if cfg % 2 = 0 then (announce s v, [])
  else
    let log := s.field .obs 0 0x1A4 16 5
    let base := 2 ^ 12 * (cfg / 2 ^ 12) + 2 ^ 32 * s.field .obs 0 0x1A4 0 12
    let tail := s.reg .obs 0 0x1A8
    let pa := base + 32 * (tail % 2 ^ log)
    if (2 ^ 32 + tail - s.reg .obs 0 0x1AC) % 2 ^ 32 = 2 ^ log then (announce (s.bump .obs 0 0x1B0 1) v, [])
    else if rowsBusy s pa 32 then ((memWaits (reach s 4 pa 32) (.ring pa (ringRecord s b i) v)).setReg .obs 0 0x1A8 ((tail + 1) % 2 ^ 32), [])
    else
      let (s, _, e) := devWriteRaw s 64 pa (ringRecord s b i)
      (announce ((reach s 4 pa 32).setReg .obs 0 0x1A8 ((tail + 1) % 2 ^ 32)) v, e)

/-- Whether a page is one of a disabled array island, whose record never captures (R418). -/
def State.pageDead (s : State) (b : Block) (i : Nat) : Bool := isArrayPage b && s.arrayDisabled i

/-- An error of a page: captured whole with VALID clear, counted otherwise (R386). The ring's own memory errors are
captured in turn, to the depth of the fuel; one that finds its page's record full is counted. -/
def captureFuel : Nat → State → Block → Nat → Err → State
  | 0, s, b, i, _ => countMore s b i
  | fuel + 1, s, b, i, e =>
    if s.pageDead b i then s
    else if s.reg b i 0x20 % 2 = 1 then countMore s b i
    else
      let (s, evs) := errorRing (captureWords s b i e) b i (captureVector s b i)
      evs.foldl (fun s v =>
        captureFuel fuel s .mpe v.stack
          { sev := sevFailed, addr := v.pa, info := v.code + bit v.write * 2 ^ 8 + v.owner * 2 ^ 9 }) s

def capture (s : State) (b : Block) (i : Nat) (e : Err) : State := captureFuel 4 s b i e

/-- A write that is ignored and logged: code 0xF0 (R385). -/
def logIgnored (s : State) (b : Block) (i off : Nat) : State :=
  capture s b i { sev := sevLogged, addr := off, info := 0xF0 }

/-- Which of two errors of one page and cycle is captured: the one of higher SEVERITY, then the one of lower UNIT, then the first
(R386). -/
def Err.first (a b : Err) : Err := if a.sev < b.sev || (a.sev == b.sev && decide (b.unit < a.unit)) then b else a

/-- A page takes its place among others by its offset, once (R387). -/
def placePage (p : Block × Nat) : List (Block × Nat) → List (Block × Nat)
  | [] => [p]
  | q :: qs =>
    if p = q then q :: qs
    else if pageBase p.1 p.2 < pageBase q.1 q.2 then p :: q :: qs
    else q :: placePage p qs

/-- The errors of one page that arrive in one cycle: one is captured, where the page's record is free, and the others are counted
(R386). -/
def capturePage (s : State) (p : Block × Nat) (es : List Err) : State :=
  match es with
  | [] => s
  | e :: rest =>
    let best := rest.foldl Err.first e
    (es.erase best).foldl (fun s e => capture s p.1 p.2 e) (capture s p.1 p.2 best)

/-- The errors that arrive in one cycle, page by page in ascending offset (R386, R387). -/
def captureAll (s : State) (evs : List (Block × Nat × Err)) : State :=
  ((evs.map fun e => (e.1, e.2.1)).foldl (fun ps p => placePage p ps) []).foldl (fun s p =>
    capturePage s p ((evs.filter fun e => (e.1, e.2.1) == p).map (·.2.2))) s

/-- Captures the events of a memory access, which are of one cycle, in their MPE pages (R178). -/
def captureEvents (s : State) (evs : List MemEvent) : State :=
  captureAll s (evs.map fun v => (.mpe, v.stack,
    { sev := sevFailed, addr := v.pa, info := v.code + bit v.write * 2 ^ 8 + v.owner * 2 ^ 9 }))

/-- A read of device memory under an owner (R165, R168). -/
def devRead (s : State) (owner pa len : Nat) : State × Rd :=
  let (s, r, e) := devReadRaw s owner pa len
  (captureEvents s e, r)

/-- A write of device memory under an owner (R165, R169); the flag says that it was refused. -/
def devWrite (s : State) (owner pa : Nat) (data : List Byte) : State × Bool :=
  let (s, r, e) := devWriteRaw s owner pa data
  (captureEvents s e, r)

/-- A read of device memory from a die. -/
def readFrom (s : State) (die owner pa len : Nat) : State × Rd :=
  let (s, r) := devRead s owner pa len
  (reach s die pa len, r)

/-- A write of device memory from a die. -/
def writeFrom (s : State) (die owner pa : Nat) (data : List Byte) : State × Bool :=
  let (s, bad) := devWrite s owner pa data
  (reach s die pa data.length, bad)

/-- Writes a record of a ring of device memory from a die, at the end of its row's copy where it is in one (R174). -/
def ringWrite (s : State) (die pa : Nat) (data : List Byte) : State :=
  if rowsBusy s pa data.length then memWaits (reach s die pa data.length) (.ring pa data none) else (writeFrom s die 64 pa data).1

/-! Page counters and context counters -/

/-- Adds to a context counter (R377). -/
def ctxCount (s : State) (c k n : Nat) : State :=
  let x := s.ctxOf c
  s.setCtx c { x with counters := tabMod 0 x.counters k fun v => (v + n) % 2 ^ 64 }

/-- ORs flags into a byte of a context's flag word (R50, R51): ARR 0, VEC 1, QNT 2, NMU 3, XCH 4. -/
def mergeFlags (s : State) (c byte f : Nat) : State :=
  let x := s.ctxOf c
  s.setCtx c { x with flags := x.flags ||| (f % 256) * 2 ^ (8 * byte) }

/-! Identity and configuration -/

/-- `n` bytes of the entropy source. -/
def freeBytes (s : State) (n : Nat) : State × List Nat :=
  ({ s with draws := s.draws + 1 }, (List.range n).map fun i => Config.entropy s.draws i % 256)

/-- The flash offset of the colophon copy in use. -/
def State.colophonBase (s : State) : Nat := if (s.reg .sec 0 0x100).testBit 9 then 0x100000 else 0

/-- Whether the device configuration is committed (R246, R364). -/
def State.committed (s : State) : Bool := s.field .mbx 0 0xF04 0 3 == 3

/-! Translation -/

/-- Requester codes of MMU.FAULT.REQ (R179). -/
def reqDma : Nat := 0
def reqFe : Nat := 1
def reqXch : Nat := 2
def reqNmu : Nat := 3
def reqSeq : Nat := 4

/-- Fault codes of R163. -/
def fNoRoot : Nat := 1
def fReserved : Nat := 2
def fNotValid : Nat := 3
def fBadTarget : Nat := 4
def fPoisoned : Nat := 5
def fWriteProtect : Nat := 6
/-- No code of R163: the table entry lies in a row that is being copied, and the walk waits (R174). -/
def fRowBusy : Nat := 0x10

/-- Whether [pa, pa + len) lies wholly in one range of R24 and, for device memory, of R159. -/
def oneRange (k pa len : Nat) : Bool :=
  if pa ≥ hostBase then decide (pa + len ≤ 2 ^ 44)
  else inDevice pa len && rangeOf k pa == rangeOf k (pa + len - 1)

/-- The checks of one table entry, in the order of R163's table: `none` when it passes. -/
def entryFault (k level e : Nat) (write : Bool) : Option Nat :=
  let leaf := bits e 1 1 == 1
  let addr := 2 ^ 12 * bits e 12 32
  let size := if level = 2 then 30 else 21
  if bits e 3 9 ≠ 0 || bits e 44 20 ≠ 0 || (leaf && level ≤ 2 && addr % 2 ^ size ≠ 0) then some fReserved
  else if bits e 0 1 = 0 then some fNotValid
  else if (leaf && level == 3) || (!leaf && level == 1) then some fBadTarget
  else if !leaf && !inDevice addr 4096 then some fBadTarget
  else if leaf && !oneRange k addr (2 ^ size) then some fBadTarget
  else if leaf && write && bits e 2 1 == 0 then some fWriteProtect
  else none

/-- Walks down from a table at `level` (3, 2, 1) for a die's TLB: the leaf found, and the level-2 pointer passed. -/
def walkFrom : Nat → State → Nat → Nat → Nat → Nat → Bool → State × Except Nat TlbEntry × Option WalkPtr
  | 0, s, _, _, _, _, _ => (s, .error fBadTarget, none)
  | level + 1, s, die, c, table, va, write =>
    let idx := bits va (12 + 9 * (level + 1)) 9
    if rowsBusy s (table + 8 * idx) 8 then (s, .error fRowBusy, none)
    else
      let (s, r) := readFrom s die 64 (table + 8 * idx) 8
      if r.bus || r.bad then (s, .error fPoisoned, none)
      else
        let e := leNat r.bytes
        match entryFault s.dlocal (level + 1) e write with
        | some f => (s, .error f, none)
        | none =>
          let addr := 2 ^ 12 * bits e 12 32
          if bits e 1 1 = 1 then
            let log := if level + 1 = 2 then 30 else 21
            (s, .ok ⟨c, va / 2 ^ log * 2 ^ log, log, addr, bits e 2 1 == 1⟩, none)
          else
            let (s, r, p) := walkFrom level s die c addr va write
            (s, r, if level + 1 = 2 then some ⟨c, va / 2 ^ 30, addr⟩ else p)

/-- Whether an invalidation concerns the walks of a context: it waits for those in progress and discards what they find (R164). -/
def Inval.coversWalk (v : Inval) (c : Nat) : Bool := v.scope == 1 || ((v.scope == 2 || v.scope == 3) && c == v.ctx)

/-- Whether an invalidation's scope covers a translation of context c at va (R164, R179). -/
def Inval.covers (v : Inval) (c va log : Nat) : Bool :=
  match v.scope with
  | 1 => true
  | 2 => c == v.ctx
  | 3 => c == v.ctx && va / 2 ^ log == v.va / 2 ^ log
  | _ => false

/-- The result of a page walk under a context, with the walk cache's pointer when it holds one (R162–R164). -/
def pageWalk (s : State) (die c va : Nat) (write : Bool) : State × Except Nat TlbEntry × Option WalkPtr :=
  if s.reg .mmu 0 (0x200 + 8 * c) % 2 = 0 then (s, .error fNoRoot, none)
  else if va ≥ 2 ^ 48 then (s, .error fReserved, none)
  else
    match (tabGet [] s.mmu.walkCache die).find? (fun p => p.ctx == c && p.vaHi == va / 2 ^ 30) with
    | some p => walkFrom 1 s die c p.table va write
    | none =>
      let root := 2 ^ 12 * (s.reg .mmu 0 (0x200 + 8 * c) / 2 ^ 12) + 2 ^ 32 * (s.field .mmu 0 (0x204 + 8 * c) 0 12)
      if inDevice root 4096 then walkFrom 3 s die c root va write else (s, .error fBadTarget, none)

/-- Fills the die's TLB and walk cache, the oldest entry giving way when one is full (R164). -/
def tlbFill (s : State) (die : Nat) (e : TlbEntry) (p : Option WalkPtr) : State :=
  let t := (e :: tabGet [] s.mmu.tlb die).take 8192
  let w := match p with
    | some p => (p :: tabGet [] s.mmu.walkCache die).take 256
    | none => tabGet [] s.mmu.walkCache die
  { s with mmu := { s.mmu with
      tlb := tabSet [] s.mmu.tlb die t
      walkCache := tabSet [] s.mmu.walkCache die w } }

/-- The TLB entry that translates an access. -/
def tlbFind (s : State) (die c va : Nat) : Option TlbEntry :=
  (tabGet [] s.mmu.tlb die).find? fun e => e.ctx == c && va / 2 ^ e.log * 2 ^ e.log == e.va

/-- Latches a translation fault in MMU.FAULT[d], the first since its clear, and records it in the page (R163, R176). -/
def latchFault (s : State) (die req c va code : Nat) (write : Bool) : State :=
  let o := 0x180 + 0x10 * die
  let s :=
    if (s.reg .mmu 0 o).testBit 14 then s
    else
      let s := s.setReg .mmu 0 o (pack [(0, 4, code), (4, 3, req), (7, 6, c), (13, 1, bit write), (14, 1, 1)])
      (s.setReg .mmu 0 (o + 4) (va % 2 ^ 32)).setReg .mmu 0 (o + 8) (va / 2 ^ 32 % 2 ^ 16)
  capture s .mmu 0 { sev := sevFailed, ctx := some c, addr := va, info := code }

/-- Translates a virtual address for a requester at a die: a TLB hit, or a walk that fills the TLB, latches its fault, or waits for a
row that is being copied (R163, R164, R174). -/
def translate (s : State) (die req c va : Nat) (write : Bool) : State × XAns :=
  let hit := if va < 2 ^ 48 && s.reg .mmu 0 (0x200 + 8 * c) % 2 == 1 then tlbFind s die c va else none
  match hit with
  | some e =>
    if write && !e.w then (latchFault s die req c va fWriteProtect write, .fault fWriteProtect)
    else (s, .pa (e.pa + va % 2 ^ e.log))
  | none =>
    match pageWalk s die c va write with
    | (s, .ok e, p) => (tlbFill s die e p, .pa (e.pa + va % 2 ^ e.log))
    | (t, .error f, _) => if f = fRowBusy then (s, .wait) else (latchFault t die req c va f write, .fault f)

/-- A translation asked for from a die: a link die asks the TLB of a compute die (R164). -/
def translateFrom (s : State) (src die req c va : Nat) (write : Bool) : State × XAns :=
  let (s, a) := translate s die req c va write
  (cross s src die (a != .wait), a)

end Sys2Proof.Machine
end

