-- ==== Sys2Proof/Machine/Trans.lean ====
section
/-!
DEFINITION. The functions of R123, correctly rounded (R122): each is computed in fixed point to 640 fraction bits, far
beyond the distance of any result from a rounding boundary of the FP32 grid or of a fast variant's grid, and handed on
with its last bit set, so that the one rounding of `ieeeRound` rounds it as the exact real value rounds. Results that are
rational are handed on exactly.
-/
namespace Sys2Proof

/-- Fraction bits of the fixed-point working precision. -/
def fxP : Nat := 640

/-- 1.0 in fixed point. -/
def fxOne : Int := ((2 ^ fxP : Nat) : Int)

def fxMul (a b : Int) : Int := a * b / fxOne
def fxDiv (a b : Int) : Int := a * fxOne / b

/-- A dyadic number in fixed point, rounded down. -/
def fxOf (neg : Bool) (m : Nat) (e : Int) : Int :=
  let x : Int := (inUnits m 1 e (-(fxP : Int))).1
  if neg then -x else x

/-- Σ over the terms of Σ t_k with t_{k+1} = t_k × r / (k + 1): e^r − t_0's tail included, from term `k`. -/
def expSeries (r : Int) : Nat → Nat → Int → Int
  | 0, _, _ => 0
  | fuel + 1, k, t => t + expSeries r fuel (k + 1) (fxMul t r / ((k + 1 : Nat) : Int))

/-- e^r for |r| < 1. -/
def fxExp0 (r : Int) : Int := expSeries r 140 0 fxOne

/-- Σ z^(2k+1) / (2k+1) from term `k`; `zp` is z^(2k+1) and `s` is z². -/
def atanhSeries (s : Int) : Nat → Nat → Int → Int
  | 0, _, _ => 0
  | fuel + 1, k, zp => zp / ((2 * k + 1 : Nat) : Int) + atanhSeries s fuel (k + 1) (fxMul zp s)

/-- atanh z for |z| ≤ 1/3. -/
def fxAtanh (z : Int) : Int := atanhSeries (fxMul z z) 210 0 z

/-- ln 2. -/
def fxLn2 : Int := 2 * fxAtanh (fxOne / 3)

/-- Σ (−1)^k / ((2k+1) n^(2k+1)) in units of 2^−p; `t` is 2^p / n^(2k+1). -/
def atanInvSeries (n2 : Int) : Nat → Nat → Int → Int
  | 0, _, _ => 0
  | fuel + 1, k, t =>
    let u := t / ((2 * k + 1 : Nat) : Int)
    (if k % 2 = 0 then u else -u) + atanInvSeries n2 fuel (k + 1) (t / n2)

/-- π with 160 more fraction bits than the working precision, by Machin's formula. -/
def fxPiWide : Int :=
  let one : Int := ((2 ^ (fxP + 160) : Nat) : Int)
  4 * (4 * atanInvSeries 25 190 0 (one / 5) - atanInvSeries (239 * 239) 60 0 (one / 239))

/-- A positive fixed-point value × 2^k as an exact result with its last bit set. -/
def fxEx (neg : Bool) (v : Int) (k : Int) : Ex := .fin neg (2 * v.toNat + 1) 1 (k - (fxP : Int) - 1)

/-- A signed fixed-point value as an exact result with its last bit set. -/
def fxSigned (v : Int) : Ex := fxEx (decide (v < 0)) (if v < 0 then -v else v) 0

/-- A positive magnitude below every rounding boundary. -/
def exTiny (neg : Bool) : Ex := .fin neg 1 1 (-600)

/-- A magnitude just below 1, closer to it than any rounding boundary. -/
def exNearOne (neg : Bool) : Ex := .fin neg (2 ^ 400 - 1) 1 (-400)

/-- A magnitude above every finite value. -/
def exHuge : Ex := .fin false 1 1 600

/-- e^x for a fixed-point x: mantissa in [1, 2) and power of two. -/
def fxExpK (x : Int) : Int × Int :=
  let k := x / fxLn2
  (fxExp0 (x - k * fxLn2), k)

/-- The fixed-point value of a mantissa and a power of two. -/
def fxShift (v k : Int) : Int := if k ≥ 0 then v * ((2 ^ k.toNat : Nat) : Int) else v / ((2 ^ (-k).toNat : Nat) : Int)

/-- e^x in fixed point, |x| ≤ 256. -/
def fxExp (x : Int) : Int := fxShift (fxExpK x).1 (fxExpK x).2

/-- |x| ≥ 2^k for a finite value. -/
def atLeast (m : Nat) (e : Int) (k : Int) : Bool := decide (m ≠ 0) && decide ((Nat.log2 m : Nat) + e ≥ k)

/-- ln of a positive dyadic. -/
def fxLn (m : Nat) (e : Int) : Int :=
  let l : Int := (Nat.log2 m : Nat)
  let y := fxOf false m (-l)
  let (y, k) := if y * 3 > fxOne * 4 then (y / 2, e + l + 1) else (y, e + l)
  2 * fxAtanh (fxDiv (y - fxOne) (y + fxOne)) + k * fxLn2

/-- sigmoid of a fixed-point number, |x| ≤ 256. -/
def fxSigmoid (x : Int) : Int :=
  if x ≥ 0 then fxDiv fxOne (fxOne + fxExp (-x))
  else let e := fxExp x; fxDiv e (fxOne + e)

/-- cos r and sin r by their series; `t` is r^k / k!. -/
def trigSeries (r : Int) : Nat → Nat → Int → Int × Int
  | 0, _, _ => (0, 0)
  | fuel + 1, k, t =>
    let (c, s) := trigSeries r fuel (k + 1) (fxMul t r / ((k + 1 : Nat) : Int))
    match k % 4 with
    | 0 => (c + t, s)
    | 1 => (c, s + t)
    | 2 => (c - t, s)
    | _ => (c, s - t)

/-- (cos x, sin x) of a finite dyadic. -/
def fxTrig (neg : Bool) (m : Nat) (e : Int) : Int × Int :=
  let w : Int := (inUnits m 1 e (-((fxP + 160 : Nat) : Int))).1
  let w := if neg then -w else w
  let h := fxPiWide / 2
  let n := (2 * w + h) / (2 * h)
  let r := (w - n * h) / ((2 ^ 160 : Nat) : Int)
  let (c, s) := trigSeries r 140 0 fxOne
  match n % 4 with
  | 0 => (c, s)
  | 1 => (-s, c)
  | 2 => (-c, -s)
  | _ => (s, -c)

/-- Σ (−1)^k x^(2k+1) / (k! (2k+1)); `t` is x^(2k+1) / k!. -/
def erfSeries (s : Int) : Nat → Nat → Int → Int
  | 0, _, _ => 0
  | fuel + 1, k, t =>
    let u := t / ((2 * k + 1 : Nat) : Int)
    (if k % 2 = 0 then u else -u) + erfSeries s fuel (k + 1) (fxMul t s / ((k + 1 : Nat) : Int))

/-- erf of a fixed-point number, |x| < 8. -/
def fxErf (x : Int) : Int :=
  let pi := fxPiWide / ((2 ^ 160 : Nat) : Int)
  let rootPi : Int := (isqrt ((pi * fxOne).toNat) : Nat)
  fxDiv (2 * erfSeries (fxMul x x) 420 0 x) rootPi

/-- The functions of R123. -/
inductive Func where
  | exp | exp2 | expm1 | log | log2 | log1p | rsqrt | recip | sin | cos | tanh | sigmoid | erf | silu | gelu
deriving DecidableEq, Repr

def funcOf (code : Nat) : Option Func :=
  match code with
  | 0 => some .exp
  | 1 => some .exp2
  | 2 => some .expm1
  | 3 => some .log
  | 4 => some .log2
  | 5 => some .log1p
  | 6 => some .rsqrt
  | 7 => some .recip
  | 8 => some .sin
  | 9 => some .cos
  | 10 => some .tanh
  | 11 => some .sigmoid
  | 12 => some .erf
  | 13 => some .silu
  | 14 => some .gelu
  | _ => none

/-- The m of a fast variant (R123). -/
def fastBits : Func → Nat
  | .rsqrt | .recip => 12
  | .sin | .cos | .erf => 14
  | _ => 16

/-- g(+∞) and g(−∞) (R124). -/
def funcInf (g : Func) (neg : Bool) : Ex × Nat :=
  match neg, g with
  | false, .exp | false, .exp2 | false, .expm1 | false, .log | false, .log2 | false, .log1p
  | false, .silu | false, .gelu => (.inf false, 0)
  | false, .rsqrt | false, .recip => (.fin false 0 1 0, 0)
  | false, .tanh | false, .sigmoid | false, .erf => (.fin false 1 1 0, 0)
  | true, .exp | true, .exp2 | true, .sigmoid => (.fin false 0 1 0, 0)
  | true, .expm1 | true, .tanh | true, .erf => (.fin true 1 1 0, 0)
  | true, .silu | true, .gelu | true, .recip => (.fin true 0 1 0, 0)
  | _, _ => (exNaN, fNV)

/-- g(±0) (R124). -/
def funcZero (g : Func) (neg : Bool) : Ex × Nat :=
  match g with
  | .log | .log2 => (.inf true, fDZ)
  | .rsqrt | .recip => (.inf neg, fDZ)
  | .exp | .exp2 | .cos => (.fin false 1 1 0, 0)
  | .sigmoid => (.fin false 1 1 (-1), 0)
  | _ => (.fin neg 0 1 0, 0)

/-- x × sigmoid(u) for a finite non-zero x and u = un / ud × 2^ue of the same sign as x. -/
def timesSigmoid (neg : Bool) (m : Nat) (e : Int) (un ud : Nat) (ue : Int) : Ex :=
  if decide (floorLog un ud + ue ≥ 8) then
    if neg then exTiny true else .fin false (m * (2 ^ 400 - 1)) 1 (e - 400)
  else
    let u : Int := (inUnits un ud ue (-(fxP : Int))).1
    let s := fxSigmoid (if neg then -u else u)
    .fin neg (m * (2 * s.toNat + 1)) 1 (e - (fxP : Int) - 1)

/-- x's odd part and exponent. -/
def oddPart (fuel m : Nat) (e : Int) : Nat × Int :=
  match fuel with
  | 0 => (m, e)
  | f + 1 => if m % 2 = 0 then oddPart f (m / 2) (e + 1) else (m, e)

/-- g(x) for a finite non-zero x (R123, R124). -/
def funcFin (g : Func) (neg : Bool) (m : Nat) (e : Int) : Ex × Nat :=
  match g with
  | .exp =>
    if atLeast m e 8 then (if neg then exTiny false else exHuge, 0)
    else let (v, k) := fxExpK (fxOf neg m e); (fxEx false v k, 0)
  | .exp2 =>
    if atLeast m e 8 then (if neg then exTiny false else exHuge, 0)
    else
      let x := fxOf neg m e
      let k := x / fxOne
      let r := x - k * fxOne
      if r = 0 then (.fin false 1 1 k, 0) else (fxEx false (fxExp0 (fxMul r fxLn2)) k, 0)
  | .expm1 =>
    if atLeast m e 8 then (if neg then exNearOne true else exHuge, 0)
    else (fxSigned (fxExp (fxOf neg m e) - fxOne), 0)
  | .log =>
    if neg then (exNaN, fNV)
    else if (oddPart 64 m e) = (1, 0) then (.fin false 0 1 0, 0)
    else (fxSigned (fxLn m e), 0)
  | .log2 =>
    if neg then (exNaN, fNV)
    else
      let (o, k) := oddPart 64 m e
      if o = 1 then (.fin (decide (k < 0)) k.natAbs 1 0, 0)
      else (fxSigned (fxDiv (fxLn m e) fxLn2), 0)
  | .log1p =>
    let s := addV false oneV (.fin neg m e)
    match s.1 with
    | .fin false 0 _ => (.inf true, fDZ)
    | .fin false n x => (fxSigned (fxLn n x), 0)
    | _ => (exNaN, fNV)
  | .rsqrt =>
    if neg then (exNaN, fNV)
    else
      let (o, k) := oddPart 64 m e
      let (o, k) := if k % 2 = 0 then (o, k) else (2 * o, k - 1)
      let r := isqrt o
      if r * r = o then (.fin false 1 r (-(k / 2)), 0)
      else (.fin false (2 * isqrt (2 ^ (2 * fxP) / o) + 1) 1 (-(k / 2) - (fxP : Int) - 1), 0)
  | .recip => (.fin neg 1 m (-e), 0)
  | .sin => (fxSigned (fxTrig neg m e).2, 0)
  | .cos => (fxSigned (fxTrig neg m e).1, 0)
  | .tanh =>
    if atLeast m e 8 then (exNearOne neg, 0)
    else
      let t := fxExp (2 * fxOf false m e)
      (fxEx neg (fxDiv (t - fxOne) (t + fxOne)) 0, 0)
  | .sigmoid =>
    if atLeast m e 8 then (if neg then exTiny false else exNearOne false, 0)
    else (fxEx false (fxSigmoid (fxOf neg m e)) 0, 0)
  | .erf =>
    if atLeast m e 3 then (exNearOne neg, 0)
    else (fxEx neg (fxErf (fxOf false m e)) 0, 0)
  | .silu => (timesSigmoid neg m e m 1 e, 0)
  | .gelu =>
    let c := fun (n : Nat) (x : Int) => (n : Nat) * 2 ^ x.toNat
    let x2 := if e ≥ 0 then (c (m * m) (2 * e), 1) else (m * m, 2 ^ (-(2 * e)).toNat)
    let un := 2 * 79788456 * m * (1000000 * x2.2 + 44715 * x2.1)
    let ud := 100000000 * 1000000 * x2.2
    (timesSigmoid neg m e un ud e, 0)

/-- g(x) as an exact result, with NV and DZ (R124). -/
def funcV (g : Func) (x : Val) : Ex × Nat :=
  match x with
  | .nan .. => (firstNaN [x], sigFlag [x])
  | .inf n => funcInf g n
  | .fin n 0 _ => funcZero g n
  | .fin n m e => funcFin g n m e

/-- The FP32 result of a function: the accurate variant, or the fast variant on its coarser grid (R122). `keep` keeps a
NaN's sign and payload (R34). -/
def funcFp32 (g : Func) (fast keep : Bool) (x : Val) : Nat × Nat :=
  let (ex, f) := funcV g x
  match ex, fast with
  | .fin n num den e, true =>
    let b := fastBits g
    let (c, f2) := ieeeRoundQ ⟨8, b⟩ .rne n num den e
    (c * 2 ^ (23 - b), f ||| f2)
  | ex, _ => let (c, f2) := ieeeRound fp32 .rne keep ex; (c, f ||| f2)

/-- The activation codes of R98. -/
def actFp32 (act : Nat) (w : Nat) : Nat × Nat :=
  let x := ieeeVal fp32 w
  let via := fun g => funcFp32 g false false x
  match act with
  | 0 => if isNan x then (ieeeQNaN fp32, sigFlag [x]) else (w, 0)
  | 1 => if isNan x then (ieeeQNaN fp32, sigFlag [x]) else if negOf x || isZero x then (0, 0) else (w, 0)
  | 2 => via .silu
  | 3 => via .gelu
  | 4 => via .sigmoid
  | _ =>
    if isNan x then (ieeeQNaN fp32, sigFlag [x])
    else if negOf x || isZero x then (0, 0)
    else match mulV x x with
      | (ex, f) => let (c, f2) := ieeeRound fp32 .rne false ex; (c, f ||| f2)

end Sys2Proof
end

