-- ==== Sys2Proof/Machine/Operands.lean ====
section
/-!
DEFINITION. The local stores as operand memories (R134–R140) and every form in which an engine reads an operand out of
one: element codes under the packing of R36, scale runs, and values of every format (R37–R43).
Rows of notes/assumptions: DEDUCED 37, 38; DESIGN CHOICE 158.
-/
namespace Sys2Proof.Machine

open Sys2Proof

/-- Bytes of an ALS (R134). -/
def alsSize : Nat := 2 ^ 25
/-- Bytes of a DSS (R140). -/
def dssSize : Nat := 2 ^ 27

/-- Reads bytes of a store. -/
def Store.read (t : Store) (a n : Nat) : List Byte := tabSlice 0 t.bytes a n

/-- The first poisoned 64 B block that [a, a + n) touches, by its address (R138). -/
def Store.poisoned (t : Store) (a n : Nat) : Option Nat :=
  if n = 0 then none
  else (((List.range ((a + n - 1) / 64 - a / 64 + 1)).map (· + a / 64)).find? fun b => tabGet false t.poison b).map (· * 64)

/-- Clears the poison of every block that a write covers whole (R138). -/
def clearWhole (p : Tab Bool) (a n : Nat) : Tab Bool :=
  tabErase (fun b => decide (a ≤ 64 * b) && decide (64 * b + 64 ≤ a + n)) p

/-- Writes bytes into a store (R138). -/
def Store.write (t : Store) (a : Nat) (data : List Byte) : Store :=
  { bytes := tabFill 0 t.bytes a data, poison := clearWhole t.poison a data.length }

/-- Sets the poison bit of the block at an address. -/
def Store.setPoison (t : Store) (a : Nat) : Store := { t with poison := tabSet false t.poison (a / 64) true }

/-- Sets the poison bit of every block that [a, a + n) touches. -/
def Store.poisonRange (t : Store) (a n : Nat) : Store :=
  if n = 0 then t
  else (List.range ((a + n - 1) / 64 - a / 64 + 1)).foldl (fun t i => t.setPoison (64 * (a / 64 + i))) t

/-- Zeros [a, a + n) and clears its poison bits: a scrub (R139, R140). -/
def Store.scrub (t : Store) (a n : Nat) : Store :=
  { bytes := tabErase (fun k => decide (a ≤ k) && decide (k < a + n)) t.bytes
    poison := tabErase (fun b => decide (a ≤ 64 * b) && decide (64 * b < a + n)) t.poison }

/-- The lines of 128 B that `p` holds of out of one store, and all others out of another (R139). -/
def Store.mix (p : Nat → Bool) (old cur : Store) : Store :=
  { bytes := tabMix 0 (fun k => p (k / 128)) old.bytes cur.bytes, poison := tabMix false (fun b => p (b / 2)) old.poison cur.poison }

/-- The store that a load reads: the lines served before a scrub as the scrub found them, the others as they stand (R139). -/
def linesStore (seen : List SeenLines) (cur : Store) : Store :=
  seen.foldr (fun e t => Store.mix (Config.servedLine e.draw) e.als t) cur

/-- The store from which row cycle `c`, counted over all sweeps, of an instruction is read (R139). -/
def rowStore (seen : List SeenRows) (cur : Store) (c : Nat) : Store :=
  match seen.find? fun e => decide (c < e.rows) with
  | some e => e.als
  | none => cur

/-- The lines of an array's ALS that a read touches and that stand under an uncounted DMA write (R137); beyond the ALS there are none. -/
def hazardLines (s : State) (n a len : Nat) : List Nat :=
  let ls := (List.range ((a + len - 1) / 128 - a / 128 + 1)).map (· + a / 128)
  ls.filter fun l => decide (l < 2 ^ 18) && s.dma.any fun e => e.2.lines.contains (2 ^ 18 * n + l)

/-- Counts the hazards of a read by the array (1), the epilogue (2) or the vector engine (3) (R137, R154). -/
def noteHazard (s : State) (n src a len : Nat) : State :=
  if len = 0 then s
  else match hazardLines s n a len with
    | [] => s
    | l :: ls =>
      let s := countEvent (s.bump .als n 0x104 (ls.length + 1)) .als n 0x21 none (ls.length + 1)
      if (s.reg .als n 0x108).testBit 31 then s
      else s.setReg .als n 0x108 (pack [(0, 25, 128 * l), (25, 3, src), (31, 1, 1)])

/-- A run of element codes at a byte address. -/
def Store.codes (t : Store) (f : Fmt) (a n : Nat) : List Nat :=
  unpackCodes (elemBits f) (leNat (t.read a (rowBytes f n))) n

/-- A run of group scale codes at a byte address. -/
def Store.scales (t : Store) (f : Fmt) (a n : Nat) : List Nat :=
  unpackCodes (8 * scaleBytes f) (leNat (t.read a (n * scaleBytes f))) n

/-- A decoded element: its value, and the flag of a malformed Ledger scale (R43). -/
def decodeElem (f : Fmt) (scale code : Nat) : Val × Nat :=
  if isIeee f then (ieeeVal (ieeeOf f) code, 0)
  else if isLedger f then let (c, fl) := ledgerVal f scale code; (ieeeVal fp32 c, fl)
  else (blockVal f scale code, 0)

/-- Decodes a row of element codes against its scales, one per group. -/
def decodeRow (f : Fmt) (codes scales : List Nat) : List (Val × Nat) :=
  let g := max (groupSize f) 1
  (List.range codes.length).map fun j => decodeElem f (scales.getD (j / g) 0) (codes.getD j 0)

/-- The first field of a list of (address, length) extents that a poisoned block lies in. -/
def firstPoison (t : Store) : List (Nat × Nat) → Option Nat
  | [] => none
  | (a, n) :: es => match t.poisoned a n with
    | some p => some p
    | none => firstPoison t es

end Sys2Proof.Machine
end

