-- ==== Sys2Proof/Machine/Flags.lean ====
section
/-!
DEFINITION. The flag computations that engines share: the output-tile flag word (R52, R53) and the flagging of elements,
and the merge of an engine's private flags into the context's flag word (R50, R51).
-/
namespace Sys2Proof.Machine

open Sys2Proof

/-- What the two examinations of R52 find of an element: 0 nothing, 1 infinity, 2 NaN. -/
def kindVal (v : Val) : Nat := if isNan v then 2 else if isInf v then 1 else 0

/-- Adds an element at position `key`, examined before and after quantisation (R52). -/
def Tally.add (t : Tally) (key before after : Nat) : Tally :=
  if before = 0 && after = 0 then t
  else
    let k := max before after
    { count := t.count + 1
      anyNan := t.anyNan || before == 2 || after == 2
      anyInf := t.anyInf || before == 1 || after == 1
      first := match t.first with
        | some (p, q) => if key < p then some (key, k) else some (p, q)
        | none => some (key, k) }

/-- The tile flag word of R53 for a tile of N columns; 0 when nothing is flagged. -/
def tileWord (t : Tally) (n : Nat) : Nat :=
  match t.first with
  | none => 0
  | some (p, k) =>
    pack [(0, 1, 1), (1, 1, if k = 2 then 0 else 1), (2, 1, bit t.anyNan), (3, 1, bit t.anyInf),
          (16, 12, p / n), (32, 9, p % n), (48, 16, min t.count 65535)]

/-- The word at offset 0 of a vector statistics record (R128). -/
def vecFlagWord (t : Tally) : Nat :=
  match t.first with
  | none => 0
  | some (_, k) =>
    pack [(0, 1, 1), (1, 1, if k = 2 then 0 else 1), (2, 1, bit t.anyNan), (3, 1, bit t.anyInf),
          (16, 16, min t.count 65535)]

/-- What an element reads as once stored (R52): an element of a group with a NaN scale counts as a NaN. -/
def kindStored (f : Fmt) (scale code : Nat) : Nat :=
  if isIeee f then kindVal (ieeeVal (ieeeOf f) code)
  else if scale = 0xFF then 2
  else kindVal (eltVal f code)

/-- Merges an array island's private flags into a context's flag word (R51): ARR, QNT and VEC bytes. -/
def mergeIsland (s : State) (n c : Nat) : State :=
  let a := s.arrOf n
  let v := s.vecOf n
  let s := mergeFlags (mergeFlags (mergeFlags s c 0 a.flags) c 2 a.qflags) c 1 v.flags
  (s.setArr n { s.arrOf n with flags := 0, qflags := 0 }).setVec n { s.vecOf n with flags := 0 }

end Sys2Proof.Machine
end

