-- ==== Sys2Proof/Machine/Gates.lean ====
section
/-!
DEFINITION. What lets an engine begin a unit of work: holds (R71, R417), quiet debt (R343) and current reservations (R335),
kept the same way for every engine that has units of work.
Rows of notes/assumptions: DEDUCED 43, 109; DESIGN CHOICE 131.
-/
namespace Sys2Proof.Machine

open Sys2Proof

/-! Engine numbers of `Pwr` -/

def enArr (n : Nat) : Nat := n
def enVec (n : Nat) : Nat := 20 + n
def enDma (d : Nat) : Nat := 40 + d
def enNmu (s : Nat) : Nat := 44 + s
def enXch (h : Nat) : Nat := 68 + h

/-- The island an engine stands in, in the numbering of `islandOf`. -/
def engineIsland (e : Nat) : Nat :=
  if e < 20 then e
  else if e < 40 then e - 20
  else if e < 44 then e - 20
  else if e < 68 then e - 20
  else 48 + (e - 68)

/-- The island whose record keeps the CTRL fields of island i: the two router halves are governed as one (R421). -/
def governor (i : Nat) : Nat := if i = 49 then 48 else i

/-- Whether the die power agent or a quiesce holds an island (R71, R417). -/
def State.holdOn (s : State) (i : Nat) : Bool := (s.islOf i).hold || (s.islOf (governor i)).quiesce

/-- Whether an island's units may not begin work (R71, R417); after a fatal error none begins (R389). -/
def State.islandHeld (s : State) (i : Nat) : Bool :=
  let x := s.islOf (governor i)
  s.halted || s.obs.fatal != 0 || s.holdOn i || x.resetting || !x.enable

/-- Whether an engine may not begin its next unit: its island's hold, its quiet debt, its reservation. -/
def State.engineHeld (s : State) (e : Nat) : Bool :=
  s.islandHeld (engineIsland e) || s.pwr.quietWait.contains e || s.pwr.resWait.contains e

/-- Whether a hold, a debt or a reservation keeps an engine from its next unit of work (R71, R335, R343). -/
def State.unitHeld (s : State) (e : Nat) : Bool :=
  s.holdOn (engineIsland e) || s.pwr.quietWait.contains e || s.pwr.resWait.contains e

/-- Whether some context has an array mapped. -/
def State.arrAssigned (s : State) (p : Nat) : Bool := s.ctx.any fun e => e.2.map.any fun m => m.2 == p + 1

/-! Rails and reservations (R333–R336) -/

/-- Registers of rail r. -/
def State.railEst (s : State) (r : Nat) : Nat := s.field .pwr 0 (0x208 + 0x10 * r) 0 12
def State.railPeak (s : State) (r : Nat) : Nat := s.field .pwr 0 (0x200 + 0x10 * r) 16 12
def State.railCont (s : State) (r : Nat) : Nat := s.field .pwr 0 (0x200 + 0x10 * r) 0 12
def State.railBrake (s : State) (r : Nat) : Nat := s.field .pwr 0 (0x204 + 0x10 * r) 8 12

/-- The rails that an alert input serves (R333). -/
def railsOf (i : Nat) : List Nat :=
  match i with
  | 4 => [4, 5, 6, 7]
  | 5 => [8, 9]
  | 6 => [12, 13, 14]
  | 7 => [10, 11]
  | i => [i]

/-- Whether an alert holds a rail at its brake current (R336). -/
def State.alerted (s : State) (r : Nat) : Bool := (List.range 8).any fun i => s.pwr.alerts.testBit i && (railsOf i).contains r

/-- The limits of a rail as they stand: peak, and the lesser of peak and continuous. -/
def State.peakNow (s : State) (r : Nat) : Nat := if s.alerted r then s.railBrake r else s.railPeak r
def State.limitNow (s : State) (r : Nat) : Nat := if s.alerted r then s.railBrake r else min (s.railPeak r) (s.railCont r)

/-- The amperes reserved on a rail. -/
def State.reserved (s : State) (r : Nat) : Nat := ((s.pwr.resv.filter fun e => e.1 % 16 == r).map (·.2)).sum

/-- The unit number under which a DMA burst keeps its reservation; any other engine's unit has the engine's own number. -/
def burstUnit (k b : Nat) : Nat := 128 * (b + 1) + k

/-- The reservations with that of unit `u` of an engine: what the engine has obtained for it, or else an estimate on every rail,
within what the limit leaves. A unit whose estimate passes it waits instead, as HOLD_RAISE says. -/
def State.reserveUnit (s : State) (e u : Nat) : Tab Nat :=
  if s.pwr.resv.any fun x => x.1 / 16 == e then
    if u = e then s.pwr.resv
    else (List.range 15).foldl (fun t r => tabSet 0 t (16 * u + r) (tabGet 0 s.pwr.resv (16 * e + r)))
      (tabErase (fun k => k / 16 == e) s.pwr.resv)
  else (List.range 15).foldl (fun t r =>
    tabMod 0 t (16 * u + r) (· + Config.unitAmps e s.gtime r % (s.limitNow r - s.reserved r + 1))) s.pwr.resv

/-- The reservation of a unit is released (R335). -/
def releaseUnit (s : State) (u : Nat) : State := { s with pwr := { s.pwr with resv := tabErase (fun k => k / 16 == u) s.pwr.resv } }

/-- A unit of work begins: its active time counts from now, and its current is reserved (R335). -/
def unitBegin (s : State) (e : Nat) : State :=
  if tabGet 0 s.pwr.active e = 0 then
    { s with pwr := { s.pwr with active := tabSet 0 s.pwr.active e (s.gtime + 1), resv := s.reserveUnit e e } }
  else s

/-- Names the context that an engine's quiet debt is paid for. -/
def oweFor (s : State) (e c : Nat) : State := { s with pwr := { s.pwr with debtCtx := tabSet 0 s.pwr.debtCtx e (c + 1) } }

/-- The debt that an active time adds (R343). -/
def State.debtOf (s : State) (a : Nat) : Nat := a * (1024 - s.pwr.duty) / s.pwr.duty

/-- The debt that the unit in progress would add if it ended now (R343). -/
def State.debtIfEnded (s : State) (e : Nat) : Nat := s.debtOf (s.gtime + 1 - tabGet (s.gtime + 1) s.pwr.active e)

/-- A debt that an engine's unit adds keeps its next unit back (R343). -/
def addDebt (s : State) (e a : Nat) : State :=
  let d := tabGet 0 s.pwr.debt e + a
  { s with pwr := { s.pwr with
      debt := tabSet 0 s.pwr.debt e d
      quietWait := if d = 0 || s.pwr.quietWait.contains e then s.pwr.quietWait else e :: s.pwr.quietWait } }

/-- The frequency of an array island under the mode in force, which it takes at an instruction boundary (R338, R345). -/
def State.targetFreq (s : State) (n : Nat) : Nat :=
  if s.pwr.ceiling then min (s.field .pwr 0 (0x180 + 4 * n) 8 8) s.pwr.fceil else 0x60

/-- An array island changes frequency. -/
def retune (s : State) (n : Nat) : State := s.setIsl n { s.islOf n with freq := s.targetFreq n }

/-- A unit of work ends: its debt is added and its reservation released (R335, R343). -/
def unitEnd (s : State) (e : Nat) : State :=
  if tabGet 0 s.pwr.active e = 0 then s
  else
    let d := s.debtIfEnded e
    let s := s.setIsl (engineIsland e) { s.islOf (engineIsland e) with braked := false }
    let s := if e < 20 then retune s e else s
    releaseUnit (addDebt { s with pwr := { s.pwr with active := tabSet 0 s.pwr.active e 0 } } e d) e

/-- A DMA burst begins: each is a unit of its own, and the engine is active while one is in flight (R335, R343). -/
def burstBegin (s : State) (k b : Nat) : State :=
  let e := enDma (k / 32)
  let c := s.chOf k
  let s := s.setCh k { c with began := c.began ++ [(b, s.gtime)] }
  { s with pwr := { s.pwr with
      active := if tabGet 0 s.pwr.active e = 0 then tabSet 0 s.pwr.active e (s.gtime + 1) else s.pwr.active
      resv := s.reserveUnit e (burstUnit k b) } }

/-- A DMA burst ends: its debt is added and its reservation released; with the last one in flight the engine is at rest, and its
island leaves the brake's stretch (R335, R343, R346). -/
def burstEnd (s : State) (k b : Nat) : State :=
  let c := s.chOf k
  match c.began.find? fun x => x.1 == b with
  | none => s
  | some x =>
    let e := enDma (k / 32)
    let s := s.setCh k { c with began := c.began.filter fun y => y.1 != b }
    let s := releaseUnit (addDebt s e (s.debtOf (s.gtime - x.2))) (burstUnit k b)
    if (List.range 32).all fun i => (s.chOf (k / 32 * 32 + i)).began.isEmpty then
      { s.setIsl (engineIsland e) { s.islOf (engineIsland e) with braked := false } with
        pwr := { s.pwr with active := tabSet 0 s.pwr.active e 0 } }
    else s

/-- Every burst of a channel that is in flight ends. -/
def burstsEnd (s : State) (k : Nat) : State := (s.chOf k).began.foldl (fun s x => burstEnd s k x.1) s

/-- Whether an array island's clock is stopped (R17, R418). -/
def State.islandStopped (s : State) (n : Nat) : Bool :=
  s.halted || (s.arrOf n).state == .stopped || !(s.islOf n).enable

/-- A scrub of the array's ALS runs: no requester is served (R139). -/
def State.alsScrubbing (s : State) (n : Nat) : Bool := tabGet .none s.alsScrub n == .running

/-- A scrub has been requested or runs: accesses issued now wait (R139). -/
def State.alsBlocked (s : State) (n : Nat) : Bool := tabGet .none s.alsScrub n != .none

/-- The ramp length in force (R70). -/
def State.rampLen (s : State) (n : Nat) : Nat := s.field .arr n 0x100 0 7

/-- The panels ramp down where the pipeline is empty and nothing that may begin waits: no instruction, or one that a hold, an
abort or a failure keeps back (R71). -/
def rampIfEmpty (s : State) (n : Nat) : State :=
  let a := s.arrOf n
  let more := a.exec.isSome || !a.flow.isEmpty ||
    (a.wait.isSome && a.failed.isNone && !a.abort && !s.engineHeld (enArr n))
  if a.state = .active && !more then s.setArr n { a with state := .rampDown, ramp := s.rampLen n } else s

/-- What an engine of an array's island has failed with. -/
def engineFailure (s : State) (n : Nat) : Option EndStatus :=
  if n < 20 then (s.arrOf n).failed.or (s.vecOf n).failed else none

/-- An operation that a sequencer issued has failed: the sequencer stops and drains (R240). -/
def seqFail (s : State) (n : Nat) (e : EndStatus) : State :=
  let q := s.seqOf n
  if q.state = .idle || q.ending.isSome then s else s.setSeq n { q with ending := some e, state := .drain }

/-- A failure of an island's engine reaches the sequencer that issued the operation: between two commands it stands at an
instruction boundary or waits, so it stops at once (R240). One that a sibling's end stops keeps that ending. -/
def noteFailure (s : State) (n : Nat) : State :=
  match engineFailure s n with
  | some e => if (s.seqOf n).silent then s else seqFail s n e
  | none => s

end Sys2Proof.Machine
end

