-- ==== Sys2Proof/Machine/Fatal.lean ====
section
/-!
DEFINITION. What makes an error fatal (R388, R389): its record, the latch in OBS.FATAL, and the start of the fatal path.
Rows of notes/assumptions: DEDUCED 126, 145, 153.
-/
namespace Sys2Proof.Machine

open Sys2Proof

/-- Classes of R388. -/
def fcBridge : Nat := 1
def fcBxlLink : Nat := 2
def fcThermal : Nat := 3
def fcMgmt : Nat := 4
def fcCrossing : Nat := 5
def fcFeState : Nat := 6
def fcKeyStore : Nat := 7

/-- The 32 B fatal record of a class, from the page's record as it stands (R388). -/
def fatalRecord (s : State) (cls : Nat) (b : Block) (i : Nat) : Nat :=
  pack [(0, 8, cls), (8, 12, pageBase b i / 0x1000), (32, 32, s.reg b i 0x30), (64, 64, s.gtime),
    (128, 64, s.reg64 b i 0x28 0x2C), (192, 32, s.reg b i 0x20)]

/-- Latches the first fatal record in OBS.FATAL and the lifetime record; counts a later one (R388, R391, R392). -/
def latchFatal (s : State) (cls : Nat) (b : Block) (i : Nat) : State :=
  let r := fatalRecord s cls b i
  let s := { s with life := { s.life with
    fatal := true
    fatals := satAdd 32 s.life.fatals 1
    fatalLast := tabSet 0 s.life.fatalLast (s.life.fatals % 8) r } }
  if s.reg .obs 0 0x1D0 = 0 then
    (List.range 8).foldl (fun s k => s.setReg .obs 0 (0x1D0 + 4 * k) (bits r (32 * k) 32)) s
  else
    let s := s.bump .obs 0 0x1F0 1
    if s.obs.fatal = 2 && s.obs.second == 0 then
      { s.setField .obs 0 0x1C8 0 3 3 with obs := { s.obs with second := r } }
    else if s.obs.fatal = 2 then s.setField .obs 0 0x1C8 0 3 3
    else s

/-- A fatal error of every class but THERMAL and MGMT (R389): the record, FAULT_N, the vector where the link is up, and the
abort of every engine. -/
def fatalError (s : State) (cls : Nat) (b : Block) (i : Nat) (e : Err) : State :=
  let s := latchFatal (capture s b i { e with sev := sevFatal }) cls b i
  if s.obs.fatal ≠ 0 || s.halted then s
  else
    let s := { s with obs := { s.obs with fatal := 1, fatalAt := s.gtime }, pins := { s.pins with fault := true } }
    let s := (List.range 20).foldl rampIfEmpty s
    if s.field .bxl 0 0x100 0 4 = 6 then raiseVector s (s.field .obs 0 0x1B4 16 11) else s

/-- The device halts in HALTED with a reason, FAULT_N asserted; it asks the network for nothing more (R359, R389). -/
def haltDevice (s : State) (reason : Nat) : State :=
  let s := s.setReg .sec 0 0x100 (withBits (withBits (s.reg .sec 0 0x100) 0 4 0xF) 4 4 reason)
  { s with halted := true, pins := { s.pins with fault := true, ready := false }, mgmt := { s.mgmt with net := {} } }

end Sys2Proof.Machine
end

