-- ==== Sys2Proof/Machine/Lifetime.lean ====
section
/-!
DEFINITION. The lifetime log (R392–R394): the working record and its 8 KiB form, the reading of the flash at FW_INIT, flash
writes, the second's histograms, and voltage margins with the derating they bring (R345).
Rows of notes/assumptions: DEDUCED 138, 139; DESIGN CHOICE 119.
-/
namespace Sys2Proof.Machine

open Sys2Proof

/-! The record -/

/-- A run of `n` counts of `w` bytes from a table. -/
def countBytes (t : Tab Nat) (key : Nat → Nat) (w n : Nat) : List Byte :=
  (List.range n).flatMap fun i => leBytes (min (tabGet 0 t (key i)) (2 ^ (8 * w) - 1)) w

/-- Pads a run of bytes with zeros to `n`. -/
def padTo (n : Nat) (bs : List Byte) : List Byte := (bs ++ leBytes 0 n).take n

/-- The key of bin `i % 16` of group `i / 16`. -/
def binKey (i : Nat) : Nat := i / 16 * 32 + i % 16

/-- Bytes 0x0000–0x1FFB of a record. -/
def lifeBody (x : Life) (seq : Nat) (shutdown : Bool) : List Byte :=
  let head := leBytes (pack [(0, 32, 0x4C4D4C47), (32, 32, 1), (64, 64, seq),
    (128, 3, bit shutdown + 2 * bit x.fatal + 4 * bit x.fmaxFloor), (160, 32, x.boots), (192, 32, x.unclean), (224, 32, x.fatals),
    (256, 64, x.powerOn), (320, 32, x.fwVersion)]) 0x30
  let a := padTo 0x1B0 (head ++ countBytes x.temp binKey 4 96)
  let a := padTo 0x220 (a ++ countBytes x.power id 4 26)
  let a := padTo 0x4A0 (a ++ countBytes x.margin binKey 2 320)
  let a := padTo 0x4C0 (a ++ countBytes x.fmaxEff id 1 20)
  let a := padTo 0x10C0 (a ++ countBytes x.eccCorr id 4 768)
  let a := padTo 0x16C0 (a ++ countBytes x.retiredRows id 2 768)
  let a := padTo 0x1720 (a ++ countBytes x.retiredCh id 4 24)
  let a := padTo 0x1900 (a ++ countBytes x.link id 4 74)
  let a := a ++ (List.range 8).flatMap fun i => leBytes (tabGet 0 x.fatalLast i) 32
  padTo 0x1FFC a

/-- A record whole, with its CRC. -/
def lifeBytes (x : Life) (seq : Nat) (shutdown : Bool) : List Byte :=
  let b := lifeBody x seq shutdown
  b ++ leBytes (crc32c b) 4

/-- The flash offset of record `seq` (R392). -/
def logPlace (seq : Nat) : Nat := 0x200000 + 8192 * (seq % 7936)

/-- A record's bytes, where its MAGIC and CRC are good. -/
def goodRecord (s : State) (slot : Nat) : Option Nat :=
  let b := tabSlice 0 s.flash (0x200000 + 8192 * slot) 8192
  let r := leNat b
  if bits r 0 32 == 0x4C4D4C47 && bits r (8 * 0x1FFC) 32 == crc32c (b.take 0x1FFC) then some r else none

/-- The slots of the log that hold anything. -/
def logSlots (s : State) : List Nat :=
  ((s.flash.filter fun e => decide (0x200000 ≤ e.1) && decide (e.1 < 0x4000000)).map fun e => (e.1 - 0x200000) / 8192).eraseDups

/-- The valid record with the highest SEQ. -/
def lastRecord (s : State) : Option Nat :=
  (logSlots s).foldl (fun b i =>
    match goodRecord s i, b with
    | none, b => b
    | some r, none => some r
    | some r, some r' => if bits r 64 64 > bits r' 64 64 then some r else some r') none

/-- A table of `n` counts of `w` bytes at an offset of a record. -/
def readCounts (r off w n : Nat) (key : Nat → Nat) : Tab Nat :=
  (List.range n).foldl (fun t i => tabSet 0 t (key i) (bits r (8 * (off + w * i)) (8 * w))) []

/-- The working record that a record in flash continues. -/
def lifeOf (r : Nat) : Life :=
  { seq := (bits r 64 64 + 1) % 2 ^ 64
    shutdown := r.testBit 128
    fmaxFloor := r.testBit 130
    boots := bits r 160 32
    unclean := bits r 192 32
    fatals := bits r 224 32
    powerOn := bits r 256 64
    fwVersion := bits r 320 32
    temp := readCounts r 0x30 4 96 binKey
    power := readCounts r 0x1B0 4 26 id
    margin := readCounts r 0x220 2 320 binKey
    fmaxEff := readCounts r 0x4A0 1 20 id
    eccCorr := readCounts r 0x4C0 4 768 id
    retiredRows := readCounts r 0x10C0 2 768 id
    retiredCh := readCounts r 0x16C0 4 24 id
    link := readCounts r 0x1720 4 74 id
    fatalLast := readCounts r 0x1900 32 8 id }

/-- The fatal records of the log with those of this boot after them, in the slots that the count gives (R392). -/
def joinFatals (old new : Life) : Tab Nat :=
  (List.range (min new.fatals 8)).foldl (fun t i =>
    let k := new.fatals - min new.fatals 8 + i
    tabSet 0 t ((old.fatals + k) % 8) (tabGet 0 new.fatalLast (k % 8))) old.fatalLast

/-- Continues the lifetime log from the last valid record in flash, once, with what has come before (R392, R394). -/
def loadLife (s : State) : State :=
  let last := lastRecord s
  let old := (last.map lifeOf).getD {}
  let now := s.life
  let x := { old with
    begun := true
    fatal := now.fatal
    fatals := satAdd 32 old.fatals now.fatals
    fatalLast := joinFatals old now
    boots := satAdd 32 old.boots 1
    unclean := if last.isSome && !old.shutdown then satAdd 32 old.unclean 1 else old.unclean
    powerOn := satAdd 64 old.powerOn (s.gtime / 10 ^ 9)
    fwVersion := s.reg .sec 0 0x104
    eccCorr := now.eccCorr.foldl (fun t e => tabMod 0 t e.1 fun v => satAdd 32 v e.2) old.eccCorr
    retiredRows := now.retiredRows.foldl (fun t e => tabMod 0 t e.1 fun v => satAdd 16 v e.2) old.retiredRows
    retiredCh := now.retiredCh.foldl (fun t e => tabMod 0 t e.1 fun v => v ||| e.2) old.retiredCh
    link := now.link.foldl (fun t e => tabMod 0 t e.1 fun v => satAdd 32 v e.2) old.link }
  if now.begun then s
  else
    let s := { s with life := x, obs := { s.obs with periodicAt := x.powerOn, logSecond := s.gtime / 10 ^ 9 } }
    (List.range 20).foldl (fun s n =>
      let cal := s.field .pwr 0 (0x180 + 4 * n) 0 8
      let logged := tabGet 0 x.fmaxEff n
      s.setField .pwr 0 (0x180 + 4 * n) 8 8 (if logged = 0 then cal else min cal logged)) s

/-! Writes of the flash -/

/-- OBS.LOG_CTRL.BUSY. -/
def State.logBusy (s : State) : Bool := (s.reg .obs 0 0x200).testBit 2

/-- Begins the write of a record, or, while one is in progress, asks for one more that `later` says is due (R394); none is written after
a trip or in HALTED (R389). -/
def beginLog (s : State) (shutdown later : Bool) : State :=
  let s := loadLife s
  if s.halted || s.pwr.trip then s
  else if s.logBusy then (if later then { s with obs := { s.obs with flushNext := some shutdown } } else s)
  else { s.setField .obs 0 0x200 2 1 1 with obs := { s.obs with flushNow := shutdown } }

/-- A write of OBS.LOG_CTRL: SHUTDOWN is kept, FLUSH asks for a record and reads 0 (R394, R395). -/
def writeLogCtrl (s : State) (v : Nat) : State :=
  let s := s.setField .obs 0 0x200 1 1 (bits v 1 1)
  if v % 2 = 1 then beginLog s (v.testBit 1) true else s

/-- The flash with the record as it now stands, after the erasure of its sector where it is the sector's first (R392). -/
def loggedFlash (s : State) : Tab Byte :=
  let x := s.life
  let at_ := logPlace x.seq
  let kept := if x.seq % 7936 % 8 = 0 then tabErase (fun k => decide (at_ ≤ k) && decide (k < 65536 + at_)) s.flash else s.flash
  tabFill 0 kept at_ (lifeBytes x x.seq s.obs.flushNow)

def putLog (s : State) : State := { s with flash := loggedFlash s }

/-- LOG_WRITE_DONE (R392, R394): the record is in flash; a request that came meanwhile begins a further one. -/
def execLogWriteDone (s : State) : Out :=
  if !s.logBusy || s.halted || s.pwr.trip then .next s
  else
    let x := s.life
    let s := { putLog s with life := { x with seq := (x.seq + 1) % 2 ^ 64, fatal := false, shutdown := s.obs.flushNow } }
    let s := (s.setReg .obs 0 0x204 (x.seq % 2 ^ 32)).setField .obs 0 0x200 2 1 0
    match s.obs.flushNext with
    | none => .next s
    | some b => .next (beginLog { s with obs := { s.obs with flushNext := none } } b false)

/-- Whether the firmware runs: after FW_INIT and not halted. -/
def State.firmware (s : State) : Bool :=
  let st := s.field .sec 0 0x100 0 4
  (st == 7 || st == 8) && !s.pins.inReset

/-- LOG_FLUSH (R394): a write of OBS.LOG_CTRL. -/
def execLogFlush (p : Path) (v : W32) (s : State) : Out :=
  if s.pins.inReset then .next s
  else if p = .host then .next (logIgnored s .obs 0 (pageBase .obs 0 + 0x200))
  else .next (writeLogCtrl s v.toNat)

/-- LOG_PERIODIC_WRITE (R394): every 600 s of powered time. -/
def execLogPeriodicWrite (s : State) : Out :=
  if !s.firmware || s.pwr.trip || decide (s.life.powerOn < s.obs.periodicAt + 600) then .next s
  else .next (beginLog { s with obs := { s.obs with periodicAt := s.life.powerOn } } false false)

/-! Each second -/

/-- The bin of a reading in steps of `w` from `lo`: 0 below `lo`, `last` at or above the top of the bins between. -/
def binOf (lo w last x : Nat) : Nat := if x < lo then 0 else min ((x - lo) / w + 1) last

def addBin (t : Tab Nat) (wid key : Nat) : Tab Nat := tabMod 0 t key fun v => satAdd wid v 1

/-- LIFETIME_SECOND_TICK (R392): the hottest reading of each group and the second's mean estimate, in watts. -/
def execLifetimeSecondTick (temps : List Nat) (watts : Nat) (s : State) : Out :=
  if !s.firmware || s.pwr.trip || decide (s.gtime / 10 ^ 9 ≤ s.obs.logSecond) then .next s
  else
    let x := s.life
    let temp := (List.range 6).foldl (fun t g => addBin t 32 (32 * g + binOf 40 5 15 (temps.getD g 0))) x.temp
    let x := { x with temp := temp, power := addBin x.power 32 (binOf 800 100 25 watts), powerOn := satAdd 64 x.powerOn 1 }
    .next { s with life := x, obs := { s.obs with logSecond := s.gtime / 10 ^ 9 } }

/-! Margins (R345, R393) -/

/-- A measurement of an array's margin in millivolts. -/
def noteMargin (s : State) (n mv : Nat) : State :=
  let x := s.life
  let eff := s.field .pwr 0 (0x180 + 4 * n) 8 8
  let x := { x with margin := addBin x.margin 16 (32 * n + binOf 10 5 15 mv) }
  let low := decide (mv < 20)
  let eff' := if low && decide (eff > 0x6F) then eff - 1 else eff
  let x := { x with fmaxEff := tabSet 0 x.fmaxEff n eff', fmaxFloor := x.fmaxFloor || (low && decide (eff ≤ 0x6F)) }
  let s : State := { s.setField .pwr 0 (0x180 + 4 * n) 8 8 eff' with
    life := x, obs := { s.obs with marginAt := tabSet 0 s.obs.marginAt n x.powerOn } }
  if tabGet 0 s.pwr.active n = 0 then retune s n else s

/-- MARGIN_MEASURE (R393): after each 24 h of powered time, while the array is unassigned. -/
def execMarginMeasure (n : ArrayId) (mv : Nat) (s : State) : Out :=
  if !s.firmware || s.arrayDisabled n || (s.ctx.any fun e => e.2.map.any fun m => m.2 == n.val + 1) ||
      decide (s.life.powerOn < 86400 + tabGet 0 s.obs.marginAt n) then .next s
  else .next (noteMargin s n mv)

end Sys2Proof.Machine
end

