-- ==== Sys2Proof/Machine/Fec.lean ====
section
/-!
DEFINITION. The code and the framing of a lane group (R245, R316): the RS(544,514) code over GF(2^10), the codeword's message
of a 20-bit header and five flits of 128 B, and the dealing of its symbols over the lanes. A row of symbols is held as one
number, ten bits to a symbol, so that field operations act on the whole row at once.
Rows of notes/assumptions: PRESUMED 165.
-/
namespace Sys2Proof

/-! GF(2^10), by x^10 + x^3 + 1 -/

/-- A row of `n` symbols of value 1. -/
def gfOnes (n : Nat) : Nat := (2 ^ (10 * n) - 1) / 1023

/-- A row of `n` symbols multiplied by the primitive element. -/
def gfDoubleRow (n v : Nat) : Nat := ((v &&& (511 * gfOnes n)) <<< 1) ^^^ (((v >>> 9) &&& gfOnes n) * 9)

/-- A row of `n` symbols multiplied by the low `k` bits of a symbol. -/
def gfScaleRow (n : Nat) : Nat → Nat → Nat → Nat
  | 0, _, _ => 0
  | k + 1, a, v => (if a % 2 = 1 then v else 0) ^^^ gfScaleRow n k (a / 2) (gfDoubleRow n v)

/-- The product of two symbols. -/
def gfMul (a b : Nat) : Nat := gfScaleRow 1 10 a b

/-- A power of the primitive element. -/
def gfExp : Nat → Nat
  | 0 => 1
  | i + 1 => gfDoubleRow 1 (gfExp i)

/-- The product of `b` and the squares of `a` that follow, `k` of them. -/
def gfSquares : Nat → Nat → Nat → Nat
  | 0, _, b => b
  | k + 1, a, b => gfSquares k (gfMul a a) (gfMul b (gfMul a a))

/-- The inverse of a symbol other than zero: its power 1022. -/
def gfInv (a : Nat) : Nat := gfSquares 9 a 1

/-- The value at `x` of a polynomial, its highest coefficient first. -/
def gfEval (x : Nat) (p : List Nat) : Nat := p.foldl (fun v c => gfMul v x ^^^ c) 0

/-! RS(544,514) -/

/-- The product of the first `k` factors x + α^i of the generator polynomial (R245). -/
def rsGen : Nat → Nat
  | 0 => 1
  | k + 1 => (rsGen k <<< 10) ^^^ gfScaleRow 31 10 (gfExp k) (rsGen k)

/-- The remainder of a message times x^30, from the remainder so far; `g` is the generator without its leading term. -/
def rsRest (g : Nat) : Nat → List Nat → Nat
  | r, [] => r
  | r, c :: cs =>
    let f := (r >>> 290) ^^^ c
    rsRest g (((r % 2 ^ 290) <<< 10) ^^^ (if f = 0 then 0 else gfScaleRow 30 10 f g)) cs

/-- The parity of a message of 514 symbols, as a row whose top symbol comes first. -/
def rsParity (m : List Nat) : Nat := rsRest (rsGen 30 % 2 ^ 300) 0 m

/-- The symbols of a row, the top one first. -/
def rowSymbols (n v : Nat) : List Nat := (List.range n).map fun i => (v >>> (10 * (n - 1 - i))) % 1024

/-- A codeword of 544 symbols, the message first. -/
def rsEncode (m : List Nat) : List Nat := m ++ rowSymbols 30 (rsParity m)

/-- What a received word is modulo the generator polynomial: zero for a codeword. -/
def rsResidue (w : List Nat) : Nat :=
  rsParity (w.take 514) ^^^ (w.drop 514).foldl (fun v c => (v <<< 10) ^^^ c) 0

/-- The state of the search for the error locator: the locator and its last predecessor, lowest coefficient first, the
locator's degree, the steps since the predecessor, and the discrepancy it met. -/
structure Locator where
  loc : List Nat := [1]
  old : List Nat := [1]
  deg : Nat := 0
  gap : Nat := 1
  disc : Nat := 1
deriving DecidableEq, Repr

/-- `a` + f · x^n · `b`. -/
def gfAddShifted (a b : List Nat) (n f : Nat) : List Nat :=
  (List.range (max a.length (b.length + n))).map fun i =>
    a.getD i 0 ^^^ (if i < n then 0 else gfMul f (b.getD (i - n) 0))

/-- One step of the search, at syndrome `k`. -/
def Locator.step (syn : List Nat) (x : Locator) (k : Nat) : Locator :=
  let d := (List.range (x.deg + 1)).foldl (fun v i => if i ≤ k then v ^^^ gfMul (x.loc.getD i 0) (syn.getD (k - i) 0) else v) 0
  if d = 0 then { x with gap := x.gap + 1 }
  else
    let loc := gfAddShifted x.loc x.old x.gap (gfMul d (gfInv x.disc))
    if 2 * x.deg ≤ k then { loc := loc, old := x.loc, deg := k + 1 - x.deg, gap := 1, disc := d }
    else { x with loc := loc, gap := x.gap + 1 }

/-- The error to remove at power `j` of a word: zero where the locator has no root. -/
def errorAt (loc val : List Nat) (j : Nat) : Nat :=
  let x := gfExp ((1023 - j) % 1023)
  if gfEval x loc.reverse ≠ 0 then 0
  else
    let odd := (List.range loc.length).map fun i => if i % 2 = 1 then loc.getD i 0 else 0
    gfMul (gfEval x val.reverse) (gfInv (gfEval x odd.reverse))

/-- Decoding: the message and the number of symbols corrected; `none` where no codeword lies within 15 symbols (R245). -/
def rsDecode (w : List Nat) : Option (List Nat × Nat) :=
  let d := rsResidue w
  if d = 0 then some (w.take 514, 0)
  else
    let syn := (List.range 30).map fun i => gfEval (gfExp i) (rowSymbols 30 d)
    let x := (List.range 30).foldl (Locator.step syn) {}
    if x.deg > 15 then none
    else
      let val := (List.range 30).map fun k =>
        (List.range (k + 1)).foldl (fun v i => v ^^^ gfMul (x.loc.getD i 0) (syn.getD (k - i) 0)) 0
      let errs := (List.range 544).map fun i => errorAt x.loc val (543 - i)
      let fixed := List.zipWith (· ^^^ ·) w errs
      if rsResidue fixed = 0 && (errs.filter (· != 0)).length == x.deg then some (fixed.take 514, x.deg) else none

/-! The codeword's message (R245) -/

/-- The header: the counter, and for each of its nibbles the bit that makes it even. -/
def cwHeader (counter : Nat) : Nat :=
  counter % 65536 + 65536 * ((List.range 4).map fun i => popcount 4 (counter / 2 ^ (4 * i)) % 2 * 2 ^ i).sum

/-- The symbols of a message: its bits in order, ten to a symbol. -/
def cwSymbols (counter : Nat) (flits : List (List Byte)) : List Nat :=
  let m := flits.foldr (fun f v => leNat f + 2 ^ 1024 * v) 0
  let v := cwHeader counter + 2 ^ 20 * m
  (List.range 514).map fun k => (v >>> (10 * k)) % 1024

/-- The five flits of a decoded message. -/
def cwFlits (m : List Nat) : List (List Byte) :=
  let v := m.foldr (fun c v => c + 1024 * v) 0
  (List.range 5).map fun i => leBytes ((v >>> (20 + 1024 * i)) % 2 ^ 1024) 128

/-! Lanes: symbols go round-robin, starting at lane 0 (R245, R316) -/

/-- The symbols of each of `n` lanes. -/
def deal (n : Nat) : Nat → List Nat → List (List Nat)
  | 0, _ => List.replicate n []
  | k + 1, w => List.zipWith List.cons (w.take n) (deal n k (w.drop n))

/-- The symbols of the lanes in their order of sending. -/
def undeal : Nat → List (List Nat) → List Nat
  | 0, _ => []
  | k + 1, ls => ls.map (·.headD 0) ++ undeal k (ls.map List.tail)

/-- What `n` lanes carry for one codeword: lane after lane, ten bits to a symbol. -/
def laneBytes (n counter : Nat) (flits : List (List Byte)) : List Byte :=
  leBytes ((deal n (544 / n) (rsEncode (cwSymbols counter flits))).flatten.foldr (fun c v => c + 1024 * v) 0) 680

end Sys2Proof
end

