-- ==== Sys2Proof/Machine/Packets.lean ====
section
/-!
DEFINITION. What crosses a link, as bytes: flits (R248), fabric packets (R252), and the messages of the Brixcia Link (R319,
R320).
Rows of notes/assumptions: DEDUCED 167; DESIGN CHOICE 89.
-/
namespace Sys2Proof.Machine

open Sys2Proof

/-! Flits (R248) -/

/-- A flit: BODY, SEQ and TYPE, ACK, and CRC-32C over what comes before it. -/
def flitBytes (ty seq ack : Nat) (body : List Byte) : List Byte :=
  let b := (body ++ leBytes 0 120).take 120 ++ leBytes (pack [(0, 12, seq), (12, 4, ty), (16, 12, ack)]) 4
  b ++ leBytes (crc32c b) 4

/-- A received flit read: TYPE, SEQ, ACK, BODY, and whether its CRC is good. -/
structure Flit where
  ty : Nat
  seq : Nat
  ack : Nat
  body : List Byte
  good : Bool
deriving DecidableEq, Repr

def readFlit (f : List Byte) : Flit :=
  let w := leNat (f.drop 120)
  { ty := bits w 12 4, seq := bits w 0 12, ack := bits w 16 12, body := f.take 120, good := crc32c (f.take 124) == bits w 32 32 }

/-! Fabric packets (R252) -/

def Pkt.isData (k : Pkt) : Bool := k.typ == 1 || k.typ == 2

/-- A packet's header: 32 B of a data packet, 16 B of any other. -/
def pktHead (k : Pkt) : List Byte :=
  let h := pack [(0, 4, k.typ), (4, 2, k.vc), (6, 1, bit k.last), (7, 1, bit k.down), (8, 4, k.hops), (16, 15, k.dst),
    (32, 15, k.src), (48, 13, if k.isData then k.body.length else 0), (64, 32, k.msgId), (96, 16, k.op), (112, 8, k.epoch)]
  if k.isData then leBytes h 16 ++ leBytes (pack [(0, 32, k.offset), (32, 32, k.total), (64, 32, k.handle), (96, 32, k.pcrc)]) 16
  else leBytes h 16

/-- PCRC: over the header before it, with HOPS, VC and DOWN taken as zero, and the payload. -/
def pcrcOf (k : Pkt) : Nat := crc32c ((pktHead { k with hops := 0, vc := 0, down := false }).take 28 ++ k.body)

/-- A packet on the wire: a control packet has a body of 48 B. -/
def pktBytes (k : Pkt) : List Byte := pktHead k ++ if k.isData then k.body else (k.body ++ leBytes 0 48).take 48

/-- Size in bytes, and in credits of 64 B (R253). -/
def pktSize (k : Pkt) : Nat := if k.isData then 32 + k.body.length else 64
def pktUnits (k : Pkt) : Nat := ceilDiv (pktSize k) 64

/-- A packet read from its header and what follows it. -/
def pktRead (h : Nat) (body : List Byte) : Pkt :=
  { typ := bits h 0 4, vc := bits h 4 2, last := h.testBit 6, down := h.testBit 7, hops := bits h 8 4, dst := bits h 16 15,
    src := bits h 32 15, msgId := bits h 64 32, op := bits h 96 16, epoch := bits h 112 8, offset := bits h 128 32,
    total := bits h 160 32, handle := bits h 192 32, pcrc := bits h 224 32, body := body }

/-- The bytes of the packet that a stream begins with, by the first word of its header. -/
def pktLength (w : Nat) : Nat := if bits w 0 4 = 1 || bits w 0 4 = 2 then 32 + bits w 48 13 else 64

/-- Bytes of a Brixcia message, by its first word (R319). -/
def bxlLength (w : Nat) : Nat := 16 + 64 * bits w 24 7

/-- A stream of accepted bytes cut into packets, and what is left of it: zero words between packets are padding (R248). -/
def cutStream (length : Nat → Nat) : Nat → List Byte → List (List Byte) × List Byte
  | 0, bs => ([], bs)
  | fuel + 1, bs =>
    if bs.length < 8 then ([], bs)
    else if leNat (bs.take 8) = 0 then cutStream length fuel (bs.drop 8)
    else
      let n := length (leNat (bs.take 8))
      if bs.length < n then ([], bs)
      else
        let r := cutStream length fuel (bs.drop (ceilDiv n 8 * 8))
        (bs.take n :: r.1, r.2)

/-- A packet read from its bytes. -/
def pktOf (bs : List Byte) : Pkt :=
  let ty := bits (leNat (bs.take 8)) 0 4
  let hd := if ty = 1 || ty = 2 then 32 else 16
  pktRead (leNat (bs.take hd)) (bs.drop hd)

/-- The packets that a stream holds, and what is left of it (R248, R252). -/
def parseStream (bs : List Byte) : List Pkt × List Byte :=
  let r := cutStream pktLength (bs.length / 8 + 1) bs
  (r.1.map pktOf, r.2)

/-! Messages of the Brixcia Link (R319, R320) -/

/-- A message: MTYPE, CH, POISON, TAG, INFO, ADDR, and the data in units of 64 B. -/
def bxlBytes (mtype ch : Nat) (poison : Bool) (tag info addr : Nat) (data : List Byte) : List Byte :=
  let n := ceilDiv data.length 64
  leBytes (pack [(0, 8, mtype), (8, 3, ch), (11, 1, bit poison), (12, 12, tag), (24, 7, n), (32, 32, info), (64, 64, addr)]) 16 ++
    (data ++ leBytes 0 (64 * n)).take (64 * n)

/-- Data of an address begins at its byte of the first unit. -/
def placed (addr : Nat) (data : List Byte) : List Byte := leBytes 0 (addr % 64) ++ data

/-- The channel and the bytes of a message that the LM1 has sent; `none` for one that is not of the Brixcia Link. -/
def bxlMessage (m : Msg) : Option (Nat × List Byte) :=
  let a := fun i => m.args.getD i 0
  match m.kind with
  | .memRead | .claim | .evict | .xlateReq => some (3, bxlBytes (a 0) 3 false m.dest (a 2) (a 1) [])
  | .memWrite => some (3, bxlBytes (a 0) 3 (a 3 == 1) m.dest (a 2) (a 1) (placed (a 1) m.data))
  | .writeback | .atomic => some (3, bxlBytes (a 0) 3 (a 3 == 1) m.dest (a 2) (a 1) m.data)
  | .intr => some (3, bxlBytes 0x0A 3 false 0 m.dest 0 [])
  | .xinvDone => some (4, bxlBytes 0x0B 4 false m.dest 0 0 [])
  | .snpRsp => some (4, bxlBytes 0x40 4 (a 3 == 1) m.dest (a 1 + 4 * a 2) (a 0) m.data)
  | .mmioCmp => some (4, bxlBytes 0x58 4 (a 2 == 1) m.dest (16 * a 1) (a 0) (placed (a 0) m.data))
  | .sndRsp | .packet | .control | .dataRed | .notice | .pair | .flit | .mgmtReply | .mgmtPush | .smbusReply | .dhcp | .tftp | .tls | .pin
  | .boot | .testPort => none

/-- The bits of INFO that a message of the host uses (R320); `none` for a type that the host does not send. -/
def hostInfo (mtype : Nat) : Option Nat :=
  match mtype with
  | 0x20 | 0x21 => some 0xF3
  | 0x22 => some 0xFF0
  | 0x30 | 0x31 => some 0
  | 0x32 => some 0xFFFFF001
  | 0x50 | 0x51 => some 0x1FFF
  | _ => none

/-- Whether a message of the host may use a channel (R320): a response to a request of the line cache comes on channel 1. -/
def hostChannel (mtype ch : Nat) (ofLine : Option Bool) : Bool :=
  if mtype = 0x20 || mtype = 0x21 then (match ofLine with
    | some l => ch == if l then 1 else 2
    | none => ch == 1 || ch == 2)
  else if mtype = 0x22 then ch == 2
  else if mtype < 0x40 then ch == 1
  else ch == 0

end Sys2Proof.Machine
end

