-- ==== Sys2Proof/Machine/HostMem.lean ====
section
/-!
DEFINITION. How the LM1's agents reach memory. Host memory is the host's: a read, write or atomic is a request on the
Brixcia Link whose answer comes in a later command, and until then the agent's own command leaves the state as it is, the
request sent, and is given again (R319–R327). Device memory answers at once, but for a row that is being copied (R174).
Rows of notes/assumptions: DEDUCED 7, 24, 112, 116, 144, 182; DESIGN CHOICE 6.
-/
namespace Sys2Proof.Machine

open Sys2Proof

/-- What an access answers its agent. -/
inductive Acc where
  /-- A request is outstanding. -/
  | wait
  /-- A bus error (R165, R330). -/
  | bus
  /-- A translation fault. -/
  | xlate
  /-- The bytes (empty for a write), and the poison of each 64 B unit touched. -/
  | ok (bytes : List Byte) (poison : List Bool)
deriving DecidableEq, Repr

/-- Agents that make requests: the queues by number, then these. -/
def agSeq (n : Nat) : Nat := 2000 + n
def agDma (k : Nat) : Nat := 3000 + k
def agXch (h : Nat) : Nat := 5000 + h
def agNmu (s : Nat) : Nat := 6000 + s
/-- No agent waits: a line leaves the cache. -/
def agNone : Nat := 1999
def agBoot : Nat := 9000
def agRecord (q : Nat) : Nat := 10000 + q

/-- BXL message types (R320). -/
def mtRdCur : Nat := 0x01
def mtWr : Nat := 0x02
def mtRdS : Nat := 0x03
def mtRdO : Nat := 0x04
def mtClaim : Nat := 0x05
def mtWb : Nat := 0x06
def mtEvict : Nat := 0x07
def mtAtomic : Nat := 0x08
def mtXlate : Nat := 0x09

/-- Whether the link is up. -/
def State.bxlUp (s : State) : Bool := s.field .bxl 0 0x100 0 4 == 6

/-! Errors of the link (R330, R331) -/

/-- SEC.STATE: the boot state in which the ROM waits for an image (R359). -/
def bsWaitImage : Nat := 3

/-- Moves the boot to a state with a REASON. -/
def setBoot (s : State) (st reason : Nat) : State := s.setField .sec 0 0x100 0 8 (st + 16 * reason)

/-- BXL.BOOT_STATUS (R331): 0 OFF, 1 WAIT_IMAGE, 2 LOADING, 3 REJECTED, 4 RUNNING. -/
def State.bxlBoot (s : State) : Nat := s.field .bxl 0 0x190 0 3
def setBxlBoot (s : State) (st reason : Nat) : State := s.setReg .bxl 0 0x190 (st + 8 * reason)

/-- An error of R330 during a load rejects it, with the reason of BXL.BOOT_STATUS (R331). -/
def failLoad (s : State) (code : Nat) : State :=
  if s.bxlBoot = 2 && !s.halted then setBxlBoot (setBoot s bsWaitImage 0xC) 3 (if code = 7 then 3 else 2) else s

/-- Records an error of the link (R330). -/
def bxlFault (s : State) (e : Err) : State := failLoad (capture s .bxl 0 e) e.info

/-- Counts and records an error of the link's messages. -/
def bxlError (s : State) (code sev counter addr : Nat) : State :=
  bxlFault (s.bump .bxl 0 counter 1) { sev := sev, addr := addr, info := code }

/-- A malformed message is discarded. -/
def malformed (s : State) (addr : Nat) : State := bxlError s 0x08 sevLogged 0x15C addr

/-- STATUS of a response (R320). -/
def bsOk : Nat := 0
def bsUr : Nat := 1
def bsAbort : Nat := 2

/-- MMIO_CMP. -/
def mmioReply (s : State) (tag addr status : Nat) (poison : Bool) (data : List Byte) : State :=
  s.send { kind := .mmioCmp, dest := tag, args := [addr, status, bit poison], data := data }

/-! Requests -/

/-- The answer kept for an agent's request. -/
def findAns (s : State) (agent mtype addr size : Nat) : Option HostAns :=
  s.bxl.answers.find? fun a => a.agent == agent && a.mtype == mtype && a.addr == addr && a.size == size

/-- Whether such a request is outstanding. -/
def outstanding (s : State) (agent mtype addr size : Nat) : Bool :=
  s.bxl.reqs.any fun e => match e.2 with
    | some r => r.agent == agent && r.mtype == mtype && r.addr == addr && r.size == size
    | none => false

/-- The lowest tag that is neither outstanding nor retired (R321, R330). -/
def freeTag (s : State) : Option Nat :=
  (List.range 4096).find? fun t => (tabGet none s.bxl.reqs t).isNone && tabGet 0 s.bxl.retired t == 0

/-- The kind of message a request is sent as. -/
def kindOf (mtype : Nat) : MsgKind :=
  if mtype = 0x02 then .memWrite
  else if mtype = 0x05 then .claim
  else if mtype = 0x06 then .writeback
  else if mtype = 0x07 then .evict
  else if mtype = 0x08 then .atomic
  else if mtype = 0x09 then .xlateReq
  else .memRead

/-- The INFO word of a request (R320): its size, WRITE for XLATE, OP MAX_U for ATOMIC. -/
def infoOf (r : Req) : Nat :=
  if r.mtype = 0x01 || r.mtype = 0x02 then r.size
  else if r.mtype = 0x08 then 4
  else if r.mtype = 0x09 then bit r.write
  else 0

/-- Whether a request is one of the line cache's (R324): its response comes on channel 1, any other's on channel 2. -/
def Req.ofLine (r : Req) : Bool := [mtRdS, mtRdO, mtClaim, mtWb, mtEvict].contains r.mtype

/-- Units of 64 B of a request's response (R319, R320). -/
def Req.answerUnits (r : Req) : Nat :=
  1 + (if r.mtype = mtRdCur then ceilDiv (r.addr % 64 + r.size) 64 else if r.mtype = mtRdS || r.mtype = mtRdO || r.mtype = mtAtomic then 1 else 0)

/-- Units of a receive channel that outstanding requests have reserved for their responses (R321). -/
def reservedUnits (s : State) (line : Bool) : Nat :=
  (s.bxl.reqs.map fun e => (e.2.map fun r => if r.ofLine == line then r.answerUnits else 0).getD 0).sum

/-- Whether a request can be sent: a tag is free and its response has room on its channel, of 32 or 128 KiB (R321). -/
def canSend (s : State) (r : Req) : Bool :=
  (freeTag s).isSome && decide (reservedUnits s r.ofLine + r.answerUnits ≤ if r.ofLine then 512 else 2048)

/-- Sends a request under a free tag, its data marked poisoned or not; where it cannot be sent it waits (R319, R321). -/
def sendReq (s : State) (r : Req) (data : List Byte) (poison : Bool := false) : State :=
  match (freeTag s).filter fun _ => canSend s r with
  | none => s
  | some t =>
    let s := { s with bxl := { s.bxl with reqs := tabSet none s.bxl.reqs t (some { r with sent := s.gtime }) } }
    s.send { kind := kindOf r.mtype, dest := t, args := [r.mtype, r.addr, infoOf r, bit poison], data := data }

/-- Forgets the answers an agent has taken. -/
def takeAnswers (s : State) (agent : Nat) : State :=
  { s with bxl := { s.bxl with answers := s.bxl.answers.filter fun a => a.agent != agent } }

/-- Forgets an agent: its answers, and those still to come to what it has asked. -/
def dropAgent (s : State) (agent : Nat) : State :=
  let s := takeAnswers s agent
  { s with bxl := { s.bxl with reqs := s.bxl.reqs.map fun e => (e.1, e.2.map fun r => if r.agent == agent then { r with agent := agNone } else r) } }

/-- What an agent has asked is answered with an error, and an answer that still comes is for nobody (R21). -/
def refuseAgent (s : State) (agent : Nat) : State :=
  let mine := (s.bxl.reqs.filterMap (·.2)).filter fun r => r.agent == agent
  let old := s.bxl.answers.filter fun a => a.agent == agent
  let s := dropAgent s agent
  { s with bxl := { s.bxl with answers := s.bxl.answers ++ old ++ mine.map fun r =>
      { agent := agent, mtype := r.mtype, addr := r.addr, size := r.size, result := 1 } } }

/-- The translation cache's entry for a host I/O address (R327). -/
def atcFind (s : State) (io : Nat) : Option AtcEntry :=
  s.bxl.atc.find? fun e => io / 2 ^ e.log * 2 ^ e.log == e.io

/-- Latches a host translation fault (R327): 1 NOT_PRESENT, 2 NO_WRITE. -/
def latchXlate (s : State) (code req c io : Nat) (write : Bool) : State :=
  let s := bxlFault s { sev := sevFailed, ctx := some c, addr := io, info := 0x09 }
  if (s.reg .bxl 0 0x114).testBit 14 then s
  else
    let s := s.setReg .bxl 0 0x114 (pack [(0, 4, code), (4, 3, req), (7, 6, c), (13, 1, bit write), (14, 1, 1)])
    (s.setReg .bxl 0 0x118 (io % 2 ^ 32)).setReg .bxl 0 0x11C (io / 2 ^ 32 % 2 ^ 11)

/-- Translates a host I/O address: the physical address, or what the agent waits for or meets. -/
def hostXlate (s : State) (agent req c io : Nat) (write : Bool) : State × Except Acc Nat :=
  match atcFind s io with
  | some e =>
    if write && !e.w then (latchXlate s 2 req c io write, .error .xlate)
    else (s, .ok (e.pa + io % 2 ^ e.log))
  | none =>
    let page := io / 4096 * 4096
    match findAns s agent mtXlate page (bit write) with
    | some a => (s, .error (if a.result = 1 then .bus else .xlate))
    | none =>
      if outstanding s agent mtXlate page (bit write) then (s, .error .wait)
      else if !s.bxlUp then (s, .error .bus)
      else (sendReq s { mtype := mtXlate, addr := page, size := bit write, agent := agent, io := io, req := req, ctx := c,
                        write := write } [], .error .wait)

/-- Drops a line from the cache's order of use. -/
def unlistLine (s : State) (l : Nat) (v : HostLine) : State :=
  { s with bxl := { s.bxl with
      lines := tabSet {} s.bxl.lines l v
      order := if v.st == .i then s.bxl.order.filter (· != l) else s.bxl.order } }

def State.lineOf (s : State) (l : Nat) : HostLine := tabGet {} s.bxl.lines l

/-- Sends the eviction of a line that is held: EVICT from S and E, WB from M (R325). Where it cannot be sent the line stays. -/
def evictLine (s : State) (l : Nat) : State :=
  let x := s.lineOf l
  let r : Req := { mtype := if x.st == .m then mtWb else mtEvict, addr := 64 * l, size := 64, agent := agNone }
  if x.st == .i || x.leaving || !canSend s r then s
  else sendReq (unlistLine s l { x with leaving := true }) r (if x.st == .m then x.data else []) (x.st == .m && x.poison)

/-- Starts the eviction of every held line that [pa, pa + len) touches; true when none is held (R324). -/
def clearLines (s : State) (pa len : Nat) : State × Bool :=
  let ls := ((List.range ((pa + len - 1) / 64 - pa / 64 + 1)).map (· + pa / 64)).filter fun l => (s.lineOf l).st != .i
  (ls.foldl evictLine s, ls.isEmpty)

/-- One uncached request of whole words to a host physical address (RD_CUR, WR or ATOMIC), after the line is out of the cache
(R324). -/
def hostWords (s : State) (agent mtype pa size : Nat) (data : List Byte) (poison : Bool) : State × Except Acc HostAns :=
  match findAns s agent mtype pa size with
  | some a => (s, if a.result = 0 then .ok a else .error .bus)
  | none =>
    if outstanding s agent mtype pa size then (s, .error .wait)
    else if !s.bxlUp then (s, .error .bus)
    else
      match clearLines s pa size with
      | (s, false) => (s, .error .wait)
      | (s, true) => (sendReq s { mtype := mtype, addr := pa, size := size, agent := agent } data poison, .error .wait)

/-- One uncached access to a host physical address. A request takes whole words of 4 B (R319): a read takes the words that hold its
bytes, and a write of parts of words reads them first and writes them back with its own bytes (log entry 182). -/
def hostPhys (s : State) (agent mtype pa size : Nat) (data : List Byte) (poison : Bool := false) : State × Acc :=
  let lo := pa % 4
  let base := pa - lo
  let len := 4 * ceilDiv (lo + size) 4
  let answer := fun (r : State × Except Acc HostAns) => match r with
    | (s, .ok a) => (s, Acc.ok ((a.data.drop lo).take (if mtype = mtWr then 0 else if mtype = mtRdCur then size else a.data.length))
        ((List.range (ceilDiv (pa % 64 + size) 64)).map fun _ => a.poison))
    | (s, .error e) => (s, e)
  if mtype ≠ mtWr || len = size || (findAns s agent mtWr base len).isSome || outstanding s agent mtWr base len then
    answer (hostWords s agent mtype base len data poison)
  else match hostWords s agent mtRdCur base len [] false with
    | (s, .ok a) => answer (hostWords s agent mtWr base len (a.data.take lo ++ data ++ a.data.drop (lo + size)) (poison || a.poison))
    | (s, .error e) => (s, e)

/-- One uncached access at a host I/O address. -/
def hostAccess (s : State) (agent req c mtype io size : Nat) (write : Bool) (data : List Byte) (poison : Bool := false) :
    State × Acc :=
  match hostXlate s agent req c io write with
  | (s, .error a) => (s, a)
  | (s, .ok pa) => hostPhys s agent mtype pa size data poison

/-- Marks a line as the most recently used (R324). -/
def touchLine (s : State) (l : Nat) : State := { s with bxl := { s.bxl with order := l :: s.bxl.order.filter (· != l) } }

/-- The other lines of a line's set of 16 ways: those held, most recently used first, and those asked for (R324). -/
def setLines (s : State) (l : Nat) : List Nat := s.bxl.order.filter fun x => x % 4096 == l % 4096 && x != l
def setAsked (s : State) (l : Nat) : Nat :=
  (s.bxl.reqs.filter fun e => e.2.any fun r =>
    (r.mtype == mtRdS || r.mtype == mtRdO || r.mtype == mtClaim) && r.addr / 64 % 4096 == l % 4096 && r.addr / 64 != l &&
      (s.lineOf (r.addr / 64)).st == .i).length

/-- Makes room for a line in its set, evicting the line used least recently; true when there is room, and an eviction under way is
waited for (R324). -/
def makeRoom (s : State) (l : Nat) : State × Bool :=
  let staying := (setLines s l).filter fun x => !(s.lineOf x).leaving
  if (setLines s l).length + setAsked s l < 16 then (s, true)
  else if staying.length + setAsked s l < 16 then (s, false)
  else match staying.getLast? with
    | some v => (evictLine s v, false)
    | none => (s, false)

/-- Asks for a line, once its set has room for it. -/
def askLine (s : State) (agent mtype l : Nat) : State :=
  match makeRoom s l with
  | (s, false) => s
  | (s, true) => sendReq s { mtype := mtype, addr := 64 * l, size := 64, agent := agent } []

/-- The front end's read of a whole host line through the cache (R324, R325). -/
def cacheRead (s : State) (agent req c io : Nat) : State × Acc :=
  match hostXlate s agent req c io false with
  | (s, .error a) => (s, a)
  | (s, .ok pa) =>
    let l := pa / 64
    let x := s.lineOf l
    if x.st != .i && !x.leaving then (touchLine s l, .ok x.data [x.poison])
    else
      match findAns s agent mtRdS (64 * l) 64 with
      | some a => (s, if a.result = 0 then .ok a.data [a.poison] else .bus)
      | none =>
        if x.leaving || outstanding s agent mtRdS (64 * l) 64 then (s, .wait)
        else if !s.bxlUp then (s, .bus)
        else (askLine s agent mtRdS l, .wait)

/-- The front end's write of bytes within one host line through the cache (R324, R325): a line granted and lost again before the
write is asked for again. -/
def cacheWrite (s : State) (agent req c io : Nat) (data : List Byte) : State × Acc :=
  match hostXlate s agent req c io true with
  | (s, .error a) => (s, a)
  | (s, .ok pa) =>
    let l := pa / 64
    let o := pa % 64
    let x := s.lineOf l
    if (x.st == .e || x.st == .m) && !x.leaving then
      let bytes := x.data.take o ++ data ++ x.data.drop (o + data.length)
      (touchLine (unlistLine s l { x with st := .m, data := bytes, poison := x.poison && decide (data.length < 64) }) l, .ok [] [])
    else
      let m := if data.length = 64 && x.st == .i then mtClaim else mtRdO
      match (findAns s agent m (64 * l) 64).filter fun a => a.result != 0 with
      | some _ => (s, .bus)
      | none =>
        if x.leaving || outstanding s agent m (64 * l) 64 then (s, .wait)
        else if !s.bxlUp then (s, .bus)
        else (askLine (takeAnswers s agent) agent m l, .wait)

/-! Whole accesses -/

/-- Joins the answers of consecutive pieces. -/
def joinAcc : Acc → Acc → Acc
  | .ok b p, .ok b' p' => .ok (b ++ b') (p ++ p')
  | .ok _ _, a => a
  | a, _ => a

/-! From which die (R13, R14) -/

/-- The die that an agent stands on (R13): a sequencer, a DMA engine, a half of the exchange engine and an update unit each on its own,
the front end and the boot on LD[0]. -/
def agentDie (agent : Nat) : Nat :=
  if agent < 2000 then 4
  else if agent < 2020 then (agent - 2000) / 5
  else if agent < 3000 then agent - 2020
  else if agent < 5000 then (agent - 3000) / 32
  else if agent < 6000 then if agent = 5001 then 5 else 4
  else if agent < 9000 then (agent - 6000) / 6
  else 4

/-- A read of physical memory, device or host (R24), from a die: `c` is the context for host faults, `owner` the key set. -/
def physReadGo : Nat → State → Nat → Nat → Nat → Nat → Nat → Nat → Nat → State × Acc
  | 0, s, _, _, _, _, _, _, _ => (s, .ok [] [])
  | fuel + 1, s, agent, die, req, c, owner, pa, len =>
    if len = 0 then (s, .ok [] [])
    else
      let n := min len (4096 - pa % 4096)
      let (s, a) :=
        if pa ≥ hostBase then hostAccess s agent req c mtRdCur (pa - hostBase) n false []
        else if rowsBusy s pa n then (s, .wait)
        else
          let (s, r) := devRead s owner pa n
          (s, if r.bus then .bus else .ok r.bytes r.poison)
      let s := reach s die pa n (a != .wait)
      match a with
      | .ok _ _ =>
        let (s, a') := physReadGo fuel s agent die req c owner (pa + n) (len - n)
        (s, joinAcc a a')
      | a => (s, a)

def physRead (s : State) (agent die req c owner pa len : Nat) : State × Acc :=
  physReadGo (len / 4096 + 2) s agent die req c owner pa len

/-- A write of physical memory, device or host, from a die. -/
def physWriteGo : Nat → State → Nat → Nat → Nat → Nat → Nat → Nat → List Byte → State × Acc
  | 0, s, _, _, _, _, _, _, _ => (s, .ok [] [])
  | fuel + 1, s, agent, die, req, c, owner, pa, data =>
    if data.isEmpty then (s, .ok [] [])
    else
      let n := min data.length (4096 - pa % 4096)
      let (s, a) :=
        if pa ≥ hostBase then hostAccess s agent req c mtWr (pa - hostBase) n true (data.take n)
        else if rowsBusy s pa n then (s, .wait)
        else
          let (s, bad) := devWrite s owner pa (data.take n)
          (s, if bad then .bus else .ok [] [])
      let s := reach s die pa n (a != .wait)
      match a with
      | .ok _ _ => physWriteGo fuel s agent die req c owner (pa + n) (data.drop n)
      | a => (s, a)

def physWrite (s : State) (agent die req c owner pa : Nat) (data : List Byte) : State × Acc :=
  physWriteGo (data.length / 4096 + 2) s agent die req c owner pa data

/-- A read of a context's virtual memory by a requester at a die (R162, R165). -/
def memReadGo : Nat → State → Nat → Nat → Nat → Nat → Nat → Nat → State × Acc
  | 0, s, _, _, _, _, _, _ => (s, .ok [] [])
  | fuel + 1, s, agent, die, req, c, va, len =>
    if len = 0 then (s, .ok [] [])
    else
      let n := min len (4096 - va % 4096)
      match translateFrom s (agentDie agent) die req c va false with
      | (s, .fault _) => (s, .xlate)
      | (s, .wait) => (s, .wait)
      | (s, .pa pa) =>
        match physRead s agent (agentDie agent) req c c pa n with
        | (s, .ok b p) =>
          let (s, a') := memReadGo fuel s agent die req c (va + n) (len - n)
          (s, joinAcc (.ok b p) a')
        | (s, a) => (s, a)

def memRead (s : State) (agent die req c va len : Nat) : State × Acc :=
  memReadGo (len / 4096 + 2) s agent die req c va len

/-- A write of a context's virtual memory. -/
def memWriteGo : Nat → State → Nat → Nat → Nat → Nat → Nat → List Byte → State × Acc
  | 0, s, _, _, _, _, _, _ => (s, .ok [] [])
  | fuel + 1, s, agent, die, req, c, va, data =>
    if data.isEmpty then (s, .ok [] [])
    else
      let n := min data.length (4096 - va % 4096)
      match translateFrom s (agentDie agent) die req c va true with
      | (s, .fault _) => (s, .xlate)
      | (s, .wait) => (s, .wait)
      | (s, .pa pa) =>
        match physWrite s agent (agentDie agent) req c c pa (data.take n) with
        | (s, .ok _ _) => memWriteGo fuel s agent die req c (va + n) (data.drop n)
        | (s, a) => (s, a)

def memWrite (s : State) (agent die req c va : Nat) (data : List Byte) : State × Acc :=
  memWriteGo (data.length / 4096 + 2) s agent die req c va data

/-- The addresses of the 64 B units of [pa, pa + 64·n) that a poison list marks. -/
def markedUnits (pa : Nat) (poison : List Bool) : List Nat :=
  ((List.range poison.length).filter fun i => poison.getD i false).map fun i => pa + 64 * i

/-- A write of whole 64 B units of virtual memory that carries poison onward (R153): a poisoned unit is marked in device
memory, and a message to the host is marked poisoned. The bytes lie within one 4 KiB page. -/
def memWriteMarked (s : State) (agent die req c va : Nat) (data : List Byte) (poison : List Bool) : State × Acc :=
  match translateFrom s (agentDie agent) die req c va true with
  | (s, .fault _) => (s, .xlate)
  | (s, .wait) => (s, .wait)
  | (s, .pa pa) =>
    if pa ≥ hostBase then
      let (s, a) := hostAccess s agent req c mtWr (pa - hostBase) data.length true data (poison.any id)
      (reach s (agentDie agent) pa data.length (a != .wait), a)
    else if rowsBusy s pa data.length then (s, .wait)
    else
      let (s, bad) := writeFrom s (agentDie agent) c pa data
      if bad then (s, .bus) else (poisonUnits s (markedUnits pa poison), .ok [] [])

/-- Stores max(old, value) at an 8 B aligned fence, indivisibly (R216): a read-modify-write in device memory, an ATOMIC
MAX_U in host memory. -/
def fenceMaxPhys (s : State) (agent req c owner pa value : Nat) : State × Acc :=
  if pa ≥ hostBase then
    let (s, a) := hostAccess s agent req c mtAtomic (pa - hostBase) 8 true (leBytes value 8)
    (reach s (agentDie agent) pa 8 (a != .wait), a)
  else if rowsBusy s pa 8 then (s, .wait)
  else
    match readFrom s (agentDie agent) owner pa 8 with
    | (s, r) =>
      if r.bus then (s, .bus)
      else if r.bad then (s, .ok [] [true])
      else
        let old := leNat r.bytes
        if old < value then
          let (s, bad) := devWrite s owner pa (leBytes value 8)
          (s, if bad then .bus else .ok [] [false])
        else (s, .ok [] [false])

def fenceMax (s : State) (agent die req c va value : Nat) : State × Acc :=
  match translateFrom s (agentDie agent) die req c va true with
  | (s, .fault _) => (s, .xlate)
  | (s, .wait) => (s, .wait)
  | (s, .pa pa) => fenceMaxPhys s agent req c c pa value

end Sys2Proof.Machine
end

