-- ==== Sys2Proof/Machine/MatArith.lean ====
section
/-!
DEFINITION. What a matrix instruction says and the sum it forms: the descriptor and sub-array table (R63, R66), the checks
of R67 and R99, the loading of a B tile (R59–R61), and the accumulation of each operand class in its one order (R79–R87),
with the binary64 spill (R90).
Rows of notes/assumptions: DEDUCED 46; DESIGN CHOICE 155, 156, 158, 159, 160, 194, 195, 209.
-/
namespace Sys2Proof.Machine

open Sys2Proof

/-- One sub-array's operands (R63); the 512 × 512 configuration is one sub-array of the descriptor's own words. -/
structure SubOp where
  s : Nat
  aAddr : Nat
  aScale : Nat
  bAddr : Nat
  bScale : Nat
  nbAddr : Nat
  nbScale : Nat
  m : Nat
  accRow : Nat
  outIndex : Nat
  col0 : Nat
deriving DecidableEq, Repr

/-! Fields of the descriptor of R66 -/

def mmGang (d : Nat) : Nat := fld d 0 8 2
def mmBsrc (d : Nat) : Nat := fld d 0 10 2
def mmPreload (d : Nat) : Bool := flag d 0 12
def mmZero (d : Nat) : Bool := flag d 0 13
def mmPasses (d : Nat) : Nat := fld d 0 14 2
def mmFmtA (d : Nat) : Nat := fld d 0 16 5
def mmFmtB (d : Nat) : Nat := fld d 0 21 5
def mmSpill (d : Nat) : Nat := fld d 0 28 2
def mmEpi (d : Nat) : Bool := flag d 0 30
def mmK (d : Nat) : Nat := fld d 8 0 12
def mmN (d : Nat) : Nat := fld d 8 12 10
def mmTag (d : Nat) : Nat := fld d 0xC 0 16
/-- G (R82). -/
def mmG (d : Nat) : Nat := 4 * 2 ^ fld d 0 26 2
def mmAstride (d : Nat) : Nat := fld d 0x14 0 25
def mmAsstride (d : Nat) : Nat := fld d 0x1C 0 25
def mmBstride (d : Nat) : Nat := fld d 0x24 0 25
def mmBsstride (d : Nat) : Nat := fld d 0x2C 0 25
def mmEpiAddr (d : Nat) : Nat := fld d 0x38 0 25
def mmSpillAddr (d : Nat) : Nat := fld d 0x3C 0 25
def mmSplit (d : Nat) : Bool := mmGang d == 1 || mmGang d == 2

/-- Sub-arrays and band width of a configuration (R62). -/
def gangCount (g : Nat) : Nat := if g = 1 then 4 else if g = 2 then 16 else 1
def bandWidth (g : Nat) : Nat := if g = 1 then 256 else if g = 2 then 128 else 512

/-- The operands of every sub-array (R62, R63, R66). -/
def subOps (d : Nat) (tab : List Nat) : List SubOp :=
  if mmSplit d then
    let cb := if mmGang d = 1 then 2 else 4
    (List.range tab.length).map fun s =>
      let e := tab.getD s 0
      { s := s, aAddr := fld e 0 0 25, aScale := fld e 4 0 25, bAddr := fld e 8 0 25, bScale := fld e 0xC 0 25,
        nbAddr := fld e 0x10 0 25, nbScale := fld e 0x14 0 25, m := fld e 0x18 0 13, accRow := fld e 0x18 13 12,
        outIndex := fld e 0x1C 0 16, col0 := bandWidth (mmGang d) * (s % cb) }
  else
    [{ s := 0, aAddr := fld d 0x10 0 25, aScale := fld d 0x18 0 25, bAddr := fld d 0x20 0 25, bScale := fld d 0x28 0 25,
       nbAddr := fld d 0x30 0 25, nbScale := fld d 0x34 0 25, m := fld d 4 0 13, accRow := fld d 4 13 12,
       outIndex := 0, col0 := 0 }]

/-- The operand classes of R48 and R56. -/
inductive MmClass where
  | c16 | c8 | c4 | multi
deriving DecidableEq, Repr

/-- The class of a pair of formats that R48 allows. -/
def mmClass (fa fb : Nat) : Option MmClass :=
  match fmtOf fa, fmtOf fb with
  | some a, some b =>
    let h := fun f => f == Fmt.bf16 || f == Fmt.fp16
    let e := fun f => f == Fmt.e4m3 || f == Fmt.e5m2 || f == Fmt.e3m2 || f == Fmt.e2m3 || f == Fmt.int8
    if h a && h b then some .c16
    else if e a && e b then some .c8
    else if (a == .q8x64 || a == .q8x128) && a == b then some .c8
    else if (a == .e2m1 || a == .q4) && a == b then some .c4
    else if a == .fp32 && a == b then some .multi
    else none
  | _, _ => none

/-- The stationary tile's K for a class and configuration (R56). -/
def tileK (c : MmClass) (g : Nat) : Nat :=
  bandWidth g * match c with
    | .c16 | .multi => 1
    | .c8 => 2
    | .c4 => 4

/-- The format of a code that has been checked. -/
def fmtD (code : Nat) : Fmt := (fmtOf code).getD .fp32

/-- One past the last byte of `rows` runs of `len` bytes, `stride` apart. -/
def extentEnd (base rows stride len : Nat) : Nat := if rows = 0 then base else base + (rows - 1) * stride + len

/-- The error codes of R67. -/
def eReserved : Nat := 1
def eFormat : Nat := 2
def eShape : Nat := 3
def eAccRange : Nat := 4
def eOverlap : Nat := 5
def eAlsRange : Nat := 6
def eAlign : Nat := 7
def eNoTile : Nat := 8

/-- Reserved fields of the descriptor and of the words a split configuration must leave zero (R66, R90). -/
def mmReserved (d : Nat) : Bool :=
  fld d 0 0 8 != 1 || mmGang d == 3 || mmBsrc d == 3 || mmPasses d == 0 || fld d 0 26 2 == 3 || mmSpill d == 3 ||
  (mmEpi d && mmSpill d == 1) || flag d 0 31 || fld d 4 25 7 != 0 || fld d 8 22 10 != 0 || fld d 0xC 16 16 != 0 ||
  ((List.range 12).any fun i => fld d (0x10 + 4 * i) 25 7 != 0) ||
  (mmSplit d && (fld d 4 0 25 != 0 || fld d 0x18 0 25 != 0 || fld d 0x20 0 25 != 0 || fld d 0x28 0 25 != 0 ||
    fld d 0x30 0 25 != 0 || fld d 0x34 0 25 != 0))

/-- Reserved fields of a sub-array table entry (R63). -/
def subReserved (e : Nat) : Bool :=
  ((List.range 7).any fun i => fld e (4 * i) 25 7 != 0) || fld e 0x1C 16 16 != 0

/-- Whether an extent of R99 or R67 overruns the ALS. -/
def beyond (e : Nat) : Bool := decide (e > alsSize)

/-- The checks of one sub-array's operands: ranges, overlaps, extents and alignments, as (code, s). Of two sub-arrays that overlap,
the higher-numbered is the failing one (log entry 156). The preload's operands are checked with PRELOAD = 1 alone (log entry 194), an idle sub-array's B tile as any other (log
entry 209). -/
def subChecks (d : Nat) (fa fb : Fmt) (subs : List SubOp) (e : SubOp) : List (Nat × Nat) :=
  let k := mmK d
  let n := mmN d
  let sc := fun f => groupSize f != 0
  let aExt := if e.m = 0 then [] else
    [extentEnd e.aAddr e.m (mmAstride d) (rowBytes fa k)] ++
    (if sc fa then [extentEnd e.aScale e.m (mmAsstride d) (k / groupSize fa)] else [])
  let bExt := fun a s =>
    [extentEnd a k (mmBstride d) (rowBytes fb n)] ++
    (if sc fb then [extentEnd s (k / groupSize fb) (mmBsstride d) n] else [])
  let exts := aExt ++ bExt e.bAddr e.bScale ++ (if mmPreload d then bExt e.nbAddr e.nbScale else [])
  let aAl := [e.aAddr % 512, mmAstride d % 64] ++ (if sc fa then [e.aScale % 64, mmAsstride d % 64] else [])
  let bAl := fun a s => [a % 512, mmBstride d % 64] ++ (if sc fb then [s % 64, mmBsstride d % 64] else [])
  let als := aAl ++ bAl e.bAddr e.bScale ++ (if mmPreload d then bAl e.nbAddr e.nbScale else [])
  (if e.accRow + e.m > 4096 then [(eAccRange, e.s)] else []) ++
  (if subs.any (fun o => decide (o.s < e.s) && o.col0 == e.col0 && o.m != 0 && e.m != 0 &&
      decide (o.accRow < e.accRow + e.m) && decide (e.accRow < o.accRow + o.m)) then [(eOverlap, e.s)] else []) ++
  (if exts.any beyond then [(eAlsRange, e.s)] else []) ++
  (if als.any (· != 0) then [(eAlign, e.s)] else [])

/-- The lowest and one past the highest accumulator row an instruction writes (R90). -/
def rowSpan (subs : List SubOp) : Nat × Nat :=
  let act := subs.filter (·.m != 0)
  (act.foldl (fun a e => min a e.accRow) 4096, act.foldl (fun a e => max a (e.accRow + e.m)) 0)

/-- The checks of the spill buffer (R90). Its extent ends with the last element written (log entry 160). -/
def spillChecks (d : Nat) (subs : List SubOp) : List (Nat × Nat) :=
  if mmSpill d = 0 then []
  else
    (if mmSpillAddr d % 512 ≠ 0 then [(eAlign, 0)] else []) ++
    (if subs.all (·.m == 0) then []
     else
      let (lo, hi) := rowSpan subs
      let cmax := (subs.filter (·.m != 0)).foldl (fun a e => max a (e.col0 + mmN d)) 0
      if mmSpillAddr d + 4096 * (hi - 1 - lo) + 8 * cmax > alsSize then [(eAlsRange, 0)] else [])

/-! Fields of the epilogue descriptor of R99 -/

def epFmt (e : Nat) : Nat := fld e 0 0 5
def epAct (e : Nat) : Nat := fld e 0 5 3
def epBiasEn (e : Nat) : Bool := flag e 0 8
def epBiasBf16 (e : Nat) : Bool := flag e 0 9
def epSr (e : Nat) : Bool := flag e 0 10
def epStat (e : Nat) : Bool := flag e 0 11
def epColAmax (e : Nat) : Bool := flag e 0 12
def epDigest (e : Nat) : Bool := flag e 0 13
def epReplay (e : Nat) : Bool := flag e 0 14

/-- Whether a format may be an epilogue output (R48). -/
def epFmtOk (f : Option Fmt) : Bool :=
  match f with
  | some .fp32 | some .bf16 | some .fp16 => true
  | some f => isBlock f
  | none => false

/-- The checks of an epilogue descriptor against its instruction (R99). An element or scale base is that of a sub-array's
output, at its OUT_INDEX (R100). -/
def epiChecks (d e : Nat) (subs : List SubOp) : List (Nat × Nat) :=
  let n := mmN d
  let f := fmtD (epFmt e)
  let blk := groupSize f != 0
  let nb := bandWidth (mmGang d)
  let at' := fun o => fld e o 0 25
  let bb := if epBiasBf16 e then 2 else 4
  let act := subs.filter (·.m != 0)
  let exts := fun (x : SubOp) =>
    [extentEnd (at' 4 + x.outIndex * at' 0x14) x.m (at' 8) (rowBytes f n)] ++
    (if blk then [extentEnd (at' 0xC + x.outIndex * at' 0x18) x.m (at' 0x10) (n / groupSize f)] else []) ++
    (if epBiasEn e then [at' 0x1C + x.outIndex * nb * bb + n * bb] else []) ++
    (if epStat e then [at' 0x24 + 64 * x.s + 64] else []) ++
    (if epColAmax e then [at' 0x28 + 4 * nb * x.s + 4 * n] else [])
  let bases := fun (x : SubOp) =>
    [(at' 4 + x.outIndex * at' 0x14) % 512] ++ (if blk then [(at' 0xC + x.outIndex * at' 0x18) % 64] else [])
  let als := [at' 8 % 64] ++ (if blk then [at' 0x10 % 64] else []) ++
    (if epStat e then [at' 0x24 % 64] else []) ++ (if epColAmax e then [at' 0x28 % 64] else [])
  let lcols := fld e 0x3C 0 24
  (if decide (epAct e ≥ 6) || fld e 0 15 17 != 0 || ([4, 8, 0xC, 0x10, 0x14, 0x18, 0x1C, 0x24, 0x28].any fun o => fld e o 25 7 != 0)
      || fld e 0x34 16 16 != 0 || fld e 0x38 24 8 != 0 || fld e 0x3C 24 8 != 0 ||
      ((epColAmax e || epDigest e) && !epStat e) then [(eReserved, 0)] else []) ++
  (if epFmtOk (fmtOf (epFmt e)) then [] else [(eFormat, 0)]) ++
  (if (blk && n % max (groupSize f) 1 != 0) || decide (fld e 0x38 0 24 + n > lcols) then [(eShape, 0)] else []) ++
  (act.filterMap fun x => if (exts x).any beyond then some (eAlsRange, x.s) else none) ++
  (if als.any (· != 0) then [(eAlign, 0)] else []) ++
  (act.filterMap fun x => if (bases x).any (· != 0) then some (eAlign, x.s) else none)

/-- The first failure in the order of R67: the lowest code, then the lowest sub-array. -/
def firstFailure : List (Nat × Nat) → Option (Nat × Nat)
  | [] => none
  | p :: ps => match firstFailure ps with
    | none => some p
    | some q => if p.1 < q.1 || (p.1 == q.1 && decide (p.2 ≤ q.2)) then some p else some q

/-- The checks of R67 that need no tile: (code, s) of the first failure. A misaligned descriptor or sub-array table fails with
ALIGN (log entry 155). -/
def mmChecks (addr d : Nat) (tab : List Nat) (epi : Nat) : Option (Nat × Nat) :=
  let subs := subOps d tab
  let fa := fmtD (mmFmtA d)
  let fb := fmtD (mmFmtB d)
  let k := mmK d
  let n := mmN d
  let g := mmGang d
  let gs := max (groupSize fa) 1
  let passBad := mmPasses d != 1 && mmFmtA d != 0
  let tab' := if mmSplit d then
      (if fld d 0x10 0 25 % 64 ≠ 0 then [(eAlign, 0)] else []) ++
      (if fld d 0x10 0 25 + 32 * gangCount g > alsSize then [(eAlsRange, 0)] else []) ++
      ((List.range tab.length).filterMap fun s => if subReserved (tab.getD s 0) then some (eReserved, s) else none)
    else if fld d 4 0 13 = 0 then [(eAccRange, 0)] else []
  firstFailure (
    (if addr % 64 ≠ 0 then [(eAlign, 0)] else []) ++
    (if mmReserved d then [(eReserved, 0)] else []) ++
    (match mmClass (mmFmtA d) (mmFmtB d) with
      | none => [(eFormat, 0)]
      | some c => (if passBad then [(eFormat, 0)] else []) ++
          (if k == 0 || decide (k > tileK c g) || n == 0 || decide (n > bandWidth g) || k % mmG d != 0 || k % gs != 0
            then [(eShape, 0)] else [])) ++
    tab' ++ (subs.flatMap (subChecks d fa fb subs)) ++ spillChecks d subs ++
    (if mmEpi d then
      (if mmEpiAddr d % 64 ≠ 0 then [(eAlign, 0)] else []) ++
      (if mmEpiAddr d + 64 > alsSize then [(eAlsRange, 0)] else epiChecks d epi subs)
     else []))

/-! B tiles -/

/-- What a use of a tile must match (R60); `nb` takes NB_ADDR and NB_SCALE in place of B_ADDR and B_SCALE. -/
def tileKey (d : Nat) (tab : List Nat) (nb : Bool) : List Nat :=
  let blk := groupSize (fmtD (mmFmtB d)) != 0
  [mmFmtB d, mmGang d, mmK d, mmN d, mmBstride d, if blk then mmBsstride d else 0, bit (mmPasses d == 3)] ++
  (subOps d tab).flatMap fun e =>
    [if nb then e.nbAddr else e.bAddr, if blk then (if nb then e.nbScale else e.bScale) else 0]

/-- The ALS extents of one sub-array's B tile. -/
def tileExtents (d : Nat) (a s : Nat) : List (Nat × Nat) :=
  let f := fmtD (mmFmtB d)
  ((List.range (mmK d)).map fun k => (a + k * mmBstride d, rowBytes f (mmN d))) ++
  (if groupSize f = 0 then [] else
    (List.range (mmK d / groupSize f)).map fun g => (s + g * mmBsstride d, mmN d))

/-- Reads a B tile out of the ALS (R59, R66): codes by K row, scales by K group, and the first poisoned block, in the order of
log entry 158; those of an idle sub-array too (log entry 209). -/
def loadTile (t : Store) (d : Nat) (tab : List Nat) (nb : Bool) : Tile :=
  let f := fmtD (mmFmtB d)
  let n := mmN d
  let subs := subOps d tab
  let at' := fun (e : SubOp) => if nb then (e.nbAddr, e.nbScale) else (e.bAddr, e.bScale)
  { valid := true
    key := tileKey d tab nb
    subs := subs.map fun e =>
      { rows := (List.range (mmK d)).map fun k => t.codes f ((at' e).1 + k * mmBstride d) n
        scales := if groupSize f = 0 then [] else
          (List.range (mmK d / groupSize f)).map fun g => t.scales f ((at' e).2 + g * mmBsstride d) n }
    poisoned := subs.findSome? fun e => (firstPoison t (tileExtents d (at' e).1 (at' e).2)).map fun p => (p, e.s) }

/-- The load cycles of R61. -/
def loadCycles (f : Fmt) : Nat :=
  match f with
  | .fp32 => 256
  | .bf16 | .fp16 => 128
  | .e4m3 | .e5m2 | .int8 => 132
  | .q8x64 => 130
  | .q8x128 => 129
  | .e3m2 | .e2m3 => 100
  | _ => 136

/-! The sum -/

/-- A product under R81, as a value and its flags. -/
def product (a b : Val) : Val × Nat :=
  if isNan a || isNan b then (qNaN, sigFlag [a, b]) else let (e, f) := mulV a b; (exVal e, f)

/-- Pairs of operands cut into groups of `g`. -/
def groupsOf (g : Nat) : Nat → List (Val × Val) → List (List (Val × Val))
  | 0, _ => []
  | fuel + 1, ps => if ps.isEmpty then [] else ps.take g :: groupsOf g fuel (ps.drop g)

/-- One group's exact sum and its flags (R81). -/
def groupSum (ps : List (Val × Val)) : Val × Nat :=
  let ts := ps.map fun p => product p.1 p.2
  let (v, f) := sumV (ts.map (·.1))
  (if isNan v then qNaN else v, ts.foldl (fun a t => a ||| t.2) f)

/-- add_round over the groups of a row element; an empty group is skipped (R82, R86). -/
def foldGroups (acc : Nat) : List (List (Val × Val)) → Nat × Nat
  | [] => (acc, 0)
  | g :: gs =>
    if g.isEmpty then foldGroups acc gs
    else
      let (t, f1) := groupSum g
      let (a, f2) := addRound acc t
      let (r, f3) := foldGroups a gs
      (r, f1 ||| f2 ||| f3)

/-- element_16 of R82. -/
def element16 (acc : Nat) (ps : List (Val × Val)) (g : Nat) : Nat × Nat := foldGroups acc (groupsOf g (ps.length + 1) ps)

/-- A dyadic scale product applied to an exact group sum (R83). -/
def scaleVal2 (v : Val) (a b : Nat × Int) : Val :=
  match v with
  | .fin n m e => .fin n (m * a.1 * b.1) (e + a.2 + b.2)
  | v => v

/-- One scale group of R83. -/
def blockGroup (ps : List (Val × Val)) (sa sb : Option (Nat × Int)) : Val × Nat :=
  match sa, sb with
  | some a, some b =>
    if ps.any (fun p => isNan p.1 || isNan p.2) then (qNaN, 0)
    else if a.1 = 0 || b.1 = 0 then
      sumV (ps.map fun p => zeroV (negOf p.1 != negOf p.2))
    else
      let (v, f) := groupSum ps
      (scaleVal2 v a b, f)
  | _, _ => (qNaN, 0)

/-- element_block of R83: each group is (pairs, scale of A, scale of B). -/
def elementBlock (acc : Nat) : List (List (Val × Val) × Option (Nat × Int) × Option (Nat × Int)) → Nat × Nat
  | [] => (acc, 0)
  | (ps, sa, sb) :: gs =>
    let (t, f1) := blockGroup ps sa sb
    let (a, f2) := addRound acc t
    let (r, f3) := elementBlock a gs
    (r, f1 ||| f2 ||| f3)

/-- The split of R85 of a finite FP32 code: hi and lo as values. -/
def splitFp32 (x : Nat) : Val × Val :=
  let v := ieeeVal fp32 x
  let neg := negOf v
  let (h, _) := ieeeRound bf16 .rne false (exOf v)
  let h := if isInf (ieeeVal bf16 h) then 0x7F7F + (if neg then 0x8000 else 0) else h
  let hv := ieeeVal bf16 h
  let d := (addV false v (negV hv)).1
  if isZero d then (hv, zeroV neg)
  else (hv, ieeeVal bf16 (ieeeRound bf16 .rne false (exOf d)).1)

/-- Whether two finite values are equal. -/
def eqV (a b : Val) : Bool := isFin a && isFin b && cmpV a b == 0

/-- The NX of R87 for one pair of finite operands. -/
def splitFlag (passes x y : Nat) : Nat :=
  let vx := ieeeVal fp32 x
  let vy := ieeeVal fp32 y
  if !(isFin vx && isFin vy) then 0
  else
    let (hx, lx) := splitFp32 x
    let (hy, ly) := splitFp32 y
    let full := fun (v h l : Val) => eqV v (addV false h l).1
    let bad := match passes with
      | 1 => !eqV vx hx || !eqV vy hy
      | 2 => !full vx hx lx || !eqV vy hy
      | _ => !full vx hx lx || !full vy hy ly || (!isZero lx && !isZero ly)
    if bad then fNX else 0

/-- The term a pair contributes to a pass (R86): `none` where a special factor defers it to the last pass. -/
def passTerm (passes p x y : Nat) : Option (Val × Val) :=
  let vx := ieeeVal fp32 x
  let vy := ieeeVal fp32 y
  if !(isFin vx && isFin vy) then (if p + 1 = passes then some (vx, vy) else none)
  else
    let (hx, lx) := splitFp32 x
    let (hy, ly) := splitFp32 y
    match passes, p with
    | 2, 0 => some (lx, hy)
    | 3, 0 => some (lx, hy)
    | 3, 1 => some (hx, ly)
    | _, _ => some (hx, hy)

/-- The groups of one pass of a multi-pass row element. -/
def passGroups (passes p g : Nat) : Nat → List (Nat × Nat) → List (List (Val × Val))
  | 0, _ => []
  | fuel + 1, ps =>
    if ps.isEmpty then []
    else (ps.take g).filterMap (fun q => passTerm passes p q.1 q.2) :: passGroups passes p g fuel (ps.drop g)

/-- A multi-pass element: passes `from p` on, in order (R86, R87). -/
def elementPasses (acc : Nat) (ps : List (Nat × Nat)) (passes g : Nat) : List Nat → Nat × Nat
  | [] => (acc, 0)
  | p :: rest =>
    let (a, f1) := foldGroups acc (passGroups passes p g (ps.length + 1) ps)
    let (r, f2) := elementPasses a ps passes g rest
    (r, f1 ||| f2)

/-- One element of an instruction: the starting value, A's codes and scales of the row, B's of the column, over the passes
given. The NX of the split is that of all PASSES (log entry 195). -/
def mmElement (d acc : Nat) (ac asc bc bsc : List Nat) (passes : List Nat) : Nat × Nat :=
  let fa := fmtD (mmFmtA d)
  let fb := fmtD (mmFmtB d)
  match mmClass (mmFmtA d) (mmFmtB d) with
  | some .multi =>
    let ps := ac.zip bc
    let (r, f) := elementPasses acc ps (mmPasses d) (mmG d) passes
    (r, ps.foldl (fun a p => a ||| splitFlag (mmPasses d) p.1 p.2) f)
  | some .c16 =>
    element16 acc ((ac.zip bc).map fun p => (ieeeVal (ieeeOf fa) p.1, ieeeVal (ieeeOf fb) p.2)) (mmG d)
  | _ =>
    let s := groupSize fa
    elementBlock acc ((List.range (ac.length / s)).map fun g =>
      (((ac.drop (g * s)).take s).zip ((bc.drop (g * s)).take s) |>.map fun p => (eltVal fa p.1, eltVal fb p.2),
       scaleVal fa (asc.getD g 0), scaleVal fb (bsc.getD g 0)))

/-- −0 in AW48 (R77, R80). -/
def accNegZero : Nat := 0x800000000000

/-- The accumulator entry of a row and column. -/
def accKey (r c : Nat) : Nat := 512 * r + c

/-- The private state of an accumulation: the accumulators, their poison, the flags raised, whether a poisoned element was
read and where. -/
structure AccRun where
  acc : Tab Nat
  poison : Tab Bool
  flags : Nat := 0
  hit : Option Nat := none
deriving DecidableEq, Repr

/-- Accumulates row `i` of a sub-array over the passes given, each from its own store (R79, R80). A poisoned element that is read
stays poisoned (R78). -/
def accRow (t : Nat → Store) (d : Nat) (sub : SubTile) (e : SubOp) (passes : List Nat) (x : AccRun) (i : Nat) : AccRun :=
  let fa := fmtD (mmFmtA d)
  let k := mmK d
  let rows := passes.map fun p => ((t p).codes fa (e.aAddr + i * mmAstride d) k,
    if groupSize fa = 0 then [] else (t p).scales fa (e.aScale + i * mmAsstride d) (k / groupSize fa), p)
  (List.range (mmN d)).foldl (fun x j =>
    let key := accKey (e.accRow + i) (e.col0 + j)
    if !mmZero d && tabGet false x.poison key then { x with hit := x.hit.or (some key) }
    else
      let start := if mmZero d then accNegZero else tabGet accNegZero x.acc key
      let (r, f) := rows.foldl (fun y r =>
        let z := mmElement d y.1 r.1 r.2.1 (sub.rows.map fun row => row.getD j 0) (sub.scales.map fun row => row.getD j 0) [r.2.2]
        (z.1, y.2 ||| z.2)) (start, 0)
      { x with acc := tabSet accNegZero x.acc key r, poison := tabSet false x.poison key false, flags := x.flags ||| f }) x

/-- The poisoned block of A row `i` of a sub-array, if any (R68). -/
def aRowPoison (t : Store) (d : Nat) (e : SubOp) (i : Nat) : Option Nat :=
  let fa := fmtD (mmFmtA d)
  let k := mmK d
  firstPoison t ([(e.aAddr + i * mmAstride d, rowBytes fa k)] ++
    (if groupSize fa = 0 then [] else [(e.aScale + i * mmAsstride d, k / groupSize fa)]))

/-- The first row cycle with a poisoned A row, the lowest sub-array that meets it, and the block (R68); `t` is the store of a row
cycle. -/
def firstBadRow (t : Nat → Store) (d : Nat) (subs : List SubOp) : Option (Nat × Nat × Nat) :=
  (List.range (subs.foldl (fun a e => max a e.m) 0)).findSome? fun i =>
    subs.findSome? fun e => if i < e.m then (aRowPoison (t i) d e i).map fun p => (i, e.s, p) else none

/-- Row cycles of an instruction: max(M) over its sub-arrays (R64). -/
def rowCycles (subs : List SubOp) : Nat := subs.foldl (fun a e => max a e.m) 0

/-- The sweeps of an instruction over its rows (R73). -/
def sweeps (d : Nat) : Nat := if mmFmtA d = 0 then mmPasses d else 1

/-- The whole accumulation of an instruction, or, up to row cycle `stop`, pass 0 alone (R73, R94). `t` is the store that a row cycle,
counted over all sweeps, is read from. -/
def accumulate (t : Nat → Store) (d : Nat) (tab : List Nat) (tile : Tile) (stop : Option Nat) (x : AccRun) : AccRun :=
  let subs := subOps d tab
  let passes := if stop.isSome then [0] else List.range (sweeps d)
  subs.foldl (fun x e =>
    (List.range (min e.m (stop.getD e.m))).foldl
      (fun x i => accRow (fun p => t (p * rowCycles subs + i)) d (tile.subs.getD e.s {}) e passes x i) x) x

/-! The spill -/

/-- The distinct accumulator rows an instruction wrote, ascending (R69). -/
def rowsOf (subs : List SubOp) : List Nat :=
  (List.range 4096).filter fun r => subs.any fun e => decide (e.accRow ≤ r) && decide (r < e.accRow + e.m)

/-- The columns an instruction wrote in a row, ascending. -/
def colsOf (d : Nat) (subs : List SubOp) (r : Nat) : List Nat :=
  (List.range 512).filter fun c => subs.any fun e =>
    decide (e.accRow ≤ r) && decide (r < e.accRow + e.m) && decide (e.col0 ≤ c) && decide (c < e.col0 + mmN d)

/-- spill_element of R90: the new buffer value, the new accumulator value, the flags. -/
def spillElement (mode acc buf : Nat) : Nat × Nat × Nat :=
  let a := ieeeVal aw48 acc
  let b := ieeeVal fp64 buf
  let (v, f) := addV false a b
  let (s, g) := ieeeRound fp64 .rne false (exOf v)
  let fl := (f ||| g) &&& (fNV + fNX)
  if mode = 1 then (s, accNegZero, fl)
  else
    match ieeeVal fp64 s with
    | .nan .. => (s, ieeeQNaN aw48, fl)
    | .inf n => (s, ieeeInf aw48 n, fl)
    | w =>
      if cmpV (ieeeVal aw48 (ieeeMaxFin aw48 false)) (absV w) < 0 then (s, ieeeInf aw48 (negOf w), fl ||| fNX)
      else
        let (c, h) := ieeeRound aw48 .rne false (exOf w)
        (s, c, fl ||| (h &&& fNX))

/-- The private state of a spill. -/
structure SpillRun where
  als : Store
  acc : AccRun
  rows : Nat := 0
  /-- The poisoned buffer block that stopped it (R94). -/
  stop : Option Nat := none
deriving DecidableEq, Repr

/-- Spills one row (R90, R94): a poisoned buffer block of the row stops the spill before it. A poisoned accumulator element and its
buffer word stay as they are (log entry 159). -/
def spillRow (d : Nat) (subs : List SubOp) (lo : Nat) (x : SpillRun) (r : Nat) : SpillRun :=
  if x.stop.isSome then x
  else
    let cols := colsOf d subs r
    let at' := fun c => mmSpillAddr d + 4096 * (r - lo) + 8 * c
    match firstPoison x.als (cols.map fun c => (at' c, 8)) with
    | some p => { x with stop := some p }
    | none =>
      let x := cols.foldl (fun x c =>
        let key := accKey r c
        if tabGet false x.acc.poison key then { x with acc := { x.acc with hit := x.acc.hit.or (some key) } }
        else
          let (b, a, f) := spillElement (mmSpill d) (tabGet accNegZero x.acc.acc key) (leNat (x.als.read (at' c) 8))
          { x with
            als := x.als.write (at' c) (leBytes b 8)
            acc := { x.acc with acc := tabSet accNegZero x.acc.acc key a, flags := x.acc.flags ||| f } }) x
      { x with rows := x.rows + 1 }

/-- Spills the rows of an instruction from row `lo` of its distinct rows up to row `hi`. -/
def spillRows (d : Nat) (tab : List Nat) (lo hi : Nat) (x : SpillRun) : SpillRun :=
  let subs := subOps d tab
  (((rowsOf subs).take hi).drop lo).foldl (spillRow d subs (rowSpan subs).1) x

/-- Spills the rest of an instruction's rows. -/
def spillAll (d : Nat) (tab : List Nat) (x : SpillRun) : SpillRun := spillRows d tab x.rows 4096 x

/-- Multiply-accumulates of an instruction: per class, M × K × N per sub-array, multi-pass once per pass (R377). -/
def macCount (d : Nat) (tab : List Nat) : Nat :=
  (subOps d tab).foldl (fun a e => a + e.m * mmK d * mmN d) 0 * (if mmFmtA d = 0 then mmPasses d else 1)

/-- The context counter that counts an instruction's MACs (R377). -/
def macCounter (d : Nat) : Nat :=
  match mmClass (mmFmtA d) (mmFmtB d) with
  | some .c16 => 1
  | some .c8 => 2
  | some .c4 => 3
  | _ => 4

end Sys2Proof.Machine
end

