-- ==== Sys2Proof/Machine/Epilogue.lean ====
section
/-!
DEFINITION. The epilogue (R96–R109, R422): every stage of an element, the quantisation and storing of a tile row, and the
records that a tile leaves. It works row by row over the distinct accumulator rows of its instruction, on private state.
Rows of notes/assumptions: DEDUCED 49, 50; DESIGN CHOICE 51, 197, 210.
-/
namespace Sys2Proof.Machine

open Sys2Proof

/-- An unwritten rescale entry: M = 1.0 and SC = 1.0 (R101). -/
def rtOne : Nat := 0x3F8000003F800000

/-- The exact square of a finite value. -/
def squareV (y : Val) : Val :=
  match y with
  | .fin _ m e => .fin false (m * m) (2 * e)
  | v => v

/-- The larger of two finite magnitudes. -/
def maxMag (a y : Val) : Val := if cmpV a (absV y) < 0 then absV y else a

/-- Adds a value; infinities and NaNs take no part. -/
def Sums.add (t : Sums) (y : Val) : Sums :=
  if isFin y then
    { any := true, sum := (addV false t.sum y).1, sumsq := (addV false t.sumsq (squareV y)).1, amax := maxMag t.amax y }
  else t

/-- A sum rounded once to binary64; +0 with no finite value. -/
def Sums.code (t : Sums) (v : Val) : Nat := if t.any then (ieeeRound fp64 .rne false (exOf v)).1 else 0

/-- The private state of an epilogue: the ALS, the QNT flags, each sub-array's statistics, the first poisoned input. -/
structure EpiRun where
  als : Store
  flags : Nat := 0
  tiles : List TileStat := []
  hit : Option (Nat × Nat) := none
deriving DecidableEq, Repr

/-- What a tile's element is made from: accumulators, their poison, the rescale table, seed and step (R97, R111). -/
structure EpiIn where
  acc : Tab Nat
  poison : Tab Bool
  rescale : Tab Nat
  seed : Nat
  step : Nat
deriving DecidableEq, Repr

/-- Stage 1: the accumulator times the channel multiplier, rounded once to AW48 (R96, R97). -/
def mulRound (acc m : Nat) : Nat × Nat :=
  let (ex, f) := mulV (ieeeVal aw48 acc) (ieeeVal fp32 m)
  let (c, g) := ieeeRound aw48 .rne false ex
  (c, (f ||| g) &&& (fNV + fUF + fNX))

/-- Stages 1 to 4 (R96–R98): the FP32 value y and its flags. -/
def epilogueElement (acc m : Nat) (bias : Option Val) (act : Nat) : Nat × Nat :=
  let (t1, f1) := mulRound acc m
  let (t2, f2) := match bias with
    | none => (t1, 0)
    | some b => let (c, f) := addRound t1 b; (c, f ||| sigFlag [b])
  let (w, f3) := ieeeRound fp32 .rne false (exOf (ieeeVal aw48 t2))
  let (y, f4) := actFp32 act w
  (y, f1 ||| f2 ||| f3 ||| f4)

/-- The address of bias_s[j] (R422). -/
def biasAddr (d e : Nat) (x : SubOp) (j : Nat) : Nat :=
  let b := if epBiasBf16 e then 2 else 4
  fld e 0x1C 0 25 + x.outIndex * bandWidth (mmGang d) * b + j * b

/-- The canonical index of R100. -/
def epiIdx (e : Nat) (x : SubOp) (i j : Nat) : Nat :=
  ((fld e 0x30 0 32 + x.outIndex * fld e 0x34 0 16 + i) * fld e 0x3C 0 24 + fld e 0x38 0 24 + j) % 2 ^ 64

/-- One element of a tile row: the value on its way to the store with its flags, or the poisoned input that excludes it,
as ERR_ADDR gives it (R97, R422). An excluded element raises no flag (log entry 210). -/
def epiElem (t : Store) (g : EpiIn) (d e : Nat) (x : SubOp) (i j : Nat) : Except Nat (Elem × Nat) :=
  let r := x.accRow + i
  let c := x.col0 + j
  if tabGet false g.poison (accKey r c) then .error (r + 2 ^ 16 * c)
  else
    let ent := tabGet rtOne g.rescale ((fld e 0x20 0 16 + x.outIndex * fld e 0x20 16 16 + j) % 65536)
    let ba := biasAddr d e x j
    let bf := if epBiasBf16 e then bf16 else fp32
    let bn := if epBiasBf16 e then 2 else 4
    match if epBiasEn e then t.poisoned ba bn else none with
    | some p => .error p
    | none =>
      let bias := if epBiasEn e then some (ieeeVal bf (leNat (t.read ba bn))) else none
      let (y, f) := epilogueElement (tabGet accNegZero g.acc (accKey r c)) (ent % 2 ^ 32) bias (epAct e)
      let mode := if epSr e then
          RM.sr (srDraw g.seed g.step ((fld e 0x2C 0 32 + x.outIndex) % 2 ^ 32) (epiIdx e x i j))
        else RM.rne
      .ok (⟨ieeeVal fp32 y, 1, ieeeVal fp32 (ent / 2 ^ 32), mode⟩, f)

/-- A row of elements stored group by group: its groups in order. -/
def rowGroups (f : Fmt) (keep : Bool) : Nat → List (Option Elem) → List EncGroup
  | 0, _ => []
  | fuel + 1, els =>
    if els.isEmpty then []
    else
      let n := if groupSize f = 0 then els.length else groupSize f
      narrowGroup f keep (els.take n) :: rowGroups f keep fuel (els.drop n)

/-- The bytes of a packed row of codes. -/
def rowData (f : Fmt) (codes : List Nat) : List Byte := leBytes (packCodes (elemBits f) codes) (rowBytes f codes.length)

/-- Adds a stored row's groups to a tile: tally, saturation, underflow, misses (R52, R105). -/
def tallyRow (f : Fmt) (key : Nat) (els : List (Option Elem)) (gs : List EncGroup) (t : TileStat) : TileStat :=
  let n := if groupSize f = 0 then els.length else groupSize f
  let t := (List.range gs.length).foldl (fun t k =>
    let g := gs.getD k ⟨0, [], 0, .none, 0, 0⟩
    { t with
      sat := t.sat + g.sat
      ufl := t.ufl + g.ufl
      overs := t.overs + (if g.miss = .overs then 1 else 0)
      under := t.under + (if g.miss = .under then 1 else 0)
      missFirst := if g.miss = .none then t.missFirst
        else t.missFirst.or (some (key + k * n, if g.miss = .under then 1 else 0)) }) t
  (List.range els.length).foldl (fun t j =>
    match els.getD j none with
    | none => t
    | some e =>
      let g := gs.getD (j / max n 1) ⟨0, [], 0, .none, 0, 0⟩
      { t with tally := t.tally.add (key + j) (kindVal e.y) (kindStored f g.scale (g.codes.getD (j % max n 1) 0)) }) t

/-- Processes tile row `i` of a sub-array: stages 1 to 6, the stores and the statistics. Of several poisoned inputs
the first is recorded (log entry 197). -/
def epiTileRow (g : EpiIn) (d e : Nat) (x : SubOp) (pos : Nat) (s : EpiRun) (i : Nat) : EpiRun :=
  let n := mmN d
  let f := fmtD (epFmt e)
  let res := (List.range n).map fun j => epiElem s.als g d e x i j
  let els := res.map fun r => match r with | .ok p => some p.1 | .error _ => none
  let gs := rowGroups f false (n + 1) els
  let codes := gs.flatMap (·.codes)
  let fl := res.foldl (fun a r => match r with | .ok p => a ||| p.2 | .error _ => a) 0
  let fl := gs.foldl (fun a q => a ||| q.flags) fl
  let oa := fld e 4 0 25 + x.outIndex * fld e 0x14 0 25 + i * fld e 8 0 25
  let sa := fld e 0xC 0 25 + x.outIndex * fld e 0x18 0 25 + i * fld e 0x10 0 25
  let als := s.als.write oa (rowData f codes)
  let als := if groupSize f = 0 then als else als.write sa (leBytes (packCodes 8 (gs.map (·.scale))) gs.length)
  let bad := (List.range n).filter fun j => match res.getD j (.error 0) with | .ok _ => false | .error _ => true
  let als := bad.foldl (fun t j =>
    let lo := j * elemBits f / 8
    let hi := (j * elemBits f + elemBits f - 1) / 8
    let t := t.poisonRange (oa + lo) (hi - lo + 1)
    if groupSize f = 0 then t else t.setPoison (sa + j / groupSize f)) als
  let t := s.tiles.getD pos {}
  let t := tallyRow f (i * n) els gs t
  let t := { t with
    sums := els.foldl (fun a o => match o with | some v => a.add v.y | none => a) t.sums
    cols := (List.range n).map fun j =>
      let c := t.cols.getD j (zeroV false)
      match els.getD j none with
      | some v => if isFin v.y then maxMag c v.y else c
      | none => c
    dpart := if !epDigest e then 0 else
      (List.range n).foldl (fun a j => match els.getD j none with
        | none => a
        | some _ =>
          let sc := if groupSize f = 0 then 0 else (gs.getD (j / groupSize f) ⟨0, [], 0, .none, 0, 0⟩).scale
          (a + digestOf (epiIdx e x i j) (digestPattern f sc (codes.getD j 0))) % 2 ^ 64) t.dpart
    excluded := t.excluded || !bad.isEmpty }
  let hit := match res.findSome? (fun r => match r with | .ok _ => none | .error p => some p) with
    | some p => s.hit.or (some (x.s, p))
    | none => s.hit
  { als := als, flags := s.flags ||| fl, tiles := s.tiles.set pos t, hit := hit }

/-- A 16-bit count of groups; a count that does not fit has no stated result (R108, R128). -/
def cnt16 (n : Nat) : Nat := if n < 65536 then n else Config.missCount n

/-- The statistics record of a tile (R108). -/
def statRecord (d : Nat) (x : SubOp) (t : TileStat) : List Byte :=
  leBytes (pack [(0, 64, tileWord t.tally (mmN d)), (64, 32, (ieeeRound fp32 .rne false (exOf t.sums.amax)).1),
    (96, 16, mmTag d), (112, 4, x.s), (128, 32, min t.sat max32), (160, 32, min t.ufl max32),
    (192, 16, cnt16 t.overs), (208, 16, cnt16 t.under), (224, 13, x.m), (240, 10, mmN d),
    (256, 64, t.sums.code t.sums.sum), (320, 64, t.sums.code t.sums.sumsq), (384, 64, t.dpart)]) 64

/-- Writes a tile's statistics record and column amax vector, poisoned when an input was (R108, R109, R422). -/
def writeRecords (d e : Nat) (x : SubOp) (t : TileStat) (als : Store) : Store :=
  let nb := bandWidth (mmGang d)
  let put := fun (als : Store) (a : Nat) (data : List Byte) =>
    let als := als.write a data
    if t.excluded then als.poisonRange a data.length else als
  let als := if epStat e then put als (fld e 0x24 0 25 + 64 * x.s) (statRecord d x t) else als
  if epColAmax e then
    put als (fld e 0x28 0 25 + 4 * nb * x.s) (t.cols.flatMap fun c => leBytes (ieeeRound fp32 .rne false (exOf c)).1 4)
  else als

/-- An epilogue that goes on from where it has come, over the distinct accumulator rows of its instruction before row `hi` of them. -/
def epilogueRows (als : Store) (m : EpiMid) (g : EpiIn) (d e : Nat) (tab : List Nat) (hi : Nat) : EpiRun :=
  let subs := (subOps d tab).filter (·.m != 0)
  (((rowsOf subs).take hi).drop m.rows).foldl (fun s r =>
    (List.range subs.length).foldl (fun s pos =>
      match subs[pos]? with
      | some x => if x.accRow ≤ r && r < x.accRow + x.m then epiTileRow g d e x pos s (r - x.accRow) else s
      | none => s) s)
    { als := als, flags := m.flags, hit := m.hit, tiles := if m.rows = 0 then subs.map fun _ => {} else m.tiles }

/-- The rest of an epilogue, with the records of its tiles (R96, R108, R109). -/
def epilogueAll (als : Store) (m : EpiMid) (g : EpiIn) (d e : Nat) (tab : List Nat) : EpiRun :=
  let subs := (subOps d tab).filter (·.m != 0)
  let run := epilogueRows als m g d e tab 4096
  { run with als := (List.range subs.length).foldl (fun t pos =>
      match subs[pos]? with
      | some x => writeRecords d e x (run.tiles.getD pos {}) t
      | none => t) run.als }

end Sys2Proof.Machine
end

