-- ==== Sys2Proof/Machine/Matrix.lean ====
section
/-!
DEFINITION. A matrix array as it runs (R66–R78, R92, R101, R105, R106, R422): issue, tiles, ramps, accumulation, spill,
epilogue and completion, in the order the manual fixes. An event that the array's state does not admit changes nothing.
Rows of notes/assumptions: DEDUCED 37, 38, 45, 47, 48, 49, 57, 153; DESIGN CHOICE 8, 155, 157, 193, 194, 196, 213.
-/
namespace Sys2Proof.Machine

open Sys2Proof

/-- Status codes of R220. -/
def stOk : Nat := 0x00
def stFormat : Nat := 0x01
def stPrivilege : Nat := 0x02
def stAddress : Nat := 0x03
def stFetchFault : Nat := 0x04
def stTarget : Nat := 0x05
def stDisabledArray : Nat := 0x06
def stNotAssigned : Nat := 0x07
def stTimeout : Nat := 0x08
def stAborted : Nat := 0x09
def stInstructionError : Nat := 0x0A
def stPoisoned : Nat := 0x0B
def stScaleMiss : Nat := 0x0C
def stNmuFault : Nat := 0x0D
def stNonfiniteNorm : Nat := 0x0E
def stMirrorOrder : Nat := 0x0F
def stBindMismatch : Nat := 0x10
def stSequencerFault : Nat := 0x11
def stBlockReset : Nat := 0x12

/-- ERR_INFO code of poisoned data (R68, R131, R153, R422). -/
def ePoisoned : Nat := 0x10

/-- The context whose command runs on array island n. -/
def State.islandCtx (s : State) (n : Nat) : Nat := (s.seqOf n).ctx

/-- Counts the hazards of the extents that a unit reads (R137). -/
def noteHazards (s : State) (n src : Nat) (es : List (Nat × Nat)) : State :=
  es.foldl (fun s e => noteHazard s n src e.1 e.2) s

/-! Issue -/

/-- Reads the descriptor at an ALS address with its sub-array table and its epilogue descriptor, and makes the checks that
need no tile (R63, R66–R68, R99). A descriptor that the ALS does not hold whole is not read (log entry 155); where
the epilogue descriptor alone is poisoned, the index is 0 (log entry 194). -/
def readMm (t : Store) (addr seed step epoch : Nat) : MmInstr :=
  let d := leNat (t.read addr 64)
  let sub := fld d 0x10 0 25
  let n := gangCount (mmGang d)
  let tab := if mmSplit d then (List.range n).map fun k => leNat (t.read (sub + 32 * k) 32) else []
  let epi := if mmEpi d then leNat (t.read (mmEpiAddr d) 64) else 0
  let tag := mmTag d
  let fail : Option IssueFail :=
    if addr + 64 > alsSize then some ⟨stInstructionError, eAlsRange, 0, 0xFFFF, 0⟩ else
    match t.poisoned addr 64 with
    | some p => some ⟨stPoisoned, ePoisoned, p, 0xFFFF, 0⟩
    | none =>
      match if mmSplit d then ((List.range n).findSome? fun k => (t.poisoned (sub + 32 * k) 32).map fun p => (p, k)) else none with
      | some (p, k) => some ⟨stPoisoned, ePoisoned, p, tag, k⟩
      | none =>
        match if mmEpi d then t.poisoned (mmEpiAddr d) 64 else none with
        | some p => some ⟨stPoisoned, ePoisoned, p, tag, 0⟩
        | none =>
          match mmChecks addr d tab epi with
          | some (c, k) => some ⟨stInstructionError, c, 0, tag, k⟩
          | none =>
            if mmPasses d = 3 && (mmBsrc d = 1 || mmPreload d) then some ⟨stInstructionError, eNoTile, 0, tag, 0⟩
            else none
  { desc := d, tab := tab, epi := epi, fail := fail, seed := seed, step := step, epoch := epoch }

/-- Ends the array's part of the command: the status, the ARR record and ARR.ITAG_FAIL (R67, R68, R75). ERR_ADDR holds the
ALS address of poisoned data; of a failed check it has no content (log entry 157). -/
def arrFail (s : State) (n status code addr itag sub row : Nat) : State :=
  let a := s.arrOf n
  let s := if a.failHeld then s
    else s.setReg .arr n 0x10C (pack [(0, 16, itag), (16, 4, sub), (20, 12, row)])
  let s := s.setArr n { s.arrOf n with failHeld := true, wait := none,
                                       failed := a.failed.or (some ⟨status, code, itag⟩) }
  let addr := if status = stPoisoned then addr else Config.errAddr (blockCode .arr) code itag
  noteFailure (capture s .arr n { sev := sevFailed, ctx := some (s.islandCtx n), unit := sub, addr := addr, info := code }) n

/-- Whether an instruction's stationary tile is there: `none` while its preload is pending (R59, R60, R68). -/
def tileFor (a : Arr) (i : MmInstr) : Option (Except (Option (Nat × Nat)) Tile) :=
  let t := if mmBsrc i.desc = 1 then a.shadow else a.stat
  if mmBsrc i.desc = 1 && a.preload.isSome then none
  else if !t.valid || t.key != tileKey i.desc i.tab false then some (.error none)
  else match t.poisoned with
    | some p => some (.error (some p))
    | none => some (.ok t)

/-- The sub-array whose entry is the first that does not match a tile's key: 0 where a value shared by all differs (R60,
R67). -/
def firstMismatch (i : MmInstr) (key : List Nat) : Nat :=
  let want := tileKey i.desc i.tab false
  let subs := (subOps i.desc i.tab).map (·.s)
  if want.take 7 != key.take 7 then 0
  else (subs.find? fun k => (want.drop (7 + 2 * k)).take 2 != (key.drop (7 + 2 * k)).take 2).getD 0

/-- The failure of an instruction whose tile is missing or poisoned. -/
def tileFail (s : State) (n : Nat) (i : MmInstr) : Option (Nat × Nat) → State
  | none =>
    let t := if mmBsrc i.desc = 1 then (s.arrOf n).shadow else (s.arrOf n).stat
    arrFail s n stInstructionError eNoTile 0 (mmTag i.desc) (if t.valid then firstMismatch i t.key else 0) 0
  | some (p, k) => arrFail s n stPoisoned ePoisoned p (mmTag i.desc) k 0

/-- A tile stands in the stationary buffer. A three-pass tile takes both buffers, and what the shadow buffer held or was being
loaded with is lost (R61; log entry 193). -/
def takeTile (a : Arr) (i : MmInstr) (t : Tile) : Arr :=
  if mmPasses i.desc = 3 then { a with stat := t, shadow := {}, preload := none } else { a with stat := t }

/-- An instruction's first A row enters, on its tile: its preload begins (R74). An earlier preload still in progress is abandoned
(log entry 193). -/
def enterRows (a : Arr) (i : MmInstr) (t : Tile) : Arr :=
  let a := { takeTile a i t with loading := false }
  if mmPreload i.desc then { a with preload := some { i with lines := [] }, shadow := {} } else a

/-- Lets the waiting instruction begin where nothing executes (R66, R71): its failure takes effect, an exposed load starts,
or the array ramps up, while a preload that the instruction uses may still be in progress. While an exposed load fills the stationary
buffer, the previous tile stays valid there (log entry 193). -/
def kickArr (s : State) (n : Nat) : State :=
  let a := s.arrOf n
  match a.wait with
  | none => s
  | some i =>
    if a.failed.isSome || a.abort || a.exec.isSome || s.engineHeld (enArr n) then s
    else match i.fail with
      | some f => arrFail s n f.status f.code f.addr f.itag f.sub 0
      | none =>
        if mmBsrc i.desc = 0 then
          if a.state = .idle then unitBegin (s.setArr n { a with state := .load, exec := some i, wait := none }) (enArr n)
          else if a.state = .active then unitBegin (s.setArr n { a with loading := true, exec := some i, wait := none }) (enArr n)
          else s
        else match tileFor a i with
          | none =>
            if a.state = .idle then
              unitBegin (s.setArr n { a with state := .rampUp, ramp := s.rampLen n, exec := some i, wait := none }) (enArr n)
            else s
          | some (.error p) => if a.state = .idle || a.state = .active then tileFail s n i p else s
          | some (.ok t) =>
            if a.state = .idle then
              unitBegin (s.setArr n { a with
                state := .rampUp, ramp := s.rampLen n, exec := some i, wait := none, stat := t
                shadow := if mmBsrc i.desc = 1 then {} else a.shadow }) (enArr n)
            else s

/-- One move of an array whose panels are at rest: STOPPED without a context or a clock, HELD under a hold, IDLE otherwise
(R71). -/
def restMove (live held : Bool) : ArrState → ArrState
  | .stopped => if live then .idle else .stopped
  | .idle => if !live then .stopped else if held then .held else .idle
  | .held => if held then .held else .idle
  | st => st

/-- Follows the island's assignment, clock and hold while nothing runs (R71), and lets a waiting instruction begin. -/
def settleArr (s : State) (n : Nat) : State :=
  let a := s.arrOf n
  let move := restMove (s.arrAssigned n && (s.islOf n).enable) (s.unitHeld (enArr n))
  rampIfEmpty (kickArr (s.setArr n { a with state := move (move a.state) }) n) n

/-- What the array does once a unit of its work has ended: a failure reaches its sequencer, it goes on with what waits, or ramps
down (R71, R240). -/
def afterRows (s : State) (n : Nat) : State := rampIfEmpty (kickArr (noteFailure s n) n) n

/-- QNT.EPI_STATE.BARRIER follows the barrier (R114). -/
def showBarrier (s : State) (n : Nat) : State := s.setField .qnt n 0x124 17 1 (bit (s.arrOf n).barrier)

/-- Whether the array can take a further matrix instruction (R66, R106). -/
def mmRoom (a : Arr) : Bool := a.wait.isNone && !a.barrier

/-- What the array reads at issue (R66, R68): the descriptor, where the ALS holds it whole, and, where that is not poisoned, its table
and its epilogue descriptor. -/
def issueReads (t : Store) (addr : Nat) : List (Nat × Nat) :=
  let d := leNat (t.read addr 64)
  if addr + 64 > alsSize then [] else
  (addr, 64) :: (if (t.poisoned addr 64).isSome then []
    else (if mmSplit d then [(fld d 0x10 0 25, 32 * gangCount (mmGang d))] else []) ++
      (if mmEpi d then [(mmEpiAddr d, 64)] else []))

/-- Issues the matrix instruction at an ALS address (R66); the caller has checked `mmRoom`. -/
def issueMm (s : State) (n addr seed step : Nat) : State :=
  let s := noteHazards s n 1 (issueReads (s.alsOf n) addr)
  let a := s.arrOf n
  let i := readMm (s.alsOf n) addr seed step a.tldIssued
  let replay := i.fail.isNone && mmEpi i.desc && epReplay i.epi
  settleArr (showBarrier (s.setArr n { a with wait := some i, barrier := a.barrier || replay }) n) n

/-! The order of spills and epilogues -/

/-- Whether a stage has nothing left to do. -/
def Stage.overs : Stage → Bool
  | .none | .done => true
  | _ => false

/-- Starts the first waiting spill whose turn at the read port has come (R92), and shows it in ACC.SPILL. -/
def advancePost (s : State) (n : Nat) : State :=
  let a := s.arrOf n
  match a.post.findIdx? fun p => !p.spill.overs with
  | none => s
  | some k =>
    match a.post[k]? with
    | none => s
    | some p =>
      if p.spill = .waiting && (a.post.take k).all (fun q => q.epi != .waiting) then
        let s := s.setArr n { a with post := a.post.set k { p with spill := .running } }
        s.setReg .acc n 0x104 (pack [(0, 16, mmTag p.instr.desc), (29, 1, 1), (30, 1, mmSpill p.instr.desc / 2)])
      else s

/-- Rows that a later instruction may not yet write (R69, R92). -/
def rowsHeld (a : Arr) : List Nat :=
  a.post.flatMap fun p => if p.spill.overs && p.epi.overs then [] else rowsOf (subOps p.instr.desc p.instr.tab)

/-- The instruction whose accumulation ends next, with its tile, and the array without it (R73). -/
def nextAccumulated (a : Arr) : Option (MmInstr × Tile × Arr) :=
  match a.flow with
  | f :: fs => some (f.instr, f.tile, { a with flow := fs })
  | [] =>
    match a.exec with
    | some i => if a.state = .active && !a.loading then some (i, a.stat, { a with exec := none }) else none
    | none => none

/-- The ALS extents of the A rows that an instruction reads up to row cycle `stop`, in each sweep of its passes (R58, R73). -/
def aReads (d : Nat) (subs : List SubOp) (sweeps stop : Nat) : List (Nat × Nat) :=
  let fa := fmtD (mmFmtA d)
  (List.range sweeps).flatMap fun _ => subs.flatMap fun e => (List.range (min e.m stop)).flatMap fun r =>
    (e.aAddr + r * mmAstride d, rowBytes fa (mmK d)) ::
      (if groupSize fa = 0 then [] else [(e.aScale + r * mmAsstride d, mmK d / groupSize fa)])

/-- The store that a row cycle of an instruction is read from, and the one its load reads (R139). -/
def State.rowAls (s : State) (n : Nat) (i : MmInstr) (c : Nat) : Store := rowStore i.rows (s.alsOf n) c
def State.loadAls (s : State) (n : Nat) (i : MmInstr) : Store := linesStore i.lines (s.alsOf n)

/-- An accumulation stops at a poisoned A row (R68): the rows before row cycle `r` are written, and nothing that follows runs.
`a` is the array without the instruction. -/
def stopAccumulation (s : State) (n : Nat) (i : MmInstr) (tile : Tile) (a : Arr) (r k p : Nat) : State :=
  let x := accumulate (s.rowAls n i) i.desc i.tab tile (some r) { acc := a.acc, poison := a.accPoison }
  let s := s.setArr n { a with acc := x.acc, accPoison := x.poison, flags := a.flags ||| x.flags, exec := none, loading := false, flow := [] }
  let s := noteHazards s n 1 (aReads i.desc (subOps i.desc i.tab) 1 (r + 1))
  let s := countEvent s .arr n 0x10 (some (s.islandCtx n)) r
  afterRows (arrFail s n stPoisoned ePoisoned p (mmTag i.desc) k r) n

/-- An accumulation ends with all its rows written: its spill and its epilogue wait for their turns (R73). -/
def endAccumulation (s : State) (n : Nat) (i : MmInstr) (tile : Tile) (a : Arr) : State :=
  let subs := subOps i.desc i.tab
  let x := accumulate (s.rowAls n i) i.desc i.tab tile none { acc := a.acc, poison := a.accPoison }
  let p : MmPost := { instr := i
                      spill := if mmSpill i.desc = 0 || rowCycles subs = 0 then .none else .waiting
                      epi := if mmEpi i.desc then .waiting else .none }
  let s := s.setArr n { a with acc := x.acc, accPoison := x.poison, flags := a.flags ||| x.flags, post := a.post ++ [p]
                               failed := if x.hit.isSome then a.failed.or (some ⟨stPoisoned, 1, mmTag i.desc⟩) else a.failed
                               wait := if x.hit.isSome then none else a.wait }
  let s := noteHazards s n 1 (aReads i.desc subs (sweeps i.desc) (rowCycles subs))
  let s := countEvent s .arr n 0x10 (some (s.islandCtx n)) (rowCycles subs * sweeps i.desc)
  afterRows (advancePost s n) n

/-- MM_ACCUMULATION_END (R73): the last row of the oldest instruction in the pipeline is written. -/
def execMmAccumulationEnd (n : ArrayId) (s : State) : Out :=
  if s.alsBlocked n then .next s else
  let a := s.arrOf n
  match nextAccumulated a with
  | none => .next s
  | some (i, tile, a') =>
    let subs := subOps i.desc i.tab
    if (rowsOf subs).any fun r => (rowsHeld a).contains r then .next s
    else
      let s := if a.exec = some i && a.flow.isEmpty then unitEnd s (enArr n) else s
      match firstBadRow (s.rowAls n i) i.desc subs with
      | some (r, k, p) => .next (stopAccumulation s n i tile a' r k p)
      | none => .next (endAccumulation s n i tile a')

/-! Tiles -/

/-- The ALS extents of a whole B tile. -/
def tileReads (i : MmInstr) (nb : Bool) : List (Nat × Nat) :=
  (subOps i.desc i.tab).flatMap fun e =>
    tileExtents i.desc (if nb then e.nbAddr else e.bAddr) (if nb then e.nbScale else e.bScale)

/-- Whether the executing instruction can give way to the waiting one: its A rows have all entered unpoisoned, and it adds
no quiet debt (R68, R74, R343). -/
def mayFollow (s : State) (n : Nat) : Bool :=
  let a := s.arrOf n
  a.failed.isNone && !a.abort && !s.engineHeld (enArr n) && !a.loading &&
  match a.exec with
  | none => true
  | some e => (firstBadRow (s.rowAls n e) e.desc (subOps e.desc e.tab)).isNone && s.debtIfEnded (enArr n) == 0

/-- The waiting instruction takes the place of the executing one, on its tile (R74). -/
def follow (s : State) (n : Nat) (w : MmInstr) (t : Tile) : State :=
  let a := s.arrOf n
  let flow := match a.exec with
    | some e => a.flow ++ [⟨e, a.stat⟩]
    | none => a.flow
  let a := enterRows { a with flow := flow, exec := some w, wait := none,
                              shadow := if mmBsrc w.desc = 1 then {} else a.shadow } w t
  unitBegin (unitEnd (s.setArr n a) (enArr n)) (enArr n)

/-- B_TILE_LOAD_DONE (R61, R68, R71): the exposed load of the loading instruction, or, between instructions, of the
waiting one. -/
def execBTileLoadDone (n : ArrayId) (s : State) : Out :=
  if s.alsBlocked n then .next s else
  let a := s.arrOf n
  let load := fun (s : State) (i : MmInstr) =>
    countEvent (noteHazards s n 1 (tileReads i false)) .arr n 0x13 (some (s.islandCtx n)) (loadCycles (fmtD (mmFmtB i.desc)))
  match a.state, a.exec, a.wait with
  | .load, some i, _ =>
    let t := loadTile (s.loadAls n i) i.desc i.tab false
    let s := load s i
    match t.poisoned with
    | some (p, k) =>
      let s := unitEnd (s.setArr n { a with state := .idle, exec := none, stat := {} }) (enArr n)
      .next (settleArr (arrFail s n stPoisoned ePoisoned p (mmTag i.desc) k 0) n)
    | none => .next (s.setArr n { takeTile a i t with state := .rampUp, ramp := s.rampLen n })
  | .active, some e, w =>
    if a.loading then
      if mmBsrc e.desc ≠ 0 then .next s else
      let t := loadTile (s.loadAls n e) e.desc e.tab false
      let s := load s e
      match t.poisoned with
      | some (p, k) =>
        let s := unitEnd (s.setArr n { a with loading := false, exec := none, stat := {} }) (enArr n)
        .next (afterRows (arrFail s n stPoisoned ePoisoned p (mmTag e.desc) k 0) n)
      | none => .next (s.setArr n (enterRows a e t))
    else match w with
      | some i =>
        if mmBsrc i.desc = 0 && i.fail.isNone && mayFollow s n then
          let t := loadTile (s.loadAls n i) i.desc i.tab false
          let s := load s i
          match t.poisoned with
          | some (p, k) => .next (rampIfEmpty (arrFail s n stPoisoned ePoisoned p (mmTag i.desc) k 0) n)
          | none => .next (follow s n i t)
        else .next s
      | none => .next s
  | _, _, _ => .next s

/-- The executing instruction waits for the preload that it uses: its tile goes from the shadow to the stationary buffer, and its first
row enters if the panels are active; or it fails on it (R68, R71, R74). -/
def useShadow (s : State) (n : Nat) (i : MmInstr) : State :=
  let a := s.arrOf n
  match tileFor a i with
  | some (.ok t) =>
    s.setArr n (if a.loading then enterRows { a with shadow := {} } i t else { takeTile a i t with shadow := {} })
  | some (.error p) => tileFail (unitEnd (s.setArr n { a with exec := none, loading := false }) (enArr n)) n i p
  | none => s

/-- Whether the executing instruction waits for the preload in progress. -/
def waitsPreload (a : Arr) (i : MmInstr) : Bool := mmBsrc i.desc == 1 && (a.state == .rampUp || a.loading)

/-- PRELOAD_DONE (R68, R71, R74). -/
def execPreloadDone (n : ArrayId) (s : State) : Out :=
  if s.alsBlocked n then .next s else
  let a := s.arrOf n
  match a.preload with
  | none => .next s
  | some i =>
    let t := loadTile (s.loadAls n i) i.desc i.tab true
    let s := noteHazards s n 1 (tileReads i true)
    let s := s.setArr n { a with preload := none, shadow := t }
    match a.exec with
    | some e => .next (afterRows (if waitsPreload a e then useShadow s n e else s) n)
    | none => .next (afterRows s n)

/-- RAMP_UP_DONE (R70, R71): the first row enters, unless the preload that it needs is still in progress (R74). -/
def execRampUpDone (n : ArrayId) (s : State) : Out :=
  let a := s.arrOf n
  if a.state ≠ .rampUp then .next s
  else
    let s := countEvent s .arr n 0x12 (some (s.islandCtx n)) a.ramp
    match a.exec with
    | some i =>
      if mmBsrc i.desc = 1 && a.preload.isSome then .next (s.setArr n { a with state := .active, loading := true })
      else .next (s.setArr n (enterRows { a with state := .active } i a.stat))
    | none => .next (afterRows (s.setArr n { a with state := .active }) n)

/-- RAMP_DOWN_DONE (R70, R71). -/
def execRampDownDone (n : ArrayId) (s : State) : Out :=
  let a := s.arrOf n
  if a.state = .rampDown then
    let s := countEvent s .arr n 0x12 (some (s.islandCtx n)) a.ramp
    .next (settleArr (s.setArr n { a with state := .idle }) n)
  else .next s

/-- MM_FIRST_ROW (R74): a waiting preloaded or kept instruction follows its predecessor without a gap. -/
def execMmFirstRow (n : ArrayId) (s : State) : Out :=
  let a := s.arrOf n
  match a.state, a.wait with
  | .active, some w =>
    if mmBsrc w.desc = 0 || w.fail.isSome || !mayFollow s n then .next s
    else match tileFor a w with
      | some (.ok t) => .next (follow s n w t)
      | _ => .next s
  | _, _ => .next s

/-! Spill, epilogue and completion -/

/-- What the spill reads of its buffer for a row: a whole row of 4,096 B, and of the last row, with which the buffer ends, up to the
last column written (R90, R92; log entry 160). -/
def spillReads (d : Nat) (subs : List SubOp) (r : Nat) : Nat × Nat :=
  (mmSpillAddr d + 4096 * (r - (rowSpan subs).1),
    if some r = (rowsOf subs).getLast? then 8 * ((colsOf d subs r).getLast?.getD 0 + 1) else 4096)

/-- A running spill as far as it has come. -/
def spillFrom (s : State) (n : Nat) (p : MmPost) : SpillRun :=
  let a := s.arrOf n
  { als := s.alsOf n, acc := { acc := a.acc, poison := a.accPoison, hit := p.spillHit }, rows := p.spilled, stop := p.spillStop }

/-- SPILL_END (R90, R92, R94). Its reads are the array's (log entry 213). -/
def execSpillEnd (n : ArrayId) (s : State) : Out :=
  if s.alsBlocked n then .next s else
  let a := s.arrOf n
  match a.post.findIdx? fun p => p.spill == .running with
  | none => .next s
  | some k =>
    match a.post[k]? with
    | none => .next s
    | some p =>
      let d := p.instr.desc
      let x := spillAll d p.instr.tab (spillFrom s n p)
      let subs := subOps d p.instr.tab
      let s := noteHazards s n 1 (((rowsOf subs).take (x.rows + bit x.stop.isSome)).map (spillReads d subs))
      let s := s.setAls n x.als
      let s := s.setReg .acc n 0x104 (pack [(0, 16, mmTag d), (16, 13, x.rows), (30, 1, mmSpill d / 2)])
      let a := { a with acc := x.acc.acc, accPoison := x.acc.poison, flags := a.flags ||| x.acc.flags }
      match x.stop with
      | some addr =>
        let s := s.setArr n { a with post := a.post.eraseIdx k, wait := none,
                                     failed := a.failed.or (some ⟨stPoisoned, 2, mmTag d⟩) }
        .next (afterRows (advancePost (capture s .acc n { sev := sevFailed, ctx := some (s.islandCtx n), addr := addr, info := 2 + 256 * mmTag d }) n) n)
      | none =>
        let failed := if x.acc.hit.isSome then a.failed.or (some ⟨stPoisoned, 1, mmTag d⟩) else a.failed
        .next (afterRows (advancePost (s.setArr n { a with post := a.post.set k { p with spill := .done }, failed := failed
                                                           wait := if x.acc.hit.isSome then none else a.wait }) n) n)

/-- QNT.EPI_STATE (R114). -/
def showEpi (s : State) (n tag : Nat) (active barrier : Bool) : State :=
  s.setReg .qnt n 0x124 (pack [(0, 16, tag), (16, 1, bit active), (17, 1, bit barrier)])

/-- EPILOGUE_START (R69, R101, R113): the first waiting epilogue, with nothing of an earlier instruction left to read. -/
def execEpilogueStart (n : ArrayId) (s : State) : Out :=
  let a := s.arrOf n
  match a.post.findIdx? fun p => p.epi == .waiting with
  | none => .next s
  | some k =>
    match a.post[k]? with
    | none => .next s
    | some p =>
      let table := match a.tableLoad with
        | some l => decide (l.epoch ≤ p.instr.epoch)
        | none => false
      if p.spill.overs && (a.post.take k).all (fun q => q.spill.overs && q.epi.overs) && !table then
        let s := s.setArr n { a with post := a.post.set k { p with epi := .running } }
        .next (advancePost (showEpi s n (mmTag p.instr.desc) true a.barrier) n)
      else .next s

/-- Shows a tile's counts and flag word in the QNT page and in the context's counters (R53, R105, R114). -/
def showTile (n : Nat) (d : Nat) (s : State) (x : SubOp × TileStat) : State :=
  let t := x.2
  let nn := mmN d
  let s := s.bump .qnt n 0x114 t.sat
  let s := s.bump .qnt n 0x118 t.ufl
  let s := s.bump .qnt n 0x11C (t.overs + t.under)
  let s := match t.missFirst with
    | none => s
    | some (key, kind) =>
      if (s.reg .qnt n 0x10C).testBit 20 then s
      else (s.setReg .qnt n 0x10C (pack [(0, 16, mmTag d), (16, 4, x.1.s), (20, 1, 1), (21, 1, kind)])).setReg .qnt n 0x110
        (pack [(0, 12, key / nn), (16, 9, key % nn)])
  let s := ctxCount s (s.islandCtx n) 12 (t.overs + t.under)
  if t.tally.count = 0 then s
  else
    let w := tileWord t.tally nn
    let s := if (s.reg .qnt n 0x100).testBit 0 then s
      else (s.setReg .qnt n 0x100 (w % 2 ^ 32)).setReg .qnt n 0x104 (w / 2 ^ 32)
    ctxCount s (s.islandCtx n) 13 1

/-- EPILOGUE_END (R96–R109, R113, R422). -/
def execEpilogueEnd (n : ArrayId) (s : State) : Out :=
  if s.alsBlocked n then .next s else
  let a := s.arrOf n
  match a.post.findIdx? fun p => p.epi == .running with
  | none => .next s
  | some k =>
    match a.post[k]? with
    | none => .next s
    | some p =>
      let d := p.instr.desc
      let e := p.instr.epi
      let x := epilogueAll (s.alsOf n) p.epiMid ⟨a.acc, a.accPoison, a.rescale, p.instr.seed, p.instr.step⟩ d e p.instr.tab
      let subs := (subOps d p.instr.tab).filter (·.m != 0)
      let misses := x.tiles.any fun t => decide (t.overs + t.under > 0)
      let tf := if x.tiles.any fun t => decide (t.tally.count > 0) then fTF else 0
      let bad : Option EndStatus :=
        if x.hit.isSome then some ⟨stPoisoned, ePoisoned, mmTag d⟩
        else if epReplay e && misses then some ⟨stScaleMiss, 0, mmTag d⟩
        else none
      let barrier := a.barrier && !epReplay e
      let s := s.setAls n x.als
      let s := s.setArr n { a with post := a.post.set k { p with epi := .done, bad := bad }
                                   qflags := a.qflags ||| x.flags ||| tf
                                   barrier := barrier
                                   wait := if bad.isSome then none else a.wait
                                   failed := a.failed.or bad }
      let s := if epBiasEn e then
          noteHazards s n 2 (subs.map fun b => (biasAddr d e b 0, mmN d * (if epBiasBf16 e then 2 else 4)))
        else s
      let s := (subs.zip x.tiles).foldl (showTile n d) s
      let s := match x.hit with
        | some (sub, addr) => capture s .qnt n { sev := sevFailed, ctx := some (s.islandCtx n), unit := sub, addr := addr, info := ePoisoned + 256 * mmTag d }
        | none => s
      .next (afterRows (advancePost (showEpi s n (mmTag d) false barrier) n) n)

/-- MM_INSTRUCTION_COMPLETE (R73): the oldest accumulated instruction, once its spill and its epilogue have ended. -/
def execMmInstructionComplete (n : ArrayId) (s : State) : Out :=
  let a := s.arrOf n
  match a.post with
  | [] => .next s
  | p :: ps =>
    if p.spill.overs && p.epi.overs then
      let s := s.setArr n { a with post := ps }
      let s := s.setReg .arr n 0x108 (mmTag p.instr.desc)
      let q := s.seqOf n
      let s := s.setSeq n { q with mdone := (q.mdone + 1) % 2 ^ 32 }
      .next (ctxCount s (s.islandCtx n) (macCounter p.instr.desc) (macCount p.instr.desc p.instr.tab))
    else .next s

/-! Errors, the rescale table, the command boundary -/

/-- ACC_ECC_ERROR (R78, R95): a corrected error is counted, an uncorrectable one poisons the element and is recorded once,
with the tag of the instruction that read it, 0 for a save. -/
def execAccEccError (n : ArrayId) (row : Fin 4096) (col : Fin 512) (uncorrectable : Bool) (tag : Fin 65536) (s : State) : Out :=
  let a := s.arrOf n
  if s.pins.inReset then .next s
  else if !uncorrectable then
    .next (s.bump .acc n 0x110 1)
  else if tabGet false a.accPoison (accKey row col) then .next s
  else
    let s := s.setArr n { a with accPoison := tabSet false a.accPoison (accKey row col) true }
    .next (capture s .acc n { sev := sevFailed, ctx := some (s.islandCtx n), addr := row + 2 ^ 16 * col, info := 1 + 256 * tag })

/-- Issues a table load (R237); the caller has checked that none is in progress and that the count is in range. The
address is taken as it stands (log entry 196). -/
def issueTld (s : State) (n addr first count : Nat) : State :=
  let a := s.arrOf n
  let s := s.setArr n { a with tldIssued := a.tldIssued + 1, tableLoad := some { addr := addr, first := first, count := count, epoch := a.tldIssued + 1 } }
  s.setReg .qnt n 0x120 (2 ^ 17)

/-- Whether an epilogue of an instruction issued before a table load has entries still to read (R101). A waiting instruction
that an abort or a failure keeps from executing has none. -/
def epiBefore (a : Arr) (epoch : Nat) : Bool :=
  let old := fun (i : MmInstr) => mmEpi i.desc && i.fail.isNone && decide (i.epoch < epoch)
  a.exec.any old || (a.failed.isNone && !a.abort && a.wait.any old) || a.flow.any (fun f => old f.instr) ||
    a.post.any fun p => old p.instr && !p.epi.overs

/-- TABLE_LOAD_DONE (R101): entries are written in ascending order and TDONE counts the load. A poisoned source ends the
command as poisoned data does; an array that has failed still takes its load (log entries 48, 196). Its hazards are those of the vector engine (log entry 213). -/
def execTableLoadDone (n : ArrayId) (s : State) : Out :=
  if s.alsBlocked n then .next s else
  let a := s.arrOf n
  match a.tableLoad with
  | none => .next s
  | some l =>
    if epiBefore a l.epoch then .next s
    else
      let t := linesStore l.lines (s.alsOf n)
      let entries := (List.range l.count).map fun k => leNat (t.read (l.addr + 8 * k) 8)
      let bad := t.poisoned l.addr (8 * l.count)
      let s := noteHazard s n 3 l.addr (match bad with
        | some p => min (8 * l.count) (p / 64 * 64 + 64 - l.addr)
        | none => 8 * l.count)
      let good := match bad with
        | some p => (p - l.addr) / 8
        | none => l.count
      let s := s.setArr n { a with tableLoad := none, rescale := tabFill rtOne a.rescale l.first (entries.take good) }
      let s := s.setReg .qnt n 0x120 good
      match bad with
      | some p =>
        let s := s.setArr n { s.arrOf n with failed := a.failed.or (some ⟨stPoisoned, ePoisoned, 0⟩) }
        .next (afterRows (capture s .qnt n { sev := sevFailed, ctx := some (s.islandCtx n), addr := p, info := ePoisoned }) n)
      | none =>
        let q := s.seqOf n
        .next (s.setSeq n { q with tdone := (q.tdone + 1) % 2 ^ 32 })

/-- Whether everything issued to the array has ended (R240). -/
def arrQuiet (a : Arr) : Bool :=
  a.exec.isNone && (a.wait.isNone || a.abort || a.failed.isSome) && a.flow.isEmpty && a.post.isEmpty && a.tableLoad.isNone

/-- A command boundary (R60): both buffers become invalid and nothing of the command is left. -/
def arrBoundary (s : State) (n : Nat) : State :=
  showBarrier (s.setArr n { s.arrOf n with stat := {}, shadow := {}, preload := none, wait := none, failed := none, barrier := false, abort := false }) n

/-! What a scrub finds (R139) -/

/-- What an instruction whose A rows are being read has read of them where a scrub finds it: all, or a number of row cycles that nothing
constrains. -/
def sawRows (als : Store) (draw : Nat) (all : Bool) (i : MmInstr) : MmInstr :=
  let m := rowCycles (subOps i.desc i.tab) * sweeps i.desc
  { i with rows := i.rows ++ [⟨als, if all then m else Config.rowsDone draw % (m + 1)⟩] }

/-- What a load has read. -/
def sawLines (als : Store) (draw : Nat) (i : MmInstr) : MmInstr := { i with lines := i.lines ++ [⟨als, draw⟩] }

/-- A spill that runs has spilled a number of further rows where a scrub finds it. -/
def reachSpill (s : State) (n k : Nat) (p : MmPost) : State :=
  let a := s.arrOf n
  let d := p.instr.desc
  let x := spillFrom s n p
  let hi := p.spilled + Config.rowsDone s.draws % ((rowsOf (subOps d p.instr.tab)).length - p.spilled + 1)
  let x := spillRows d p.instr.tab p.spilled hi x
  { (s.setAls n x.als).setArr n { a with
      acc := x.acc.acc, accPoison := x.acc.poison, flags := a.flags ||| x.acc.flags
      post := a.post.set k { p with spilled := x.rows, spillStop := x.stop, spillHit := x.acc.hit } } with draws := s.draws + 1 }

/-- An epilogue that runs has stored a number of further rows. -/
def reachEpilogue (s : State) (n k : Nat) (p : MmPost) : State :=
  let a := s.arrOf n
  let d := p.instr.desc
  let rows := (rowsOf (subOps d p.instr.tab)).length
  let hi := p.epiMid.rows + Config.rowsDone s.draws % (rows - p.epiMid.rows + 1)
  let x := epilogueRows (s.alsOf n) p.epiMid ⟨a.acc, a.accPoison, a.rescale, p.instr.seed, p.instr.step⟩ d p.instr.epi p.instr.tab hi
  { (s.setAls n x.als).setArr n { a with
      post := a.post.set k { p with epiMid := { rows := hi, flags := x.flags, tiles := x.tiles, hit := x.hit } } } with draws := s.draws + 1 }

/-- The array's work in progress where a scrub finds it: what has been served by then has met the old contents (R139). Rows whose read
and write a spill or an epilogue has made stand on one side of the scrub. -/
def reachArr (s : State) (n : Nat) : State :=
  let s := (List.range (s.arrOf n).post.length).foldl (fun s k =>
    match (s.arrOf n).post[k]? with
    | some p => if p.spill = .running then reachSpill s n k p else if p.epi = .running then reachEpilogue s n k p else s
    | none => s) s
  let a := s.arrOf n
  let als := s.alsOf n
  let d := s.draws
  let enters := a.state == .active && !a.loading
  let begun := fun (l : TableLoad) => !epiBefore a l.epoch
  { s.setArr n { a with
      exec := a.exec.map fun i => if enters then sawRows als d false i else sawLines als d i
      wait := a.wait.map fun i => if enters then sawLines als (d + 1) i else i
      flow := a.flow.map fun f => { f with instr := sawRows als d true f.instr }
      preload := a.preload.map (sawLines als (d + 2))
      tableLoad := a.tableLoad.map fun l => if begun l then { l with lines := l.lines ++ [⟨als, d + 3⟩] } else l } with draws := d + 4 }

end Sys2Proof.Machine
end

