-- ==== Sys2Proof/Machine/VecArith.lean ====
section
/-!
DEFINITION. What a vector instruction says and computes (R118–R131): its descriptor and checks, its operands, every
operation, the stores in row and column groups, TOPK, DFIN and the statistics record, on private state.
Rows of notes/assumptions: DEDUCED 52, 53, 54, 55; DESIGN CHOICE 158, 161, 198.
-/
namespace Sys2Proof.Machine

open Sys2Proof

/-! Fields of the descriptor of R118 -/

def vOp (d : Nat) : Nat := fld d 0 0 8
def vIn (d : Nat) : Nat := fld d 0 8 5
def vOut (d : Nat) : Nat := fld d 0 13 5
def vRmode (d : Nat) : Nat := fld d 0 18 3
def vFast (d : Nat) : Bool := flag d 0 21
def vSr (d : Nat) : Bool := flag d 0 22
def vStat (d : Nat) : Bool := flag d 0 23
def vDigest (d : Nat) : Bool := flag d 0 24
def vImm (d : Nat) : Bool := flag d 0 25
def vFunc (d : Nat) : Nat := fld d 0 26 5
def vRows (d : Nat) : Nat := fld d 4 0 13
def vLen (d : Nat) : Nat := fld d 8 0 17
def vTag (d : Nat) : Nat := fld d 0xC 0 16
def vK (d : Nat) : Nat := fld d 0xC 16 4
def vNorm (d : Nat) : Bool := flag d 0xC 20
def vDsrc (d : Nat) : Bool := flag d 0xC 21
def vCgrp (d : Nat) : Bool := flag d 0xC 22
def vSrc (d k : Nat) : Nat := fld d (0x10 + 8 * k) 0 25
def vSrcStride (d k : Nat) : Nat := fld d (0x14 + 8 * k) 0 25
def vDst (d : Nat) : Nat := fld d 0x28 0 25
def vDstStride (d : Nat) : Nat := fld d 0x2C 0 25
def vSrcScale (d : Nat) : Nat := fld d 0x30 0 25
def vDstScale (d : Nat) : Nat := fld d 0x34 0 25
def vStatAddr (d : Nat) : Nat := fld d 0x38 0 25
def vStream (d : Nat) : Nat := fld d 0x3C 0 32
def vImmVal (d : Nat) : Nat := fld d 0x40 0 64
def vLcol (d : Nat) : Nat := fld d 0x4C 0 24
def vLcols (d : Nat) : Nat := fld d 0x50 0 24
def vTensor (d : Nat) : Nat := fld d 0x58 0 64

/-- The canonical index of element (i, j) (R118). -/
def vIdx (d i j : Nat) : Nat := ((fld d 0x48 0 32 + i) * vLcols d + vLcol d + j) % 2 ^ 64

/-- Strict FP64: an FP64 format names the FP64 lanes (R119). -/
def vFp64 (d : Nat) : Bool := vIn d == 3 || vOut d == 3

/-- The kinds of operation of R119. -/
inductive VKind where
  | ew | row | topk | dfin
deriving DecidableEq, Repr

/-- The number of sources and the kind of an operation code; `none` for a reserved code (R119). -/
def vOpInfo (op : Nat) : Option (Nat × VKind) :=
  if op = 4 then some (3, .ew)
  else if op = 6 || op = 0xA || op = 0x10 then some (1, .ew)
  else if 1 ≤ op && op ≤ 9 then some (2, .ew)
  else if op = 0x18 || op = 0x19 || op = 0x1A then some (1, .row)
  else if op = 0x20 then some (1, .topk)
  else if op = 0x28 then some (1, .dfin)
  else none

/-- A scale row's stride for rows of `len` elements (R118). -/
def vScaleStride (f : Fmt) (len : Nat) : Nat := ceilDiv (len / max (groupSize f) 1 * scaleBytes f) 64 * 64

/-- A column-group band's stride for `cols` columns (R118, R119). -/
def vBandStride (f : Fmt) (cols : Nat) : Nat := ceilDiv (cols * scaleBytes f) 64 * 64

/-- Reserved bits of the descriptor (R118, R119, R121, R131). -/
def vReserved (d : Nat) : Bool :=
  let fp64 := vFp64 d
  let info := vOpInfo (vOp d)
  let kind := (info.map (·.2)).getD .ew
  let cgrpOk := match fmtOf (vOut d) with
    | some f => isBlock f
    | none => false
  flag d 0 31 || fld d 4 13 19 != 0 || fld d 8 17 15 != 0 || fld d 0xC 23 9 != 0 ||
  ((List.range 11).any fun k => fld d (0x10 + 4 * k) 25 7 != 0) || fld d 0x4C 24 8 != 0 || fld d 0x50 24 8 != 0 ||
  fld d 0x54 0 32 != 0 || fld d 0x60 0 256 != 0 ||
  info.isNone || decide (vRmode d > 4) || (vRmode d != 0 && !fp64) || (vSr d && fp64) ||
  (vOp d == 0x10 && decide (vFunc d > 0xE)) || (vOp d == 9 && decide (vFunc d > 3)) ||
  (vDigest d && !vStat d && kind != .dfin) || (vCgrp d && !cgrpOk) ||
  (kind == .dfin && (vIn d != 0 || vOut d != 0))

/-- Whether the formats are not allowed (R48, R119, R121, R131). -/
def vFormatBad (d : Nat) (nsrc : Nat) (kind : VKind) : Bool :=
  match kind with
  | .dfin => false
  | _ =>
    match fmtOf (vIn d), fmtOf (vOut d) with
    | some fi, some fo =>
      let bi := groupSize fi != 0
      let bo := groupSize fo != 0
      fi == .aw48 || fo == .aw48 || isLedger fo || (vFp64 d && (bi || bo)) || (bi && decide (nsrc > 1)) ||
      (vOp d == 0x10 && vFp64 d) || (kind == .row && bo && !vCgrp d) ||
      (kind == .topk && ((fi != .fp32 && fi != .bf16) || fo != .fp32))
    | _, _ => true

/-- The shape rules of R131. -/
def vShapeBad (d : Nat) (kind : VKind) (fi fo : Fmt) : Bool :=
  let rows := vRows d
  let len := vLen d
  let gi := max (groupSize fi) 1
  let go := max (groupSize fo) 1
  rows == 0 || decide (rows > 4096) || len == 0 || decide (len > (if kind = .topk then 4096 else 65536)) ||
  (kind == .dfin && rows != 1) ||
  (kind != .dfin && (len % gi != 0 || (vCgrp d && rows % go != 0) || (!vCgrp d && len % go != 0) ||
    decide (vLcol d + len > vLcols d))) ||
  (kind == .topk && (vK d == 0 || decide (vK d > 8) || decide (vK d > len)))

/-- Bases with their alignments, strides, and ends of the extents of an instruction (R131). -/
def vExtents (d nsrc : Nat) (kind : VKind) (fi fo : Fmt) : List Nat × List Nat :=
  let rows := vRows d
  let len := vLen d
  let st := if vStat d then ([vStatAddr d + 64], [vStatAddr d % 64]) else ([], [])
  let body : List Nat × List Nat :=
    match kind with
    | .dfin =>
      if vDsrc d then ([vSrc d 0 + 8 * len, vDst d + 8], [vSrc d 0 % 8, vDst d % 8])
      else ([extentEnd (vSrc d 0) len (vSrcStride d 0) 64, vDst d + 8], [vSrc d 0 % 64, vSrcStride d 0 % 64, vDst d % 8])
    | _ =>
      let srcs := (List.range nsrc).filter fun k => !(k == 1 && vImm d)
      let sEnds := srcs.map fun k => extentEnd (vSrc d k) rows (vSrcStride d k) (rowBytes fi len)
      let sAl := srcs.flatMap fun k => [vSrc d k % 512, vSrcStride d k % 64]
      let (gEnds, gAl) := if groupSize fi = 0 then ([], []) else
        ([extentEnd (vSrcScale d) rows (vScaleStride fi len) (len / groupSize fi * scaleBytes fi)], [vSrcScale d % 64])
      let cols := if kind = .row then 1 else len
      let (dEnds, dAl) := if kind = .topk then ([extentEnd (vDst d) rows (vDstStride d) 64], [vDst d % 64, vDstStride d % 64])
        else ([extentEnd (vDst d) rows (vDstStride d) (rowBytes fo cols)], [vDst d % 512, vDstStride d % 64])
      let (hEnds, hAl) := if groupSize fo = 0 then ([], [])
        else if vCgrp d then
          ([extentEnd (vDstScale d) (rows / groupSize fo) (vBandStride fo cols) (cols * scaleBytes fo)], [vDstScale d % 64])
        else ([extentEnd (vDstScale d) rows (vScaleStride fo len) (len / groupSize fo * scaleBytes fo)], [vDstScale d % 64])
      (sEnds ++ gEnds ++ dEnds ++ hEnds, sAl ++ gAl ++ dAl ++ hAl)
  (st.1 ++ body.1, st.2 ++ body.2)

/-- The first failing check of R131. -/
def vecChecks (addr d : Nat) : Option Nat :=
  let (nsrc, kind) := (vOpInfo (vOp d)).getD (1, .ew)
  if vReserved d then some eReserved
  else if vFormatBad d nsrc kind then some eFormat
  else
    let fi := if kind = .dfin then Fmt.fp32 else fmtD (vIn d)
    let fo := if kind = .dfin then Fmt.fp32 else fmtD (vOut d)
    if vShapeBad d kind fi fo then some eShape
    else
      let (ends, als) := vExtents d nsrc kind fi fo
      if ends.any beyond || beyond (addr + 128) then some eAlsRange
      else if als.any (· != 0) || addr % 128 != 0 then some eAlign
      else none

/-! Operations -/

/-- The rounding attributes of RMODE (R121). -/
def vRound (d : Nat) : RM :=
  match vRmode d with
  | 0 => .rne
  | 1 => .rna
  | 2 => .rup
  | 3 => .rdn
  | _ => .rtz

/-- An exact result as a value over a divisor. -/
def exElem (ex : Ex) : Val × Nat :=
  match ex with
  | .nan n p => (.nan false n p, 1)
  | .inf n => (.inf n, 1)
  | .fin n num den e => (.fin n num e, den)

/-- compareQuiet under the predicate of CMP (R119, R33). -/
def cmpHolds (p : Nat) (a b : Val) : Bool :=
  if isNan a || isNan b then p == 3
  else match p with
    | 0 => cmpV a b == 0
    | 1 => decide (cmpV a b < 0)
    | 2 => decide (cmpV a b ≤ 0)
    | _ => false

/-- One element of an elementwise operation: the exact result over its divisor, and the flags (R119). -/
def vecElem (d : Nat) (a b c : Val) : (Val × Nat) × Nat :=
  let down := decide (vFp64 d && vRmode d == 3)
  let two := fun (r : Ex × Nat) => (exElem r.1, r.2)
  match vOp d with
  | 1 => let (v, f) := addV down a b; ((v, 1), f)
  | 2 => if isNan a || isNan b then (exElem (firstNaN [a, b]), sigFlag [a, b])
         else let (v, f) := addV down a (negV b); ((v, 1), f)
  | 3 => two (mulV a b)
  | 4 => let (v, f) := fmaV down a b c; ((v, 1), f)
  | 5 => two (divV a b)
  | 6 => two (sqrtV a)
  | 7 => let (v, f) := minmaxV false a b; ((v, 1), f)
  | 8 => let (v, f) := minmaxV true a b; ((v, 1), f)
  | 9 => ((if cmpHolds (vFunc d) a b then oneV else zeroV false, 1), sigFlag [a, b])
  | 0x10 =>
    match funcOf (vFunc d) with
    | some g => let (w, f) := funcFp32 g (vFast d) true a; ((ieeeVal fp32 w, 1), f)
    | none => ((a, 1), 0)
  | _ => if isNan a then (exElem (firstNaN [a]), sigFlag [a]) else ((a, 1), 0)

/-- The exact value of a row reduction and its flags (R119, R120). -/
def vecReduce (d : Nat) (vs : List Val) : Val × Nat :=
  match vOp d with
  | 0x18 => sumV vs
  | 0x19 =>
    match vs with
    | [] => (zeroV false, 0)
    | v :: rest => rest.foldl (fun a x => let (m, f) := minmaxV true a.1 x; (m, a.2 ||| f))
        (if isNan v then exVal (firstNaN [v]) else v, sigFlag [v])
  | _ => let (v, f) := sumV (vs.map fun v => if isFin v then squareV v else match v with | .inf _ => .inf false | w => w)
         (v, f)

/-- The working format (R119). -/
def vWork (d : Nat) : Ieee := if vFp64 d then fp64 else fp32

/-- The working-format result of R128, formed without flags. -/
def workVal (d : Nat) (r : Val × Nat) : Val :=
  let ex := match r.1 with
    | .fin n m e => Ex.fin n m r.2 e
    | v => exOf v
  ieeeVal (vWork d) (ieeeRound (vWork d) (if vFp64 d then vRound d else .rne) true ex).1

/-- How a result rounds on its way to the store (R112, R118, R121). -/
def storeMode (d seed step i j : Nat) : RM :=
  if vFp64 d then vRound d
  else if vSr d && vOut d != 0 then .sr (srDraw seed step (vStream d) (vIdx d i j))
  else .rne

/-- The private state of a vector instruction. -/
structure VecRun where
  als : Store
  flags : Nat := 0
  stat : TileStat := {}
  /-- Rows of a column-group band that is not complete. -/
  band : List (List VRes) := []
  stored : Nat := 0
  nanRows : Nat := 0
  digest : Option Nat := none
  /-- The source row and ALS block of the poison that stopped it (R131). -/
  stop : Option (Nat × Nat) := none
deriving DecidableEq, Repr

/-- The ALS extents that a source row lies in. -/
def srcExtents (d k i : Nat) : List (Nat × Nat) :=
  let f := fmtD (vIn d)
  [(vSrc d k + i * vSrcStride d k, rowBytes f (vLen d))] ++
  (if groupSize f = 0 then [] else
    [(vSrcScale d + i * vScaleStride f (vLen d), vLen d / groupSize f * scaleBytes f)])

/-- A source row widened to the working format, with its flags (R119). IMM is in the working format (log entry 161). -/
def loadSource (t : Store) (d k i : Nat) : List Val × Nat :=
  let f := fmtD (vIn d)
  let n := vLen d
  if k = 1 && vImm d then
    ((List.range n).map fun _ => if vFp64 d then ieeeVal fp64 (vImmVal d) else ieeeVal fp32 (vImmVal d % 2 ^ 32), 0)
  else
    let codes := t.codes f (vSrc d k + i * vSrcStride d k) n
    if isIeee f then (codes.map (ieeeVal (ieeeOf f)), 0)
    else
      let scales := t.scales f (vSrcScale d + i * vScaleStride f n) (n / groupSize f)
      let rs := (decodeRow f codes scales).map fun p =>
        let (c, fl) := ieeeRound fp32 .rne true (exOf p.1)
        (ieeeVal fp32 c, fl ||| p.2)
      (rs.map (·.1), rs.foldl (fun a p => a ||| p.2) 0)

/-- Adds a stored group to the statistics (R128, R129). -/
def statGroup (d : Nat) (f : Fmt) (rs : List VRes) (g : EncGroup) (t : TileStat) : TileStat :=
  let t := { t with
    sat := t.sat + g.sat
    overs := t.overs + (if g.miss = .overs then 1 else 0)
    under := t.under + (if g.miss = .under then 1 else 0) }
  (rs.zip g.codes).foldl (fun t p =>
    let (r, c) := p
    let zero := if isIeee f then isZero (ieeeVal (ieeeOf f) c) else isZeroCode f c && g.scale != 0xFF
    { t with
      tally := t.tally.add r.idx (kindVal r.work) (kindStored f g.scale c)
      sums := t.sums.add r.work
      ufl := t.ufl + (if isFin r.work && !isZero r.work && zero then 1 else 0)
      dpart := if vDigest d then (t.dpart + digestOf r.idx (digestPattern f g.scale c)) % 2 ^ 64 else 0 }) t

/-- Stores a row of results in row groups. -/
def storeRow (d i : Nat) (rs : List VRes) (x : VecRun) : VecRun :=
  let f := fmtD (vOut d)
  let gs := rowGroups f true (rs.length + 1) (rs.map fun r => some r.elem)
  let codes := gs.flatMap (·.codes)
  let als := x.als.write (vDst d + i * vDstStride d) (rowData f codes)
  let als := if groupSize f = 0 then als
    else als.write (vDstScale d + i * vScaleStride f (vLen d)) (leBytes (packCodes 8 (gs.map (·.scale))) gs.length)
  let n := if groupSize f = 0 then rs.length else groupSize f
  let stat := (List.range gs.length).foldl (fun t k =>
    statGroup d f ((rs.drop (k * n)).take n) (gs.getD k ⟨0, [], 0, .none, 0, 0⟩) t) x.stat
  { x with als := als, stat := stat, stored := i + 1
           flags := x.flags ||| (gs.foldl (fun a g => a ||| g.flags) 0 &&& (fNV + fDZ + fOF + fUF + fNX)) }

/-- Stores a complete band of column groups whose last row is `i` (R118, R119). -/
def storeBand (d i : Nat) (band : List (List VRes)) (x : VecRun) : VecRun :=
  let f := fmtD (vOut d)
  let s := groupSize f
  let r0 := i + 1 - s
  let cols := (band.getD 0 []).length
  let col := fun j => band.filterMap fun row => row[j]?
  let gs := (List.range cols).map fun j => quantGroup f ((col j).map fun r => some r.elem)
  let als := (List.range s).foldl (fun t r =>
    t.write (vDst d + (r0 + r) * vDstStride d) (rowData f (gs.map fun g => g.codes.getD r 0))) x.als
  let als := als.write (vDstScale d + r0 / max s 1 * vBandStride f cols) (leBytes (packCodes 8 (gs.map (·.scale))) cols)
  let stat := (List.range cols).foldl (fun t j => statGroup d f (col j) (gs.getD j ⟨0, [], 0, .none, 0, 0⟩) t) x.stat
  { x with als := als, stat := stat, stored := i + 1, band := []
           flags := x.flags ||| (gs.foldl (fun a g => a ||| g.flags) 0 &&& (fNV + fDZ + fOF + fUF + fNX)) }

/-- Gives row `i`'s results to the store. -/
def giveRow (d i : Nat) (rs : List VRes) (x : VecRun) : VecRun :=
  if vCgrp d then
    let band := x.band ++ [rs]
    if band.length = groupSize (fmtD (vOut d)) then storeBand d i band x else { x with band := band }
  else storeRow d i rs x

/-! TOPK and DFIN -/

/-- The totalOrder key of an encoding: larger ranks higher (R33, R125). -/
def totalKey (f : Ieee) (code : Nat) : Int :=
  let h := 2 ^ (f.eb + f.fb)
  if code ≥ h then -((code - h : Nat) : Int) - 1 else (code : Nat)

/-- The best remaining candidate: highest key, then lowest index. -/
def bestOf (f : Ieee) (codes : List Nat) (taken : List Nat) : Option Nat :=
  (List.range codes.length).foldl (fun b j =>
    if taken.contains j then b
    else match b with
      | none => some j
      | some k => if totalKey f (codes.getD j 0) > totalKey f (codes.getD k 0) then some j else b) none

/-- The first `k` candidates in rank order. -/
def topIndices (f : Ieee) (codes : List Nat) : Nat → List Nat
  | 0 => []
  | k + 1 =>
    let t := topIndices f codes k
    match bestOf f codes t with
    | some j => t ++ [j]
    | none => t

/-- FP32 of an exact result on the vector lanes. -/
def toFp32 (ex : Ex) : Nat × Nat := ieeeRound fp32 .rne true ex

/-- The normalised weights of R126 and their flags. -/
def normWeights (vs : List Nat) : List Nat × Nat :=
  let v0 := ieeeVal fp32 (vs.getD 0 0)
  let es := vs.map fun w =>
    let v := ieeeVal fp32 w
    let (ex, f) := if isNan v || isNan v0 then (firstNaN [v, v0], sigFlag [v, v0])
      else let (r, g) := addV false v (negV v0); (exOf r, g)
    let (dc, f2) := toFp32 ex
    let (e, f3) := funcFp32 .exp false true (ieeeVal fp32 dc)
    (e, f ||| f2 ||| f3)
  let (sv, fs) := sumV (es.map fun e => ieeeVal fp32 e.1)
  let (sc, fs2) := toFp32 (exOf sv)
  let ws := es.map fun e =>
    let (q, f) := divV (ieeeVal fp32 e.1) (ieeeVal fp32 sc)
    let (w, f2) := toFp32 q
    (w, f ||| f2)
  (ws.map (·.1), (es ++ ws).foldl (fun a p => a ||| p.2) (fs ||| fs2))

/-- A selected FP32 value as the record carries it: no engine produces a signalling NaN (R30, R34). -/
def quietFp32 (c : Nat) : Nat := if isNan (ieeeVal fp32 c) then c ||| 2 ^ 22 else c

/-- One row of TOPK (R125–R127). -/
def topkRow (d i : Nat) (x : VecRun) : VecRun :=
  let f := if vIn d = 1 then bf16 else fp32
  let codes := x.als.codes (fmtD (vIn d)) (vSrc d 0 + i * vSrcStride d 0) (vLen d)
  let vals := codes.map (ieeeVal f)
  let k := vK d
  let idx := topIndices f codes k
  let v := idx.map fun j => if vIn d = 1 then 2 ^ 16 * codes.getD j 0 else codes.getD j 0
  let (w, fl) := if vNorm d then normWeights v else (v.map quietFp32, 0)
  let nan := vals.any isNan
  let rec' := pack ((List.range 8).map (fun r => (16 * r, 16, if r < k then idx.getD r 0xFFFF else 0xFFFF)) ++
    (List.range 8).map (fun r => (128 + 32 * r, 32, if r < k then w.getD r 0 else 0)) ++
    [(384, 4, k), (388, 1, bit nan), (389, 1, bit (vNorm d)), (448, 64, vIdx d i 0)])
  { x with als := x.als.write (vDst d + i * vDstStride d) (leBytes rec' 64)
           flags := x.flags ||| fl ||| sigFlag vals
           stored := i + 1
           nanRows := x.nanRows + bit nan }

/-- The address of DFIN's partial `j` (R130). -/
def dfinAddr (d j : Nat) : Nat := if vDsrc d then vSrc d 0 + 8 * j else vSrc d 0 + j * vSrcStride d 0 + 0x30

/-- DFIN (R130). -/
def dfinRow (d : Nat) (x : VecRun) : VecRun :=
  let sum := (List.range (vLen d)).foldl (fun a j => (a + leNat (x.als.read (dfinAddr d j) 8)) % 2 ^ 64) 0
  let g := digestFin sum (vTensor d)
  { x with als := x.als.write (vDst d) (leBytes g 8), stored := 1, digest := if vDigest d then some g else none }

/-! The whole instruction -/

/-- The extents that row `i` reads, in the order in which poison in them counts (log entry 158). -/
def rowReads (d i : Nat) : List (Nat × Nat) :=
  match vOpInfo (vOp d) with
  | some (_, .dfin) => (List.range (vLen d)).map fun j => (dfinAddr d j, 8)
  | some (nsrc, _) => ((List.range nsrc).filter fun k => !(k == 1 && vImm d)).flatMap fun k => srcExtents d k i
  | none => []

/-- Processes row `i`, unless poison stops the instruction there (R131). A row's one result has the index of its element 0 (log
entry 198). -/
def vecRow (d seed step : Nat) (x : VecRun) (i : Nat) : VecRun :=
  if x.stop.isSome then x
  else match firstPoison x.als (rowReads d i) with
    | some p => { x with stop := some (i, p) }
    | none =>
      match vOpInfo (vOp d) with
      | some (_, .topk) => topkRow d i x
      | some (_, .dfin) => dfinRow d x
      | some (nsrc, kind) =>
        let (a, f0) := loadSource x.als d 0 i
        let (b, f1) := if nsrc ≥ 2 then loadSource x.als d 1 i else ([], 0)
        let (c, f2) := if nsrc ≥ 3 then loadSource x.als d 2 i else ([], 0)
        let z := zeroV false
        let rs := if kind = .row then [let (v, f) := vecReduce d a; ((v, 1), f)]
          else (List.range (vLen d)).map fun j => vecElem d (a.getD j z) (b.getD j z) (c.getD j z)
        let out := (List.range rs.length).map fun j =>
          let r := (rs.getD j ((z, 1), 0)).1
          ({ elem := ⟨r.1, r.2, oneV, storeMode d seed step i j⟩, work := workVal d r, idx := vIdx d i j } : VRes)
        giveRow d i out { x with flags := rs.foldl (fun a r => a ||| r.2) (x.flags ||| f0 ||| f1 ||| f2) }
      | none => x

/-- The statistics record of R128. -/
def vecRecord (d : Nat) (t : TileStat) : List Byte :=
  let plain := match vOpInfo (vOp d) with
    | some (_, .topk) | some (_, .dfin) => true
    | _ => false
  let tail := [(224, 16, vTag d), (448, 13, vRows d), (461, 17, vLen d)]
  leBytes (pack (if plain then tail else
    [(0, 32, vecFlagWord t.tally), (32, 32, (ieeeRound fp32 .rup false (exOf t.sums.amax)).1),
     (64, 64, (t.tally.first.map (·.1)).getD 0), (128, 32, min t.sat max32), (160, 32, min t.ufl max32),
     (192, 16, cnt16 t.overs), (208, 16, cnt16 t.under), (256, 64, t.sums.code t.sums.sum),
     (320, 64, t.sums.code t.sums.sumsq), (384, 64, t.dpart)] ++ tail)) 64

/-- What a run of rows starts from. -/
def VecMid.run (m : VecMid) (t : Store) : VecRun := { als := t, stat := m.stat, band := m.band, stored := m.stored }

/-- What is left of a run of rows for its instruction to go on with. -/
def VecRun.mid (x : VecRun) : VecMid := ⟨x.stored, x.band, x.stat⟩

/-- Runs the rows of an instruction before row `rows`, from where it has come to (R118, R132). -/
def vecRowsFrom (t : Store) (m : VecMid) (d seed step rows : Nat) : VecRun :=
  ((List.range rows).drop m.next).foldl (vecRow d seed step) (m.run t)

/-- Runs the rest of an instruction, with its statistics record when no poison stopped it (R128, R131). -/
def vecAll (t : Store) (m : VecMid) (d seed step : Nat) : VecRun :=
  let x := vecRowsFrom t m d seed step (vRows d)
  if x.stop.isSome || !vStat d then x else { x with als := x.als.write (vStatAddr d) (vecRecord d x.stat) }

end Sys2Proof.Machine
end

