-- ==== Sys2Proof/Machine/Vector.lean ====
section
/-!
DEFINITION. A vector engine as it runs (R117, R118, R131–R133): one executing and one waiting instruction, in issue order.
An instruction's rows take effect together when it ends, or, for an abort, up to the row boundary that it reaches.
Rows of notes/assumptions: DEDUCED 38, 45, 52, 57; DESIGN CHOICE 8, 155, 157.
-/
namespace Sys2Proof.Machine

open Sys2Proof

/-- Whether the engine can take a further instruction (R117). -/
def vecRoom (v : VecEng) : Bool := v.wait.isNone

/-- Ends the engine's part of the command (R131, R133). ERR_ADDR holds the ALS address of poisoned data; of a failed check it
has no content (log entry 157). -/
def vecFail (s : State) (n status code addr itag row : Nat) : State :=
  let v := s.vecOf n
  let s := if v.failHeld then s else s.setReg .vec n 0x108 (pack [(0, 16, itag), (16, 13, row)])
  let s := s.setVec n { v with failHeld := true, exec := none, mid := {}, wait := none, failed := v.failed.or (some ⟨status, code, itag⟩) }
  let addr := if status = stPoisoned then addr else Config.errAddr (blockCode .vec) code itag
  noteFailure (capture s .vec n { sev := sevFailed, ctx := some (s.islandCtx n), addr := addr, info := code }) n

/-- Lets the waiting instruction begin where none executes; a failing one executes nothing (R131). -/
def kickVec (s : State) (n : Nat) : State :=
  let v := s.vecOf n
  match v.exec, v.wait with
  | none, some i =>
    if v.failed.isSome || v.abort || s.engineHeld (enVec n) || s.alsBlocked n then s
    else match i.fail with
      | some f => vecFail s n f.status f.code f.addr f.itag 0
      | none => unitBegin (s.setVec n { v with exec := some i, mid := {}, wait := none, lastTag := vTag i.desc }) (enVec n)
  | _, _ => s

/-- The reads of the rows from `first` up to row `rows`. -/
def vecReads (d first rows : Nat) : List (Nat × Nat) := ((List.range rows).drop first).flatMap (rowReads d)

/-- Stores what a run of rows computed, counts what it read and stored, and keeps how far the instruction has come (R132, R137,
R381). `rows` is the row that the run was to stop before. -/
def takeRun (s : State) (n d rows : Nat) (x : VecRun) : State :=
  let v := s.vecOf n
  let s := noteHazards s n 3 (vecReads d v.mid.next (match x.stop with
    | some (row, _) => row + 1
    | none => rows))
  let s := s.setAls n x.als
  let s := s.setVec n { v with flags := v.flags ||| x.flags, mid := x.mid }
  let s := s.bump .vec n 0x10C x.nanRows
  let k := (x.stored - v.mid.stored) * vLen d
  if k = 0 then s else countEvent (ctxCount s (s.islandCtx n) 5 k) .vec n 0x18 (some (s.islandCtx n)) k

/-- The executing instruction comes to a row boundary that the manual does not name: a number of rows that nothing constrains, from
where it stood, have been stored there (R132; log entry 45). -/
def reachRow (s : State) (n : Nat) : State :=
  let v := s.vecOf n
  match v.exec with
  | none => s
  | some i =>
    let first := v.mid.next
    let rows := first + Config.rowsDone s.draws % (vRows i.desc - first + 1)
    takeRun { s with draws := s.draws + 1 } n i.desc rows (vecRowsFrom (s.alsOf n) v.mid i.desc i.seed i.step rows)

/-- Follows the hold: an executing instruction stops at a row boundary when its island is held, and goes on from there after the
release; a waiting one begins where it may (R132). -/
def settleVec (s : State) (n : Nat) : State :=
  let s := if s.holdOn n && !(s.vecOf n).held then reachRow s n else s
  let v := s.vecOf n
  kickVec (s.setVec n { v with held := s.holdOn n || (v.exec.isNone && s.unitHeld (enVec n)) }) n

/-- Reads a vector descriptor and makes its checks (R118, R131). A descriptor that the ALS does not hold whole
is not read (log entry 155). -/
def readVec (t : Store) (addr seed step : Nat) : VecInstr :=
  let d := leNat (t.read addr 128)
  let fail : Option IssueFail :=
    if addr + 128 > alsSize then some ⟨stInstructionError, eAlsRange, 0, 0xFFFF, 0⟩ else
    match t.poisoned addr 128 with
    | some p => some ⟨stPoisoned, ePoisoned, p, if (t.poisoned (addr + 0xC) 2).isSome then 0xFFFF else vTag d, 0⟩
    | none => (vecChecks addr d).map fun c => ⟨stInstructionError, c, 0, vTag d, 0⟩
  { desc := d, fail := fail, seed := seed, step := step }

/-- Issues the vector instruction at an ALS address (R118); the caller has checked `vecRoom`. -/
def issueVec (s : State) (n addr seed step : Nat) : State :=
  let s := if addr + 128 ≤ alsSize then noteHazard s n 3 addr 128 else s
  let v := s.vecOf n
  settleVec (s.setVec n { v with wait := some (readVec (s.alsOf n) addr seed step) }) n

/-- VEC_INSTRUCTION_END (R128, R131, R132): the executing instruction stores its last row and its record, or stops on
poison. A held one ends after its release, and one that a scrub of the ALS stands before ends after the scrub. -/
def execVecInstructionEnd (n : ArrayId) (s : State) : Out :=
  if s.alsBlocked n || (s.vecOf n).held then .next s else
  let v := s.vecOf n
  match v.exec with
  | none => .next s
  | some i =>
    let d := i.desc
    let x := vecAll (s.alsOf n) v.mid d i.seed i.step
    let s := unitEnd (takeRun s n d (vRows d) x) (enVec n)
    match x.stop with
    | some (row, p) => .next (settleVec (vecFail s n stPoisoned ePoisoned p (vTag d) row) n)
    | none =>
      let v := s.vecOf n
      let s := s.setVec n { v with exec := none
                                   mid := {}
                                   digest := (v.digest + x.digest.getD 0) % 2 ^ 64
                                   digestValid := v.digestValid || x.digest.isSome }
      let s := s.setReg .vec n 0x104 (vTag d)
      let q := s.seqOf n
      let s := s.setSeq n { q with vdone := (q.vdone + 1) % 2 ^ 32 }
      .next (settleVec s n)

/-- The row boundary at which an abort that finds it at `rows` stops an executing instruction: the one where a hold keeps it, or
one it has still to come to (R132). -/
def abortRow (v : VecEng) (d rows : Nat) : Nat := if v.held then v.mid.next else max v.mid.next (min rows (vRows d))

/-- An aborted instruction stores the rows before its row boundary, and nothing more: the rows of a band that is not complete are
discarded (R132). -/
def vecAbortAt (s : State) (n rows : Nat) : State :=
  let v := s.vecOf n
  match v.exec with
  | none => s.setVec n { v with wait := none }
  | some i =>
    let k := abortRow v i.desc rows
    let s := unitEnd (takeRun s n i.desc k (vecRowsFrom (s.alsOf n) v.mid i.desc i.seed i.step k)) (enVec n)
    settleVec (s.setVec n { s.vecOf n with exec := none, mid := {}, wait := none }) n

/-- Whether everything issued to the engine has ended (R240). -/
def vecQuiet (v : VecEng) : Bool := v.exec.isNone && (v.wait.isNone || v.abort || v.failed.isSome)

/-- A command boundary: nothing of the command is left but the digest its record takes. -/
def vecBoundary (s : State) (n : Nat) : State :=
  s.setVec n { s.vecOf n with wait := none, failed := none, abort := false }

end Sys2Proof.Machine
end

