-- ==== Sys2Proof/Machine/Stores.lean ====
section
/-!
DEFINITION. The local stores' own events: check-bit errors (R138), scrubs of an ALS (R139) and of a DSS partition (R140).
Rows of notes/assumptions: DEDUCED 38, 153.
-/
namespace Sys2Proof.Machine

open Sys2Proof

/-- Bytes of a DSS partition (R140). -/
def partSize : Nat := 0x800000

/-- The record of an uncorrectable error of a store: the 64 B block's address (R138). -/
def storeErr (addr : Nat) : Err := { sev := sevFailed, addr := addr / 64 * 64, info := 1 }

/-- ALS_ECC_ERROR (R138): a corrected error is counted; an uncorrectable one sets the block's poison bit and is recorded. -/
def execAlsEccError (st : StoreRef) (addr : Nat) (uncorrectable : Bool) (s : State) : Out :=
  if s.pins.inReset then .next s
  else match st with
  | .als n =>
    if addr ≥ alsSize then .next s
    else if !uncorrectable then .next (s.bump .als n 0x10C 1)
    else if tabGet false (s.alsOf n).poison (addr / 64) then .next s
    else .next (capture (s.setAls n ((s.alsOf n).setPoison addr)) .als n (storeErr addr))
  | .dss d =>
    if addr ≥ dssSize then .next s
    else if !uncorrectable then .next (s.bump .dss d 0x140 1)
    else if tabGet false (s.dssOf d).poison (addr / 64) then .next s
    else .next (capture (s.setDss d ((s.dssOf d).setPoison addr)) .dss d (storeErr addr))

/-- The bursts of the die's DMA channels that are in flight where a scrub finds them (R139). -/
def reachBursts (s : State) (n : Nat) : State :=
  { s with
    dma := s.dma.map fun e =>
      if e.1 / 32 = n / 5 && !e.2.issued.isEmpty then (e.1, { e.2 with seen := e.2.seen ++ [⟨n, ⟨s.alsOf n, s.draws + e.1⟩, e.2.issued⟩] }) else e
    draws := s.draws + 128 }

/-- A write of ALS.SCRUB.START requests a scrub (R139). What accesses in progress have been served by then has met the old contents;
what is left of them waits, and meets what the scrub leaves. -/
def requestScrub (s : State) (n : Nat) : State :=
  if tabGet .none s.alsScrub n = .none then
    let s := reachBursts (reachArr (if (s.vecOf n).held then s else reachRow s n) n) n
    { s with alsScrub := tabSet .none s.alsScrub n .requested }
  else s

/-- ALS_SCRUB_BEGIN (R139). -/
def execAlsScrubBegin (n : ArrayId) (s : State) : Out :=
  if tabGet .none s.alsScrub n = .requested then .next { s with alsScrub := tabSet .none s.alsScrub n .running } else .next s

/-- An ALS becomes zeros with no poison (R139). -/
def scrubAls (s : State) (n : Nat) : State := s.setAls n {}

/-- ALS_SCRUB_END (R139). -/
def execAlsScrubEnd (n : ArrayId) (s : State) : Out :=
  if tabGet .none s.alsScrub n = .running then
    .next (settleVec { scrubAls s n with alsScrub := tabSet .none s.alsScrub n .none } n)
  else .next s

/-! DSS partitions: DSS.PART_OWNER[p] holds the owner, and in bit 7 the scrub in progress -/

def State.part (s : State) (d p : Nat) : Nat := s.reg .dss d (0x100 + 4 * p)

/-- Whether a context owns a partition (R140, R142). -/
def State.partOwned (s : State) (d p c : Nat) : Bool := (s.part d p).testBit 6 && bits (s.part d p) 0 6 == c

/-- Whether a partition is being scrubbed. -/
def State.partBusy (s : State) (d p : Nat) : Bool := (s.part d p).testBit 7

/-- A write of DSS.PART_OWNER[p] (R155): a change of CTX or VALID starts a scrub. -/
def writePartOwner (s : State) (d p v : Nat) : State :=
  let old := s.part d p
  let new := bits v 0 7
  s.setReg .dss d (0x100 + 4 * p) (new + 128 * bit (new != bits old 0 7 || old.testBit 7))

/-- Zeros a partition (R140). -/
def scrubPart (s : State) (d p : Nat) : State := s.setDss d ((s.dssOf d).scrub (p * partSize) partSize)

/-- DSS_SCRUB_END (R140). -/
def execDssScrubEnd (d : DieId) (p : Fin 16) (s : State) : Out :=
  if s.partBusy d p then
    let s := scrubPart s d p
    .next (s.setReg .dss d (0x100 + 4 * p) (bits (s.part d p) 0 7))
  else .next s

end Sys2Proof.Machine
end

