-- ==== Sys2Proof/Machine/Dma.lean ====
section
/-!
DEFINITION. The DMA engines (R141–R153): starts, timers, descriptors and their checks, bursts, compressed streams, poison
carried onward, faults and the three ways to end a halt. Channel c of DMA[d] is numbered 32d + c.
Rows of notes/assumptions: DEDUCED 22, 39, 40, 41, 42; DESIGN CHOICE 211, 212.
-/
namespace Sys2Proof.Machine

open Sys2Proof

/-! Registers of a channel (R156) -/

def State.ch (s : State) (k o : Nat) : Nat := s.reg .dma (k / 32) (0x400 + 0x40 * (k % 32) + o)
def State.setChReg (s : State) (k o v : Nat) : State := s.setReg .dma (k / 32) (0x400 + 0x40 * (k % 32) + o) v

def State.chCtx (s : State) (k : Nat) : Nat := bits (s.ch k 0) 0 6
def State.chValid (s : State) (k : Nat) : Bool := (s.ch k 0).testBit 6
def State.chQuota (s : State) (k : Nat) : Nat := bits (s.ch k 0) 8 7
def State.chListLen (s : State) (k : Nat) : Nat := bits (s.ch k 8) 16 16
def State.chListBase (s : State) (k : Nat) : Nat := s.ch k 4 / 64 * 64 + 2 ^ 32 * bits (s.ch k 8) 0 16

/-- Whether a context has an array assigned (R142, R224). -/
def State.assignedTo (s : State) (c n : Nat) : Bool := (s.ctxOf c).map.any fun e => e.2 == n + 1

/-! Fields of the descriptor of R143 -/

def dSrcKind (x : Nat) : Nat := fld x 0 0 2
def dDstKind (x : Nat) : Nat := fld x 0 2 2
def dSrcArr (x : Nat) : Nat := fld x 0 4 3
def dMask (x : Nat) : Nat := fld x 0 7 5
def dDecomp (x : Nat) : Bool := flag x 0 12
def dChain (x : Nat) : Bool := flag x 0 13
def dChainCh (x : Nat) : Nat := fld x 0 14 5
def dRowBytes (x : Nat) : Nat := fld x 4 0 24
def dRows (x : Nat) : Nat := fld x 8 0 16
def dPlanes (x : Nat) : Nat := fld x 8 16 16
def dTag (x : Nat) : Nat := fld x 0xC 0 16
def dSrc (x : Nat) : Nat := fld x 0x10 0 64
def dDst (x : Nat) : Nat := fld x 0x18 0 64
def dSrcR (x : Nat) : Nat := fld x 0x20 0 40
def dSrcP (x : Nat) : Nat := fld x 0x28 0 40
def dDstR (x : Nat) : Nat := fld x 0x30 0 40
def dDstP (x : Nat) : Nat := fld x 0x38 0 40

/-! Starts -/

/-- Adds starts to PENDING; one that would take it above 255 is lost and sets OVERRUN (R145). -/
def giveStarts (s : State) (k n : Nat) : State :=
  let c := s.chOf k
  s.setCh k { c with pending := min (c.pending + n) 255, overrun := c.overrun || decide (c.pending + n > 255) }

/-- DMA_TIMER_EXPIRY (R146). -/
def execDmaTimerExpiry (d : DieId) (c : ChanId) (s : State) : Out :=
  let k := 32 * d.val + c.val
  let limit := bits (s.ch k 0x10) 0 16
  let fired := bits (s.ch k 0x10) 16 16
  if bits (s.ch k 0xC) 0 24 = 0 || (limit != 0 && decide (fired ≥ limit)) || s.engineHeld (enDma d) then .next s
  else .next (giveStarts (s.setChReg k 0x10 (limit + 2 ^ 16 * min (fired + 1) 65535)) k 1)

/-- A write of TIMER arms the timer afresh and resets FIRED (R146). -/
def writeTimer (s : State) (k v : Nat) : State :=
  (s.setChReg k 0xC (bits v 0 24)).setChReg k 0x10 (bits (s.ch k 0x10) 0 16)

/-! Faults and completion -/

/-- Fault codes of R151. -/
def dfReserved : Nat := 1
def dfShape : Nat := 2
def dfAlign : Nat := 3
def dfRange : Nat := 4
def dfProtection : Nat := 5
def dfTranslation : Nat := 6
def dfBus : Nat := 7
def dfFormat : Nat := 8
def dfPoisonedStream : Nat := 9

/-- Halts a channel on a fault (R151, R152): what it has asked of memory is forgotten, so that a resume reads and translates anew. -/
def dmaFault (s : State) (k code dir burst addr kind arr : Nat) : State :=
  let s := burstsEnd (dropAgent s (agDma k)) k
  let c := s.chOf k
  let pos := ((c.buffer.find? fun e => e.index == c.written).map (·.pos)).getD c.streamPos
  let s := s.setCh k { c with state := .halted, issued := [], buffer := [], streamPos := pos
                              writing := false, refused := [], writeRefused := none, seen := [] }
  let s := s.setChReg k 0x20 (pack [(0, 4, code), (4, 2, dir), (6, 1, 1)])
  let s := s.setChReg k 0x24 burst
  let s := s.setChReg k 0x28 (addr % 2 ^ 32)
  let s := s.setChReg k 0x2C (pack [(0, 16, addr / 2 ^ 32), (16, 2, kind), (18, 3, arr)])
  capture s .dma (k / 32) { sev := sevFailed, ctx := some (s.chCtx k), unit := k % 32, addr := addr, info := code }

/-- NEXT after the current descriptor (R147). -/
def nextIndex (s : State) (k : Nat) : Nat := ((s.chOf k).next + 1) % max (s.chListLen k) 1

/-- A transfer completes (R147): DONE counts it, NEXT advances and a chained start is given, that of a faulted descriptor that has
been read too where a skip completes it (R152). -/
def dmaComplete (s : State) (k : Nat) : State :=
  let s := burstsEnd s k
  let c := s.chOf k
  let s := s.setChReg k 0x18 ((s.ch k 0x18 + 1) % 2 ^ 32)
  let s := s.setCh k { c with state := .idle, next := nextIndex s k, desc := none, fetching := false,
                              issued := [], buffer := [], written := 0, skipped := 0, writing := false, refused := [],
                              writeRefused := none, faulted := none, streamPos := 0, lines := [], seen := [] }
  let s := s.setChReg k 0x20 (bits (s.ch k 0x20) 0 6)
  let s := match c.desc.or c.faulted with
    | some x => if dChain x then giveStarts s (k / 32 * 32 + dChainCh x) 1 else s
    | none => s
  dropAgent s (agDma k)

/-- An abort by queue destruction (R149): the channel goes to IDLE, what is buffered is discarded, and PENDING, the timer
and OVERRUN are cleared. The lines that it has written are no hazard any more (log entry 212). -/
def dmaStop (s : State) (k : Nat) : State :=
  let s := burstsEnd s k
  let c := s.chOf k
  let s := s.setCh k { c with state := if c.state = .disabled then .disabled else .idle, pending := 0, overrun := false,
                              desc := none, fetching := false, issued := [], buffer := [], written := 0, skipped := 0, writing := false,
                              refused := [], writeRefused := none, faulted := none, streamPos := 0, lines := [], seen := [] }
  let s := (s.setChReg k 0xC 0).setChReg k 0x10 (bits (s.ch k 0x10) 0 16)
  let s := s.setChReg k 0x20 (bits (s.ch k 0x20) 0 6)
  dropAgent s (agDma k)

/-! Descriptor checks -/

/-- The partitions of R140 that [a, a + n) touches. -/
def partsOf (a n : Nat) : List Nat := if n = 0 then [] else (List.range ((a + n - 1) / partSize - a / partSize + 1)).map (· + a / partSize)

/-- Base addresses of the rows of a side, in descriptor order (R143). -/
def rowBases (base pstride rstride planes rows : Nat) : List Nat :=
  (List.range planes).flatMap fun p => (List.range rows).map fun r => base + p * pstride + r * rstride

/-- Whether the store targets of a descriptor are the channel's context's (R142): `arr` and the rows of each side. -/
def targetsOk (s : State) (k x : Nat) : Bool :=
  let d := k / 32
  let c := s.chCtx k
  let arrOk := fun i => s.assignedTo c (5 * d + i)
  let dssOk := fun (bases : List Nat) (n : Nat) => bases.all fun a => (partsOf a n).all fun p => s.partOwned d p c
  (dSrcKind x != 2 || arrOk (dSrcArr x)) &&
  (dDstKind x != 2 || (setBits 5 (dMask x)).all arrOk) &&
  (dSrcKind x != 1 || (if dDecomp x then dssOk [dSrc x] (dSrcR x)
    else dssOk (rowBases (dSrc x) (dSrcP x) (dSrcR x) (dPlanes x) (dRows x)) (dRowBytes x))) &&
  (dDstKind x != 1 || dssOk (rowBases (dDst x) (dDstP x) (dDstR x) (dPlanes x) (dRows x)) (dRowBytes x))

/-- The first address of rows of a DSS side that lies in a partition of another owner. -/
def dssBad (s : State) (k : Nat) (bases : List Nat) (n : Nat) : Option Nat :=
  bases.findSome? fun a => (partsOf a n).findSome? fun p =>
    if s.partOwned (k / 32) p (s.chCtx k) then none else some (max a (p * partSize))

/-- One burst: where it is read, where its pieces are written, and its bytes. -/
structure Burst where
  src : Nat
  dst : List (Nat × Nat)
  len : Nat
deriving DecidableEq, Repr

/-- Where PROTECTION fails, as address, kind and array: at the source, or else at the destination; of a burst, the place in the burst
where it lies there. -/
def protAt (s : State) (k x : Nat) (u : Option Burst) : Nat × Nat × Nat :=
  let bad := fun i => !s.assignedTo (s.chCtx k) (5 * (k / 32) + i)
  let src : Option (Nat × Nat) :=
    if dSrcKind x = 2 then (if bad (dSrcArr x) then some ((u.map (·.src)).getD (dSrc x), dSrcArr x) else none)
    else if dSrcKind x = 1 then
      ((if dDecomp x then dssBad s k [dSrc x] (dSrcR x)
        else (u.bind fun u => dssBad s k [u.src] u.len).or
          (dssBad s k (rowBases (dSrc x) (dSrcP x) (dSrcR x) (dPlanes x) (dRows x)) (dRowBytes x)))).map fun a => (a, 0)
    else none
  let first := ((u.bind fun u => u.dst.head?).map (·.1)).getD (dDst x)
  match src with
  | some (a, i) => (a, dSrcKind x, i)
  | none =>
    if dDstKind x = 2 then (first, 2, ((setBits 5 (dMask x)).find? bad).getD 0)
    else (((u.bind fun u => u.dst.findSome? fun p => dssBad s k [p.1] p.2).or
      (dssBad s k (rowBases (dDst x) (dDstP x) (dDstR x) (dPlanes x) (dRows x)) (dRowBytes x))).getD first, dDstKind x, 0)

/-- One past the last byte of a side. -/
def sideEnd (x base pstride rstride : Nat) : Nat := base + (dPlanes x - 1) * pstride + (dRows x - 1) * rstride + dRowBytes x

/-- Whether an extent overruns the store of its kind. -/
def overStore (kind e : Nat) : Bool := (kind == 1 && decide (e > dssSize)) || (kind == 2 && decide (e > alsSize))

/-- The first failing check of a descriptor (R151). A source plane stride of a stream is one of SHAPE (log entry 211). -/
def descFault (s : State) (k x : Nat) : Option Nat :=
  let d := k / 32
  let sk := dSrcKind x
  let dk := dDstKind x
  if s.chListLen k = 0 || sk = 3 || dk = 3 || (sk != 2 && dSrcArr x != 0) || decide (dSrcArr x > 4) ||
     (dk == 2) == (dMask x == 0) || (dChain x && !s.chValid (32 * d + dChainCh x)) ||
     fld x 0 19 13 != 0 || fld x 4 24 8 != 0 || fld x 0xC 16 16 != 0 ||
     ([0x20, 0x28, 0x30, 0x38].any fun o => fld x o 40 24 != 0) ||
     (sk == 0 && fld x 0x10 48 16 != 0) || (dk == 0 && fld x 0x18 48 16 != 0) then some dfReserved
  else if dRowBytes x = 0 || dRowBytes x % 64 != 0 || dRows x = 0 || dPlanes x = 0 ||
     (dDecomp x && (sk == 2 || dRowBytes x % 512 != 0 || dSrcP x != 0)) then some dfShape
  else if dSrc x % 64 != 0 || dDst x % 64 != 0 || dDstR x % 64 != 0 || dDstP x % 64 != 0 || dSrcP x % 64 != 0 ||
     (if dDecomp x then dSrcR x == 0 || dSrcR x % 8 != 0 else dSrcR x % 64 != 0) then some dfAlign
  else if overStore sk (if dDecomp x then dSrc x + dSrcR x else sideEnd x (dSrc x) (dSrcP x) (dSrcR x)) ||
     overStore dk (sideEnd x (dDst x) (dDstP x) (dDstR x)) then some dfRange
  else if !targetsOk s k x then some dfProtection
  else none

/-- The address of a descriptor fault, with its kind and array: the base of a side that overruns its store, the target that is
not allowed, or else the descriptor's own address. -/
def descFaultAt (s : State) (k x f va : Nat) : Nat × Nat × Nat :=
  if f = dfRange then
    if overStore (dSrcKind x) (if dDecomp x then dSrc x + dSrcR x else sideEnd x (dSrc x) (dSrcP x) (dSrcR x)) then
      (dSrc x, dSrcKind x, dSrcArr x)
    else (dDst x, dDstKind x, (setBits 5 (dMask x)).headD 0)
  else if f = dfProtection then protAt s k x none
  else (va, 0, 0)

/-- The arrays a descriptor names. -/
def descArrays (d x : Nat) : List Nat :=
  (if dSrcKind x = 2 then [5 * d + dSrcArr x] else []) ++ (if dDstKind x = 2 then (setBits 5 (dMask x)).map (5 * d + ·) else [])

/-- Whether every array a descriptor names is held by the channel's context (R148, R226). -/
def arraysHeld (s : State) (k x : Nat) : Bool :=
  (descArrays (k / 32) x).all fun n => (s.holderOf n).ctx == some (s.chCtx k) && (s.holderOf n).incoming.isNone

/-- DMA_DESCRIPTOR_FETCH (R143, R145, R151). -/
def execDmaDescriptorFetch (d : DieId) (c : ChanId) (s : State) : Out :=
  let k := 32 * d.val + c.val
  let x := s.chOf k
  let start := x.state = .idle && s.chValid k && decide (x.pending > 0)
  if s.halted || (s.islOf (20 + d)).resetting || !(start || (x.state = .active && x.fetching)) then .next s
  else
    let s := if x.fetching then s else s.setCh k { x with state := .active, pending := x.pending - 1, fetching := true }
    let va := (s.chListBase k + 64 * (s.chOf k).next) % 2 ^ 48
    if s.chListLen k = 0 then .next (dmaFault s k dfReserved 0 0 va 0 0)
    else match memRead s (agDma k) d reqDma (s.chCtx k) va 64 with
    | (s, .wait) => .next s
    | (s, .xlate) => .next (dmaFault s k dfTranslation 0 0 va 0 0)
    | (s, .bus) => .next (dmaFault s k dfBus 0 0 va 0 0)
    | (s, .ok b p) =>
      let s := takeAnswers s (agDma k)
      if p.any id then .next (dmaFault s k dfBus 0 0 va 0 0)
      else
        let desc := leNat b
        let s := s.setChReg k 0x30 (dTag desc)
        match descFault s k desc with
        | some f =>
          let (a, kind, arr) := descFaultAt s k desc f va
          let s := dmaFault s k f 0 0 a kind arr
          .next (s.setCh k { s.chOf k with faulted := some desc })
        | none =>
          let y := s.chOf k
          .next (s.setCh k { y with desc := some desc, faulted := none, fetching := false, issued := [], buffer := [], written := 0, skipped := 0, streamPos := 0, seen := []
                                    state := if arraysHeld s k desc then .active else .waitArray })

/-! Bursts -/

/-- A row cut at the 4 KiB boundaries of its source and of its destination (R144). -/
def rowBursts : Nat → Nat → Nat → Nat → List Burst
  | 0, _, _, _ => []
  | fuel + 1, a, b, n =>
    if n = 0 then []
    else
      let m := min n (min (4096 - a % 4096) (4096 - b % 4096))
      ⟨a, [(b, m)], m⟩ :: rowBursts fuel (a + m) (b + m) (n - m)

/-- The pieces of output bytes [o, o + n) of a transfer, row by row (R143). -/
def outPieces (x : Nat) : Nat → Nat → Nat → List (Nat × Nat)
  | 0, _, _ => []
  | fuel + 1, o, n =>
    if n = 0 then []
    else
      let rb := dRowBytes x
      let row := o / rb
      let m := min n (rb - o % rb)
      let a := dDst x + row / dRows x * dDstP x + row % dRows x * dDstR x + o % rb
      (a, m) :: outPieces x fuel (o + m) (n - m)

/-- Bytes of a transfer's output. -/
def dBytes (x : Nat) : Nat := dRowBytes x * dRows x * dPlanes x

/-- The bursts of a transfer, numbered from 0 (R144). -/
def burstsOf (x : Nat) : List Burst :=
  if dDecomp x then
    (List.range (ceilDiv (dBytes x) 4096)).map fun b =>
      let n := min 4096 (dBytes x - 4096 * b)
      ⟨0, outPieces x (n + 1) (4096 * b) n, n⟩
  else
    ((rowBases (dSrc x) (dSrcP x) (dSrcR x) (dPlanes x) (dRows x)).zip
      (rowBases (dDst x) (dDstP x) (dDstR x) (dPlanes x) (dRows x))).flatMap fun p =>
        rowBursts (dRowBytes x / 64 + 1) p.1 p.2 (dRowBytes x)

/-- A read of a store as an access: its bytes and the poison of its 64 B blocks. -/
def storeAcc (t : Store) (a n : Nat) : Acc :=
  .ok (t.read a n) ((List.range ((a + n - 1) / 64 - a / 64 + 1)).map fun i => tabGet false t.poison (a / 64 + i))

/-- The store from which a burst reads its source array: what scrubs found for the lines served before them (R139). -/
def burstStore (s : State) (k arr b : Nat) : Store :=
  linesStore (((s.chOf k).seen.filter fun e => e.arr == arr && e.bursts.contains b).map (·.lines)) (s.alsOf arr)

/-- Reads source bytes of burst `b` of a descriptor. -/
def dmaRead (s : State) (k x b a n : Nat) : State × Acc :=
  match dSrcKind x with
  | 0 => memRead s (agDma k) (k / 32) reqDma (s.chCtx k) (a % 2 ^ 48) n
  | 1 => (s, storeAcc (s.dssOf (k / 32)) a n)
  | _ => (s, storeAcc (burstStore s k (5 * (k / 32) + dSrcArr x) b) a n)

/-- Whether a store that a descriptor names cannot be served now: an ALS scrub, or a partition's (R139, R140). -/
def storesBusy (s : State) (k x : Nat) : Bool :=
  let d := k / 32
  (descArrays d x).any (fun n => s.alsBlocked n) ||
  (dSrcKind x == 1 && (partsOf (dSrc x) (if dDecomp x then dSrcR x else sideEnd x 0 (dSrcP x) (dSrcR x))).any (s.partBusy d)) ||
  (dDstKind x == 1 && (partsOf (dDst x) (sideEnd x 0 (dDstP x) (dDstR x))).any (s.partBusy d))

/-- Whether a channel stands at a burst boundary (R148, R149): no burst is issued and no write has begun. -/
def DmaCh.atBoundary (c : DmaCh) : Bool := c.issued.isEmpty && !c.writing

/-- Goes to WAIT_ARRAY at its burst boundary where an array has been switched out (R148); `none` when the channel may go on. -/
def toWaitArray (s : State) (k x : Nat) : Option State :=
  if arraysHeld s k x || (s.chOf k).writing then none
  else some (if (s.chOf k).atBoundary then s.setCh k { s.chOf k with state := .waitArray } else s)

/-- Bytes of the channel's data in the buffer, issued bursts included (R141). -/
def bufferedBytes (c : DmaCh) (bs : List Burst) : Nat :=
  (c.buffer.map fun b => b.bytes.length).sum + (c.issued.map fun i => (bs.getD i ⟨0, [], 0⟩).len).sum

/-- Whether the read engine could issue a burst of a channel (R141, R142): its next burst where it would only meet PROTECTION. -/
def chanReady (s : State) (k : Nat) : Bool :=
  let x := s.chOf k
  match x.desc with
  | none => false
  | some desc =>
    let bs := burstsOf desc
    x.state == .active && !storesBusy s k desc && decide (x.written + x.issued.length + x.buffer.length < bs.length) &&
    decide (bufferedBytes x bs < 65536 * s.chQuota k) && (!dDecomp desc || x.issued.isEmpty) &&
    (if targetsOk s k desc then arraysHeld s k desc else x.issued.isEmpty && x.buffer.isEmpty)

/-- The channel that a die's read engine serves next (R141): round-robin among the ready channels of PRIO 1, or else among those
of PRIO 0. -/
def readTurn (s : State) (d : Nat) : Option Nat :=
  let from_ := fun (last : Nat) => (List.range 32).map fun i => (last + 1 + i) % 32
  let ready := fun (prio : Bool) (c : Nat) => (s.ch (32 * d + c) 0).testBit 7 == prio && chanReady s (32 * d + c)
  match (from_ (s.islOf (20 + d)).readLastPrio).find? (ready true) with
  | some c => some c
  | none => (from_ (s.islOf (20 + d)).readLast).find? (ready false)

/-- The read engine has served a channel (R141). -/
def readServed (s : State) (k : Nat) : State :=
  let i := s.islOf (20 + k / 32)
  s.setIsl (20 + k / 32) (if (s.ch k 0).testBit 7 then { i with readLastPrio := k % 32 } else { i with readLast := k % 32 })

/-- Bursts of a die's engine that are outstanding. -/
def burstsOut (s : State) (d : Nat) : Nat := ((List.range 32).map fun c => (s.chOf (32 * d + c)).issued.length).sum

/-- DMA_BURST_ISSUE (R141, R142, R144, R149): a burst of the channel whose turn it is, with fewer than 1,024 outstanding. A channel
whose array has been switched out goes to WAIT_ARRAY. -/
def execDmaBurstIssue (d : DieId) (c : ChanId) (b : Nat) (s : State) : Out :=
  let k := 32 * d.val + c.val
  let x := s.chOf k
  match x.desc with
  | none => .next s
  | some desc =>
    let bs := burstsOf desc
    if x.state != .active || s.engineHeld (enDma d) || storesBusy s k desc || decide (b ≥ bs.length) || decide (b < x.written) ||
       x.issued.contains b || x.buffer.any (fun e => e.index == b) || decide (bufferedBytes x bs ≥ 65536 * s.chQuota k) ||
       (dDecomp desc && (!x.issued.isEmpty || b != x.written + x.buffer.length)) then .next s
    else if !targetsOk s k desc then
      if b = x.written && readTurn s d == some c.val then
        let (a, kind, arr) := protAt s k desc bs[b]?
        .next (dmaFault (readServed s k) k dfProtection 1 b a kind arr)
      else .next s
    else match toWaitArray s k desc with
      | some s => .next s
      | none =>
        if burstsOut s d ≥ 1024 || readTurn s d != some c.val then .next s
        else .next (burstBegin (oweFor (readServed (s.setCh k { x with issued := x.issued ++ [b] }) k) (enDma d) (s.chCtx k)) k b)

/-! Compressed streams -/

/-- What reading a burst's chunks gives: their output and the position after them, a fault with its address, or a wait. -/
inductive StreamRead where
  | ok (bytes : List Byte) (pos : Nat)
  | bad (code addr : Nat)
  | wait
deriving DecidableEq, Repr

/-- What a chunk's bitmap and stored words spell (R150). -/
def chunkOut (w : Nat) (words : List Byte) : List Byte :=
  (List.range 64).flatMap fun i => if w.testBit i then (words.drop (8 * popcount i w)).take 8 else leBytes 0 8

/-- Reads `n` bytes of a stream from an address within one 4 KiB block; poison ends the stream, at its 64 B block (R151). A stream has
no ALS source, so that no scrub meets its bursts (R143). -/
def streamPart (s : State) (k x a n : Nat) : State × StreamRead :=
  if n = 0 then (s, .ok [] 0)
  else match dmaRead s k x 0 a n with
    | (s, .wait) => (s, .wait)
    | (s, .xlate) => (s, .bad dfTranslation a)
    | (s, .bus) => (s, .bad dfBus a)
    | (s, .ok b p) => (s, if p.any id then .bad dfPoisonedStream (64 * (a / 64 + p.findIdx id)) else .ok b 0)

/-- Reads `n` bytes, at most a chunk's, cut at a 4 KiB boundary. -/
def streamBytes (s : State) (k x a n : Nat) : State × StreamRead :=
  let m := min n (4096 - a % 4096)
  match streamPart s k x a m with
  | (s, .ok b _) =>
    match streamPart s k x (a + m) (n - m) with
    | (s, .ok b' _) => (s, .ok (b ++ b') 0)
    | r => r
  | r => r

/-- Reads and decodes `n` chunks of a stream from position `pos` on (R150). -/
def streamChunks (s : State) (k x : Nat) : Nat → Nat → State × StreamRead
  | 0, pos => (s, .ok [] pos)
  | n + 1, pos =>
    let a := dSrc x + pos
    if pos + 8 > dSrcR x then (s, .bad dfFormat a)
    else match streamBytes s k x a 8 with
      | (s, .ok h _) =>
        let w := leNat h
        let m := 8 * popcount 64 w
        if pos + 8 + m > dSrcR x then (s, .bad dfFormat a)
        else match streamBytes s k x (a + 8) m with
          | (s, .ok b _) =>
            match streamChunks s k x n (pos + 8 + m) with
            | (s, .ok o e) => (s, .ok (chunkOut w b ++ o) e)
            | r => r
          | r => r
      | r => r

/-- A read fault at burst `b`, taken once every earlier burst has been written (R152). -/
def readFault (s : State) (k x b code addr : Nat) : State :=
  if b = (s.chOf k).written then dmaFault s k code 1 b addr (dSrcKind x) (dSrcArr x) else s

/-- A burst's data enters the buffer, and the bytes read are counted. -/
def burstRead (s : State) (k b read : Nat) (out : List Byte) (pz : List Bool) (pos : Nat) : State :=
  let s := takeAnswers s (agDma k)
  let y := s.chOf k
  let seen := (y.seen.map fun e => { e with bursts := e.bursts.filter (· != b) }).filter fun e => !e.bursts.isEmpty
  let s := s.setCh k { y with issued := y.issued.filter (· != b), buffer := y.buffer ++ [⟨b, out, pz, y.streamPos⟩], streamPos := pos, seen := seen }
  countEvent s .dma (k / 32) 0x28 (some (s.chCtx k)) read

/-- Whether an access to an ALS waits in the crossing of a stopped array island (R20). -/
def crossingHeld (s : State) (ns : List Nat) : Bool := ns.any fun n => s.islandStopped n

/-- The source arrays of a descriptor, and its destination arrays. -/
def srcArrays (d x : Nat) : List Nat := if dSrcKind x = 2 then [5 * d + dSrcArr x] else []
def dstArrays (d x : Nat) : List Nat := if dDstKind x = 2 then (setBits 5 (dMask x)).map (5 * d + ·) else []

/-- DMA_BURST_READ_DONE (R20, R21, R144, R150–R153). A stream whose last chunk leaves bytes over is malformed. -/
def execDmaBurstReadDone (d : DieId) (c : ChanId) (b : Nat) (s : State) : Out :=
  let k := 32 * d.val + c.val
  let x := s.chOf k
  match x.desc with
  | none => .next s
  | some desc =>
    let bs := burstsOf desc
    let u := bs.getD b ⟨0, [], 0⟩
    if x.refused.contains b then .next (readFault s k desc b dfBus u.src)
    else if !x.issued.contains b || storesBusy s k desc || crossingHeld s (srcArrays d desc) then .next s
    else
      if dDecomp desc then
        match streamChunks s k desc (u.len / 512) x.streamPos with
        | (s, .wait) => .next s
        | (s, .bad f a) => .next (readFault s k desc b f a)
        | (s, .ok out pos) =>
          if b + 1 == bs.length && pos != dSrcR desc then .next (readFault s k desc b dfFormat (dSrc desc + pos))
          else .next (burstRead s k b (pos - x.streamPos) out ((List.range (u.len / 64)).map fun _ => false) pos)
      else
        match if u.len = 0 then (s, Acc.ok [] []) else dmaRead s k desc b u.src u.len with
        | (s, .wait) => .next s
        | (s, .xlate) => .next (readFault s k desc b dfTranslation u.src)
        | (s, .bus) => .next (readFault s k desc b dfBus u.src)
        | (s, .ok raw p) => .next (burstRead s k b raw.length raw p x.streamPos)

/-- Writes a run of a burst's bytes into a store with its poison (R153). -/
def storePut (t : Store) (a : Nat) (data : List Byte) (p : List Bool) : Store :=
  (markedUnits a p).foldl Store.setPoison (t.write a data)

/-- Writes one piece of a burst to every destination (R144, R153). -/
def dmaWrite (s : State) (k x a : Nat) (data : List Byte) (p : List Bool) : State × Acc :=
  let d := k / 32
  match dDstKind x with
  | 0 => memWriteMarked s (agDma k) d reqDma (s.chCtx k) (a % 2 ^ 48) data p
  | 1 => (s.setDss d (storePut (s.dssOf d) a data p), .ok [] [])
  | _ =>
    let s := (setBits 5 (dMask x)).foldl (fun s i =>
      let n := 5 * d + i
      let c := s.chOf k
      let ls := (List.range ((a + data.length - 1) / 128 - a / 128 + 1)).map fun j => 2 ^ 18 * n + a / 128 + j
      (s.setAls n (storePut (s.alsOf n) a data p)).setCh k { c with lines := c.lines ++ ls.filter fun l => !c.lines.contains l }) s
    (s, .ok [] [])

/-- A memory piece cut at the 4 KiB boundaries of its destination. -/
def cutPieces : Nat → Nat → Nat → Nat → List (Nat × Nat × Nat)
  | 0, _, _, _ => []
  | fuel + 1, o, a, n =>
    if n = 0 then []
    else
      let m := min n (4096 - a % 4096)
      (o, a, m) :: cutPieces fuel (o + m) (a + m) (n - m)

/-- The pieces of a burst as (offset in its data, destination, bytes). -/
def burstPieces (o : Nat) : List (Nat × Nat) → List (Nat × Nat × Nat)
  | [] => []
  | (a, n) :: ps => cutPieces (n / 64 + 2) o a n ++ burstPieces (o + n) ps

/-- Writes the pieces of a burst in order, stopping at a fault: what it met, and where. -/
def writePieces (s : State) (k x : Nat) (data : List Byte) (p : List Bool) : List (Nat × Nat × Nat) → State × Acc × Nat
  | [] => (s, .ok [] [], 0)
  | (o, a, n) :: ps =>
    match dmaWrite s k x a ((data.drop o).take n) ((p.drop (o / 64)).take (ceilDiv n 64)) with
    | (s, .ok _ _) => writePieces s k x data p ps
    | (s, acc) => (s, acc, a)

/-- Whether a piece of a burst may be written, before any of it is: only a BUS fault leaves a burst written in part (R152). -/
def pieceMapped (s : State) (k x a : Nat) : State × Acc :=
  if dDstKind x ≠ 0 then (s, .ok [] [])
  else match translate s (k / 32) reqDma (s.chCtx k) (a % 2 ^ 48) true with
    | (s, .fault _) => (s, .xlate)
    | (s, .wait) => (s, .wait)
    | (s, .pa pa) =>
      if pa < hostBase then (s, .ok [] [])
      else match hostXlate s (agDma k) reqDma (s.chCtx k) (pa - hostBase) true with
        | (s, .error a) => (s, a)
        | (s, .ok _) => (s, .ok [] [])

/-- The translations of every piece of a burst, up to the first that fails: what it met, and where. -/
def piecesMapped (s : State) (k x : Nat) : List (Nat × Nat × Nat) → State × Acc × Nat
  | [] => (s, .ok [] [], 0)
  | (_, a, _) :: ps =>
    match pieceMapped s k x a with
    | (s, .ok _ _) => piecesMapped s k x ps
    | (s, acc) => (s, acc, a)

/-- Translates every piece of a burst, and then writes them in order; the flag says that the writing began. -/
def writeBurst (s : State) (k x : Nat) (e : BurstData) (ps : List (Nat × Nat × Nat)) : State × Acc × Nat × Bool :=
  match piecesMapped s k x ps with
  | (s, .ok _ _, _) =>
    match writePieces s k x e.bytes e.poison ps with
    | (s, acc, a) => (s, acc, a, true)
  | (s, acc, a) => (s, acc, a, false)

/-- Counts and captures the poisoned blocks that a burst carried (R153). -/
def notePoison (s : State) (k src : Nat) (p : List Bool) : State :=
  (markedUnits src p).foldl (fun s a =>
    capture (s.bump .dma (k / 32) 0x104 1) .dma (k / 32) { sev := sevLogged, ctx := some (s.chCtx k), unit := k % 32, addr := a, info := 0x10 }) s

/-- DMA_BURST_WRITTEN (R20, R21, R142, R144, R149, R153): a write that waits for its answer, or in the crossing of a stopped
island, has begun, and a hold lets it complete. -/
def execDmaBurstWritten (d : DieId) (c : ChanId) (s : State) : Out :=
  let k := 32 * d.val + c.val
  let x := s.chOf k
  match x.desc, x.buffer.find? fun e => e.index == x.written with
  | some desc, some e =>
    let u := (burstsOf desc).getD x.written ⟨0, [], 0⟩
    if x.state != .active then .next s
    else if x.writeRefused.isSome then
      .next (dmaFault s k dfBus 2 x.written ((u.dst.head?.map (·.1)).getD (dDst desc)) (dDstKind desc) (x.writeRefused.getD 0))
    else if (s.engineHeld (enDma d) && !x.writing) || storesBusy s k desc then .next s
    else if !x.writing && !targetsOk s k desc then
      let (a, kind, arr) := protAt s k desc (some u)
      .next (dmaFault s k dfProtection 2 x.written a kind arr)
    else match toWaitArray s k desc with
      | some s => .next s
      | none =>
        if crossingHeld s (dstArrays d desc) then .next (s.setCh k { x with writing := true })
        else match writeBurst s k desc e (burstPieces 0 u.dst) with
          | (s, .wait, _, began) => .next (s.setCh k { s.chOf k with writing := began || x.writing })
          | (s, .xlate, a, _) => .next (dmaFault s k dfTranslation 2 x.written a 0 0)
          | (s, .bus, a, _) => .next (dmaFault s k dfBus 2 x.written a 0 0)
          | (s, .ok _ _, _, _) =>
            let s := takeAnswers s (agDma k)
            let s := notePoison s k u.src e.poison
            let y := s.chOf k
            let s := s.setCh k { y with written := x.written + 1, writing := false, buffer := y.buffer.filter fun f => f.index != x.written }
            let n := e.bytes.length * (if dDstKind desc = 2 then popcount 5 (dMask desc) else 1)
            let s := ctxCount s (s.chCtx k) 6 n
            let s := countEvent s .dma d 0x29 (some (s.chCtx k)) n
            .next (burstEnd (countEvent s .dma d 0x2A (some (s.chCtx k)) 1) k x.written)
  | _, _ => .next s

/-- DMA_TRANSFER_COMPLETE (R147). -/
def execDmaTransferComplete (d : DieId) (c : ChanId) (s : State) : Out :=
  let k := 32 * d.val + c.val
  let x := s.chOf k
  match x.desc with
  | some desc => if x.state = .active && decide (x.written ≥ (burstsOf desc).length) then .next (dmaComplete s k) else .next s
  | none => .next s

/-! Actions and configuration -/

/-- Applies ACTION resume (1), skip (2) or abort (3) to a halted channel (R152). The lines that an aborted transfer has written are no hazard any
more (log entry 212). -/
def dmaAction (s : State) (k action : Nat) : State :=
  let c := s.chOf k
  let s' := s.setChReg k 0x20 (bits (s.ch k 0x20) 0 6)
  match action with
  | 1 => s'.setCh k { c with state := .active, fetching := c.desc.isNone, faulted := none }
  | 2 =>
    match c.desc with
    | none => dmaComplete s k
    | some x =>
      if dDecomp x || decide (c.written + 1 ≥ (burstsOf x).length) then dmaComplete s k
      else s'.setCh k { c with state := .active, written := c.written + 1, skipped := c.skipped + 1 }
  | _ => s'.setCh k { c with state := .idle, next := nextIndex s k, pending := 0, desc := none, fetching := false, written := 0, skipped := 0,
                             faulted := none, streamPos := 0, lines := [] }

/-- A write of CFG (R141, R148): `none` where it is ignored and logged. -/
def writeDmaCfg (s : State) (k v : Nat) : Option State :=
  let d := k / 32
  let c := s.chOf k
  let valid := v.testBit 6
  let quota := bits v 8 7
  let others := ((List.range 32).map fun i => if i ≠ k % 32 && s.chValid (32 * d + i) then s.chQuota (32 * d + i) else 0).sum
  if valid && (quota = 0 || decide (quota > 64) || decide (others + quota > 64)) then none
  else if !valid && s.chValid k && c.state != .idle then none
  else
    let s := s.setChReg k 0 (bits v 0 15)
    some (s.setCh k { c with state := if valid then (if c.state = .disabled then .idle else c.state) else .disabled })

end Sys2Proof.Machine
end

