-- ==== Sys2Proof/Machine/CmdEnd.lean ====
section
/-!
DEFINITION. How an engine ends its part of a command (R213, R217, R219, R240): the command's report, the merge of statuses
in ascending engine code, and the drain of a sequencer whose operation failed.
Rows of notes/assumptions: DEDUCED 59, 62, 73, 144, 153; DESIGN CHOICE 6.
-/
namespace Sys2Proof.Machine

open Sys2Proof

/-- Engine codes of R220. -/
def ecDma (d : Nat) : Nat := 0x20 + d
def ecXch (h : Nat) : Nat := 0x28 + h
def ecNmu (s : Nat) : Nat := 0x30 + s
def ecFe : Nat := 0xF0

/-- The fetched command with ring index `n` of a queue. -/
def State.cmdOf (s : State) (q n : Nat) : Option Cmd := (s.queueOf q).cmds.find? fun c => c.n == n

/-- The pair's side of a binding starts afresh, with an empty reassembly buffer (R207). -/
def freshPair (s : State) (p : Pair) : State := { s with pair := p }.setReg .nmu 0 0x210 p.reasm.length

/-- The engine that carries out a command, for the order of a queue's commands on one engine (R215, R220): the DMA engine of a die,
the half of the exchange engine, the update units, the catalogue, a RUN_LIST's sequencers, the binding of the pair, or the
front end. -/
def cmdEngine (raw : Nat) : Nat :=
  match raw % 256 with
  | 0x40 | 0x41 => 0x20 + bits raw 64 2
  | 0x60 | 0x61 | 0x62 => 0x28 + bits raw 64 1
  | 0x30 | 0x31 | 0x50 | 0x51 => 0x30
  | 0x63 => 0x100
  | 0x01 => 0x101
  | 0xD0 => 0x102
  | _ => ecFe

/-- The oldest command of a queue with an opcode that has started and has not been carried out, where no earlier command of the
queue waits for the same engine (R215); none after a fatal error (R389). -/
def actCmd (s : State) (q opc : Nat) : Option Cmd :=
  if s.halted || s.obs.fatal ≠ 0 then none
  else
  let live := (s.queueOf q).cmds.filter fun c => c.started && !c.acted && !c.ended
  match live.find? fun c => c.raw % 256 == opc with
  | none => none
  | some c => if (live.takeWhile fun d => d.n != c.n).any (fun d => cmdEngine d.raw == cmdEngine c.raw) then none else some c

/-- Changes that command. -/
def updCmd (s : State) (q n : Nat) (f : Cmd → Cmd) : State :=
  let x := s.queueOf q
  s.setQueue q { x with
    ends := x.ends + 1
    cmds := x.cmds.map fun c =>
      if c.n == n then
        let d := f c
        if d.ended && !c.ended then { d with endNo := x.ends } else d
      else c }

/-- INFO (R218): the engine, its ERR_INFO code, and the detail. -/
def infoWord (eng code detail : Nat) : Nat := eng + code % 256 * 2 ^ 8 + 2 ^ 16 * (detail % 2 ^ 48)

/-- Takes an engine's report into a command: the first status other than OK in ascending engine code is the command's
(R213), and the last report ends it. -/
def takeReport (c : Cmd) (eng : Nat) (e : Option EndStatus) : Cmd :=
  if c.ended then c else
  let c := match e with
    | none => c
    | some e =>
      if c.status = 0 || decide (eng < c.info % 256) then { c with status := e.status, info := infoWord eng e.code e.detail } else c
  let left := c.engines.filter (· != eng)
  let c := { c with engines := left }
  if left.isEmpty then
    { c with ended := true
             status := if c.aborted then c.abortStatus else c.status
             info := if c.aborted then infoWord 0xFF 0 0 else c.info }
  else c

/-- The die an engine stands on (R13, R220). -/
def engineAt (eng : Nat) : Nat :=
  if eng < 20 then eng / 5 else if 0x20 ≤ eng && eng < 0x24 then eng - 0x20 else if eng = 0x29 then 5
  else if 0x30 ≤ eng && eng < 0x48 then (eng - 0x30) / 6 else 4

/-- An engine reports its end of a command to the front end. -/
def reportEngine (s : State) (q n eng : Nat) (e : Option EndStatus) : State :=
  updCmd (crossTo s (engineAt eng) 4) q n fun c => takeReport c eng e

/-- A command that the front end itself carries out ends with a status, unless it has been ended. -/
def endCmd (s : State) (q n status info : Nat) : State :=
  updCmd s q n fun c =>
    if c.ended then c else { c with acted := true, ended := true, status := status, info := info, engines := [] }

/-- A command fails a check with a status: its record carries the time of the check, and INFO the offset of the offending
field (R214). -/
def failCmd (s : State) (q n status off : Nat) : State :=
  updCmd s q n fun c => { c with started := true, acted := true, ended := true, check := status, status := status,
                                 info := infoWord ecFe 0 off, start := s.gtime, engines := [] }

/-- A command that the front end carries out ends with a status other than OK. -/
def badCmd (s : State) (q n status : Nat) : State := endCmd s q n status (infoWord ecFe 0 0)

/-- A command of the front end completes. -/
def doneCmd (s : State) (q n : Nat) : State := endCmd s q n stOk 0xFF

/-- The requests of a turned-back attempt: what was asked of the host stays asked, and nothing else has happened. -/
def isRequest (m : Msg) : Bool :=
  match m.kind with
  | .memRead | .memWrite | .claim | .evict | .writeback | .atomic | .xlateReq => true
  | _ => false

/-- The state before an attempt that must wait for the host, with the attempt's requests sent and the bridges they crossed. -/
def keepRequests (s s' : State) : State :=
  { s with bxl := s'.bxl, mmu := s'.mmu, bridge := s'.bridge, outbox := s.outbox ++ (s'.outbox.drop s.outbox.length).filter isRequest }

end Sys2Proof.Machine
end

