-- ==== Sys2Proof/Machine/Link.lean ====
section
/-!
DEFINITION. Ports and their link layer (R244–R250, R253, R261–R264, R316–R318, R321): training, codewords, replay, credits,
probation, degradation and the bonded pair link. Port 36 is the Brixcia port. What a received Brixcia message or mirror
packet says comes in commands of its own; their flits are followed here.
Rows of notes/assumptions: DEDUCED 33, 90, 92, 153, 166, 169, 202; DESIGN CHOICE 168.
-/
namespace Sys2Proof.Machine

open Sys2Proof

/-! Port states (R264, R332): the code stands in LNK.STATUS or BXL.STATUS -/

def lsDown : Nat := 0
def lsDetect : Nat := 1
def lsEqualize : Nat := 2
def lsLock : Nat := 3
def lsInit : Nat := 4
def lsProbation : Nat := 5
def lsUp : Nat := 6
def lsFenced : Nat := 7
def lsFailed : Nat := 8

/-- The Brixcia port. -/
def bxlPort : Nat := 36

/-- The link layer of the bonded pair link. -/
def pairLink : Nat := 37

def State.portState (s : State) (p : Nat) : Nat :=
  if p = bxlPort then s.field .bxl 0 0x100 0 4 else s.field .lnk p 0x108 0 4

/-- Sets a port's state; UP shows, and ELIGIBLE and BONDED last no longer than it (R246, R250, R262). -/
def State.setPortState (s : State) (p st : Nat) : State :=
  if p = bxlPort then s.setField .bxl 0 0x100 0 4 st
  else
    let v := s.reg .lnk p 0x108
    let keep := if st = lsUp || st = lsProbation then bits v 5 2 else 0
    s.setReg .lnk p 0x108 (withBits (withBits (withBits v 0 4 st) 4 1 (bit (st == lsUp))) 5 2 keep)

def State.portOf (s : State) (p : Nat) : PortX := tabGet {} s.port p
def State.setPort (s : State) (p : Nat) (v : PortX) : State := { s with port := tabSet {} s.port p v }
def State.linkOf (s : State) (l : Nat) : LinkLayer := tabGet {} s.link l
def State.setLink (s : State) (l : Nat) (v : LinkLayer) : State := { s with link := tabSet {} s.link l v }

/-- Whether the port is in the bonded pair link. -/
def State.bonded (s : State) (p : Nat) : Bool := decide (p < 36) && (s.reg .lnk p 0x108).testBit 6

/-- The link layer that a port runs (R250). -/
def State.layerOf (s : State) (p : Nat) : Nat := if s.bonded p then pairLink else p

/-- The bonded ports in UP. -/
def State.pairPorts (s : State) : List Nat := [32, 33, 34, 35].filter fun p => s.bonded p && s.portState p == lsUp

/-- The bonded ports that carry flits: those in UP, or in PROBATION. -/
def State.pairLive (s : State) : List Nat :=
  [32, 33, 34, 35].filter fun p => s.bonded p && (s.portState p == lsUp || s.portState p == lsProbation)

/-- Whether the bonded pair link is up (R250). -/
def State.pairUp (s : State) : Bool := !s.pairPorts.isEmpty

/-- Records an event of a port whose code the manual does not give (R263): 0 corrected symbols, 1 uncorrectable codeword,
2 flit CRC or sequence error, 3 retrain, 4 training failure, 5 retrain not recovered. -/
def lnkRecord (s : State) (p ev sev : Nat) : State :=
  capture s .lnk p { sev := sev, addr := Config.errAddr (blockCode .lnk) ev p, info := Config.errInfo (blockCode .lnk) ev p }

/-- Records a link-level event of the Brixcia port (R330). -/
def bxlRecord (s : State) (code : Nat) : State := bxlFault s { sev := sevCorrected, info := code }

/-- The lifetime log counts a replay (2p) or a retrain (2p + 1) of a port (R392). -/
def noteLink (s : State) (k : Nat) : State :=
  { s with life := { s.life with link := tabMod 0 s.life.link k fun v => satAdd 32 v 1 } }

/-! Entering DETECT -/

/-- Enters DETECT; leaving UP or PROBATION counts as a retrain (R246), and one that an error caused is recorded (R263, R330). -/
def enterDetect (s : State) (p : Nat) (retrain error : Bool) : State :=
  let s := if !retrain then s
    else if p = bxlPort then
      let s := (noteLink s (2 * p + 1)).bump .bxl 0 0x148 1
      if error then bxlRecord s 2 else s
    else
      let s := (noteLink s (2 * p + 1)).bump .lnk p 0x124 1
      if error then lnkRecord s p 3 sevCorrected else s
  let x := s.portOf p
  let was := s.bonded p
  (s.setPortState p lsDetect).setPort p
    { x with since := s.gtime, retrained := retrain, lost := false, wasBonded := retrain && was, uncorr := 0 }

/-- Retrains a port in UP or PROBATION (R247). -/
def retrainPort (s : State) (p : Nat) (error : Bool) : State :=
  if s.portState p = lsUp || s.portState p = lsProbation then enterDetect s p true error else s

/-! Sending flits -/

/-- Flits a sender may have unacknowledged (R249, R250, R318). -/
def replaySize (l : Nat) : Nat := if l = pairLink then 2048 else if l = bxlPort then 1024 else 512

/-- How long ACK may stand still while flits are outstanding, in ns (R249, R318). -/
def ackLimit (l : Nat) : Nat := if l = bxlPort then 1000 else 2000

/-- The ACK that every flit carries: the last DATA flit accepted. -/
def ackNow (x : LinkLayer) : Nat := (x.expect + 4095) % 4096

/-- How many of lanes 0–3 and of lanes 4–7 a port runs on (R244, R316). -/
def State.lanes (s : State) (p : Nat) : Nat × Nat :=
  if p ≠ bxlPort then (4, 0)
  else if !(s.reg .bxl 0 0x100).testBit 4 then (4, 4)
  else if (s.reg .bxl 0 0x100).testBit 5 then (0, 4)
  else (4, 0)

/-- The physical port that the next flit of a layer leaves on: the bonded link takes its UP ports in turn (R250), and with none the
ports in PROBATION, which carry the replay and the flits of probation (R249, R262; log entry 202). -/
def flitPort (s : State) (l : Nat) : State × Nat :=
  if l = pairLink then
    let ps := if s.pairUp then s.pairPorts else s.pairLive
    ({ s with rtr := { s.rtr with rr := s.rtr.rr + 1 } }, ps.getD (s.rtr.rr % max ps.length 1) 32)
  else (s, l)

/-- What one flit of a layer sends on a port: a codeword of the flit and four IDLE flits, under the port's codeword counter (R245,
R248). -/
def flitMsg (s : State) (l p ty seq : Nat) (body : List Byte) : Msg :=
  let x := s.linkOf l
  let c := (s.portOf p).counter
  { kind := .flit, dest := p, args := [c],
    data := laneBytes ((s.lanes p).1 + (s.lanes p).2) c (flitBytes ty seq (ackNow x) body :: List.replicate 4 (flitBytes 1 x.next (ackNow x) [])) }

/-- Sends one flit of a layer on a port (R248). -/
def sendOn (s : State) (l p ty seq : Nat) (body : List Byte) : State :=
  let t := (s.send (flitMsg s l p ty seq body)).setPort p { s.portOf p with counter := ((s.portOf p).counter + 1) % 65536 }
  if p = bxlPort then countEvent t .bxl 0 0x60 none 5
  else if ty = 0 then countEvent t .lnk p 0x40 none 1
  else t

/-- Sends one flit of a layer. -/
def sendFlit (s : State) (l ty seq : Nat) (body : List Byte) : State := sendOn (flitPort s l).1 l (flitPort s l).2 ty seq body

/-- Whether a layer may carry flits now, and whether it may begin a packet. -/
def State.linkCarries (s : State) (l : Nat) : Bool :=
  if l = pairLink then !s.pairLive.isEmpty else s.portState l == lsUp || s.portState l == lsProbation
def State.linkBegins (s : State) (l : Nat) : Bool := if l = pairLink then s.pairUp else s.portState l == lsUp

/-- Bytes that wait to leave on a layer. -/
def LinkLayer.backlog (x : LinkLayer) : Nat := x.begun.length + (x.waiting.map (·.length)).sum

/-- Takes `n` bytes off packets that wait: what is left of one begun, and the packets not begun. -/
def takeBytes : Nat → List (List Byte) → List Byte × List (List Byte)
  | _, [] => ([], [])
  | n, p :: ps => if n = 0 then ([], p :: ps) else if n < p.length then (p.drop n, ps) else takeBytes (n - p.length) ps

/-- Puts what waits into one DATA flit and sends it, if the window and the port allow; packets are placed without gaps
(R248, R249). -/
def pumpFlit (s : State) (l : Nat) : State :=
  let x := s.linkOf l
  let bytes := x.begun ++ if s.linkBegins l then x.waiting.flatten else []
  if bytes.isEmpty || decide (x.replay.length ≥ replaySize l) || !s.linkCarries l then s
  else
    let b := (bytes ++ leBytes 0 120).take 120
    let rest := takeBytes (120 - x.begun.length) x.waiting
    let y := if 120 ≤ x.begun.length || !s.linkBegins l then { x with begun := x.begun.drop 120 }
      else { x with begun := rest.1, waiting := rest.2 }
    let s := s.setLink l { y with
      replay := x.replay ++ [(x.next, b)]
      next := (x.next + 1) % 4096
      ackAt := if x.replay.isEmpty then s.gtime else x.ackAt }
    sendFlit s l 0 x.next b

/-- Sends all that waits and may leave. -/
def pumpLink (s : State) (l : Nat) : State :=
  (List.range ((s.linkOf l).backlog / 120 + 1)).foldl (fun s _ => pumpFlit s l) s

/-- Replays every unacknowledged flit in order (R249). -/
def replayAll (s : State) (l : Nat) : State :=
  if !s.linkCarries l then s
  else (s.linkOf l).replay.foldl (fun s e => sendFlit s l 0 e.1 e.2) s

/-- The layer's ports retrain (R249). -/
def retrainLayer (s : State) (l : Nat) : State :=
  let s := s.setLink l { s.linkOf l with replays := 0 }
  if l = pairLink then s.pairLive.foldl (fun s p => retrainPort s p true) s else retrainPort s l true

/-- A replay: counted, it restarts a probation, and the eighth without an advance of ACK retrains (R249, R262, R318). -/
def startReplay (s : State) (l p : Nat) : State :=
  let x := s.linkOf l
  let s := noteLink s (2 * p)
  let s := if p = bxlPort then bxlRecord (s.bump .bxl 0 0x144 1) 1 else s.bump .lnk p 0x120 1
  let s := s.setLink l { x with replays := x.replays + 1, ackAt := s.gtime }
  let s := s.setPort p { s.portOf p with errFree := s.gtime }
  let s := replayAll s l
  if x.replays + 1 ≥ 8 then retrainLayer s l else s

/-- Frees what an ACK names and everything before it (R249). -/
def takeAck (s : State) (l a : Nat) : State :=
  let x := s.linkOf l
  match x.replay.findIdx? fun e => e.1 == a with
  | none => s
  | some k => pumpLink (s.setLink l { x with replay := x.replay.drop (k + 1), replays := 0, ackAt := s.gtime }) l

/-- Commits a packet to leave on a layer. -/
def transmit (s : State) (l : Nat) (k : Pkt) : State :=
  let x := s.linkOf l
  let u := (tabGet 0 x.used k.vc + pktUnits k) % 65536
  pumpLink (s.setLink l { x with used := tabSet 0 x.used k.vc u, waiting := x.waiting ++ [pktBytes k] }) l

/-! Credits (R253, R321) -/

/-- Units of a virtual channel's input buffer. -/
def bufUnits (vc : Nat) : Nat :=
  match vc with
  | 0 => 64
  | 1 => 2048
  | 2 => 512
  | _ => 32

/-- Units of the peer's buffer for a channel: the companion advertises those of channels 3 and 4 at INIT (R321). -/
def peerUnits (s : State) (l vc : Nat) : Nat :=
  if l = bxlPort then (match (s.portOf bxlPort).init with
    | some i => i.bufs.getD (vc - 3) 0 / 64
    | none => 0)
  else bufUnits vc

/-- Credits held for a channel. -/
def credits (s : State) (l vc : Nat) : Nat :=
  let x := s.linkOf l
  peerUnits s l vc - (65536 + tabGet 0 x.used vc - tabGet 0 x.returned vc) % 65536

/-- Channels of a layer. -/
def channels (l : Nat) : Nat := if l = bxlPort then 5 else 4

/-- The body of a CREDIT flit: the cumulative count of each channel. -/
def creditBody (l : Nat) (freed : Tab Nat) : List Byte :=
  (List.range (channels l)).flatMap fun v => leBytes (tabGet 0 freed v) 2 ++ leBytes 0 6

/-- Sends a CREDIT flit of a layer on a port with the cumulative counts. -/
def sendCreditOn (s : State) (l p : Nat) : State :=
  let x := s.linkOf l
  let s := (s.setLink l { x with told := x.freed }).setPort p { s.portOf p with creditAt := s.gtime }
  sendOn s l p 3 x.next (creditBody l x.freed)

/-- Sends a CREDIT flit of a layer; it takes no turn from the DATA flits (R250). -/
def sendCredit (s : State) (l : Nat) : State := sendCreditOn s l (flitPort s l).2

/-- Returns the credits of a packet that has left an input buffer. -/
def freeUnits (s : State) (l vc n : Nat) : State :=
  let x := s.linkOf l
  let f := (tabGet 0 x.freed vc + n) % 65536
  let s := s.setLink l { x with freed := tabSet 0 x.freed vc f }
  if (65536 + f - tabGet 0 x.told vc) % 65536 ≥ 32 && s.linkCarries l then sendCredit s l else s

/-- A PROBE packet to the peer, which crosses this link only (R262): one DATA flit of the port's layer, between packets. -/
def sendProbe (s : State) (p : Nat) : State :=
  let l := s.layerOf p
  let x := s.linkOf l
  if credits s l 0 = 0 || !x.begun.isEmpty || decide (x.replay.length ≥ replaySize l) then s
  else
    let k : Pkt := { typ := 0xB, vc := 0, dst := ((s.portOf p).init.map (·.dev)).getD 0, src := s.field .rtr 0 0x100 0 15 }
    let b := (pktBytes k ++ leBytes 0 120).take 120
    let s := s.setLink l { x with
      used := tabMod 0 x.used 0 fun u => (u + 1) % 65536
      replay := x.replay ++ [(x.next, b)]
      next := (x.next + 1) % 4096
      ackAt := if x.replay.isEmpty then s.gtime else x.ackAt }
    sendOn s l p 0 x.next b

/-- CREDIT_TIMER (R253): a CREDIT flit, 1 µs after the port's last; a fabric port in probation sends a PROBE packet as well
(R262). -/
def execCreditTimer (p : LnkId) (s : State) : Out :=
  let l := s.layerOf p
  if s.linkCarries l && decide (s.gtime ≥ (s.portOf p).creditAt + 1000) then
    let s := sendCreditOn s l p
    .next (if s.portState p = lsProbation then sendProbe s p else s)
  else .next s

/-- Held messages leave in order on each channel while its credits allow (R321). -/
def releaseGo (s : State) (l : Nat) : List (Nat × List Byte) → List Nat → LinkLayer → LinkLayer
  | [], _, x => x
  | (v, b) :: hs, shut, x =>
    let n := ceilDiv b.length 64
    if shut.contains v || decide (peerUnits s l v < n + (65536 + tabGet 0 x.used v - tabGet 0 x.returned v) % 65536) then
      releaseGo s l hs (v :: shut) { x with held := x.held ++ [(v, b)] }
    else releaseGo s l hs shut { x with used := tabMod 0 x.used v fun u => (u + n) % 65536, waiting := x.waiting ++ [b] }

def releaseHeld (s : State) (l : Nat) : State :=
  let x := s.linkOf l
  pumpLink (s.setLink l (releaseGo s l x.held [] { x with held := [] })) l

/-- The packets that carry what one member of a pair says to the other (R250, R367, R368): sealed data packets of up to 4,096 B,
or a control packet. -/
def pairPackets (s : State) (m : Msg) : State × List (Nat × List Byte) :=
  let what := m.args.headD 0
  if what = 1 || what = 3 then
    let id := s.rtr.nextMsg
    let n := ceilDiv m.data.length 4080
    let total := m.data.length + 16 * n
    let ps := (List.range n).map fun i =>
      let part := (m.data.drop (4080 * i)).take 4080
      let k : Pkt := {
        typ := 1, vc := 1, last := i + 1 == n, dst := m.dest, src := s.field .rtr 0 0x100 0 15, msgId := id,
        epoch := s.field .rtr 0 0x104 0 8, offset := 4096 * i, total := total, body := List.replicate (part.length + 16) 0 }
      let k := { k with body := pairSeal s.pair.txKey (s.pair.txCtr + i) (pktHead k) part }
      (1, pktBytes { k with pcrc := pcrcOf k })
    ({ s with rtr := { s.rtr with nextMsg := (id + 1) % 2 ^ 32 }, pair := { s.pair with txCtr := s.pair.txCtr + n } }, ps)
  else
    let hs := what = 0
    let k : Pkt := {
      typ := if hs then 0xA else 8, vc := if hs then 3 else 0, dst := m.dest, src := s.field .rtr 0 0x100 0 15,
      epoch := s.field .rtr 0 0x104 0 8,
      body := if hs then leBytes (pack [(0, 8, m.args.getD 1 0), (16, 16, m.args.getD 2 0), (32, 16, m.args.getD 3 0)]) 8 ++ m.data
        else leBytes (Config.pairBody m.args) 48 }
    (s, [(k.vc, pktBytes k)])

/-- Takes what the outbox has gained for the companion and for the partner, and lets it leave as credits allow. -/
def linkTick (s : State) : State :=
  let out := s.outbox
  let x := s.linkOf bxlPort
  let s := s.setLink bxlPort { x with held := x.held ++ (out.drop x.taken).filterMap bxlMessage, taken := out.length }
  let y := s.linkOf pairLink
  let r := ((out.drop y.taken).filter fun m => m.kind == .pair).foldl (fun (a : State × List (Nat × List Byte)) m =>
    ((pairPackets a.1 m).1, a.2 ++ (pairPackets a.1 m).2)) (s, y.held)
  let s := r.1.setLink pairLink { y with held := r.2, taken := out.length }
  releaseHeld (releaseHeld s bxlPort) pairLink

/-! Training (R246, R317) -/

/-- SIGNAL_DETECT. -/
def execSignalDetect (p : LnkId) (s : State) : Out :=
  if s.portState p = lsDetect then .next (s.setPortState p lsEqualize) else .next s

/-- EQUALIZE_DONE. -/
def execEqualizeDone (p : LnkId) (s : State) : Out :=
  if s.portState p = lsEqualize then .next (s.setPortState p lsLock) else .next s

/-- The link layer whose last good sequence number a port's INIT flit names: the pair's for a port of the bonded link, which a port
that is to bond joins while the link stands or waits for a retrain; else its own (R250; log entry 202). -/
def State.initLayer (s : State) (p : Nat) : Nat :=
  let bond := (s.portOf p).wasBonded || [32, 33, 34, 35].any s.bonded
  if 32 ≤ p && p < 36 && (s.reg .lnk p 0x100).testBit 3 && bond then pairLink else p

/-- Enters INIT and sends the INIT flit: device, port, PAIR_SIDE, BOND, the last good sequence number, and on the Brixcia port
the receive buffers (R246, R248, R250, R317). -/
def enterInit (s : State) (p : Nat) : State :=
  let l := s.initLayer p
  let x := s.linkOf l
  let bond := decide (p < 36) && (s.reg .lnk p 0x100).testBit 3
  let par := [s.field .rtr 0 0x100 0 15, p, bit (s.pins.straps.testBit 6), bit bond, ackNow x] ++ if p = bxlPort then [65536, 32768, 131072] else []
  sendOn ((s.setPort p { s.portOf p with offered := l }).setPortState p lsInit) l p 4 x.next (leBytes (Config.initBody par) 120)

/-- LOCK_ACHIEVED: on all lanes (R246, R317). -/
def execLockAchieved (p : LnkId) (s : State) : Out :=
  if s.portState p = lsLock then
    .next (enterInit (if p.val = bxlPort then s.setReg .bxl 0 0x100 lsLock else s) p)
  else .next s

/-- BXL_HALF_WIDTH_TIMEOUT (R317): 50 ms without all eight lanes; the port locks on lanes 0–3 or 4–7. -/
def execBxlHalfWidthTimeout (hi : Bool) (s : State) : Out :=
  if s.portState bxlPort = lsLock && decide (s.gtime ≥ 50000000 + (s.portOf bxlPort).since) then
    .next (enterInit (s.setReg .bxl 0 0x100 (pack [(4, 1, 1), (5, 1, bit hi)])) bxlPort)
  else .next s

/-- Whether a port is between DETECT and INIT. -/
def State.training (s : State) (p : Nat) : Bool := decide (lsDetect ≤ s.portState p) && decide (s.portState p ≤ lsInit)

/-- Whether 500 ms have passed since a training port entered DETECT. -/
def State.trainingLate (s : State) (p : Nat) : Bool := s.training p && decide (s.gtime ≥ 500000000 + (s.portOf p).since)

/-- Ends every outstanding Brixcia request with a bus error and loses the lines in M (R318, R326). -/
def loseBxl (s : State) : State :=
  let ends := s.bxl.reqs.filterMap fun e => e.2.map fun r => ({ agent := r.agent, mtype := r.mtype, addr := r.addr, size := r.size, result := 1 } : HostAns)
  let lines := s.bxl.lines.filter fun e => e.2.st != .m
  { s with bxl := { s.bxl with
      reqs := [], answers := s.bxl.answers ++ ends.filter (·.agent != agNone), lines := lines
      order := s.bxl.order.filter fun l => (tabGet {} lines l).st != .i } }

/-- Discards what a layer has sent and what it has begun; what it has not begun stays (R249). -/
def dropBuffer (s : State) (l : Nat) : State :=
  s.setLink l { s.linkOf l with replay := [], begun := [], stream := [], replays := 0 }

/-- A retrain has failed: the buffer is discarded, that of the bonded link with the last of its ports; the Brixcia Link is lost
(R249, R250, R318). -/
def loseRetrain (s : State) (p : Nat) : State :=
  let x := s.portOf p
  if !x.retrained || x.lost then s
  else if p = bxlPort then
    let s := (s.bump .bxl 0 0x148 1).setPort p { x with lost := true }
    let s := s.setLink p { taken := s.outbox.length }
    loseBxl (fatalError (failLoad s 3) fcBxlLink .bxl 0 { sev := sevFatal, info := 3 })
  else
    let s := dropBuffer (s.setPort p { x with retrained := false, wasBonded := false }) p
    lnkRecord (if x.wasBonded && !s.pairUp then dropBuffer s pairLink else s) p 5 sevFailed

/-- TRAINING_TIMEOUT (R246, R317): a failed retrain of the Brixcia port is no FAILED. -/
def execTrainingTimeout (p : LnkId) (s : State) : Out :=
  if s.trainingLate p then
    if p.val = bxlPort && (s.portOf p).retrained then .next (loseRetrain s p)
    else
      let s := loseRetrain s p
      let s := (s.setPortState p lsFailed).setPort p { s.portOf p with since := s.gtime, retrained := false, init := none }
      .next (if p.val = bxlPort then s else lnkRecord s p 4 sevFailed)
  else .next s

/-- FAILED_RETRY. -/
def execFailedRetry (p : LnkId) (s : State) : Out :=
  let go := s.portState p = lsFailed && decide (s.gtime ≥ 1000000000 + (s.portOf p).since)
  if go && (p.val = bxlPort || (s.reg .lnk p 0x100).testBit 0) then .next (enterDetect s p false false) else .next s

/-- RETRAIN_EXPIRY (R249, R318). -/
def execRetrainExpiry (p : LnkId) (s : State) : Out :=
  if s.trainingLate p then .next (loseRetrain s p) else .next s

/-! Probation and degradation -/

/-- LNK.PROBATION.ELAPSED (R262). -/
def State.elapsed (s : State) (p : Nat) : Nat :=
  if s.portState p = lsProbation then min ((s.gtime - (s.portOf p).errFree) / 1000000000) 65535 else 0

/-- PROBATION_END (R262). -/
def execProbationEnd (p : PortId) (s : State) : Out :=
  if s.portState p = lsProbation && decide (s.gtime ≥ (s.portOf p).errFree + 1000000000 * s.field .lnk p 0x10C 0 16) then
    let s := s.setPortState p lsUp
    .next (pumpLink s (s.layerOf p))
  else .next s

/-- DEGRADE_CHECK (R247, R318): at each GTIME second. -/
def execDegradeCheck (p : LnkId) (s : State) : Out :=
  let x := s.portOf p
  if !s.pins.inReset && decide (s.gtime / 1000000000 > x.second) then
    let overs := if p.val = bxlPort then decide (x.uncorr > 16)
      else s.field .lnk p 0x110 0 16 != 0 && decide (x.uncorr > s.field .lnk p 0x110 0 16)
    let s := s.setPort p { x with uncorr := 0, second := s.gtime / 1000000000 }
    .next (if overs && s.portState p == lsUp then retrainPort s p true else s)
  else .next s

/-- REPLAY_TIMEOUT (R249, R318). -/
def execReplayTimeout (p : LnkId) (s : State) : Out :=
  let l := s.layerOf p
  let x := s.linkOf l
  if !x.replay.isEmpty && decide (s.gtime ≥ x.ackAt + ackLimit l) && s.linkCarries l then .next (startReplay s l p) else .next s

/-! Bonding (R250) -/

/-- Whether the four pair ports' INIT exchanges make one bonded link. -/
def bondReady (s : State) : Bool :=
  let is := [32, 33, 34, 35].map fun p => (s.portOf p).init
  let side := (s.reg .dev 0 0x100).testBit 6
  ([32, 33, 34, 35].all fun p => (s.reg .lnk p 0x100).testBit 3) &&
  match is.headD none with
  | none => false
  | some a => is.all fun i => i.any fun i => i.dev == a.dev && i.side != side && i.bond

/-- Whether an INIT exchange of a pair port, or a BOND bit, keeps the four ports from being one bonded link (R250). -/
def bondBroken (s : State) : Bool :=
  let is := [32, 33, 34, 35].filterMap fun p => (s.portOf p).init
  let side := (s.reg .dev 0 0x100).testBit 6
  !([32, 33, 34, 35].all fun p => (s.reg .lnk p 0x100).testBit 3) ||
    is.any fun i => i.side == side || !i.bond || (is.head?.any fun a => a.dev != i.dev)

/-- The bonded link's layer as it begins: with no flit sent or accepted. -/
def freshLayer (x : LinkLayer) : LinkLayer := { held := x.held, taken := x.taken }

/-- Sets BONDED on the pair ports that have finished INIT, once bonding is ready; where it cannot be, the four ports run unbonded. A link
that has no port yet, and that no port's retrain is to bring back, begins afresh (log entry 202). -/
def bondPorts (s : State) : State :=
  if bondReady s then
    let s := if [32, 33, 34, 35].any fun p => s.bonded p || (s.portOf p).wasBonded then s
      else s.setLink pairLink (freshLayer (s.linkOf pairLink))
    [32, 33, 34, 35].foldl (fun s p =>
      if s.portState p = lsUp || s.portState p = lsProbation then s.setField .lnk p 0x108 6 1 1 else s) s
  else if bondBroken s then [32, 33, 34, 35].foldl (fun s p => s.setField .lnk p 0x108 6 1 0) s
  else s

/-- The peer's last good sequence number (R249): what it names is freed, the rest is replayed, and packets begun go on. A layer
that holds nothing numbers on from it. -/
def resumeLayer (s : State) (l last : Nat) : State :=
  let s := takeAck s l (last % 4096)
  let x := s.linkOf l
  if x.replay.isEmpty then pumpLink (s.setLink l { x with next := (last + 1) % 4096 }) l else pumpLink (replayAll s l) l

/-- The layer `l` that a port runs after INIT goes on from the peer's last good number, where the INIT flits were about that layer
(R249). The bonded link that other ports keep up replays nothing; one that this INIT forms begins afresh; and a port that leaves the
bond expects on its own layer what follows the number it named (R250; log entry 202). -/
def resumePort (s : State) (p l last : Nat) : State :=
  let offered := (s.portOf p).offered
  if l = pairLink then
    if offered ≠ pairLink then s else if s.pairUp then takeAck s l (last % 4096) else resumeLayer s l last
  else if offered = pairLink then resumeLayer (s.setLink l { s.linkOf l with expect := (s.linkOf pairLink).expect, stream := [] }) l last
  else resumeLayer s l last

/-- INIT flits exchanged (R246, R249, R317): probation begins, after the replay. The Brixcia port is UP at once, unless the
companion advertises a buffer below 32 KiB (R321); the ROM then waits for an image (R331). -/
def takeInit (s : State) (p : Nat) (i : InitPar) : State :=
  if s.portState p ≠ lsInit then s
  else if p = bxlPort then
    if i.bufs.length < 2 || i.bufs.any (· < 32768) then malformed s 0
    else
      let s := (s.setPortState p lsUp).setPort p { s.portOf p with retrained := false, init := some i }
      let s := resumeLayer s p i.last
      if s.field .sec 0 0x100 0 4 = bsWaitImage && s.field .sec 0 0x100 10 2 == 0 && s.reg .bxl 0 0x190 % 16 == 0 then
        s.setField .bxl 0 0x190 0 4 1
      else s
  else
    let s := s.setPort p { s.portOf p with retrained := false, init := some i, errFree := s.gtime }
    let s := s.setReg .lnk p 0x108 (withBits (s.reg .lnk p 0x108) 8 22 (i.dev % 2 ^ 15 + 2 ^ 15 * (i.port % 64) + 2 ^ 21 * bit i.side))
    let s := s.setPortState p lsProbation
    let s := if p ≥ 32 then bondPorts s else s
    let s := s.setPort p { s.portOf p with wasBonded := false }
    sendProbe (resumePort s p (s.layerOf p) i.last) p

/-! Receiving (R245, R248, R249) -/

/-- One NAK until a DATA flit is accepted again, on the port that met the error (R249). -/
def sendNak (s : State) (l p : Nat) : State :=
  let x := s.linkOf l
  if x.nakked || !s.linkCarries l then s else sendOn (s.setLink l { x with nakked := true }) l p 2 x.next []

/-- An error on a port restarts its probation (R262). -/
def restartProbation (s : State) (p : Nat) : State := s.setPort p { s.portOf p with errFree := s.gtime }

/-- The router's input buffer of a port and channel takes a packet (R253). -/
def pushInput (s : State) (input vc : Nat) (k : Pkt) : State :=
  let b := tabGet {} s.rtr.inb (4 * input + vc)
  let b := { b with pkts := b.pkts ++ [k], since := if b.pkts.isEmpty then s.gtime else b.since }
  { s with rtr := { s.rtr with inb := tabSet {} s.rtr.inb (4 * input + vc) b } }

/-- A packet that a port receives. PROBE packets end here, and so do MGMT packets off the pair link (R262, R367); the bonded
link's packets go to the mirror pair, whose own commands say what they hold (R250). -/
def takePacket (l p : Nat) (s : State) (k : Pkt) : State :=
  if k.typ = 0xB || k.typ = 0xA || l = pairLink then freeUnits s l k.vc (pktUnits k) else pushInput s p k.vc k

/-- Whether the data that follows a message's header is what its type, SIZE and STATUS call for, and a message that takes no response
has TAG 0 (R319, R320). -/
def hostFits (s : State) (h : Nat) : Bool :=
  let mtype := bits h 0 8
  let n := bits h 24 7
  let asked := ((tabGet none s.bxl.reqs (bits h 12 12)).map fun r => r.answerUnits - 1)
  decide (n ≤ 64) && match mtype with
    | 0x20 | 0x21 => match asked with
      | some k => n == k || (bits h 36 4 != 0 && n == 0)
      | none => true
    | 0x51 => n == ceilDiv (bits h 64 6 + bits h 32 13) 64 && bits h 12 12 == 0
    | _ => n == 0

/-- A message that the companion sends (R319, R320): one that breaks the rules of its header is malformed, and an MMIO_RD then
answered UR (R330). Its own command says what any other does. -/
def takeMessage (s : State) (b : List Byte) : State :=
  let h := leNat (b.take 16)
  let mtype := bits h 0 8
  let ofLine := (tabGet none s.bxl.reqs (bits h 12 12)).map (·.ofLine)
  let fits := hostFits s h && (hostInfo mtype).any fun m => bits h 32 32 &&& (max32 - m) == 0 && !h.testBit 31 && hostChannel mtype (bits h 8 3) ofLine
  let s := if fits then s
    else
      let s := malformed s (bits h 64 64)
      if mtype = 0x50 then mmioReply s (bits h 12 12) (bits h 64 64) bsUr false [] else s
  freeUnits s bxlPort (bits h 8 3) (ceilDiv b.length 64)

/-- Accepted bytes become packets or messages. -/
def takeStream (s : State) (l p : Nat) (body : List Byte) : State :=
  let x := s.linkOf l
  if l = bxlPort then
    let bs := x.stream ++ body
    let r := cutStream bxlLength (bs.length / 8 + 1) bs
    r.1.foldl takeMessage (s.setLink l { x with stream := r.2 })
  else
    let r := parseStream (x.stream ++ body)
    r.1.foldl (takePacket l p) (s.setLink l { x with stream := r.2 })

/-- A flit that fails its CRC, or is out of sequence (R249, R263, R330). -/
def flitError (s : State) (l p : Nat) (crc : Bool) : State :=
  let s := if p = bxlPort then bxlRecord (s.bump .bxl 0 0x140 1) 1
    else lnkRecord (if crc then restartProbation (s.bump .lnk p 0x11C 1) p else s) p 2 sevCorrected
  sendNak s l p

/-- A CREDIT flit: the units returned, by channel (R253, R321). -/
def takeCredit (s : State) (l : Nat) (body : List Byte) : State :=
  let x := s.linkOf l
  let s := s.setLink l { x with returned := (List.range (channels l)).foldl (fun t v => tabSet 0 t v (bits (leNat body) (64 * v) 16)) x.returned }
  if l = bxlPort || l = pairLink then releaseHeld s l else s

/-- One received flit. What an INIT flit says is the first of `inits`. -/
def takeFlit (p : Nat) (a : State × List InitPar) (bytes : List Byte) : State × List InitPar :=
  let s := a.1
  let f := readFlit bytes
  let l := s.layerOf p
  if !f.good then (flitError s l p true, a.2)
  else
    let s := takeAck s l f.ack
    match f.ty with
    | 0 =>
      let x := s.linkOf l
      if f.seq = x.expect then
        let s := s.setLink l { x with expect := (x.expect + 1) % 4096, nakked := false }
        (takeStream (if p = bxlPort then s else countEvent s .lnk p 0x41 none 1) l p f.body, a.2)
      else (flitError s l p false, a.2)
    | 2 => (startReplay s l p, a.2)
    | 3 => (takeCredit s l f.body, a.2)
    | 4 => match a.2 with
      | i :: is => (takeInit s p i, is)
      | [] => (s, [])
    | _ => (s, a.2)

/-- An uncorrectable codeword: its five flits are discarded (R245, R249, R263, R330). -/
def codewordLost (s : State) (p : Nat) : State :=
  let x := s.portOf p
  let s := s.setPort p { x with uncorr := x.uncorr + 1 }
  let s := if p = bxlPort then bxlRecord (s.bump .bxl 0 0x140 1) 1
    else lnkRecord (restartProbation (s.bump .lnk p 0x118 1) p) p 1 sevCorrected
  sendNak s (s.layerOf p) p

/-- Counts the symbols that decoding corrected (R245, R263). -/
def countCorrected (s : State) (p n : Nat) : State :=
  if p = bxlPort then countEvent s .bxl 0 0x61 none 5
  else if n = 0 then s
  else lnkRecord (s.bump .lnk p 0x114 n) p 0 sevCorrected

/-- CODEWORD_RX (R245, R249, R316): the symbols of the lanes make one codeword, which is decoded and its flits taken in order.
A port that does not run on just these lanes receives none. -/
def execCodewordRx (p : LnkId) (low high : List (List (BitVec 10))) (inits : List InitPar) (s : State) : Out :=
  if s.portState p < lsInit || s.portState p > lsUp || s.lanes p ≠ (low.length, high.length) then .next s
  else match rsDecode (undeal (544 / (low ++ high).length) ((low ++ high).map fun l => l.map (·.toNat))) with
    | none => .next (codewordLost s p)
    | some (m, c) => .next ((cwFlits m).foldl (takeFlit p) (countCorrected s p c, inits)).1

/-! LNK.CTRL (R246, R261, R264) -/

/-- The fabric manager fences the partner of a bound pair: LOST, with PRIOR the state it left (R200, R261). -/
def losePair (s : State) : State :=
  let v := s.reg .nmu 0 0x200
  let st := bits v 0 3
  if st = 0 || st = 5 then s else s.setReg .nmu 0 0x200 (withBits (withBits v 0 3 5) 3 3 st)

/-- Takes a port out of use, and what its link layer held with it. -/
def stopPort (s : State) (p st : Nat) : State :=
  let s := s.setLink p {}
  let s := s.setPort p { s.portOf p with retrained := false, init := none }
  s.setPortState p st

/-- Applies ENABLE and FENCE as they stand; with no configuration committed the port stays in DOWN (R246). -/
def applyLnk (s : State) (p : Nat) : State :=
  let c := s.reg .lnk p 0x100
  let st := s.portState p
  if !c.testBit 0 || !s.committed then (if st = lsDown then s else stopPort s p lsDown)
  else if c.testBit 1 then (if st = lsFenced then s else stopPort s p lsFenced)
  else if st = lsDown || st = lsFenced then enterDetect s p false false
  else s

/-- A write of LNK.CTRL. A BOND of 1 outside FP[32]–FP[35] is ignored, and the caller logs it. -/
def writeLnkCtrl (s : State) (p v : Nat) : State :=
  let v' := if p < 32 then bits v 0 4 % 8 else bits v 0 4
  let s := s.setReg .lnk p 0x100 (withBits v' 2 1 0)
  let s := if p ≥ 32 && bondBroken s then [32, 33, 34, 35].foldl (fun s q => s.setField .lnk q 0x108 6 1 0) s else s
  let s := applyLnk s p
  let s := if v.testBit 2 then retrainPort s p false else s
  if p ≥ 32 && [32, 33, 34, 35].all (fun q => s.portState q == lsFenced) then losePair s
  else if p ≥ 32 then bondPorts s else s

end Sys2Proof.Machine
end

