-- ==== Sys2Proof/Machine/Router.lean ====
section
/-!
DEFINITION. The router (R251–R258, R261, R265): banks and epochs, forwarding, fencing, stalls and the congestion map.
Rows of notes/assumptions: DEDUCED 20, 33, 91, 93, 144, 153, 169, 174; DESIGN CHOICE 9.
-/
namespace Sys2Proof.Machine

open Sys2Proof

/-- RTR.DEVICE.ID (R251). -/
def State.deviceId (s : State) : Nat := s.field .rtr 0 0x100 0 15

/-- RTR.EPOCH.CURRENT. -/
def State.routeEpoch (s : State) : Nat := s.field .rtr 0 0x104 0 8

/-! Records of R263: events 0 fenced, 1 hop limit, 2 stall, 3 unroutable, 4 PCRC, 5 malformed, 6 no record, 7 stale -/

def rtrEvent (s : State) (ev : Nat) : State :=
  capture (s.bump .rtr 0 (0x140 + 4 * ev) 1) .rtr 0
    { sev := sevFailed, addr := Config.errAddr (blockCode .rtr) ev 0, info := Config.errInfo (blockCode .rtr) ev 0 }

/-! Injection -/

def State.throttleOf (s : State) (half : Nat) : Throttle := tabGet {} s.rtr.throttle half
def State.setThrottle (s : State) (half : Nat) (v : Throttle) : State :=
  { s with rtr := { s.rtr with throttle := tabSet {} s.rtr.throttle half v } }

/-- Bytes in a half's injection queue of 256 KiB; what does not fit waits in the half behind it (R257). -/
def State.injectQueue (s : State) (half : Nat) : Nat :=
  min 262144 ((tabGet {} s.rtr.inb (4 * (36 + half) + 1)).pkts.map pktSize).sum

/-- Throttling begins at RTR.THROTTLE.HI and ends at LO (R257). -/
def judgeThrottle (s : State) (half : Nat) : State :=
  let x := s.throttleOf half
  let n := s.injectQueue half
  if !x.on && decide (n ≥ 4096 * s.field .rtr 0 0x11C 0 8) then s.setThrottle half { on := true }
  else if x.on && decide (n ≤ 4096 * s.field .rtr 0 0x11C 8 8) then s.setThrottle half {}
  else s

/-- A half hands a packet to the router, which injects it once it is forwarded (R251, R257). -/
def inject (s : State) (half : Nat) (k : Pkt) : State :=
  let vc := if k.isData then 1 else if k.typ = 0xA then 3 else 0
  let s := pushInput s (36 + half) vc { k with vc := vc }
  if k.isData then judgeThrottle s half else s

/-- A packet as the router takes it from an input buffer: one of a half's is injected now, its source and route epoch stamped
and its PCRC formed (R252, R256). -/
def injected (s : State) (input : Nat) (k : Pkt) : Pkt :=
  if input < 36 then k
  else
    let k := { k with src := s.deviceId, epoch := s.routeEpoch }
    if k.isData then { k with pcrc := pcrcOf k } else k

/-- Whether throttling holds an input back in this router cycle: RATE of every sixteen cycles inject (R257). -/
def State.heldBack (s : State) (input vc : Nat) : Bool :=
  decide (36 ≤ input) && vc == 1 && (s.throttleOf (input - 36)).on &&
    decide (s.field .rtr 0 0x11C 16 4 ≤ (s.throttleOf (input - 36)).sent)

/-- A router cycle of a throttled input passes, with a packet injected or not. -/
def throttleCycle (s : State) (input vc : Nat) (sent : Bool) : State :=
  let x := s.throttleOf (input - 36)
  if input < 36 || vc ≠ 1 || !x.on then s
  else s.setThrottle (input - 36) (if x.cycle ≥ 15 then { on := true } else { x with cycle := x.cycle + 1, sent := x.sent + bit sent })

/-! Table entries (R254) -/

def enAdapt (e : Nat) : Nat := bits e 0 36
def enEscPort (e : Nat) : Nat := bits e 36 6
def enEscUp (e : Nat) : Bool := e.testBit 42
def enValid (e : Nat) : Bool := e.testBit 43

/-- The key of a destination in a bank. -/
def routeKey (own dst : Nat) : Nat := if dst / 16 = own / 16 then 2048 + dst % 16 else dst / 16

/-- The entry that routes a packet, by the bank of its epoch (R256). -/
def routeEntry (s : State) (k : Pkt) : Nat :=
  let key := routeKey s.deviceId k.dst
  let now := s.routeEpoch
  if k.epoch = now then tabGet 0 s.rtr.cur key
  else if k.epoch = (now + 255) % 256 then tabGet 0 s.rtr.prev key
  else let e := tabGet 0 s.rtr.cur key; e - enAdapt e

/-- Whether the router may choose a port (R250, R254). -/
def State.usable (s : State) (p : Nat) : Bool :=
  decide (p < 36) && s.portState p == lsUp && (s.reg .lnk p 0x108).testBit 5 && !(s.reg .lnk p 0x100).testBit 1 && !s.bonded p

/-- Bytes committed to leave on a port; the bonded ports in UP share those of the pair link (R250, R254). -/
def State.occupancy (s : State) (p : Nat) : Nat :=
  if s.bonded p then (if s.pairPorts.contains p then ceilDiv (s.linkOf pairLink).backlog s.pairPorts.length else 0)
  else (s.linkOf p).backlog

/-- Whether a device is in the fence set (R261). -/
def State.fenced (s : State) (dev : Nat) : Bool := (tabGet 0 s.rtr.fence (dev / 32)).testBit (dev % 32)

/-- The member of a list of ports with the least occupancy, the lowest of equals. -/
def leastPort (s : State) : List Nat → Option Nat
  | [] => none
  | p :: ps => match leastPort s ps with
    | none => some p
    | some q => if s.occupancy p ≤ s.occupancy q then some p else some q

/-- What forwarding decides for a packet (R254, R255). -/
inductive Fwd where
  | eject
  | drop (ev : Nat)
  | send (port : Nat) (k : Pkt)
  | wait
deriving DecidableEq, Repr

/-- forward of R254, with the hop limit of R255. -/
def forward (s : State) (k : Pkt) : Fwd :=
  let e := routeEntry s k
  let ad := (setBits 36 (enAdapt e)).filter s.usable
  let escOk := s.usable (enEscPort e)
  if k.dst = s.deviceId then .eject
  else if s.fenced k.dst || (ad.isEmpty && !escOk) then .drop 0
  else if k.hops ≥ 15 then .drop 1
  else if !enValid e then .drop 3
  else
    let c := if k.vc = 1 then ad.filter fun p => decide (credits s p 1 ≥ pktUnits k) else []
    match leastPort s c with
    | some p => .send p { k with hops := k.hops + 1 }
    | none =>
      if enEscUp e && k.down then .drop 3
      else
        let vc := if k.vc = 1 then 2 else k.vc
        if escOk && decide (credits s (enEscPort e) vc ≥ pktUnits k) then
          .send (enEscPort e) { k with vc := vc, hops := k.hops + 1, down := k.down || !enEscUp e }
        else .wait

/-- Takes the head of an input buffer, returning its credits to the port it came from (R253). -/
def popInput (s : State) (input vc : Nat) (k : Pkt) : State :=
  let b := tabGet {} s.rtr.inb (4 * input + vc)
  let s := { s with rtr := { s.rtr with inb := tabSet {} s.rtr.inb (4 * input + vc) { pkts := b.pkts.drop 1, since := if b.pkts.length ≤ 1 then 0 else s.gtime } } }
  if input < 36 then freeUnits s input vc (pktUnits k) else if vc = 1 then judgeThrottle s (input - 36) else s

/-- The FENCED_NOTICE for a dropped packet (R252, R261). -/
def fencedNotice (s : State) (k : Pkt) : State :=
  if (k.isData && k.offset = 0) || k.typ = 8 then
    inject s 0 { typ := 9, dst := k.src, msgId := k.msgId, op := k.op,
                 body := leBytes (pack [(0, 15, k.dst), (32, 32, k.msgId), (64, 16, k.op), (96, 15, s.deviceId)]) 48 }
  else s

/-- The link die of an input buffer: a port's, or that of a half of the exchange engine (R13, R251). -/
def inputDie (input : Nat) : Nat := if input < 18 || input = 36 then 4 else 5

/-- The operation identifier of an exchange descriptor (R268). -/
def xOpId (d : Nat) : Nat := fld d 4 0 16

/-- The half that an ejected packet goes to: the one that runs its operation, or else the one it has reached. -/
def ejectDie (s : State) (input : Nat) (k : Pkt) : Nat :=
  match s.xch.ops.find? fun x => xOpId x.desc == k.op && (k.isData || k.typ == 8) with
  | some x => 4 + x.half
  | none => inputDie input

/-- PACKET_FORWARD (R251, R254–R257, R261): one router cycle of an input buffer, for the packet at its head. An ejected packet
is the exchange engine's, whose own commands say what it does there. -/
def execPacketForward (input : Fin 38) (vc : Fin 4) (s : State) : Out :=
  if s.deviceId = 0x7FFF then .next s
  else match (tabGet {} s.rtr.inb (4 * input.val + vc.val)).pkts with
    | [] => .next s
    | k :: _ =>
      if s.heldBack input vc then .next (throttleCycle (s.bump .rtr 0 0x160 1) input vc false)
      else
        let k := injected s input k
        match forward s k with
        | .wait => .next (throttleCycle s input vc false)
        | .eject => .next (crossTo (popInput (throttleCycle s input vc true) input vc k) (inputDie input) (ejectDie s input k))
        | .drop ev =>
          let s := rtrEvent (popInput (throttleCycle s input vc true) input vc k) ev
          .next (if ev = 0 then fencedNotice s k else s)
        | .send p k' =>
          let s := countEvent (popInput (throttleCycle s input vc true) input vc k) .rtr 0 0x48 none 1
          let s := if k'.vc = 2 && k.vc = 1 then countEvent s .rtr 0 0x49 none 1 else s
          .next (transmit (crossOnce s (p % 2 == 0) (inputDie input) (inputDie p)) p k')

/-- PACKET_STALL_TIMEOUT (R255). -/
def execPacketStallTimeout (input : Fin 38) (vc : Fin 4) (s : State) : Out :=
  let b := tabGet {} s.rtr.inb (4 * input.val + vc.val)
  match b.pkts with
  | [] => .next s
  | k :: _ =>
    if s.gtime > b.since + 1000 * s.field .rtr 0 0x120 0 16 then .next (rtrEvent (popInput s input vc k) 2) else .next s

/-! Epochs (R256) -/

/-- The advance: banks rotate, CURRENT counts on, and ports whose probation has ended become eligible. -/
def advanceEpoch (s : State) : State :=
  let s := s.setReg .rtr 0 0x104 ((s.routeEpoch + 1) % 256)
  let s := { s with rtr := { s.rtr with prev := s.rtr.cur, cur := s.rtr.next, advanced := s.gtime + 1 } }
  (List.range 36).foldl (fun s p => if s.portState p = lsUp then s.setField .lnk p 0x108 5 1 1 else s) s

/-- A write of RTR.EPOCH_AT_HI: `none` where the advance would come within 2 ms of the last. -/
def writeEpochAt (s : State) (v : Nat) : Option State :=
  let at_ := s.reg .rtr 0 0x108 + 2 ^ 32 * v
  if s.rtr.advanced ≠ 0 && max at_ s.gtime < s.rtr.advanced - 1 + 2000000 then none
  else
    let s := s.setReg .rtr 0 0x10C v
    some (if at_ ≤ s.gtime then advanceEpoch s else s.setField .rtr 0 0x104 8 1 1)

/-- EPOCH_ADVANCE. -/
def execEpochAdvance (s : State) : Out :=
  if (s.reg .rtr 0 0x104).testBit 8 && decide (s.gtime ≥ s.reg64 .rtr 0 0x108 0x10C) then .next (advanceEpoch s) else .next s

/-! The tables behind RTR.TSEL and RTR.TDATA (R256, R261, R265) -/

/-- The bank key that RTR.TSEL selects; `none` for the fence set, an index out of range or a reserved kind. -/
def tselKey (s : State) : Option Nat :=
  let v := s.reg .rtr 0 0x110
  let i := bits v 0 12
  match bits v 12 2 with
  | 0 => if i < 2048 then some i else none
  | 1 => if i < 16 then some (2048 + i) else none
  | _ => none

/-- The fence word that RTR.TSEL selects. -/
def tselFence (s : State) : Option Nat :=
  let v := s.reg .rtr 0 0x110
  if bits v 12 2 = 2 && bits v 0 12 < 1024 then some (bits v 0 12) else none

/-- A read of RTR.TDATA: the low or the high word of the selected entry, or the fence word. -/
def readTdata (s : State) (hi : Bool) : Nat :=
  match tselKey s, tselFence s with
  | some k, _ =>
    let e := tabGet 0 (if (s.reg .rtr 0 0x110).testBit 14 then s.rtr.cur else s.rtr.next) k
    if hi then e / 2 ^ 32 else e % 2 ^ 32
  | none, some w => if hi then 0 else tabGet 0 s.rtr.fence w
  | none, none => 0

/-- A write of RTR.TDATA_LO: a fence word takes effect at once; `none` for a reserved selection. -/
def writeTdataLo (s : State) (v : Nat) : Option State :=
  match tselKey s, tselFence s with
  | some _, _ => some (s.setReg .rtr 0 0x114 v)
  | none, some w =>
    let s := { s.setReg .rtr 0 0x114 v with rtr := { s.rtr with fence := tabSet 0 s.rtr.fence w v } }
    some (if s.fenced s.pair.peer then losePair s else s)
  | none, none => none

/-- A write of RTR.TDATA_HI commits the entry to the next bank. -/
def writeTdataHi (s : State) (v : Nat) : Option State :=
  match tselKey s with
  | some k =>
    let s := s.setReg .rtr 0 0x118 v
    some { s with rtr := { s.rtr with next := tabSet 0 s.rtr.next k (s.reg .rtr 0 0x114 + 2 ^ 32 * v) } }
  | none => none

/-! The congestion map (R258) -/

/-- One sample of every port. -/
def sampleHist (s : State) : State :=
  (List.range 36).foldl (fun s p => s.bump .rtr 0 (0x200 + 0x20 * p + 4 * min (s.occupancy p / 16384) 7) 1) s

/-- HIST_SAMPLE. -/
def execHistSample (s : State) : Out :=
  let period := s.field .rtr 0 0x124 0 16
  if s.pins.inReset || (s.reg .rtr 0 0x124).testBit 16 || period = 0 || decide (s.gtime < s.rtr.sampled + period) then .next s
  else .next (sampleHist { s with rtr := { s.rtr with sampled := s.gtime } })

/-- A write of RTR.HIST_CFG: FREEZE records the time, CLEAR zeroes every bin. -/
def writeHistCfg (s : State) (v : Nat) : State :=
  let was := (s.reg .rtr 0 0x124).testBit 16
  let s := s.setReg .rtr 0 0x124 (bits v 0 17)
  let s := if v.testBit 16 && !was then (s.setReg .rtr 0 0x128 (s.gtime % 2 ^ 32)).setReg .rtr 0 0x12C (s.gtime / 2 ^ 32) else s
  if v.testBit 17 then (List.range 288).foldl (fun s k => s.setReg .rtr 0 (0x200 + 4 * k) 0) s else s

/-- Whether the PCRC of an ejected data packet agrees (R252). -/
def DataPkt.good (s : State) (k : DataPkt) : Bool :=
  k.pcrc == pcrcOf { typ := if k.red then 2 else 1, last := k.last, dst := s.deviceId, src := k.src, msgId := k.msgId, op := k.op,
                     epoch := k.epoch, offset := k.offset, total := k.total, handle := k.handle, body := k.data }

/-! Control packets (R276) -/

/-- The kind code of a control packet, and its packet with the body of R276 where that table gives it. -/
def ctrlBody : CtrlPkt → Nat × Nat × Nat
  | .grant _ op pc use h v _ =>
    let (c, lo, sz) := match use with
      | .operand lo size chunk => (chunk, lo, if size = 0 then 0x7FFF else size - 1)
      | .segment r piece => (piece, r, 0)
      | .pair r => (0, r, 0)
      | .rows => (0, 0, 0)
      | .row t r => (t, r, 0)
    (1, op, pack [(0, 8, 1), (32, 32, c), (64, 32, h), (96, 15, lo), (112, 15, sz), (128, 64, v), (192, 32, pc)])
  | .count _ op pc v _ _ => (2, op, pack [(0, 8, 2), (128, 64, v), (192, 32, pc)])
  | .finish _ op r => (3, op, pack [(0, 8, 3), (96, 15, r)])
  | .abandon _ op => (4, op, pack [(0, 8, 4)])
  | .notice op d => (0, op, pack [(0, 15, d)])

/-- Sends a control packet to a device, and records what it says in full. -/
def sendCtrl (s : State) (half dst : Nat) (c : CtrlPkt) (more : List Nat) : State :=
  let (kind, op, body) := ctrlBody c
  let s := s.send { kind := .control, dest := dst, args := [kind, op] ++ more, data := leBytes body 48 }
  inject s half { typ := 8, dst := dst, op := op, body := leBytes body 48 }

end Sys2Proof.Machine
end

