-- ==== Sys2Proof/Machine/Exchange.lean ====
section
/-!
DEFINITION. The exchange engine's machinery, shared by every operation (R259–R270, R276, R279–R282): descriptors, memory,
messages and their records, handles and grants, control packets, missing members.
Rows of notes/assumptions: DEDUCED 98, 108, 109, 173, 203; DESIGN CHOICE 89, 94, 131.
-/
namespace Sys2Proof.Machine

open Sys2Proof

/-! Descriptor fields (R268) -/

def xKind (d : Nat) : Nat := fld d 0 0 4
def xRed (d : Nat) : Nat := fld d 0 4 2
def xArith (d : Nat) : Bool := flag d 0 6
def xFmtIn (d : Nat) : Nat := fld d 0 7 5
def xFmtOut (d : Nat) : Nat := fld d 0 12 5
def xLate (d : Nat) : Nat := fld d 0 17 2
def xLvl (d h : Nat) : Nat := bits (fld d 8 0 32) (2 * h - 2) 2
def xRoot (d : Nat) : Nat := fld d 0xC 0 15
def xGroup (d : Nat) : Nat := fld d 0x10 0 64
def xN (d : Nat) : Nat := fld d 0x18 0 16
def xRank (d : Nat) : Nat := fld d 0x18 16 15
def xDeadline (d : Nat) : Nat := fld d 0x1C 0 32
def xSrc (d : Nat) : Nat := fld d 0x20 0 64
def xDst (d : Nat) : Nat := fld d 0x28 0 64
def xCount (d : Nat) : Nat := fld d 0x30 0 64
def xStage (d : Nat) : Nat := fld d 0x38 0 64
def xMask (d : Nat) : Nat := if xKind d ≥ 9 then fld d 0x58 0 64 else fld d 0x40 0 64
def xCarry (d : Nat) : Nat := fld d 0x48 0 64
def xCountsSrc (d : Nat) : Nat := fld d 0x50 0 64
def xCountsDst (d : Nat) : Nat := fld d 0x58 0 64
def xLeafMap (d : Nat) : Nat := fld d 0x60 0 64
def xRecvLimit (d : Nat) : Nat := fld d 0x68 0 64
def xForce (d : Nat) : Nat := fld d 0x70 0 64

/-- KIND is a reduction: ALL_REDUCE, REDUCE_SCATTER, REDUCE, and BARRIER, an empty one (R279). -/
def isReduction (k : Nat) : Bool := k == 1 || k == 2 || k == 4
def isTreeKind (k : Nat) : Bool := isReduction k || k == 7

/-! Exchange statuses (R269, R299) -/

def stPartial : Nat := 0x40
def stXchFormat : Nat := 0x41
def stGroupMismatch : Nat := 0x42
def stTruncated : Nat := 0x43
def stXchAccess : Nat := 0x44
def stCatMiss : Nat := 0x48
def stCatStale : Nat := 0x49
def stRouteInvalid : Nat := 0x4A
def stSlotBusy : Nat := 0x4B
def stSlotIdle : Nat := 0x4C
def stDispatchLost : Nat := 0x4D

/-! Live operations -/

def State.xopOf (s : State) (id : Nat) : Option Xop := s.xch.ops.find? fun x => xOpId x.desc == id

def State.putXop (s : State) (x : Xop) : State :=
  { s with xch := { s.xch with ops := s.xch.ops.map fun y => if xOpId y.desc == xOpId x.desc then x else y } }

def Xop.me (x : Xop) : Nat := xRank x.desc
def Xop.n (x : Xop) : Nat := xN x.desc
def Xop.dev (x : Xop) (r : Nat) : Nat := x.group.getD r 0

/-- The rank of a device in the group. -/
def Xop.rankOf (x : Xop) (dev : Nat) : Option Nat := x.group.findIdx? (· == dev)

/-- The ranks other than this member's and the missing ones. -/
def Xop.others (x : Xop) : List Nat := (List.range x.n).filter fun r => r != x.me && !x.missing.contains r

/-! Memory, as the operation's context, from the half's die -/

/-- A state, and whether it must wait for the host. -/
abbrev XW := State × Bool

def xThen (w : XW) (f : State → XW) : XW := if w.2 then w else f w.1

/-- Runs an event of a half: when it must wait, only its requests stand and the event is given again. -/
def xEvent (s : State) (h : Nat) (f : State → XW) : Out :=
  let w := f s
  if w.2 then .next (keepRequests s w.1) else .next (takeAnswers w.1 (agXch h))


/-- Cuts [va, va + len) at 4 KiB boundaries: (offset, address, length). -/
def cutPages : Nat → Nat → Nat → Nat → List (Nat × Nat × Nat)
  | 0, _, _, _ => []
  | fuel + 1, o, va, len =>
    if len = 0 then [] else
      let n := min len (4096 - va % 4096)
      (o, va, n) :: cutPages fuel (o + n) (va + n) (len - n)

/-- One 4 KiB piece of a read: what has been read so far, or the answer that stopped it and the address it stopped at. -/
def xReadPiece (x : Xop) (w : State × Except (Acc × Nat) (List Byte × List Bool)) (e : Nat × Nat × Nat) :
    State × Except (Acc × Nat) (List Byte × List Bool) :=
  match w with
  | (s, .error a) => (s, .error a)
  | (s, .ok (b, p)) =>
    match memRead s (agXch x.half) x.half reqXch x.req.ctx e.2.1 e.2.2 with
    | (s, .ok b' p') => (s, .ok (b ++ b', p ++ p'))
    | (s, a) => (s, .error (a, e.2.1))

/-- Reads a run of bytes: the bytes with the poison of their 64 B blocks, or the answer that stopped it and where. -/
def xRead (s : State) (x : Xop) (va len : Nat) : State × Except (Acc × Nat) (List Byte × List Bool) :=
  (cutPages (len / 4096 + 2) 0 va len).foldl (xReadPiece x) (s, .ok ([], []))

/-- The poison of the 64 B blocks of [a, a + n) of data whose own 64 B blocks have the poison `p`. -/
def slicePoison (p : List Bool) (a n : Nat) : List Bool :=
  (List.range (ceilDiv n 64)).map fun i => p.getD ((a + 64 * i) / 64) false || p.getD ((a + min (64 * i + 63) (n - 1)) / 64) false

/-- The poison of the 64 B units that a write of data [o, o + n) at va touches. -/
def unitPoison (p : List Bool) (o va n : Nat) : List Bool :=
  (List.range (ceilDiv (va % 64 + n) 64)).map fun j =>
    let a := 64 * j - va % 64
    let b := min n (64 * j + 64 - va % 64)
    p.getD ((o + a) / 64) false || p.getD ((o + b - 1) / 64) false

/-- Writes a run of bytes, with the poison of its 64 B blocks carried onward (R153, R279); the answer comes with the address
it was given at. -/
def xWriteGo (x : Xop) (data : List Byte) (p : List Bool) : State → List (Nat × Nat × Nat) → State × Acc × Nat
  | s, [] => (s, .ok [] [], 0)
  | s, (o, va, n) :: ps =>
    match memWriteMarked s (agXch x.half) x.half reqXch x.req.ctx va ((data.drop o).take n) (unitPoison p o va n) with
    | (s, .ok _ _) => xWriteGo x data p s ps
    | (s, a) => (s, a, va)

def xWrite (s : State) (x : Xop) (va : Nat) (data : List Byte) (p : List Bool) : State × Acc × Nat :=
  xWriteGo x data p s (cutPages (data.length / 4096 + 2) 0 va data.length)

/-! Ending early -/

/-- Sends a control packet to a rank. -/
def toRank (s : State) (x : Xop) (r : Nat) (c : CtrlPkt) : State :=
  let more := match c with
    | .grant _ _ _ _ _ _ rows => rows.flatMap fun e => [e.1, e.2]
    | .count _ _ _ _ cs ts => cs ++ ts.flatten
    | _ => []
  sendCtrl s x.half (x.dev r) c more

/-- ABANDON to every other member (R282), which may say that a dispatch's keys are equal (R294). -/
def abandonAll (s : State) (x : Xop) (routeInvalid : Bool := false) : State :=
  x.others.foldl (fun s r => toRank s x r (.abandon ⟨s.deviceId, routeInvalid⟩ (xOpId x.desc))) s

/-- The operation ends here with a status, if nothing has ended it yet. -/
def endEarly (s : State) (x : Xop) (status code : Nat) : State :=
  if x.ending.isSome then s else s.putXop { x with ending := some status, code := code }

/-- A fault on a data buffer (R270): the record, the ABANDONs, XCH_ACCESS. -/
def accessFault (s : State) (x : Xop) (va : Nat) : State :=
  let s := capture s .xch 0 { sev := sevFailed, ctx := some x.req.ctx, unit := x.half, addr := va, info := 0x06 }
  endEarly (abandonAll s x) x stXchAccess 0x06

/-- Writes for an operation: waits, faults, or goes on. -/
def xStore (w : XW) (id va : Nat) (data : List Byte) (p : List Bool) : XW :=
  xThen w fun s =>
    match s.xopOf id with
    | none => (s, false)
    | some x =>
      if x.ending.isSome then (s, false)
      else match xWrite s x va data p with
        | (s, .ok _ _, _) => (s, false)
        | (s, .wait, _) => (s, true)
        | (s, _, bad) => (accessFault s x bad, false)

/-! Choices (R309, R310) -/

/-- The memory a log record of a context goes to is poisoned: a poisoned unit, a retired channel, a block whose tag fails. -/
def State.logPoisoned (s : State) (c pa : Nat) : Bool :=
  let b := tabGet {} s.mem.blks (pa / 256)
  s.chanRetired pa || b.bad (pa % 256 / 64) || b.tag != some (c, s.mem.keyOf c)

/-- Writes a log record, which lies within one 64 B unit. A record that meets poison is lost as one that meets a bus error is; the
write itself does what R169 says of a partial write (R310). -/
def writeLog (s : State) (x : Xop) (va : Nat) (r : List Byte) : State × Acc :=
  match translateFrom (crossTo s (4 + x.half) 4) 4 0 reqFe x.req.ctx va true with
  | (s, .fault _) => (s, .xlate)
  | (s, .wait) => (s, .wait)
  | (s, .pa pa) =>
    let lost := decide (pa < hostBase) && s.logPoisoned x.req.ctx pa
    match physWrite s (agXch x.half) 4 reqFe x.req.ctx x.req.ctx pa r with
    | (s, .ok b p) => (s, if lost then .bus else .ok b p)
    | r => r

/-- Makes a choice of a context: its log record, where the log is on, and the counter. -/
def logChoice (w : XW) (x : Xop) (kind time lo szm1 k : Nat) : XW :=
  xThen w fun s =>
    let c := s.ctxOf x.req.ctx
    let n := c.choice
    let next := fun (s : State) (bad : Nat) =>
      let c := s.ctxOf x.req.ctx
      let s := s.setCtx x.req.ctx { c with choice := (n + 1) % 2 ^ 64, logFaults := satAdd 32 c.logFaults bad }
      updCmd s x.req.queue x.req.cmd fun c => { c with choices := c.choices + 1 }
    if c.logBase = 0 then (next s 0, false)
    else
      let seqNo := (s.cmdOf x.req.queue x.req.cmd).elim 0 fun c => bits c.raw 32 32
      let r := leBytes (pack [(0, 64, n), (64, 64, time), (128, 8, kind), (144, 16, xOpId x.desc), (160, 11, x.req.queue),
        (192, 32, seqNo), (224, 15, lo), (239, 15, szm1), (254, 2, k)]) 32
      match writeLog s x (c.logBase + 32 * (n % 2 ^ c.logLog2)) r with
      | (s, .wait) => (s, true)
      | (s, .ok _ _) => (next s 0, false)
      | (s, _) => (next s 1, false)

/-! Messages (R252, R259) -/

/-- Payload cut into packets of at most 4,096 B. -/
def msgParts : Nat → Nat → Nat → List (Nat × Nat)
  | 0, _, _ => []
  | fuel + 1, o, total => if o ≥ total then [] else (o, min 4096 (total - o)) :: msgParts fuel (o + 4096) total

/-- A half sends one message of an operation: a unit of work, with its reservation and, for an active time the manual does not give,
its quiet debt (R252, R335, R343; log entries 109, 131). -/
def sendMsg (s : State) (x : Xop) (m : XOut) : State :=
  let id := s.rtr.nextMsg
  let e := enXch x.half
  let a := Config.messageNs s.draws
  let s := oweFor { s with
    draws := s.draws + 1
    rtr := { s.rtr with nextMsg := (id + 1) % 2 ^ 32 }
    pwr := { s.pwr with resv := s.reserveUnit e e } } e x.req.ctx
  let s := s.send { kind := if m.red then .dataRed else .packet, dest := x.dev m.rank, args := [id, xOpId x.desc, m.handle], data := m.data }
  let s := (msgParts (m.data.length / 4096 + 1) 0 m.data.length).foldl (fun s e =>
    inject s x.half { typ := if m.red then 2 else 1, last := e.1 + e.2 == m.data.length, dst := x.dev m.rank, msgId := id,
                      op := xOpId x.desc, offset := e.1, total := m.data.length, handle := m.handle,
                      body := (m.data.drop e.1).take e.2, poison := slicePoison m.poison e.1 e.2 }) s
  let s := releaseUnit (addDebt s e (s.debtOf a)) e
  countEvent (ctxCount s x.req.ctx 8 m.data.length) .xch 0 0x50 (some x.req.ctx) m.data.length

/-- Sends what an operation has made up, one message after another, while the half may begin one (R335, R343). -/
def sendQueued (s : State) (id : Nat) : State :=
  match s.xopOf id with
  | none => s
  | some x => x.outq.foldl (fun s m =>
      match s.xopOf id with
      | none => s
      | some x => if s.engineHeld (enXch x.half) || x.ending.isSome then s else sendMsg (s.putXop { x with outq := x.outq.drop 1 }) x m) s

/-- Makes up a message of an operation. -/
def queueMsg (s : State) (id : Nat) (m : XOut) : State :=
  match s.xopOf id with
  | none => s
  | some x => s.putXop { x with outq := x.outq ++ [m] }

/-- Data in messages of up to 8 KiB, the p-th under handle base + p (R279). -/
def queuePieces (s : State) (id : Nat) (use : XUse) (r handle : Nat) (data : List Byte) (p : List Bool) : State :=
  (List.range (ceilDiv data.length 8192)).foldl (fun s i =>
    queueMsg s id ⟨use, r, false, handle + i, (data.drop (8192 * i)).take 8192,
      slicePoison p (8192 * i) (min 8192 (data.length - 8192 * i))⟩) s

/-- The part [a, a + n) of a list of extents. -/
def cutExtents : List (Nat × Nat) → Nat → Nat → List (Nat × Nat)
  | [], _, _ => []
  | (b, m) :: es, a, n =>
    if n = 0 then []
    else if a ≥ m then cutExtents es (a - m) n
    else
      let k := min n (m - a)
      (b + a, k) :: cutExtents es 0 (n - k)

/-- Whether a half may grant handles for `n` more messages: its open messages stay fewer than its 8,192 records (R259, R276). A grant
that alone is longer goes out while none is open (log entry 203). -/
def grantRoom (s : State) (h n : Nat) : Bool :=
  let open_ := (((s.xch.ops ++ s.xch.carry).filter fun x => x.half == h).map fun x => x.handles.length).sum
  open_ == 0 || decide (open_ + n < 8192)

/-- Grants handles for `len` bytes that go to a list of extents, one handle a piece of 8 KiB, and sends the GRANT. -/
def grantPieces (s : State) (x : Xop) (use : XUse) (r len value : Nat) (place : List (Nat × Nat)) (rows : List (Nat × Nat)) : State :=
  let np := ceilDiv len 8192
  let hs := (List.range np).map fun i =>
    (⟨x.nextHandle + i, use, r, cutExtents place (8192 * i) (min 8192 (len - 8192 * i))⟩ : XHandle)
  let y := { x with handles := x.handles ++ hs, nextHandle := (x.nextHandle + np) % 2 ^ 31, granted := (use, r) :: x.granted }
  toRank (s.putXop y) y r (.grant s.deviceId (xOpId x.desc) x.pcheck use x.nextHandle value rows)

/-- Writes payload at an offset of a handle's extents. -/
def placeGo (id : Nat) (data : List Byte) (p : List Bool) : Nat → List (Nat × Nat) → XW → XW
  | _, [], w => w
  | o, e :: es, w => placeGo id data p (o + e.2) es (xStore w id e.1 ((data.drop o).take e.2) (slicePoison p o e.2))

def placeData (w : XW) (id : Nat) (place : List (Nat × Nat)) (o : Nat) (data : List Byte) (p : List Bool) : XW :=
  placeGo id data p 0 (cutExtents place o data.length) w

/-! Message records (R260) -/

def State.recOf (s : State) (h src id : Nat) : Option MsgRec :=
  s.xch.recs.find? fun r => r.half == h && r.src == src && r.msgId == id

/-- Frees a record, or puts it in a new state. -/
def putRec (s : State) (h src id : Nat) (r : Option MsgRec) : State :=
  let rest := s.xch.recs.filter fun r => !(r.half == h && r.src == src && r.msgId == id)
  { s with xch := { s.xch with recs := match r with | some r => rest ++ [r] | none => rest } }

/-- What a packet does to its message's record: the next record, and whether the packet is discarded as malformed. -/
def nextRec (h : Nat) (r : Option MsgRec) (k : DataPkt) : MsgRec × Bool :=
  let len := k.data.length
  let overs := decide (k.offset + len > k.total) || (k.last && k.offset + len != k.total)
  match r with
  | none =>
    let r : MsgRec := ⟨h, k.src, k.msgId, .broken, k.op, k.total, k.handle, len, [(k.offset, k.data, k.poison)]⟩
    if overs then ({ r with n := 0, parts := [] }, true)
    else ({ r with state := if len = k.total then .complete else if k.last then .tailSeen else .opened }, false)
  | some r =>
    if r.state = .broken || r.state = .complete then (r, true)
    else if k.total ≠ r.total || overs || decide (r.n + len > r.total) || (k.last && r.state == .tailSeen) then
      ({ r with state := .broken, parts := [] }, true)
    else
      let r' := { r with n := r.n + len, parts := r.parts ++ [(k.offset, k.data, k.poison)] }
      ({ r' with state := if r'.n = r.total then .complete else if k.last then .tailSeen else r.state }, false)

/-- The operation, live or late, that a packet's OP names. -/
def State.anyXop (s : State) (id : Nat) : Option Xop := (s.xopOf id).or (s.xch.carry.find? fun x => xOpId x.desc == id)

/-- Joins a record's parts in the order of their offsets. -/
def joinParts : Nat → Nat → List (Nat × List Byte × List Bool) → List Byte × List Bool
  | 0, _, _ => ([], [])
  | fuel + 1, o, ps =>
    match ps.find? fun e => e.1 == o with
    | none => ([], [])
    | some (_, b, p) =>
      let (bs, qs) := joinParts fuel (o + b.length) ps
      (b ++ bs, p ++ qs)

/-! Missing members (R281) -/

/-- A member is missing: a reduction ends PARTIAL at once; the other kinds expect nothing more of it. -/
def addMissing (s : State) (x : Xop) (r : Nat) : State :=
  if r = x.me || decide (r ≥ x.n) || x.missing.contains r || x.ending.isSome then s
  else
    let y := { x with missing := r :: x.missing
                      handles := x.handles.filter (·.rank != r)
                      grants := x.grants.filter (·.rank != r)
                      outq := x.outq.filter (·.rank != r) }
    if isReduction (xKind x.desc) then s.putXop { y with ending := some stPartial } else s.putXop y

/-- A fifth late range ends an operation PARTIAL, with the ranges' ranks in MASK (R283). -/
def fifthLate (s : State) (x : Xop) (ranges : List (Nat × Nat)) : State :=
  let y := { x with missing := (x.missing ++ ranges.flatMap fun e => (List.range e.2).map (· + e.1)).eraseDups }
  endEarly (abandonAll s x) y stPartial 0

end Sys2Proof.Machine
end

