-- ==== Sys2Proof/Machine/Collective.lean ====
section
/-!
DEFINITION. Collectives (R266–R284): the reduction tree and its arithmetic, where each node is computed, distribution
trees, ALL_TO_ALL, late contributions and CARRY.
Rows of notes/assumptions: DEDUCED 58, 98, 106, 107, 108, 170, 171, 172, 174, 176, 203; DESIGN CHOICE 96, 100.
-/
namespace Sys2Proof.Machine

open Sys2Proof

/-! Working values (R271, R272) -/

def xForm (arith : Bool) : Ieee := if arith then aw48 else fp32
def xBytes (arith : Bool) : Nat := if arith then 6 else 4

/-- A value in the working format, with its flags; a NaN becomes the canonical one. -/
def toWork (arith : Bool) (v : Val) : Nat × Nat := ieeeRound (xForm arith) .rne false (exOf v)

/-- combine(L, R) of R271. -/
def xCombine (arith : Bool) (red l r : Nat) : Nat × Nat :=
  let a := ieeeVal (xForm arith) l
  let b := ieeeVal (xForm arith) r
  if red = 0 then
    if arith then addRound l b
    else
      let (v, f) := addV false a b
      let (c, g) := toWork false v
      (c, f ||| g)
  else
    let (v, f) := minmaxV (red == 1) a b
    let (c, g) := toWork arith v
    (c, f ||| g)

/-- The format a transport code names. -/
def xTransport (t : Nat) : Fmt := if t = 2 then .e4m3 else .e5m2

/-- The payload of an operand under a transport (R275), and the flags of its rounding. -/
def encodeOpnd (arith : Bool) (t : Nat) (vals : List Nat) : List Byte × Nat :=
  match t with
  | 0 => (vals.flatMap fun v => leBytes v (xBytes arith), 0)
  | 1 =>
    let es := vals.map fun v => ieeeRound bf16 .rne false (exOf (ieeeVal (xForm arith) v))
    (es.flatMap fun e => leBytes e.1 2, es.foldl (fun f e => f ||| e.2) 0)
  | _ =>
    let gs := (List.range (ceilDiv vals.length 32)).map fun g =>
      quantGroup (xTransport t) (((vals.drop (32 * g)).take 32).map fun v => some ⟨ieeeVal (xForm arith) v, 1, oneV, .rne⟩)
    (gs.flatMap (fun g => g.codes.map (BitVec.ofNat 8)) ++ gs.map (fun g => BitVec.ofNat 8 g.scale),
      gs.foldl (fun f g => f ||| g.flags) 0 % 32)

/-- The working values a payload of `n` elements spells, and the flags of widening it. -/
def decodeOpnd (arith : Bool) (t n : Nat) (b : List Byte) : List Nat × Nat :=
  match t with
  | 0 => ((List.range n).map fun i => leNat ((b.drop (i * xBytes arith)).take (xBytes arith)), 0)
  | 1 =>
    let es := (List.range n).map fun i => toWork arith (ieeeVal bf16 (leNat ((b.drop (2 * i)).take 2)))
    (es.map (·.1), es.foldl (fun f e => f ||| e.2) 0)
  | _ =>
    let es := (List.range n).map fun i =>
      toWork arith (blockVal (xTransport t) (b.getD (n + i / 32) 0).toNat (b.getD i 0).toNat)
    (es.map (·.1), es.foldl (fun f e => f ||| e.2) 0)

/-- narrow(v, t) of R272, over the elements of a chunk. -/
def xNarrow (arith : Bool) (t : Nat) (v : XVal) : XVal :=
  let (b, f) := encodeOpnd arith t v.vals
  let (vals, g) := decodeOpnd arith t v.vals.length b
  { vals := vals, tr := { v.tr with flags := v.tr.flags ||| f ||| g } }

/-- Late ranges of two subtrees, each once. -/
def joinLate (a b : List (Nat × Nat)) : List (Nat × Nat) := a ++ b.filter fun e => !a.contains e

def joinTrailer (a b : Trailer) : Trailer :=
  { flags := a.flags ||| b.flags, poison := a.poison || b.poison, late := joinLate a.late b.late }

/-- A node's value from its two operands. -/
def xJoin (arith : Bool) (red : Nat) (a b : XVal) : XVal :=
  let es := (a.vals.zip b.vals).map fun e => xCombine arith red e.1 e.2
  let tr := joinTrailer a.tr b.tr
  { vals := es.map (·.1), tr := { tr with flags := es.foldl (fun f e => f ||| e.2) tr.flags } }

/-- The 32 B trailer (R273). -/
def trailerBytes (t : Trailer) : List Byte :=
  leBytes (pack ([(0, 8, t.flags), (8, 1, bit t.poison), (9, 3, min t.late.length 4)] ++
    (List.range 4).flatMap fun k =>
      let e := t.late.getD k (0, 1)
      [(64 + 32 * k, 15, e.1), (80 + 32 * k, 16, e.2 - 1)])) 32

/-- The late ranges that trailer bytes name. -/
def trailerLate (x : Nat) : List (Nat × Nat) :=
  (List.range (min (fld x 0 9 3) 4)).map fun k => (fld x (8 + 4 * k) 0 15, fld x (8 + 4 * k) 16 16 + 1)

def trailerOf (b : List Byte) : Trailer :=
  let x := leNat b
  { flags := fld x 0 0 8, poison := flag x 0 8, late := trailerLate x }

/-! Chunks (R275) -/

/-- The bytes of an element of a format of R268. -/
def fmtSize (f : Nat) : Nat := if fmtOf f = some .fp32 then 4 else 2

def fmtIeee (f : Nat) : Ieee := if fmtOf f = some .fp32 then fp32 else bf16

def Xop.shard (x : Xop) : Nat := if xKind x.desc = 2 then xCount x.desc / max x.n 1 else xCount x.desc
def Xop.perShard (x : Xop) : Nat := ceilDiv x.shard 1024
def Xop.chunks (x : Xop) : Nat :=
  if xKind x.desc = 7 then 1 else if xKind x.desc = 2 then x.n * x.perShard else x.perShard

/-- First element and length of a chunk. -/
def Xop.chunkAt (x : Xop) (c : Nat) : Nat × Nat :=
  if xKind x.desc = 7 then (0, 0)
  else
    let p := max x.perShard 1
    (c / p * x.shard + c % p * 1024, min 1024 (x.shard - c % p * 1024))

/-! The tree (R271, R274, R275) -/

def Xop.canonical (x : Xop) : Bool := !x.leafMap.isEmpty
def Xop.treeSize (x : Xop) : Nat := if x.canonical then x.leafMap.length else x.n

/-- The holder of a leaf. -/
def Xop.holder (x : Xop) (l : Nat) : Option Nat :=
  if x.canonical then (let r := x.leafMap.getD l 0xFFFF; if r = 0xFFFF then none else some r)
  else some l

/-- The holder of the lowest present leaf of a node; none for an empty one. -/
def Xop.lowest (x : Xop) (lo size : Nat) : Option Nat := (List.range size).findSome? fun i => x.holder (lo + i)

def Xop.emptyNode (x : Xop) (lo size : Nat) : Bool := x.canonical && (x.lowest lo size).isNone

/-- The member that delivers the result of a chunk: the root's owner (R275), and in CANONICAL mode ROOT or the shard's rank
where the result goes to one member only (R266). -/
def Xop.rootOwner (x : Xop) (c : Nat) : Nat :=
  match xKind x.desc with
  | 1 => if x.canonical then (x.lowest 0 x.treeSize).getD (c % max x.n 1) else c % max x.n 1
  | 2 => c / max x.perShard 1
  | 4 => xRoot x.desc
  | _ => 0

/-- The owner of a node for a chunk (R275); size 0 stands for the result itself. -/
def Xop.owner (x : Xop) (lo size c : Nat) : Option Nat :=
  if size = 0 then some (x.rootOwner c)
  else if x.canonical then x.lowest lo size
  else if lo = 0 && size == x.treeSize then some (x.rootOwner c)
  else some (lo + c % max size 1)

/-- Whether the root's value is handed to another member that delivers the result: in CANONICAL mode the root, as every
node, is formed by the holder of its lowest present leaf (R274, R275). -/
def Xop.handsOver (x : Xop) : Bool :=
  x.canonical && (xKind x.desc == 2 || xKind x.desc == 4) && !x.emptyNode 0 x.treeSize

/-- The size that stands for a chunk's result. -/
def Xop.top (x : Xop) : Nat := if x.handsOver then 0 else x.treeSize

/-- Where a node of more than one leaf splits. -/
def splitAt_ (size : Nat) : Nat := 2 ^ (clog2 size - 1)

/-- This member's value of one of its leaves for a chunk (R271, R274, R284). -/
def Xop.leaf (x : Xop) (l c : Nat) : XVal :=
  let d := x.desc
  let (e0, n) := x.chunkAt c
  let buf := if x.canonical then ((List.range l).filter fun i => x.holder i == some x.me).length else 0
  let sz := fmtSize (xFmtIn d)
  let base := (buf * xCount d + e0) * sz
  let vs := (List.range n).map fun i =>
    let v := ieeeVal (fmtIeee (xFmtIn d)) (leNat ((x.src.drop (base + i * sz)).take sz))
    let (w, f) := toWork (xArith d) v
    let f := f ||| sigFlag [v]
    match x.carryIn[e0 + i]? with
    | none => (w, f)
    | some b =>
      if xArith d then let (r, g) := addRound w (ieeeVal fp64 b); (r, f ||| g)
      else
        let (t, g) := addV false (ieeeVal fp32 w) (ieeeVal fp64 b)
        let (r, h) := toWork false t
        (r, f ||| g ||| h)
  { vals := vs.map (·.1)
    tr := { flags := vs.foldl (fun f e => f ||| e.2) 0
            poison := (slicePoison x.srcPoison base (n * sz)).any id || (slicePoison x.carryPoison (8 * e0) (8 * n)).any id } }

/-- Whether a child node that this member does not hold counts as late for its parent here (R283). A forced record names the
late children themselves (R311). -/
def Xop.isLate (x : Xop) (lo size : Nat) : Bool := (x.forced.getD x.late).contains (lo, size)

/-- The operand of a child as the parent's owner sees it: substituted, delivered (`through` a slot or STAGE, its own too), or
formed here; `v` is the value formed here and `t` the transport. A barrier takes a missing owner's operand as delivered. -/
def Xop.operand (x : Xop) (through : Bool) (lo size c t : Nat) (v : Option XVal) : Option XVal :=
  let local_ := x.owner lo size c == some x.me
  if !local_ && xLate x.desc != 0 && x.isLate lo size then
    some { vals := List.replicate (x.chunkAt c).2 0, tr := { late := [(lo, size)] } }
  else if local_ && !through then v.map (xNarrow (xArith x.desc) t)
  else match x.opnds.find? fun o => o.lo == lo && o.size == size && o.chunk == c with
    | some o => some o.val
    | none =>
      if xKind x.desc == 7 && x.missing.contains ((x.owner lo size c).getD 0) then some {} else none

/-- The node chunk has been granted: its operands come through its slot or STAGE. -/
def Xop.opened (x : Xop) (lo size c : Nat) : Bool := x.nodes.any fun n => n.lo == lo && n.size == size && n.chunk == c

/-- value(lo, hi) of R271 and R274 for a chunk, as far as this member can form it; of the result for size 0. -/
def Xop.value (x : Xop) (c : Nat) : Nat → Nat → Nat → Option XVal
  | 0, _, _ => none
  | fuel + 1, lo, size =>
    let sub := fun l z t =>
      x.operand (x.opened lo size c) l z c t (if x.owner l z c = some x.me then Xop.value x c fuel l z else none)
    if size = 0 then sub 0 x.treeSize 0
    else if size = 1 then (if x.holder lo = some x.me then some (x.leaf lo c) else none)
    else
      let m := splitAt_ size
      let t := xLvl x.desc (clog2 size)
      if x.emptyNode lo m then sub (lo + m) (size - m) 0
      else if x.emptyNode (lo + m) (size - m) then sub lo m 0
      else match sub lo m t, sub (lo + m) (size - m) t with
        | some a, some b => some (xJoin (xArith x.desc) (xRed x.desc) a b)
        | _, _ => none

def Xop.depth (x : Xop) : Nat := clog2 x.treeSize + 3

/-- The inner nodes of the tree that are not empty, root first. -/
def Xop.inner (x : Xop) : Nat → Nat → Nat → List (Nat × Nat)
  | 0, _, _ => []
  | fuel + 1, lo, size =>
    if size ≤ 1 || x.emptyNode lo size then []
    else
      let m := splitAt_ size
      (lo, size) :: (Xop.inner x fuel lo m ++ Xop.inner x fuel (lo + m) (size - m))

/-- The nodes of an operation, with the result's own where the root's value is handed over. -/
def Xop.nodeList (x : Xop) : List (Nat × Nat) :=
  (if x.handsOver then [(0, 0)] else []) ++ Xop.inner x x.depth 0 x.treeSize

/-- The parent of a node, descending from (lo, size). -/
def parentFrom : Nat → Nat → Nat → Nat → Nat → Option (Nat × Nat)
  | 0, _, _, _, _ => none
  | fuel + 1, lo, size, l, z =>
    if size ≤ 1 then none
    else
      let m := splitAt_ size
      if (l = lo && z == m) || (l = lo + m && z == size - m) then some (lo, size)
      else if l < lo + m then parentFrom fuel lo m l z
      else parentFrom fuel (lo + m) (size - m) l z

/-- The children of a node that are not empty, with the transport of their operands. -/
def Xop.children (x : Xop) (lo size : Nat) : List (Nat × Nat × Nat) :=
  let m := splitAt_ size
  let t := xLvl x.desc (clog2 size)
  if size = 0 then [(0, x.treeSize, 0)]
  else if x.emptyNode lo m then [(lo + m, size - m, 0)]
  else if x.emptyNode (lo + m) (size - m) then [(lo, m, 0)]
  else [(lo, m, t), (lo + m, size - m, t)]

/-- The transport of a node's operand. -/
def Xop.transportOf (x : Xop) (lo size : Nat) : Nat :=
  match parentFrom x.depth 0 x.treeSize lo size with
  | none => 0
  | some (pl, pz) => ((x.children pl pz).find? fun e => e.1 == lo && e.2.1 == size).elim 0 (·.2.2)

/-- An operand's message: payload, padding to a multiple of 8 B, trailer (R275). -/
def Xop.operandMsg (x : Xop) (t : Nat) (v : XVal) : List Byte :=
  let (b, f) := encodeOpnd (xArith x.desc) t v.vals
  let (_, g) := decodeOpnd (xArith x.desc) t v.vals.length b
  b ++ List.replicate ((8 - b.length % 8) % 8) 0 ++ trailerBytes { v.tr with flags := v.tr.flags ||| f ||| g }

/-- The length of an operand's message. -/
def Xop.operandLen (x : Xop) (t c : Nat) : Nat :=
  let n := (x.chunkAt c).2
  let b := if t = 0 then n * xBytes (xArith x.desc) else if t = 1 then 2 * n else n + ceilDiv n 32
  ceilDiv b 8 * 8 + 32

/-- The operand that a message spells. -/
def Xop.operandOf (x : Xop) (t c : Nat) (b : List Byte) : XVal :=
  { vals := (decodeOpnd (xArith x.desc) t (x.chunkAt c).2 b).1, tr := trailerOf (b.drop (b.length - 32)) }

/-! Slots, staging and grants (R276, R277) -/

/-- Whether a node chunk is this member's to compute from messages, and not yet granted. -/
def Xop.wants (x : Xop) (lo size c : Nat) : Bool :=
  x.owner lo size c == some x.me &&
  (x.children lo size).any (fun e => x.owner e.1 e.2.1 c != some x.me) &&
  !x.opened lo size c

/-- The parent of a node, with the result's own node above the root where its value is handed over. -/
def Xop.parentOf (x : Xop) (lo size : Nat) : Option (Nat × Nat) :=
  if lo = 0 && size == x.treeSize then (if x.handsOver then some (0, 0) else none) else parentFrom x.depth 0 x.treeSize lo size

/-- Whether a node chunk's result has still to be sent to the next owner (R277). -/
def Xop.unsent (x : Xop) (n : XNode) : Bool :=
  match x.parentOf n.lo n.size with
  | none => false
  | some (l, z) =>
    match x.owner l z n.chunk with
    | none => false
    | some d =>
      let use := XUse.operand n.lo n.size n.chunk
      (x.outq.any fun m => m.use == use && m.rank == d) || !x.missing.contains d && !x.sent.contains (use, d) &&
        (d != x.me || x.opened l z n.chunk || x.wants l z n.chunk)

/-- Whether a node chunk holds its slot: until its result has been formed and sent (R277). -/
def Xop.holdsRouterSlot (x : Xop) (n : XNode) : Bool := n.slot.isSome && (!n.formed || x.unsent n)

/-- Slots of a half in use. -/
def usedSlots (s : State) (h : Nat) : List Nat :=
  (s.xch.ops.filter fun x => x.half == h && x.ending.isNone).flatMap fun x =>
    x.nodes.filterMap fun n => if x.holdsRouterSlot n then n.slot else none

/-- A free value: one member of a list. -/
def pickOne (s : State) (l : List Nat) : Option (State × Nat) :=
  if l.isEmpty then none
  else some ({ s with draws := s.draws + 1 }, l.getD (Config.pick s.draws % l.length) 0)

/-- Claims a slot, or `need` staging blocks of 8 KiB: the node's entry. -/
def claimNode (s : State) (x : Xop) (lo size c need : Nat) (slotOk : Bool) : Option (State × XNode) :=
  let used := usedSlots s x.half
  let mine := (x.nodes.filter x.holdsRouterSlot).length
  let free := (List.range 1024).filter fun k => !used.contains k
  if slotOk && decide (mine < s.field .xch 0 0x110 0 11) && !free.isEmpty then
    (pickOne s free).map fun (s, k) => (s, { lo := lo, size := size, chunk := c, slot := some k })
  else
    let held := (x.nodes.filter fun n => !n.formed).flatMap (·.stage)
    let room := (List.range 256).filter fun k => !held.contains k
    if room.length < need then none
    else match pickOne s room with
      | none => none
      | some (s, a) =>
        if need < 2 then some (s, { lo := lo, size := size, chunk := c, stage := [a] })
        else (pickOne s (room.filter (· != a))).map fun (s, b) => (s, { lo := lo, size := size, chunk := c, stage := [a, b] })

/-- Where an operand stands in STAGE; an empty reduction stages nothing. -/
def Xop.stageAt (x : Xop) (block : Nat) : List (Nat × Nat) :=
  if isReduction (xKind x.desc) then [(xStage x.desc + 8192 * block, 8192)] else []

/-- Grants the handles of one node chunk to the owners of its operands, this member among them (R276, R277). -/
def grantNode (s : State) (x : Xop) (lo size c : Nat) : State :=
  let cs := x.children lo size
  match claimNode s x lo size c cs.length (cs.length == 2) with
  | none => s
  | some (s, nd) =>
    let hs := (List.range cs.length).map fun i =>
      let (l, z, _) := cs.getD i (0, 0, 0)
      let r := (x.owner l z c).getD 0
      match nd.slot with
      | some k => (⟨2 ^ 31 + k, .operand l z c, r, []⟩ : XHandle)
      | none => ⟨128 * nd.stage.getD i 0, .operand l z c, r, x.stageAt (nd.stage.getD i 0)⟩
    let own := (hs.filter (·.rank == x.me)).map fun h => (⟨.operand lo size c, x.me, h.id, 0, []⟩ : XGrant)
    let y := { x with nodes := nd :: x.nodes, handles := x.handles ++ hs, grants := x.grants ++ own }
    (hs.filter (·.rank != x.me)).foldl (fun s h =>
      toRank s y h.rank (.grant s.deviceId (xOpId x.desc) x.pcheck (.operand lo size c) h.id 0 [])) (s.putXop y)

/-- Grants for every node, at most 16 chunks in flight each (R276). -/
def grantNodes (s : State) (id : Nat) : State :=
  match s.xopOf id with
  | none => s
  | some x =>
    (List.range x.chunks).foldl (fun s c =>
      x.nodeList.foldl (fun s e =>
        match s.xopOf id with
        | none => s
        | some x =>
          if x.wants e.1 e.2 c && grantRoom s x.half (x.children e.1 e.2).length && decide ((x.nodes.filter fun n => n.lo == e.1 && n.size == e.2 && !n.formed).length < 16) then
            grantNode s x e.1 e.2 c
          else s) s) s

/-- Reads an operand back from the staging block it stands in (R270, R277). -/
def readStaged (w : XW) (id : Nat) (n : XNode) (i : Nat) : XW :=
  xThen w fun s =>
    match s.xopOf id with
    | none => (s, false)
    | some x =>
      let (l, z, t) := (x.children n.lo n.size).getD i (0, 0, 0)
      let here := fun (o : XOpnd) => o.lo == l && o.size == z && o.chunk == n.chunk
      if x.ending.isSome || n.stage.length ≤ i || !isReduction (xKind x.desc) || !x.opnds.any here then (s, false)
      else match xRead s x (xStage x.desc + 8192 * n.stage.getD i 0) (x.operandLen t n.chunk) with
        | (s, .error (.wait, _)) => (s, true)
        | (s, .error (_, bad)) => (accessFault s x bad, false)
        | (s, .ok (b, p)) =>
          let v := x.operandOf t n.chunk b
          let v := { v with tr := { v.tr with poison := v.tr.poison || p.any (fun b => b) } }
          (s.putXop { x with opnds := x.opnds.map fun o => if here o then { o with val := v } else o }, false)

/-- Computes a node chunk whose operands have come, and counts it (R277). -/
def formNode (w : XW) (id : Nat) (n : XNode) : XW :=
  xThen (readStaged (readStaged w id n 0) id n 1) fun s =>
    match s.xopOf id with
    | none => (s, false)
    | some x =>
      if x.ending.isSome then (s, false)
      else
        let late := ((Xop.value x n.chunk x.depth n.lo n.size).elim [] (·.tr.late))
        if late.length > 4 then (fifthLate s x late, false)
        else
          let s := if (x.children n.lo n.size).length ≠ 2 then s
            else if n.slot.isSome then s.bump .xch 0 0x11C 1 else s.bump .xch 0 0x120 1
          (s.putXop { x with nodes := x.nodes.map fun m => if m == n then { m with formed := true } else m }, false)

/-- Computes every node chunk whose operands have come. -/
def formNodes (w : XW) (id : Nat) : XW :=
  match w.1.xopOf id with
  | none => w
  | some x =>
    (x.nodes.filter fun n => !n.formed && (Xop.value x n.chunk x.depth n.lo n.size).isSome).foldl (fun w n => formNode w id n) w

/-- Answers the operand grants whose values stand here (R276); this member's own operand goes to its slot as a message to
itself, or into STAGE (R277). -/
def sendOperands (w : XW) (id : Nat) : XW :=
  match w.1.xopOf id with
  | none => w
  | some x =>
    x.grants.foldl (fun w g =>
      xThen w fun s =>
        match s.xopOf id, g.use with
        | some x, .operand lo size c =>
          match (x.children lo size).find? fun e => x.owner e.1 e.2.1 c == some x.me && !x.sent.contains (.operand e.1 e.2.1 c, g.rank) with
          | none => (s, false)
          | some (l, z, t) =>
            match Xop.value x c x.depth l z with
            | none => (s, false)
            | some v =>
              let x := { x with grants := x.grants.filter (· != g), sent := (.operand l z c, g.rank) :: x.sent }
              if g.rank = x.me && decide (g.handle < 2 ^ 31) then
                let x := { x with handles := x.handles.filter (fun h => h.use != .operand l z c),
                                  opnds := x.opnds ++ [⟨l, z, c, xNarrow (xArith x.desc) t v⟩] }
                if isReduction (xKind x.desc) then
                  xStore (s.putXop x, false) id (xStage x.desc + 64 * g.handle) (x.operandMsg t v) []
                else (s.putXop x, false)
              else (queueMsg (s.putXop x) id ⟨.operand l z c, g.rank, decide (g.handle ≥ 2 ^ 31), g.handle, x.operandMsg t v, []⟩, false)
        | _, _ => (s, false)) w

/-! Distribution (R279, R281) -/

/-- The edges of send(lo, hi) in relative ranks. -/
def distEdges : Nat → Nat → Nat → List (Nat × Nat)
  | 0, _, _ => []
  | fuel + 1, lo, hi =>
    if hi ≤ lo + 1 then []
    else
      let m := splitAt_ (hi - lo)
      (lo, lo + m) :: (distEdges fuel lo (lo + m) ++ distEdges fuel (lo + m) hi)

/-- The edges of a piece's tree in ranks: GATHER sends directly to ROOT. Of a REDUCE or REDUCE_SCATTER only the trailers go
down a tree, since every member receives the root's trailer (R273) and no other member the result (R279). -/
def Xop.edges (x : Xop) (r : Nat) : List (Nat × Nat) :=
  if xKind x.desc = 6 then (if r = xRoot x.desc then [] else [(r, xRoot x.desc)])
  else (distEdges (clog2 x.n + 1) 0 x.n).map fun e => ((e.1 + r) % x.n, (e.2 + r) % x.n)

/-- The members a member sends a piece to: those of a missing one in its place, recursively. -/
def Xop.kids (x : Xop) (r : Nat) : Nat → Nat → List Nat
  | 0, _ => []
  | fuel + 1, m =>
    ((x.edges r).filter fun e => e.1 == m).flatMap fun e => if x.missing.contains e.2 then Xop.kids x r fuel e.2 else [e.2]

/-- The member this one receives a piece from; none where a missing root has it. -/
def Xop.parent (x : Xop) (r : Nat) : Nat → Nat → Option Nat
  | 0, _ => none
  | fuel + 1, m =>
    match (x.edges r).find? fun e => e.2 == m with
    | none => none
    | some e => if x.missing.contains e.1 then Xop.parent x r fuel e.1 else some e.1

/-- Pieces of this kind of operation: (tree root, piece, bytes). -/
def Xop.pieces (x : Xop) : List (Nat × Nat × Nat) :=
  let d := x.desc
  let cut := fun r => (List.range (ceilDiv (xCount d) 8192)).map fun p => (r, p, min 8192 (xCount d - 8192 * p))
  match xKind d with
  | 1 => (List.range x.chunks).map fun c =>
      let b := (x.chunkAt c).2 * fmtSize (xFmtOut d)
      (x.rootOwner c, c, b + (8 - b % 8) % 8 + 32)
  | 2 | 4 => (List.range x.chunks).map fun c => (x.rootOwner c, c, 32)
  | 7 => [(0, 0, 32)]
  | 3 => (List.range x.n).flatMap cut
  | 5 => cut (xRoot d)
  | 6 => if x.me = xRoot d then (List.range x.n).flatMap cut else cut x.me
  | _ => []

def Xop.hasSeg (x : Xop) (r p : Nat) : Bool := x.segs.any fun g => g.rank == r && g.piece == p

/-- Where a piece goes at this member; none where it delivers nothing here. -/
def Xop.segDest (x : Xop) (r p : Nat) : Option Nat :=
  match xKind x.desc with
  | 3 => some (xDst x.desc + r * xCount x.desc + 8192 * p)
  | 5 => some (xDst x.desc + 8192 * p)
  | 6 => if x.me = xRoot x.desc then some (xDst x.desc + r * xCount x.desc + 8192 * p) else none
  | _ => none

/-- Grants for the pieces this member is to receive, at most 16 in flight a tree, while the half has records (R276). -/
def grantSegs (s : State) (id : Nat) : State :=
  match s.xopOf id with
  | none => s
  | some x =>
    x.pieces.foldl (fun s e =>
      let (r, p, len) := e
      match s.xopOf id with
      | none => s
      | some x =>
        match Xop.parent x r (x.n + 1) x.me with
        | none => s
        | some k =>
          let open_ := (x.handles.filter fun h => match h.use with | .segment r' _ => r' == r | _ => false).length
          if x.hasSeg r p || x.granted.contains (.segment r p, k) || open_ ≥ 16 || !grantRoom s x.half 1 then s
          else grantPieces s x (.segment r p) k (min len 8192) 0 ((x.segDest r p).elim [] fun a => [(a, len)]) []) s

/-- Sends the pieces that stand here to the members that have granted them. -/
def sendSegs (s : State) (id : Nat) : State :=
  match s.xopOf id with
  | none => s
  | some x =>
    x.grants.foldl (fun s g =>
      match s.xopOf id, g.use with
      | some x, .segment r p =>
        match x.segs.find? fun e => e.rank == r && e.piece == p with
        | none => s
        | some e =>
          let x := { x with grants := x.grants.filter (· != g), sent := (g.use, g.rank) :: x.sent }
          queueMsg (s.putXop x) id ⟨g.use, g.rank, false, g.handle, e.data, e.poison⟩
      | _, _ => s) s

/-- A root value in FMT_OUT with its trailer (R271, R273). -/
def Xop.final (x : Xop) (v : XVal) : List Byte :=
  let d := x.desc
  let es := v.vals.map fun w => ieeeRound (fmtIeee (xFmtOut d)) .rne false (exOf (ieeeVal (xForm (xArith d)) w))
  let b := es.flatMap fun e => leBytes e.1 (fmtSize (xFmtOut d))
  b ++ List.replicate ((8 - b.length % 8) % 8) 0 ++
    trailerBytes { v.tr with flags := es.foldl (fun f e => f ||| e.2) v.tr.flags }

/-- A piece comes to stand at this member: a result chunk is written and its trailer taken (R273, R279); the time of a reduction's last
trailer is that of its choices (R309). -/
def takeSeg (w : XW) (id : Nat) (g : XSeg) : XW :=
  xThen w fun s =>
    match s.xopOf id with
    | none => (s, false)
    | some x =>
      if x.ending.isSome || x.hasSeg g.rank g.piece then (s, false)
      else
        let kept := if xKind x.desc = 2 || xKind x.desc = 4 then { g with data := g.data.drop (g.data.length - 32) } else g
        let s := s.putXop { x with segs := kept :: x.segs }
        if !isTreeKind (xKind x.desc) then (s, false)
        else
          let tr := trailerOf (g.data.drop (g.data.length - 32))
          let total := joinTrailer x.total tr
          let (e0, n) := x.chunkAt g.piece
          let sz := fmtSize (xFmtOut x.desc)
          let base := if xKind x.desc = 2 then e0 - x.me * x.shard else e0
          let w := if g.data.length ≤ 32 then (s, false)
            else xStore (s, false) id (xDst x.desc + base * sz) (g.data.take (n * sz)) ((List.range (ceilDiv (n * sz) 64)).map fun _ => tr.poison)
          xThen w fun s =>
            match s.xopOf id with
            | none => (s, false)
            | some x =>
              let x := { x with total := total, poisoned := x.poisoned || tr.poison }
              if total.late.length > 4 then (fifthLate (s.putXop x) x total.late, false)
              else if x.ending.isSome || x.pieces.any (fun e => !x.hasSeg e.1 e.2.1) then (s.putXop x, false)
              else (s.putXop { x with whole := some s.gtime }, false)

/-- Root values that can be formed here. -/
def formRoots (w : XW) (id : Nat) : XW :=
  match w.1.xopOf id with
  | none => w
  | some x =>
    (List.range x.chunks).foldl (fun w c =>
      xThen w fun s =>
        match s.xopOf id with
        | none => (s, false)
        | some x =>
          if x.rootOwner c ≠ x.me || x.hasSeg x.me c then (s, false)
          else
            let v := if x.emptyNode 0 x.treeSize then
                some { vals := (List.range (x.chunkAt c).2).map fun i =>
                  Config.emptyReduction ((x.chunkAt c).1 + i) % 2 ^ (8 * xBytes (xArith x.desc)) }
              else Xop.value x c x.depth 0 x.top
            match v with
            | none => (s, false)
            | some v => takeSeg (s, false) id { rank := x.me, piece := c, data := x.final v }) w

/-- This member's own movement data, cut into pieces and copied to DST where it belongs there. -/
def ownSegs (w : XW) (id : Nat) : XW :=
  match w.1.xopOf id with
  | none => w
  | some x =>
    x.pieces.foldl (fun w e =>
      xThen w fun s =>
        match s.xopOf id with
        | none => (s, false)
        | some x =>
          let (r, p, len) := e
          if r ≠ x.me || x.hasSeg r p then (s, false)
          else
            let g : XSeg := ⟨r, p, (x.src.drop (8192 * p)).take len, slicePoison x.srcPoison (8192 * p) len⟩
            let w := takeSeg (s, false) id g
            match x.segDest r p with
            | none => w
            | some a => xStore w id a g.data g.poison) w

/-! ALL_TO_ALL (R280) -/

/-- Sends this member's counts. -/
def sendCounts (s : State) (x : Xop) : State :=
  x.others.foldl (fun s r => toRank s x r (.count s.deviceId (xOpId x.desc) x.pcheck (x.countsSrc.getD r 0) [] [])) s

/-- A[i] and the offset of place[i], ascending. -/
def allot (limit : Nat) : Nat → List Nat → List (Nat × Nat)
  | _, [] => []
  | off, c :: cs =>
    let a := min c (limit - off)
    (a, off) :: allot limit (off + a) cs

/-- The count a rank said it will send here: this member's own from COUNTS_SRC, 0 from a missing one. -/
def Xop.countFrom (x : Xop) (r : Nat) : Option Nat :=
  if r = x.me then some (x.countsSrc.getD r 0)
  else match x.counts.find? fun e => e.1 == r with
    | some (_, cs, _) => some (cs.headD 0)
    | none => if x.missing.contains r then some 0 else none

/-- Whether rank r has its grant, or is to have none (R280). -/
def Xop.pairGranted (x : Xop) (r : Nat) : Bool :=
  r == x.me || x.accepted.getD r 0 == 0 || x.missing.contains r || x.granted.contains (.pair x.me, r)

/-- Once every count is known: COUNTS_DST and the local copy. -/
def allotAll (w : XW) (id : Nat) : XW :=
  xThen w fun s =>
    match s.xopOf id with
    | none => (s, false)
    | some x =>
      let cs := (List.range x.n).map fun r => x.countFrom r
      if x.allotted || cs.any (·.isNone) then (s, false)
      else
        let want := cs.map (·.getD 0)
        let as := allot (xRecvLimit x.desc) 0 want
        let got := as.map (·.1)
        let s := s.putXop { x with allotted := true, accepted := got, truncated := got != want }
        let w := xStore (s, false) id (xCountsDst x.desc) (got.flatMap fun a => leBytes a 8) []
        let (a, off) := as.getD x.me (0, 0)
        let base := (x.countsSrc.take x.me).sum
        xStore w id (xDst x.desc + off) ((x.src.drop base).take a) (slicePoison x.srcPoison base a)

/-- The grants of an ALL_TO_ALL, in ascending rank, while the half has records (R276, R280). -/
def grantPairs (s : State) (id : Nat) : State :=
  match s.xopOf id with
  | none => s
  | some x =>
    (List.range x.accepted.length).foldl (fun s r =>
      match s.xopOf id with
      | none => s
      | some x =>
        if x.pairGranted r || x.ending.isSome || !grantRoom s x.half (ceilDiv (x.accepted.getD r 0) 8192) then s
        else
          let a := x.accepted.getD r 0
          grantPieces s x (.pair x.me) r a a [(xDst x.desc + (x.accepted.take r).sum, a)] []) s

/-- Answers the grants of ALL_TO_ALL. -/
def sendPairs (s : State) (id : Nat) : State :=
  match s.xopOf id with
  | none => s
  | some x =>
    x.grants.foldl (fun s g =>
      match s.xopOf id, g.use with
      | some x, .pair _ =>
        let base := (x.countsSrc.take g.rank).sum
        let x := { x with grants := x.grants.filter (· != g), sent := (g.use, g.rank) :: x.sent }
        queuePieces (s.putXop x) id g.use g.rank g.handle ((x.src.drop base).take g.value) (slicePoison x.srcPoison base g.value)
      | _, _ => s) s

/-! Late contributions (R283, R284) -/

/-- Late child nodes with the chunks of theirs that this member owns the parent of. -/
def Xop.lateChunks (x : Xop) : List (Nat × Nat × Nat) :=
  x.late.flatMap fun e =>
    match parentFrom x.depth 0 x.treeSize e.1 e.2 with
    | none => []
    | some (pl, pz) =>
      ((List.range x.chunks).filter fun c =>
        x.owner pl pz c == some x.me && x.owner e.1 e.2 c != some x.me).map fun c => (e.1, e.2, c)

/-- Widens late working values into CARRY at a chunk's elements; a poisoned chunk poisons what it is added to. -/
def addCarry (w : XW) (x : Xop) (c : Nat) (vals : List Nat) (poison : Bool) : XW :=
  xThen w fun s =>
    let (e0, n) := x.chunkAt c
    let va := xCarry x.desc + 8 * e0
    match xRead s x va (8 * n) with
    | (s, .error (.wait, _)) => (s, true)
    | (s, .error (_, bad)) => (accessFault s x bad, false)
    | (s, .ok (b, p)) =>
      let sums := (List.range n).map fun i =>
        let old := ieeeVal fp64 (leNat ((b.drop (8 * i)).take 8))
        (ieeeRound fp64 .rne false (exOf (addV false old (ieeeVal (xForm (xArith x.desc)) (vals.getD i 0))).1)).1
      match xWrite s x va (sums.flatMap fun v => leBytes v 8) (p.map (· || poison)) with
      | (s, .wait, _) => (s, true)
      | (s, .ok _ _, _) => (s, false)
      | (s, _, bad) => (accessFault s x bad, false)

/-- Changes an operation, live or late. -/
def State.putAny (s : State) (x : Xop) : State :=
  if (s.xopOf (xOpId x.desc)).isSome then s.putXop x
  else { s with xch := { s.xch with carry := s.xch.carry.map fun y => if xOpId y.desc == xOpId x.desc then x else y } }

/-- Adds the late chunks that have arrived, several of one chunk in ascending LO; `all` adds those that wait for a lower
one too. -/
def drainLate (all : Bool) : Nat → XW → Nat → XW
  | 0, w, _ => w
  | fuel + 1, w, id =>
    if w.2 then w
    else match w.1.anyXop id with
      | none => w
      | some x =>
        let ready := x.lateIn.filter fun e =>
          all || x.lateChunks.all fun l => l.2.2 != e.2.1 || decide (l.1 ≥ e.1) || x.lateDone.contains (l.1, e.2.1)
        match ready.mergeSort (fun a b => decide (a.1 ≤ b.1)) with
        | [] => w
        | e :: _ =>
          let w := addCarry w x e.2.1 e.2.2.1 e.2.2.2
          drainLate all fuel (xThen w fun s =>
            (s.putAny { (s.anyXop id).getD x with lateIn := x.lateIn.filter (· != e), lateDone := (e.1, e.2.1) :: x.lateDone }, false)) id

/-- A late child's chunk arrives (R284): it is dropped and counted, or kept for CARRY unless it has been counted lost. -/
def takeLate (w : XW) (x : Xop) (lo c : Nat) (v : XVal) : XW :=
  xThen w fun s =>
    if xLate x.desc ≠ 2 then (s.bump .xch 0 0x128 1, false)
    else if x.lateDone.contains (lo, c) then (s, false)
    else
      let s := s.putAny { x with lateIn := (lo, c, v.vals, v.tr.poison) :: x.lateIn }
      drainLate false (x.lateIn.length + 1) (s, false) (xOpId x.desc)

/-- LATE_DEADLINE at a node owner: its children with no chunk delivered are declared late (R283). -/
def declareLate (s : State) (x : Xop) : State :=
  let kids := x.nodeList.flatMap fun e => (x.children e.1 e.2).map fun k => (e, k.1, k.2.1)
  let late := kids.filter fun (e, l, z) =>
    let cs := (List.range x.chunks).filter fun c => x.owner e.1 e.2 c == some x.me && x.owner l z c != some x.me
    !cs.isEmpty && !(x.opnds.any fun o => o.lo == l && o.size == z) && !x.late.contains (l, z)
  let names := late.map fun (_, l, z) => (l, z)
  let y := { x with late := x.late ++ names }
  let s := (s.bump .xch 0 0x124 names.length).putXop y
  if y.late.length > 4 then fifthLate s y y.late else s

/-! Progress -/

/-- Everything a collective can do now. -/
def flushColl (w : XW) (id : Nat) : XW :=
  match w.1.xopOf id with
  | none => w
  | some x =>
    if w.2 || x.ending.isSome || xKind x.desc ≥ 9 then w
    else if isTreeKind (xKind x.desc) then
      let w := formRoots (formNodes (grantNodes w.1 id, w.2) id) id
      xThen w fun s =>
        if ((s.xopOf id).elim true (·.ending.isSome)) then (s, false)
        else xThen (sendOperands (s, false) id) fun s => (sendSegs (grantSegs s id) id, false)
    else if xKind x.desc = 8 then
      xThen (allotAll w id) fun s =>
        if ((s.xopOf id).elim true (·.ending.isSome)) then (s, false) else (sendPairs (grantPairs s id) id, false)
    else
      xThen (ownSegs w id) fun s =>
        if ((s.xopOf id).elim true (·.ending.isSome)) then (s, false) else (sendSegs (grantSegs s id) id, false)

/-- Whether a collective has done all that it does at this member. Nothing more goes down the tree of a missing root. -/
def Xop.collDone (x : Xop) : Bool :=
  let pieces := x.pieces.filter fun e => !x.missing.contains e.1
  let segsSent := pieces.all fun (r, p, _) =>
    ((Xop.kids x r (x.n + 1) x.me).all fun k => x.sent.contains (.segment r p, k))
  let expected := pieces.filter fun (r, p, _) =>
    !x.hasSeg r p && (r == x.me || (Xop.parent x r (x.n + 1) x.me).isSome)
  let operandsSent := (List.range x.chunks).all fun c =>
    x.nodeList.all fun e =>
      (x.children e.1 e.2).all fun k =>
        let dest_ := (x.owner e.1 e.2 c).getD 0
        x.owner k.1 k.2.1 c != some x.me || dest_ == x.me || x.missing.contains dest_ || x.sent.contains (.operand k.1 k.2.1 c, dest_)
  let rootsDone := (List.range x.chunks).all fun c => x.rootOwner c != x.me || x.hasSeg x.me c
  let pairsSent := x.others.all fun r => x.countsSrc.getD r 0 == 0 || x.sent.any fun e => e.2 == r
  if !x.outq.isEmpty then false
  else if isTreeKind (xKind x.desc) then expected.isEmpty && segsSent && operandsSent && rootsDone
  else if xKind x.desc = 8 then x.allotted && (List.range x.n).all x.pairGranted && x.handles.isEmpty && x.grants.isEmpty && pairsSent
  else expected.isEmpty && segsSent

end Sys2Proof.Machine
end

