-- ==== Sys2Proof/Machine/Experts.lean ====
section
/-!
DEFINITION. Expert dispatch and combine, and the catalogue (R288–R300).
Rows of notes/assumptions: DEDUCED 99, 103, 104, 203; DESIGN CHOICE 102, 110.
-/
namespace Sys2Proof.Machine

open Sys2Proof

/-! Descriptor fields (R292) -/

def eK (d : Nat) : Nat := fld d 0 4 4
def eSlot (d : Nat) : Nat := fld d 0 8 6
def eFmtE (d : Nat) : Nat := fld d 0 14 5
def eFmtY (d : Nat) : Nat := fld d 0 19 5
def eWeightEn (d : Nat) : Bool := flag d 0 24
def eGen (d : Nat) : Nat := fld d 8 0 32
def eBase (d : Nat) : Nat := fld d 0xC 0 17
def eLayer (d : Nat) : Nat := fld d 0x1C 0 12
def eSlots (d : Nat) : Nat := fld d 0x1C 16 7
def eCap (d : Nat) : Nat := fld d 0x20 0 17
def eSlotBase (d : Nat) : Nat := fld d 0x24 0 12
def eRoute (d : Nat) : Nat := fld d 0x28 0 64
def eT (d : Nat) : Nat := fld d 0x30 0 17
def eRow (d : Nat) : Nat := fld d 0x34 0 17
def eTok (d : Nat) : Nat := fld d 0x38 0 64
def eRecv (d : Nat) : Nat := fld d 0x40 0 64
def eMeta (d : Nat) : Nat := fld d 0x48 0 64
def eSummary (d : Nat) : Nat := fld d 0x50 0 64
def eMap (d : Nat) : Nat := fld d 0x60 0 64
def eStage (d : Nat) : Nat := fld d 0x68 0 64

/-! The catalogue (R288) -/

def cEntries : Nat := 131072
def cDev (e : Nat) : Nat := bits e 0 15
def cValid (e : Nat) : Bool := e.testBit 15
def cSlot (e : Nat) : Nat := bits e 16 12
def cRepl (e : Nat) : Nat := bits e 28 3
def cReplica (e : Nat) : Bool := e.testBit 31
def cRidx (e : Nat) : Nat := bits e 32 17
def cLayer (e : Nat) : Nat := bits e 52 12
def cWbase (e : Nat) : Nat := bits e 64 48

def State.catEntry (s : State) (i : Nat) : Nat := tabGet 0 s.cat.entries i

/-- What a lookup answers: an entry, or the status that ends the dispatch. -/
def catLook (s : State) (i layer : Nat) (replica : Bool) : Except Nat Nat :=
  if tabGet false s.cat.bad i then .error stPoisoned
  else
    let e := s.catEntry i
    if i ≥ cEntries || !cValid e || cReplica e != replica || cLayer e ≠ layer then .error stCatMiss else .ok e

/-- route of R294: destination rank and slot. -/
def routeOf (s : State) (x : Xop) (index token t : Nat) : Except Nat (Nat × Nat) :=
  let d := x.desc
  match catLook s (eBase d + index) (eLayer d) false with
  | .error c => .error c
  | .ok e =>
    let key := if x.mode = 1 then token else (x.me + t) % 2 ^ 32
    let j := key % (cRepl e + 1)
    match if j = 0 then Except.ok e else catLook s (cRidx e + j - 1) (eLayer d) true with
    | .error c => .error c
    | .ok e =>
      match x.rankOf (cDev e) with
      | none => .error stCatMiss
      | some r => if cSlot e < eSlotBase d || cSlot e ≥ eSlotBase d + eSlots d then .error stCatMiss else .ok (r, cSlot e)

/-! TOPK records (R127) -/

def tkIndex (rec_ r : Nat) : Nat := fld rec_ (2 * r) 0 16
def tkWeight (rec_ r : Nat) : Nat := fld rec_ (0x10 + 4 * r) 0 32
def tkK (rec_ : Nat) : Nat := fld rec_ 0x30 0 4
def tkToken (rec_ : Nat) : Nat := fld rec_ 0x38 0 64

/-- Whether every record agrees with the descriptor (R294). -/
def recordsOk (d : Nat) (recs : List Nat) : Bool :=
  recs.all fun r => tkK r == eK d && (List.range (eK d)).all fun i => decide (tkIndex r i < cEntries - eBase d)

/-- Looks every routing up, in ascending t and then r. -/
def lookAll (s : State) (x : Xop) (recs : List Nat) : List (Nat × Nat) → Except Nat (List Route)
  | [] => .ok []
  | (t, r) :: rest =>
    let rc := recs.getD t 0
    match routeOf s x (tkIndex rc r) (tkToken rc) t with
    | .error c => .error c
    | .ok (k, sl) =>
      match lookAll s x recs rest with
      | .error c => .error c
      | .ok rs => .ok (⟨t, r, k, sl, tkToken rc, none⟩ :: rs)

/-- Every (t, r) of an operation. -/
def tokenPairs (d : Nat) : List (Nat × Nat) := (List.range (eT d)).flatMap fun t => (List.range (eK d)).map fun r => (t, r)

/-! Bit errors of the catalogue (R290) -/

/-- A dispatch reads an entry: a free value says whether a bit error of it is corrected, and counted, or uncorrectable, and
stays until a load rewrites the entry. -/
def catRead (s : State) (i : Nat) : State :=
  let e := Config.catError s.draws
  let s := { s with draws := s.draws + 1 }
  if e = 1#2 then s.bump .cat 0 0x114 1
  else if e = 2#2 then { s with cat := { s.cat with bad := tabSet false s.cat.bad i true } }
  else s

/-- The entries that one routing reads, and whether it ends the lookup. -/
def readRoute (s : State) (x : Xop) (recs : List Nat) (e : Nat × Nat) : XW :=
  let rc := recs.getD e.1 0
  let i := eBase x.desc + tkIndex rc e.2
  let s := catRead s i
  match catLook s i (eLayer x.desc) false with
  | .error _ => (s, true)
  | .ok c =>
    let key := if x.mode = 1 then tkToken rc else (x.me + e.1) % 2 ^ 32
    let j := key % (cRepl c + 1)
    let s := if j = 0 then s else catRead s (cRidx c + j - 1)
    match routeOf s x (tkIndex rc e.2) (tkToken rc) e.1 with
    | .error _ => (s, true)
    | .ok _ => (s, false)

/-- A dispatch reads the entries of its routings, as far as they pass. -/
def readRoutes (s : State) (x : Xop) (recs : List Nat) : XW :=
  (tokenPairs x.desc).foldl (fun w e => xThen w fun s => readRoute s x recs e) (s, false)

/-- The catalogue entry that names a slot of this device in the layer. -/
def slotEntry (s : State) (d u : Nat) : Option (Nat × Nat) :=
  s.cat.entries.find? fun e => cValid e.2 && cDev e.2 == s.deviceId && cSlot e.2 == eSlotBase d + u && cLayer e.2 == eLayer d

/-- Its WBASE. -/
def slotBase (s : State) (d u : Nat) : Nat :=
  match slotEntry s d u with
  | some e => cWbase e.2
  | none => Config.unnamedBase u % 2 ^ 48

/-- The entries of the slots that the summaries name are read with the routings, before anything is sent (R290, R293). -/
def readSlots (s : State) (d : Nat) : State :=
  (List.range (eSlots d)).foldl (fun s u => match slotEntry s d u with
    | some e => catRead s e.1
    | none => s) s

/-- Whether one of them holds an uncorrectable error. -/
def slotsBad (s : State) (d : Nat) : Bool :=
  (List.range (eSlots d)).any fun u => (slotEntry s d u).any fun e => tabGet false s.cat.bad e.1

/-! Counts and grants (R294) -/

/-- A key: TOKEN in CANONICAL mode, (rank, position) otherwise, as one number. -/
def keyOf (x : Xop) (rank t token : Nat) : Nat := if x.mode = 1 then token else 2 ^ 32 * rank + t

/-- This member's routings to a slot of a rank, in ascending key. -/
def Xop.routesTo (x : Xop) (rank slot : Nat) : List Route :=
  (x.routes.filter fun r => r.rank == rank && r.slot == slot).mergeSort
    fun a b => decide (keyOf x x.me a.t a.token ≤ keyOf x x.me b.t b.token)

def Xop.slots (x : Xop) : List Nat := (List.range (eSlots x.desc)).map (· + eSlotBase x.desc)

/-- What this member tells a rank: the counts by slot, and in CANONICAL mode the TOKENs. -/
def Xop.countsFor (x : Xop) (rank : Nat) : List Nat × List (List Nat) :=
  let rs := x.slots.map fun u => x.routesTo rank u
  (rs.map (·.length), if x.mode = 1 then rs.map fun l => l.map (·.token) else [])

def sendDispatchCounts (s : State) (x : Xop) : State :=
  x.others.foldl (fun s r =>
    let (cs, ts) := x.countsFor r
    toRank s x r (.count s.deviceId (xOpId x.desc) x.pcheck 0 cs ts)) s

/-- The candidates of the u-th local slot: (key, rank), ascending (R294). -/
def Xop.candidates (x : Xop) (u : Nat) : List (Nat × Nat) :=
  let from_ := (List.range x.n).flatMap fun i =>
    let (cs, ts) := if i = x.me then x.countsFor x.me
      else match x.counts.find? fun e => e.1 == i with
        | some (_, cs, ts) => (cs, ts)
        | none => ([], [])
    if x.mode = 1 then (ts.getD u []).map fun t => (t, i)
    else (List.range (cs.getD u 0)).map fun j => (2 ^ 32 * i + j, i)
  from_.mergeSort fun a b => decide (a.1 ≤ b.1)

/-- Two candidates of one slot share a key. -/
def sameKey : List (Nat × Nat) → Bool
  | [] => false
  | a :: l => (match l with | b :: _ => a.1 == b.1 | [] => false) || sameKey l

/-- The rows of rank i: (u, k) by slot and key. -/
def Xop.rowsOf (x : Xop) (i : Nat) : List (Nat × Nat) :=
  (List.range (eSlots x.desc)).flatMap fun u =>
    let c := (x.candidates u).take (eCap x.desc)
    ((List.range c.length).filter fun k => (c.getD k (0, 0)).2 == i).map fun k => (u, k)

def Xop.hasCandidates (x : Xop) (i : Nat) : Bool := (List.range (eSlots x.desc)).any fun u => (x.candidates u).any fun e => e.2 == i

/-- Gives this member's routings to a rank their rows: the first of each slot's take the granted rows, the rest are
dropped. The routings in the order of the rows. -/
def Xop.assignRows (x : Xop) (rank : Nat) (rows : List (Nat × Nat)) : Xop :=
  let pairs := (List.range (eSlots x.desc)).flatMap fun u =>
    let rs := x.routesTo rank (eSlotBase x.desc + u)
    let ks := (rows.filter fun e => e.1 == u).map (·.2)
    (List.range rs.length).filterMap fun i => (rs[i]?).map fun r => (r.t, r.r, ks[i]?)
  { x with routes := x.routes.map fun r =>
      match pairs.find? fun e => e.1 == r.t && e.2.1 == r.r with
      | some (_, _, k) => { r with row := some k }
      | none => r }

/-- The metadata of a row (R293). -/
def metaBytes (x : Xop) (r : Route) : List Byte :=
  leBytes (pack [(0, 15, x.me), (16, 6, eSlot x.desc), (22, 3, r.r), (32, 17, r.t), (64, 64, r.token)]) 16

/-- Token row t of this member with its poison. -/
def Xop.tokenRow (x : Xop) (t : Nat) : List Byte × List Bool :=
  let n := eRow x.desc
  ((x.src.drop (t * n)).take n, slicePoison x.srcPoison (t * n) n)

/-- The routings that go into granted rows, in the rows' order. -/
def Xop.granteds (x : Xop) (rank : Nat) (rows : List (Nat × Nat)) : List Route :=
  rows.filterMap fun e => x.routes.find? fun r => r.rank == rank && r.slot == eSlotBase x.desc + e.1 && r.row == some (some e.2)

def rowAddr (d u k : Nat) : Nat := eRecv d + (u * eCap d + k) * eRow d
def metaAddr (d u k : Nat) : Nat := eMeta d + (u * eCap d + k) * 16

/-- Extents of granted rows: the rows, then their metadata. -/
def rowExtents (d : Nat) (rows : List (Nat × Nat)) : List (Nat × Nat) :=
  rows.map (fun e => (rowAddr d e.1 e.2, eRow d)) ++ rows.map fun e => (metaAddr d e.1 e.2, 16)

/-- A dispatch's message stream for granted rows, with its poison. -/
def Xop.rowStream (x : Xop) (rank : Nat) (rows : List (Nat × Nat)) : List Byte × List Bool :=
  let rs := x.granteds rank rows
  (rs.flatMap (fun r => (x.tokenRow r.t).1) ++ rs.flatMap (metaBytes x), rs.flatMap fun r => (x.tokenRow r.t).2)

/-- Whether rank i has the grant of its rows, or is to have none (R294). -/
def Xop.rowsGranted (x : Xop) (i : Nat) : Bool :=
  i == x.me || x.missing.contains i || !x.hasCandidates i || x.granted.contains (.rows, i)

/-- The grants of a dispatch's rows, while the half has records (R276, R294). -/
def grantRows (s : State) (id : Nat) : State :=
  match s.xopOf id with
  | none => s
  | some x =>
    (List.range x.n).foldl (fun s i =>
      match s.xopOf id with
      | none => s
      | some x =>
        let rows := x.rowsOf i
        let len := rows.length * (eRow x.desc + 16)
        if !x.allotted || x.rowsGranted i || x.ending.isSome || !grantRoom s x.half (ceilDiv len 8192) then s
        else grantPieces s x .rows i len rows.length (rowExtents x.desc rows) rows) s

/-- DISPATCH_COUNTS_COMPLETE: candidates are ordered, rows allocated, handles granted, and this member's own rows put in
place (R294). -/
def allocateRows (w : XW) (id : Nat) : XW :=
  xThen w fun s =>
    match s.xopOf id with
    | none => (s, false)
    | some x =>
      if (List.range (eSlots x.desc)).any fun u => x.mode == 1 && sameKey (x.candidates u) then
        (endEarly (abandonAll s x true) x stRouteInvalid 0, false)
      else
        let refused := ((List.range (eSlots x.desc)).map fun u => (x.candidates u).length - eCap x.desc).sum
        let s := s.bump .cat 0 0x110 refused
        let mine := x.rowsOf x.me
        let x := { x.assignRows x.me mine with allotted := true }
        let (data, p) := x.rowStream x.me mine
        let w := placeData (s.putXop x, false) id (rowExtents x.desc mine) 0 data p
        xThen w fun s => (grantRows s id, false)

/-- Whether every slot count has come. -/
def Xop.countsKnown (x : Xop) : Bool :=
  (List.range x.n).all fun r => r == x.me || x.missing.contains r || x.counts.any fun e => e.1 == r

/-- Answers the row grants of a dispatch: its map entries are known and its rows are sent. -/
def sendRows (s : State) (id : Nat) : State :=
  match s.xopOf id with
  | none => s
  | some x =>
    x.grants.foldl (fun s g =>
      match s.xopOf id, g.use with
      | some x, .rows =>
        let x := { x.assignRows g.rank g.rows with grants := x.grants.filter (· != g), sent := (g.use, g.rank) :: x.sent }
        let (data, p) := x.rowStream g.rank g.rows
        queuePieces (s.putXop x) id g.use g.rank g.handle data p
      | _, _ => s) s

/-- Whether a dispatch has only its summaries and map to write. -/
def Xop.dispatchDone (x : Xop) : Bool :=
  x.allotted && x.outq.isEmpty && (List.range x.n).all x.rowsGranted && x.handles.isEmpty && x.grants.isEmpty && x.routes.all fun r => r.row.isSome || x.missing.contains r.rank

/-- The slot summaries (R293). -/
def summaryBytes (s : State) (x : Xop) : List Byte :=
  (List.range (eSlots x.desc)).flatMap fun u =>
    let c := (x.candidates u).length
    let rows := min c (eCap x.desc)
    leBytes (pack [(0, 17, rows), (32, 32, c - rows), (64, 48, slotBase s x.desc u)]) 16

/-- A map entry (R293). -/
def mapEntry (r : Route) : List Byte :=
  leBytes (match r.row with
    | some (some k) => pack [(0, 15, r.rank), (16, 12, r.slot), (32, 17, k)]
    | _ => pack [(0, 15, r.rank), (15, 1, 1), (16, 12, r.slot)]) 8

/-- Writes the summaries and every known map entry. -/
def writeMaps (w : XW) (id : Nat) : XW :=
  match w.1.xopOf id with
  | none => w
  | some x =>
    let w := xStore w id (eSummary x.desc) (summaryBytes w.1 x) []
    x.routes.foldl (fun w r =>
      if r.row.isSome then xStore w id (eMap x.desc + 8 * (eK x.desc * r.t + r.r)) (mapEntry r) [] else w) w

/-! Combine (R297, R298) -/

/-- A map entry as the combine reads it: DROPPED, rank. -/
def Xop.mapAt (x : Xop) (t r : Nat) : Nat := x.countsSrc.getD (eK x.desc * t + r) 0
def mDropped (m : Nat) : Bool := m.testBit 15
def mRank (m : Nat) : Nat := bits m 0 15

def stageAddr (d t r : Nat) : Nat := eStage d + (eK d * t + r) * eRow d

/-- Grants for the rows the map names, and the local copies of this member's own. -/
def grantStage (w : XW) (id : Nat) : XW :=
  match w.1.xopOf id with
  | none => w
  | some x =>
    (tokenPairs x.desc).foldl (fun w e =>
      xThen w fun s =>
        match s.xopOf id with
        | none => (s, false)
        | some x =>
          let (t, r) := e
          let m := x.mapAt t r
          let i := eK x.desc * t + r
          let k := mRank m
          if mDropped m || x.staged.contains i || x.granted.contains (.row t r, k) || x.missing.contains k || x.ending.isSome then (s, false)
          else if k = x.me then
            match x.rows.findIdx? fun (_, _, sr, rr, tt) => sr == x.me && rr == r && tt == t with
            | none => (s, false)
            | some j =>
              let n := eRow x.desc
              let s := s.putXop { x with staged := i :: x.staged }
              xStore (s, false) id (stageAddr x.desc t r) ((x.src.drop (j * n)).take n) (slicePoison x.srcPoison (j * n) n)
          else if !grantRoom s x.half (ceilDiv (eRow x.desc) 8192) then (s, false)
          else (grantPieces s x (.row t r) k (eRow x.desc) 0 [(stageAddr x.desc t r, eRow x.desc)] [], false)) w

/-- Answers the grants of a combine with this member's expert rows. -/
def sendOutputs (s : State) (id : Nat) : State :=
  match s.xopOf id with
  | none => s
  | some x =>
    x.grants.foldl (fun s g =>
      match s.xopOf id, g.use with
      | some x, .row t r =>
        match x.rows.findIdx? fun (_, _, sr, rr, tt) => sr == g.rank && rr == r && tt == t with
        | none => s
        | some j =>
          let n := eRow x.desc
          let x := { x with grants := x.grants.filter (· != g), sent := (g.use, g.rank) :: x.sent }
          queuePieces (s.putXop x) id g.use g.rank g.handle ((x.src.drop (j * n)).take n) (slicePoison x.srcPoison (j * n) n)
      | _, _ => s) s

/-- Whether every mapped row has come, but those of missing members. -/
def Xop.rowsArrived (x : Xop) : Bool :=
  (tokenPairs x.desc).all fun (t, r) =>
    let m := x.mapAt t r
    mDropped m || x.missing.contains (mRank m) || x.staged.contains (eK x.desc * t + r)

/-- One element of Y: the FP32 accumulation of R297 over (weight, output) pairs, converted to FMT_Y; code and flags. -/
def combineElement (fy : Nat) (terms : List (Nat × Val)) : Nat × Nat :=
  let (acc, f) := terms.foldl (fun (a : Nat × Nat) e =>
    let (v, f) := fmaV false (ieeeVal fp32 e.1) e.2 (ieeeVal fp32 a.1)
    let (c, g) := toWork false v
    (c, a.2 ||| f ||| g)) (0x80000000, 0)
  let (y, g) := ieeeRound (fmtIeee fy) .rne false (exOf (ieeeVal fp32 acc))
  (y, f ||| g)

/-- The staged rows that count for a token: weight, bytes, poisoned. -/
def readStage (x : Xop) (t : Nat) : State → List Nat → State × Except (Acc × Nat) (List (Nat × List Byte × Bool))
  | s, [] => (s, .ok [])
  | s, r :: rs =>
    let m := x.mapAt t r
    if mDropped m || x.missing.contains (mRank m) then readStage x t s rs
    else match xRead s x (stageAddr x.desc t r) (eRow x.desc) with
      | (s, .error a) => (s, .error a)
      | (s, .ok (b, p)) =>
        let w := if eWeightEn x.desc then tkWeight (x.leafMap.getD t 0) r else 0x3F800000
        match readStage x t s rs with
        | (s, .ok l) => (s, .ok ((w, b, p.any id) :: l))
        | (s, .error a) => (s, .error a)

/-- Computes and writes one row of Y. -/
def combineRow (w : XW) (id t : Nat) : XW :=
  xThen w fun s =>
    match s.xopOf id with
    | none => (s, false)
    | some x =>
      if x.ending.isSome then (s, false)
      else match readStage x t s (List.range (eK x.desc)) with
        | (s, .error (.wait, _)) => (s, true)
        | (s, .error (_, bad)) => (accessFault s x bad, false)
        | (s, .ok l) =>
          let d := x.desc
          let be := fmtSize (eFmtE d)
          let by_ := fmtSize (eFmtY d)
          let n := eRow d / be
          let es := (List.range n).map fun c =>
            combineElement (eFmtY d) (l.map fun e => (e.1, ieeeVal (fmtIeee (eFmtE d)) (leNat ((e.2.1.drop (c * be)).take be))))
          let bad := l.any (·.2.2)
          let x := { x with poisoned := x.poisoned || bad
                            total := { x.total with flags := es.foldl (fun f e => f ||| e.2) x.total.flags } }
          xStore (s.putXop x, false) id (eTok d + t * n * by_) (es.flatMap fun e => leBytes e.1 by_)
            ((List.range (ceilDiv (n * by_) 64)).map fun _ => bad)

/-- Everything a dispatch or combine can do now. -/
def flushExpert (w : XW) (id : Nat) : XW :=
  match w.1.xopOf id with
  | none => w
  | some x =>
    if w.2 || x.ending.isSome then w
    else if xKind x.desc = 9 then (sendRows (grantRows w.1 id) id, false)
    else if xKind x.desc = 10 then
      xThen (grantStage w id) fun s => if ((s.xopOf id).elim true (·.ending.isSome)) then (s, false) else (sendOutputs s id, false)
    else w

/-! Sequence slots (R291) -/

def State.sslot (s : State) (i : Nat) : SSlot := tabGet {} s.cat.slots i
def State.setSslot (s : State) (i : Nat) (v : SSlot) : State := { s with cat := { s.cat with slots := tabSet {} s.cat.slots i v } }

/-- The end of a dispatch or combine in its slot. -/
def slotEnd (s : State) (x : Xop) (ok : Bool) : State :=
  if !x.holdsSlot then s
  else
    let i := eSlot x.desc
    s.setSslot i (if xKind x.desc = 9 && ok then { s.sslot i with state := 2 } else {})

/-- The slots of a destroyed queue or context go back to IDLE, with DISPATCH_LOST pending where no combine had begun (R291,
R299). -/
def loseSlots (s : State) (p : SSlot → Bool) : State :=
  (List.range 64).foldl (fun s i =>
    let v := s.sslot i
    if (v.state = 2 || v.state = 3) && p v then
      let ops := s.xch.ops.map fun x => if decide (xKind x.desc ≥ 9) && eSlot x.desc == i then { x with holdsSlot := false } else x
      { s with xch := { s.xch with ops := ops } }.setSslot i { lost := v.state == 2 }
    else s) s

end Sys2Proof.Machine
end

