-- ==== Sys2Proof/Machine/XchRows.lean ====
section
/-!
DEFINITION. The exchange engine's events: an operation's beginning with its checks (R269, R270, R294), packets received
(R260, R276), lateness (R283), its end (R269, R281), and the catalogue's load (R289).
Rows of notes/assumptions: DEDUCED 95, 97, 99, 101, 105, 108, 153, 175, 176, 177, 201; DESIGN CHOICE 208.
-/
namespace Sys2Proof.Machine

open Sys2Proof

/-! Ends -/

/-- Reports an operation's end to its sequencer or command, and counts it (R234, R269). -/
def endReq (s : State) (h : Nat) (q : XReq) (status code detail : Nat) : State :=
  let s := s.setReg .xch 0 0x114 ((s.reg .xch 0 0x114 + 1) % 2 ^ 32)
  let s := if status = stPartial then s.bump .xch 0 0x118 1 else if status = stGroupMismatch then s.bump .xch 0 0x12C 1 else s
  match q.seq with
  | some n =>
    let y := s.seqOf n
    let s := s.setSeq n { y with xdone := (y.xdone + 1) % 2 ^ 32, xops := y.xops - 1 }
    if status = 0 then s else seqFail s n ⟨status, code, detail⟩
  | none => reportEngine s q.queue q.cmd (ecXch h) (if status = 0 && detail = 0 then none else some ⟨status, code, detail⟩)

/-- An operation that fails a check ends before it sends anything (R270). -/
def failBegin (s : State) (h : Nat) (q : XReq) (status code : Nat) : State :=
  let s := if status = stXchFormat then
      capture s .xch 0 { sev := sevFailed, ctx := some q.ctx, unit := h, addr := q.addr, info := code }
    else s
  endReq s h q status code 0

/-- Removes an operation: its records are freed, its flags merged, its slot told, its end reported. One that has put +0 for late
chunks is kept for them, with the records of their messages (R284). The flags are those of the root trailers that have come (log entry 208). -/
def endOp (s : State) (x : Xop) (status code detail : Nat) : State :=
  let kept := (status == stOk || status == stPoisoned) && xLate x.desc != 0 && !x.late.isEmpty
  let s := { s with xch := { s.xch with
      ops := s.xch.ops.filter fun y => xOpId y.desc != xOpId x.desc
      recs := s.xch.recs.filter fun r => kept || r.op != xOpId x.desc
      carry := if kept then s.xch.carry ++ [x] else s.xch.carry } }
  let s := if status = stPartial && isReduction (xKind x.desc) then s else mergeFlags s x.req.ctx 4 x.total.flags
  let s := slotEnd s x (status = 0)
  endReq s x.half x.req status code detail

/-! Progress of a half -/

def flushOp (w : XW) (id : Nat) : XW := xThen (flushExpert (flushColl w id) id) fun s => (sendQueued s id, false)

/-- The half's operations send what they have made up (R335, R343). -/
def sendHalf (s : State) (h : Nat) : State :=
  (s.xch.ops.filter fun x => x.half == h).foldl (fun s x => sendQueued s (xOpId x.desc)) s

/-- Everything the half's operations can do now; nothing while it is held (R285). -/
def flushHalf (w : XW) (h : Nat) : XW :=
  if w.1.engineHeld (enXch h) then w
  else (w.1.xch.ops.filter fun x => x.half == h).foldl (fun w x => flushOp w (xOpId x.desc)) w

/-! Control packets (R276, R281, R282) -/

def ctrlOp : CtrlPkt → Nat
  | .grant _ op .. => op
  | .count _ op .. => op
  | .finish _ op _ => op
  | .abandon _ op => op
  | .notice op _ => op

/-- Whether a combine has sent every row that is asked of it and written Y. -/
def Xop.combineDone (x : Xop) : Bool :=
  x.combined && x.outq.isEmpty && x.rows.all fun (_, _, sr, r, t) => sr == x.me || x.missing.contains sr || x.sent.contains (.row t r, sr)

/-- Whether an operation has completed at this member (R269, R285). -/
def Xop.done (x : Xop) : Bool :=
  x.ending.isNone && match xKind x.desc with
    | 9 => x.dispatchDone
    | 10 => x.combineDone
    | _ => x.collDone

/-- Whether nothing that comes now changes how an operation ends (R285). A dispatch ends with its summaries and its map, so it can
still end otherwise until they are written (R294, R296). -/
def Xop.settled (x : Xop) : Bool := xKind x.desc != 9 && x.done

/-- A control packet for a live operation. An operation that has completed stays completed (R285), and dispatches with equal
keys end alike at every member (R294). -/
def takeCtrl (s : State) (x : Xop) (k : CtrlPkt) : State :=
  let mismatch := fun (pc : Nat) => decide (pc ≠ x.pcheck)
  if x.ending.isSome then (match k with
    | .notice _ dev => if (x.rankOf dev).isSome then rtrEvent s 7 else s
    | _ => s)
  else match k with
    | .grant src _ pc use handle value rows =>
      if mismatch pc then endEarly (abandonAll s x) x stGroupMismatch 0
      else match x.rankOf src with
        | none => s
        | some r => if x.missing.contains r then s else s.putXop { x with grants := x.grants ++ [⟨use, r, handle, value, rows⟩] }
    | .count src _ pc value counts tokens =>
      if mismatch pc then endEarly (abandonAll s x) x stGroupMismatch 0
      else match x.rankOf src with
        | none => s
        | some r =>
          if x.counts.any fun e => e.1 == r then s
          else s.putXop { x with counts := x.counts ++ [(r, if xKind x.desc = 8 then [value] else counts, tokens)] }
    | .finish _ _ r => if x.settled then s else addMissing s x r
    | .abandon b _ => match x.rankOf b.src with
      | none => s
      | some r =>
        if x.settled then s
        else if b.routeInvalid && xKind x.desc == 9 then endEarly s x stRouteInvalid 0
        else addMissing s x r
    | .notice _ dev => match x.rankOf dev with
      | none => s
      | some r =>
        if x.settled then rtrEvent s 7
        else
        let s := x.others.foldl (fun s k => if k = r then s else toRank s x k (.finish s.deviceId (xOpId x.desc) r)) s
        addMissing s x r

/-- A control packet arrives at a half: for a live operation, for one that has not begun, or for none. -/
def ctrlRx (h : Nat) (k : CtrlPkt) (s : State) : Out :=
  if s.pins.inReset then .next s
  else match s.xopOf (ctrlOp k) with
  | some x => xEvent s h fun s => flushHalf (takeCtrl s x k, false) x.half
  | none =>
    match k with
    | .notice .. => .next (rtrEvent s 7)
    | _ =>
      if (s.xch.early.filter fun e => e.half == h).length < 4096 then
        .next { s with xch := { s.xch with early := s.xch.early ++ [⟨h, s.gtime, k⟩] } }
      else .next (rtrEvent s 7)

/-- GRANT_RX. -/
def execGrantRx (h : HalfId) (src op pcheck : Nat) (use : XUse) (handle value : Nat) (rows : List (Nat × Nat)) (s : State) : Out :=
  ctrlRx h (.grant src op pcheck use handle value rows) s

/-- COUNT_RX. -/
def execCountRx (h : HalfId) (src op pcheck value : Nat) (counts : List Nat) (tokens : List (List Nat)) (s : State) : Out :=
  ctrlRx h (.count src op pcheck value counts tokens) s

/-- END_RX. -/
def execEndRx (h : HalfId) (src op rank : Nat) (s : State) : Out := ctrlRx h (.finish src op rank) s

/-- ABANDON_RX. -/
def execAbandonRx (h : HalfId) (src : Abandon) (op : Nat) (s : State) : Out := ctrlRx h (.abandon src op) s

/-- FENCED_NOTICE_RX. -/
def execFencedNoticeRx (h : HalfId) (op fenced : Nat) (s : State) : Out := ctrlRx h (.notice op fenced) s

/-- EARLY_PACKET_EXPIRY: of the i-th early packet. -/
def execEarlyPacketExpiry (i : Nat) (s : State) : Out :=
  match s.xch.early[i]? with
  | some e =>
    if s.gtime ≥ 1000000000 + e.since then .next (rtrEvent { s with xch := { s.xch with early := s.xch.early.eraseIdx i } } 7)
    else .next s
  | none => .next s

/-! Data packets (R260) -/

/-- Where a data packet's payload goes: the extents of its handle; a late operand goes nowhere (R284). -/
def Xop.placeOf (x : Xop) (k : DataPkt) : List (Nat × Nat) :=
  match x.handles.find? fun g => g.id == k.handle && x.dev g.rank == k.src with
  | none => []
  | some g =>
    match g.use with
    | .operand lo size _ => if xLate x.desc != 0 && x.isLate lo size then [] else g.place
    | _ => g.place

/-- MESSAGE_PACKET_RX: an ejected data packet. -/
def execMessagePacketRx (h : HalfId) (k : DataPkt) (s : State) : Out :=
  if s.pins.inReset then .next s
  else if !DataPkt.good s k then .next (rtrEvent s 4)
  else match s.anyXop k.op with
    | none => .next (rtrEvent s 7)
    | some x =>
      let old := s.recOf h k.src k.msgId
      if old.isNone && decide ((s.xch.recs.filter fun r => r.half == h.val).length ≥ 8192) then .next (rtrEvent s 6)
      else
        let (r, bad) := nextRec h old k
        if bad then .next (rtrEvent (putRec s h k.src k.msgId (some r)) 5)
        else xEvent s h fun s =>
          xThen (placeData (s, false) k.op (x.placeOf k) k.offset k.data k.poison) fun s => (putRec s h k.src k.msgId (some r), false)

/-- A complete message is delivered to its operation. -/
def deliver (s : State) (x : Xop) (r : MsgRec) (b : List Byte) (p : List Bool) : XW :=
  let s := countEvent (ctxCount s x.req.ctx 9 b.length) .xch 0 0x51 (some x.req.ctx) b.length
  match x.handles.find? fun g => g.id == r.handle && x.dev g.rank == r.src with
  | none => (s, false)
  | some g =>
    let x := { x with handles := x.handles.filter (· != g) }
    let s := s.putAny x
    if x.ending.isSome then (s, false)
    else match g.use with
      | .operand lo size c =>
        let v := x.operandOf (x.transportOf lo size) c b
        if xLate x.desc ≠ 0 && x.isLate lo size then takeLate (s, false) x lo c v
        else (s.putAny { x with opnds := x.opnds ++ [⟨lo, size, c, v⟩] }, false)
      | .segment k q => takeSeg (s, false) (xOpId x.desc) ⟨k, q, b, p⟩
      | .row t k =>
        if x.handles.any (fun e => e.use == g.use) then (s, false)
        else (s.putAny { x with staged := (eK x.desc * t + k) :: x.staged }, false)
      | _ => (s, false)

/-- The completion of a message, to a router slot (`slot`) or otherwise. -/
def completeMsg (h src msgId : Nat) (slot : Bool) (s : State) : Out :=
  match s.recOf h src msgId with
  | none => .next s
  | some r =>
    if r.state ≠ .complete || decide (r.handle ≥ 2 ^ 31) != slot then .next s
    else match s.anyXop r.op with
      | none => .next (putRec s h src msgId none)
      | some x => xEvent s h fun s =>
        let (b, p) := joinParts r.parts.length 0 r.parts
        let w := deliver s x r b p
        flushHalf (xThen w fun s => (putRec s h src msgId none, false)) x.half

/-- MESSAGE_COMPLETION (R260). -/
def execMessageCompletion (h : HalfId) (src msgId : Nat) (s : State) : Out := completeMsg h src msgId false s

/-- REDUCTION_SLOT_OPERAND (R277): a complete DATA_RED operand for a router slot. -/
def execReductionSlotOperand (h : HalfId) (src msgId : Nat) (s : State) : Out := completeMsg h src msgId true s

/-! The checks of a descriptor (R270) -/

/-- Address bits [63:48] (R23). -/
def highBits (d : Nat) (offs : List Nat) : Bool := offs.any fun o => fld d o 48 16 != 0

def collReserved (d mode : Nat) : Bool :=
  let k := xKind d
  let red := isReduction k
  k == 0 || k ≥ 11 || xRed d == 3 || (!red && (xRed d != 0 || xFmtIn d != 0 || xFmtOut d != 0)) || xLate d == 3 ||
  fld d 0 19 13 != 0 || fld d 4 16 16 != 0 || fld d 0xC 15 17 != 0 || flag d 0x18 31 ||
  (!(k == 4 || k == 5 || k == 6) && xRoot d != 0) || (xLate d == 0 && (xDeadline d != 0 || xForce d != 0)) ||
  ((k == 7 || k == 8) && xCount d != 0) || fld d 0x78 0 64 != 0 ||
  (xLate d != 0 && mode != 2) || (xLeafMap d != 0 && mode != 1) ||
  highBits d [0x10, 0x20, 0x28, 0x38, 0x40, 0x48, 0x50, 0x58, 0x60, 0x70]

def collShape (d mode : Nat) : Bool :=
  let k := xKind d
  let n := xN d
  let top := if mode = 1 then 16 else clog2 n
  let unit := if k = 2 then xCount d / max n 1 else xCount d
  n == 0 || decide (n > 32768) || decide (xRank d ≥ n) || decide (xRoot d ≥ n) || (k != 7 && k != 8 && xCount d == 0) ||
  (k == 2 && xCount d % n != 0) || ((k == 3 || k == 5 || k == 6) && xCount d % 8 != 0) || (k == 8 && xRecvLimit d % 8 != 0) ||
  (isReduction k && unit % 32 != 0 && (List.range top).any fun h => decide (xLvl d (h + 1) ≥ 2))

def collAlign (d mode : Nat) : Bool :=
  let k := xKind d
  let used := [xGroup d, xMask d] ++ (if k = 7 then [] else [xSrc d, xDst d]) ++ (if isReduction k then [xStage d] else []) ++
    (if xLate d = 2 then [xCarry d] else []) ++ (if k = 8 then [xCountsSrc d, xCountsDst d] else []) ++
    (if mode = 1 && isReduction k then [xLeafMap d] else []) ++ [xForce d]
  used.any fun a => a % 64 != 0

def expertReserved (d : Nat) : Bool :=
  let disp := xKind d == 9
  fld d 0 25 7 != 0 || (disp && (eFmtE d != 0 || eFmtY d != 0 || eStage d != 0)) || fld d 4 16 16 != 0 ||
  fld d 0xC 17 15 != 0 || flag d 0x18 31 || fld d 0x1C 12 4 != 0 || fld d 0x1C 23 9 != 0 || fld d 0x20 17 15 != 0 ||
  fld d 0x24 12 20 != 0 || fld d 0x30 17 15 != 0 || fld d 0x34 17 15 != 0 || fld d 0x70 0 64 != 0 || fld d 0x78 0 64 != 0 ||
  highBits d [0x10, 0x28, 0x38, 0x40, 0x48, 0x50, 0x58, 0x60, 0x68]

def expertShape (d : Nat) : Bool :=
  let n := xN d
  n == 0 || decide (n > 32768) || decide (xRank d ≥ n) || eK d == 0 || decide (eK d > 8) || eSlots d == 0 || decide (eSlots d > 64) ||
  eCap d == 0 || decide (eCap d > 65536) || eT d == 0 || decide (eT d > 65536) || eRow d == 0 || eRow d % 64 != 0 || decide (eRow d > 65536)

def expertAlign (d : Nat) : Bool :=
  ([xGroup d, eRoute d, eTok d, eRecv d, eMeta d, eSummary d, xMask d, eMap d, eStage d]).any fun a => a % 64 != 0

/-- The first failure among the checks of the descriptor itself. -/
def descCheck (kind d mode : Nat) : Option Nat :=
  let k := xKind d
  let wrong := (kind == 0 && decide (k ≥ 9)) || (kind == 9 && k != 9) || (kind == 10 && k != 10)
  if k = 9 || k = 10 then
    if wrong || expertReserved d then some 1
    else if k = 10 && (2 ≤ eFmtE d || 2 ≤ eFmtY d) then some 2
    else if expertShape d then some 3
    else if expertAlign d then some 4
    else none
  else if wrong || collReserved d mode then some 1
  else if isReduction k && (2 ≤ xFmtIn d || 2 ≤ xFmtOut d) then some 2
  else if collShape d mode then some 3
  else if collAlign d mode then some 4
  else none

/-- A read that the checks make: bytes; `none` on a fault or poison; or the wait. -/
def checkRead (s : State) (h c va len : Nat) : State × Except Unit (Option (List Byte)) :=
  match memRead s (agXch h) h reqXch c va len with
  | (s, .wait) => (s, .error ())
  | (s, .ok b p) => (s, .ok (if p.any id then none else some b))
  | (s, _) => (s, .ok none)

/-- Little-endian words of `n` bytes each. -/
def wordsOf (n : Nat) (b : List Byte) : List Nat := (List.range (b.length / n)).map fun i => leNat ((b.drop (n * i)).take n)

/-- PCHECK (R276, R294). -/
def pcheckOf (d : Nat) (group : List Byte) : Nat :=
  let b := leBytes d 128
  let part := fun (a n : Nat) => (b.drop a).take n
  crc32c (part 0 16 ++ part 0x18 2 ++ (if xKind d = 9 then part 0x1C 12 else []) ++ part 0x30 8 ++ group)

/-- What a beginning operation reads before its data. -/
structure XTables where
  group : List Byte
  leaf : List Nat
  counts : List Nat
  force : List Nat
  routes : List Nat
deriving DecidableEq, Repr

/-- Reads a run of tables (address, length), stopping at the first that waits; an unreadable one is `none`. -/
def readTables (h c : Nat) : State → List (Nat × Nat) → State × Except Unit (List (Option (List Byte)))
  | s, [] => (s, .ok [])
  | s, (a, n) :: rest =>
    match if n = 0 then (s, Except.ok (some [])) else checkRead s h c a n with
    | (s, .error _) => (s, .error ())
    | (s, .ok b) =>
      match readTables h c s rest with
      | (s, .ok bs) => (s, .ok (b :: bs))
      | (s, .error _) => (s, .error ())

/-- The tables an operation reads: the group, LEAF_MAP, COUNTS_SRC or MAP, FORCE or the summaries, and the weights of a
combine that uses them. A dispatch reads ROUTE after its other checks (R294). -/
def tableList (d mode : Nat) : List (Nat × Nat) :=
  let k := xKind d
  [(xGroup d, 2 * xN d),
   (xLeafMap d, if mode = 1 && isReduction k then 131072 else 0),
   (if k = 10 then eMap d else xCountsSrc d, if k = 8 then 8 * xN d else if k = 10 then 8 * eT d * eK d else 0),
   (if k = 10 then eSummary d else xForce d, if k = 10 then 16 * eSlots d else if k < 9 && xForce d != 0 then 24 else 0),
   (eRoute d, if k = 10 && eWeightEn d then 64 * eT d else 0)]

def duplicated : List Nat → Bool
  | [] => false
  | a :: l => l.contains a || duplicated l

/-- A COUNTS_SRC table with a value that is not a multiple of 8. -/
def countsBad (b : Option (List Byte)) : Bool := ((b.map (wordsOf 8)).getD []).any fun c => c % 8 != 0

/-- The checks that rest on the tables: SHAPE of COUNTS_SRC, MEMBER, ACCESS. -/
def tableCheck (s : State) (d : Nat) (ts : List (Option (List Byte))) : Option Nat :=
  let group := (ts.getD 0 none).map (wordsOf 2)
  let leaf := (ts.getD 1 none).map (wordsOf 2)
  if xKind d = 8 && countsBad (ts.getD 2 none) then some 3
  else if (group.elim false fun g => g.getD (xRank d) 0x10000 != s.deviceId || duplicated g) ||
      (leaf.elim false fun l => l.any fun r => r != 0xFFFF && decide (r ≥ xN d)) then some 5
  else if ts.any (·.isNone) then some 6
  else none

/-! Beginning (R269, R284, R294, R297) -/

/-- Bytes of this member's data at SRC, TOK. -/
def srcLen (x : Xop) : Nat :=
  let d := x.desc
  match xKind d with
  | 1 | 2 | 4 => xCount d * fmtSize (xFmtIn d) * (if x.canonical then (x.leafMap.filter (· == x.me)).length else 1)
  | 3 | 6 => xCount d
  | 5 => if x.me = xRoot d then xCount d else 0
  | 8 => x.countsSrc.sum
  | 9 => eT d * eRow d
  | _ => 0

/-- Late chunks that have not arrived. -/
def Xop.lostChunks (x : Xop) : List (Nat × Nat × Nat) := x.lateChunks.filter fun l => !x.lateDone.contains (l.1, l.2.2)

/-- CARRY at the beginning of an operation that names it (R284): late chunks that have come are added, those that have not
are dropped, counted and logged, whether their operation is still live or not. -/
def takeCarry (w : XW) (x : Xop) : XW :=
  xThen w fun s =>
    let same := fun (y : Xop) => xLate y.desc == 2 && xCarry y.desc == xCarry x.desc && y.req.ctx == x.req.ctx
    let w := ((s.xch.carry ++ s.xch.ops).filter same).foldl (fun w y => drainLate true (y.lateIn.length + 1) w (xOpId y.desc)) (s, false)
    xThen w fun s =>
      let all := ((s.xch.carry ++ s.xch.ops).filter same).flatMap Xop.lostChunks
      let s := { s with xch := { s.xch with
        carry := s.xch.carry.filter fun y => !same y
        ops := s.xch.ops.map fun (y : Xop) =>
          if same y then { y with lateDone := y.lateDone ++ (y.lostChunks.map fun (l : Nat × Nat × Nat) => (l.1, l.2.2)) } else y } }
      let s := s.bump .xch 0 0x128 all.length
      if all.isEmpty then (s, false)
      else logChoice (s, false) x 2 s.gtime (all.foldl (fun a l => min a l.1) 0x7FFF) (min all.length 0x7FFF) 0

/-- Reads CARRY into the operation and writes −0 over it. -/
def useCarry (w : XW) (id : Nat) : XW :=
  xThen w fun s =>
    match s.xopOf id with
    | none => (s, false)
    | some x =>
      if xLate x.desc ≠ 2 then (s, false)
      else match xRead s x (xCarry x.desc) (8 * xCount x.desc) with
        | (s, .error (.wait, _)) => (s, true)
        | (s, .error (_, bad)) => (accessFault s x bad, false)
        | (s, .ok (b, p)) =>
          let s := s.putXop { x with carryIn := wordsOf 8 b, carryPoison := p }
          xStore (s, false) id (xCarry x.desc) ((List.range (xCount x.desc)).flatMap fun _ => leBytes (2 ^ 63) 8) []

/-- Reads this member's data at `va` into the operation, recording poison once (R279). -/
def readSrc (w : XW) (id va len : Nat) : XW :=
  xThen w fun s =>
    match s.xopOf id with
    | none => (s, false)
    | some x =>
      if len = 0 then (s, false)
      else match xRead s x va len with
        | (s, .error (.wait, _)) => (s, true)
        | (s, .error (_, bad)) => (accessFault s x bad, false)
        | (s, .ok (b, p)) =>
          let s := if p.any (fun b => b) && !isReduction (xKind x.desc) then
              capture s .xch 0 { sev := sevLogged, ctx := some x.req.ctx, unit := x.half,
                                 addr := (markedUnits va p).headD va, info := 0x10 }
            else s
          (s.putXop { x with src := x.src ++ b, srcPoison := x.srcPoison ++ p }, false)

/-- The output rows of a combine with their metadata: read in ascending slot and row. -/
def readOutputs (w : XW) (id : Nat) (rows : List Nat) : XW :=
  match w.1.xopOf id with
  | none => w
  | some x =>
    let d := x.desc
    let all := (List.range (eSlots d)).flatMap fun u => (List.range (rows.getD u 0)).map fun k => (u, k)
    all.foldl (fun w e =>
      let w := readSrc w id (rowAddr d e.1 e.2) (eRow d)
      xThen w fun s =>
        match s.xopOf id with
        | none => (s, false)
        | some x =>
          if x.ending.isSome then (s, false)
          else match xRead s x (metaAddr d e.1 e.2) 16 with
            | (s, .error (.wait, _)) => (s, true)
            | (s, .error (_, bad)) => (accessFault s x bad, false)
            | (s, .ok (b, p)) =>
              if p.any (fun b => b) then (accessFault s x (metaAddr d e.1 e.2), false)
              else
                let m := leNat b
                (s.putXop { x with rows := x.rows ++ [(e.1, e.2, fld m 0 0 15, fld m 0 22 3, fld m 4 0 17)] }, false)) w

/-- What keeps a dispatch from reading its routing records: the catalogue's generation, then its slot (R294, R291). -/
def dispatchCheck (s : State) (d : Nat) : Option Nat :=
  if eGen d ≠ s.reg .cat 0 0x104 || eGen d = max32 then some stCatStale
  else if (s.sslot (eSlot d)).state ≠ 0 then some stSlotBusy
  else none

/-- The status that keeps a dispatch with its records from beginning, or its routings (R294). -/
def routeCheck (s : State) (x : Xop) (recs : List Nat) : Except Nat (List Route) :=
  if !recordsOk x.desc recs then .error stRouteInvalid
  else if s.reg .cat 0 0x100 % 128 ≠ x.req.ctx + 64 then .error stCatMiss
  else match lookAll s x recs (tokenPairs x.desc) with
    | .error st => .error st
    | .ok rs => if slotsBad s x.desc then .error stPoisoned else .ok rs

/-- The status that keeps a combine from beginning (R291, R299). -/
def combineCheck (s : State) (x : Xop) : Option Nat :=
  let d := x.desc
  let v := s.sslot (eSlot d)
  if v.lost then some stDispatchLost
  else if v.state ≠ 2 || v.ctx ≠ x.req.ctx || v.map ≠ eMap d || v.t ≠ eT d || v.k ≠ eK d then some stSlotIdle
  else none

/-- Takes up the sequence slot. -/
def takeSlot (s : State) (x : Xop) : State :=
  let d := x.desc
  if xKind d = 9 then
    s.setSslot (eSlot d) { state := 1, ctx := x.req.ctx, op := xOpId d, map := eMap d, t := eT d, k := eK d, queue := x.req.queue }
  else s.setSslot (eSlot d) { s.sslot (eSlot d) with state := 3, queue := x.req.queue }

/-- Early packets of an operation that has begun. -/
def takeEarly (s : State) (id : Nat) : State :=
  let mine := s.xch.early.filter fun e => ctrlOp e.pkt == id
  let s := { s with xch := { s.xch with early := s.xch.early.filter fun e => ctrlOp e.pkt != id } }
  mine.foldl (fun s e => match s.xopOf id with | some x => takeCtrl s x e.pkt | none => s) s

/-- The operation with its tables, as it begins. -/
def newOp (s : State) (h : Nat) (q : XReq) (d : Nat) (ts : List (Option (List Byte))) : Xop :=
  let at_ := fun i => (ts.getD i none).getD []
  let x : Xop :=
    { half := h, req := q, desc := d, mode := (s.ctxOf q.ctx).mode, group := wordsOf 2 (at_ 0)
      leafMap := if xKind d = 10 then wordsOf 64 (at_ 4) else wordsOf 2 (at_ 1)
      pcheck := pcheckOf d (at_ 0), began := s.gtime, countsSrc := wordsOf 8 (at_ 2)
      forced := if xKind d < 9 && xForce d ≠ 0 then some (trailerLate (leNat (at_ 3))) else none }
  match x.forced with
  | none => x
  | some rs => { x with late := rs }

/-- Starts an operation: its entry in the half, its carry, its operand, and what has already come for it. -/
def startOp (s : State) (h : Nat) (x : Xop) (outputs : List Byte) : XW :=
  let d := x.desc
  let id := xOpId d
  let w := if xLate d = 2 then takeCarry (s, false) x else (s, false)
  let w := xThen w fun s =>
    let carry := s.xch.carry.filter fun y => xLate y.desc == 2 || xOpId y.desc != id
    ({ s with xch := { s.xch with ops := s.xch.ops ++ [x], carry := carry } }, false)
  let w := if xKind d = 10 then readOutputs w id ((wordsOf 16 (outputs)).map fun m => fld m 0 0 17)
           else readSrc w id (if xKind d = 9 then eTok d else xSrc d) (srcLen x)
  let w := useCarry w id
  xThen w fun s =>
    match s.xopOf id with
    | none => (s, false)
    | some x =>
      let s := if x.ending.isSome then s
        else if xKind d = 8 then sendCounts s x
        else if xKind d = 9 then sendDispatchCounts s x
        else s
      flushHalf (takeEarly s id, false) h

/-- A dispatch that ends in its checks or its lookup sends ABANDON (R294). -/
def failDispatch (s : State) (h : Nat) (q : XReq) (x : Xop) (status code : Nat) : State :=
  failBegin (abandonAll s x) h q status code

/-- The beginning of a dispatch: its checks in the order of R294, then the lookup. -/
def beginDispatch (s : State) (h : Nat) (q : XReq) (x : Xop) : XW :=
  match dispatchCheck s x.desc with
  | some st => (failDispatch s h q x st 0, false)
  | none =>
    match checkRead s h q.ctx (eRoute x.desc) (64 * eT x.desc) with
    | (s, .error _) => (s, true)
    | (s, .ok none) => (failDispatch s h q x stXchFormat 6, false)
    | (s, .ok (some b)) =>
      let recs := wordsOf 64 b
      let s := if recordsOk x.desc recs && s.reg .cat 0 0x100 % 128 == x.req.ctx + 64 then
          (let w := readRoutes s x recs
           if w.2 then w.1 else readSlots w.1 x.desc)
        else s
      match routeCheck s x recs with
      | .error st => (failDispatch s h q x st 0, false)
      | .ok rs => startOp (takeSlot s x) h { x with routes := rs, holdsSlot := true } []

/-- The beginning of an operation whose descriptor has passed its own checks. -/
def beginOp (s : State) (h : Nat) (q : XReq) (d : Nat) (ts : List (Option (List Byte))) : XW :=
  let x := newOp s h q d ts
  let sums := (ts.getD 3 none).getD []
  if xKind d = 9 then beginDispatch s h q x
  else if xKind d = 10 then
    match combineCheck s x with
    | some st => (failBegin s h q st 0, false)
    | none => startOp (takeSlot s x) h { x with holdsSlot := true } sums
  else startOp s h x sums

/-- An operation that fails its checks (R270): a dispatch tells the group, where its table can be read (R294); an ALL_TO_ALL
with a misaligned buffer still has the values of COUNTS_SRC looked at first. -/
def failChecks (s : State) (h : Nat) (q : XReq) (d code : Nat) : XW :=
  if xKind d = 9 && decide (1 ≤ xN d) && decide (xN d ≤ 32768) then
    match checkRead s h q.ctx (xGroup d) (2 * xN d) with
    | (s, .error _) => (s, true)
    | (s, .ok none) => (failBegin s h q stXchFormat code, false)
    | (s, .ok (some b)) => (failDispatch s h q (newOp s h q d [some b]) stXchFormat code, false)
  else if xKind d = 8 && code == 4 then
    match checkRead s h q.ctx (xCountsSrc d) (8 * xN d) with
    | (s, .error _) => (s, true)
    | (s, .ok b) => (failBegin s h q stXchFormat (if countsBad b then 3 else 4), false)
  else (failBegin s h q stXchFormat code, false)

/-- XCH_OP_BEGIN (R269): the first operation of the half's start queue. -/
def execXchOpBegin (h : HalfId) (s : State) : Out :=
  match tabGet [] s.xch.queue h with
  | [] => .next s
  | q :: rest =>
    if s.engineHeld (enXch h) || decide ((s.xch.ops.filter fun x => x.half == h.val).length ≥ 16) then .next s
    else xEvent s h fun s =>
      let taken := fun (s : State) => { s with xch := { s.xch with queue := tabSet [] s.xch.queue h rest } }
      match checkRead s h q.ctx q.addr 128 with
      | (s, .error _) => (s, true)
      | (s, .ok none) => (failBegin (taken s) h q stXchFormat 6, false)
      | (s, .ok (some b)) =>
        let d := leNat b
        let mode := (s.ctxOf q.ctx).mode
        if xKind d = 9 && (s.cat.load.elim false (·.begun)) then (s, true)
        else match descCheck q.kind d mode with
          | some c => failChecks (taken s) h q d c
          | none =>
            match readTables h q.ctx s (tableList d mode) with
            | (s, .error _) => (s, true)
            | (s, .ok ts) =>
              match tableCheck s d ts with
              | some c => failChecks (taken s) h q d c
              | none => beginOp (taken s) h q d ts

/-! Lateness and ends -/

/-- LATE_DEADLINE (R283): a chunk that arrives at the deadline is on time (R285). -/
def execLateDeadline (op : Nat) (s : State) : Out :=
  match s.xopOf op with
  | none => .next s
  | some x =>
    if xLate x.desc = 0 || x.forced.isSome || x.judged || x.ending.isSome || !isReduction (xKind x.desc) ||
        decide (s.gtime ≤ x.began + 1000 * xDeadline x.desc) then .next s
    else xEvent s x.half fun s => flushHalf (declareLate (s.putXop { x with judged := true }) { x with judged := true }, false) x.half

/-- MASK (R268): a bit for each missing rank. -/
def maskBytes (x : Xop) : List Byte :=
  leBytes (x.missing.foldl (fun m r => m ||| 2 ^ r) 0) (8 * ceilDiv x.n 64)

/-- The status an operation ends with, unless something has ended it early. -/
def Xop.status (x : Xop) : Nat :=
  match x.ending with
  | some st => st
  | none =>
    if !x.missing.isEmpty then stPartial
    else if x.truncated then stTruncated
    else if x.poisoned then stPoisoned
    else stOk

/-- The choices of a reduction that has received its whole result: one for each late range, in ascending LO (R283, R309). -/
def lateChoices (w : XW) (x : Xop) (time : Nat) : XW :=
  let lates := x.total.late.mergeSort fun a b => decide (a.1 ≤ b.1)
  (List.range lates.length).foldl (fun w k =>
    let e := lates.getD k (0, 1)
    logChoice w x 1 time e.1 (e.2 - 1) k) w

/-- Ends an operation that has nothing left to do: MASK where it ends PARTIAL, or else its choices; and its report. -/
def finishOp (w : XW) (id : Nat) : XW :=
  match w.1.xopOf id with
  | none => w
  | some x =>
    let st := x.status
    let w := if st = stPartial then
        (match xThen w fun s => (match xWrite s x (xMask x.desc) (maskBytes x) [] with
            | (s, .wait, _) => (s, true)
            | (s, .ok _ _, _) => (s, false)
            | (s, _, bad) => (accessFault (s.putXop { x with ending := none }) { x with ending := none } bad, false)) with
          | (s, b) => (s, b))
      else match x.whole with
        | none => w
        | some time => lateChoices w x time
    xThen w fun s =>
      match s.xopOf id with
      | none => (s, false)
      | some x =>
        let st := x.status
        let detail := if st = stPartial then x.missing.foldl min 0x7FFF + 2 ^ 16 * min x.missing.length 0xFFFF
          else if xKind x.desc = 9 then (x.routes.filter fun r => r.row == some none).length
          else 0
        flushHalf (endOp s x st x.code detail, false) x.half

/-- XCH_OP_END (R269): an operation ends at this member once it has done all it can, or something has ended it early. -/
def execXchOpEnd (op : Nat) (s : State) : Out :=
  match s.xopOf op with
  | none => .next s
  | some x =>
    xEvent s x.half fun s =>
      xThen (flushHalf (s, false) x.half) fun s =>
        match s.xopOf op with
        | none => (s, false)
        | some x =>
          if x.ending.isSome || (xKind x.desc ≠ 9 && x.done) then finishOp (s, false) op else (s, false)

/-- DISPATCH_COUNTS_COMPLETE (R294). -/
def execDispatchCountsComplete (op : Nat) (s : State) : Out :=
  match s.xopOf op with
  | none => .next s
  | some x =>
    if xKind x.desc ≠ 9 || x.allotted || x.ending.isSome || !x.countsKnown then .next s
    else xEvent s x.half fun s => flushHalf (allocateRows (s, false) op) x.half

/-- DISPATCH_END (R294). -/
def execDispatchEnd (op : Nat) (s : State) : Out :=
  match s.xopOf op with
  | none => .next s
  | some x =>
    if xKind x.desc ≠ 9 || x.ending.isSome then .next s
    else xEvent s x.half fun s =>
      xThen (flushHalf (s, false) x.half) fun s =>
        match s.xopOf op with
        | none => (s, false)
        | some x => if x.dispatchDone then xThen (writeMaps (s, false) op) fun s => finishOp (s, false) op else (s, false)

/-- COMBINE_ROWS_ARRIVED (R297): Y in ascending token order. -/
def execCombineRowsArrived (op : Nat) (s : State) : Out :=
  match s.xopOf op with
  | none => .next s
  | some x =>
    if xKind x.desc ≠ 10 || x.combined || x.ending.isSome || !x.rowsArrived then .next s
    else xEvent s x.half fun s =>
      let w := (List.range (eT x.desc)).foldl (fun w t => combineRow w op t) (s, false)
      xThen w fun s =>
        match s.xopOf op with
        | none => (s, false)
        | some x => (s.putXop { x with combined := true }, false)

/-- An operation told to abort reaches its abort point: it is abandoned (R229, R282). -/
def abandonOp (s : State) (x : Xop) : State := endOp (abandonAll s x) x stAborted 0 0

/-! Commands that reach a half (R269, R292) -/

/-- Hands a command's descriptor to a half's start queue; it waits while the queue is full. -/
def handOver (s : State) (q opc kind : Nat) : Out :=
  match actCmd s q opc with
  | none => .next s
  | some c =>
    let h := bits c.raw 64 1
    let old := tabGet [] s.xch.queue h
    if old.length ≥ 4 then .next s
    else
      let r : XReq := ⟨kind, bits c.raw 128 64, (s.queueOf q).ctx, none, q, c.n⟩
      let s := crossTo { s with xch := { s.xch with queue := tabSet [] s.xch.queue h (old ++ [r]) } } 4 (4 + h)
      .next (updCmd s q c.n fun c => { c with acted := true, engines := [ecXch h] })

/-- COLLECTIVE. -/
def execCollective (q : QueueId) (s : State) : Out := handOver s q 0x60 0

/-- DISPATCH. -/
def execDispatch (q : QueueId) (s : State) : Out := handOver s q 0x61 9

/-- COMBINE. -/
def execCombine (q : QueueId) (s : State) : Out := handOver s q 0x62 10

/-! The catalogue's load (R289) -/

/-- Whether a DISPATCH is live on either half. -/
def State.dispatchLive (s : State) : Bool := s.xch.ops.any fun x => xKind x.desc == 9

/-- Whether CAT_LOAD comes from a context other than CAT.CTRL's (R289). -/
def catLoadTarget (s : State) (q : Nat) : Bool :=
  s.reg .cat 0 0x100 % 128 != (s.queueOf q).ctx + 64

/-- CAT_LOAD. -/
def execCatLoad (q : QueueId) (s : State) : Out :=
  match actCmd s q 0x63 with
  | none => .next s
  | some c =>
    let first := bits c.raw 64 17
    let count := bits c.raw 96 18
    let gen := bits c.raw 192 32
    if catLoadTarget s q then .next (failCmd s q c.n stTarget 0)
    else if count = 0 || decide (count > cEntries) || decide (first + count > cEntries) then .next (failCmd s q c.n stFormat 0x0C)
    else if gen = max32 then .next (failCmd s q c.n stFormat 0x18)
    else if s.cat.load.isSome then .next s
    else
      let l : CatLoad := { queue := q, cmd := c.n, ctx := (s.queueOf q).ctx, first := first, count := count, src := bits c.raw 128 64, gen := gen }
      .next (updCmd { s with cat := { s.cat with load := some l } } q c.n fun c => { c with acted := true })

/-- CAT_LOAD_BEGIN. -/
def execCatLoadBegin (s : State) : Out :=
  match s.cat.load with
  | none => .next s
  | some l =>
    if l.begun || s.dispatchLive then .next s
    else
      let s := (s.setReg .cat 0 0x104 max32).setReg .cat 0 0x108 1
      .next { s with cat := { s.cat with load := some { l with begun := true } } }

/-- Writes entries in ascending index until the data ends. -/
def putEntries (s : State) (i : Nat) : List Nat → State
  | [] => s
  | e :: es =>
    putEntries { s with cat := { s.cat with entries := tabSet 0 s.cat.entries i e, bad := tabSet false s.cat.bad i false } } (i + 1) es

/-- The load's entries, page by page: how many were written, and the status it ends with. -/
def loadPages (c src first : Nat) : State → Nat → List (Nat × Nat × Nat) → State × Except Unit (Nat × Nat)
  | s, done, [] => (s, .ok (done, stOk))
  | s, done, (_, va, n) :: ps =>
    match memRead s (agXch 2) 0 reqXch c va n with
    | (s, .wait) => (s, .error ())
    | (s, .ok b p) =>
      let good := ((List.range p.length).find? fun i => p.getD i false).elim n fun i => 64 * i
      let es := wordsOf 16 (b.take good)
      let s := putEntries s (first + done) es
      if good < n then (s, .ok (done + es.length, stPoisoned)) else loadPages c src first s (done + es.length) ps
    | (s, _) => (s, .ok (done, stFetchFault))

/-- CAT_LOAD_DONE. -/
def execCatLoadDone (s : State) : Out :=
  match s.cat.load with
  | none => .next s
  | some l =>
    if !l.begun then .next s
    else match loadPages l.ctx l.src l.first s 0 (cutPages (l.count / 256 + 2) 0 l.src (16 * l.count)) with
      | (s', .error _) => .next (keepRequests s s')
      | (s, .ok (n, st)) =>
        let s := takeAnswers s (agXch 2)
        let gone := (s.cmdOf l.queue l.cmd).filter (·.aborted)
        let live := gone.isNone
        let s := (s.setReg .cat 0 0x108 (2 * n)).setReg .cat 0 0x104 (if st = stOk && live then l.gen else max32)
        let s := { s with cat := { s.cat with load := none } }
        .next (match gone with
          | some c => endCmd s l.queue l.cmd c.abortStatus (infoWord 0xFF 0 0)
          | none => if st = stOk then doneCmd s l.queue l.cmd else badCmd s l.queue l.cmd st)

/-- A write of CAT.CTRL (R300): `none` where it changes the owner while a dispatch or load is live. -/
def writeCatCtrl (s : State) (v : Nat) : Option State :=
  let v := bits v 0 7
  if v ≠ s.reg .cat 0 0x100 && (s.dispatchLive || s.cat.load.isSome) then none else some (s.setReg .cat 0 0x100 v)

end Sys2Proof.Machine
end

