-- ==== Sys2Proof/Machine/Sequencer.lean ====
section
/-!
DEFINITION. The sequencers (R232–R243): registers, the instruction set, issue, signals and waits, faults, the end of a list,
and the trace. Sequencers are numbered by the array, 20 + die, or 24 + half.
Rows of notes/assumptions: DEDUCED 76, 77, 78, 79, 112, 144; DESIGN CHOICE 75, 192, 196.
-/
namespace Sys2Proof.Machine

open Sys2Proof

/-! Places -/

/-- A sequencer's page, its instance, and the offset of its register block (R243). -/
def seqPage (n : Nat) : Block × Nat × Nat :=
  if n < 20 then (.seq, n, 0x100) else if n < 24 then (.dma, n - 20, 0x200) else (.xch, 0, 0x200 + 0x40 * (n - 24))

def State.seqReg (s : State) (n o : Nat) : Nat := let (b, i, a) := seqPage n; s.reg b i (a + o)
def State.setSeqReg (s : State) (n o v : Nat) : State := let (b, i, a) := seqPage n; s.setReg b i (a + o) v

def seqIsland (n : Nat) : Nat := if n < 24 then n else 48 + (n - 24)
def seqDie (n : Nat) : Nat := if n < 20 then n / 5 else if n < 24 then n - 20 else n - 24
/-- Its engine code (R220). -/
def seqCode (n : Nat) : Nat := if n < 20 then n else if n < 24 then ecDma (n - 20) else ecXch (n - 24)

/-- The die it stands on. -/
def seqHome (n : Nat) : Nat := if n < 20 then n / 5 else n - 20

/-! Trace (R242, R351) -/

/-- Kinds of trace records. -/
inductive TraceKind where
  | insn | issue | wait | mark | resume | fin
deriving DecidableEq, Repr

def traceCode : TraceKind → Nat
  | .insn => 0 | .issue => 1 | .wait => 2 | .mark => 3 | .resume => 4 | .fin => 5

/-- Whether FILTER selects an instruction's record: MARK and END always, issues, SIG, WAIT and FSIG below 0b10, the rest at
0b00. -/
def traceSelects (filter op : Nat) : Bool :=
  if op = 0x33 || op = 0x3F then true
  else if (decide (0x28 ≤ op) && decide (op ≤ 0x2B)) || (decide (0x30 ≤ op) && decide (op ≤ 0x32)) then filter ≤ 1
  else filter == 0

def State.traces (s : State) (n op : Nat) : Bool :=
  let c := s.seqReg n 0x18
  c.testBit 5 && traceSelects (bits c 7 2) op

def State.traceFull (s : State) (n : Nat) : Bool :=
  (2 ^ 32 + s.seqReg n 0x1C - s.seqReg n 0x20) % 2 ^ 32 == 2 ^ bits (s.seqReg n 0x18) 0 5

/-- Whether a ring of MODE 1 lacks room for the next record, with the resume record that goes before it (R242). -/
def State.traceStalls (s : State) (n : Nat) : Bool :=
  (s.seqReg n 0x18).testBit 6 &&
    (s.traceFull n || ((s.islOf (seqIsland n)).resumeMark &&
      (2 ^ 32 + s.seqReg n 0x1C + 1 - s.seqReg n 0x20) % 2 ^ 32 == 2 ^ bits (s.seqReg n 0x18) 0 5))

/-- Writes one record, or drops and counts it. -/
def putTrace (s : State) (n : Nat) (k : TraceKind) (word pc : Nat) : State :=
  if s.traceFull n then
    let q := s.seqOf n
    (s.setSeqReg n 0x24 (satAdd 32 (s.seqReg n 0x24) 1)).setSeq n { q with traceLost := true }
  else
    let q := s.seqOf n
    let i := s.islOf (seqIsland n)
    let base := 2 ^ 32 * bits (s.seqReg n 0x14) 0 12 + 2 ^ 12 * (s.seqReg n 0x10 / 2 ^ 12)
    let tail := s.seqReg n 0x1C
    let r := pack [(0, 64, s.gtime), (64, 32, word), (96, 24, pc), (120, 4, traceCode k),
      (124, 1, bit (i.stretched || i.braked || i.stretchMark)), (125, 1, bit q.traceLost)]
    let s := ringWrite s (seqHome n) (base + 16 * (tail % 2 ^ bits (s.seqReg n 0x18) 0 5)) (leBytes r 16)
    let s := (s.setSeqReg n 0x1C ((tail + 1) % 2 ^ 32)).setSeq n { q with traceLost := false }
    s.setIsl (seqIsland n) { i with stretchMark := i.stretched || i.braked, resumeMark := false }

/-- A record, after the resume record of an island that was stopped, which is written or dropped once. -/
def trace (s : State) (n : Nat) (k : TraceKind) (word pc : Nat) : State :=
  let s := if (s.islOf (seqIsland n)).resumeMark then
      let s := putTrace { s with draws := s.draws + 1 } n .resume (Config.cycles s.draws % 2 ^ 32) pc
      s.setIsl (seqIsland n) { s.islOf (seqIsland n) with resumeMark := false }
    else s
  putTrace s n k word pc

def traceIf (s : State) (n op : Nat) (k : TraceKind) (word pc : Nat) : State := if s.traces n op then trace s n k word pc else s

/-! Faults (R241) -/

def sfIllegal : Nat := 1
def sfFetch : Nat := 2
def sfPcRange : Nat := 3
def sfStack : Nat := 4
def sfAlign : Nat := 5
def sfAccess : Nat := 6
def sfTarget : Nat := 7
def sfRange : Nat := 8

/-- A fault latches and ends the list. UNIT tells the two halves of the XCH page apart (R385). -/
def seqFault (s : State) (n code : Nat) : State :=
  let q := s.seqOf n
  let s := if (s.seqReg n 8).testBit 4 then s else (s.setSeqReg n 8 (code + 16)).setSeqReg n 0xC q.pc
  let (b, i, _) := seqPage n
  let s := capture s b i { sev := sevFailed, ctx := some q.ctx, unit := n - 24, addr := (q.list + 4 * q.pc) % 2 ^ 64, info := code }
  seqFail s n ⟨stSequencerFault, code, q.pc⟩

/-! One instruction -/

/-- What an instruction does: goes on to the next word, jumps by an offset, faults, stalls, waits for the host, or is done
with the PC as it stands. -/
inductive SRes where
  | next (s : State)
  | jump (s : State) (off : Int)
  | fault (s : State) (code : Nat)
  | stall
  | host (s : State)
  | stay (s : State)

/-- Operand fields of R235. -/
def wRd (w : Nat) : Nat := bits w 21 5
def wRa (w : Nat) : Nat := bits w 16 5
def wRb (w : Nat) : Nat := bits w 11 5
def wImm (w : Nat) : Nat := bits w 0 16

/-- A scalar register; s0 reads as zero. -/
def Seq.reg (q : Seq) (r : Nat) : Nat := if r = 0 then 0 else tabGet 0 q.regs r
/-- A write of a scalar register; s0 discards it. -/
def Seq.setReg (q : Seq) (r v : Nat) : Seq := if r = 0 then q else { q with regs := tabSet 0 q.regs r (v % 2 ^ 64) }

/-- a + b modulo 2^64 for a signed b. -/
def addSigned (a : Nat) (b : Int) : Nat := ((a : Int) + b).emod (2 ^ 64) |>.toNat

/-- Reserved bits of an instruction word by opcode; `none` for a reserved opcode (R235, R236, R238, R239). -/
def seqReserved (op : Nat) : Option Nat :=
  if (decide (1 ≤ op) && decide (op ≤ 9)) then some 0x7FF
  else match op with
    | 0x10 | 0x11 | 0x12 | 0x18 | 0x19 | 0x1A | 0x1B | 0x20 | 0x21 | 0x22 | 0x23 | 0x24 => some 0
    | 0x13 | 0x14 => some 0xFFC0
    | 0x15 => some 0x1C0000
    | 0x25 | 0x3F => some 0x3FFFFFF
    | 0x26 => some 0x380FFFF
    | 0x27 => some 0x39F0000
    | 0x28 | 0x29 | 0x2B => some 0x3E0FFFF
    | 0x2A | 0x32 => some 0x3E007FF
    | 0x30 => some 0x2E0FF00
    | 0x31 => some 0x2007FF
    | 0x33 => some 0x3FF0000
    | _ => none

/-- Whether a word is ILLEGAL on a sequencer (R241). -/
def seqIllegal (n w : Nat) : Bool :=
  let op := w / 2 ^ 26
  match seqReserved op with
  | none => true
  | some m => w &&& m != 0 || ((op == 0x1A || op == 0x1B || op == 0x28 || op == 0x29 || op == 0x2A) && decide (n ≥ 20)) ||
      (op == 0x2B && decide (n < 24)) || (op == 0x31 && decide (bits w 22 4 ≥ 7))

/-- Reads memory as a sequencer: a value, a wait, or a fault. -/
def seqRead (s : State) (n va len : Nat) : State × Acc := memRead s (agSeq n) (seqDie n) reqSeq (s.seqOf n).ctx va len

/-- After an instruction: the PC moves, or faults PC_RANGE (R241); a stall or a wait for the host leaves the instruction
unexecuted, with the sequencer as it then stands. -/
def seqAdvance (s0 : State) (n : Nat) (r : SRes) : Out :=
  let s := fun s => takeAnswers s (agSeq n)
  let q := fun (s : State) => s.seqOf n
  match r with
  | .next t =>
    let t := s t
    if (q t).pc + 1 ≥ 2 ^ 24 then .next (seqFault t n sfPcRange) else .next (t.setSeq n { q t with pc := (q t).pc + 1 })
  | .jump t off =>
    let t := s t
    let dest_ := ((q t).pc : Int) + off
    .next (t.setSeq n { q t with pc := dest_.toNat })
  | .fault t c => .next (seqFault (s t) n c)
  | .stall => .next (s0.setSeq n { q s0 with state := .stall })
  | .host t => .next ((keepRequests s0 t).setSeq n (q t))
  | .stay t => .next (s t)

/-- Whether a branch from a PC stays inside the list's words. -/
def inList (pc : Nat) (off : Int) : Bool := decide (0 ≤ (pc : Int) + off) && decide ((pc : Int) + off < 2 ^ 24)

/-- Executes the word at the PC of sequencer `n`, when it is the instruction with opcode `op`; a word that is ILLEGAL faults
whatever instruction is asked for. -/
def seqStep (n : SeqId) (op : Nat) (f : State → Nat → SRes) (s : State) : Out :=
  let q := s.seqOf n
  if q.state ≠ .run && q.state ≠ .stall then .next s
  else if s.islandHeld (seqIsland n) then .next s
  else match engineFailure s n with
    | some e => .next (seqFail s n e)
    | none =>
      match seqRead s n ((q.list + 4 * q.pc) % 2 ^ 64) 4 with
      | (t, .wait) => .next ((keepRequests s t).setSeq n { q with state := .stall })
      | (t, .ok b p) =>
        let w := leNat b
        if p.any id then .next (seqFault (takeAnswers t (agSeq n)) n sfFetch)
        else if seqIllegal n w then .next (seqFault (takeAnswers t (agSeq n)) n sfIllegal)
        else if w / 2 ^ 26 ≠ op then .next s
        else if s.traces n op && s.traceStalls n then .next (s.setSeq n { q with state := .stall })
        else
          let t := t.setSeq n { q with state := .run }
          seqAdvance s n (f t w)
      | (t, _) => .next (seqFault (takeAnswers t (agSeq n)) n sfFetch)

/-- An instruction that writes rd from the registers and the word. -/
def seqAlu (n : Nat) (g : Seq → Nat → Nat) (s : State) (w : Nat) : SRes :=
  let q := s.seqOf n
  .next (traceIf (s.setSeq n (q.setReg (wRd w) (g q w))) n (w / 2 ^ 26) .insn w q.pc)

/-- Register operands ra and rb. -/
def regRR (g : Nat → Nat → Nat) (q : Seq) (w : Nat) : Nat := g (q.reg (wRa w)) (q.reg (wRb w))
/-- Register operand ra and the immediate. -/
def regRI (g : Nat → Nat → Nat) (q : Seq) (w : Nat) : Nat := g (q.reg (wRa w)) (wImm w)

/-- ADD. -/
def execAdd (n : SeqId) (s : State) : Out := seqStep n 0x01 (seqAlu n (regRR fun a b => a + b)) s
/-- SUB. -/
def execSub (n : SeqId) (s : State) : Out := seqStep n 0x02 (seqAlu n (regRR fun a b => addSigned a (-(b : Int)))) s
/-- AND. -/
def execSeqAnd (n : SeqId) (s : State) : Out := seqStep n 0x03 (seqAlu n (regRR fun a b => a &&& b)) s
/-- OR. -/
def execSeqOr (n : SeqId) (s : State) : Out := seqStep n 0x04 (seqAlu n (regRR fun a b => a ||| b)) s
/-- XOR. -/
def execSeqXor (n : SeqId) (s : State) : Out := seqStep n 0x05 (seqAlu n (regRR fun a b => a ^^^ b)) s
/-- SHL. -/
def execShl (n : SeqId) (s : State) : Out := seqStep n 0x06 (seqAlu n (regRR fun a b => a * 2 ^ (b % 64))) s
/-- SHR. -/
def execShr (n : SeqId) (s : State) : Out := seqStep n 0x07 (seqAlu n (regRR fun a b => a / 2 ^ (b % 64))) s
/-- MUL. -/
def execMul (n : SeqId) (s : State) : Out := seqStep n 0x08 (seqAlu n (regRR fun a b => a * b)) s
/-- SLTU. -/
def execSltu (n : SeqId) (s : State) : Out := seqStep n 0x09 (seqAlu n (regRR fun a b => bit (decide (a < b)))) s
/-- ADDI. -/
def execAddi (n : SeqId) (s : State) : Out := seqStep n 0x10 (seqAlu n (regRI fun a i => addSigned a (sext 16 i))) s
/-- ANDI. -/
def execAndi (n : SeqId) (s : State) : Out := seqStep n 0x11 (seqAlu n (regRI fun a i => a &&& i)) s
/-- ORI. -/
def execOri (n : SeqId) (s : State) : Out := seqStep n 0x12 (seqAlu n (regRI fun a i => a ||| i)) s
/-- SHLI. -/
def execShli (n : SeqId) (s : State) : Out := seqStep n 0x13 (seqAlu n (regRI fun a i => a * 2 ^ (i % 64))) s
/-- SHRI. -/
def execShri (n : SeqId) (s : State) : Out := seqStep n 0x14 (seqAlu n (regRI fun a i => a / 2 ^ (i % 64))) s
/-- LDH: one 16-bit quarter of rd. -/
def execLdh (n : SeqId) (s : State) : Out :=
  seqStep n 0x15 (seqAlu n fun q w => withBits (q.reg (wRd w)) (16 * bits w 16 2) 16 (wImm w)) s

/-! Loads and stores -/

/-- The address ra + k × sext(imm). -/
def seqAddr (q : Seq) (k : Int) (w : Nat) : Nat := addSigned (q.reg (wRa w)) (k * sext 16 (wImm w))

/-- LD. -/
def execLd (n : SeqId) (s : State) : Out :=
  seqStep n 0x18 (fun s w =>
    let q := s.seqOf n
    let a := seqAddr q 8 w
    if a % 8 ≠ 0 then .fault s sfAlign
    else match seqRead s n a 8 with
      | (t, .wait) => .host t
      | (t, .ok b p) =>
        if p.any id then .fault t sfAccess
        else .next (traceIf (t.setSeq n (q.setReg (wRd w) (leNat b))) n 0x18 .insn w q.pc)
      | (t, _) => .fault t sfAccess) s

/-- ST. -/
def execSt (n : SeqId) (s : State) : Out :=
  seqStep n 0x19 (fun s w =>
    let q := s.seqOf n
    let a := seqAddr q 8 w
    if a % 8 ≠ 0 then .fault s sfAlign
    else match memWrite s (agSeq n) (seqDie n) reqSeq q.ctx a (leBytes (q.reg (wRd w)) 8) with
      | (t, .wait) => .host t
      | (t, .ok _ _) => .next (traceIf t n 0x19 .insn w q.pc)
      | (t, _) => .fault t sfAccess) s

/-- Whether a 4 B ALS access faults. -/
def alsFault (t : Store) (a : Nat) : Option Nat :=
  if a % 4 ≠ 0 then some sfAlign
  else if a + 4 > alsSize || (t.poisoned a 4).isSome then some sfAccess
  else none

/-- LDA. -/
def execLda (n : SeqId) (s : State) : Out :=
  seqStep n 0x1A (fun s w =>
    let q := s.seqOf n
    let a := seqAddr q 4 w
    if s.alsBlocked n then .stall
    else match alsFault (s.alsOf n) a with
      | some c => .fault (if a % 4 = 0 && a + 4 ≤ alsSize then noteHazard s n 3 a 4 else s) c
      | none =>
        let t := noteHazard s n 3 a 4
        .next (traceIf (t.setSeq n (q.setReg (wRd w) (leNat ((s.alsOf n).read a 4)))) n 0x1A .insn w q.pc)) s

/-- STA. -/
def execSta (n : SeqId) (s : State) : Out :=
  seqStep n 0x1B (fun s w =>
    let q := s.seqOf n
    let a := seqAddr q 4 w
    if s.alsBlocked n then .stall
    else match alsFault (s.alsOf n) a with
      | some c => .fault s c
      | none => .next (traceIf (s.setAls n ((s.alsOf n).write a (leBytes (q.reg (wRd w)) 4))) n 0x1B .insn w q.pc)) s

/-! Branches -/

/-- A jump with an effect of its own, or PC_RANGE with none. -/
def seqJump (n : Nat) (s : State) (w : Nat) (off : Int) (f : Seq → Seq) : SRes :=
  let q := s.seqOf n
  if inList q.pc off then .jump (traceIf (s.setSeq n (f q)) n (w / 2 ^ 26) .insn w q.pc) off else .fault s sfPcRange

/-- A conditional branch on rd and ra. -/
def seqBranch (n : Nat) (c : Nat → Nat → Bool) (s : State) (w : Nat) : SRes :=
  let q := s.seqOf n
  if c (q.reg (wRd w)) (q.reg (wRa w)) then seqJump n s w (sext 16 (wImm w)) id
  else if q.pc + 1 ≥ 2 ^ 24 then .fault s sfPcRange
  else .next (traceIf s n (w / 2 ^ 26) .insn w q.pc)

/-- BEQ. -/
def execBeq (n : SeqId) (s : State) : Out := seqStep n 0x20 (seqBranch n fun a b => a == b) s
/-- BNE. -/
def execBne (n : SeqId) (s : State) : Out := seqStep n 0x21 (seqBranch n fun a b => a != b) s
/-- BLTU. -/
def execBltu (n : SeqId) (s : State) : Out := seqStep n 0x22 (seqBranch n fun a b => decide (a < b)) s
/-- JMP. -/
def execJmp (n : SeqId) (s : State) : Out := seqStep n 0x23 (fun s w => seqJump n s w (sext 26 w) id) s
/-- CALL. -/
def execCall (n : SeqId) (s : State) : Out :=
  seqStep n 0x24 (fun s w =>
    let q := s.seqOf n
    if !inList q.pc (sext 26 w) then .fault s sfPcRange
    else if q.stack.length ≥ 8 then .fault s sfStack
    else seqJump n s w (sext 26 w) fun q => { q with stack := (q.pc + 1) :: q.stack }) s
/-- RET. -/
def execRet (n : SeqId) (s : State) : Out :=
  seqStep n 0x25 (fun s w =>
    let q := s.seqOf n
    match q.stack with
    | [] => .fault s sfStack
    | a :: r => seqJump n s w ((a : Int) - q.pc) fun q => { q with stack := r }) s
/-- LSET. -/
def execLset (n : SeqId) (s : State) : Out :=
  seqStep n 0x26 (fun s w =>
    let q := s.seqOf n
    .next (traceIf (s.setSeq n { q with lc := tabSet 0 q.lc (bits w 21 2) (q.reg (wRa w) % 2 ^ 32) }) n 0x26 .insn w q.pc)) s
/-- LNEXT. -/
def execLnext (n : SeqId) (s : State) : Out :=
  seqStep n 0x27 (fun s w =>
    let q := s.seqOf n
    let c := bits w 21 2
    let v := tabGet 0 q.lc c
    if v ≤ 1 && q.pc + 1 ≥ 2 ^ 24 then .fault s sfPcRange
    else if v = 0 then .next (traceIf s n 0x27 .insn w q.pc)
    else if v = 1 then .next (traceIf (s.setSeq n { q with lc := tabSet 0 q.lc c 0 }) n 0x27 .insn w q.pc)
    else seqJump n s w (sext 16 (wImm w)) fun q => { q with lc := tabSet 0 q.lc c (v - 1) }) s

/-! Issue (R237) -/

/-- The seed and step counter of the sequencer's command (R111). -/
def seqSeed (s : State) (n : Nat) : Nat × Nat :=
  let q := s.seqOf n
  (s.cmdOf q.queue q.cmd).elim (0, 0) fun c => (c.seed0, c.step0)

/-- The trace word of an issue. -/
def issueWord (tag op : Nat) : Nat := tag % 2 ^ 16 + 2 ^ 16 * op

/-- MMI. -/
def execMmi (n : SeqId) (s : State) : Out :=
  seqStep n 0x28 (fun s w =>
    let q := s.seqOf n
    if !mmRoom (s.arrOf n) || s.alsBlocked n then .stall
    else
      let (seed, step) := seqSeed s n
      let a := q.reg (wRa w)
      let tag := mmTag (readMm (s.alsOf n) a seed step 0).desc
      .next (issueMm (traceIf s n 0x28 .issue (issueWord tag 0x28) q.pc) n a seed step)) s

/-- VEI. -/
def execVei (n : SeqId) (s : State) : Out :=
  seqStep n 0x29 (fun s w =>
    let q := s.seqOf n
    if !vecRoom (s.vecOf n) || s.alsBlocked n then .stall
    else
      let (seed, step) := seqSeed s n
      let a := q.reg (wRa w)
      .next (issueVec (traceIf s n 0x29 .issue (issueWord (vTag (readVec (s.alsOf n) a seed step).desc) 0x29) q.pc) n a seed step)) s

/-- TLD. The barrier of a REPLAY = 1 instruction does not hold it (log entry 196). -/
def execTld (n : SeqId) (s : State) : Out :=
  seqStep n 0x2A (fun s w =>
    let q := s.seqOf n
    let b := q.reg (wRb w)
    let count := bits b 0 17
    let first := bits b 17 16
    if count = 0 || decide (count > 65536) || decide (first + count > 65536) then .fault s sfRange
    else if (s.arrOf n).tableLoad.isSome || s.alsBlocked n then .stall
    else .next (issueTld (traceIf s n 0x2A .issue (issueWord 0 0x2A) q.pc) n (q.reg (wRa w)) first count)) s

/-- XCI. -/
def execXci (n : SeqId) (s : State) : Out :=
  seqStep n 0x2B (fun s w =>
    let q := s.seqOf n
    let h := n.val - 24
    let old := tabGet [] s.xch.queue h
    let a := q.reg (wRa w)
    if old.length ≥ 4 then .stall
    else
      let go := fun (t : State) (tag : Nat) =>
        let t := traceIf t n 0x2B .issue (issueWord tag 0x2B) q.pc
        let t := { t with xch := { t.xch with queue := tabSet [] t.xch.queue h (old ++ [({ kind := 15, addr := a, ctx := q.ctx, seq := some n.val, queue := q.queue, cmd := q.cmd } : XReq)]) } }
        SRes.next (t.setSeq n { t.seqOf n with xops := q.xops + 1 })
      if !s.traces n 0x2B then go s 0
      else match seqRead s n a 8 with
        | (t, .wait) => .host t
        | (t, .ok b _) => go t (fld (leNat b) 4 0 16)
        | (_, _) => go s 0) s

/-! Signals, waits and fences (R238, R239) -/

/-- The running sequencer of the same RUN_LIST with an ENGINES bit number. -/
def sibling (s : State) (q : Seq) (bitNo : Nat) : Option Nat :=
  (List.range 26).find? fun m =>
    let x := s.seqOf m
    x.state != .idle && x.state != .drain && x.queue == q.queue && x.cmd == q.cmd && x.bitNo == bitNo

/-- An event counter of a sequencer counts a signal (R238). -/
def countSignal (s : State) (m e count : Nat) : State :=
  let x := s.seqOf m
  s.setSeq m { x with ev := tabSet 0 x.ev e ((tabGet 0 x.ev e + count) % 2 ^ 32) }

/-- A signal crosses into its target's island, which takes it at once or, an array island that is stopped, when it runs again
(R20). A crossing of the model is never full (log entry 192). -/
def sendSignal (s : State) (m e count : Nat) : State :=
  if m < 20 && s.islandStopped m then
    let i := s.islOf m
    s.setIsl m { i with signals := i.signals ++ [(e, count)] }
  else countSignal s m e count

/-- SIG. -/
def execSig (n : SeqId) (s : State) : Out :=
  seqStep n 0x30 (fun s w =>
    let q := s.seqOf n
    let count := bits w 0 8
    let a := q.reg (wRa w)
    let done := fun s => SRes.next (traceIf s n 0x30 .insn w q.pc)
    if count = 0 then .fault s sfTarget
    else if bits w 24 2 = 0 then
      let k := 32 * bits a 0 2 + bits a 2 5
      if !s.chValid k || s.chCtx k != q.ctx then .fault s sfTarget else done (giveStarts (crossTo s (seqHome n) (k / 32)) k count)
    else
      let t := bits a 0 5
      if t ≥ 26 || !q.engines.testBit t then .fault s sfTarget
      else match sibling s q t with
        | none => done s
        | some m => done (sendSignal (crossTo s (seqHome n) (seqHome m)) m (bits a 5 3) count)) s

/-- A fence read: its value, a fault, or a wait. -/
def fenceRead (s : State) (n a : Nat) : State × Except (Option Nat) Nat :=
  if a % 8 ≠ 0 then (s, .error (some sfAlign))
  else match seqRead s n a 8 with
    | (t, .wait) => (t, .error none)
    | (t, .ok b p) => if p.any id then (t, .error (some sfAccess)) else (t, .ok (leNat b))
    | (t, _) => (t, .error (some sfAccess))

/-- Whether a WAIT's condition holds: `error none` while the fence is being read from the host (R239). -/
def waitHolds (s : State) (n w : Nat) : State × Except (Option Nat) Bool :=
  let q := s.seqOf n
  let a := q.reg (wRa w)
  let b := q.reg (wRb w)
  let met := fun (x : Nat) => decide ((x + 2 ^ 32 - b % 2 ^ 32) % 2 ^ 32 < 2 ^ 31)
  match bits w 22 4 with
  | 0 => (s, .ok (met (s.ch (32 * bits a 0 2 + bits a 2 5) 0x18)))
  | 1 => (s, .ok (met (tabGet 0 q.ev (bits a 0 3))))
  | 2 => (s, .ok (met q.mdone))
  | 3 => (s, .ok (met q.vdone))
  | 4 => (s, .ok (met q.tdone))
  | 5 => (s, .ok (met q.xdone))
  | _ => match fenceRead s n a with
    | (t, .ok v) => (t, .ok (decide (b ≤ v)))
    | (t, .error e) => (t, .error e)

/-- A wait that ends: its record carries the cycles waited. -/
def waitDone (s : State) (n : Nat) : State :=
  let q := s.seqOf n
  let s := s.setSeq n { q with state := .run }
  if s.traces n 0x31 then trace { s with draws := s.draws + 1 } n .wait (Config.cycles s.draws % 2 ^ 32) q.pc else s

/-- WAIT. -/
def execWait (n : SeqId) (s : State) : Out :=
  seqStep n 0x31 (fun s w =>
    match waitHolds s n w with
    | (t, .error none) => .host (t.setSeq n { t.seqOf n with state := .wait, waitSrc := bits w 22 4, waitWord := w })
    | (t, .error (some c)) => .fault t c
    | (t, .ok true) => .next (waitDone t n)
    | (t, .ok false) => .stay (t.setSeq n { t.seqOf n with state := .wait, waitSrc := bits w 22 4, waitWord := w })) s

/-- WAIT_SATISFIED. -/
def execWaitSatisfied (n : SeqId) (s : State) : Out :=
  let q := s.seqOf n
  if q.state ≠ .wait || s.islandHeld (seqIsland n) then .next s
  else match engineFailure s n with
    | some e => .next (seqFail s n e)
    | none =>
      match waitHolds s n q.waitWord with
      | (t, .error none) => .next (keepRequests s t)
      | (t, .error (some c)) => .next (seqFault (takeAnswers t (agSeq n)) n c)
      | (t, .ok false) => .next (takeAnswers t (agSeq n))
      | (t, .ok true) =>
        if s.traces n 0x31 && s.traceStalls n then .next (s.setSeq n { q with state := .stall })
        else seqAdvance s n (.next (waitDone t n))

/-- FSIG. -/
def execFsig (n : SeqId) (s : State) : Out :=
  seqStep n 0x32 (fun s w =>
    let q := s.seqOf n
    let a := q.reg (wRa w)
    if a % 8 ≠ 0 then .fault s sfAlign
    else match fenceMax s (agSeq n) (seqDie n) reqSeq q.ctx a (q.reg (wRb w)) with
      | (t, .wait) => .host t
      | (t, .ok _ p) => if p.any id then .fault t sfAccess else .next (traceIf t n 0x32 .insn w q.pc)
      | (t, _) => .fault t sfAccess) s

/-- MARK. -/
def execMark (n : SeqId) (s : State) : Out :=
  seqStep n 0x33 (fun s w => .next (traceIf s n 0x33 .mark (wImm w) (s.seqOf n).pc)) s

/-- END. -/
def execSeqEnd (n : SeqId) (s : State) : Out :=
  seqStep n 0x3F (fun s _ => .stay (s.setSeq n { s.seqOf n with state := .drain })) s

/-! The end of a list (R240) -/

/-- Whether everything a sequencer issued has ended. -/
def seqQuiet (s : State) (n : Nat) : Bool :=
  if n < 20 then arrQuiet (s.arrOf n) && vecQuiet (s.vecOf n) else decide ((s.seqOf n).xops = 0)

/-- The island's command boundary: flags merge, digests go to the command, the engines forget it. -/
def islandBoundary (s : State) (n : Nat) : State :=
  if n ≥ 20 then s
  else
    let q := s.seqOf n
    let v := s.vecOf n
    let s := if v.digestValid then updCmd s q.queue q.cmd fun c => { c with digest := (c.digest + v.digest) % 2 ^ 64, digestValid := true } else s
    let s := vecBoundary (arrBoundary (mergeIsland s n q.ctx) n) n
    s.setVec n { s.vecOf n with digest := 0, digestValid := false }

/-- Stops the siblings of a list that has failed. -/
def stopSiblings (s : State) (n : Nat) : State :=
  let q := s.seqOf n
  (List.range 26).foldl (fun s m =>
    let x := s.seqOf m
    if m ≠ n && x.state != .idle && x.queue == q.queue && x.cmd == q.cmd && x.ending.isNone && x.state != .drain then
      s.setSeq m { x with state := .drain, silent := true }
    else s) s

/-- Whether the END record of a list waits for room in a ring of MODE 1 (R242). -/
def State.endStalls (s : State) (n : Nat) : Bool := s.traces n 0x3F && s.traceStalls n

/-- The END record of a list: the status it ended with (R242). -/
def traceEnd (s : State) (n status : Nat) : State := traceIf s n 0x3F .fin status (s.seqOf n).pc

/-- Whether a sequencer drains because its list is aborted: it reports at its abort point (R229). -/
def State.seqAborted (s : State) (n : Nat) : Bool :=
  let x := s.seqOf n
  x.ending == some ⟨stAborted, 0, 0⟩ && (s.cmdOf x.queue x.cmd).any (·.aborted)

/-- SEQUENCER_DRAINED. -/
def execSequencerDrained (n : SeqId) (s : State) : Out :=
  let q := s.seqOf n
  let s := match engineFailure s n with
    | some e => if q.state = .idle || q.silent then s else seqFail s n e
    | none => s
  let q := s.seqOf n
  if q.state ≠ .drain || !seqQuiet s n || s.endStalls n || s.seqAborted n then .next s
  else
    let e := if q.silent then none else q.ending
    let s := traceEnd s n (e.elim 0 (·.status))
    let s := if e.isSome then stopSiblings s n else s
    let s := islandBoundary s n
    let q := s.seqOf n
    let s := dropAgent (s.setSeq n { q with state := .idle, sibling := q.silent, ending := none, silent := false }) (agSeq n)
    .next (reportEngine s q.queue q.cmd (seqCode n) e)

/-- A write of SEQ.TRACE_HEAD frees ring space; a stalled sequencer goes on at its next command. -/
def writeTraceHead (s : State) (n v : Nat) : State := s.setSeqReg n 0x20 v

end Sys2Proof.Machine
end

