-- ==== Sys2Proof/Machine/Commands.lean ====
section
/-!
DEFINITION. The layouts of the commands and the front end's checks of them (R211–R214): which bits a command defines, what
its fields may hold, and which addresses it names.
Rows of notes/assumptions: DEDUCED 59, 80.
-/
namespace Sys2Proof.Machine

open Sys2Proof

/-! Fields -/

def cOpc (raw : Nat) : Nat := raw % 256
def cFence (raw : Nat) : Bool := raw.testBit 8
def cReset (raw : Nat) : Bool := raw.testBit 9
def cDigest (raw : Nat) : Bool := raw.testBit 10
def cCont (raw : Nat) : Bool := raw.testBit 11
def cSize (raw : Nat) : Nat := bits raw 16 2
def cCompl (raw : Nat) : Nat := bits raw 18 2
def cSeq (raw : Nat) : Nat := bits raw 32 32

/-- A command's size in bytes and the fields it defines after its header, by (byte offset, bit, width); `none` for a
reserved opcode (R212, R213 and the chapters that define the others). -/
def cmdSpec (opc : Nat) : Option (Nat × List (Nat × Nat × Nat)) :=
  match opc with
  | 0x01 => some (64, [(8, 0, 26), (0x10, 0, 48)])
  | 0x02 => some (64, [(8, 0, 1), (0x10, 0, 64), (0x18, 0, 48)])
  | 0x03 => some (64, [(8, 0, 8), (0x10, 0, 64), (0x18, 0, 48), (0x20, 0, 64)])
  | 0x30 => some (64, [(8, 0, 15), (0xC, 0, 32), (0x10, 0, 48), (0x18, 0, 48), (0x20, 0, 48), (0x28, 0, 32)])
  | 0x31 => some (64, [(8, 0, 32)])
  | 0x40 => some (64, [(8, 0, 10), (0xC, 0, 32)])
  | 0x41 => some (64, [(8, 0, 9)])
  | 0x50 => some (64, [(8, 0, 16), (0xC, 0, 32), (0x10, 0, 48), (0x18, 0, 48), (0x20, 0, 48), (0x28, 0, 32)])
  | 0x51 => some (64, [(8, 0, 13), (8, 14, 1), (0x10, 0, 48), (0x28, 0, 32)])
  | 0x60 => some (64, [(8, 0, 1), (0x10, 0, 48)])
  | 0x61 => some (64, [(8, 0, 1), (0x10, 0, 48)])
  | 0x62 => some (64, [(8, 0, 1), (0x10, 0, 48)])
  | 0x63 => some (64, [(8, 0, 17), (0xC, 0, 18), (0x10, 0, 48), (0x18, 0, 32)])
  | 0x80 => some (64, [(0x10, 0, 48), (0x18, 0, 64)])
  | 0x81 => some (64, [(0x10, 0, 48), (0x18, 0, 64)])
  | 0x82 => some (64, [])
  | 0x83 => some (64, [(8, 0, 1), (0x10, 0, 48)])
  | 0x90 => some (64, [(8, 0, 6), (0x10, 0, 48)])
  | 0xC0 => some (128, [(8, 0, 14), (0xC, 0, 16), (0x10, 0, 44), (0x18, 0, 44)] ++
      (List.range 4).flatMap fun i => [(0x20 + 16 * i, 0, 48), (0x28 + 16 * i, 0, 48)])
  | 0xC1 => some (64, [(8, 0, 6)])
  | 0xC2 => some (64, [(8, 0, 27), (0xC, 0, 11), (0x10, 0, 48), (0x18, 0, 48), (0x20, 0, 32)])
  | 0xC3 => some (64, [(8, 0, 11), (0x10, 0, 44)])
  | 0xC4 => some (64, [(8, 0, 17)])
  | 0xC5 => some (64, [(8, 0, 12), (0xC, 0, 32)])
  | 0xC6 => some (64, [(8, 0, 8)])
  | 0xC7 => some (64, [(8, 0, 8), (0x10, 0, 48)])
  | 0xC8 => some (64, [(8, 0, 7), (0x10, 0, 44), (0x18, 0, 32)])
  | 0xCB => some (64, (8, 0, 3) :: (List.range 6).flatMap fun i => [(0x10 + 8 * i, 0, 24), (0x14 + 8 * i, 0, 32)])
  | 0xCC => some (64, (8, 0, 3) :: (0x10, 0, 44) :: (List.range 5).map fun i => (0x18 + 8 * i, 0, 24))
  | 0xD0 => some (64, [(8, 0, 7), (0x10, 0, 48), (0x18, 0, 44), (0x20, 0, 44), (0x28, 0, 32)])
  | 0xD8 => some (64, [(8, 0, 12), (8, 16, 11), (0x10, 0, 64)])
  | 0xD9 => some (64, [(8, 0, 1), (0x10, 0, 64)])
  | 0xE0 => some (64, (8, 0, 3) :: (0x10, 0, 44) :: (List.range 5).map fun i => (0x18 + 4 * i, 0, 32))
  | _ => none

/-- Whether a queue kind accepts an opcode (R212). -/
def accepts (kernel : Bool) (opc : Nat) : Bool :=
  if kernel then ((decide (0x80 ≤ opc) && decide (opc ≤ 0x9F)) || decide (0xC0 ≤ opc)) && opc != 0x83 else decide (opc ≤ 0x9F)

/-- The command with the fields it defines cleared: what is left must be zero. -/
def leftOver (raw : Nat) (fs : List (Nat × Nat × Nat)) : Nat :=
  (fs.foldl (fun x f => withBits x (8 * f.1 + f.2.1) f.2.2 0) raw) / 2 ^ 64

/-- The byte offset of the lowest bit set. -/
def firstByte (x : Nat) : Nat := ((List.range 128).find? fun i => bits x (8 * i) 8 != 0).getD 0

def misaligned (raw off a : Nat) : Bool := fld raw off 0 64 % a != 0

/-- Whether a kernel-queue physical extent touches a reserved range (R24). -/
def badPhys (pa n : Nat) : Bool := !(inDevice pa n || (decide (hostBase ≤ pa) && decide (pa + n ≤ 2 ^ 44)))

/-- The grade named in the colophon, and its TDP in watts (R3, R5). -/
def State.grade (s : State) : Nat := (tabGet 0 s.flash ((if (s.reg .sec 0 0x100).testBit 9 then 0x100000 else 0) + 0x20)).toNat
def State.tdp (s : State) : Nat := if s.grade = 20 then 3200 else if s.grade = 18 then 3060 else 2920

/-- Whether FMT_G or FMT_W of an update command is not allowed (R28, R48). -/
def updFormatsBad (word : Nat) : Bool :=
  !([Fmt.q8x64, .q8x128, .e4m3, .e5m2, .bf16].contains ((fmtOf (bits word 3 5)).getD .fp64)) ||
    !([Fmt.bf16, .fp32].contains ((fmtOf (bits word 8 5)).getD .fp64))

/-- The offset of the first field outside its stated range, by command. -/
def fieldRange (s : State) (kernel : Bool) (raw : Nat) : Option Nat :=
  let f := fun o lo w => fld raw o lo w
  let bad := fun (l : List (Bool × Nat)) => (l.find? (·.1)).map (·.2)
  match cOpc raw with
  | 0x02 => bad [(misaligned raw 0x18 32, 0x18)]
  | 0x03 => bad [(flag raw 8 1 && f 0x18 0 64 != 0 && (decide (f 8 3 5 < 8) || decide (f 8 3 5 > 20)), 8),
                 (misaligned raw 0x18 4096, 0x18)]
  | 0x30 | 0x50 => bad [(decide (f 8 0 3 > 3), 8), (updFormatsBad (f 8 0 16), 8)]
  | 0x51 => bad [(decide (f 8 0 3 > 3), 8), (updFormatsBad (f 8 0 16), 8), (!flag raw 8 14, 8)]
  | 0x40 => bad [(decide (f 8 2 8 = 0), 8)]
  | 0x41 => bad [(decide (f 8 7 2 = 0), 8)]
  | 0x60 | 0x61 | 0x62 => bad [(misaligned raw 0x10 64, 0x10)]
  | 0x63 => bad [(f 0xC 0 18 == 0 || decide (f 0xC 0 18 > 131072) || decide (f 8 0 17 + f 0xC 0 18 > 131072), 0xC),
                 (misaligned raw 0x10 64, 0x10), (f 0x18 0 32 == max32, 0x18)]
  | 0x80 | 0x81 | 0x83 => bad [(misaligned raw 0x10 8, 0x10)]
  | 0x90 => bad [(!kernel && f 8 0 6 != 0, 8), (misaligned raw 0x10 64, 0x10)]
  | 0xC0 => bad ([(f 8 6 2 == 3, 8), (decide (f 8 8 6 > 32), 8), (misaligned raw 0x10 (2 ^ 21), 0x10), (misaligned raw 0x18 4096, 0x18)] ++
      (List.range 4).map fun i =>
        (misaligned raw (0x20 + 16 * i) (2 ^ 21) || misaligned raw (0x28 + 16 * i) (2 ^ 21) ||
          decide (f (0x28 + 16 * i) 0 64 < f (0x20 + 16 * i) 0 64), 0x20 + 16 * i))
  | 0xC2 => bad [(decide (f 8 16 5 < 6) || decide (f 8 16 5 > 16) || decide (f 8 22 5 < 6) || decide (f 8 22 5 > 16), 8),
                 (misaligned raw 0x10 4096, 0x10), (misaligned raw 0x18 4096, 0x18)]
  | 0xC3 => bad [(decide (f 8 0 11 > 1039), 8), (misaligned raw 0x10 4096, 0x10)]
  | 0xC6 => bad [(f 8 6 2 == 0 || f 8 6 2 == 3, 8)]
  | 0xC8 => bad [(decide (f 8 0 7 > 64), 8), (misaligned raw 0x10 (2 ^ 21), 0x10)]
  | 0xCB => bad ((f 8 0 3 == 0 || decide (f 8 0 3 > 6), 8) :: (List.range (f 8 0 3)).map fun i => (f (0x10 + 8 * i) 0 24 % 4 != 0, 0x10 + 8 * i))
  | 0xCC => bad ((f 8 0 3 == 0 || decide (f 8 0 3 > 5), 8) :: (List.range (f 8 0 3)).map fun i => (f (0x18 + 8 * i) 0 24 % 4 != 0, 0x18 + 8 * i))
  | 0xD0 => bad [(flag raw 8 6 && f 0x10 0 64 != 0, 0x10), (flag raw 8 6 && f 0x18 0 64 != 0, 0x18),
                 (flag raw 8 6 && f 0x20 0 64 != 0, 0x20), (flag raw 8 6 && f 0x28 0 32 != 0, 0x28), (misaligned raw 0x18 (2 ^ 21), 0x18), (misaligned raw 0x20 128, 0x20)]
  | 0xD8 =>
    bad [(decide (f 8 0 12 < 720) || decide (f 8 0 12 > s.tdp), 8), (decide (f 8 16 11 > 2000), 8)]
  | 0xE0 => bad ([(f 8 0 3 == 0 || decide (f 8 0 3 > 5), 8), (misaligned raw 0x10 8, 0x10)] ++
      (List.range (f 8 0 3)).map fun i => (f (0x18 + 4 * i) 11 1 != 0 || f (0x18 + 4 * i) 24 8 != 0, 0x18 + 4 * i))
  | _ => none

/-- The addresses a command names with the extents it fixes: (field offset, address, bytes). -/
def addresses (raw : Nat) : List (Nat × Nat × Nat) :=
  let a := fun o n => (o, fld raw o 0 64, n)
  let opt := fun o n => if fld raw o 0 64 = 0 then [] else [a o n]
  match cOpc raw with
  | 0x01 => [a 0x10 208]
  | 0x02 => opt 0x18 32
  | 0x03 => if flag raw 8 1 then opt 0x18 (32 * 2 ^ fld raw 8 3 5) else []
  | 0x30 | 0x50 => [a 0x10 384, a 0x18 64] ++ opt 0x20 4
  | 0x51 => [a 0x10 384]
  | 0x60 | 0x61 | 0x62 => [a 0x10 128]
  | 0x63 => [a 0x10 (16 * fld raw 0xC 0 18)]
  | 0x80 | 0x81 | 0x83 => [a 0x10 8]
  | 0x90 => [a 0x10 128]
  | 0xC0 => [a 0x10 1, a 0x18 4096]
  | 0xC3 => opt 0x10 4096
  | 0xC8 => [a 0x10 (2 ^ 21 * fld raw 0x18 0 32)]
  | 0xCC => [a 0x10 (4 * fld raw 8 0 3)]
  | 0xD0 => if flag raw 8 6 then [] else [a 0x18 (96 * 2 ^ 20), a 0x20 128]
  | 0xE0 => [a 0x10 (8 * fld raw 8 0 3)]
  | _ => []

/-- Whether [va, va + n) lies wholly inside one of a context's ranges (R214). -/
def inRanges (s : State) (c va n : Nat) : Bool :=
  (s.ctxOf c).ranges.any fun r => decide (r.1 ≤ va) && decide (va + n ≤ r.2)

/-- Whether the address of a command's field fails the ADDRESS check. -/
def addressBad (s : State) (q raw : Nat) (e : Nat × Nat × Nat) : Bool :=
  if q < 1024 then !inRanges s (s.queueOf q).ctx e.2.1 e.2.2
  else if cOpc raw = 0xC8 || cOpc raw = 0xD0 then !inDevice e.2.1 e.2.2
  else badPhys e.2.1 e.2.2

/-- The checks of R214 that a command's own bytes decide: FORMAT, PRIVILEGE and ADDRESS, with the offset of the offending
field. -/
def checkCmd (s : State) (q entry raw : Nat) : Option (Nat × Nat) :=
  let kernel := decide (q ≥ 1024)
  let opc := cOpc raw
  let privileged := !kernel && decide (opc ≥ 0xC0)
  match cmdSpec opc with
    | none => some (stFormat, 0)
    | some (size, fs) =>
      let have_ := if cSize raw = 0 then 64 else 128
      let body := raw % 2 ^ (8 * have_)
      if !privileged && !accepts kernel opc then some (stFormat, 0)
      else if cSize raw ≥ 2 || cCompl raw = 3 || decide (have_ > entry) || decide (have_ < size) || bits raw 12 4 != 0 || bits raw 20 12 != 0 then
        some (stFormat, 0)
      else if leftOver body fs ≠ 0 then some (stFormat, 8 + firstByte (leftOver body fs))
      else match fieldRange s kernel raw with
        | some o => some (stFormat, o)
        | none =>
          if privileged then some (stPrivilege, 0)
          else ((addresses raw).find? (addressBad s q raw)).map fun e => (stAddress, e.1)

end Sys2Proof.Machine
end

