-- ==== Sys2Proof/Machine/FrontEnd.lean ====
section
/-!
DEFINITION. The front end (R208–R222): rings and doorbells, fetch, the order of starts, fences, RUN_LIST and the DMA
commands, timeouts, completion records and the orphan ring.
Rows of notes/assumptions: DEDUCED 59, 61, 62, 63, 64, 65, 66, 67, 68, 73, 86, 153, 201; DESIGN CHOICE 60.
-/
namespace Sys2Proof.Machine

open Sys2Proof

/-! Memory of the front end -/

/-- Agent of a queue's fetches and fence reads. -/
def agFetch (q : Nat) : Nat := 12000 + q

/-- The context whose faults a queue's accesses are; a kernel queue has none. -/
def State.feCtx (s : State) (q : Nat) : Nat := if q < 1024 then (s.queueOf q).ctx else 0
/-- The key set a queue's accesses use (R165). -/
def State.feOwner (s : State) (q : Nat) : Nat := if q < 1024 then (s.queueOf q).ctx else 64

/-- The physical address of a queue's address: translated for a user queue, itself for a kernel queue (R212). -/
def fePhys (s : State) (q a : Nat) (write : Bool) : State × XAns :=
  if q < 1024 then translateFrom s 4 0 reqFe (s.queueOf q).ctx a write else (s, .pa a)

/-- Reads the 64 B line that holds an address: from host memory through the line cache (R324). -/
def feLine (s : State) (q agent a : Nat) : State × Acc :=
  match fePhys s q (a / 64 * 64) false with
  | (s, .fault _) => (s, .xlate)
  | (s, .wait) => (s, .wait)
  | (s, .pa pa) =>
    if pa ≥ hostBase then cacheRead s agent reqFe (s.feCtx q) (pa - hostBase)
    else if rowsBusy s pa 64 then (s, .wait)
    else
      let (s, r) := readFrom s 4 (s.feOwner q) pa 64
      (s, if r.bus then .bus else .ok r.bytes r.poison)

/-- Writes a completion record within one line (R324). -/
def feRecord (s : State) (q a : Nat) (data : List Byte) : State × Acc :=
  match fePhys s q a true with
  | (s, .fault _) => (s, .xlate)
  | (s, .wait) => (s, .wait)
  | (s, .pa pa) =>
    if pa ≥ hostBase then cacheWrite s (agRecord q) reqFe (s.feCtx q) (pa - hostBase) data
    else if rowsBusy s pa data.length then (s, .wait)
    else
      let (s, bad) := writeFrom s 4 (s.feOwner q) pa data
      (s, if bad then .bus else .ok [] [])

/-- Reads memory for a command of a queue. -/
def feRead (s : State) (q a n : Nat) : State × Acc :=
  if q < 1024 then memRead s q 0 reqFe (s.queueOf q).ctx a n else physRead s q 4 reqFe 0 64 a n

/-- Writes memory for a command of a queue. -/
def feWrite (s : State) (q a : Nat) (data : List Byte) : State × Acc :=
  if q < 1024 then memWrite s q 0 reqFe (s.queueOf q).ctx a data else physWrite s q 4 reqFe 0 64 a data

/-- Goes on with an access's bytes, with its fault, or waits for the host with the state as it was. -/
def feThen (s0 : State) (agent : Nat) (r : State × Acc) (good : State → List Byte → Out) (bad : State → Out) : Out :=
  match r with
  | (t, .wait) => .next (keepRequests s0 t)
  | (t, .ok b p) => if p.any id then bad (takeAnswers t agent) else good (takeAnswers t agent) b
  | (t, _) => bad (takeAnswers t agent)

/-- Whether the front end fetches and starts commands: not after a fatal error, nor with debug unlocked (R373, R389). -/
def State.feRuns (s : State) : Bool := !s.halted && s.obs.fatal == 0 && !s.mgmt.debugHalt

/-! Starts (R215, R226) -/

/-- Whether a command's end stops its queue (R217). -/
def stopsQueue (c : Cmd) : Bool :=
  [stFormat, stPrivilege, stAddress, stFetchFault, stTimeout].contains c.status || (c.status != 0 && !cCont c.raw)

/-- Opcodes that always behave as if FENCE_IN = 1 (R215, R308, R379). -/
def alwaysFenced (opc : Nat) : Bool := [0x81, 0x83, 0xC3, 0x02, 0x03, 0x90].contains opc

/-- The command that is next to start, where its predecessors allow (R215). -/
def nextToStart (s : State) (q : Nat) : Option Cmd :=
  let x := s.queueOf q
  if !s.feRuns || x.cmds.any (fun c => c.ended && stopsQueue c) then none
  else match x.cmds.find? fun c => !c.started with
    | none => none
    | some c =>
      if c.check = 0 && (cFence c.raw || alwaysFenced (cOpc c.raw)) && (x.cmds.head?.map (·.n)) != some c.n then none else some c

/-! Fetch (R210, R211, R214) -/

/-- Whether a queue fetches: at most 8 commands ahead of its oldest unstarted one, and fewer than 16 records held. -/
def State.fetches (s : State) (q : Nat) : Bool :=
  let x := s.queueOf q
  s.feRuns && (x.state == .running || x.state == .waiting) && x.head != x.tail && !(x.cmds.any fun c => c.n == x.head) &&
    decide ((x.cmds.filter fun c => !c.started).length < 8) && decide (x.held.length < 16)

/-- Takes up a fetched command with the outcome of its checks. -/
def putFetched (s : State) (q raw check off : Nat) : State :=
  let x := s.queueOf q
  let c : Cmd := { n := x.head, raw := raw, check := check, checkOff := off, start := if check = 0 then 0 else s.gtime }
  let s := s.setQueue q { x with head := (x.head + 1) % 2 ^ 32, cmds := x.cmds ++ [c] }
  if check = 0 then s else s.bump .fe 0 0x11C 1

/-- Checks and takes up a command whose bytes have been read. -/
def takeFetched (s : State) (q raw : Nat) : State :=
  match checkCmd s q (if (s.queueOf q).big then 128 else 64) raw with
  | none => putFetched s q raw 0 0
  | some (st, off) => putFetched s q raw st off

/-- COMMAND_FETCH. -/
def execCommandFetch (q : QueueId) (s : State) : Out :=
  let x := s.queueOf q
  if !s.fetches q then .next s
  else
    let a := x.ring + (if x.big then 128 else 64) * (x.head % 2 ^ x.log)
    feThen s (agFetch q) (feLine s q (agFetch q) a)
      (fun t b =>
        let raw := leNat b
        if cSize raw = 1 && x.big then
          feThen s (agFetch q) (feLine t q (agFetch q) (a + 64)) (fun t b' => .next (takeFetched t q (raw + leNat b' * 2 ^ 512)))
            (fun t => .next (putFetched t q raw stFetchFault 0))
        else .next (takeFetched t q raw))
      (fun t => .next (putFetched { t with draws := t.draws + 1 } q (Config.lostHeader t.draws % 2 ^ 64) stFetchFault 0))

/-! Engines and arrays (R215, R226) -/

/-- The sequencers a RUN_LIST names, arrays by their physical numbers. -/
def runSeqs (s : State) (q : Nat) (c : Cmd) : List Nat :=
  (setBits 26 (bits c.raw 64 26)).filterMap fun i =>
    if i < 20 then (match tabGet 0 (s.ctxOf (s.queueOf q).ctx).map i with
      | 0 => none
      | p + 1 => some p)
    else some i

/-- Whether a RUN_LIST names a logical array with no mapping. -/
def unmapped (s : State) (q : Nat) (c : Cmd) : Bool :=
  (setBits 20 (bits c.raw 64 20)).any fun i => tabGet 0 (s.ctxOf (s.queueOf q).ctx).map i == 0

/-- Whether some command that has started and not yet acted is of a kind. -/
def anyClaim (s : State) (p : Nat → Cmd → Bool) : Bool :=
  s.queues.any fun e => e.2.cmds.any fun c => c.started && !c.acted && p e.1 c

/-- Whether an opcode works on the NMUs. -/
def isNmuOp (opc : Nat) : Bool := [0x30, 0x31, 0x50, 0x51].contains opc

/-- Whether the NMUs are free. -/
def State.nmusFree (s : State) : Bool := (s.nmu.all fun e => e.2.state == .idle) && s.pair.waiting.isNone

/-- Whether an NMU_UPDATE of a context executes (R201). -/
def updateExecutes (s : State) (k : Nat) : Bool :=
  s.queues.any fun e => e.2.ctx == k && e.2.cmds.any fun c => cOpc c.raw == 0x30 && c.started && !c.ended

/-- Whether the engine that carries out a command has still to take up one that has started before it, of its own queue or another
(R215). -/
def engineWaits (s : State) (c : Cmd) : Bool :=
  cOpc c.raw != 1 && anyClaim s fun _ c' => cmdEngine c'.raw == cmdEngine c.raw

/-- Whether every engine a command names is free (R215): an engine takes up one command after another, and the start queue of a half
holds four operations. -/
def enginesFree (s : State) (q : Nat) (c : Cmd) : Bool :=
  let opc := cOpc c.raw
  if opc = 0x01 then
    (runSeqs s q c).all fun n => (s.seqOf n).state == .idle && (decide (n ≥ 20) || (s.islOf n).enable) &&
      !anyClaim s (fun q' c' => cOpc c'.raw == 1 && (runSeqs s q' c').contains n)
  else if engineWaits s c then false
  else if opc = 0x60 || opc = 0x61 || opc = 0x62 then
    decide ((tabGet [] s.xch.queue (bits c.raw 64 1)).length < 4)
  else !isNmuOp opc || (opc == 0x51 && updateExecutes s (s.queueOf q).ctx) || s.nmusFree

/-- Whether two RUN_LISTs name a common sequencer that they take in turn: a die or exchange sequencer, or an array of one
context. -/
def shareSeq (s : State) (q : Nat) (c : Cmd) (q' : Nat) (c' : Cmd) : Bool :=
  (runSeqs s q c).any fun n =>
    (decide (n ≥ 20) || (s.queueOf q).ctx == (s.queueOf q').ctx) && (runSeqs s q' c').contains n

/-- Whether the ready time `t` of queue `q` comes before `t'` of `q'`. -/
def olderThan (t q t' q' : Nat) : Bool := decide (t < t') || (t == t' && decide (q < q'))

/-- Whether a command and one of another queue work on one engine that they take in turn (R215); a FENCE_WAIT that is next to start
keeps no other back. -/
def shareEngine (s : State) (q : Nat) (c : Cmd) (q' : Nat) (c' : Cmd) : Bool :=
  cmdEngine c.raw == cmdEngine c'.raw && cOpc c'.raw != 0x80 && (cOpc c.raw != 1 || shareSeq s q c q' c')

/-- Whether the context of a queue holds every array a RUN_LIST names (R226). -/
def arraysAreHeld (s : State) (q : Nat) (c : Cmd) : Bool :=
  (runSeqs s q c).all fun n => decide (n ≥ 20) || ((s.holderOf n).ctx == some (s.queueOf q).ctx && (s.holderOf n).incoming.isNone)

/-- Whether a command meets every condition of R215: `held`, the holding of its arrays too. -/
def startable (s : State) (q : Nat) (c : Cmd) (held : Bool) : Bool :=
  c.check == 0 && (cOpc c.raw != 1 || (!unmapped s q c && (!held || arraysAreHeld s q c))) && enginesFree s q c

/-- Whether a RUN_LIST of a queue names a physical array. -/
def namesPhys (s : State) (q : Nat) (c : Cmd) (n : Nat) : Bool := cOpc c.raw == 1 && c.check == 0 && (runSeqs s q c).contains n

/-- Whether the sequencers a RUN_LIST names are free, where an array that another context holds does not count (R226). -/
def listFree (s : State) (q : Nat) (c : Cmd) : Bool :=
  let k := (s.queueOf q).ctx
  (runSeqs s q c).all fun m =>
    (decide (m ≥ 20) || (s.islOf m).enable) &&
    ((decide (m < 20) && (s.holderOf m).ctx.any (· != k)) ||
      ((s.seqOf m).state == .idle && !anyClaim s (fun q' c' => cOpc c'.raw == 1 && (runSeqs s q' c').contains m)))

/-- The next command of a queue, where it is ready and names an array (R226). -/
def readyOn (s : State) (q : Nat) (n : Nat) : Option Cmd :=
  if q ≥ 1024 || (s.queueOf q).state != .running then none
  else match nextToStart s q with
    | none => none
    | some c => if namesPhys s q c n && !unmapped s q c && listFree s q c then some c else none

/-- Whether the next command of a queue meets every condition of R215 but the holding of its arrays (R226). -/
def isReady (s : State) (q : Nat) (c : Cmd) : Bool :=
  c.check == 0 && (if cOpc c.raw = 1 then !unmapped s q c && listFree s q c else enginesFree s q c)

/-- Keeps since when the command that is next to start is ready (R226). -/
def noteReady (s : State) (q : Nat) : State :=
  let x := s.queueOf q
  match nextToStart s q with
  | none => if x.since.isNone then s else s.setQueue q { x with since := none }
  | some c => if (x.since.map (·.1)) = some c.n || !isReady s q c then s else s.setQueue q { x with since := some (c.n, s.gtime) }

/-- Every queue's. -/
def noteReadyAll (s : State) : State := (s.queues.map (·.1)).foldl noteReady s

/-- Since when. -/
def readySince (s : State) (q : Nat) (c : Cmd) : Nat :=
  match (s.queueOf q).since with
  | some (n, t) => if n = c.n then t else s.gtime
  | none => s.gtime

/-- Whether a command that waits longer, on another queue, is to be served first (R215). -/
def servedAfter (s : State) (q : Nat) (c : Cmd) : Bool :=
  s.queues.any fun e =>
    e.1 != q && e.2.state == .running && (match nextToStart s e.1 with
      | none => false
      | some c' => shareEngine s q c e.1 c' && startable s e.1 c' true &&
          olderThan (readySince s e.1 c') e.1 (readySince s q c) q)

/-- Whether a context has a ready command that names an array (R226). -/
def readyFor (s : State) (k n : Nat) : Bool :=
  s.queues.any fun e => e.2.ctx == k && (readyOn s e.1 n).isSome

/-- The context that owns the oldest ready command naming an array, other than its holder (R226): ready time, queue,
context. -/
def oldestReady (s : State) (n : Nat) (holder : Option Nat) : Option (Nat × Nat × Nat) :=
  s.queues.foldl (fun b e =>
    if holder = some e.2.ctx then b
    else match readyOn s e.1 n with
      | none => b
      | some c =>
        let t := readySince s e.1 c
        match b with
        | none => some (t, e.1, e.2.ctx)
        | some (t', q', k') => if olderThan t e.1 t' q' then some (t, e.1, e.2.ctx) else some (t', q', k')) none

/-- Whether the holder of an array has had it for its quantum (R226). -/
def quantumIsOver (s : State) (n : Nat) : Bool :=
  let h := s.holderOf n
  h.quantumOver || h.ctx.any fun k => (s.ctxOf k).quantum != 0 && decide (h.since + 1000 * (s.ctxOf k).quantum ≤ s.gtime)

/-- Whether a RUN_LIST names an array that goes to another context at this boundary (R226). -/
def yields (s : State) (q : Nat) (c : Cmd) : Bool :=
  (runSeqs s q c).any fun n => decide (n < 20) && quantumIsOver s n && (oldestReady s n (some (s.queueOf q).ctx)).isSome

/-- The sixteen counters of a context (R377). -/
def ctxCounters (s : State) (c : Nat) : List Nat := (List.range 16).map fun i => tabGet 0 (s.ctxOf c).counters i

/-- Zeroes a context's counters at the start of a command with COUNTER_RESET, for a sample of the same cycle (R378, R384). -/
def resetCounters (s : State) (q : Nat) (c : Cmd) : State :=
  if !cReset c.raw || decide (q ≥ 1024) then s
  else
    let k := (s.queueOf q).ctx
    let now := s.obs.resets.filter fun (_, _, _, t, _) => t == s.gtime
    let s := { s with obs := { s.obs with resets := now ++ [(q, k, cSeq c.raw, s.gtime, ctxCounters s k)] } }
    s.setCtx k { s.ctxOf k with counters := [] }

/-- Whether a channel is valid and the queue's context owns it. -/
def ownsChannel (s : State) (q k : Nat) : Bool := s.chValid k && s.chCtx k == (s.queueOf q).ctx

/-- Whether DMA_START or DMA_ACTION names a channel that is not the context's, or not in the state it needs (R214). -/
def dmaTarget (s : State) (q : Nat) (c : Cmd) : Bool :=
  let k := 32 * bits c.raw 64 2
  (cOpc c.raw == 0x40 && !((setBits 32 (bits c.raw 96 32)).map (k + ·)).all (ownsChannel s q)) ||
  (cOpc c.raw == 0x41 && !(ownsChannel s q (k + bits c.raw 66 5) && (s.chOf (k + bits c.raw 66 5)).state == .halted))

/-- A command starts: its time, seeds and, for COUNTER_READ, its counter block are taken. -/
def beginCmd (s : State) (q : Nat) (c : Cmd) : State :=
  let k := if q < 1024 then some (s.queueOf q).ctx else none
  let s := countEvent s .fe 0 0x58 k 1
  let x := s.ctxOf (s.feCtx q)
  let snap := if cOpc c.raw = 0x90 then ctxCounters s (if q < 1024 then (s.queueOf q).ctx else bits c.raw 64 6) else []
  let s := resetCounters s q c
  updCmd s q c.n fun c => { c with started := true, start := s.gtime, seed0 := x.seed, step0 := x.step, snap := snap }

/-! RUN_LIST and the DMA commands (R213, R232) -/

/-- Starts one sequencer of a RUN_LIST on its TABLE entry. -/
def startSeq (s : State) (q : Nat) (c : Cmd) (n bitNo entry : Nat) : State :=
  let list := bits entry 0 48
  let s := crossTo s 4 (seqHome n)
  let s := s.setSeq n { state := .run, ctx := (s.queueOf q).ctx, list := list, regs := tabSet 0 [] 1 (bits entry 48 16),
                        queue := q, cmd := c.n, engines := bits c.raw 64 26, bitNo := bitNo, traceLost := (s.seqOf n).traceLost }
  if list % 64 = 0 then s else seqFault s n sfAlign

/-- RUN_LIST: every named sequencer starts in one cycle. -/
def execRunList (q : QueueId) (s : State) : Out :=
  match actCmd s q 0x01 with
  | none => .next s
  | some c =>
    feThen s q (feRead s q (bits c.raw 128 64) 208)
      (fun t b =>
        let table := leNat b
        let named := (setBits 26 (bits c.raw 64 26)).filterMap fun i =>
          if i < 20 then (match tabGet 0 (t.ctxOf (t.queueOf q).ctx).map i with
            | 0 => none
            | p + 1 => some (i, p))
          else some (i, i)
        if named.isEmpty then .next (doneCmd t q c.n)
        else
          let t := updCmd t q c.n fun c => { c with acted := true, engines := named.map fun e => seqCode e.2 }
          .next (named.foldl (fun t e => startSeq t q c e.2 e.1 (bits table (64 * e.1) 64)) t))
      (fun t => .next (badCmd t q c.n stFetchFault))

/-- DMA_START. -/
def execDmaStart (q : QueueId) (s : State) : Out :=
  match actCmd s q 0x40 with
  | none => .next s
  | some c =>
    let ks := (setBits 32 (bits c.raw 96 32)).map (32 * bits c.raw 64 2 + ·)
    if ks.all (ownsChannel s q) then .next (doneCmd (ks.foldl (fun s k => giveStarts s k (bits c.raw 66 8)) (crossTo s 4 (bits c.raw 64 2))) q c.n)
    else .next (failCmd s q c.n stTarget 0)

/-- DMA_ACTION. -/
def execDmaAction (q : QueueId) (s : State) : Out :=
  match actCmd s q 0x41 with
  | none => .next s
  | some c =>
    let k := 32 * bits c.raw 64 2 + bits c.raw 66 5
    if ownsChannel s q k && (s.chOf k).state == .halted then
      let a := bits c.raw 71 2
      .next (doneCmd (dmaAction ((crossTo s 4 (k / 32)).setChReg k 0x1C (withBits (s.ch k 0x1C) 0 2 a)) k a) q c.n)
    else .next (failCmd s q c.n stTarget 0)

/-! Fences (R216) -/

/-- Changes a queue's state, leaving REASON only to STOPPED. -/
def State.setQState (s : State) (q : Nat) (st : QState) : State := s.setQueue q { s.queueOf q with state := st, reason := 0 }

/-- Reads the fence of a FENCE_WAIT that is next to start: met, it starts and completes; not met, the queue waits. -/
def waitFence (s : State) (q : Nat) (c : Cmd) : Out :=
  let a := bits c.raw 128 64
  feThen s (agFetch q) (feLine s q (agFetch q) a)
    (fun t b =>
      if leNat ((b.drop (a % 64)).take 8) ≥ bits c.raw 192 64 then .next (doneCmd (beginCmd (t.setQState q .running) q c) q c.n)
      else if (t.queueOf q).state = .waiting then .next t
      else .next (updCmd (t.setQState q .waiting) q c.n fun c => { c with waitSince := t.gtime }))
    (fun t => .next (badCmd (beginCmd (t.setQState q .running) q c) q c.n stFetchFault))

/-- FENCE_WAIT. -/
def execFenceWait (q : QueueId) (s : State) : Out :=
  if (s.queueOf q).state ≠ .running then .next s
  else match nextToStart s q with
    | some c =>
      if cOpc c.raw ≠ 0x80 || c.check ≠ 0 then .next s
      else if engineWaits s c || servedAfter s q c then .next (noteReady s q)
      else waitFence s q c
    | none => .next s

/-- FENCE_POLL. -/
def execFencePoll (q : QueueId) (s : State) : Out :=
  if (s.queueOf q).state ≠ .waiting then .next s
  else match nextToStart s q with
    | some c => waitFence s q c
    | none => .next s

/-- FENCE_SIGNAL. -/
def execFenceSignal (q : QueueId) (s : State) : Out :=
  match actCmd s q 0x81 with
  | none => .next s
  | some c =>
    let a := bits c.raw 128 64
    let v := bits c.raw 192 64
    feThen s q (if q.val < 1024 then fenceMax s q 0 reqFe (s.queueOf q).ctx a v else fenceMaxPhys s q reqFe 0 64 a v)
      (fun t _ => .next (doneCmd t q c.n)) (fun t => .next (badCmd t q c.n stFetchFault))

/-- NOP. -/
def execNop (q : QueueId) (s : State) : Out :=
  match actCmd s q 0x82 with
  | none => .next s
  | some c => .next (doneCmd s q c.n)

/-- FLAGS_READ (R228). -/
def execFlagsRead (q : QueueId) (s : State) : Out :=
  match actCmd s q 0x83 with
  | none => .next s
  | some c =>
    let k := (s.queueOf q).ctx
    feThen s q (feWrite s q (bits c.raw 128 64) (leBytes (s.ctxOf k).flags 8))
      (fun t _ =>
        let t := if c.raw.testBit 64 then t.setCtx k { t.ctxOf k with flags := 0 } else t
        .next (doneCmd t q c.n))
      (fun t => .next (badCmd t q c.n stFetchFault))

/-! Completion (R217–R221) -/

/-- A queue stops (R217, R219); after a fatal error it stays as it stood (R389). -/
def stopQueue (s : State) (q reason seq : Nat) : State :=
  let x := s.queueOf q
  if s.obs.fatal = 0 && (x.state == .running || x.state == .waiting) then
    raiseVector (s.setQueue q { x with state := .stopped, reason := reason, since := none, stopSeq := if reason = 1 then seq else x.stopSeq })
      x.vector
  else s

/-- The completion record of a command that ends now, as a number (R218). -/
def recordOf (s : State) (q : Nat) (c : Cmd) : Nat :=
  let dig := cDigest c.raw && c.digestValid
  pack [(0, 32, cSeq c.raw), (32, 8, c.status), (40, 8, cOpc c.raw), (48, 11, q), (59, 1, bit dig), (61, 1, bit c.detailWritten),
    (64, 64, c.start), (128, 40, if c.check ≠ 0 then 0 else min (s.gtime - c.start) (2 ^ 40 - 1)),
    (168, 24, min c.choices 0xFFFFFF), (192, 64, if dig then c.digest else c.info)]

/-- Moves DONE past every command that has completed. -/
def advanceDone : Nat → Queue → Queue
  | 0, x => x
  | fuel + 1, x =>
    if x.doneSet.contains x.doneN then
      advanceDone fuel { x with doneSet := x.doneSet.filter (· != x.doneN), doneN := (x.doneN + 1) % 2 ^ 32 }
    else x

/-- A command leaves its queue: it is counted, and it may stop the queue. -/
def retireCmd (s : State) (q : Nat) (c : Cmd) : State :=
  let x := s.queueOf q
  let s := s.setQueue q (advanceDone (x.doneSet.length + 1)
    { x with cmds := x.cmds.filter (fun d => d.n != c.n), doneSet := x.doneSet ++ [c.n] })
  let s := if q < 1024 then
      let s := ctxCount s x.ctx 0 1
      if c.status = stPoisoned then ctxCount s x.ctx 14 1 else s
    else s
  if stopsQueue c then stopQueue s q 1 (cSeq c.raw) else s

/-- Whether a queue's completion ring is full. -/
def Queue.cqFull (x : Queue) : Bool := (2 ^ 32 + x.cqTail - x.cqHead) % 2 ^ 32 == 2 ^ x.cqLog

/-- Writes a record to the orphan ring, with ORPHAN set; `none` while it is not valid or full, or its row is being copied, and the
record is held (R174, R221). -/
def putOrphan (s : State) (word : Nat) : Option State :=
  let cfg := s.reg .fe 0 0x108
  let tail := s.reg .fe 0 0x10C
  if !cfg.testBit 16 || (2 ^ 32 + tail - s.reg .fe 0 0x110) % 2 ^ 32 == 2 ^ bits cfg 0 5 then none
  else
    let base := 2 ^ 12 * (s.reg .fe 0 0x100 / 2 ^ 12) + 2 ^ 32 * s.field .fe 0 0x104 0 12
    let pa := base + 32 * (tail % 2 ^ bits cfg 0 5)
    let (t, bad) := writeFrom s 4 64 pa (leBytes (word ||| 2 ^ 60) 32)
    if bad || rowsBusy s pa 32 then none else some (t.setReg .fe 0 0x10C ((tail + 1) % 2 ^ 32))

/-- A record has been written to a queue's completion ring. -/
def recordWritten (s : State) (q : Nat) (h : Held) : State :=
  let x := s.queueOf q
  let s := s.setQueue q { x with cqTail := (x.cqTail + 1) % 2 ^ 32 }
  if h.vector then raiseVector s x.vector else s

/-- Where a queue's next record goes in its completion ring. -/
def Queue.cqSlot (x : Queue) : Nat := x.cq + 32 * (x.cqTail % 2 ^ x.cqLog)

/-- Writes the oldest held record of a queue where it can go now: the state and whether something moved. -/
def drainOne (s : State) (q : Nat) : State × Bool :=
  let x := s.queueOf q
  match x.held with
  | [] => (s, false)
  | h :: rest =>
    if x.orphan then
      match putOrphan s h.word with
      | some t => (t.setQueue q { t.queueOf q with held := rest }, true)
      | none => (s, false)
    else if x.wfault || x.cqFull then (s, false)
    else match feRecord s q x.cqSlot (leBytes h.word 32) with
      | (t, .wait) => (keepRequests s t, false)
      | (t, .ok _ _) =>
        let t := takeAnswers t (agRecord q)
        (recordWritten (t.setQueue q { t.queueOf q with held := rest }) q h, true)
      | (t, _) =>
        let t := takeAnswers t (agRecord q)
        (t.setQueue q { t.queueOf q with wfault := true }, false)

/-- Writes held records while they can go. -/
def drainHeld : Nat → State → Nat → State
  | 0, s, _ => s
  | fuel + 1, s, q =>
    match drainOne s q with
    | (t, true) => drainHeld fuel t q
    | (t, false) => t

/-- The command of a queue whose end came first, of those that have ended. -/
def firstEnded (x : Queue) : Option Cmd :=
  x.cmds.foldl (fun b c =>
    if !c.ended then b
    else match b with
      | none => some c
      | some d => if c.endNo < d.endNo then some c else some d) none

/-- Completes a command: its record is written, held, or not asked for (R219). -/
def completeCmd (s : State) (q : Nat) (c : Cmd) : Out :=
  let x := s.queueOf q
  let h : Held := ⟨recordOf s q c, cCompl c.raw == 2⟩
  let keep := fun (s : State) (bad : Bool) =>
    let s := retireCmd s q c
    let y := s.queueOf q
    s.setQueue q { y with held := y.held ++ [h], wfault := y.wfault || bad }
  if cCompl c.raw = 0 && c.status = 0 then .next (retireCmd s q c)
  else if !x.held.isEmpty || (!x.orphan && x.cqFull) then .next (keep s false)
  else if x.orphan then
    match putOrphan s h.word with
    | some t => .next (retireCmd t q c)
    | none => .next (keep s false)
  else match feRecord s q x.cqSlot (leBytes h.word 32) with
    | (t, .wait) => .next (keepRequests s t)
    | (t, .ok _ _) => .next (recordWritten (retireCmd (takeAnswers t (agRecord q)) q c) q h)
    | (t, _) => .next (keep (takeAnswers t (agRecord q)) true)

/-- COMMAND_COMPLETE: a held record goes first where it can; otherwise the command that ended first completes. -/
def execCommandComplete (q : QueueId) (s : State) : Out :=
  if s.halted || s.obs.fatal ≠ 0 then .next s
  else match drainOne s q with
    | (t, true) => .next t
    | (t, false) =>
      let x := t.queueOf q
      if x.held.length ≥ 16 then .next t
      else match firstEnded x with
        | some c => completeCmd t q c
        | none => .next t

/-- COMPLETION_WRITE_FAULT (R221). -/
def execCompletionWriteFault (q : QueueId) (s : State) : Out :=
  let x := s.queueOf q
  if !x.wfault || s.obs.fatal != 0 then .next s
  else
    let st := if x.state = .draining then QState.draining else .orphaned
    let s := raiseVector (s.setQueue q { x with state := st, reason := 0, wfault := false, orphan := true, since := none }) (s.field .fe 0 0x108 5 11)
    match (s.queueOf q).held with
    | [] => .next s
    | h :: rest => match putOrphan s h.word with
      | some t => .next (t.setQueue q { t.queueOf q with held := rest })
      | none => .next s

/-- A write of DB.CQ_HEAD frees ring space and releases held records (R219); none is written after a fatal error (R389). -/
def writeCqHead (s : State) (q v : Nat) : State :=
  let s := s.setQueue q { s.queueOf q with cqHead := v }
  if s.obs.fatal = 0 then drainHeld 17 s q else s

/-- A write of DB.TAIL (R210): `none` where it is ignored and logged. -/
def writeTail (s : State) (q v : Nat) : Option State :=
  let x := s.queueOf q
  if x.state = .disabled || x.state = .draining || decide ((2 ^ 32 + v - x.tail) % 2 ^ 32 ≥ 2 ^ 31) then none
  else if (2 ^ 32 + v - x.head) % 2 ^ 32 > 2 ^ x.log then some (stopQueue s q 2 0)
  else some (s.setQueue q { x with tail := v })

/-! Timeouts (R217) -/

/-- A sequencer told to abort a list issues nothing more of it, and drains (R240). -/
def abortSeq (q n : Nat) (s : State) (m : Nat) : State :=
  let x := s.seqOf m
  if x.state = .idle || x.state = .drain || x.queue ≠ q || x.cmd ≠ n then s
  else s.setSeq m { x with state := .drain, ending := some ⟨stAborted, 0, 0⟩ }

/-- Tells the engines of a command to abort: arrays with their vector engines, update units, and the sequencers of its list. -/
def abortEngines (s : State) (q : Nat) (c : Cmd) : State :=
  let s := c.engines.foldl (fun s e =>
    if e < 20 then rampIfEmpty ((s.setArr e { s.arrOf e with abort := true }).setVec e { s.vecOf e with abort := true }) e
    else if 0x30 ≤ e && e < 0x48 then
      { s with nmu := tabMod {} s.nmu (e - 0x30) fun u => { u with abort := true } }
    else s) s
  (List.range 26).foldl (abortSeq q c.n) s

/-- Tells the engines of a command to abort; a command with none ends at once. A catalogue load that has begun, for which R229 names
no abort point, ends with its last entry; one that has not begun is given up (log entry 201). -/
def abortCmd (s : State) (q : Nat) (c : Cmd) (status : Nat) : State :=
  let s := abortEngines s q c
  let s := match s.pair.waiting with
    | some (q', n, _, _) => if q' = q && n = c.n then { s with pair := { s.pair with waiting := none } } else s
    | none => s
  let s := if s.pair.binding == some (q, c.n) then freshPair s {} else s
  let loads := s.cat.load.any fun l => l.begun && l.queue == q && l.cmd == c.n
  let s := if loads then s else { s with cat := { s.cat with load := s.cat.load.filter fun l => !(l.queue == q && l.cmd == c.n) } }
  updCmd s q c.n fun c =>
    let c := { c with aborted := true, abortStatus := status }
    if c.engines.isEmpty && !loads then { c with acted := true, ended := true, status := status, info := infoWord 0xFF 0 0 } else c

/-- The oldest command whose time is up. -/
def timedOut (s : State) (x : Queue) : Option Cmd :=
  x.cmds.find? fun c => c.started && !c.ended && !c.aborted && decide (s.gtime ≥ c.start + 1000 * x.timeout)

/-- COMMAND_TIMEOUT. -/
def execCommandTimeout (q : QueueId) (s : State) : Out :=
  let x := s.queueOf q
  if x.timeout = 0 || !s.feRuns then .next s
  else match timedOut s x with
    | some c => .next (abortCmd s q c stTimeout)
    | none =>
      if x.state ≠ .waiting then .next s
      else match nextToStart s q with
        | none => .next s
        | some c =>
          if s.gtime ≥ c.waitSince + 1000 * x.timeout then
            .next (endCmd (updCmd (s.setQState q .running) q c.n fun c => { c with started := true, start := c.waitSince }) q c.n
              stTimeout (infoWord 0xFF 0 0))
          else .next s

end Sys2Proof.Machine
end

