-- ==== Sys2Proof/Machine/Memory.lean ====
section
/-!
DEFINITION. The memory controllers, their protection engines and the device MMU (R157–R179): single accesses, errors and
retirement, patrol, translation with its walks, and invalidation.
Rows of notes/assumptions: DEDUCED 4, 29, 33, 34, 35, 112, 153; DESIGN CHOICE 31, 32, 164, 180.
-/
namespace Sys2Proof.Machine

open Sys2Proof

/-! Accesses -/

/-- A controller serves a read: the block as the stacks hold it is the model's record beside the data. -/
def mcRead (s : State) (owner pa len : Nat) : State :=
  let (s, r) := devRead s owner pa len
  { s with mem := { s.mem with lastData := r.bytes, lastPoison := r.poison, lastBlock := s.heldBlock (pa / 256), lastMeta := s.heldMeta (pa / 256) } }

/-- A controller serves a write: the ciphertext, the tag and the metadata go to the stacks. -/
def mcWrite (s : State) (owner pa : Nat) (data : List Byte) : State :=
  let (s, _) := devWrite s owner pa data
  { s with mem := { s.mem with lastBlock := s.heldBlock (pa / 256), lastMeta := s.heldMeta (pa / 256) } }

/-- MC_READ (R168, R172, R174, R175): bytes of one 256 B block, under an owner's key set, with the block as the stacks hold it. One
to a row that is being copied waits. -/
def execMcRead (owner : Fin 65) (pa : Nat) (len : Nat) (s : State) : Out :=
  if !inDevice pa len then .fault .noSuchAddress
  else if s.pins.inReset then .next s
  else .next (if rowBusy s pa then memWaits s (.read owner pa len) else mcRead s owner pa len)

/-- MC_WRITE (R165–R167, R169, R174, R175): the ciphertext and the tag go to the stacks. One to a row that is being copied waits. -/
def execMcWrite (owner : Fin 65) (pa : Nat) (data : List Byte) (s : State) : Out :=
  if !inDevice pa data.length then .fault .noSuchAddress
  else if s.pins.inReset then .next s
  else .next (if rowBusy s pa then memWaits s (.write owner pa data) else mcWrite s owner pa data)

/-! Errors and retirement -/

/-- Spare rows of a channel (R158). -/
def spareRows : Nat := 2304

/-- Recomputes MC.SPARE: the fewest free spare rows of any channel of a stack, and the first channel that has them (R177). -/
def showSpare (s : State) (st : Nat) : State :=
  let used := fun c => tabGet 0 s.mem.spares (32 * st + c)
  let best := (List.range 32).foldl (fun b c => if used c > used b then c else b) 0
  s.setReg .mc st 0x110 (pack [(0, 12, spareRows - used best), (12, 5, best)])

/-- Begins to retire a row: its copy takes a spare; a row that finds none left is counted once (R174, R177). -/
def retireRow (s : State) (r : RowCopy) : State :=
  let st := r.chan / 32
  if s.mem.copies.contains r then s
  else if s.mem.unretired.contains r then s
  else if tabGet 0 s.mem.spares r.chan ≥ spareRows then
    { s with mem := { s.mem with unretired := r :: s.mem.unretired } }.bump .mc st 0x114 1
  else showSpare { s with mem := { s.mem with copies := s.mem.copies ++ [r]
                                              spares := tabMod 0 s.mem.spares r.chan (· + 1)
                                              rowErr := tabSet 0 s.mem.rowErr (2 ^ 24 * r.chan + r.row) 0 } } st

/-- The record of an event of a memory controller (R176, R385): events 0 corrected, 1 uncorrectable, 2 channel retired,
3 interface error retried. -/
def mcErr (ch ev sev pa : Nat) : Err :=
  { sev := sev, unit := ch, addr := Config.errAddr (blockCode .mc) ev pa, info := Config.errInfo (blockCode .mc) ev pa }

/-- Records it. -/
def mcRecord (s : State) (st ch ev sev pa : Nat) : State := capture s .mc st (mcErr ch ev sev pa)

/-- A corrected unit (R172–R174), without its record. -/
def eccCorrected (s : State) (pa : Nat) : State :=
  let (st, ch, _, _) := placeOf s.dlocal pa
  let r := rowAt s pa
  let key := 2 ^ 24 * r.chan + r.row
  let s := s.bump .mc st (0x200 + 4 * ch) 1
  let s := { s with
    mem := { s.mem with rowErr := tabMod 0 s.mem.rowErr key (· + 1)
                        writeback := if s.mem.writeback.contains (pa / 64) then s.mem.writeback else s.mem.writeback ++ [pa / 64] }
    life := { s.life with eccCorr := tabMod 0 s.life.eccCorr r.chan fun v => satAdd 32 v 1 } }
  let thresh := s.field .mc st 0x108 0 8
  if thresh ≠ 0 ∧ tabGet 0 s.mem.rowErr key ≥ thresh then retireRow s r else s

/-- An uncorrectable unit (R172, R174), without its record. -/
def eccUncorrectable (s : State) (pa : Nat) : State :=
  let (st, ch, _, _) := placeOf s.dlocal pa
  let s := s.bump .mc st (0x280 + 4 * ch) 1
  let s := poisonUnits s [pa]
  if (s.reg .mc st 0x108).testBit 8 then retireRow s (rowAt s pa) else s

/-- How many symbols of a unit are in error. -/
def UnitErr.count (e : Sys2Proof.UnitErr) : Nat := ((List.range 69).filter fun k => e.symbols.any fun x => x.val == k).length

/-- What the code finds of a unit, 0 nothing, 1 one corrected symbol, 2 an uncorrectable unit: it corrects any one symbol and detects
any two (R172), and nothing says what it finds of more (log entry 180). -/
def rsFinds (s : State) (e : Sys2Proof.UnitErr) : Nat := if UnitErr.count e ≤ 2 then UnitErr.count e else Config.rsBeyond s.draws % 3

/-- Whether the bytes that a tag covers, the 64 B of ciphertext and the 2 B tag share, differ and are left so: in an uncorrectable unit
that differs there, or in one that the code takes for another (R168, R169, R172). -/
def spoilsTag (s : State) (e : Sys2Proof.UnitErr) : Bool :=
  if rsFinds s e = 2 then e.symbols.any fun k => decide (k.val < 66) else decide (UnitErr.count e ≥ 3)

/-- The copies of a unit's poison bit as they now stand; a block whose bytes under the tag have changed agrees with no tag. -/
def upsetUnit (s : State) (pa : Nat) (e : Sys2Proof.UnitErr) : State :=
  let b := tabGet {} s.mem.blks (pa / 256)
  let u := pa % 256 / 64
  let tag := if spoilsTag s e then none else b.tag
  let s := if UnitErr.count e ≥ 3 then { s with draws := s.draws + 1 } else s
  s.setBlk (pa / 256) { tag := tag, poison := b.poison ^^^ (2 ^ (3 * u) * e.copies.val) }

/-- What a memory controller does with a unit it reads, and the record it makes (R172). -/
def eccEffect (s : State) (pa : Nat) (e : Sys2Proof.UnitErr) : State × List (Block × Nat × Err) :=
  let (st, ch, _, _) := placeOf s.dlocal pa
  match rsFinds s e with
  | 0 => (upsetUnit s pa e, [])
  | 1 => (eccCorrected (upsetUnit s pa e) pa, [(.mc, st, mcErr ch 0 sevCorrected pa)])
  | _ => (eccUncorrectable (upsetUnit s pa e) pa, [(.mc, st, mcErr ch 1 sevFailed pa)])

/-- MC_ECC_ERROR (R172, R174): of the unit that holds a physical address. A retired channel is not read (R175). -/
def execMcEccError (pa : Nat) (err : Sys2Proof.UnitErr) (s : State) : Out :=
  if !inDevice pa 1 then .fault .noSuchAddress
  else if s.pins.inReset || s.chanRetired pa || rowBusy s pa then .next s
  else
    let (t, es) := eccEffect s pa err
    .next (captureAll t es)

/-- ECC_CORRECTED_WRITEBACK (R172). -/
def execEccCorrectedWriteback (pa : Nat) (s : State) : Out :=
  if !inDevice pa 1 then .fault .noSuchAddress
  else if s.pins.inReset then .next s
  else .next { s with mem := { s.mem with writeback := s.mem.writeback.filter (· != pa / 64) } }

/-- The time between the ends of two patrol passes, in ns (R173). -/
def patrolPeriod (s : State) (st : Nat) : Nat := s.field .mc st 0x10C 0 16 * 3600000000000

/-- MC_PATROL (R173, R386): the end of a pass over a stack, due once per PATROL_CFG.HOURS, with the units it found to differ and how.
The count of corrected errors of every row starts again with the next pass. -/
def execMcPatrol (st : StackId) (units : List Nat) (errs : List Sys2Proof.UnitErr) (s : State) : Out :=
  if s.pins.inReset || patrolPeriod s st = 0 || decide (s.gtime < tabGet 0 s.mem.patrolAt st + patrolPeriod s st) then .next s
  else
    let here := fun (pa : Nat) => inDevice pa 1 && (placeOf s.dlocal pa).1 == st.val && !s.chanRetired pa
    let (t, es) := ((units.zip errs).filter fun x => here x.1).foldl (fun (r : State × List (Block × Nat × Err)) x =>
      let (t, e) := eccEffect r.1 x.1 x.2
      (t, r.2 ++ e)) (s, [])
    let t := captureAll t es
    .next { t with mem := { t.mem with rowErr := tabErase (fun k => k / 2 ^ 24 / 32 == st.val) t.mem.rowErr,
                                       patrolAt := tabSet 0 t.mem.patrolAt st s.gtime } }

/-- MC.STATE of a stack out of training, by the channels retired (R177): RUN, DEGRADED or OFFLINE. -/
def mcState (mask : Nat) : Nat := if mask = 0 then 1 else if mask = max32 then 3 else 2

/-- Retires a channel (R175). -/
def retireChannel (s : State) (st ch : Nat) : State :=
  let mask := s.reg .mc st 0x104 ||| 2 ^ ch
  let s := s.setReg .mc st 0x104 mask
  let s := s.setReg .mc st 0x100 (mcState mask)
  let s := { s with life := { s.life with retiredCh := tabMod 0 s.life.retiredCh st (· ||| 2 ^ ch) } }
  mcRecord s st ch 2 sevFailed ch

/-- MC_INTERFACE_ERROR (R175): an attempt of a transfer fails, `first` its first attempt. Eight failures are retried; the
ninth retires the channel. -/
def execMcInterfaceError (st : StackId) (ch : Fin 32) (first : Bool) (s : State) : Out :=
  let k := 32 * st.val + ch.val
  if s.pins.inReset || (s.reg .mc st 0x104).testBit ch then .next s
  else
    let n := (if first then 0 else tabGet 0 s.mem.ifTry k) + 1
    if n ≥ 9 then
      .next (retireChannel { s with mem := { s.mem with ifTry := tabSet 0 s.mem.ifTry k 0 } } st ch)
    else
      .next (mcRecord ({ s with mem := { s.mem with ifTry := tabSet 0 s.mem.ifTry k n } }.bump .mc st 0x118 1) st ch 3 sevCorrected ch)

/-! Translation -/

/-- The requesters of R179. -/
def walkOf (die : DieId) (req : Fin 5) (c : CtxId) (va : Nat) (write : Bool) : Walk := ⟨die, req, c, va, write, false⟩

def State.answerX (s : State) (a : XAns) : State := { s with mmu := { s.mmu with answer := some a } }

/-- MMU_TRANSLATE (R163, R164): a TLB hit answers, a miss starts a walk where one of the die's sixteen walkers is free. -/
def execMmuTranslate (die : DieId) (req : Fin 5) (c : CtxId) (va : Nat) (write : Bool) (s : State) : Out :=
  let hit := if va < 2 ^ 48 && s.reg .mmu 0 (0x200 + 8 * c) % 2 == 1 then tlbFind s die c va else none
  if s.pins.inReset then .next s
  else match hit with
  | some e =>
    if write && !e.w then .next ((latchFault s die req c va fWriteProtect write).answerX (.fault fWriteProtect))
    else .next (s.answerX (.pa (e.pa + va % 2 ^ e.log)))
  | none =>
    let w := walkOf die req c va write
    if decide ((s.mmu.walks.filter fun x => x.die == die.val).length ≥ 16) || s.mmu.walks.contains w then .next s
    else .next { s with mmu := { s.mmu with walks := s.mmu.walks ++ [w] } }

/-- PAGE_WALK_DONE (R162–R164): the walk fills the TLB or latches its fault. A walk that an invalidation covers is
discarded and begins again. -/
def execPageWalkDone (die : DieId) (req : Fin 5) (c : CtxId) (va : Nat) (write : Bool) (s : State) : Out :=
  let w := walkOf die req c va write
  if s.mmu.walks.contains w then
    match translate { s with mmu := { s.mmu with walks := s.mmu.walks.filter (· != w) } } die req c va write with
    | (_, .wait) => .next s
    | (s, a) => .next (s.answerX a)
  else if s.mmu.walks.contains { w with discard := true } then
    .next { s with mmu := { s.mmu with walks := (s.mmu.walks.filter (· != { w with discard := true })) ++ [w] } }
  else .next s

/-- Starts an invalidation (R164): covered entries leave every TLB and walk cache, covered walks will be discarded. -/
def startInval (s : State) (v : Inval) : State :=
  { s with mmu := { s.mmu with
      inval := some v
      tlb := (s.mmu.tlb.map fun t => (t.1, t.2.filter fun e => !v.covers e.ctx e.va e.log)).filter fun t => !t.2.isEmpty
      walkCache := (s.mmu.walkCache.map fun t => (t.1, t.2.filter fun p => !v.covers p.ctx (2 ^ 30 * p.vaHi) 30)).filter
        fun t => !t.2.isEmpty
      walks := s.mmu.walks.map fun w => if v.coversWalk w.ctx then { w with discard := true } else w } }

/-- A write of MMU.INVAL (R179): `none` while an invalidation is in progress. -/
def writeInval (s : State) (v : Nat) : Option State :=
  if s.mmu.inval.isSome then none
  else
    let s := s.setReg .mmu 0 0x104 (bits v 0 8)
    if bits v 0 2 = 0 then some s
    else some (startInval s ⟨bits v 0 2, bits v 2 6, s.reg .mmu 0 0x108 + 2 ^ 32 * s.field .mmu 0 0x10C 0 16, none⟩)

/-- A write of MMU.MAP (R161, R179): only with no context resident, and only 0 to 69. A change moves every physical address,
so every block is as never written. -/
def writeMap (s : State) (v : Nat) : Option State :=
  let k := bits v 0 7
  if k > 69 || s.ctx.any fun e => e.2.resident then none
  else if k = s.dlocal then some s
  else some { s.setReg .mmu 0 0x100 k with mem := { s.mem with blks := [] } }

end Sys2Proof.Machine
end

