-- ==== Sys2Proof/Machine/Nmu.lean ====
section
/-!
DEFINITION. The near-memory update units (R180–R194): stripes, update descriptors and their checks, the arithmetic of one
update, and a unit's progress through its list. MIRROR_DEPOSIT, MIRROR_SEND and MIRROR_REDO run on the same units.
Rows of notes/assumptions: DEDUCED 80, 81, 82, 83, 84; DESIGN CHOICE 216.
-/
namespace Sys2Proof.Machine

open Sys2Proof

def State.nmuOf (s : State) (u : Nat) : Nmu := tabGet {} s.nmu u
def State.setNmu (s : State) (u : Nat) (v : Nmu) : State := { s with nmu := tabSet {} s.nmu u v }

/-! Stripes (R182) -/

/-- Where bytes [k, k + len) of a portion at `a` lie: (address, bytes). -/
def stripePieces (a k len : Nat) : List (Nat × Nat) :=
  let o := a % 512 + k
  if len = 0 then []
  else (List.range ((o + len - 1) / 512 + 1 - o / 512)).map fun i =>
    let b := o / 512 + i
    let lo := max (512 * b) o
    (a - a % 512 + 1536 * b + (lo - 512 * b), min (512 * (b + 1)) (o + len) - lo)

/-! Descriptors (R185, R186) -/

def uOpt (word : Nat) : Nat := bits word 0 3
def uFmtG (word : Nat) : Nat := bits word 3 5
def uFp32 (word : Nat) : Bool := bits word 8 5 == 0
def uSr (word : Nat) : Bool := word.testBit 13
def uMirror (word : Nat) : Bool := word.testBit 14
def uClose (word : Nat) : Bool := word.testBit 15

def uW (d : Nat) : Nat := fld d 0x00 0 64
def uW2 (d : Nat) : Nat := fld d 0x08 0 64
def uG (d : Nat) : Nat := fld d 0x10 0 64
def uS (d : Nat) : Nat := fld d 0x18 0 64
def uM1 (d : Nat) : Nat := fld d 0x20 0 64
def uM2 (d : Nat) : Nat := fld d 0x28 0 64
def uIndex (d : Nat) : Nat := fld d 0x30 0 64
def uParams (d : Nat) : Nat := fld d 0x38 0 14

/-- The gradient format. -/
def uGfmt (word : Nat) : Fmt := (fmtOf (uFmtG word)).getD .bf16

/-- Bytes of the gradient's group scales in the scale record. -/
def uGscales (word d : Nat) : Nat :=
  let f := uGfmt word
  if isIeee f then 0 else uParams d / groupSize f * scaleBytes f

/-- Moments stored as Ledger codes: how many (R186). -/
def uMoments (word : Nat) : Nat := if uOpt word = 0 then 2 else if uOpt word = 3 then 0 else 1

/-- Bytes of one moment's scales. -/
def uMscales (d : Nat) : Nat := uParams d / 128 * 2

/-- The weight portions of a descriptor: (address, bytes). -/
def uWeightPortions (word d : Nat) : List (Nat × Nat) :=
  let p := uParams d
  if uFp32 word then (uW d, 4 * min p 4096) :: (if p > 4096 then [(uW2 d, 4 * (p - 4096))] else []) else [(uW d, 2 * p)]

/-- The gradient portion. -/
def uGradPortion (word d : Nat) : Nat × Nat := (uG d, if isIeee (uGfmt word) then 2 * uParams d else uParams d)

/-- The moment portions. -/
def uMomentPortions (word d : Nat) : List (Nat × Nat) :=
  (if uMoments word ≥ 1 then [(uM1 d, uParams d)] else []) ++ (if uMoments word = 2 then [(uM2 d, uParams d)] else []) ++
  (if uOpt word = 3 then [(uM2 d, 768)] else [])

/-- The portions of a descriptor that a unit in a state touches: (address, bytes, written) (R188, R197, R198, R202). -/
def uPortions (st : NmuState) (word d : Nat) : List (Nat × Nat × Bool) :=
  let read := fun (e : Nat × Nat) => (e.1, e.2, false)
  let write := fun (e : Nat × Nat) => (e.1, e.2, true)
  let m := uMoments word
  let gs := uGscales word d
  let sl := gs + m * uMscales d
  match st with
  | .deposit => read (uGradPortion word d) :: (if gs > 0 then [(uS d, gs, false)] else [])
  | .send => (uWeightPortions word d ++ uMomentPortions word d).map read ++ (if m > 0 then [(uS d, sl, false)] else [])
  | _ => (uWeightPortions word d).map write ++ [read (uGradPortion word d)] ++
      (if sl > 0 then [(uS d, sl, decide (m > 0))] else []) ++ (uMomentPortions word d).map write

/-- The addresses that are translated before a block is touched: each portion's base, and for a redo, whose portions may lie
anywhere (R202), each piece. -/
def uTouched (st : NmuState) (word d shift : Nat) : List (Nat × Bool) :=
  (uPortions st word d).flatMap fun p =>
    if st = .redo then (stripePieces p.1 0 p.2.1).map fun q => ((q.1 + shift) % 2 ^ 48, p.2.2) else [(p.1, p.2.2)]

/-- The first failing check of a descriptor that its own bytes decide (R192). -/
def uCheck (word d : Nat) : Option Nat :=
  let va := [uW d, uW2 d, uG d, uS d, uM1 d, uM2 d]
  let p := uParams d
  if fld d 0x38 14 50 ≠ 0 || va.any (fun a => decide (a ≥ 2 ^ 48)) || (!uFp32 word && uW2 d != 0) then some 1
  else if (if uOpt word = 3 then uM1 d != 0 || uM2 d == 0
      else uM1 d == 0 || (if uOpt word = 0 then uM2 d == 0 else uM2 d != 0)) then some 2
  else if p < 128 || decide (p > 8192) || p % 128 ≠ 0 || (uOpt word == 3 && p != 8192) then some 3
  else if [uW d, uW2 d, uG d, uM1 d, uM2 d].any (fun a => a % 512 != 0) || uS d % 64 ≠ 0 then some 4
  else none

/-! Access -/

/-- Reads the pieces of a portion. -/
def nmuRead (s : State) (u c shift : Nat) : List (Nat × Nat) → State × Acc
  | [] => (s, .ok [] [])
  | (a, n) :: ps =>
    match memRead s (agNmu u) (u / 6) reqNmu c ((a + shift) % 2 ^ 48) n with
    | (s, .ok b p) =>
      let (s, r) := nmuRead s u c shift ps
      (s, joinAcc (.ok b p) r)
    | (s, a) => (s, a)

/-- Writes bytes to the pieces of a portion. -/
def nmuWrite (s : State) (u c shift : Nat) (data : List Byte) : List (Nat × Nat) → State × Acc
  | [] => (s, .ok [] [])
  | (a, n) :: ps =>
    match memWrite s (agNmu u) (u / 6) reqNmu c ((a + shift) % 2 ^ 48) (data.take n) with
    | (s, .ok _ _) => nmuWrite s u c shift (data.drop n) ps
    | (s, a) => (s, a)

/-- Writes several portions in order. -/
def nmuWrites (s : State) (u c shift : Nat) : List (List Byte × List (Nat × Nat)) → State × Acc
  | [] => (s, .ok [] [])
  | (data, ps) :: ws =>
    match nmuWrite s u c shift data ps with
    | (s, .ok _ _) => nmuWrites s u c shift ws
    | (s, a) => (s, a)

/-- Translates addresses: whether all are mapped, or nothing while a walk waits (R174); the fault code is TRANSLATION where one
fails (R192). -/
def uTranslate (s : State) (u c : Nat) : List (Nat × Bool) → State × Option Bool
  | [] => (s, some true)
  | (a, w) :: ps =>
    match translate s (u / 6) reqNmu c a w with
    | (s, .fault _) => (s, some false)
    | (s, .wait) => (s, none)
    | (s, .pa _) => uTranslate s u c ps

/-- Whether a portion lies within one page and on the unit's own stack (R181, R182). -/
def placedOk (s : State) (u c : Nat) (p : Nat × Nat × Bool) : Bool :=
  match tlbFind s (u / 6) c p.1 with
  | none => false
  | some e =>
    let ps := stripePieces p.1 0 p.2.1
    ps.all fun q =>
      q.1 / 2 ^ e.log == p.1 / 2 ^ e.log && decide (e.pa < hostBase) &&
        (placeOf s.dlocal (e.pa + q.1 % 2 ^ e.log)).1 == u

/-! Arithmetic (R187, R188) -/

/-- An FP32 code with the flags raised in forming it. -/
abbrev FR := Nat × Nat

def nVal (x : FR) : Val := ieeeVal fp32 x.1
def nRound (e : Ex) (f : Nat) : FR := let (c, g) := ieeeRound fp32 .rne false e; (c, f ||| g)
def nMul (a b : FR) : FR := let (e, f) := mulV (nVal a) (nVal b); nRound e (f ||| a.2 ||| b.2)
def nAdd (a b : FR) : FR := let (v, f) := addV false (nVal a) (nVal b); nRound (exOf v) (f ||| a.2 ||| b.2)
def nFma (a b c : FR) : FR := let (v, f) := fmaV false (nVal a) (nVal b) (nVal c); nRound (exOf v) (f ||| a.2 ||| b.2 ||| c.2)
/-- A quotient. DZ reads 0 outside the vector engines (R49). -/
def nDiv (a b : FR) : FR :=
  let (e, f) := divV (nVal a) (nVal b)
  nRound e ((f &&& fNV) ||| a.2 ||| b.2)
def nSqrt (a : FR) : FR := let (e, f) := sqrtV (nVal a); nRound e (f ||| a.2)
/-- The exact sum of terms, rounded once (R120). -/
def nSum (xs : List FR) : FR :=
  let (v, f) := sumV (xs.map nVal)
  nRound (exOf v) (xs.foldl (fun a x => a ||| x.2) f)

/-- FP32 of a small whole number. -/
def nOfNat (n : Nat) : FR := nRound (.fin false n 1 0) 0
def nOne : FR := (0x3F800000, 0)

/-- sgn of R188. -/
def nSgn (m : FR) : FR :=
  let v := nVal m
  if isNan v || isZero v then m else if negOf v then (0xBF800000, m.2) else (0x3F800000, m.2)

/-- Hyperparameter i of R184. -/
def hypOf (h : List Nat) (i : Nat) : FR := (h.getD i 0, 0)
def hNLR : Nat := 0
def hNLRWD : Nat := 1
def hB1 : Nat := 2
def hOMB1 : Nat := 3
def hB2 : Nat := 4
def hOMB2 : Nat := 5
def hBC2 : Nat := 6
def hEPS : Nat := 7
def hMAXNORM : Nat := 8
def hEPS2 : Nat := 9

/-- The clipping factor from the sum of squares; the flags alone where the command ends NONFINITE_NORM: a signalling NaN that is read
sets NV (R34, R187). -/
def clipFactor (h : List Nat) (q : Option Nat) : Except Nat FR :=
  match q with
  | none => .ok nOne
  | some q =>
    let v := ieeeVal fp32 q
    if isNan v || isInf v || (negOf v && !isZero v) then .error (sigFlag [v])
    else
      let n := nSqrt (q, 0)
      let m := hypOf h hMAXNORM
      .ok (if !isNan (nVal m) && cmpV (nVal n) (nVal m) ≤ 0 then (0x3F800000, n.2) else nDiv m n)

/-- The weight's last step: w ← fma(NLR, u, fma(NLRWD, w, w)). -/
def wStep (h : List Nat) (w u : FR) : FR := nFma (hypOf h hNLR) u (nFma (hypOf h hNLRWD) w w)

/-- One parameter under AMW, momentum SGD or sign momentum: new weight and moments. -/
def paramStep (opt : Nat) (h : List Nat) (w g m v : FR) : FR × FR × FR :=
  match opt with
  | 0 =>
    let m := nFma (hypOf h hB1) m (nMul (hypOf h hOMB1) g)
    let v := nFma (hypOf h hB2) v (nMul (hypOf h hOMB2) (nMul g g))
    let u := nDiv m (nAdd (nSqrt (nMul v (hypOf h hBC2))) (hypOf h hEPS))
    (wStep h w u, m, v)
  | 1 =>
    let m := nFma (hypOf h hB1) m g
    (wStep h w m, m, v)
  | _ =>
    let m := nFma (hypOf h hB1) m (nMul (hypOf h hOMB1) g)
    (wStep h w (nSgn m), m, v)

/-- A list cut into runs of `n`. -/
def chunksOf {α : Type} (n : Nat) : Nat → List α → List (List α)
  | 0, _ => []
  | fuel + 1, xs => if xs.isEmpty then [] else xs.take n :: chunksOf n fuel (xs.drop n)

/-- The factored optimiser over one block of 64 rows of 128: new weights, R and C (R188). -/
def factoredStep (h : List Nat) (ws gs r c : List FR) : List FR × List FR × List FR :=
  let hs := gs.map fun g => nFma g g (hypOf h hEPS2)
  let rows := chunksOf 128 64 hs
  let r' := List.zipWith (fun old row =>
    nFma (hypOf h hB2) old (nMul (hypOf h hOMB2) (nDiv (nSum row) (nOfNat 128)))) r rows
  let c' := (List.range 128).map fun j =>
    nFma (hypOf h hB2) (c.getD j (0, 0)) (nMul (hypOf h hOMB2) (nDiv (nSum (rows.map fun row => row.getD j (0, 0))) (nOfNat 64)))
  let rm := nDiv (nSum r') (nOfNat 64)
  let ws' := (List.zipWith (fun ri (wg : List (FR × FR)) => List.zipWith (fun cj (e : FR × FR) =>
      let v := nDiv (nMul ri cj) rm
      wStep h e.1 (nDiv e.2 (nSqrt (nMul v (hypOf h hBC2))))) c' wg)
    r' (chunksOf 128 64 (List.zip ws gs))).flatten
  (ws', r', c')

/-! Operand and result encodings (R187, R189, R190) -/

/-- Codes decoded to FP32 and rounded once; a signalling NaN that is read sets NV (R34). -/
def decodeFr (f : Fmt) (codes scales : List Nat) : List FR :=
  (decodeRow f codes scales).map fun (v, fl) => nRound (exOf v) (fl ||| sigFlag [v])

/-- The scale of a group of new moments (R189). -/
def momentScale (xs : List FR) : Nat :=
  let big := (xs.map fun x => x.1 % 2 ^ 31).foldl (fun m a => if a < 0x7F800000 then max m a else m) 0
  min (ceilDiv big 65536) 0x7F7F

/-- A group encoded as LG8S, or LG8U: its scale, codes and flags (R43, R189). -/
def encodeGroup (unsigned : Bool) (xs : List FR) : Nat × List Nat × Nat :=
  let s := momentScale xs
  if unsigned then
    let bad := xs.filterMap fun x => lg8uBad (nVal x)
    if !bad.isEmpty then (0x7FC0, xs.map fun _ => 0, bad.foldl (· ||| ·) 0)
    else
      let es := xs.map fun x => match nVal x with
        | .fin _ m e => encodeLG8U m e s
        | _ => (0, 0)
      (s, es.map (·.1), es.foldl (fun a e => a ||| e.2) 0)
  else
    let es := xs.map fun x => encodeLG8S (nVal x) s
    (s, es.map (·.1), es.foldl (fun a e => a ||| e.2) 0)

/-- A whole moment: its codes, its scales and the flags. -/
def encodeMoment (unsigned : Bool) (xs : List FR) : List Byte × List Byte × Nat :=
  let gs := (chunksOf 128 (xs.length / 128 + 1) xs).map (encodeGroup unsigned)
  ((gs.flatMap fun g => g.2.1).map (BitVec.ofNat 8), gs.flatMap fun g => leBytes g.1 2, gs.foldl (fun a g => a ||| g.2.2) 0)

/-- A new weight as stored: its code and flags (R190). -/
def storeWeight (word : Nat) (k : NmuCmd) (idx : Nat) (w : FR) : Nat × Nat :=
  if uFp32 word then (w.1, w.2)
  else
    let mode := if uSr word then RM.sr (srDraw k.seed k.step k.stream idx) else .rne
    let (c, f) := ieeeRound bf16 mode false (exOf (nVal w))
    (c, f ||| w.2)

/-- Whether a stored weight is a NaN or an infinity. -/
def nonfinite (word c : Nat) : Bool := if uFp32 word then bits c 23 8 == 255 else bits c 7 8 == 255

/-- A block's update: what is written where, in the order of R191; the flags; the weights written as NaN or infinity. -/
def blockUpdate (k : NmuCmd) (d : Nat) (w g sc m1 m2 : List Byte) : List (List Byte × List (Nat × Nat)) × Nat × Nat :=
  let word := k.word
  let p := uParams d
  let gs := uGscales word d
  let ms := uMscales d
  let fw := if uFp32 word then fp32 else bf16
  let wb := if uFp32 word then 32 else 16
  let ws : List FR := (unpackCodes wb (leNat w) p).map fun c => nRound (exOf (ieeeVal fw c)) (sigFlag [ieeeVal fw c])
  let gf := uGfmt word
  let gcodes := unpackCodes (if isIeee gf then 16 else 8) (leNat g) p
  let graw := decodeFr gf gcodes (unpackCodes (8 * scaleBytes gf) (leNat (sc.take gs)) (gs / scaleBytes gf))
  let grads := graw.map fun x => nMul x (k.clip, 0)
  let mscale := fun (i : Nat) => unpackCodes 16 (leNat ((sc.drop (gs + i * ms)).take ms)) (p / 128)
  let opt := uOpt word
  let out : List FR × List (List Byte × List (Nat × Nat)) × List (List Byte × List (Nat × Nat)) × Nat :=
    if opt = 3 then
      let rc : List FR := (unpackCodes 32 (leNat m2) 192).map fun c => (c, sigFlag [ieeeVal fp32 c])
      let (ws', r', c') := factoredStep k.hyp ws grads (rc.take 64) (rc.drop 64)
      let bytes := (r' ++ c').flatMap fun x => leBytes x.1 4
      (ws', [(bytes, stripePieces (uM2 d) 0 768)], [], (r' ++ c').foldl (fun a x => a ||| x.2) 0)
    else
      let f1 := if opt = 0 then Fmt.lg8s else .lg8s
      let ms1 := decodeFr f1 (unpackCodes 8 (leNat m1) p) (mscale 0)
      let vs := if opt = 0 then decodeFr .lg8u (unpackCodes 8 (leNat m2) p) (mscale 1) else ms1.map fun _ => (0, 0)
      let rs := List.zipWith (fun (wg : FR × FR) (mv : FR × FR) => paramStep opt k.hyp wg.1 wg.2 mv.1 mv.2)
        (List.zip ws grads) (List.zip ms1 vs)
      let (c1, s1, fl1) := encodeMoment false (rs.map fun r => r.2.1)
      let (c2, s2, fl2) := if opt = 0 then encodeMoment true (rs.map fun r => r.2.2) else ([], [], 0)
      let fl := rs.foldl (fun a r => a ||| r.2.1.2 ||| r.2.2.2) (fl1 ||| fl2)
      (rs.map (·.1),
        (c1, stripePieces (uM1 d) 0 p) :: (if opt = 0 then [(c2, stripePieces (uM2 d) 0 p)] else []),
        [(s1 ++ s2, stripePieces (uS d) gs (s1 ++ s2).length)], fl)
  let (ws', codesW, scalesW, fl) := out
  let stored := (List.range ws'.length).zip ws' |>.map fun e => storeWeight word k ((uIndex d + e.1) % 2 ^ 64) e.2
  let wbytes := stored.flatMap fun x => leBytes x.1 (wb / 8)
  let weights := if uFp32 word then
      (wbytes.take (4 * min p 4096), stripePieces (uW d) 0 (4 * min p 4096)) ::
        (if p > 4096 then [(wbytes.drop (4 * 4096), stripePieces (uW2 d) 0 (4 * (p - 4096)))] else [])
    else [(wbytes, stripePieces (uW d) 0 (2 * p))]
  (weights ++ codesW ++ scalesW, stored.foldl (fun a x => a ||| x.2) fl, (stored.filter fun x => nonfinite word x.1).length)

/-! A unit's list -/

/-- The units that still work for the command. -/
def nmuOthers (s : State) (u : Nat) : Bool :=
  let k := (s.nmuOf u).cmd
  s.nmu.any fun e => e.1 != u && e.2.state != .idle && e.2.cmd.queue == k.queue && e.2.cmd.cmd == k.cmd

/-- What the units of a command met: the fault of the lowest stack, or else the first skipped block (R192, R193). -/
def nmuVerdict (s : State) (k : NmuCmd) : Option (Nat × EndStatus) :=
  let us := (List.range 24).filter fun u => (s.nmuOf u).cmd.queue == k.queue && (s.nmuOf u).cmd.cmd == k.cmd
  match us.findSome? fun u => (s.nmuOf u).fault.map fun c => (u, (⟨stNmuFault, c, s.reg .nmu u 0x10C⟩ : EndStatus)) with
  | some e => some e
  | none => us.findSome? fun u => (s.nmuOf u).skipped.map fun j => (u, (⟨stPoisoned, 0, j⟩ : EndStatus))

/-- Merges the units' flags at the command's end (R51, R188). -/
def mergeNmu (s : State) (c : Nat) : State :=
  (List.range 24).foldl (fun s u =>
    let x := s.nmuOf u
    mergeFlags (s.setNmu u { x with flags := 0 }) c 3 x.flags) s

/-- Whether every unit of a command has come to the end of its list. -/
def nmuWhole (s : State) (k : NmuCmd) : Bool :=
  (List.range 24).all fun u =>
    let x := s.nmuOf u
    x.cmd.queue != k.queue || x.cmd.cmd != k.cmd || decide (x.next ≥ x.count)

/-- A unit leaves its list. The last one of the command sets the command's status; `close` is what a deposit or a send still
does when nothing went wrong, and then that unit reports later. -/
def nmuLeave (s : State) (u : Nat) (close : State → Nat → State × Bool) : State :=
  let x := s.nmuOf u
  let k := x.cmd
  let s := unitEnd (s.setNmu u { x with state := .idle, desc := none }) (enNmu u)
  if nmuOthers s u then reportEngine s k.queue k.cmd (0x30 + u) none
  else
    let s := mergeNmu s k.ctx
    match nmuVerdict s k with
    | some (v, e) =>
      let s := updCmd s k.queue k.cmd fun c => { c with status := e.status, info := infoWord (0x30 + v) e.code e.detail }
      reportEngine s k.queue k.cmd (0x30 + u) none
    | none =>
      let (s, waits) := if nmuWhole s k then close s u else (s, false)
      if waits then s else reportEngine s k.queue k.cmd (0x30 + u) none

/-- A fault stops a unit at the descriptor it had come to (R192). -/
def nmuFaultAt (s : State) (u code : Nat) (close : State → Nat → State × Bool) : State :=
  let x := s.nmuOf u
  let s := (s.setReg .nmu u 0x108 (code + 16)).setReg .nmu u 0x10C x.next
  nmuLeave (takeAnswers (s.setNmu u { x with fault := some code, refused := false }) (agNmu u)) u close

/-- A unit has dealt with its block. -/
def nmuNext (s : State) (u : Nat) (close : State → Nat → State × Bool) : State :=
  let x := s.nmuOf u
  let s := takeAnswers (unitEnd (s.setNmu u { x with next := x.next + 1, desc := none }) (enNmu u)) (agNmu u)
  if x.next + 1 ≥ x.count then nmuLeave s u close else s

/-- Whether a unit may go on: not held, not aborting (R194). -/
def nmuMay (s : State) (u : Nat) : Bool :=
  (s.nmuOf u).state != .idle && !(s.nmuOf u).abort && !s.engineHeld (enNmu u)

/-- Fetches and checks the next descriptor. -/
def nmuFetch (s : State) (u : Nat) (close : State → Nat → State × Bool) : Out :=
  let x := s.nmuOf u
  let k := x.cmd
  if !nmuMay s u || x.desc.isSome || x.next ≥ x.count then .next s
  else if x.refused then .next (nmuFaultAt s u 7 close)
  else if x.list % 64 ≠ 0 then .next (nmuFaultAt s u 4 close)
  else
    match memRead s (agNmu u) (u / 6) reqNmu k.ctx ((x.list + 64 * x.next + k.shift) % 2 ^ 48) 64 with
    | (t, .wait) => .next (keepRequests s t)
    | (t, .xlate) => .next (nmuFaultAt t u 5 close)
    | (t, .bus) => .next (nmuFaultAt t u 7 close)
    | (t, .ok b p) =>
      let t := takeAnswers t (agNmu u)
      let d := leNat b
      if p.any id then .next (nmuFaultAt t u 7 close)
      else match uCheck k.word d with
        | some c => .next (nmuFaultAt t u c close)
        | none =>
          match uTranslate t u k.ctx (uTouched x.state k.word d k.shift) with
          | (t, some false) => .next (nmuFaultAt t u 5 close)
          | (t, none) => .next (keepRequests s t)
          | (t, some true) =>
            if x.state = .redo || (uPortions x.state k.word d).all (placedOk t u k.ctx) then
              .next (unitBegin (t.setNmu u { t.nmuOf u with desc := some d }) (enNmu u))
            else .next (nmuFaultAt t u 6 close)

/-- The pieces of a descriptor's weight portions. -/
def uWeightPieces (word d : Nat) : List (Nat × Nat) := (uWeightPortions word d).flatMap fun e => stripePieces e.1 0 e.2

/-- Reads runs of pieces one after another. -/
def nmuReads (s : State) (u c shift : Nat) : List (List (Nat × Nat)) → State × Except Acc (List (List Byte) × Bool)
  | [] => (s, .ok ([], false))
  | ps :: rest =>
    match nmuRead s u c shift ps with
    | (s, .ok b p) =>
      match nmuReads s u c shift rest with
      | (s, .ok (bs, bad)) => (s, .ok (b :: bs, p.any id || bad))
      | (s, .error e) => (s, .error e)
    | (s, e) => (s, .error e)

/-- A poisoned operand skips its block whole (R193). -/
def nmuSkip (s : State) (u : Nat) (close : State → Nat → State × Bool) : State :=
  let x := s.nmuOf u
  nmuNext ((s.bump .nmu u 0x110 1).setNmu u { x with skipped := x.skipped.or (some x.next) }) u close

/-- Updates the block in progress: all of it, or none (R188–R193). `after` is what follows the block's writes. -/
def nmuUpdateBlock (s : State) (u d : Nat) (close : State → Nat → State × Bool) (after : State → State × Bool) : Out :=
  let x := s.nmuOf u
  let k := x.cmd
  let p := uParams d
  let m := uMoments k.word
  let gbytes := if isIeee (uGfmt k.word) then 2 * p else p
  let slen := uGscales k.word d + m * uMscales d
  match nmuReads s u k.ctx k.shift [uWeightPieces k.word d, stripePieces (uG d) 0 gbytes, stripePieces (uS d) 0 slen,
      (if m ≥ 1 then stripePieces (uM1 d) 0 p else []),
      (if m = 2 then stripePieces (uM2 d) 0 p else if uOpt k.word = 3 then stripePieces (uM2 d) 0 768 else [])] with
  | (t, .error .wait) => .next (keepRequests s t)
  | (t, .error .xlate) => .next (nmuFaultAt t u 5 close)
  | (t, .error _) => .next (nmuFaultAt t u 7 close)
  | (t, .ok (parts, bad)) =>
    if bad then .next (nmuSkip t u close)
    else
      let g := fun i => parts.getD i []
      let (ws, fl, nf) := blockUpdate k d (g 0) (g 1) (g 2) (g 3) (g 4)
      match nmuWrites t u k.ctx k.shift ws with
      | (t, .wait) => .next (keepRequests s t)
      | (t, .xlate) => .next (nmuFaultAt t u 5 close)
      | (t, .bus) => .next (nmuFaultAt t u 7 close)
      | (t, .ok _ _) =>
        match after t with
        | (t, false) => .next (nmuFaultAt t u 7 close)
        | (t, true) =>
          let t := t.bump .nmu u 0x114 nf
          let t := ctxCount (countEvent t .nmu u 0x38 (some k.ctx) p) k.ctx 7 p
          let y := t.nmuOf u
          .next (nmuNext (t.setNmu u { y with flags := y.flags ||| fl, done := y.done + 1 }) u close)

/-! NMU_UPDATE -/

/-- Reads what a command names: the table, the hyperparameters, and the sum of squares where CLIP is not 0. -/
def readUpdate (s : State) (q table hyp clip shift : Nat) (c : Nat) : State × Except Acc (Nat × Nat × Option Nat) :=
  let rd := fun (s : State) (a n : Nat) => memRead s q 0 reqNmu c ((a + shift) % 2 ^ 48) n
  match rd s table 384 with
  | (s, .ok tb tp) =>
    if tp.any id then (s, .error .bus)
    else match (if hyp = 0 then (s, Acc.ok [] []) else rd s (hyp - 1) 64) with
      | (s, .ok hb hp) =>
        if hp.any id then (s, .error .bus)
        else if clip = 0 then (s, .ok (leNat tb, leNat hb, none))
        else match rd s clip 4 with
          | (s, .ok cb cp) => (s, if cp.any id then .error .bus else .ok (leNat tb, leNat hb, some (leNat cb)))
          | (s, e) => (s, .error e)
      | (s, e) => (s, .error e)
  | (s, e) => (s, .error e)

/-- Whether the fields of a table, a hyperparameter block or the formats fail the checks of the whole command (R192). -/
def tableBad (table : Nat) : Bool :=
  (List.range 24).any fun u =>
    decide (fld table (16 * u + 8) 0 32 > 1048576) || fld table (16 * u + 12) 0 32 != 0 || decide (fld table (16 * u) 0 64 ≥ 2 ^ 48)
def hypBad (hyp : Nat) : Bool := hyp / 2 ^ 320 != 0

/-- The ten hyperparameters. -/
def hypList (hyp : Nat) : List Nat := (List.range 10).map fun i => bits hyp (32 * i) 32

/-- Starts every unit on its list; a command with nothing to do ends with its last unit. -/
def startNmus (s : State) (st : NmuState) (k : NmuCmd) (table flags : Nat) (close : State → Nat → State × Bool) : State :=
  let count := fun u => fld table (16 * u + 8) 0 32
  let busy := (List.range 24).filter fun u => count u > 0
  let busy := if busy.isEmpty then [0] else busy
  let s := (List.range 24).foldl (fun s u =>
    let x : Nmu := { state := if busy.contains u then st else .idle
                     cmd := k
                     list := fld table (16 * u) 0 64
                     count := count u
                     sent := if st = .deposit || st = .send then 0 else (s.nmuOf u).sent
                     flags := if u = 0 then flags else 0 }
    if busy.contains u then (crossTo s 4 (u / 6)).setNmu u x else s.setNmu u x) s
  let s := updCmd s k.queue k.cmd fun c => { c with acted := true, engines := busy.map (0x30 + ·) }
  if count (busy.headD 0) = 0 then nmuLeave s 0 close else s

/-- Nothing is left to do after the units of an update. -/
def noClose (s : State) (_ : Nat) : State × Bool := (s, false)

/-- NMU_UPDATE (R183–R193, R201). MIRROR_ORDER is judged before NMU_FAULT, and that before NONFINITE_NORM (log entry 216). -/
def execNmuUpdate (q : QueueId) (s : State) : Out :=
  match actCmd s q 0x30 with
  | none => .next s
  | some c =>
    let word := bits c.raw 64 32
    let epoch := fld c.raw 0x28 0 32
    let ctx := (s.queueOf q).ctx
    if !s.nmusFree then .next s
    else if uMirror word && !(s.pair.depAcked && s.pair.depEpoch == epoch) then .next (badCmd s q c.n stMirrorOrder)
    else if (!uMirror word && epoch != 0) || updFormatsBad word then .next (badCmd s q c.n stNmuFault)
    else match readUpdate s q (fld c.raw 0x10 0 64) (fld c.raw 0x18 0 64 + 1) (fld c.raw 0x20 0 64) 0 ctx with
      | (t, .error .wait) => .next (keepRequests s t)
      | (t, .error _) => .next (badCmd (takeAnswers t q) q c.n stNmuFault)
      | (t, .ok (table, hyp, clip)) =>
        let t := takeAnswers t q
        if tableBad table || hypBad hyp then .next (badCmd t q c.n stNmuFault)
        else match clipFactor (hypList hyp) clip with
          | .error fl => .next (badCmd (mergeFlags t ctx 3 fl) q c.n stNonfiniteNorm)
          | .ok f =>
            let k : NmuCmd :=
              { queue := q, cmd := c.n, ctx := ctx, word := word, stream := fld c.raw 0xC 0 32, seed := c.seed0
                step := c.step0, epoch := epoch, hyp := hypList hyp, clip := f.1 }
            .next (startNmus t .update k table f.2 noClose)

end Sys2Proof.Machine
end

