-- ==== Sys2Proof/Machine/SlhDsa.lean ====
section
/-!
DEFINITION. SLH-DSA-SHA2-128s (R355, R360, R372): the stateless hash-based signatures of FIPS 205, pure, with an empty context. A
private key is SK.seed, SK.prf, PK.seed and PK.root, 16 B each; a public key is the last two; a signature has 7,856 B.
Rows of notes/assumptions: PRESUMED 199.
-/
namespace Sys2Proof.Slh

/-- An address: layer, tree, type, and the three words that the type gives. -/
structure Adrs where
  layer : Nat := 0
  tree : Nat := 0
  ty : Nat := 0
  w1 : Nat := 0
  w2 : Nat := 0
  w3 : Nat := 0
deriving DecidableEq, Repr

/-! Types of address -/

def tWotsHash : Nat := 0
def tWotsPk : Nat := 1
def tTree : Nat := 2
def tForsTree : Nat := 3
def tForsRoots : Nat := 4
def tWotsPrf : Nat := 5
def tForsPrf : Nat := 6

/-- The compressed address, 22 B. -/
def Adrs.bytes (a : Adrs) : List Nat :=
  bigBytes a.layer 1 ++ bigBytes a.tree 8 ++ bigBytes a.ty 1 ++ bigBytes a.w1 4 ++ bigBytes a.w2 4 ++ bigBytes a.w3 4

/-- The functions F, H and T, and the secret values where the message is SK.seed. -/
def th (pkSeed : List Nat) (a : Adrs) (m : List Nat) : List Nat :=
  (sha256 (pkSeed ++ List.replicate 48 0 ++ a.bytes ++ m)).take 16

/-- `m` bits of numbers of `b` bits, the most significant bit of the string first. -/
def digits (b n : Nat) (m : List Nat) : List Nat :=
  let v := bigVal m
  (List.range n).map fun i => v / 2 ^ (8 * m.length - b * (i + 1)) % 2 ^ b

/-! WOTS+ -/

/-- A chain from step `i` over `n` steps. -/
def chain (seed : List Nat) (a : Adrs) : Nat → Nat → List Nat → List Nat
  | 0, _, x => x
  | n + 1, i, x => chain seed a n (i + 1) (th seed { a with w3 := i } x)

/-- The 35 digits of a 16 B message and of its checksum. -/
def wotsDigits (m : List Nat) : List Nat :=
  let ds := digits 4 32 m
  ds ++ digits 4 3 (bigBytes (16 * (ds.map (15 - ·)).sum) 2)

/-- The secret of a chain. -/
def wotsSecret (sk seed : List Nat) (a : Adrs) (i : Nat) : List Nat := th seed { a with ty := tWotsPrf, w2 := i, w3 := 0 } sk

/-- The public key that 35 chain ends make. -/
def wotsPk (seed : List Nat) (a : Adrs) (ends : List (List Nat)) : List Nat :=
  th seed { a with ty := tWotsPk, w2 := 0, w3 := 0 } ends.flatten

def wotsGen (sk seed : List Nat) (a : Adrs) : List Nat :=
  wotsPk seed a ((List.range 35).map fun i => chain seed { a with w2 := i } 15 0 (wotsSecret sk seed a i))

def wotsSign (sk seed : List Nat) (a : Adrs) (m : List Nat) : List Nat :=
  ((wotsDigits m).zipIdx.map fun e => chain seed { a with w2 := e.2 } e.1 0 (wotsSecret sk seed a e.2)).flatten

/-- The public key that a signature of a message shows. -/
def wotsFromSig (seed : List Nat) (a : Adrs) (m sig : List Nat) : List Nat :=
  wotsPk seed a ((wotsDigits m).zipIdx.map fun e => chain seed { a with w2 := e.2 } (15 - e.1) e.1 ((sig.drop (16 * e.2)).take 16))

/-! Trees -/

/-- The root that a leaf and an authentication path show. -/
def climb (seed : List Nat) (a : Adrs) : Nat → Nat → Nat → List Nat → List Nat → List Nat
  | 0, _, _, node, _ => node
  | n + 1, z, i, node, path =>
    let s := path.take 16
    climb seed a n (z + 1) (i / 2)
      (th seed { a with w2 := z + 1, w3 := i / 2 } (if i % 2 = 0 then node ++ s else s ++ node)) (path.drop 16)

/-- A node of a tree of hashes at a height, from its leaves. -/
def node (seed : List Nat) (a : Adrs) (leaf : Nat → List Nat) : Nat → Nat → List Nat
  | 0, i => leaf i
  | z + 1, i => th seed { a with w2 := z + 1, w3 := i } (node seed a leaf z (2 * i) ++ node seed a leaf z (2 * i + 1))

/-- The sibling of a node's index. -/
def sibling (i : Nat) : Nat := if i % 2 = 0 then i + 1 else i - 1

/-! XMSS and the hypertree -/

def xmssLeaf (sk seed : List Nat) (a : Adrs) (i : Nat) : List Nat := wotsGen sk seed { a with ty := tWotsHash, w1 := i }

def xmssSign (sk seed : List Nat) (a : Adrs) (m : List Nat) (i : Nat) : List Nat :=
  wotsSign sk seed { a with ty := tWotsHash, w1 := i } m ++
    (List.range 9).flatMap fun j => node seed { a with ty := tTree } (xmssLeaf sk seed a) j (sibling (i / 2 ^ j))

def xmssFromSig (seed : List Nat) (a : Adrs) (m sig : List Nat) (i : Nat) : List Nat :=
  climb seed { a with ty := tTree } 9 0 i (wotsFromSig seed { a with ty := tWotsHash, w1 := i } m sig) (sig.drop 560)

/-- The signatures of `n` layers from layer `j`. -/
def htSign (sk seed : List Nat) : Nat → Nat → Nat → Nat → List Nat → List Nat
  | 0, _, _, _, _ => []
  | n + 1, j, tree, leaf, m =>
    let a : Adrs := { layer := j, tree := tree }
    let sig := xmssSign sk seed a m leaf
    sig ++ htSign sk seed n (j + 1) (tree / 2 ^ 9) (tree % 2 ^ 9) (xmssFromSig seed a m sig leaf)

/-- The root that the signatures of `n` layers from layer `j` show. -/
def htRoot (seed : List Nat) : Nat → Nat → Nat → Nat → List Nat → List Nat → List Nat
  | 0, _, _, _, m, _ => m
  | n + 1, j, tree, leaf, m, sig =>
    htRoot seed n (j + 1) (tree / 2 ^ 9) (tree % 2 ^ 9) (xmssFromSig seed { layer := j, tree := tree } m (sig.take 704) leaf) (sig.drop 704)

/-! FORS -/

def forsSecret (sk seed : List Nat) (a : Adrs) (i : Nat) : List Nat := th seed { a with ty := tForsPrf, w2 := 0, w3 := i } sk
def forsLeaf (sk seed : List Nat) (a : Adrs) (i : Nat) : List Nat := th seed { a with w2 := 0, w3 := i } (forsSecret sk seed a i)

def forsSign (sk seed : List Nat) (a : Adrs) (md : List Nat) : List Nat :=
  (digits 12 14 md).zipIdx.flatMap fun e =>
    let i := 4096 * e.2 + e.1
    forsSecret sk seed a i ++ (List.range 12).flatMap fun j => node seed a (forsLeaf sk seed a) j (sibling (i / 2 ^ j))

/-- The public key that a FORS signature shows. -/
def forsFromSig (seed : List Nat) (a : Adrs) (md sig : List Nat) : List Nat :=
  let roots := (digits 12 14 md).zipIdx.map fun e =>
    let i := 4096 * e.2 + e.1
    let part := sig.drop (208 * e.2)
    climb seed a 12 0 i (th seed { a with w2 := 0, w3 := i } (part.take 16)) (part.drop 16)
  th seed { a with ty := tForsRoots, w2 := 0, w3 := 0 } roots.flatten

/-! Signatures -/

/-- The message of the pure form with an empty context. -/
def pure (m : List Nat) : List Nat := 0 :: 0 :: m

/-- The 30 B digest of a message under a randomizer. -/
def msgDigest (r seed root m : List Nat) : List Nat := mgf1 sha256 32 (r ++ seed ++ sha256 (r ++ seed ++ root ++ pure m)) 30

/-- The tree and leaf that a digest names. -/
def treeOf (digest : List Nat) : Nat := bigVal ((digest.drop 21).take 7) % 2 ^ 54
def leafOf (digest : List Nat) : Nat := bigVal ((digest.drop 28).take 2) % 2 ^ 9

/-- Whether a signature is one of a message under a public key. -/
def verify (pk m sig : List Nat) : Bool :=
  let seed := pk.take 16
  let root := pk.drop 16
  let d := msgDigest (sig.take 16) seed root m
  let a : Adrs := { tree := treeOf d, ty := tForsTree, w1 := leafOf d }
  sig.length == 7856 && htRoot seed 7 0 (treeOf d) (leafOf d) (forsFromSig seed a (d.take 21) (sig.drop 16)) (sig.drop 2928) == root

/-- The signature of a message under a private key, with 16 B of randomness. -/
def sign (sk m random : List Nat) : List Nat :=
  let skSeed := sk.take 16
  let prf := (sk.drop 16).take 16
  let seed := (sk.drop 32).take 16
  let root := (sk.drop 48).take 16
  let r := (hmac sha256 64 prf (random ++ pure m)).take 16
  let d := msgDigest r seed root m
  let a : Adrs := { tree := treeOf d, ty := tForsTree, w1 := leafOf d }
  let fors := forsSign skSeed seed a (d.take 21)
  r ++ fors ++ htSign skSeed seed 7 0 (treeOf d) (leafOf d) (forsFromSig seed a (d.take 21) fors)

end Sys2Proof.Slh
end

