-- ==== Sys2Proof/Machine/X509.lean ====
section
/-!
DEFINITION. The certificates of R355, R367, R369 and R370: DER, the fields of an X.509 certificate, ECDSA on P-384, and the validation of a
path (RFC 5280). Byte strings are lists of numbers below 256, first byte first.
Rows of notes/assumptions: PRESUMED 188, 199, 207.
-/
namespace Sys2Proof

/-! DER -/

/-- An element: its tag, its content, and the whole of its encoding. -/
structure Der where
  tag : Nat
  body : List Nat
  raw : List Nat
deriving DecidableEq, Repr

/-- A length in its shortest form, and what follows it. -/
def derLen : List Nat → Option (Nat × List Nat)
  | [] => none
  | n :: r =>
    if n < 128 then some (n, r)
    else
      let k := n - 128
      let v := bigVal (r.take k)
      if k = 0 || k > 4 || decide (r.length < k) || decide (v < 128) || decide (v < 256 ^ (k - 1)) then none else some (v, r.drop k)

/-- The first element, and what follows it. -/
def derRead : List Nat → Option (Der × List Nat)
  | [] => none
  | t :: r =>
    if t % 32 = 31 then none
    else match derLen r with
      | none => none
      | some (n, c) => if c.length < n then none else some (⟨t, c.take n, t :: r.take (r.length - (c.length - n))⟩, c.drop n)

/-- The elements of a byte string, over at most so many of them. -/
def derAll : Nat → List Nat → Option (List Der)
  | 0, b => if b.isEmpty then some [] else none
  | k + 1, b =>
    if b.isEmpty then some []
    else match derRead b with
      | none => none
      | some (x, r) => (derAll k r).map (x :: ·)

/-- The elements that an element holds. -/
def Der.parts (x : Der) : Option (List Der) := derAll x.body.length x.body

/-- The elements of a SEQUENCE or a SET; none where it is not one. -/
def Der.items (x : Der) (tag : Nat) : Option (List Der) := if x.tag = tag then x.parts else none

/-- A non-negative INTEGER. -/
def Der.natural (x : Der) : Option Nat :=
  if x.tag = 2 && !x.body.isEmpty && decide (x.body.headD 0 < 128) then some (bigVal x.body) else none

/-- The elements one after the other as long as there are any, as a list padded with zeros holds them. -/
def derChain : Nat → List Nat → List (List Nat)
  | 0, _ => []
  | k + 1, b =>
    if b.headD 0 = 0 then []
    else match derRead b with
      | none => []
      | some (x, r) => x.raw :: derChain k r

/-! Times: seconds of UTC from 1 March of the year 0 -/

/-- The number that decimal digits spell. -/
def decimal (b : List Nat) : Option Nat :=
  if b.all fun x => decide (48 ≤ x) && decide (x < 58) then some (b.foldl (fun v x => 10 * v + (x - 48)) 0) else none

/-- The seconds of a date and a time of day; none for one that is neither. -/
def utcSeconds (year : Nat) (v : Nat) : Option Nat :=
  let mo := v / 10 ^ 8
  let day := v / 10 ^ 6 % 100
  let h := v / 10 ^ 4 % 100
  let mi := v / 100 % 100
  let y := if mo ≤ 2 then year - 1 else year
  let days := 365 * y + y / 4 - y / 100 + y / 400 + (153 * ((mo + 9) % 12) + 2) / 5 + (day - 1)
  if 1 ≤ mo && mo ≤ 12 && 1 ≤ day && day ≤ 31 && h < 24 && mi < 60 && v % 100 < 60 && 1 ≤ year then
    some (86400 * days + 3600 * h + 60 * mi + v % 100) else none

/-- A Time: UTCTime of the years 1950 to 2049, or GeneralizedTime. -/
def Der.time (x : Der) : Option Nat :=
  let n := x.body.length - 1
  if x.body.getD n 0 ≠ 90 then none
  else match decimal (x.body.take n) with
    | none => none
    | some v =>
      if x.tag = 0x17 && n = 12 then utcSeconds (v / 10 ^ 10 + if v / 10 ^ 10 < 50 then 2000 else 1900) (v % 10 ^ 10)
      else if x.tag = 0x18 && n = 14 then utcSeconds (v / 10 ^ 10) (v % 10 ^ 10)
      else none

/-! Keys and signatures -/

/-- A public key that a certificate carries or the boot ROM holds. -/
inductive PubKey where
  | rsa (k : RsaPub)
  | ec (x y : Nat)
  | slh (k : List Nat)
  | other
deriving DecidableEq, Repr

/-- An element of a short content. -/
def derOf (tag : Nat) (b : List Nat) : List Nat := tag :: b.length :: b

/-- Object identifiers: rsaEncryption, RSASSA-PSS, MGF1, SHA-384, ecPublicKey, secp384r1, ecdsa-with-SHA384, SLH-DSA-SHA2-128s. -/
def oidRsa : List Nat := [0x2A, 0x86, 0x48, 0x86, 0xF7, 0x0D, 1, 1, 1]
def oidPss : List Nat := [0x2A, 0x86, 0x48, 0x86, 0xF7, 0x0D, 1, 1, 10]
def oidMgf1 : List Nat := [0x2A, 0x86, 0x48, 0x86, 0xF7, 0x0D, 1, 1, 8]
def oidSha384 : List Nat := [0x60, 0x86, 0x48, 1, 0x65, 3, 4, 2, 2]
def oidEc : List Nat := [0x2A, 0x86, 0x48, 0xCE, 0x3D, 2, 1]
def oidP384 : List Nat := [0x2B, 0x81, 4, 0, 0x22]
def oidEcdsa : List Nat := [0x2A, 0x86, 0x48, 0xCE, 0x3D, 4, 3, 3]
def oidSlh : List Nat := [0x60, 0x86, 0x48, 1, 0x65, 3, 4, 3, 0x14]

/-- The algorithm identifiers of a signature: RSASSA-PSS with SHA-384, MGF1 with SHA-384 and a salt of 48 B, the parameters of the hash
function NULL or absent; ECDSA with SHA-384; SLH-DSA-SHA2-128s. -/
def algHash (null : Bool) : List Nat := derOf 0x30 (derOf 6 oidSha384 ++ if null then [5, 0] else [])
def algPss (a b : Bool) : List Nat :=
  derOf 0x30 (derOf 6 oidPss ++ derOf 0x30 (derOf 0xA0 (algHash a) ++ derOf 0xA1 (derOf 0x30 (derOf 6 oidMgf1 ++ algHash b)) ++
    derOf 0xA2 (derOf 2 [48])))
def isAlgPss (raw : List Nat) : Bool := [(true, true), (true, false), (false, true), (false, false)].any fun e => raw == algPss e.1 e.2
def algEcdsa : List Nat := derOf 0x30 (derOf 6 oidEcdsa)
def algSlh : List Nat := derOf 0x30 (derOf 6 oidSlh)

/-- The key of a SubjectPublicKeyInfo. -/
def keyOf (x : Der) : PubKey :=
  match x.items 0x30 with
  | some [alg, bits] =>
    if bits.tag ≠ 3 || bits.body.headD 1 ≠ 0 then .other
    else if alg.raw = derOf 0x30 (derOf 6 oidRsa ++ [5, 0]) then
      match (derRead (bits.body.drop 1)).bind fun e => if e.2.isEmpty then e.1.items 0x30 else none with
      | some [n, e] => (match n.natural, e.natural with
        | some n, some e => .rsa ⟨n, e⟩
        | _, _ => .other)
      | _ => .other
    else if alg.raw = derOf 0x30 (derOf 6 oidEc ++ derOf 6 oidP384) && bits.body.length == 98 && bits.body.getD 1 0 == 4 then
      .ec (bigVal ((bits.body.drop 2).take 48)) (bigVal (bits.body.drop 50))
    else .other
  | _ => .other

/-- Whether a DER signature is one of a message under a point of P-384 (FIPS 186-5). -/
def ecdsaVerify (x y : Nat) (m sig : List Nat) : Bool :=
  match (derRead sig).bind fun e => if e.2.isEmpty then e.1.items 0x30 else none with
  | some [r, t] => (match r.natural, t.natural with
    | some r, some t =>
      let n := P384.order
      if P384.onCurve x y && decide (1 ≤ r) && decide (r < n) && decide (1 ≤ t) && decide (t < n) then
        let w := powMod n 384 t (n - 2)
        let q := P384.add (P384.times 384 (bigVal (sha384 m) * w % n) ⟨P384.baseX, P384.baseY, 1⟩) (P384.times 384 (r * w % n) ⟨x, y, 1⟩)
        q.z != 0 && (P384.affine q).1 % n == r
      else false
    | _, _ => false)
  | _ => false

/-! A certificate -/

/-- The fields of a certificate: what is signed, how and by which bytes; its version, names, validity and key; its extensions by
identifier, whether critical, and content. -/
structure X509 where
  tbs : List Nat
  alg : List Nat
  sig : List Nat
  version : Nat
  issuer : List Nat
  subject : List Nat
  notBefore : Nat
  notAfter : Nat
  key : PubKey
  exts : List (List Nat × Bool × List Nat)
deriving DecidableEq, Repr

/-- An extension. -/
def extOf (x : Der) : Option (List Nat × Bool × List Nat) :=
  match x.items 0x30 with
  | some [i, v] => if i.tag = 6 && v.tag = 4 then some (i.body, false, v.body) else none
  | some [i, c, v] => if i.tag = 6 && c.tag = 1 && c.body == [0xFF] && v.tag = 4 then some (i.body, true, v.body) else none
  | _ => none

/-- The extensions of a certificate, from what follows its key. -/
def extsOf (rest : List Der) : Option (List (List Nat × Bool × List Nat)) :=
  match rest.find? fun x => x.tag == 0xA3 with
  | none => some []
  | some x => match x.parts with
    | some [q] => (q.items 0x30).bind fun es => es.mapM extOf
    | _ => none

/-- The version that the first field of a certificate's body gives, and the fields after it: 0 where it gives none. -/
def versionOf : List Der → Nat × List Der
  | x :: r => if x.tag = 0xA0 then (x.body.getD 2 0, r) else (0, x :: r)
  | [] => (0, [])

/-- A certificate's fields from its DER bytes; none for bytes that are no certificate. -/
def x509 (b : List Nat) : Option X509 :=
  match derRead b with
  | some (c, []) =>
    match c.items 0x30 with
    | some [tbs, alg, sig] =>
      match tbs.items 0x30 with
      | none => none
      | some fs =>
        let (version, fs) := versionOf fs
        match fs with
        | _ :: alg' :: issuer :: validity :: subject :: spki :: rest =>
          if alg'.raw ≠ alg.raw || sig.tag ≠ 3 || sig.body.headD 1 ≠ 0 then none
          else match validity.items 0x30, extsOf rest with
            | some [a, z], some exts => (match a.time, z.time with
              | some a, some z => some ⟨tbs.raw, alg.raw, sig.body.drop 1, version, issuer.raw, subject.raw, a, z, keyOf spki, exts⟩
              | _, _ => none)
            | _, _ => none
        | _ => none
    | _ => none
  | _ => none

/-- Whether a certificate's signature verifies under a key. -/
def X509.signedBy (c : X509) (k : PubKey) : Bool :=
  match k with
  | .rsa k => isAlgPss c.alg && rsaVerify k c.tbs c.sig
  | .ec x y => c.alg == algEcdsa && ecdsaVerify x y c.tbs c.sig
  | .slh k => c.alg == algSlh && Slh.verify k c.tbs c.sig
  | .other => false

/-- The identifiers of the extensions that are processed: all of the arc 2.5.29. -/
def extBasic : List Nat := [0x55, 0x1D, 0x13]
def extUsage : List Nat := [0x55, 0x1D, 0x0F]
def extPurpose : List Nat := [0x55, 0x1D, 0x25]
def extNames : List Nat := [0x55, 0x1D, 0x1E]
def extAltName : List Nat := [0x55, 0x1D, 0x11]
def extPolicies : List Nat := [0x55, 0x1D, 0x20]
def extPolicyLimit : List Nat := [0x55, 0x1D, 0x24]
def extNoAny : List Nat := [0x55, 0x1D, 0x36]

/-- The content of an extension. -/
def X509.ext (c : X509) (i : List Nat) : Option (List Nat) := (c.exts.find? fun e => e.1 == i).map (·.2.2)

/-- Whether every critical extension is one that is processed, and no extension stands twice. -/
def X509.known (c : X509) : Bool :=
  c.exts.all (fun e => !e.2.1 || [extBasic, extUsage, extPurpose, extNames, extAltName, extPolicies, extPolicyLimit, extNoAny].contains e.1) &&
    decide (c.exts.map (·.1)).Nodup

/-- The elements of an extension that is a SEQUENCE; none where it is malformed. -/
def extItems (b : List Nat) : Option (List Der) :=
  match derRead b with
  | some (x, []) => x.items 0x30
  | _ => none

/-- BasicConstraints: whether the certificate is an authority's, and its path length. -/
def X509.authority (c : X509) : Bool × Option Nat :=
  match (c.ext extBasic).bind extItems with
  | some [a] => (a.tag == 1 && a.body == [0xFF], none)
  | some [a, n] => (a.tag == 1 && a.body == [0xFF] && n.natural.isSome, n.natural)
  | _ => (false, none)

/-- Whether KeyUsage, where it is there, has a bit. -/
def X509.usage (c : X509) (k : Nat) : Bool :=
  match c.ext extUsage with
  | none => true
  | some b => match derRead b with
    | some (x, []) => x.tag == 3 && (x.body.getD (1 + k / 8) 0).testBit (7 - k % 8)
    | _ => false

/-- Whether ExtendedKeyUsage, where it is there, allows a TLS client. -/
def X509.forClient (c : X509) : Bool :=
  match c.ext extPurpose with
  | none => true
  | some b => ((extItems b).getD []).any fun x =>
      x.body == [0x2B, 6, 1, 5, 5, 7, 3, 2] || x.body == [0x55, 0x1D, 0x25, 0]

/-- The identifiers of CertificatePolicies; none where the extension is absent. -/
def X509.policies (c : X509) : Option (List (List Nat)) :=
  (c.ext extPolicies).map fun b => ((extItems b).getD []).map fun x => (((x.items 0x30).getD []).head?.map (·.body)).getD []

/-- The requireExplicitPolicy of PolicyConstraints, and the count of InhibitAnyPolicy. -/
def X509.explicit (c : X509) : Option Nat :=
  (((c.ext extPolicyLimit).bind extItems).getD []).findSome? fun x => if x.tag = 0x80 then some (bigVal x.body) else none
def X509.noAny (c : X509) : Option Nat := (c.ext extNoAny).bind fun b => (derRead b).bind fun e => e.1.natural

/-- The subtrees of NameConstraints under a tag, 0xA0 permitted and 0xA1 excluded: the bases. -/
def X509.subtrees (c : X509) (tag : Nat) : List Der :=
  match ((c.ext extNames).bind extItems).bind fun xs => xs.find? fun x => x.tag == tag with
  | none => []
  | some x => (x.parts.getD []).filterMap fun t => (t.items 0x30).bind fun ps => ps.head?

/-- The names of a certificate as GeneralNames: its subject as a directoryName, and its alternative names. -/
def X509.names (c : X509) : List Der :=
  let subject := (derRead c.subject).map (·.1)
  (match subject with
    | some x => if x.body.isEmpty then [] else [⟨0xA4, x.raw, []⟩]
    | none => []) ++ ((c.ext extAltName).bind extItems).getD []

/-- Whether a name lies in a subtree: a directoryName by its leading components. -/
def inSubtree (name base : Der) : Bool :=
  let rdns := fun (x : Der) => ((x.parts.getD []).head?.bind fun q => q.parts).getD []
  name.tag == 0xA4 && base.tag == 0xA4 && ((rdns base).map (·.raw)).isPrefixOf ((rdns name).map (·.raw))

/-- Whether names of one form are constrained by a list of subtrees. -/
def constrained (name : Der) (bases : List Der) : Bool := bases.any fun b => b.tag == name.tag

/-! Paths (RFC 5280, section 6.1) -/

/-- The state of a validation: the keys that may have signed the next certificate, its issuer's name, the certificates that may still
follow, the counts before an explicit policy is needed and before anyPolicy no longer counts, the valid policies, and the
name constraints. -/
structure CertPath where
  keys : List PubKey
  name : List Nat
  left : Nat
  explicit : Nat
  anyPolicy : Nat
  policies : List (List Nat) := [[0x55, 0x1D, 0x20, 0]]
  permitted : List (List Der) := []
  excluded : List Der := []
deriving DecidableEq, Repr

/-- A validation of `n` certificates begins from keys and a name. -/
def CertPath.start (keys : List PubKey) (name : List Nat) (n : Nat) : CertPath := { keys := keys, name := name, left := n, explicit := n + 1, anyPolicy := n + 1 }

def oidAnyPolicy : List Nat := [0x55, 0x1D, 0x20, 0]

/-- Whether a certificate names its issuer as its subject. -/
def X509.selfIssued (c : X509) : Bool := c.issuer == c.subject

/-- The valid policies after a certificate; `last` where no other follows. -/
def CertPath.policiesAfter (p : CertPath) (c : X509) (last : Bool) : List (List Nat) :=
  match c.policies with
  | none => []
  | some ps =>
    let any := ps.contains oidAnyPolicy && (decide (p.anyPolicy > 0) || (!last && c.selfIssued))
    let named := ps.filter fun x => x != oidAnyPolicy && (p.policies.contains x || p.policies.contains oidAnyPolicy)
    named ++ if any then p.policies.filter fun x => !named.contains x else []

/-- Whether the names of a certificate meet the constraints of those above it. -/
def CertPath.namesOk (p : CertPath) (c : X509) (last : Bool) : Bool :=
  (c.selfIssued && !last) || c.names.all fun n =>
    p.permitted.all (fun bases => !constrained n bases || bases.any fun b => inSubtree n b) &&
      (!constrained n p.excluded || (n.tag == 0xA4 && !p.excluded.any fun b => inSubtree n b))

/-- The checks of one certificate: its signature, its validity at a time where one is given, the name of its issuer, its own names, its
policies and its critical extensions. -/
def CertPath.good (p : CertPath) (now : Nat → Nat → Bool) (c : X509) (last : Bool) : Bool :=
  c.issuer == p.name && now c.notBefore c.notAfter && c.known && p.namesOk c last &&
    (decide (p.explicit > 0) || !(p.policiesAfter c last).isEmpty) && p.keys.any c.signedBy

/-- What a certificate of an authority hands on to the next; none where it may not issue one. -/
def CertPath.next (p : CertPath) (c : X509) : Option CertPath :=
  let less := fun n => if c.selfIssued then n else n - 1
  let cap := fun (n : Nat) (o : Option Nat) => (o.map (min n)).getD n
  if !(c.version == 2 && c.authority.1 && c.usage 5) || (!c.selfIssued && p.left == 0) then none
  else some { keys := [c.key], name := c.subject, left := cap (less p.left) c.authority.2, explicit := cap (less p.explicit) c.explicit,
              anyPolicy := cap (less p.anyPolicy) c.noAny, policies := p.policiesAfter c false
              permitted := if (c.subtrees 0xA0).isEmpty then p.permitted else c.subtrees 0xA0 :: p.permitted
              excluded := c.subtrees 0xA1 ++ p.excluded }

/-- The certificate that a path ends with, where every certificate of it is good, the one next to the root first. -/
def CertPath.leaf (now : Nat → Nat → Bool) : CertPath → List X509 → Option X509
  | _, [] => none
  | p, [c] =>
    let explicit := if c.explicit = some 0 then 0 else p.explicit - 1
    if p.good now c true && (decide (explicit > 0) || !(p.policiesAfter c true).isEmpty) then some c else none
  | p, c :: cs => if p.good now c false then (p.next c).bind fun p => p.leaf now cs else none

end Sys2Proof
end

