-- ==== Sys2Proof/Machine/Mirror.lean ====
section
/-!
DEFINITION. The mirror pair (R195–R204, R367, R368): binding and its handshake, deposits, sends and redo on the sender's and
the receiver's side, and the unit events that depend on the command a unit works for. What the pair link carries is sealed as
it leaves and opened as it arrives (R368).
Rows of notes/assumptions: DEDUCED 86, 87, 166, 190, 200, 205; DESIGN CHOICE 85, 88, 184, 189, 217; PRESUMED 188.
-/
namespace Sys2Proof.Machine

open Sys2Proof

/-! NMU[00].PAIR_* (R207) -/

def psUnbound : Nat := 0
def psIdle : Nat := 1
def psDepOpen : Nat := 2
def psDepClosed : Nat := 3
def psStreamOpen : Nat := 4
def psLost : Nat := 5

def State.pairState (s : State) : Nat := s.field .nmu 0 0x200 0 3
def State.setPairState (s : State) (v : Nat) : State := s.setField .nmu 0 0x200 0 3 v
def State.pairPrior (s : State) : Nat := s.field .nmu 0 0x200 3 3
def State.pairCtx (s : State) : Nat := s.field .nmu 0 0x200 8 6
/-- PAIR_EPOCH: the last closed epoch of the mirror held here. -/
def State.pairEpoch (s : State) : Nat := s.reg .nmu 0 0x204
/-- The PAIR_SIDE strap. -/
def State.pairSide (s : State) : Bool := s.pins.straps.testBit 6
/-- Whether a binding is in force and not lost. -/
def State.pairBound (s : State) : Bool := s.pairState != psUnbound && s.pairState != psLost

/-- A message to the partner: what it is, and its content. -/
def pairSend (s : State) (what : Nat) (args : List Nat) (data : List Byte) : State :=
  s.send { kind := .pair, dest := s.pair.peer, args := what :: args, data := data }

/-- Contents of messages to the partner. -/
def pmHandshake : Nat := 0
def pmDeposit : Nat := 1
def pmDepositClose : Nat := 2
def pmMirror : Nat := 3
def pmStreamClose : Nat := 4
def pmDepositAck : Nat := 5
def pmStreamAck : Nat := 6

/-! Binding (R195, R196, R367) -/

/-- The peer that INIT named on the pair ports. -/
def State.pairPeer (s : State) : Nat := (([32, 33, 34, 35].findSome? fun p => (s.portOf p).init).map (·.dev)).getD 0
/-- The peer's PAIR_SIDE strap, as INIT named it. -/
def State.peerSide (s : State) : Option Bool := ([32, 33, 34, 35].findSome? fun p => (s.portOf p).init).map (·.side)

/-- Whether the MIRROR_BIND that began the binding in progress still waits. -/
def State.bindWaits (s : State) : Bool :=
  match s.pair.binding with
  | none => false
  | some (q, n) => (s.cmdOf q n).any fun c => !c.ended

/-- Whether the four pair ports' INIT exchanges name one peer whose PAIR_SIDE strap equals this one's, so that no bond forms and a
binding cannot complete (R195, R250; log entry 200). -/
def sidesEqual (s : State) : Bool :=
  let is := [32, 33, 34, 35].map fun p => (s.portOf p).init
  match is.headD none with
  | none => false
  | some a => is.all fun i => i.any fun i => i.dev == a.dev && i.side == (s.reg .dev 0 0x100).testBit 6

/-- Whether MIRROR_BIND names no context, or the binding is not in the state it needs (R195, R200, R214). -/
def mirrorBindTarget (s : State) (c : Cmd) : Bool :=
  let k := bits c.raw 64 6
  !(s.ctxOf k).resident ||
    (if c.raw.testBit 70 then s.pairState == psUnbound || k != s.pairCtx else s.pairState != psUnbound || s.bindWaits)

/-- Sends a handshake message in fragments of 32 B (R367; log entry 205). -/
def sendHandshake (s : State) (kind : Nat) (data : List Byte) : State :=
  let n := ceilDiv data.length 32
  (List.range n).foldl (fun s i => pairSend s pmHandshake [kind, i, n] (((data.drop (32 * i)).take 32 ++ leBytes 0 32).take 32)) s

/-- This member's certificate chain, from the colophon (R355). -/
def ownCerts (s : State) : List Byte := tabSlice 0 s.flash (s.colophonBase + 0x5320) 24544

/-- A free ephemeral private key of P-384, from 1 to the order less 1. -/
def ephemeral (s : State) : State × Nat :=
  let (t, b) := freeBytes s 56
  (t, 1 + bigVal b % (P384.order - 1))

/-- Two values of the members of a pair, the lower side's first. -/
def inSideOrder (s : State) (mine peers : List Byte) : List (List Byte) := if s.pairSide then [peers, mine] else [mine, peers]

/-- What each member signs: the SHA-384 of both shares (R367). -/
def sharesDigest (s : State) : List Nat := sha384 (nats (inSideOrder s s.pair.hs.myShare s.pair.hs.share.data).flatten)

/-- Takes a fragment of a handshake message: one out of its order is no part of it. -/
def takePart (x : HsPart) (index count : Nat) (data : List Byte) : HsPart :=
  if x.whole || index ≠ x.next then x else { data := x.data ++ data, next := index + 1, whole := index + 1 == count }

/-- This member's signature over both shares, with a free salt (R367). -/
def sendSignature (s : State) : State :=
  let (s, salt) := freeBytes s 48
  let sig := ofNats (rsaSign s.mgmt.devRsa.n s.mgmt.devRsa.d (sharesDigest s) salt)
  sendHandshake { s with pair := { s.pair with hs := { s.pair.hs with mySig := sig } } } 3 sig

/-- The transcript hash (R367). -/
def transcript (s : State) : Nat :=
  let h := s.pair.hs
  Config.transcriptHash (inSideOrder s h.myShare (h.share.data.take 97) ++ inSideOrder s (ownCerts s) h.cert.data ++
    inSideOrder s h.mySig h.signature.data) % 2 ^ 384

/-- The key of the device certificate of a chain that verifies under the root keys (R356, R367): none for one that does not. No rule
gives a time for its validity. -/
def chainKey (s : State) (chain : List Byte) : Option PubKey :=
  ((derChain 64 (nats chain)).mapM x509).bind fun cs =>
    match cs.reverse with
    | [] => none
    | top :: below =>
      ((CertPath.start [.rsa s.mgmt.romRsa, .slh s.mgmt.romSlh] top.issuer cs.length).leaf (fun _ _ => true) (top :: below)).map (·.key)

/-- Whether the peer's chain verifies under the root keys, its signature under its certificate's key, and its share is a point of the
curve (R367). -/
def handshakeGood (s : State) : Bool :=
  let h := s.pair.hs
  match chainKey s h.cert.data with
  | some (.rsa k) => rsaVerify k (sharesDigest s) (nats h.signature.data) && (ecSecret h.eph (nats h.share.data)).isSome
  | _ => false

/-- The content of FINISHED from a side that has found the handshake good, or not (R367; log entry 189). -/
def finishedData (s : State) (side good : Bool) : List Byte := leBytes (Config.finishedBody (transcript s) (bit side) good) 32

/-- Whether the peer's share, chain and signature have come. -/
def Handshake.come (h : Handshake) : Bool := h.share.whole && h.cert.whole && h.signature.whole

/-- What the messages that have come since `old` call for: a whole share this member's signature; share, chain and signature together its
FINISHED, which says whether they verify (R367; log entry 205). -/
def answerHandshake (old s : State) : State :=
  if !s.bindWaits then s
  else
    let s := if s.pair.hs.share.whole && s.pair.hs.mySig.isEmpty then sendSignature s else s
    if s.pair.hs.come && !(old.pair.hs.come && old.bindWaits) then sendHandshake s 4 (finishedData s s.pairSide (handshakeGood s)) else s

/-- MIRROR_BIND: a bind begins the handshake with this member's share and chain; a release makes its transition (R200). A release keeps the
counts, and CTX is written as a bind begins (log entry 217). -/
def execMirrorBind (q : QueueId) (s : State) : Out :=
  match actCmd s q 0xD0 with
  | none => .next s
  | some c =>
    let k := bits c.raw 64 6
    if mirrorBindTarget s c then .next (failCmd s q c.n stTarget 0)
    else if c.raw.testBit 70 then
      if s.pairState = psLost then
        .next (doneCmd ((freshPair s { hs := s.pair.hs }).setReg .nmu 0 0x200 0) q c.n)
      else .next (doneCmd (losePair s) q c.n)
    else if sidesEqual s then .next (badCmd s q c.n stBindMismatch)
    else if !s.pairUp then .next s
    else
      let (s, eph) := ephemeral s
      let share := ofNats (ecShare eph)
      let s := freshPair s { offset := fld c.raw 0x10 0 48, map := fld c.raw 0x18 0 44, hdr := fld c.raw 0x20 0 44,
                             e0 := fld c.raw 0x28 0 32, peer := s.pairPeer, binding := some (q.val, c.n)
                             hs := { s.pair.hs with eph := eph, myShare := share } }
      let s := updCmd s q c.n fun c => { c with acted := true }
      let s := s.setField .nmu 0 0x200 8 6 k
      .next (answerHandshake s (sendHandshake (sendHandshake s 1 share) 2 (ownCerts s)))

/-- PAIR_HANDSHAKE_MSG_RX (R367): a fragment of a handshake message, by the KIND, fragment index and count of its body; a MGMT packet
that arrives on any port but the pair link's is discarded. A share and a chain that come before this member's MIRROR_BIND are kept for
it; a share that begins anew begins a handshake. -/
def execPairHandshakeMsgRx (p : PortId) (body : List Byte) (last : Bool) (s : State) : Out :=
  let w := leNat (body.take 8)
  let kind := bits w 0 8
  let index := bits w 16 16
  let count := bits w 32 16
  let early := !s.bindWaits && (s.pairState == psUnbound || s.pairState == psLost) && (kind == 1 || kind == 2)
  if !s.bonded p || !(s.bindWaits || early) || last != (index + 1 == count) then .next s
  else
    let h := if early && kind = 1 && index = 0 then {} else s.pair.hs
    let take := fun (x : HsPart) => takePart x index count ((body.drop 8).take 32)
    let put := fun (h : Handshake) => answerHandshake s { s with pair := { s.pair with hs := h } }
    match kind with
    | 1 =>
      let x := take h.share
      .next (put { h with share := if x.whole then { x with data := x.data.take 97 } else x })
    | 2 => .next (put { h with cert := take h.cert })
    | 3 => .next (put { h with signature := take h.signature })
    | 4 => .next (put { h with finished := take h.finished })
    | _ => .next s

/-- The key of a direction, named by the PAIR_SIDE of its sender (R367). -/
def pairKey (s : State) (side : Bool) : List Nat :=
  let secret := (ecSecret s.pair.hs.eph (nats s.pair.hs.share.data)).getD []
  hkdf384 (littleBytes (transcript s) 48) secret (asciiBytes (if side then "pair 1to0" else "pair 0to1")) 32

/-- Whether the handshake succeeds: what this member has verified, and what the peer's FINISHED says it has; nothing before that is
known (R367). -/
def handshakeResult (s : State) : Option Bool :=
  let h := s.pair.hs
  if !s.bindWaits || !h.come then none
  else if !handshakeGood s then some false
  else if !h.finished.whole then none
  else some (h.finished.data == finishedData s (!s.pairSide) true)

/-- PAIR_HANDSHAKE_DONE: the handshake succeeds or not, and the peer's MIRROR_BIND names `epoch` (R195, R367). A failure of either member
ends the binding of both, and is counted. `good` is what the model finds. -/
def execPairHandshakeDone (good : Bool) (epoch : W32) (s : State) : Out :=
  match s.pair.binding with
  | none => .next s
  | some (q, n) =>
    if handshakeResult s ≠ some good then .next s
    else if !good || epoch.toNat ≠ s.pair.e0 || s.peerSide = some s.pairSide || s.peerSide = none then
      .next (badCmd ((freshPair s {}).bump .sec 0 0x110 1) q n stBindMismatch)
    else
      let s := { s with pair := { s.pair with
        binding := none, hs := {}, txKey := pairKey s s.pairSide, rxKey := pairKey s (!s.pairSide) } }
      let s := (s.setPairState psIdle).setReg .nmu 0 0x204 s.pair.e0
      .next (doneCmd ((s.setReg .nmu 0 0x208 0).setReg .nmu 0 0x20C s.pair.e0) q n)

/-! The sender -/

/-- The fields of the deposit header (R197), in the model's own order. -/
def headerPack (k : NmuCmd) (q : Option Nat) (hyp : Nat) : Nat :=
  pack [(0, 32, k.epoch), (32, 32, k.word), (64, 32, k.stream), (96, 1, bit q.isSome), (128, 64, k.seed), (192, 64, k.step),
    (256, 32, q.getD 0), (320, 48, k.table), (512, 512, hyp)]

/-- What ends a deposit: a closing one sends its count and header and waits for the acknowledgement (R197). -/
def depositClose (s : State) (u : Nat) : State × Bool :=
  let k := (s.nmuOf u).cmd
  if !uClose k.word then (s, false)
  else
    let s := pairSend s pmDepositClose [k.epoch, s.pair.depSent] (leBytes k.header 128)
    ({ s with pair := { s.pair with depWord := k.word, depTable := k.table, waiting := some (k.queue, k.cmd, false, u) } }, true)

/-- What ends a send: the closing count, then the acknowledgement (R198). -/
def sendClose (s : State) (u : Nat) : State × Bool :=
  let k := (s.nmuOf u).cmd
  let total := ((List.range 24).map fun v => (s.nmuOf v).count).sum
  let s := pairSend s pmStreamClose [k.epoch, total] []
  ({ s with pair := { s.pair with waiting := some (k.queue, k.cmd, true, u) } }, true)

/-- What ends a redo: PAIR_EPOCH takes the epoch (R203). -/
def redoClose (s : State) (u : Nat) : State × Bool := (s.setReg .nmu 0 0x204 (s.nmuOf u).cmd.epoch, false)

/-- Whether a context's command may use the pair now. -/
def pairUser (s : State) (q : Nat) : Bool := s.pairBound && s.pairCtx == (s.queueOf q).ctx

/-- MIRROR_DEPOSIT (R197, R201). -/
def execMirrorDeposit (q : QueueId) (s : State) : Out :=
  match actCmd s q 0x50 with
  | none => .next s
  | some c =>
    let word := bits c.raw 64 32
    let epoch := fld c.raw 0x28 0 32
    let ctx := (s.queueOf q).ctx
    let clipAt := fld c.raw 0x20 0 64
    if !s.nmusFree then .next s
    else if !pairUser s q || epoch ≠ (s.reg .nmu 0 0x20C + 1) % 2 ^ 32 then .next (badCmd s q c.n stMirrorOrder)
    else if (!uMirror word && epoch != 0) || updFormatsBad word then .next (badCmd s q c.n stNmuFault)
    else match readUpdate s q (fld c.raw 0x10 0 64) (if uClose word then fld c.raw 0x18 0 64 + 1 else 0)
        (if uClose word then clipAt else 0) 0 ctx with
      | (t, .error .wait) => .next (keepRequests s t)
      | (t, .error _) => .next (badCmd (takeAnswers t q) q c.n stNmuFault)
      | (t, .ok (table, hyp, clip)) =>
        let t := takeAnswers t q
        if tableBad table || (uClose word && hypBad hyp) then .next (badCmd t q c.n stNmuFault)
        else
          let k : NmuCmd :=
            { queue := q, cmd := c.n, ctx := ctx, word := word, stream := fld c.raw 0xC 0 32, seed := c.seed0
              step := c.step0, epoch := epoch, table := fld c.raw 0x10 0 64 }
          let k := { k with header := headerPack k clip hyp }
          let fresh := t.pair.depEpoch != epoch || t.pair.depAcked
          let t := { t with pair := { t.pair with depEpoch := epoch, depAcked := false, depSent := if fresh then 0 else t.pair.depSent } }
          .next (startNmus t .deposit k table 0 depositClose)

/-- MIRROR_SEND (R198, R199, R201). -/
def execMirrorSend (q : QueueId) (s : State) : Out :=
  match actCmd s q 0x51 with
  | none => .next s
  | some c =>
    let word := bits c.raw 64 32
    let epoch := fld c.raw 0x28 0 32
    let ctx := (s.queueOf q).ctx
    let tab := fld c.raw 0x10 0 64
    if updateExecutes s ctx then .next (badCmd s q c.n stMirrorOrder)
    else if !s.nmusFree then .next s
    else if !pairUser s q || !(s.pair.depAcked && s.pair.depEpoch == epoch) || bits word 0 13 ≠ bits s.pair.depWord 0 13 ||
        tab ≠ s.pair.depTable then .next (badCmd s q c.n stMirrorOrder)
    else match readUpdate s q tab 0 0 0 ctx with
      | (t, .error .wait) => .next (keepRequests s t)
      | (t, .error _) => .next (badCmd (takeAnswers t q) q c.n stNmuFault)
      | (t, .ok (table, _, _)) =>
        let t := takeAnswers t q
        if tableBad table then .next (badCmd t q c.n stNmuFault)
        else
          let k : NmuCmd := { queue := q, cmd := c.n, ctx := ctx, word := word, epoch := epoch, table := tab }
          .next (startNmus t .send k table 0 sendClose)

/-- A deposit or send reads its block's portions and sends them: (read, and where the partner keeps them). -/
def sendPortions (word d : Nat) (deposit : Bool) : List (List (Nat × Nat)) :=
  let p := uParams d
  let m := uMoments word
  if deposit then
    [stripePieces (uG d) 0 (if isIeee (uGfmt word) then 2 * p else p), stripePieces (uS d) 0 (uGscales word d)]
  else
    [uWeightPieces word d, (if m ≥ 1 then stripePieces (uM1 d) 0 p else []),
     (if m = 2 then stripePieces (uM2 d) 0 p else if uOpt word = 3 then stripePieces (uM2 d) 0 768 else []),
     stripePieces (uS d) (uGscales word d) (m * uMscales d)]

/-- Sends one block of a deposit or of the mirror stream. -/
def nmuSendBlock (s : State) (u d : Nat) (deposit : Bool) (close : State → Nat → State × Bool) : Out :=
  let x := s.nmuOf u
  let k := x.cmd
  let ps := sendPortions k.word d deposit
  if !s.pairUp then .next s
  else match nmuReads s u k.ctx 0 ps with
    | (t, .error .wait) => .next (keepRequests s t)
    | (t, .error .xlate) => .next (nmuFaultAt t u 5 close)
    | (t, .error _) => .next (nmuFaultAt t u 7 close)
    | (t, .ok (parts, bad)) =>
      if bad then .next (nmuSkip t u close)
      else
        let t := crossTo t (u / 6) 5
        let places := ps.flatten.flatMap fun e => [e.1, e.2]
        let t := pairSend t (if deposit then pmDeposit else pmMirror) ([u, x.next, k.epoch] ++ places) parts.flatten
        let t := { t with pair := { t.pair with depSent := t.pair.depSent + bit deposit } }
        let y := t.nmuOf u
        .next (nmuNext (t.setNmu u { y with done := y.done + 1, sent := y.sent + 1 }) u close)

/-! Redo (R202, R203) -/

/-- The map entry of a block. -/
def mapEntryAt (s : State) (u j : Nat) : Nat := s.pair.map + 4 * (2 ^ 20 * u + j)

/-- MIRROR_REDO. -/
def execMirrorRedo (q : QueueId) (s : State) : Out :=
  match actCmd s q 0x31 with
  | none => .next s
  | some c =>
    let epoch := bits c.raw 64 32
    let ctx := (s.queueOf q).ctx
    if !s.nmusFree then .next s
    else if s.pairState ≠ psLost || (s.pairPrior ≠ psDepClosed && s.pairPrior ≠ psStreamOpen) || s.pairCtx ≠ ctx then
      .next (badCmd s q c.n stMirrorOrder)
    else if rowsBusy s s.pair.hdr 128 then .next s
    else match readFrom s 4 ctx s.pair.hdr 128 with
      | (t, r) =>
        if r.bus || r.bad then .next (badCmd t q c.n stNmuFault)
        else
          let raw := leNat r.bytes
          let h := if raw = Config.headerBytes t.pair.header % 2 ^ 1024 then t.pair.header else Config.headerFields raw % 2 ^ 1024
          if bits h 0 32 ≠ epoch then .next (badCmd s q c.n stMirrorOrder)
          else match readUpdate t q (bits h 320 48) 0 0 t.pair.offset ctx with
            | (t, .error .wait) => .next (keepRequests s t)
            | (t, .error _) => .next (badCmd (takeAnswers t q) q c.n stNmuFault)
            | (t, .ok (table, _, _)) =>
              let t := takeAnswers t q
              let hyp := bits h 512 512
              if tableBad table || hypBad hyp || updFormatsBad (bits h 32 32) then .next (badCmd t q c.n stNmuFault)
              else match clipFactor (hypList hyp) (if h.testBit 96 then some (bits h 256 32) else none) with
                | .error fl => .next (badCmd (mergeFlags t ctx 3 fl) q c.n stNonfiniteNorm)
                | .ok f =>
                  let k : NmuCmd :=
                    { queue := q, cmd := c.n, ctx := ctx, word := bits h 32 32, stream := bits h 64 32, seed := bits h 128 64
                      step := bits h 192 64, epoch := epoch, hyp := hypList hyp, clip := f.1, shift := t.pair.offset
                      table := bits h 320 48 }
                  .next (startNmus t .redo k table f.2 redoClose)

/-- Redoes one block: one whose map entry already holds the epoch is passed over. -/
def nmuRedoBlock (s : State) (u d : Nat) : Out :=
  let x := s.nmuOf u
  let k := x.cmd
  let a := mapEntryAt s u x.next
  if rowBusy s a then .next s
  else match readFrom s (u / 6) k.ctx a 4 with
  | (t, r) =>
    if r.bus || r.bad then .next (nmuFaultAt t u 7 redoClose)
    else if leNat r.bytes = k.epoch then .next (nmuNext t u redoClose)
    else nmuUpdateBlock s u d redoClose fun t =>
      let (t, bad) := writeFrom t (u / 6) k.ctx a (leBytes k.epoch 4)
      (t, !bad)

/-! Unit events -/

/-- What ends the command a unit works for. -/
def closeOf : NmuState → State → Nat → State × Bool
  | .deposit => depositClose
  | .send => sendClose
  | .redo => redoClose
  | _ => noClose

/-- NMU_DESCRIPTOR_FETCH (R192). -/
def execNmuDescriptorFetch (u : StackId) (s : State) : Out := nmuFetch s u (closeOf (s.nmuOf u).state)

/-- NMU_BLOCK_WRITTEN (R191, R193): the unit's block is updated whole, or sent, or skipped. -/
def execNmuBlockWritten (u : StackId) (s : State) : Out :=
  let x := s.nmuOf u
  match x.desc with
  | none => .next s
  | some d =>
    if (s.islOf (24 + u)).resetting || s.halted then .next s
    else if x.refused then .next (nmuFaultAt s u 7 (closeOf x.state))
    else match x.state with
      | .idle => .next s
      | .update => nmuUpdateBlock s u d noClose fun t => (t, true)
      | .deposit => nmuSendBlock s u d true depositClose
      | .send => nmuSendBlock s u d false sendClose
      | .redo => nmuRedoBlock s u d

/-! The receiver (R197, R198, R200) -/

/-- Writes partner addresses plus OFFSET under the bound context. -/
def pairWrite (s : State) (u : Nat) (parts : List (Nat × List Byte)) : State × Bool :=
  parts.foldl (fun (w : State × Bool) e =>
    if !w.2 then w
    else match memWrite w.1 (agNmu u) (u / 6) reqNmu w.1.pairCtx ((e.1 + w.1.pair.offset) % 2 ^ 48) e.2 with
      | (t, .ok _ _) => (t, true)
      | (t, _) => (t, false)) (crossTo s 5 (u / 6), true)

/-- The next packet counter of the receiving direction: every packet takes one, whatever becomes of it (R368). -/
def nextRx (s : State) : State := { s with pair := { s.pair with rxCtr := s.pair.rxCtr + 1 } }

/-- A packet whose tag fails is discarded and counted (R368). -/
def badTag (s : State) : Out := .next ((nextRx s).bump .sec 0 0x110 1)

/-- A plaintext cut into the runs of bytes that it holds. -/
def cutParts : List (Nat × Nat) → List Byte → List (Nat × List Byte)
  | [], _ => []
  | (a, n) :: ps, b => (a, b.take n) :: cutParts ps (b.drop n)

/-- Opens a data packet under the key and the counter of the receiving direction (R368), and gives its runs of bytes to `f`. `good` is
what the model finds (log entry 190). -/
def openPacket (s : State) (pkt : PairPkt) (good : Bool) (f : List (Nat × List Byte) → Out) : Out :=
  match pairOpen s.pair.rxKey s.pair.rxCtr pkt.head pkt.body with
  | none => if good then .next s else badTag s
  | some plain => if good then f (cutParts pkt.places plain) else .next s

/-- DEPOSIT_BLOCK_RX: a deposit packet of `epoch`; `last`, that it completes its block. -/
def execDepositBlockRx (u : StackId) (epoch : W32) (pkt : PairPkt) (last good : Bool) (s : State) : Out :=
  let st := s.pairState
  if !s.pairBound || !s.pairUp then .next s
  else openPacket s pkt good fun parts =>
    if epoch.toNat ≠ (s.pairEpoch + 1) % 2 ^ 32 || st = psStreamOpen then .next (nextRx s)
    else match pairWrite s u parts with
      | (t, false) => .next (keepRequests s t)
      | (t, true) =>
        let t := nextRx (takeAnswers t (agNmu u))
        let n := (if st = psDepOpen then t.pair.rxDep else 0) + bit last
        .next ({ t with pair := { t.pair with rxDep := n } }.setPairState psDepOpen)

/-- DEPOSIT_CLOSE: the closing message's count has been reached; its header is kept at HDR and the deposit acknowledged. -/
def execDepositClose (epoch : W32) (count : Nat) (header : Nat) (s : State) : Out :=
  if s.pairState ≠ psDepOpen || epoch.toNat ≠ (s.pairEpoch + 1) % 2 ^ 32 || s.pair.rxDep ≠ count || rowsBusy s s.pair.hdr 128 then .next s
  else
    let h := header % 2 ^ 1024
    let (s, bad) := writeFrom s 5 s.pairCtx s.pair.hdr (leBytes (Config.headerBytes h) 128)
    if bad then .next s
    else
      let s := { s with pair := { s.pair with header := h } }
      .next (pairSend (s.setPairState psDepClosed) pmDepositAck [epoch.toNat] [])

/-- The reassembled parts of a mirror block. -/
def findReasm (s : State) (u j : Nat) : Option Reasm := s.pair.reasm.find? fun r => r.s == u && r.j == j

/-- Keeps or removes a block of the reassembly buffer, and shows the count. -/
def setReasm (s : State) (u j : Nat) (r : Option Reasm) : State :=
  let rest := s.pair.reasm.filter fun x => !(x.s == u && x.j == j)
  let all := match r with
    | some r => rest ++ [r]
    | none => rest
  { s with pair := { s.pair with reasm := all } }.setReg .nmu 0 0x210 all.length

/-- MIRROR_BLOCK_RX: a mirror packet is assembled; a whole block is written. -/
def execMirrorBlockRx (u : StackId) (j : Fin 1048576) (epoch : W32) (pkt : PairPkt) (whole good : Bool) (s : State) : Out :=
  let st := s.pairState
  let old := findReasm s u j
  let full := decide (old.isNone ∧ s.pair.reasm.length ≥ 64) || (old.map (·.whole)) = some true
  if !s.pairBound || !s.pairUp then .next s
  else openPacket s pkt good fun parts =>
    if epoch.toNat ≠ (s.pairEpoch + 1) % 2 ^ 32 || (st ≠ psDepClosed && st ≠ psStreamOpen) then .next (nextRx s)
    else if full then .next s
    else
      let all := (old.map (·.parts)).getD [] ++ parts.map fun e => (0, e.1, e.2)
      let s0 := s
      let s := if st = psDepClosed then (s.setPairState psStreamOpen).setReg .nmu 0 0x208 0 else s
      if !whole then .next (setReasm (nextRx s) u j (some ⟨u, j, epoch.toNat, all, false⟩))
      else match pairWrite s u (all.map fun e => (e.2.1, e.2.2)) with
        | (t, false) => .next (keepRequests s0 t)
        | (t, true) => .next (setReasm (nextRx (takeAnswers t (agNmu u))) u j (some ⟨u, j, epoch.toNat, [], true⟩))

/-- MIRROR_BLOCK_WRITTEN: the map entry takes the epoch, and the block is counted unless its entry already held it (R199). -/
def execMirrorBlockWritten (u : StackId) (j : Fin 1048576) (s : State) : Out :=
  match findReasm s u j with
  | none => .next s
  | some r =>
    let a := mapEntryAt s u j
    if !r.whole || rowBusy s a then .next s
    else
      let (s, old) := readFrom s (u / 6) s.pairCtx a 4
      if old.bus || old.bad then .next s
      else
        let (s, bad) := writeFrom s (u / 6) s.pairCtx a (leBytes r.epoch 4)
        if bad then .next s
        else
          let n := s.reg .nmu 0 0x208 + bit (leNat old.bytes != r.epoch)
          .next (setReasm (s.setReg .nmu 0 0x208 (n % 2 ^ 32)) u j none)

/-- MIRROR_STREAM_CLOSE (R198, R200). -/
def execMirrorStreamClose (epoch : W32) (count : Nat) (s : State) : Out :=
  if s.pairState ≠ psStreamOpen || epoch.toNat ≠ (s.pairEpoch + 1) % 2 ^ 32 || s.reg .nmu 0 0x208 ≠ count then .next s
  else
    let s := (s.setPairState psIdle).setReg .nmu 0 0x204 epoch.toNat
    let s := { s.setReg .nmu 0 0x208 0 with pair := { s.pair with rxDep := 0 } }
    .next (pairSend s pmStreamAck [epoch.toNat] [])

/-- MIRROR_ACK_RX: the acknowledgement of a deposit or of a stream completes the command that waits for it. -/
def execMirrorAckRx (stream : Bool) (epoch : W32) (s : State) : Out :=
  match s.pair.waiting with
  | none => .next s
  | some (q, n, isSend, u) =>
    if isSend != stream || !s.pairUp || (s.nmuOf u).cmd.epoch ≠ epoch.toNat then .next s
    else
      let s := { s with pair := { s.pair with waiting := none, depAcked := s.pair.depAcked || !stream } }
      let s := if stream then s.setReg .nmu 0 0x20C epoch.toNat else s
      .next (reportEngine s q n (0x30 + u) none)

end Sys2Proof.Machine
end

