-- ==== Sys2Proof/Machine/PageRegs.lean ====
section
/-!
DEFINITION. Writes of the common header (R380, R385, R415), of a sequencer's registers (R243) and of the pages of an array
group, whose island takes them when it runs (R418). A write that answers `none` is ignored and logged.
Rows of notes/assumptions: DEDUCED 25, 26, 30, 57; DESIGN CHOICE 192.
-/
namespace Sys2Proof.Machine

open Sys2Proof

/-- `x` with the bits of `m` cleared. -/
def clearBits (x m : Nat) : Nat := x - (x &&& m)

/-- `x` with the bits of `m` taken from `v`. -/
def maskWrite (x v m : Nat) : Nat := clearBits x m + (v &&& m)

/-- The plain effect of a write on a word of layout `l`: RW bits, RWK bits on a privileged path, and RW1C bits (R9). -/
def plainWrite (s : State) (b : Block) (i po : Nat) (l : Lay) (priv : Bool) (v : Nat) : State :=
  let m := l.rw + (if priv then l.rwk else 0)
  s.setReg b i po (clearBits (maskWrite (s.reg b i po) v m) (v &&& l.w1c))

/-- The layout of a word, with nothing writable where it is reserved. -/
def layAt (b : Block) (i po : Nat) : Lay := (layIn b i po).getD (ro 0)

/-! The header -/

/-- Clears a page's whole error record (R385), and what the page holds only until then: the first failing instruction (R75,
R133) and the tag failure's owner (R178). -/
def clearErr (s : State) (b : Block) (i : Nat) : State :=
  let s := (List.range 7).foldl (fun s k => s.setReg b i (0x20 + 4 * k) 0) s
  match b with
  | .arr => s.setArr i { s.arrOf i with failHeld := false }
  | .vec => s.setVec i { s.vecOf i with failHeld := false }
  | .mpe => s.setReg .mpe i 0x104 0
  | _ => s

/-- A write of CNT_SEL[k] zeroes its value (R380); a code that the page does not count is refused (R381). -/
def writeSel (s : State) (b : Block) (i k v : Nat) : Option State :=
  if eventOk b i (v % 256) then
    some (((s.setReg b i (0x40 + 4 * k) (bits v 0 16)).setReg b i (0x60 + 8 * k) 0).setReg b i (0x64 + 8 * k) 0)
  else none

/-- A write of INT_ENABLE: a rise of INT_STATUS raises the error vector (R415). -/
def writeIntEnable (s : State) (b : Block) (i v : Nat) : State :=
  let was := s.reg b i 0x18 % 2
  let s := s.setReg b i 0x18 (v % 2)
  if was = 0 && v % 2 = 1 && s.reg b i 0x14 % 2 = 1 then raiseVector s (s.field .obs 0 0x1B4 0 11) else s

/-- A privileged write of a header word other than CTRL. -/
def writeHead (s : State) (b : Block) (i po v : Nat) : Option State :=
  if po = 0x14 then some (s.setReg b i 0x14 (clearBits (s.reg b i 0x14) (v % 2)))
  else if po = 0x18 then some (writeIntEnable s b i v)
  else if po = 0x20 then some (if v % 2 = 1 then clearErr s b i else s)
  else if 0x40 ≤ po && po < 0x60 then writeSel s b i ((po - 0x40) / 4) v
  else some s

/-! Sequencer registers -/

/-- A privileged write of a sequencer's register (R243): the ring's place and size stay while the trace is on. -/
def writeSeqReg (s : State) (n o v : Nat) : Option State :=
  let cfg := s.seqReg n 0x18
  let (b, i, _) := seqPage n
  if o = 0x08 then some (s.setSeqReg n o (clearBits (s.seqReg n o) (v &&& 0x10)))
  else if o = 0x10 || o = 0x14 then
    if cfg.testBit 5 then none else some (s.setSeqReg n o (v &&& (if o = 0x10 then 0xFFFFF000 else 0xFFF)))
  else if o = 0x18 then
    if cfg.testBit 5 && bits v 0 5 != bits cfg 0 5 then
      some (logIgnored (s.setSeqReg n o (bits cfg 0 5 + bits v 5 4 * 32)) b i ((let (b, i, a) := seqPage n; pageBase b i + a) + o))
    else some (s.setSeqReg n o (bits v 0 9))
  else if o = 0x20 then some (writeTraceHead s n v)
  else if o = 0x24 then some (s.setSeqReg n o (clearBits (s.seqReg n o) v))
  else some s

/-! Array groups -/

/-- A write of a block-specific word of an array group's page. -/
def writeArrayWord (s : State) (b : Block) (n po v : Nat) (priv : Bool) : Option State :=
  match b with
  | .arr =>
    if po = 0x100 then (if bits v 0 7 < 16 || bits v 0 7 > 64 then none else some (s.setReg .arr n 0x100 (bits v 0 7))) else some s
  | .seq => if po < 0x128 then writeSeqReg s n (po - 0x100) v else some s
  | .als =>
    if po = 0x100 then some (if v % 2 = 1 then requestScrub s n else s)
    else
      let s := plainWrite s .als n po (layAt .als n po) priv v
      some (if po = 0x104 && v != 0 then s.setReg .als n 0x108 0 else s)
  | .qnt =>
    if po = 0x108 then
      let s := if v % 2 = 1 then (s.setReg .qnt n 0x100 0).setReg .qnt n 0x104 0 else s
      some (if v.testBit 1 then (s.setReg .qnt n 0x10C 0).setReg .qnt n 0x110 0 else s)
    else some (plainWrite s .qnt n po (layAt .qnt n po) priv v)
  | b => some (plainWrite s b n po (layAt b n po) priv v)

/-- One write that an array island takes, at an aperture offset: what is not privileged has been refused before. -/
def applyArrayWrite (s : State) (w : Nat × Nat × Bool) : State :=
  match pageOf w.1 with
  | none => s
  | some (b, n) =>
    let po := w.1 % 0x1000
    let r := if po < 0x100 then writeHead s b n po w.2.1 else writeArrayWord s b n po w.2.1 w.2.2
    match r with
    | some t => t
    | none => logIgnored s b n w.1

/-- An array island that runs takes the writes and the signals that waited for it, in order (R20, R418). -/
def wakeIsland (s : State) (n : Nat) : State :=
  if s.islandStopped n then s
  else
    let i := s.islOf n
    let s := i.writes.foldl applyArrayWrite (s.setIsl n { i with writes := [], signals := [] })
    i.signals.foldl (fun s e => countSignal s n e.1 e.2) s

end Sys2Proof.Machine
end

