-- ==== Sys2Proof/Machine/Contexts.lean ====
section
/-!
DEFINITION. Contexts, arrays and queues as resources (R213, R222–R231, R366): their creation and end, keys, invalidations and
initial contents, the switch of a shared array, and the destruction of a queue with work outstanding.
Rows of notes/assumptions: DEDUCED 16, 34, 46, 69, 70, 71, 72, 73, 74; DESIGN CHOICE 162, 184.
-/
namespace Sys2Proof.Machine

open Sys2Proof

/-! Contexts (R223) -/

/-- Whether a context has a queue, an array mapping, a valid DMA channel or a DSS partition. -/
def State.ctxHolds (s : State) (c : Nat) : Bool :=
  (s.queues.any fun e => decide (e.1 < 1024) && e.2.state != .disabled && e.2.ctx == c) ||
  !(s.ctxOf c).map.isEmpty ||
  ((List.range 128).any fun k => s.chValid k && s.chCtx k == c) ||
  ((List.range 64).any fun i => s.partOwned (i / 16) (i % 16) c)

/-- A fresh context from a CTX_CREATE command. -/
def freshCtx (raw : Nat) : Ctx :=
  { resident := true
    mode := fld raw 8 6 2
    extent := fld raw 8 8 6
    quantum := fld raw 0xC 0 16
    saveBase := fld raw 0x10 0 64
    ranges := ((List.range 4).map fun i => (fld raw (0x20 + 16 * i) 0 64, fld raw (0x28 + 16 * i) 0 64)).filter fun r => r.1 != r.2 }

/-- Whether CTX_CREATE names a context that exists (R214, R224). -/
def ctxCreateTarget (s : State) (c : Cmd) : Bool :=
  (s.ctxOf (fld c.raw 8 0 6)).resident

/-- CTX_CREATE. -/
def execCtxCreate (q : QueueId) (s : State) : Out :=
  match actCmd s q 0xC0 with
  | none => .next s
  | some c =>
    let k := fld c.raw 8 0 6
    if ctxCreateTarget s c then .next (failCmd s q c.n stTarget 0)
    else
      let root := fld c.raw 0x18 0 64
      let s := s.setCtx k (freshCtx c.raw)
      let s := (s.setReg .mmu 0 (0x200 + 8 * k) (root % 2 ^ 32 + 1)).setReg .mmu 0 (0x204 + 8 * k) (root / 2 ^ 32)
      .next (doneCmd s q c.n)

/-- Whether CTX_DESTROY names a context that does not exist or still holds something (R214, R224). -/
def ctxDestroyTarget (s : State) (c : Cmd) : Bool :=
  !(s.ctxOf (fld c.raw 8 0 6)).resident || s.ctxHolds (fld c.raw 8 0 6)

/-- CTX_DESTROY. -/
def execCtxDestroy (q : QueueId) (s : State) : Out :=
  match actCmd s q 0xC1 with
  | none => .next s
  | some c =>
    let k := fld c.raw 8 0 6
    if ctxDestroyTarget s c then .next (failCmd s q c.n stTarget 0)
    else
      let s := s.setField .mmu 0 (0x200 + 8 * k) 0 1 0
      let s := loseSlots (s.setCtx k {}) fun v => v.ctx == k
      .next (doneCmd s q c.n)

/-! Queues -/

/-- Whether QUEUE_CREATE names no context, or a queue that is in use (R214). -/
def queueCreateTarget (s : State) (c : Cmd) : Bool :=
  !(s.ctxOf (fld c.raw 8 10 6)).resident || (s.queueOf (fld c.raw 8 0 10)).state != .disabled

/-- QUEUE_CREATE. -/
def execQueueCreate (q : QueueId) (s : State) : Out :=
  match actCmd s q 0xC2 with
  | none => .next s
  | some c =>
    let f := fun o lo w => fld c.raw o lo w
    let k := f 8 0 10
    if queueCreateTarget s c then .next (failCmd s q c.n stTarget 0)
    else
      let x : Queue :=
        { state := .running, ctx := f 8 10 6, log := f 8 16 5, big := c.raw.testBit 85, cqLog := f 8 22 5, vector := f 0xC 0 11
          ring := f 0x10 0 64, cq := f 0x18 0 64, timeout := f 0x20 0 32 }
      .next (doneCmd (s.setQueue k x) q c.n)

/-- The counts of a queue whose fetching resumes at a new head: positions passed over count as done, and a rewind takes DONE
back with it. -/
def moveHead (x : Queue) (v : Nat) : Queue :=
  let kept := x.cmds.filter fun (c : Cmd) => c.started
  let fresh : Nat := (x.cmds.filter fun c => !c.started).length
  let old : Nat := (2 ^ 32 + x.head - fresh) % 2 ^ 32
  let x := { x with cmds := kept, head := v }
  let ahead : Nat := (2 ^ 32 + v - old) % 2 ^ 32
  if ahead < 2 ^ 31 then
    let skipped := (List.range ahead).map fun i => (old + i) % 2 ^ 32
    let x := { x with doneSet := x.doneSet ++ skipped }
    advanceDone (x.doneSet.length + 1) x
  else
    let after := fun n => decide ((2 ^ 32 + n - v) % 2 ^ 32 < 2 ^ 31)
    { x with doneSet := x.doneSet.filter fun n => !after n, doneN := if after x.doneN then v else x.doneN }

/-- Whether QUEUE_RESUME names a queue that is not stopped, or a head from which the ring does not reach TAIL (R213, R214). -/
def queueResumeTarget (s : State) (c : Cmd) : Bool :=
  let k := fld c.raw 8 0 11
  let x := s.queueOf k
  decide (k > 1039) || (x.state != .stopped && x.state != .orphaned) ||
    (flag c.raw 8 11 && decide ((2 ^ 32 + x.tail - fld c.raw 0xC 0 32) % 2 ^ 32 > 2 ^ x.log))

/-- QUEUE_RESUME. -/
def execQueueResume (q : QueueId) (s : State) : Out :=
  match actCmd s q 0xC5 with
  | none => .next s
  | some c =>
    let k := fld c.raw 8 0 11
    let set := flag c.raw 8 11
    let v := fld c.raw 0xC 0 32
    let x := s.queueOf k
    if queueResumeTarget s c then .next (failCmd s q c.n stTarget 0)
    else
      let x := if set then moveHead x v else x
      .next (doneCmd (s.setQueue k { x with state := .running, reason := 0, orphan := false, since := none }) q c.n)

/-! Arrays (R224) -/

/-- Whether a started or ready command of a context names its logical array `l`. -/
def namesArray (s : State) (k l : Nat) : Bool :=
  let p := tabGet 0 (s.ctxOf k).map l
  s.queues.any fun e => decide (e.1 < 1024) && e.2.ctx == k &&
    ((e.2.cmds.any fun c => cOpc c.raw == 1 && c.raw.testBit (64 + l) && !c.ended && c.started) ||
      (p != 0 && (readyOn s e.1 (p - 1)).any fun c => c.raw.testBit (64 + l)))

/-- An array island that has a context and a clock starts (R71): the array leaves STOPPED, and what waited for the island is
taken. -/
def startIsland (s : State) (p : Nat) : State := wakeIsland (settleArr s p) p

/-- Gives a context a physical array as its logical array `l`: an array that had no context leaves STOPPED (R71). -/
def mapArray (s : State) (k l p : Nat) : State :=
  let first := !s.arrAssigned p
  let x := s.ctxOf k
  let s := s.setCtx k { x with map := tabSet 0 x.map l (p + 1) }
  if first then startIsland s p else s

/-- Takes a logical array from a context: its image goes, a held array is scrubbed at once, and an array that no context has
left stops its island once it is at rest (R71). -/
def unmapArray (s : State) (k l p : Nat) : State :=
  let x := s.ctxOf k
  let s := s.setCtx k { x with map := tabSet 0 x.map l 0, images := tabSet none x.images l none }
  let h := s.holderOf p
  let s := if h.ctx = some k then (scrubAls s p).setHolder p { h with ctx := none, lastCtx := some k, quantumOver := false } else s
  if s.arrAssigned p then s
  else settleArr (s.setIsl p { s.islOf p with resumeMark := true }) p

/-- What ARRAY_ASSIGN ends with where it names no context, logical or physical array in the state it needs, or a disabled array; 0
where it can be carried out (R214, R224). -/
def arrayAssignTarget (s : State) (c : Cmd) : Nat :=
  let k := fld c.raw 8 0 6
  let l := fld c.raw 8 6 5
  let p := fld c.raw 8 11 5
  let at_ := tabGet 0 (s.ctxOf k).map l
  if l > 19 || !(s.ctxOf k).resident then stTarget
  else if flag c.raw 8 16 then (if at_ = 0 || namesArray s k l then stTarget else 0)
  else if p > 19 || at_ ≠ 0 || s.assignedTo k p then stTarget
  else if s.arrayDisabled p then stDisabledArray
  else 0

/-- ARRAY_ASSIGN. -/
def execArrayAssign (q : QueueId) (s : State) : Out :=
  match actCmd s q 0xC4 with
  | none => .next s
  | some c =>
    let k := fld c.raw 8 0 6
    let l := fld c.raw 8 6 5
    let p := fld c.raw 8 11 5
    let release := flag c.raw 8 16
    let at_ := tabGet 0 (s.ctxOf k).map l
    if arrayAssignTarget s c ≠ 0 then .next (failCmd s q c.n (arrayAssignTarget s c) 0)
    else if release then .next (doneCmd (unmapArray s k l (at_ - 1)) q c.n)
    else .next (doneCmd (mapArray s k l p) q c.n)

/-! Keys, translations and memory -/

/-- Seeds the generator of key sets from the entropy source (R365). -/
def seedKeys (s : State) : State :=
  let (t, e) := freeBytes s 48
  { t with mgmt := { t.mgmt with drbg := drbgSeed e } }

/-- A request to the generator, which is seeded again after every 2^20 requests (R365). -/
def drawKey (s : State) (n : Nat) : State × List Nat :=
  let s := if s.mgmt.drbg.count > 2 ^ 20 then
      let (t, e) := freeBytes s 48
      { t with mgmt := { t.mgmt with drbg := drbgReseed t.mgmt.drbg e } }
    else s
  let (g, b) := drbgBytes s.mgmt.drbg n
  ({ s with mgmt := { s.mgmt with drbg := g } }, b)

/-- Gives an owner a new key set in every protection engine, by one request to the generator (R165, R365, R366). -/
def newKey (s : State) (owner : Nat) : State :=
  let (s, b) := drawKey s 96
  let gen := s.mem.nextKey + 1
  { s with mem := { s.mem with keys := tabSet 0 s.mem.keys owner gen, nextKey := gen, sets := tabSet [] s.mem.sets gen b } }

def dropKey (s : State) (owner : Nat) : State := { s with mem := { s.mem with keys := tabSet 0 s.mem.keys owner 0 } }

/-- Whether the context of a key slot holds what KEY_BIND does not allow (R366). -/
def slotHeld (s : State) (k : Nat) : Bool :=
  let w := s.reg .bxl 0 0x10C
  s.ctxHolds k || (s.pairState != psUnbound && s.pairCtx == k) ||
    (w.testBit 7 && bits w 0 7 == k)

/-- KEY_BIND. -/
def execKeyBind (q : QueueId) (s : State) : Out :=
  match actCmd s q 0xC6 with
  | none => .next s
  | some c =>
    let k := fld c.raw 8 0 6
    if slotHeld s k then .next (failCmd s q c.n stTarget 0)
    else .next (doneCmd (if fld c.raw 8 6 2 = 1 then newKey s k else dropKey s k) q c.n)

/-- Whether TLB_INVAL names a context that does not exist (R214). -/
def tlbInvalTarget (s : State) (c : Cmd) : Bool :=
  decide (fld c.raw 8 0 2 ≥ 2) && !(s.ctxOf (fld c.raw 8 2 6)).resident

/-- TLB_INVAL: starts once no other invalidation is in progress; a SCOPE of none invalidates nothing (R179). -/
def execTlbInval (q : QueueId) (s : State) : Out :=
  match actCmd s q 0xC7 with
  | none => .next s
  | some c =>
    let scope := fld c.raw 8 0 2
    let k := fld c.raw 8 2 6
    if scope = 0 then .next (doneCmd s q c.n)
    else if tlbInvalTarget s c then .next (failCmd s q c.n stTarget 0)
    else if s.mmu.inval.isSome then .next s
    else
      let s := startInval s ⟨scope, k, fld c.raw 0x10 0 64, some (q.val, c.n)⟩
      .next (updCmd s q c.n fun c => { c with acted := true })

/-- INVALIDATION_COMPLETE (R164): once no covered walk is left; the TLB_INVAL command that waits for it completes. -/
def execInvalidationComplete (s : State) : Out :=
  if s.mmu.walks.any (·.discard) then .next s
  else match s.mmu.inval with
    | none => .next s
    | some v =>
      let s := { s with mmu := { s.mmu with inval := none } }
      match v.waiter with
      | none => .next s
      | some (q, n) => .next (doneCmd s q n)

/-- MEM_INIT: zeros under an owner, block by block (R169). -/
def zeroBlocks (s : State) (owner pa n : Nat) : State :=
  (List.range n).foldl (fun s i => (writeBlk s owner (pa + 256 * i) (leBytes 0 256)).1) s

/-- MEM_INIT: waits while a row of the pages is being copied (R174). -/
def execMemInit (q : QueueId) (s : State) : Out :=
  match actCmd s q 0xC8 with
  | none => .next s
  | some c =>
    let owner := fld c.raw 8 0 7
    if s.mem.keyOf owner = 0 then .next (failCmd s q c.n stTarget 0)
    else if rowsBusy s (fld c.raw 0x10 0 64) (2097152 * fld c.raw 0x18 0 32) then .next s
    else
      let pa := fld c.raw 0x10 0 64
      let n := fld c.raw 0x18 0 32
      .next (doneCmd (reach (zeroBlocks s owner pa (8192 * n)) 4 pa (2097152 * n)) q c.n)

/-! Kernel queues (R231) -/

/-- The register of a kernel queue at an offset of its block. -/
def State.kq (s : State) (k o : Nat) : Nat := s.reg .fe 2 (0x100 + 0x20 * k + o)

/-- A write of KQ[k].CFG: `none` where it is ignored and logged. Setting ENABLE makes the queue run, once the DCB is committed (R364); clearing it disables a queue
that is not being destroyed, whose fetched commands and held records go out as before. -/
def writeKqCfg (s : State) (k v : Nat) : Option State :=
  let v := bits v 0 17
  let q := 1024 + k
  let x := s.queueOf q
  if (s.kq k 8).testBit 5 then
    if v.testBit 5 then none
    else
      let s := s.setReg .fe 2 (0x108 + 0x20 * k) v
      some (if x.state = .draining then s
        else s.setQueue q { x with state := .disabled, reason := 0, since := none, cmds := x.cmds.filter fun c => c.started })
  else if v.testBit 5 && !s.committed then none
  else
    let s := s.setReg .fe 2 (0x108 + 0x20 * k) v
    if v.testBit 5 && x.state == .disabled && s.obs.fatal == 0 then
      some (s.setQueue q
        { state := .running, log := bits v 0 5, big := true, cqLog := bits (s.kq k 0x14) 0 5, vector := bits v 6 11
          ring := 2 ^ 12 * (s.kq k 0 / 2 ^ 12) + 2 ^ 32 * bits (s.kq k 4) 0 12
          cq := 2 ^ 12 * (s.kq k 0xC / 2 ^ 12) + 2 ^ 32 * bits (s.kq k 0x10) 0 12, timeout := s.kq k 0x18
          cmds := x.cmds, held := x.held, ends := x.ends })
    else some s

/-! The switch of an array (R225–R227) -/

/-- QUANTUM_EXPIRY. -/
def execQuantumExpiry (n : ArrayId) (s : State) : Out :=
  let h := s.holderOf n
  match h.ctx with
  | none => .next s
  | some c =>
    let t := (s.ctxOf c).quantum
    if t = 0 || decide (s.gtime < h.since + 1000 * t) then .next s
    else .next (s.setHolder n { h with quantumOver := true })

/-- Whether a command of a context runs on an array. -/
def busyOn (s : State) (k n : Nat) : Bool :=
  s.queues.any fun e => decide (e.1 < 1024) && e.2.ctx == k && e.2.cmds.any fun c => c.started && !c.ended && namesPhys s e.1 c n

/-- Where the image of a context's logical array lies (R225). -/
def saveSlot (x : Ctx) (l : Nat) : Nat := x.saveBase + 0x2D00000 * l

/-- The logical number of a physical array in a context. -/
def logicalOf (x : Ctx) (n : Nat) : Option Nat := (x.map.find? fun m => m.2 == n + 1).map (·.1)

/-- Writes a run of an image from a die, under owner 64, with the poison of its 64 B units. -/
def saveRun (s : State) (die a : Nat) (data : List Byte) (p : List Bool) : State :=
  poisonUnits (writeFrom s die 64 a data).1 (markedUnits a p)

/-- The poison of the 64 B units of one row of the accumulator image: a unit that holds a byte of a poisoned element. -/
def accRowPoison (a : Arr) (r : Nat) : List Bool :=
  (List.range 48).map fun u => (List.range 512).any fun c =>
    tabGet false a.accPoison (accKey r c) && decide (6 * c < 64 * u + 64) && decide (64 * u < 6 * c + 6)

/-- Saves the accumulators, the rescale table and the ALS extent of an array (R93, R101, R139, R225). -/
def saveArray (s : State) (n k l : Nat) : State :=
  let x := s.ctxOf k
  let base := saveSlot x l
  let a := s.arrOf n
  let als := s.alsOf n
  let s := (List.range 4096).foldl (fun s r =>
    saveRun s (n / 5) (base + 3072 * r) ((List.range 512).flatMap fun c => leBytes (tabGet accNegZero a.acc (accKey r c)) 6) (accRowPoison a r)) s
  let s := (List.range 512).foldl (fun s i =>
    saveRun s (n / 5) (0xC00000 + base + 1024 * i) ((tabSlice rtOne a.rescale (128 * i) 128).flatMap fun e => leBytes e 8) []) s
  let s := (List.range (x.extent * 1024)).foldl (fun s i =>
    saveRun s (n / 5) (0xC80000 + base + 1024 * i) (als.read (1024 * i) 1024) ((List.range 16).map fun u => tabGet false als.poison (16 * i + u))) s
  s.setCtx k { s.ctxOf k with images := tabSet none (s.ctxOf k).images l (some ⟨true⟩) }

/-- Counts the save of a switch as completed (R95). -/
def countSave (s : State) (n : Nat) : State :=
  (s.setReg .acc n 0x100 (4096 * 4)).setReg .acc n 0x108 ((s.reg .acc n 0x108 + 1) % 2 ^ 32)

/-- ACC.XFER while the image of the incoming context is read (R93, R95; log entry 162). -/
def showRestore (s : State) (n : Nat) : State :=
  let v := Config.xferPhase s.draws
  { s with draws := s.draws + 1 }.setReg .acc n 0x100 (pack [(0, 2, 2), (2, 13, v / 3 % 4096)])

/-- ACC.XFER between the two ends of a switch: the save in progress, completed, or, where the incoming context has an image, its
restore in progress (R93, R95; log entry 162). -/
def showSave (s : State) (n : Nat) (image : Bool) : State :=
  let v := Config.xferPhase s.draws
  let s := { s with draws := s.draws + 1 }
  let moving := fun (s : State) (op : Nat) => s.setReg .acc n 0x100 (pack [(0, 2, op), (2, 13, v / 3 % 4096)])
  if v % 3 = 0 then moving s 1
  else if v % 3 = 1 || !image then countSave s n
  else showRestore (countSave s n) n

/-- Whether a row that holds part of an array's image in a context's save area is being copied (R174). -/
def imageBusy (s : State) (n k : Nat) : Bool :=
  match logicalOf (s.ctxOf k) n with
  | some l => rowsBusy s (saveSlot (s.ctxOf k) l) 0x2D00000
  | none => false

/-- Whether a context has a saved image of an array (R225). -/
def hasImage (s : State) (k n : Nat) : Bool :=
  match logicalOf (s.ctxOf k) n with
  | some l => (tabGet none (s.ctxOf k).images l).isSome
  | none => false

/-- Reads the accumulators of an image. -/
def restoreAcc (s : State) (n base : Nat) : State :=
  (List.range 4096).foldl (fun s r =>
    let (s, x) := readFrom s (n / 5) 64 (base + 3072 * r) 3072
    let a := s.arrOf n
    let row := (List.range 512).foldl (fun (a : Arr) c =>
      let bad := x.bus || x.poison.getD (6 * c / 64) false || x.poison.getD ((6 * c + 5) / 64) false
      { a with acc := tabSet accNegZero a.acc (accKey r c) (leNat ((x.bytes.drop (6 * c)).take 6))
               accPoison := tabSet false a.accPoison (accKey r c) bad }) a
    s.setArr n row) s

/-- Reads the rescale table of an image; an entry whose memory is poisoned has no value the manual states. -/
def restoreTable (s : State) (n base : Nat) : State :=
  (List.range 512).foldl (fun s i =>
    let (s, x) := readFrom s (n / 5) 64 (0xC00000 + base + 1024 * i) 1024
    let a := s.arrOf n
    let es := (List.range 128).map fun e =>
      if x.bus || x.poison.getD (e / 8) false then Config.lostEntry (s.draws + e) % 2 ^ 64 else leNat ((x.bytes.drop (8 * e)).take 8)
    { s.setArr n { a with rescale := tabFill rtOne a.rescale (128 * i) es } with draws := s.draws + 128 }) s

/-- Reads the ALS extent of an image; lost memory is a poisoned block. -/
def restoreAls (s : State) (n base extent : Nat) : State :=
  (List.range (extent * 1024)).foldl (fun s i =>
    let (s, x) := readFrom s (n / 5) 64 (0xC80000 + base + 1024 * i) 1024
    let t := (s.alsOf n).write (1024 * i) (if x.bus then leBytes 0 1024 else x.bytes)
    s.setAls n ((List.range 16).foldl (fun t u => if x.bus || x.poison.getD u false then t.setPoison (1024 * i + 64 * u) else t) t)) s

/-- A DMA channel of a context whose transfer names an array. -/
def channelOn (s : State) (k n c : Nat) : Bool :=
  s.chValid k && s.chCtx k == c && (match (s.chOf k).desc with
    | some x => (descArrays (k / 32) x).contains n
    | none => false)

/-- Moves the channels of the outgoing context to WAIT_ARRAY; false while one has bursts in flight. -/
def parkChannels (s : State) (n c : Nat) : State × Bool :=
  let ks := (List.range 128).filter fun k => channelOn s k n c && ((s.chOf k).state == .active || (s.chOf k).state == .waitArray)
  (ks.foldl (fun s k => if (s.chOf k).atBoundary then s.setCh k { s.chOf k with state := .waitArray } else s) s,
   ks.all fun k => (s.chOf k).atBoundary)

/-- The outgoing context's part of a switch: channels, flags, the image, the scrub. -/
def switchOut (s : State) (n k : Nat) : State :=
  match parkChannels s n k with
  | (s, false) => s
  | (s, true) =>
    let s := mergeIsland s n k
    let s := match logicalOf (s.ctxOf k) n with
      | some l => showSave (saveArray s n k l) n ((s.holderOf n).incoming.any fun k' => hasImage s k' n)
      | none => s
    let s := scrubAls s n
    s.setHolder n { s.holderOf n with saved := true }

/-- CONTEXT_SWITCH_BEGIN (R139, R226, R227): given again while a channel of the outgoing context still has bursts in flight. A
scrub of the ALS comes first. -/
def execContextSwitchBegin (n : ArrayId) (s : State) : Out :=
  let h := s.holderOf n
  if !s.feRuns || s.alsBlocked n then .next s
  else match h.incoming with
    | some _ => match h.ctx with
      | some k => if h.saved || imageBusy s n k then .next s else .next (switchOut s n k)
      | none => .next s
    | none =>
      match oldestReady s n h.ctx with
      | none => .next s
      | some (_, _, k') =>
        match h.ctx with
        | none =>
          let s := s.setHolder n { h with incoming := some k' }
          .next (if hasImage s k' n then showRestore s n else s)
        | some k =>
          if busyOn s k n || (s.seqOf n).state != .idle || (readyFor s k n && !quantumIsOver s n) || imageBusy s n k then .next s
          else .next (switchOut (s.setHolder n { h with incoming := some k', saved := false }) n k)

/-- The incoming context's part of a switch (R93, R101, R139, R225). -/
def switchIn (s : State) (n k : Nat) (last : Option Nat) : State :=
  let x := s.ctxOf k
  let l := (logicalOf x n).getD 0
  let base := saveSlot x l
  let s := match tabGet none x.images l with
    | some img =>
      let s := restoreTable (restoreAcc s n base) n base
      let s := (s.setReg .acc n 0x100 (4096 * 4)).setReg .acc n 0x10C ((s.reg .acc n 0x10C + 1) % 2 ^ 32)
      if img.alsValid then restoreAls s n base x.extent else if last = some k then s else scrubAls s n
    | none =>
      let s := s.setArr n { s.arrOf n with acc := [], accPoison := [], rescale := [] }
      if last = some k then s else scrubAls s n
  s.setHolder n { ctx := some k, since := s.gtime, lastCtx := some k }

/-- CONTEXT_SWITCH_END (R148, R227). -/
def execContextSwitchEnd (n : ArrayId) (s : State) : Out :=
  let h := s.holderOf n
  match h.incoming with
  | none => .next s
  | some k =>
    if (h.ctx.isSome && !h.saved) || s.alsBlocked n || imageBusy s n k then .next s
    else
      let op := s.field .acc n 0x100 0 2
      let s := if op = 1 then countSave s n else if op ≠ 0 then s.setReg .acc n 0x100 (4096 * 4) else s
      let s := switchIn s n k h.lastCtx
      let s := if h.ctx.isSome then
          countEvent (s.setReg .fe 1 (0x180 + 4 * n) ((s.reg .fe 1 (0x180 + 4 * n) + 1) % 2 ^ 32)) .fe 0 0x59 (some k) 1
        else s
      let ks := (List.range 128).filter fun c => channelOn s c n k && (s.chOf c).state == .waitArray
      .next (ks.foldl (fun s c =>
        match (s.chOf c).desc with
        | some d => if arraysHeld s c d then s.setCh c { s.chOf c with state := .active } else s
        | none => s) s)

/-! Destroying a queue (R229, R230) -/

/-- Whether an engine serves an aborted command of a queue. -/
def abortedOn (x : Queue) (eng : Nat) : List Nat :=
  (x.cmds.filter fun c => c.aborted && !c.ended && c.engines.contains eng).map (·.n)

/-- The commands that an engine is told to abort: queue and index. -/
def toAbort (s : State) (eng : Nat) : List (Nat × Nat) := s.queues.flatMap fun e => (abortedOn e.2 eng).map fun n => (e.1, n)

/-- What a destroy's report starts from: the engines of the queue's started commands and the valid channels of its context,
in ascending engine code and then channel. -/
def reportList (s : State) (q : Nat) : List Report :=
  let x := s.queueOf q
  (List.range 0x48).flatMap fun e =>
    (if (abortedOn x e).isEmpty then [] else [({ engine := e } : Report)]) ++
    (if 0x20 ≤ e && e < 0x24 && q < 1024 then
      ((List.range 32).filter fun c => s.chValid (32 * (e - 0x20) + c) && s.chCtx (32 * (e - 0x20) + c) == x.ctx).map fun c =>
        ({ engine := e, unit := some c } : Report)
    else [])

/-- Whether QUEUE_DESTROY names its own queue or one that is not in use (R214). -/
def queueDestroyTarget (s : State) (q : Nat) (c : Cmd) : Bool :=
  decide (fld c.raw 8 0 11 > 1039) || fld c.raw 8 0 11 == q || (s.queueOf (fld c.raw 8 0 11)).state == .disabled ||
    (s.queueOf (fld c.raw 8 0 11)).state == .draining

/-- QUEUE_DESTROY. -/
def execQueueDestroy (q : QueueId) (s : State) : Out :=
  match actCmd s q 0xC3 with
  | none => .next s
  | some c =>
    let k := fld c.raw 8 0 11
    let x := s.queueOf k
    if queueDestroyTarget s q c then .next (failCmd s q c.n stTarget 0)
    else
      let s := updCmd s q c.n fun c => { c with acted := true }
      let s := s.setQState k .draining
      let s := x.cmds.foldl (fun s d =>
        if d.ended then s
        else if d.started then abortCmd s k d stAborted
        else updCmd s k d.n fun d => { d with started := true, acted := true, ended := true, status := stAborted,
                                              info := infoWord 0xFF 0 0, start := s.gtime }) s
      let s := loseSlots s fun v => v.queue == k
      let rs := reportList s k
      .next (s.setQueue k { s.queueOf k with destroy := some { byQueue := q, byCmd := c.n, reports := rs } })

/-- What an engine's report says of its progress (R230). -/
def progressOf (s : State) (eng rows : Nat) : Nat × Nat :=
  if eng < 20 then
    match (s.vecOf eng).exec with
    | some i => ((vecRowsFrom (s.alsOf eng) (s.vecOf eng).mid i.desc i.seed i.step (abortRow (s.vecOf eng) i.desc rows)).stored, vTag i.desc)
    | none => ((s.seqOf eng).mdone, s.field .arr eng 0x108 0 16)
  else if 0x30 ≤ eng && eng < 0x48 then ((s.nmuOf (eng - 0x30)).done, 0)
  else (0, 0)

/-- Fills an outstanding report of every destroy, and, after a fatal error, the engine's place in the deposit. -/
def fillReports (s : State) (eng : Nat) (unit : Option Nat) (f : Nat → Report → Report) : State :=
  let s := s.queues.foldl (fun s e =>
    match e.2.destroy with
    | none => s
    | some d =>
      let rs := d.reports.map fun r => if r.engine == eng && r.unit == unit && !r.done then { f e.1 r with done := true } else r
      s.setQueue e.1 { s.queueOf e.1 with destroy := some { d with reports := rs } }) s
  if s.obs.fatal = 1 && !(s.obs.stopped.any fun r => r.engine == eng && r.unit == unit) then
    { s with obs := { s.obs with stopped := s.obs.stopped ++ [{ f 0 { engine := eng, unit := unit } with done := true }] } }
  else s

/-- A DMA channel reaches its abort point (R149). -/
def abortChannel (s : State) (d c : Nat) : State :=
  let k := 32 * d + c
  let told := s.obs.fatal == 1 || s.queues.any fun e => match e.2.destroy with
    | some x => x.reports.any fun r => r.engine == 0x20 + d && r.unit == some c && !r.done
    | none => false
  if !told || (s.chOf k).writing then s
  else
    let x := s.chOf k
    let idle := x.state == .idle || x.state == .disabled
    let s := fillReports s (0x20 + d) (some c) fun _ r =>
      { r with final := if idle then 0 else 2, progress := if idle then 0 else x.written - x.skipped, tag := bits (s.ch k 0x30) 0 16, next := x.next }
    dmaStop s k

/-- A sequencer ends its list at an abort (R240), with the END record of the list (R242). -/
def idleSeq (s : State) (n : Nat) : State :=
  let q := s.seqOf n
  let s := if q.state = .idle then s
    else traceEnd s n (if q.state = .drain then (if q.silent then none else q.ending).elim 0 (·.status) else stAborted)
  let q := s.seqOf n
  dropAgent (s.setSeq n { q with state := .idle, ending := none, silent := false, xops := 0 }) (agSeq n)

/-- Whether an array has reached the end of its abort: its panels at rest, and nothing in progress (R71, R72). -/
def arrAtBoundary (a : Arr) : Bool :=
  (a.state == .stopped || a.state == .idle || a.state == .held) && a.exec.isNone && a.flow.isEmpty && a.post.isEmpty && a.tableLoad.isNone

/-- Whether the END record of a list that is aborted waits for room (R242). -/
def abortStalls (s : State) (n : Nat) : Bool := (s.seqOf n).state != .idle && s.endStalls n

/-- The engine's own part of an abort: `none` while it has not reached its abort point. -/
def stopEngine (s : State) (eng rows : Nat) (cmds : List (Nat × Nat)) : Option State :=
  if eng < 20 then
    if !arrAtBoundary (s.arrOf eng) || abortStalls s eng then none
    else some (idleSeq (islandBoundary (vecAbortAt s eng rows) eng) eng)
  else if eng < 0x28 then (if abortStalls s eng then none else some (idleSeq s eng))
  else if eng < 0x30 then
    let h := eng - 0x28
    let mine := fun (r : XReq) => cmds.contains (r.queue, r.cmd) || s.obs.fatal == 1
    let q := s.seqOf (24 + h)
    let list := q.state != .idle && (cmds.contains (q.queue, q.cmd) || s.obs.fatal == 1)
    if list && s.endStalls (24 + h) then none
    else
    let old := tabGet [] s.xch.queue h
    let s := { s with xch := { s.xch with queue := tabSet [] s.xch.queue h (old.filter fun r => !mine r) } }
    let s := (old.filter mine).foldl (fun s r => endReq s h r stAborted 0 0) s
    let s := (s.xch.ops.filter fun x => x.half == h && mine x.req).foldl abandonOp s
    some (if list then idleSeq s (24 + h) else s)
  else
    let u := eng - 0x30
    let x := s.nmuOf u
    let stalled := (x.state == .deposit || x.state == .send) && !s.pairUp
    if x.desc.isSome && !stalled then none
    else if x.state != .idle then some (nmuLeave (s.setNmu u { x with abort := false }) u noClose)
    else some (s.setNmu u { x with abort := false })

/-- FINAL of an engine that abandons no collective (R230): an update unit whose list for an aborted command is done had completed,
an engine without a list and an instruction had no work, and a half stops the list of an aborted command that its sequencer runs. -/
def finalOf (s : State) (eng : Nat) (cmds : List (Nat × Nat)) : Nat :=
  if 0x30 ≤ eng && eng < 0x48 then (if (s.nmuOf (eng - 0x30)).state != .idle then 2 else bit (!cmds.isEmpty))
  else if eng < 20 then
    (if (s.seqOf eng).state == .idle && arrQuiet (s.arrOf eng) && (s.vecOf eng).exec.isNone && (s.vecOf eng).wait.isNone then 0 else 2)
  else
    let q := s.seqOf (if eng < 0x28 then eng - 12 else 24 + (eng - 0x28))
    if q.state == .idle || (decide (0x28 ≤ eng) && !cmds.contains (q.queue, q.cmd) && s.obs.fatal != 1) then 0 else 2

/-- ENGINE_ABORT_REACHED (R229, R230): an engine, or a DMA channel, stops at its abort point and reports; `rows` is the row
boundary a vector engine stops at. -/
def execEngineAbortReached (eng : Nat) (chan : Option (Fin 32)) (rows : Nat) (s : State) : Out :=
  match chan with
  | some c => if 0x20 ≤ eng && eng < 0x24 then .next (abortChannel s (eng - 0x20) c) else .next s
  | none =>
    let seqNo := if eng < 20 then some eng else if 0x20 ≤ eng && eng < 0x24 then some (eng - 12) else none
    let known := seqNo.isSome || eng == 0x28 || eng == 0x29 || (decide (0x30 ≤ eng) && decide (eng < 0x48))
    let cmds := toAbort s eng
    if !known || (cmds.isEmpty && s.obs.fatal != 1) then .next s
    else
      let live := s.xch.ops.any fun x => eng == ecXch x.half && (cmds.contains (x.req.queue, x.req.cmd) || s.obs.fatal == 1)
      let (p, tag) := progressOf s eng rows
      let count := fun (q : Nat) => (cmds.filter fun e => e.1 == q).length
      let final := if live then 3 else finalOf s eng cmds
      match stopEngine s (if 0x20 ≤ eng && eng < 0x24 then eng - 12 else eng) rows cmds with
      | none => .next s
      | some t =>
        let t := cmds.foldl (fun t e => reportEngine t e.1 e.2 eng (some ⟨stAborted, 0, 0⟩)) t
        .next (fillReports t eng none fun q r => { r with final := final, progress := p, tag := tag, aborted := count q })

/-- Whether a destroy's entry is settled: reported, or its engine had completed before the abort reached it. -/
def settled (x : Queue) (r : Report) : Bool := r.done || (r.unit.isNone && (abortedOn x r.engine).isEmpty)

/-- The entry of an engine that completed before the abort reached it. -/
def completedEntry (s : State) (r : Report) : Report :=
  if r.done then r
  else
    let (p, tag) := progressOf s r.engine 0
    { r with final := 1, progress := p, tag := tag, done := true }

/-- QUEUE_DESTROY_DRAINED (R229): the context's held stores are scrubbed and its saved ALS images become void. -/
def execQueueDestroyDrained (q : QueueId) (s : State) : Out :=
  let x := s.queueOf q
  match x.destroy with
  | none => .next s
  | some d =>
    if s.halted || s.obs.fatal ≠ 0 || d.scrubbing || !(d.reports.all (settled x)) || x.cmds.any (fun c => !c.ended) then .next s
    else
      let s := s.setQueue q { x with destroy := some { d with reports := d.reports.map (completedEntry s), scrubbing := true } }
      if q.val ≥ 1024 then .next s
      else
        let k := x.ctx
        let held := (List.range 20).filter fun n => (s.holderOf n).ctx == some k
        let s := held.foldl (fun s n => { s with alsScrub := tabSet .none s.alsScrub n .running }) s
        let parts := (List.range 64).filter fun i => s.partOwned (i / 16) (i % 16) k
        let s := parts.foldl (fun s i => s.setReg .dss (i / 16) (0x100 + 4 * (i % 16)) (s.part (i / 16) (i % 16) ||| 128)) s
        let y := s.ctxOf k
        .next (s.setCtx k { y with images := y.images.map fun e => (e.1, e.2.map fun _ => ⟨false⟩) })

/-- The 16 B entries of a destroy's report, with the entry that ends it (R230). -/
def reportBytes (rs : List Report) : List Byte :=
  (rs.flatMap fun r => leBytes (pack [(0, 8, r.engine), (8, 8, r.final), (16, 8, r.unit.getD 0), (32, 32, r.progress), (64, 16, r.tag),
    (80, 16, r.next), (96, 32, r.aborted)]) 16) ++ leBytes 0xFF 16

/-- Whether the scrubs of a destroyed queue's context still run. -/
def scrubsRun (s : State) (k : Nat) : Bool :=
  ((List.range 20).any fun n => (s.holderOf n).ctx == some k && s.alsBlocked n) ||
  ((List.range 64).any fun i => s.partOwned (i / 16) (i % 16) k && s.partBusy (i / 16) (i % 16))

/-- QUEUE_DESTROY_COMPLETE (R219, R229): once the queue's own records have gone out. -/
def execQueueDestroyComplete (q : QueueId) (s : State) : Out :=
  let x := s.queueOf q
  match x.destroy with
  | none => .next s
  | some d =>
    if s.halted || s.obs.fatal ≠ 0 || !d.scrubbing || (decide (q.val < 1024) && scrubsRun s x.ctx) || !x.cmds.isEmpty || !x.held.isEmpty then .next s
    else
      let s := loseSlots s fun v => v.queue == q.val
      let a := ((s.cmdOf d.byQueue d.byCmd).map fun c => fld c.raw 0x10 0 64).getD 0
      if a = 0 then .next (doneCmd (s.setQueue q {}) d.byQueue d.byCmd)
      else
        feThen s d.byQueue (feWrite s d.byQueue a (reportBytes d.reports))
          (fun t _ => .next (doneCmd (updCmd (t.setQueue q {}) d.byQueue d.byCmd fun c => { c with detailWritten := true }) d.byQueue d.byCmd))
          (fun t => .next (badCmd (t.setQueue q {}) d.byQueue d.byCmd stFetchFault))

end Sys2Proof.Machine
end

