-- ==== Sys2Proof/Machine/Power.lean ====
section
/-!
DEFINITION. Power, time and temperature (R333–R352): setpoints and modes, caps and duty, estimates and stretches, the brake,
regulator alerts, droops, heat, holds and reservations, and the discipline of GTIME.
Rows of notes/assumptions: DEDUCED 120, 121, 122, 123, 124, 126, 127, 128, 129, 132, 133, 153, 183, 190; DESIGN CHOICE 2, 119,
125, 131, 178.
-/
namespace Sys2Proof.Machine

open Sys2Proof

/-! Caps, in microwatts -/

/-- The grade's TDP (R5). -/
def State.tdpUw (s : State) : Nat := s.tdp * 10 ^ 6

/-- A ramp at a GTIME: a linear move that stays at its target (R339). A slope of 1 W/ms is 1 µW/ns. -/
def rampAt (r : Ramp) (t : Nat) : Nat :=
  let moved := r.slope * (t - r.start)
  if r.from_ ≤ r.target then min r.target (r.from_ + moved) else max r.target (r.from_ - moved)

/-- The scheduled cap at a GTIME. -/
def schedAt (s : State) (t : Nat) : Nat :=
  match s.pwr.ramp with
  | none => s.tdpUw
  | some r => rampAt r t

/-- PWR.BRAKE.LEVEL_W. -/
def State.brakeUw (s : State) : Nat := s.field .pwr 0 0x110 0 12 * 10 ^ 6

/-- The thermal cap at a GTIME: it falls and rises at 50 W/ms and never falls below 720 W (R347). -/
def thermalAt (p : Pwr) (t : Nat) : Option Nat :=
  p.thermal.map fun v => match p.thermalFall with
    | some true => max (min v 720000000) (v - 50 * (t - p.thermalAt))
    | some false => v + 50 * (t - p.thermalAt)
    | none => v

/-- The duty of R342 for a cap. -/
def dutyOf (s : State) (e : Nat) : Nat :=
  let base := s.field .pwr 0 0x10C 0 12 * 10 ^ 6
  let span := s.field .pwr 0 0x10C 16 12 * 10 ^ 6
  min 1024 (max 16 (1024 * (e - base) / span))

/-- The duty in force: the model's less the trim; in ceiling mode only at an F_CEIL of 600 MHz (R342, R344, R345). -/
def dutyNow (s : State) (e : Nat) : Nat :=
  if s.pwr.ceiling && s.pwr.fceil != 0x60 then 1024 else max 16 (dutyOf s e - s.pwr.trim)

/-- Brings every cap and the duty up to date (R339, R340, R342, R346, R347). -/
def applyCaps (s : State) : State :=
  let p := s.pwr
  let sched := schedAt s s.gtime
  let rise := p.brakeRise.filter fun r => decide (rampAt r s.gtime < sched)
  let heat := (thermalAt p s.gtime).filter fun v => p.thermalFall != some false || decide (v < sched)
  let brake := if p.braked then s.brakeUw else (rise.map fun r => rampAt r s.gtime).getD sched
  let eff := min (min sched brake) (min (heat.getD sched) s.tdpUw)
  { s with pwr := { p with
      sched := sched
      brakeRise := rise
      thermal := if heat.isSome then p.thermal else none
      thermalFall := if heat.isSome then p.thermalFall else none
      eff := eff
      duty := dutyNow s eff } }

/-! The pending table (R337–R339) -/

/-- Whether entry `a` comes before `b`: by start, a mode before a setpoint. -/
def PwrEntry.before (a b : PwrEntry) : Bool := decide (a.start < b.start) || (a.start == b.start && a.isMode && !b.isMode)

/-- An entry takes its place in order. -/
def insertEntry (e : PwrEntry) : List PwrEntry → List PwrEntry
  | [] => [e]
  | x :: xs => if e.before x then e :: x :: xs else x :: insertEntry e xs

/-- Arrays that are not in an instruction take the frequency of the mode in force. -/
def retuneIdle (s : State) : State :=
  (List.range 20).foldl (fun s n => if tabGet 0 s.pwr.active n = 0 then retune s n else s) s

/-- An entry becomes active, as if it had begun at its START. -/
def activate (s : State) (e : PwrEntry) : State :=
  if e.isMode then
    let on := e.target == 1
    retuneIdle { s with pwr := { s.pwr with ceiling := on, fceil := if on && !s.pwr.ceiling then 0x78 else s.pwr.fceil } }
  else
    { s with pwr := { s.pwr with ramp := some ⟨schedAt s e.start, e.target * 10 ^ 6, e.slope, e.start⟩ } }

/-- Accepts an entry: `none` where it would need a ninth place. One whose START has passed is active at once. -/
def enterPwr (s : State) (e : PwrEntry) : Option State :=
  if e.start ≤ s.gtime then some (applyCaps (activate s e))
  else
    let others := s.pwr.table.filter fun x => x.start != e.start || x.isMode != e.isMode
    if others.length ≥ 8 then none
    else some { s with pwr := { s.pwr with table := insertEntry e others } }

/-- The entry of a PWR_SETPOINT's fields: a slope of 0 is 100 W/ms. -/
def setpointEntry (word start : Nat) : PwrEntry :=
  { isMode := false, start := start, target := bits word 0 12, slope := if bits word 16 11 = 0 then 100 else bits word 16 11 }

/-- The entry of a PWR_MODE's fields. -/
def modeEntry (word start : Nat) : PwrEntry := { isMode := true, start := start, target := bits word 0 1, slope := 0 }

/-- PWR_SETPOINT. -/
def execPwrSetpoint (q : QueueId) (s : State) : Out :=
  match actCmd s q 0xD8 with
  | none => .next s
  | some c => match enterPwr s (setpointEntry (fld c.raw 8 0 32) (fld c.raw 0x10 0 64)) with
    | some t => .next (doneCmd t q c.n)
    | none => .next (failCmd s q c.n stTarget 0)

/-- PWR_MODE. -/
def execPwrMode (q : QueueId) (s : State) : Out :=
  match actCmd s q 0xD9 with
  | none => .next s
  | some c => match enterPwr s (modeEntry (fld c.raw 8 0 32) (fld c.raw 0x10 0 64)) with
    | some t => .next (doneCmd t q c.n)
    | none => .next (failCmd s q c.n stTarget 0)

/-- SETPOINT_ACTIVATION (R339): the first entry whose START has come. -/
def execSetpointActivation (s : State) : Out :=
  match s.pwr.table with
  | [] => .next s
  | e :: es =>
    if e.start ≤ s.gtime then .next (applyCaps (activate { s with pwr := { s.pwr with table := es } } e)) else .next s

/-- Whether the controllers of power and time run: not in reset, nor after a trip. -/
def State.powerRuns (s : State) : Bool := !s.pins.inReset && !s.pwr.trip

/-- The nominal voltage of a rail in millivolts (R333). -/
def railMv (r : Nat) : Nat :=
  match r with
  | 0 | 1 | 2 | 3 => 620
  | 4 | 5 | 6 | 7 | 8 | 10 => 750
  | 9 => 1200
  | 12 => 1050
  | 13 => 700
  | _ => 1800

/-- The estimate of power in milliwatts, summed over all rails (R334, R341, R348; log entry 183). -/
def State.estimateMw (s : State) : Nat := ((List.range 15).map fun r => s.railEst r * railMv r).sum

/-- The nanojoules of an interval of 2 µs, with what the intervals before it left below a microjoule (R348). -/
def State.intervalNj (s : State) : Nat := 2 * s.estimateMw + s.pwr.restNj

/-- The mean and the greatest estimate of the 10 ms window, in microwatts; with none in it, the present one (R344). -/
def State.windowUw (s : State) : Nat × Nat :=
  if s.pwr.winN = 0 then (1000 * s.estimateMw, 1000 * s.estimateMw) else (1000 * s.pwr.winSum / s.pwr.winN, 1000 * s.pwr.winMax)

/-- CAP_RECOMPUTE (R339, R342, R348): every 2 µs, with the microjoules of the interval, which the estimates give; an idle island leaves
the brake's stretch. -/
def execCapRecompute (uj : Nat) (s : State) : Out :=
  if !s.powerRuns || decide (s.gtime < s.pwr.capAt + 2000) || uj != s.intervalNj / 1000 then .next s
  else
    let s := applyCaps { s with pwr := { s.pwr with
      capAt := s.gtime, energy := (s.pwr.energy + uj) % 2 ^ 64, lastUj := uj, restNj := s.intervalNj % 1000 } }
    .next ((List.range 24).foldl (fun s i =>
      if (s.islOf i).braked && !((List.range 44).any fun e => engineIsland e == i && tabGet 0 s.pwr.active e != 0) then
        s.setIsl i { s.islOf i with braked := false }
      else s) s)

/-- DUTY_TRIM (R344): every 10 ms, with the window's mean and greatest estimate in microwatts. -/
def execDutyTrim (mean most : Nat) (s : State) : Out :=
  if !s.powerRuns || decide (s.gtime < 10000000 + s.pwr.trimAt) || (mean, most) != s.windowUw then .next s
  else
    let p := s.pwr
    let trim := if 100 * mean > 102 * p.eff then p.trim + 1 else if most < p.eff then p.trim - 1 else p.trim
    .next (applyCaps { s with pwr := { p with trim := trim, trimAt := s.gtime, winSum := 0, winN := 0, winMax := 0 } })

/-- CEILING_ADJUST (R345): one step of 6.25 MHz at most every 100 µs, between 600 MHz and 750 MHz. -/
def execCeilingAdjust (up : Bool) (s : State) : Out :=
  if !s.powerRuns || !s.pwr.ceiling || decide (s.gtime < 100000 + s.pwr.ceilAt) then .next s
  else
    let f := if up then min 0x78 (s.pwr.fceil + 1) else max 0x60 (s.pwr.fceil - 1)
    .next (retuneIdle (applyCaps { s with pwr := { s.pwr with fceil := f, ceilAt := s.gtime } }))

/-! Rails (R333–R336) -/

/-- The islands that a rail supplies: the arrays and the die island of its compute die, the routers, the stacks. -/
def railIslands (r : Nat) : List Nat :=
  if r < 8 then (20 + r % 4) :: (List.range 5).map fun i => 5 * (r % 4) + i
  else if r < 10 then [48, 49]
  else if 12 ≤ r then (List.range 24).map (24 + ·)
  else []

/-- One rail's estimate of an interval. -/
def noteRail (amps : List Nat) (s : State) (r : Nat) : State :=
  let a := min (amps.getD r 0) 4095
  let w := s.reg .pwr 0 (0x208 + 0x10 * r)
  let s := s.setReg .pwr 0 (0x208 + 0x10 * r) (a + 2 ^ 16 * max (bits w 16 12) a)
  if s.pwr.overs.contains r then
    if 10 * a < 9 * s.peakNow r then { s with pwr := { s.pwr with overs := s.pwr.overs.filter (· != r) } } else s
  else if a > s.peakNow r then
    let s := { s with pwr := { s.pwr with overs := r :: s.pwr.overs } }
    if r < 8 then
      let v := s.reg .dpw (r % 4) 0x104
      s.setReg .dpw (r % 4) 0x104 (withBits v 0 16 (satAdd 16 (bits v 0 16) 1))
    else s
  else s

/-- Stretches the islands of every rail above its peak, and no other. -/
def stretchIslands (s : State) : State :=
  (List.range 50).foldl (fun s i =>
    let on := s.pwr.overs.any fun r => (railIslands r).contains i
    let x := s.islOf i
    s.setIsl i { x with stretched := on, stretchMark := x.stretchMark || on }) s

/-- The window takes the present estimate in (R344). -/
def noteWindow (s : State) : State :=
  { s with pwr := { s.pwr with
      winSum := s.pwr.winSum + s.estimateMw, winN := s.pwr.winN + 1, winMax := max s.pwr.winMax s.estimateMw } }

/-- CURRENT_ESTIMATE (R334, R335): every 2 µs, the amperes of each rail. -/
def execCurrentEstimate (amps : List Nat) (s : State) : Out :=
  if !s.powerRuns || decide (s.gtime < s.pwr.estAt + 2000) then .next s
  else .next (noteWindow (stretchIslands ((List.range 15).foldl (noteRail amps) { s with pwr := { s.pwr with estAt := s.gtime } })))

/-- Adds to a 16-bit half of a rail's alert register. -/
def bumpAlert (s : State) (r lo : Nat) : State :=
  let o := 0x20C + 0x10 * r
  s.setField .pwr 0 o lo 16 (satAdd 16 (s.field .pwr 0 o lo 16) 1)

/-- VR_ALERT_ASSERT (R336). -/
def execVrAlertAssert (i : Fin 8) (s : State) : Out :=
  if !s.powerRuns || s.pwr.alerts.testBit i then .next s
  else
    let rs := railsOf i
    let s := rs.foldl (fun s r => bumpAlert s r 0) { s with pwr := { s.pwr with alerts := s.pwr.alerts + 2 ^ i.val } }
    if rs.all fun r => decide (10 * s.railEst r < 9 * s.railPeak r) then
      let s := rs.foldl (fun s r => bumpAlert s r 16) s
      .next (capture s .pwr 0 { sev := sevLogged, addr := Config.errAddr (blockCode .pwr) 0 i, info := Config.errInfo (blockCode .pwr) 0 i })
    else .next s

/-- VR_ALERT_RELEASE (R336). -/
def execVrAlertRelease (i : Fin 8) (s : State) : Out :=
  if !s.powerRuns || !s.pwr.alerts.testBit i then .next s
  else .next { s with pwr := { s.pwr with alerts := s.pwr.alerts - 2 ^ i.val } }

/-- DROOP_DETECT (R336): the island's clock skips cycles for a moment. -/
def execDroopDetect (n : ArrayId) (s : State) : Out :=
  if !s.powerRuns || s.arrayDisabled n then .next s
  else
    let d := n.val / 5
    let v := s.reg .dpw d 0x104
    let s := s.setReg .dpw d 0x104 (withBits v 16 16 (satAdd 16 (bits v 16 16) 1))
    .next (s.setIsl n { s.islOf n with stretchMark := true })

/-! The brake (R346, R352) -/

/-- Adds to a 16-bit half of PWR.BRAKE_COUNT. -/
def bumpBrake (s : State) (lo : Nat) : State := s.setField .pwr 0 0x114 lo 16 (satAdd 16 (s.field .pwr 0 0x114 lo 16) 1)

/-- PWR_BRAKE_ASSERT: the brake cap applies, and every array and die island is stretched until its next hold point. -/
def execPwrBrakeAssert (s : State) : Out :=
  if !s.powerRuns || s.pwr.braked then .next s
  else
    let s := (List.range 24).foldl (fun s i => s.setIsl i { s.islOf i with braked := true, stretchMark := true }) (bumpBrake s 0)
    .next (applyCaps { s with pwr := { s.pwr with braked := true, brakeRise := none } })

/-- PWR_BRAKE_RELEASE: the brake cap rises from the brake level at the active ramp's slope, or 100 W/ms. -/
def execPwrBrakeRelease (s : State) : Out :=
  if !s.powerRuns || !s.pwr.braked then .next s
  else
    let slope := (s.pwr.ramp.map (·.slope)).getD 100
    .next (applyCaps { s with pwr := { s.pwr with
      braked := false, brakeRise := some ⟨s.brakeUw, max s.brakeUw s.tdpUw, slope, s.gtime⟩ } })

/-- PWR_BRAKE_PULSE_FILTERED. -/
def execPwrBrakePulseFiltered (s : State) : Out := if s.powerRuns then .next (bumpBrake s 16) else .next s

/-! Temperature (R347) -/

/-- The greatest of a list of readings with its place, the lowest among equals. -/
def hottest (ts : List Nat) : Nat × Nat :=
  (List.range ts.length).foldl (fun b i => if ts.getD i 0 > b.1 then (ts.getD i 0, i) else b) (0, 0)

/-- The thermal cap starts to fall, to rise, or to hold, from where it stands now. -/
def turnThermal (s : State) (dir : Option Bool) : State :=
  let now := thermalAt s.pwr s.gtime
  match dir, now with
  | some true, v => { s with pwr := { s.pwr with thermal := some (v.getD s.pwr.eff), thermalFall := some true, thermalAt := s.gtime } }
  | dir, some v => { s with pwr := { s.pwr with thermal := some v, thermalFall := dir, thermalAt := s.gtime } }
  | _, none => s

/-- THERM_TRIP_N: every island stops, and a fatal error of class THERMAL is recorded, with no vector (R347, R389). -/
def thermTrip (s : State) : State :=
  let s := { s with pwr := { s.pwr with trip := true } }
  let s := capture s .pwr 0 { sev := sevFatal, addr := Config.errAddr (blockCode .pwr) 1 0, info := Config.errInfo (blockCode .pwr) 1 0 }
  { latchFatal s fcThermal .pwr 0 with halted := true, pins := { s.pins with trip := true } }

/-- THERMAL_SAMPLE: every 100 µs, the readings of the junction sensors, four of each compute die and two of each link die, and
of the stacks. -/
def execThermalSample (junction stackTemps : List Nat) (s : State) : Out :=
  if !s.powerRuns || decide (s.gtime < 100000 + s.pwr.sampleAt) then .next s
  else
    let js := (List.range 20).map fun i => min (junction.getD i 0) 127
    let ss := (List.range 24).map fun i => min (stackTemps.getD i 0) 127
    let s := { s with pwr := { s.pwr with
      sampleAt := s.gtime, hotJunction := (hottest js).1, hotStacks := (List.range 24).filter fun i => decide (ss.getD i 0 > 85) } }
    let s := (List.range 16).foldl (fun s i => s.setReg .dpw (i / 4) (0x110 + 4 * (i % 4)) (js.getD i 0)) s
    let limit := s.field .pwr 0 0x118 0 7
    let (j, place) := hottest js
    let (k, stack) := hottest ss
    let (hot, sensor) := if k ≥ limit && k > j then (k, 20) else (j, place)
    let s := s.setReg .pwr 0 0x118 (limit + hot * 2 ^ 8 + 2 ^ 16 * sensor)
    let s := s.setReg .pwr 0 0x11C (k + stack * 2 ^ 8)
    if j ≥ 110 || k ≥ 110 then .next (thermTrip s)
    else if hot ≥ limit then .next (applyCaps (turnThermal s (some true)))
    else if hot + 2 ≤ limit then .next (applyCaps (turnThermal s (some false)))
    else .next (applyCaps (if s.pwr.thermalFall = some false then s else turnThermal s none))

/-! Holds, reservations and debts (R71, R335, R343) -/

/-- An engine that may begin work again does. -/
def kickEngine (s : State) (e : Nat) : State :=
  if e < 20 then settleArr s e else if e < 40 then settleVec s (e - 20) else if 68 ≤ e then sendHalf s (e - 68) else s

/-- The engines of an island go on where they may, or come to rest where they may not. -/
def kickIsland (s : State) (i : Nat) : State :=
  if i < 20 then settleVec (settleArr s i) i else if 48 ≤ i then sendHalf s (i - 48) else s

/-- HOLD_RAISE: the die power agent holds an island's units; where an engine is named, it is that engine's next unit that waits
for a reservation (R335). -/
def execHoldRaise (i : Fin 50) (engine : Option (Fin 70)) (s : State) : Out :=
  if s.pins.inReset then .next s
  else match engine with
  | none => .next (kickIsland (s.setIsl i { s.islOf i with hold := true }) i)
  | some e =>
    if engineIsland e ≠ i.val || s.pwr.resWait.contains e.val then .next s
    else .next (kickIsland { s with pwr := { s.pwr with resWait := e.val :: s.pwr.resWait } } i)

/-- HOLD_RELEASE. -/
def execHoldRelease (i : Fin 50) (s : State) : Out := .next (kickIsland (s.setIsl i { s.islOf i with hold := false }) i)

/-- RESERVATION_GRANTED: the engine's next unit obtains its amperes on every rail where no limit is passed. -/
def execReservationGranted (e : Fin 70) (amps : List Nat) (s : State) : Out :=
  let fits := (List.range 15).all fun r => amps.getD r 0 == 0 || decide (s.reserved r + amps.getD r 0 ≤ s.limitNow r)
  if !s.pwr.resWait.contains e.val || !fits then .next s
  else
    let resv := (List.range 15).foldl (fun t r => tabMod 0 t (16 * e.val + r) (· + amps.getD r 0)) s.pwr.resv
    .next (kickEngine { s with pwr := { s.pwr with resWait := s.pwr.resWait.filter (· != e.val), resv := resv } } e)

/-- QUIET_DEBT_PAID. -/
def execQuietDebtPaid (e : Fin 70) (s : State) : Out :=
  if tabGet 0 s.pwr.debt e = 0 && s.pwr.quietWait.contains e.val then
    .next (kickEngine { s with pwr := { s.pwr with quietWait := s.pwr.quietWait.filter (· != e.val) } } e)
  else .next s

/-! GTIME (R350) -/

def second : Nat := 10 ^ 9

/-- A forward step of GTIME, counted. -/
def stepGtime (s : State) (t : Nat) : State :=
  let v := s.reg .pwr 0 0x138
  let s := s.setReg .pwr 0 0x138 (withBits v 8 8 (satAdd 8 (bits v 8 8) 1))
  { s with gtime := t, pwr := { s.pwr with slew := 0, slewPhase := 0 } }

/-- A write of PWR.GTIME_SET_HI arms a set. -/
def armSet (s : State) (v : Nat) : State := { s.setReg .pwr 0 0x134 v with pwr := { s.pwr with armed := true } }

/-- GTIME_SET_ARM. -/
def execGtimeSetArm (p : Path) (v : W32) (s : State) : Out :=
  if s.pins.inReset then .next s
  else if p = .host then .next (logIgnored s .pwr 0 (pageBase .pwr 0 + 0x134))
  else .next (armSet s v.toNat)

/-- Whether an armed value may be set now. -/
def setGood (s : State) : Bool := s.reg64 .pwr 0 0x130 0x134 % second == 0 && decide (s.reg64 .pwr 0 0x130 0x134 > s.gtime)

/-- Takes the armed set, if there is one: applied, or ignored and logged; and whether it stepped GTIME. -/
def takeSet (s : State) : State × Bool :=
  if !s.pwr.armed then (s, false)
  else
    let t := s.reg64 .pwr 0 0x130 0x134
    let good := setGood s
    let s := { s with pwr := { s.pwr with armed := false } }
    if good then (stepGtime s t, true) else (logIgnored s .pwr 0 (pageBase .pwr 0 + 0x134), false)

/-- The signed offset of the present GTIME from the nearest whole second. -/
def ppsOffset (s : State) : Int :=
  let r := s.gtime % second
  if r ≤ second / 2 then r else (r : Int) - second

/-- PPS_EDGE: an edge accepted under R352. -/
def execPpsEdge (s : State) : Out :=
  if !s.powerRuns then .next s
  else if !s.pwr.locked then
    let (s, stepped) := takeSet s
    let s := if stepped then s else stepGtime s ((s.gtime / second + 1) * second)
    .next { s with pwr := { s.pwr with locked := true, lastEdge := s.gtime } }
  else
    let off := ppsOffset s
    if off.natAbs > 1000000 then .next (s.bump .pwr 0 0x140 1)
    else
      let s := s.setReg .pwr 0 0x13C (off.emod (2 ^ 32)).toNat
      let (s, stepped) := takeSet s
      let s := if stepped then s else { s with pwr := { s.pwr with slew := off, slewPhase := 0 } }
      .next { s with pwr := { s.pwr with lastEdge := s.gtime } }

/-- PPS_LOCK_LOSS: three seconds with no accepted edge. -/
def execPpsLockLoss (s : State) : Out :=
  if s.pwr.locked && decide (s.gtime ≥ s.pwr.lastEdge + 3 * second) then
    .next { s with pwr := { s.pwr with locked := false, slew := 0, slewPhase := 0 } }
  else .next s

end Sys2Proof.Machine
end

