-- ==== Sys2Proof/Machine/Boot.lean ====
section
/-!
DEFINITION. Reset, boot and the device configuration block (R331, R355–R364, R401, R405–R407): the reset pins, the colophon, the
firmware image over the Brixcia Link or the network, firmware initialisation, and the DCB.
Rows of notes/assumptions: DEDUCED 117, 118, 130, 134, 135, 136, 137, 153, 179, 190, 204; DESIGN CHOICE 14, 185, 186, 187.
-/
namespace Sys2Proof.Machine

open Sys2Proof

/-! States of SEC.STATUS.BOOT (R359) -/

def bsRom : Nat := 0
def bsColophon : Nat := 1
def bsPuf : Nat := 2
def bsLoading : Nat := 4
def bsVerify : Nat := 5
def bsFwInit : Nat := 6
def bsAwaitDcb : Nat := 7
def bsRunning : Nat := 8
def bsHalted : Nat := 15

def State.boot (s : State) : Nat := s.field .sec 0 0x100 0 4
def State.bootSrc (s : State) : Nat := s.field .sec 0 0x100 10 2

/-! The output pins (R400) -/

/-- What an output pin shows: off, low or high. An open-drain output is off where it is released. -/
inductive PinLevel where
  | off | low | high
deriving DecidableEq, Repr

/-- READY: push-pull, off in reset. -/
def State.readyPin (s : State) : PinLevel := if !s.pins.driven then .off else if s.pins.ready then .high else .low
/-- FAULT_N and THERM_TRIP_N: open-drain. -/
def State.faultPin (s : State) : PinLevel := if s.pins.fault then .low else .off
def State.tripPin (s : State) : PinLevel := if s.pins.trip then .low else .off
/-- TDO: off, or driven with the bit that the test port shifts out. -/
def State.tdoPin (s : State) (shifted : Bool) : PinLevel := if !s.pins.shift then .off else if shifted then .high else .low
/-- PRESENT_N: tied to ground in the package. -/
def State.presentPin (_ : State) : PinLevel := .low

/-! Reset (R399–R401, R406, R407) -/

/-- Every island stops and the device is held in reset. What lies in the flash, in the boot ROM and in the stacks stays; every key set, and
so every byte of device memory as data, is lost; no record of any kind is written. -/
def enterReset (s : State) : State :=
  { State.reset with
    pending := s.pending
    gtime := s.gtime
    outbox := s.outbox
    link := tabSet {} (tabSet {} [] bxlPort { taken := s.outbox.length }) pairLink { taken := s.outbox.length }
    draws := s.draws
    flash := s.flash
    mem := { bytes := s.mem.bytes, blks := s.mem.blks, nextKey := s.mem.nextKey, sets := s.mem.sets }
    mgmt := { romRsa := s.mgmt.romRsa, romSlh := s.mgmt.romSlh, powerUp := s.mgmt.powerUp }
    halted := true
    pins := { s.pins with inReset := true, released := false, ready := false, driven := false, fault := false, trip := false } }

/-- PKG_RESET_ASSERT: an accepted fall of PKG_RESET_N; one before the effective release cancels it. -/
def execPkgResetAssert (s : State) : Out := .next (enterReset { s with pins := { s.pins with resetN := false } })

/-- PKG_RESET_RELEASE: accepted, and held until the rails have been good for 10 ms. -/
def execPkgResetRelease (s : State) : Out :=
  if s.pins.resetN then .next s else .next { s with pins := { s.pins with resetN := true, released := true } }

/-- PWR_GOOD_RISE: a power-up, after which the stores hold a state of their own (R357). -/
def execPwrGoodRise (s : State) : Out :=
  if s.pins.powerGood then .next s
  else .next { s with pins := { s.pins with powerGood := true, goodFor := 0 }, mgmt := { s.mgmt with powerUp := s.mgmt.powerUp + 1 } }

/-- PWR_GOOD_FALL: while the device runs, with the effects of a reset. A release of PKG_RESET_N that came before it counts no longer:
the device stays in reset until the pin has been low and is released again (R407). -/
def execPwrGoodFall (s : State) : Out :=
  if !s.pins.powerGood then .next s
  else
    let s := { s with pins := { s.pins with powerGood := false, goodFor := 0, released := false } }
    .next (if s.pins.inReset then s else enterReset s)

/-- EFFECTIVE_RESET_RELEASE: GTIME is zero, the straps are sampled (SLOT_ID, PAIR_SIDE, BOOT_SRC as DEV.STRAPS has them), the
boot ROM starts; a reserved BOOT_SRC halts the device (R358). -/
def execEffectiveResetRelease (straps : Fin 512) (s : State) : Out :=
  if !s.pins.inReset || !s.pins.resetN || !s.pins.released || !s.pins.powerGood || decide (s.pins.goodFor < 1000000) then .next s
  else
    let s := { s with gtime := 0, halted := false, pins := { s.pins with inReset := false, driven := true, straps := straps } }
    let s := (s.setReg .dev 0 0x100 straps).setField .sec 0 0x100 10 2 (bits straps 7 2)
    .next (if bits straps.val 7 2 ≥ 2 then haltDevice s 3 else s)

/-! The colophon (R355–R357) -/

/-- A byte of the flash, and a 32-bit word. -/
def State.flash32 (s : State) (a : Nat) : Nat := leNat (tabSlice 0 s.flash a 4)

/-- Bytes of the flash, as numbers. -/
def State.flashBytes (s : State) (a n : Nat) : List Nat := nats (tabSlice 0 s.flash a n)

/-- Whether a signature pair, RSASSA-PSS and SLH-DSA, holds over a message under the root keys (R355, R356; log entry 185). -/
def rootRsaGood (s : State) (m sig : List Nat) : Bool := rsaVerify s.mgmt.romRsa m sig
def rootSlhGood (s : State) (m sig : List Nat) : Bool := Slh.verify s.mgmt.romSlh m sig

/-- Whether the copy at a flash offset is valid (R356). -/
def colophonGood (s : State) (base : Nat) : Bool :=
  s.flash32 base == 0x4C4D4331 && s.flash32 (base + 4) == 1 && s.flash32 (base + 8) == 0xD330 &&
    rootRsaGood s (s.flashBytes base 0xB300) (s.flashBytes (base + 0xB300) 384) &&
    rootSlhGood s (s.flashBytes base 0xB300) (s.flashBytes (base + 0xB480) 7856)

/-- Loads the registers that a valid copy fills. -/
def loadColophon (s : State) (base : Nat) : State :=
  let s := s.setReg .dev 0 0x104 (bits (tabGet 0 s.flash (base + 0x20)).toNat 0 5)
  let s := s.setReg .dev 0 0x108 (bits (s.flash32 (base + 0x24)) 0 20)
  let s := (List.range 4).foldl (fun s i => s.setReg .dev 0 (0x110 + 4 * i) (s.flash32 (base + 0x10 + 4 * i))) (s.setReg .dev 0 0x10C 1)
  let s := (List.range 20).foldl (fun s n =>
    let cal := (tabGet 0 s.flash (base + 0x30 + n)).toNat
    s.setReg .pwr 0 (0x180 + 4 * n) (cal + cal * 2 ^ 8)) s
  { s with pwr := { s.pwr with sched := s.tdpUw, eff := s.tdpUw } }

/-- COLOPHON_VERIFY_DONE: copy A is used if it verifies, and copy B otherwise; with neither the device halts. The operands are what the
model finds of the two copies; of copy B only where copy A does not verify (log entry 190). -/
def execColophonVerifyDone (sigsA sigsB : Bool) (s : State) : Out :=
  if s.pins.inReset || s.halted || decide (s.boot ≠ bsColophon) then .next s
  else if sigsA != colophonGood s 0 || (!sigsA && sigsB != colophonGood s 0x100000) then .next s
  else if sigsA then .next (setBoot (loadColophon s 0) bsPuf 0)
  else if sigsB then .next (setBoot (loadColophon (s.setField .sec 0 0x100 9 1 1) 0x100000) bsPuf 0)
  else .next (haltDevice s 1)

/-- A DHCP request with the package serial as its client identifier. `phase` is 1 where the boot ROM asks for an address, a server
and a file (R361), and 3 where firmware asks for an address alone (R369). -/
def askFor (s : State) (phase : Nat) : State :=
  let s := { s with mgmt := { s.mgmt with net := { phase := phase, asked := s.gtime }, image := [] } }
  s.send { kind := .dhcp, data := tabSlice 0 s.flash (s.colophonBase + 0x10) 16 }

/-- The boot ROM's request. -/
def askDhcp (s : State) : State := askFor s 1

/-! The device's private keys (R357) -/

/-- The secret of a die: what the fuzzy extractor yields of its power-up state and its helper data, 32 B. -/
def dieSecret (s : State) (d : Nat) : List Nat :=
  littleBytes (Config.fuzzyExtract (Config.powerUpState s.mgmt.powerUp d) (tabSlice 0 s.flash (s.colophonBase + 0x300 + 4096 * d) 4096)) 32

/-- The key-encryption key. -/
def keyEncryptionKey (s : State) : List Nat := hkdf384 [] ((List.range 4).flatMap (dieSecret s)) (asciiBytes "LM1 KEK") 32

/-- A wrapped key of the colophon, unwrapped: none where its integrity check fails. -/
def unwrapAt (s : State) (at_ len : Nat) : Option (List Nat) :=
  kwpUnwrap (keyEncryptionKey s) (s.flashBytes (s.colophonBase + 0x4300 + at_ % 4096) len)

/-- The two private keys, RSA-3072 and SLH-DSA-SHA2-128s: none where either unwrap fails. -/
def deviceKeys (s : State) : Option (RsaPriv × List Nat) :=
  match unwrapAt s Config.wrappedRsaAt (Config.wrappedRsaLen % 4096), unwrapAt s Config.wrappedSlhAt 72 with
  | some r, some k => some (⟨(Config.rsaKeyOf r).1, (Config.rsaKeyOf r).2⟩, k)
  | _, _ => none

/-- PUF_UNWRAP_DONE: the keys are kept in the security engine, the Brixcia port is enabled, and with BOOT_SRC = 0b01 the network is asked for
an image; or the device halts. The operand is what the model finds (log entry 190). -/
def execPufUnwrapDone (ok : Bool) (s : State) : Out :=
  if s.boot ≠ bsPuf || s.pins.inReset then .next s
  else match deviceKeys s with
    | none => if ok then .next s else .next (haltDevice s 2)
    | some k =>
      if !ok then .next s
      else
        let s := setBoot { s with mgmt := { s.mgmt with devRsa := k.1, devSlh := k.2 } } bsWaitImage 0
        let s := if s.portState bxlPort = lsDown then enterDetect s bxlPort false false else s
        .next (if s.bootSrc = 1 then askDhcp s else s)

/-! The image over the Brixcia Link (R331) -/

/-- A write of BXL.BOOT_CTRL.GO: taken only in WAIT_IMAGE or REJECTED. What an earlier load asked for is not taken up. -/
def bootGo (s : State) : State :=
  if s.bxlBoot ≠ 1 && s.bxlBoot ≠ 3 then s
  else
    let n := s.field .bxl 0 0x18C 0 25
    if n < 64 || n > 16777216 || n % 64 ≠ 0 then setBxlBoot s 3 1
    else
      let t := takeAnswers (setBxlBoot s 2 0) agBoot
      let reqs := t.bxl.reqs.map fun e => (e.1, e.2.map fun r => if r.agent = agBoot then { r with agent := agNone } else r)
      { t with bxl := { t.bxl with bootPos := 0, reqs := reqs }, mgmt := { t.mgmt with image := [] } }

/-- BOOT_GO: a write of 1 to BXL.BOOT_CTRL.GO, by any path. -/
def execBootGo (s : State) : Out := .next (bootGo s)

/-- IMAGE_TRANSFER_BEGIN (R359). -/
def execImageTransferBegin (s : State) : Out :=
  if s.boot = bsWaitImage && (s.bxlBoot == 2 || s.mgmt.net.phase == 2) then .next (setBoot s bsLoading 0) else .next s

/-- The load over the link fails, with the reason of BXL.BOOT_STATUS. -/
def rejectLoad (s : State) (reason : Nat) : State :=
  setBxlBoot (setBoot { s with mgmt := { s.mgmt with image := [] } } bsWaitImage 0xC) 3 reason

/-- Reads the image on, 4 KiB at a time, at host physical addresses. -/
def readImage : Nat → State → Out
  | 0, s => .next s
  | fuel + 1, s =>
    let len := s.field .bxl 0 0x18C 0 25
    let pos := s.bxl.bootPos
    if pos ≥ len then .next (setBoot s bsVerify 0)
    else
      let a := s.reg .bxl 0 0x184 / 64 * 64 + 2 ^ 32 * s.reg .bxl 0 0x188 + pos
      let n := min (len - pos) (4096 - a % 4096)
      match hostPhys s agBoot mtRdCur a n [] with
      | (t, .wait) => .next (keepRequests s t)
      | (t, .ok b p) =>
        let t := takeAnswers t agBoot
        if p.any id then .next (rejectLoad t 3)
        else readImage fuel { t with bxl := { t.bxl with bootPos := pos + n }, mgmt := { t.mgmt with image := t.mgmt.image ++ b } }
      | (t, _) => .next (rejectLoad (takeAnswers t agBoot) 2)

/-- BOOT_IMAGE_LOADED: given again while the host has not answered every read. -/
def execBootImageLoaded (s : State) : Out :=
  if s.boot = bsLoading && s.bxlBoot = 2 then readImage 8193 s else .next s

/-! The image over the network (R361) -/

/-- The transfer ends with REASON 0xC, and DHCP starts again. -/
def endTransfer (s : State) : State := askDhcp (setBoot s bsWaitImage 0xC)

/-- The read request for the file, in octet mode, with the blksize and tsize options (RFC 1350, 2348, 2349). -/
def tftpRequest (file : List Byte) : List Byte :=
  let field := fun (t : String) => ofNats (asciiBytes t) ++ [0]
  [0, 1] ++ file ++ [0] ++ field "octet" ++ field "blksize" ++ field "1428" ++ field "tsize" ++ field "0"

/-- Sends the read request of the transfer. -/
def requestFile (s : State) : State :=
  let x := s.mgmt.net
  s.send { kind := .tftp, dest := x.server, args := [1], data := tftpRequest x.file }

/-- Sends an acknowledgement or an error of the transfer: opcode, and block or code. -/
def sendTftp (s : State) (args : List Nat) : State := s.send { kind := .tftp, dest := s.mgmt.net.server, args := args }

/-- DHCP_OFFER_RX: the boot ROM takes an offer that names a server and a file, firmware takes any; the address is held. -/
def execDhcpOfferRx (addr : W32) (opts : DhcpOpts) (s : State) : Out :=
  let held := fun (net : NetBoot) => { s with mgmt := { s.mgmt with net := net, ip := { s.mgmt.ip with addr := addr.toNat } } }
  if s.mgmt.net.phase = 3 then .next (held {})
  else match s.mgmt.net.phase, opts.server, opts.file with
    | 1, some server, some file =>
      let s := held { phase := 2, server := server.toNat, file := file, heard := s.gtime }
      .next (requestFile { s with mgmt := { s.mgmt with image := [] } })
    | _, _, _ => .next s

/-- DHCP_RETRY. -/
def execDhcpRetry (s : State) : Out :=
  let x := s.mgmt.net
  if (x.phase == 1 || x.phase == 3) && decide (s.gtime ≥ x.asked + 4 * 10 ^ 9) then .next (askFor s x.phase) else .next s

/-- The largest image (R360). -/
def maxImage : Nat := 16777216

/-- TFTP_BLOCK_RX: the server's option acknowledgement with tsize, or a data block by its number. -/
def execTftpBlockRx (tsize : Option Nat) (block : Fin 65536) (data : List Byte) (s : State) : Out :=
  let x := s.mgmt.net
  if x.phase ≠ 2 then .next s
  else match tsize with
    | some n =>
      if n > maxImage then .next (endTransfer (sendTftp s [5, 8]))
      else .next (sendTftp { s with mgmt := { s.mgmt with net := { x with tsize := n, acked := true, retries := 0, heard := s.gtime } } } [4, 0])
    | none =>
      if s.boot ≠ bsLoading then .next s
      else if block.val = x.next % 65536 then
        let image := s.mgmt.image ++ data.take 1428
        if image.length > maxImage then .next (endTransfer (sendTftp s [5, 3]))
        else
          let net := { x with next := x.next + 1, acked := true, retries := 0, heard := s.gtime }
          let s := sendTftp { s with mgmt := { s.mgmt with image := image, net := net } } [4, block]
          .next (if data.length < 1428 then setBoot { s with mgmt := { s.mgmt with net := {} } } bsVerify 0 else s)
      else .next (sendTftp s [4, (65535 + x.next) % 65536])

/-- TFTP_TIMEOUT: 1 s without an answer is retried five times, and then ends the transfer (log entry 204). What is retried is the request until its options
are answered, and the last acknowledgement after. -/
def execTftpTimeout (s : State) : Out :=
  let x := s.mgmt.net
  if x.phase ≠ 2 || decide (s.gtime < x.heard + 10 ^ 9) then .next s
  else if x.retries ≥ 5 then .next (endTransfer s)
  else
    let s := { s with mgmt := { s.mgmt with net := { x with retries := x.retries + 1, heard := s.gtime } } }
    .next (if x.acked then sendTftp s [4, (65535 + x.next) % 65536] else requestFile s)

/-! Verification (R360) -/

/-- The REASON of the first check that an image fails, given the outcomes of its digest and signatures. -/
def imageFault (img : List Byte) (digest rsa slh : Bool) : Option Nat :=
  let h := leNat (img.take 256)
  let body := bits h 96 32
  let good := bits h 0 32 == 0x4C4D4657 && bits h 32 32 == 1 && bits h 64 32 == 256 + body + 8240 && decide (bits h 64 32 ≤ maxImage) &&
    body % 64 == 0 && decide (bits h 64 32 ≤ img.length) && bits h (8 * 0x50) (8 * 176) == 0
  if !good then some 8 else if !digest then some 9 else if !rsa then some 0xA else if !slh then some 0xB else none

/-- Header and body of an image. -/
def imageBody (img : List Byte) : List Byte := img.take (256 + bits (leNat (img.take 256)) 96 32)

/-- Whether the digest of an image's body is that of its header. -/
def digestGood (img : List Byte) : Bool := sha384 (nats ((imageBody img).drop 256)) == nats ((img.drop 0x20).take 48)

/-- The first check that the image fails, as the model finds it. -/
def foundFault (s : State) : Option Nat :=
  let img := s.mgmt.image
  let m := nats (imageBody img)
  imageFault img (digestGood img) (rootRsaGood s m (nats ((img.drop m.length).take 384)))
    (rootSlhGood s m (nats ((img.drop (m.length + 384)).take 7856)))

/-- IMAGE_VERIFY_DONE: from FW_INIT on, the management port asks for an address (R369). The operands are what the model finds (log entry 190). -/
def execImageVerifyDone (digest rsa slh : Bool) (s : State) : Out :=
  if s.boot ≠ bsVerify || s.pins.inReset then .next s
  else
    let img := s.mgmt.image
    if imageFault img digest rsa slh ≠ foundFault s then .next s
    else match imageFault img digest rsa slh with
      | some r =>
        let s := setBoot { s with mgmt := { s.mgmt with image := [] } } bsWaitImage r
        .next (if s.bootSrc = 1 then askDhcp s else setBxlBoot s 3 4)
      | none =>
        let s := setBoot { s with mgmt := { s.mgmt with measure := sha384Of (imageBody img) } } bsFwInit 0
        let s := askFor (s.setReg .sec 0 0x104 (bits (leNat (img.take 256)) 128 32)) 3
        .next (if s.bootSrc = 1 then s else setBxlBoot s 4 0)

/-! Firmware initialisation (R362, R365, R393, R394) -/

/-- FW_INIT_DONE: the stacks are trained, a channel that failed its training is retired, the generator is seeded and the structure key set
generated (R365),
every enabled array's margin is measured, and READY asserts. -/
def execFwInitDone (failed : List (StackId × Fin 32)) (margins : List Nat) (s : State) : Out :=
  if s.boot ≠ bsFwInit || s.pins.inReset then .next s
  else
    let s := loadLife s
    let s := (List.range 24).foldl (fun s st => s.setReg .mc st 0x100 (mcState (s.reg .mc st 0x104))) s
    let s := failed.foldl (fun s f => retireChannel s f.1 f.2) s
    let s := (List.range 20).foldl (fun s n => if s.arrayDisabled n then s else noteMargin s n (margins.getD n 0)) (newKey (seedKeys s) 64)
    let s := setBoot { s with pins := { s.pins with ready := true } } bsAwaitDcb 0
    .next (beginLog s false true)

/-! The device configuration block (R363, R364) -/

/-- MBX.DCB_STATUS.STATE: 0 EMPTY, 1 CHECKING, 2 HELD, 3 COMMITTED. -/
def State.dcbState (s : State) : Nat := s.field .mbx 0 0xF04 0 3

/-- A word of the DCB. -/
def State.dcb (s : State) (o : Nat) : Nat := s.reg .mbx 0 (0x100 + o)

/-- Whether the area and the commit word take writes. -/
def State.dcbOpen (s : State) : Bool := s.pins.ready && (s.dcbState == 0 || s.dcbState == 2)

/-- A write of a word of the area. -/
def writeDcb (s : State) (o v : Nat) : Option State := if s.dcbOpen then some (s.setReg .mbx 0 (0x100 + o) v) else none

/-- A write of MBX.DCB_COMMIT. -/
def commitDcb (s : State) (v : Nat) : Option State :=
  if !s.dcbOpen then none
  else some (s.setReg .mbx 0 0xF04 (if v = 0x44434231 then 1 else 2 + 8))

/-- DCB_AREA_WRITE. -/
def execDcbAreaWrite (i : Fin 896) (v : W32) (s : State) : Out :=
  if s.pins.inReset then .next s
  else match writeDcb s (4 * i) v.toNat with
  | some t => .next t
  | none => .next (logIgnored s .mbx 0 (pageBase .mbx 0 + 0x100 + 4 * i))

/-- DCB_COMMIT. -/
def execDcbCommit (v : W32) (s : State) : Out :=
  if s.pins.inReset then .next s
  else match commitDcb s v.toNat with
  | some t => .next t
  | none => .next (logIgnored s .mbx 0 (pageBase .mbx 0 + 0xF00))

/-- The DCB's 3,584 bytes. -/
def dcbBytes (s : State) : List Byte := (List.range 896).flatMap fun i => leBytes (s.dcb (4 * i)) 4

/-- Whether a ring of LOG2 in [4:0] and ENABLE at `en` of its own word is within range. -/
def logFits (on : Bool) (v : Nat) : Bool := !on || (decide (6 ≤ bits v 0 5) && decide (bits v 0 5 ≤ 16))

/-- Whether the word at a DCB offset holds only what its field may: reserved bits and bytes zero, values in range. -/
def dcbWordOk (s : State) (o : Nat) : Bool :=
  let v := s.dcb o
  let fits := fun m => clearBits v m == 0
  if o = 0x000 then v == 1
  else if o = 0x004 then fits 0x7FFF
  else if o = 0x008 then decide (v ≤ 69)
  else if o = 0x010 || o = 0x018 then true
  else if o = 0x014 || o = 0x01C then fits 0xF
  else if o = 0x020 then fits 1
  else if o = 0x028 then fits 0xFFFFF000
  else if o = 0x02C then fits 0xFFF
  else if o = 0x030 then fits 0x1FFFF && logFits (v.testBit 16) v
  else if o = 0x040 then fits 1
  else if o = 0x044 || o = 0x04C then true
  else if o = 0x048 then decide (v ≤ 32)
  else if 0x050 ≤ o && o < 0x120 then (o - 0x050) % 52 != 0 || decide (v ≤ 2)
  else if o = 0x120 then fits 0x0FFF0FFF && bits v 16 12 != 0
  else if o = 0x124 then decide (720 ≤ v) && decide (v ≤ s.tdp)
  else if 0x180 ≤ o && o < 0x380 then
    let k := (o - 0x180) / 32
    let on := (s.dcb (0x188 + 32 * k)).testBit 5
    match (o - 0x180) % 32 with
    | 0x00 | 0x0C => fits 0xFFFFF000
    | 0x04 | 0x10 => fits 0xFFF
    | 0x08 => fits 0x1FFFF && logFits on v
    | 0x14 => fits 0x1F && logFits on v
    | 0x18 => true
    | _ => v == 0
  else v == 0

/-- The offset of the first check that fails: FORMAT, the CRC, then every word in ascending order (R364). -/
def dcbFault (s : State) : Option Nat :=
  if !dcbWordOk s 0 then some 0
  else if s.dcb 0xDFC ≠ crc32c ((dcbBytes s).take 0xDFC) then some 0xDFC
  else ((List.range 895).map (4 * ·)).find? fun o => !dcbWordOk s o

/-- An anchor as the DCB has it: class + 4 × fingerprint. -/
def dcbAnchor (s : State) (k : Nat) : Nat :=
  let cls := bits (s.dcb (0x050 + 52 * k)) 0 2
  if cls = 0 then 0 else cls + 4 * leNat ((List.range 12).flatMap fun i => leBytes (s.dcb (0x054 + 52 * k + 4 * i)) 4)

/-- One kernel queue's registers, CFG with ENABLE last. -/
def applyKq (s : State) (k : Nat) : State :=
  let w := fun i => s.dcb (0x180 + 32 * k + i)
  let s' := [0x00, 0x04, 0x0C, 0x10, 0x14, 0x18].foldl (fun s i => s.setReg .fe 2 (0x100 + 0x20 * k + i) (w i)) s
  (writeKqCfg s' k (w 8)).getD s'

/-- Applies the links' medium and ENABLE; the two pair ports take BOND too (R363). -/
def applyLink (en media bond : Nat) (s : State) (p : Nat) : State :=
  writeLnkCtrl (s.setReg .lnk p 0x104 (bits media p 1)) p (bits en p 1 + (if p ≥ 32 then 8 * bond else 0))

/-- The trust anchors, the DCB's hash, and the management port's configuration, which is the DCB's and asks no further where it is static
(R363, R369, R372). -/
def dcbTrust (s : State) : Mgmt :=
  { s.mgmt with
    net := if (s.dcb 0x040).testBit 0 then {} else s.mgmt.net
    ip := if (s.dcb 0x040).testBit 0 then { addr := s.dcb 0x044, prefixLen := s.dcb 0x048, gateway := s.dcb 0x04C } else s.mgmt.ip
    anchors := (List.range 4).foldl (fun t k => tabSet 0 t k (dcbAnchor s k)) []
    dcbHash := sha384Of (dcbBytes s) }

/-- Applies every field to the register it names (R363). -/
def applyDcb (s : State) : State :=
  let s := s.setReg .rtr 0 0x100 (s.dcb 0x004)
  let s := (writeMap s (s.dcb 0x008)).getD s
  let en := s.dcb 0x010 + 2 ^ 32 * s.dcb 0x014
  let media := s.dcb 0x018 + 2 ^ 32 * s.dcb 0x01C
  let s := (List.range 36).foldl (applyLink en media (s.dcb 0x020 % 2)) s
  let s := ((s.setReg .fe 0 0x100 (s.dcb 0x028)).setReg .fe 0 0x104 (s.dcb 0x02C)).setReg .fe 0 0x108 (s.dcb 0x030)
  let s := { s with mgmt := dcbTrust s }
  let s := (s.setReg .pwr 0 0x10C (s.dcb 0x120)).setReg .pwr 0 0x110 (s.dcb 0x124)
  (List.range 16).foldl applyKq s

/-- DCB_CHECK_DONE: the DCB is HELD with the offset that failed, or committed and applied. -/
def execDcbCheckDone (s : State) : Out :=
  if s.dcbState ≠ 1 || s.halted then .next s
  else match dcbFault s with
    | some o => .next (s.setReg .mbx 0 0xF04 (2 + 2 ^ 16 * o))
    | none =>
      let s := applyDcb (s.setReg .mbx 0 0xF04 3)
      .next ((setBoot s bsRunning 0).setField .sec 0 0x100 8 1 0)

end Sys2Proof.Machine
end

