-- ==== Sys2Proof/Machine/Views.lean ====
section
/-!
DEFINITION. What every register word reads as (R411–R421): the words the register file holds, the words that show an
engine's state, the common header, and the pages of a disabled array island.
Rows of notes/assumptions: DEDUCED 17, 18, 27, 28, 144, 153.
-/
namespace Sys2Proof.Machine

open Sys2Proof

/-! Islands -/

/-- Whether no unit of an island is executing or waiting (STATUS.IDLE, R415). -/
def State.islandIdle (s : State) (i : Nat) : Bool :=
  if i < 20 then
    arrQuiet (s.arrOf i) && (s.arrOf i).wait.isNone && (s.vecOf i).exec.isNone && (s.vecOf i).wait.isNone && (s.seqOf i).state == .idle
  else if i < 24 then
    ((List.range 32).all fun c => let st := (s.chOf (32 * (i - 20) + c)).state; st != .active && st != .waitArray) &&
      (s.seqOf i).state == .idle
  else if i < 48 then (s.nmuOf (i - 24)).state == .idle
  else s.xch.ops.isEmpty && (s.xch.queue.all fun e => e.2.isEmpty) && (s.seqOf 24).state == .idle && (s.seqOf 25).state == .idle

/-- The first page's clock: stopped (R17, R415). -/
def State.pageStopped (s : State) (b : Block) (i : Nat) : Bool := if isArrayPage b then s.islandStopped i else s.halted

/-- Whether a page without an island of CTRL's kind is idle: the front end holds no command, the link no request, the MMU no
walk and no invalidation. -/
def State.pageIdle (s : State) (b : Block) : Bool :=
  match b with
  | .fe => s.queues.all fun e => e.2.cmds.isEmpty
  | .bxl => s.bxl.reqs.isEmpty
  | .mmu => s.mmu.walks.isEmpty && s.mmu.inval.isNone
  | _ => true

/-! The header (R415) -/

/-- ID.INSTANCE. -/
def pageInstance (b : Block) (i : Nat) : Nat :=
  match b with
  | .fe | .arr | .acc | .vec | .seq | .als | .qnt | .dss | .dma | .noc | .dpw | .mc | .mpe | .nmu | .lnk => i
  | _ => 0

def idWord (b : Block) (i : Nat) (present : Bool) : Nat :=
  pack [(0, 8, blockCode b), (8, 8, pageInstance b i), (16, 1, bit present), (24, 8, 0x4C)]

/-- CTRL: a field the page does not honour reads its reset value. -/
def ctrlWord (s : State) (b : Block) (i : Nat) : Nat :=
  match islandOf b i with
  | none => 1
  | some k => bit (!honoursE b || (s.islOf k).enable) + 2 * bit (honoursQ b && (s.islOf k).quiesce)

/-- STATUS. -/
def statusWord (s : State) (b : Block) (i : Nat) : Nat :=
  match islandOf b i with
  | none => pack [(0, 1, bit (s.pageIdle b)), (2, 1, bit (s.pageStopped b i))]
  | some k => pack [(0, 1, bit (s.islandIdle k)), (1, 1, bit (s.islOf k).quiesced), (2, 1, bit (s.pageStopped b i)),
      (3, 1, bit (s.islOf k).resetting)]

/-- A header word. -/
def headWord (s : State) (b : Block) (i po : Nat) : Nat :=
  if po = 0x00 then idWord b i true
  else if po = 0x08 then capsOf b
  else if po = 0x0C then ctrlWord s b i
  else if po = 0x10 then statusWord s b i
  else if po = 0x1C then s.reg b i 0x14 &&& s.reg b i 0x18
  else s.reg b i po

/-- A word of a disabled array island's page (R418). -/
def deadWord (b : Block) (i po : Nat) : Nat :=
  if po = 0x00 then idWord b i false else if po = 0x04 then 1 else if po = 0x08 then capsOf b else if po = 0x10 then 5 else 0

/-! Engines -/

/-- The half of a 64-bit value that a word shows. -/
def half64 (v : Nat) (hi : Bool) : Nat := if hi then v / 2 ^ 32 % 2 ^ 32 else v % 2 ^ 32

def arrStateCode : ArrState → Nat
  | .stopped => 0 | .idle => 1 | .load => 2 | .rampUp => 3 | .active => 4 | .rampDown => 5 | .held => 6

def seqStateCode : SeqState → Nat
  | .idle => 0 | .run => 1 | .stall => 2 | .wait => 3 | .held => 4 | .drain => 5

def chStateCode : ChState → Nat
  | .disabled => 0 | .idle => 1 | .active => 2 | .waitArray => 3 | .halted => 4

def nmuStateCode : NmuState → Nat
  | .idle => 0 | .update => 1 | .deposit => 2 | .send => 3 | .redo => 4

def qStateCode : QState → Nat
  | .disabled => 0 | .running => 1 | .waiting => 2 | .stopped => 3 | .orphaned => 4 | .draining => 5

/-- ARR.STATE (R75): CTX is the context that holds the array, else the lowest that maps it. -/
def arrStateWord (s : State) (n : Nat) : Nat :=
  let a := s.arrOf n
  let ctx := ((s.holderOf n).ctx).or ((List.range 64).find? fun c => s.assignedTo c n)
  pack [(0, 3, arrStateCode a.state), (3, 1, bit a.stat.valid), (4, 1, bit a.shadow.valid), (5, 1, bit (s.unitHeld (enArr n))),
    (6, 1, bit (s.arrAssigned n)), (8, 6, if s.arrAssigned n then ctx.getD 0 else 0),
    (14, 2, bit a.exec.isSome + bit a.wait.isSome)]

/-- VEC.STATE (R133). -/
def vecStateWord (s : State) (n : Nat) : Nat :=
  let v := s.vecOf n
  pack [(0, 16, v.lastTag), (16, 1, bit v.exec.isSome), (17, 1, bit v.held), (18, 2, bit v.exec.isSome + bit v.wait.isSome)]

/-- A word of a sequencer's block (R243): HELD while a list that runs or stalls stands at an instruction boundary under its island's
hold (R240). -/
def seqWord (s : State) (n o : Nat) : Nat :=
  let q := s.seqOf n
  let st := if (q.state == .run || q.state == .stall) && s.holdOn (seqIsland n) then 4 else seqStateCode q.state
  if o = 0 then pack [(0, 3, st), (3, 1, bit q.sibling), (4, 6, q.ctx), (10, 4, if q.state == .wait then q.waitSrc else 0)]
  else if o = 4 then q.pc % 2 ^ 24
  else s.seqReg n o

/-- ALS.SCRUB.BUSY: a scrub is asked for or runs, or the array's state is being saved or restored (R139). -/
def State.alsBusy (s : State) (n : Nat) : Bool := s.alsBlocked n || (s.holderOf n).incoming.isSome

/-- DMA.ENGINE and the channel words (R156). -/
def dmaWord (s : State) (d po : Nat) : Nat :=
  if po = 0x100 then
    pack [(0, 1, bit (s.unitHeld (enDma d))),
      (1, 7, ((List.range 32).map fun c => if s.chValid (32 * d + c) then s.chQuota (32 * d + c) else 0).sum)]
  else if 0x200 ≤ po && po < 0x228 then seqWord s (20 + d) (po - 0x200)
  else if 0x400 ≤ po && po < 0xC00 && (po - 0x400) % 0x40 = 0x14 then
    let c := s.chOf (32 * d + (po - 0x400) / 0x40)
    pack [(0, 3, chStateCode c.state), (3, 8, c.pending), (11, 1, bit c.overrun), (12, 16, c.next)]
  else s.reg .dma d po

/-- DPW (R354). -/
def dpwWord (s : State) (d po : Nat) : Nat :=
  let waits := fun e => s.pwr.quietWait.contains e || s.pwr.resWait.contains e
  let slow := fun i => (s.islOf i).stretched || (s.islOf i).braked
  if po = 0x100 then
    pack (((List.range 5).flatMap fun i =>
        [(i, 1, bit (waits (enArr (5 * d + i)))), (6 + i, 1, bit (slow (5 * d + i)))]) ++
      [(5, 1, bit (waits (enDma d))), (11, 1, bit (slow (20 + d)))])
  else if po = 0x108 then half64 (tabGet 0 s.pwr.quietPaid d) false
  else if po = 0x10C then half64 (tabGet 0 s.pwr.quietPaid d) true
  else s.reg .dpw d po

/-! Memory -/

/-- Whether a MEM_INIT that has started and not ended writes the stack (R169): of every range of R159 it passes through, every
stack for the interleaved one, the six of its die for a die-local one. -/
def State.initBusy (s : State) (st : Nat) : Bool :=
  s.queues.any fun e => e.2.cmds.any fun c =>
    c.started && !c.ended && c.raw % 256 == 0xC8 &&
      (let pa := fld c.raw 0x10 0 64
       let last := pa + 2 ^ 21 * fld c.raw 0x18 0 32 - 1
       rangeOf s.dlocal pa == 0 ||
         (decide (rangeOf s.dlocal pa ≤ st / 6 + 1) && decide (st / 6 + 1 ≤ rangeOf s.dlocal last)))

/-- MPE (R178). -/
def mpeWord (s : State) (st po : Nat) : Nat :=
  let loaded := fun (lo : Nat) => ((List.range 32).map fun c => if s.mem.keyOf (lo + c) = 0 then 0 else 2 ^ c).sum
  if po = 0x10C then loaded 0
  else if po = 0x110 then loaded 32
  else if po = 0x114 then bit (s.mem.keyOf 64 != 0)
  else if po = 0x118 then bit (s.initBusy st)
  else s.reg .mpe st po

/-- NMU, and the pair registers of NMU[00] (R206, R207). -/
def nmuWord (s : State) (u po : Nat) : Nat :=
  let x := s.nmuOf u
  if po = 0x100 then pack [(0, 3, nmuStateCode x.state), (3, 1, bit (x.state != .idle && x.desc.isNone && s.unitHeld (enNmu u))), (4, 6, x.cmd.ctx)]
  else if po = 0x104 then x.done % 2 ^ 32
  else if po = 0x118 then x.sent % 2 ^ 32
  else if po = 0x200 && u = 0 then
    withBits (withBits (s.reg .nmu 0 0x200) 6 1 (bit s.pairSide)) 7 1 (bit s.pairUp)
  else s.reg .nmu u po

/-! Fabric and exchange -/

def lnkWord (s : State) (p po : Nat) : Nat :=
  if po = 0x10C then withBits (s.reg .lnk p 0x10C) 16 16 (s.elapsed p) else s.reg .lnk p po

def rtrWord (s : State) (po : Nat) : Nat :=
  if po = 0x114 then readTdata s false else if po = 0x118 then readTdata s true else s.reg .rtr 0 po

def xchWord (s : State) (po : Nat) : Nat :=
  if po = 0x100 || po = 0x104 then
    let h := (po - 0x100) / 4
    pack [(0, 5, (s.xch.ops.filter fun x => x.half == h).length), (5, 1, bit (s.unitHeld (enXch h)))]
  else if po = 0x108 || po = 0x10C then 1024 - (usedSlots s ((po - 0x108) / 4)).length
  else if 0x200 ≤ po && po < 0x228 then seqWord s 24 (po - 0x200)
  else if 0x240 ≤ po && po < 0x268 then seqWord s 25 (po - 0x240)
  else s.reg .xch 0 po

def catWord (s : State) (po : Nat) : Nat :=
  if 0x200 ≤ po && po < 0x300 then
    let x := s.sslot ((po - 0x200) / 4)
    pack [(0, 2, x.state), (2, 6, x.ctx), (8, 16, x.op), (24, 1, bit x.lost)]
  else s.reg .cat 0 po

/-- A word of the catalogue window (R300). -/
def catWinWord (s : State) (po : Nat) : Nat := bits (s.catEntry (256 * s.field .cat 0 0x10C 0 9 + po / 16)) (8 * (po % 16)) 32

def bxlWord (s : State) (po : Nat) : Nat :=
  if po = 0x120 then (s.bxl.lines.filter fun e => e.2.st == .m).length else s.reg .bxl 0 po

def mmuWord (s : State) (po : Nat) : Nat :=
  if po = 0x104 then withBits (s.reg .mmu 0 0x104) 8 1 (bit s.mmu.inval.isSome) else s.reg .mmu 0 po

/-! The front end -/

/-- FE.CTX_LO and FE.CTX_HI. -/
def residentWord (s : State) (lo : Nat) : Nat := ((List.range 32).map fun c => if (s.ctxOf (lo + c)).resident then 2 ^ c else 0).sum

def feWord (s : State) (i po : Nat) : Nat :=
  if i = 0 && po = 0x114 then residentWord s 0
  else if i = 0 && po = 0x118 then residentWord s 32
  else if i = 1 && 0x100 ≤ po && po < 0x150 then
    let h := s.holderOf ((po - 0x100) / 4)
    pack [(0, 6, h.ctx.getD 0), (6, 1, bit h.ctx.isSome), (7, 1, bit h.incoming.isSome)]
  else s.reg .fe i po

/-- A doorbell page (R209). -/
def doorbellWord (s : State) (q po : Nat) : Nat :=
  let x := s.queueOf q
  match po with
  | 0x00 => x.tail
  | 0x04 => x.head
  | 0x08 => x.doneN
  | 0x0C => pack [(0, 3, qStateCode x.state), (3, 5, if x.state == .stopped then x.reason else 0), (8, 1, bit (!x.held.isEmpty && x.cqFull))]
  | 0x10 => x.cqTail
  | 0x14 => x.cqHead
  | 0x18 => x.stopSeq
  | _ => 0

/-! Management -/

/-- PWR (R353). -/
def pwrWord (s : State) (po : Nat) : Nat :=
  let p := s.pwr
  if po = 0x100 then
    pack [(0, 1, bit p.ceiling), (1, 1, bit (p.ramp.any fun r => rampAt r s.gtime != r.target)), (2, 1, bit (p.braked || p.brakeRise.isSome)),
      (3, 1, bit p.thermal.isSome), (4, 1, bit (p.alerts != 0)), (5, 1, bit (p.trim != 0)), (6, 1, bit p.trip)]
  else if po = 0x104 then pack [(0, 12, p.eff / 10 ^ 6), (16, 12, p.sched / 10 ^ 6), (28, 4, p.table.length)]
  else if po = 0x108 then pack [(0, 11, p.duty), (16, 8, p.fceil)]
  else if po = 0x120 || po = 0x124 then half64 p.energy (po == 0x124)
  else if po = 0x128 || po = 0x12C then half64 s.gtime (po == 0x12C)
  else if po = 0x138 then withBits (withBits (s.reg .pwr 0 0x138) 0 1 (bit p.locked)) 1 1 (bit p.armed)
  else if 0x180 ≤ po && po < 0x1D0 then
    let n := (po - 0x180) / 4
    withBits (s.reg .pwr 0 po) 16 8 (if s.arrayDisabled n || s.islandStopped n then 0 else (s.islOf n).freq)
  else s.reg .pwr 0 po

/-- SEC (R376). -/
def secWord (s : State) (po : Nat) : Nat :=
  if po = 0x108 then
    pack ((0, 3, s.mgmt.sessions.length) :: (List.range 4).map fun k => (3 + k, 1, bit (tabGet 0 s.mgmt.anchors k != 0)))
  else s.reg .sec 0 po

/-! Every word -/

/-- NOC (R420): RETRY_MAX is 1 at least where a transfer has crossed since it was cleared. -/
def nocWord (s : State) (d po : Nat) : Nat :=
  if po = 0x10C then max (s.reg .noc d 0x10C) (tabGet 0 s.bridge (64 + d)) else s.reg .noc d po

/-- A block-specific word of a page. -/
def blockWord (s : State) (b : Block) (i po : Nat) : Nat :=
  match b with
  | .arr => if po = 0x104 then arrStateWord s i else s.reg .arr i po
  | .vec => if po = 0x100 then vecStateWord s i else s.reg .vec i po
  | .seq => seqWord s i (po - 0x100)
  | .als => if po = 0x100 then 2 * bit (s.alsBusy i) else s.reg .als i po
  | .dma => dmaWord s i po
  | .dpw => dpwWord s i po
  | .noc => nocWord s i po
  | .mpe => mpeWord s i po
  | .nmu => nmuWord s i po
  | .lnk => lnkWord s i po
  | .rtr => rtrWord s po
  | .xch => xchWord s po
  | .cat => catWord s po
  | .catWin => catWinWord s po
  | .bxl => bxlWord s po
  | .mmu => mmuWord s po
  | .fe => feWord s i po
  | .doorbell => doorbellWord s i po
  | .pwr => pwrWord s po
  | .sec => secWord s po
  | b => s.reg b i po

/-- Whether a page has the common header. -/
def hasHeader (b : Block) : Bool := b != .catWin && b != .doorbell

/-- What a word of a page reads as, by a privileged path. -/
def readWord (s : State) (b : Block) (i po : Nat) : Nat :=
  match layIn b i po with
  | none => 0
  | some l =>
    if s.pageDead b i then deadWord b i po
    else if l.wo ≠ 0 && l.rw = 0 && l.rwk = 0 && l.w1c = 0 then 0
    else if hasHeader b && decide (po < 0x100) then headWord s b i po
    else blockWord s b i po

/-! Reads of a path (R9, R412, R413) -/

/-- Whether a word is the low word of a 64-bit value (R413). -/
def pairLow (b : Block) (i po : Nat) : Bool :=
  (hasHeader b && (po == 0x28 || po == 0x34 || (decide (0x60 ≤ po) && decide (po < 0xA0) && po % 8 == 0))) ||
  match b with
  | .pwr => [0x120, 0x128, 0x130].contains po
  | .obs => [0x104, 0x1A0, 0x1C0].contains po
  | .fe =>
    (i == 0 && (po == 0x100 || po == 0x114)) ||
      (i == 2 && decide (0x100 ≤ po) && decide (po < 0x300) && (po % 0x20 == 0 || po % 0x20 == 0xC))
  | .seq => po == 0x110
  | .qnt => po == 0x100
  | .dma => po == 0x210 || (decide (0x400 ≤ po) && decide (po < 0xC00) && (po % 0x40 == 4 || po % 0x40 == 0x28))
  | .xch => po == 0x210 || po == 0x250
  | .dpw => po == 0x108
  | .mpe => po == 0x10C
  | .rtr => [0x108, 0x114, 0x128].contains po
  | .bxl => po == 0x118 || po == 0x184
  | .mmu => po == 0x108 || [0x184, 0x194, 0x1A4, 0x1B4].contains po || (decide (0x200 ≤ po) && decide (po < 0x400) && po % 8 == 0)
  | _ => false

/-- The path code of DEV's records (R419). -/
def pathCode : Path → Nat
  | .host => 0 | .kq => 1 | .mgmt => 2

/-- An access to an unassigned offset (0x01), or a write to a disabled island's page (0x02): counted and recorded (R412, R418). -/
def noteUnassigned (s : State) (p : Path) (off code : Nat) (write : Bool) : State :=
  capture (s.bump .dev 0 0x120 1) .dev 0
    { sev := sevLogged, addr := off, info := code + (bit write + 2 * pathCode p) * 2 ^ 8 }

/-- A read of a word of an assigned page: a privileged-read word reads zero on an unprivileged path and is logged; a high word
whose low word has been read gives what was captured; a low word captures its high word. -/
def readAt (p : Path) (s : State) (b : Block) (i off : Nat) : State × Nat :=
  let po := off % 0x1000
  let l := layAt b i po
  if l.rop && p == .host && !s.pageDead b i then
    (if hasHeader b then capture s b i { sev := sevLogged, addr := off, info := 0xF1 }
      else capture s .cat 0 { sev := sevLogged, addr := off, info := 0xF1 }, 0)
  else
    match tabGet 0 s.hiCap off with
    | v + 1 => ({ s with hiCap := tabSet 0 s.hiCap off 0 }, v)
    | 0 =>
      let v := readWord s b i po
      if pairLow b i po then ({ s with hiCap := tabSet 0 s.hiCap (off + 4) (readWord s b i (po + 4) + 1) }, v) else (s, v)

/-- A read of an aperture word; in reset nothing is there to answer (R407; log entry 153). -/
def readReg (p : Path) (s : State) (off : Nat) : State × Nat :=
  if s.pins.inReset then (s, 0)
  else match pageOf off with
  | none => (noteUnassigned s p off 0x01 false, 0)
  | some (b, i) => readAt p s b i off

/-- An 8 B read: both words of one cycle; of an unassigned offset, one access. -/
def readReg8 (p : Path) (s : State) (off : Nat) : State × Nat :=
  if (pageOf off).isNone then readReg p s off
  else
    let (s, lo) := readReg p s off
    let (s, hi) := readReg p s (off + 4)
    (s, lo + 2 ^ 32 * hi)

end Sys2Proof.Machine
end

