-- ==== Sys2Proof/Machine/Registers.lean ====
section
/-!
DEFINITION. Writes of register words (R9, R412–R418): what each path may write, the words whose write acts, and the CTRL
fields of an island: quiesce, enable and block reset.
Rows of notes/assumptions: DEDUCED 18, 19, 20, 21, 22, 23, 24, 80, 153, 215.
-/
namespace Sys2Proof.Machine

open Sys2Proof

/-! Block reset (R417) -/

/-- The pages of an array group, and of a die group. -/
def islandPages (k : Nat) : List (Block × Nat) :=
  if k < 20 then [(.arr, k), (.acc, k), (.vec, k), (.seq, k), (.als, k), (.qnt, k)]
  else [(.dss, k - 20), (.dma, k - 20), (.noc, k - 20), (.dpw, k - 20)]

/-- Every block-specific register of a page, and INT_RAW, at its reset value. -/
def resetPage (s : State) (e : Block × Nat) : State :=
  let lo := pageBase e.1 e.2
  { s with regs := tabErase (fun o => decide (lo ≤ o) && decide (o < lo + 0x1000) && (decide (lo + 0x100 ≤ o) || o == lo + 0x14)) s.regs }

/-- Ends with BLOCK_RESET the part that an engine has in every command that uses it. -/
def resetCommands (s : State) (eng : Nat) : State :=
  (s.queues.flatMap fun e => (e.2.cmds.filter fun c => !c.ended && c.engines.contains eng).map fun c => (e.1, c.n)).foldl
    (fun s e => reportEngine s e.1 e.2 eng (some ⟨stBlockReset, 0, 0⟩)) s

/-- The items discarded at the island's crossings: the register writes and signals held for it, and those in flight at that moment;
one event where there are any (R21, R385). -/
def discardItems (s : State) (k : Nat) : State :=
  let i := s.islOf k
  let n := min (i.writes.length + i.signals.length + Config.crossItems s.draws) 0xFFFFFF
  let s := { s.setIsl k { i with writes := [], signals := [] } with draws := s.draws + 1 }
  if n = 0 then s
  else capture s (if k < 20 then .arr else .dss) (if k < 20 then k else k - 20) { sev := sevLogged, info := 0xF2 + n * 2 ^ 8 }

/-- The bursts of a channel of the die that wait at an array island are answered with BLOCK_RESET (R21, R151). -/
def refuseBursts (s : State) (n k : Nat) : State :=
  let x := s.chOf k
  match x.desc with
  | none => s
  | some desc =>
    let r := if (srcArrays (k / 32) desc).contains n then x.issued else x.refused
    s.setCh k { x with refused := r, writeRefused := if x.writing && (dstArrays (k / 32) desc).contains n then x.writeRefused.or (some (n % 5)) else x.writeRefused }

/-- An array island's units stop at once and lose their state, after the flags of its command have merged (R51); its context keeps
the assignment. -/
def resetArray (s : State) (n : Nat) : State :=
  let s := (List.range 32).foldl (fun s c => refuseBursts s n (32 * (n / 5) + c)) (mergeIsland s n (s.seqOf n).ctx)
  let s := unitEnd (unitEnd s (enArr n)) (enVec n)
  let st := if (s.arrOf n).state == .stopped then ArrState.stopped else .idle
  let s := dropAgent (((s.setArr n { state := st }).setVec n {}).setSeq n {}) (agSeq n)
  { s with alsScrub := tabSet .none s.alsScrub n .running }

/-- A request that an update unit has outstanding across its die is answered with BLOCK_RESET (R21, R192). -/
def refuseNmu (s : State) (u : Nat) : State :=
  if s.bxl.reqs.any fun e => e.2.any fun r => r.agent == agNmu u then s.setNmu u { s.nmuOf u with refused := true } else s

/-- A die island's: channels DISABLED, partitions without owner and to be scrubbed, translations gone; what the sequencers and
update units that reach memory across the die have asked for is answered with BLOCK_RESET (R21). -/
def resetDie (s : State) (d : Nat) : State :=
  let s := (List.range 32).foldl (fun s c => dropAgent ((burstsEnd s (32 * d + c)).setCh (32 * d + c) {}) (agDma (32 * d + c))) s
  let s := (List.range 16).foldl (fun s p => s.setReg .dss d (0x100 + 4 * p) 128) (dropAgent (s.setSeq (20 + d) {}) (agSeq (20 + d)))
  let s := (List.range 6).foldl (fun s i => refuseNmu s (6 * d + i)) s
  let s := (List.range 5).foldl (fun s i => refuseAgent s (agSeq (5 * d + i))) s
  { s with
    bridge := tabSet 0 s.bridge (64 + d) 0
    mmu := { s.mmu with tlb := tabSet [] s.mmu.tlb d [], walkCache := tabSet [] s.mmu.walkCache d [] }
    pwr := { s.pwr with quietPaid := tabSet 0 s.pwr.quietPaid d 0 } }

/-- Begins the block reset of an array or die island. -/
def blockReset (s : State) (k : Nat) : State :=
  let s := discardItems s k
  let s := resetCommands (stopSiblings s k) (seqCode k)
  let s := (islandPages k).foldl resetPage s
  let s := if k < 20 then resetArray s k else resetDie s (k - 20)
  s.setIsl k { s.islOf k with resetting := true, quiesced := false }

/-- The scrubs of a block reset end. -/
def endBlockReset (s : State) (k : Nat) : State :=
  let s :=
    if k < 20 then { scrubAls s k with alsScrub := tabSet .none s.alsScrub k .none }
    else (List.range 16).foldl (fun s p =>
      if s.partBusy (k - 20) p then (scrubPart s (k - 20) p).setReg .dss (k - 20) (0x100 + 4 * p) (s.part (k - 20) p % 128) else s) s
  kickIsland (s.setIsl k { s.islOf k with resetting := false }) k

/-! Quiesce and enable (R417) -/

/-- CTRL.QUIESCE takes a value. -/
def setQuiesce (s : State) (k : Nat) (on : Bool) : State :=
  let x := s.islOf k
  if x.quiesce = on then s
  else
    let s := kickIsland (s.setIsl k { x with quiesce := on, quiesced := false }) k
    if k = 48 then kickIsland s 49 else s

/-- CTRL.ENABLE takes a value: `none` for a stop of an island that is not quiesced. -/
def setEnable (s : State) (k : Nat) (on : Bool) : Option State :=
  let x := s.islOf k
  if on = x.enable then some s
  else if on then some (kickIsland (startIsland (s.setIsl k { x with enable := true, resumeMark := true }) k) k)
  else if x.quiesced then some (s.setIsl k { x with enable := false })
  else none

/-- A write of CTRL: fields the page does not honour, a second BLOCK_RESET and an ENABLE of 0 without a completed quiesce are
ignored and logged; the reset is applied first. -/
def writeCtrl (s : State) (b : Block) (i off v : Nat) : State :=
  let denied := (!honoursE b && !v.testBit 0) || (!honoursQ b && v.testBit 1) || (!honoursR b && v.testBit 2)
  match islandOf b i with
  | none => if denied then logIgnored s b i off else s
  | some k =>
    let again := honoursR b && v.testBit 2 && (s.islOf k).resetting
    let s := if honoursR b && v.testBit 2 && !again then blockReset s k else s
    let (s, bad) := if honoursE b then (match setEnable s k (v.testBit 0) with | some t => (t, false) | none => (s, true)) else (s, false)
    let s := if honoursQ b then setQuiesce s k (v.testBit 1) else s
    if denied || again || bad then logIgnored s b i off else s

/-- Whether every unit of an island has stopped at its hold point with no spill or epilogue in progress (R417). -/
def State.islandAtRest (s : State) (k : Nat) : Bool :=
  if k < 20 then
    let a := s.arrOf k
    (a.state == .stopped || a.state == .idle || a.state == .held) && (a.post.all fun p => p.spill != .running && p.epi != .running) &&
      ((s.vecOf k).exec.isNone || (s.vecOf k).held)
  else if k < 24 then
    (List.range 32).all fun c => (s.chOf (32 * (k - 20) + c)).atBoundary
  else if k < 48 then (s.nmuOf (k - 24)).desc.isNone
  else true

/-! Words whose write acts -/

/-- PWR (R350, R353). -/
def writePwr (s : State) (po v : Nat) : Option State :=
  let plain := plainWrite s .pwr 0 po (layAt .pwr 0 po) true v
  if po = 0x10C then (if bits v 16 12 = 0 then none else some plain)
  else if po = 0x134 then some (armSet s v)
  else if 0x180 ≤ po && po < 0x1D0 then
    let n := (po - 0x180) / 4
    if bits v 8 8 > s.field .pwr 0 po 0 8 || bits v 8 8 < 0x6F then none
    else some (if tabGet 0 plain.pwr.active n = 0 then retune plain n else plain)
  else if 0x200 ≤ po && po % 0x10 = 0 then
    let r := regReset (pageBase .pwr 0 + po)
    if bits v 0 12 > bits r.toNat 0 12 || bits v 16 12 > bits r.toNat 16 12 then none else some plain
  else if 0x200 ≤ po && po % 0x10 = 4 then
    let w := bits v 0 7
    if w < 2 || w > 100 || w % 2 = 1 then none else some plain
  else some plain

/-- OBS (R395): a ring in use keeps its place and size, and may be stopped. -/
def writeObs (s : State) (po v : Nat) : Option State :=
  let plain := plainWrite s .obs 0 po (layAt .obs 0 po) true v
  let sampling := s.field .obs 0 0x100 0 20 != 0
  let ringOn := (s.reg .obs 0 0x1A0).testBit 0
  if po = 0x100 then (if sampling && bits v 20 11 != s.field .obs 0 0x100 20 11 then none else some plain)
  else if po = 0x104 || po = 0x108 then (if sampling then none else some plain)
  else if po = 0x1A0 then
    (if ringOn && (v.testBit 0 || bits v 12 20 != s.field .obs 0 0x1A0 12 20) then none else some plain)
  else if po = 0x1A4 then (if ringOn then none else some plain)
  else if po = 0x200 then some (writeLogCtrl s v)
  else some plain

/-- A kernel queue's registers (R231). -/
def writeKq (s : State) (po v : Nat) : Option State :=
  let k := (po - 0x100) / 0x20
  if po % 0x20 = 8 then writeKqCfg s k v
  else if (s.kq k 8).testBit 5 then none
  else some (plainWrite s .fe 2 po (layAt .fe 2 po) true v)

/-- The words of a DMA page (R156): ACTION applies its action, which only a halted channel takes, and then its starts. -/
def writeDma (s : State) (d po v : Nat) (priv : Bool) : Option State :=
  let plain := plainWrite s .dma d po (layAt .dma d po) priv v
  if 0x200 ≤ po && po < 0x228 then writeSeqReg s (20 + d) (po - 0x200) v
  else if 0x400 ≤ po && po < 0xC00 then
    let k := 32 * d + (po - 0x400) / 0x40
    let o := (po - 0x400) % 0x40
    if o = 0 then writeDmaCfg s k v
    else if o = 0xC then some (writeTimer s k v)
    else if o = 0x14 then some (if v.testBit 11 then s.setCh k { s.chOf k with overrun := false } else s)
    else if o = 0x1C then
      let act := bits v 0 2
      let halted := (s.chOf k).state == .halted
      let t := if act ≠ 0 && halted then dmaAction plain k act else plain
      let t := if bits v 2 8 = 0 then t else giveStarts t k (bits v 2 8)
      some (if act ≠ 0 && !halted then logIgnored t .dma d (pageBase .dma d + po) else t)
    else some plain
  else some plain

/-- LNK (R246, R264): MEDIA changes only in DOWN; a BOND outside FP[32]–FP[35] is ignored and logged. -/
def writeLnk (s : State) (p po v : Nat) : State :=
  if po = 0x100 then
    let t := writeLnkCtrl s p v
    if p < 32 && v.testBit 3 then logIgnored t .lnk p (pageBase .lnk p + 0x100) else t
  else if po = 0x104 && s.portState p ≠ lsDown then s
  else plainWrite s .lnk p po (layAt .lnk p po) true v

/-- Zeroes every bin of the congestion map. -/
def clearHist (s : State) : State := (List.range 288).foldl (fun s k => s.setReg .rtr 0 (0x200 + 4 * k) 0) s

/-- RTR (R265). A TDATA write to a reserved selection has no effect. -/
def writeRtr (s : State) (po v : Nat) : Option State :=
  if po = 0x10C then writeEpochAt s v
  else if po = 0x114 then some ((writeTdataLo s v).getD s)
  else if po = 0x118 then some ((writeTdataHi s v).getD s)
  else if po = 0x124 then some (writeHistCfg s v)
  else some (plainWrite s .rtr 0 po (layAt .rtr 0 po) true v)

/-- XCH (R287). -/
def writeXch (s : State) (po v : Nat) : Option State :=
  if 0x200 ≤ po && po < 0x228 then writeSeqReg s 24 (po - 0x200) v
  else if 0x240 ≤ po && po < 0x268 then writeSeqReg s 25 (po - 0x240) v
  else some (plainWrite s .xch 0 po (layAt .xch 0 po) true v)

/-- BXL.VEC_MASK[i] (R329): each pending vector that is unmasked sends one INTR. -/
def writeVecMask (s : State) (i v : Nat) : State :=
  let pend := s.reg .bxl 0 (0x500 + 4 * i)
  let out := (setBits 32 pend).filter fun j => !v.testBit j
  let s := (s.setReg .bxl 0 (0x400 + 4 * i) v).setReg .bxl 0 (0x500 + 4 * i) (pend &&& v)
  out.foldl (fun s j => s.send { kind := .intr, dest := 32 * i + j }) s

/-- Whether the boot registers take writes (R331). -/
def State.bootOpen (s : State) : Bool := s.bxlBoot == 1 || s.bxlBoot == 3

/-- BXL (R330–R332). -/
def writeBxl (s : State) (po v : Nat) (priv : Bool) : Option State :=
  let plain := plainWrite s .bxl 0 po (layAt .bxl 0 po) priv v
  if po = 0x104 then some (if v.testBit 0 then retrainPort s bxlPort false else s)
  else if po = 0x110 then (if bits v 0 16 = 0 then none else some plain)
  else if po = 0x180 then some (if v.testBit 0 then bootGo s else s)
  else if 0x184 ≤ po && po < 0x190 then some (if s.bootOpen then plain else s)
  else if 0x400 ≤ po && po < 0x500 then some (writeVecMask s ((po - 0x400) / 4) v)
  else some plain

/-- MMU (R161, R164, R179). Clearing VALID of a captured fault leaves its other fields (log entry 215). -/
def writeMmu (s : State) (po v : Nat) (priv : Bool) : Option State :=
  if po = 0x100 then writeMap s v
  else if po = 0x104 then writeInval s v
  else some (plainWrite s .mmu 0 po (layAt .mmu 0 po) priv v)

/-- A doorbell page (R209, R210, R219). -/
def writeDoorbell (s : State) (q po v : Nat) : Option State :=
  if po = 0 then writeTail s q v else if po = 0x14 then some (writeCqHead s q v) else some s

/-- NOC (R420): a clear of RETRY_MAX acts on what it reads. -/
def writeNoc (s : State) (d po v : Nat) : State :=
  if po = 0x10C then { s.setReg .noc d 0x10C (clearBits (nocWord s d 0x10C) (v % 16)) with bridge := tabSet 0 s.bridge (64 + d) 0 }
  else plainWrite s .noc d po (layAt .noc d po) true v

/-- A write of a block-specific word that its path may make; `none` where it is ignored and logged. -/
def writeBlock (s : State) (b : Block) (i po v : Nat) (priv : Bool) : Option State :=
  match b with
  | .arr | .acc | .vec | .seq | .als | .qnt => writeArrayWord s b i po v priv
  | .pwr => writePwr s po v
  | .obs => writeObs s po v
  | .mbx => if po < 0xF00 then writeDcb s (po - 0x100) v else if po = 0xF00 then commitDcb s v else some s
  | .fe => if i = 2 then writeKq s po v else some (plainWrite s .fe i po (layAt .fe i po) priv v)
  | .dss => some (if po < 0x140 then writePartOwner s i ((po - 0x100) / 4) v else plainWrite s .dss i po (layAt .dss i po) priv v)
  | .dma => writeDma s i po v priv
  | .noc => some (writeNoc s i po v)
  | .lnk => some (writeLnk s i po v)
  | .rtr => writeRtr s po v
  | .xch => writeXch s po v
  | .cat => if po = 0x100 then writeCatCtrl s v else some (plainWrite s .cat 0 po (layAt .cat 0 po) priv v)
  | .bxl => writeBxl s po v priv
  | .mmu => writeMmu s po v priv
  | .doorbell => writeDoorbell s i po v
  | b => some (plainWrite s b i po (layAt b i po) priv v)

/-! Every word -/

/-- Logs a write that a page ignores; doorbell pages and the catalogue window have no record of their own. -/
def logPage (s : State) (b : Block) (i off : Nat) : State :=
  match b with
  | .doorbell => logIgnored s .fe 0 off
  | .catWin => logIgnored s .cat 0 off
  | b => logIgnored s b i off

/-- A write of a word of an assigned page that its path may make. -/
def takeWrite (s : State) (b : Block) (i off v : Nat) (priv : Bool) : State :=
  let po := off % 0x1000
  if hasHeader b && po == 0x0C then writeCtrl s b i off v
  else if isArrayPage b && s.islandStopped i then s.setIsl i { s.islOf i with writes := (s.islOf i).writes ++ [(off, v, priv)] }
  else
    match (if hasHeader b && decide (po < 0x100) then writeHead s b i po v else writeBlock s b i po v priv) with
    | some t => t
    | none => logPage s b i off

/-- The part of an unprivileged write of a word with RWK bits that acts: RTR.HIST_CFG.CLEAR alone lies in such a word. -/
def hostPart (s : State) (b : Block) (po v : Nat) : State := if b == .rtr && po == 0x124 && v.testBit 17 then clearHist s else s

/-- The pages that the management REG_WRITE may write (R371). -/
def mgmtWritable (off : Nat) : Bool :=
  match pageOf off with
  | some (b, _) => b == .pwr || b == .obs || b == .lnk || b == .rtr || b == .mc
  | none => false

/-- A write of an aperture word (R412): of an unassigned offset or a disabled island's page, counted and recorded; of a
reserved offset, ignored; of a word with RWK bits on the host's path, ignored and logged (R9). Nothing is written in reset (R407), nor by the management
controller in a page that R371 does not name. -/
def writeReg (p : Path) (s : State) (off v : Nat) : State :=
  if s.pins.inReset || (p == .mgmt && !mgmtWritable off) then s
  else match pageOf off with
  | none => noteUnassigned s p off 0x01 true
  | some (b, i) =>
    if s.pageDead b i then noteUnassigned s p off 0x02 true
    else
      match layIn b i (off % 0x1000) with
      | none => s
      | some l =>
        if b == .catWin then logPage s b i off
        else if p == .host && l.rwk != 0 then hostPart (logPage s b i off) b (off % 0x1000) v
        else takeWrite s b i off (v % 2 ^ 32) (p != .host)

/-- An 8 B write: the low word, then the high (R413); a GO uses the address word written with it (R331). -/
def writeReg8 (p : Path) (s : State) (off v : Nat) : State :=
  if off = pageBase .bxl 0 + 0x180 then writeReg p (writeReg p s (off + 4) (v / 2 ^ 32)) off (v % 2 ^ 32)
  else writeReg p (writeReg p s off (v % 2 ^ 32)) (off + 4) (v / 2 ^ 32)

end Sys2Proof.Machine
end

