-- ==== Sys2Proof/Machine/Companion.lean ====
section
/-!
DEFINITION. The companion processor's side of the Brixcia Link (R319–R332): register and window accesses, responses to the
LM1's requests, snoops, translation invalidations, and timeouts.
Rows of notes/assumptions: DEDUCED 111, 112, 113, 114, 115.
-/
namespace Sys2Proof.Machine

open Sys2Proof

/-! MMIO (R322, R323) -/

/-- Whether a message's SIZE and ADDR break R319. -/
def badExtent (addr size : Nat) : Bool :=
  size == 0 || decide (size > 4096) || size % 4 != 0 || addr % 4 != 0 || decide (addr % 4096 + size > 4096)

/-- The register that a message reaches; `none` where it is answered UR. -/
def mmioOffset (addr size : Nat) : Option Nat :=
  if addr < 2 ^ 24 && (size == 4 || size == 8) && addr % size == 0 then some addr else none

/-- The physical address that a window message reaches; `none` where it is answered UR. -/
def windowPa (s : State) (addr size : Nat) : Option Nat :=
  let off := addr % 2 ^ 62
  let pa := 2 ^ 30 * s.field .bxl 0 0x108 0 14 + off
  if addr / 2 ^ 62 = 1 && off < 2 ^ 36 && (s.reg .bxl 0 0x10C).testBit 7 && inDevice pa size then some pa else none

/-- BXL.WIN_CTX.OWNER. -/
def State.windowOwner (s : State) : Nat := s.field .bxl 0 0x10C 0 7

/-- Whether an MMIO message waits: all later ones then wait behind it (R323). -/
def mmioHeld (s : State) : Bool :=
  s.mem.waiting.any fun w => match w with
    | .mmioRd _ _ _ | .mmioWr _ _ _ => true
    | _ => false

/-- Serves a read of the window. -/
def windowRead (s : State) (tag addr owner pa len : Nat) : State :=
  let (s, r) := readFrom s 4 owner pa len
  if r.bus then mmioReply s tag addr bsUr false [] else mmioReply s tag addr bsOk r.bad r.bytes

/-- Serves a write of the window; poisoned data is written poisoned. -/
def windowWrite (s : State) (owner pa : Nat) (data : List Byte) (poison : Bool) : State :=
  let (s, bad) := writeFrom s 4 owner pa data
  if bad || !poison then s
  else poisonUnits s ((List.range ((pa + data.length - 1) / 64 + 1 - pa / 64)).map fun i => pa / 64 * 64 + 64 * i)

/-- An MMIO_RD takes effect in its order of arrival, and is answered; it waits behind an earlier message that waits, and for a row
that is being copied (R174, R323). -/
def mmioRead (s : State) (tag addr size : Nat) : State :=
  if mmioHeld s then memWaits s (.mmioRd tag addr size)
  else if badExtent addr size then mmioReply s tag addr bsUr false []
  else
    match mmioOffset addr size with
    | some off =>
      let (s, v) := if size = 8 then readReg8 .host s off else readReg .host s off
      mmioReply s tag addr bsOk false (leBytes v size)
    | none =>
      match windowPa s addr size with
      | none => mmioReply s tag addr bsUr false []
      | some pa =>
        if rowsBusy s pa size then memWaits s (.mmioRd tag addr size) else windowRead s tag addr s.windowOwner pa size

/-- An MMIO_WR takes effect in its order of arrival, or waits as an MMIO_RD does. Poisoned data is written poisoned through the window
and never to a register. -/
def mmioWrite (s : State) (addr : Nat) (poison : Bool) (data : List Byte) : State :=
  if mmioHeld s then memWaits s (.mmioWr addr poison data)
  else
    match mmioOffset addr data.length with
    | some off =>
      if poison then s else if data.length = 8 then writeReg8 .host s off (leNat data) else writeReg .host s off (leNat data)
    | none =>
      match windowPa s addr data.length with
      | none => s
      | some pa =>
        if rowsBusy s pa data.length then memWaits s (.mmioWr addr poison data) else windowWrite s s.windowOwner pa data poison

/-- Serves what waits, or keeps it waiting. -/
def serveWait (s : State) (w : MemWait) : State :=
  match w with
  | .read owner pa len => if rowBusy s pa then memWaits s w else mcRead s owner pa len
  | .write owner pa data => if rowBusy s pa then memWaits s w else mcWrite s owner pa data
  | .ring pa data v => if rowsBusy s pa data.length then memWaits s w else announce (devWrite s 64 pa data).1 v
  | .mmioRd tag addr size => mmioRead s tag addr size
  | .mmioWr addr poison data => mmioWrite s addr poison data

/-- ROW_RETIRE_DONE (R170, R174): the row is remapped, its waiting accesses are served in the order in which they came, and the lifetime
log counts it. -/
def execRowRetireDone (st : StackId) (ch : Fin 32) (row : Nat) (s : State) : Out :=
  let r : RowCopy := ⟨32 * st + ch, row⟩
  if s.mem.copies.contains r then
    .next (s.mem.waiting.foldl serveWait { s with
      mem := { s.mem with copies := s.mem.copies.filter (· != r), retired := s.mem.retired ++ [r], waiting := [] }
      life := { s.life with retiredRows := tabMod 0 s.life.retiredRows r.chan fun v => satAdd 16 v 1 } })
  else .next s

/-- MMIO_RD. -/
def execMmioRd (tag : Fin 4096) (addr size : Nat) (s : State) : Out :=
  if !s.bxlUp then .next s
  else .next (mmioRead (if badExtent addr size then malformed s addr else s) tag addr size)

/-- MMIO_WR: posted. -/
def execMmioWr (addr : Nat) (poison : Bool) (data : List Byte) (s : State) : Out :=
  if !s.bxlUp then .next s
  else if badExtent addr data.length then .next (malformed s addr)
  else .next (mmioWrite (if poison then bxlError s 0x07 sevFailed 0x158 addr else s) addr poison data)

/-! Responses (R320, R325, R327, R330) -/

/-- Sends XINV_DONE for each invalidation that waits for nothing more (R328). -/
def settleInvs (s : State) : State :=
  let done := s.bxl.xinvs.filter fun x => x.tags.isEmpty
  done.foldl (fun s x => s.send { kind := .xinvDone, dest := x.tag })
    { s with bxl := { s.bxl with xinvs := s.bxl.xinvs.filter fun x => !x.tags.isEmpty } }

/-- A request is over: its tag is free and no invalidation waits for it. -/
def closeReq (s : State) (tag : Nat) : State :=
  settleInvs { s with bxl := { s.bxl with
    reqs := tabSet none s.bxl.reqs tag none
    xinvs := s.bxl.xinvs.map fun x => { x with tags := x.tags.filter (· != tag) } } }

/-- Keeps an answer for the agent that asked. -/
def answerReq (s : State) (r : Req) (result : Nat) (poison : Bool) (data : List Byte) : State :=
  if r.agent = agNone then s
  else { s with bxl := { s.bxl with answers := s.bxl.answers ++
    [{ agent := r.agent, mtype := r.mtype, addr := r.addr, size := r.size, result := result, poison := poison, data := data }] } }

/-- A request ends with a bus error: a line it was for is in I (R325). -/
def failReq (s : State) (tag : Nat) (r : Req) : State :=
  let s := if r.ofLine then unlistLine s (r.addr / 64) {} else s
  answerReq (closeReq s tag) r 1 false []

/-- An answer whose tag no request has (R326). -/
def noReq (s : State) (addr : Nat) : State := bxlError s 0x05 sevLogged 0x150 addr

/-- Installs a line that has been granted. -/
def grantLine (s : State) (l : Nat) (st : LineState) (data : List Byte) (poison : Bool) : State :=
  touchLine (unlistLine s l { st := st, data := data, poison := poison }) l

/-- Whether DATA with these fields answers a request. -/
def dataFits (r : Req) (addr state status : Nat) (data : List Byte) : Bool :=
  addr == r.addr && [mtRdCur, mtRdS, mtRdO].contains r.mtype && decide (status ≤ 2) &&
    (status != 0 || (data.length == r.size &&
      (if r.mtype = mtRdCur then state == 0 else if r.mtype = mtRdS then state == 1 || state == 2 else state == 2)))

/-- DATA. -/
def execBxlData (tag : Fin 4096) (addr : Nat) (state : Fin 4) (status : Fin 16) (poison : Bool) (data : List Byte) (s : State) : Out :=
  if !s.bxlUp then .next s
  else match tabGet none s.bxl.reqs tag with
    | none => .next (noReq s addr)
    | some r =>
      if !dataFits r addr state status data then .next (malformed s addr)
      else if status.val ≠ 0 then .next (failReq (bxlError s 0x06 sevFailed 0x154 addr) tag r)
      else
        let s := if poison then bxlError s 0x07 sevFailed 0x158 addr else s
        let s := closeReq s tag
        let s := if r.mtype = mtRdCur then s else grantLine s (addr / 64) (if state.val = 1 then .s else .e) data poison
        .next (answerReq s r 0 poison data)

/-- Whether CMP with these fields answers a request. -/
def cmpFits (r : Req) (addr state status : Nat) (data : List Byte) : Bool :=
  addr == r.addr && [mtWr, mtClaim, mtWb, mtEvict, mtAtomic].contains r.mtype && decide (status ≤ 2) &&
    (status != 0 || (state == (if r.mtype = mtClaim then 3 else 0) && data.length == (if r.mtype = mtAtomic then 8 else 0)))

/-- CMP: the end of a write, claim, eviction, writeback or atomic. -/
def execCmp (tag : Fin 4096) (addr : Nat) (state : Fin 4) (status : Fin 16) (data : CmpData) (s : State) : Out :=
  if !s.bxlUp then .next s
  else match tabGet none s.bxl.reqs tag with
    | none => .next (noReq s addr)
    | some r =>
      if !cmpFits r addr state status data.bytes then .next (malformed s addr)
      else if status.val ≠ 0 then .next (failReq (bxlError s 0x06 sevFailed 0x154 addr) tag r)
      else
        let poison := data.poison && !data.bytes.isEmpty
        let s := if poison then bxlError s 0x07 sevFailed 0x158 addr else s
        let s := closeReq s tag
        let l := addr / 64
        let s := if r.mtype = mtClaim then grantLine s l .m (leBytes 0 64) false
          else if (r.mtype = mtWb || r.mtype = mtEvict) && (s.lineOf l).leaving then unlistLine s l {}
          else s
        .next (answerReq s r 0 poison [])

/-- log2 of a page size by PAGE; 3 is reserved. -/
def pageLog (page : Nat) : Nat := if page = 0 then 12 else if page = 1 then 21 else 30

/-- XLATE_RSP (R327, R328): a translation whose page overlaps a range invalidated while it was in flight is discarded, and its
access translates again. -/
def execXlateRsp (tag : Fin 4096) (addr : Nat) (status : Fin 16) (page : Fin 4) (r w : Bool) (s : State) : Out :=
  if !s.bxlUp then .next s
  else match tabGet none s.bxl.reqs tag with
    | none => .next (noReq s addr)
    | some q =>
      let log := pageLog page
      if q.mtype ≠ mtXlate || status.val > 2 || (status.val = 0 && (page.val = 3 || addr % 2 ^ log ≠ 0)) then .next (malformed s addr)
      else if q.invs.any fun v => v.2.2 || (decide (q.io / 2 ^ log * 2 ^ log < v.2.1) && decide (v.1 < q.io / 2 ^ log * 2 ^ log + 2 ^ log)) then
        .next (closeReq s tag)
      else if status.val = 2 then .next (failReq (bxlError s 0x06 sevFailed 0x154 addr) tag q)
      else if status.val = 1 || !r then
        .next (answerReq (closeReq (latchXlate s 1 q.req q.ctx q.io q.write) tag) q 2 false [])
      else
        let e : AtcEntry := ⟨q.io / 2 ^ log * 2 ^ log, log, addr, w⟩
        .next (closeReq { s with bxl := { s.bxl with atc := (e :: s.bxl.atc.filter fun x => x.io != e.io || x.log != log).take 2048 } } tag)

/-! Snoops (R325) -/

/-- SNP_RSP: the state after, WB_PENDING, and the line when it was M. -/
def snoopReply (s : State) (tag addr : Nat) (st : Nat) (pending : Bool) (x : Option HostLine) : State :=
  s.send { kind := .snpRsp, dest := tag, args := [addr, st, bit pending, bit ((x.map (·.poison)).getD false)], data := (x.map (·.data)).getD [] }

/-- Answers a snoop from the line's stable state; `share`: SNP_SHR. -/
def snoop (s : State) (tag addr : Nat) (share : Bool) : State :=
  let l := addr / 64
  let x := s.lineOf l
  match x.st with
  | .i => snoopReply s tag addr 0 false none
  | .m =>
    if x.leaving then snoopReply (unlistLine s l {}) tag addr 0 true none
    else if share then snoopReply (unlistLine s l { x with st := .s }) tag addr 1 false (some x)
    else snoopReply (unlistLine s l {}) tag addr 0 false (some x)
  | _ =>
    if share then snoopReply (unlistLine s l { x with st := .s }) tag addr 1 false none
    else snoopReply (unlistLine s l {}) tag addr 0 false none

/-- SNP_INV. -/
def execSnpInv (tag : Fin 4096) (addr : Nat) (s : State) : Out :=
  if !s.bxlUp then .next s else if addr % 64 ≠ 0 then .next (malformed s addr) else .next (snoop s tag addr false)

/-- SNP_SHR. -/
def execSnpShr (tag : Fin 4096) (addr : Nat) (s : State) : Out :=
  if !s.bxlUp then .next s else if addr % 64 ≠ 0 then .next (malformed s addr) else .next (snoop s tag addr true)

/-! Translation invalidation (R328) -/

/-- Whether a translation cache entry overlaps a range. -/
def AtcEntry.overlaps (e : AtcEntry) (lo hi : Nat) (all : Bool) : Bool := all || (decide (e.io < hi) && decide (lo < e.io + 2 ^ e.log))

/-- XLATE_INV of `pages` + 1 pages of 4 KiB, or of everything. A translation in flight may return a page of up to 1 GiB, so
each whose 1 GiB the range touches is waited for (R328). -/
def execXlateInv (tag : Fin 4096) (addr : Nat) (pages : Fin 1048576) (all : Bool) (s : State) : Out :=
  if !s.bxlUp then .next s
  else if addr % 4096 ≠ 0 then .next (malformed s addr)
  else
    let hi := addr + 4096 * (pages.val + 1)
    let gone := s.bxl.atc.filter fun e => e.overlaps addr hi all
    let inFlight := fun (r : Req) => r.mtype == mtXlate &&
      (all || (decide (r.addr / 2 ^ 30 * 2 ^ 30 < hi) && decide (addr < r.addr / 2 ^ 30 * 2 ^ 30 + 2 ^ 30)))
    let uses := fun (r : Req) => r.mtype != mtXlate && gone.any fun e => decide (e.pa ≤ r.addr) && decide (r.addr < e.pa + 2 ^ e.log)
    let waits := s.bxl.reqs.filterMap fun e => match e.2 with
      | some r => if inFlight r || uses r then some e.1 else none
      | none => none
    let s := { s with bxl := { s.bxl with
      atc := s.bxl.atc.filter fun e => !e.overlaps addr hi all
      reqs := s.bxl.reqs.map fun e => (e.1, e.2.map fun r => if inFlight r then { r with invs := (addr, hi, all) :: r.invs } else r)
      xinvs := s.bxl.xinvs ++ [⟨tag, addr, hi, all, waits⟩] } }
    .next (settleInvs s)

/-! Timeouts (R330) -/

/-- BXL.TIMEOUT.MS, in ns. -/
def State.bxlTimeout (s : State) : Nat := 1000000 * s.field .bxl 0 0x110 0 16

/-- BXL_RESPONSE_TIMEOUT: the request ends with a bus error and its tag is retired. -/
def execBxlResponseTimeout (tag : Fin 4096) (s : State) : Out :=
  match tabGet none s.bxl.reqs tag with
  | none => .next s
  | some r =>
    if s.gtime < r.sent + s.bxlTimeout then .next s
    else
      let s := failReq (bxlError s 0x04 sevFailed 0x14C r.addr) tag r
      .next { s with bxl := { s.bxl with retired := tabSet 0 s.bxl.retired tag (s.gtime + 2 * s.bxlTimeout) } }

/-- BXL_TAG_RETIREMENT_END. -/
def execBxlTagRetirementEnd (tag : Fin 4096) (s : State) : Out :=
  let t := tabGet 0 s.bxl.retired tag
  if t = 0 || s.gtime < t then .next s else .next { s with bxl := { s.bxl with retired := tabSet 0 s.bxl.retired tag 0 } }

end Sys2Proof.Machine
end

