-- ==== Sys2Proof/Machine/Counters.lean ====
section
/-!
DEFINITION. Reading counters (R377–R384): the context block, the selectors of page and context counters, and the ledger.
Rows of notes/assumptions: DEDUCED 150.
-/
namespace Sys2Proof.Machine

open Sys2Proof

/-- Whether COUNTER_READ of a kernel queue names a context that is not resident (R214, R379). -/
def counterReadTarget (s : State) (q : Nat) (c : Cmd) : Bool :=
  decide (q ≥ 1024) && !(s.ctxOf (fld c.raw 8 0 6)).resident

/-- COUNTER_READ (R379): the block as it stood in the start cycle. A kernel queue names a resident context. -/
def execCounterRead (q : QueueId) (s : State) : Out :=
  match actCmd s q 0x90 with
  | none => .next s
  | some c =>
    if counterReadTarget s q c then .next (failCmd s q c.n stTarget 0)
    else
      feThen s q (feWrite s q (fld c.raw 0x10 0 64) ((List.range 16).flatMap fun i => leBytes (c.snap.getD i 0) 8))
        (fun t _ => .next (doneCmd t q c.n)) (fun t => .next (badCmd t q c.n stFetchFault))

/-! Selectors (R382) -/

/-- The value a selector names: none for no page, a reserved slot, or a context that is not resident. -/
def selected (s : State) (sel : Nat) : Option Nat :=
  let k := bits sel 0 4
  if sel.testBit 4 then
    let c := bits sel 5 6
    if (s.ctxOf c).resident then some (tabGet 0 (s.ctxOf c).counters k) else none
  else
    match pageOf (0x1000 * bits sel 12 12) with
    | some (b, i) =>
      if hasHeader b && decide (k < 8) then some (readWord s b i (0x60 + 8 * k) + 2 ^ 32 * (readWord s b i (0x64 + 8 * k))) else none
    | none => none

/-- Every selector's value, where each names one. -/
def selectedAll (s : State) : List Nat → Option (List Nat)
  | [] => some []
  | x :: xs => match selected s x, selectedAll s xs with
    | some v, some vs => some (v :: vs)
    | _, _ => none

/-- What the selectors of a GCOUNTER_READ name (R382). -/
def gcounterValues (s : State) (c : Cmd) : Option (List Nat) :=
  selectedAll s ((List.range (fld c.raw 8 0 3)).map fun i => fld c.raw (0x18 + 4 * i) 0 32)

/-- GCOUNTER_READ. -/
def execGcounterRead (q : QueueId) (s : State) : Out :=
  match actCmd s q 0xE0 with
  | none => .next s
  | some c => match gcounterValues s c with
    | none => .next (failCmd s q c.n stTarget 0)
    | some vs =>
      feThen s q (feWrite s q (fld c.raw 0x10 0 64) (vs.flatMap fun v => leBytes v 8)) (fun t _ => .next (doneCmd t q c.n))
        (fun t => .next (badCmd t q c.n stFetchFault))

/-! The ledger (R383, R384) -/

/-- OBS.LEDGER_CFG's period in ns, COUNT and LOG2. -/
def State.ledgerPeriod (s : State) : Nat := 1000 * s.field .obs 0 0x100 0 20
def State.ledgerCount (s : State) : Nat := s.field .obs 0 0x100 20 6
def State.ledgerLog (s : State) : Nat := s.field .obs 0 0x100 26 5
def State.ledgerBase (s : State) : Nat := 2 ^ 12 * s.field .obs 0 0x104 12 20 + 2 ^ 32 * s.field .obs 0 0x108 0 12

/-- The bytes of a ledger record. -/
def State.ledgerSize (s : State) : Nat := 32 + 8 * s.ledgerCount

/-- A sampled value: a context counter as it stood before a COUNTER_RESET of the same cycle; a free value where the selector
names nothing. -/
def ledgerValue (s : State) (resets : List (Nat × Nat × Nat × Nat × List Nat)) (j : Nat) : Nat :=
  let sel := s.reg .obs 0 (0x120 + 4 * j)
  let before := resets.find? fun (_, k, _, _, _) => sel.testBit 4 && bits sel 5 6 == k
  match (if j < 32 then selected s sel else none), before with
  | some _, some (_, _, _, _, old) => old.getD (bits sel 0 4) 0
  | some v, none => v
  | none, _ => Config.lostSelector (s.draws + j) % 2 ^ 64

/-- The record of a sample taken at a GTIME: the reset of the lowest queue number is named. -/
def ledgerRecord (s : State) (t : Nat) : List Byte :=
  let resets := s.obs.resets.filter fun (_, _, _, at_, _) => at_ == s.gtime
  let first := resets.foldl (fun b e => match b with
    | none => some e
    | some d => if e.1 < d.1 then some e else some d) (none : Option (Nat × Nat × Nat × Nat × List Nat))
  let head := pack ([(0, 64, t), (64, 32, s.obs.ledgerNo), (96, 6, s.ledgerCount), (102, 1, bit s.obs.ledgerLost), (103, 1, bit first.isSome),
      (192, 8, min resets.length 255)] ++
    match first with
    | some (q, k, seq, _, _) => [(128, 11, q), (139, 6, k), (160, 32, seq)]
    | none => [])
  leBytes head 32 ++ (List.range s.ledgerCount).flatMap fun j => leBytes (ledgerValue s resets j) 8

/-- LEDGER_SAMPLE: in the REF_CLK cycle in which GTIME reaches a multiple of the period. -/
def execLedgerSample (s : State) : Out :=
  let p := s.ledgerPeriod
  let t := s.gtime / p * p
  if p = 0 || s.halted || decide (s.gtime ≥ t + 11) || s.obs.ledgerAt == t + 1 then .next s
  else
    let tail := s.reg .obs 0 0x10C
    let full := (2 ^ 32 + tail - s.reg .obs 0 0x110) % 2 ^ 32 == 2 ^ s.ledgerLog
    let next := { s.obs with ledgerAt := t + 1, ledgerNo := (s.obs.ledgerNo + 1) % 2 ^ 32, ledgerLost := full }
    if full then .next { s.bump .obs 0 0x114 1 with obs := next }
    else
      let u := ringWrite s 4 (s.ledgerBase + tail % 2 ^ s.ledgerLog * s.ledgerSize) (ledgerRecord s t)
      .next { u.setReg .obs 0 0x10C ((tail + 1) % 2 ^ 32) with obs := next, draws := u.draws + s.ledgerCount }

end Sys2Proof.Machine
end

