-- ==== Sys2Proof/Machine/Tls.lean ====
section
/-!
DEFINITION. The handshake of TLS 1.3 as the management port takes it (R369; RFC 8446): TLS_AES_256_GCM_SHA384, secp384r1, a client that is
asked for its certificate, and no resumption. The messages stand as handshake messages, before the record layer.
Rows of notes/assumptions: PRESUMED 207.
-/
namespace Sys2Proof

/-! Messages -/

/-- Bytes behind their length in `n` bytes, and a handshake message. -/
def tlsVec (n : Nat) (b : List Nat) : List Nat := bigBytes b.length n ++ b
def tlsMsg (type : Nat) (b : List Nat) : List Nat := type :: tlsVec 3 b

/-- Reads bytes behind a length of `n` bytes, and what follows them. -/
def takeVec (n : Nat) (b : List Nat) : Option (List Nat × List Nat) :=
  let len := bigVal (b.take n)
  if b.length < n + len then none else some ((b.drop n).take len, b.drop (n + len))

/-- The numbers of two bytes of a list. -/
def codes (b : List Nat) : List Nat := (List.range (b.length / 2)).map fun i => bigVal ((b.drop (2 * i)).take 2)

/-- Extensions by type; or the shares of a client, by group. -/
def tlsPairs : Nat → List Nat → Option (List (Nat × List Nat))
  | 0, b => if b.isEmpty then some [] else none
  | k + 1, b =>
    if b.isEmpty then some []
    else match takeVec 2 (b.drop 2) with
      | none => none
      | some (d, r) => (tlsPairs k r).map ((bigVal (b.take 2), d) :: ·)

/-- What a ClientHello says: its session, its cipher suites, its compression methods and its extensions. -/
structure Hello where
  session : List Nat
  suites : List Nat
  compression : List Nat
  exts : List (Nat × List Nat)
deriving DecidableEq, Repr

/-- A ClientHello; none for bytes that are none. -/
def helloOf (m : List Nat) : Option Hello :=
  if m.headD 0 ≠ 1 || m.length < 38 then none
  else match takeVec 3 (m.drop 1) with
    | some (b, []) => (takeVec 1 (b.drop 34)).bind fun sid => (takeVec 2 sid.2).bind fun suites => (takeVec 1 suites.2).bind fun comp =>
        (takeVec 2 comp.2).bind fun exts =>
          if exts.2.isEmpty then (tlsPairs exts.1.length exts.1).map fun es => ⟨sid.1, codes suites.1, comp.1, es⟩ else none
    | _ => none

/-- The content of an extension; of one that is a list, what stands behind its length. -/
def Hello.ext (h : Hello) (t : Nat) : Option (List Nat) := (h.exts.find? fun e => e.1 == t).map (·.2)
def Hello.extList (h : Hello) (t n : Nat) : List Nat := (((h.ext t).bind (takeVec n)).map (·.1)).getD []

/-- Whether a ClientHello offers what the port takes (R369): TLS 1.3, TLS_AES_256_GCM_SHA384, secp384r1, and the port's own signature
scheme, rsa_pss_rsae_sha384. -/
def Hello.fits (h : Hello) : Bool :=
  (codes (h.extList 43 1)).contains 0x0304 && h.suites.contains 0x1302 && h.compression == [0] && (codes (h.extList 10 2)).contains 0x0018 &&
    (codes (h.extList 13 2)).contains 0x0805

/-- The client's share on secp384r1, where it sends one. -/
def Hello.share (h : Hello) : Option (List Nat) :=
  ((tlsPairs (h.extList 51 2).length (h.extList 51 2)).getD []).findSome? fun e => if e.1 = 0x0018 then some e.2 else none

/-- A ServerHello with a random value, echoing the session, and its key_share extension's content. -/
def serverHello (session random share : List Nat) : List Nat :=
  tlsMsg 2 ([3, 3] ++ random ++ tlsVec 1 session ++ [0x13, 2, 0] ++ tlsVec 2 ([0, 43] ++ tlsVec 2 [3, 4] ++ [0, 51] ++ tlsVec 2 share))

/-- The HelloRetryRequest for secp384r1 that answers a ClientHello without a share of it. -/
def helloRetry (session : List Nat) : List Nat := serverHello session (sha256 (asciiBytes "HelloRetryRequest")) [0, 0x18]

/-- EncryptedExtensions with none, a CertificateRequest with the two schemes of R369, a Certificate, a CertificateVerify, a Finished. -/
def encryptedExtensions : List Nat := tlsMsg 8 [0, 0]
def certificateRequest : List Nat := tlsMsg 13 (0 :: tlsVec 2 ([0, 13] ++ tlsVec 2 (tlsVec 2 [8, 5, 5, 3])))
def certificateMsg (chain : List (List Nat)) : List Nat := tlsMsg 11 (0 :: tlsVec 3 (chain.flatMap fun c => tlsVec 3 c ++ [0, 0]))
def certificateVerify (scheme : Nat) (sig : List Nat) : List Nat := tlsMsg 15 (bigBytes scheme 2 ++ tlsVec 2 sig)
def finishedMsg (data : List Nat) : List Nat := tlsMsg 20 data

/-- What a CertificateVerify signs, of a transcript. -/
def tlsSigned (who : String) (transcript : List Nat) : List Nat :=
  List.replicate 64 0x20 ++ asciiBytes ("TLS 1.3, " ++ who ++ " CertificateVerify") ++ 0 :: sha384 transcript

/-! Secrets -/

/-- HKDF-Expand-Label, up to 48 B. -/
def expandLabel (secret : List Nat) (label : String) (context : List Nat) (n : Nat) : List Nat :=
  (hmac384 secret (bigBytes n 2 ++ tlsVec 1 (asciiBytes ("tls13 " ++ label)) ++ tlsVec 1 context ++ [1])).take n

/-- Derive-Secret of a transcript. -/
def deriveSecret (secret : List Nat) (label : String) (transcript : List Nat) : List Nat := expandLabel secret label (sha384 transcript) 48

/-- The handshake secret of a shared secret, without a pre-shared key. -/
def handshakeSecret (shared : List Nat) : List Nat :=
  let zero := List.replicate 48 0
  hmac384 (deriveSecret (hmac384 zero zero) "derived" []) shared

/-- The content of a Finished message, of a traffic secret and a transcript. -/
def verifyData (secret transcript : List Nat) : List Nat := hmac384 (expandLabel secret "finished" [] 48) (sha384 transcript)

/-! The port's flight -/

/-- The handshake as the port has it after its own messages: what it has sent, the transcript, and the client's traffic secret. -/
structure TlsFlight where
  sent : List Nat
  transcript : List Nat
  secret : List Nat
deriving DecidableEq, Repr

/-- The transcript before the ServerHello and the ClientHello that it answers; the first hello of two is answered by a
HelloRetryRequest. None where the port ends the handshake there. -/
def tlsOpening (hellos : List (List Nat)) : Option (List Nat × List Nat × Hello) :=
  match hellos with
  | [m] => (helloOf m).bind fun h => if h.fits && h.share.isSome then some ([], m, h) else none
  | [a, m] => (helloOf a).bind fun f => (helloOf m).bind fun h =>
      if f.fits && f.share.isNone && h.fits && h.share.isSome then
        some (helloRetry f.session, tlsMsg 254 (sha384 a) ++ helloRetry f.session ++ m, h) else none
  | _ => none

/-- The port's flight for a client's hellos: its share of secret `eph`, its random value, its chain, and its signature under its device key
with a salt. None for hellos that it refuses. -/
def tlsFlight (hellos : List (List Nat)) (eph : Nat) (random salt : List Nat) (chain : List (List Nat)) (n d : Nat) : Option TlsFlight :=
  (tlsOpening hellos).bind fun o => (ecSecret eph (o.2.2.share.getD [])).map fun shared =>
    let opening := o.2.1 ++ serverHello o.2.2.session random ([0, 0x18] ++ tlsVec 2 (ecShare eph))
    let secret := handshakeSecret shared
    let upTo := opening ++ encryptedExtensions ++ certificateRequest ++ certificateMsg chain
    let signed := upTo ++ certificateVerify 0x0805 (rsaSign n d (tlsSigned "server" upTo) salt)
    let all := signed ++ finishedMsg (verifyData (deriveSecret secret "s hs traffic" opening) signed)
    ⟨o.1 ++ all.drop o.2.1.length, all, deriveSecret secret "c hs traffic" opening⟩

/-- Whether a client's signature under its certificate's key and its Finished message verify, after the port's flight: under
rsa_pss_rsae_sha384 or ecdsa_secp384r1_sha384. -/
def tlsClientGood (f : TlsFlight) (chain : List (List Nat)) (key : PubKey) (scheme : Nat) (sig finished : List Nat) : Bool :=
  let upTo := f.transcript ++ certificateMsg chain
  let m := tlsSigned "client" upTo
  (match key with
    | .rsa k => scheme == 0x0805 && rsaVerify k m sig
    | .ec x y => scheme == 0x0503 && ecdsaVerify x y m sig
    | _ => false) && finished == verifyData f.secret (upTo ++ certificateVerify scheme sig)

end Sys2Proof
end

