-- ==== Sys2Proof/Machine/Mgmt.lean ====
section
/-!
DEFINITION. The management network (R369–R373), attestation, the I²C sideband (R374) and the test port.
Rows of notes/assumptions: DEDUCED 133, 141, 142, 143, 191, 206; PRESUMED 140, 207.
-/
namespace Sys2Proof.Machine

open Sys2Proof

/-! Sessions (R369, R370) -/

/-- Session classes of the anchors. -/
def clsRead : Nat := 1
def clsControl : Nat := 2

/-- The class of anchor `k`: 0 where none is in force. -/
def State.anchorClass (s : State) (k : Nat) : Nat := tabGet 0 s.mgmt.anchors k % 4

/-- Whether the management network takes sessions: firmware runs and the DCB is committed (R364, R369). -/
def State.mgmtOpen (s : State) : Bool := s.firmware && s.committed && !s.pwr.trip

def State.setSessions (s : State) (xs : List Session) : State := { s with mgmt := { s.mgmt with sessions := xs } }

/-- Whether the current GTIME lies in a validity (R370). -/
def validNow (s : State) (from_ to_ : Nat) : Bool :=
  let now := 10 ^ 9 * Config.gtimeZero + s.gtime
  decide (10 ^ 9 * from_ ≤ now) && decide (now ≤ 10 ^ 9 * to_)

/-- The anchor in force that a certificate's fingerprint equals. -/
def anchorOf (s : State) (der : List Byte) : Option Nat :=
  (List.range 4).find? fun k => s.anchorClass k != 0 && tabGet 0 s.mgmt.anchors k / 4 == sha384Of der

/-- A client's chain as far as the first certificate that is an anchor, that one first, with the anchor: none for a chain that reaches
none. -/
def upToAnchor (s : State) : List (List Byte) → List (List Byte) → Option (Nat × List (List Byte))
  | _, [] => none
  | below, c :: cs =>
    match anchorOf s c with
    | some k => some (k, c :: below)
    | none => upToAnchor s (c :: below) cs

/-- The anchor up to which a client's chain verifies under RFC 5280 at the current GTIME, and the client's own certificate (R370). The
anchor's certificate gives a name and a key, and must be valid at that time too. -/
def chainAnchor (s : State) (chain : List (List Byte)) : Option (Nat × X509) :=
  (upToAnchor s [] chain).bind fun p => (p.2.mapM fun b => x509 (nats b)).bind fun cs =>
    match cs with
    | [] => none
    | a :: below =>
      let leaf := if below.isEmpty then some a else (CertPath.start [a.key] a.subject below.length).leaf (validNow s) below
      (leaf.filter fun c => validNow s a.notBefore a.notAfter && c.usage 0 && c.forClient).map fun c => (p.1, c)

/-- The certificates of the LM1's own chain (R355). -/
def ownChain (s : State) : List (List Nat) := derChain 64 (nats (tabSlice 0 s.flash (s.colophonBase + 0x5320) 24544))

/-- The port's flight to a client: its ephemeral key, its random value and its salt are free. -/
def portFlight (s : State) (client : TlsClient) : State × Option TlsFlight :=
  let (s, e) := freeBytes s 56
  let (s, random) := freeBytes s 32
  let (s, salt) := freeBytes s 48
  (s, tlsFlight (client.hellos.map nats) (1 + bigVal e % (P384.order - 1)) random salt (ownChain s) s.mgmt.devRsa.n s.mgmt.devRsa.d)

/-- The anchor that a client's handshake rests on: its chain verifies up to one, and its signature and its Finished message verify
(R369, R370). -/
def tlsAnchor (s : State) (client : TlsClient) (chain : List (List Byte)) (f : TlsFlight) : Option Nat :=
  ((chainAnchor s chain).filter fun e =>
    tlsClientGood f (chain.map nats) e.2.key client.scheme (nats client.signature) (nats client.finished)).map (·.1)

/-- MGMT_SESSION_OPEN: a handshake on port 4480 ends, the client's certificates in DER and its own first, in a session of the class of the anchor that the client's chain reaches, or it
fails and is counted. A fifth connection is closed before it begins. -/
def execMgmtSessionOpen (client : TlsClient) (chain : List (List Byte)) (s : State) : Out :=
  if !s.mgmtOpen || decide (s.mgmt.sessions.length ≥ 4) then .next s
  else match portFlight s client with
    | (t, none) => .next (t.bump .sec 0 0x10C 1)
    | (t, some f) =>
      let t := t.send { kind := .tls, dest := s.mgmt.nextSession, data := ofNats f.sent }
      match tlsAnchor s client chain f with
      | none => .next (t.bump .sec 0 0x10C 1)
      | some k =>
        let x : Session := ⟨s.mgmt.nextSession, s.anchorClass k, k, s.gtime⟩
        .next { t with mgmt := { t.mgmt with sessions := t.mgmt.sessions ++ [x], nextSession := t.mgmt.nextSession + 1 } }

/-- SESSION_IDLE_TIMEOUT: 300 s without a message close a session. -/
def execSessionIdleTimeout (sid : Nat) (s : State) : Out :=
  .next (s.setSessions (s.mgmt.sessions.filter fun x => x.id != sid || decide (s.gtime < x.last + 300 * 10 ^ 9)))

/-! Messages (R371) -/

/-- Response statuses. -/
def msOk : Nat := 0
def msDenied : Nat := 1
def msBadRequest : Nat := 2
def msBusy : Nat := 3
def msUnavailable : Nat := 4

/-- A response: TYPE, REQUEST_ID, STATUS and body. -/
def mgmtReply (s : State) (sid type rid status : Nat) (body : List Byte) : State :=
  s.send { kind := .mgmtReply, dest := sid, args := [type, rid, status], data := body }

/-- A message to be processed: its session, header and request, its row's TYPE, class and body length where the manual gives one, and
whether what it reads is not to be had now. -/
structure MgmtRow extends MgmtWait where
  type : Nat
  cls : Nat
  body : Option Nat
  busy : Bool := false

/-- Whether a header is not one of a request (R371): an unknown TYPE, FLAGS, STATUS or reserved bytes not zero, a LENGTH above 64 KiB or other
than the body's (log entry 206). -/
def badHead (r : MgmtRow) : Bool :=
  r.head.type.val != r.type || r.head.flags.val != 0 || r.head.status.val != 0 || r.head.reserved.val != 0 || decide (r.head.length > 65536) ||
    r.body.any fun n => r.head.length != n

/-- Whether a message must wait: the messages of all sessions are processed in their order of arrival, so for an attestation report that
is due and for any message that waits already (R371); and while what it reads is not to be had. -/
def mustWait (s : State) (r : MgmtRow) : Bool := r.busy || !s.mgmt.attest.isEmpty || !s.mgmt.held.isEmpty

/-- Processes a message of a session: one that must wait is held; a header that is none is a BAD_REQUEST; a class too low is DENIED. `f`
gives a response, or none that is due now. A header with another known TYPE is not this row's. -/
def mgmtMsg (s : State) (r : MgmtRow) (f : State → State × Option (Nat × List Byte)) : Out :=
  match s.mgmt.sessions.find? fun x => x.id == r.sid with
  | none => .next s
  | some x =>
    if !s.mgmtOpen || (r.head.type.val != r.type && decide (1 ≤ r.head.type.val) && decide (r.head.type.val ≤ 12)) then .next s
    else
      let s := s.setSessions (s.mgmt.sessions.map fun y => if y.id == r.sid then { y with last := s.gtime } else y)
      let answer := fun (s : State) => mgmtReply s r.sid r.head.type.val r.head.rid.toNat
      if mustWait s r then .next { s with mgmt := { s.mgmt with held := s.mgmt.held ++ [r.toMgmtWait] } }
      else if badHead r then .next (answer s msBadRequest [])
      else if x.cls < r.cls then .next (answer s msDenied [])
      else match f s with
        | (t, some (status, body)) => .next (answer t status body)
        | (t, none) => .next t

/-- IDENTITY: the public part of the colophon. -/
def execIdentity (sid : Nat) (h : MsgHead) (s : State) : Out :=
  mgmtMsg s ⟨⟨sid, h, .identity⟩, 0x0001, clsRead, some 0, false⟩ fun s =>
    let part := fun o n => tabSlice 0 s.flash (s.colophonBase + o) n
    (s, some (msOk, part 0 0xD0 ++ part 0x100 480 ++ part 0x5300 32 ++ part 0x5320 24544))

/-- Whether a list of offsets is what REG_READ and REG_WRITE take. -/
def offsetsOk (os : List Nat) : Bool := decide (os.length ≤ 64) && os.all fun o => o % 4 == 0 && decide (o < 2 ^ 24)

/-- REG_READ of the management network. -/
def execMgmtRegRead (sid : Nat) (h : MsgHead) (os : List Nat) (s : State) : Out :=
  mgmtMsg s ⟨⟨sid, h, .regRead os⟩, 0x0003, clsRead, some (4 * os.length), false⟩ fun s =>
    if !offsetsOk os then (s, some (msBadRequest, []))
    else
      let r := os.foldl (fun (r : State × List Byte) o => let (t, v) := readReg .mgmt r.1 o; (t, r.2 ++ leBytes v 4)) (s, [])
      (r.1, some (msOk, r.2))

/-- REG_WRITE of the management network: one offset in another page, and nothing is written. -/
def execMgmtRegWrite (sid : Nat) (h : MsgHead) (ws : List (Nat × Nat)) (s : State) : Out :=
  mgmtMsg s ⟨⟨sid, h, .regWrite ws⟩, 0x0004, clsControl, some (8 * ws.length), false⟩ fun s =>
    if !offsetsOk (ws.map (·.1)) then (s, some (msBadRequest, []))
    else if ws.all fun w => mgmtWritable w.1 then (ws.foldl (fun s w => writeReg .mgmt s w.1 w.2) s, some (msOk, []))
    else (s, some (msDenied, []))

/-- COUNTER_READ of the management network (R382). -/
def execMgmtCounterRead (sid : Nat) (h : MsgHead) (sels : List Nat) (s : State) : Out :=
  mgmtMsg s ⟨⟨sid, h, .counterRead sels⟩, 0x0005, clsRead, some (4 * sels.length), false⟩ fun s =>
    if decide (sels.length > 64) || sels.any (fun x => x.testBit 11 || decide (x ≥ 2 ^ 24)) then (s, some (msBadRequest, []))
    else match selectedAll s sels with
      | none => (s, some (msBadRequest, []))
      | some vs => (s, some (msOk, vs.flatMap fun v => leBytes v 8))

/-- An entry of the pending power table by message: BUSY where the table is full. -/
def mgmtPower (s : State) (e : PwrEntry) : State × Option (Nat × List Byte) :=
  match enterPwr s e with
  | some t => (t, some (msOk, []))
  | none => (s, some (msBusy, []))

/-- SETPOINT: the fields of PWR_SETPOINT (R338). -/
def execSetpoint (sid : Nat) (h : MsgHead) (word : W32) (start : Nat) (s : State) : Out :=
  mgmtMsg s ⟨⟨sid, h, .setpoint word start⟩, 0x0006, clsControl, none, false⟩ fun s =>
    let w := word.toNat
    if bits w 0 12 < 720 || bits w 0 12 > s.tdp || bits w 16 11 > 2000 || bits w 12 4 ≠ 0 || bits w 27 5 ≠ 0 then (s, some (msBadRequest, []))
    else mgmtPower s (setpointEntry w start)

/-- MODE: the fields of PWR_MODE (R338). -/
def execMgmtMode (sid : Nat) (h : MsgHead) (word : W32) (start : Nat) (s : State) : Out :=
  mgmtMsg s ⟨⟨sid, h, .mode word start⟩, 0x0007, clsControl, none, false⟩ fun s =>
    if word.toNat ≥ 2 then (s, some (msBadRequest, [])) else mgmtPower s (modeEntry word.toNat start)

/-- DCB_WRITE: never accepted. -/
def execDcbWrite (sid : Nat) (h : MsgHead) (s : State) : Out :=
  mgmtMsg s ⟨⟨sid, h, .dcbWrite⟩, 0x0008, clsControl, none, false⟩ fun s => (s, some (msUnavailable, leBytes (s.reg .mbx 0 0xF04) 4))

/-- The base of the deposit region, where OBS.DEPOSIT is valid. -/
def State.depositBase (s : State) : Option Nat :=
  if (s.reg .obs 0 0x1C0).testBit 0 then some (2 ^ 21 * s.field .obs 0 0x1C0 21 11 + 2 ^ 32 * s.field .obs 0 0x1C4 0 12) else none

/-- DEPOSIT_READ (R391): up to 65,536 B of the 64 MiB region; one that reaches a row in copy waits for its end (R174). -/
def execDepositRead (sid : Nat) (h : MsgHead) (off len : Nat) (s : State) : Out :=
  let out := decide (len > 65536) || decide (off + len > 64 * 2 ^ 20)
  let busy := !out && s.depositBase.any fun base => rowsBusy s (base + off) len
  mgmtMsg s ⟨⟨sid, h, .depositRead off len⟩, 0x0009, clsRead, none, busy⟩ fun s =>
    if out then (s, some (msBadRequest, []))
    else match s.depositBase with
      | none => (s, some (msUnavailable, []))
      | some base =>
        let (t, r) := readFrom s 4 64 (base + off) len
        (t, some (if r.bus then (msUnavailable, []) else (msOk, r.bytes)))

/-- LOG_READ (R394): the working record below 8,192, the flash from 0x20_0000 above. -/
def execLogRead (sid : Nat) (h : MsgHead) (off len : Nat) (s : State) : Out :=
  mgmtMsg s ⟨⟨sid, h, .logRead off len⟩, 0x000A, clsRead, none, false⟩ fun s =>
    if len > 65536 || off + len > 8192 + 0x3E00000 then (s, some (msBadRequest, []))
    else
      let low := ((lifeBytes s.life s.life.seq false).drop off).take len
      (s, some (msOk, low ++ tabSlice 0 s.flash (0x200000 + (max off 8192 - 8192)) (len - low.length)))

/-- TRUST_SET (R370): an anchor's class and fingerprint; sessions that rest on one that is removed close with the message. -/
def execTrustSet (sid : Nat) (h : MsgHead) (k : Nat) (cls : Nat) (fingerprint : Nat) (s : State) : Out :=
  mgmtMsg s ⟨⟨sid, h, .trustSet k cls fingerprint⟩, 0x000B, clsControl, none, false⟩ fun s =>
    let v := if cls = 0 then 0 else cls + 4 * (fingerprint % 2 ^ 384)
    if k < 4 ∧ cls ≤ 2 then
      let removed := tabGet 0 s.mgmt.anchors k != v
      let s := { s with mgmt := { s.mgmt with anchors := tabSet 0 s.mgmt.anchors k v } }
      (if removed then s.setSessions (s.mgmt.sessions.filter fun x => x.anchor != k) else s, some (msOk, []))
    else (s, some (msBadRequest, []))

/-- DEBUG_UNLOCK (R373): the context key slots are cleared, the front end halts and its running commands end ABORTED. -/
def execDebugUnlock (sid : Nat) (h : MsgHead) (s : State) : Out :=
  mgmtMsg s ⟨⟨sid, h, .debugUnlock⟩, 0x000C, clsControl, some 0, false⟩ fun s =>
    let s := (List.range 64).foldl dropKey s
    let s := s.queues.foldl (fun s e => e.2.cmds.foldl (fun s c =>
      if c.started && !c.ended && !c.aborted then abortCmd s e.1 c stAborted else s) s) s
    ({ s.setField .sec 0 0x100 12 1 1 with mgmt := { s.mgmt with debugHalt := true } }, some (msOk, []))

/-! Attestation (R372) -/

/-- ATTEST: a report is asked for; its answer comes when it is made. -/
def execAttest (sid : Nat) (h : MsgHead) (nonce : List Byte) (s : State) : Out :=
  mgmtMsg s ⟨⟨sid, h, .attest nonce⟩, 0x0002, clsRead, some nonce.length, false⟩ fun s =>
    if nonce.length ≠ 32 then (s, some (msBadRequest, []))
    else ({ s with mgmt := { s.mgmt with attest := s.mgmt.attest ++ [(sid, h.rid.toNat, leNat nonce)] } }, none)

/-- A message that has waited is processed. -/
def mgmtRun (m : MgmtWait) (s : State) : Out :=
  match m.req with
  | .identity => execIdentity m.sid m.head s
  | .attest nonce => execAttest m.sid m.head nonce s
  | .regRead os => execMgmtRegRead m.sid m.head os s
  | .regWrite ws => execMgmtRegWrite m.sid m.head ws s
  | .counterRead sels => execMgmtCounterRead m.sid m.head sels s
  | .setpoint word start => execSetpoint m.sid m.head word start s
  | .mode word start => execMgmtMode m.sid m.head word start s
  | .dcbWrite => execDcbWrite m.sid m.head s
  | .depositRead off len => execDepositRead m.sid m.head off len s
  | .logRead off len => execLogRead m.sid m.head off len s
  | .trustSet k cls fingerprint => execTrustSet m.sid m.head k cls fingerprint s
  | .debugUnlock => execDebugUnlock m.sid m.head s

/-- The messages that wait are processed in order, as far as they can be (R371); a session's idle time runs from its last message's arrival
(R369). -/
def serveMessages (s : State) : State :=
  let seen := s.mgmt.sessions
  let t := s.mgmt.held.foldl (fun s m =>
    match mgmtRun m s with
    | .next t => t
    | _ => s) { s with mgmt := { s.mgmt with held := [] } }
  if s.mgmt.held.isEmpty then s
  else t.setSessions (t.mgmt.sessions.map fun y => { y with last := ((seen.find? fun x => x.id == y.id).map (·.last)).getD y.last })

/-- The four anchors in the DCB's layout (R363). -/
def anchorBytes (s : State) : List Byte :=
  (List.range 4).flatMap fun k =>
    let a := tabGet 0 s.mgmt.anchors k
    leBytes (a % 4) 4 ++ leBytes (a / 4) 48

/-- The 320 B body of a report. -/
def reportBody (s : State) (nonce : Nat) : List Byte :=
  let status := s.reg .sec 0 0x100
  leBytes (pack [(0, 32, 0x4C4D4152), (32, 32, 1)]) 8 ++ tabSlice 0 s.flash (s.colophonBase + 0x10) 16 ++ leBytes nonce 32 ++ leBytes s.gtime 8 ++
  leBytes (sha384Of (tabSlice 0 s.flash s.colophonBase 0xD330)) 48 ++ leBytes s.mgmt.measure 48 ++ leBytes (s.reg .sec 0 0x104) 4 ++
  leBytes (pack [(0, 2, bits status 10 2), (2, 1, bits status 9 1), (3, 1, bits status 12 1)]) 4 ++
  leBytes (mpeWord s 0 0x10C + 2 ^ 32 * mpeWord s 0 0x110) 8 ++ leBytes s.mgmt.dcbHash 48 ++ leBytes (sha384Of (anchorBytes s)) 48 ++
  ((List.range 20).flatMap fun n => leBytes (s.field .pwr 0 (0x180 + 4 * n) 8 8) 1) ++ leBytes 0 28

/-- A report: its body, and both signatures under the device keys, with free randomness (R372). -/
def signedReport (s : State) (body : List Byte) (random : List Nat) : List Byte :=
  let m := nats body
  body ++ ofNats (rsaSign s.mgmt.devRsa.n s.mgmt.devRsa.d m (random.take 48)) ++ ofNats (Slh.sign s.mgmt.devSlh m (random.drop 48))

/-- ATTEST_REPORT_DONE: the oldest request's report is signed and returned, and what waited for it is processed. -/
def execAttestReportDone (s : State) : Out :=
  match s.mgmt.attest with
  | [] => .next s
  | (sid, rid, nonce) :: rest =>
    if !s.mgmtOpen then .next s
    else
      let (s, random) := freeBytes s 64
      let report := signedReport s (reportBody s nonce) random
      let s := { s.setReg .sec 0 0x114 ((s.reg .sec 0 0x114 + 1) % 2 ^ 32) with mgmt := { s.mgmt with attest := rest } }
      .next (serveMessages (if s.mgmt.sessions.any fun x => x.id == sid then mgmtReply s sid 0x0002 rid msOk report else s))

/-! The sideband (R374) -/

/-- The 32 bytes of the sideband. -/
def sideband (s : State) : List Nat :=
  let byte := fun (v i : Nat) => v / 2 ^ (8 * i) % 256
  let watts := s.pwr.lastUj / 2
  [pack [(0, 1, bit s.pins.ready), (1, 1, s.field .sec 0 0x100 8 1), (2, 1, bit s.pins.fault), (3, 1, bit s.pins.trip), (4, 1, bit s.pwr.braked)],
   s.pwr.hotJunction % 256, s.field .pwr 0 0x11C 0 7, 0, byte watts 0, byte watts 1, byte (s.pwr.eff / 10 ^ 6) 0, byte (s.pwr.eff / 10 ^ 6) 1] ++
  ((List.range 16).map fun i => byte (s.reg .dev 0 (0x110 + 4 * (i / 4))) (i % 4)) ++
  [s.reg .dev 0 0x104 % 256] ++ ((List.range 3).map fun i => byte (s.reg .dev 0 0x108) i) ++
  ((List.range 4).map fun i => byte (s.reg .sec 0 0x104) i)

/-- SMBUS_REFRESH: every 100 ms. -/
def execSmbusRefresh (s : State) : Out :=
  if s.pins.inReset || decide (s.gtime < 100000000 + s.mgmt.smbAt) then .next s
  else .next { s with mgmt := { s.mgmt with smb := sideband s, smbAt := s.gtime } }

/-- The multi-byte fields by first offset and length. -/
def smbFields : List (Nat × Nat) := [(4, 2), (6, 2), (8, 16), (0x19, 3), (0x1C, 4)]

/-- One byte read at an offset: the lowest byte of a multi-byte field captures the field whole; the others come from the
capture. -/
def smbByte (s : State) (o : Nat) : State × Nat :=
  let now := s.mgmt.smb.getD o 0
  match smbFields.find? fun f => decide (f.1 ≤ o) && decide (o < f.1 + f.2) with
  | none => (s, now)
  | some (a, n) =>
    let held := if s.mgmt.smbHeld.isEmpty then (List.range 32).map fun _ => 0 else s.mgmt.smbHeld
    if o = a then
      let held := (List.range 32).map fun i => if a ≤ i && i < a + n then s.mgmt.smb.getD i 0 else held.getD i 0
      ({ s with mgmt := { s.mgmt with smbHeld := held } }, now)
    else (s, held.getD o 0)

/-- A run of bytes from an offset, which goes on from 0x1F to 0x00. -/
def smbBytes : Nat → State → Nat → State × List Nat
  | 0, s, _ => (s, [])
  | n + 1, s, o =>
    let (s, b) := smbByte s (o % 32)
    let (s, bs) := smbBytes n s (o + 1)
    (s, b :: bs)

/-- A step of the SMBus CRC-8, polynomial x^8 + x^2 + x + 1. -/
def crc8Bit (c : Nat) : Nat := if c ≥ 128 then (2 * c ^^^ 0x107) % 256 else 2 * c
def crc8 : List Nat → Nat → Nat
  | [], c => c
  | b :: bs, c => crc8 bs (crc8Bit (crc8Bit (crc8Bit (crc8Bit (crc8Bit (crc8Bit (crc8Bit (crc8Bit (c ^^^ b)))))))))

/-- SMBUS_READ: a byte read or, with `block`, a block read, with its PEC when the master asks for one. -/
def execSmbusRead (o : Fin 32) (n : Fin 33) (block pec : Bool) (s : State) : Out :=
  if s.pins.inReset then .next s
  else
    let (s, bs) := smbBytes (if block then n.val else 1) s o
    let bs := if block then n.val :: bs else bs
    let check := if pec then [crc8 ([0x98, o.val, 0x99] ++ bs) 0] else []
    .next (s.send { kind := .smbusReply, dest := 0x4C, args := [0], data := (bs ++ check).map (BitVec.ofNat 8) })

/-- SMBUS_WRITE: the address is acknowledged and every byte after it is not. -/
def execSmbusWrite (bytes : List Byte) (s : State) : Out :=
  if s.pins.inReset then .next s else .next (s.send { kind := .smbusReply, dest := 0x4C, args := 0 :: bytes.map fun _ => 1 })

/-! The test port (R373) -/

/-- TEST_PORT_ACCESS: boundary scan answers at all times, debug instructions only after DEBUG_UNLOCK; TDO is driven in Shift states
only (R400). -/
def execTestPortAccess (a : TapAccess) (s : State) : Out :=
  let s := { s with pins := { s.pins with shift := a.shift } }
  if a.debug && !(s.reg .sec 0 0x100).testBit 12 then .next s else .next (s.send { kind := .testPort, args := [bit a.debug] })

end Sys2Proof.Machine
end

