-- ==== Sys2Proof/Machine/RegRows.lean ====
section
/-!
DEFINITION. The commands that read and write registers: REG_WRITE and REG_READ of a kernel queue (R213), and the rows of single
registers, each a write of its word by the path named (R412).
-/
namespace Sys2Proof.Machine

open Sys2Proof

/-! Kernel-queue commands (R213) -/

/-- REG_WRITE: up to six words in ascending order. -/
def execRegWrite (q : QueueId) (s : State) : Out :=
  match actCmd s q 0xCB with
  | none => .next s
  | some c =>
    let t := (List.range (fld c.raw 8 0 3)).foldl (fun s i => writeReg .kq s (fld c.raw (0x10 + 8 * i) 0 24) (fld c.raw (0x14 + 8 * i) 0 32)) s
    .next (doneCmd t q c.n)

/-- Reads words in order. -/
def readRegs (p : Path) : State → List Nat → State × List Nat
  | s, [] => (s, [])
  | s, o :: os =>
    let (s, v) := readReg p s o
    let (s, vs) := readRegs p s os
    (s, v :: vs)

/-- REG_READ: up to five words in ascending order, written to DEST. -/
def execRegRead (q : QueueId) (s : State) : Out :=
  match actCmd s q 0xCC with
  | none => .next s
  | some c =>
    let (t, vs) := readRegs .kq s ((List.range (fld c.raw 8 0 3)).map fun i => fld c.raw (0x18 + 8 * i) 0 24)
    feThen s q (feWrite t q (fld c.raw 0x10 0 64) (vs.flatMap fun v => leBytes v 4)) (fun t _ => .next (doneCmd t q c.n))
      (fun t => .next (badCmd t q c.n stFetchFault))

/-- REGISTER_WRITE (R412): any word of the aperture. -/
def execRegisterWrite (p : Path) (w : Fin 4194304) (v : W32) (s : State) : Out := .next (writeReg p s (4 * w) v.toNat)

/-- REGISTER_LO_READ (R413): the capture that a read of a word makes. -/
def execRegisterLoRead (p : Path) (w : Fin 4194304) (s : State) : Out := .next (readReg p s (4 * w)).1

/-! Doorbells (R210, R219) and kernel queues (R231) -/

/-- DOORBELL_WRITE. -/
def execDoorbellWrite (p : Path) (q : QueueId) (v : W32) (s : State) : Out := .next (writeReg p s (pageBase .doorbell q) v.toNat)

/-- CQ_HEAD_WRITE. -/
def execCqHeadWrite (p : Path) (q : QueueId) (v : W32) (s : State) : Out := .next (writeReg p s (pageBase .doorbell q + 0x14) v.toNat)

/-- KQ_CFG_WRITE. -/
def execKqCfgWrite (p : Path) (k : Fin 16) (v : W32) (s : State) : Out :=
  .next (writeReg p s (pageBase .fe 2 + 0x108 + 0x20 * k) v.toNat)

/-! Array groups -/

/-- ARR_RAMP_CFG_WRITE (R70). -/
def execArrRampCfgWrite (p : Path) (n : ArrayId) (v : W32) (s : State) : Out := .next (writeReg p s (pageBase .arr n + 0x100) v.toNat)

/-- QNT_CLEAR_TFLAG (R114). -/
def execQntClearTflag (p : Path) (n : ArrayId) (s : State) : Out := .next (writeReg p s (pageBase .qnt n + 0x108) 1)

/-- QNT_CLEAR_MISS (R114). -/
def execQntClearMiss (p : Path) (n : ArrayId) (s : State) : Out := .next (writeReg p s (pageBase .qnt n + 0x108) 2)

/-- ALS_SCRUB_START (R139). -/
def execAlsScrubStart (p : Path) (n : ArrayId) (s : State) : Out := .next (writeReg p s (pageBase .als n + 0x100) 1)

/-- SEQ_TRACE_HEAD_WRITE (R242). -/
def execSeqTraceHeadWrite (p : Path) (n : SeqId) (v : W32) (s : State) : Out :=
  let (b, i, a) := seqPage n
  .next (writeReg p s (pageBase b i + a + 0x20) v.toNat)

/-! Die groups -/

/-- The offset of a word of a DMA channel. -/
def chOff (d : DieId) (c : ChanId) (o : Nat) : Nat := pageBase .dma d + 0x400 + 0x40 * c + o

/-- DSS_PART_OWNER_WRITE (R140). -/
def execDssPartOwnerWrite (p : Path) (d : DieId) (part : Fin 16) (v : W32) (s : State) : Out :=
  .next (writeReg p s (pageBase .dss d + 0x100 + 4 * part) v.toNat)

/-- DMA_CH_CFG_WRITE (R141). -/
def execDmaChCfgWrite (p : Path) (d : DieId) (c : ChanId) (v : W32) (s : State) : Out := .next (writeReg p s (chOff d c 0) v.toNat)

/-- DMA_TIMER_WRITE (R146). -/
def execDmaTimerWrite (p : Path) (d : DieId) (c : ChanId) (v : W32) (s : State) : Out := .next (writeReg p s (chOff d c 0xC) v.toNat)

/-- DMA_CH_START_WRITE (R145). -/
def execDmaChStartWrite (p : Path) (d : DieId) (c : ChanId) (n : Fin 256) (s : State) : Out :=
  .next (writeReg p s (chOff d c 0x1C) (4 * n))

/-- DMA_RESUME (R152). -/
def execDmaResume (p : Path) (d : DieId) (c : ChanId) (s : State) : Out := .next (writeReg p s (chOff d c 0x1C) 1)

/-- DMA_SKIP (R152). -/
def execDmaSkip (p : Path) (d : DieId) (c : ChanId) (s : State) : Out := .next (writeReg p s (chOff d c 0x1C) 2)

/-- DMA_ABORT (R152). -/
def execDmaAbort (p : Path) (d : DieId) (c : ChanId) (s : State) : Out := .next (writeReg p s (chOff d c 0x1C) 3)

/-! The MMU (R161, R164) -/

/-- MMU_MAP_WRITE. -/
def execMmuMapWrite (p : Path) (v : W32) (s : State) : Out := .next (writeReg p s (pageBase .mmu 0 + 0x100) v.toNat)

/-- MMU_INVAL_ALL. -/
def execMmuInvalAll (p : Path) (s : State) : Out := .next (writeReg p s (pageBase .mmu 0 + 0x104) 1)

/-- MMU_INVAL_CTX. -/
def execMmuInvalCtx (p : Path) (c : CtxId) (s : State) : Out := .next (writeReg p s (pageBase .mmu 0 + 0x104) (2 + 4 * c))

/-- MMU_INVAL_PAGE, of the address in MMU.INVAL_VA. -/
def execMmuInvalPage (p : Path) (c : CtxId) (s : State) : Out := .next (writeReg p s (pageBase .mmu 0 + 0x104) (3 + 4 * c))

/-! The fabric -/

/-- A write of LNK.CTRL that changes one field of what it holds. -/
def lnkField (p : Path) (s : State) (port lo : Nat) (on : Bool) : State :=
  writeReg p s (pageBase .lnk port + 0x100) (withBits (s.reg .lnk port 0x100) lo 1 (bit on))

/-- LNK_ENABLE (R246). -/
def execLnkEnable (p : Path) (port : PortId) (on : Bool) (s : State) : Out := .next (lnkField p s port 0 on)

/-- LNK_FENCE (R261). -/
def execLnkFence (p : Path) (port : PortId) (on : Bool) (s : State) : Out := .next (lnkField p s port 1 on)

/-- LNK_RETRAIN (R246). -/
def execLnkRetrain (p : Path) (port : PortId) (s : State) : Out := .next (lnkField p s port 2 true)

/-- LNK_BOND (R250). -/
def execLnkBond (p : Path) (port : PortId) (on : Bool) (s : State) : Out := .next (lnkField p s port 3 on)

/-- RTR_EPOCH_ARM (R256). -/
def execRtrEpochArm (p : Path) (v : W32) (s : State) : Out := .next (writeReg p s (pageBase .rtr 0 + 0x10C) v.toNat)

/-- RTR_TDATA_COMMIT (R265). -/
def execRtrTdataCommit (p : Path) (v : W32) (s : State) : Out := .next (writeReg p s (pageBase .rtr 0 + 0x118) v.toNat)

/-- RTR_FENCE_WRITE (R261): RTR.TDATA_LO, which commits where RTR.TSEL selects the fence set. -/
def execRtrFenceWrite (p : Path) (v : W32) (s : State) : Out := .next (writeReg p s (pageBase .rtr 0 + 0x114) v.toNat)

/-- HIST_FREEZE (R258). -/
def execHistFreeze (p : Path) (on : Bool) (s : State) : Out :=
  .next (writeReg p s (pageBase .rtr 0 + 0x124) (withBits (s.reg .rtr 0 0x124) 16 1 (bit on)))

/-- HIST_CLEAR (R265). -/
def execHistClear (p : Path) (s : State) : Out :=
  .next (writeReg p s (pageBase .rtr 0 + 0x124) (withBits (s.reg .rtr 0 0x124) 17 1 1))

/-- CAT_CTRL_WRITE (R300). -/
def execCatCtrlWrite (p : Path) (v : W32) (s : State) : Out := .next (writeReg p s (pageBase .cat 0 + 0x100) v.toNat)

/-! The Brixcia Link (R329, R332) -/

/-- BXL_VEC_MASK_WRITE. -/
def execBxlVecMaskWrite (p : Path) (i : Fin 64) (v : W32) (s : State) : Out := .next (writeReg p s (pageBase .bxl 0 + 0x400 + 4 * i) v.toNat)

/-- BXL_RETRAIN. -/
def execBxlRetrain (p : Path) (s : State) : Out := .next (writeReg p s (pageBase .bxl 0 + 0x104) 1)

/-! The header (R380, R385, R415, R417) -/

/-- ERR_FIRST_CLEAR, in the page with aperture page number `page`. -/
def execErrFirstClear (p : Path) (page : Fin 4096) (s : State) : Out := .next (writeReg p s (0x1000 * page + 0x20) 1)

/-- INT_ENABLE_WRITE. -/
def execIntEnableWrite (p : Path) (page : Fin 4096) (on : Bool) (s : State) : Out := .next (writeReg p s (0x1000 * page + 0x18) (bit on))

/-- CNT_SEL_WRITE. -/
def execCntSelWrite (p : Path) (page : Fin 4096) (k : Fin 8) (v : W32) (s : State) : Out :=
  .next (writeReg p s (0x1000 * page + 0x40 + 4 * k) v.toNat)

/-- The first page of an island. -/
def islandPage (k : Nat) : Block × Nat :=
  if k < 20 then (.arr, k) else if k < 24 then (.dss, k - 20) else if k < 48 then (.nmu, k - 24) else (.rtr, 0)

/-- A write of CTRL in an island's first page. -/
def ctrlWrite (p : Path) (s : State) (k : Nat) (enable quiesce reset : Bool) : State :=
  let (b, i) := islandPage k
  writeReg p s (pageBase b i + 0x0C) (bit enable + 2 * bit quiesce + 4 * bit reset)

/-- CTRL_QUIESCE. -/
def execCtrlQuiesce (p : Path) (i : Fin 49) (on : Bool) (s : State) : Out := .next (ctrlWrite p s i (s.islOf i).enable on false)

/-- QUIESCE_COMPLETE. -/
def execQuiesceComplete (i : Fin 49) (s : State) : Out :=
  let x := s.islOf i
  if x.quiesce && !x.quiesced && s.islandAtRest i then .next (s.setIsl i { x with quiesced := true }) else .next s

/-- CTRL_ENABLE. -/
def execCtrlEnable (p : Path) (n : ArrayId) (on : Bool) (s : State) : Out := .next (ctrlWrite p s n on (s.islOf n).quiesce false)

/-- CTRL_BLOCK_RESET. -/
def execCtrlBlockReset (p : Path) (i : Fin 24) (s : State) : Out := .next (ctrlWrite p s i (s.islOf i).enable (s.islOf i).quiesce true)

/-- BLOCK_RESET_DONE. -/
def execBlockResetDone (i : Fin 24) (s : State) : Out := if (s.islOf i).resetting then .next (endBlockReset s i) else .next s

end Sys2Proof.Machine
end

