-- ==== Sys2Proof/Machine/Observe.lean ====
section
/-!
DEFINITION. The die-to-die bridges (R15, R420), the fatal path from its detection to the deposit (R388–R391), and the fatal
events of the management controller, the crossings, the front end and the key stores.
Rows of notes/assumptions: DEDUCED 112, 144, 149; DESIGN CHOICE 146, 147, 181; PRESUMED 148.
-/
namespace Sys2Proof.Machine

open Sys2Proof

/-! Bridges -/

/-- The key of a bridge of a compute die, and of the link die at the end of bridge 2. -/
def bridgeKey (d k link : Nat) : Nat := 8 * d + 2 * k + link

/-- BRIDGE_ATTEMPT_FAIL (R15, R420): an attempt of a transfer received over bridge `k` of CD[d] fails; `first` says that it is the
transfer's first attempt, `link` that the link die receives it. -/
def execBridgeAttemptFail (d : DieId) (k : Fin 3) (link first : Bool) (s : State) : Out :=
  if s.halted || s.pins.inReset || (link && k.val != 2) then .next s
  else
    let key := bridgeKey d k (bit link)
    let n := if first then 1 else tabGet 0 s.bridge key + 1
    let s := if n = 1 then s.bump .noc d (0x100 + 4 * k) 1 else s
    let s := s.setReg .noc d 0x10C (max (s.reg .noc d 0x10C) (if n < 9 then n + 1 else 9))
    if n < 9 then .next { s with bridge := tabSet 0 s.bridge key n }
    else
      .next (fatalError { s with bridge := tabSet 0 s.bridge key 0 } fcBridge .noc d
        { sev := sevFatal, info := 0x01 + k * 2 ^ 8 + bit link * 2 ^ 10 })

/-! The deposit (R390, R391) -/

/-- The register pages of the PAGES section: all but doorbell pages and the CAT window, in ascending offset. -/
def depositPages : List (Block × Nat) :=
  (List.range 4096).filterMap fun p =>
    match pageOf (0x1000 * p) with
    | some (b, i) => if hasHeader b then some (b, i) else none
    | none => none

def pagesSection (s : State) : List Byte :=
  depositPages.flatMap fun e => (List.range 1024).flatMap fun w => leBytes (readWord s e.1 e.2 (4 * w)) 4

def doorbellsSection (s : State) : List Byte :=
  (List.range 1040).flatMap fun q => padTo 32 ((List.range 7).flatMap fun w => leBytes (doorbellWord s q (4 * w)) 4)

/-- The engines and channels of the dump, in ascending engine code and then channel. -/
def dumpUnits : List (Nat × Option Nat) :=
  (List.range 0x48).flatMap fun e =>
    if e < 20 || e == 0x28 || e == 0x29 || decide (0x30 ≤ e) then [(e, none)]
    else if 0x20 ≤ e && e < 0x24 then (e, none) :: (List.range 32).map fun c => (e, some c)
    else []

/-- The last tag of an engine or channel. -/
def unitTag (s : State) (e : Nat) : Option Nat → Nat
  | some c => bits (s.ch (32 * (e - 0x20) + c) 0x30) 0 16
  | none => (progressOf s e 0).2

/-- An entry of the ENGINES section: an engine that reported nothing was idle. -/
def engineEntry (s : State) (u : Nat × Option Nat) : List Byte :=
  match s.obs.stopped.find? fun r => r.engine == u.1 && r.unit == u.2 with
  | some r =>
    let st := if !r.done then 2 else if r.final < 2 then 1 else 0
    leBytes (pack [(0, 8, u.1), (8, 8, u.2.getD 0), (16, 8, st), (32, 32, r.progress), (64, 16, r.tag)]) 16
  | none => leBytes (pack [(0, 8, u.1), (8, 8, u.2.getD 0), (16, 8, 1), (64, 16, unitTag s u.1 u.2)]) 16

def enginesSection (s : State) : List Byte := dumpUnits.flatMap (engineEntry s)

/-- Where the last records of a ring stand, oldest first. -/
def ringPlaces (base size log tail most : Nat) : List Nat :=
  let n := min most (min (2 ^ log) tail)
  (List.range n).map fun i => base + size * ((tail - n + i) % 2 ^ log)

/-- The last records of a ring of device memory, oldest first; unreadable bytes are zero and the flag is set. -/
def ringTail (s : State) (size : Nat) (places : List Nat) : State × List Byte × Bool :=
  places.foldl (fun (r : State × List Byte × Bool) pa =>
    let (s, x) := readFrom r.1 4 64 pa size
    (s, r.2.1 ++ (if x.bus then leBytes 0 size else x.bytes), r.2.2 || x.bus || x.bad)) (s, [], false)

/-- The records of a sequencer's trace ring, where it is enabled, of the ledger, and of the error ring that a dump holds (R391). -/
def tracePlaces (s : State) (n : Nat) : List Nat :=
  if (s.seqReg n 0x18).testBit 5 then
    ringPlaces (2 ^ 12 * (s.seqReg n 0x10 / 2 ^ 12) + 2 ^ 32 * bits (s.seqReg n 0x14) 0 12) 16 (bits (s.seqReg n 0x18) 0 5) (s.seqReg n 0x1C) 1024
  else []

def ledgerPlaces (s : State) : List Nat := ringPlaces s.ledgerBase s.ledgerSize s.ledgerLog (s.reg .obs 0 0x10C) 4096

def errorPlaces (s : State) : List Nat :=
  ringPlaces (2 ^ 12 * s.field .obs 0 0x1A0 12 20 + 2 ^ 32 * s.field .obs 0 0x1A4 0 12) 32 (s.field .obs 0 0x1A4 16 5) (s.reg .obs 0 0x1A8) 4096

def tracesSection (s : State) : State × List Byte × Bool :=
  (List.range 26).foldl (fun (r : State × List Byte × Bool) n =>
    let (s, b, bad) := ringTail r.1 16 (tracePlaces r.1 n)
    (s, r.2.1 ++ b, r.2.2 || bad)) (s, [], false)

def ledgerSection (s : State) : State × List Byte × Bool := ringTail s s.ledgerSize (ledgerPlaces s)

def errorsSection (s : State) : State × List Byte × Bool := ringTail s 32 (errorPlaces s)

def contextsSection (s : State) : List Byte :=
  (List.range 64).flatMap fun c =>
    let x := s.ctxOf c
    if x.resident then
      leBytes x.flags 8 ++ leBytes x.seed 8 ++ leBytes x.step 8 ++ leBytes x.choice 8 ++
        (List.range 16).flatMap fun k => leBytes (tabGet 0 x.counters k) 8
    else []

/-- Whether an error has made state of the block itself unreadable (R388, R391): one of front-end state or of key storage, or a
further fatal error during the dump. -/
def dumpUnsure (s : State) : Bool :=
  let cls := s.field .obs 0 0x1D0 0 8
  cls == fcFeState || cls == fcKeyStore || s.field .obs 0 0x1C8 0 3 == 3

/-- What is read of section `k`: where state is unreadable, which of its bytes are lost is free; they are written as zero and the
section is partial (R391; log entry 181). -/
def readSection (s : State) (k : Nat) (b : List Byte) : List Byte × Bool :=
  if dumpUnsure s then
    let lost := fun i => Config.dumpLost s.draws (2 ^ 26 * k + i)
    (b.mapIdx fun i x => if lost i then 0 else x, (List.range b.length).any lost)
  else (b, false)

/-- The eight sections, in the order of the directory, and whether each is partial. -/
def dumpSections (s : State) : State × List (List Byte × Bool) :=
  let whole := readSection s
  let also := fun (k : Nat) (x : List Byte × Bool) => let (b, lost) := readSection s k x.1; (b, lost || x.2)
  let (s1, tr) := tracesSection s
  let (s2, lg) := ledgerSection s1
  let (s3, er) := errorsSection s2
  ({ s3 with draws := s3.draws + 1 }, [whole 1 (pagesSection s), whole 2 (doorbellsSection s), whole 3 (enginesSection s),
    also 4 tr, also 5 lg, also 6 er, whole 7 (contextsSection s), whole 8 (lifeBytes s.life s.life.seq false)])

/-- The directory: TYPE, STATUS, OFFSET and LENGTH of each section. -/
def directory (off n : Nat) : List (Nat × Nat) → List Byte
  | [] => []
  | (st, len) :: ss => leBytes (pack [(0, 8, n), (8, 8, st), (64, 32, off), (96, 32, len)]) 16 ++ directory (off + len) (n + 1) ss

/-- The 4 KiB header. -/
def dumpHeader (s : State) (len flags : Nat) (dir : List Byte) : List Byte :=
  padTo 4096 (leBytes (pack [(0, 32, 0x4C4D4450), (32, 32, 1), (64, 32, len), (96, 32, flags)]) 16 ++
    ((List.range 4).flatMap fun i => leBytes (s.reg .dev 0 (0x110 + 4 * i)) 4) ++ leBytes (s.reg .sec 0 0x104) 16 ++
    ((List.range 8).flatMap fun k => leBytes (s.reg .obs 0 (0x1D0 + 4 * k)) 4) ++ leBytes s.obs.second 32 ++
    leBytes (s.reg .obs 0 0x1F0) 16 ++ dir)

/-- Whether a row that the dump writes or reads is in copy, so that it waits (R174): of the deposit region, or under a ring's last
records. -/
def dumpWaits (s : State) : Bool :=
  s.depositBase.any (fun base => rowsBusy s base (64 * 2 ^ 20) ||
    (!s.mem.copies.isEmpty && (((List.range 26).any fun n => (tracePlaces s n).any fun pa => rowsBusy s pa 16) ||
      ((ledgerPlaces s).any fun pa => rowsBusy s pa s.ledgerSize) || ((errorPlaces s).any fun pa => rowsBusy s pa 32))))

/-- The dump begins: its header with COMPLETE = 0 and no section reached; without a region there is none, and the lifetime record
follows at once. -/
def beginDump (s : State) : State :=
  let s := loadLife s
  match s.depositBase with
  | none => beginLog { s with obs := { s.obs with fatal := 3 } } false true
  | some base =>
    let dir := (List.range 8).flatMap fun k => leBytes (pack [(0, 8, k + 1), (8, 8, 3)]) 16
    let (s, _) := writeFrom s 4 64 base (dumpHeader s 4096 0 dir)
    { s.setReg .obs 0 0x1C8 (1 + 1 * 2 ^ 8) with obs := { s.obs with fatal := 2 } }

/-- FATAL_ENGINES_STOPPED (R389): no engine has work in progress. -/
def execFatalEnginesStopped (s : State) : Out :=
  if s.halted || s.obs.fatal ≠ 1 || !((List.range 49).all s.islandIdle) || dumpWaits s then .next s else .next (beginDump s)

/-- Whether an engine or a channel still works. -/
def unitBusy (s : State) (u : Nat × Option Nat) : Bool :=
  match u.2 with
  | some c => let st := (s.chOf (32 * (u.1 - 0x20) + c)).state; st == .active || st == .waitArray
  | none =>
    if u.1 < 20 then !s.islandIdle u.1
    else if u.1 < 0x28 then (s.seqOf (u.1 - 12)).state != .idle
    else if u.1 < 0x30 then
      let h := u.1 - 0x28
      (s.xch.ops.any fun x => x.half == h) || !(tabGet [] s.xch.queue h).isEmpty || (s.seqOf (24 + h)).state != .idle
    else (s.nmuOf (u.1 - 0x30)).state != .idle

/-- FATAL_STOP_TIMEOUT (R389): 10 ms after the error, what still works is recorded as not stopped. -/
def execFatalStopTimeout (s : State) : Out :=
  if s.halted || s.obs.fatal ≠ 1 || decide (s.gtime < 10000000 + s.obs.fatalAt) || dumpWaits s then .next s
  else
    let late := dumpUnits.filter fun u => unitBusy s u && !(s.obs.stopped.any fun r => r.engine == u.1 && r.unit == u.2)
    .next (beginDump { s with obs := { s.obs with
      stopped := s.obs.stopped ++ late.map fun u => { engine := u.1, unit := u.2, tag := unitTag s u.1 u.2 } } })

/-- Writes the sections behind the header, then the header with COMPLETE (R391). -/
def writeSections (s : State) (base : Nat) (secs : List (List Byte × Bool)) : State :=
  let body := secs.flatMap (·.1)
  let dir := directory 4096 1 (secs.map fun x => (bit x.2, x.1.length))
  let s := (writeFrom s 4 64 (4096 + base) body).1
  let flags := 1 + 2 * bit (s.field .obs 0 0x1C8 0 3 == 3) + 4 * bit (secs.any (·.2))
  (writeFrom s 4 64 base (dumpHeader s (4096 + body.length) flags dir)).1

/-- The dump is complete: its status, and the write of the lifetime record (R390, R391). -/
def endDump (s : State) : State :=
  let s := s.setReg .obs 0 0x1C8 (if s.field .obs 0 0x1C8 0 3 = 3 then 3 else 2)
  beginLog { s with obs := { s.obs with fatal := 3 } } false true

/-- DEPOSIT_WRITE_DONE (R390, R391): the sections are written, then the header with COMPLETE; the lifetime record follows. -/
def execDepositWriteDone (s : State) : Out :=
  match s.depositBase with
  | none => .next s
  | some base =>
    if s.halted || s.obs.fatal ≠ 2 || dumpWaits s then .next s
    else
      let r := dumpSections s
      .next (endDump (writeSections r.1 base r.2))

/-! Fatal events -/

/-- Raises a fatal class whose record's content the manual does not give. -/
def openFatal (s : State) (cls : Nat) (b : Block) (i : Nat) : State :=
  fatalError s cls b i { sev := sevFatal, addr := Config.errAddr (blockCode b) (100 + cls) i, info := Config.errInfo (blockCode b) (100 + cls) i }

/-- MGMT_CONTROLLER_FAULT (R388, R391): after ROM (R359), the device halts with REASON 0x4; a dump in progress stops where it stands. -/
def execMgmtControllerFault (s : State) : Out :=
  if s.halted || s.pins.inReset || decide (s.field .sec 0 0x100 0 4 = 0) then .next s
  else
    let e : Err := { sev := sevFatal, addr := Config.errAddr (blockCode .sec) (100 + fcMgmt) 0, info := Config.errInfo (blockCode .sec) (100 + fcMgmt) 0 }
    let dumping := s.obs.fatal == 2
    let s := latchFatal (capture s .sec 0 e) fcMgmt .sec 0
    let s := if dumping then s.setField .obs 0 0x1C8 0 3 4 else s
    .next (haltDevice s 4)

/-- CROSSING_SEQUENCE_FAIL (R388): a crossing of an island fails its sequence check, recorded in the island's first page. -/
def execCrossingSequenceFail (k : Fin 50) (s : State) : Out :=
  if s.halted || s.pins.inReset then .next s else .next (openFatal s fcCrossing (islandPage k).1 (islandPage k).2)

/-- FE_STATE_UNCORRECTABLE (R388). -/
def execFeStateUncorrectable (s : State) : Out :=
  if s.halted || s.pins.inReset then .next s else .next (openFatal s fcFeState .fe 0)

/-- KEY_STORE_UNCORRECTABLE (R388): in a stack's protection engine, or in the security engine. -/
def execKeyStoreUncorrectable (st : Option StackId) (s : State) : Out :=
  if s.halted || s.pins.inReset then .next s
  else match st with
    | some k => .next (openFatal s fcKeyStore .mpe k)
    | none => .next (openFatal s fcKeyStore .sec 0)

end Sys2Proof.Machine
end

