-- ==== Sys2Proof/Machine/Repro.lean ====
section
/-!
DEFINITION. The commands of reproducibility (R305–R308): the step counter, the seed, the choice counter and the choice log's
configuration.
-/
namespace Sys2Proof.Machine

open Sys2Proof

/-- The 32 bytes of a state snapshot (R306). -/
def snapshot (x : Ctx) : List Byte :=
  leBytes (pack [(0, 64, x.step), (64, 64, x.seed), (128, 64, x.choice), (192, 2, x.mode), (224, 32, x.logFaults)]) 32

/-- STEP_ADVANCE. The change is made and the snapshot, if any, is written after it. -/
def execStepAdvance (q : QueueId) (s : State) : Out :=
  match actCmd s q 0x02 with
  | none => .next s
  | some c =>
    let k := s.feCtx q
    let x := s.ctxOf k
    let y := { x with step := if c.raw.testBit 64 then fld c.raw 0x10 0 64 else (x.step + 1) % 2 ^ 64 }
    let a := fld c.raw 0x18 0 64
    let s' := s.setCtx k y
    if a = 0 then .next (doneCmd s' q c.n)
    else
      feThen s q (feWrite s' q a (snapshot y)) (fun t _ => .next (doneCmd t q c.n))
        (fun t => .next (badCmd t q c.n stFetchFault))

/-- SEED_SET: each part under its own enable bit. -/
def execSeedSet (q : QueueId) (s : State) : Out :=
  match actCmd s q 0x03 with
  | none => .next s
  | some c =>
    let k := s.feCtx q
    let x := s.ctxOf k
    let x := if c.raw.testBit 64 then { x with seed := fld c.raw 0x10 0 64 } else x
    let x := if c.raw.testBit 65 then { x with logLog2 := fld c.raw 8 3 5, logBase := fld c.raw 0x18 0 64 } else x
    let x := if c.raw.testBit 66 then { x with choice := fld c.raw 0x20 0 64 } else x
    .next (doneCmd (s.setCtx k x) q c.n)

end Sys2Proof.Machine
end

