-- ==== Sys2Proof/Machine/Start.lean ====
section
/-!
DEFINITION. The start of a command (R215, R226) and the checks of R214 that need the machine's state: TARGET, DISABLED_ARRAY and
NOT_ASSIGNED.
Rows of notes/assumptions: DEDUCED 59.
-/
namespace Sys2Proof.Machine

open Sys2Proof

/-- The status with which a command fails because of what it names, in the order of R214; 0 where nothing is wrong. -/
def startFails (s : State) (q : Nat) (c : Cmd) : Nat :=
  let target := fun (b : Bool) => if b then stTarget else 0
  match cOpc c.raw with
  | 0x01 => if unmapped s q c then stNotAssigned else 0
  | 0x40 | 0x41 => target (dmaTarget s q c)
  | 0x63 => target (catLoadTarget s q)
  | 0x90 => target (counterReadTarget s q c)
  | 0xC0 => target (ctxCreateTarget s c)
  | 0xC1 => target (ctxDestroyTarget s c)
  | 0xC2 => target (queueCreateTarget s c)
  | 0xC3 => target (queueDestroyTarget s q c)
  | 0xC4 => arrayAssignTarget s c
  | 0xC5 => target (queueResumeTarget s c)
  | 0xC6 => target (slotHeld s (fld c.raw 8 0 6))
  | 0xC7 => target (tlbInvalTarget s c)
  | 0xC8 => target (s.mem.keyOf (fld c.raw 8 0 7) == 0)
  | 0xD0 => target (mirrorBindTarget s c)
  | 0xD8 => target (enterPwr s (setpointEntry (fld c.raw 8 0 32) (fld c.raw 0x10 0 64))).isNone
  | 0xD9 => target (enterPwr s (modeEntry (fld c.raw 8 0 32) (fld c.raw 0x10 0 64))).isNone
  | 0xE0 => target (gcounterValues s c).isNone
  | _ => 0

/-- COMMAND_START (R214, R215, R226): a command that fails a check is not executed; what it names is
checked once its engine has taken up the queue's commands before it. -/
def execCommandStart (q : QueueId) (s : State) : Out :=
  if (s.queueOf q).state ≠ .running then .next s
  else match nextToStart s q with
    | none => .next s
    | some c =>
      if c.check ≠ 0 then
        .next (updCmd s q c.n fun c => { c with started := true, acted := true, ended := true, status := c.check,
                                                info := infoWord ecFe 0 c.checkOff })
      else if cOpc c.raw = 0x80 || engineWaits s c then .next s
      else if startFails s q c ≠ 0 then .next (failCmd s q c.n (startFails s q c) 0)
      else if !startable s q c true || servedAfter s q c || (cOpc c.raw = 0x01 && yields s q c) then .next (noteReady s q)
      else .next (beginCmd s q c)

end Sys2Proof.Machine
end

