-- ==== Sys2Proof/Machine/Dispatch.lean ====
section
/-!
DEFINITION. One arm per command: each is one direct call of its meaning.
-/
namespace Sys2Proof.Machine

open Sys2Proof

/-- The effect of a command on everything but the queue of waiting commands. -/
def exec (i : Instr) (s : State) : Host.Outcome State Fault Refusal :=
  match i with
  | .bridgeAttemptFail d k link first => Sys2Proof.Machine.execBridgeAttemptFail d k link first s
  | .fatalEnginesStopped => Sys2Proof.Machine.execFatalEnginesStopped s
  | .fatalStopTimeout => Sys2Proof.Machine.execFatalStopTimeout s
  | .depositWriteDone => Sys2Proof.Machine.execDepositWriteDone s
  | .mmi n => Sys2Proof.Machine.execMmi n s
  | .bTileLoadDone n => Sys2Proof.Machine.execBTileLoadDone n s
  | .preloadDone n => Sys2Proof.Machine.execPreloadDone n s
  | .rampUpDone n => Sys2Proof.Machine.execRampUpDone n s
  | .mmFirstRow n => Sys2Proof.Machine.execMmFirstRow n s
  | .mmAccumulationEnd n => Sys2Proof.Machine.execMmAccumulationEnd n s
  | .spillEnd n => Sys2Proof.Machine.execSpillEnd n s
  | .epilogueStart n => Sys2Proof.Machine.execEpilogueStart n s
  | .epilogueEnd n => Sys2Proof.Machine.execEpilogueEnd n s
  | .mmInstructionComplete n => Sys2Proof.Machine.execMmInstructionComplete n s
  | .rampDownDone n => Sys2Proof.Machine.execRampDownDone n s
  | .arrRampCfgWrite p n v => Sys2Proof.Machine.execArrRampCfgWrite p n v s
  | .holdRaise k engine => Sys2Proof.Machine.execHoldRaise k engine s
  | .holdRelease k => Sys2Proof.Machine.execHoldRelease k s
  | .reservationGranted e amps => Sys2Proof.Machine.execReservationGranted e amps s
  | .quietDebtPaid e => Sys2Proof.Machine.execQuietDebtPaid e s
  | .accEccError n row col uncorrectable tag => Sys2Proof.Machine.execAccEccError n row col uncorrectable tag s
  | .tld n => Sys2Proof.Machine.execTld n s
  | .tableLoadDone n => Sys2Proof.Machine.execTableLoadDone n s
  | .qntClearTflag p n => Sys2Proof.Machine.execQntClearTflag p n s
  | .qntClearMiss p n => Sys2Proof.Machine.execQntClearMiss p n s
  | .vei n => Sys2Proof.Machine.execVei n s
  | .vecInstructionEnd n => Sys2Proof.Machine.execVecInstructionEnd n s
  | .alsEccError st addr uncorrectable => Sys2Proof.Machine.execAlsEccError st addr uncorrectable s
  | .alsScrubStart p n => Sys2Proof.Machine.execAlsScrubStart p n s
  | .alsScrubBegin n => Sys2Proof.Machine.execAlsScrubBegin n s
  | .alsScrubEnd n => Sys2Proof.Machine.execAlsScrubEnd n s
  | .dssPartOwnerWrite p d part v => Sys2Proof.Machine.execDssPartOwnerWrite p d part v s
  | .dssScrubEnd d p => Sys2Proof.Machine.execDssScrubEnd d p s
  | .dmaChCfgWrite p d c v => Sys2Proof.Machine.execDmaChCfgWrite p d c v s
  | .dmaTimerWrite p d c v => Sys2Proof.Machine.execDmaTimerWrite p d c v s
  | .dmaTimerExpiry d c => Sys2Proof.Machine.execDmaTimerExpiry d c s
  | .dmaChStartWrite p d c n => Sys2Proof.Machine.execDmaChStartWrite p d c n s
  | .dmaResume p d c => Sys2Proof.Machine.execDmaResume p d c s
  | .dmaSkip p d c => Sys2Proof.Machine.execDmaSkip p d c s
  | .dmaAbort p d c => Sys2Proof.Machine.execDmaAbort p d c s
  | .dmaDescriptorFetch d c => Sys2Proof.Machine.execDmaDescriptorFetch d c s
  | .dmaBurstIssue d c b => Sys2Proof.Machine.execDmaBurstIssue d c b s
  | .dmaBurstReadDone d c b => Sys2Proof.Machine.execDmaBurstReadDone d c b s
  | .dmaBurstWritten d c => Sys2Proof.Machine.execDmaBurstWritten d c s
  | .dmaTransferComplete d c => Sys2Proof.Machine.execDmaTransferComplete d c s
  | .mcRead owner pa len => Sys2Proof.Machine.execMcRead owner pa len s
  | .mcWrite owner pa data => Sys2Proof.Machine.execMcWrite owner pa data s
  | .mcEccError pa uncorrectable => Sys2Proof.Machine.execMcEccError pa uncorrectable s
  | .mcPatrol st corrected uncorrectable => Sys2Proof.Machine.execMcPatrol st corrected uncorrectable s
  | .rowRetireDone st ch row => Sys2Proof.Machine.execRowRetireDone st ch row s
  | .mcInterfaceError st ch first => Sys2Proof.Machine.execMcInterfaceError st ch first s
  | .mmuTranslate die req c va write => Sys2Proof.Machine.execMmuTranslate die req c va write s
  | .pageWalkDone die req c va write => Sys2Proof.Machine.execPageWalkDone die req c va write s
  | .mmuMapWrite p v => Sys2Proof.Machine.execMmuMapWrite p v s
  | .mmuInvalAll p => Sys2Proof.Machine.execMmuInvalAll p s
  | .mmuInvalCtx p c => Sys2Proof.Machine.execMmuInvalCtx p c s
  | .mmuInvalPage p c => Sys2Proof.Machine.execMmuInvalPage p c s
  | .invalidationComplete => Sys2Proof.Machine.execInvalidationComplete s
  | .nmuUpdate q => Sys2Proof.Machine.execNmuUpdate q s
  | .nmuDescriptorFetch u => Sys2Proof.Machine.execNmuDescriptorFetch u s
  | .nmuBlockWritten u => Sys2Proof.Machine.execNmuBlockWritten u s
  | .mirrorBind q => Sys2Proof.Machine.execMirrorBind q s
  | .pairHandshakeMsgRx p kind last => Sys2Proof.Machine.execPairHandshakeMsgRx p kind last s
  | .pairHandshakeDone good epoch => Sys2Proof.Machine.execPairHandshakeDone good epoch s
  | .mirrorDeposit q => Sys2Proof.Machine.execMirrorDeposit q s
  | .mirrorSend q => Sys2Proof.Machine.execMirrorSend q s
  | .mirrorRedo q => Sys2Proof.Machine.execMirrorRedo q s
  | .depositBlockRx u epoch parts last good => Sys2Proof.Machine.execDepositBlockRx u epoch parts last good s
  | .depositClose epoch count header => Sys2Proof.Machine.execDepositClose epoch count header s
  | .mirrorBlockRx u j epoch parts whole good => Sys2Proof.Machine.execMirrorBlockRx u j epoch parts whole good s
  | .mirrorBlockWritten u j => Sys2Proof.Machine.execMirrorBlockWritten u j s
  | .mirrorStreamClose epoch count => Sys2Proof.Machine.execMirrorStreamClose epoch count s
  | .mirrorAckRx stream epoch => Sys2Proof.Machine.execMirrorAckRx stream epoch s
  | .doorbellWrite p q v => Sys2Proof.Machine.execDoorbellWrite p q v s
  | .cqHeadWrite p q v => Sys2Proof.Machine.execCqHeadWrite p q v s
  | .commandFetch q => Sys2Proof.Machine.execCommandFetch q s
  | .commandStart q => Sys2Proof.Machine.execCommandStart q s
  | .commandComplete q => Sys2Proof.Machine.execCommandComplete q s
  | .commandTimeout q => Sys2Proof.Machine.execCommandTimeout q s
  | .completionWriteFault q => Sys2Proof.Machine.execCompletionWriteFault q s
  | .runList q => Sys2Proof.Machine.execRunList q s
  | .dmaStart q => Sys2Proof.Machine.execDmaStart q s
  | .dmaAction q => Sys2Proof.Machine.execDmaAction q s
  | .fenceWait q => Sys2Proof.Machine.execFenceWait q s
  | .fencePoll q => Sys2Proof.Machine.execFencePoll q s
  | .fenceSignal q => Sys2Proof.Machine.execFenceSignal q s
  | .nop q => Sys2Proof.Machine.execNop q s
  | .flagsRead q => Sys2Proof.Machine.execFlagsRead q s
  | .ctxCreate q => Sys2Proof.Machine.execCtxCreate q s
  | .ctxDestroy q => Sys2Proof.Machine.execCtxDestroy q s
  | .queueCreate q => Sys2Proof.Machine.execQueueCreate q s
  | .queueDestroy q => Sys2Proof.Machine.execQueueDestroy q s
  | .engineAbortReached eng chan rows => Sys2Proof.Machine.execEngineAbortReached eng chan rows s
  | .queueDestroyDrained q => Sys2Proof.Machine.execQueueDestroyDrained q s
  | .queueDestroyComplete q => Sys2Proof.Machine.execQueueDestroyComplete q s
  | .arrayAssign q => Sys2Proof.Machine.execArrayAssign q s
  | .queueResume q => Sys2Proof.Machine.execQueueResume q s
  | .keyBind q => Sys2Proof.Machine.execKeyBind q s
  | .tlbInval q => Sys2Proof.Machine.execTlbInval q s
  | .memInit q => Sys2Proof.Machine.execMemInit q s
  | .regWrite q => Sys2Proof.Machine.execRegWrite q s
  | .regRead q => Sys2Proof.Machine.execRegRead q s
  | .kqCfgWrite p k v => Sys2Proof.Machine.execKqCfgWrite p k v s
  | .quantumExpiry n => Sys2Proof.Machine.execQuantumExpiry n s
  | .contextSwitchBegin n => Sys2Proof.Machine.execContextSwitchBegin n s
  | .contextSwitchEnd n => Sys2Proof.Machine.execContextSwitchEnd n s
  | .add n => Sys2Proof.Machine.execAdd n s
  | .sub n => Sys2Proof.Machine.execSub n s
  | .seqAnd n => Sys2Proof.Machine.execSeqAnd n s
  | .seqOr n => Sys2Proof.Machine.execSeqOr n s
  | .seqXor n => Sys2Proof.Machine.execSeqXor n s
  | .shl n => Sys2Proof.Machine.execShl n s
  | .shr n => Sys2Proof.Machine.execShr n s
  | .mul n => Sys2Proof.Machine.execMul n s
  | .sltu n => Sys2Proof.Machine.execSltu n s
  | .addi n => Sys2Proof.Machine.execAddi n s
  | .andi n => Sys2Proof.Machine.execAndi n s
  | .ori n => Sys2Proof.Machine.execOri n s
  | .shli n => Sys2Proof.Machine.execShli n s
  | .shri n => Sys2Proof.Machine.execShri n s
  | .ldh n => Sys2Proof.Machine.execLdh n s
  | .ld n => Sys2Proof.Machine.execLd n s
  | .st n => Sys2Proof.Machine.execSt n s
  | .lda n => Sys2Proof.Machine.execLda n s
  | .sta n => Sys2Proof.Machine.execSta n s
  | .beq n => Sys2Proof.Machine.execBeq n s
  | .bne n => Sys2Proof.Machine.execBne n s
  | .bltu n => Sys2Proof.Machine.execBltu n s
  | .jmp n => Sys2Proof.Machine.execJmp n s
  | .call n => Sys2Proof.Machine.execCall n s
  | .ret n => Sys2Proof.Machine.execRet n s
  | .lset n => Sys2Proof.Machine.execLset n s
  | .lnext n => Sys2Proof.Machine.execLnext n s
  | .xci n => Sys2Proof.Machine.execXci n s
  | .sig n => Sys2Proof.Machine.execSig n s
  | .wait n => Sys2Proof.Machine.execWait n s
  | .waitSatisfied n => Sys2Proof.Machine.execWaitSatisfied n s
  | .fsig n => Sys2Proof.Machine.execFsig n s
  | .mark n => Sys2Proof.Machine.execMark n s
  | .seqEnd n => Sys2Proof.Machine.execSeqEnd n s
  | .sequencerDrained n => Sys2Proof.Machine.execSequencerDrained n s
  | .seqTraceHeadWrite p n v => Sys2Proof.Machine.execSeqTraceHeadWrite p n v s
  | .lnkEnable p port on => Sys2Proof.Machine.execLnkEnable p port on s
  | .lnkFence p port on => Sys2Proof.Machine.execLnkFence p port on s
  | .lnkRetrain p port => Sys2Proof.Machine.execLnkRetrain p port s
  | .lnkBond p port on => Sys2Proof.Machine.execLnkBond p port on s
  | .signalDetect p => Sys2Proof.Machine.execSignalDetect p s
  | .equalizeDone p => Sys2Proof.Machine.execEqualizeDone p s
  | .lockAchieved p => Sys2Proof.Machine.execLockAchieved p s
  | .trainingTimeout p => Sys2Proof.Machine.execTrainingTimeout p s
  | .failedRetry p => Sys2Proof.Machine.execFailedRetry p s
  | .bxlHalfWidthTimeout hi => Sys2Proof.Machine.execBxlHalfWidthTimeout hi s
  | .probationEnd p => Sys2Proof.Machine.execProbationEnd p s
  | .degradeCheck p => Sys2Proof.Machine.execDegradeCheck p s
  | .codewordRx p low high inits => Sys2Proof.Machine.execCodewordRx p low high inits s
  | .replayTimeout p => Sys2Proof.Machine.execReplayTimeout p s
  | .retrainExpiry p => Sys2Proof.Machine.execRetrainExpiry p s
  | .creditTimer p => Sys2Proof.Machine.execCreditTimer p s
  | .packetForward input vc => Sys2Proof.Machine.execPacketForward input vc s
  | .packetStallTimeout input vc => Sys2Proof.Machine.execPacketStallTimeout input vc s
  | .messagePacketRx h k => Sys2Proof.Machine.execMessagePacketRx h k s
  | .messageCompletion h src msgId => Sys2Proof.Machine.execMessageCompletion h src msgId s
  | .rtrEpochArm p v => Sys2Proof.Machine.execRtrEpochArm p v s
  | .epochAdvance => Sys2Proof.Machine.execEpochAdvance s
  | .rtrTdataCommit p v => Sys2Proof.Machine.execRtrTdataCommit p v s
  | .rtrFenceWrite p v => Sys2Proof.Machine.execRtrFenceWrite p v s
  | .histSample => Sys2Proof.Machine.execHistSample s
  | .histFreeze p on => Sys2Proof.Machine.execHistFreeze p on s
  | .histClear p => Sys2Proof.Machine.execHistClear p s
  | .collective q => Sys2Proof.Machine.execCollective q s
  | .xchOpBegin h => Sys2Proof.Machine.execXchOpBegin h s
  | .grantRx h src op pcheck use handle value rows => Sys2Proof.Machine.execGrantRx h src op pcheck use handle value rows s
  | .countRx h src op pcheck value counts tokens => Sys2Proof.Machine.execCountRx h src op pcheck value counts tokens s
  | .endRx h src op rank => Sys2Proof.Machine.execEndRx h src op rank s
  | .abandonRx h src op => Sys2Proof.Machine.execAbandonRx h src op s
  | .fencedNoticeRx h op fenced => Sys2Proof.Machine.execFencedNoticeRx h op fenced s
  | .reductionSlotOperand h src msgId => Sys2Proof.Machine.execReductionSlotOperand h src msgId s
  | .earlyPacketExpiry k => Sys2Proof.Machine.execEarlyPacketExpiry k s
  | .lateDeadline op => Sys2Proof.Machine.execLateDeadline op s
  | .xchOpEnd op => Sys2Proof.Machine.execXchOpEnd op s
  | .catLoad q => Sys2Proof.Machine.execCatLoad q s
  | .catLoadBegin => Sys2Proof.Machine.execCatLoadBegin s
  | .catLoadDone => Sys2Proof.Machine.execCatLoadDone s
  | .catCtrlWrite p v => Sys2Proof.Machine.execCatCtrlWrite p v s
  | .dispatch q => Sys2Proof.Machine.execDispatch q s
  | .dispatchCountsComplete op => Sys2Proof.Machine.execDispatchCountsComplete op s
  | .dispatchEnd op => Sys2Proof.Machine.execDispatchEnd op s
  | .combine q => Sys2Proof.Machine.execCombine q s
  | .combineRowsArrived op => Sys2Proof.Machine.execCombineRowsArrived op s
  | .stepAdvance q => Sys2Proof.Machine.execStepAdvance q s
  | .seedSet q => Sys2Proof.Machine.execSeedSet q s
  | .mmioRd tag addr size => Sys2Proof.Machine.execMmioRd tag addr size s
  | .mmioWr addr poison data => Sys2Proof.Machine.execMmioWr addr poison data s
  | .bxlData tag addr state status poison data => Sys2Proof.Machine.execBxlData tag addr state status poison data s
  | .cmp tag addr state status data => Sys2Proof.Machine.execCmp tag addr state status data s
  | .xlateRsp tag addr status page r w => Sys2Proof.Machine.execXlateRsp tag addr status page r w s
  | .snpInv tag addr => Sys2Proof.Machine.execSnpInv tag addr s
  | .snpShr tag addr => Sys2Proof.Machine.execSnpShr tag addr s
  | .xlateInv tag addr pages all => Sys2Proof.Machine.execXlateInv tag addr pages all s
  | .bxlResponseTimeout tag => Sys2Proof.Machine.execBxlResponseTimeout tag s
  | .bxlVecMaskWrite p k v => Sys2Proof.Machine.execBxlVecMaskWrite p k v s
  | .bxlRetrain p => Sys2Proof.Machine.execBxlRetrain p s
  | .bootGo => Sys2Proof.Machine.execBootGo s
  | .bootImageLoaded => Sys2Proof.Machine.execBootImageLoaded s
  | .pwrSetpoint q => Sys2Proof.Machine.execPwrSetpoint q s
  | .pwrMode q => Sys2Proof.Machine.execPwrMode q s
  | .setpointActivation => Sys2Proof.Machine.execSetpointActivation s
  | .capRecompute uj => Sys2Proof.Machine.execCapRecompute uj s
  | .currentEstimate amps => Sys2Proof.Machine.execCurrentEstimate amps s
  | .dutyTrim mean most => Sys2Proof.Machine.execDutyTrim mean most s
  | .ceilingAdjust up => Sys2Proof.Machine.execCeilingAdjust up s
  | .pwrBrakeAssert => Sys2Proof.Machine.execPwrBrakeAssert s
  | .pwrBrakeRelease => Sys2Proof.Machine.execPwrBrakeRelease s
  | .vrAlertAssert k => Sys2Proof.Machine.execVrAlertAssert k s
  | .vrAlertRelease k => Sys2Proof.Machine.execVrAlertRelease k s
  | .droopDetect n => Sys2Proof.Machine.execDroopDetect n s
  | .thermalSample junction stackTemps => Sys2Proof.Machine.execThermalSample junction stackTemps s
  | .ppsEdge => Sys2Proof.Machine.execPpsEdge s
  | .ppsLockLoss => Sys2Proof.Machine.execPpsLockLoss s
  | .gtimeSetArm p v => Sys2Proof.Machine.execGtimeSetArm p v s
  | .pkgResetAssert => Sys2Proof.Machine.execPkgResetAssert s
  | .pkgResetRelease => Sys2Proof.Machine.execPkgResetRelease s
  | .pwrGoodRise => Sys2Proof.Machine.execPwrGoodRise s
  | .pwrGoodFall => Sys2Proof.Machine.execPwrGoodFall s
  | .effectiveResetRelease straps => Sys2Proof.Machine.execEffectiveResetRelease straps s
  | .colophonVerifyDone sigsA sigsB => Sys2Proof.Machine.execColophonVerifyDone sigsA sigsB s
  | .pufUnwrapDone ok => Sys2Proof.Machine.execPufUnwrapDone ok s
  | .imageTransferBegin => Sys2Proof.Machine.execImageTransferBegin s
  | .imageVerifyDone digest rsa slh => Sys2Proof.Machine.execImageVerifyDone digest rsa slh s
  | .fwInitDone failed margins => Sys2Proof.Machine.execFwInitDone failed margins s
  | .dhcpOfferRx server file => Sys2Proof.Machine.execDhcpOfferRx server file s
  | .dhcpRetry => Sys2Proof.Machine.execDhcpRetry s
  | .tftpBlockRx tsize block data => Sys2Proof.Machine.execTftpBlockRx tsize block data s
  | .tftpTimeout => Sys2Proof.Machine.execTftpTimeout s
  | .dcbAreaWrite k v => Sys2Proof.Machine.execDcbAreaWrite k v s
  | .dcbCommit v => Sys2Proof.Machine.execDcbCommit v s
  | .dcbCheckDone => Sys2Proof.Machine.execDcbCheckDone s
  | .mgmtSessionOpen client chain => Sys2Proof.Machine.execMgmtSessionOpen client chain s
  | .sessionIdleTimeout sid => Sys2Proof.Machine.execSessionIdleTimeout sid s
  | .identity sid rid => Sys2Proof.Machine.execIdentity sid rid s
  | .attest sid rid nonce => Sys2Proof.Machine.execAttest sid rid nonce s
  | .attestReportDone => Sys2Proof.Machine.execAttestReportDone s
  | .mgmtRegRead sid rid os => Sys2Proof.Machine.execMgmtRegRead sid rid os s
  | .mgmtRegWrite sid rid ws => Sys2Proof.Machine.execMgmtRegWrite sid rid ws s
  | .mgmtCounterRead sid rid sels => Sys2Proof.Machine.execMgmtCounterRead sid rid sels s
  | .setpoint sid rid word start => Sys2Proof.Machine.execSetpoint sid rid word start s
  | .mgmtMode sid rid word start => Sys2Proof.Machine.execMgmtMode sid rid word start s
  | .dcbWrite sid rid => Sys2Proof.Machine.execDcbWrite sid rid s
  | .depositRead sid rid off len => Sys2Proof.Machine.execDepositRead sid rid off len s
  | .logRead sid rid off len => Sys2Proof.Machine.execLogRead sid rid off len s
  | .trustSet sid rid k cls fingerprint => Sys2Proof.Machine.execTrustSet sid rid k cls fingerprint s
  | .debugUnlock sid rid => Sys2Proof.Machine.execDebugUnlock sid rid s
  | .smbusRead o n block pec => Sys2Proof.Machine.execSmbusRead o n block pec s
  | .smbusRefresh => Sys2Proof.Machine.execSmbusRefresh s
  | .counterRead q => Sys2Proof.Machine.execCounterRead q s
  | .gcounterRead q => Sys2Proof.Machine.execGcounterRead q s
  | .cntSelWrite p page k v => Sys2Proof.Machine.execCntSelWrite p page k v s
  | .ledgerSample => Sys2Proof.Machine.execLedgerSample s
  | .errFirstClear p page => Sys2Proof.Machine.execErrFirstClear p page s
  | .intEnableWrite p page on => Sys2Proof.Machine.execIntEnableWrite p page on s
  | .logFlush p v => Sys2Proof.Machine.execLogFlush p v s
  | .logPeriodicWrite => Sys2Proof.Machine.execLogPeriodicWrite s
  | .logWriteDone => Sys2Proof.Machine.execLogWriteDone s
  | .lifetimeSecondTick temps watts => Sys2Proof.Machine.execLifetimeSecondTick temps watts s
  | .marginMeasure n mv => Sys2Proof.Machine.execMarginMeasure n mv s
  | .ctrlQuiesce p k on => Sys2Proof.Machine.execCtrlQuiesce p k on s
  | .quiesceComplete k => Sys2Proof.Machine.execQuiesceComplete k s
  | .ctrlEnable p n on => Sys2Proof.Machine.execCtrlEnable p n on s
  | .ctrlBlockReset p k => Sys2Proof.Machine.execCtrlBlockReset p k s
  | .blockResetDone k => Sys2Proof.Machine.execBlockResetDone k s
  | .registerLoRead p w => Sys2Proof.Machine.execRegisterLoRead p w s
  | .registerWrite p w v => Sys2Proof.Machine.execRegisterWrite p w v s
  | .pwrBrakePulseFiltered => Sys2Proof.Machine.execPwrBrakePulseFiltered s
  | .mgmtControllerFault => Sys2Proof.Machine.execMgmtControllerFault s
  | .crossingSequenceFail k => Sys2Proof.Machine.execCrossingSequenceFail k s
  | .feStateUncorrectable => Sys2Proof.Machine.execFeStateUncorrectable s
  | .keyStoreUncorrectable st => Sys2Proof.Machine.execKeyStoreUncorrectable st s
  | .bxlTagRetirementEnd tag => Sys2Proof.Machine.execBxlTagRetirementEnd tag s
  | .eccCorrectedWriteback pa => Sys2Proof.Machine.execEccCorrectedWriteback pa s
  | .smbusWrite bytes => Sys2Proof.Machine.execSmbusWrite bytes s
  | .testPortAccess debug => Sys2Proof.Machine.execTestPortAccess debug s

end Sys2Proof.Machine
end

