-- ==== Sys2Proof/Machine/Tick.lean ====
section
/-!
DEFINITION. One REF_CLK cycle in which no command is served: GTIME advances (R349, R350), quiet debts are paid (R343), the
holding of arrays is counted (R377), the time for which PWR_GOOD has been high grows (R406), and messages to the companion and
to the partner are put into flits (R248, R319, R321).
Rows of notes/assumptions: DEDUCED 130, 191; DESIGN CHOICE 2.
-/
namespace Sys2Proof.Machine

open Sys2Proof

/-- What a cycle adds to GTIME: 10 ns, or 9 or 11 in one cycle of every 1,000 while an offset is slewed away (R350). -/
def tickNs (p : Pwr) : Nat :=
  if p.slew = 0 || decide (p.slewPhase < 999) then 10 else if p.slew > 0 then 9 else 11

/-- The discipline after a cycle. -/
def tickSlew (p : Pwr) : Pwr :=
  if p.slew = 0 then p
  else if p.slewPhase < 999 then { p with slewPhase := p.slewPhase + 1 }
  else { p with slewPhase := 0, slew := if p.slew > 0 then p.slew - 1 else p.slew + 1 }

/-- The context that an engine works for. -/
def State.engineCtx (s : State) (e : Nat) : Option Nat :=
  if e < 20 then (s.holderOf e).ctx
  else if e < 40 then (s.holderOf (e - 20)).ctx
  else if 44 ≤ e && e < 68 then some (tabGet {} s.nmu (e - 44)).cmd.ctx
  else match tabGet 0 s.pwr.debtCtx e with
    | 0 => none
    | c + 1 => some c

/-- The die that an engine stands on, for its quiet time. -/
def engineDie (e : Nat) : Option Nat :=
  if e < 20 then some (e / 5)
  else if e < 40 then some ((e - 20) / 5)
  else if e < 44 then some (e - 40)
  else if e < 68 then some ((e - 44) / 6)
  else none

/-- An engine that is not active pays its debt for `ns` nanoseconds. -/
def payDebt (ns : Nat) (s : State) (e : Nat) : State :=
  let d := tabGet 0 s.pwr.debt e
  if d = 0 || tabGet 0 s.pwr.active e != 0 then s
  else
    let n := min d ns
    let s := { s with pwr := { s.pwr with debt := tabSet 0 s.pwr.debt e (d - n) } }
    let s := match engineDie e with
      | some i => { s with pwr := { s.pwr with quietPaid := tabMod 0 s.pwr.quietPaid i fun v => (v + n) % 2 ^ 64 } }
      | none => s
    match s.engineCtx e with
    | some c => ctxCount s c 11 n
    | none => s

/-- Counts `ns` for each array that a context holds. -/
def countHold (ns : Nat) (s : State) (n : Nat) : State :=
  match (s.holderOf n).ctx with
  | some c => ctxCount s c 10 ns
  | none => s

/-- The boot ROM reads the copies of the colophon (R359; log entry 191). -/
def romTick (s : State) : State :=
  if s.halted || s.pins.inReset || decide (s.field .sec 0 0x100 0 4 ≠ 0) then s else setBoot s 1 0

/-- One REF_CLK cycle. What became ready before it is noted with the time it still has (R226). -/
def refTick (s : State) : State :=
  let ns := tickNs s.pwr
  let s := noteReadyAll s
  let s := { s with
    gtime := (s.gtime + ns) % 2 ^ 64
    pwr := tickSlew s.pwr
    pins := { s.pins with goodFor := if s.pins.powerGood then min (s.pins.goodFor + 1) 1000000 else 0 } }
  if s.pins.inReset then s
  else serveMessages <| linkTick ((List.range 20).foldl (countHold ns) ((List.range 70).foldl (payDebt ns) (romTick s)))

end Sys2Proof.Machine
end

