-- ==== Sys2Proof/WellFormed.lean ====
section
/-!
DEFINITION. Which operands a command may carry: the ranges that the manual gives the fields of what the command stands for.
An operand that its own type bounds needs no check. The meanings answer for every operand; these checks say which commands
the outside world can send.
-/
namespace Sys2Proof

/-- The last byte of device memory, plus 1 (R24). -/
def memoryEnd : Nat := 0x1A280000000

/-- Bytes of an ALS and of a DSS (R134, R140). -/
def storeSize : StoreRef → Nat
  | .als _ => 0x2000000
  | .dss _ => 0x8000000

/-- Engine codes of R220. -/
def engineCodeOk (e : Nat) : Bool :=
  decide (e < 20) || (decide (0x20 ≤ e) && decide (e < 0x24)) || e == 0x28 || e == 0x29 || (decide (0x30 ≤ e) && decide (e < 0x48))

/-- An access within one 256 B block (R168, R169). -/
def oneBlock (pa len : Nat) : Bool := decide (1 ≤ len) && decide (pa % 256 + len ≤ 256)

/-- What an INIT flit may say: a port, a sequence number, two buffers (R246, R248, R321). -/
def InitPar.ok (i : InitPar) : Bool := decide (i.dev < 2 ^ 15) && decide (i.port < 64) && decide (i.last < 4096) && decide (i.bufs.length ≤ 5)

/-- The lanes of a codeword: 544 symbols over four or eight (R245, R316). -/
def lanesOk (lanes : List (List (BitVec 10))) : Bool :=
  (lanes.length == 4 && lanes.all (·.length == 136)) || (lanes.length == 8 && lanes.all (·.length == 68))

/-- The fields of an ejected data packet (R251, R252): a payload of 8 to 4,096 B, a multiple of 8. -/
def DataPkt.ok (k : DataPkt) : Bool :=
  decide (k.src < 2 ^ 15) && decide (k.msgId < 2 ^ 32) && decide (k.op < 2 ^ 16) && decide (k.handle < 2 ^ 32) &&
  decide (k.offset < 2 ^ 32) && decide (1 ≤ k.total) && decide (k.total < 2 ^ 32) &&
  decide (k.epoch < 256) && decide (k.pcrc < 2 ^ 32) && decide (8 ≤ k.data.length) && decide (k.data.length ≤ 4096) && k.data.length % 8 == 0

/-- The fields that every control packet has (R276): source device, operation. -/
def ctrlOk (src op : Nat) : Bool := decide (src < 2 ^ 15) && decide (op < 2 ^ 16)

/-- A message of the Brixcia Link (R319): a 64-bit address and at most 4,096 B. -/
def linkOk (addr size : Nat) : Bool := decide (addr < 2 ^ 64) && decide (size ≤ 4096)

/-- A register access of a management message (R371). -/
def offsetOk (o : Nat) : Bool := o % 4 == 0 && decide (o < 2 ^ 24)

/-- A data packet of the pair link (R252, R368): a 32 B header, and a payload of at most 4,096 B that ends in a 16 B tag. -/
def PairPkt.ok (k : PairPkt) : Bool :=
  k.head.length == 32 && decide (16 ≤ k.body.length) && decide (k.body.length ≤ 4096) && k.places.all fun p => decide (p.1 < 2 ^ 64)

/-- The operands of a command. -/
def wellFormed : Instr → Bool
  | .alsEccError st addr _ => decide (addr < storeSize st)
  | .mcRead _ pa len => oneBlock pa len && decide (pa + len ≤ memoryEnd)
  | .mcWrite _ pa data => oneBlock pa data.length && decide (pa + data.length ≤ memoryEnd)
  | .mcEccError pa _ => decide (pa < memoryEnd)
  | .eccCorrectedWriteback pa => decide (pa < memoryEnd)
  | .mcPatrol _ units errs => decide (units.length = errs.length) && units.all fun pa => decide (pa < memoryEnd)
  | .mmuTranslate _ _ _ va _ => decide (va < 2 ^ 64)
  | .pageWalkDone _ _ _ va _ => decide (va < 2 ^ 64)
  | .depositBlockRx _ _ pkt _ _ => pkt.ok
  | .mirrorBlockRx _ _ _ pkt _ _ => pkt.ok
  | .pairHandshakeMsgRx _ body _ => body.length == 48
  | .engineAbortReached eng chan _ => engineCodeOk eng && (chan.isNone || (decide (0x20 ≤ eng) && decide (eng < 0x24)))
  | .codewordRx _ low high inits => lanesOk (low ++ high) && decide (inits.length ≤ 5) && inits.all InitPar.ok
  | .messagePacketRx _ k => k.ok
  | .messageCompletion _ src msgId => decide (src < 2 ^ 15) && decide (msgId < 2 ^ 32)
  | .reductionSlotOperand _ src msgId => decide (src < 2 ^ 15) && decide (msgId < 2 ^ 32)
  | .grantRx _ src op _ _ handle _ _ => ctrlOk src op && decide (handle < 2 ^ 32)
  | .countRx _ src op _ _ _ _ => ctrlOk src op
  | .endRx _ src op _ => ctrlOk src op
  | .abandonRx _ by_ op => ctrlOk by_.src op
  | .fencedNoticeRx _ op fenced => ctrlOk fenced op
  | .mmioRd _ addr size => linkOk addr size
  | .mmioWr addr _ data => linkOk addr data.length
  | .bxlData _ addr _ _ _ data => linkOk addr data.length
  | .cmp _ addr _ _ data => linkOk addr data.bytes.length
  | .xlateRsp _ addr _ _ _ _ => linkOk addr 0
  | .snpInv _ addr => linkOk addr 0
  | .snpShr _ addr => linkOk addr 0
  | .xlateInv _ addr _ _ => linkOk addr 0
  | .tftpBlockRx _ _ data => decide (data.length ≤ 1428)
  | .mgmtRegRead _ _ os => os.all offsetOk
  | .mgmtRegWrite _ _ ws => ws.all fun w => offsetOk w.1 && decide (w.2 < 2 ^ 32)
  | .mgmtCounterRead _ _ sels => sels.all fun x => decide (x < 2 ^ 32)
  | .setpoint _ _ _ start => decide (start < 2 ^ 64)
  | .mgmtMode _ _ _ start => decide (start < 2 ^ 64)
  | .trustSet _ _ _ _ fingerprint => decide (fingerprint < 2 ^ 384)
  | _ => true

end Sys2Proof
end

