-- ==== Sys2Proof/Safety.lean ====
section
/-!
DEFINITION. What counts as a safe command and a safe run: a command that the outside world can send and that the block
answers with a next state. The invariants and the frames that statements are about stand here too.
-/
namespace Sys2Proof.Machine

open Sys2Proof

/-! Completion -/

/-- A command is one that the outside world can send, and the block answers it with a next state. -/
def safe (c : Instr) (s : State) : Prop := wellFormed c = true ∧ ∃ t, exec c s = .next t

/-! Frames -/

/-- The parts of State, one for each field. -/
inductive Part where
  | pending | gtime | regs | hiCap | isl | mem | mmu | arr | vec | als | alsScrub | dss | dma | ctx | queues
  | holder | seq | outbox | draws | bxl | pwr | halted | life | link | port | rtr | xch | cat | nmu | pair
  | mgmt | pins | obs | bridge | flash
deriving DecidableEq, Repr

/-- Two states agree on a part. -/
def State.agrees (s t : State) : Part → Prop
  | .pending => t.pending = s.pending
  | .gtime => t.gtime = s.gtime
  | .regs => t.regs = s.regs
  | .hiCap => t.hiCap = s.hiCap
  | .isl => t.isl = s.isl
  | .mem => t.mem = s.mem
  | .mmu => t.mmu = s.mmu
  | .arr => t.arr = s.arr
  | .vec => t.vec = s.vec
  | .als => t.als = s.als
  | .alsScrub => t.alsScrub = s.alsScrub
  | .dss => t.dss = s.dss
  | .dma => t.dma = s.dma
  | .ctx => t.ctx = s.ctx
  | .queues => t.queues = s.queues
  | .holder => t.holder = s.holder
  | .seq => t.seq = s.seq
  | .outbox => t.outbox = s.outbox
  | .draws => t.draws = s.draws
  | .bxl => t.bxl = s.bxl
  | .pwr => t.pwr = s.pwr
  | .halted => t.halted = s.halted
  | .life => t.life = s.life
  | .link => t.link = s.link
  | .port => t.port = s.port
  | .rtr => t.rtr = s.rtr
  | .xch => t.xch = s.xch
  | .cat => t.cat = s.cat
  | .nmu => t.nmu = s.nmu
  | .pair => t.pair = s.pair
  | .mgmt => t.mgmt = s.mgmt
  | .pins => t.pins = s.pins
  | .obs => t.obs = s.obs
  | .bridge => t.bridge = s.bridge
  | .flash => t.flash = s.flash

/-- `t` differs from `s` in nothing but the parts listed. -/
def State.onlyIn (s t : State) (ps : List Part) : Prop := ∀ p, p ∉ ps → s.agrees t p

/-- `t` differs from `s` in the register words at the offsets `os` alone. -/
def State.onlyWords (s t : State) (os : List Nat) : Prop :=
  t = { s with regs := t.regs } ∧ ∀ o, o ∉ os → t.rget o = s.rget o

/-! Register writes -/

/-- A write by path `p` reaches a block's page: the device is out of reset, and the management controller writes the pages that R371
names alone (R371, R407, R412). -/
def State.reaches (s : State) (p : Path) (b : Block) : Prop :=
  s.pins.inReset = false ∧ (p = .mgmt → b ∈ [Block.pwr, .obs, .lnk, .rtr, .mc])

/-- A privileged write by path `p` reaches a block's page. -/
def State.controls (s : State) (p : Path) (b : Block) : Prop := p ≠ .host ∧ s.reaches p b

/-! Commands of a queue -/

/-- The command with ring index `n` of a queue has ended with a status. -/
def State.cmdEnded (s : State) (q n st : Nat) : Prop := ∃ d ∈ (s.queueOf q).cmds, d.n = n ∧ d.ended = true ∧ d.status = st

/-! Management -/

/-- A session that a message of class `cls` may come on: it is open, its class suffices, and no report is being made and no
message waits (R369–R372; log entry 141). -/
def State.mgmtReady (s : State) (sid cls : Nat) : Prop :=
  s.mgmtOpen = true ∧ s.mgmt.attest = [] ∧ s.mgmt.held = [] ∧
  ∃ x, (s.mgmt.sessions.find? fun x => x.id == sid) = some x ∧ cls ≤ x.cls

/-- The state in which a message of a session has been received now. -/
def State.heard (s : State) (sid : Nat) : State :=
  s.setSessions (s.mgmt.sessions.map fun y => if y.id == sid then { y with last := s.gtime } else y)

/-- A header that a request of a TYPE may have, with the length of its body where the manual gives one (R371). -/
def goodHead (m : MsgHead) (type : Nat) (body : Option Nat) : Prop :=
  m.type.val = type ∧ m.flags.val = 0 ∧ m.status.val = 0 ∧ m.reserved.val = 0 ∧ m.length ≤ 65536 ∧ ∀ n, body = some n → m.length = n

/-- The command `i` carries a message of a session. -/
def mgmtCarries (i : Instr) (sid : Nat) (m : MsgHead) : MgmtReq → Prop
  | .identity => i = .identity sid m
  | .attest nonce => i = .attest sid m nonce
  | .regRead os => i = .mgmtRegRead sid m os
  | .regWrite ws => i = .mgmtRegWrite sid m ws
  | .counterRead sels => i = .mgmtCounterRead sid m sels
  | .setpoint word start => i = .setpoint sid m word start
  | .mode word start => i = .mgmtMode sid m word start
  | .dcbWrite => i = .dcbWrite sid m
  | .depositRead off len => i = .depositRead sid m off len
  | .logRead off len => i = .logRead sid m off len
  | .trustSet k cls fingerprint => i = .trustSet sid m k cls fingerprint
  | .debugUnlock => i = .debugUnlock sid m

/-- The TYPE of a message, the class it needs, and the length of its body where the manual gives one (R371). -/
def mgmtRow : MgmtReq → Nat × Nat × Option Nat
  | .identity => (0x0001, clsRead, some 0)
  | .attest nonce => (0x0002, clsRead, some nonce.length)
  | .regRead os => (0x0003, clsRead, some (4 * os.length))
  | .regWrite ws => (0x0004, clsControl, some (8 * ws.length))
  | .counterRead sels => (0x0005, clsRead, some (4 * sels.length))
  | .setpoint _ _ => (0x0006, clsControl, none)
  | .mode _ _ => (0x0007, clsControl, none)
  | .dcbWrite => (0x0008, clsControl, none)
  | .depositRead _ _ => (0x0009, clsRead, none)
  | .logRead _ _ => (0x000A, clsRead, none)
  | .trustSet _ _ _ => (0x000B, clsControl, none)
  | .debugUnlock => (0x000C, clsControl, some 0)

/-- What a message reads has no row that is being copied (R174). -/
def mgmtClear (s : State) : MgmtReq → Prop
  | .depositRead off len => ∀ base, s.depositBase = some base → rowsBusy s (base + off) len = false
  | _ => True

/-! The mirror pair -/

/-- The messages that carry a handshake message of a KIND to a peer: fragments of 32 B, each with its index and their count (R367). -/
def handshakeMsgs (peer : Nat) (m : Nat × List Byte) : List Msg :=
  (List.range (ceilDiv m.2.length 32)).map fun i =>
    { kind := .pair, dest := peer, args := [0, m.1, i, ceilDiv m.2.length 32], data := ((m.2.drop (32 * i)).take 32 ++ leBytes 0 32).take 32 }

/-! Sequencers -/

/-- What a sequencer's fetch of the word at its PC gives: the state it then executes in, and the word (R233, R235). -/
def seqFetch (s : State) (n : SeqId) : Option (State × Nat) :=
  match seqRead s n (((s.seqOf n).list + 4 * (s.seqOf n).pc) % 2 ^ 64) 4 with
  | (u, .ok b p) => if p.any id then none else some (u.setSeq n { s.seqOf n with state := .run }, leNat b)
  | _ => none

/-- The state in which a sequencer executes the word it has fetched. -/
def seqNow (s : State) (n : SeqId) : State := ((seqFetch s n).map (·.1)).getD s

/-- Sequencer `n` runs, nothing holds it, and the word at its PC is `w`, a legal instruction with opcode `op` that no full trace
ring stalls (R233–R236, R240–R242). -/
structure seqExecutes (s : State) (n : SeqId) (op w : Nat) : Prop where
  runs : (s.seqOf n).state = .run ∨ (s.seqOf n).state = .stall
  free : s.islandHeld (seqIsland n) = false
  engines : engineFailure s n = none
  word : (seqFetch s n).map (·.2) = some w
  legal : seqIllegal n w = false
  opcode : w / 2 ^ 26 = op
  room : (s.traces n op && s.traceStalls n) = false

/-- After an instruction sequencer `n` is `q`, whatever its trace has lost, and no other sequencer has changed. -/
def seqIs (s : State) (n : SeqId) (q : Seq) (t : State) : Prop :=
  t.seqOf n = { q with traceLost := (t.seqOf n).traceLost } ∧ ∀ m, m ≠ n.val → t.seqOf m = s.seqOf m

/-- A sequencer that has stopped at a failure of its engines, if they have one: it drains with that status (R240). -/
def Seq.stoppedBy (q : Seq) (e : Option EndStatus) : Seq :=
  match e with
  | none => q
  | some x => if q.silent || q.ending.isSome then q else { q with state := .drain, ending := some x }

/-- A signed immediate of `k` bits. -/
def signed (k v : Nat) : Int := (BitVec.ofNat k v).toInt

/-- A 64-bit sum of a register and a signed quantity. -/
def plus64 (a : Nat) (b : Int) : Nat := (((a : Int) + b) % 2 ^ 64).toNat

/-! Invariants -/

/-- Every command that waits is one that the outside world can send. -/
def State.queueOk (s : State) : Prop := ∀ c ∈ s.pending, wellFormed c = true

/-- Device memory in its canonical form: addresses strictly rising, and no entry equal to what an unlisted byte reads as. -/
abbrev Memory.wf (m : Mem) : Prop := tabWf 0 m.bytes = true

/-- Every addressed store of the block in its canonical form: device memory, the ALS of each array, the DSS of each die, the
package flash. -/
structure State.tidy (s : State) : Prop where
  mem : Memory.wf s.mem
  als : ∀ n, tabWf 0 (s.alsOf n).bytes = true
  dss : ∀ d, tabWf 0 (s.dssOf d).bytes = true
  flash : tabWf 0 s.flash = true

end Sys2Proof.Machine
end

