-- ==== Sys2Proof/Machine/Footprint.lean ====
section
/-!
DEFINITION. The parts of State that each command may change: the union over all its paths.
-/
namespace Sys2Proof.Machine

open Sys2Proof

/-- The parts of State a command may change. -/
def footprint : Instr → List Part
  | .bridgeAttemptFail _ _ _ _ | .crossingSequenceFail _ | .feStateUncorrectable | .keyStoreUncorrectable _ =>
    [.regs, .mem, .arr, .outbox, .life, .pins, .obs, .bridge]
  | .fatalEnginesStopped | .fatalStopTimeout | .logFlush _ _ =>
    [.regs, .mem, .outbox, .life, .obs, .bridge]
  | .depositWriteDone =>
    [.regs, .mem, .outbox, .draws, .life, .obs, .bridge]
  | .ledgerSample =>
    [.regs, .mem, .outbox, .draws, .obs, .bridge]
  | .mmi _ =>
    [.regs, .isl, .mem, .mmu, .arr, .seq, .outbox, .draws, .bxl, .pwr, .bridge]
  | .bTileLoadDone _ | .mmAccumulationEnd _ | .preloadDone _ =>
    [.regs, .isl, .mem, .arr, .seq, .outbox, .pwr, .bridge]
  | .rampDownDone _ | .tableLoadDone _ | .rampUpDone _ =>
    [.regs, .mem, .arr, .seq, .outbox, .pwr, .bridge]
  | .epilogueStart _ =>
    [.regs, .arr]
  | .mmFirstRow _ =>
    [.isl, .arr, .pwr]
  | .spillEnd _ =>
    [.regs, .mem, .arr, .als, .seq, .outbox, .pwr, .bridge]
  | .epilogueEnd _ =>
    [.regs, .mem, .arr, .als, .ctx, .seq, .outbox, .pwr, .bridge]
  | .mmInstructionComplete _ =>
    [.regs, .arr, .ctx, .seq]
  | .arrRampCfgWrite _ _ _ | .qntClearTflag _ _ | .qntClearMiss _ _ | .alsScrubStart _ _ | .dssPartOwnerWrite _ _ _ _
  | .dmaChCfgWrite _ _ _ _ | .dmaTimerWrite _ _ _ _ | .dmaChStartWrite _ _ _ _ | .dmaResume _ _ _ | .dmaSkip _ _ _
  | .dmaAbort _ _ _ | .mmuMapWrite _ _ | .mmuInvalAll _ | .mmuInvalCtx _ _ | .mmuInvalPage _ _ | .doorbellWrite _ _ _
  | .cqHeadWrite _ _ _ | .regWrite _ | .kqCfgWrite _ _ _ | .seqTraceHeadWrite _ _ _ | .lnkEnable _ _ _
  | .lnkFence _ _ _ | .lnkRetrain _ _ | .lnkBond _ _ _ | .rtrEpochArm _ _ | .rtrTdataCommit _ _ | .rtrFenceWrite _ _
  | .histFreeze _ _ | .histClear _ | .catCtrlWrite _ _ | .mmioWr _ _ _ | .bxlVecMaskWrite _ _ _ | .bxlRetrain _
  | .mgmtRegWrite _ _ _ | .cntSelWrite _ _ _ _ | .errFirstClear _ _ | .intEnableWrite _ _ _ | .ctrlQuiesce _ _ _
  | .ctrlEnable _ _ _ | .ctrlBlockReset _ _ | .registerWrite _ _ _ =>
    [.regs, .isl, .mem, .mmu, .arr, .vec, .als, .alsScrub, .dma, .ctx, .queues, .seq, .outbox, .draws, .bxl, .pwr, .life, .link, .port, .rtr, .xch, .nmu, .mgmt, .obs, .bridge]
  | .holdRaise _ _ | .holdRelease _ =>
    [.regs, .isl, .mem, .arr, .vec, .als, .ctx, .seq, .outbox, .draws, .pwr, .rtr, .xch, .bridge]
  | .reservationGranted _ _ | .quietDebtPaid _ =>
    [.regs, .mem, .arr, .vec, .als, .ctx, .seq, .outbox, .draws, .pwr, .rtr, .xch, .bridge]
  | .accEccError _ _ _ _ _ =>
    [.regs, .mem, .arr, .outbox, .bridge]
  | .tld _ =>
    [.regs, .isl, .mem, .mmu, .arr, .seq, .outbox, .draws, .bxl, .bridge]
  | .vei _ =>
    [.regs, .isl, .mem, .mmu, .vec, .als, .ctx, .seq, .outbox, .draws, .bxl, .pwr, .bridge]
  | .vecInstructionEnd _ =>
    [.regs, .isl, .mem, .vec, .als, .ctx, .seq, .outbox, .draws, .pwr, .bridge]
  | .alsEccError _ _ _ =>
    [.regs, .mem, .als, .dss, .outbox, .bridge]
  | .alsScrubBegin _ =>
    [.alsScrub]
  | .alsScrubEnd _ =>
    [.regs, .mem, .vec, .als, .alsScrub, .ctx, .seq, .outbox, .draws, .pwr, .bridge]
  | .dssScrubEnd _ _ =>
    [.regs, .dss]
  | .dmaTimerExpiry _ _ =>
    [.regs, .dma]
  | .dmaDescriptorFetch _ _ | .dmaBurstReadDone _ _ _ =>
    [.regs, .isl, .mem, .mmu, .dma, .outbox, .bxl, .pwr, .bridge]
  | .dmaBurstIssue _ _ _ =>
    [.regs, .isl, .mem, .dma, .outbox, .bxl, .pwr, .bridge]
  | .dmaBurstWritten _ _ =>
    [.regs, .isl, .mem, .mmu, .als, .dss, .dma, .ctx, .outbox, .bxl, .pwr, .bridge]
  | .dmaTransferComplete _ _ =>
    [.regs, .isl, .dma, .bxl, .pwr]
  | .mcRead _ _ _ | .mcWrite _ _ _ | .dcbAreaWrite _ _ | .dcbCommit _ =>
    [.regs, .mem, .outbox, .bridge]
  | .mcEccError _ _ | .mcPatrol _ _ _ =>
    [.regs, .mem, .outbox, .draws, .life, .bridge]
  | .mcInterfaceError _ _ _ =>
    [.regs, .mem, .outbox, .life, .bridge]
  | .rowRetireDone _ _ _ =>
    [.regs, .hiCap, .isl, .mem, .mmu, .arr, .vec, .als, .alsScrub, .dma, .ctx, .queues, .seq, .outbox, .draws, .bxl, .pwr, .life, .link, .port, .rtr, .xch, .nmu, .mgmt, .obs, .bridge]
  | .mmuTranslate _ _ _ _ _ | .pageWalkDone _ _ _ _ _ =>
    [.regs, .mem, .mmu, .outbox, .bridge]
  | .invalidationComplete | .tlbInval _ =>
    [.mmu, .queues]
  | .nmuUpdate _ | .mirrorRedo _ =>
    [.regs, .isl, .mem, .mmu, .ctx, .queues, .outbox, .bxl, .pwr, .nmu, .bridge]
  | .nmuDescriptorFetch _ | .nmuBlockWritten _ | .mirrorDeposit _ | .mirrorSend _ =>
    [.regs, .isl, .mem, .mmu, .ctx, .queues, .outbox, .bxl, .pwr, .nmu, .pair, .bridge]
  | .mirrorBind _ =>
    [.regs, .queues, .outbox, .draws, .pair]
  | .pairHandshakeMsgRx _ _ _ =>
    [.outbox, .draws, .pair]
  | .pairHandshakeDone _ _ =>
    [.regs, .queues, .pair]
  | .mirrorAckRx _ _ =>
    [.regs, .queues, .pair, .bridge]
  | .depositBlockRx _ _ _ _ _ | .mirrorBlockRx _ _ _ _ _ _ =>
    [.regs, .mem, .mmu, .outbox, .bxl, .pair, .bridge]
  | .depositClose _ _ _ | .mirrorBlockWritten _ _ =>
    [.regs, .mem, .outbox, .pair, .bridge]
  | .mirrorStreamClose _ _ =>
    [.regs, .outbox, .pair]
  | .commandFetch _ =>
    [.regs, .mem, .mmu, .queues, .outbox, .draws, .bxl, .bridge]
  | .commandStart _ =>
    [.regs, .ctx, .queues, .obs]
  | .commandComplete _ | .flagsRead _ | .stepAdvance _ =>
    [.regs, .mem, .mmu, .ctx, .queues, .outbox, .bxl, .bridge]
  | .commandTimeout _ =>
    [.regs, .arr, .vec, .queues, .seq, .cat, .nmu, .pair]
  | .completionWriteFault _ =>
    [.regs, .mem, .queues, .outbox, .bridge]
  | .runList _ =>
    [.regs, .mem, .mmu, .queues, .seq, .outbox, .bxl, .bridge]
  | .dmaStart _ =>
    [.dma, .queues, .bridge]
  | .dmaAction _ =>
    [.regs, .isl, .dma, .queues, .bxl, .pwr, .bridge]
  | .fenceWait _ | .fencePoll _ =>
    [.regs, .mem, .mmu, .ctx, .queues, .outbox, .bxl, .obs, .bridge]
  | .fenceSignal _ | .counterRead _ | .gcounterRead _ =>
    [.regs, .mem, .mmu, .queues, .outbox, .bxl, .bridge]
  | .queueDestroyComplete _ =>
    [.regs, .mem, .mmu, .queues, .outbox, .bxl, .xch, .cat, .bridge]
  | .nop _ | .queueCreate _ | .queueResume _ =>
    [.queues]
  | .ctxCreate _ =>
    [.regs, .ctx, .queues]
  | .ctxDestroy _ =>
    [.regs, .ctx, .queues, .xch, .cat]
  | .queueDestroy _ =>
    [.regs, .arr, .vec, .queues, .seq, .xch, .cat, .nmu, .pair]
  | .engineAbortReached _ _ _ =>
    [.regs, .isl, .mem, .arr, .vec, .als, .dma, .ctx, .queues, .seq, .outbox, .draws, .bxl, .pwr, .rtr, .xch, .cat, .nmu, .obs, .bridge]
  | .queueDestroyDrained _ =>
    [.regs, .alsScrub, .ctx, .queues]
  | .arrayAssign _ =>
    [.regs, .isl, .mem, .arr, .vec, .als, .alsScrub, .dma, .ctx, .queues, .holder, .seq, .outbox, .draws, .pwr, .bridge]
  | .keyBind _ =>
    [.mem, .queues, .draws, .mgmt]
  | .memInit _ =>
    [.regs, .mem, .queues, .bridge]
  | .regRead _ =>
    [.regs, .hiCap, .mem, .mmu, .queues, .outbox, .bxl, .bridge]
  | .quantumExpiry _ =>
    [.holder]
  | .contextSwitchBegin _ =>
    [.regs, .mem, .arr, .vec, .als, .dma, .ctx, .holder, .outbox, .draws, .bridge]
  | .contextSwitchEnd _ =>
    [.regs, .mem, .arr, .als, .dma, .holder, .outbox, .draws, .bridge]
  | .add _ | .sub _ | .seqAnd _ | .seqOr _ | .seqXor _ | .shl _ | .shr _ | .mul _ | .sltu _ | .addi _ | .andi _
  | .ori _ | .shli _ | .shri _ | .ldh _ | .ld _ | .st _ | .lda _ | .beq _ | .bne _ | .bltu _ | .jmp _ | .call _
  | .ret _ | .lset _ | .lnext _ | .wait _ | .waitSatisfied _ | .fsig _ | .mark _ =>
    [.regs, .isl, .mem, .mmu, .seq, .outbox, .draws, .bxl, .bridge]
  | .sta _ =>
    [.regs, .isl, .mem, .mmu, .als, .seq, .outbox, .draws, .bxl, .bridge]
  | .xci _ =>
    [.regs, .isl, .mem, .mmu, .seq, .outbox, .draws, .bxl, .xch, .bridge]
  | .sig _ =>
    [.regs, .isl, .mem, .mmu, .dma, .seq, .outbox, .draws, .bxl, .bridge]
  | .seqEnd _ =>
    [.regs, .mem, .mmu, .seq, .outbox, .bxl, .bridge]
  | .sequencerDrained _ =>
    [.regs, .isl, .mem, .arr, .vec, .ctx, .queues, .seq, .outbox, .draws, .bxl, .bridge]
  | .signalDetect _ | .equalizeDone _ | .imageTransferBegin | .pwrBrakePulseFiltered =>
    [.regs]
  | .lockAchieved _ | .bxlHalfWidthTimeout _ =>
    [.regs, .outbox, .port]
  | .trainingTimeout _ | .retrainExpiry _ =>
    [.regs, .mem, .arr, .outbox, .bxl, .life, .link, .port, .pins, .obs, .bridge]
  | .failedRetry _ | .degradeCheck _ =>
    [.regs, .mem, .outbox, .life, .port, .bridge]
  | .probationEnd _ =>
    [.regs, .outbox, .link, .port, .rtr]
  | .creditTimer _ =>
    [.regs, .outbox, .link, .port]
  | .codewordRx _ _ _ _ | .replayTimeout _ =>
    [.regs, .mem, .outbox, .life, .link, .port, .rtr, .bridge]
  | .packetForward _ _ | .packetStallTimeout _ _ =>
    [.regs, .mem, .outbox, .link, .port, .rtr, .bridge]
  | .messagePacketRx _ _ | .combineRowsArrived _ =>
    [.regs, .mem, .mmu, .outbox, .bxl, .rtr, .xch, .bridge]
  | .messageCompletion _ _ _ | .grantRx _ _ _ _ _ _ _ _ | .countRx _ _ _ _ _ _ _ | .endRx _ _ _ _ | .abandonRx _ _ _
  | .fencedNoticeRx _ _ _ | .reductionSlotOperand _ _ _ | .lateDeadline _ | .dispatchCountsComplete _ =>
    [.regs, .mem, .mmu, .ctx, .outbox, .draws, .bxl, .pwr, .rtr, .xch, .bridge]
  | .epochAdvance | .histSample =>
    [.regs, .rtr]
  | .collective _ | .dispatch _ | .combine _ =>
    [.queues, .xch, .bridge]
  | .xchOpBegin _ | .xchOpEnd _ | .dispatchEnd _ =>
    [.regs, .mem, .mmu, .ctx, .queues, .seq, .outbox, .draws, .bxl, .pwr, .rtr, .xch, .cat, .bridge]
  | .earlyPacketExpiry _ =>
    [.regs, .mem, .outbox, .xch, .bridge]
  | .catLoad _ =>
    [.queues, .cat]
  | .catLoadBegin =>
    [.regs, .cat]
  | .catLoadDone =>
    [.regs, .mem, .mmu, .queues, .outbox, .bxl, .cat, .bridge]
  | .seedSet _ =>
    [.ctx, .queues]
  | .mmioRd _ _ _ | .registerLoRead _ _ =>
    [.regs, .hiCap, .mem, .outbox, .bridge]
  | .bxlData _ _ _ _ _ _ | .cmp _ _ _ _ _ | .xlateRsp _ _ _ _ _ _ | .snpInv _ _ | .snpShr _ _ | .xlateInv _ _ _ _
  | .bxlResponseTimeout _ =>
    [.regs, .mem, .outbox, .bxl, .bridge]
  | .bootGo =>
    [.regs, .bxl, .mgmt]
  | .bootImageLoaded =>
    [.regs, .outbox, .bxl, .mgmt]
  | .pwrSetpoint _ | .pwrMode _ =>
    [.isl, .queues, .pwr]
  | .setpointActivation | .capRecompute _ | .ceilingAdjust _ =>
    [.isl, .pwr]
  | .currentEstimate _ | .pwrBrakeAssert =>
    [.regs, .isl, .pwr]
  | .dutyTrim _ _ | .pwrBrakeRelease | .vrAlertRelease _ | .ppsLockLoss =>
    [.pwr]
  | .vrAlertAssert _ | .gtimeSetArm _ _ =>
    [.regs, .mem, .outbox, .pwr, .bridge]
  | .droopDetect _ =>
    [.regs, .isl]
  | .thermalSample _ _ =>
    [.regs, .mem, .outbox, .pwr, .halted, .life, .pins, .obs, .bridge]
  | .ppsEdge =>
    [.gtime, .regs, .mem, .outbox, .pwr, .bridge]
  | .pkgResetAssert | .pwrGoodFall =>
    [.regs, .hiCap, .isl, .mem, .mmu, .arr, .vec, .als, .alsScrub, .dss, .dma, .ctx, .queues, .holder, .seq, .bxl, .pwr, .halted, .life, .link, .port, .rtr, .xch, .cat, .nmu, .pair, .mgmt, .pins, .obs, .bridge, .flash]
  | .pkgResetRelease =>
    [.pins]
  | .pwrGoodRise =>
    [.mgmt, .pins]
  | .effectiveResetRelease _ =>
    [.gtime, .regs, .halted, .mgmt, .pins]
  | .colophonVerifyDone _ _ =>
    [.regs, .pwr, .halted, .mgmt, .pins]
  | .pufUnwrapDone _ =>
    [.regs, .mem, .outbox, .halted, .life, .port, .mgmt, .pins, .bridge]
  | .imageVerifyDone _ _ _ | .tftpBlockRx _ _ _ | .tftpTimeout =>
    [.regs, .outbox, .mgmt]
  | .attestReportDone =>
    [.regs, .hiCap, .isl, .mem, .mmu, .arr, .vec, .als, .alsScrub, .dma, .ctx, .queues, .seq, .outbox, .draws, .bxl, .pwr, .life, .link, .port, .rtr, .xch, .cat, .nmu, .pair, .mgmt, .obs, .bridge]
  | .fwInitDone _ _ =>
    [.regs, .isl, .mem, .outbox, .draws, .life, .mgmt, .pins, .obs, .bridge]
  | .dhcpOfferRx _ _ | .dhcpRetry | .identity _ _ | .attest _ _ _ | .mgmtCounterRead _ _ _ | .dcbWrite _ _
  | .logRead _ _ _ _ | .trustSet _ _ _ _ _ | .smbusRead _ _ _ _ =>
    [.outbox, .mgmt]
  | .dcbCheckDone =>
    [.regs, .mem, .queues, .outbox, .life, .link, .port, .mgmt, .bridge]
  | .mgmtSessionOpen _ _ =>
    [.regs, .outbox, .draws, .mgmt]
  | .sessionIdleTimeout _ | .smbusRefresh =>
    [.mgmt]
  | .mgmtRegRead _ _ _ =>
    [.regs, .hiCap, .mem, .outbox, .mgmt, .bridge]
  | .setpoint _ _ _ _ | .mgmtMode _ _ _ _ =>
    [.isl, .outbox, .pwr, .mgmt]
  | .depositRead _ _ _ _ =>
    [.regs, .mem, .outbox, .mgmt, .bridge]
  | .debugUnlock _ _ =>
    [.regs, .mem, .arr, .vec, .queues, .seq, .outbox, .cat, .nmu, .pair, .mgmt]
  | .logPeriodicWrite =>
    [.regs, .life, .obs]
  | .logWriteDone =>
    [.regs, .life, .obs, .flash]
  | .lifetimeSecondTick _ _ =>
    [.life, .obs]
  | .marginMeasure _ _ =>
    [.regs, .isl, .life, .obs]
  | .quiesceComplete _ =>
    [.isl]
  | .blockResetDone _ =>
    [.regs, .isl, .mem, .arr, .vec, .als, .alsScrub, .dss, .ctx, .seq, .outbox, .draws, .pwr, .rtr, .xch, .bridge]
  | .mgmtControllerFault =>
    [.regs, .mem, .outbox, .halted, .life, .mgmt, .pins, .obs, .bridge]
  | .bxlTagRetirementEnd _ =>
    [.bxl]
  | .eccCorrectedWriteback _ =>
    [.mem]
  | .smbusWrite _ =>
    [.outbox]
  | .testPortAccess _ =>
    [.outbox, .pins]

end Sys2Proof.Machine
end

