-- ==== Sys2Proof/Certificates/Slice0/Obligations.lean ====
section
/-!
DEFINITION. The statements of this row, for the provers.
-/
open Sys2Proof Sys2Proof.Machine

/-- The queue: a step serves the command at its front, on the state with the queue's rest.
The model's readings it rests on: log entry 3. -/
def Obligations.StepServesFront : Prop :=
  ∀ (s : State) (c : Instr) (cs : List Instr), s.pending = c :: cs → step s = exec c { s with pending := cs }

/-- R234, R236: what the register instructions leave in rd, for every form. s0 reads as zero and discards writes; everything else of
the sequencer but its PC is as before, and so is every other sequencer.
Completes: exec answers a next state, under conditions on the state and the operands alone, for `add`, `sub`, `seqAnd`, `seqOr`, `seqXor`, `shl`,
`shr`, `mul`, `sltu`, `addi`, `andi`, `ori`, `shli`, `shri`, `ldh`.
The model's readings it rests on: log entry 79. -/
def Obligations.SeqRegisterResults : Prop :=
  ∀ (s : State) (n : SeqId) (w : Nat), (s.seqOf n).pc + 1 < 2 ^ 24 →
    let q := s.seqOf n
    let a := q.reg (bits w 16 5)
    let b := q.reg (bits w 11 5)
    let imm := bits w 0 16
    let rows : List (Nat × Instr × Nat) :=
      [(0x01, .add n, (a + b) % 2 ^ 64), (0x02, .sub n, plus64 a (-b)), (0x03, .seqAnd n, a &&& b), (0x04, .seqOr n, a ||| b),
       (0x05, .seqXor n, a ^^^ b), (0x06, .shl n, a * 2 ^ (b % 64) % 2 ^ 64), (0x07, .shr n, a / 2 ^ (b % 64)),
       (0x08, .mul n, a * b % 2 ^ 64), (0x09, .sltu n, if a < b then 1 else 0), (0x10, .addi n, plus64 a (signed 16 imm)),
       (0x11, .andi n, a &&& imm), (0x12, .ori n, a ||| imm), (0x13, .shli n, a * 2 ^ (imm % 64) % 2 ^ 64),
       (0x14, .shri n, a / 2 ^ (imm % 64)),
       (0x15, .ldh n, withBits (q.reg (bits w 21 5)) (16 * bits w 16 2) 16 imm)]
    ∀ r ∈ rows, seqExecutes s n r.1 w →
      ∃ t, exec r.2.1 s = .next t ∧ seqIs s n { q.setReg (bits w 21 5) r.2.2 with state := .run, pc := q.pc + 1 } t

/-- R234, R236: LD loads the doubleword it reads at ra + 8 × imm into rd; LDA the word at ra + 4 × imm of the island's ALS.
Completes: exec answers a next state, under conditions on the state and the operands alone, for `ld`, `lda`.
The model's readings it rests on: log entry 79. -/
def Obligations.SeqLoads : Prop :=
  ∀ (s : State) (n : SeqId) (w : Nat), (s.seqOf n).pc + 1 < 2 ^ 24 →
    let q := s.seqOf n
    let d := plus64 (q.reg (bits w 16 5)) (8 * signed 16 (bits w 0 16))
    let a := plus64 (q.reg (bits w 16 5)) (4 * signed 16 (bits w 0 16))
    (seqExecutes s n 0x18 w → d % 8 = 0 → ∀ u b p, seqRead (seqNow s n) n d 8 = (u, .ok b p) → p.any id = false →
      ∃ t, exec (.ld n) s = .next t ∧ seqIs s n { q.setReg (bits w 21 5) (leNat b) with state := .run, pc := q.pc + 1 } t) ∧
    (seqExecutes s n 0x1A w → (seqNow s n).alsBlocked n = false → a % 4 = 0 → a + 4 ≤ 2 ^ 25 → (s.alsOf n).poisoned a 4 = none →
      ∃ t, exec (.lda n) s = .next t ∧ t.als = s.als ∧
        seqIs s n { q.setReg (bits w 21 5) (leNat ((s.alsOf n).read a 4)) with state := .run, pc := q.pc + 1 } t)

/-- R236, R238, R239: ST stores rd at ra + 8 × imm in memory, as the write of those eight bytes leaves it; STA its low word at
ra + 4 × imm of the island's ALS, which keeps every other byte; FSIG leaves the fence as FENCE_SIGNAL does; none of them changes a register.
Completes: exec answers a next state, under conditions on the state and the operands alone, for `st`, `sta`, `fsig`.
The model's readings it rests on: log entry 79. -/
def Obligations.SeqStores : Prop :=
  ∀ (s : State) (n : SeqId) (w : Nat), (s.seqOf n).pc + 1 < 2 ^ 24 →
    let q := s.seqOf n
    let d := plus64 (q.reg (bits w 16 5)) (8 * signed 16 (bits w 0 16))
    let a := plus64 (q.reg (bits w 16 5)) (4 * signed 16 (bits w 0 16))
    let f := q.reg (bits w 16 5)
    let v := seqNow s n
    (seqExecutes s n 0x19 w → d % 8 = 0 →
      ∀ u b p, memWrite v (agSeq n) (seqDie n) reqSeq q.ctx d (leBytes (q.reg (bits w 21 5)) 8) = (u, .ok b p) → u.traces n 0x19 = false →
      ∃ t, exec (.st n) s = .next t ∧ t.mem = u.mem ∧ seqIs s n { q with state := .run, pc := q.pc + 1 } t) ∧
    (seqExecutes s n 0x1B w → v.alsBlocked n = false → a % 4 = 0 → a + 4 ≤ 2 ^ 25 → (s.alsOf n).poisoned a 4 = none →
      ∃ t, exec (.sta n) s = .next t ∧ seqIs s n { q with state := .run, pc := q.pc + 1 } t ∧
        (∀ m, m ≠ n.val → t.alsOf m = s.alsOf m) ∧
        ∀ k, tabGet 0 (t.alsOf n).bytes k =
          if a ≤ k ∧ k < a + 4 then BitVec.ofNat 8 (q.reg (bits w 21 5) / 2 ^ (8 * (k - a))) else tabGet 0 (s.alsOf n).bytes k) ∧
    (seqExecutes s n 0x32 w → f % 8 = 0 →
      ∀ u b p, fenceMax v (agSeq n) (seqDie n) reqSeq q.ctx f (q.reg (bits w 11 5)) = (u, .ok b p) → p.any id = false →
      u.traces n 0x32 = false →
      ∃ t, exec (.fsig n) s = .next t ∧ t.mem = u.mem ∧ seqIs s n { q with state := .run, pc := q.pc + 1 } t)

/-- R234–R236: where a branch goes, taken or not; CALL pushes the PC after it, RET pops; LSET sets a loop counter and LNEXT counts it
down, going back while it is not zero.
Completes: exec answers a next state, under conditions on the state and the operands alone, for `beq`, `bne`, `bltu`, `jmp`, `call`, `ret`,
`lset`, `lnext`.
The model's readings it rests on: log entry 79. -/
def Obligations.SeqBranches : Prop :=
  ∀ (s : State) (n : SeqId) (w : Nat),
    let q := s.seqOf n
    let a := q.reg (bits w 16 5)
    let d := q.reg (bits w 21 5)
    let off := signed 16 (bits w 0 16)
    let far := signed 26 (bits w 0 26)
    let c := bits w 21 2
    let lc := tabGet 0 q.lc c
    let rows : List (Nat × Instr × Bool × Int × Seq) :=
      [(0x20, .beq n, true, if d = a then off else 1, q), (0x21, .bne n, true, if d ≠ a then off else 1, q),
       (0x22, .bltu n, true, if d < a then off else 1, q), (0x23, .jmp n, true, far, q),
       (0x24, .call n, decide (q.stack.length < 8), far, { q with stack := (q.pc + 1) :: q.stack }),
       (0x25, .ret n, !q.stack.isEmpty, (q.stack.headD 0 : Int) - q.pc, { q with stack := q.stack.tail }),
       (0x26, .lset n, true, 1, { q with lc := tabSet 0 q.lc c (a % 2 ^ 32) }),
       (0x27, .lnext n, true, if lc ≤ 1 then 1 else off, { q with lc := if lc = 0 then q.lc else tabSet 0 q.lc c (lc - 1) })]
    ∀ r ∈ rows, seqExecutes s n r.1 w → r.2.2.1 = true → 0 ≤ (q.pc : Int) + r.2.2.2.1 → (q.pc : Int) + r.2.2.2.1 < 2 ^ 24 →
      ∃ t, exec r.2.1 s = .next t ∧ seqIs s n { r.2.2.2.2 with state := .run, pc := ((q.pc : Int) + r.2.2.2.1).toNat } t

/-- R237, R240: MMI and VEI hand the engine the descriptor at ALS address ra, read at issue, which waits behind what executes; one that
fails as it is issued stops the sequencer. TLD starts the load of rb's entries from ra; XCI joins its half's start queue.
Completes: exec answers a next state, under conditions on the state and the operands alone, for `mmi`, `vei`, `tld`, `xci`.
The model's readings it rests on: log entries 79, 196, 209. -/
def Obligations.SeqIssues : Prop :=
  ∀ (s : State) (n : SeqId) (w : Nat), (s.seqOf n).pc + 1 < 2 ^ 24 →
    let q := s.seqOf n
    let v := seqNow s n
    let a := q.reg (bits w 16 5)
    let b := q.reg (bits w 11 5)
    let done := { q with state := .run, pc := q.pc + 1 }
    let seed := seqSeed v n
    (seqExecutes s n 0x28 w → mmRoom (s.arrOf n) = true → v.alsBlocked n = false →
      ∃ t, exec (.mmi n) s = .next t ∧ seqIs s n (done.stoppedBy (engineFailure t n)) t ∧ ((s.arrOf n).exec.isSome → (s.arrOf n).state ≠ .idle →
        (s.arrOf n).state ≠ .held →
        (t.arrOf n).wait = some (readMm (s.alsOf n) a seed.1 seed.2 (s.arrOf n).tldIssued))) ∧
    (seqExecutes s n 0x29 w → vecRoom (s.vecOf n) = true → v.alsBlocked n = false →
      ∃ t, exec (.vei n) s = .next t ∧ seqIs s n (done.stoppedBy (engineFailure t n)) t ∧ ((s.vecOf n).exec.isSome →
        (t.vecOf n).wait = some (readVec (s.alsOf n) a seed.1 seed.2))) ∧
    (seqExecutes s n 0x2A w → bits b 0 17 ≠ 0 → bits b 0 17 ≤ 65536 → bits b 17 16 + bits b 0 17 ≤ 65536 →
      (s.arrOf n).tableLoad = none → v.alsBlocked n = false →
      ∃ t, exec (.tld n) s = .next t ∧ seqIs s n done t ∧
        t.arrOf n = { s.arrOf n with tldIssued := (s.arrOf n).tldIssued + 1
                                     tableLoad := some ⟨a, bits b 17 16, bits b 0 17, (s.arrOf n).tldIssued + 1, []⟩ }) ∧
    (seqExecutes s n 0x2B w → (tabGet [] s.xch.queue (n.val - 24)).length < 4 → v.traces n 0x2B = false →
      ∃ t, exec (.xci n) s = .next t ∧ seqIs s n { done with xops := q.xops + 1 } t ∧
        tabGet [] t.xch.queue (n.val - 24) = tabGet [] s.xch.queue (n.val - 24) ++
          [{ kind := 15, addr := a, ctx := q.ctx, seq := some n.val, queue := q.queue, cmd := q.cmd }])

/-- R238, R239: SIG of kind 1 adds COUNT to an event counter of a sequencer of the same list; WAIT goes on when its count has been
reached and otherwise waits, and WAIT_SATISFIED releases it. The counts are those of the own sequencer.
Completes: exec answers a next state, under conditions on the state and the operands alone, for `wait`, `sig`, `waitSatisfied`.
The model's readings it rests on: log entries 77, 79. -/
def Obligations.SeqSignalsAndWaits : Prop :=
  ∀ (s : State) (n : SeqId) (w : Nat), (s.seqOf n).pc + 1 < 2 ^ 24 →
    let q := s.seqOf n
    let v := seqNow s n
    let a := q.reg (bits w 16 5)
    let done := { q with state := .run, pc := q.pc + 1 }
    let reached := fun (x target : Nat) => (2 ^ 32 + x - target % 2 ^ 32) % 2 ^ 32 < 2 ^ 31
    let count := fun (x : State) (k r : Nat) => if k = 0 then x.ch (32 * bits r 0 2 + bits r 2 5) 0x18 else
      if k = 1 then tabGet 0 q.ev (r % 8) else if k = 2 then q.mdone else if k = 3 then q.vdone else
      if k = 4 then q.tdone else q.xdone
    let waiting := { q with state := .wait, waitSrc := bits w 22 4, waitWord := w }
    (seqExecutes s n 0x30 w → bits w 0 8 ≠ 0 → bits w 24 2 = 0 → v.chValid (32 * bits a 0 2 + bits a 2 5) = true →
      v.chCtx (32 * bits a 0 2 + bits a 2 5) = q.ctx →
      ∃ t, exec (.sig n) s = .next t ∧ seqIs s n done t ∧
        t.chOf (32 * bits a 0 2 + bits a 2 5) =
          { s.chOf (32 * bits a 0 2 + bits a 2 5) with
            pending := min ((s.chOf (32 * bits a 0 2 + bits a 2 5)).pending + bits w 0 8) 255
            overrun := (s.chOf (32 * bits a 0 2 + bits a 2 5)).overrun ||
              decide ((s.chOf (32 * bits a 0 2 + bits a 2 5)).pending + bits w 0 8 > 255) }) ∧
    (∀ m, seqExecutes s n 0x30 w → bits w 0 8 ≠ 0 → bits w 24 2 = 1 → bits a 0 5 < 26 → q.engines.testBit (bits a 0 5) = true →
      sibling v q (bits a 0 5) = some m → (m < 20 → v.islandStopped m = false) →
      ∃ t, exec (.sig n) s = .next t ∧ (t.seqOf n).pc = q.pc + 1 ∧ (t.seqOf n).regs = q.regs ∧
        (t.seqOf m).ev = tabSet 0 (s.seqOf m).ev (bits a 5 3) ((tabGet 0 (s.seqOf m).ev (bits a 5 3) + bits w 0 8) % 2 ^ 32) ∧
        ∀ k, k ≠ n.val → k ≠ m → t.seqOf k = s.seqOf k) ∧
    (seqExecutes s n 0x31 w → bits w 22 4 ≤ 5 → reached (count v (bits w 22 4) a) (q.reg (bits w 11 5)) →
      ∃ t, exec (.wait n) s = .next t ∧ seqIs s n done t) ∧
    (seqExecutes s n 0x31 w → bits w 22 4 ≤ 5 → ¬reached (count v (bits w 22 4) a) (q.reg (bits w 11 5)) →
      ∃ t, exec (.wait n) s = .next t ∧ seqIs s n waiting t) ∧
    (∀ u x, seqExecutes s n 0x31 w → bits w 22 4 = 6 → fenceRead v n a = (u, .ok x) →
      ∃ t, exec (.wait n) s = .next t ∧ seqIs s n (if q.reg (bits w 11 5) ≤ x then done else waiting) t) ∧
    (q.state = .wait → s.islandHeld (seqIsland n) = false → engineFailure s n = none → bits q.waitWord 22 4 ≤ 5 →
      reached (count s (bits q.waitWord 22 4) (q.reg (bits q.waitWord 16 5))) (q.reg (bits q.waitWord 11 5)) →
      (s.traces n 0x31 && s.traceStalls n) = false →
      ∃ t, exec (.waitSatisfied n) s = .next t ∧ seqIs s n done t)

/-- R236, R240, R242: MARK goes on to the next word; END drains; a drained sequencer becomes idle and its engine reports: its list's command
names it no more, or has ended.
Completes: exec answers a next state, under conditions on the state and the operands alone, for `mark`, `seqEnd`, `sequencerDrained`.
The model's readings it rests on: log entries 76, 79. -/
def Obligations.SeqEnds : Prop :=
  ∀ (s : State) (n : SeqId) (w : Nat),
    let q := s.seqOf n
    (seqExecutes s n 0x33 w → q.pc + 1 < 2 ^ 24 →
      ∃ t, exec (.mark n) s = .next t ∧ seqIs s n { q with state := .run, pc := q.pc + 1 } t) ∧
    (seqExecutes s n 0x3F w → ∃ t, exec (.seqEnd n) s = .next t ∧ seqIs s n { q with state := .drain } t) ∧
    (q.state = .drain → engineFailure s n = none → seqQuiet s n = true → s.endStalls n = false → q.ending = none → q.silent = false →
      ∃ t, exec (.sequencerDrained n) s = .next t ∧ (t.seqOf n).state = .idle ∧
        (t.queueOf q.queue).cmds.length = (s.queueOf q.queue).cmds.length ∧
        ∀ e ∈ (t.queueOf q.queue).cmds, e.n = q.cmd → e.ended = true ∨ seqCode n ∉ e.engines)

/-- R9, R70, R114, R139, R242, R418: what the writes of an array group's registers leave while its island runs: the ramp length from 16
to 64, logged otherwise; the two QNT clears, by any path; a scrub requested, while what has been served keeps what it met; the trace head of any
sequencer. The host's write of any of them but the clears is logged.
R9, R418: a write of a stopped array island's page waits for the island, in order; the pages of a disabled array take none, and the
access is counted and recorded.
R371, R407, R412: neither the management controller's write nor one in reset changes anything there.
Completes: exec answers a next state, under conditions on the state and the operands alone, for `arrRampCfgWrite`, `qntClearTflag`,
`qntClearMiss`, `alsScrubStart`, `seqTraceHeadWrite`.
The model's readings it rests on: log entries 19, 26, 38, 45, 153. -/
def Obligations.ArrayIslandWrites : Prop :=
  (∀ (s : State) (p : Path) (n : ArrayId) (v : W32), s.reaches p .arr → s.arrayDisabled n = false → s.islandStopped n = false →
     let len := bits v.toNat 0 7
     (p ≠ .host → 16 ≤ len → len ≤ 64 → exec (.arrRampCfgWrite p n v) s = .next (s.setReg .arr n 0x100 len)) ∧
     (p = .host ∨ len < 16 ∨ 64 < len → exec (.arrRampCfgWrite p n v) s = .next (logIgnored s .arr n (pageBase .arr n + 0x100))) ∧
     exec (.qntClearTflag p n) s = .next ((s.setReg .qnt n 0x100 0).setReg .qnt n 0x104 0) ∧
     exec (.qntClearMiss p n) s = .next ((s.setReg .qnt n 0x10C 0).setReg .qnt n 0x110 0) ∧
     (p ≠ .host → s.alsBlocked n = false →
       ∃ t, exec (.alsScrubStart p n) s = .next t ∧ t.alsBlocked n = true ∧ t.alsScrubbing n = false ∧
         (∀ m, m ≠ n.val → t.alsBlocked m = s.alsBlocked m) ∧
         ((s.vecOf n).exec = none ∨ (s.vecOf n).held = true → (∀ x ∈ (s.arrOf n).post, x.spill ≠ .running ∧ x.epi ≠ .running) →
           t = { s with alsScrub := t.alsScrub, arr := t.arr, dma := t.dma, draws := t.draws } ∧ (t.arrOf n).acc = (s.arrOf n).acc ∧
           (∀ m, m ≠ n.val → t.arrOf m = s.arrOf m) ∧ ∀ k, t.chOf k = { s.chOf k with seen := (t.chOf k).seen })) ∧
     ∀ m : SeqId, p ≠ .host → (m.val < 20 → m.val = n.val) → exec (.seqTraceHeadWrite p m v) s = .next (s.setSeqReg m 0x20 v.toNat)) ∧
  (∀ (s : State) (n : ArrayId) (v : W32), s.pins.inReset = false → s.arrayDisabled n = false →
     exec (.alsScrubStart .host n) s = .next (logIgnored s .als n (pageBase .als n + 0x100)) ∧
     exec (.arrRampCfgWrite .host n v) s = .next (logIgnored s .arr n (pageBase .arr n + 0x100)) ∧
     (∀ m : SeqId, (m.val < 20 → m.val = n.val) → let pg := seqPage m
       exec (.seqTraceHeadWrite .host m v) s = .next (logIgnored s pg.1 pg.2.1 (pageBase pg.1 pg.2.1 + pg.2.2 + 0x20))) ∧
     (s.islandStopped n = true → ∀ r ∈ [(Instr.qntClearTflag .host n, 1), (.qntClearMiss .host n, 2)],
       exec r.1 s = .next (s.setIsl n { s.islOf n with writes := (s.islOf n).writes ++ [(pageBase .qnt n + 0x108, r.2, false)] }))) ∧
  (∀ (s : State) (p : Path) (n : ArrayId) (v : W32),
     let rows : List (Instr × Nat × Nat) :=
       [(.arrRampCfgWrite p n v, pageBase .arr n + 0x100, v.toNat), (.qntClearTflag p n, pageBase .qnt n + 0x108, 1),
        (.qntClearMiss p n, pageBase .qnt n + 0x108, 2), (.alsScrubStart p n, pageBase .als n + 0x100, 1),
        (.seqTraceHeadWrite p ⟨n.val, by omega⟩ v, pageBase .seq n + 0x120, v.toNat)]
     ∀ r ∈ rows,
       (s.controls p .arr → s.arrayDisabled n = false → s.islandStopped n = true →
         exec r.1 s = .next (s.setIsl n { s.islOf n with writes := (s.islOf n).writes ++ [(r.2.1, r.2.2, true)] })) ∧
       (s.reaches p .arr → s.arrayDisabled n = true →
         exec r.1 s = .next (capture (s.bump .dev 0 0x120 1) .dev 0
           { sev := sevLogged, addr := r.2.1, info := 0x102 + 0x200 * pathCode p })) ∧
       (¬s.reaches p .arr → exec r.1 s = .next s))

/-- R140, R141, R145, R146: the writes of a die group's registers: a partition's owner, with a scrub where CTX or VALID change; a
channel's configuration, its timer, its starts.
R152: the three ends of a halt. A resume takes the channel up where it stopped; a skip goes on after the latched burst, or completes
the transfer; an abort leaves the descriptor and its starts. Each clears FAULT.VALID. A channel that is not HALTED takes nothing but the written word, and logs the action.
R371, R407, R412: neither the management controller's write nor one in reset changes anything there.
Completes: exec answers a next state, under conditions on the state and the operands alone, for `dssPartOwnerWrite`, `dmaChCfgWrite`,
`dmaTimerWrite`, `dmaChStartWrite`, `dmaResume`, `dmaSkip`, `dmaAbort`.
The model's readings it rests on: log entries 22, 25, 39, 41, 153. -/
def Obligations.DieIslandWrites : Prop :=
  (∀ (s : State) (p : Path) (d : DieId) (c : ChanId) (v : W32), s.controls p .dma →
     let k := 32 * d.val + c.val
     let w := v.toNat
     let others := ((List.range 32).map fun i => if i ≠ c.val && s.chValid (32 * d.val + i) then s.chQuota (32 * d.val + i) else 0).sum
     let quotaOk := bits w 8 7 ≠ 0 ∧ others + bits w 8 7 ≤ 64
     (∀ part : Fin 16, exec (.dssPartOwnerWrite p d part v) s = .next (s.setReg .dss d (0x100 + 4 * part)
       (bits w 0 7 + if bits w 0 7 ≠ bits (s.part d part) 0 7 ∨ s.partBusy d part = true then 128 else 0))) ∧
     (w.testBit 6 = true → quotaOk → ∃ t, exec (.dmaChCfgWrite p d c v) s = .next t ∧ t = { s with regs := t.regs, dma := t.dma } ∧
       t.ch k 0 = bits w 0 15 ∧ t.chOf k = { s.chOf k with state := if (s.chOf k).state = .disabled then .idle else (s.chOf k).state } ∧
       ∀ j, j ≠ k → t.chOf j = s.chOf j) ∧
     (w.testBit 6 = false → s.chValid k = false ∨ (s.chOf k).state = .idle →
       ∃ t, exec (.dmaChCfgWrite p d c v) s = .next t ∧ t = { s with regs := t.regs, dma := t.dma } ∧
       t.ch k 0 = bits w 0 15 ∧ t.chOf k = { s.chOf k with state := .disabled }) ∧
     (w.testBit 6 = true ∧ ¬quotaOk ∨ w.testBit 6 = false ∧ s.chValid k = true ∧ (s.chOf k).state ≠ .idle →
       exec (.dmaChCfgWrite p d c v) s = .next (logIgnored s .dma d (pageBase .dma d + 0x400 + 0x40 * c))) ∧
     (∃ t, exec (.dmaTimerWrite p d c v) s = .next t ∧
       s.onlyWords t [pageBase .dma d + 0x40C + 0x40 * c, pageBase .dma d + 0x410 + 0x40 * c] ∧
       t.ch k 0xC = bits w 0 24 ∧ bits (t.ch k 0x10) 16 16 = 0 ∧ bits (t.ch k 0x10) 0 16 = bits (s.ch k 0x10) 0 16) ∧
     ∀ n : Fin 256, n.val ≠ 0 → ∃ t, exec (.dmaChStartWrite p d c n) s = .next t ∧ t = { s with regs := t.regs, dma := t.dma } ∧
       (∀ o, o ≠ pageBase .dma d + 0x41C + 0x40 * c → t.rget o = s.rget o) ∧
       t.chOf k = { s.chOf k with pending := min ((s.chOf k).pending + n) 255
                                  overrun := (s.chOf k).overrun || decide ((s.chOf k).pending + n > 255) } ∧
       ∀ j, j ≠ k → t.chOf j = s.chOf j) ∧
  (∀ (s : State) (p : Path) (d : DieId) (c : ChanId), s.controls p .dma →
     let k := 32 * d.val + c.val
     let x := s.chOf k
     let fault := bits (s.ch k 0x20) 0 6
     (x.state = .halted →
       (∃ t, exec (.dmaResume p d c) s = .next t ∧ t.ch k 0x20 = fault ∧
         t.chOf k = { x with state := .active, fetching := x.desc.isNone, faulted := none } ∧ ∀ j, j ≠ k → t.chOf j = s.chOf j) ∧
       (∀ y, x.desc = some y → dDecomp y = false → x.written + 1 < (burstsOf y).length →
         ∃ t, exec (.dmaSkip p d c) s = .next t ∧ t.ch k 0x20 = fault ∧
           t.chOf k = { x with state := .active, written := x.written + 1, skipped := x.skipped + 1 } ∧ ∀ j, j ≠ k → t.chOf j = s.chOf j) ∧
       ((∀ y, x.desc = some y → dDecomp y = true ∨ (burstsOf y).length ≤ x.written + 1) →
         ∃ t, exec (.dmaSkip p d c) s = .next t ∧ t.ch k 0x20 = fault ∧ t.ch k 0x18 = (s.ch k 0x18 + 1) % 2 ^ 32 ∧
           (t.chOf k).state = .idle ∧ (t.chOf k).desc = none ∧ (t.chOf k).next = (x.next + 1) % max (s.chListLen k) 1) ∧
       (∃ t, exec (.dmaAbort p d c) s = .next t ∧ t.ch k 0x20 = fault ∧ (t.chOf k).state = .idle ∧ (t.chOf k).desc = none ∧
         (t.chOf k).pending = 0 ∧ (t.chOf k).next = (x.next + 1) % max (s.chListLen k) 1 ∧ ∀ j, j ≠ k → t.chOf j = s.chOf j)) ∧
     (x.state ≠ .halted → ∀ i ∈ [Instr.dmaResume p d c, .dmaSkip p d c, .dmaAbort p d c], ∃ u, exec i s =
       .next (logIgnored (s.setReg .dma d (0x41C + 0x40 * c) u) .dma d (pageBase .dma d + 0x41C + 0x40 * c)))) ∧
  (∀ (s : State) (p : Path) (d : DieId) (c : ChanId) (v : W32) (part : Fin 16) (n : Fin 256), ¬s.reaches p .dma →
     ∀ i ∈ [Instr.dssPartOwnerWrite p d part v, .dmaChCfgWrite p d c v, .dmaTimerWrite p d c v, .dmaChStartWrite p d c n, .dmaResume p d c,
       .dmaSkip p d c, .dmaAbort p d c], exec i s = .next s)

/-- R161, R164: DLOCAL changes while no context is resident and takes 0 to 69; an invalidation leaves no entry that it covers, and
keeps every other. A write that may not act is logged.
R371, R407, R412: neither the management controller's write nor one in reset changes anything there.
Completes: exec answers a next state, under conditions on the state and the operands alone, for `mmuMapWrite`, `mmuInvalAll`, `mmuInvalCtx`,
`mmuInvalPage`.
The model's readings it rests on: log entries 29, 34, 153, 215. -/
def Obligations.MmuRegisterWrites : Prop :=
  ∀ (s : State) (p : Path) (c : CtxId) (v : W32),
    (¬s.reaches p .mmu → ∀ i ∈ [Instr.mmuMapWrite p v, .mmuInvalAll p, .mmuInvalCtx p c, .mmuInvalPage p c], exec i s = .next s) ∧
    (s.controls p .mmu →
    let k := bits v.toNat 0 7
    let noCtx := (s.ctx.any fun e => e.2.resident) = false
    let va := s.reg .mmu 0 0x108 + 2 ^ 32 * s.field .mmu 0 0x10C 0 16
    (noCtx → k ≤ 69 → k ≠ s.dlocal →
      ∃ t, exec (.mmuMapWrite p v) s = .next t ∧ t.dlocal = k ∧ t.mem = { s.mem with blks := [] } ∧
        s.onlyWords { t with mem := s.mem } [pageBase .mmu 0 + 0x100]) ∧
    (noCtx → k = s.dlocal → k ≤ 69 → exec (.mmuMapWrite p v) s = .next s) ∧
    (¬noCtx ∨ 69 < k → exec (.mmuMapWrite p v) s = .next (logIgnored s .mmu 0 (pageBase .mmu 0 + 0x100))) ∧
    ∀ r ∈ ([(.mmuInvalAll p, ⟨1, 0, va, none⟩), (.mmuInvalCtx p c, ⟨2, c, va, none⟩), (.mmuInvalPage p c, ⟨3, c, va, none⟩)] :
        List (Instr × Inval)),
      (s.mmu.inval = none → ∃ t, exec r.1 s = .next t ∧ t.mmu.inval = some r.2 ∧
        t = { s with regs := t.regs, mmu := t.mmu } ∧
        (∀ die, ∀ e ∈ tabGet [] t.mmu.tlb die, r.2.covers e.ctx e.va e.log = false) ∧
        (∀ die, ∀ e ∈ tabGet [] s.mmu.tlb die, r.2.covers e.ctx e.va e.log = false → e ∈ tabGet [] t.mmu.tlb die) ∧
        (∀ w ∈ t.mmu.walks, r.2.covers w.ctx w.va 21 = true → w.discard = true)) ∧
      (s.mmu.inval.isSome = true → exec r.1 s = .next (logIgnored s .mmu 0 (pageBase .mmu 0 + 0x104))))

/-- R246, R250, R261, R264: writes of LNK.CTRL. ENABLE of 0 takes a port DOWN; FENCE fences an enabled one; an enabled port leaves
DOWN for DETECT once the device configuration is committed, before which every port stays DOWN, and FENCED when FENCE is withdrawn; RETRAIN takes an UP or PROBATION port
to DETECT; BOND stands in FP[32]–FP[35] alone, and none of them is bonded once one of them lacks it. The other ports' registers and link layers are as before.
R256, R258, R261, R265, R300: the writes of the router and the catalogue. An arming in the past advances at once: the banks rotate and
CURRENT counts on; one within 2 ms of the last advance is logged. A TDATA_HI write commits an entry to the next bank; a fence word takes
effect at its write; FREEZE latches the time; CLEAR zeroes every bin.
R371, R407, R412: no write in reset changes anything, and the management controller's changes nothing in the catalogue.
Completes: exec answers a next state, under conditions on the state and the operands alone, for `lnkEnable`, `lnkFence`, `lnkRetrain`, `lnkBond`,
`rtrEpochArm`, `rtrTdataCommit`, `rtrFenceWrite`, `histFreeze`, `histClear`, `catCtrlWrite`.
The model's readings it rests on: log entries 19, 20, 92, 93, 153, 169. -/
def Obligations.FabricRegisterWrites : Prop :=
  (∀ (s : State) (p : Path) (port : PortId), s.controls p .lnk →
     let ctrl := s.reg .lnk port 0x100
     let st := s.portState port
     let others := fun (t : State) => ∀ q : PortId, q ≠ port → q.val < 32 → t.portState q = s.portState q ∧ t.linkOf q = s.linkOf q
     (∃ t, exec (.lnkEnable p port false) s = .next t ∧ t.portState port = lsDown ∧ others t ∧
       (st ≠ lsDown → t.linkOf port = {})) ∧
     (ctrl.testBit 1 = false → ctrl.testBit 2 = false → st = lsDown → s.committed = true →
       ∃ t, exec (.lnkEnable p port true) s = .next t ∧ t.portState port = lsDetect ∧ others t) ∧
     (ctrl.testBit 1 = false → ctrl.testBit 2 = false → st = lsDown → s.committed = false →
       ∃ t, exec (.lnkEnable p port true) s = .next t ∧ t.portState port = lsDown ∧ (t.reg .lnk port 0x100).testBit 0 = true) ∧
     (s.committed = true → ctrl.testBit 0 = true → ctrl.testBit 2 = false →
       ∃ t, exec (.lnkFence p port true) s = .next t ∧ t.portState port = lsFenced ∧ others t ∧ (st ≠ lsFenced → t.linkOf port = {})) ∧
     (s.committed = true → ctrl.testBit 0 = true → ctrl.testBit 2 = false → st = lsFenced →
       ∃ t, exec (.lnkFence p port false) s = .next t ∧ t.portState port = lsDetect ∧ others t) ∧
     (s.committed = true → ctrl.testBit 0 = true → ctrl.testBit 1 = false → st = lsUp ∨ st = lsProbation →
       ∃ t, exec (.lnkRetrain p port) s = .next t ∧ t.portState port = lsDetect ∧ (t.portOf port).since = s.gtime ∧
         tabGet 0 t.life.link (2 * port.val + 1) = satAdd 32 (tabGet 0 s.life.link (2 * port.val + 1)) 1) ∧
     (∀ on, 32 ≤ port.val → ∃ t, exec (.lnkBond p port on) s = .next t ∧ (t.reg .lnk port 0x100).testBit 3 = on ∧
       (on = false → ∀ q : PortId, 32 ≤ q.val → t.bonded q = false)) ∧
     (s.committed = false → ∀ on, ∃ t, exec (.lnkFence p port on) s = .next t ∧ t.portState port = lsDown) ∧
     (port.val < 32 → ctrl < 8 → s.committed = true → ctrl.testBit 0 = true → ctrl.testBit 1 = false → ctrl.testBit 2 = false → st = lsUp →
       exec (.lnkBond p port true) s = .next (logIgnored (s.setReg .lnk port 0x100 ctrl) .lnk port (pageBase .lnk port + 0x100)))) ∧
  (∀ (s : State) (p : Path) (v : W32), s.controls p .rtr →
     let time := s.reg .rtr 0 0x108 + 2 ^ 32 * v.toNat
     let early := s.rtr.advanced ≠ 0 ∧ max time s.gtime < s.rtr.advanced - 1 + 2000000
     let sel := s.reg .rtr 0 0x110
     (¬early → s.gtime < time → exec (.rtrEpochArm p v) s = .next ((s.setReg .rtr 0 0x10C v.toNat).setField .rtr 0 0x104 8 1 1)) ∧
     (¬early → time ≤ s.gtime → ∃ t, exec (.rtrEpochArm p v) s = .next t ∧ t.routeEpoch = (s.routeEpoch + 1) % 256 ∧
       t.rtr = { s.rtr with prev := s.rtr.cur, cur := s.rtr.next, advanced := s.gtime + 1 } ∧
       (t.reg .rtr 0 0x104).testBit 8 = false ∧
       ∀ q : PortId, s.portState q = lsUp → (t.reg .lnk q 0x108).testBit 5 = true) ∧
     (early → exec (.rtrEpochArm p v) s = .next (logIgnored s .rtr 0 (pageBase .rtr 0 + 0x10C))) ∧
     (∀ k, tselKey s = some k → exec (.rtrTdataCommit p v) s =
       .next { s.setReg .rtr 0 0x118 v.toNat with
         rtr := { s.rtr with next := tabSet 0 s.rtr.next k (s.reg .rtr 0 0x114 + 2 ^ 32 * v.toNat) } }) ∧
     (bits sel 12 2 = 2 → bits sel 0 12 < 1024 → ∃ t, exec (.rtrFenceWrite p v) s = .next t ∧
       t.rtr = { s.rtr with fence := tabSet 0 s.rtr.fence (bits sel 0 12) v.toNat } ∧
       ∀ i, i < 32 → t.fenced (32 * bits sel 0 12 + i) = v.toNat.testBit i) ∧
     (∀ on, (s.reg .rtr 0 0x124).testBit 16 = false → (s.reg .rtr 0 0x124).testBit 17 = false →
       ∃ t, exec (.histFreeze p on) s = .next t ∧ (t.reg .rtr 0 0x124).testBit 16 = on ∧
         (on = true → s.gtime < 2 ^ 64 → t.reg64 .rtr 0 0x128 0x12C = s.gtime) ∧ ∀ k, k < 288 → t.reg .rtr 0 (0x200 + 4 * k) = s.reg .rtr 0 (0x200 + 4 * k)) ∧
     (∃ t, exec (.histClear p) s = .next t ∧ ∀ k, k < 288 → t.reg .rtr 0 (0x200 + 4 * k) = 0) ∧
     (∃ t, exec (.histClear .host) s = .next t ∧ ∀ k, k < 288 → t.reg .rtr 0 (0x200 + 4 * k) = 0) ∧
     (p ≠ .mgmt → s.dispatchLive = false → s.cat.load = none →
       exec (.catCtrlWrite p v) s = .next (s.setReg .cat 0 0x100 (bits v.toNat 0 7))) ∧
     (p ≠ .mgmt → bits v.toNat 0 7 ≠ s.reg .cat 0 0x100 → s.dispatchLive = true ∨ s.cat.load.isSome →
       exec (.catCtrlWrite p v) s = .next (logIgnored s .cat 0 (pageBase .cat 0 + 0x100)))) ∧
  (∀ (s : State) (p : Path) (port : PortId) (v : W32) (on : Bool), s.pins.inReset = true →
     ∀ i ∈ [Instr.lnkEnable p port on, .lnkFence p port on, .lnkRetrain p port, .lnkBond p port on, .rtrEpochArm p v, .rtrTdataCommit p v,
       .rtrFenceWrite p v, .histFreeze p on, .histClear p, .catCtrlWrite p v], exec i s = .next s) ∧
  ∀ (s : State) (v : W32), exec (.catCtrlWrite .mgmt v) s = .next s

/-- R329: a write of BXL.VEC_MASK by any path. Each vector that was pending and is unmasked sends one INTR and is pending no longer; a
masked one stays pending. R317: a retrain of the Brixcia port that is UP takes it to DETECT.
R380, R381, R385, R415: the header of a page that has one and is not a disabled island's. A write of 1 to ERR_FIRST.VALID clears the
whole record, by any path; INT_ENABLE raises the error vector where the interrupt was waiting; a counter selector zeroes its value, and a
code that the page does not count is logged.
R371, R407, R412: no write in reset changes anything, nor does one of the management controller outside the pages that it may write.
Completes: exec answers a next state, under conditions on the state and the operands alone, for `bxlVecMaskWrite`, `bxlRetrain`, `errFirstClear`,
`intEnableWrite`, `cntSelWrite`.
The model's readings it rests on: log entries 30, 152, 153. -/
def Obligations.CompanionAndHeaderWrites : Prop :=
  (∀ (s : State) (p : Path) (i : Fin 64) (v : W32), s.reaches p .bxl →
     let pend := s.reg .bxl 0 (0x500 + 4 * i.val)
     (∃ t, exec (.bxlVecMaskWrite p i v) s = .next t ∧ t.reg .bxl 0 (0x400 + 4 * i.val) = v.toNat ∧
       t.reg .bxl 0 (0x500 + 4 * i.val) = (pend &&& v.toNat) ∧
       t.outbox = s.outbox ++ ((List.range 32).filter fun j => pend.testBit j && !v.toNat.testBit j).map
         fun j => { kind := .intr, dest := 32 * i.val + j }) ∧
     (p ≠ .host → s.portState bxlPort = lsUp →
       ∃ t, exec (.bxlRetrain p) s = .next t ∧ t.portState bxlPort = lsDetect ∧ (t.portOf bxlPort).since = s.gtime)) ∧
  (∀ (s : State) (p : Path) (page : Fin 4096) (b : Block) (i : Nat), pageOf (0x1000 * page) = some (b, i) → hasHeader b = true →
     s.pageDead b i = false → s.reaches p b → (isArrayPage b = true → s.islandStopped i = false) →
     (∃ t, exec (.errFirstClear p page) s = .next t ∧ (∀ k, k < 7 → t.reg b i (0x20 + 4 * k) = 0) ∧
       ∀ o, (∀ k, k < 7 → o ≠ pageBase b i + 0x20 + 4 * k) → (b = .mpe → o ≠ pageBase b i + 0x104) → t.rget o = s.rget o) ∧
     (p ≠ .host → s.reg b i 0x14 % 2 = 1 → s.reg b i 0x18 % 2 = 0 →
       exec (.intEnableWrite p page true) s = .next (raiseVector (s.setReg b i 0x18 1) (s.field .obs 0 0x1B4 0 11))) ∧
     (p ≠ .host → s.reg b i 0x14 % 2 = 0 ∨ s.reg b i 0x18 % 2 = 1 →
       exec (.intEnableWrite p page true) s = .next (s.setReg b i 0x18 1)) ∧
     (p ≠ .host → exec (.intEnableWrite p page false) s = .next (s.setReg b i 0x18 0)) ∧
     ∀ (k : Fin 8) (v : W32), p ≠ .host →
       (eventOk b i (v.toNat % 256) = true → ∃ t, exec (.cntSelWrite p page k v) s = .next t ∧
         s.onlyWords t [pageBase b i + 0x40 + 4 * k, pageBase b i + 0x60 + 8 * k, pageBase b i + 0x64 + 8 * k] ∧
         t.reg b i (0x40 + 4 * k) = bits v.toNat 0 16 ∧ t.reg64 b i (0x60 + 8 * k) (0x64 + 8 * k) = 0) ∧
       (eventOk b i (v.toNat % 256) = false →
         exec (.cntSelWrite p page k v) s = .next (logIgnored s b i (0x1000 * page + 0x40 + 4 * k)))) ∧
  (∀ (s : State) (p : Path) (i : Fin 64) (v : W32), ¬s.reaches p .bxl →
     exec (.bxlVecMaskWrite p i v) s = .next s ∧ exec (.bxlRetrain p) s = .next s) ∧
  ∀ (s : State) (p : Path) (page : Fin 4096) (on : Bool) (k : Fin 8) (v : W32),
    s.pins.inReset = true ∨ p = .mgmt ∧ mgmtWritable (0x1000 * page) = false →
    ∀ i ∈ [Instr.errFirstClear p page, .intEnableWrite p page on, .cntSelWrite p page k v], exec i s = .next s

/-- R415, R417: CTRL of an island. QUIESCE is taken and its completion withdrawn; the quiesce completes once every unit is at rest; ENABLE
of 0 needs the completed quiesce, and is logged without it; a block reset marks the island, ends the reset of its pages and units, and
its end withdraws the mark.
R210, R219, R231: doorbells, by any path. A TAIL within the ring is taken; one that would overrun it stops the queue with reason 2
and its vector; one that goes back, or of a queue that is DISABLED or DRAINING, is logged. A CQ_HEAD frees room for held records. A kernel
queue's CFG enables it with its registers' values, once the device configuration is committed (R364), and disables it unless it drains.
After a fatal error no queue stops and no held record is written (R389).
R371, R407, R412: neither the management controller's write nor one in reset changes anything there, but for CTRL of the fabric's page.
Completes: exec answers a next state, under conditions on the state and the operands alone, for `ctrlQuiesce`, `quiesceComplete`, `ctrlEnable`,
`ctrlBlockReset`, `blockResetDone`, `doorbellWrite`, `cqHeadWrite`, `kqCfgWrite`.
The model's readings it rests on: log entries 23, 24, 68, 153. -/
def Obligations.IslandsAndDoorbells : Prop :=
  (∀ (s : State) (p : Path),
     (∀ (i : Fin 49) (on : Bool), s.controls p (islandPage i).1 → (i.val < 20 → s.arrayDisabled i = false) → (20 ≤ i.val → (s.islOf i).enable = true) →
       (s.islOf i).quiesce ≠ on →
       ∃ t, exec (.ctrlQuiesce p i on) s = .next t ∧ (t.islOf i).quiesce = on ∧ (t.islOf i).quiesced = false) ∧
     (∀ i : Fin 49, (s.islOf i).quiesce = true → (s.islOf i).quiesced = false → s.islandAtRest i = true →
       exec (.quiesceComplete i) s = .next (s.setIsl i { s.islOf i with quiesced := true })) ∧
     (∀ n : ArrayId, s.controls p .arr → s.arrayDisabled n = false → (s.islOf n).enable = true → (s.islOf n).quiesced = true →
       exec (.ctrlEnable p n false) s = .next (s.setIsl n { s.islOf n with enable := false })) ∧
     (∀ n : ArrayId, s.controls p .arr → s.arrayDisabled n = false → (s.islOf n).enable = true → (s.islOf n).quiesced = false →
       exec (.ctrlEnable p n false) s = .next (logIgnored s .arr n (pageBase .arr n + 0x0C))) ∧
     (∀ n : ArrayId, s.controls p .arr → s.arrayDisabled n = false → (s.islOf n).enable = false →
       ∃ t, exec (.ctrlEnable p n true) s = .next t ∧ (t.islOf n).enable = true) ∧
     (∀ (i : Fin 49) (on : Bool), ¬s.reaches p (islandPage i).1 → exec (.ctrlQuiesce p i on) s = .next s) ∧
     (∀ (n : ArrayId) (on : Bool), ¬s.reaches p .arr → exec (.ctrlEnable p n on) s = .next s) ∧
     (∀ i : Fin 24, ¬s.reaches p .arr → exec (.ctrlBlockReset p i) s = .next s) ∧
     (∀ i : Fin 24, s.controls p .arr → (i.val < 20 → s.arrayDisabled i = false) → (20 ≤ i.val → (s.islOf i).enable = true) → (s.islOf i).resetting = false →
       ∃ t, exec (.ctrlBlockReset p i) s = .next t ∧ (t.islOf i).resetting = true ∧
         (i.val < 20 → (t.arrOf i).exec = none ∧ (t.arrOf i).wait = none ∧ (t.vecOf i).exec = none ∧ (t.seqOf i).state = .idle ∧
           t.alsScrubbing i = true) ∧
         (20 ≤ i.val → (∀ c, c < 32 → (t.chOf (32 * (i.val - 20) + c)).state = .disabled) ∧
           ∀ part, part < 16 → t.part (i.val - 20) part = 128)) ∧
     ∀ i : Fin 24, (s.islOf i).resetting = true → ∃ t, exec (.blockResetDone i) s = .next t ∧ (t.islOf i).resetting = false ∧
       (i.val < 20 → t.alsScrubbing i = false) ∧ (20 ≤ i.val → ∀ part, part < 16 → t.partBusy (i.val - 20) part = false)) ∧
  (∀ (s : State) (p : Path) (q : QueueId) (v : W32), ¬s.reaches p .doorbell →
     exec (.doorbellWrite p q v) s = .next s ∧ exec (.cqHeadWrite p q v) s = .next s ∧ ∀ k : Fin 16, exec (.kqCfgWrite p k v) s = .next s) ∧
  (∀ (s : State) (p : Path) (q : QueueId) (v : W32), s.reaches p .doorbell →
     let x := s.queueOf q
     let w := v.toNat
     let live := x.state ≠ .disabled ∧ x.state ≠ .draining
     let ahead := (2 ^ 32 + w - x.tail) % 2 ^ 32
     let room := (2 ^ 32 + w - x.head) % 2 ^ 32 ≤ 2 ^ x.log
     (live → ahead < 2 ^ 31 → room → exec (.doorbellWrite p q v) s = .next (s.setQueue q { x with tail := w })) ∧
     (live → ahead < 2 ^ 31 → ¬room → s.obs.fatal ≠ 0 ∨ (x.state ≠ .running ∧ x.state ≠ .waiting) → exec (.doorbellWrite p q v) s = .next s) ∧
     (s.obs.fatal = 0 → x.state = .running ∨ x.state = .waiting → ahead < 2 ^ 31 → ¬room →
       exec (.doorbellWrite p q v) s = .next (raiseVector (s.setQueue q { x with state := .stopped, reason := 2, since := none }) x.vector)) ∧
     (¬live ∨ 2 ^ 31 ≤ ahead → exec (.doorbellWrite p q v) s = .next (logIgnored s .fe 0 (pageBase .doorbell q))) ∧
     (x.held = [] → exec (.cqHeadWrite p q v) s = .next (s.setQueue q { x with cqHead := w })) ∧
     (s.obs.fatal ≠ 0 → exec (.cqHeadWrite p q v) s = .next (s.setQueue q { x with cqHead := w })) ∧
     (∀ h u b e, s.obs.fatal = 0 → x.held = [h] → x.orphan = false → x.wfault = false → { x with cqHead := w }.cqFull = false →
       feRecord (s.setQueue q { x with cqHead := w }) q x.cqSlot (leBytes h.word 32) = (u, .ok b e) →
       ∃ t, exec (.cqHeadWrite p q v) s = .next t ∧ (t.queueOf q).held = [] ∧ (t.queueOf q).cqTail = (x.cqTail + 1) % 2 ^ 32 ∧
         t.mem = u.mem) ∧
     ∀ k : Fin 16, p ≠ .host →
       let y := s.queueOf (1024 + k.val)
       let cfg := 0x108 + 0x20 * k.val
       (w.testBit 5 = true → (s.kq k 8).testBit 5 = false → y.state = .disabled → s.committed = true → s.obs.fatal = 0 →
         ∃ t, exec (.kqCfgWrite p k v) s = .next t ∧ t.reg .fe 2 cfg = bits w 0 17 ∧
           t.queueOf (1024 + k.val) = { state := .running, log := bits w 0 5, big := true, cqLog := bits (s.kq k 0x14) 0 5, vector := bits w 6 11
                                        ring := 2 ^ 12 * (s.kq k 0 / 2 ^ 12) + 2 ^ 32 * bits (s.kq k 4) 0 12
                                        cq := 2 ^ 12 * (s.kq k 0xC / 2 ^ 12) + 2 ^ 32 * bits (s.kq k 0x10) 0 12, timeout := s.kq k 0x18
                                        cmds := y.cmds, held := y.held, ends := y.ends }) ∧
       (w.testBit 5 = false → (s.kq k 8).testBit 5 = true → y.state ≠ .draining →
         exec (.kqCfgWrite p k v) s = .next ((s.setReg .fe 2 cfg (bits w 0 17)).setQueue (1024 + k.val)
           { y with state := .disabled, reason := 0, since := none, cmds := y.cmds.filter fun c => c.started })) ∧
       (w.testBit 5 = false → (s.kq k 8).testBit 5 = true → y.state = .draining →
         exec (.kqCfgWrite p k v) s = .next (s.setReg .fe 2 cfg (bits w 0 17))) ∧
       ((s.kq k 8).testBit 5 = true ∨ s.committed = false → w.testBit 5 = true →
         exec (.kqCfgWrite p k v) s = .next (logIgnored s .fe 2 (pageBase .fe 2 + cfg))))

/-- R9, R213, R412, R413: a write of any aperture word. An unassigned offset is counted and recorded; a reserved offset takes nothing; a
word of RWK bits takes nothing from the host and logs it; a clear of NOC's RETRY_MAX acts on what it reads (R420). No access in reset
changes anything, nor does a write of the management controller outside the pages that it may write (R371, R407). REG_WRITE writes its words in order, REG_READ delivers what its words read as. A
read of a low word captures the high word of its cycle, and the next read of the high word gives what was captured.
Completes: exec answers a next state, under conditions on the state and the operands alone, for `registerWrite`, `regWrite`, `regRead`,
`registerLoRead`.
The model's readings it rests on: log entries 17, 18, 19, 144, 153. -/
def Obligations.ApertureAccesses : Prop :=
  ∀ (s : State) (p : Path) (w : Fin 4194304) (v : W32),
    let off := 4 * w.val
    (pageOf off = none → s.pins.inReset = false → p ≠ .mgmt → exec (.registerWrite p w v) s = .next (capture (s.bump .dev 0 0x120 1) .dev 0
      { sev := sevLogged, addr := off, info := 0x101 + 0x200 * pathCode p })) ∧
    (s.pins.inReset = true ∨ p = .mgmt ∧ mgmtWritable off = false → exec (.registerWrite p w v) s = .next s) ∧
    (∀ b i, pageOf off = some (b, i) → s.pageDead b i = false → layIn b i (off % 0x1000) = none →
      exec (.registerWrite p w v) s = .next s) ∧
    (∀ b i l, s.pins.inReset = false → pageOf off = some (b, i) → s.pageDead b i = false → layIn b i (off % 0x1000) = some l → l.rwk ≠ 0 → b ≠ .rtr →
      exec (.registerWrite .host w v) s = .next (logIgnored s b i off)) ∧
    (∀ b i, pageOf off = some (b, i) → b ∈ [Block.noc, .dpw, .mc, .mpe, .nmu, .sec, .dev] → layIn b i (off % 0x1000) ≠ none →
      0x100 ≤ off % 0x1000 → (b = .noc → off % 0x1000 ≠ 0x10C) → s.controls p b → ∃ t, exec (.registerWrite p w v) s = .next t ∧ s.onlyWords t [off] ∧
        t.rget off = clearBits (maskWrite (s.rget off) v.toNat (layAt b i (off % 0x1000)).rwk) (v.toNat &&& (layAt b i (off % 0x1000)).w1c)) ∧
    (∀ d : DieId, off = pageBase .noc d + 0x10C → s.pins.inReset = false → p ≠ .mgmt → exec (.registerWrite p w v) s =
      .next { s.setReg .noc d 0x10C (clearBits (readWord s .noc d 0x10C) (v.toNat % 16)) with bridge := tabSet 0 s.bridge (64 + d) 0 }) ∧
    (∀ (q : QueueId) c, actCmd s q 0xCB = some c → exec (.regWrite q) s = .next (doneCmd ((List.range (fld c.raw 8 0 3)).foldl
      (fun s i => writeReg .kq s (fld c.raw (0x10 + 8 * i) 0 24) (fld c.raw (0x14 + 8 * i) 0 32)) s) q c.n)) ∧
    (∀ (q : QueueId) c u b e, actCmd s q 0xCC = some c →
      let rd := readRegs .kq s ((List.range (fld c.raw 8 0 3)).map fun i => fld c.raw (0x18 + 8 * i) 0 24)
      feWrite rd.1 q (fld c.raw 0x10 0 64) (rd.2.flatMap fun v => leBytes v 4) = (u, .ok b e) → e.any id = false →
      ∃ t, exec (.regRead q) s = .next t ∧ t.mem = u.mem ∧ t.cmdEnded q c.n stOk) ∧
    (s.pins.inReset = true → exec (.registerLoRead p w) s = .next s) ∧
    (∀ b i, s.pins.inReset = false → pageOf off = some (b, i) → pairLow b i (off % 0x1000) = true → (layAt b i (off % 0x1000)).rop = false →
      tabGet 0 s.hiCap off = 0 →
      ∃ t, exec (.registerLoRead p w) s = .next t ∧ t = { s with hiCap := t.hiCap } ∧
        (readReg p t (off + 4)).2 = readWord s b i ((off + 4) % 0x1000))

/-- R59–R61, R68, R70, R71, R74: a matrix array between its instructions. A tile loads from the ALS, exposed or ahead; a poisoned exposed
load ends the command; the ramps lead from a load to the rows and back to rest; a waiting instruction follows without a gap. The other
arrays are as before.
Completes: exec answers a next state, under conditions on the state and the operands alone, for `bTileLoadDone`, `preloadDone`, `rampUpDone`,
`mmFirstRow`, `rampDownDone`.
The model's readings it rests on: log entries 38, 45, 47, 158, 193, 209. -/
def Obligations.MatrixTilesAndRamps : Prop :=
  ∀ (s : State) (n : ArrayId),
    let a := s.arrOf n
    let rest := fun (t : State) => ∀ m, m ≠ n.val → t.arrOf m = s.arrOf m
    (∀ i, s.alsBlocked n = false → a.state = .load → a.exec = some i →
      let tile := loadTile (s.loadAls n i) i.desc i.tab false
      let whole := mmPasses i.desc = 3
      (tile.poisoned = none → ∃ t, exec (.bTileLoadDone n) s = .next t ∧ rest t ∧
        t.arrOf n = { a with state := .rampUp, ramp := s.rampLen n, stat := tile, shadow := if whole then {} else a.shadow
                             preload := if whole then none else a.preload }) ∧
      (tile.poisoned.isSome → a.failed = none → s.arrAssigned n = true → (s.islOf n).enable = true → ∃ t, exec (.bTileLoadDone n) s = .next t ∧ rest t ∧
        (t.arrOf n).failed = some ⟨stPoisoned, ePoisoned, mmTag i.desc⟩ ∧ (t.arrOf n).exec = none ∧
        (t.arrOf n).state = if s.unitHeld (enArr n) ∨ 0 < tabGet 0 s.pwr.debt (enArr n) + s.debtIfEnded (enArr n) ∧
          tabGet 0 s.pwr.active (enArr n) ≠ 0 then .held else .idle)) ∧
    (∀ i, s.alsBlocked n = false → a.preload = some i → a.wait = none → a.exec.isSome ∨ a.flow ≠ [] ∨ a.state ≠ .active →
      let tile := loadTile (s.loadAls n i) i.desc i.tab true
      ((∀ e, a.exec = some e → mmBsrc e.desc ≠ 1 ∨ (a.state ≠ .rampUp ∧ a.loading = false)) →
        ∃ t, exec (.preloadDone n) s = .next t ∧ rest t ∧ t.arrOf n = { a with preload := none, shadow := tile }) ∧
      (∀ e, a.exec = some e → mmBsrc e.desc = 1 → a.state = .rampUp → a.loading = false → tile.key = tileKey e.desc e.tab false →
        tile.poisoned = none → ∃ t, exec (.preloadDone n) s = .next t ∧ rest t ∧
          t.arrOf n = { a with preload := none, stat := tile, shadow := {} })) ∧
    (∀ i, a.state = .rampUp → a.exec = some i → ∃ t, exec (.rampUpDone n) s = .next t ∧ rest t ∧
      t.arrOf n = if mmBsrc i.desc = 1 ∧ a.preload.isSome then { a with state := .active, loading := true } else
        { a with state := .active, loading := false
                 shadow := if mmPreload i.desc || mmPasses i.desc == 3 then {} else a.shadow
                 preload := if mmPreload i.desc then some { i with lines := [] } else if mmPasses i.desc = 3 then none else a.preload }) ∧
    (∀ w tile, a.state = .active → a.wait = some w → mmBsrc w.desc ≠ 0 → w.fail = none → mayFollow s n = true →
      tileFor a w = some (.ok tile) → ∃ t, exec (.mmFirstRow n) s = .next t ∧ rest t ∧ (t.arrOf n).exec = some w ∧
        (t.arrOf n).wait = none ∧ (t.arrOf n).stat = tile ∧ (t.arrOf n).state = .active ∧
        (t.arrOf n).flow = a.flow ++ (a.exec.map fun e => (⟨e, a.stat⟩ : MmFlow)).toList) ∧
    (a.state = .rampDown → a.wait = none → s.arrAssigned n = true → (s.islOf n).enable = true →
      ∃ t, exec (.rampDownDone n) s = .next t ∧ rest t ∧ t.arrOf n = { a with state := if s.unitHeld (enArr n) then .held else .idle })

/-- R69, R73, R92, R101, R105, R113: what the rows of an instruction leave. The last row leaves the accumulator with its exact sums and
the instruction in order behind those before it; its spill writes the ALS; its epilogue begins after every earlier one and writes the
output; it completes in issue order, and ARR.ITAG_DONE and MDONE show it.
Completes: exec answers a next state, under conditions on the state and the operands alone, for `mmAccumulationEnd`, `spillEnd`, `epilogueStart`,
`epilogueEnd`, `mmInstructionComplete`.
The model's readings it rests on: log entries 8, 38, 45, 46, 49, 159, 209, 210, 213. -/
def Obligations.MatrixResults : Prop :=
  ∀ (s : State) (n : ArrayId), s.alsBlocked n = false →
    let a := s.arrOf n
    let rest := fun (t : State) => ∀ m, m ≠ n.val → t.arrOf m = s.arrOf m ∧ t.alsOf m = s.alsOf m
    (∀ i tile a', nextAccumulated a = some (i, tile, a') → ((rowsOf (subOps i.desc i.tab)).any fun r => (rowsHeld a).contains r) = false →
      firstBadRow (s.rowAls n i) i.desc (subOps i.desc i.tab) = none →
      let x := accumulate (s.rowAls n i) i.desc i.tab tile none { acc := a.acc, poison := a.accPoison }
      ∃ t, exec (.mmAccumulationEnd n) s = .next t ∧ rest t ∧ t.als = s.als ∧ (t.arrOf n).acc = x.acc ∧ (t.arrOf n).accPoison = x.poison ∧
        (t.arrOf n).flags = a.flags ||| x.flags ∧ (t.arrOf n).post.map (·.instr) = a.post.map (·.instr) ++ [i]) ∧
    (∀ i tile a' r k p, nextAccumulated a = some (i, tile, a') →
      ((rowsOf (subOps i.desc i.tab)).any fun r => (rowsHeld a).contains r) = false →
      firstBadRow (s.rowAls n i) i.desc (subOps i.desc i.tab) = some (r, k, p) → a.failed = none →
      ∃ t, exec (.mmAccumulationEnd n) s = .next t ∧ rest t ∧ (t.arrOf n).failed = some ⟨stPoisoned, ePoisoned, mmTag i.desc⟩ ∧
        (t.arrOf n).acc = (accumulate (s.rowAls n i) i.desc i.tab tile (some r) { acc := a.acc, poison := a.accPoison }).acc) ∧
    (∀ k p, (a.post.findIdx? fun p => p.spill == .running) = some k → a.post[k]? = some p →
      let x := spillAll p.instr.desc p.instr.tab (spillFrom s n p)
      x.stop = none → ∃ t, exec (.spillEnd n) s = .next t ∧ rest t ∧ t.alsOf n = x.als ∧ (t.arrOf n).acc = x.acc.acc ∧
        ((t.arrOf n).post[k]?).map (·.spill) = some .done) ∧
    (∀ k p, (a.post.findIdx? fun p => p.epi == .waiting) = some k → a.post[k]? = some p → p.spill.overs = true →
      (a.post.take k).all (fun q => q.spill.overs && q.epi.overs) = true →
      (∀ l, a.tableLoad = some l → p.instr.epoch < l.epoch) →
      ∃ t, exec (.epilogueStart n) s = .next t ∧ rest t ∧ ((t.arrOf n).post[k]?).map (·.epi) = some .running) ∧
    (∀ k p, (a.post.findIdx? fun p => p.epi == .running) = some k → a.post[k]? = some p →
      let x := epilogueAll (s.alsOf n) p.epiMid ⟨a.acc, a.accPoison, a.rescale, p.instr.seed, p.instr.step⟩ p.instr.desc p.instr.epi p.instr.tab
      ∃ t, exec (.epilogueEnd n) s = .next t ∧ rest t ∧ t.alsOf n = x.als ∧ (t.arrOf n).acc = a.acc ∧
        ((t.arrOf n).post[k]?).map (·.epi) = some .done ∧
        (a.failed = none → x.hit.isSome → (t.arrOf n).failed = some ⟨stPoisoned, ePoisoned, mmTag p.instr.desc⟩) ∧
        (a.failed = none → x.hit = none → epReplay p.instr.epi = true → (∃ y ∈ x.tiles, 0 < y.overs + y.under) →
          (t.arrOf n).failed = some ⟨stScaleMiss, 0, mmTag p.instr.desc⟩)) ∧
    (∀ p ps, a.post = p :: ps → p.spill.overs = true → p.epi.overs = true →
      ∃ t, exec (.mmInstructionComplete n) s = .next t ∧ rest t ∧ t.arrOf n = { a with post := ps } ∧
        t.reg .arr n 0x108 = mmTag p.instr.desc ∧ (t.seqOf n).mdone = ((s.seqOf n).mdone + 1) % 2 ^ 32 ∧
        tabGet 0 (t.ctxOf (s.islandCtx n)).counters (macCounter p.instr.desc) =
          (tabGet 0 (s.ctxOf (s.islandCtx n)).counters (macCounter p.instr.desc) + macCount p.instr.desc p.instr.tab) % 2 ^ 64)

/-- R78, R101, R237: a corrected accumulator error is counted; an uncorrectable one poisons the element and is recorded once. A table load
writes its entries in order and TDONE counts it.
Completes: exec answers a next state, under conditions on the state and the operands alone, for `accEccError`, `tableLoadDone`.
The model's readings it rests on: log entries 8, 38, 196, 213. -/
def Obligations.AccumulatorAndTable : Prop :=
  ∀ (s : State) (n : ArrayId),
    let a := s.arrOf n
    (∀ (row : Fin 4096) (col : Fin 512) (tag : Fin 65536), exec (.accEccError n row col false tag) s = .next (s.bump .acc n 0x110 1)) ∧
    (∀ (row : Fin 4096) (col : Fin 512) (tag : Fin 65536), tabGet false a.accPoison (accKey row col) = true → exec (.accEccError n row col true tag) s = .next s) ∧
    (∀ (row : Fin 4096) (col : Fin 512) (tag : Fin 65536), tabGet false a.accPoison (accKey row col) = false → ∃ t, exec (.accEccError n row col true tag) s = .next t ∧
      (∀ k, tabGet false (t.arrOf n).accPoison k = (tabGet false a.accPoison k || k == accKey row col)) ∧ (t.arrOf n).acc = a.acc ∧
      (s.pageDead .acc n = false → s.reg .acc n 0x20 % 2 = 0 → t.reg .acc n 0x30 = 1 + 256 * tag.val)) ∧
    (∀ l, s.alsBlocked n = false → a.tableLoad = some l → epiBefore a l.epoch = false → (linesStore l.lines (s.alsOf n)).poisoned l.addr (8 * l.count) = none →
      ∃ t, exec (.tableLoadDone n) s = .next t ∧ (t.arrOf n).tableLoad = none ∧ (t.seqOf n).tdone = ((s.seqOf n).tdone + 1) % 2 ^ 32 ∧
        (t.arrOf n).acc = a.acc ∧
        ∀ k, tabGet rtOne (t.arrOf n).rescale k =
          if l.first ≤ k ∧ k < l.first + l.count then leNat ((linesStore l.lines (s.alsOf n)).read (l.addr + 8 * (k - l.first)) 8) else tabGet rtOne a.rescale k)

/-- R339, R340, R342, R346, R347: bringing the caps up to date leaves an effective cap that no cap of the moment is below, and a duty from
16 to 1,024.
The model's readings it rests on: log entry 124. -/
def Obligations.EffectiveCap : Prop :=
  ∀ s : State, let t := applyCaps s
    t = { s with pwr := t.pwr } ∧ t.pwr.sched = schedAt s s.gtime ∧ t.pwr.eff ≤ s.tdpUw ∧ t.pwr.eff ≤ schedAt s s.gtime ∧
    (s.pwr.braked = true → t.pwr.eff ≤ s.brakeUw) ∧
    (∀ r, s.pwr.braked = false → s.pwr.brakeRise = some r → t.pwr.eff ≤ rampAt r s.gtime) ∧
    (∀ v, thermalAt s.pwr s.gtime = some v → t.pwr.eff ≤ v) ∧
    (s.pwr.braked = false → s.pwr.brakeRise = none → s.pwr.thermal = none → t.pwr.eff = min (schedAt s s.gtime) s.tdpUw) ∧
    16 ≤ t.pwr.duty ∧ t.pwr.duty ≤ 1024 ∧ t.pwr.table = s.pwr.table ∧ t.pwr.ramp = s.pwr.ramp

/-- R337–R339: a setpoint or a mode of a later START takes its place in the pending table in order, in place of one of its kind and
START; one whose START has passed is active at once, as if it had begun then; a ninth place is refused with TARGET. The first entry of the
table becomes active when its START comes.
Completes: exec answers a next state, under conditions on the state and the operands alone, for `pwrSetpoint`, `pwrMode`, `setpointActivation`.
The model's readings it rests on: log entry 121. -/
def Obligations.PowerSchedule : Prop :=
  ∀ s : State,
    let place := fun (e : PwrEntry) (t : State) =>
      t.pwr.table = insertEntry e (s.pwr.table.filter fun x => x.start != e.start || x.isMode != e.isMode)
    let full := fun (e : PwrEntry) => 8 ≤ (s.pwr.table.filter fun x => x.start != e.start || x.isMode != e.isMode).length
    (∀ (q : QueueId) c, actCmd s q 0xD8 = some c →
      let e := setpointEntry (fld c.raw 8 0 32) (fld c.raw 0x10 0 64)
      (s.gtime < e.start → ¬full e → ∃ t, exec (.pwrSetpoint q) s = .next t ∧ place e t ∧ t.cmdEnded q c.n stOk) ∧
      (s.gtime < e.start → full e → ∃ t, exec (.pwrSetpoint q) s = .next t ∧ t.pwr = s.pwr ∧ t.cmdEnded q c.n stTarget) ∧
      (e.start ≤ s.gtime → ∃ t, exec (.pwrSetpoint q) s = .next t ∧ t.cmdEnded q c.n stOk ∧ t.pwr.table = s.pwr.table ∧
        t.pwr.ramp = some ⟨schedAt s e.start, bits c.raw 64 12 * 10 ^ 6, e.slope, e.start⟩)) ∧
    (∀ (q : QueueId) c, actCmd s q 0xD9 = some c →
      let e := modeEntry (fld c.raw 8 0 32) (fld c.raw 0x10 0 64)
      (s.gtime < e.start → ¬full e → ∃ t, exec (.pwrMode q) s = .next t ∧ place e t ∧ t.cmdEnded q c.n stOk) ∧
      (s.gtime < e.start → full e → ∃ t, exec (.pwrMode q) s = .next t ∧ t.pwr = s.pwr ∧ t.cmdEnded q c.n stTarget) ∧
      (e.start ≤ s.gtime → ∃ t, exec (.pwrMode q) s = .next t ∧ t.cmdEnded q c.n stOk ∧ t.pwr.table = s.pwr.table ∧
        t.pwr.ceiling = c.raw.testBit 64)) ∧
    (∀ e es, s.pwr.table = e :: es → e.start ≤ s.gtime → ∃ t, exec .setpointActivation s = .next t ∧ t.pwr.table = es ∧
      (e.isMode = false → t.pwr.ramp = some ⟨schedAt s e.start, e.target * 10 ^ 6, e.slope, e.start⟩) ∧
      (e.isMode = true → t.pwr.ceiling = (e.target == 1)))

/-- R334, R342, R344, R345, R348: the controllers' periods. The caps and the energy every 2 µs, the trim every 10 ms, the ceiling by one step
within 600 to 750 MHz every 100 µs, the rails' estimates and peaks every 2 µs. The energy of an interval and the window of the trim are
what the rails' estimates give; operands that are not those change nothing (the model's reading).
Completes: exec answers a next state, under conditions on the state and the operands alone, for `capRecompute`, `dutyTrim`, `ceilingAdjust`,
`currentEstimate`.
The model's readings it rests on: log entries 119, 122, 132, 183, 190. -/
def Obligations.PowerControllers : Prop :=
  ∀ s : State, s.powerRuns = true →
    (s.pwr.capAt + 2000 ≤ s.gtime → let uj := s.intervalNj / 1000
      ∃ t, exec (.capRecompute uj) s = .next t ∧
      t.pwr = (applyCaps { s with pwr := { s.pwr with capAt := s.gtime, energy := (s.pwr.energy + uj) % 2 ^ 64, lastUj := uj,
                                                      restNj := s.intervalNj % 1000 } }).pwr ∧
      t = { s with pwr := t.pwr, isl := t.isl } ∧ ∀ i, { t.islOf i with braked := (s.islOf i).braked } = s.islOf i) ∧
    (∀ uj, uj ≠ s.intervalNj / 1000 → exec (.capRecompute uj) s = .next s) ∧
    (10000000 + s.pwr.trimAt ≤ s.gtime → let mean := s.windowUw.1
      let most := s.windowUw.2
      ∃ t, exec (.dutyTrim mean most) s = .next t ∧ t.pwr.trimAt = s.gtime ∧ t.pwr.winN = 0 ∧
      t.pwr.trim = if 102 * s.pwr.eff < 100 * mean then s.pwr.trim + 1 else if most < s.pwr.eff then s.pwr.trim - 1 else s.pwr.trim) ∧
    (∀ mean most, (mean, most) ≠ s.windowUw → exec (.dutyTrim mean most) s = .next s) ∧
    (∀ up, s.pwr.ceiling = true → 100000 + s.pwr.ceilAt ≤ s.gtime → ∃ t, exec (.ceilingAdjust up) s = .next t ∧ t.pwr.ceilAt = s.gtime ∧
      t.pwr.fceil = if up then min 0x78 (s.pwr.fceil + 1) else max 0x60 (s.pwr.fceil - 1)) ∧
    (∀ amps, s.pwr.estAt + 2000 ≤ s.gtime → ∃ t, exec (.currentEstimate amps) s = .next t ∧ t.pwr.estAt = s.gtime ∧
      t.pwr.winN = s.pwr.winN + 1 ∧ t.pwr.winSum = s.pwr.winSum + t.estimateMw ∧ t.pwr.winMax = max s.pwr.winMax t.estimateMw ∧
      (∀ r, r < 15 → t.railEst r = min (amps.getD r 0) 4095 ∧
        t.field .pwr 0 (0x208 + 0x10 * r) 16 12 = max (s.field .pwr 0 (0x208 + 0x10 * r) 16 12) (min (amps.getD r 0) 4095)) ∧
      (∀ r, r < 15 → r ∉ s.pwr.overs → (r ∈ t.pwr.overs ↔ s.peakNow r < min (amps.getD r 0) 4095)) ∧
      ∀ i, i < 50 → (t.islOf i).stretched = t.pwr.overs.any fun r => (railIslands r).contains i)

/-- R336, R346, R352: regulator alerts hold their rails while they are asserted and are counted; a droop and a brake assertion mark the
islands they stretch; the brake's cap applies while it is asserted and rises from its level when released; a filtered pulse is only
counted.
R347: a temperature sample. Its readings show in DPW and PWR; a junction or a stack at 110 °C trips the device and halts every island;
at THROTTLE or above the thermal cap falls, from 2 °C below it rises, and between the two it stays, but for one that rises already.
Completes: exec answers a next state, under conditions on the state and the operands alone, for `vrAlertAssert`, `vrAlertRelease`, `droopDetect`,
`pwrBrakeAssert`, `pwrBrakeRelease`, `pwrBrakePulseFiltered`, `thermalSample`.
The model's readings it rests on: log entries 123, 126, 127, 132, 178. -/
def Obligations.AlertsAndThermal : Prop :=
  (∀ s : State, s.powerRuns = true →
     (∀ i : Fin 8, s.pwr.alerts.testBit i = false → ∃ t, exec (.vrAlertAssert i) s = .next t ∧ t.pwr.alerts = s.pwr.alerts + 2 ^ i.val ∧
       (∀ r ∈ railsOf i, t.field .pwr 0 (0x20C + 0x10 * r) 0 16 = satAdd 16 (s.field .pwr 0 (0x20C + 0x10 * r) 0 16) 1) ∧
       ∀ r ∈ railsOf i, t.limitNow r = t.railBrake r) ∧
     (∀ i : Fin 8, s.pwr.alerts.testBit i = true →
       exec (.vrAlertRelease i) s = .next { s with pwr := { s.pwr with alerts := s.pwr.alerts - 2 ^ i.val } }) ∧
     (∀ n : ArrayId, s.arrayDisabled n = false → ∃ t, exec (.droopDetect n) s = .next t ∧
       t.islOf n = { s.islOf n with stretchMark := true } ∧ (∀ m, m ≠ n.val → t.islOf m = s.islOf m) ∧
       t.field .dpw (n / 5) 0x104 16 16 = satAdd 16 (s.field .dpw (n / 5) 0x104 16 16) 1) ∧
     (s.pwr.braked = false → ∃ t, exec .pwrBrakeAssert s = .next t ∧ t.pwr.braked = true ∧ t.pwr.eff ≤ s.brakeUw ∧
       t.field .pwr 0 0x114 0 16 = satAdd 16 (s.field .pwr 0 0x114 0 16) 1 ∧
       ∀ i, i < 24 → t.islOf i = { s.islOf i with braked := true, stretchMark := true }) ∧
     (s.pwr.braked = true → ∃ t, exec .pwrBrakeRelease s = .next t ∧ t.pwr.braked = false ∧
       (s.brakeUw < schedAt s s.gtime → t.pwr.brakeRise =
         some ⟨s.brakeUw, max s.brakeUw s.tdpUw, (s.pwr.ramp.map (·.slope)).getD 100, s.gtime⟩)) ∧
     exec .pwrBrakePulseFiltered s = .next (s.setField .pwr 0 0x114 16 16 (satAdd 16 (s.field .pwr 0 0x114 16 16) 1))) ∧
  (∀ (s : State) (js ks : List Nat), s.powerRuns = true → 100000 + s.pwr.sampleAt ≤ s.gtime →
     let j := (List.range 20).map fun i => min (js.getD i 0) 127
     let k := (List.range 24).map fun i => min (ks.getD i 0) 127
     let limit := s.field .pwr 0 0x118 0 7
     let cool := (∀ x ∈ j, x < 110) ∧ ∀ x ∈ k, x < 110
     (¬cool → ∃ t, exec (.thermalSample js ks) s = .next t ∧ t.halted = true ∧ t.pwr.trip = true ∧ t.pins.trip = true ∧ t.life.fatal = true) ∧
     (cool → ∃ t, exec (.thermalSample js ks) s = .next t ∧ t.halted = s.halted ∧ t.pwr.sampleAt = s.gtime ∧
       t.pwr.hotJunction = (hottest j).1 ∧
       (∀ i, i < 16 → t.reg .dpw (i / 4) (0x110 + 4 * (i % 4)) = j.getD i 0) ∧
       ((∃ x ∈ j ++ k, limit ≤ x) → t.pwr.thermalFall = some true ∧
         t.pwr.thermal = some ((thermalAt s.pwr s.gtime).getD s.pwr.eff) ∧ t.pwr.thermalAt = s.gtime) ∧
       ((∀ x ∈ j ++ k, x + 2 ≤ limit) → ∀ v, thermalAt s.pwr s.gtime = some v → v < schedAt s s.gtime →
         t.pwr.thermalFall = some false ∧ t.pwr.thermal = some v) ∧
       ((∀ x ∈ j ++ k, x < limit) → (∃ x ∈ j, limit < x + 2) → ∀ v, thermalAt s.pwr s.gtime = some v →
         (s.pwr.thermalFall ≠ some false → t.pwr.thermalFall = none ∧ t.pwr.thermal = some v) ∧
         (s.pwr.thermalFall = some false → v < schedAt s s.gtime → t.pwr.thermalFall = some false ∧ t.pwr.thermal = s.pwr.thermal))))

/-- R71, R335, R343: a hold is raised and withdrawn; a unit that waits obtains its amperes on every rail where no limit is passed, and
waits on where one would be; a paid quiet debt frees its engine, and a half of the exchange then sends what it has made up.
Completes: exec answers a next state, under conditions on the state and the operands alone, for `holdRaise`, `holdRelease`, `reservationGranted`,
`quietDebtPaid`.
The model's readings it rests on: log entry 131. -/
def Obligations.HoldsAndReservations : Prop :=
  ∀ s : State,
    (∀ i : Fin 50, s.pins.inReset = false → ∃ t, exec (.holdRaise i none) s = .next t ∧ (t.islOf i).hold = true ∧ t.islandHeld i = true ∧
      ∀ j, j ≠ i.val → t.islOf j = s.islOf j) ∧
    (∀ (i : Fin 50) (e : Fin 70), s.pins.inReset = false → engineIsland e = i.val → s.pwr.resWait.contains e.val = false →
      ∃ t, exec (.holdRaise i (some e)) s = .next t ∧ t.engineHeld e = true ∧ (t.islOf i).hold = (s.islOf i).hold) ∧
    (∀ i : Fin 50, ∃ t, exec (.holdRelease i) s = .next t ∧ (t.islOf i).hold = false ∧ ∀ j, j ≠ i.val → t.islOf j = s.islOf j) ∧
    (∀ (i : Fin 50) (n : Nat), i.val = n → n < 20 → s.halted = false → s.obs.fatal = 0 → s.islOf n = { hold := true } → s.arrAssigned n = true →
      (s.arrOf n).state = .held → (s.arrOf n).wait = none → s.pwr.quietWait = [] → s.pwr.resWait = [] →
      ∃ t, exec (.holdRelease i) s = .next t ∧ (t.arrOf n).state = .idle) ∧
    (∀ (e : Fin 70) amps, s.pwr.resWait.contains e.val = true →
      (∀ r, r < 15 → amps.getD r 0 = 0 ∨ s.reserved r + amps.getD r 0 ≤ s.limitNow r) →
      ∃ t, exec (.reservationGranted e amps) s = .next t ∧ t.pwr.resWait.contains e.val = false) ∧
    (∀ (e : Fin 70) amps, s.pwr.resWait.contains e.val = true →
      (∀ r, r < 15 → amps.getD r 0 = 0 ∨ s.reserved r + amps.getD r 0 ≤ s.limitNow r) → tabWf 0 s.pwr.resv = true → e.val < 68 →
      (e.val < 40 → ∃ r, r < 15 ∧ amps.getD r 0 ≠ 0) →
      ∃ t, exec (.reservationGranted e amps) s = .next t ∧ ∀ r, r < 15 → t.reserved r = s.reserved r + amps.getD r 0) ∧
    (∀ (e : Fin 70) amps r, r < 15 → amps.getD r 0 ≠ 0 → s.limitNow r < s.reserved r + amps.getD r 0 →
      exec (.reservationGranted e amps) s = .next s) ∧
    (∀ e : Fin 70, s.pwr.quietWait.contains e.val = true → tabGet 0 s.pwr.debt e = 0 → 40 ≤ e.val → e.val < 68 →
      exec (.quietDebtPaid e) s = .next { s with pwr := { s.pwr with quietWait := s.pwr.quietWait.filter (· != e.val) } }) ∧
    (∀ e : Fin 70, s.pwr.quietWait.contains e.val = true → tabGet 0 s.pwr.debt e = 0 → e.val < 40 →
      ∃ t, exec (.quietDebtPaid e) s = .next t ∧ t.pwr.quietWait.contains e.val = false) ∧
    (∀ e : Fin 70, s.pwr.quietWait.contains e.val = true → tabGet 0 s.pwr.debt e = 0 → 68 ≤ e.val → exec (.quietDebtPaid e) s =
      .next (sendHalf { s with pwr := { s.pwr with quietWait := s.pwr.quietWait.filter (· != e.val) } } (e.val - 68)))

/-- R350, R352: the discipline of GTIME. A privileged write of GTIME_SET_HI arms a set, the host's is logged. The first edge locks and
steps GTIME forward to the next whole second or to the armed set; a later edge within 1 ms of a whole second slews the offset away, one
further out is counted and moves nothing; three seconds without an edge lose the lock. With no command waiting, a step is
one cycle of REF_CLK, in which the boot ROM begins to read the colophon (the model's choices).
Completes: exec answers a next state, under conditions on the state and the operands alone, for `gtimeSetArm`, `ppsEdge`, `ppsLockLoss`.
The model's readings it rests on: log entries 2, 128, 129, 153, 191. -/
def Obligations.TimeDiscipline : Prop :=
  ∀ s : State,
    let set := s.reg64 .pwr 0 0x130 0x134
    (∀ (p : Path) (v : W32), s.controls p .pwr → ∃ t, exec (.gtimeSetArm p v) s = .next t ∧ t.pwr = { s.pwr with armed := true } ∧
      t.reg .pwr 0 0x134 = v.toNat) ∧
    (∀ v : W32, s.pins.inReset = false → exec (.gtimeSetArm .host v) s = .next (logIgnored s .pwr 0 (pageBase .pwr 0 + 0x134))) ∧
    (∀ (p : Path) (v : W32), s.pins.inReset = true → exec (.gtimeSetArm p v) s = .next s) ∧
    (s.powerRuns = true → s.pwr.locked = false → s.pwr.armed = false → ∃ t, exec .ppsEdge s = .next t ∧ t.pwr.locked = true ∧
      t.gtime = (s.gtime / 10 ^ 9 + 1) * 10 ^ 9 ∧ t.pwr.slew = 0 ∧ t.pwr.lastEdge = t.gtime) ∧
    (s.powerRuns = true → s.pwr.locked = true → (ppsOffset s).natAbs ≤ 1000000 → s.pwr.armed = false →
      ∃ t, exec .ppsEdge s = .next t ∧ t.gtime = s.gtime ∧ t.pwr.slew = ppsOffset s ∧ t.pwr.lastEdge = s.gtime) ∧
    (s.powerRuns = true → s.pwr.armed = true → set % 10 ^ 9 = 0 → s.gtime < set → s.pwr.locked = false ∨ (ppsOffset s).natAbs ≤ 1000000 →
      ∃ t, exec .ppsEdge s = .next t ∧ t.gtime = set ∧ t.pwr.armed = false ∧ t.pwr.slew = 0) ∧
    (s.powerRuns = true → s.pwr.locked = true → 1000000 < (ppsOffset s).natAbs → exec .ppsEdge s = .next (s.bump .pwr 0 0x140 1)) ∧
    (s.pwr.locked = true → s.pwr.lastEdge + 3 * 10 ^ 9 ≤ s.gtime →
      exec .ppsLockLoss s = .next { s with pwr := { s.pwr with locked := false, slew := 0, slewPhase := 0 } }) ∧
    (s.pending = [] → s.pwr.slew = 0 → s.gtime + 10 < 2 ^ 64 → s.mgmt.held = [] → ∃ t, step s = .next t ∧ t.gtime = s.gtime + 10 ∧
      t.pending = [] ∧ t.mem = s.mem ∧ t.als = s.als ∧ t.dss = s.dss ∧ t.flash = s.flash ∧
      (∀ q, { t.queueOf q with since := none } = { s.queueOf q with since := none }) ∧
      t.boot = if s.boot = bsRom ∧ s.halted = false ∧ s.pins.inReset = false then bsColophon else s.boot)

/-- R15, R420: a failed bridge transfer is counted once as a retry, RETRY_MAX keeps the greatest number of attempts, and the ninth failure
is a fatal error of class BRIDGE.
R385, R388, R389: a fatal event of a crossing, of the front end or of a key store begins the fatal path and asserts FAULT_N; one of
the management controller, once the boot has left ROM (R359), halts the device with REASON 0x4. Each is latched in the lifetime record, and in OBS.FATAL where that holds
none.
R389–R391: the fatal path from the stop of the engines to the lifetime record. With a valid deposit region the dump begins once no
engine works, or after 10 ms with those that do recorded as not stopped; its end leaves DEPOSIT_STATUS complete and a record asked for.
With no region the record is asked for at once. While a row of the region is in copy (R174) none of this moves.
Completes: exec answers a next state, under conditions on the state and the operands alone, for `bridgeAttemptFail`, `feStateUncorrectable`,
`keyStoreUncorrectable`, `crossingSequenceFail`, `mgmtControllerFault`, `fatalEnginesStopped`, `fatalStopTimeout`, `depositWriteDone`.
The model's readings it rests on: log entries 112, 144, 145, 147, 149. -/
def Obligations.FatalErrors : Prop :=
  (∀ (s : State) (d : DieId) (k : Fin 3) (link first : Bool), s.halted = false → s.pins.inReset = false → (link = true → k.val = 2) →
     let n := if first then 1 else tabGet 0 s.bridge (bridgeKey d k (bit link)) + 1
     (n < 9 → ∃ t, exec (.bridgeAttemptFail d k link first) s = .next t ∧ t = { s with regs := t.regs, bridge := t.bridge } ∧
       tabGet 0 t.bridge (bridgeKey d k (bit link)) = n ∧ t.reg .noc d 0x10C = max (s.reg .noc d 0x10C) (n + 1) ∧
       t.reg .noc d (0x100 + 4 * k.val) = if n = 1 then satAdd 32 (s.reg .noc d (0x100 + 4 * k.val)) 1 else s.reg .noc d (0x100 + 4 * k.val)) ∧
     (9 ≤ n → ∃ t, exec (.bridgeAttemptFail d k link first) s = .next t ∧ tabGet 0 t.bridge (bridgeKey d k (bit link)) = 0 ∧
       t.life.fatal = true ∧ (s.obs.fatal = 0 → t.obs.fatal = 1 ∧ t.obs.fatalAt = s.gtime ∧ t.pins.fault = true) ∧
       (s.reg .obs 0 0x1D0 = 0 → bits (t.reg .obs 0 0x1D0) 0 8 = fcBridge ∧ bits (t.reg .obs 0 0x1D0) 8 12 = pageBase .noc d / 0x1000))) ∧
  (∀ s : State, s.halted = false → s.pins.inReset = false →
     let begins := fun (i : Instr) (cls : Nat) (b : Block) (k : Nat) =>
       ∃ t, exec i s = .next t ∧ t.life.fatal = true ∧ t.life.fatals = satAdd 32 s.life.fatals 1 ∧ t.halted = false ∧
         (s.obs.fatal = 0 → t.obs.fatal = 1 ∧ t.obs.fatalAt = s.gtime ∧ t.pins.fault = true) ∧
         (s.reg .obs 0 0x1D0 = 0 → bits (t.reg .obs 0 0x1D0) 0 8 = cls ∧ bits (t.reg .obs 0 0x1D0) 8 12 = pageBase b k / 0x1000)
     begins .feStateUncorrectable fcFeState .fe 0 ∧ begins (.keyStoreUncorrectable none) fcKeyStore .sec 0 ∧
     (∀ k : StackId, begins (.keyStoreUncorrectable (some k)) fcKeyStore .mpe k) ∧
     (∀ k : Fin 50, begins (.crossingSequenceFail k) fcCrossing (islandPage k).1 (islandPage k).2) ∧
     (s.boot = bsRom → exec .mgmtControllerFault s = .next s) ∧
     (s.boot ≠ bsRom → ∃ t, exec .mgmtControllerFault s = .next t ∧ t.halted = true ∧ t.pins.fault = true ∧ t.pins.ready = false ∧
       t.field .sec 0 0x100 0 4 = 0xF ∧ t.field .sec 0 0x100 4 4 = 4 ∧ t.life.fatal = true ∧
       (s.reg .obs 0 0x1D0 = 0 → bits (t.reg .obs 0 0x1D0) 0 8 = fcMgmt))) ∧
  (∀ s : State, s.halted = false → dumpWaits s = true → ∀ i ∈ [Instr.fatalEnginesStopped, .fatalStopTimeout, .depositWriteDone],
     exec i s = .next s) ∧
  (∀ s : State, s.halted = false → dumpWaits s = false →
     s.pwr.trip = false →
     (s.obs.fatal = 1 → (List.range 49).all s.islandIdle = true → ∃ t, exec .fatalEnginesStopped s = .next t ∧
       (∀ base, s.depositBase = some base → t.obs.fatal = 2 ∧ t.reg .obs 0 0x1C8 = 0x101) ∧
       (s.depositBase = none → t.obs.fatal = 3 ∧ t.logBusy = true)) ∧
     (s.obs.fatal = 1 → 10000000 + s.obs.fatalAt ≤ s.gtime → ∃ t, exec .fatalStopTimeout s = .next t ∧
       (∀ base, s.depositBase = some base → t.obs.fatal = 2) ∧ (s.depositBase = none → t.obs.fatal = 3) ∧
       (∀ u ∈ dumpUnits, unitBusy s u = true → ∃ r ∈ t.obs.stopped, r.engine = u.1 ∧ r.unit = u.2) ∧
       ∀ r ∈ s.obs.stopped, r ∈ t.obs.stopped) ∧
     (∀ base, s.depositBase = some base → s.obs.fatal = 2 → ∃ t, exec .depositWriteDone s = .next t ∧ t.obs.fatal = 3 ∧
       t.reg .obs 0 0x1C8 = (if s.field .obs 0 0x1C8 0 3 = 3 then 3 else 2) ∧ t.logBusy = true))

/-- R345, R392–R394: the lifetime log. A completed write has put the record in flash at its place and counts SEQ; FLUSH begins a write or
asks for a further one, but none after a trip or in HALTED (R389), and in reset no write of LOG_CTRL changes anything (R407); 600 s of powered time begin one; each second adds one to a bin of every histogram; a margin of less than 20 mV
derates its array by one step, to the floor of 0x6F.
Completes: exec answers a next state, under conditions on the state and the operands alone, for `logWriteDone`, `logFlush`, `logPeriodicWrite`,
`lifetimeSecondTick`, `marginMeasure`.
The model's readings it rests on: log entries 138, 139, 153. -/
def Obligations.LifetimeLog : Prop :=
  ∀ s : State,
    (s.halted = true ∨ s.pwr.trip = true → exec .logWriteDone s = .next s) ∧
    (s.halted = false → s.pwr.trip = false →
    (s.logBusy = true → s.obs.flushNext = none → ∃ t, exec .logWriteDone s = .next t ∧ t.flash = loggedFlash s ∧
      t.life.seq = (s.life.seq + 1) % 2 ^ 64 ∧ t.life.fatal = false ∧ t.reg .obs 0 0x204 = s.life.seq % 2 ^ 32 ∧ t.logBusy = false) ∧
    (∀ b, s.logBusy = true → s.obs.flushNext = some b → ∃ t, exec .logWriteDone s = .next t ∧ t.flash = loggedFlash s ∧
      t.logBusy = true ∧ t.obs.flushNext = none ∧ t.obs.flushNow = b) ∧
    (∀ (p : Path) (v : W32), s.controls p .obs → v.toNat.testBit 0 = true →
      (s.logBusy = false → ∃ t, exec (.logFlush p v) s = .next t ∧ t.logBusy = true ∧ t.obs.flushNow = v.toNat.testBit 1) ∧
      (s.logBusy = true → ∃ t, exec (.logFlush p v) s = .next t ∧ t.logBusy = true ∧ t.obs.flushNext = some (v.toNat.testBit 1))) ∧
    (s.firmware = true → s.life.begun = true → s.obs.periodicAt + 600 ≤ s.life.powerOn → s.logBusy = false →
      ∃ t, exec .logPeriodicWrite s = .next t ∧ t.logBusy = true ∧ t.obs.flushNow = false ∧ t.obs.periodicAt = s.life.powerOn)) ∧
    (∀ v : W32, s.pins.inReset = false → exec (.logFlush .host v) s = .next (logIgnored s .obs 0 (pageBase .obs 0 + 0x200))) ∧
    (∀ (p : Path) (v : W32), s.pins.inReset = true → exec (.logFlush p v) s = .next s) ∧
    (∀ temps watts, s.firmware = true → s.pwr.trip = false → s.obs.logSecond < s.gtime / 10 ^ 9 →
      ∃ t, exec (.lifetimeSecondTick temps watts) s = .next t ∧ t.obs.logSecond = s.gtime / 10 ^ 9 ∧
        t.life.powerOn = satAdd 64 s.life.powerOn 1 ∧ t.life.power = addBin s.life.power 32 (binOf 800 100 25 watts) ∧
        ∀ g k, g < 6 → k < 16 → tabGet 0 t.life.temp (32 * g + k) =
          if k = binOf 40 5 15 (temps.getD g 0) then satAdd 32 (tabGet 0 s.life.temp (32 * g + k)) 1 else tabGet 0 s.life.temp (32 * g + k)) ∧
    ∀ (n : ArrayId) mv, s.firmware = true → s.arrayDisabled n = false → (s.ctx.any fun e => e.2.map.any fun m => m.2 == n.val + 1) = false →
      86400 + tabGet 0 s.obs.marginAt n ≤ s.life.powerOn →
      let eff := s.field .pwr 0 (0x180 + 4 * n.val) 8 8
      let new := if mv < 20 ∧ 0x6F < eff then eff - 1 else eff
      ∃ t, exec (.marginMeasure n mv) s = .next t ∧ t.field .pwr 0 (0x180 + 4 * n.val) 8 8 = new ∧ tabGet 0 t.life.fmaxEff n = new ∧
        tabGet 0 t.obs.marginAt n = s.life.powerOn ∧ (mv < 20 → eff ≤ 0x6F → t.life.fmaxFloor = true) ∧
        tabGet 0 t.life.margin (32 * n.val + binOf 10 5 15 mv) = satAdd 16 (tabGet 0 s.life.margin (32 * n.val + binOf 10 5 15 mv)) 1

/-- R305–R308: STEP_ADVANCE counts the step on or sets it, and writes the snapshot of what it leaves; SEED_SET changes the parts whose bits
are set, and no other.
R379, R382–R384: COUNTER_READ delivers the block taken at the command's start, and needs a resident context of a kernel queue;
GCOUNTER_READ delivers every selected value or ends TARGET. A ledger sample of a ring with room is written, named by the multiple of the
period; one that meets a full ring is counted and marks the next record.
Completes: exec answers a next state, under conditions on the state and the operands alone, for `stepAdvance`, `seedSet`, `counterRead`,
`gcounterRead`, `ledgerSample`.
The model's readings it rests on: log entries 112, 150. -/
def Obligations.StepSeedAndCounters : Prop :=
  (∀ (s : State) (q : QueueId) (c : Cmd),
     let k := s.feCtx q
     let x := s.ctxOf k
     let y := { x with step := if c.raw.testBit 64 then fld c.raw 0x10 0 64 else (x.step + 1) % 2 ^ 64 }
     (actCmd s q 0x02 = some c → fld c.raw 0x18 0 64 = 0 →
       ∃ t, exec (.stepAdvance q) s = .next t ∧ t.ctx = (s.setCtx k y).ctx ∧ t.mem = s.mem ∧ t.cmdEnded q c.n stOk) ∧
     (∀ u b e, actCmd s q 0x02 = some c → fld c.raw 0x18 0 64 ≠ 0 →
       feWrite (s.setCtx k y) q (fld c.raw 0x18 0 64) (snapshot y) = (u, .ok b e) → e.any id = false →
       ∃ t, exec (.stepAdvance q) s = .next t ∧ t.ctxOf k = y ∧ t.mem = u.mem ∧ t.cmdEnded q c.n stOk) ∧
     (actCmd s q 0x03 = some c → ∃ t, exec (.seedSet q) s = .next t ∧ t.cmdEnded q c.n stOk ∧
       (∀ j, j ≠ k → t.ctxOf j = s.ctxOf j) ∧
       t.ctxOf k = { x with seed := if c.raw.testBit 64 then fld c.raw 0x10 0 64 else x.seed
                            choice := if c.raw.testBit 66 then fld c.raw 0x20 0 64 else x.choice
                            logLog2 := if c.raw.testBit 65 then fld c.raw 8 3 5 else x.logLog2
                            logBase := if c.raw.testBit 65 then fld c.raw 0x18 0 64 else x.logBase })) ∧
  (∀ (s : State) (q : QueueId) (c : Cmd),
     (∀ u b e, actCmd s q 0x90 = some c → (q.val < 1024 ∨ (s.ctxOf (fld c.raw 8 0 6)).resident = true) →
       feWrite s q (fld c.raw 0x10 0 64) ((List.range 16).flatMap fun i => leBytes (c.snap.getD i 0) 8) = (u, .ok b e) → e.any id = false →
       ∃ t, exec (.counterRead q) s = .next t ∧ t.mem = u.mem ∧ t.cmdEnded q c.n stOk) ∧
     (actCmd s q 0x90 = some c → 1024 ≤ q.val → (s.ctxOf (fld c.raw 8 0 6)).resident = false →
       ∃ t, exec (.counterRead q) s = .next t ∧ t.mem = s.mem ∧ t.cmdEnded q c.n stTarget) ∧
     (∀ vs u b e, actCmd s q 0xE0 = some c →
       selectedAll s ((List.range (fld c.raw 8 0 3)).map fun i => fld c.raw (0x18 + 4 * i) 0 32) = some vs →
       feWrite s q (fld c.raw 0x10 0 64) (vs.flatMap fun v => leBytes v 8) = (u, .ok b e) → e.any id = false →
       ∃ t, exec (.gcounterRead q) s = .next t ∧ t.mem = u.mem ∧ t.cmdEnded q c.n stOk) ∧
     (actCmd s q 0xE0 = some c → selectedAll s ((List.range (fld c.raw 8 0 3)).map fun i => fld c.raw (0x18 + 4 * i) 0 32) = none →
       ∃ t, exec (.gcounterRead q) s = .next t ∧ t.mem = s.mem ∧ t.cmdEnded q c.n stTarget) ∧
     let p := s.ledgerPeriod
     let time := s.gtime / p * p
     let tail := s.reg .obs 0 0x10C
     let full := (2 ^ 32 + tail - s.reg .obs 0 0x110) % 2 ^ 32 = 2 ^ s.ledgerLog
     p ≠ 0 → s.halted = false → s.gtime < time + 11 → s.obs.ledgerAt ≠ time + 1 →
       (¬full → ∃ t, exec .ledgerSample s = .next t ∧ t.reg .obs 0 0x10C = (tail + 1) % 2 ^ 32 ∧ t.obs.ledgerLost = false ∧
         (let at_ := s.ledgerBase + tail % 2 ^ s.ledgerLog * s.ledgerSize
          let busy := rowsBusy s at_ (ledgerRecord s time).length
          (busy = false → t.mem = (devWrite s 64 at_ (ledgerRecord s time)).1.mem) ∧
          (busy = true → t.mem = { s.mem with waiting := s.mem.waiting ++ [.ring at_ (ledgerRecord s time) none] })) ∧
         t.obs.ledgerNo = (s.obs.ledgerNo + 1) % 2 ^ 32) ∧
       (full → ∃ t, exec .ledgerSample s = .next t ∧ t.mem = s.mem ∧ t.obs.ledgerLost = true ∧ t.reg .obs 0 0x10C = tail ∧
         t.reg .obs 0 0x114 = satAdd 32 (s.reg .obs 0 0x114) 1))

/-- R369, R370: a session opens where firmware runs, the configuration is committed, fewer than four are open, the client's offer is one that
the port takes, which it answers with its flight, and the client's chain, signature and Finished message verify up to an anchor in force; a
failed handshake is counted and opens none. The anchor's fingerprint is that of a certificate of the chain; a client's certificate that
is an anchor itself is one in DER that is valid at GTIME and names the use. 300 s without a message close one.
R370, R371: what each message that reads answers on a session of class READ. Whatever a message asks for, a header that is none of a
request is a BAD_REQUEST, a class too low is DENIED, a message behind one of any session that is not answered waits, and a message of no
session, or of another TYPE, does nothing. A message that is out of range is a BAD_REQUEST.
Completes: exec answers a next state, under conditions on the state and the operands alone, for `mgmtSessionOpen`, `sessionIdleTimeout`,
`identity`, `mgmtRegRead`, `mgmtCounterRead`, `depositRead`, `logRead`.
The model's readings it rests on: log entries 1, 141, 142, 188, 191, 206, 207. -/
def Obligations.ManagementMessages : Prop :=
  (∀ s : State,
     (∀ client chain u f k, s.mgmtOpen = true → s.mgmt.sessions.length < 4 → portFlight s client = (u, some f) →
       tlsAnchor s client chain f = some k → ∃ t, exec (.mgmtSessionOpen client chain) s = .next t ∧
       t.mgmt.sessions = s.mgmt.sessions ++ [⟨s.mgmt.nextSession, s.anchorClass k, k, s.gtime⟩] ∧ t.regs = s.regs ∧
       t.outbox = s.outbox ++ [{ kind := .tls, dest := s.mgmt.nextSession, data := ofNats f.sent }]) ∧
     (∀ client chain, s.mgmtOpen = true → s.mgmt.sessions.length < 4 → (∀ f, (portFlight s client).2 = some f → tlsAnchor s client chain f = none) →
       ∃ t, exec (.mgmtSessionOpen client chain) s = .next t ∧ t.mgmt = s.mgmt ∧ t.regs = (s.bump .sec 0 0x10C 1).regs) ∧
     (∀ client chain, s.mgmtOpen = false ∨ 4 ≤ s.mgmt.sessions.length → exec (.mgmtSessionOpen client chain) s = .next s) ∧
     (∀ client chain f k, tlsAnchor s client chain f = some k →
       s.anchorClass k ≠ 0 ∧ ∃ der ∈ chain, tabGet 0 s.mgmt.anchors k / 4 = sha384Of der) ∧
     (∀ der k c, chainAnchor s [der] = some (k, c) →
       x509 (nats der) = some c ∧ validNow s c.notBefore c.notAfter = true ∧ c.usage 0 = true ∧ c.forClient = true) ∧
     ∀ sid, ∃ t, exec (.sessionIdleTimeout sid) s = .next t ∧ t = { s with mgmt := t.mgmt } ∧
       ∀ x, x ∈ t.mgmt.sessions ↔ x ∈ s.mgmt.sessions ∧ (x.id ≠ sid ∨ s.gtime < x.last + 300 * 10 ^ 9)) ∧
  (∀ (s : State) (sid : Nat) (m : MsgHead) (x : MgmtReq) (i : Instr), mgmtCarries i sid m x →
     let h := s.heard sid
     let row := mgmtRow x
     let fits := m.type.val = row.1 ∨ m.type.val = 0 ∨ 12 < m.type.val
     ((s.mgmt.sessions.any fun y => y.id == sid) = false ∨ s.mgmtOpen = false ∨ ¬fits → exec i s = .next s) ∧
     (fits → s.mgmtOpen = true → (s.mgmt.sessions.any fun y => y.id == sid) = true →
       s.mgmt.attest ≠ [] ∨ s.mgmt.held ≠ [] →
       exec i s = .next { h with mgmt := { h.mgmt with held := s.mgmt.held ++ [⟨sid, m, x⟩] } }) ∧
     (fits → s.mgmtReady sid 0 → mgmtClear s x → ¬goodHead m row.1 row.2.2 →
       exec i s = .next (mgmtReply h sid m.type.val m.rid.toNat msBadRequest [])) ∧
     (s.mgmtReady sid 0 → ¬s.mgmtReady sid row.2.1 → mgmtClear s x → goodHead m row.1 row.2.2 →
       exec i s = .next (mgmtReply h sid row.1 m.rid.toNat msDenied []))) ∧
  (∀ (s : State) (sid : Nat) (m : MsgHead), s.mgmtReady sid clsRead →
     let h := s.heard sid
     let r := m.rid.toNat
     let part := fun o n => tabSlice 0 s.flash (s.colophonBase + o) n
     (goodHead m 0x0001 (some 0) → exec (.identity sid m) s =
       .next (mgmtReply h sid 0x0001 r msOk (part 0 0xD0 ++ part 0x100 480 ++ part 0x5300 32 ++ part 0x5320 24544))) ∧
     (∀ os : List Nat, goodHead m 0x0003 (some (4 * os.length)) →
       (os.length ≤ 64 → (∀ o ∈ os, o % 4 = 0 ∧ o < 2 ^ 24) →
         let x := readRegs .mgmt h os
         exec (.mgmtRegRead sid m os) s = .next (mgmtReply x.1 sid 0x0003 r msOk (x.2.flatMap fun v => leBytes v 4))) ∧
       (64 < os.length ∨ (∃ o ∈ os, o % 4 ≠ 0 ∨ 2 ^ 24 ≤ o) →
         exec (.mgmtRegRead sid m os) s = .next (mgmtReply h sid 0x0003 r msBadRequest []))) ∧
     (∀ sels : List Nat, goodHead m 0x0005 (some (4 * sels.length)) →
       (∀ vs, sels.length ≤ 64 → (∀ x ∈ sels, x.testBit 11 = false ∧ x < 2 ^ 24) → selectedAll h sels = some vs →
         exec (.mgmtCounterRead sid m sels) s = .next (mgmtReply h sid 0x0005 r msOk (vs.flatMap fun v => leBytes v 8))) ∧
       (64 < sels.length ∨ (∃ x ∈ sels, x.testBit 11 = true ∨ 2 ^ 24 ≤ x) ∨ selectedAll h sels = none →
         exec (.mgmtCounterRead sid m sels) s = .next (mgmtReply h sid 0x0005 r msBadRequest []))) ∧
     (∀ off len, goodHead m 0x0009 none →
       (∀ base, s.depositBase = some base → len ≤ 65536 → off + len ≤ 64 * 2 ^ 20 → rowsBusy s (base + off) len = false →
         let x := devRead h 64 (base + off) len
         x.2.bus = false → exec (.depositRead sid m off len) s = .next (mgmtReply x.1 sid 0x0009 r msOk x.2.bytes)) ∧
       (∀ base, s.depositBase = some base → len ≤ 65536 → off + len ≤ 64 * 2 ^ 20 → rowsBusy s (base + off) len = true →
         exec (.depositRead sid m off len) s = .next { h with mgmt := { h.mgmt with held := s.mgmt.held ++ [⟨sid, m, .depositRead off len⟩] } }) ∧
       (s.depositBase = none → len ≤ 65536 → off + len ≤ 64 * 2 ^ 20 →
         exec (.depositRead sid m off len) s = .next (mgmtReply h sid 0x0009 r msUnavailable [])) ∧
       (65536 < len ∨ 64 * 2 ^ 20 < off + len →
         exec (.depositRead sid m off len) s = .next (mgmtReply h sid 0x0009 r msBadRequest []))) ∧
     (∀ off len, goodHead m 0x000A none →
       (8192 ≤ off → len ≤ 65536 → off + len ≤ 8192 + 0x3E00000 →
         exec (.logRead sid m off len) s = .next (mgmtReply h sid 0x000A r msOk (tabSlice 0 s.flash (0x200000 + (off - 8192)) len))) ∧
       (off + len ≤ 8192 →
         exec (.logRead sid m off len) s = .next (mgmtReply h sid 0x000A r msOk (((lifeBytes s.life s.life.seq false).drop off).take len))) ∧
       (65536 < len ∨ 8192 + 0x3E00000 < off + len →
         exec (.logRead sid m off len) s = .next (mgmtReply h sid 0x000A r msBadRequest []))))

/-- R338, R370, R371, R373: what each message that changes something does on a session of class CONTROL: registers of five blocks and no
other; the power table, BUSY when full; the configuration never; an anchor, with the sessions of one that is replaced; the unlock, which
clears every context's key slot, stops the front end and marks the device. A message that is out of range is a BAD_REQUEST. On a session
of class READ each is DENIED.
Completes: exec answers a next state, under conditions on the state and the operands alone, for `mgmtRegWrite`, `setpoint`, `mgmtMode`,
`dcbWrite`, `trustSet`, `debugUnlock`.
The model's readings it rests on: log entries 142, 143, 206. -/
def Obligations.ManagementControls : Prop :=
  ∀ (s : State) (sid : Nat) (m : MsgHead),
    let h := s.heard sid
    let r := m.rid.toNat
    (s.mgmtReady sid clsControl →
      (∀ ws : List (Nat × Nat), goodHead m 0x0004 (some (8 * ws.length)) → ws.length ≤ 64 → (∀ w ∈ ws, w.1 % 4 = 0 ∧ w.1 < 2 ^ 24) →
        exec (.mgmtRegWrite sid m ws) s = .next (if ws.all (fun w => mgmtWritable w.1)
          then mgmtReply (ws.foldl (fun s w => writeReg .mgmt s w.1 w.2) h) sid 0x0004 r msOk []
          else mgmtReply h sid 0x0004 r msDenied [])) ∧
      (∀ ws : List (Nat × Nat), goodHead m 0x0004 (some (8 * ws.length)) → 64 < ws.length ∨ (∃ w ∈ ws, w.1 % 4 ≠ 0 ∨ 2 ^ 24 ≤ w.1) →
        exec (.mgmtRegWrite sid m ws) s = .next (mgmtReply h sid 0x0004 r msBadRequest [])) ∧
      (∀ (w : W32) start, goodHead m 0x0006 none → 720 ≤ bits w.toNat 0 12 → bits w.toNat 0 12 ≤ s.tdp → bits w.toNat 16 11 ≤ 2000 → bits w.toNat 12 4 = 0 →
        bits w.toNat 27 5 = 0 → exec (.setpoint sid m w start) s = .next (match enterPwr h (setpointEntry w.toNat start) with
          | some t => mgmtReply t sid 0x0006 r msOk []
          | none => mgmtReply h sid 0x0006 r msBusy [])) ∧
      (∀ (w : W32) start, goodHead m 0x0006 none → bits w.toNat 0 12 < 720 ∨ s.tdp < bits w.toNat 0 12 ∨ 2000 < bits w.toNat 16 11 →
        exec (.setpoint sid m w start) s = .next (mgmtReply h sid 0x0006 r msBadRequest [])) ∧
      (∀ (w : W32) start, goodHead m 0x0007 none → w.toNat < 2 → exec (.mgmtMode sid m w start) s = .next (match enterPwr h (modeEntry w.toNat start) with
          | some t => mgmtReply t sid 0x0007 r msOk []
          | none => mgmtReply h sid 0x0007 r msBusy [])) ∧
      (∀ (w : W32) start, goodHead m 0x0007 none → 2 ≤ w.toNat →
        exec (.mgmtMode sid m w start) s = .next (mgmtReply h sid 0x0007 r msBadRequest [])) ∧
      (goodHead m 0x0008 none →
        exec (.dcbWrite sid m) s = .next (mgmtReply h sid 0x0008 r msUnavailable (leBytes (s.reg .mbx 0 0xF04) 4))) ∧
      (∀ k cls fp, goodHead m 0x000B none → k < 4 → cls ≤ 2 → fp < 2 ^ 384 → ∃ t, exec (.trustSet sid m k cls fp) s = .next t ∧
        tabGet 0 t.mgmt.anchors k = (if cls = 0 then 0 else cls + 4 * fp) ∧
        (∀ j, j ≠ k → tabGet 0 t.mgmt.anchors j = tabGet 0 s.mgmt.anchors j) ∧
        (tabGet 0 s.mgmt.anchors k ≠ tabGet 0 t.mgmt.anchors k → ∀ x ∈ t.mgmt.sessions, x.anchor ≠ k)) ∧
      (∀ k cls fp, goodHead m 0x000B none → 4 ≤ k ∨ 2 < cls →
        exec (.trustSet sid m k cls fp) s = .next (mgmtReply h sid 0x000B r msBadRequest [])) ∧
      (goodHead m 0x000C (some 0) → ∃ t, exec (.debugUnlock sid m) s = .next t ∧ t.mgmt.debugHalt = true ∧ t.feRuns = false ∧ (t.reg .sec 0 0x100).testBit 12 = true ∧
        ∀ c, c < 64 → t.mem.keyOf c = 0)) ∧
    (s.mgmtReady sid clsRead → ¬s.mgmtReady sid clsControl →
      (∀ ws : List (Nat × Nat), goodHead m 0x0004 (some (8 * ws.length)) → exec (.mgmtRegWrite sid m ws) s = .next (mgmtReply h sid 0x0004 r msDenied [])) ∧
      (∀ w start, goodHead m 0x0006 none → exec (.setpoint sid m w start) s = .next (mgmtReply h sid 0x0006 r msDenied [])) ∧
      (∀ w start, goodHead m 0x0007 none → exec (.mgmtMode sid m w start) s = .next (mgmtReply h sid 0x0007 r msDenied [])) ∧
      (goodHead m 0x0008 none → exec (.dcbWrite sid m) s = .next (mgmtReply h sid 0x0008 r msDenied [])) ∧
      (∀ k cls fp, goodHead m 0x000B none → exec (.trustSet sid m k cls fp) s = .next (mgmtReply h sid 0x000B r msDenied [])) ∧
      (goodHead m 0x000C (some 0) → exec (.debugUnlock sid m) s = .next (mgmtReply h sid 0x000C r msDenied [])))

/-- R372, R373: a report is asked for with a nonce of 32 bytes and answered in order, its body, which carries the nonce and GTIME, signed with
both device keys; the messages that waited for it are then processed. Boundary scan answers at all times, debug instructions only once the
device is unlocked.
R374: the sideband. Its 32 bytes are refreshed every 100 ms; a byte read answers the byte, or what the read of its field's lowest byte
captured; a block read's byte i is that of offset (o + i) mod 32, so that it goes on from 0x1F to 0x00; a write is acknowledged by its address alone.
Completes: exec answers a next state, under conditions on the state and the operands alone, for `attest`, `attestReportDone`, `testPortAccess`,
`smbusRefresh`, `smbusRead`, `smbusWrite`.
The model's readings it rests on: log entries 1, 2, 133, 141, 184, 199. -/
def Obligations.AttestationAndSideband : Prop :=
  (∀ (s : State) (sid : Nat) (m : MsgHead),
     (∀ nonce : List Byte, s.mgmtReady sid clsRead → goodHead m 0x0002 (some nonce.length) → nonce.length = 32 →
       ∃ t, exec (.attest sid m nonce) s = .next t ∧ t.outbox = s.outbox ∧
       t.mgmt.attest = s.mgmt.attest ++ [(sid, m.rid.toNat, leNat nonce)]) ∧
     (∀ nonce : List Byte, s.mgmtReady sid clsRead → goodHead m 0x0002 (some nonce.length) → nonce.length ≠ 32 →
       exec (.attest sid m nonce) s = .next (mgmtReply (s.heard sid) sid 0x0002 m.rid.toNat msBadRequest [])) ∧
     (∀ i r nonce rest, s.mgmt.attest = (i, r, nonce) :: rest → s.mgmtOpen = true → (s.mgmt.sessions.any fun x => x.id == i) = true →
       ∃ t, exec .attestReportDone s = .next (serveMessages t) ∧ (s.mgmt.held = [] → serveMessages t = t) ∧
         t.mgmt = { s.mgmt with attest := rest } ∧ t.reg .sec 0 0x114 = (s.reg .sec 0 0x114 + 1) % 2 ^ 32 ∧
         t.outbox = s.outbox ++ [{ kind := .mgmtReply, dest := i, args := [0x0002, r, msOk], data := signedReport s (reportBody s nonce) (freeBytes s 64).2 }]) ∧
     ∀ a : TapAccess,
       let shown := { s with pins := { s.pins with shift := a.shift } }
       (a.debug = false ∨ (s.reg .sec 0 0x100).testBit 12 = true →
         exec (.testPortAccess a) s = .next (shown.send { kind := .testPort, args := [bit a.debug] })) ∧
       (a.debug = true → (s.reg .sec 0 0x100).testBit 12 = false → exec (.testPortAccess a) s = .next shown)) ∧
  (∀ s : State, s.pins.inReset = false →
     (100000000 + s.mgmt.smbAt ≤ s.gtime →
       exec .smbusRefresh s = .next { s with mgmt := { s.mgmt with smb := sideband s, smbAt := s.gtime } }) ∧
     (s.gtime < 100000000 + s.mgmt.smbAt → exec .smbusRefresh s = .next s) ∧
     (∀ (o : Fin 32) (n : Fin 33), (∀ f ∈ smbFields, o.val < f.1 ∨ f.1 + f.2 ≤ o.val) →
       exec (.smbusRead o n false false) s = .next (s.send { kind := .smbusReply, dest := 0x4C, args := [0], data := [BitVec.ofNat 8 (s.mgmt.smb.getD o 0)] })) ∧
     (∀ (o : Fin 32) (n : Fin 33) f, f ∈ smbFields → o.val = f.1 → ∃ t, exec (.smbusRead o n false false) s = .next t ∧
       t.outbox = s.outbox ++ [{ kind := .smbusReply, dest := 0x4C, args := [0], data := [BitVec.ofNat 8 (s.mgmt.smb.getD o 0)] }] ∧
       ∀ i, f.1 ≤ i → i < f.1 + f.2 → t.mgmt.smbHeld.getD i 0 = s.mgmt.smb.getD i 0) ∧
     (∀ (o : Fin 32) (n : Fin 33) f, f ∈ smbFields → f.1 < o.val → o.val < f.1 + f.2 →
       exec (.smbusRead o n false false) s = .next (s.send { kind := .smbusReply, dest := 0x4C, args := [0], data := [BitVec.ofNat 8 (s.mgmt.smbHeld.getD o 0)] })) ∧
     (∀ (o : Fin 32) (n : Fin 33), ∃ t m, exec (.smbusRead o n true false) s = .next t ∧ t.outbox = s.outbox ++ [m] ∧
       m.data.length = n.val + 1 ∧ m.data.head? = some (BitVec.ofNat 8 n.val) ∧
       ∀ i, i < n.val → let at_ := (o.val + i) % 32
         m.data[i + 1]? = some (BitVec.ofNat 8
           (if smbFields.any (fun f => decide (f.1 + i < at_) && decide (at_ < f.1 + f.2)) then s.mgmt.smbHeld.getD at_ 0 else s.mgmt.smb.getD at_ 0))) ∧
     ∀ bytes, exec (.smbusWrite bytes) s = .next (s.send { kind := .smbusReply, dest := 0x4C, args := 0 :: bytes.map fun _ => 1 }))

/-- R399–R401, R406, R407: the reset pins. An accepted reset stops every island, loses every key set and leaves GTIME, the flash and what
the stacks hold; the effective release, 10 ms after power is good, starts GTIME from zero with the straps sampled, and a reserved BOOT_SRC
halts the device. READY is off in reset and driven low from the release on; a fall of the rails takes a release of PKG_RESET_N that came
before it away.
Completes: exec answers a next state, under conditions on the state and the operands alone, for `pkgResetAssert`, `pkgResetRelease`,
`pwrGoodRise`, `pwrGoodFall`, `effectiveResetRelease`.
The model's readings it rests on: log entries 1, 130, 134, 186. -/
def Obligations.ResetPins : Prop :=
  ∀ s : State,
    let held := fun (t : State) => t.pins.inReset = true ∧ t.halted = true ∧ (∀ o, t.mem.keyOf o = 0) ∧ t.mem.bytes = s.mem.bytes ∧
      t.flash = s.flash ∧ t.gtime = s.gtime ∧ t.regs = [] ∧ t.arr = [] ∧ t.queues = [] ∧ t.ctx = [] ∧ t.pins.ready = false ∧
      t.pins.fault = false ∧ t.pins.trip = false ∧ t.readyPin = .off ∧ t.faultPin = .off ∧ t.tripPin = .off ∧ t.pending = s.pending
    (∃ t, exec .pkgResetAssert s = .next t ∧ held t ∧ t.pins.resetN = false) ∧
    (s.pins.resetN = false → exec .pkgResetRelease s = .next { s with pins := { s.pins with resetN := true, released := true } }) ∧
    (s.pins.powerGood = false → exec .pwrGoodRise s =
      .next { s with pins := { s.pins with powerGood := true, goodFor := 0 }, mgmt := { s.mgmt with powerUp := s.mgmt.powerUp + 1 } }) ∧
    (s.pins.powerGood = true → s.pins.inReset = false → ∃ t, exec .pwrGoodFall s = .next t ∧ held t ∧ t.pins.powerGood = false ∧
      t.pins.released = false) ∧
    (s.pins.powerGood = true → s.pins.inReset = true →
      exec .pwrGoodFall s = .next { s with pins := { s.pins with powerGood := false, goodFor := 0, released := false } }) ∧
    ∀ straps : Fin 512, s.pins.inReset = true → s.pins.resetN = true → s.pins.released = true → s.pins.powerGood = true →
      (1000000 ≤ s.pins.goodFor → ∃ t, exec (.effectiveResetRelease straps) s = .next t ∧ t.gtime = 0 ∧ t.pins.inReset = false ∧
        t.reg .dev 0 0x100 = straps.val ∧ t.bootSrc = bits straps.val 7 2 ∧ t.readyPin = .low ∧ (bits straps.val 7 2 < 2 → t.halted = false) ∧
        (2 ≤ bits straps.val 7 2 → t.halted = true ∧ t.boot = bsHalted ∧ t.field .sec 0 0x100 4 4 = 3)) ∧
      (s.pins.goodFor < 1000000 → exec (.effectiveResetRelease straps) s = .next s)

/-- R355–R359: the boot ROM uses copy A of the colophon, copy B where A does not verify, and halts with REASON 0x1 with neither. With both
device keys unwrapped the Brixcia port is enabled, and the network asked where BOOT_SRC says so; without them the device halts with REASON
0x2. An outcome that is not what the model finds does nothing (the model's choice).
R331, R359, R361: how an image arrives. GO is taken while an image is awaited, its length checked; a load begins with its first bytes;
the link's image is whole when every piece of it has been answered; a network image is asked for of the offer's server by its file's name
and comes block by block, each acknowledged, the short one last; 1 s without an answer is retried five times, and the timeout after them and
an image too large start again. R369: firmware asks for an address alone and takes any offer.
Completes: exec answers a next state, under conditions on the state and the operands alone, for `colophonVerifyDone`, `pufUnwrapDone`, `bootGo`,
`imageTransferBegin`, `bootImageLoaded`, `dhcpOfferRx`, `dhcpRetry`, `tftpBlockRx`, `tftpTimeout`.
The model's readings it rests on: log entries 1, 20, 117, 118, 136, 179, 185, 186, 187, 190, 191, 199, 204. -/
def Obligations.BootImages : Prop :=
  (∀ s : State, s.pins.inReset = false →
     let from_ := fun (t : State) (base : Nat) => t.boot = bsPuf ∧ t.reg .dev 0 0x104 = bits (tabGet 0 s.flash (base + 0x20)).toNat 0 5 ∧
       t.reg .dev 0 0x108 = bits (s.flash32 (base + 0x24)) 0 20 ∧ t.reg .dev 0 0x10C = 1 ∧
       ∀ n, n < 20 → t.field .pwr 0 (0x180 + 4 * n) 0 8 = (tabGet 0 s.flash (base + 0x30 + n)).toNat
     let a := colophonGood s 0
     let b := colophonGood s 0x100000
     (s.halted = false → s.boot = bsColophon →
       (∀ x y, x = a → (a = true ∨ y = b) → ∃ t, exec (.colophonVerifyDone x y) s = .next t ∧
         if a = true then from_ t 0 ∧ (t.reg .sec 0 0x100).testBit 9 = (s.reg .sec 0 0x100).testBit 9
         else if b = true then from_ t 0x100000 ∧ (t.reg .sec 0 0x100).testBit 9 = true
         else t.boot = bsHalted ∧ t.field .sec 0 0x100 4 4 = 1 ∧ t.pins.fault = true) ∧
       (∀ x y, x ≠ a ∨ (a = false ∧ y ≠ b) → exec (.colophonVerifyDone x y) s = .next s)) ∧
     (s.boot = bsPuf → s.portState bxlPort = lsDown →
       (∃ t, exec (.pufUnwrapDone (deviceKeys s).isSome) s = .next t ∧ match deviceKeys s with
         | some (rsa, slh) => t.boot = bsWaitImage ∧ t.portState bxlPort = lsDetect ∧ t.mgmt.devRsa = rsa ∧ t.mgmt.devSlh = slh ∧
             (s.bootSrc = 1 → t.mgmt.net.phase = 1) ∧ (s.bootSrc ≠ 1 → t.mgmt.net = s.mgmt.net)
         | none => t.boot = bsHalted ∧ t.field .sec 0 0x100 4 4 = 2) ∧
       (∀ ok, ok ≠ (deviceKeys s).isSome → exec (.pufUnwrapDone ok) s = .next s))) ∧
  (∀ s : State,
     let len := s.field .bxl 0 0x18C 0 25
     let net := s.mgmt.net
     let pos := s.bxl.bootPos
     let at_ := s.reg .bxl 0 0x184 / 64 * 64 + 2 ^ 32 * s.reg .bxl 0 0x188 + pos
     (s.bootOpen = true → 64 ≤ len → len ≤ 16777216 → len % 64 = 0 → ∃ t, exec .bootGo s = .next t ∧ t.bxlBoot = 2 ∧
       t.bxl.bootPos = 0 ∧ t.mgmt.image = []) ∧
     (s.bootOpen = true → len < 64 ∨ 16777216 < len ∨ len % 64 ≠ 0 → exec .bootGo s = .next (setBxlBoot s 3 1)) ∧
     (s.bootOpen = false → exec .bootGo s = .next s) ∧
     (s.boot = bsWaitImage → s.bxlBoot = 2 ∨ net.phase = 2 → exec .imageTransferBegin s = .next (setBoot s bsLoading 0)) ∧
     (s.boot = bsLoading → s.bxlBoot = 2 → len ≤ pos → exec .bootImageLoaded s = .next (setBoot s bsVerify 0)) ∧
     (∀ u b p, s.boot = bsLoading → s.bxlBoot = 2 → pos < len → min (len - pos) (4096 - at_ % 4096) = len - pos →
       hostPhys s agBoot mtRdCur at_ (len - pos) [] = (u, .ok b p) → p.any id = false →
       ∃ t, exec .bootImageLoaded s = .next t ∧ t.boot = bsVerify ∧ t.mgmt.image = s.mgmt.image ++ b) ∧
     (∀ u, s.boot = bsLoading → s.bxlBoot = 2 → pos < len →
       hostPhys s agBoot mtRdCur at_ (min (len - pos) (4096 - at_ % 4096)) [] = (u, .bus) →
       ∃ t, exec .bootImageLoaded s = .next t ∧ t.boot = bsWaitImage ∧ t.bxlBoot = 3 ∧ t.mgmt.image = []) ∧
     (∀ (addr server : W32) file, net.phase = 1 → ∃ t, exec (.dhcpOfferRx addr ⟨some server, some file⟩) s = .next t ∧
       t.mgmt = { s.mgmt with net := { phase := 2, server := server.toNat, file := file, heard := s.gtime }, image := [],
                              ip := { s.mgmt.ip with addr := addr.toNat } } ∧
       t.outbox = s.outbox ++ [{ kind := .tftp, dest := server.toNat, args := [1], data := tftpRequest file }]) ∧
     (∀ (addr : W32) opts, net.phase = 1 → opts.server = none ∨ opts.file = none → exec (.dhcpOfferRx addr opts) s = .next s) ∧
     (net.phase = 1 → net.asked + 4 * 10 ^ 9 ≤ s.gtime → exec .dhcpRetry s = .next (askDhcp s)) ∧
     (∃ t, askDhcp s = t ∧ t.mgmt.net = { phase := 1, asked := s.gtime } ∧
       t.outbox = s.outbox ++ [{ kind := .dhcp, data := tabSlice 0 s.flash (s.colophonBase + 0x10) 16 }]) ∧
     (∀ (addr : W32) opts, net.phase = 3 → exec (.dhcpOfferRx addr opts) s =
       .next { s with mgmt := { s.mgmt with net := {}, ip := { s.mgmt.ip with addr := addr.toNat } } }) ∧
     (net.phase = 3 → net.asked + 4 * 10 ^ 9 ≤ s.gtime → exec .dhcpRetry s = .next (askFor s 3)) ∧
     (∀ n blk d, net.phase = 2 → n ≤ maxImage → ∃ t, exec (.tftpBlockRx (some n) blk d) s = .next t ∧ t.mgmt.net = { net with tsize := n, acked := true, retries := 0, heard := s.gtime } ∧
       t.outbox = s.outbox ++ [{ kind := .tftp, dest := net.server, args := [4, 0] }]) ∧
     (∀ n blk d, net.phase = 2 → maxImage < n → exec (.tftpBlockRx (some n) blk d) s = .next (endTransfer (s.send { kind := .tftp, dest := net.server, args := [5, 8] }))) ∧
     (∀ (blk : Fin 65536) d, net.phase = 2 → s.boot = bsLoading → blk.val = net.next % 65536 → s.mgmt.image.length + d.length ≤ maxImage →
       d.length ≤ 1428 → ∃ t, exec (.tftpBlockRx none blk d) s = .next t ∧ t.mgmt.image = s.mgmt.image ++ d ∧
       t.outbox = s.outbox ++ [{ kind := .tftp, dest := net.server, args := [4, blk.val] }] ∧ (d.length < 1428 → t.boot = bsVerify) ∧
       (d.length = 1428 → t.boot = bsLoading ∧ t.mgmt.net = { net with next := net.next + 1, acked := true, retries := 0, heard := s.gtime })) ∧
     (∀ (blk : Fin 65536) d, net.phase = 2 → s.boot = bsLoading → blk.val ≠ net.next % 65536 →
       exec (.tftpBlockRx none blk d) s = .next (s.send { kind := .tftp, dest := net.server, args := [4, (65535 + net.next) % 65536] })) ∧
     (net.phase = 2 → net.heard + 10 ^ 9 ≤ s.gtime → net.retries < 5 → ∃ t, exec .tftpTimeout s = .next t ∧
       t.mgmt.net = { net with retries := net.retries + 1, heard := s.gtime } ∧
       (net.acked = true → t.outbox = s.outbox ++ [{ kind := .tftp, dest := net.server, args := [4, (65535 + net.next) % 65536] }]) ∧
       (net.acked = false → t.outbox = s.outbox ++ [{ kind := .tftp, dest := net.server, args := [1], data := tftpRequest net.file }])) ∧
     (net.phase = 2 → net.heard + 10 ^ 9 ≤ s.gtime → 5 ≤ net.retries → exec .tftpTimeout s = .next (endTransfer s) ∧
       (endTransfer s).boot = bsWaitImage ∧ (endTransfer s).field .sec 0 0x100 4 4 = 0xC ∧ (endTransfer s).mgmt.net = { phase := 1, asked := s.gtime }))

/-- R359, R360, R362, R365, R394: an image is measured and runs once every check passes; the first that fails is the REASON, in the order
of R360. The outcomes of the checks are the model's own: the digest of the body that the header carries, and both signatures under the root keys; an
outcome that is another does nothing (the model's choice). A rejected network image starts DHCP again. Firmware initialisation counts the
boot, retires the channels that failed their training, makes the structure key set and asserts READY with a log record asked for.
Completes: exec answers a next state, under conditions on the state and the operands alone, for `imageVerifyDone`, `fwInitDone`.
The model's readings it rests on: log entries 135, 136, 179, 184, 185, 190, 199. -/
def Obligations.BootFirmware : Prop :=
  ∀ s : State, s.pins.inReset = false →
    let img := s.mgmt.image
    let ok := fun (d r l : Bool) => imageFault img d r l = none
    (∀ d r l, s.boot = bsVerify → imageFault img d r l = foundFault s → ∃ t, exec (.imageVerifyDone d r l) s = .next t ∧
      match foundFault s with
      | none => t.boot = bsFwInit ∧ t.mgmt.measure = sha384Of (img.take (256 + bits (leNat (img.take 256)) 96 32)) ∧
          t.reg .sec 0 0x104 = bits (leNat (img.take 256)) 128 32 ∧ t.mgmt.net = { phase := 3, asked := s.gtime } ∧
          (s.bootSrc ≠ 1 → t.bxlBoot = 4)
      | some f => f < 16 ∧ t.boot = bsWaitImage ∧ t.field .sec 0 0x100 4 4 = f ∧ t.mgmt.image = [] ∧
          (s.bootSrc = 1 → t.mgmt.net.phase = 1) ∧ (s.bootSrc ≠ 1 → t.bxlBoot = 3)) ∧
    (∀ d r l, s.boot = bsVerify → imageFault img d r l ≠ foundFault s → exec (.imageVerifyDone d r l) s = .next s) ∧
    (∃ d r l, foundFault s = imageFault img d r l) ∧
    (imageFault img false true true ≠ none) ∧
    (ok true true true → imageFault img false true true = some 9 ∧ imageFault img true false true = some 0xA ∧
      imageFault img true true false = some 0xB) ∧
    (∀ failed margins, s.boot = bsFwInit → s.halted = false → s.pwr.trip = false → ∃ t, exec (.fwInitDone failed margins) s = .next t ∧ t.boot = bsAwaitDcb ∧ t.pins.ready = true ∧
      t.mem.keyOf 64 ≠ 0 ∧ (∀ o, o ≠ 64 → t.mem.keyOf o = s.mem.keyOf o) ∧ t.logBusy = true ∧ t.life.begun = true ∧
      (s.life.begun = false → t.life.boots = satAdd 32 ((lastRecord s).map lifeOf |>.getD {}).boots 1) ∧
      ∀ f ∈ failed, (t.reg .mc f.1 0x104).testBit f.2 = true)

/-- R359, R363, R364: the configuration block. Its area and its commit word take writes while it is EMPTY or HELD, by any path, and log them
otherwise; a commit of another value is HELD. The check leaves it HELD with the offset of the first check that fails, or COMMITTED with
every field in the register it names, those of a kernel queue that is not enabled yet, and the device RUNNING; a halted device checks nothing.
No write in reset changes anything (R407).
Completes: exec answers a next state, under conditions on the state and the operands alone, for `dcbAreaWrite`, `dcbCommit`, `dcbCheckDone`.
The model's readings it rests on: log entries 137, 153. -/
def Obligations.DeviceConfiguration : Prop :=
  ∀ s : State,
    (∀ (i : Fin 896) (v : W32), s.pins.inReset = true → exec (.dcbAreaWrite i v) s = .next s ∧ exec (.dcbCommit v) s = .next s) ∧
    (s.pins.inReset = false →
    (∀ (i : Fin 896) (v : W32), s.dcbOpen = true → exec (.dcbAreaWrite i v) s = .next (s.setReg .mbx 0 (0x100 + 4 * i.val) v.toNat)) ∧
    (∀ (i : Fin 896) (v : W32), s.dcbOpen = false →
      exec (.dcbAreaWrite i v) s = .next (logIgnored s .mbx 0 (pageBase .mbx 0 + 0x100 + 4 * i.val))) ∧
    (∀ v : W32, s.dcbOpen = true → exec (.dcbCommit v) s = .next (s.setReg .mbx 0 0xF04 (if v.toNat = 0x44434231 then 1 else 10))) ∧
    (∀ v : W32, s.dcbOpen = false → exec (.dcbCommit v) s = .next (logIgnored s .mbx 0 (pageBase .mbx 0 + 0xF00)))) ∧
    (s.halted = true → exec .dcbCheckDone s = .next s) ∧
    (∀ o, s.dcbState = 1 → s.halted = false → dcbFault s = some o → ∃ t, exec .dcbCheckDone s = .next t ∧ t.dcbState = 2 ∧ t.field .mbx 0 0xF04 16 12 = o ∧
      s.onlyWords t [pageBase .mbx 0 + 0xF04]) ∧
    (s.dcbState = 1 → s.halted = false → dcbFault s = none → ∃ t, exec .dcbCheckDone s = .next t ∧ t.committed = true ∧ t.boot = bsRunning ∧
      t.deviceId = s.dcb 0x004 ∧ t.reg .pwr 0 0x10C = s.dcb 0x120 ∧ t.reg .pwr 0 0x110 = s.dcb 0x124 ∧
      t.reg .fe 0 0x100 = s.dcb 0x028 ∧ t.reg .fe 0 0x104 = s.dcb 0x02C ∧ t.reg .fe 0 0x108 = s.dcb 0x030 ∧
      (∀ k, k < 4 → tabGet 0 t.mgmt.anchors k = dcbAnchor s k) ∧
      ((s.ctx.any fun e => e.2.resident) = false → t.dlocal = s.dcb 0x008) ∧
      t.mgmt.ip = (if (s.dcb 0x040).testBit 0 then { addr := s.dcb 0x044, prefixLen := s.dcb 0x048, gateway := s.dcb 0x04C } else s.mgmt.ip) ∧
      (∀ p : PortId, t.reg .lnk p 0x100 =
          bit ((s.dcb 0x010 + 2 ^ 32 * s.dcb 0x014).testBit p) + (if 32 ≤ p.val then 8 * s.dcb 0x020 else 0) ∧
        t.reg .lnk p 0x104 = bit ((s.dcb 0x018 + 2 ^ 32 * s.dcb 0x01C).testBit p)) ∧
      ∀ k, k < 16 → (s.kq k 8).testBit 5 = false →
        (∀ i ∈ [0x00, 0x04, 0x08, 0x0C, 0x10, 0x14, 0x18], t.kq k i = s.dcb (0x180 + 32 * k + i)) ∧
        ((s.dcb (0x188 + 32 * k)).testBit 5 = true → s.obs.fatal = 0 → (s.queueOf (1024 + k)).state = .disabled →
          (t.queueOf (1024 + k)).state = .running))

/-- R24, R165, R168, R172, R174: a read within one block. Under the key its tag was made with it delivers the bytes and the poison of the
units it touches; under another, every unit poisoned; without a key set nothing. A unit is poisoned that two of its bit's three copies say is.
One to a row that is being copied waits for the copy's end, and outside device
memory there is no such address. A read writes nothing.
Completes: exec answers a next state, under conditions on the state and the operands alone, for `mcRead`.
The model's readings it rests on: log entries 4, 16, 112, 153. -/
def Obligations.MemoryReads : Prop :=
  ∀ (s : State) (owner : Fin 65) (pa len : Nat),
    let blk := tabGet {} s.mem.blks (pa / 256)
    let units := (List.range ((pa % 256 + len - 1) / 64 + 1 - pa % 256 / 64)).map (· + pa % 256 / 64)
    let served := s.pins.inReset = false ∧ inDevice pa len = true ∧ oneBlock pa len = true ∧ rowBusy s pa = false
    (served → s.mem.keyOf owner ≠ 0 → s.chanRetired pa = false → blk.tag = some (owner.val, s.mem.keyOf owner) →
      ∃ t, exec (.mcRead owner pa len) s = .next t ∧ t.mem.lastPoison = units.map blk.bad ∧
        t.mem = { s.mem with lastData := t.mem.lastData, lastPoison := t.mem.lastPoison, lastBlock := t.mem.lastBlock, lastMeta := t.mem.lastMeta } ∧ t = { s with regs := t.regs, mem := t.mem } ∧
        ((∀ u ∈ units, blk.bad u = false) → t.mem.lastData = tabSlice 0 s.mem.bytes pa len)) ∧
    (served → s.mem.keyOf owner ≠ 0 → s.chanRetired pa = false → blk.tag ≠ some (owner.val, s.mem.keyOf owner) →
      ∃ t, exec (.mcRead owner pa len) s = .next t ∧ t.mem.lastPoison = units.map (fun _ => true) ∧ t.mem.lastData = List.replicate len 0) ∧
    (served → s.mem.keyOf owner ≠ 0 → s.chanRetired pa = true →
      ∃ t, exec (.mcRead owner pa len) s = .next t ∧ t.mem.lastPoison = units.map (fun _ => true)) ∧
    (served → s.mem.keyOf owner = 0 → ∃ t, exec (.mcRead owner pa len) s = .next t ∧ t.mem.lastData = []) ∧
    (s.pins.inReset = false → inDevice pa len = true → rowBusy s pa = true → exec (.mcRead owner pa len) s = .next (memWaits s (.read owner pa len))) ∧
    (inDevice pa len = false → exec (.mcRead owner pa len) s = .fault .noSuchAddress)

/-- R165, R169, R175: a write within one block under a loaded key set, its tag good or the block whole: exactly its bytes change, and a read
of them gives them back without poison where the units held none. A write without a key set, or of a retired channel, changes no byte. R174: one to a row that is being copied waits for the copy's end.
Completes: exec answers a next state, under conditions on the state and the operands alone, for `mcWrite`, `mcRead`.
The model's readings it rests on: log entries 4, 16, 112, 153, 163. -/
def Obligations.MemoryWrites : Prop :=
  ∀ (s : State) (owner : Fin 65) (pa : Nat) (data : List Byte),
    let blk := tabGet {} s.mem.blks (pa / 256)
    let served := s.pins.inReset = false ∧ inDevice pa data.length = true ∧ oneBlock pa data.length = true ∧ rowBusy s pa = false
    (served → s.mem.keyOf owner ≠ 0 → s.chanRetired pa = false →
      data.length = 256 ∨ blk.tag = some (owner.val, s.mem.keyOf owner) →
      ∃ t, exec (.mcWrite owner pa data) s = .next t ∧ t = { s with regs := t.regs, mem := t.mem } ∧
        (∀ a, tabGet 0 t.mem.bytes a = if pa ≤ a ∧ a < pa + data.length then data.getD (a - pa) 0 else tabGet 0 s.mem.bytes a) ∧
        (∀ b, b ≠ pa / 256 → tabGet {} t.mem.blks b = tabGet {} s.mem.blks b) ∧
        (data.length = 256 →
          let cipher := (List.range 4).flatMap fun u => unitCipher (s.mem.keySet (s.mem.keyOf owner)) (pa + 64 * u) ((data.drop (64 * u)).take 64)
          t.mem.lastBlock = some (cipher, blockTag (s.mem.keySet (s.mem.keyOf owner)) owner (pa / 256) cipher)) ∧
        (blk.poison = 0 ∨ data.length = 256 → ∃ u, exec (.mcRead owner pa data.length) t = .next u ∧ u.mem.lastData = data ∧
          u.mem.lastPoison.any id = false)) ∧
    (served → s.mem.keyOf owner ≠ 0 → s.chanRetired pa = false → data.length ≠ 256 → blk.tag ≠ some (owner.val, s.mem.keyOf owner) →
      s.reg .obs 0 0x1A0 % 2 = 0 → ∃ t, exec (.mcWrite owner pa data) s = .next t ∧ tabGet {} t.mem.blks (pa / 256) = ⟨none, allPoison⟩) ∧
    (served → s.mem.keyOf owner = 0 ∨ s.chanRetired pa = true → s.reg .obs 0 0x1A0 % 2 = 0 →
      ∃ t, exec (.mcWrite owner pa data) s = .next t ∧ t.mem = { s.mem with lastBlock := t.mem.lastBlock, lastMeta := t.mem.lastMeta }) ∧
    (s.pins.inReset = false → inDevice pa data.length = true → rowBusy s pa = true → exec (.mcWrite owner pa data) s = .next (memWaits s (.write owner pa data))) ∧
    (inDevice pa data.length = false → exec (.mcWrite owner pa data) s = .fault .noSuchAddress)

/-- R172–R175: the controllers' own events. A unit with one symbol in error is corrected, counted and waits to be written back;
one with two is uncorrectable, counted and poisoned, and where it has changed what the tag covers the block agrees with no tag; what the code finds of more is left open (a free value). A patrol takes its units in
order, records what it found as errors of one cycle, and begins the rows' counts again; a copied row is remapped and the accesses that
waited for it are served in order; eight failures of an interface are
retried, the ninth retires the channel.
Completes: exec answers a next state, under conditions on the state and the operands alone, for `mcEccError`, `eccCorrectedWriteback`,
`mcPatrol`, `rowRetireDone`, `mcInterfaceError`.
The model's readings it rests on: log entries 1, 2, 32, 33, 112, 151, 153, 164, 180. -/
def Obligations.MemoryErrors : Prop :=
  (∀ (s : State) pa u, inDevice pa 1 = false → exec (.mcEccError pa u) s = .fault .noSuchAddress ∧ exec (.eccCorrectedWriteback pa) s = .fault .noSuchAddress) ∧
  ∀ s : State, s.pins.inReset = false →
    (∀ (pa : Nat) (e : UnitErr), inDevice pa 1 = true → s.chanRetired pa = false → rowBusy s pa = false →
      let st := (placeOf s.dlocal pa).1
      let ch := (placeOf s.dlocal pa).2.1
      let blk := fun (t : State) => tabGet {} t.mem.blks (pa / 256)
      (UnitErr.count e ≤ 2 → rsFinds s e = UnitErr.count e) ∧
      (rsFinds s e = 0 → exec (.mcEccError pa e) s = .next (upsetUnit s pa e)) ∧
      (rsFinds s e = 1 → ∃ t, exec (.mcEccError pa e) s = .next t ∧ t.reg .mc st (0x200 + 4 * ch) = satAdd 32 (s.reg .mc st (0x200 + 4 * ch)) 1 ∧
        pa / 64 ∈ t.mem.writeback ∧ tabGet 0 t.life.eccCorr (32 * st + ch) = satAdd 32 (tabGet 0 s.life.eccCorr (32 * st + ch)) 1) ∧
      (rsFinds s e = 2 → ∃ t, exec (.mcEccError pa e) s = .next t ∧ t.reg .mc st (0x280 + 4 * ch) = satAdd 32 (s.reg .mc st (0x280 + 4 * ch)) 1 ∧
        (s.reg .obs 0 0x1A0 % 2 = 0 → (blk t).tag = (if spoilsTag s e then none else (blk s).tag) ∧ (blk t).bad (pa % 256 / 64) = true ∧
          ∀ b, b ≠ pa / 256 → tabGet {} t.mem.blks b = tabGet {} s.mem.blks b))) ∧
    (∀ (pa : Nat) (e : UnitErr), inDevice pa 1 = true → s.chanRetired pa = true ∨ rowBusy s pa = true → exec (.mcEccError pa e) s = .next s) ∧
    (∀ pa, inDevice pa 1 = true → exec (.eccCorrectedWriteback pa) s =
      .next { s with mem := { s.mem with writeback := s.mem.writeback.filter (· != pa / 64) } }) ∧
    (∀ (st : StackId) us es, s.field .mc st 0x10C 0 16 ≠ 0 →
      tabGet 0 s.mem.patrolAt st + s.field .mc st 0x10C 0 16 * 3600000000000 ≤ s.gtime →
      let here := fun (pa : Nat) => inDevice pa 1 && (placeOf s.dlocal pa).1 == st.val && !s.chanRetired pa
      let found := ((us.zip es).filter fun x => here x.1).foldl (fun (r : State × List (Block × Nat × Err)) x =>
        let y := eccEffect r.1 x.1 x.2
        (y.1, r.2 ++ y.2)) (s, [])
      let p := captureAll found.1 found.2
      ∃ t, exec (.mcPatrol st us es) s = .next t ∧ tabGet 0 t.mem.patrolAt st = s.gtime ∧
        { t with mem := { t.mem with rowErr := p.mem.rowErr, patrolAt := p.mem.patrolAt } } = p ∧
        ∀ k, tabGet 0 t.mem.rowErr k = if k / 2 ^ 24 / 32 = st.val then 0 else tabGet 0 p.mem.rowErr k) ∧
    (∀ (st : StackId) us es, s.gtime < tabGet 0 s.mem.patrolAt st + s.field .mc st 0x10C 0 16 * 3600000000000 →
      exec (.mcPatrol st us es) s = .next s) ∧
    (∀ (st : StackId) (ch : Fin 32) row, s.mem.copies.contains ⟨32 * st + ch, row⟩ = true → ∃ t, exec (.rowRetireDone st ch row) s = .next (s.mem.waiting.foldl serveWait t) ∧
      t.mem.waiting = [] ∧
      (⟨32 * st + ch, row⟩ : RowCopy) ∉ t.mem.copies ∧ (⟨32 * st + ch, row⟩ : RowCopy) ∈ t.mem.retired ∧ t.mem.bytes = s.mem.bytes ∧
      tabGet 0 t.life.retiredRows (32 * st.val + ch.val) = satAdd 16 (tabGet 0 s.life.retiredRows (32 * st.val + ch.val)) 1) ∧
    ∀ (st : StackId) (ch : Fin 32) first, (s.reg .mc st 0x104).testBit ch = false →
      let n := (if first then 0 else tabGet 0 s.mem.ifTry (32 * st.val + ch.val)) + 1
      (n < 9 → ∃ t, exec (.mcInterfaceError st ch first) s = .next t ∧
        (s.reg .obs 0 0x1A0 % 2 = 0 → s.reg .mc st 0x18 % 2 = 0 → s.onlyWords { t with mem := s.mem }
          ([0x14, 0x20, 0x24, 0x28, 0x2C, 0x30, 0x34, 0x38, 0x118].map (pageBase .mc st + ·))) ∧
        t.reg .mc st 0x118 = satAdd 32 (s.reg .mc st 0x118) 1 ∧ tabGet 0 t.mem.ifTry (32 * st.val + ch.val) = n) ∧
      (9 ≤ n → ∃ t, exec (.mcInterfaceError st ch first) s = .next t ∧ (t.reg .mc st 0x104).testBit ch = true ∧
        (tabGet 0 t.life.retiredCh st).testBit ch = true ∧ tabGet 0 t.mem.ifTry (32 * st.val + ch.val) = 0)

/-- R163, R164: translation. A hit answers the physical address, or WRITE_PROTECT; a miss starts a walk while one of the die's sixteen
walkers is free; a walk answers and fills, so that the same access then hits with the same address; one that meets a table in a row that
is being copied goes on (R174); a discarded walk begins again; an
invalidation ends once no covered walk is left, with the command that waits for it.
Completes: exec answers a next state, under conditions on the state and the operands alone, for `mmuTranslate`, `pageWalkDone`,
`invalidationComplete`.
The model's readings it rests on: log entries 35, 36, 112. -/
def Obligations.Translation : Prop :=
  ∀ (s : State) (die : DieId) (req : Fin 5) (c : CtxId) (va : Nat) (write : Bool), s.pins.inReset = false →
    let rooted := va < 2 ^ 48 ∧ s.reg .mmu 0 (0x200 + 8 * c.val) % 2 = 1
    let w := walkOf die req c va write
    (∀ e, rooted → tlbFind s die c va = some e → (write = true → e.w = true) →
      exec (.mmuTranslate die req c va write) s = .next (s.answerX (.pa (e.pa + va % 2 ^ e.log)))) ∧
    (∀ e, rooted → tlbFind s die c va = some e → write = true → e.w = false → ∃ t, exec (.mmuTranslate die req c va write) s = .next t ∧
      t.mmu = { s.mmu with answer := some (.fault fWriteProtect) } ∧
      ((s.reg .mmu 0 (0x180 + 0x10 * die.val)).testBit 14 = false → bits (t.reg .mmu 0 (0x180 + 0x10 * die.val)) 0 4 = fWriteProtect ∧
        bits (t.reg .mmu 0 (0x180 + 0x10 * die.val)) 7 6 = c.val ∧ (t.reg .mmu 0 (0x180 + 0x10 * die.val)).testBit 14 = true)) ∧
    (¬rooted ∨ tlbFind s die c va = none → (s.mmu.walks.filter fun x => x.die == die.val).length < 16 → s.mmu.walks.contains w = false →
      exec (.mmuTranslate die req c va write) s = .next { s with mmu := { s.mmu with walks := s.mmu.walks ++ [w] } }) ∧
    (∀ u a, s.mmu.walks.contains w = true → translate { s with mmu := { s.mmu with walks := s.mmu.walks.filter (· != w) } } die req c va write = (u, .pa a) →
      ∃ t, exec (.pageWalkDone die req c va write) s = .next t ∧ t.mmu.answer = some (.pa a) ∧ t.mmu.walks = s.mmu.walks.filter (· != w) ∧
        exec (.mmuTranslate die req c va write) t = .next t) ∧
    (∀ u f, s.mmu.walks.contains w = true → translate { s with mmu := { s.mmu with walks := s.mmu.walks.filter (· != w) } } die req c va write = (u, .fault f) →
      ∃ t, exec (.pageWalkDone die req c va write) s = .next t ∧ t.mmu.answer = some (.fault f)) ∧
    (∀ u, s.mmu.walks.contains w = true → translate { s with mmu := { s.mmu with walks := s.mmu.walks.filter (· != w) } } die req c va write = (u, .wait) →
      exec (.pageWalkDone die req c va write) s = .next s) ∧
    (s.mmu.walks.contains w = false → s.mmu.walks.contains { w with discard := true } = true →
      ∃ t, exec (.pageWalkDone die req c va write) s = .next t ∧ w ∈ t.mmu.walks ∧ { w with discard := true } ∉ t.mmu.walks) ∧
    (∀ v, s.mmu.walks.any (·.discard) = false → s.mmu.inval = some v → ∃ t, exec .invalidationComplete s = .next t ∧ t.mmu.inval = none ∧
      (∀ q n d, v.waiter = some (q, n) → d ∈ (s.queueOf q).cmds → d.n = n → d.ended = false → t.cmdEnded q n stOk) ∧
      (v.waiter = none → t = { s with mmu := { s.mmu with inval := none } })) ∧
    (s.mmu.walks.any (·.discard) = true → exec .invalidationComplete s = .next s)

/-- R138–R140: the local stores. A corrected error is counted; an uncorrectable one poisons its 64 B block and is recorded; a scrub that was
asked for runs and leaves zeros without poison; a partition's scrub leaves zeros in the partition alone.
R128, R131–R133: a vector instruction's end. It stores what its rows compute from where it stood, with its record and its digest, and VDONE
and VEC.ITAG_DONE show it; one that meets poison stops its command with the rows before it, and its sequencer where that waits (R240). A held
one, and one that a scrub of the ALS stands before, does not end; the instruction that waited for the scrub begins after it.
Completes: exec answers a next state, under conditions on the state and the operands alone, for `alsEccError`, `alsScrubBegin`, `alsScrubEnd`,
`dssScrubEnd`, `vecInstructionEnd`.
The model's readings it rests on: log entries 1, 38, 45, 161. -/
def Obligations.StoresAndVectors : Prop :=
  (∀ s : State, s.pins.inReset = false →
     (∀ (n : ArrayId) a, a < alsSize → exec (.alsEccError (.als n) a false) s = .next (s.bump .als n 0x10C 1)) ∧
     (∀ (d : DieId) a, a < dssSize → exec (.alsEccError (.dss d) a false) s = .next (s.bump .dss d 0x140 1)) ∧
     (∀ (n : ArrayId) a, a < alsSize → tabGet false (s.alsOf n).poison (a / 64) = false → ∃ t, exec (.alsEccError (.als n) a true) s = .next t ∧
       t.alsOf n = (s.alsOf n).setPoison a ∧ (s.pageDead .als n = false → s.reg .als n 0x20 % 2 = 0 → t.reg .als n 0x28 = a / 64 * 64)) ∧
     (∀ (d : DieId) a, a < dssSize → tabGet false (s.dssOf d).poison (a / 64) = false → ∃ t, exec (.alsEccError (.dss d) a true) s = .next t ∧
       t.dssOf d = (s.dssOf d).setPoison a ∧ (s.reg .dss d 0x20 % 2 = 0 → t.reg .dss d 0x28 = a / 64 * 64)) ∧
     (∀ n : ArrayId, tabGet .none s.alsScrub n = .requested → ∃ t, exec (.alsScrubBegin n) s = .next t ∧ t.alsScrubbing n = true ∧
       t = { s with alsScrub := t.alsScrub }) ∧
     (∀ n : ArrayId, s.alsScrubbing n = true → ∃ t, exec (.alsScrubEnd n) s = .next (settleVec t n) ∧ t.alsBlocked n = false ∧ t.alsOf n = {} ∧
       (∀ m, m ≠ n.val → t.alsOf m = s.alsOf m) ∧ t = { s with alsScrub := t.alsScrub, als := t.als } ∧
       ((s.vecOf n).exec = none → (settleVec t n).als = t.als)) ∧
     (∀ (d : DieId) (p : Fin 16), s.partBusy d p = true → ∃ t, exec (.dssScrubEnd d p) s = .next t ∧ t.part d p = bits (s.part d p) 0 7 ∧
       (∀ k, tabGet 0 (t.dssOf d).bytes k = if p.val * partSize ≤ k ∧ k < p.val * partSize + partSize then 0 else tabGet 0 (s.dssOf d).bytes k) ∧
       ∀ e, e ≠ d.val → t.dssOf e = s.dssOf e)) ∧
  (∀ (s : State) (n : ArrayId) (i : VecInstr), s.alsBlocked n = false → (s.vecOf n).held = false → (s.vecOf n).exec = some i →
     let x := vecAll (s.alsOf n) (s.vecOf n).mid i.desc i.seed i.step
     (x.stop = none → ∃ t, exec (.vecInstructionEnd n) s = .next t ∧ t.alsOf n = x.als ∧ (∀ m, m ≠ n.val → t.alsOf m = s.alsOf m ∧ t.vecOf m = s.vecOf m) ∧
       t.reg .vec n 0x104 = vTag i.desc ∧ (t.seqOf n).vdone = ((s.seqOf n).vdone + 1) % 2 ^ 32 ∧ (t.seqOf n).regs = (s.seqOf n).regs ∧
       (t.vecOf n).flags = (s.vecOf n).flags ||| x.flags ∧ (t.vecOf n).digest = ((s.vecOf n).digest + x.digest.getD 0) % 2 ^ 64 ∧
       ((s.vecOf n).wait = none → (t.vecOf n).exec = none)) ∧
     (∀ row p, x.stop = some (row, p) → (s.vecOf n).failed = none → ∃ t, exec (.vecInstructionEnd n) s = .next t ∧ t.alsOf n = x.als ∧
       (t.vecOf n).failed = some ⟨stPoisoned, ePoisoned, vTag i.desc⟩ ∧ (t.vecOf n).exec = none ∧ (t.vecOf n).wait = none ∧
       (t.seqOf n).vdone = (s.seqOf n).vdone ∧
       ((s.seqOf n).state = .wait → (s.seqOf n).silent = false → (s.seqOf n).ending = none → (s.arrOf n).failed = none →
         (t.seqOf n).state = .drain))) ∧
  (∀ (s : State) (n : ArrayId), s.alsBlocked n = true ∨ (s.vecOf n).held = true ∨ (s.vecOf n).exec = none → exec (.vecInstructionEnd n) s = .next s)

/-- R141–R148, R151, R153: what a DMA channel does. A timer expiry gives one start; a start taken up fetches and checks a descriptor; a channel
issues its bursts in any order, in its turn and while its buffer has room; they are read, and written in order; a burst whose read or write a block
reset refused ends in a BUS fault that names the burst's address and the reset array; the last one completes the transfer, advances NEXT and gives
a chained start.
Completes: exec answers a next state, under conditions on the state and the operands alone, for `dmaTimerExpiry`, `dmaDescriptorFetch`,
`dmaBurstIssue`, `dmaBurstReadDone`, `dmaBurstWritten`, `dmaTransferComplete`.
The model's readings it rests on: log entries 8, 38, 39, 40, 41, 211, 212. -/
def Obligations.DmaTransfers : Prop :=
  ∀ (s : State) (d : DieId) (c : ChanId),
    let k := 32 * d.val + c.val
    let x := s.chOf k
    let limit := bits (s.ch k 0x10) 0 16
    let fired := bits (s.ch k 0x10) 16 16
    (bits (s.ch k 0xC) 0 24 ≠ 0 → limit = 0 ∨ fired < limit → s.engineHeld (enDma d) = false →
      ∃ t, exec (.dmaTimerExpiry d c) s = .next t ∧ t = { s with regs := t.regs, dma := t.dma } ∧
        (t.chOf k).pending = min (x.pending + 1) 255 ∧ (t.chOf k).overrun = (x.overrun || decide (255 < x.pending + 1)) ∧
        bits (t.ch k 0x10) 16 16 = min (fired + 1) 65535 ∧ (∀ j, j ≠ k → t.chOf j = s.chOf j)) ∧
    (∀ u b p, s.halted = false → (s.islOf (20 + d)).resetting = false → x.state = .idle → s.chValid k = true → 0 < x.pending →
      x.fetching = false → s.chListLen k ≠ 0 →
      memRead (s.setCh k { x with state := .active, pending := x.pending - 1, fetching := true }) (agDma k) d reqDma (s.chCtx k)
        ((s.chListBase k + 64 * x.next) % 2 ^ 48) 64 = (u, .ok b p) → p.any id = false →
      let v := (takeAnswers u (agDma k)).setChReg k 0x30 (dTag (leNat b))
      (descFault v k (leNat b) = none → ∃ t, exec (.dmaDescriptorFetch d c) s = .next t ∧ t = { v with dma := t.dma } ∧
        (t.chOf k).desc = some (leNat b) ∧ (t.chOf k).fetching = false ∧ (t.chOf k).written = 0 ∧ (t.chOf k).issued = [] ∧
        (t.chOf k).state = if arraysHeld v k (leNat b) then .active else .waitArray) ∧
      (∀ f, descFault v k (leNat b) = some f →
        let at_ := descFaultAt v k (leNat b) f ((s.chListBase k + 64 * x.next) % 2 ^ 48)
        let w := dmaFault v k f 0 0 at_.1 at_.2.1 at_.2.2
        exec (.dmaDescriptorFetch d c) s = .next (w.setCh k { w.chOf k with faulted := some (leNat b) }))) ∧
    (∀ desc b, x.desc = some desc → x.state = .active → s.engineHeld (enDma d) = false → storesBusy s k desc = false →
      b < (burstsOf desc).length → x.written ≤ b → b ∉ x.issued → (∀ e ∈ x.buffer, e.index ≠ b) →
      bufferedBytes x (burstsOf desc) < 65536 * s.chQuota k → (dDecomp desc = true → x.issued = [] ∧ b = x.written + x.buffer.length) →
      arraysHeld s k desc = true → targetsOk s k desc = true → burstsOut s d < 1024 → readTurn s d = some c.val →
      ∃ t, exec (.dmaBurstIssue d c b) s = .next t ∧ t = { s with dma := t.dma, pwr := t.pwr, isl := t.isl } ∧
        t.chOf k = { x with issued := x.issued ++ [b], began := x.began ++ [(b, s.gtime)] } ∧ (∀ j, j ≠ k → t.chOf j = s.chOf j) ∧ (∀ n, n ≠ 20 + d.val → t.islOf n = s.islOf n) ∧
        (if (s.ch k 0).testBit 7 then (t.islOf (20 + d)).readLastPrio else (t.islOf (20 + d)).readLast) = c.val) ∧
    (∀ desc b, x.desc = some desc → readTurn s d ≠ some c.val → arraysHeld s k desc = true → exec (.dmaBurstIssue d c b) s = .next s) ∧
    (∀ desc b, x.desc = some desc → b ∈ x.issued → b ∉ x.refused → storesBusy s k desc = false →
      (∀ n ∈ srcArrays d desc, s.islandStopped n = false) → dDecomp desc = false → dSrcKind desc ≠ 0 →
      let u := (burstsOf desc).getD b ⟨0, [], 0⟩
      let st := if dSrcKind desc = 1 then s.dssOf d else burstStore s k (5 * d.val + dSrcArr desc) b
      u.len ≠ 0 → ∃ t, exec (.dmaBurstReadDone d c b) s = .next t ∧ (t.chOf k).issued = x.issued.filter (· != b) ∧
        (∃ p, storeAcc st u.src u.len = .ok (st.read u.src u.len) p ∧ (t.chOf k).buffer = x.buffer ++ [⟨b, st.read u.src u.len, p, x.streamPos⟩]) ∧
        t.mem = s.mem ∧ t.als = s.als ∧ t.dss = s.dss) ∧
    (∀ desc b, x.desc = some desc → b ∈ x.refused →
      exec (.dmaBurstReadDone d c b) s = .next (if b = x.written
        then dmaFault s k dfBus 1 b ((burstsOf desc).getD b ⟨0, [], 0⟩).src (dSrcKind desc) (dSrcArr desc) else s)) ∧
    (∀ desc e, x.desc = some desc → x.buffer.find? (fun e => e.index == x.written) = some e → x.state = .active →
      s.engineHeld (enDma d) = false → storesBusy s k desc = false → arraysHeld s k desc = true → targetsOk s k desc = true →
      dDstKind desc = 1 → e.poison.any id = false → x.writeRefused = none →
      ∃ t, exec (.dmaBurstWritten d c) s = .next t ∧ (t.chOf k).written = x.written + 1 ∧
        (t.chOf k).buffer = x.buffer.filter (fun f => f.index != x.written) ∧
        t.dssOf d = (burstPieces 0 ((burstsOf desc).getD x.written ⟨0, [], 0⟩).dst).foldl (fun st i =>
          storePut st i.2.1 ((e.bytes.drop i.1).take i.2.2) ((e.poison.drop (i.1 / 64)).take (ceilDiv i.2.2 64))) (s.dssOf d) ∧
        (∀ j, j ≠ d.val → t.dssOf j = s.dssOf j) ∧ t.mem = s.mem ∧ t.als = s.als ∧
        tabGet 0 (t.ctxOf (s.chCtx k)).counters 6 = (tabGet 0 (s.ctxOf (s.chCtx k)).counters 6 + e.bytes.length) % 2 ^ 64) ∧
    (∀ desc e a, x.desc = some desc → x.buffer.find? (fun e => e.index == x.written) = some e → x.state = .active → x.writeRefused = some a →
      exec (.dmaBurstWritten d c) s = .next (dmaFault s k dfBus 2 x.written
        (((((burstsOf desc).getD x.written ⟨0, [], 0⟩).dst.head?).map (·.1)).getD (dDst desc)) (dDstKind desc) a)) ∧
    ∀ desc, x.desc = some desc → x.state = .active → (burstsOf desc).length ≤ x.written →
      ∃ t, exec (.dmaTransferComplete d c) s = .next t ∧ (t.chOf k).state = .idle ∧ (t.chOf k).desc = none ∧
        (t.chOf k).next = (x.next + 1) % max (s.chListLen k) 1 ∧ t.ch k 0x18 = (s.ch k 0x18 + 1) % 2 ^ 32 ∧ t.mem = s.mem ∧ t.dss = s.dss ∧
        t.als = s.als ∧ (dChain desc = true →
          (t.chOf (32 * d.val + dChainCh desc)).pending = min ((s.chOf (32 * d.val + dChainCh desc)).pending + 1) 255)

/-- R210, R211, R214, R215, R217–R219, R221: a queue's commands are fetched in ring order, start in order
and, where queues want one engine, by their age, complete with their record in
the completion ring, are aborted when their time is up, and a completion ring that cannot be written orphans its queue. What a command names that is not there is
its failure once the queue's earlier commands of its engine have been taken up; after a fatal error no queue changes (R389).
Completes: exec answers a next state, under conditions on the state and the operands alone, for `commandFetch`, `commandStart`,
`commandComplete`, `commandTimeout`, `completionWriteFault`.
The model's readings it rests on: log entries 1, 59, 61, 65, 68, 73. -/
def Obligations.QueueProgress : Prop :=
  ∀ (s : State) (q : QueueId),
    let x := s.queueOf q
    (∀ u b p, s.fetches q = true →
      feLine s q (agFetch q) (x.ring + (if x.big then 128 else 64) * (x.head % 2 ^ x.log)) = (u, .ok b p) → p.any id = false →
      ¬(cSize (leNat b) = 1 ∧ x.big = true) →
      ∃ t c, exec (.commandFetch q) s = .next t ∧ (t.queueOf q).head = (x.head + 1) % 2 ^ 32 ∧ (t.queueOf q).cmds = x.cmds ++ [c] ∧
        c.n = x.head ∧ c.raw = leNat b ∧ c.started = false ∧
        c.check = ((checkCmd (takeAnswers u (agFetch q)) q (if x.big then 128 else 64) (leNat b)).map (·.1)).getD 0) ∧
    (∀ c, x.state = .running → nextToStart s q = some c → c.check = 0 → cOpc c.raw ≠ 0x80 → engineWaits s c = false →
      (cOpc c.raw = 0x01 → unmapped s q c = false ∧ arraysAreHeld s q c = true ∧ yields s q c = false) → enginesFree s q c = true → servedAfter s q c = false →
      startFails s q c = 0 →
      ∃ t, exec (.commandStart q) s = .next t ∧ (∀ e ∈ (t.queueOf q).cmds, e.n = c.n → e.started = true ∧ e.start = s.gtime) ∧
        (t.queueOf q).cmds.length = x.cmds.length ∧ t.mem = s.mem) ∧
    (∀ c, x.state = .running → nextToStart s q = some c → c.check = 0 → cOpc c.raw ≠ 0x80 → engineWaits s c = false → startFails s q c ≠ 0 →
      ∃ t, exec (.commandStart q) s = .next t ∧ t.cmdEnded q c.n (startFails s q c) ∧ t = { s with queues := t.queues }) ∧
    (∀ c, x.state = .running → nextToStart s q = some c → c.check = 0 → cOpc c.raw ≠ 0x80 → engineWaits s c = false → startFails s q c = 0 →
      servedAfter s q c = true →
      ∃ t, exec (.commandStart q) s = .next t ∧ (t.queueOf q).cmds = x.cmds ∧ t = { s with queues := t.queues }) ∧
    (∀ c, x.state = .running → nextToStart s q = some c → c.check = 0 → cOpc c.raw = 0x80 ∨ engineWaits s c = true →
      exec (.commandStart q) s = .next s) ∧
    (∀ c, x.state = .running → nextToStart s q = some c → c.check ≠ 0 →
      ∃ t, exec (.commandStart q) s = .next t ∧ t.cmdEnded q c.n c.check ∧ t = { s with queues := t.queues }) ∧
    (∀ c, s.halted = false → s.obs.fatal = 0 → x.held = [] → firstEnded x = some c → cCompl c.raw = 0 → c.status = 0 →
      ∃ t, exec (.commandComplete q) s = .next t ∧ (t.queueOf q).cmds = x.cmds.filter (fun e => e.n != c.n) ∧
        (t.queueOf q).cqTail = x.cqTail ∧ (t.queueOf q).state = x.state ∧ t.mem = s.mem ∧ t.outbox = s.outbox) ∧
    (∀ c u, s.halted = false → s.obs.fatal = 0 → x.held = [] → firstEnded x = some c → cCompl c.raw ≠ 0 ∨ c.status ≠ 0 →
      x.orphan = false → x.cqFull = false → feRecord s q x.cqSlot (leBytes (recordOf s q c) 32) = (u, .ok [] []) →
      ∃ t, exec (.commandComplete q) s = .next t ∧ (t.queueOf q).cmds = x.cmds.filter (fun e => e.n != c.n) ∧
        (t.queueOf q).cqTail = (x.cqTail + 1) % 2 ^ 32 ∧ t.mem = u.mem ∧
        (stopsQueue c = true → x.state = .running ∨ x.state = .waiting → (t.queueOf q).state = .stopped ∧ (t.queueOf q).reason = 1)) ∧
    (∀ c, x.timeout ≠ 0 → s.feRuns = true → timedOut s x = some c →
      ∃ t, exec (.commandTimeout q) s = .next t ∧ (∀ e ∈ (t.queueOf q).cmds, e.n = c.n → e.aborted = true ∧ e.abortStatus = stTimeout ∧
        (e.engines = [] → (∀ l, s.cat.load = some l → ¬(l.begun = true ∧ l.queue = q.val ∧ l.cmd = c.n)) → e.ended = true ∧ e.status = stTimeout)) ∧
        (∀ n ∈ c.engines, n < 20 → (t.arrOf n).abort = true ∧ (t.vecOf n).abort = true) ∧ t.mem = s.mem ∧
        (s.pair.binding ≠ some (q.val, c.n) → t.regs = s.regs)) ∧
    (x.wfault = true → s.obs.fatal ≠ 0 → exec (.completionWriteFault q) s = .next s) ∧
    (x.wfault = true → s.obs.fatal = 0 → ∃ t, exec (.completionWriteFault q) s = .next t ∧ (t.queueOf q).wfault = false ∧ (t.queueOf q).orphan = true ∧
      (t.queueOf q).state = (if x.state = .draining then .draining else .orphaned) ∧
      ((t.queueOf q).held = x.held ∨ (t.queueOf q).held = x.held.tail))

/-- R145, R152, R216, R228, R232: the commands that the front end itself carries out, each on the oldest command of its opcode that has
started: RUN_LIST starts its sequencers on their lists, DMA_START gives starts, DMA_ACTION ends a halt, the fences wait for a value and
store one, NOP ends, FLAGS_READ writes the flag word and may clear it.
R216: a signal stores max(old, value) in an 8 B aligned fence of device memory and changes no other byte.
Completes: exec answers a next state, under conditions on the state and the operands alone, for `runList`, `dmaStart`, `dmaAction`, `fenceWait`,
`fencePoll`, `fenceSignal`, `nop`, `flagsRead`.
The model's readings it rests on: log entries 61, 64, 73, 212. -/
def Obligations.FencesAndFrontEnd : Prop :=
  (∀ (s : State) (q : QueueId),
     let x := s.queueOf q
     (∀ c u b p i n, actCmd s q 0x01 = some c → feRead s q (bits c.raw 128 64) 208 = (u, .ok b p) → p.any id = false →
       (runSeqs s q c).Nodup → i ∈ setBits 26 (bits c.raw 64 26) → (n + 1 = tabGet 0 (s.ctxOf x.ctx).map i ∧ i < 20 ∨ n = i ∧ 20 ≤ i) →
       let e := bits (leNat b) (64 * i) 64
       bits e 0 48 % 64 = 0 → ∃ t, exec (.runList q) s = .next t ∧
         t.seqOf n = { state := .run, ctx := x.ctx, list := bits e 0 48, regs := tabSet 0 [] 1 (bits e 48 16), queue := q, cmd := c.n, engines := bits c.raw 64 26, bitNo := i, traceLost := (s.seqOf n).traceLost }) ∧
     (∀ c, actCmd s q 0x40 = some c → (∀ i ∈ setBits 32 (bits c.raw 96 32), ownsChannel s q (32 * bits c.raw 64 2 + i) = true) →
       ∃ t, exec (.dmaStart q) s = .next t ∧ t.cmdEnded q c.n stOk ∧ t = { s with dma := t.dma, queues := t.queues, bridge := t.bridge } ∧
         ∀ i ∈ setBits 32 (bits c.raw 96 32), (t.chOf (32 * bits c.raw 64 2 + i)).pending =
           min ((s.chOf (32 * bits c.raw 64 2 + i)).pending + bits c.raw 66 8) 255) ∧
     (∀ c, actCmd s q 0x40 = some c → ¬(∀ i ∈ setBits 32 (bits c.raw 96 32), ownsChannel s q (32 * bits c.raw 64 2 + i) = true) →
       ∃ t, exec (.dmaStart q) s = .next t ∧ t.cmdEnded q c.n stTarget ∧ t = { s with queues := t.queues }) ∧
     (∀ c, actCmd s q 0x41 = some c →
       let k := 32 * bits c.raw 64 2 + bits c.raw 66 5
       let y := s.chOf k
       ownsChannel s q k = true → y.state = .halted → ∃ t, exec (.dmaAction q) s = .next t ∧ t.cmdEnded q c.n stOk ∧ t.mem = s.mem ∧
         (bits c.raw 71 2 = 1 → t.chOf k = { y with state := .active, fetching := y.desc.isNone, faulted := none }) ∧
         (bits c.raw 71 2 = 3 → (t.chOf k).state = .idle ∧ (t.chOf k).pending = 0 ∧ (t.chOf k).next = nextIndex s k)) ∧
     (∀ c u b p, nextToStart s q = some c → c.check = 0 → c.ended = false → cOpc c.raw = 0x80 →
       feLine s q (agFetch q) (bits c.raw 128 64) = (u, .ok b p) → p.any id = false →
       let v := leNat ((b.drop (bits c.raw 128 64 % 64)).take 8)
       let first := engineWaits s c = false ∧ servedAfter s q c = false
       (x.state = .running → first → bits c.raw 192 64 ≤ v → ∃ t, exec (.fenceWait q) s = .next t ∧ t.cmdEnded q c.n stOk ∧
         (t.queueOf q).state = .running) ∧
       (x.state = .running → first → v < bits c.raw 192 64 → ∃ t, exec (.fenceWait q) s = .next t ∧ (t.queueOf q).state = .waiting ∧
         (t.queueOf q).cmds.length = x.cmds.length) ∧
       (x.state = .running → ¬first → ∃ t, exec (.fenceWait q) s = .next t ∧ (t.queueOf q).state = .running ∧ (t.queueOf q).cmds = x.cmds) ∧
       (x.state = .waiting → bits c.raw 192 64 ≤ v → ∃ t, exec (.fencePoll q) s = .next t ∧ t.cmdEnded q c.n stOk ∧
         (t.queueOf q).state = .running) ∧
       (x.state = .waiting → v < bits c.raw 192 64 → exec (.fencePoll q) s = .next (takeAnswers u (agFetch q)))) ∧
     (∀ c u, actCmd s q 0x81 = some c → 1024 ≤ q.val →
       fenceMaxPhys s q reqFe 0 64 (bits c.raw 128 64) (bits c.raw 192 64) = (u, .ok [] [false]) →
       ∃ t, exec (.fenceSignal q) s = .next t ∧ t.cmdEnded q c.n stOk ∧ t.mem = u.mem ∧ t.regs = u.regs) ∧
     (∀ c, actCmd s q 0x82 = some c → ∃ t, exec (.nop q) s = .next t ∧ t.cmdEnded q c.n stOk ∧ t = { s with queues := t.queues }) ∧
     ∀ c u, actCmd s q 0x83 = some c → feWrite s q (bits c.raw 128 64) (leBytes (s.ctxOf x.ctx).flags 8) = (u, .ok [] []) →
       ∃ t, exec (.flagsRead q) s = .next t ∧ t.cmdEnded q c.n stOk ∧ t.mem = u.mem ∧
         (t.ctxOf x.ctx).flags = if c.raw.testBit 64 then 0 else (s.ctxOf x.ctx).flags) ∧
  (∀ (s : State) (q : QueueId) (c : Cmd), actCmd s q 0x81 = some c → 1024 ≤ q.val →
     let a := bits c.raw 128 64
     a % 8 = 0 → a + 8 ≤ devEnd → s.mem.keyOf 64 ≠ 0 → s.chanRetired a = false → rowBusy s a = false → tabGet {} s.mem.blks (a / 256) = ⟨some (64, s.mem.keyOf 64), 0⟩ →
     ∃ t, exec (.fenceSignal q) s = .next t ∧ t.cmdEnded q c.n stOk ∧
       tabSlice 0 t.mem.bytes a 8 = leBytes (max (leNat (tabSlice 0 s.mem.bytes a 8)) (bits c.raw 192 64)) 8 ∧
       ∀ b, b < a ∨ a + 8 ≤ b → tabGet 0 t.mem.bytes b = tabGet 0 s.mem.bytes b)

/-- R164, R165, R169, R209, R213, R222–R224, R366: the commands that make and end contexts, queues, mappings, keys, translations and initial
contents. A new key set is one request to the generator. MEM_INIT waits for rows that are being copied (R174). One that the state does not
allow ends with TARGET and changes nothing else.
Completes: exec answers a next state, under conditions on the state and the operands alone, for `ctxCreate`, `ctxDestroy`, `queueCreate`,
`queueResume`, `arrayAssign`, `keyBind`, `tlbInval`, `memInit`.
The model's readings it rests on: log entries 1, 16, 59, 69, 112, 184. -/
def Obligations.ContextCommands : Prop :=
  ∀ (s : State) (q : QueueId) (c : Cmd),
    let k := fld c.raw 8 0 6
    let refused := fun i => ∃ t, exec i s = .next t ∧ t.cmdEnded q c.n stTarget ∧ t = { s with queues := t.queues }
    (actCmd s q 0xC0 = some c → (s.ctxOf k).resident = false → fld c.raw 0x18 0 64 % 4096 = 0 →
      ∃ t, exec (.ctxCreate q) s = .next t ∧ t.cmdEnded q c.n stOk ∧ t.ctxOf k = freshCtx c.raw ∧ (∀ j, j ≠ k → t.ctxOf j = s.ctxOf j) ∧
        t.reg .mmu 0 (0x200 + 8 * k) = fld c.raw 0x18 0 64 % 2 ^ 32 + 1 ∧ t = { s with regs := t.regs, ctx := t.ctx, queues := t.queues }) ∧
    (actCmd s q 0xC0 = some c → (s.ctxOf k).resident = true → refused (.ctxCreate q)) ∧
    (actCmd s q 0xC1 = some c → (s.ctxOf k).resident = true → s.ctxHolds k = false →
      ∃ t, exec (.ctxDestroy q) s = .next t ∧ t.cmdEnded q c.n stOk ∧ t.ctxOf k = {} ∧ (t.reg .mmu 0 (0x200 + 8 * k)).testBit 0 = false) ∧
    (actCmd s q 0xC1 = some c → (s.ctxOf k).resident = false ∨ s.ctxHolds k = true → refused (.ctxDestroy q)) ∧
    (actCmd s q 0xC2 = some c → (s.ctxOf (fld c.raw 8 10 6)).resident = true → fld c.raw 8 0 10 ≠ q.val →
      (s.queueOf (fld c.raw 8 0 10)).state = .disabled → ∃ t, exec (.queueCreate q) s = .next t ∧ t.cmdEnded q c.n stOk ∧
        t = { s with queues := t.queues } ∧ t.queueOf (fld c.raw 8 0 10) =
          { state := .running, ctx := fld c.raw 8 10 6, log := fld c.raw 8 16 5, big := c.raw.testBit 85, cqLog := fld c.raw 8 22 5, vector := fld c.raw 0xC 0 11, ring := fld c.raw 0x10 0 64, cq := fld c.raw 0x18 0 64, timeout := fld c.raw 0x20 0 32 }) ∧
    (actCmd s q 0xC2 = some c → (s.ctxOf (fld c.raw 8 10 6)).resident = false ∨ (s.queueOf (fld c.raw 8 0 10)).state ≠ .disabled →
      refused (.queueCreate q)) ∧
    (let r := fld c.raw 8 0 11
     let x := s.queueOf r
     actCmd s q 0xC5 = some c → r ≤ 1039 → r ≠ q.val → x.state = .stopped ∨ x.state = .orphaned →
      (flag c.raw 8 11 = true → (2 ^ 32 + x.tail - fld c.raw 0xC 0 32) % 2 ^ 32 ≤ 2 ^ x.log) →
      ∃ t, exec (.queueResume q) s = .next t ∧ t.cmdEnded q c.n stOk ∧ t = { s with queues := t.queues } ∧ (t.queueOf r).state = .running ∧
        (t.queueOf r).reason = 0 ∧ (t.queueOf r).head = if flag c.raw 8 11 then fld c.raw 0xC 0 32 else x.head) ∧
    (let r := fld c.raw 8 0 11
     let x := s.queueOf r
     actCmd s q 0xC5 = some c → 1039 < r ∨ (x.state ≠ .stopped ∧ x.state ≠ .orphaned) ∨
      (flag c.raw 8 11 = true ∧ 2 ^ x.log < (2 ^ 32 + x.tail - fld c.raw 0xC 0 32) % 2 ^ 32) → refused (.queueResume q)) ∧
    (let l := fld c.raw 8 6 5
     let p := fld c.raw 8 11 5
     let at_ := tabGet 0 (s.ctxOf k).map l
     actCmd s q 0xC4 = some c → 19 < l ∨ (s.ctxOf k).resident = false ∨ (flag c.raw 8 16 = true ∧ (at_ = 0 ∨ namesArray s k l = true)) ∨
      (flag c.raw 8 16 = false ∧ (19 < p ∨ at_ ≠ 0 ∨ s.assignedTo k p = true)) → refused (.arrayAssign q)) ∧
    (actCmd s q 0xC7 = some c → 2 ≤ fld c.raw 8 0 2 → (s.ctxOf (fld c.raw 8 2 6)).resident = false → refused (.tlbInval q)) ∧
    (let l := fld c.raw 8 6 5
     let p := fld c.raw 8 11 5
     actCmd s q 0xC4 = some c → l ≤ 19 → (s.ctxOf k).resident = true →
      (flag c.raw 8 16 = false → p ≤ 19 → tabGet 0 (s.ctxOf k).map l = 0 → s.assignedTo k p = false →
        (s.arrayDisabled p = false → ∃ t, exec (.arrayAssign q) s = .next t ∧ t.cmdEnded q c.n stOk ∧ tabGet 0 (t.ctxOf k).map l = p + 1 ∧
          ∀ m, m ≠ l → tabGet 0 (t.ctxOf k).map m = tabGet 0 (s.ctxOf k).map m) ∧
        (s.arrayDisabled p = true → ∃ t, exec (.arrayAssign q) s = .next t ∧ t.cmdEnded q c.n stDisabledArray ∧
          t = { s with queues := t.queues })) ∧
      (flag c.raw 8 16 = true → tabGet 0 (s.ctxOf k).map l ≠ 0 → namesArray s k l = false → ∃ t, exec (.arrayAssign q) s = .next t ∧
        t.cmdEnded q c.n stOk ∧ tabGet 0 (t.ctxOf k).map l = 0 ∧ tabGet none (t.ctxOf k).images l = none ∧
        ((s.holderOf (tabGet 0 (s.ctxOf k).map l - 1)).ctx = some k → t.alsOf (tabGet 0 (s.ctxOf k).map l - 1) = {} ∧
          (t.holderOf (tabGet 0 (s.ctxOf k).map l - 1)).ctx = none))) ∧
    (actCmd s q 0xC6 = some c → slotHeld s k = false → ∃ t, exec (.keyBind q) s = .next t ∧ t.cmdEnded q c.n stOk ∧
      t.mem.keyOf k = (if fld c.raw 8 6 2 = 1 then s.mem.nextKey + 1 else 0) ∧ (∀ j, j ≠ k → t.mem.keyOf j = s.mem.keyOf j) ∧
      t.mem.bytes = s.mem.bytes ∧ t = { s with mem := t.mem, mgmt := t.mgmt, draws := t.draws, queues := t.queues } ∧
      t.mgmt = { s.mgmt with drbg := t.mgmt.drbg } ∧
      (fld c.raw 8 6 2 = 1 → t.mem.keySet (t.mem.keyOf k) = (drawKey s 96).2)) ∧
    (actCmd s q 0xC6 = some c → slotHeld s k = true → refused (.keyBind q)) ∧
    (let scope := fld c.raw 8 0 2
     actCmd s q 0xC7 = some c → scope = 1 ∨ 2 ≤ scope ∧ (s.ctxOf (fld c.raw 8 2 6)).resident = true → s.mmu.inval = none →
      ∃ t v, exec (.tlbInval q) s = .next t ∧ t.mmu.inval = some v ∧ v.scope = scope ∧ v.ctx = fld c.raw 8 2 6 ∧ v.va = fld c.raw 0x10 0 64 ∧
        v.waiter = some (q.val, c.n) ∧ t = { s with mmu := t.mmu, queues := t.queues } ∧
        ∀ w ∈ t.mmu.walks, v.coversWalk w.ctx = true → w.discard = true) ∧
    (actCmd s q 0xC7 = some c → fld c.raw 8 0 2 = 0 → ∃ t, exec (.tlbInval q) s = .next t ∧ t.cmdEnded q c.n stOk ∧ t = { s with queues := t.queues }) ∧
    (let owner := fld c.raw 8 0 7
     let pa := fld c.raw 0x10 0 64
     let n := 2 ^ 21 * fld c.raw 0x18 0 32
     (actCmd s q 0xC8 = some c → s.mem.keyOf owner ≠ 0 → rowsBusy s pa n = true → exec (.memInit q) s = .next s) ∧
     (actCmd s q 0xC8 = some c → s.mem.keyOf owner ≠ 0 → rowsBusy s pa n = false → pa % 256 = 0 → (∀ a, pa ≤ a → a < pa + n → s.chanRetired a = false) →
      ∃ t, exec (.memInit q) s = .next t ∧ t.cmdEnded q c.n stOk ∧ (∀ a, pa ≤ a → a < pa + n → tabGet 0 t.mem.bytes a = 0) ∧
        (∀ a, a < pa ∨ pa + n ≤ a → tabGet 0 t.mem.bytes a = tabGet 0 s.mem.bytes a) ∧
        ∀ b, pa / 256 ≤ b → b < (pa + n) / 256 → tabGet {} t.mem.blks b = ⟨some (owner, s.mem.keyOf owner), 0⟩)) ∧
    (actCmd s q 0xC8 = some c → s.mem.keyOf (fld c.raw 8 0 7) = 0 → refused (.memInit q))

/-- R149, R229, R230: how a queue is destroyed. Its unstarted commands end ABORTED and its running ones are told to abort; each engine stops
at its abort point and reports; then the ALSs that its context holds and the DSS partitions that it owns are scrubbed; then it is DISABLED and
afresh, with no expert slot DISPATCHED or COMBINING, and the command ends, with its report written where it names an address.
Completes: exec answers a next state, under conditions on the state and the operands alone, for `queueDestroy`, `engineAbortReached`,
`queueDestroyDrained`, `queueDestroyComplete`.
The model's readings it rests on: log entries 42, 70, 71, 212. -/
def Obligations.QueueDestruction : Prop :=
  ∀ (s : State) (q : QueueId),
    (∀ c, actCmd s q 0xC3 = some c →
      let k := fld c.raw 8 0 11
      let x := s.queueOf k
      (k ≤ 1039 → k ≠ q.val → x.state ≠ .disabled → x.state ≠ .draining → ∃ t d, exec (.queueDestroy q) s = .next t ∧
        (t.queueOf k).state = .draining ∧ (t.queueOf k).destroy = some d ∧ d.byQueue = q.val ∧ d.byCmd = c.n ∧ d.scrubbing = false ∧
        (∀ e ∈ (t.queueOf k).cmds, e.ended = true ∨ e.aborted = true) ∧ (t.queueOf k).cmds.length = x.cmds.length ∧ t.mem = s.mem ∧
        ((x.cmds.map (·.n)).Nodup → ∀ y ∈ x.cmds, y.ended = false → ∀ e ∈ (t.queueOf k).cmds, e.n = y.n →
          if y.started then e.aborted = true ∧ e.abortStatus = stAborted else e.ended = true ∧ e.status = stAborted)) ∧
      (1039 < k ∨ k = q.val ∨ x.state = .disabled ∨ x.state = .draining → ∃ t, exec (.queueDestroy q) s = .next t ∧
        t.cmdEnded q c.n stTarget ∧ t = { s with queues := t.queues })) ∧
    (∀ (d : DieId) (c : ChanId) rows, s.obs.fatal = 1 → (s.chOf (32 * d.val + c.val)).writing = false → ∃ t, exec (.engineAbortReached (0x20 + d.val) (some c) rows) s = .next t ∧
      (t.chOf (32 * d.val + c.val)).pending = 0 ∧ (t.chOf (32 * d.val + c.val)).desc = none ∧ (t.chOf (32 * d.val + c.val)).issued = [] ∧
      (t.chOf (32 * d.val + c.val)).state = (if (s.chOf (32 * d.val + c.val)).state = .disabled then .disabled else .idle) ∧
      t.ch (32 * d.val + c.val) 0xC = 0 ∧ t.mem = s.mem) ∧
    (∀ (n : ArrayId) rows k c, c ∈ (s.queueOf k).cmds → c.aborted = true → c.ended = false → n.val ∈ c.engines →
      arrAtBoundary (s.arrOf n) = true → abortStalls s n = false → ∃ t, exec (.engineAbortReached n none rows) s = .next t ∧ (t.seqOf n).state = .idle ∧
        ∀ e ∈ (t.queueOf k).cmds, e.n = c.n → e.ended = true ∨ n.val ∉ e.engines) ∧
    (∀ d, s.halted = false → s.obs.fatal = 0 → (s.queueOf q).destroy = some d → d.scrubbing = false → d.reports.all (settled (s.queueOf q)) = true →
      (∀ c ∈ (s.queueOf q).cmds, c.ended = true) → ∃ t, exec (.queueDestroyDrained q) s = .next t ∧
        (∃ e, (t.queueOf q).destroy = some e ∧ e.scrubbing = true ∧ e.reports = d.reports.map (completedEntry s)) ∧
        (q.val < 1024 → (∀ n, n < 20 → (s.holderOf n).ctx = some (s.queueOf q).ctx → tabGet .none t.alsScrub n = .running) ∧
          (∀ die part, die < 4 → part < 16 → s.partOwned die part (s.queueOf q).ctx = true → t.partBusy die part = true) ∧
          ∀ e ∈ (t.ctxOf (s.queueOf q).ctx).images, ∀ i, e.2 = some i → i.alsValid = false) ∧
        t.mem = s.mem) ∧
    ∀ d c, s.halted = false → s.obs.fatal = 0 → (s.queueOf q).destroy = some d → d.scrubbing = true → (q.val < 1024 → scrubsRun s (s.queueOf q).ctx = false) →
      (s.queueOf q).cmds = [] → (s.queueOf q).held = [] → d.byQueue ≠ q.val → s.cmdOf d.byQueue d.byCmd = some c → c.ended = false →
      let a := fld c.raw 0x10 0 64
      let freed := fun (t : State) => t.queueOf q = {} ∧ t.cmdEnded d.byQueue d.byCmd stOk ∧
        ∀ i, i < 64 → (t.sslot i).queue = q.val → (t.sslot i).state ≠ 2 ∧ (t.sslot i).state ≠ 3
      (a = 0 → ∃ t, exec (.queueDestroyComplete q) s = .next t ∧ freed t ∧ t = { s with queues := t.queues, xch := t.xch, cat := t.cat }) ∧
      ∀ u b e, a ≠ 0 → feWrite (loseSlots s fun v => v.queue == q.val) d.byQueue a (reportBytes d.reports) = (u, .ok b e) → e.any id = false →
        ∃ t, exec (.queueDestroyComplete q) s = .next t ∧ freed t ∧ t.mem = u.mem ∧
          ∀ x ∈ (t.queueOf d.byQueue).cmds, x.n = d.byCmd → x.detailWritten = true

/-- R93, R139, R148, R225–R227: the switch of a shared array. A quantum that is over is noted; a switch begins for the context with the
oldest ready command, once nothing of the holder runs; it ends with the incoming context holding the array. XFER shows the
restore of an image while it is under way (R95), and an image in a row that is being copied is waited for (R174).
Completes: exec answers a next state, under conditions on the state and the operands alone, for `quantumExpiry`, `contextSwitchBegin`,
`contextSwitchEnd`.
The model's readings it rests on: log entries 1, 73, 112, 162. -/
def Obligations.ArraySwitch : Prop :=
  ∀ (s : State) (n : ArrayId),
    let h := s.holderOf n
    (∀ k, h.ctx = some k → (s.ctxOf k).quantum ≠ 0 → h.since + 1000 * (s.ctxOf k).quantum ≤ s.gtime →
      exec (.quantumExpiry n) s = .next (s.setHolder n { h with quantumOver := true })) ∧
    (∀ k, h.ctx = some k → (s.ctxOf k).quantum = 0 ∨ s.gtime < h.since + 1000 * (s.ctxOf k).quantum → exec (.quantumExpiry n) s = .next s) ∧
    (∀ w, s.feRuns = true → h.incoming = none → h.ctx = none → s.alsBlocked n = false → oldestReady s n none = some w →
      let u := s.setHolder n { h with incoming := some w.2.2 }
      exec (.contextSwitchBegin n) s = .next (if hasImage u w.2.2 n then showRestore u n else u) ∧
        bits ((showRestore u n).reg .acc n 0x100) 0 2 = 2) ∧
    (∀ w k l, s.feRuns = true → h.incoming = none → h.ctx = some k → oldestReady s n (some k) = some w → busyOn s k n = false →
      (s.seqOf n).state = .idle → readyFor s k n = false ∨ quantumIsOver s n = true → (∀ j, (s.chOf j).atBoundary = true) → s.alsBlocked n = false →
      imageBusy s n k = false → logicalOf (s.ctxOf k) n = some l → ∃ t, exec (.contextSwitchBegin n) s = .next t ∧
        (t.holderOf n).incoming = some w.2.2 ∧ (t.holderOf n).ctx = some k ∧ (t.holderOf n).saved = true ∧ t.alsOf n = {} ∧
        tabGet none (t.ctxOf k).images l = some ⟨true⟩ ∧ (t.arrOf n).flags = 0 ∧ (t.vecOf n).flags = 0 ∧
        t.reg .acc n 0x108 = if t.field .acc n 0x100 0 2 = 1 then s.reg .acc n 0x108 else (s.reg .acc n 0x108 + 1) % 2 ^ 32) ∧
    (∀ k, h.incoming = some k → h.ctx = none ∨ h.saved = true → s.alsBlocked n = false → imageBusy s n k = false → ∃ t, exec (.contextSwitchEnd n) s = .next t ∧
      t.holderOf n = { ctx := some k, since := s.gtime, lastCtx := some k } ∧
      t.field .acc n 0x100 0 2 = 0 ∧
      t.reg .acc n 0x108 = (if s.field .acc n 0x100 0 2 = 1 then (s.reg .acc n 0x108 + 1) % 2 ^ 32 else s.reg .acc n 0x108) ∧
      (h.ctx.isSome = true → t.reg .fe 1 (0x180 + 4 * n) = (s.reg .fe 1 (0x180 + 4 * n) + 1) % 2 ^ 32) ∧
      (tabGet none (s.ctxOf k).images ((logicalOf (s.ctxOf k) n).getD 0) = none →
        (t.arrOf n).acc = [] ∧ (t.arrOf n).rescale = [] ∧ (h.lastCtx ≠ some k → t.alsOf n = {}) ∧ t.mem = s.mem)) ∧
    ∀ k, h.incoming = some k → (h.ctx.isSome = true ∧ h.saved = false) ∨ imageBusy s n k = true → exec (.contextSwitchEnd n) s = .next s

/-- R305: CTX_CREATE zeroes a context's seed, step counter, choice counter, choice-log configuration and log-fault count, and a context
switch changes none of them.
Completes: exec answers a next state, under conditions on the state and the operands alone, for `ctxCreate`. -/
def Obligations.ContextGenerators : Prop :=
  (∀ (s : State) (q : QueueId) (c : Cmd), actCmd s q 0xC0 = some c → (s.ctxOf (fld c.raw 8 0 6)).resident = false →
    ∃ t, exec (.ctxCreate q) s = .next t ∧
      let x := t.ctxOf (fld c.raw 8 0 6)
      x.seed = 0 ∧ x.step = 0 ∧ x.choice = 0 ∧ x.logLog2 = 0 ∧ x.logBase = 0 ∧ x.logFaults = 0) ∧
  ∀ (s t : State) (n : ArrayId) k, exec (.contextSwitchBegin n) s = .next t ∨ exec (.contextSwitchEnd n) s = .next t →
    let x := s.ctxOf k
    let y := t.ctxOf k
    y.seed = x.seed ∧ y.step = x.step ∧ y.choice = x.choice ∧ y.logLog2 = x.logLog2 ∧ y.logBase = x.logBase ∧ y.logFaults = x.logFaults

/-- R34, R180–R193: a near-memory update. A norm that is not finite or is negative ends the command, with NV where it is a signalling NaN. The
command starts each stack's unit on its list; a unit fetches and checks a descriptor; and its block
is updated whole, or, where an operand is poisoned, passed over with nothing written.
Completes: exec answers a next state, under conditions on the state and the operands alone, for `nmuUpdate`, `nmuDescriptorFetch`,
`nmuBlockWritten`.
The model's readings it rests on: log entries 80, 81, 82, 83, 216. -/
def Obligations.NearMemoryUpdates : Prop :=
  (∀ (s : State) (q : QueueId) (c : Cmd) v table hyp clip f, actCmd s q 0x30 = some c → s.nmusFree = true →
    let word := bits c.raw 64 32
    (uMirror word = true → s.pair.depAcked = true ∧ s.pair.depEpoch = fld c.raw 0x28 0 32) → (uMirror word = false → fld c.raw 0x28 0 32 = 0) →
    updFormatsBad word = false →
    readUpdate s q (fld c.raw 0x10 0 64) (fld c.raw 0x18 0 64 + 1) (fld c.raw 0x20 0 64) 0 (s.queueOf q).ctx = (v, .ok (table, hyp, clip)) →
    tableBad table = false → hypBad hyp = false →
    (∀ fl, clipFactor (hypList hyp) clip = .error fl → ∃ t, exec (.nmuUpdate q) s = .next t ∧ t.cmdEnded q c.n stNonfiniteNorm ∧ t.nmu = s.nmu ∧
      (t.ctxOf (s.queueOf q).ctx).flags = (v.ctxOf (s.queueOf q).ctx).flags ||| fl % 256 * 2 ^ 24) ∧
    (clipFactor (hypList hyp) clip = .ok f → (∃ u, u < 24 ∧ fld table (16 * u + 8) 0 32 ≠ 0) → ∃ t, exec (.nmuUpdate q) s = .next t ∧
      t.mem = v.mem ∧ ∀ u, u < 24 → (t.nmuOf u).state = (if fld table (16 * u + 8) 0 32 = 0 then .idle else .update) ∧
        (t.nmuOf u).list = fld table (16 * u) 0 64 ∧ (t.nmuOf u).count = fld table (16 * u + 8) 0 32 ∧ (t.nmuOf u).next = 0 ∧
        (t.nmuOf u).cmd = { queue := q, cmd := c.n, ctx := (s.queueOf q).ctx, word := word, stream := fld c.raw 0xC 0 32, seed := c.seed0, step := c.step0, epoch := fld c.raw 0x28 0 32, hyp := hypList hyp, clip := f.1 })) ∧
  ∀ (s : State) (u : StackId),
    let x := s.nmuOf u
    let k := x.cmd
    (∀ v b p v', nmuMay s u = true → x.refused = false → x.state = .update → x.desc = none → x.next < x.count → x.list % 64 = 0 →
      memRead s (agNmu u) (u / 6) reqNmu k.ctx ((x.list + 64 * x.next + k.shift) % 2 ^ 48) 64 = (v, .ok b p) → p.any id = false →
      uCheck k.word (leNat b) = none →
      uTranslate (takeAnswers v (agNmu u)) u k.ctx (uTouched .update k.word (leNat b) k.shift) = (v', some true) →
      (uPortions .update k.word (leNat b)).all (placedOk v' u k.ctx) = true → ∃ t, exec (.nmuDescriptorFetch u) s = .next t ∧
        t.nmuOf u = { x with desc := some (leNat b) } ∧ t.mem = v'.mem) ∧
    (∀ v b p code, nmuMay s u = true → x.refused = false → x.state = .update → x.desc = none → x.next < x.count → x.list % 64 = 0 →
      memRead s (agNmu u) (u / 6) reqNmu k.ctx ((x.list + 64 * x.next + k.shift) % 2 ^ 48) 64 = (v, .ok b p) → p.any id = false →
      uCheck k.word (leNat b) = some code → ∃ t, exec (.nmuDescriptorFetch u) s = .next t ∧ (t.nmuOf u).state = .idle ∧
        (t.nmuOf u).fault = some code ∧ (t.nmuOf u).next = x.next ∧ t.mem = v.mem) ∧
    (∀ d v parts bad, x.state = .update → x.desc = some d → x.refused = false → (s.islOf (24 + u)).resetting = false → s.halted = false →
      let p := uParams d
      let m := uMoments k.word
      nmuReads s u k.ctx k.shift [uWeightPieces k.word d, stripePieces (uG d) 0 (if isIeee (uGfmt k.word) then 2 * p else p),
        stripePieces (uS d) 0 (uGscales k.word d + m * uMscales d), (if m ≥ 1 then stripePieces (uM1 d) 0 p else []),
        (if m = 2 then stripePieces (uM2 d) 0 p else if uOpt k.word = 3 then stripePieces (uM2 d) 0 768 else [])] = (v, .ok (parts, bad)) →
      (bad = true → ∃ t, exec (.nmuBlockWritten u) s = .next t ∧ t.mem = v.mem ∧ (t.nmuOf u).next = x.next + 1 ∧ (t.nmuOf u).done = x.done ∧
        (t.nmuOf u).skipped = x.skipped.or (some x.next) ∧ t.reg .nmu u 0x110 = satAdd 32 (s.reg .nmu u 0x110) 1) ∧
      (∀ v', bad = false → nmuWrites v u k.ctx k.shift (blockUpdate k d (parts.getD 0 []) (parts.getD 1 []) (parts.getD 2 [])
          (parts.getD 3 []) (parts.getD 4 [])).1 = (v', .ok [] []) →
        ∃ t, exec (.nmuBlockWritten u) s = .next t ∧ t.mem = v'.mem ∧ (t.nmuOf u).next = x.next + 1 ∧ (t.nmuOf u).done = x.done + 1 ∧
          (t.nmuOf u).desc = none ∧ tabGet 0 (t.ctxOf k.ctx).counters 7 = (tabGet 0 (s.ctxOf k.ctx).counters 7 + p) % 2 ^ 64))

/-- R195–R203, R367, R368: the mirror pair. Binding, which equal straps end in BIND_MISMATCH, and its handshake: a share and the chain are sent
in fragments, and the peer's are kept that come before; its share is answered with a signature over both, and share, chain and signature
together with FINISHED, which says what the member found of them; that finding and the peer's FINISHED end it, a failure of either
counted and a success with a key for each direction; an outcome that is another does nothing (the model's choice). A deposit, a send and a redo start the units; a send beside an executing update of the context ends
MIRROR_ORDER.
Completes: exec answers a next state, under conditions on the state and the operands alone, for `mirrorBind`, `pairHandshakeMsgRx`,
`pairHandshakeDone`, `mirrorDeposit`, `mirrorSend`, `mirrorRedo`.
The model's readings it rests on: log entries 1, 85, 86, 87, 88, 184, 188, 189, 190, 199, 200, 205, 217. -/
def Obligations.MirrorSender : Prop :=
  ∀ (s : State) (q : QueueId) (c : Cmd),
    let k := bits c.raw 64 6
    (actCmd s q 0xD0 = some c → c.raw.testBit 70 = false → (s.ctxOf k).resident = true → s.pairState = psUnbound → s.bindWaits = false →
      sidesEqual s = false → s.pairUp = true → ∃ t, exec (.mirrorBind q) s = .next t ∧ t.pair.binding = some (q.val, c.n) ∧ t.pair.e0 = fld c.raw 0x28 0 32 ∧
        t.pair.offset = fld c.raw 0x10 0 48 ∧ t.pairCtx = k ∧ t.pairState = psUnbound ∧
        t.pair.reasm = [] ∧ t.reg .nmu 0 0x210 = 0 ∧ t.pair.hs = { s.pair.hs with
          eph := (ephemeral s).2, myShare := ofNats (ecShare (ephemeral s).2), mySig := t.pair.hs.mySig } ∧ ∃ more,
        t.outbox = s.outbox ++ [(1, ofNats (ecShare (ephemeral s).2)), (2, ownCerts s)].flatMap (handshakeMsgs s.pairPeer) ++ more ∧
        (s.pair.hs.share.whole = false → more = [])) ∧
    (actCmd s q 0xD0 = some c → c.raw.testBit 70 = false → (s.ctxOf k).resident = true → s.pairState = psUnbound → s.bindWaits = false →
      sidesEqual s = true → ∃ t, exec (.mirrorBind q) s = .next t ∧ t.cmdEnded q c.n stBindMismatch ∧ t = { s with queues := t.queues }) ∧
    (actCmd s q 0xD0 = some c → c.raw.testBit 70 = true → (s.ctxOf k).resident = true → s.pairBound = true → k = s.pairCtx → ∃ t, exec (.mirrorBind q) s = .next t ∧
      t.cmdEnded q c.n stOk ∧ t.pairState = psLost ∧ t.pairPrior = s.pairState ∧ t.pairEpoch = s.pairEpoch) ∧
    (actCmd s q 0xD0 = some c → c.raw.testBit 70 = true → (s.ctxOf k).resident = true → s.pairState = psLost → k = s.pairCtx → ∃ t, exec (.mirrorBind q) s = .next t ∧
      t.cmdEnded q c.n stOk ∧ t.pairState = psUnbound ∧ t.pair = { hs := s.pair.hs } ∧ t.reg .nmu 0 0x210 = 0) ∧
    (∀ (p : PortId) (body : List Byte),
      let h := s.pair.hs
      let w := leNat (body.take 8)
      let last := bits w 16 16 + 1 == bits w 32 16
      let take := fun (x : HsPart) => takePart x (bits w 16 16) (bits w 32 16) ((body.drop 8).take 32)
      let put := fun (h : Handshake) => { s with pair := { s.pair with hs := h } }
      let whole := fun (x : HsPart) => { take x with data := if (take x).whole then (take x).data.take 97 else (take x).data }
      let unbound := s.pairState = psUnbound ∨ s.pairState = psLost
      (s.bonded p = false → ∀ l, exec (.pairHandshakeMsgRx p body l) s = .next s) ∧
      exec (.pairHandshakeMsgRx p body !last) s = .next s ∧
      (s.bindWaits = false → ¬unbound ∨ (bits w 0 8 ≠ 1 ∧ bits w 0 8 ≠ 2) → ∀ l, exec (.pairHandshakeMsgRx p body l) s = .next s) ∧
      (s.bonded p = true → s.bindWaits = false → unbound →
        (bits w 0 8 = 1 → exec (.pairHandshakeMsgRx p body last) s =
          .next (put (if bits w 16 16 = 0 then { share := whole {} } else { h with share := whole h.share }))) ∧
        (bits w 0 8 = 2 → exec (.pairHandshakeMsgRx p body last) s = .next (put { h with cert := take h.cert }))) ∧
      (s.bonded p = true → s.bindWaits = true → ∀ h', (bits w 0 8, h') ∈
          [(1, { h with share := whole h.share }), (2, { h with cert := take h.cert }), (3, { h with signature := take h.signature }),
           (4, { h with finished := take h.finished })] →
        let quiet := h'.come = false ∨ h.come = true
        (h'.share.whole = false ∨ h'.mySig ≠ [] → quiet → exec (.pairHandshakeMsgRx p body last) s = .next (put h')) ∧
        (h'.share.whole = true → h'.mySig = [] → quiet → exec (.pairHandshakeMsgRx p body last) s = .next (sendSignature (put h'))) ∧
        (h'.come = true → h.come = false → ∃ t, exec (.pairHandshakeMsgRx p body last) s = .next t ∧
          let v := if h'.mySig = [] then sendSignature (put h') else put h'
          t.pair.hs = v.pair.hs ∧ t.outbox = v.outbox ++ handshakeMsgs s.pair.peer (4, finishedData v s.pairSide (handshakeGood v))))) ∧
    (∀ side good, (finishedData s side good).length = 32) ∧
    (∃ sig : List Byte, (sendSignature s).pair.hs = { s.pair.hs with mySig := sig } ∧
      (sendSignature s).outbox = s.outbox ++ handshakeMsgs s.pair.peer (3, sig)) ∧
    (∀ (j n : Nat) (e : W32) (good : Bool), s.pair.binding = some (j, n) → s.bindWaits = true →
      let h := s.pair.hs
      let result := if h.come = false then none else if handshakeGood s = false then some false else if h.finished.whole = false then none
        else some (h.finished.data == finishedData s (!s.pairSide) true)
      (result ≠ some good → exec (.pairHandshakeDone good e) s = .next s) ∧
      (result = some good → ∃ t, exec (.pairHandshakeDone good e) s = .next t ∧
        if good = true ∧ e.toNat = s.pair.e0 ∧ s.peerSide = some (!s.pairSide) then
          t.cmdEnded j n stOk ∧ t.pairState = psIdle ∧ t.pairEpoch = e.toNat ∧ t.reg .nmu 0 0x20C = e.toNat ∧ t.reg .nmu 0 0x208 = 0 ∧
          t.pair.binding = none ∧ t.pair.txKey = pairKey s s.pairSide ∧ t.pair.rxKey = pairKey s (!s.pairSide)
        else t.cmdEnded j n stBindMismatch ∧ t.pair = {} ∧ t.reg .nmu 0 0x210 = 0 ∧ t.reg .sec 0 0x110 = satAdd 32 (s.reg .sec 0 0x110) 1)) ∧
    (∀ v table hyp clip, actCmd s q 0x50 = some c → s.nmusFree = true → pairUser s q = true →
      fld c.raw 0x28 0 32 = (s.reg .nmu 0 0x20C + 1) % 2 ^ 32 → uMirror (bits c.raw 64 32) = true → updFormatsBad (bits c.raw 64 32) = false →
      uClose (bits c.raw 64 32) = false → readUpdate s q (fld c.raw 0x10 0 64) 0 0 0 (s.queueOf q).ctx = (v, .ok (table, hyp, clip)) →
      tableBad table = false → (∃ u, u < 24 ∧ fld table (16 * u + 8) 0 32 ≠ 0) → ∃ t, exec (.mirrorDeposit q) s = .next t ∧
        t.pair.depEpoch = fld c.raw 0x28 0 32 ∧ t.pair.depAcked = false ∧
        ∀ u, u < 24 → (t.nmuOf u).state = if fld table (16 * u + 8) 0 32 = 0 then .idle else .deposit) ∧
    (actCmd s q 0x50 = some c → s.nmusFree = true → pairUser s q = false → ∃ t, exec (.mirrorDeposit q) s = .next t ∧
      t.cmdEnded q c.n stMirrorOrder ∧ t = { s with queues := t.queues }) ∧
    (actCmd s q 0x51 = some c → updateExecutes s (s.queueOf q).ctx = true → ∃ t, exec (.mirrorSend q) s = .next t ∧
      t.cmdEnded q c.n stMirrorOrder ∧ t = { s with queues := t.queues }) ∧
    (∀ v table hyp clip, actCmd s q 0x51 = some c → updateExecutes s (s.queueOf q).ctx = false → s.nmusFree = true → pairUser s q = true → s.pair.depAcked = true →
      s.pair.depEpoch = fld c.raw 0x28 0 32 → bits (bits c.raw 64 32) 0 13 = bits s.pair.depWord 0 13 → fld c.raw 0x10 0 64 = s.pair.depTable →
      readUpdate s q s.pair.depTable 0 0 0 (s.queueOf q).ctx = (v, .ok (table, hyp, clip)) → tableBad table = false →
      (∃ u, u < 24 ∧ fld table (16 * u + 8) 0 32 ≠ 0) → ∃ t, exec (.mirrorSend q) s = .next t ∧ t.mem = v.mem ∧
        ∀ u, u < 24 → (t.nmuOf u).state = if fld table (16 * u + 8) 0 32 = 0 then .idle else .send) ∧
    (∀ v w r table hyp clip f, actCmd s q 0x31 = some c → s.nmusFree = true → s.pairState = psLost →
      s.pairPrior = psDepClosed ∨ s.pairPrior = psStreamOpen → s.pairCtx = (s.queueOf q).ctx →
      rowsBusy s s.pair.hdr 128 = false → readFrom s 4 (s.queueOf q).ctx s.pair.hdr 128 = (v, r) → r.bus = false → r.bad = false →
      leNat r.bytes = Config.headerBytes s.pair.header % 2 ^ 1024 → bits s.pair.header 0 32 = bits c.raw 64 32 →
      readUpdate v q (bits s.pair.header 320 48) 0 0 s.pair.offset (s.queueOf q).ctx = (w, .ok (table, hyp, clip)) → tableBad table = false →
      hypBad (bits s.pair.header 512 512) = false → updFormatsBad (bits s.pair.header 32 32) = false →
      clipFactor (hypList (bits s.pair.header 512 512)) (if s.pair.header.testBit 96 then some (bits s.pair.header 256 32) else none) = .ok f →
      (∃ u, u < 24 ∧ fld table (16 * u + 8) 0 32 ≠ 0) → ∃ t, exec (.mirrorRedo q) s = .next t ∧ t.mem = w.mem ∧
        ∀ u, u < 24 → (t.nmuOf u).state = if fld table (16 * u + 8) 0 32 = 0 then .idle else .redo)

/-- R197–R200, R207, R368: the receiver's side of the mirror, and the acknowledgements. A packet is opened under the key and the counter of its
direction; one whose tag fails is discarded and counted, and takes a counter all the same; an outcome that is not what the model finds does
nothing (the model's choice).
Completes: exec answers a next state, under conditions on the state and the operands alone, for `depositBlockRx`, `depositClose`,
`mirrorBlockRx`, `mirrorBlockWritten`, `mirrorStreamClose`, `mirrorAckRx`.
The model's readings it rests on: log entries 1, 88, 112, 166, 190. -/
def Obligations.MirrorReceiver : Prop :=
  ∀ s : State,
    (∀ (u : StackId) (e : W32) (pkt : PairPkt) (last good : Bool), s.pairBound = true → s.pairUp = true →
      let plain := pairOpen s.pair.rxKey s.pair.rxCtr pkt.head pkt.body
      (good ≠ plain.isSome → exec (.depositBlockRx u e pkt last good) s = .next s) ∧
      (plain = none → exec (.depositBlockRx u e pkt last false) s = .next ((nextRx s).bump .sec 0 0x110 1)) ∧
      (∀ b, plain = some b → e.toNat ≠ (s.pairEpoch + 1) % 2 ^ 32 ∨ s.pairState = psStreamOpen →
        exec (.depositBlockRx u e pkt last true) s = .next (nextRx s)) ∧
      (∀ b v, plain = some b → e.toNat = (s.pairEpoch + 1) % 2 ^ 32 → s.pairState ≠ psStreamOpen → pairWrite s u (cutParts pkt.places b) = (v, true) →
        ∃ t, exec (.depositBlockRx u e pkt last true) s = .next t ∧ t.mem = v.mem ∧ t.pairState = psDepOpen ∧ t.pair.rxCtr = v.pair.rxCtr + 1 ∧
          t.pair.rxDep = (if s.pairState = psDepOpen then v.pair.rxDep else 0) + bit last)) ∧
    (∀ (e : W32) n h v, s.pairState = psDepOpen → e.toNat = (s.pairEpoch + 1) % 2 ^ 32 → s.pair.rxDep = n → rowsBusy s s.pair.hdr 128 = false →
      writeFrom s 5 s.pairCtx s.pair.hdr (leBytes (Config.headerBytes (h % 2 ^ 1024)) 128) = (v, false) →
      ∃ t, exec (.depositClose e n h) s = .next t ∧ t.mem = v.mem ∧ t.pair.header = h % 2 ^ 1024 ∧ t.pairState = psDepClosed ∧
        t.outbox = v.outbox ++ [{ kind := .pair, dest := s.pair.peer, args := [5, e.toNat] }]) ∧
    (∀ (u : StackId) (j : Fin 1048576) (e : W32) (pkt : PairPkt) (whole good : Bool), s.pairBound = true → s.pairUp = true →
      let plain := pairOpen s.pair.rxKey s.pair.rxCtr pkt.head pkt.body
      (good ≠ plain.isSome → exec (.mirrorBlockRx u j e pkt whole good) s = .next s) ∧
      (plain = none → exec (.mirrorBlockRx u j e pkt whole false) s = .next ((nextRx s).bump .sec 0 0x110 1)) ∧
      (∀ b, plain = some b → e.toNat = (s.pairEpoch + 1) % 2 ^ 32 → s.pairState = psStreamOpen → findReasm s u j = none → s.pair.reasm.length < 64 →
        (whole = false → ∃ t, exec (.mirrorBlockRx u j e pkt whole true) s = .next t ∧ t.mem = s.mem ∧ t.pair.rxCtr = s.pair.rxCtr + 1 ∧
          t.reg .nmu 0 0x210 = t.pair.reasm.length ∧
          findReasm t u j = some ⟨u, j, e.toNat, (cutParts pkt.places b).map fun x => (0, x.1, x.2), false⟩) ∧
        (∀ v, whole = true → pairWrite s u (cutParts pkt.places b) = (v, true) →
          ∃ t, exec (.mirrorBlockRx u j e pkt whole true) s = .next t ∧ t.mem = v.mem ∧
          findReasm t u j = some ⟨u, j, e.toNat, [], true⟩))) ∧
    (∀ (u : StackId) (j : Fin 1048576) r v o w, findReasm s u j = some r → r.whole = true → rowBusy s (mapEntryAt s u j) = false →
      readFrom s (u / 6) s.pairCtx (mapEntryAt s u j) 4 = (v, o) → o.bus = false → o.bad = false →
      writeFrom v (u / 6) v.pairCtx (mapEntryAt s u j) (leBytes r.epoch 4) = (w, false) → ∃ t, exec (.mirrorBlockWritten u j) s = .next t ∧
        t.mem = w.mem ∧ findReasm t u j = none ∧
        t.reg .nmu 0 0x208 = (s.reg .nmu 0 0x208 + bit (leNat o.bytes != r.epoch)) % 2 ^ 32) ∧
    (∀ (e : W32) n, s.pairState = psStreamOpen → e.toNat = (s.pairEpoch + 1) % 2 ^ 32 → s.reg .nmu 0 0x208 = n →
      ∃ t, exec (.mirrorStreamClose e n) s = .next t ∧ t.pairState = psIdle ∧ t.pairEpoch = e.toNat ∧ t.reg .nmu 0 0x208 = 0 ∧ t.mem = s.mem ∧
        t.outbox = s.outbox ++ [{ kind := .pair, dest := s.pair.peer, args := [6, e.toNat] }]) ∧
    (∀ (e : W32) n, s.pairState ≠ psStreamOpen ∨ e.toNat ≠ (s.pairEpoch + 1) % 2 ^ 32 ∨ s.reg .nmu 0 0x208 ≠ n →
      exec (.mirrorStreamClose e n) s = .next s) ∧
    ∀ (stream : Bool) (e : W32) q n u, s.pair.waiting = some (q, n, stream, u) → s.pairUp = true → (s.nmuOf u).cmd.epoch = e.toNat →
      ∃ t, exec (.mirrorAckRx stream e) s = .next t ∧ t.pair.waiting = none ∧ (stream = false → t.pair.depAcked = true) ∧
        (stream = true → t.reg .nmu 0 0x20C = e.toNat) ∧ t.mem = s.mem ∧
        ∀ x ∈ (t.queueOf q).cmds, x.n = n → x.ended = true ∨ 0x30 + u ∉ x.engines

/-- R246, R247, R249, R262, R317, R318: a port's training, step by step and by its timeouts; probation, degradation, replay, retrain and the
credits sent every microsecond on each port of a link that carries flits, on a port in PROBATION with a probe in the link's own sequence.
Completes: exec answers a next state, under conditions on the state and the operands alone, for `signalDetect`, `equalizeDone`, `lockAchieved`,
`bxlHalfWidthTimeout`, `trainingTimeout`, `failedRetry`, `retrainExpiry`, `probationEnd`, `degradeCheck`, `replayTimeout`, `creditTimer`.
The model's readings it rests on: log entries 1, 2, 92, 168, 169, 202. -/
def Obligations.LinkTraining : Prop :=
  ∀ (s : State) (p : LnkId),
    (s.portState p = lsDetect → ∃ t, exec (.signalDetect p) s = .next t ∧ t.portState p = lsEqualize ∧ t = { s with regs := t.regs }) ∧
    (s.portState p = lsEqualize → ∃ t, exec (.equalizeDone p) s = .next t ∧ t.portState p = lsLock ∧ t = { s with regs := t.regs }) ∧
    (s.portState p = lsLock → ∃ t m, exec (.lockAchieved p) s = .next t ∧ t.portState p = lsInit ∧ t.outbox = s.outbox ++ [m] ∧ m.kind = .flit ∧
      m.dest = p.val ∧ (p.val = bxlPort → (t.reg .bxl 0 0x100).testBit 4 = false) ∧
      t = { s with regs := t.regs, outbox := t.outbox, port := t.port } ∧ t.link = s.link) ∧
    (s.portState p ≠ lsDetect → exec (.signalDetect p) s = .next s) ∧ (s.portState p ≠ lsEqualize → exec (.equalizeDone p) s = .next s) ∧
    (s.portState p ≠ lsLock → exec (.lockAchieved p) s = .next s) ∧
    (∀ hi, s.portState bxlPort = lsLock → 50000000 + (s.portOf bxlPort).since ≤ s.gtime → ∃ t, exec (.bxlHalfWidthTimeout hi) s = .next t ∧
      t.portState bxlPort = lsInit ∧ (t.reg .bxl 0 0x100).testBit 4 = true ∧ (t.reg .bxl 0 0x100).testBit 5 = hi) ∧
    (s.trainingLate p = true → ¬(p.val = bxlPort ∧ (s.portOf p).retrained = true) → ∃ t, exec (.trainingTimeout p) s = .next t ∧
      t.portState p = lsFailed ∧ (t.portOf p).since = s.gtime ∧ (t.portOf p).init = none ∧
      (p.val ≠ bxlPort → (s.portOf p).retrained = true → (t.linkOf p).replay = [] ∧ (t.linkOf p).begun = [])) ∧
    (s.trainingLate p = false → exec (.trainingTimeout p) s = .next s) ∧
    (s.portState p = lsFailed → 1000000000 + (s.portOf p).since ≤ s.gtime → p.val = bxlPort ∨ (s.reg .lnk p 0x100).testBit 0 = true →
      ∃ t, exec (.failedRetry p) s = .next t ∧ t.portState p = lsDetect ∧ (t.portOf p).since = s.gtime) ∧
    ((s.portOf p).retrained = true → (s.portOf p).lost = false → s.trainingLate p = true →
      (p.val ≠ bxlPort → ∃ t, exec (.retrainExpiry p) s = .next t ∧ (t.linkOf p).replay = [] ∧ (t.linkOf p).begun = [] ∧
        (t.linkOf p).waiting = (s.linkOf p).waiting ∧ (t.portOf p).retrained = false) ∧
      (p.val = bxlPort → ∃ t, exec (.retrainExpiry p) s = .next t ∧ t.bxl.reqs = [] ∧ ∀ l, (t.lineOf l).st ≠ .m)) ∧
    (∀ f : PortId, s.portState f = lsProbation → (s.portOf f).errFree + 1000000000 * s.field .lnk f 0x10C 0 16 ≤ s.gtime →
      ∃ t, exec (.probationEnd f) s = .next t ∧ t.portState f = lsUp) ∧
    (s.pins.inReset = false → (s.portOf p).second < s.gtime / 1000000000 → p.val ≠ bxlPort → ∃ t, exec (.degradeCheck p) s = .next t ∧ (t.portOf p).uncorr = 0 ∧
      (t.portOf p).second = s.gtime / 1000000000 ∧ t.portState p =
        if s.portState p = lsUp ∧ s.field .lnk p 0x110 0 16 ≠ 0 ∧ s.field .lnk p 0x110 0 16 < (s.portOf p).uncorr then lsDetect
        else s.portState p) ∧
    (p.val ≠ bxlPort →
      let l := s.layerOf p
      let x := s.linkOf l
      (x.replay ≠ [] → x.ackAt + 2000 ≤ s.gtime → s.linkCarries l = true → x.replays < 7 → ∃ t fs, exec (.replayTimeout p) s = .next t ∧
        (t.linkOf l).replays = x.replays + 1 ∧ (t.linkOf l).replay = x.replay ∧ t.reg .lnk p 0x120 = satAdd 32 (s.reg .lnk p 0x120) 1 ∧
        t.outbox = s.outbox ++ fs ∧ fs.length = x.replay.length ∧
        ∀ (j : Nat) e, x.replay[j]? = some e → ∃ u q, fs[j]? = some (flitMsg u l q 0 e.1 e.2)) ∧
      (x.replay ≠ [] → x.ackAt + 2000 ≤ s.gtime → s.portState p = lsUp → s.bonded p = false → 7 ≤ x.replays →
        ∃ t, exec (.replayTimeout p) s = .next t ∧ t.portState p = lsDetect ∧ (t.portOf p).retrained = true)) ∧
    (p.val = bxlPort → (s.linkOf p).replay ≠ [] → (s.linkOf p).ackAt + 1000 ≤ s.gtime → s.portState p = lsUp → (s.linkOf p).replays < 7 →
      ∃ t, exec (.replayTimeout p) s = .next t ∧ (t.linkOf p).replays = (s.linkOf p).replays + 1 ∧
        t.reg .bxl 0 0x144 = satAdd 32 (s.reg .bxl 0 0x144) 1) ∧
    (let l := s.layerOf p
     let x := s.linkOf l
     let y := s.portOf p
     (y.creditAt + 1000 ≤ s.gtime → s.linkCarries l = true → ∃ t m fs, exec (.creditTimer p) s = .next t ∧
        (t.linkOf l).told = x.freed ∧ (t.portOf p).creditAt = s.gtime ∧ t.outbox = s.outbox ++ m :: fs ∧
        (s.portState p ≠ lsProbation → fs = []) ∧ fs.length ≤ 1 ∧ (∀ f ∈ fs, ∃ u b, f = flitMsg u l p 0 x.next b) ∧
        m = flitMsg s l p 3 x.next (creditBody l x.freed)) ∧
     (s.gtime < y.creditAt + 1000 ∨ s.linkCarries l = false → exec (.creditTimer p) s = .next s))

/-- R245, R248, R249, R262: what a codeword brings to a fabric port. One that cannot be decoded is counted, restarts a probation and
delivers none of its flits; the symbols corrected in one that can are counted, and its IDLE flits do nothing more; a good DATA flit in
sequence is accepted, and one out of sequence is not. A port receives nothing before INIT, nor over any other number of lanes.
Completes: exec answers a next state, under conditions on the state and the operands alone, for `codewordRx`.
The model's readings it rests on: log entries 1, 90, 165. -/
def Obligations.CodewordReception : Prop :=
  ∀ (s : State) (p : LnkId) (low high : List (List (BitVec 10))) (inits : List InitPar), p.val ≠ bxlPort →
    let l := s.layerOf p
    let w := rsDecode (undeal 136 (low.map fun l => l.map (·.toNat)))
    let ready := lsInit ≤ s.portState p ∧ s.portState p ≤ lsUp ∧ low.length = 4 ∧ high = []
    (¬ready → exec (.codewordRx p low high inits) s = .next s) ∧
    (ready → w = none → ∃ t, exec (.codewordRx p low high inits) s = .next t ∧ (t.portOf p).uncorr = (s.portOf p).uncorr + 1 ∧
      (t.portOf p).errFree = s.gtime ∧ t.reg .lnk p 0x118 = satAdd 32 (s.reg .lnk p 0x118) 1 ∧
      (t.linkOf l).expect = (s.linkOf l).expect ∧ (t.linkOf l).stream = (s.linkOf l).stream ∧ t.rtr.inb = s.rtr.inb) ∧
    ∀ m n, ready → w = some (m, n) → (s.linkOf l).replay = [] →
      ((∀ f ∈ cwFlits m, (readFlit f).good = true ∧ (readFlit f).ty = 1) → ∃ t, exec (.codewordRx p low high inits) s = .next t ∧
        t.reg .lnk p 0x114 = (if n = 0 then s.reg .lnk p 0x114 else satAdd 32 (s.reg .lnk p 0x114) n) ∧ t.link = s.link) ∧
      ∀ f fs, cwFlits m = f :: fs → (readFlit f).good = true → (readFlit f).ty = 0 →
        (∀ g ∈ fs, (readFlit g).good = true ∧ (readFlit g).ty = 1) → ∃ t, exec (.codewordRx p low high inits) s = .next t ∧
          (t.linkOf l).expect = if (readFlit f).seq = (s.linkOf l).expect then ((s.linkOf l).expect + 1) % 4096 else (s.linkOf l).expect

/-- R251, R254–R258, R261: what the router does with the packet at the head of an input buffer, at an advance of its epoch and at a
sample. With no identifier of its own it forwards nothing, and a throttled half's data wait.
Completes: exec answers a next state, under conditions on the state and the operands alone, for `packetForward`, `packetStallTimeout`,
`epochAdvance`, `histSample`.
The model's readings it rests on: log entries 1, 2, 9, 89, 91, 93. -/
def Obligations.RouterSteps : Prop :=
  ∀ s : State,
    (∀ (i : Fin 38) (v : Fin 4), s.deviceId = 0x7FFF → exec (.packetForward i v) s = .next s) ∧
    (∀ (i : Fin 38) (v : Fin 4) k rest, s.deviceId ≠ 0x7FFF → (tabGet {} s.rtr.inb (4 * i.val + v.val)).pkts = k :: rest →
      s.heldBack i v = true → ∃ t, exec (.packetForward i v) s = .next t ∧ t.reg .rtr 0 0x160 = satAdd 32 (s.reg .rtr 0 0x160) 1 ∧
        t.rtr.inb = s.rtr.inb) ∧
    (∀ (i : Fin 38) (v : Fin 4) k rest, s.deviceId ≠ 0x7FFF → (tabGet {} s.rtr.inb (4 * i.val + v.val)).pkts = k :: rest →
      s.heldBack i v = false →
      let e := routeEntry s (injected s i k)
      (k.dst = s.deviceId → ∃ t, exec (.packetForward i v) s = .next t ∧ (tabGet {} t.rtr.inb (4 * i.val + v.val)).pkts = rest ∧
        ∀ o, 0x140 ≤ o → o < 0x160 → t.reg .rtr 0 o = s.reg .rtr 0 o) ∧
      (k.dst ≠ s.deviceId → s.fenced k.dst = true → ∃ t, exec (.packetForward i v) s = .next t ∧
        t.reg .rtr 0 0x140 = satAdd 32 (s.reg .rtr 0 0x140) 1) ∧
      (k.dst ≠ s.deviceId → s.fenced k.dst = false → (setBits 36 (enAdapt e)).any s.usable = false → s.usable (enEscPort e) = false →
        ∃ t, exec (.packetForward i v) s = .next t ∧ t.reg .rtr 0 0x140 = satAdd 32 (s.reg .rtr 0 0x140) 1) ∧
      (k.dst ≠ s.deviceId → s.fenced k.dst = false → (setBits 36 (enAdapt e)).any s.usable = true ∨ s.usable (enEscPort e) = true →
        15 ≤ k.hops → ∃ t, exec (.packetForward i v) s = .next t ∧
        t.reg .rtr 0 0x144 = satAdd 32 (s.reg .rtr 0 0x144) 1 ∧ (tabGet {} t.rtr.inb (4 * i.val + v.val)).pkts = rest) ∧
      (∀ p k', forward s (injected s i k) = .send p k' → ∃ t, exec (.packetForward i v) s = .next t ∧
        (tabGet {} t.rtr.inb (4 * i.val + v.val)).pkts = rest ∧ k'.hops = k.hops + 1 ∧
        tabGet 0 (t.linkOf p).used k'.vc = (tabGet 0 (s.linkOf p).used k'.vc + pktUnits k') % 65536)) ∧
    (∀ (i : Fin 38) (v : Fin 4) k rest, (tabGet {} s.rtr.inb (4 * i.val + v.val)).pkts = k :: rest →
      (tabGet {} s.rtr.inb (4 * i.val + v.val)).since + 1000 * s.field .rtr 0 0x120 0 16 < s.gtime →
      ∃ t, exec (.packetStallTimeout i v) s = .next t ∧ (tabGet {} t.rtr.inb (4 * i.val + v.val)).pkts = rest ∧
        t.reg .rtr 0 0x148 = satAdd 32 (s.reg .rtr 0 0x148) 1) ∧
    ((s.reg .rtr 0 0x104).testBit 8 = true → s.reg64 .rtr 0 0x108 0x10C ≤ s.gtime → ∃ t, exec .epochAdvance s = .next t ∧
      t.reg .rtr 0 0x104 = (s.routeEpoch + 1) % 256 ∧ t.rtr.prev = s.rtr.cur ∧ t.rtr.cur = s.rtr.next ∧ t.rtr.next = s.rtr.next ∧
      (∀ p, p < 36 → s.portState p = lsUp → (t.reg .lnk p 0x108).testBit 5 = true) ∧ t = { s with regs := t.regs, rtr := t.rtr }) ∧
    ((s.reg .rtr 0 0x104).testBit 8 = false ∨ s.gtime < s.reg64 .rtr 0 0x108 0x10C → exec .epochAdvance s = .next s) ∧
    (s.pins.inReset = false → (s.reg .rtr 0 0x124).testBit 16 = false → s.field .rtr 0 0x124 0 16 ≠ 0 → s.rtr.sampled + s.field .rtr 0 0x124 0 16 ≤ s.gtime →
      ∃ t, exec .histSample s = .next t ∧ t = { s with regs := t.regs, rtr := { s.rtr with sampled := s.gtime } } ∧
        ∀ p b, p < 36 → b < 8 → t.reg .rtr 0 (0x200 + 0x20 * p + 4 * b) =
          if b = min (s.occupancy p / 16384) 7 then satAdd 32 (s.reg .rtr 0 (0x200 + 0x20 * p + 4 * b)) 1
          else s.reg .rtr 0 (0x200 + 0x20 * p + 4 * b)) ∧
    ((s.reg .rtr 0 0x124).testBit 16 = true → exec .histSample s = .next s)

/-- R319, R322, R323, R330: a register access of the companion processor is answered, or posted, and one through the window reaches device
memory under the window's owner, or waits for a row that is being copied, and every later one behind it (R170, R174); a message whose extent R319 does not allow is counted as malformed.
R325, R328: a snoop is answered from the line's stable state, and an invalidation removes every translation it covers.
Completes: exec answers a next state, under conditions on the state and the operands alone, for `mmioRd`, `mmioWr`, `snpInv`, `snpShr`,
`xlateInv`.
The model's readings it rests on: log entries 1, 111, 112, 113, 167. -/
def Obligations.CompanionRequests : Prop :=
  (∀ s : State, s.bxlUp = true →
     (∀ (tag : Fin 4096) (a n : Nat), badExtent a n = false →
       (mmioHeld s = true → exec (.mmioRd tag a n) s = .next (memWaits s (.mmioRd tag a n))) ∧
       (mmioHeld s = false →
       (a < 2 ^ 24 → n = 4 → exec (.mmioRd tag a n) s =
         .next (mmioReply (readReg .host s a).1 tag a bsOk false (leBytes (readReg .host s a).2 4))) ∧
       (a < 2 ^ 24 → n = 8 → a % 8 = 0 → exec (.mmioRd tag a n) s =
         .next (mmioReply (readReg8 .host s a).1 tag a bsOk false (leBytes (readReg8 .host s a).2 8))) ∧
       (∀ pa, windowPa s a n = some pa → rowsBusy s pa n = false → let r := readFrom s 4 s.windowOwner pa n
         r.2.bus = false → ∃ t, exec (.mmioRd tag a n) s = .next t ∧
         t.mem = r.1.mem ∧ ∃ m, t.outbox.getLast? = some m ∧ m.kind = .mmioCmp ∧ m.dest = tag.val ∧
           m.data = r.2.bytes ∧ m.args = [a, bsOk, bit r.2.bad]) ∧
       (∀ pa, windowPa s a n = some pa → rowsBusy s pa n = true →
         exec (.mmioRd tag a n) s = .next (memWaits s (.mmioRd tag a n))) ∧
       (mmioOffset a n = none → windowPa s a n = none → exec (.mmioRd tag a n) s = .next (mmioReply s tag a bsUr false [])))) ∧
     (∀ (tag : Fin 4096) (a n : Nat), badExtent a n = true → ∃ t, exec (.mmioRd tag a n) s = .next t ∧
       t.reg .bxl 0 0x15C = satAdd 32 (s.reg .bxl 0 0x15C) 1) ∧
     (∀ (a : Nat) (data : List Byte), badExtent a data.length = false →
       (mmioHeld s = true → exec (.mmioWr a false data) s = .next (memWaits s (.mmioWr a false data))) ∧
       (mmioHeld s = false →
       (a < 2 ^ 24 → data.length = 4 → exec (.mmioWr a false data) s = .next (writeReg .host s a (leNat data))) ∧
       (a < 2 ^ 24 → data.length = 8 → a % 8 = 0 → exec (.mmioWr a false data) s = .next (writeReg8 .host s a (leNat data))) ∧
       (a < 2 ^ 24 → data.length = 4 → ∃ t, exec (.mmioWr a true data) s = .next t ∧ t.mmu = s.mmu ∧ t.queues = s.queues ∧
         t.reg .bxl 0 0x158 = satAdd 32 (s.reg .bxl 0 0x158) 1) ∧
       (∀ pa, windowPa s a data.length = some pa → rowsBusy s pa data.length = false →
         exec (.mmioWr a false data) s = .next (writeFrom s 4 s.windowOwner pa data).1) ∧
       (∀ pa, windowPa s a data.length = some pa → rowsBusy s pa data.length = true →
         exec (.mmioWr a false data) s = .next (memWaits s (.mmioWr a false data))) ∧
       (mmioOffset a data.length = none → windowPa s a data.length = none → exec (.mmioWr a false data) s = .next s))) ∧
     ∀ (a : Nat) (data : List Byte), badExtent a data.length = true → exec (.mmioWr a false data) s = .next (malformed s a)) ∧
  (∀ (s : State) (tag : Fin 4096) (a : Nat), s.bxlUp = true →
     let x := s.lineOf (a / 64)
     (a % 64 = 0 → ∃ t m, exec (.snpInv tag a) s = .next t ∧ (t.lineOf (a / 64)).st = .i ∧ t.outbox = s.outbox ++ [m] ∧ m.kind = .snpRsp ∧
       m.dest = tag.val ∧ (∀ l, l ≠ a / 64 → t.lineOf l = s.lineOf l) ∧ (x.st = .m → x.leaving = false → m.data = x.data) ∧
       (x.st = .m → x.leaving = true → m.args.getD 2 0 = 1)) ∧
     (a % 64 = 0 → x.st ≠ .i → ¬(x.st = .m ∧ x.leaving = true) → ∃ t m, exec (.snpShr tag a) s = .next t ∧ t.lineOf (a / 64) = { x with st := .s } ∧
       t.outbox = s.outbox ++ [m] ∧ m.kind = .snpRsp ∧ m.args.getD 1 0 = 1 ∧ m.data = if x.st = .m then x.data else []) ∧
     (a % 64 ≠ 0 → exec (.snpInv tag a) s = .next (malformed s a) ∧ exec (.snpShr tag a) s = .next (malformed s a)) ∧
     ∀ (n : Fin 1048576) (all : Bool), a % 4096 = 0 → ∃ t, exec (.xlateInv tag a n all) s = .next t ∧
       t.bxl.atc = s.bxl.atc.filter (fun e => !e.overlaps a (a + 4096 * (n.val + 1)) all) ∧ t.bxl.lines = s.bxl.lines ∧
       (s.bxl.reqs = [] → s.bxl.xinvs = [] → t.outbox = s.outbox ++ [{ kind := .xinvDone, dest := tag }] ∧ t.bxl.xinvs = []))

/-- R320, R321, R325, R327, R330: what ends a request of the LM1. A response that fits it frees its tag and is kept for the agent, installs
a line or a translation; one with an error status, and a timeout, end it with a bus error; one that no request has is counted.
Completes: exec answers a next state, under conditions on the state and the operands alone, for `bxlData`, `cmp`, `xlateRsp`,
`bxlResponseTimeout`, `bxlTagRetirementEnd`.
The model's readings it rests on: log entries 1, 2, 114, 115. -/
def Obligations.CompanionResponses : Prop :=
  ∀ (s : State) (tag : Fin 4096),
    (∀ a st status p data, s.bxlUp = true → tabGet none s.bxl.reqs tag = none → ∃ t, exec (.bxlData tag a st status p data) s = .next t ∧
      t.bxl = s.bxl ∧ t.reg .bxl 0 0x150 = satAdd 32 (s.reg .bxl 0 0x150) 1) ∧
    (∀ r, s.bxlUp = true → tabGet none s.bxl.reqs tag = some r → r.agent ≠ agNone →
      (∀ data, r.mtype = mtRdCur → data.length = r.size → ∃ t, exec (.bxlData tag r.addr 0 0 false data) s = .next t ∧
        tabGet none t.bxl.reqs tag = none ∧ t.regs = s.regs ∧ t.bxl.answers = s.bxl.answers ++
          [{ agent := r.agent, mtype := mtRdCur, addr := r.addr, size := r.size, result := 0, data := data }]) ∧
      (∀ data, r.mtype = mtRdS → data.length = r.size → ∃ t, exec (.bxlData tag r.addr 1 0 false data) s = .next t ∧
        t.lineOf (r.addr / 64) = { st := .s, data := data } ∧ t.bxl.answers = s.bxl.answers ++
          [{ agent := r.agent, mtype := mtRdS, addr := r.addr, size := r.size, result := 0, data := data }]) ∧
      (r.mtype = mtWr → ∃ t, exec (.cmp tag r.addr 0 0 {}) s = .next t ∧ tabGet none t.bxl.reqs tag = none ∧ t.regs = s.regs ∧
        t.bxl.answers = s.bxl.answers ++ [{ agent := r.agent, mtype := mtWr, addr := r.addr, size := r.size, result := 0 }]) ∧
      (r.mtype = mtWr → ∃ t, exec (.cmp tag r.addr 0 1 {}) s = .next t ∧ tabGet none t.bxl.reqs tag = none ∧
        t.reg .bxl 0 0x154 = satAdd 32 (s.reg .bxl 0 0x154) 1 ∧
        t.bxl.answers = s.bxl.answers ++ [{ agent := r.agent, mtype := mtWr, addr := r.addr, size := r.size, result := 1 }]) ∧
      (∀ a w, r.mtype = mtXlate → r.invs = [] → a % 4096 = 0 → ∃ t, exec (.xlateRsp tag a 0 0 true w) s = .next t ∧
        tabGet none t.bxl.reqs tag = none ∧ t.bxl.atc.head? = some ⟨r.io / 4096 * 4096, 12, a, w⟩ ∧ t.bxl.answers = s.bxl.answers) ∧
      (∀ a w, r.mtype = mtXlate → (∃ v ∈ r.invs, v.2.2 = true ∨ r.io / 4096 * 4096 < v.2.1 ∧ v.1 < r.io / 4096 * 4096 + 4096) → a % 4096 = 0 → ∃ t, exec (.xlateRsp tag a 0 0 true w) s = .next t ∧
        tabGet none t.bxl.reqs tag = none ∧ t.bxl.atc = s.bxl.atc ∧ t.bxl.answers = s.bxl.answers) ∧
      (∀ a w, r.mtype = mtXlate → r.invs = [] → ∃ t, exec (.xlateRsp tag a 1 0 true w) s = .next t ∧
        tabGet none t.bxl.reqs tag = none ∧ (t.reg .bxl 0 0x114).testBit 14 = true ∧
        t.bxl.answers = s.bxl.answers ++ [{ agent := r.agent, mtype := mtXlate, addr := r.addr, size := r.size, result := 2 }])) ∧
    (∀ r, tabGet none s.bxl.reqs tag = some r → r.ofLine = false → r.agent ≠ agNone → r.sent + s.bxlTimeout ≤ s.gtime →
      ∃ t, exec (.bxlResponseTimeout tag) s = .next t ∧ tabGet none t.bxl.reqs tag = none ∧
        tabGet 0 t.bxl.retired tag = s.gtime + 2 * s.bxlTimeout ∧ t.reg .bxl 0 0x14C = satAdd 32 (s.reg .bxl 0 0x14C) 1 ∧
        t.bxl.answers = s.bxl.answers ++ [{ agent := r.agent, mtype := r.mtype, addr := r.addr, size := r.size, result := 1 }]) ∧
    (tabGet 0 s.bxl.retired tag ≠ 0 → tabGet 0 s.bxl.retired tag ≤ s.gtime → ∃ t, exec (.bxlTagRetirementEnd tag) s = .next t ∧
      tabGet 0 t.bxl.retired tag = 0 ∧ t = { s with bxl := { s.bxl with retired := t.bxl.retired } }) ∧
    (s.gtime < tabGet 0 s.bxl.retired tag → exec (.bxlTagRetirementEnd tag) s = .next s)

/-- R259, R260, R276, R277, R281, R282: what arrives at a half of the exchange engine. A data packet opens or extends its message's record,
or breaks it where it does not fit; a
complete message is delivered to its operation and its record freed; a control packet is taken by its operation, or kept for one that has not
begun, at most one second; a packet that fits nothing is counted. A dispatch takes ABANDON, END and
FENCED_NOTICE until it ends (R294, R296). While its half is held a packet is taken and nothing goes on.
Completes: exec answers a next state, under conditions on the state and the operands alone, for `messagePacketRx`, `messageCompletion`,
`reductionSlotOperand`, `grantRx`, `countRx`, `endRx`, `abandonRx`, `fencedNoticeRx`, `earlyPacketExpiry`.
The model's readings it rests on: log entries 1, 97, 99, 106, 107, 153, 170, 173, 174, 175. -/
def Obligations.ExchangeMessages : Prop :=
  ∀ (s : State) (h : HalfId), s.pins.inReset = false →
    (∀ k : DataPkt, DataPkt.good s k = false → ∃ t, exec (.messagePacketRx h k) s = .next t ∧ t.xch = s.xch ∧
      t.reg .rtr 0 0x150 = satAdd 32 (s.reg .rtr 0 0x150) 1) ∧
    (∀ k : DataPkt, DataPkt.good s k = true → s.anyXop k.op = none → ∃ t, exec (.messagePacketRx h k) s = .next t ∧ t.xch = s.xch ∧
      t.reg .rtr 0 0x15C = satAdd 32 (s.reg .rtr 0 0x15C) 1) ∧
    (∀ (k : DataPkt) x v, DataPkt.good s k = true → s.anyXop k.op = some x → s.recOf h k.src k.msgId = none →
      (s.xch.recs.filter fun r => r.half == h.val).length < 8192 → k.offset + k.data.length ≤ k.total →
      (k.last = true → k.offset + k.data.length = k.total) →
      placeData (s, false) k.op (x.placeOf k) k.offset k.data k.poison = (v, false) →
      ∃ t r, exec (.messagePacketRx h k) s = .next t ∧ t.recOf h k.src k.msgId = some r ∧ r.n = k.data.length ∧ r.total = k.total ∧
        r.state = (if k.data.length = k.total then .complete else if k.last then .tailSeen else .opened) ∧ t.mem = v.mem) ∧
    (∀ (k : DataPkt) x r v, DataPkt.good s k = true → s.anyXop k.op = some x → s.recOf h k.src k.msgId = some r →
      r.state = .opened ∨ r.state = .tailSeen →
      let n := r.n + k.data.length
      let fits := k.total = r.total ∧ k.offset + k.data.length ≤ k.total ∧ (k.last = true → k.offset + k.data.length = k.total) ∧ n ≤ r.total ∧
        ¬(k.last = true ∧ r.state = .tailSeen)
      (fits → placeData (s, false) k.op (x.placeOf k) k.offset k.data k.poison = (v, false) →
        ∃ t, exec (.messagePacketRx h k) s = .next t ∧ t.mem = v.mem ∧ t.recOf h k.src k.msgId =
          some { r with n := n, parts := r.parts ++ [(k.offset, k.data, k.poison)]
                        state := if n = r.total then .complete else if k.last then .tailSeen else r.state }) ∧
      (¬fits → ∃ t, exec (.messagePacketRx h k) s = .next t ∧ t.recOf h k.src k.msgId = some { r with state := .broken, parts := [] } ∧
        t.reg .rtr 0 0x154 = satAdd 32 (s.reg .rtr 0 0x154) 1)) ∧
    (∀ (k : DataPkt) x r, DataPkt.good s k = true → s.anyXop k.op = some x → s.recOf h k.src k.msgId = some r → r.state = .broken ∨ r.state = .complete →
      ∃ t, exec (.messagePacketRx h k) s = .next t ∧ t.recOf h k.src k.msgId = some r ∧
        t.reg .rtr 0 0x154 = satAdd 32 (s.reg .rtr 0 0x154) 1) ∧
    (∀ src id r, s.recOf h src id = some r → r.state = .complete → s.anyXop r.op = none →
      (r.handle < 2 ^ 31 → ∃ t, exec (.messageCompletion h src id) s = .next t ∧ t.recOf h src id = none ∧ t = { s with xch := t.xch }) ∧
      (2 ^ 31 ≤ r.handle → ∃ t, exec (.reductionSlotOperand h src id) s = .next t ∧ t.recOf h src id = none ∧ t = { s with xch := t.xch })) ∧
    (∀ src id r x u v, s.recOf h src id = some r → r.state = .complete → s.anyXop r.op = some x →
      deliver s x r (joinParts r.parts.length 0 r.parts).1 (joinParts r.parts.length 0 r.parts).2 = (u, false) →
      flushHalf (putRec u h src id none, false) x.half = (v, false) →
      (r.handle < 2 ^ 31 → exec (.messageCompletion h src id) s = .next (takeAnswers v (agXch h))) ∧
      (2 ^ 31 ≤ r.handle → exec (.reductionSlotOperand h src id) s = .next (takeAnswers v (agXch h)))) ∧
    (∀ op x v, s.xopOf op = some x → x.ending = none →
      (∀ src pc use hd val rows r, pc = x.pcheck → x.rankOf src = some r → r ∉ x.missing →
        flushHalf (s.putXop { x with grants := x.grants ++ [⟨use, r, hd, val, rows⟩] }, false) x.half = (v, false) →
        exec (.grantRx h src op pc use hd val rows) s = .next (takeAnswers v (agXch h))) ∧
      (∀ src pc val cs ts r, pc = x.pcheck → x.rankOf src = some r → (∀ e ∈ x.counts, e.1 ≠ r) →
        flushHalf (s.putXop { x with counts := x.counts ++ [(r, if xKind x.desc = 8 then [val] else cs, ts)] }, false) x.half = (v, false) →
        exec (.countRx h src op pc val cs ts) s = .next (takeAnswers v (agXch h))) ∧
      (∀ src pc use hd val rows, pc ≠ x.pcheck → flushHalf (endEarly (abandonAll s x) x stGroupMismatch 0, false) x.half = (v, false) →
        exec (.grantRx h src op pc use hd val rows) s = .next (takeAnswers v (agXch h))) ∧
      (∀ src r, x.settled = false → flushHalf (addMissing s x r, false) x.half = (v, false) →
        exec (.endRx h src op r) s = .next (takeAnswers v (agXch h)) ∧
        (x.rankOf src = some r → exec (.abandonRx h ⟨src, false⟩ op) s = .next (takeAnswers v (agXch h)))) ∧
      (∀ src r, xKind x.desc = 9 → x.rankOf src = some r →
        flushHalf (endEarly s x stRouteInvalid 0, false) x.half = (v, false) →
        exec (.abandonRx h ⟨src, true⟩ op) s = .next (takeAnswers v (agXch h))) ∧
      (x.settled = true → flushHalf (s, false) x.half = (v, false) →
        (∀ src r, exec (.endRx h src op r) s = .next (takeAnswers v (agXch h))) ∧
        ∀ src, exec (.abandonRx h src op) s = .next (takeAnswers v (agXch h))) ∧
      (∀ dev r, x.settled = false → x.rankOf dev = some r →
        flushHalf (addMissing (x.others.foldl (fun s k => if k = r then s else toRank s x k (.finish s.deviceId (xOpId x.desc) r)) s) x r, false)
          x.half = (v, false) →
        exec (.fencedNoticeRx h op dev) s = .next (takeAnswers v (agXch h)))) ∧
    (∀ op x dev v, s.xopOf op = some x → x.ending.isSome = true → (x.rankOf dev).isSome = true →
      flushHalf (rtrEvent s 7, false) x.half = (v, false) → exec (.fencedNoticeRx h op dev) s = .next (takeAnswers v (agXch h))) ∧
    (∀ op x, s.xopOf op = some x → x.ending = none → s.engineHeld (enXch x.half) = true →
      (∀ src pc use hd val rows r, pc = x.pcheck → x.rankOf src = some r → r ∉ x.missing →
        exec (.grantRx h src op pc use hd val rows) s =
          .next (takeAnswers (s.putXop { x with grants := x.grants ++ [⟨use, r, hd, val, rows⟩] }) (agXch h))) ∧
      (∀ src pc val cs ts r, pc = x.pcheck → x.rankOf src = some r → (∀ e ∈ x.counts, e.1 ≠ r) →
        exec (.countRx h src op pc val cs ts) s =
          .next (takeAnswers (s.putXop { x with counts := x.counts ++ [(r, if xKind x.desc = 8 then [val] else cs, ts)] }) (agXch h))) ∧
      (∀ src r, x.settled = false → exec (.endRx h src op r) s = .next (takeAnswers (addMissing s x r) (agXch h)) ∧
        (x.rankOf src = some r → exec (.abandonRx h ⟨src, false⟩ op) s = .next (takeAnswers (addMissing s x r) (agXch h)))) ∧
      ∀ dev, x.settled = true → (x.rankOf dev).isSome = true →
        exec (.fencedNoticeRx h op dev) s = .next (takeAnswers (rtrEvent s 7) (agXch h))) ∧
    (∀ op, s.xopOf op = none → (s.xch.early.filter fun e => e.half == h.val).length < 4096 →
      (∀ src pc use hd val rows, exec (.grantRx h src op pc use hd val rows) s =
        .next { s with xch := { s.xch with early := s.xch.early ++ [⟨h, s.gtime, .grant src op pc use hd val rows⟩] } }) ∧
      (∀ src pc val cs ts, exec (.countRx h src op pc val cs ts) s =
        .next { s with xch := { s.xch with early := s.xch.early ++ [⟨h, s.gtime, .count src op pc val cs ts⟩] } }) ∧
      (∀ src r, exec (.endRx h src op r) s =
        .next { s with xch := { s.xch with early := s.xch.early ++ [⟨h, s.gtime, .finish src op r⟩] } }) ∧
      (∀ src, exec (.abandonRx h src op) s =
        .next { s with xch := { s.xch with early := s.xch.early ++ [⟨h, s.gtime, .abandon src op⟩] } }) ∧
      ∀ dev, ∃ t, exec (.fencedNoticeRx h op dev) s = .next t ∧ t.xch = s.xch ∧ t.reg .rtr 0 0x15C = satAdd 32 (s.reg .rtr 0 0x15C) 1) ∧
    (∀ i e, s.xch.early[i]? = some e →
      (1000000000 + e.since ≤ s.gtime → ∃ t, exec (.earlyPacketExpiry i) s = .next t ∧ t.xch.early = s.xch.early.eraseIdx i ∧
        t.reg .rtr 0 0x15C = satAdd 32 (s.reg .rtr 0 0x15C) 1) ∧
      (s.gtime < 1000000000 + e.since → exec (.earlyPacketExpiry i) s = .next s)) ∧
    ∀ x r, x.ending = none → r ≠ x.me → r < x.n → r ∉ x.missing → isReduction (xKind x.desc) = true → s.xopOf (xOpId x.desc) = some x →
      ∃ y, (addMissing s x r).xopOf (xOpId x.desc) = some y ∧ y.ending = some stPartial ∧ y.missing = r :: x.missing

/-- R269, R270, R283, R289, R294, R297: an exchange operation from its command to its end, at a half that goes on and at one that is held,
and the catalogue's load; one whose command has been aborted sets no generation (R289).
Completes: exec answers a next state, under conditions on the state and the operands alone, for `collective`, `dispatch`, `combine`,
`xchOpBegin`, `lateDeadline`, `xchOpEnd`, `dispatchCountsComplete`, `dispatchEnd`, `combineRowsArrived`, `catLoad`, `catLoadBegin`,
`catLoadDone`.
The model's readings it rests on: log entries 1, 95, 108, 110, 171, 172, 176, 177, 201, 208. -/
def Obligations.ExchangeOperations : Prop :=
  ∀ s : State,
    (∀ (q : QueueId) c, (tabGet [] s.xch.queue (bits c.raw 64 1)).length < 4 →
      let add := fun kind => (⟨kind, bits c.raw 128 64, (s.queueOf q).ctx, none, q.val, c.n⟩ : XReq)
      let begun := fun i kind => ∃ t, exec i s = .next t ∧ t = { s with xch := t.xch, queues := t.queues, bridge := t.bridge } ∧
        tabGet [] t.xch.queue (bits c.raw 64 1) = tabGet [] s.xch.queue (bits c.raw 64 1) ++ [add kind] ∧
        ∀ e ∈ (t.queueOf q).cmds, e.n = c.n → e.acted = true ∧ e.engines = [ecXch (bits c.raw 64 1)]
      (actCmd s q 0x60 = some c → begun (.collective q) 0) ∧ (actCmd s q 0x61 = some c → begun (.dispatch q) 9) ∧
      (actCmd s q 0x62 = some c → begun (.combine q) 10)) ∧
    (∀ (h : HalfId) q rest v, tabGet [] s.xch.queue h = q :: rest → s.engineHeld (enXch h) = false →
      (s.xch.ops.filter fun x => x.half == h.val).length < 16 →
      let taken := fun (s : State) => { s with xch := { s.xch with queue := tabSet [] s.xch.queue h rest } }
      (∀ b code, checkRead s h q.ctx q.addr 128 = (v, .ok (some b)) → xKind (leNat b) ≠ 9 ∨ s.cat.load = none →
        descCheck q.kind (leNat b) (s.ctxOf q.ctx).mode = some code →
        (xKind (leNat b) ≠ 9 → xKind (leNat b) ≠ 8 ∨ code ≠ 4 → ∃ t, exec (.xchOpBegin h) s = .next t ∧ t.xch.ops = s.xch.ops ∧
          tabGet [] t.xch.queue h = rest ∧ t.reg .xch 0 0x114 = (s.reg .xch 0 0x114 + 1) % 2 ^ 32) ∧
        ∀ t, failChecks (taken v) h q (leNat b) code = (t, false) → exec (.xchOpBegin h) s = .next (takeAnswers t (agXch h))) ∧
      (∀ b w ts t, checkRead s h q.ctx q.addr 128 = (v, .ok (some b)) → xKind (leNat b) ≠ 9 ∨ s.cat.load = none →
        descCheck q.kind (leNat b) (s.ctxOf q.ctx).mode = none →
        readTables h q.ctx v (tableList (leNat b) (s.ctxOf q.ctx).mode) = (w, .ok ts) → tableCheck w (leNat b) ts = none →
        beginOp (taken w) h q (leNat b) ts = (t, false) → exec (.xchOpBegin h) s = .next (takeAnswers t (agXch h)))) ∧
    (∀ op x, s.xopOf op = some x →
      (∀ v, xLate x.desc ≠ 0 → x.forced = none → x.judged = false → x.ending = none → isReduction (xKind x.desc) = true →
        x.began + 1000 * xDeadline x.desc < s.gtime →
        flushHalf (declareLate (s.putXop { x with judged := true }) { x with judged := true }, false) x.half = (v, false) →
        exec (.lateDeadline op) s = .next (takeAnswers v (agXch x.half))) ∧
      (xLate x.desc ≠ 0 → x.forced = none → x.judged = false → x.ending = none → isReduction (xKind x.desc) = true →
        x.began + 1000 * xDeadline x.desc < s.gtime → s.engineHeld (enXch x.half) = true → exec (.lateDeadline op) s =
          .next (takeAnswers (declareLate (s.putXop { x with judged := true }) { x with judged := true }) (agXch x.half))) ∧
      (∀ st, s.engineHeld (enXch x.half) = true → x.ending = some st → st ≠ stPartial → xKind x.desc ≠ 9 →
        exec (.xchOpEnd op) s = .next (takeAnswers (endOp s x st x.code 0) (agXch x.half))) ∧
      (xLate x.desc = 0 ∨ s.gtime ≤ x.began + 1000 * xDeadline x.desc → exec (.lateDeadline op) s = .next s) ∧
      (∀ u y st v, flushHalf (s, false) x.half = (u, false) → u.xopOf op = some y → y.ending = some st → st ≠ stPartial → xKind y.desc ≠ 9 →
        flushHalf (endOp u y st y.code 0, false) y.half = (v, false) →
        exec (.xchOpEnd op) s = .next (takeAnswers v (agXch x.half)) ∧ (endOp u y st y.code 0).xopOf op = none ∧
        (endOp u y st y.code 0).reg .xch 0 0x114 = (u.reg .xch 0 0x114 + 1) % 2 ^ 32) ∧
      (∀ v, xKind x.desc = 9 → x.allotted = false → x.ending = none → x.countsKnown = true →
        flushHalf (allocateRows (s, false) op) x.half = (v, false) →
        exec (.dispatchCountsComplete op) s = .next (takeAnswers v (agXch x.half))) ∧
      (xKind x.desc ≠ 9 ∨ x.countsKnown = false → exec (.dispatchCountsComplete op) s = .next s) ∧
      (∀ u y w v, xKind x.desc = 9 → x.ending = none → flushHalf (s, false) x.half = (u, false) → u.xopOf op = some y →
        y.dispatchDone = true → writeMaps (u, false) op = (w, false) → finishOp (w, false) op = (v, false) →
        exec (.dispatchEnd op) s = .next (takeAnswers v (agXch x.half))) ∧
      (∀ u y, xKind x.desc = 10 → x.combined = false → x.ending = none → x.rowsArrived = true →
        (List.range (eT x.desc)).foldl (fun w t => combineRow w op t) (s, false) = (u, false) → u.xopOf op = some y →
        exec (.combineRowsArrived op) s = .next (takeAnswers (u.putXop { y with combined := true }) (agXch x.half))) ∧
      (xKind x.desc ≠ 10 ∨ x.rowsArrived = false → exec (.combineRowsArrived op) s = .next s)) ∧
    (∀ (q : QueueId) c, actCmd s q 0x63 = some c →
      let first := bits c.raw 64 17
      let count := bits c.raw 96 18
      (s.reg .cat 0 0x100 % 128 = (s.queueOf q).ctx + 64 → count ≠ 0 → first + count ≤ cEntries → bits c.raw 192 32 ≠ max32 →
        s.cat.load = none → ∃ t, exec (.catLoad q) s = .next t ∧ t.cat.load =
          some { queue := q, cmd := c.n, ctx := (s.queueOf q).ctx, first := first, count := count, src := bits c.raw 128 64, gen := bits c.raw 192 32 }) ∧
      (s.reg .cat 0 0x100 % 128 ≠ (s.queueOf q).ctx + 64 → ∃ t, exec (.catLoad q) s = .next t ∧ t.cmdEnded q c.n stTarget ∧
        t = { s with queues := t.queues })) ∧
    (∀ l, s.cat.load = some l → l.begun = false → s.dispatchLive = false → ∃ t, exec .catLoadBegin s = .next t ∧
      t.cat.load = some { l with begun := true } ∧ t.reg .cat 0 0x104 = max32 ∧ t.reg .cat 0 0x108 = 1 ∧ t.cat.entries = s.cat.entries) ∧
    (∀ l, s.cat.load = some l → s.dispatchLive = true → exec .catLoadBegin s = .next s) ∧
    ∀ l v n st c, s.cat.load = some l → l.begun = true → s.cmdOf l.queue l.cmd = some c → c.ended = false →
      loadPages l.ctx l.src l.first s 0 (cutPages (l.count / 256 + 2) 0 l.src (16 * l.count)) = (v, .ok (n, st)) →
      (c.aborted = false → ∃ t, exec .catLoadDone s = .next t ∧ t.cat.load = none ∧ t.cat.entries = v.cat.entries ∧ t.cmdEnded l.queue l.cmd st ∧
        t.reg .cat 0 0x104 = if st = stOk then l.gen % 2 ^ 32 else max32) ∧
      (c.aborted = true → (v.cmdOf l.queue l.cmd) = some c → ∃ t, exec .catLoadDone s = .next t ∧ t.cat.load = none ∧
        t.cmdEnded l.queue l.cmd c.abortStatus ∧ t.reg .cat 0 0x104 = max32)

/-- R411, R414: the aperture. The page of every offset, by the tables of the two rules: a block's page `i` stands at the base and stride
listed, for as many pages as listed, and every offset in no listed page is unassigned. -/
def Obligations.AperturePages : Prop :=
  let pages : List (Block × Nat × Nat × Nat) :=
    [(.dev, 1, 0x000000, 0), (.mbx, 1, 0x001000, 0), (.pwr, 1, 0x002000, 0), (.obs, 1, 0x003000, 0), (.sec, 1, 0x004000, 0),
     (.fe, 4, 0x010000, 0x1000), (.arr, 20, 0x100000, 0x10000), (.acc, 20, 0x101000, 0x10000), (.vec, 20, 0x102000, 0x10000),
     (.seq, 20, 0x103000, 0x10000), (.als, 20, 0x104000, 0x10000), (.qnt, 20, 0x105000, 0x10000), (.dss, 4, 0x300000, 0x10000),
     (.dma, 4, 0x301000, 0x10000), (.noc, 4, 0x302000, 0x10000), (.dpw, 4, 0x303000, 0x10000), (.mc, 24, 0x380000, 0x4000),
     (.mpe, 24, 0x381000, 0x4000), (.nmu, 24, 0x382000, 0x4000), (.lnk, 36, 0x400000, 0x1000), (.rtr, 1, 0x440000, 0), (.xch, 1, 0x450000, 0),
     (.cat, 1, 0x460000, 0), (.catWin, 1, 0x461000, 0), (.bxl, 1, 0x480000, 0), (.mmu, 1, 0x4C0000, 0), (.doorbell, 1040, 0x800000, 0x1000)]
  ∀ off, off < 2 ^ 24 →
    (∀ b i, pageOf off = some (b, i) ↔ ∃ e ∈ pages, e.1 = b ∧ i < e.2.1 ∧ off / 0x1000 * 0x1000 = e.2.2.1 + e.2.2.2 * i) ∧
    ∀ b i, pageOf off = some (b, i) → pageBase b i = off / 0x1000 * 0x1000

/-- The frame of every command: what it leaves as it was. Where a command answers a next state, every part of State that `footprint` does not
list for it is unchanged. -/
def Obligations.CommandFrames : Prop :=
  ∀ (c : Instr) (s t : State), exec c s = .next t → s.onlyIn t (footprint c)

/-- The invariant: device memory, the local stores and the flash in their canonical form, and nothing in the queue that the outside world
cannot send. Every step keeps it, from every state. -/
def Obligations.StepsKeepInvariant : Prop :=
  ∀ s t : State, s.tidy → s.queueOk → step s = .next t → t.tidy ∧ t.queueOk

/-- The invariant holds at reset, where nothing is written and nothing waits.
The model's readings it rests on: log entries 12, 14. -/
def Obligations.ResetMeetsInvariant : Prop :=
  State.reset.tidy ∧ State.reset.queueOk ∧ State.reset.pending = [] ∧ State.reset.mem.bytes = []
end

