-- ==== Sys2Proof/Laws/Bridges.lean ====
section
/-!
SUPPORT. What crosses the die bridges changes only what the bridges have counted (R14, R420).
-/
namespace Sys2Proof.Machine

theorem crossOnce_eq (s : State) (upper : Bool) (a b : Nat) : crossOnce s upper a b = { s with bridge := (crossOnce s upper a b).bridge } := by
  unfold crossOnce
  split <;> rfl

theorem crossTo_eq (s : State) (a b : Nat) : crossTo s a b = { s with bridge := (crossTo s a b).bridge } := crossOnce_eq ..

theorem cross_eq (s : State) (a b : Nat) (answered : Bool) : cross s a b answered = { s with bridge := (cross s a b answered).bridge } := by
  cases answered
  · exact crossTo_eq s a b
  · have e := crossTo_eq (crossTo s a b) b a
    show crossTo (crossTo s a b) b a = { s with bridge := (crossTo (crossTo s a b) b a).bridge }
    rw [e, crossTo_eq s a b]

theorem cross_all_eq (ds : List Nat) (a : Nat) (answered : Bool) (s : State) : ds.foldl (fun s d => cross s a d answered) s =
    { s with bridge := (ds.foldl (fun s d => cross s a d answered) s).bridge } := by
  induction ds generalizing s with
  | nil => rfl
  | cons d ds ih =>
    rw [List.foldl_cons, ih, cross_eq s a d answered]

theorem reach_eq (s : State) (die pa len : Nat) (answered : Bool) : reach s die pa len answered = { s with bridge := (reach s die pa len answered).bridge } := by
  unfold reach
  split
  · exact cross_eq s die 4 answered
  · split
    · exact cross_all_eq _ die answered s
    · rfl

end Sys2Proof.Machine
end

