-- ==== Sys2Proof/Laws/Tab.lean ====
section
/-!
SUPPORT. What a sparse table reads as after each operation on it, and that every operation keeps the canonical form.
-/
namespace Sys2Proof

variable {α : Type}

theorem tabFind_put_same (t : Tab α) (k : Nat) (v : α) : tabFind (tabPut t k v) k = some v := by
  induction t with
  | nil => simp [tabPut, tabFind]
  | cons e t ih =>
    obtain ⟨k', v'⟩ := e
    simp only [tabPut]
    split
    · simp [tabFind]
    · split
      · simp [tabFind]
      · next h1 h2 => simp [tabFind, Ne.symm h2, ih]

theorem tabFind_put_other (t : Tab α) (k j : Nat) (v : α) (h : j ≠ k) : tabFind (tabPut t k v) j = tabFind t j := by
  induction t with
  | nil => simp [tabPut, tabFind, Ne.symm h]
  | cons e t ih =>
    obtain ⟨k', v'⟩ := e
    simp only [tabPut]
    split
    · simp [tabFind, Ne.symm h]
    · split
      · next h1 h2 => subst h2; simp [tabFind, Ne.symm h]
      · simp [tabFind, ih]

theorem tabFind_drop_same (t : Tab α) (k : Nat) : tabFind (tabDrop t k) k = none := by
  induction t with
  | nil => rfl
  | cons e t ih =>
    obtain ⟨k', v'⟩ := e
    simp only [tabDrop]
    split
    · exact ih
    · next h => simp [tabFind, h, ih]

theorem tabFind_drop_other (t : Tab α) (k j : Nat) (h : j ≠ k) : tabFind (tabDrop t k) j = tabFind t j := by
  induction t with
  | nil => rfl
  | cons e t ih =>
    obtain ⟨k', v'⟩ := e
    simp only [tabDrop]
    split
    · next h1 => subst h1; simp [tabFind, Ne.symm h, ih]
    · simp [tabFind, ih]

/-- A key reads as what was written to it. -/
@[simp] theorem tabGet_set_same [DecidableEq α] (d : α) (t : Tab α) (k : Nat) (v : α) : tabGet d (tabSet d t k v) k = v := by
  unfold tabGet tabSet
  split
  · next h => simp [tabFind_drop_same, h]
  · simp [tabFind_put_same]

/-- A write leaves every other key alone. -/
theorem tabGet_set_other [DecidableEq α] (d : α) (t : Tab α) (k j : Nat) (v : α) (h : j ≠ k) :
    tabGet d (tabSet d t k v) j = tabGet d t j := by
  unfold tabGet tabSet
  split
  · simp [tabFind_drop_other t k j h]
  · simp [tabFind_put_other t k j v h]

theorem tabGet_set [DecidableEq α] (d : α) (t : Tab α) (k j : Nat) (v : α) :
    tabGet d (tabSet d t k v) j = if j = k then v else tabGet d t j := by
  split
  · next h => subst h; simp
  · next h => exact tabGet_set_other d t k j v h

@[simp] theorem tabGet_nil (d : α) (k : Nat) : tabGet d ([] : Tab α) k = d := rfl

/-- After a discard, a discarded key reads as the default and every other key as before. -/
theorem tabGet_erase (d : α) (p : Nat → Bool) (t : Tab α) (k : Nat) :
    tabGet d (tabErase p t) k = if p k then d else tabGet d t k := by
  induction t with
  | nil => simp [tabErase]
  | cons e t ih =>
    obtain ⟨k', v'⟩ := e
    unfold tabGet tabErase at *
    by_cases hp : p k'
    · simp only [List.filter, hp, Bool.not_true]
      rw [ih]
      by_cases hk : k' = k
      · subst hk; simp [hp]
      · simp [tabFind, hk]
    · simp only [List.filter, hp, Bool.not_false, tabFind]
      by_cases hk : k' = k
      · subst hk; simp [hp]
      · simp only [hk, if_false]; exact ih

/-- What a key reads as after a run of values was written. -/
theorem tabGet_fill_other [DecidableEq α] (d : α) (vs : List α) (t : Tab α) (k j : Nat) (h : j < k ∨ k + vs.length ≤ j) :
    tabGet d (tabFill d t k vs) j = tabGet d t j := by
  induction vs generalizing t k with
  | nil => rfl
  | cons v vs ih =>
    simp only [tabFill]
    simp only [List.length_cons] at h
    rw [ih _ _ (by omega), tabGet_set_other _ _ _ _ _ (by omega)]

theorem tabGet_fill_at [DecidableEq α] (d : α) (vs : List α) (t : Tab α) (k i : Nat) (h : i < vs.length) :
    tabGet d (tabFill d t k vs) (k + i) = vs.getD i d := by
  induction vs generalizing t k i with
  | nil => simp at h
  | cons v vs ih =>
    simp only [tabFill]
    cases i with
    | zero => rw [Nat.add_zero, tabGet_fill_other _ _ _ _ _ (by omega)]; simp
    | succ i =>
      simp only [List.length_cons] at h
      rw [show k + (i + 1) = k + 1 + i by omega, ih _ _ _ (by omega)]; simp

/-! The canonical form -/

theorem tabWfFrom_weaken [DecidableEq α] (d : α) (t : Tab α) (lo lo' : Nat) (h : lo' ≤ lo) (w : tabWfFrom d lo t = true) :
    tabWfFrom d lo' t = true := by
  cases t with
  | nil => rfl
  | cons e t => simp only [tabWfFrom, Bool.and_eq_true, decide_eq_true_eq] at *; exact ⟨by omega, w.2⟩

theorem tabWfFrom_put [DecidableEq α] (d : α) (t : Tab α) (lo k : Nat) (v : α) (hv : v ≠ d) (hk : lo ≤ k)
    (w : tabWfFrom d lo t = true) : tabWfFrom d lo (tabPut t k v) = true := by
  induction t generalizing lo with
  | nil => simp [tabPut, tabWfFrom, hv, hk]
  | cons e t ih =>
    obtain ⟨k', v'⟩ := e
    simp only [tabWfFrom, Bool.and_eq_true, decide_eq_true_eq] at w
    simp only [tabPut]
    split
    · next h => simp only [tabWfFrom, Bool.and_eq_true, decide_eq_true_eq]; exact ⟨hk, hv, by omega, w.2⟩
    · split
      · next h1 h2 => subst h2; simp only [tabWfFrom, Bool.and_eq_true, decide_eq_true_eq]; exact ⟨hk, hv, w.2.2⟩
      · next h1 h2 =>
        simp only [tabWfFrom, Bool.and_eq_true, decide_eq_true_eq]
        exact ⟨w.1, w.2.1, ih (k' + 1) (by omega) w.2.2⟩

theorem tabWfFrom_drop [DecidableEq α] (d : α) (t : Tab α) (lo k : Nat) (w : tabWfFrom d lo t = true) :
    tabWfFrom d lo (tabDrop t k) = true := by
  induction t generalizing lo with
  | nil => rfl
  | cons e t ih =>
    obtain ⟨k', v'⟩ := e
    simp only [tabWfFrom, Bool.and_eq_true, decide_eq_true_eq] at w
    simp only [tabDrop]
    split
    · exact ih lo (tabWfFrom_weaken d t _ _ (by omega) w.2.2)
    · simp only [tabWfFrom, Bool.and_eq_true, decide_eq_true_eq]; exact ⟨w.1, w.2.1, ih _ w.2.2⟩

/-- A write keeps the canonical form. -/
theorem tabWf_set [DecidableEq α] (d : α) (t : Tab α) (k : Nat) (v : α) (w : tabWf d t = true) : tabWf d (tabSet d t k v) = true := by
  unfold tabWf tabSet at *
  split
  · exact tabWfFrom_drop d t 0 k w
  · next h => exact tabWfFrom_put d t 0 k v h (Nat.zero_le _) w

theorem tabWf_mod [DecidableEq α] (d : α) (t : Tab α) (k : Nat) (f : α → α) (w : tabWf d t = true) : tabWf d (tabMod d t k f) = true :=
  tabWf_set d t k _ w

theorem tabWf_fill [DecidableEq α] (d : α) (vs : List α) (t : Tab α) (k : Nat) (w : tabWf d t = true) :
    tabWf d (tabFill d t k vs) = true := by
  induction vs generalizing t k with
  | nil => exact w
  | cons v vs ih => exact ih _ _ (tabWf_set d t k v w)

theorem tabWfFrom_erase [DecidableEq α] (d : α) (p : Nat → Bool) (t : Tab α) (lo : Nat) (w : tabWfFrom d lo t = true) :
    tabWfFrom d lo (tabErase p t) = true := by
  induction t generalizing lo with
  | nil => rfl
  | cons e t ih =>
    obtain ⟨k', v'⟩ := e
    simp only [tabWfFrom, Bool.and_eq_true, decide_eq_true_eq] at w
    unfold tabErase at *
    simp only [List.filter]
    split
    · simp only [tabWfFrom, Bool.and_eq_true, decide_eq_true_eq]; exact ⟨w.1, w.2.1, ih _ w.2.2⟩
    · exact ih lo (tabWfFrom_weaken d t _ _ (by omega) w.2.2)

/-- A discard keeps the canonical form. -/
theorem tabWf_erase [DecidableEq α] (d : α) (p : Nat → Bool) (t : Tab α) (w : tabWf d t = true) : tabWf d (tabErase p t) = true :=
  tabWfFrom_erase d p t 0 w

end Sys2Proof
end

