-- ==== Sys2Proof/Laws/Keeps.lean ====
section
/-!
SUPPORT. The relation that every operation of the block is shown to keep: nothing changes outside a list of parts, and the
addressed stores stay in their canonical form. One lemma per field update, so that no later proof unfolds one.
-/
namespace Sys2Proof.Machine

open Sys2Proof

/-- `t` differs from `s` only in the parts `ps`, and its stores are in canonical form where those of `s` are. -/
structure Keeps (ps : List Part) (s t : State) : Prop where
  frame : s.onlyIn t ps
  tidy : s.tidy → t.tidy

/-- The same of a state delivered beside a value. -/
def KeepsP {α : Type} (ps : List Part) (s : State) (r : State × α) : Prop := Keeps ps s r.1

/-- The same of a state that may be absent. -/
def KeepsO (ps : List Part) (s : State) (r : Option State) : Prop := ∀ t, r = some t → Keeps ps s t

/-- The same of a state and a value that may be absent. -/
def KeepsQ {α : Type} (ps : List Part) (s : State) (r : Option (State × α)) : Prop := ∀ t, r = some t → Keeps ps s t.1

/-- The same of an outcome's next state. -/
def KeepsR (ps : List Part) (s : State) (r : Out) : Prop := ∀ t, r = .next t → Keeps ps s t

theorem keeps_refl {ps s} : Keeps ps s s := ⟨fun p _ => by cases p <;> rfl, id⟩

theorem State.agrees_trans {a b c : State} {p : Part} (h : a.agrees b p) (h' : b.agrees c p) : a.agrees c p := by
  cases p <;> exact Eq.trans h' h

/-- A change of the parts `ps` that keeps the stores' form is such an operation. -/
theorem keeps_of {ps} {s0 s t : State} (h : Keeps ps s0 s) (k : s.onlyIn t ps) (w : s.tidy → t.tidy) : Keeps ps s0 t :=
  ⟨fun p hp => State.agrees_trans (h.frame p hp) (k p hp), fun x => w (h.tidy x)⟩

theorem keeps_trans {ps} {a b c : State} (h : Keeps ps a b) (k : Keeps ps b c) : Keeps ps a c := keeps_of h k.frame k.tidy

theorem keeps_mono {ps qs} {a b : State} (h : Keeps ps a b) (hp : ps ⊆ qs) : Keeps qs a b :=
  ⟨fun p hq => h.frame p fun x => hq (hp x), h.tidy⟩

theorem sub_of {a b ps : List Part} (h : (a.all fun x => b.contains x) = true) (hp : b ⊆ ps) : a ⊆ ps := fun x hx =>
  hp (by simpa using List.all_eq_true.mp h x hx)

theorem mem_of {p : Part} {b ps : List Part} (h : b.contains p = true) (hp : b ⊆ ps) : p ∈ ps := hp (by simpa using h)

/-! Shapes of a result -/

theorem tabWf_ite {α : Type} [DecidableEq α] {d : α} {c : Prop} [Decidable c] {a b : Tab α} (ha : tabWf d a = true) (hb : tabWf d b = true) :
    tabWf d (if c then a else b) = true := by split <;> assumption
theorem keepsP_mk {α : Type} {ps s0 t} {x : α} (h : Keeps ps s0 t) : KeepsP ps s0 (t, x) := h
theorem keepsP_fst {α : Type} {ps s0} {r : State × α} (h : KeepsP ps s0 r) : Keeps ps s0 r.1 := h
theorem keepsP_eq {α : Type} {ps s0 t} {x : α} {r : State × α} (h : KeepsP ps s0 r) (e : r = (t, x)) : Keeps ps s0 t := by
  subst e; exact h
theorem keepsP_ite {α : Type} {ps s0} {c : Prop} [Decidable c] {a b : State × α} (ha : KeepsP ps s0 a) (hb : KeepsP ps s0 b) :
    KeepsP ps s0 (if c then a else b) := by split <;> assumption
theorem keepsO_none {ps s0} : KeepsO ps s0 none := fun _ h => by cases h
theorem keepsO_some {ps s0 t} (h : Keeps ps s0 t) : KeepsO ps s0 (some t) := fun _ e => by cases e; exact h
theorem keepsO_eq {ps s0 t} {r : Option State} (h : KeepsO ps s0 r) (e : r = some t) : Keeps ps s0 t := h t e
theorem keepsO_get {ps s0 t} (h : KeepsO ps s0 (some t)) : Keeps ps s0 t := h t rfl
theorem keepsO_getD {ps s0 t} {r : Option State} (h : KeepsO ps s0 r) (h0 : Keeps ps s0 t) : Keeps ps s0 (r.getD t) := by
  cases r with
  | none => exact h0
  | some u => exact h u rfl
theorem keepsQ_none {α : Type} {ps s0} : KeepsQ (α := α) ps s0 none := fun _ h => by cases h
theorem keepsQ_some {α : Type} {ps s0} {t : State × α} (h : KeepsP ps s0 t) : KeepsQ ps s0 (some t) := fun _ e => by cases e; exact h
theorem keepsQ_eq {α : Type} {ps s0 t} {x : α} {r : Option (State × α)} (h : KeepsQ ps s0 r) (e : r = some (t, x)) : Keeps ps s0 t := h _ e
theorem keepsQ_map {α β : Type} {ps s0} {f : State × α → State × β} {r : Option (State × α)} (h : KeepsQ ps s0 r)
    (hf : ∀ t a, Keeps ps s0 t → KeepsP ps s0 (f (t, a))) : KeepsQ ps s0 (r.map f) := by
  cases r with
  | none => exact keepsQ_none
  | some x => exact keepsQ_some (hf x.1 x.2 (h x rfl))
theorem keepsR_next {ps s0 t} (h : Keeps ps s0 t) : KeepsR ps s0 (.next t) := fun _ e => by cases e; exact h
theorem keepsR_fault {ps s0 r} : KeepsR ps s0 (.fault r) := fun _ e => by cases e
theorem keepsR_eq {ps s0 t} {r : Out} (h : KeepsR ps s0 r) (e : r = .next t) : Keeps ps s0 t := h t e

theorem keeps_ite {ps s0} {c : Prop} [Decidable c] {a b : State} (ha : Keeps ps s0 a) (hb : Keeps ps s0 b) :
    Keeps ps s0 (if c then a else b) := by split <;> assumption

theorem keeps_foldl {ps s0} {α : Type} {f : State → α → State} {l : List α} {s : State}
    (hf : ∀ t a, Keeps ps s0 t → Keeps ps s0 (f t a)) (h : Keeps ps s0 s) : Keeps ps s0 (l.foldl f s) := by
  induction l generalizing s with
  | nil => exact h
  | cons a l ih => exact ih (hf _ _ h)

theorem keepsP_foldl {β : Type} {ps s0} {α : Type} {f : State × β → α → State × β} {l : List α} {r : State × β}
    (hf : ∀ r a, KeepsP ps s0 r → KeepsP ps s0 (f r a)) (h : KeepsP ps s0 r) : KeepsP ps s0 (l.foldl f r) := by
  induction l generalizing r with
  | nil => exact h
  | cons a l ih => exact ih (hf _ _ h)

/-! Field updates -/

theorem keeps_with_als {ps s0} {t : State} {e0 : Tab Store} (h0 : Part.als ∈ ps) (w0 : t.tidy → ∀ n, tabWf 0 (tabGet ({} : Store) e0 n).bytes = true) (h : Keeps ps s0 t) :
    Keeps ps s0 { t with als := e0 } :=
  keeps_of h (fun p hp => by cases p <;> first | rfl | contradiction) fun x => ⟨x.mem, w0 x, x.dss, x.flash⟩
theorem keeps_with_alsScrub {ps s0} {t : State} {e0 : Tab Scrub} (h0 : Part.alsScrub ∈ ps)  (h : Keeps ps s0 t) :
    Keeps ps s0 { t with alsScrub := e0 } :=
  keeps_of h (fun p hp => by cases p <;> first | rfl | contradiction) fun x => ⟨x.mem, x.als, x.dss, x.flash⟩
theorem keeps_with_arr {ps s0} {t : State} {e0 : Tab Arr} (h0 : Part.arr ∈ ps)  (h : Keeps ps s0 t) :
    Keeps ps s0 { t with arr := e0 } :=
  keeps_of h (fun p hp => by cases p <;> first | rfl | contradiction) fun x => ⟨x.mem, x.als, x.dss, x.flash⟩
theorem keeps_with_bridge {ps s0} {t : State} {e0 : Tab Nat} (h0 : Part.bridge ∈ ps)  (h : Keeps ps s0 t) :
    Keeps ps s0 { t with bridge := e0 } :=
  keeps_of h (fun p hp => by cases p <;> first | rfl | contradiction) fun x => ⟨x.mem, x.als, x.dss, x.flash⟩
theorem keeps_with_bxl {ps s0} {t : State} {e0 : Bxl} (h0 : Part.bxl ∈ ps)  (h : Keeps ps s0 t) :
    Keeps ps s0 { t with bxl := e0 } :=
  keeps_of h (fun p hp => by cases p <;> first | rfl | contradiction) fun x => ⟨x.mem, x.als, x.dss, x.flash⟩
theorem keeps_with_cat {ps s0} {t : State} {e0 : Cat} (h0 : Part.cat ∈ ps)  (h : Keeps ps s0 t) :
    Keeps ps s0 { t with cat := e0 } :=
  keeps_of h (fun p hp => by cases p <;> first | rfl | contradiction) fun x => ⟨x.mem, x.als, x.dss, x.flash⟩
theorem keeps_with_ctx {ps s0} {t : State} {e0 : Tab Ctx} (h0 : Part.ctx ∈ ps)  (h : Keeps ps s0 t) :
    Keeps ps s0 { t with ctx := e0 } :=
  keeps_of h (fun p hp => by cases p <;> first | rfl | contradiction) fun x => ⟨x.mem, x.als, x.dss, x.flash⟩
theorem keeps_with_dma {ps s0} {t : State} {e0 : Tab DmaCh} (h0 : Part.dma ∈ ps)  (h : Keeps ps s0 t) :
    Keeps ps s0 { t with dma := e0 } :=
  keeps_of h (fun p hp => by cases p <;> first | rfl | contradiction) fun x => ⟨x.mem, x.als, x.dss, x.flash⟩
theorem keeps_with_draws {ps s0} {t : State} {e0 : Nat} (h0 : Part.draws ∈ ps)  (h : Keeps ps s0 t) :
    Keeps ps s0 { t with draws := e0 } :=
  keeps_of h (fun p hp => by cases p <;> first | rfl | contradiction) fun x => ⟨x.mem, x.als, x.dss, x.flash⟩
theorem keeps_with_dss {ps s0} {t : State} {e0 : Tab Store} (h0 : Part.dss ∈ ps) (w0 : t.tidy → ∀ n, tabWf 0 (tabGet ({} : Store) e0 n).bytes = true) (h : Keeps ps s0 t) :
    Keeps ps s0 { t with dss := e0 } :=
  keeps_of h (fun p hp => by cases p <;> first | rfl | contradiction) fun x => ⟨x.mem, x.als, w0 x, x.flash⟩
theorem keeps_with_flash {ps s0} {t : State} {e0 : Tab Byte} (h0 : Part.flash ∈ ps) (w0 : t.tidy → tabWf 0 e0 = true) (h : Keeps ps s0 t) :
    Keeps ps s0 { t with flash := e0 } :=
  keeps_of h (fun p hp => by cases p <;> first | rfl | contradiction) fun x => ⟨x.mem, x.als, x.dss, w0 x⟩
theorem keeps_with_gtime {ps s0} {t : State} {e0 : Nat} (h0 : Part.gtime ∈ ps)  (h : Keeps ps s0 t) :
    Keeps ps s0 { t with gtime := e0 } :=
  keeps_of h (fun p hp => by cases p <;> first | rfl | contradiction) fun x => ⟨x.mem, x.als, x.dss, x.flash⟩
theorem keeps_with_halted {ps s0} {t : State} {e0 : Bool} (h0 : Part.halted ∈ ps)  (h : Keeps ps s0 t) :
    Keeps ps s0 { t with halted := e0 } :=
  keeps_of h (fun p hp => by cases p <;> first | rfl | contradiction) fun x => ⟨x.mem, x.als, x.dss, x.flash⟩
theorem keeps_with_hiCap {ps s0} {t : State} {e0 : Tab Nat} (h0 : Part.hiCap ∈ ps)  (h : Keeps ps s0 t) :
    Keeps ps s0 { t with hiCap := e0 } :=
  keeps_of h (fun p hp => by cases p <;> first | rfl | contradiction) fun x => ⟨x.mem, x.als, x.dss, x.flash⟩
theorem keeps_with_holder {ps s0} {t : State} {e0 : Tab Holder} (h0 : Part.holder ∈ ps)  (h : Keeps ps s0 t) :
    Keeps ps s0 { t with holder := e0 } :=
  keeps_of h (fun p hp => by cases p <;> first | rfl | contradiction) fun x => ⟨x.mem, x.als, x.dss, x.flash⟩
theorem keeps_with_isl {ps s0} {t : State} {e0 : Tab Island} (h0 : Part.isl ∈ ps)  (h : Keeps ps s0 t) :
    Keeps ps s0 { t with isl := e0 } :=
  keeps_of h (fun p hp => by cases p <;> first | rfl | contradiction) fun x => ⟨x.mem, x.als, x.dss, x.flash⟩
theorem keeps_with_life {ps s0} {t : State} {e0 : Life} (h0 : Part.life ∈ ps)  (h : Keeps ps s0 t) :
    Keeps ps s0 { t with life := e0 } :=
  keeps_of h (fun p hp => by cases p <;> first | rfl | contradiction) fun x => ⟨x.mem, x.als, x.dss, x.flash⟩
theorem keeps_with_link {ps s0} {t : State} {e0 : Tab LinkLayer} (h0 : Part.link ∈ ps)  (h : Keeps ps s0 t) :
    Keeps ps s0 { t with link := e0 } :=
  keeps_of h (fun p hp => by cases p <;> first | rfl | contradiction) fun x => ⟨x.mem, x.als, x.dss, x.flash⟩
theorem keeps_with_mem {ps s0} {t : State} {e0 : Mem} (h0 : Part.mem ∈ ps) (w0 : t.tidy → Memory.wf e0) (h : Keeps ps s0 t) :
    Keeps ps s0 { t with mem := e0 } :=
  keeps_of h (fun p hp => by cases p <;> first | rfl | contradiction) fun x => ⟨w0 x, x.als, x.dss, x.flash⟩
theorem keeps_with_mgmt {ps s0} {t : State} {e0 : Mgmt} (h0 : Part.mgmt ∈ ps)  (h : Keeps ps s0 t) :
    Keeps ps s0 { t with mgmt := e0 } :=
  keeps_of h (fun p hp => by cases p <;> first | rfl | contradiction) fun x => ⟨x.mem, x.als, x.dss, x.flash⟩
theorem keeps_with_mmu {ps s0} {t : State} {e0 : Mmu} (h0 : Part.mmu ∈ ps)  (h : Keeps ps s0 t) :
    Keeps ps s0 { t with mmu := e0 } :=
  keeps_of h (fun p hp => by cases p <;> first | rfl | contradiction) fun x => ⟨x.mem, x.als, x.dss, x.flash⟩
theorem keeps_with_nmu {ps s0} {t : State} {e0 : Tab Nmu} (h0 : Part.nmu ∈ ps)  (h : Keeps ps s0 t) :
    Keeps ps s0 { t with nmu := e0 } :=
  keeps_of h (fun p hp => by cases p <;> first | rfl | contradiction) fun x => ⟨x.mem, x.als, x.dss, x.flash⟩
theorem keeps_with_obs {ps s0} {t : State} {e0 : Obs} (h0 : Part.obs ∈ ps)  (h : Keeps ps s0 t) :
    Keeps ps s0 { t with obs := e0 } :=
  keeps_of h (fun p hp => by cases p <;> first | rfl | contradiction) fun x => ⟨x.mem, x.als, x.dss, x.flash⟩
theorem keeps_with_outbox {ps s0} {t : State} {e0 : List Msg} (h0 : Part.outbox ∈ ps)  (h : Keeps ps s0 t) :
    Keeps ps s0 { t with outbox := e0 } :=
  keeps_of h (fun p hp => by cases p <;> first | rfl | contradiction) fun x => ⟨x.mem, x.als, x.dss, x.flash⟩
theorem keeps_with_pair {ps s0} {t : State} {e0 : Pair} (h0 : Part.pair ∈ ps)  (h : Keeps ps s0 t) :
    Keeps ps s0 { t with pair := e0 } :=
  keeps_of h (fun p hp => by cases p <;> first | rfl | contradiction) fun x => ⟨x.mem, x.als, x.dss, x.flash⟩
theorem keeps_with_pins {ps s0} {t : State} {e0 : Pins} (h0 : Part.pins ∈ ps)  (h : Keeps ps s0 t) :
    Keeps ps s0 { t with pins := e0 } :=
  keeps_of h (fun p hp => by cases p <;> first | rfl | contradiction) fun x => ⟨x.mem, x.als, x.dss, x.flash⟩
theorem keeps_with_port {ps s0} {t : State} {e0 : Tab PortX} (h0 : Part.port ∈ ps)  (h : Keeps ps s0 t) :
    Keeps ps s0 { t with port := e0 } :=
  keeps_of h (fun p hp => by cases p <;> first | rfl | contradiction) fun x => ⟨x.mem, x.als, x.dss, x.flash⟩
theorem keeps_with_pwr {ps s0} {t : State} {e0 : Pwr} (h0 : Part.pwr ∈ ps)  (h : Keeps ps s0 t) :
    Keeps ps s0 { t with pwr := e0 } :=
  keeps_of h (fun p hp => by cases p <;> first | rfl | contradiction) fun x => ⟨x.mem, x.als, x.dss, x.flash⟩
theorem keeps_with_queues {ps s0} {t : State} {e0 : Tab Queue} (h0 : Part.queues ∈ ps)  (h : Keeps ps s0 t) :
    Keeps ps s0 { t with queues := e0 } :=
  keeps_of h (fun p hp => by cases p <;> first | rfl | contradiction) fun x => ⟨x.mem, x.als, x.dss, x.flash⟩
theorem keeps_with_regs {ps s0} {t : State} {e0 : Tab W32} (h0 : Part.regs ∈ ps)  (h : Keeps ps s0 t) :
    Keeps ps s0 { t with regs := e0 } :=
  keeps_of h (fun p hp => by cases p <;> first | rfl | contradiction) fun x => ⟨x.mem, x.als, x.dss, x.flash⟩
theorem keeps_with_rtr {ps s0} {t : State} {e0 : Router} (h0 : Part.rtr ∈ ps)  (h : Keeps ps s0 t) :
    Keeps ps s0 { t with rtr := e0 } :=
  keeps_of h (fun p hp => by cases p <;> first | rfl | contradiction) fun x => ⟨x.mem, x.als, x.dss, x.flash⟩
theorem keeps_with_seq {ps s0} {t : State} {e0 : Tab Seq} (h0 : Part.seq ∈ ps)  (h : Keeps ps s0 t) :
    Keeps ps s0 { t with seq := e0 } :=
  keeps_of h (fun p hp => by cases p <;> first | rfl | contradiction) fun x => ⟨x.mem, x.als, x.dss, x.flash⟩
theorem keeps_with_vec {ps s0} {t : State} {e0 : Tab VecEng} (h0 : Part.vec ∈ ps)  (h : Keeps ps s0 t) :
    Keeps ps s0 { t with vec := e0 } :=
  keeps_of h (fun p hp => by cases p <;> first | rfl | contradiction) fun x => ⟨x.mem, x.als, x.dss, x.flash⟩
theorem keeps_with_xch {ps s0} {t : State} {e0 : Xch} (h0 : Part.xch ∈ ps)  (h : Keeps ps s0 t) :
    Keeps ps s0 { t with xch := e0 } :=
  keeps_of h (fun p hp => by cases p <;> first | rfl | contradiction) fun x => ⟨x.mem, x.als, x.dss, x.flash⟩
theorem keeps_with_bxl_mgmt {ps s0} {t : State} {e0 : Bxl} {e1 : Mgmt} (h0 : Part.bxl ∈ ps) (h1 : Part.mgmt ∈ ps)  (h : Keeps ps s0 t) :
    Keeps ps s0 { t with bxl := e0, mgmt := e1 } :=
  keeps_of h (fun p hp => by cases p <;> first | rfl | contradiction) fun x => ⟨x.mem, x.als, x.dss, x.flash⟩
theorem keeps_with_draws_obs {ps s0} {t : State} {e0 : Nat} {e1 : Obs} (h0 : Part.draws ∈ ps) (h1 : Part.obs ∈ ps)  (h : Keeps ps s0 t) :
    Keeps ps s0 { t with draws := e0, obs := e1 } :=
  keeps_of h (fun p hp => by cases p <;> first | rfl | contradiction) fun x => ⟨x.mem, x.als, x.dss, x.flash⟩
theorem keeps_with_gtime_pwr {ps s0} {t : State} {e0 : Nat} {e1 : Pwr} (h0 : Part.gtime ∈ ps) (h1 : Part.pwr ∈ ps)  (h : Keeps ps s0 t) :
    Keeps ps s0 { t with gtime := e0, pwr := e1 } :=
  keeps_of h (fun p hp => by cases p <;> first | rfl | contradiction) fun x => ⟨x.mem, x.als, x.dss, x.flash⟩
theorem keeps_with_halted_pins {ps s0} {t : State} {e0 : Bool} {e1 : Pins} (h0 : Part.halted ∈ ps) (h1 : Part.pins ∈ ps)  (h : Keeps ps s0 t) :
    Keeps ps s0 { t with halted := e0, pins := e1 } :=
  keeps_of h (fun p hp => by cases p <;> first | rfl | contradiction) fun x => ⟨x.mem, x.als, x.dss, x.flash⟩
theorem keeps_with_life_obs {ps s0} {t : State} {e0 : Life} {e1 : Obs} (h0 : Part.life ∈ ps) (h1 : Part.obs ∈ ps)  (h : Keeps ps s0 t) :
    Keeps ps s0 { t with life := e0, obs := e1 } :=
  keeps_of h (fun p hp => by cases p <;> first | rfl | contradiction) fun x => ⟨x.mem, x.als, x.dss, x.flash⟩
theorem keeps_with_mem_life {ps s0} {t : State} {e0 : Mem} {e1 : Life} (h0 : Part.mem ∈ ps) (h1 : Part.life ∈ ps) (w0 : t.tidy → Memory.wf e0) (h : Keeps ps s0 t) :
    Keeps ps s0 { t with mem := e0, life := e1 } :=
  keeps_of h (fun p hp => by cases p <;> first | rfl | contradiction) fun x => ⟨w0 x, x.als, x.dss, x.flash⟩
theorem keeps_with_mmu_pwr {ps s0} {t : State} {e0 : Mmu} {e1 : Pwr} (h0 : Part.mmu ∈ ps) (h1 : Part.pwr ∈ ps)  (h : Keeps ps s0 t) :
    Keeps ps s0 { t with mmu := e0, pwr := e1 } :=
  keeps_of h (fun p hp => by cases p <;> first | rfl | contradiction) fun x => ⟨x.mem, x.als, x.dss, x.flash⟩
theorem keeps_with_pins_obs {ps s0} {t : State} {e0 : Pins} {e1 : Obs} (h0 : Part.pins ∈ ps) (h1 : Part.obs ∈ ps)  (h : Keeps ps s0 t) :
    Keeps ps s0 { t with pins := e0, obs := e1 } :=
  keeps_of h (fun p hp => by cases p <;> first | rfl | contradiction) fun x => ⟨x.mem, x.als, x.dss, x.flash⟩
theorem keeps_with_gtime_halted_pins {ps s0} {t : State} {e0 : Nat} {e1 : Bool} {e2 : Pins} (h0 : Part.gtime ∈ ps) (h1 : Part.halted ∈ ps) (h2 : Part.pins ∈ ps)  (h : Keeps ps s0 t) :
    Keeps ps s0 { t with gtime := e0, halted := e1, pins := e2 } :=
  keeps_of h (fun p hp => by cases p <;> first | rfl | contradiction) fun x => ⟨x.mem, x.als, x.dss, x.flash⟩
theorem keeps_with_gtime_pwr_pins {ps s0} {t : State} {e0 : Nat} {e1 : Pwr} {e2 : Pins} (h0 : Part.gtime ∈ ps) (h1 : Part.pwr ∈ ps) (h2 : Part.pins ∈ ps)  (h : Keeps ps s0 t) :
    Keeps ps s0 { t with gtime := e0, pwr := e1, pins := e2 } :=
  keeps_of h (fun p hp => by cases p <;> first | rfl | contradiction) fun x => ⟨x.mem, x.als, x.dss, x.flash⟩
theorem keeps_with_mem_halted_pins {ps s0} {t : State} {e0 : Mem} {e1 : Bool} {e2 : Pins} (h0 : Part.mem ∈ ps) (h1 : Part.halted ∈ ps) (h2 : Part.pins ∈ ps) (w0 : t.tidy → Memory.wf e0) (h : Keeps ps s0 t) :
    Keeps ps s0 { t with mem := e0, halted := e1, pins := e2 } :=
  keeps_of h (fun p hp => by cases p <;> first | rfl | contradiction) fun x => ⟨w0 x, x.als, x.dss, x.flash⟩
theorem keeps_with_pwr_halted_pins {ps s0} {t : State} {e0 : Pwr} {e1 : Bool} {e2 : Pins} (h0 : Part.pwr ∈ ps) (h1 : Part.halted ∈ ps) (h2 : Part.pins ∈ ps)  (h : Keeps ps s0 t) :
    Keeps ps s0 { t with pwr := e0, halted := e1, pins := e2 } :=
  keeps_of h (fun p hp => by cases p <;> first | rfl | contradiction) fun x => ⟨x.mem, x.als, x.dss, x.flash⟩
theorem keeps_with_rtr_pair {ps s0} {t : State} {e0 : Router} {e1 : Pair} (h0 : Part.rtr ∈ ps) (h1 : Part.pair ∈ ps) (h : Keeps ps s0 t) :
    Keeps ps s0 { t with rtr := e0, pair := e1 } :=
  keeps_of h (fun p hp => by cases p <;> first | rfl | contradiction) fun x => ⟨x.mem, x.als, x.dss, x.flash⟩
theorem keeps_with_halted_mgmt_pins {ps s0} {t : State} {e0 : Bool} {e1 : Mgmt} {e2 : Pins} (h0 : Part.halted ∈ ps) (h1 : Part.mgmt ∈ ps) (h2 : Part.pins ∈ ps) (h : Keeps ps s0 t) :
    Keeps ps s0 { t with halted := e0, mgmt := e1, pins := e2 } :=
  keeps_of h (fun p hp => by cases p <;> first | rfl | contradiction) fun x => ⟨x.mem, x.als, x.dss, x.flash⟩
theorem keeps_with_draws_pwr_rtr {ps s0} {t : State} {e0 : Nat} {e1 : Pwr} {e2 : Router} (h0 : Part.draws ∈ ps) (h1 : Part.pwr ∈ ps) (h2 : Part.rtr ∈ ps) (h : Keeps ps s0 t) :
    Keeps ps s0 { t with draws := e0, pwr := e1, rtr := e2 } :=
  keeps_of h (fun p hp => by cases p <;> first | rfl | contradiction) fun x => ⟨x.mem, x.als, x.dss, x.flash⟩
theorem keeps_with_mgmt_pins {ps s0} {t : State} {e0 : Mgmt} {e1 : Pins} (h0 : Part.mgmt ∈ ps) (h1 : Part.pins ∈ ps) (h : Keeps ps s0 t) :
    Keeps ps s0 { t with mgmt := e0, pins := e1 } :=
  keeps_of h (fun p hp => by cases p <;> first | rfl | contradiction) fun x => ⟨x.mem, x.als, x.dss, x.flash⟩
theorem keeps_with_mmu_pwr_bridge {ps s0} {t : State} {e0 : Mmu} {e1 : Pwr} {e2 : Tab Nat} (h0 : Part.mmu ∈ ps) (h1 : Part.pwr ∈ ps) (h2 : Part.bridge ∈ ps) (h : Keeps ps s0 t) :
    Keeps ps s0 { t with mmu := e0, pwr := e1, bridge := e2 } :=
  keeps_of h (fun p hp => by cases p <;> first | rfl | contradiction) fun x => ⟨x.mem, x.als, x.dss, x.flash⟩
theorem keeps_with_dma_draws {ps s0} {t : State} {e0 : Tab DmaCh} {e1 : Nat} (h0 : Part.dma ∈ ps) (h1 : Part.draws ∈ ps) (h : Keeps ps s0 t) :
    Keeps ps s0 { t with dma := e0, draws := e1 } :=
  keeps_of h (fun p hp => by cases p <;> first | rfl | contradiction) fun x => ⟨x.mem, x.als, x.dss, x.flash⟩

end Sys2Proof.Machine
end

