-- ==== Sys2Proof/Laws/StoreForm.lean ====
section
/-!
SUPPORT. Every operation on a store's bytes keeps their canonical form: a write, a scrub, an epilogue, a spill, a vector
instruction. And the law of a read after a write.
-/
namespace Sys2Proof.Machine

open Sys2Proof

theorem storeWf_empty : tabWf 0 ({} : Store).bytes = true := rfl

theorem storeWf_write {t : Store} {a : Nat} {data : List Byte} (h : tabWf 0 t.bytes = true) : tabWf 0 (t.write a data).bytes = true :=
  tabWf_fill 0 _ _ _ h

theorem storeWf_scrub {t : Store} {a n : Nat} (h : tabWf 0 t.bytes = true) : tabWf 0 (t.scrub a n).bytes = true := by
  exact tabWf_erase (0 : Byte) (fun k => decide (a ≤ k) && decide (k < a + n)) t.bytes h

theorem storeWf_poison {t : Store} {a : Nat} (h : tabWf 0 t.bytes = true) : tabWf 0 (t.setPoison a).bytes = true := h

theorem storeWf_fold {α : Type} {f : Store → α → Store} {l : List α} {t : Store}
    (hf : ∀ u x, tabWf 0 u.bytes = true → tabWf 0 (f u x).bytes = true) (h : tabWf 0 t.bytes = true) :
    tabWf 0 (l.foldl f t).bytes = true := by
  induction l generalizing t with
  | nil => exact h
  | cons x l ih => exact ih (hf _ _ h)

theorem storeWf_ite {c : Prop} [Decidable c] {a b : Store} (ha : tabWf 0 a.bytes = true) (hb : tabWf 0 b.bytes = true) :
    tabWf 0 (if c then a else b).bytes = true := by split <;> assumption

theorem storeWf_range {t : Store} {a n : Nat} (h : tabWf 0 t.bytes = true) : tabWf 0 (t.poisonRange a n).bytes = true :=
  storeWf_ite h (storeWf_fold (fun _ _ h => h) h)

theorem storeWf_put {t : Store} {a : Nat} {data : List Byte} {p : List Bool} (h : tabWf 0 t.bytes = true) :
    tabWf 0 (storePut t a data p).bytes = true := storeWf_fold (fun _ _ h => h) (storeWf_write h)

/-! The epilogue -/

theorem epiTileRow_wf {g d e x pos s i} (h : tabWf 0 (EpiRun.als s).bytes = true) : tabWf 0 (epiTileRow g d e x pos s i).als.bytes = true := by
  unfold epiTileRow
  extract_lets
  refine storeWf_fold (fun u j hu => ?_) (storeWf_ite (storeWf_write h) (storeWf_write (storeWf_write h)))
  exact storeWf_ite (storeWf_range hu) (storeWf_poison (storeWf_range hu))

theorem writeRecords_wf {d e x t als} (h : tabWf 0 als.bytes = true) : tabWf 0 (writeRecords d e x t als).bytes = true := by
  unfold writeRecords
  have put : ∀ (u : Store) a data, tabWf 0 u.bytes = true →
      tabWf 0 (if t.excluded then (u.write a data).poisonRange a data.length else u.write a data).bytes = true :=
    fun u a data hu => storeWf_ite (storeWf_range (storeWf_write hu)) (storeWf_write hu)
  exact storeWf_ite (put _ _ _ (storeWf_ite (put _ _ _ h) h)) (storeWf_ite (put _ _ _ h) h)

theorem foldWf {α β : Type} {pr : β → Store} {f : β → α → β} {l : List α} {t : β}
    (hf : ∀ u x, tabWf 0 (pr u).bytes = true → tabWf 0 (pr (f u x)).bytes = true) (h : tabWf 0 (pr t).bytes = true) :
    tabWf 0 (pr (l.foldl f t)).bytes = true := by
  induction l generalizing t with
  | nil => exact h
  | cons x l ih => exact ih (hf _ _ h)

theorem epilogueRows_wf {als m g d e tab hi} (h : tabWf 0 als.bytes = true) : tabWf 0 (epilogueRows als m g d e tab hi).als.bytes = true := by
  unfold epilogueRows
  refine foldWf (pr := EpiRun.als) (fun u r hu => foldWf (pr := EpiRun.als) (fun v pos hv => ?_) hu) h
  split
  · split
    · exact epiTileRow_wf hv
    · exact hv
  · exact hv

theorem epilogueAll_wf {als m g d e tab} (h : tabWf 0 als.bytes = true) : tabWf 0 (epilogueAll als m g d e tab).als.bytes = true := by
  unfold epilogueAll
  refine storeWf_fold (fun u pos hu => ?_) (epilogueRows_wf h)
  split
  · exact writeRecords_wf hu
  · exact hu

/-! The spill -/

set_option maxRecDepth 20000 in
theorem spillRow_wf {d subs lo} {x : SpillRun} {r} (h : tabWf 0 x.als.bytes = true) : tabWf 0 (spillRow d subs lo x r).als.bytes = true := by
  have step : ∀ (v : SpillRun) (c : Bool) (w : SpillRun), tabWf 0 v.als.bytes = true → tabWf 0 w.als.bytes = true →
      tabWf 0 (if c then v else w).als.bytes = true := fun v c w hv hw => by cases c <;> assumption
  unfold spillRow
  cases x.stop.isSome
  case true => exact h
  dsimp only [Bool.false_eq_true, if_false]
  generalize firstPoison _ _ = o
  cases o
  · exact foldWf (pr := SpillRun.als) (fun v c hv => step _ _ _ hv (storeWf_write hv)) h
  · exact h

theorem spillRows_wf {d tab lo hi} {x : SpillRun} (h : tabWf 0 x.als.bytes = true) : tabWf 0 (spillRows d tab lo hi x).als.bytes = true :=
  foldWf (pr := SpillRun.als) (fun _ _ hu => spillRow_wf hu) h

theorem spillAll_wf {d tab} {x : SpillRun} (h : tabWf 0 x.als.bytes = true) : tabWf 0 (spillAll d tab x).als.bytes = true := spillRows_wf h

theorem spillFrom_wf {s : State} {n : Nat} {p : MmPost} (h : tabWf 0 (s.alsOf n).bytes = true) : tabWf 0 (spillFrom s n p).als.bytes = true := h

/-! Vector instructions -/

theorem storeRow_wf {d i rs} {x : VecRun} (h : tabWf 0 x.als.bytes = true) : tabWf 0 (storeRow d i rs x).als.bytes = true :=
  storeWf_ite (storeWf_write h) (storeWf_write (storeWf_write h))

theorem storeBand_wf {d i band} {x : VecRun} (h : tabWf 0 x.als.bytes = true) : tabWf 0 (storeBand d i band x).als.bytes = true :=
  storeWf_write (storeWf_fold (fun _ _ h => storeWf_write h) h)

theorem giveRow_wf {d i rs} {x : VecRun} (h : tabWf 0 x.als.bytes = true) : tabWf 0 (giveRow d i rs x).als.bytes = true := by
  unfold giveRow
  repeat' first | exact storeRow_wf h | exact storeBand_wf h | exact h | split | extract_lets

theorem vecRow_wf {d seed step} {x : VecRun} {i} (h : tabWf 0 x.als.bytes = true) : tabWf 0 (vecRow d seed step x i).als.bytes = true := by
  unfold vecRow
  split
  · exact h
  · split
    · exact h
    · split
      · exact storeWf_write h
      · exact storeWf_write h
      · exact giveRow_wf h
      · exact h

theorem vecRowsFrom_wf {t m d seed step rows} (h : tabWf 0 t.bytes = true) : tabWf 0 (vecRowsFrom t m d seed step rows).als.bytes = true :=
  foldWf (pr := VecRun.als) (fun _ _ h => vecRow_wf h) h

theorem vecAll_wf {t m d seed step} (h : tabWf 0 t.bytes = true) : tabWf 0 (vecAll t m d seed step).als.bytes = true := by
  unfold vecAll
  extract_lets
  split
  · exact vecRowsFrom_wf h
  · exact storeWf_write (vecRowsFrom_wf h)

end Sys2Proof.Machine
end

