-- ==== Sys2Proof/Laws/FrameOps.lean ====
section
/-!
SUPPORT. Frames: for each operation of Sys2Proof/Machine/Ops.lean, the parts of State it may change, and that it keeps the stores'
canonical form.
-/
namespace Sys2Proof.Machine

open Sys2Proof

theorem State.rset_keeps {ps z} {s : Sys2Proof.Machine.State} {off : Nat} {v : Nat} (hp : [.regs] ⊆ ps) (h0 : Keeps ps z s) :
    Keeps ps z (State.rset s off v) := by
  unfold State.rset
  repeat' first
    | with_reducible assumption
    | with_reducible exact keepsP_fst (by assumption)
    | (extract_lets -useContext +onlyGivenNames x; refine (fun (hx : Keeps ps z x) => ?_) ?_; clear_value x; revert x; intro _ _; rotate_left; unfold x; clear x; rotate_left)
    | (extract_lets -useContext +onlyGivenNames x; revert x; intro _)
    | split
    | (clear_value *; split)
    | with_reducible refine keeps_with_regs (mem_of (by decide) hp) ?_
    | with_reducible refine keepsP_eq ?_ (by assumption)
    | with_reducible refine keepsO_eq ?_ (by assumption)
    | with_reducible refine keepsP_mk ?_

theorem State.setReg_keeps {ps z} {s : Sys2Proof.Machine.State} {b : Sys2Proof.Block} {i : Nat} {po : Nat} {v : Nat} (hp : [.regs] ⊆ ps) (h0 : Keeps ps z s) :
    Keeps ps z (State.setReg s b i po v) := by
  unfold State.setReg
  repeat' first
    | with_reducible assumption
    | with_reducible exact keepsP_fst (by assumption)
    | (extract_lets -useContext +onlyGivenNames x; refine (fun (hx : Keeps ps z x) => ?_) ?_; clear_value x; revert x; intro _ _; rotate_left; unfold x; clear x; rotate_left)
    | (extract_lets -useContext +onlyGivenNames x; revert x; intro _)
    | with_reducible refine State.rset_keeps (sub_of (by decide) hp) ?_
    | split
    | (clear_value *; split)
    | with_reducible refine keepsP_eq ?_ (by assumption)
    | with_reducible refine keepsO_eq ?_ (by assumption)
    | with_reducible refine keepsP_mk ?_

theorem State.setField_keeps {ps z} {s : Sys2Proof.Machine.State} {b : Sys2Proof.Block} {i : Nat} {po : Nat} {lo : Nat} {w : Nat} {v : Nat} (hp : [.regs] ⊆ ps) (h0 : Keeps ps z s) :
    Keeps ps z (State.setField s b i po lo w v) := by
  unfold State.setField
  repeat' first
    | with_reducible assumption
    | with_reducible exact keepsP_fst (by assumption)
    | (extract_lets -useContext +onlyGivenNames x; refine (fun (hx : Keeps ps z x) => ?_) ?_; clear_value x; revert x; intro _ _; rotate_left; unfold x; clear x; rotate_left)
    | (extract_lets -useContext +onlyGivenNames x; revert x; intro _)
    | with_reducible refine State.setReg_keeps (sub_of (by decide) hp) ?_
    | split
    | (clear_value *; split)
    | with_reducible refine keepsP_eq ?_ (by assumption)
    | with_reducible refine keepsO_eq ?_ (by assumption)
    | with_reducible refine keepsP_mk ?_

theorem State.bump_keeps {ps z} {s : Sys2Proof.Machine.State} {b : Sys2Proof.Block} {i : Nat} {po : Nat} {n : Nat} (hp : [.regs] ⊆ ps) (h0 : Keeps ps z s) :
    Keeps ps z (State.bump s b i po n) := by
  unfold State.bump
  repeat' first
    | with_reducible assumption
    | with_reducible exact keepsP_fst (by assumption)
    | (extract_lets -useContext +onlyGivenNames x; refine (fun (hx : Keeps ps z x) => ?_) ?_; clear_value x; revert x; intro _ _; rotate_left; unfold x; clear x; rotate_left)
    | (extract_lets -useContext +onlyGivenNames x; revert x; intro _)
    | with_reducible refine State.setReg_keeps (sub_of (by decide) hp) ?_
    | split
    | (clear_value *; split)
    | with_reducible refine keepsP_eq ?_ (by assumption)
    | with_reducible refine keepsO_eq ?_ (by assumption)
    | with_reducible refine keepsP_mk ?_

theorem State.send_keeps {ps z} {s : Sys2Proof.Machine.State} {m : Sys2Proof.Machine.Msg} (hp : [.outbox] ⊆ ps) (h0 : Keeps ps z s) :
    Keeps ps z (State.send s m) := by
  unfold State.send
  repeat' first
    | with_reducible assumption
    | with_reducible exact keepsP_fst (by assumption)
    | (extract_lets -useContext +onlyGivenNames x; refine (fun (hx : Keeps ps z x) => ?_) ?_; clear_value x; revert x; intro _ _; rotate_left; unfold x; clear x; rotate_left)
    | (extract_lets -useContext +onlyGivenNames x; revert x; intro _)
    | split
    | (clear_value *; split)
    | with_reducible refine keeps_with_outbox (mem_of (by decide) hp) ?_
    | with_reducible refine keepsP_eq ?_ (by assumption)
    | with_reducible refine keepsO_eq ?_ (by assumption)
    | with_reducible refine keepsP_mk ?_

theorem countSlot_keeps {ps z} {b : Sys2Proof.Block} {i : Nat} {ev : Nat} {c : Option Nat} {n : Nat} {s : Sys2Proof.Machine.State} {k : Nat} (hp : [.regs] ⊆ ps) (h5 : Keeps ps z s) :
    Keeps ps z (countSlot b i ev c n s k) := by
  unfold countSlot
  repeat' first
    | with_reducible assumption
    | with_reducible exact keepsP_fst (by assumption)
    | (extract_lets -useContext +onlyGivenNames x; refine (fun (hx : Keeps ps z x) => ?_) ?_; clear_value x; revert x; intro _ _; rotate_left; unfold x; clear x; rotate_left)
    | (extract_lets -useContext +onlyGivenNames x; revert x; intro _)
    | with_reducible refine State.setReg_keeps (sub_of (by decide) hp) ?_
    | split
    | (clear_value *; split)
    | with_reducible refine keepsP_eq ?_ (by assumption)
    | with_reducible refine keepsO_eq ?_ (by assumption)
    | with_reducible refine keepsP_mk ?_

theorem countEvent_keeps {ps z} {s : Sys2Proof.Machine.State} {b : Sys2Proof.Block} {i : Nat} {ev : Nat} {c : Option Nat} {n : Nat} (hp : [.regs] ⊆ ps) (h0 : Keeps ps z s) :
    Keeps ps z (countEvent s b i ev c n) := by
  unfold countEvent
  repeat' first
    | with_reducible assumption
    | with_reducible exact keepsP_fst (by assumption)
    | (extract_lets -useContext +onlyGivenNames x; refine (fun (hx : Keeps ps z x) => ?_) ?_; clear_value x; revert x; intro _ _; rotate_left; unfold x; clear x; rotate_left)
    | (extract_lets -useContext +onlyGivenNames x; revert x; intro _)
    | with_reducible refine countSlot_keeps (sub_of (by decide) hp) ?_
    | with_reducible refine keeps_foldl (fun t a ht => ?_) ?_
    | with_reducible refine keepsP_foldl (fun t a ht => ?_) ?_
    | split
    | (clear_value *; split)
    | with_reducible refine keepsP_eq ?_ (by assumption)
    | with_reducible refine keepsO_eq ?_ (by assumption)
    | with_reducible refine keepsP_mk ?_

theorem State.setIsl_keeps {ps z} {s : Sys2Proof.Machine.State} {i : Nat} {v : Sys2Proof.Machine.Island} (hp : [.isl] ⊆ ps) (h0 : Keeps ps z s) :
    Keeps ps z (State.setIsl s i v) := by
  unfold State.setIsl
  repeat' first
    | with_reducible assumption
    | with_reducible exact keepsP_fst (by assumption)
    | (extract_lets -useContext +onlyGivenNames x; refine (fun (hx : Keeps ps z x) => ?_) ?_; clear_value x; revert x; intro _ _; rotate_left; unfold x; clear x; rotate_left)
    | (extract_lets -useContext +onlyGivenNames x; revert x; intro _)
    | split
    | (clear_value *; split)
    | with_reducible refine keeps_with_isl (mem_of (by decide) hp) ?_
    | with_reducible refine keepsP_eq ?_ (by assumption)
    | with_reducible refine keepsO_eq ?_ (by assumption)
    | with_reducible refine keepsP_mk ?_

theorem State.setArr_keeps {ps z} {s : Sys2Proof.Machine.State} {n : Nat} {v : Sys2Proof.Machine.Arr} (hp : [.arr] ⊆ ps) (h0 : Keeps ps z s) :
    Keeps ps z (State.setArr s n v) := by
  unfold State.setArr
  repeat' first
    | with_reducible assumption
    | with_reducible exact keepsP_fst (by assumption)
    | (extract_lets -useContext +onlyGivenNames x; refine (fun (hx : Keeps ps z x) => ?_) ?_; clear_value x; revert x; intro _ _; rotate_left; unfold x; clear x; rotate_left)
    | (extract_lets -useContext +onlyGivenNames x; revert x; intro _)
    | split
    | (clear_value *; split)
    | with_reducible refine keeps_with_arr (mem_of (by decide) hp) ?_
    | with_reducible refine keepsP_eq ?_ (by assumption)
    | with_reducible refine keepsO_eq ?_ (by assumption)
    | with_reducible refine keepsP_mk ?_

theorem State.setVec_keeps {ps z} {s : Sys2Proof.Machine.State} {n : Nat} {v : Sys2Proof.Machine.VecEng} (hp : [.vec] ⊆ ps) (h0 : Keeps ps z s) :
    Keeps ps z (State.setVec s n v) := by
  unfold State.setVec
  repeat' first
    | with_reducible assumption
    | with_reducible exact keepsP_fst (by assumption)
    | (extract_lets -useContext +onlyGivenNames x; refine (fun (hx : Keeps ps z x) => ?_) ?_; clear_value x; revert x; intro _ _; rotate_left; unfold x; clear x; rotate_left)
    | (extract_lets -useContext +onlyGivenNames x; revert x; intro _)
    | split
    | (clear_value *; split)
    | with_reducible refine keeps_with_vec (mem_of (by decide) hp) ?_
    | with_reducible refine keepsP_eq ?_ (by assumption)
    | with_reducible refine keepsO_eq ?_ (by assumption)
    | with_reducible refine keepsP_mk ?_

/-- An ALS takes a value whose bytes are in canonical form. -/

theorem State.setAls_keeps {ps z} {s : State} {n : Nat} {v : Store} (hp : [.als] ⊆ ps) (h0 : Keeps ps z s)
    (hv : z.tidy → tabWf 0 v.bytes = true) : Keeps ps z (State.setAls s n v) := by
  have hm : Part.als ∈ ps := hp (by simp)
  refine ⟨fun p hq => State.agrees_trans (h0.frame p hq) (by cases p <;> first | rfl | contradiction), fun w => ⟨(h0.tidy w).mem, fun k => ?_, (h0.tidy w).dss, (h0.tidy w).flash⟩⟩
  show tabWf 0 (tabGet {} (tabSet {} s.als n v) k).bytes = true
  rw [tabGet_set]; split
  · exact hv w
  · exact (h0.tidy w).als k

/-- A DSS takes a value whose bytes are in canonical form. -/

theorem State.setDss_keeps {ps z} {s : State} {d : Nat} {v : Store} (hp : [.dss] ⊆ ps) (h0 : Keeps ps z s)
    (hv : z.tidy → tabWf 0 v.bytes = true) : Keeps ps z (State.setDss s d v) := by
  have hm : Part.dss ∈ ps := hp (by simp)
  refine ⟨fun p hq => State.agrees_trans (h0.frame p hq) (by cases p <;> first | rfl | contradiction), fun w => ⟨(h0.tidy w).mem, (h0.tidy w).als, fun k => ?_, (h0.tidy w).flash⟩⟩
  show tabWf 0 (tabGet {} (tabSet {} s.dss d v) k).bytes = true
  rw [tabGet_set]; split
  · exact hv w
  · exact (h0.tidy w).dss k

theorem State.setCh_keeps {ps z} {s : Sys2Proof.Machine.State} {k : Nat} {v : Sys2Proof.Machine.DmaCh} (hp : [.dma] ⊆ ps) (h0 : Keeps ps z s) :
    Keeps ps z (State.setCh s k v) := by
  unfold State.setCh
  repeat' first
    | with_reducible assumption
    | with_reducible exact keepsP_fst (by assumption)
    | (extract_lets -useContext +onlyGivenNames x; refine (fun (hx : Keeps ps z x) => ?_) ?_; clear_value x; revert x; intro _ _; rotate_left; unfold x; clear x; rotate_left)
    | (extract_lets -useContext +onlyGivenNames x; revert x; intro _)
    | split
    | (clear_value *; split)
    | with_reducible refine keeps_with_dma (mem_of (by decide) hp) ?_
    | with_reducible refine keepsP_eq ?_ (by assumption)
    | with_reducible refine keepsO_eq ?_ (by assumption)
    | with_reducible refine keepsP_mk ?_

theorem State.setCtx_keeps {ps z} {s : Sys2Proof.Machine.State} {c : Nat} {v : Sys2Proof.Machine.Ctx} (hp : [.ctx] ⊆ ps) (h0 : Keeps ps z s) :
    Keeps ps z (State.setCtx s c v) := by
  unfold State.setCtx
  repeat' first
    | with_reducible assumption
    | with_reducible exact keepsP_fst (by assumption)
    | (extract_lets -useContext +onlyGivenNames x; refine (fun (hx : Keeps ps z x) => ?_) ?_; clear_value x; revert x; intro _ _; rotate_left; unfold x; clear x; rotate_left)
    | (extract_lets -useContext +onlyGivenNames x; revert x; intro _)
    | split
    | (clear_value *; split)
    | with_reducible refine keeps_with_ctx (mem_of (by decide) hp) ?_
    | with_reducible refine keepsP_eq ?_ (by assumption)
    | with_reducible refine keepsO_eq ?_ (by assumption)
    | with_reducible refine keepsP_mk ?_

theorem State.setQueue_keeps {ps z} {s : Sys2Proof.Machine.State} {q : Nat} {v : Sys2Proof.Machine.Queue} (hp : [.queues] ⊆ ps) (h0 : Keeps ps z s) :
    Keeps ps z (State.setQueue s q v) := by
  unfold State.setQueue
  repeat' first
    | with_reducible assumption
    | with_reducible exact keepsP_fst (by assumption)
    | (extract_lets -useContext +onlyGivenNames x; refine (fun (hx : Keeps ps z x) => ?_) ?_; clear_value x; revert x; intro _ _; rotate_left; unfold x; clear x; rotate_left)
    | (extract_lets -useContext +onlyGivenNames x; revert x; intro _)
    | split
    | (clear_value *; split)
    | with_reducible refine keeps_with_queues (mem_of (by decide) hp) ?_
    | with_reducible refine keepsP_eq ?_ (by assumption)
    | with_reducible refine keepsO_eq ?_ (by assumption)
    | with_reducible refine keepsP_mk ?_

theorem State.setHolder_keeps {ps z} {s : Sys2Proof.Machine.State} {n : Nat} {v : Sys2Proof.Machine.Holder} (hp : [.holder] ⊆ ps) (h0 : Keeps ps z s) :
    Keeps ps z (State.setHolder s n v) := by
  unfold State.setHolder
  repeat' first
    | with_reducible assumption
    | with_reducible exact keepsP_fst (by assumption)
    | (extract_lets -useContext +onlyGivenNames x; refine (fun (hx : Keeps ps z x) => ?_) ?_; clear_value x; revert x; intro _ _; rotate_left; unfold x; clear x; rotate_left)
    | (extract_lets -useContext +onlyGivenNames x; revert x; intro _)
    | split
    | (clear_value *; split)
    | with_reducible refine keeps_with_holder (mem_of (by decide) hp) ?_
    | with_reducible refine keepsP_eq ?_ (by assumption)
    | with_reducible refine keepsO_eq ?_ (by assumption)
    | with_reducible refine keepsP_mk ?_

theorem State.setSeq_keeps {ps z} {s : Sys2Proof.Machine.State} {n : Nat} {v : Sys2Proof.Machine.Seq} (hp : [.seq] ⊆ ps) (h0 : Keeps ps z s) :
    Keeps ps z (State.setSeq s n v) := by
  unfold State.setSeq
  repeat' first
    | with_reducible assumption
    | with_reducible exact keepsP_fst (by assumption)
    | (extract_lets -useContext +onlyGivenNames x; refine (fun (hx : Keeps ps z x) => ?_) ?_; clear_value x; revert x; intro _ _; rotate_left; unfold x; clear x; rotate_left)
    | (extract_lets -useContext +onlyGivenNames x; revert x; intro _)
    | split
    | (clear_value *; split)
    | with_reducible refine keeps_with_seq (mem_of (by decide) hp) ?_
    | with_reducible refine keepsP_eq ?_ (by assumption)
    | with_reducible refine keepsO_eq ?_ (by assumption)
    | with_reducible refine keepsP_mk ?_

theorem raiseVector_keeps {ps z} {s : Sys2Proof.Machine.State} {v : Nat} (hp : [.regs, .outbox] ⊆ ps) (h0 : Keeps ps z s) :
    Keeps ps z (raiseVector s v) := by
  unfold raiseVector
  repeat' first
    | with_reducible assumption
    | with_reducible exact keepsP_fst (by assumption)
    | (extract_lets -useContext +onlyGivenNames x; refine (fun (hx : Keeps ps z x) => ?_) ?_; clear_value x; revert x; intro _ _; rotate_left; unfold x; clear x; rotate_left)
    | (extract_lets -useContext +onlyGivenNames x; revert x; intro _)
    | with_reducible refine State.send_keeps (sub_of (by decide) hp) ?_
    | with_reducible refine State.setReg_keeps (sub_of (by decide) hp) ?_
    | split
    | (clear_value *; split)
    | with_reducible refine keepsP_eq ?_ (by assumption)
    | with_reducible refine keepsO_eq ?_ (by assumption)
    | with_reducible refine keepsP_mk ?_

theorem State.setBlk_keeps {ps z} {s : State} {b : Nat} {v : MemBlk} (hp : [.mem] ⊆ ps) (h0 : Keeps ps z s) :
    Keeps ps z (State.setBlk s b v) := keeps_with_mem (hp (by simp)) (fun w => w.mem) h0

theorem tagFail_keeps {ps z} {s : Sys2Proof.Machine.State} {st : Nat} {owner : Nat} {write : Bool} (hp : [.regs] ⊆ ps) (h0 : Keeps ps z s) :
    Keeps ps z (tagFail s st owner write) := by
  unfold tagFail
  repeat' first
    | with_reducible assumption
    | with_reducible exact keepsP_fst (by assumption)
    | (extract_lets -useContext +onlyGivenNames x; refine (fun (hx : Keeps ps z x) => ?_) ?_; clear_value x; revert x; intro _ _; rotate_left; unfold x; clear x; rotate_left)
    | (extract_lets -useContext +onlyGivenNames x; revert x; intro _)
    | with_reducible refine State.setReg_keeps (sub_of (by decide) hp) ?_
    | with_reducible refine State.bump_keeps (sub_of (by decide) hp) ?_
    | split
    | (clear_value *; split)
    | with_reducible refine keepsP_eq ?_ (by assumption)
    | with_reducible refine keepsO_eq ?_ (by assumption)
    | with_reducible refine keepsP_mk ?_

theorem readBlk_keeps {ps z} {s : Sys2Proof.Machine.State} {owner : Nat} {pa : Nat} {len : Nat} (hp : [.regs] ⊆ ps) (h0 : Keeps ps z s) :
    KeepsP ps z (readBlk s owner pa len) := by
  unfold readBlk
  repeat' first
    | with_reducible assumption
    | with_reducible exact keepsP_fst (by assumption)
    | (extract_lets -useContext +onlyGivenNames x; refine (fun (hx : Keeps ps z x) => ?_) ?_; clear_value x; revert x; intro _ _; rotate_left; unfold x; clear x; rotate_left)
    | (extract_lets -useContext +onlyGivenNames x; revert x; intro _)
    | with_reducible refine tagFail_keeps (sub_of (by decide) hp) ?_
    | with_reducible refine State.bump_keeps (sub_of (by decide) hp) ?_
    | with_reducible refine countEvent_keeps (sub_of (by decide) hp) ?_
    | split
    | (clear_value *; split)
    | with_reducible refine keepsP_eq ?_ (by assumption)
    | with_reducible refine keepsO_eq ?_ (by assumption)
    | with_reducible refine keepsP_mk ?_

theorem readBlks_keeps {ps z} {fuel : Nat} {s : State} {owner pa len : Nat} (hp : [.regs] ⊆ ps) (h0 : Keeps ps z s) :
    KeepsP ps z (readBlks fuel s owner pa len) := by
  induction fuel generalizing s pa len with
  | zero => exact h0
  | succ fuel ih =>
    unfold readBlks
    split
    · exact h0
    · exact ih (keepsP_fst (readBlk_keeps hp h0))

theorem devReadRaw_keeps {ps z} {s : Sys2Proof.Machine.State} {owner : Nat} {pa : Nat} {len : Nat} (hp : [.regs] ⊆ ps) (h0 : Keeps ps z s) :
    KeepsP ps z (devReadRaw s owner pa len) := by
  unfold devReadRaw
  repeat' first
    | with_reducible assumption
    | with_reducible exact keepsP_fst (by assumption)
    | (extract_lets -useContext +onlyGivenNames x; refine (fun (hx : Keeps ps z x) => ?_) ?_; clear_value x; revert x; intro _ _; rotate_left; unfold x; clear x; rotate_left)
    | (extract_lets -useContext +onlyGivenNames x; refine (fun (hx : KeepsP ps z x) => ?_) ?_; clear_value x; revert x; intro _ _; rotate_left; unfold x; clear x; rotate_left)
    | (extract_lets -useContext +onlyGivenNames x; revert x; intro _)
    | with_reducible refine readBlks_keeps (sub_of (by decide) hp) ?_
    | with_reducible refine keepsP_fst (readBlks_keeps (sub_of (by decide) hp) ?_)
    | with_reducible refine keepsP_eq (readBlks_keeps (sub_of (by decide) hp) ?_) (by assumption)
    | split
    | (clear_value *; split)
    | with_reducible refine keepsP_eq ?_ (by assumption)
    | with_reducible refine keepsO_eq ?_ (by assumption)
    | with_reducible refine keepsP_mk ?_

theorem countMore_keeps {ps z} {s : Sys2Proof.Machine.State} {b : Sys2Proof.Block} {i : Nat} (hp : [.regs] ⊆ ps) (h0 : Keeps ps z s) :
    Keeps ps z (countMore s b i) := by
  unfold countMore
  repeat' first
    | with_reducible assumption
    | with_reducible exact keepsP_fst (by assumption)
    | (extract_lets -useContext +onlyGivenNames x; refine (fun (hx : Keeps ps z x) => ?_) ?_; clear_value x; revert x; intro _ _; rotate_left; unfold x; clear x; rotate_left)
    | (extract_lets -useContext +onlyGivenNames x; revert x; intro _)
    | with_reducible refine State.setReg_keeps (sub_of (by decide) hp) ?_
    | split
    | (clear_value *; split)
    | with_reducible refine keepsP_eq ?_ (by assumption)
    | with_reducible refine keepsO_eq ?_ (by assumption)
    | with_reducible refine keepsP_mk ?_

theorem writeBlk_keeps {ps z} {s : State} {owner pa : Nat} {data : List Byte} (hp : [.regs, .mem] ⊆ ps) (h0 : Keeps ps z s) :
    KeepsP ps z (writeBlk s owner pa data) := by
  have hr : [Part.regs] ⊆ ps := sub_of (by decide) hp
  have hm : [Part.mem] ⊆ ps := sub_of (by decide) hp
  unfold writeBlk
  split
  next st x1 x2 x3 e =>
  split
  · exact countMore_keeps hr h0
  · extract_lets b blk key s1 s2 m s3 lo hi whole
    have h1 : Keeps ps z s1 := countEvent_keeps hr h0
    have h2 : Keeps ps z s2 := keeps_ite h1 (countEvent_keeps hr h1)
    have h3 : Keeps ps z s3 := keeps_with_mem (hm (by simp)) (fun w => tabWf_fill 0 _ _ _ w.mem) h2
    clear_value s3
    split
    · exact State.setBlk_keeps hm h3
    · split
      · exact State.setBlk_keeps hm h3
      · exact tagFail_keeps hr (State.setBlk_keeps hm h3)

theorem writeBlks_keeps {ps z} {fuel : Nat} {s : State} {owner pa : Nat} {data : List Byte} (hp : [.regs, .mem] ⊆ ps)
    (h0 : Keeps ps z s) : KeepsP ps z (writeBlks fuel s owner pa data) := by
  induction fuel generalizing s pa data with
  | zero => exact h0
  | succ fuel ih =>
    unfold writeBlks
    split
    · exact h0
    · exact ih (keepsP_fst (writeBlk_keeps hp h0))

theorem devWriteRaw_keeps {ps z} {s : Sys2Proof.Machine.State} {owner : Nat} {pa : Nat} {data : List Sys2Proof.Byte} (hp : [.regs, .mem] ⊆ ps) (h0 : Keeps ps z s) :
    KeepsP ps z (devWriteRaw s owner pa data) := by
  unfold devWriteRaw
  repeat' first
    | with_reducible assumption
    | with_reducible exact keepsP_fst (by assumption)
    | (extract_lets -useContext +onlyGivenNames x; refine (fun (hx : Keeps ps z x) => ?_) ?_; clear_value x; revert x; intro _ _; rotate_left; unfold x; clear x; rotate_left)
    | (extract_lets -useContext +onlyGivenNames x; refine (fun (hx : KeepsP ps z x) => ?_) ?_; clear_value x; revert x; intro _ _; rotate_left; unfold x; clear x; rotate_left)
    | (extract_lets -useContext +onlyGivenNames x; revert x; intro _)
    | with_reducible refine writeBlks_keeps (sub_of (by decide) hp) ?_
    | with_reducible refine keepsP_fst (writeBlks_keeps (sub_of (by decide) hp) ?_)
    | with_reducible refine keepsP_eq (writeBlks_keeps (sub_of (by decide) hp) ?_) (by assumption)
    | split
    | (clear_value *; split)
    | with_reducible refine keepsP_eq ?_ (by assumption)
    | with_reducible refine keepsO_eq ?_ (by assumption)
    | with_reducible refine keepsP_mk ?_

theorem poisonUnits_keeps {ps z} {us : List Nat} {s : State} (hp : [.mem] ⊆ ps) (h0 : Keeps ps z s) : Keeps ps z (poisonUnits s us) := by
  induction us generalizing s with
  | nil => exact h0
  | cons u us ih => unfold poisonUnits; exact ih (State.setBlk_keeps hp h0)

theorem captureWords_keeps {ps z} {s : Sys2Proof.Machine.State} {b : Sys2Proof.Block} {i : Nat} {e : Sys2Proof.Machine.Err} (hp : [.regs] ⊆ ps) (h0 : Keeps ps z s) :
    Keeps ps z (captureWords s b i e) := by
  unfold captureWords
  repeat' first
    | with_reducible assumption
    | with_reducible exact keepsP_fst (by assumption)
    | (extract_lets -useContext +onlyGivenNames x; refine (fun (hx : Keeps ps z x) => ?_) ?_; clear_value x; revert x; intro _ _; rotate_left; unfold x; clear x; rotate_left)
    | (extract_lets -useContext +onlyGivenNames x; revert x; intro _)
    | with_reducible refine State.setReg_keeps (sub_of (by decide) hp) ?_
    | split
    | (clear_value *; split)
    | with_reducible refine keepsP_eq ?_ (by assumption)
    | with_reducible refine keepsO_eq ?_ (by assumption)
    | with_reducible refine keepsO_getD ?_ ?_
    | with_reducible refine keepsP_mk ?_

theorem memWaits_keeps {ps z} {s : Sys2Proof.Machine.State} {w : Sys2Proof.Machine.MemWait} (hp : [.mem] ⊆ ps) (h0 : Keeps ps z s) :
    Keeps ps z (memWaits s w) := by
  unfold memWaits
  repeat' first
    | with_reducible assumption
    | with_reducible exact keepsP_fst (by assumption)
    | (extract_lets -useContext +onlyGivenNames x; refine (fun (hx : Keeps ps z x) => ?_) ?_; clear_value x; revert x; intro _ _; rotate_left; unfold x; clear x; rotate_left)
    | (extract_lets -useContext +onlyGivenNames x; revert x; intro _)
    | split
    | (clear_value *; split)
    | with_reducible refine keeps_with_mem (mem_of (by decide) hp) (fun w => w.mem) ?_
    | with_reducible refine keepsP_eq ?_ (by assumption)
    | with_reducible refine keepsO_eq ?_ (by assumption)
    | with_reducible refine keepsP_mk ?_

theorem announce_keeps {ps z} {s : Sys2Proof.Machine.State} {a1_ : Option Nat} (hp : [.regs, .outbox] ⊆ ps) (h0 : Keeps ps z s) :
    Keeps ps z (announce s a1_) := by
  unfold announce
  repeat' first
    | with_reducible assumption
    | with_reducible exact keepsP_fst (by assumption)
    | (extract_lets -useContext +onlyGivenNames x; refine (fun (hx : Keeps ps z x) => ?_) ?_; clear_value x; revert x; intro _ _; rotate_left; unfold x; clear x; rotate_left)
    | (extract_lets -useContext +onlyGivenNames x; revert x; intro _)
    | with_reducible refine raiseVector_keeps (sub_of (by decide) hp) ?_
    | split
    | (clear_value *; split)
    | with_reducible refine keepsP_eq ?_ (by assumption)
    | with_reducible refine keepsO_eq ?_ (by assumption)
    | with_reducible refine keepsP_mk ?_

theorem crossOnce_keeps {ps z} {s : Sys2Proof.Machine.State} {upper : Bool} {a : Nat} {b : Nat} (hp : [.bridge] ⊆ ps) (h0 : Keeps ps z s) :
    Keeps ps z (crossOnce s upper a b) := by
  unfold crossOnce
  repeat' first
    | with_reducible assumption
    | with_reducible exact keepsP_fst (by assumption)
    | (extract_lets -useContext +onlyGivenNames x; refine (fun (hx : Keeps ps z x) => ?_) ?_; clear_value x; revert x; intro _ _; rotate_left; unfold x; clear x; rotate_left)
    | (extract_lets -useContext +onlyGivenNames x; revert x; intro _)
    | with_reducible refine keeps_foldl (fun t a ht => ?_) ?_
    | with_reducible refine keepsP_foldl (fun t a ht => ?_) ?_
    | split
    | (clear_value *; split)
    | with_reducible refine keeps_with_bridge (mem_of (by decide) hp) ?_
    | with_reducible refine keepsP_eq ?_ (by assumption)
    | with_reducible refine keepsO_eq ?_ (by assumption)
    | with_reducible refine keepsP_mk ?_

theorem crossTo_keeps {ps z} {s : Sys2Proof.Machine.State} {a : Nat} {b : Nat} (hp : [.bridge] ⊆ ps) (h0 : Keeps ps z s) :
    Keeps ps z (crossTo s a b) := by
  unfold crossTo
  repeat' first
    | with_reducible assumption
    | with_reducible exact keepsP_fst (by assumption)
    | (extract_lets -useContext +onlyGivenNames x; refine (fun (hx : Keeps ps z x) => ?_) ?_; clear_value x; revert x; intro _ _; rotate_left; unfold x; clear x; rotate_left)
    | (extract_lets -useContext +onlyGivenNames x; revert x; intro _)
    | with_reducible refine crossOnce_keeps (sub_of (by decide) hp) ?_
    | split
    | (clear_value *; split)
    | with_reducible refine keepsP_eq ?_ (by assumption)
    | with_reducible refine keepsO_eq ?_ (by assumption)
    | with_reducible refine keepsP_mk ?_

theorem cross_keeps {ps z} {s : Sys2Proof.Machine.State} {a : Nat} {b : Nat} {answered : optParam Bool Bool.true} (hp : [.bridge] ⊆ ps) (h0 : Keeps ps z s) :
    Keeps ps z (cross s a b answered) := by
  unfold cross
  repeat' first
    | with_reducible assumption
    | with_reducible exact keepsP_fst (by assumption)
    | (extract_lets -useContext +onlyGivenNames x; refine (fun (hx : Keeps ps z x) => ?_) ?_; clear_value x; revert x; intro _ _; rotate_left; unfold x; clear x; rotate_left)
    | (extract_lets -useContext +onlyGivenNames x; revert x; intro _)
    | with_reducible refine crossTo_keeps (sub_of (by decide) hp) ?_
    | split
    | (clear_value *; split)
    | with_reducible refine keepsP_eq ?_ (by assumption)
    | with_reducible refine keepsO_eq ?_ (by assumption)
    | with_reducible refine keepsP_mk ?_

theorem reach_keeps {ps z} {s : Sys2Proof.Machine.State} {die : Nat} {pa : Nat} {len : Nat} {answered : optParam Bool Bool.true} (hp : [.bridge] ⊆ ps) (h0 : Keeps ps z s) :
    Keeps ps z (reach s die pa len answered) := by
  unfold reach
  repeat' first
    | with_reducible assumption
    | with_reducible exact keepsP_fst (by assumption)
    | (extract_lets -useContext +onlyGivenNames x; refine (fun (hx : Keeps ps z x) => ?_) ?_; clear_value x; revert x; intro _ _; rotate_left; unfold x; clear x; rotate_left)
    | (extract_lets -useContext +onlyGivenNames x; revert x; intro _)
    | with_reducible refine cross_keeps (sub_of (by decide) hp) ?_
    | with_reducible refine keeps_foldl (fun t a ht => ?_) ?_
    | with_reducible refine keepsP_foldl (fun t a ht => ?_) ?_
    | split
    | (clear_value *; split)
    | with_reducible refine keepsP_eq ?_ (by assumption)
    | with_reducible refine keepsO_eq ?_ (by assumption)
    | with_reducible refine keepsP_mk ?_

theorem errorRing_keeps {ps z} {s : Sys2Proof.Machine.State} {b : Sys2Proof.Block} {i : Nat} {v : Option Nat} (hp : [.regs, .mem, .outbox, .bridge] ⊆ ps) (h0 : Keeps ps z s) :
    KeepsP ps z (errorRing s b i v) := by
  unfold errorRing
  repeat' first
    | with_reducible assumption
    | with_reducible exact keepsP_fst (by assumption)
    | (extract_lets -useContext +onlyGivenNames x; refine (fun (hx : Keeps ps z x) => ?_) ?_; clear_value x; revert x; intro _ _; rotate_left; unfold x; clear x; rotate_left)
    | (extract_lets -useContext +onlyGivenNames x; refine (fun (hx : KeepsP ps z x) => ?_) ?_; clear_value x; revert x; intro _ _; rotate_left; unfold x; clear x; rotate_left)
    | (extract_lets -useContext +onlyGivenNames x; revert x; intro _)
    | with_reducible refine State.setReg_keeps (sub_of (by decide) hp) ?_
    | with_reducible refine devWriteRaw_keeps (sub_of (by decide) hp) ?_
    | with_reducible refine keepsP_fst (devWriteRaw_keeps (sub_of (by decide) hp) ?_)
    | with_reducible refine keepsP_eq (devWriteRaw_keeps (sub_of (by decide) hp) ?_) (by assumption)
    | with_reducible refine State.bump_keeps (sub_of (by decide) hp) ?_
    | with_reducible refine announce_keeps (sub_of (by decide) hp) ?_
    | with_reducible refine memWaits_keeps (sub_of (by decide) hp) ?_
    | with_reducible refine reach_keeps (sub_of (by decide) hp) ?_
    | split
    | (clear_value *; split)
    | with_reducible refine keepsP_eq ?_ (by assumption)
    | with_reducible refine keepsO_eq ?_ (by assumption)
    | with_reducible refine keepsP_mk ?_

theorem captureFuel_keeps {ps z} {fuel : Nat} {s : State} {b : Block} {i : Nat} {e : Err} (hp : [.regs, .mem, .outbox, .bridge] ⊆ ps)
    (h0 : Keeps ps z s) : Keeps ps z (captureFuel fuel s b i e) := by
  induction fuel generalizing s b i e with
  | zero => exact countMore_keeps (sub_of (by decide) hp) h0
  | succ fuel ih =>
    unfold captureFuel
    split
    · exact h0
    · split
      · exact countMore_keeps (sub_of (by decide) hp) h0
      · split
        next e2 => 
          refine keeps_foldl (fun t a ht => ?_)
            (keepsP_eq (errorRing_keeps (sub_of (by decide) hp) (captureWords_keeps (sub_of (by decide) hp) h0)) e2)
          exact ih ht

theorem capture_keeps {ps z} {s : Sys2Proof.Machine.State} {b : Sys2Proof.Block} {i : Nat} {e : Sys2Proof.Machine.Err} (hp : [.regs, .mem, .outbox, .bridge] ⊆ ps) (h0 : Keeps ps z s) :
    Keeps ps z (capture s b i e) := by
  unfold capture
  repeat' first
    | with_reducible assumption
    | with_reducible exact keepsP_fst (by assumption)
    | (extract_lets -useContext +onlyGivenNames x; refine (fun (hx : Keeps ps z x) => ?_) ?_; clear_value x; revert x; intro _ _; rotate_left; unfold x; clear x; rotate_left)
    | (extract_lets -useContext +onlyGivenNames x; revert x; intro _)
    | with_reducible refine captureFuel_keeps (sub_of (by decide) hp) ?_
    | split
    | (clear_value *; split)
    | with_reducible refine keepsP_eq ?_ (by assumption)
    | with_reducible refine keepsO_eq ?_ (by assumption)
    | with_reducible refine keepsP_mk ?_

theorem logIgnored_keeps {ps z} {s : Sys2Proof.Machine.State} {b : Sys2Proof.Block} {i : Nat} {off : Nat} (hp : [.regs, .mem, .outbox, .bridge] ⊆ ps) (h0 : Keeps ps z s) :
    Keeps ps z (logIgnored s b i off) := by
  unfold logIgnored
  repeat' first
    | with_reducible assumption
    | with_reducible exact keepsP_fst (by assumption)
    | (extract_lets -useContext +onlyGivenNames x; refine (fun (hx : Keeps ps z x) => ?_) ?_; clear_value x; revert x; intro _ _; rotate_left; unfold x; clear x; rotate_left)
    | (extract_lets -useContext +onlyGivenNames x; revert x; intro _)
    | with_reducible refine capture_keeps (sub_of (by decide) hp) ?_
    | split
    | (clear_value *; split)
    | with_reducible refine keepsP_eq ?_ (by assumption)
    | with_reducible refine keepsO_eq ?_ (by assumption)
    | with_reducible refine keepsP_mk ?_

theorem capturePage_keeps {ps z} {s : Sys2Proof.Machine.State} {p : Sys2Proof.Block × Nat} {es : List Sys2Proof.Machine.Err} (hp : [.regs, .mem, .outbox, .bridge] ⊆ ps) (h0 : Keeps ps z s) :
    Keeps ps z (capturePage s p es) := by
  unfold capturePage
  repeat' first
    | with_reducible assumption
    | with_reducible exact keepsP_fst (by assumption)
    | (extract_lets -useContext +onlyGivenNames x; refine (fun (hx : Keeps ps z x) => ?_) ?_; clear_value x; revert x; intro _ _; rotate_left; unfold x; clear x; rotate_left)
    | (extract_lets -useContext +onlyGivenNames x; revert x; intro _)
    | with_reducible refine capture_keeps (sub_of (by decide) hp) ?_
    | with_reducible refine keeps_foldl (fun t a ht => ?_) ?_
    | with_reducible refine keepsP_foldl (fun t a ht => ?_) ?_
    | split
    | (clear_value *; split)
    | with_reducible refine keepsP_eq ?_ (by assumption)
    | with_reducible refine keepsO_eq ?_ (by assumption)
    | with_reducible refine keepsP_mk ?_

theorem captureAll_keeps {ps z} {s : Sys2Proof.Machine.State} {evs : List (Sys2Proof.Block × Nat × Sys2Proof.Machine.Err)} (hp : [.regs, .mem, .outbox, .bridge] ⊆ ps) (h0 : Keeps ps z s) :
    Keeps ps z (captureAll s evs) := by
  unfold captureAll
  repeat' first
    | with_reducible assumption
    | with_reducible exact keepsP_fst (by assumption)
    | (extract_lets -useContext +onlyGivenNames x; refine (fun (hx : Keeps ps z x) => ?_) ?_; clear_value x; revert x; intro _ _; rotate_left; unfold x; clear x; rotate_left)
    | (extract_lets -useContext +onlyGivenNames x; revert x; intro _)
    | with_reducible refine capturePage_keeps (sub_of (by decide) hp) ?_
    | with_reducible refine keeps_foldl (fun t a ht => ?_) ?_
    | with_reducible refine keepsP_foldl (fun t a ht => ?_) ?_
    | split
    | (clear_value *; split)
    | with_reducible refine keepsP_eq ?_ (by assumption)
    | with_reducible refine keepsO_eq ?_ (by assumption)
    | with_reducible refine keepsP_mk ?_

theorem captureEvents_keeps {ps z} {s : Sys2Proof.Machine.State} {evs : List Sys2Proof.Machine.MemEvent} (hp : [.regs, .mem, .outbox, .bridge] ⊆ ps) (h0 : Keeps ps z s) :
    Keeps ps z (captureEvents s evs) := by
  unfold captureEvents
  repeat' first
    | with_reducible assumption
    | with_reducible exact keepsP_fst (by assumption)
    | (extract_lets -useContext +onlyGivenNames x; refine (fun (hx : Keeps ps z x) => ?_) ?_; clear_value x; revert x; intro _ _; rotate_left; unfold x; clear x; rotate_left)
    | (extract_lets -useContext +onlyGivenNames x; revert x; intro _)
    | with_reducible refine captureAll_keeps (sub_of (by decide) hp) ?_
    | split
    | (clear_value *; split)
    | with_reducible refine keepsP_eq ?_ (by assumption)
    | with_reducible refine keepsO_eq ?_ (by assumption)
    | with_reducible refine keepsP_mk ?_

theorem devRead_keeps {ps z} {s : Sys2Proof.Machine.State} {owner : Nat} {pa : Nat} {len : Nat} (hp : [.regs, .mem, .outbox, .bridge] ⊆ ps) (h0 : Keeps ps z s) :
    KeepsP ps z (devRead s owner pa len) := by
  unfold devRead
  repeat' first
    | with_reducible assumption
    | with_reducible exact keepsP_fst (by assumption)
    | (extract_lets -useContext +onlyGivenNames x; refine (fun (hx : Keeps ps z x) => ?_) ?_; clear_value x; revert x; intro _ _; rotate_left; unfold x; clear x; rotate_left)
    | (extract_lets -useContext +onlyGivenNames x; refine (fun (hx : KeepsP ps z x) => ?_) ?_; clear_value x; revert x; intro _ _; rotate_left; unfold x; clear x; rotate_left)
    | (extract_lets -useContext +onlyGivenNames x; revert x; intro _)
    | with_reducible refine captureEvents_keeps (sub_of (by decide) hp) ?_
    | with_reducible refine devReadRaw_keeps (sub_of (by decide) hp) ?_
    | with_reducible refine keepsP_fst (devReadRaw_keeps (sub_of (by decide) hp) ?_)
    | with_reducible refine keepsP_eq (devReadRaw_keeps (sub_of (by decide) hp) ?_) (by assumption)
    | split
    | (clear_value *; split)
    | with_reducible refine keepsP_eq ?_ (by assumption)
    | with_reducible refine keepsO_eq ?_ (by assumption)
    | with_reducible refine keepsP_mk ?_

theorem devWrite_keeps {ps z} {s : Sys2Proof.Machine.State} {owner : Nat} {pa : Nat} {data : List Sys2Proof.Byte} (hp : [.regs, .mem, .outbox, .bridge] ⊆ ps) (h0 : Keeps ps z s) :
    KeepsP ps z (devWrite s owner pa data) := by
  unfold devWrite
  repeat' first
    | with_reducible assumption
    | with_reducible exact keepsP_fst (by assumption)
    | (extract_lets -useContext +onlyGivenNames x; refine (fun (hx : Keeps ps z x) => ?_) ?_; clear_value x; revert x; intro _ _; rotate_left; unfold x; clear x; rotate_left)
    | (extract_lets -useContext +onlyGivenNames x; refine (fun (hx : KeepsP ps z x) => ?_) ?_; clear_value x; revert x; intro _ _; rotate_left; unfold x; clear x; rotate_left)
    | (extract_lets -useContext +onlyGivenNames x; revert x; intro _)
    | with_reducible refine captureEvents_keeps (sub_of (by decide) hp) ?_
    | with_reducible refine devWriteRaw_keeps (sub_of (by decide) hp) ?_
    | with_reducible refine keepsP_fst (devWriteRaw_keeps (sub_of (by decide) hp) ?_)
    | with_reducible refine keepsP_eq (devWriteRaw_keeps (sub_of (by decide) hp) ?_) (by assumption)
    | split
    | (clear_value *; split)
    | with_reducible refine keepsP_eq ?_ (by assumption)
    | with_reducible refine keepsO_eq ?_ (by assumption)
    | with_reducible refine keepsP_mk ?_

theorem ctxCount_keeps {ps z} {s : Sys2Proof.Machine.State} {c : Nat} {k : Nat} {n : Nat} (hp : [.ctx] ⊆ ps) (h0 : Keeps ps z s) :
    Keeps ps z (ctxCount s c k n) := by
  unfold ctxCount
  repeat' first
    | with_reducible assumption
    | with_reducible exact keepsP_fst (by assumption)
    | (extract_lets -useContext +onlyGivenNames x; refine (fun (hx : Keeps ps z x) => ?_) ?_; clear_value x; revert x; intro _ _; rotate_left; unfold x; clear x; rotate_left)
    | (extract_lets -useContext +onlyGivenNames x; revert x; intro _)
    | with_reducible refine State.setCtx_keeps (sub_of (by decide) hp) ?_
    | split
    | (clear_value *; split)
    | with_reducible refine keepsP_eq ?_ (by assumption)
    | with_reducible refine keepsO_eq ?_ (by assumption)
    | with_reducible refine keepsP_mk ?_

theorem mergeFlags_keeps {ps z} {s : Sys2Proof.Machine.State} {c : Nat} {byte : Nat} {f : Nat} (hp : [.ctx] ⊆ ps) (h0 : Keeps ps z s) :
    Keeps ps z (mergeFlags s c byte f) := by
  unfold mergeFlags
  repeat' first
    | with_reducible assumption
    | with_reducible exact keepsP_fst (by assumption)
    | (extract_lets -useContext +onlyGivenNames x; refine (fun (hx : Keeps ps z x) => ?_) ?_; clear_value x; revert x; intro _ _; rotate_left; unfold x; clear x; rotate_left)
    | (extract_lets -useContext +onlyGivenNames x; revert x; intro _)
    | with_reducible refine State.setCtx_keeps (sub_of (by decide) hp) ?_
    | split
    | (clear_value *; split)
    | with_reducible refine keepsP_eq ?_ (by assumption)
    | with_reducible refine keepsO_eq ?_ (by assumption)
    | with_reducible refine keepsP_mk ?_

theorem freeBytes_keeps {ps z} {s : Sys2Proof.Machine.State} {n : Nat} (hp : [.draws] ⊆ ps) (h0 : Keeps ps z s) :
    KeepsP ps z (freeBytes s n) := by
  unfold freeBytes
  repeat' first
    | with_reducible assumption
    | with_reducible exact keepsP_fst (by assumption)
    | (extract_lets -useContext +onlyGivenNames x; refine (fun (hx : Keeps ps z x) => ?_) ?_; clear_value x; revert x; intro _ _; rotate_left; unfold x; clear x; rotate_left)
    | (extract_lets -useContext +onlyGivenNames x; revert x; intro _)
    | split
    | (clear_value *; split)
    | with_reducible refine keeps_with_draws (mem_of (by decide) hp) ?_
    | with_reducible refine keepsP_eq ?_ (by assumption)
    | with_reducible refine keepsO_eq ?_ (by assumption)
    | with_reducible refine keepsP_mk ?_

theorem readFrom_keeps {ps z} {s : Sys2Proof.Machine.State} {die : Nat} {owner : Nat} {pa : Nat} {len : Nat} (hp : [.regs, .mem, .outbox, .bridge] ⊆ ps) (h0 : Keeps ps z s) :
    KeepsP ps z (readFrom s die owner pa len) := by
  unfold readFrom
  repeat' first
    | with_reducible assumption
    | with_reducible exact keepsP_fst (by assumption)
    | (extract_lets -useContext +onlyGivenNames x; refine (fun (hx : Keeps ps z x) => ?_) ?_; clear_value x; revert x; intro _ _; rotate_left; unfold x; clear x; rotate_left)
    | (extract_lets -useContext +onlyGivenNames x; refine (fun (hx : KeepsP ps z x) => ?_) ?_; clear_value x; revert x; intro _ _; rotate_left; unfold x; clear x; rotate_left)
    | (extract_lets -useContext +onlyGivenNames x; revert x; intro _)
    | with_reducible refine devRead_keeps (sub_of (by decide) hp) ?_
    | with_reducible refine keepsP_fst (devRead_keeps (sub_of (by decide) hp) ?_)
    | with_reducible refine keepsP_eq (devRead_keeps (sub_of (by decide) hp) ?_) (by assumption)
    | with_reducible refine reach_keeps (sub_of (by decide) hp) ?_
    | split
    | (clear_value *; split)
    | with_reducible refine keepsP_eq ?_ (by assumption)
    | with_reducible refine keepsO_eq ?_ (by assumption)
    | with_reducible refine keepsP_mk ?_

theorem walkFrom_keeps {ps z} {level : Nat} {s : State} {die c table va : Nat} {write : Bool} (hp : [.regs, .mem, .outbox, .bridge] ⊆ ps)
    (h0 : Keeps ps z s) : KeepsP ps z (walkFrom level s die c table va write) := by
  induction level generalizing s table with
  | zero => exact h0
  | succ level ih =>
    unfold walkFrom
    extract_lets idx
    split
    · exact h0
    have h1 := keepsP_fst (readFrom_keeps (die := die) (owner := 64) (pa := table + 8 * idx) (len := 8) hp h0)
    generalize readFrom s die 64 (table + 8 * idx) 8 = r at h1
    obtain ⟨t, r⟩ := r
    dsimp only at h1 ⊢
    split
    · exact h1
    · split
      · exact h1
      · split
        · exact h1
        · exact ih h1

theorem pageWalk_keeps {ps z} {s : Sys2Proof.Machine.State} {die : Nat} {c : Nat} {va : Nat} {write : Bool} (hp : [.regs, .mem, .outbox, .bridge] ⊆ ps) (h0 : Keeps ps z s) :
    KeepsP ps z (pageWalk s die c va write) := by
  unfold pageWalk
  repeat' first
    | with_reducible assumption
    | with_reducible exact keepsP_fst (by assumption)
    | (extract_lets -useContext +onlyGivenNames x; refine (fun (hx : Keeps ps z x) => ?_) ?_; clear_value x; revert x; intro _ _; rotate_left; unfold x; clear x; rotate_left)
    | (extract_lets -useContext +onlyGivenNames x; refine (fun (hx : KeepsP ps z x) => ?_) ?_; clear_value x; revert x; intro _ _; rotate_left; unfold x; clear x; rotate_left)
    | (extract_lets -useContext +onlyGivenNames x; revert x; intro _)
    | with_reducible refine walkFrom_keeps (sub_of (by decide) hp) ?_
    | with_reducible refine keepsP_fst (walkFrom_keeps (sub_of (by decide) hp) ?_)
    | with_reducible refine keepsP_eq (walkFrom_keeps (sub_of (by decide) hp) ?_) (by assumption)
    | split
    | (clear_value *; split)
    | with_reducible refine keepsP_eq ?_ (by assumption)
    | with_reducible refine keepsO_eq ?_ (by assumption)
    | with_reducible refine keepsP_mk ?_

theorem tlbFill_keeps {ps z} {s : Sys2Proof.Machine.State} {die : Nat} {e : Sys2Proof.Machine.TlbEntry} {p : Option Sys2Proof.Machine.WalkPtr} (hp : [.mmu] ⊆ ps) (h0 : Keeps ps z s) :
    Keeps ps z (tlbFill s die e p) := by
  unfold tlbFill
  repeat' first
    | with_reducible assumption
    | with_reducible exact keepsP_fst (by assumption)
    | (extract_lets -useContext +onlyGivenNames x; refine (fun (hx : Keeps ps z x) => ?_) ?_; clear_value x; revert x; intro _ _; rotate_left; unfold x; clear x; rotate_left)
    | (extract_lets -useContext +onlyGivenNames x; revert x; intro _)
    | split
    | (clear_value *; split)
    | with_reducible refine keeps_with_mmu (mem_of (by decide) hp) ?_
    | with_reducible refine keepsP_eq ?_ (by assumption)
    | with_reducible refine keepsO_eq ?_ (by assumption)
    | with_reducible refine keepsP_mk ?_

theorem latchFault_keeps {ps z} {s : Sys2Proof.Machine.State} {die : Nat} {req : Nat} {c : Nat} {va : Nat} {code : Nat} {write : Bool} (hp : [.regs, .mem, .outbox, .bridge] ⊆ ps) (h0 : Keeps ps z s) :
    Keeps ps z (latchFault s die req c va code write) := by
  unfold latchFault
  repeat' first
    | with_reducible assumption
    | with_reducible exact keepsP_fst (by assumption)
    | (extract_lets -useContext +onlyGivenNames x; refine (fun (hx : Keeps ps z x) => ?_) ?_; clear_value x; revert x; intro _ _; rotate_left; unfold x; clear x; rotate_left)
    | (extract_lets -useContext +onlyGivenNames x; revert x; intro _)
    | with_reducible refine capture_keeps (sub_of (by decide) hp) ?_
    | with_reducible refine State.setReg_keeps (sub_of (by decide) hp) ?_
    | split
    | (clear_value *; split)
    | with_reducible refine keepsP_eq ?_ (by assumption)
    | with_reducible refine keepsO_eq ?_ (by assumption)
    | with_reducible refine keepsP_mk ?_

theorem translate_keeps {ps z} {s : Sys2Proof.Machine.State} {die : Nat} {req : Nat} {c : Nat} {va : Nat} {write : Bool} (hp : [.regs, .mem, .mmu, .outbox, .bridge] ⊆ ps) (h0 : Keeps ps z s) :
    KeepsP ps z (translate s die req c va write) := by
  unfold translate
  repeat' first
    | with_reducible assumption
    | with_reducible exact keepsP_fst (by assumption)
    | (extract_lets -useContext +onlyGivenNames x; refine (fun (hx : Keeps ps z x) => ?_) ?_; clear_value x; revert x; intro _ _; rotate_left; unfold x; clear x; rotate_left)
    | (extract_lets -useContext +onlyGivenNames x; refine (fun (hx : KeepsP ps z x) => ?_) ?_; clear_value x; revert x; intro _ _; rotate_left; unfold x; clear x; rotate_left)
    | (extract_lets -useContext +onlyGivenNames x; revert x; intro _)
    | with_reducible refine tlbFill_keeps (sub_of (by decide) hp) ?_
    | with_reducible refine pageWalk_keeps (sub_of (by decide) hp) ?_
    | with_reducible refine keepsP_fst (pageWalk_keeps (sub_of (by decide) hp) ?_)
    | with_reducible refine keepsP_eq (pageWalk_keeps (sub_of (by decide) hp) ?_) (by assumption)
    | with_reducible refine latchFault_keeps (sub_of (by decide) hp) ?_
    | split
    | (clear_value *; split)
    | with_reducible refine keepsP_eq ?_ (by assumption)
    | with_reducible refine keepsO_eq ?_ (by assumption)
    | with_reducible refine keepsP_mk ?_

theorem writeFrom_keeps {ps z} {s : Sys2Proof.Machine.State} {die : Nat} {owner : Nat} {pa : Nat} {data : List Sys2Proof.Byte} (hp : [.regs, .mem, .outbox, .bridge] ⊆ ps) (h0 : Keeps ps z s) :
    KeepsP ps z (writeFrom s die owner pa data) := by
  unfold writeFrom
  repeat' first
    | with_reducible assumption
    | with_reducible exact keepsP_fst (by assumption)
    | (extract_lets -useContext +onlyGivenNames x; refine (fun (hx : Keeps ps z x) => ?_) ?_; clear_value x; revert x; intro _ _; rotate_left; unfold x; clear x; rotate_left)
    | (extract_lets -useContext +onlyGivenNames x; refine (fun (hx : KeepsP ps z x) => ?_) ?_; clear_value x; revert x; intro _ _; rotate_left; unfold x; clear x; rotate_left)
    | (extract_lets -useContext +onlyGivenNames x; revert x; intro _)
    | with_reducible refine devWrite_keeps (sub_of (by decide) hp) ?_
    | with_reducible refine keepsP_fst (devWrite_keeps (sub_of (by decide) hp) ?_)
    | with_reducible refine keepsP_eq (devWrite_keeps (sub_of (by decide) hp) ?_) (by assumption)
    | with_reducible refine reach_keeps (sub_of (by decide) hp) ?_
    | split
    | (clear_value *; split)
    | with_reducible refine keepsP_eq ?_ (by assumption)
    | with_reducible refine keepsO_eq ?_ (by assumption)
    | with_reducible refine keepsP_mk ?_

theorem ringWrite_keeps {ps z} {s : Sys2Proof.Machine.State} {die : Nat} {pa : Nat} {data : List Sys2Proof.Byte} (hp : [.regs, .mem, .outbox, .bridge] ⊆ ps) (h0 : Keeps ps z s) :
    Keeps ps z (ringWrite s die pa data) := by
  unfold ringWrite
  repeat' first
    | with_reducible assumption
    | with_reducible exact keepsP_fst (by assumption)
    | (extract_lets -useContext +onlyGivenNames x; refine (fun (hx : Keeps ps z x) => ?_) ?_; clear_value x; revert x; intro _ _; rotate_left; unfold x; clear x; rotate_left)
    | (extract_lets -useContext +onlyGivenNames x; refine (fun (hx : KeepsP ps z x) => ?_) ?_; clear_value x; revert x; intro _ _; rotate_left; unfold x; clear x; rotate_left)
    | (extract_lets -useContext +onlyGivenNames x; revert x; intro _)
    | with_reducible refine memWaits_keeps (sub_of (by decide) hp) ?_
    | with_reducible refine reach_keeps (sub_of (by decide) hp) ?_
    | with_reducible refine writeFrom_keeps (sub_of (by decide) hp) ?_
    | with_reducible refine keepsP_fst (writeFrom_keeps (sub_of (by decide) hp) ?_)
    | with_reducible refine keepsP_eq (writeFrom_keeps (sub_of (by decide) hp) ?_) (by assumption)
    | split
    | (clear_value *; split)
    | with_reducible refine keepsP_eq ?_ (by assumption)
    | with_reducible refine keepsO_eq ?_ (by assumption)
    | with_reducible refine keepsP_mk ?_

theorem translateFrom_keeps {ps z} {s : Sys2Proof.Machine.State} {src : Nat} {die : Nat} {req : Nat} {c : Nat} {va : Nat} {write : Bool} (hp : [.regs, .mem, .mmu, .outbox, .bridge] ⊆ ps) (h0 : Keeps ps z s) :
    KeepsP ps z (translateFrom s src die req c va write) := by
  unfold translateFrom
  repeat' first
    | with_reducible assumption
    | with_reducible exact keepsP_fst (by assumption)
    | (extract_lets -useContext +onlyGivenNames x; refine (fun (hx : Keeps ps z x) => ?_) ?_; clear_value x; revert x; intro _ _; rotate_left; unfold x; clear x; rotate_left)
    | (extract_lets -useContext +onlyGivenNames x; refine (fun (hx : KeepsP ps z x) => ?_) ?_; clear_value x; revert x; intro _ _; rotate_left; unfold x; clear x; rotate_left)
    | (extract_lets -useContext +onlyGivenNames x; revert x; intro _)
    | with_reducible refine cross_keeps (sub_of (by decide) hp) ?_
    | with_reducible refine translate_keeps (sub_of (by decide) hp) ?_
    | with_reducible refine keepsP_fst (translate_keeps (sub_of (by decide) hp) ?_)
    | with_reducible refine keepsP_eq (translate_keeps (sub_of (by decide) hp) ?_) (by assumption)
    | split
    | (clear_value *; split)
    | with_reducible refine keepsP_eq ?_ (by assumption)
    | with_reducible refine keepsO_eq ?_ (by assumption)
    | with_reducible refine keepsP_mk ?_

end Sys2Proof.Machine
end

