-- ==== Sys2Proof/Laws/FrameOperands.lean ====
section
/-!
SUPPORT. Frames: for each operation of Sys2Proof/Machine/Operands.lean, the parts of State it may change, and that it keeps the stores'
canonical form.
-/
namespace Sys2Proof.Machine

open Sys2Proof

theorem noteHazard_keeps {ps z} {s : Sys2Proof.Machine.State} {n : Nat} {src : Nat} {a : Nat} {len : Nat} (hp : [.regs] ⊆ ps) (h0 : Keeps ps z s) :
    Keeps ps z (noteHazard s n src a len) := by
  unfold noteHazard
  repeat' first
    | with_reducible assumption
    | with_reducible exact keepsP_fst (by assumption)
    | (extract_lets -useContext +onlyGivenNames x; refine (fun (hx : Keeps ps z x) => ?_) ?_; clear_value x; revert x; intro _ _; rotate_left; unfold x; clear x; rotate_left)
    | (extract_lets -useContext +onlyGivenNames x; revert x; intro _)
    | with_reducible refine State.setReg_keeps (sub_of (by decide) hp) ?_
    | with_reducible refine State.bump_keeps (sub_of (by decide) hp) ?_
    | with_reducible refine countEvent_keeps (sub_of (by decide) hp) ?_
    | split
    | (clear_value *; split)
    | with_reducible refine keepsP_eq ?_ (by assumption)
    | with_reducible refine keepsO_eq ?_ (by assumption)
    | with_reducible refine keepsP_mk ?_

end Sys2Proof.Machine
end

