-- ==== Sys2Proof/Laws/FrameGates.lean ====
section
/-!
SUPPORT. Frames: for each operation of Sys2Proof/Machine/Gates.lean, the parts of State it may change, and that it keeps the stores'
canonical form.
-/
namespace Sys2Proof.Machine

open Sys2Proof

theorem releaseUnit_keeps {ps z} {s : Sys2Proof.Machine.State} {u : Nat} (hp : [.pwr] ⊆ ps) (h0 : Keeps ps z s) :
    Keeps ps z (releaseUnit s u) := by
  unfold releaseUnit
  repeat' first
    | with_reducible assumption
    | with_reducible exact keepsP_fst (by assumption)
    | (extract_lets -useContext +onlyGivenNames x; refine (fun (hx : Keeps ps z x) => ?_) ?_; clear_value x; revert x; intro _ _; rotate_left; unfold x; clear x; rotate_left)
    | (extract_lets -useContext +onlyGivenNames x; revert x; intro _)
    | split
    | (clear_value *; split)
    | with_reducible refine keeps_with_pwr (mem_of (by decide) hp) ?_
    | with_reducible refine keepsP_eq ?_ (by assumption)
    | with_reducible refine keepsO_eq ?_ (by assumption)
    | with_reducible refine keepsP_mk ?_

theorem unitBegin_keeps {ps z} {s : Sys2Proof.Machine.State} {e : Nat} (hp : [.pwr] ⊆ ps) (h0 : Keeps ps z s) :
    Keeps ps z (unitBegin s e) := by
  unfold unitBegin
  repeat' first
    | with_reducible assumption
    | with_reducible exact keepsP_fst (by assumption)
    | (extract_lets -useContext +onlyGivenNames x; refine (fun (hx : Keeps ps z x) => ?_) ?_; clear_value x; revert x; intro _ _; rotate_left; unfold x; clear x; rotate_left)
    | (extract_lets -useContext +onlyGivenNames x; revert x; intro _)
    | split
    | (clear_value *; split)
    | with_reducible refine keeps_with_pwr (mem_of (by decide) hp) ?_
    | with_reducible refine keepsP_eq ?_ (by assumption)
    | with_reducible refine keepsO_eq ?_ (by assumption)
    | with_reducible refine keepsP_mk ?_

theorem oweFor_keeps {ps z} {s : Sys2Proof.Machine.State} {e : Nat} {c : Nat} (hp : [.pwr] ⊆ ps) (h0 : Keeps ps z s) :
    Keeps ps z (oweFor s e c) := by
  unfold oweFor
  repeat' first
    | with_reducible assumption
    | with_reducible exact keepsP_fst (by assumption)
    | (extract_lets -useContext +onlyGivenNames x; refine (fun (hx : Keeps ps z x) => ?_) ?_; clear_value x; revert x; intro _ _; rotate_left; unfold x; clear x; rotate_left)
    | (extract_lets -useContext +onlyGivenNames x; revert x; intro _)
    | split
    | (clear_value *; split)
    | with_reducible refine keeps_with_pwr (mem_of (by decide) hp) ?_
    | with_reducible refine keepsP_eq ?_ (by assumption)
    | with_reducible refine keepsO_eq ?_ (by assumption)
    | with_reducible refine keepsP_mk ?_

theorem addDebt_keeps {ps z} {s : Sys2Proof.Machine.State} {e : Nat} {a : Nat} (hp : [.pwr] ⊆ ps) (h0 : Keeps ps z s) :
    Keeps ps z (addDebt s e a) := by
  unfold addDebt
  repeat' first
    | with_reducible assumption
    | with_reducible exact keepsP_fst (by assumption)
    | (extract_lets -useContext +onlyGivenNames x; refine (fun (hx : Keeps ps z x) => ?_) ?_; clear_value x; revert x; intro _ _; rotate_left; unfold x; clear x; rotate_left)
    | (extract_lets -useContext +onlyGivenNames x; revert x; intro _)
    | split
    | (clear_value *; split)
    | with_reducible refine keeps_with_pwr (mem_of (by decide) hp) ?_
    | with_reducible refine keepsP_eq ?_ (by assumption)
    | with_reducible refine keepsO_eq ?_ (by assumption)
    | with_reducible refine keepsP_mk ?_

theorem retune_keeps {ps z} {s : Sys2Proof.Machine.State} {n : Nat} (hp : [.isl] ⊆ ps) (h0 : Keeps ps z s) :
    Keeps ps z (retune s n) := by
  unfold retune
  repeat' first
    | with_reducible assumption
    | with_reducible exact keepsP_fst (by assumption)
    | (extract_lets -useContext +onlyGivenNames x; refine (fun (hx : Keeps ps z x) => ?_) ?_; clear_value x; revert x; intro _ _; rotate_left; unfold x; clear x; rotate_left)
    | (extract_lets -useContext +onlyGivenNames x; revert x; intro _)
    | with_reducible refine State.setIsl_keeps (sub_of (by decide) hp) ?_
    | split
    | (clear_value *; split)
    | with_reducible refine keepsP_eq ?_ (by assumption)
    | with_reducible refine keepsO_eq ?_ (by assumption)
    | with_reducible refine keepsP_mk ?_

theorem unitEnd_keeps {ps z} {s : Sys2Proof.Machine.State} {e : Nat} (hp : [.isl, .pwr] ⊆ ps) (h0 : Keeps ps z s) :
    Keeps ps z (unitEnd s e) := by
  unfold unitEnd
  repeat' first
    | with_reducible assumption
    | with_reducible exact keepsP_fst (by assumption)
    | (extract_lets -useContext +onlyGivenNames x; refine (fun (hx : Keeps ps z x) => ?_) ?_; clear_value x; revert x; intro _ _; rotate_left; unfold x; clear x; rotate_left)
    | (extract_lets -useContext +onlyGivenNames x; revert x; intro _)
    | with_reducible refine retune_keeps (sub_of (by decide) hp) ?_
    | with_reducible refine State.setIsl_keeps (sub_of (by decide) hp) ?_
    | with_reducible refine releaseUnit_keeps (sub_of (by decide) hp) ?_
    | with_reducible refine addDebt_keeps (sub_of (by decide) hp) ?_
    | split
    | (clear_value *; split)
    | with_reducible refine keeps_with_pwr (mem_of (by decide) hp) ?_
    | with_reducible refine keepsP_eq ?_ (by assumption)
    | with_reducible refine keepsO_eq ?_ (by assumption)
    | with_reducible refine keepsP_mk ?_

theorem burstBegin_keeps {ps z} {s : Sys2Proof.Machine.State} {k : Nat} {b : Nat} (hp : [.dma, .pwr] ⊆ ps) (h0 : Keeps ps z s) :
    Keeps ps z (burstBegin s k b) := by
  unfold burstBegin
  repeat' first
    | with_reducible assumption
    | with_reducible exact keepsP_fst (by assumption)
    | (extract_lets -useContext +onlyGivenNames x; refine (fun (hx : Keeps ps z x) => ?_) ?_; clear_value x; revert x; intro _ _; rotate_left; unfold x; clear x; rotate_left)
    | (extract_lets -useContext +onlyGivenNames x; revert x; intro _)
    | with_reducible refine State.setCh_keeps (sub_of (by decide) hp) ?_
    | split
    | (clear_value *; split)
    | with_reducible refine keeps_with_pwr (mem_of (by decide) hp) ?_
    | with_reducible refine keepsP_eq ?_ (by assumption)
    | with_reducible refine keepsO_eq ?_ (by assumption)
    | with_reducible refine keepsP_mk ?_

theorem burstEnd_keeps {ps z} {s : Sys2Proof.Machine.State} {k : Nat} {b : Nat} (hp : [.isl, .dma, .pwr] ⊆ ps) (h0 : Keeps ps z s) :
    Keeps ps z (burstEnd s k b) := by
  unfold burstEnd
  repeat' first
    | with_reducible assumption
    | with_reducible exact keepsP_fst (by assumption)
    | (extract_lets -useContext +onlyGivenNames x; refine (fun (hx : Keeps ps z x) => ?_) ?_; clear_value x; revert x; intro _ _; rotate_left; unfold x; clear x; rotate_left)
    | (extract_lets -useContext +onlyGivenNames x; revert x; intro _)
    | with_reducible refine State.setCh_keeps (sub_of (by decide) hp) ?_
    | with_reducible refine State.setIsl_keeps (sub_of (by decide) hp) ?_
    | with_reducible refine addDebt_keeps (sub_of (by decide) hp) ?_
    | with_reducible refine releaseUnit_keeps (sub_of (by decide) hp) ?_
    | split
    | (clear_value *; split)
    | with_reducible refine keeps_with_pwr (mem_of (by decide) hp) ?_
    | with_reducible refine keepsP_eq ?_ (by assumption)
    | with_reducible refine keepsO_eq ?_ (by assumption)
    | with_reducible refine keepsP_mk ?_

theorem burstsEnd_keeps {ps z} {s : Sys2Proof.Machine.State} {k : Nat} (hp : [.isl, .dma, .pwr] ⊆ ps) (h0 : Keeps ps z s) :
    Keeps ps z (burstsEnd s k) := by
  unfold burstsEnd
  repeat' first
    | with_reducible assumption
    | with_reducible exact keepsP_fst (by assumption)
    | (extract_lets -useContext +onlyGivenNames x; refine (fun (hx : Keeps ps z x) => ?_) ?_; clear_value x; revert x; intro _ _; rotate_left; unfold x; clear x; rotate_left)
    | (extract_lets -useContext +onlyGivenNames x; revert x; intro _)
    | with_reducible refine burstEnd_keeps (sub_of (by decide) hp) ?_
    | with_reducible refine keeps_foldl (fun t a ht => ?_) ?_
    | with_reducible refine keepsP_foldl (fun t a ht => ?_) ?_
    | split
    | (clear_value *; split)
    | with_reducible refine keepsP_eq ?_ (by assumption)
    | with_reducible refine keepsO_eq ?_ (by assumption)
    | with_reducible refine keepsP_mk ?_

theorem seqFail_keeps {ps z} {s : Sys2Proof.Machine.State} {n : Nat} {e : Sys2Proof.Machine.EndStatus} (hp : [.seq] ⊆ ps) (h0 : Keeps ps z s) :
    Keeps ps z (seqFail s n e) := by
  unfold seqFail
  repeat' first
    | with_reducible assumption
    | with_reducible exact keepsP_fst (by assumption)
    | (extract_lets -useContext +onlyGivenNames x; refine (fun (hx : Keeps ps z x) => ?_) ?_; clear_value x; revert x; intro _ _; rotate_left; unfold x; clear x; rotate_left)
    | (extract_lets -useContext +onlyGivenNames x; revert x; intro _)
    | with_reducible refine State.setSeq_keeps (sub_of (by decide) hp) ?_
    | split
    | (clear_value *; split)
    | with_reducible refine keepsP_eq ?_ (by assumption)
    | with_reducible refine keepsO_eq ?_ (by assumption)
    | with_reducible refine keepsP_mk ?_

/-- What is kept of a state is its requests and its link. -/

theorem noteFailure_keeps {ps z} {s : Sys2Proof.Machine.State} {n : Nat} (hp : [.seq] ⊆ ps) (h0 : Keeps ps z s) :
    Keeps ps z (noteFailure s n) := by
  unfold noteFailure
  repeat' first
    | with_reducible assumption
    | with_reducible exact keepsP_fst (by assumption)
    | (extract_lets -useContext +onlyGivenNames x; refine (fun (hx : Keeps ps z x) => ?_) ?_; clear_value x; revert x; intro _ _; rotate_left; unfold x; clear x; rotate_left)
    | (extract_lets -useContext +onlyGivenNames x; revert x; intro _)
    | with_reducible refine seqFail_keeps (sub_of (by decide) hp) ?_
    | split
    | (clear_value *; split)
    | with_reducible refine keepsP_eq ?_ (by assumption)
    | with_reducible refine keepsO_eq ?_ (by assumption)
    | with_reducible refine keepsP_mk ?_

theorem rampIfEmpty_keeps {ps z} {s : Sys2Proof.Machine.State} {n : Nat} (hp : [.arr] ⊆ ps) (h0 : Keeps ps z s) :
    Keeps ps z (rampIfEmpty s n) := by
  unfold rampIfEmpty
  repeat' first
    | with_reducible assumption
    | with_reducible exact keepsP_fst (by assumption)
    | (extract_lets -useContext +onlyGivenNames x; refine (fun (hx : Keeps ps z x) => ?_) ?_; clear_value x; revert x; intro _ _; rotate_left; unfold x; clear x; rotate_left)
    | (extract_lets -useContext +onlyGivenNames x; revert x; intro _)
    | with_reducible refine State.setArr_keeps (sub_of (by decide) hp) ?_
    | split
    | (clear_value *; split)
    | with_reducible refine keepsP_eq ?_ (by assumption)
    | with_reducible refine keepsO_eq ?_ (by assumption)
    | with_reducible refine keepsP_mk ?_

end Sys2Proof.Machine
end

