-- ==== Sys2Proof/Laws/FrameFatal.lean ====
section
/-!
SUPPORT. Frames: for each operation of Sys2Proof/Machine/Fatal.lean, the parts of State it may change, and that it keeps the stores'
canonical form.
-/
namespace Sys2Proof.Machine

open Sys2Proof

theorem latchFatal_keeps {ps z} {s : Sys2Proof.Machine.State} {cls : Nat} {b : Sys2Proof.Block} {i : Nat} (hp : [.regs, .life, .obs] ⊆ ps) (h0 : Keeps ps z s) :
    Keeps ps z (latchFatal s cls b i) := by
  unfold latchFatal
  repeat' first
    | with_reducible assumption
    | with_reducible exact keepsP_fst (by assumption)
    | (extract_lets -useContext +onlyGivenNames x; refine (fun (hx : Keeps ps z x) => ?_) ?_; clear_value x; revert x; intro _ _; rotate_left; unfold x; clear x; rotate_left)
    | (extract_lets -useContext +onlyGivenNames x; revert x; intro _)
    | with_reducible refine State.setField_keeps (sub_of (by decide) hp) ?_
    | with_reducible refine State.bump_keeps (sub_of (by decide) hp) ?_
    | with_reducible refine State.setReg_keeps (sub_of (by decide) hp) ?_
    | with_reducible refine keeps_foldl (fun t a ht => ?_) ?_
    | with_reducible refine keepsP_foldl (fun t a ht => ?_) ?_
    | split
    | (clear_value *; split)
    | with_reducible refine keeps_with_life (mem_of (by decide) hp) ?_
    | with_reducible refine keeps_with_obs (mem_of (by decide) hp) ?_
    | with_reducible refine keepsP_eq ?_ (by assumption)
    | with_reducible refine keepsO_eq ?_ (by assumption)
    | with_reducible refine keepsP_mk ?_

theorem fatalError_keeps {ps z} {s : Sys2Proof.Machine.State} {cls : Nat} {b : Sys2Proof.Block} {i : Nat} {e : Sys2Proof.Machine.Err} (hp : [.regs, .mem, .arr, .outbox, .life, .pins, .obs, .bridge] ⊆ ps) (h0 : Keeps ps z s) :
    Keeps ps z (fatalError s cls b i e) := by
  unfold fatalError
  repeat' first
    | with_reducible assumption
    | with_reducible exact keepsP_fst (by assumption)
    | (extract_lets -useContext +onlyGivenNames x; refine (fun (hx : Keeps ps z x) => ?_) ?_; clear_value x; revert x; intro _ _; rotate_left; unfold x; clear x; rotate_left)
    | (extract_lets -useContext +onlyGivenNames x; revert x; intro _)
    | with_reducible refine raiseVector_keeps (sub_of (by decide) hp) ?_
    | with_reducible refine capture_keeps (sub_of (by decide) hp) ?_
    | with_reducible refine latchFatal_keeps (sub_of (by decide) hp) ?_
    | with_reducible refine rampIfEmpty_keeps (sub_of (by decide) hp) ?_
    | with_reducible refine keeps_foldl (fun t a ht => ?_) ?_
    | with_reducible refine keepsP_foldl (fun t a ht => ?_) ?_
    | split
    | (clear_value *; split)
    | with_reducible refine keeps_with_pins_obs (mem_of (by decide) hp) (mem_of (by decide) hp) ?_
    | with_reducible refine keepsP_eq ?_ (by assumption)
    | with_reducible refine keepsO_eq ?_ (by assumption)
    | with_reducible refine keepsP_mk ?_

theorem haltDevice_keeps {ps z} {s : Sys2Proof.Machine.State} {reason : Nat} (hp : [.regs, .halted, .mgmt, .pins] ⊆ ps) (h0 : Keeps ps z s) :
    Keeps ps z (haltDevice s reason) := by
  unfold haltDevice
  repeat' first
    | with_reducible assumption
    | with_reducible exact keepsP_fst (by assumption)
    | (extract_lets -useContext +onlyGivenNames x; refine (fun (hx : Keeps ps z x) => ?_) ?_; clear_value x; revert x; intro _ _; rotate_left; unfold x; clear x; rotate_left)
    | (extract_lets -useContext +onlyGivenNames x; revert x; intro _)
    | with_reducible refine State.setReg_keeps (sub_of (by decide) hp) ?_
    | split
    | (clear_value *; split)
    | with_reducible refine keeps_with_halted_mgmt_pins (mem_of (by decide) hp) (mem_of (by decide) hp) (mem_of (by decide) hp) ?_
    | with_reducible refine keepsP_eq ?_ (by assumption)
    | with_reducible refine keepsO_eq ?_ (by assumption)
    | with_reducible refine keepsP_mk ?_

end Sys2Proof.Machine
end

