-- ==== Sys2Proof/Laws/FrameLifetime.lean ====
section
/-!
SUPPORT. Frames: for each operation of Sys2Proof/Machine/Lifetime.lean, the parts of State it may change, and that it keeps the stores'
canonical form.
-/
namespace Sys2Proof.Machine

open Sys2Proof

theorem loadLife_keeps {ps z} {s : Sys2Proof.Machine.State} (hp : [.regs, .life, .obs] ⊆ ps) (h0 : Keeps ps z s) :
    Keeps ps z (loadLife s) := by
  unfold loadLife
  repeat' first
    | with_reducible assumption
    | with_reducible exact keepsP_fst (by assumption)
    | (extract_lets -useContext +onlyGivenNames x; refine (fun (hx : Keeps ps z x) => ?_) ?_; clear_value x; revert x; intro _ _; rotate_left; unfold x; clear x; rotate_left)
    | (extract_lets -useContext +onlyGivenNames x; revert x; intro _)
    | with_reducible refine State.setField_keeps (sub_of (by decide) hp) ?_
    | with_reducible refine keeps_foldl (fun t a ht => ?_) ?_
    | with_reducible refine keepsP_foldl (fun t a ht => ?_) ?_
    | split
    | (clear_value *; split)
    | with_reducible refine keeps_with_life_obs (mem_of (by decide) hp) (mem_of (by decide) hp) ?_
    | with_reducible refine keepsP_eq ?_ (by assumption)
    | with_reducible refine keepsO_eq ?_ (by assumption)
    | with_reducible refine keepsO_getD ?_ ?_
    | with_reducible refine keepsP_mk ?_

theorem beginLog_keeps {ps z} {s : Sys2Proof.Machine.State} {shutdown : Bool} {later : Bool} (hp : [.regs, .life, .obs] ⊆ ps) (h0 : Keeps ps z s) :
    Keeps ps z (beginLog s shutdown later) := by
  unfold beginLog
  repeat' first
    | with_reducible assumption
    | with_reducible exact keepsP_fst (by assumption)
    | (extract_lets -useContext +onlyGivenNames x; refine (fun (hx : Keeps ps z x) => ?_) ?_; clear_value x; revert x; intro _ _; rotate_left; unfold x; clear x; rotate_left)
    | (extract_lets -useContext +onlyGivenNames x; revert x; intro _)
    | with_reducible refine State.setField_keeps (sub_of (by decide) hp) ?_
    | with_reducible refine loadLife_keeps (sub_of (by decide) hp) ?_
    | split
    | (clear_value *; split)
    | with_reducible refine keeps_with_obs (mem_of (by decide) hp) ?_
    | with_reducible refine keepsP_eq ?_ (by assumption)
    | with_reducible refine keepsO_eq ?_ (by assumption)
    | with_reducible refine keepsP_mk ?_

theorem writeLogCtrl_keeps {ps z} {s : Sys2Proof.Machine.State} {v : Nat} (hp : [.regs, .life, .obs] ⊆ ps) (h0 : Keeps ps z s) :
    Keeps ps z (writeLogCtrl s v) := by
  unfold writeLogCtrl
  repeat' first
    | with_reducible assumption
    | with_reducible exact keepsP_fst (by assumption)
    | (extract_lets -useContext +onlyGivenNames x; refine (fun (hx : Keeps ps z x) => ?_) ?_; clear_value x; revert x; intro _ _; rotate_left; unfold x; clear x; rotate_left)
    | (extract_lets -useContext +onlyGivenNames x; revert x; intro _)
    | with_reducible refine beginLog_keeps (sub_of (by decide) hp) ?_
    | with_reducible refine State.setField_keeps (sub_of (by decide) hp) ?_
    | split
    | (clear_value *; split)
    | with_reducible refine keepsP_eq ?_ (by assumption)
    | with_reducible refine keepsO_eq ?_ (by assumption)
    | with_reducible refine keepsP_mk ?_

theorem putLog_keeps {ps z} {s : State} (hp : [.flash] ⊆ ps) (h0 : Keeps ps z s) : Keeps ps z (putLog s) :=
  keeps_with_flash (hp (by simp)) (fun w => tabWf_fill 0 _ _ _ (tabWf_ite (tabWf_erase 0 _ _ w.flash) w.flash)) h0

theorem execLogWriteDone_keeps {ps z} {s : Sys2Proof.Machine.State} (hp : [.regs, .life, .obs, .flash] ⊆ ps) (h0 : Keeps ps z s) :
    KeepsR ps z (execLogWriteDone s) := by
  unfold execLogWriteDone
  repeat' first
    | with_reducible assumption
    | with_reducible exact keepsP_fst (by assumption)
    | (extract_lets -useContext +onlyGivenNames x; refine (fun (hx : Keeps ps z x) => ?_) ?_; clear_value x; revert x; intro _ _; rotate_left; unfold x; clear x; rotate_left)
    | (extract_lets -useContext +onlyGivenNames x; revert x; intro _)
    | with_reducible refine keepsR_next ?_
    | with_reducible exact keepsR_fault
    | with_reducible refine beginLog_keeps (sub_of (by decide) hp) ?_
    | with_reducible refine State.setReg_keeps (sub_of (by decide) hp) ?_
    | with_reducible refine State.setField_keeps (sub_of (by decide) hp) ?_
    | with_reducible refine putLog_keeps (sub_of (by decide) hp) ?_
    | split
    | (clear_value *; split)
    | with_reducible refine keeps_with_life (mem_of (by decide) hp) ?_
    | with_reducible refine keeps_with_obs (mem_of (by decide) hp) ?_
    | with_reducible refine keepsP_eq ?_ (by assumption)
    | with_reducible refine keepsO_eq ?_ (by assumption)
    | (intro hw; repeat' first | with_reducible exact storeWf_empty | with_reducible refine storeWf_write ?_ | with_reducible refine storeWf_put ?_ | with_reducible refine epilogueAll_wf ?_ | with_reducible refine spillAll_wf ?_ | with_reducible refine spillRows_wf ?_ | with_reducible refine epilogueRows_wf ?_ | with_reducible refine spillFrom_wf ?_ | with_reducible refine vecRowsFrom_wf ?_ | with_reducible refine vecAll_wf ?_ | with_reducible refine storeWf_scrub ?_ | with_reducible refine storeWf_poison ?_ | with_reducible refine storeWf_fold (fun _ _ hu => ?_) ?_ | with_reducible assumption | split | with_reducible exact (Keeps.tidy (by assumption) hw).als _ | with_reducible exact (Keeps.tidy (by assumption) hw).dss _ | with_reducible refine (Keeps.tidy (ps := ps) ?_ hw).als _ | with_reducible refine (Keeps.tidy (ps := ps) ?_ hw).dss _)
    | with_reducible refine keepsP_mk ?_

theorem execLogFlush_keeps {ps z} {p : Sys2Proof.Path} {v : Sys2Proof.W32} {s : Sys2Proof.Machine.State} (hp : [.regs, .mem, .outbox, .life, .obs, .bridge] ⊆ ps) (h2 : Keeps ps z s) :
    KeepsR ps z (execLogFlush p v s) := by
  unfold execLogFlush
  repeat' first
    | with_reducible assumption
    | with_reducible exact keepsP_fst (by assumption)
    | (extract_lets -useContext +onlyGivenNames x; refine (fun (hx : Keeps ps z x) => ?_) ?_; clear_value x; revert x; intro _ _; rotate_left; unfold x; clear x; rotate_left)
    | (extract_lets -useContext +onlyGivenNames x; revert x; intro _)
    | with_reducible refine keepsR_next ?_
    | with_reducible exact keepsR_fault
    | with_reducible refine writeLogCtrl_keeps (sub_of (by decide) hp) ?_
    | with_reducible refine logIgnored_keeps (sub_of (by decide) hp) ?_
    | split
    | (clear_value *; split)
    | with_reducible refine keepsP_eq ?_ (by assumption)
    | with_reducible refine keepsO_eq ?_ (by assumption)
    | with_reducible refine keepsP_mk ?_

theorem execLogPeriodicWrite_keeps {ps z} {s : Sys2Proof.Machine.State} (hp : [.regs, .life, .obs] ⊆ ps) (h0 : Keeps ps z s) :
    KeepsR ps z (execLogPeriodicWrite s) := by
  unfold execLogPeriodicWrite
  repeat' first
    | with_reducible assumption
    | with_reducible exact keepsP_fst (by assumption)
    | (extract_lets -useContext +onlyGivenNames x; refine (fun (hx : Keeps ps z x) => ?_) ?_; clear_value x; revert x; intro _ _; rotate_left; unfold x; clear x; rotate_left)
    | (extract_lets -useContext +onlyGivenNames x; revert x; intro _)
    | with_reducible refine keepsR_next ?_
    | with_reducible exact keepsR_fault
    | with_reducible refine beginLog_keeps (sub_of (by decide) hp) ?_
    | split
    | (clear_value *; split)
    | with_reducible refine keeps_with_obs (mem_of (by decide) hp) ?_
    | with_reducible refine keepsP_eq ?_ (by assumption)
    | with_reducible refine keepsO_eq ?_ (by assumption)
    | with_reducible refine keepsP_mk ?_

theorem execLifetimeSecondTick_keeps {ps z} {temps : List Nat} {watts : Nat} {s : Sys2Proof.Machine.State} (hp : [.life, .obs] ⊆ ps) (h2 : Keeps ps z s) :
    KeepsR ps z (execLifetimeSecondTick temps watts s) := by
  unfold execLifetimeSecondTick
  repeat' first
    | with_reducible assumption
    | with_reducible exact keepsP_fst (by assumption)
    | (extract_lets -useContext +onlyGivenNames x; refine (fun (hx : Keeps ps z x) => ?_) ?_; clear_value x; revert x; intro _ _; rotate_left; unfold x; clear x; rotate_left)
    | (extract_lets -useContext +onlyGivenNames x; revert x; intro _)
    | with_reducible refine keepsR_next ?_
    | with_reducible exact keepsR_fault
    | with_reducible refine keeps_foldl (fun t a ht => ?_) ?_
    | with_reducible refine keepsP_foldl (fun t a ht => ?_) ?_
    | split
    | (clear_value *; split)
    | with_reducible refine keeps_with_life_obs (mem_of (by decide) hp) (mem_of (by decide) hp) ?_
    | with_reducible refine keepsP_eq ?_ (by assumption)
    | with_reducible refine keepsO_eq ?_ (by assumption)
    | with_reducible refine keepsP_mk ?_

theorem noteMargin_keeps {ps z} {s : Sys2Proof.Machine.State} {n : Nat} {mv : Nat} (hp : [.regs, .isl, .life, .obs] ⊆ ps) (h0 : Keeps ps z s) :
    Keeps ps z (noteMargin s n mv) := by
  unfold noteMargin
  repeat' first
    | with_reducible assumption
    | with_reducible exact keepsP_fst (by assumption)
    | (extract_lets -useContext +onlyGivenNames x; refine (fun (hx : Keeps ps z x) => ?_) ?_; clear_value x; revert x; intro _ _; rotate_left; unfold x; clear x; rotate_left)
    | (extract_lets -useContext +onlyGivenNames x; revert x; intro _)
    | with_reducible refine retune_keeps (sub_of (by decide) hp) ?_
    | with_reducible refine State.setField_keeps (sub_of (by decide) hp) ?_
    | split
    | (clear_value *; split)
    | with_reducible refine keeps_with_life_obs (mem_of (by decide) hp) (mem_of (by decide) hp) ?_
    | with_reducible refine keepsP_eq ?_ (by assumption)
    | with_reducible refine keepsO_eq ?_ (by assumption)
    | with_reducible refine keepsP_mk ?_

theorem execMarginMeasure_keeps {ps z} {n : Sys2Proof.ArrayId} {mv : Nat} {s : Sys2Proof.Machine.State} (hp : [.regs, .isl, .life, .obs] ⊆ ps) (h2 : Keeps ps z s) :
    KeepsR ps z (execMarginMeasure n mv s) := by
  unfold execMarginMeasure
  repeat' first
    | with_reducible assumption
    | with_reducible exact keepsP_fst (by assumption)
    | (extract_lets -useContext +onlyGivenNames x; refine (fun (hx : Keeps ps z x) => ?_) ?_; clear_value x; revert x; intro _ _; rotate_left; unfold x; clear x; rotate_left)
    | (extract_lets -useContext +onlyGivenNames x; revert x; intro _)
    | with_reducible refine keepsR_next ?_
    | with_reducible exact keepsR_fault
    | with_reducible refine noteMargin_keeps (sub_of (by decide) hp) ?_
    | split
    | (clear_value *; split)
    | with_reducible refine keepsP_eq ?_ (by assumption)
    | with_reducible refine keepsO_eq ?_ (by assumption)
    | with_reducible refine keepsP_mk ?_

end Sys2Proof.Machine
end

