-- ==== Sys2Proof/Laws/FrameHostMem.lean ====
section
/-!
SUPPORT. Frames: for each operation of Sys2Proof/Machine/HostMem.lean, the parts of State it may change, and that it keeps the stores'
canonical form.
-/
namespace Sys2Proof.Machine

open Sys2Proof

theorem setBoot_keeps {ps z} {s : Sys2Proof.Machine.State} {st : Nat} {reason : Nat} (hp : [.regs] ⊆ ps) (h0 : Keeps ps z s) :
    Keeps ps z (setBoot s st reason) := by
  unfold setBoot
  repeat' first
    | with_reducible assumption
    | with_reducible exact keepsP_fst (by assumption)
    | (extract_lets -useContext +onlyGivenNames x; refine (fun (hx : Keeps ps z x) => ?_) ?_; clear_value x; revert x; intro _ _; rotate_left; unfold x; clear x; rotate_left)
    | (extract_lets -useContext +onlyGivenNames x; revert x; intro _)
    | with_reducible refine State.setField_keeps (sub_of (by decide) hp) ?_
    | split
    | (clear_value *; split)
    | with_reducible refine keepsP_eq ?_ (by assumption)
    | with_reducible refine keepsO_eq ?_ (by assumption)
    | with_reducible refine keepsP_mk ?_

theorem setBxlBoot_keeps {ps z} {s : Sys2Proof.Machine.State} {st : Nat} {reason : Nat} (hp : [.regs] ⊆ ps) (h0 : Keeps ps z s) :
    Keeps ps z (setBxlBoot s st reason) := by
  unfold setBxlBoot
  repeat' first
    | with_reducible assumption
    | with_reducible exact keepsP_fst (by assumption)
    | (extract_lets -useContext +onlyGivenNames x; refine (fun (hx : Keeps ps z x) => ?_) ?_; clear_value x; revert x; intro _ _; rotate_left; unfold x; clear x; rotate_left)
    | (extract_lets -useContext +onlyGivenNames x; revert x; intro _)
    | with_reducible refine State.setReg_keeps (sub_of (by decide) hp) ?_
    | split
    | (clear_value *; split)
    | with_reducible refine keepsP_eq ?_ (by assumption)
    | with_reducible refine keepsO_eq ?_ (by assumption)
    | with_reducible refine keepsP_mk ?_

theorem failLoad_keeps {ps z} {s : Sys2Proof.Machine.State} {code : Nat} (hp : [.regs] ⊆ ps) (h0 : Keeps ps z s) :
    Keeps ps z (failLoad s code) := by
  unfold failLoad
  repeat' first
    | with_reducible assumption
    | with_reducible exact keepsP_fst (by assumption)
    | (extract_lets -useContext +onlyGivenNames x; refine (fun (hx : Keeps ps z x) => ?_) ?_; clear_value x; revert x; intro _ _; rotate_left; unfold x; clear x; rotate_left)
    | (extract_lets -useContext +onlyGivenNames x; revert x; intro _)
    | with_reducible refine setBoot_keeps (sub_of (by decide) hp) ?_
    | with_reducible refine setBxlBoot_keeps (sub_of (by decide) hp) ?_
    | split
    | (clear_value *; split)
    | with_reducible refine keepsP_eq ?_ (by assumption)
    | with_reducible refine keepsO_eq ?_ (by assumption)
    | with_reducible refine keepsP_mk ?_

theorem bxlFault_keeps {ps z} {s : Sys2Proof.Machine.State} {e : Sys2Proof.Machine.Err} (hp : [.regs, .mem, .outbox, .bridge] ⊆ ps) (h0 : Keeps ps z s) :
    Keeps ps z (bxlFault s e) := by
  unfold bxlFault
  repeat' first
    | with_reducible assumption
    | with_reducible exact keepsP_fst (by assumption)
    | (extract_lets -useContext +onlyGivenNames x; refine (fun (hx : Keeps ps z x) => ?_) ?_; clear_value x; revert x; intro _ _; rotate_left; unfold x; clear x; rotate_left)
    | (extract_lets -useContext +onlyGivenNames x; revert x; intro _)
    | with_reducible refine capture_keeps (sub_of (by decide) hp) ?_
    | with_reducible refine failLoad_keeps (sub_of (by decide) hp) ?_
    | split
    | (clear_value *; split)
    | with_reducible refine keepsP_eq ?_ (by assumption)
    | with_reducible refine keepsO_eq ?_ (by assumption)
    | with_reducible refine keepsP_mk ?_

theorem bxlError_keeps {ps z} {s : Sys2Proof.Machine.State} {code : Nat} {sev : Nat} {counter : Nat} {addr : Nat} (hp : [.regs, .mem, .outbox, .bridge] ⊆ ps) (h0 : Keeps ps z s) :
    Keeps ps z (bxlError s code sev counter addr) := by
  unfold bxlError
  repeat' first
    | with_reducible assumption
    | with_reducible exact keepsP_fst (by assumption)
    | (extract_lets -useContext +onlyGivenNames x; refine (fun (hx : Keeps ps z x) => ?_) ?_; clear_value x; revert x; intro _ _; rotate_left; unfold x; clear x; rotate_left)
    | (extract_lets -useContext +onlyGivenNames x; revert x; intro _)
    | with_reducible refine State.bump_keeps (sub_of (by decide) hp) ?_
    | with_reducible refine bxlFault_keeps (sub_of (by decide) hp) ?_
    | split
    | (clear_value *; split)
    | with_reducible refine keepsP_eq ?_ (by assumption)
    | with_reducible refine keepsO_eq ?_ (by assumption)
    | with_reducible refine keepsP_mk ?_

theorem malformed_keeps {ps z} {s : Sys2Proof.Machine.State} {addr : Nat} (hp : [.regs, .mem, .outbox, .bridge] ⊆ ps) (h0 : Keeps ps z s) :
    Keeps ps z (malformed s addr) := by
  unfold malformed
  repeat' first
    | with_reducible assumption
    | with_reducible exact keepsP_fst (by assumption)
    | (extract_lets -useContext +onlyGivenNames x; refine (fun (hx : Keeps ps z x) => ?_) ?_; clear_value x; revert x; intro _ _; rotate_left; unfold x; clear x; rotate_left)
    | (extract_lets -useContext +onlyGivenNames x; revert x; intro _)
    | with_reducible refine bxlError_keeps (sub_of (by decide) hp) ?_
    | split
    | (clear_value *; split)
    | with_reducible refine keepsP_eq ?_ (by assumption)
    | with_reducible refine keepsO_eq ?_ (by assumption)
    | with_reducible refine keepsP_mk ?_

theorem mmioReply_keeps {ps z} {s : Sys2Proof.Machine.State} {tag : Nat} {addr : Nat} {status : Nat} {poison : Bool} {data : List Sys2Proof.Byte} (hp : [.outbox] ⊆ ps) (h0 : Keeps ps z s) :
    Keeps ps z (mmioReply s tag addr status poison data) := by
  unfold mmioReply
  repeat' first
    | with_reducible assumption
    | with_reducible exact keepsP_fst (by assumption)
    | (extract_lets -useContext +onlyGivenNames x; refine (fun (hx : Keeps ps z x) => ?_) ?_; clear_value x; revert x; intro _ _; rotate_left; unfold x; clear x; rotate_left)
    | (extract_lets -useContext +onlyGivenNames x; revert x; intro _)
    | with_reducible refine State.send_keeps (sub_of (by decide) hp) ?_
    | split
    | (clear_value *; split)
    | with_reducible refine keepsP_eq ?_ (by assumption)
    | with_reducible refine keepsO_eq ?_ (by assumption)
    | with_reducible refine keepsP_mk ?_

theorem sendReq_keeps {ps z} {s : Sys2Proof.Machine.State} {r : Sys2Proof.Machine.Req} {data : List Sys2Proof.Byte} {poison : optParam Bool false} (hp : [.outbox, .bxl] ⊆ ps) (h0 : Keeps ps z s) :
    Keeps ps z (sendReq s r data poison) := by
  unfold sendReq
  repeat' first
    | with_reducible assumption
    | with_reducible exact keepsP_fst (by assumption)
    | (extract_lets -useContext +onlyGivenNames x; refine (fun (hx : Keeps ps z x) => ?_) ?_; clear_value x; revert x; intro _ _; rotate_left; unfold x; clear x; rotate_left)
    | (extract_lets -useContext +onlyGivenNames x; revert x; intro _)
    | with_reducible refine State.send_keeps (sub_of (by decide) hp) ?_
    | split
    | (clear_value *; split)
    | with_reducible refine keeps_with_bxl (mem_of (by decide) hp) ?_
    | with_reducible refine keepsP_eq ?_ (by assumption)
    | with_reducible refine keepsO_eq ?_ (by assumption)
    | with_reducible refine keepsP_mk ?_

theorem takeAnswers_keeps {ps z} {s : Sys2Proof.Machine.State} {agent : Nat} (hp : [.bxl] ⊆ ps) (h0 : Keeps ps z s) :
    Keeps ps z (takeAnswers s agent) := by
  unfold takeAnswers
  repeat' first
    | with_reducible assumption
    | with_reducible exact keepsP_fst (by assumption)
    | (extract_lets -useContext +onlyGivenNames x; refine (fun (hx : Keeps ps z x) => ?_) ?_; clear_value x; revert x; intro _ _; rotate_left; unfold x; clear x; rotate_left)
    | (extract_lets -useContext +onlyGivenNames x; revert x; intro _)
    | split
    | (clear_value *; split)
    | with_reducible refine keeps_with_bxl (mem_of (by decide) hp) ?_
    | with_reducible refine keepsP_eq ?_ (by assumption)
    | with_reducible refine keepsO_eq ?_ (by assumption)
    | with_reducible refine keepsP_mk ?_

theorem dropAgent_keeps {ps z} {s : Sys2Proof.Machine.State} {agent : Nat} (hp : [.bxl] ⊆ ps) (h0 : Keeps ps z s) :
    Keeps ps z (dropAgent s agent) := by
  unfold dropAgent
  repeat' first
    | with_reducible assumption
    | with_reducible exact keepsP_fst (by assumption)
    | (extract_lets -useContext +onlyGivenNames x; refine (fun (hx : Keeps ps z x) => ?_) ?_; clear_value x; revert x; intro _ _; rotate_left; unfold x; clear x; rotate_left)
    | (extract_lets -useContext +onlyGivenNames x; revert x; intro _)
    | with_reducible refine takeAnswers_keeps (sub_of (by decide) hp) ?_
    | split
    | (clear_value *; split)
    | with_reducible refine keeps_with_bxl (mem_of (by decide) hp) ?_
    | with_reducible refine keepsP_eq ?_ (by assumption)
    | with_reducible refine keepsO_eq ?_ (by assumption)
    | with_reducible refine keepsP_mk ?_

theorem refuseAgent_keeps {ps z} {s : Sys2Proof.Machine.State} {agent : Nat} (hp : [.bxl] ⊆ ps) (h0 : Keeps ps z s) :
    Keeps ps z (refuseAgent s agent) := by
  unfold refuseAgent
  repeat' first
    | with_reducible assumption
    | with_reducible exact keepsP_fst (by assumption)
    | (extract_lets -useContext +onlyGivenNames x; refine (fun (hx : Keeps ps z x) => ?_) ?_; clear_value x; revert x; intro _ _; rotate_left; unfold x; clear x; rotate_left)
    | (extract_lets -useContext +onlyGivenNames x; revert x; intro _)
    | with_reducible refine dropAgent_keeps (sub_of (by decide) hp) ?_
    | split
    | (clear_value *; split)
    | with_reducible refine keeps_with_bxl (mem_of (by decide) hp) ?_
    | with_reducible refine keepsP_eq ?_ (by assumption)
    | with_reducible refine keepsO_eq ?_ (by assumption)
    | with_reducible refine keepsP_mk ?_

theorem latchXlate_keeps {ps z} {s : Sys2Proof.Machine.State} {code : Nat} {req : Nat} {c : Nat} {io : Nat} {write : Bool} (hp : [.regs, .mem, .outbox, .bridge] ⊆ ps) (h0 : Keeps ps z s) :
    Keeps ps z (latchXlate s code req c io write) := by
  unfold latchXlate
  repeat' first
    | with_reducible assumption
    | with_reducible exact keepsP_fst (by assumption)
    | (extract_lets -useContext +onlyGivenNames x; refine (fun (hx : Keeps ps z x) => ?_) ?_; clear_value x; revert x; intro _ _; rotate_left; unfold x; clear x; rotate_left)
    | (extract_lets -useContext +onlyGivenNames x; revert x; intro _)
    | with_reducible refine State.setReg_keeps (sub_of (by decide) hp) ?_
    | with_reducible refine bxlFault_keeps (sub_of (by decide) hp) ?_
    | split
    | (clear_value *; split)
    | with_reducible refine keepsP_eq ?_ (by assumption)
    | with_reducible refine keepsO_eq ?_ (by assumption)
    | with_reducible refine keepsP_mk ?_

theorem hostXlate_keeps {ps z} {s : Sys2Proof.Machine.State} {agent : Nat} {req : Nat} {c : Nat} {io : Nat} {write : Bool} (hp : [.regs, .mem, .outbox, .bxl, .bridge] ⊆ ps) (h0 : Keeps ps z s) :
    KeepsP ps z (hostXlate s agent req c io write) := by
  unfold hostXlate
  repeat' first
    | with_reducible assumption
    | with_reducible exact keepsP_fst (by assumption)
    | (extract_lets -useContext +onlyGivenNames x; refine (fun (hx : Keeps ps z x) => ?_) ?_; clear_value x; revert x; intro _ _; rotate_left; unfold x; clear x; rotate_left)
    | (extract_lets -useContext +onlyGivenNames x; revert x; intro _)
    | with_reducible refine sendReq_keeps (sub_of (by decide) hp) ?_
    | with_reducible refine latchXlate_keeps (sub_of (by decide) hp) ?_
    | split
    | (clear_value *; split)
    | with_reducible refine keepsP_eq ?_ (by assumption)
    | with_reducible refine keepsO_eq ?_ (by assumption)
    | with_reducible refine keepsP_mk ?_

theorem unlistLine_keeps {ps z} {s : Sys2Proof.Machine.State} {l : Nat} {v : Sys2Proof.Machine.HostLine} (hp : [.bxl] ⊆ ps) (h0 : Keeps ps z s) :
    Keeps ps z (unlistLine s l v) := by
  unfold unlistLine
  repeat' first
    | with_reducible assumption
    | with_reducible exact keepsP_fst (by assumption)
    | (extract_lets -useContext +onlyGivenNames x; refine (fun (hx : Keeps ps z x) => ?_) ?_; clear_value x; revert x; intro _ _; rotate_left; unfold x; clear x; rotate_left)
    | (extract_lets -useContext +onlyGivenNames x; revert x; intro _)
    | split
    | (clear_value *; split)
    | with_reducible refine keeps_with_bxl (mem_of (by decide) hp) ?_
    | with_reducible refine keepsP_eq ?_ (by assumption)
    | with_reducible refine keepsO_eq ?_ (by assumption)
    | with_reducible refine keepsP_mk ?_

theorem evictLine_keeps {ps z} {s : Sys2Proof.Machine.State} {l : Nat} (hp : [.outbox, .bxl] ⊆ ps) (h0 : Keeps ps z s) :
    Keeps ps z (evictLine s l) := by
  unfold evictLine
  repeat' first
    | with_reducible assumption
    | with_reducible exact keepsP_fst (by assumption)
    | (extract_lets -useContext +onlyGivenNames x; refine (fun (hx : Keeps ps z x) => ?_) ?_; clear_value x; revert x; intro _ _; rotate_left; unfold x; clear x; rotate_left)
    | (extract_lets -useContext +onlyGivenNames x; revert x; intro _)
    | with_reducible refine sendReq_keeps (sub_of (by decide) hp) ?_
    | with_reducible refine unlistLine_keeps (sub_of (by decide) hp) ?_
    | split
    | (clear_value *; split)
    | with_reducible refine keepsP_eq ?_ (by assumption)
    | with_reducible refine keepsO_eq ?_ (by assumption)
    | with_reducible refine keepsP_mk ?_

theorem clearLines_keeps {ps z} {s : Sys2Proof.Machine.State} {pa : Nat} {len : Nat} (hp : [.outbox, .bxl] ⊆ ps) (h0 : Keeps ps z s) :
    KeepsP ps z (clearLines s pa len) := by
  unfold clearLines
  repeat' first
    | with_reducible assumption
    | with_reducible exact keepsP_fst (by assumption)
    | (extract_lets -useContext +onlyGivenNames x; refine (fun (hx : Keeps ps z x) => ?_) ?_; clear_value x; revert x; intro _ _; rotate_left; unfold x; clear x; rotate_left)
    | (extract_lets -useContext +onlyGivenNames x; revert x; intro _)
    | with_reducible refine evictLine_keeps (sub_of (by decide) hp) ?_
    | with_reducible refine keeps_foldl (fun t a ht => ?_) ?_
    | with_reducible refine keepsP_foldl (fun t a ht => ?_) ?_
    | split
    | (clear_value *; split)
    | with_reducible refine keepsP_eq ?_ (by assumption)
    | with_reducible refine keepsO_eq ?_ (by assumption)
    | with_reducible refine keepsP_mk ?_

theorem hostWords_keeps {ps z} {s : Sys2Proof.Machine.State} {agent : Nat} {mtype : Nat} {pa : Nat} {size : Nat} {data : List Sys2Proof.Byte} {poison : Bool} (hp : [.outbox, .bxl] ⊆ ps) (h0 : Keeps ps z s) :
    KeepsP ps z (hostWords s agent mtype pa size data poison) := by
  unfold hostWords
  repeat' first
    | with_reducible assumption
    | with_reducible exact keepsP_fst (by assumption)
    | (extract_lets -useContext +onlyGivenNames x; refine (fun (hx : Keeps ps z x) => ?_) ?_; clear_value x; revert x; intro _ _; rotate_left; unfold x; clear x; rotate_left)
    | (extract_lets -useContext +onlyGivenNames x; refine (fun (hx : KeepsP ps z x) => ?_) ?_; clear_value x; revert x; intro _ _; rotate_left; unfold x; clear x; rotate_left)
    | (extract_lets -useContext +onlyGivenNames x; revert x; intro _)
    | with_reducible refine clearLines_keeps (sub_of (by decide) hp) ?_
    | with_reducible refine keepsP_fst (clearLines_keeps (sub_of (by decide) hp) ?_)
    | with_reducible refine keepsP_eq (clearLines_keeps (sub_of (by decide) hp) ?_) (by assumption)
    | with_reducible refine sendReq_keeps (sub_of (by decide) hp) ?_
    | split
    | (clear_value *; split)
    | with_reducible refine keepsP_eq ?_ (by assumption)
    | with_reducible refine keepsO_eq ?_ (by assumption)
    | with_reducible refine keepsP_mk ?_

theorem hostPhys_keeps {ps z} {s : Sys2Proof.Machine.State} {agent : Nat} {mtype : Nat} {pa : Nat} {size : Nat} {data : List Sys2Proof.Byte} {poison : optParam Bool false} (hp : [.outbox, .bxl] ⊆ ps) (h0 : Keeps ps z s) :
    KeepsP ps z (hostPhys s agent mtype pa size data poison) := by
  unfold hostPhys
  repeat' first
    | with_reducible assumption
    | with_reducible exact keepsP_fst (by assumption)
    | (extract_lets -useContext +onlyGivenNames x; refine (fun (hx : Keeps ps z x) => ?_) ?_; clear_value x; revert x; intro _ _; rotate_left; unfold x; clear x; rotate_left)
    | (extract_lets -useContext +onlyGivenNames x; refine (fun (hx : KeepsP ps z x) => ?_) ?_; clear_value x; revert x; intro _ _; rotate_left; unfold x; clear x; rotate_left)
    | (extract_lets -useContext +onlyGivenNames x; have _hx : ∀ a, x a = x a := fun _ => rfl; clear _hx; unfold x; clear x)
    | (extract_lets -useContext +onlyGivenNames x; revert x; intro _)
    | with_reducible refine hostWords_keeps (sub_of (by decide) hp) ?_
    | with_reducible refine keepsP_fst (hostWords_keeps (sub_of (by decide) hp) ?_)
    | with_reducible refine keepsP_eq (hostWords_keeps (sub_of (by decide) hp) ?_) (by assumption)
    | split
    | (clear_value *; split)
    | with_reducible refine keepsP_eq ?_ (by assumption)
    | with_reducible refine keepsO_eq ?_ (by assumption)
    | with_reducible refine keepsP_mk ?_

theorem hostAccess_keeps {ps z} {s : Sys2Proof.Machine.State} {agent : Nat} {req : Nat} {c : Nat} {mtype : Nat} {io : Nat} {size : Nat} {write : Bool} {data : List Sys2Proof.Byte} {poison : optParam Bool false} (hp : [.regs, .mem, .outbox, .bxl, .bridge] ⊆ ps) (h0 : Keeps ps z s) :
    KeepsP ps z (hostAccess s agent req c mtype io size write data poison) := by
  unfold hostAccess
  repeat' first
    | with_reducible assumption
    | with_reducible exact keepsP_fst (by assumption)
    | (extract_lets -useContext +onlyGivenNames x; refine (fun (hx : Keeps ps z x) => ?_) ?_; clear_value x; revert x; intro _ _; rotate_left; unfold x; clear x; rotate_left)
    | (extract_lets -useContext +onlyGivenNames x; refine (fun (hx : KeepsP ps z x) => ?_) ?_; clear_value x; revert x; intro _ _; rotate_left; unfold x; clear x; rotate_left)
    | (extract_lets -useContext +onlyGivenNames x; revert x; intro _)
    | with_reducible refine hostPhys_keeps (sub_of (by decide) hp) ?_
    | with_reducible refine keepsP_fst (hostPhys_keeps (sub_of (by decide) hp) ?_)
    | with_reducible refine keepsP_eq (hostPhys_keeps (sub_of (by decide) hp) ?_) (by assumption)
    | with_reducible refine hostXlate_keeps (sub_of (by decide) hp) ?_
    | with_reducible refine keepsP_fst (hostXlate_keeps (sub_of (by decide) hp) ?_)
    | with_reducible refine keepsP_eq (hostXlate_keeps (sub_of (by decide) hp) ?_) (by assumption)
    | split
    | (clear_value *; split)
    | with_reducible refine keepsP_eq ?_ (by assumption)
    | with_reducible refine keepsO_eq ?_ (by assumption)
    | with_reducible refine keepsP_mk ?_

theorem touchLine_keeps {ps z} {s : Sys2Proof.Machine.State} {l : Nat} (hp : [.bxl] ⊆ ps) (h0 : Keeps ps z s) :
    Keeps ps z (touchLine s l) := by
  unfold touchLine
  repeat' first
    | with_reducible assumption
    | with_reducible exact keepsP_fst (by assumption)
    | (extract_lets -useContext +onlyGivenNames x; refine (fun (hx : Keeps ps z x) => ?_) ?_; clear_value x; revert x; intro _ _; rotate_left; unfold x; clear x; rotate_left)
    | (extract_lets -useContext +onlyGivenNames x; revert x; intro _)
    | split
    | (clear_value *; split)
    | with_reducible refine keeps_with_bxl (mem_of (by decide) hp) ?_
    | with_reducible refine keepsP_eq ?_ (by assumption)
    | with_reducible refine keepsO_eq ?_ (by assumption)
    | with_reducible refine keepsP_mk ?_

theorem makeRoom_keeps {ps z} {s : Sys2Proof.Machine.State} {l : Nat} (hp : [.outbox, .bxl] ⊆ ps) (h0 : Keeps ps z s) :
    KeepsP ps z (makeRoom s l) := by
  unfold makeRoom
  repeat' first
    | with_reducible assumption
    | with_reducible exact keepsP_fst (by assumption)
    | (extract_lets -useContext +onlyGivenNames x; refine (fun (hx : Keeps ps z x) => ?_) ?_; clear_value x; revert x; intro _ _; rotate_left; unfold x; clear x; rotate_left)
    | (extract_lets -useContext +onlyGivenNames x; revert x; intro _)
    | with_reducible refine evictLine_keeps (sub_of (by decide) hp) ?_
    | split
    | (clear_value *; split)
    | with_reducible refine keepsP_eq ?_ (by assumption)
    | with_reducible refine keepsO_eq ?_ (by assumption)
    | with_reducible refine keepsP_mk ?_

theorem askLine_keeps {ps z} {s : Sys2Proof.Machine.State} {agent : Nat} {mtype : Nat} {l : Nat} (hp : [.outbox, .bxl] ⊆ ps) (h0 : Keeps ps z s) :
    Keeps ps z (askLine s agent mtype l) := by
  unfold askLine
  repeat' first
    | with_reducible assumption
    | with_reducible exact keepsP_fst (by assumption)
    | (extract_lets -useContext +onlyGivenNames x; refine (fun (hx : Keeps ps z x) => ?_) ?_; clear_value x; revert x; intro _ _; rotate_left; unfold x; clear x; rotate_left)
    | (extract_lets -useContext +onlyGivenNames x; refine (fun (hx : KeepsP ps z x) => ?_) ?_; clear_value x; revert x; intro _ _; rotate_left; unfold x; clear x; rotate_left)
    | (extract_lets -useContext +onlyGivenNames x; revert x; intro _)
    | with_reducible refine makeRoom_keeps (sub_of (by decide) hp) ?_
    | with_reducible refine keepsP_fst (makeRoom_keeps (sub_of (by decide) hp) ?_)
    | with_reducible refine keepsP_eq (makeRoom_keeps (sub_of (by decide) hp) ?_) (by assumption)
    | with_reducible refine sendReq_keeps (sub_of (by decide) hp) ?_
    | split
    | (clear_value *; split)
    | with_reducible refine keepsP_eq ?_ (by assumption)
    | with_reducible refine keepsO_eq ?_ (by assumption)
    | with_reducible refine keepsP_mk ?_

theorem cacheRead_keeps {ps z} {s : Sys2Proof.Machine.State} {agent : Nat} {req : Nat} {c : Nat} {io : Nat} (hp : [.regs, .mem, .outbox, .bxl, .bridge] ⊆ ps) (h0 : Keeps ps z s) :
    KeepsP ps z (cacheRead s agent req c io) := by
  unfold cacheRead
  repeat' first
    | with_reducible assumption
    | with_reducible exact keepsP_fst (by assumption)
    | (extract_lets -useContext +onlyGivenNames x; refine (fun (hx : Keeps ps z x) => ?_) ?_; clear_value x; revert x; intro _ _; rotate_left; unfold x; clear x; rotate_left)
    | (extract_lets -useContext +onlyGivenNames x; refine (fun (hx : KeepsP ps z x) => ?_) ?_; clear_value x; revert x; intro _ _; rotate_left; unfold x; clear x; rotate_left)
    | (extract_lets -useContext +onlyGivenNames x; revert x; intro _)
    | with_reducible refine touchLine_keeps (sub_of (by decide) hp) ?_
    | with_reducible refine hostXlate_keeps (sub_of (by decide) hp) ?_
    | with_reducible refine keepsP_fst (hostXlate_keeps (sub_of (by decide) hp) ?_)
    | with_reducible refine keepsP_eq (hostXlate_keeps (sub_of (by decide) hp) ?_) (by assumption)
    | with_reducible refine askLine_keeps (sub_of (by decide) hp) ?_
    | split
    | (clear_value *; split)
    | with_reducible refine keepsP_eq ?_ (by assumption)
    | with_reducible refine keepsO_eq ?_ (by assumption)
    | with_reducible refine keepsP_mk ?_

theorem cacheWrite_keeps {ps z} {s : Sys2Proof.Machine.State} {agent : Nat} {req : Nat} {c : Nat} {io : Nat} {data : List Sys2Proof.Byte} (hp : [.regs, .mem, .outbox, .bxl, .bridge] ⊆ ps) (h0 : Keeps ps z s) :
    KeepsP ps z (cacheWrite s agent req c io data) := by
  unfold cacheWrite
  repeat' first
    | with_reducible assumption
    | with_reducible exact keepsP_fst (by assumption)
    | (extract_lets -useContext +onlyGivenNames x; refine (fun (hx : Keeps ps z x) => ?_) ?_; clear_value x; revert x; intro _ _; rotate_left; unfold x; clear x; rotate_left)
    | (extract_lets -useContext +onlyGivenNames x; refine (fun (hx : KeepsP ps z x) => ?_) ?_; clear_value x; revert x; intro _ _; rotate_left; unfold x; clear x; rotate_left)
    | (extract_lets -useContext +onlyGivenNames x; revert x; intro _)
    | with_reducible refine takeAnswers_keeps (sub_of (by decide) hp) ?_
    | with_reducible refine unlistLine_keeps (sub_of (by decide) hp) ?_
    | with_reducible refine touchLine_keeps (sub_of (by decide) hp) ?_
    | with_reducible refine hostXlate_keeps (sub_of (by decide) hp) ?_
    | with_reducible refine keepsP_fst (hostXlate_keeps (sub_of (by decide) hp) ?_)
    | with_reducible refine keepsP_eq (hostXlate_keeps (sub_of (by decide) hp) ?_) (by assumption)
    | with_reducible refine askLine_keeps (sub_of (by decide) hp) ?_
    | split
    | (clear_value *; split)
    | with_reducible refine keepsP_eq ?_ (by assumption)
    | with_reducible refine keepsO_eq ?_ (by assumption)
    | with_reducible refine keepsP_mk ?_

theorem physReadGo_keeps {ps z} {a0_ : Nat} {a1_ : Sys2Proof.Machine.State} {a2_ : Nat} {a3_ : Nat} {a4_ : Nat} {a5_ : Nat} {a6_ : Nat} {a7_ : Nat} {a8_ : Nat} (hp : [.regs, .mem, .outbox, .bxl, .bridge] ⊆ ps) (h1 : Keeps ps z a1_) :
    KeepsP ps z (physReadGo a0_ a1_ a2_ a3_ a4_ a5_ a6_ a7_ a8_) := by
  induction a0_ generalizing a1_ a2_ a3_ a4_ a5_ a6_ a7_ a8_ with
  | zero =>
    unfold physReadGo
    repeat' first
      | with_reducible assumption
      | with_reducible exact keepsP_fst (by assumption)
      | (extract_lets -useContext +onlyGivenNames x; refine (fun (hx : Keeps ps z x) => ?_) ?_; clear_value x; revert x; intro _ _; rotate_left; unfold x; clear x; rotate_left)
      | (extract_lets -useContext +onlyGivenNames x; refine (fun (hx : KeepsP ps z x) => ?_) ?_; clear_value x; revert x; intro _ _; rotate_left; unfold x; clear x; rotate_left)
      | (extract_lets -useContext +onlyGivenNames x; revert x; intro _)
      | with_reducible refine devRead_keeps (sub_of (by decide) hp) ?_
      | with_reducible refine keepsP_fst (devRead_keeps (sub_of (by decide) hp) ?_)
      | with_reducible refine keepsP_eq (devRead_keeps (sub_of (by decide) hp) ?_) (by assumption)
      | with_reducible refine hostAccess_keeps (sub_of (by decide) hp) ?_
      | with_reducible refine keepsP_fst (hostAccess_keeps (sub_of (by decide) hp) ?_)
      | with_reducible refine keepsP_eq (hostAccess_keeps (sub_of (by decide) hp) ?_) (by assumption)
      | with_reducible refine reach_keeps (sub_of (by decide) hp) ?_
      | split
      | (clear_value *; split)
      | with_reducible refine keepsP_eq ?_ (by assumption)
      | with_reducible refine keepsO_eq ?_ (by assumption)
      | with_reducible refine keepsP_mk ?_
  | succ fuel ih =>
    unfold physReadGo
    repeat' first
      | with_reducible assumption
      | with_reducible exact keepsP_fst (by assumption)
      | (extract_lets -useContext +onlyGivenNames x; refine (fun (hx : Keeps ps z x) => ?_) ?_; clear_value x; revert x; intro _ _; rotate_left; unfold x; clear x; rotate_left)
      | (extract_lets -useContext +onlyGivenNames x; refine (fun (hx : KeepsP ps z x) => ?_) ?_; clear_value x; revert x; intro _ _; rotate_left; unfold x; clear x; rotate_left)
      | with_reducible refine ih ?_
      | with_reducible refine keepsP_fst (ih ?_)
      | with_reducible refine keepsP_eq (ih ?_) (by assumption)
      | (extract_lets -useContext +onlyGivenNames x; revert x; intro _)
      | with_reducible refine devRead_keeps (sub_of (by decide) hp) ?_
      | with_reducible refine keepsP_fst (devRead_keeps (sub_of (by decide) hp) ?_)
      | with_reducible refine keepsP_eq (devRead_keeps (sub_of (by decide) hp) ?_) (by assumption)
      | with_reducible refine hostAccess_keeps (sub_of (by decide) hp) ?_
      | with_reducible refine keepsP_fst (hostAccess_keeps (sub_of (by decide) hp) ?_)
      | with_reducible refine keepsP_eq (hostAccess_keeps (sub_of (by decide) hp) ?_) (by assumption)
      | with_reducible refine reach_keeps (sub_of (by decide) hp) ?_
      | split
      | (clear_value *; split)
      | with_reducible refine keepsP_eq ?_ (by assumption)
      | with_reducible refine keepsO_eq ?_ (by assumption)
      | with_reducible refine keepsP_mk ?_

theorem physRead_keeps {ps z} {s : Sys2Proof.Machine.State} {agent : Nat} {die : Nat} {req : Nat} {c : Nat} {owner : Nat} {pa : Nat} {len : Nat} (hp : [.regs, .mem, .outbox, .bxl, .bridge] ⊆ ps) (h0 : Keeps ps z s) :
    KeepsP ps z (physRead s agent die req c owner pa len) := by
  unfold physRead
  repeat' first
    | with_reducible assumption
    | with_reducible exact keepsP_fst (by assumption)
    | (extract_lets -useContext +onlyGivenNames x; refine (fun (hx : Keeps ps z x) => ?_) ?_; clear_value x; revert x; intro _ _; rotate_left; unfold x; clear x; rotate_left)
    | (extract_lets -useContext +onlyGivenNames x; refine (fun (hx : KeepsP ps z x) => ?_) ?_; clear_value x; revert x; intro _ _; rotate_left; unfold x; clear x; rotate_left)
    | (extract_lets -useContext +onlyGivenNames x; revert x; intro _)
    | with_reducible refine physReadGo_keeps (sub_of (by decide) hp) ?_
    | with_reducible refine keepsP_fst (physReadGo_keeps (sub_of (by decide) hp) ?_)
    | with_reducible refine keepsP_eq (physReadGo_keeps (sub_of (by decide) hp) ?_) (by assumption)
    | split
    | (clear_value *; split)
    | with_reducible refine keepsP_eq ?_ (by assumption)
    | with_reducible refine keepsO_eq ?_ (by assumption)
    | with_reducible refine keepsP_mk ?_

theorem physWriteGo_keeps {ps z} {a0_ : Nat} {a1_ : Sys2Proof.Machine.State} {a2_ : Nat} {a3_ : Nat} {a4_ : Nat} {a5_ : Nat} {a6_ : Nat} {a7_ : Nat} {a8_ : List Sys2Proof.Byte} (hp : [.regs, .mem, .outbox, .bxl, .bridge] ⊆ ps) (h1 : Keeps ps z a1_) :
    KeepsP ps z (physWriteGo a0_ a1_ a2_ a3_ a4_ a5_ a6_ a7_ a8_) := by
  induction a0_ generalizing a1_ a2_ a3_ a4_ a5_ a6_ a7_ a8_ with
  | zero =>
    unfold physWriteGo
    repeat' first
      | with_reducible assumption
      | with_reducible exact keepsP_fst (by assumption)
      | (extract_lets -useContext +onlyGivenNames x; refine (fun (hx : Keeps ps z x) => ?_) ?_; clear_value x; revert x; intro _ _; rotate_left; unfold x; clear x; rotate_left)
      | (extract_lets -useContext +onlyGivenNames x; refine (fun (hx : KeepsP ps z x) => ?_) ?_; clear_value x; revert x; intro _ _; rotate_left; unfold x; clear x; rotate_left)
      | (extract_lets -useContext +onlyGivenNames x; revert x; intro _)
      | with_reducible refine devWrite_keeps (sub_of (by decide) hp) ?_
      | with_reducible refine keepsP_fst (devWrite_keeps (sub_of (by decide) hp) ?_)
      | with_reducible refine keepsP_eq (devWrite_keeps (sub_of (by decide) hp) ?_) (by assumption)
      | with_reducible refine hostAccess_keeps (sub_of (by decide) hp) ?_
      | with_reducible refine keepsP_fst (hostAccess_keeps (sub_of (by decide) hp) ?_)
      | with_reducible refine keepsP_eq (hostAccess_keeps (sub_of (by decide) hp) ?_) (by assumption)
      | with_reducible refine reach_keeps (sub_of (by decide) hp) ?_
      | split
      | (clear_value *; split)
      | with_reducible refine keepsP_eq ?_ (by assumption)
      | with_reducible refine keepsO_eq ?_ (by assumption)
      | with_reducible refine keepsP_mk ?_
  | succ fuel ih =>
    unfold physWriteGo
    repeat' first
      | with_reducible assumption
      | with_reducible exact keepsP_fst (by assumption)
      | (extract_lets -useContext +onlyGivenNames x; refine (fun (hx : Keeps ps z x) => ?_) ?_; clear_value x; revert x; intro _ _; rotate_left; unfold x; clear x; rotate_left)
      | (extract_lets -useContext +onlyGivenNames x; refine (fun (hx : KeepsP ps z x) => ?_) ?_; clear_value x; revert x; intro _ _; rotate_left; unfold x; clear x; rotate_left)
      | with_reducible refine ih ?_
      | with_reducible refine keepsP_fst (ih ?_)
      | with_reducible refine keepsP_eq (ih ?_) (by assumption)
      | (extract_lets -useContext +onlyGivenNames x; revert x; intro _)
      | with_reducible refine devWrite_keeps (sub_of (by decide) hp) ?_
      | with_reducible refine keepsP_fst (devWrite_keeps (sub_of (by decide) hp) ?_)
      | with_reducible refine keepsP_eq (devWrite_keeps (sub_of (by decide) hp) ?_) (by assumption)
      | with_reducible refine hostAccess_keeps (sub_of (by decide) hp) ?_
      | with_reducible refine keepsP_fst (hostAccess_keeps (sub_of (by decide) hp) ?_)
      | with_reducible refine keepsP_eq (hostAccess_keeps (sub_of (by decide) hp) ?_) (by assumption)
      | with_reducible refine reach_keeps (sub_of (by decide) hp) ?_
      | split
      | (clear_value *; split)
      | with_reducible refine keepsP_eq ?_ (by assumption)
      | with_reducible refine keepsO_eq ?_ (by assumption)
      | with_reducible refine keepsP_mk ?_

theorem physWrite_keeps {ps z} {s : Sys2Proof.Machine.State} {agent : Nat} {die : Nat} {req : Nat} {c : Nat} {owner : Nat} {pa : Nat} {data : List Sys2Proof.Byte} (hp : [.regs, .mem, .outbox, .bxl, .bridge] ⊆ ps) (h0 : Keeps ps z s) :
    KeepsP ps z (physWrite s agent die req c owner pa data) := by
  unfold physWrite
  repeat' first
    | with_reducible assumption
    | with_reducible exact keepsP_fst (by assumption)
    | (extract_lets -useContext +onlyGivenNames x; refine (fun (hx : Keeps ps z x) => ?_) ?_; clear_value x; revert x; intro _ _; rotate_left; unfold x; clear x; rotate_left)
    | (extract_lets -useContext +onlyGivenNames x; refine (fun (hx : KeepsP ps z x) => ?_) ?_; clear_value x; revert x; intro _ _; rotate_left; unfold x; clear x; rotate_left)
    | (extract_lets -useContext +onlyGivenNames x; revert x; intro _)
    | with_reducible refine physWriteGo_keeps (sub_of (by decide) hp) ?_
    | with_reducible refine keepsP_fst (physWriteGo_keeps (sub_of (by decide) hp) ?_)
    | with_reducible refine keepsP_eq (physWriteGo_keeps (sub_of (by decide) hp) ?_) (by assumption)
    | split
    | (clear_value *; split)
    | with_reducible refine keepsP_eq ?_ (by assumption)
    | with_reducible refine keepsO_eq ?_ (by assumption)
    | with_reducible refine keepsP_mk ?_

theorem memReadGo_keeps {ps z} {a0_ : Nat} {a1_ : Sys2Proof.Machine.State} {a2_ : Nat} {a3_ : Nat} {a4_ : Nat} {a5_ : Nat} {a6_ : Nat} {a7_ : Nat} (hp : [.regs, .mem, .mmu, .outbox, .bxl, .bridge] ⊆ ps) (h1 : Keeps ps z a1_) :
    KeepsP ps z (memReadGo a0_ a1_ a2_ a3_ a4_ a5_ a6_ a7_) := by
  induction a0_ generalizing a1_ a2_ a3_ a4_ a5_ a6_ a7_ with
  | zero =>
    unfold memReadGo
    repeat' first
      | with_reducible assumption
      | with_reducible exact keepsP_fst (by assumption)
      | (extract_lets -useContext +onlyGivenNames x; refine (fun (hx : Keeps ps z x) => ?_) ?_; clear_value x; revert x; intro _ _; rotate_left; unfold x; clear x; rotate_left)
      | (extract_lets -useContext +onlyGivenNames x; refine (fun (hx : KeepsP ps z x) => ?_) ?_; clear_value x; revert x; intro _ _; rotate_left; unfold x; clear x; rotate_left)
      | (extract_lets -useContext +onlyGivenNames x; revert x; intro _)
      | with_reducible refine physRead_keeps (sub_of (by decide) hp) ?_
      | with_reducible refine keepsP_fst (physRead_keeps (sub_of (by decide) hp) ?_)
      | with_reducible refine keepsP_eq (physRead_keeps (sub_of (by decide) hp) ?_) (by assumption)
      | with_reducible refine translateFrom_keeps (sub_of (by decide) hp) ?_
      | with_reducible refine keepsP_fst (translateFrom_keeps (sub_of (by decide) hp) ?_)
      | with_reducible refine keepsP_eq (translateFrom_keeps (sub_of (by decide) hp) ?_) (by assumption)
      | split
      | (clear_value *; split)
      | with_reducible refine keepsP_eq ?_ (by assumption)
      | with_reducible refine keepsO_eq ?_ (by assumption)
      | with_reducible refine keepsP_mk ?_
  | succ fuel ih =>
    unfold memReadGo
    repeat' first
      | with_reducible assumption
      | with_reducible exact keepsP_fst (by assumption)
      | (extract_lets -useContext +onlyGivenNames x; refine (fun (hx : Keeps ps z x) => ?_) ?_; clear_value x; revert x; intro _ _; rotate_left; unfold x; clear x; rotate_left)
      | (extract_lets -useContext +onlyGivenNames x; refine (fun (hx : KeepsP ps z x) => ?_) ?_; clear_value x; revert x; intro _ _; rotate_left; unfold x; clear x; rotate_left)
      | with_reducible refine ih ?_
      | with_reducible refine keepsP_fst (ih ?_)
      | with_reducible refine keepsP_eq (ih ?_) (by assumption)
      | (extract_lets -useContext +onlyGivenNames x; revert x; intro _)
      | with_reducible refine physRead_keeps (sub_of (by decide) hp) ?_
      | with_reducible refine keepsP_fst (physRead_keeps (sub_of (by decide) hp) ?_)
      | with_reducible refine keepsP_eq (physRead_keeps (sub_of (by decide) hp) ?_) (by assumption)
      | with_reducible refine translateFrom_keeps (sub_of (by decide) hp) ?_
      | with_reducible refine keepsP_fst (translateFrom_keeps (sub_of (by decide) hp) ?_)
      | with_reducible refine keepsP_eq (translateFrom_keeps (sub_of (by decide) hp) ?_) (by assumption)
      | split
      | (clear_value *; split)
      | with_reducible refine keepsP_eq ?_ (by assumption)
      | with_reducible refine keepsO_eq ?_ (by assumption)
      | with_reducible refine keepsP_mk ?_

theorem memRead_keeps {ps z} {s : Sys2Proof.Machine.State} {agent : Nat} {die : Nat} {req : Nat} {c : Nat} {va : Nat} {len : Nat} (hp : [.regs, .mem, .mmu, .outbox, .bxl, .bridge] ⊆ ps) (h0 : Keeps ps z s) :
    KeepsP ps z (memRead s agent die req c va len) := by
  unfold memRead
  repeat' first
    | with_reducible assumption
    | with_reducible exact keepsP_fst (by assumption)
    | (extract_lets -useContext +onlyGivenNames x; refine (fun (hx : Keeps ps z x) => ?_) ?_; clear_value x; revert x; intro _ _; rotate_left; unfold x; clear x; rotate_left)
    | (extract_lets -useContext +onlyGivenNames x; refine (fun (hx : KeepsP ps z x) => ?_) ?_; clear_value x; revert x; intro _ _; rotate_left; unfold x; clear x; rotate_left)
    | (extract_lets -useContext +onlyGivenNames x; revert x; intro _)
    | with_reducible refine memReadGo_keeps (sub_of (by decide) hp) ?_
    | with_reducible refine keepsP_fst (memReadGo_keeps (sub_of (by decide) hp) ?_)
    | with_reducible refine keepsP_eq (memReadGo_keeps (sub_of (by decide) hp) ?_) (by assumption)
    | split
    | (clear_value *; split)
    | with_reducible refine keepsP_eq ?_ (by assumption)
    | with_reducible refine keepsO_eq ?_ (by assumption)
    | with_reducible refine keepsP_mk ?_

theorem memWriteGo_keeps {ps z} {a0_ : Nat} {a1_ : Sys2Proof.Machine.State} {a2_ : Nat} {a3_ : Nat} {a4_ : Nat} {a5_ : Nat} {a6_ : Nat} {a7_ : List Sys2Proof.Byte} (hp : [.regs, .mem, .mmu, .outbox, .bxl, .bridge] ⊆ ps) (h1 : Keeps ps z a1_) :
    KeepsP ps z (memWriteGo a0_ a1_ a2_ a3_ a4_ a5_ a6_ a7_) := by
  induction a0_ generalizing a1_ a2_ a3_ a4_ a5_ a6_ a7_ with
  | zero =>
    unfold memWriteGo
    repeat' first
      | with_reducible assumption
      | with_reducible exact keepsP_fst (by assumption)
      | (extract_lets -useContext +onlyGivenNames x; refine (fun (hx : Keeps ps z x) => ?_) ?_; clear_value x; revert x; intro _ _; rotate_left; unfold x; clear x; rotate_left)
      | (extract_lets -useContext +onlyGivenNames x; refine (fun (hx : KeepsP ps z x) => ?_) ?_; clear_value x; revert x; intro _ _; rotate_left; unfold x; clear x; rotate_left)
      | (extract_lets -useContext +onlyGivenNames x; revert x; intro _)
      | with_reducible refine physWrite_keeps (sub_of (by decide) hp) ?_
      | with_reducible refine keepsP_fst (physWrite_keeps (sub_of (by decide) hp) ?_)
      | with_reducible refine keepsP_eq (physWrite_keeps (sub_of (by decide) hp) ?_) (by assumption)
      | with_reducible refine translateFrom_keeps (sub_of (by decide) hp) ?_
      | with_reducible refine keepsP_fst (translateFrom_keeps (sub_of (by decide) hp) ?_)
      | with_reducible refine keepsP_eq (translateFrom_keeps (sub_of (by decide) hp) ?_) (by assumption)
      | split
      | (clear_value *; split)
      | with_reducible refine keepsP_eq ?_ (by assumption)
      | with_reducible refine keepsO_eq ?_ (by assumption)
      | with_reducible refine keepsP_mk ?_
  | succ fuel ih =>
    unfold memWriteGo
    repeat' first
      | with_reducible assumption
      | with_reducible exact keepsP_fst (by assumption)
      | (extract_lets -useContext +onlyGivenNames x; refine (fun (hx : Keeps ps z x) => ?_) ?_; clear_value x; revert x; intro _ _; rotate_left; unfold x; clear x; rotate_left)
      | (extract_lets -useContext +onlyGivenNames x; refine (fun (hx : KeepsP ps z x) => ?_) ?_; clear_value x; revert x; intro _ _; rotate_left; unfold x; clear x; rotate_left)
      | with_reducible refine ih ?_
      | with_reducible refine keepsP_fst (ih ?_)
      | with_reducible refine keepsP_eq (ih ?_) (by assumption)
      | (extract_lets -useContext +onlyGivenNames x; revert x; intro _)
      | with_reducible refine physWrite_keeps (sub_of (by decide) hp) ?_
      | with_reducible refine keepsP_fst (physWrite_keeps (sub_of (by decide) hp) ?_)
      | with_reducible refine keepsP_eq (physWrite_keeps (sub_of (by decide) hp) ?_) (by assumption)
      | with_reducible refine translateFrom_keeps (sub_of (by decide) hp) ?_
      | with_reducible refine keepsP_fst (translateFrom_keeps (sub_of (by decide) hp) ?_)
      | with_reducible refine keepsP_eq (translateFrom_keeps (sub_of (by decide) hp) ?_) (by assumption)
      | split
      | (clear_value *; split)
      | with_reducible refine keepsP_eq ?_ (by assumption)
      | with_reducible refine keepsO_eq ?_ (by assumption)
      | with_reducible refine keepsP_mk ?_

theorem memWrite_keeps {ps z} {s : Sys2Proof.Machine.State} {agent : Nat} {die : Nat} {req : Nat} {c : Nat} {va : Nat} {data : List Sys2Proof.Byte} (hp : [.regs, .mem, .mmu, .outbox, .bxl, .bridge] ⊆ ps) (h0 : Keeps ps z s) :
    KeepsP ps z (memWrite s agent die req c va data) := by
  unfold memWrite
  repeat' first
    | with_reducible assumption
    | with_reducible exact keepsP_fst (by assumption)
    | (extract_lets -useContext +onlyGivenNames x; refine (fun (hx : Keeps ps z x) => ?_) ?_; clear_value x; revert x; intro _ _; rotate_left; unfold x; clear x; rotate_left)
    | (extract_lets -useContext +onlyGivenNames x; refine (fun (hx : KeepsP ps z x) => ?_) ?_; clear_value x; revert x; intro _ _; rotate_left; unfold x; clear x; rotate_left)
    | (extract_lets -useContext +onlyGivenNames x; revert x; intro _)
    | with_reducible refine memWriteGo_keeps (sub_of (by decide) hp) ?_
    | with_reducible refine keepsP_fst (memWriteGo_keeps (sub_of (by decide) hp) ?_)
    | with_reducible refine keepsP_eq (memWriteGo_keeps (sub_of (by decide) hp) ?_) (by assumption)
    | split
    | (clear_value *; split)
    | with_reducible refine keepsP_eq ?_ (by assumption)
    | with_reducible refine keepsO_eq ?_ (by assumption)
    | with_reducible refine keepsP_mk ?_

theorem memWriteMarked_keeps {ps z} {s : Sys2Proof.Machine.State} {agent : Nat} {die : Nat} {req : Nat} {c : Nat} {va : Nat} {data : List Sys2Proof.Byte} {poison : List Bool} (hp : [.regs, .mem, .mmu, .outbox, .bxl, .bridge] ⊆ ps) (h0 : Keeps ps z s) :
    KeepsP ps z (memWriteMarked s agent die req c va data poison) := by
  unfold memWriteMarked
  repeat' first
    | with_reducible assumption
    | with_reducible exact keepsP_fst (by assumption)
    | (extract_lets -useContext +onlyGivenNames x; refine (fun (hx : Keeps ps z x) => ?_) ?_; clear_value x; revert x; intro _ _; rotate_left; unfold x; clear x; rotate_left)
    | (extract_lets -useContext +onlyGivenNames x; refine (fun (hx : KeepsP ps z x) => ?_) ?_; clear_value x; revert x; intro _ _; rotate_left; unfold x; clear x; rotate_left)
    | (extract_lets -useContext +onlyGivenNames x; revert x; intro _)
    | with_reducible refine poisonUnits_keeps (sub_of (by decide) hp) ?_
    | with_reducible refine hostAccess_keeps (sub_of (by decide) hp) ?_
    | with_reducible refine keepsP_fst (hostAccess_keeps (sub_of (by decide) hp) ?_)
    | with_reducible refine keepsP_eq (hostAccess_keeps (sub_of (by decide) hp) ?_) (by assumption)
    | with_reducible refine reach_keeps (sub_of (by decide) hp) ?_
    | with_reducible refine translateFrom_keeps (sub_of (by decide) hp) ?_
    | with_reducible refine keepsP_fst (translateFrom_keeps (sub_of (by decide) hp) ?_)
    | with_reducible refine keepsP_eq (translateFrom_keeps (sub_of (by decide) hp) ?_) (by assumption)
    | with_reducible refine writeFrom_keeps (sub_of (by decide) hp) ?_
    | with_reducible refine keepsP_fst (writeFrom_keeps (sub_of (by decide) hp) ?_)
    | with_reducible refine keepsP_eq (writeFrom_keeps (sub_of (by decide) hp) ?_) (by assumption)
    | split
    | (clear_value *; split)
    | with_reducible refine keepsP_eq ?_ (by assumption)
    | with_reducible refine keepsO_eq ?_ (by assumption)
    | with_reducible refine keepsP_mk ?_

theorem fenceMaxPhys_keeps {ps z} {s : Sys2Proof.Machine.State} {agent : Nat} {req : Nat} {c : Nat} {owner : Nat} {pa : Nat} {value : Nat} (hp : [.regs, .mem, .outbox, .bxl, .bridge] ⊆ ps) (h0 : Keeps ps z s) :
    KeepsP ps z (fenceMaxPhys s agent req c owner pa value) := by
  unfold fenceMaxPhys
  repeat' first
    | with_reducible assumption
    | with_reducible exact keepsP_fst (by assumption)
    | (extract_lets -useContext +onlyGivenNames x; refine (fun (hx : Keeps ps z x) => ?_) ?_; clear_value x; revert x; intro _ _; rotate_left; unfold x; clear x; rotate_left)
    | (extract_lets -useContext +onlyGivenNames x; refine (fun (hx : KeepsP ps z x) => ?_) ?_; clear_value x; revert x; intro _ _; rotate_left; unfold x; clear x; rotate_left)
    | (extract_lets -useContext +onlyGivenNames x; revert x; intro _)
    | with_reducible refine devWrite_keeps (sub_of (by decide) hp) ?_
    | with_reducible refine keepsP_fst (devWrite_keeps (sub_of (by decide) hp) ?_)
    | with_reducible refine keepsP_eq (devWrite_keeps (sub_of (by decide) hp) ?_) (by assumption)
    | with_reducible refine hostAccess_keeps (sub_of (by decide) hp) ?_
    | with_reducible refine keepsP_fst (hostAccess_keeps (sub_of (by decide) hp) ?_)
    | with_reducible refine keepsP_eq (hostAccess_keeps (sub_of (by decide) hp) ?_) (by assumption)
    | with_reducible refine reach_keeps (sub_of (by decide) hp) ?_
    | with_reducible refine readFrom_keeps (sub_of (by decide) hp) ?_
    | with_reducible refine keepsP_fst (readFrom_keeps (sub_of (by decide) hp) ?_)
    | with_reducible refine keepsP_eq (readFrom_keeps (sub_of (by decide) hp) ?_) (by assumption)
    | split
    | (clear_value *; split)
    | with_reducible refine keepsP_eq ?_ (by assumption)
    | with_reducible refine keepsO_eq ?_ (by assumption)
    | with_reducible refine keepsP_mk ?_

theorem fenceMax_keeps {ps z} {s : Sys2Proof.Machine.State} {agent : Nat} {die : Nat} {req : Nat} {c : Nat} {va : Nat} {value : Nat} (hp : [.regs, .mem, .mmu, .outbox, .bxl, .bridge] ⊆ ps) (h0 : Keeps ps z s) :
    KeepsP ps z (fenceMax s agent die req c va value) := by
  unfold fenceMax
  repeat' first
    | with_reducible assumption
    | with_reducible exact keepsP_fst (by assumption)
    | (extract_lets -useContext +onlyGivenNames x; refine (fun (hx : Keeps ps z x) => ?_) ?_; clear_value x; revert x; intro _ _; rotate_left; unfold x; clear x; rotate_left)
    | (extract_lets -useContext +onlyGivenNames x; refine (fun (hx : KeepsP ps z x) => ?_) ?_; clear_value x; revert x; intro _ _; rotate_left; unfold x; clear x; rotate_left)
    | (extract_lets -useContext +onlyGivenNames x; revert x; intro _)
    | with_reducible refine fenceMaxPhys_keeps (sub_of (by decide) hp) ?_
    | with_reducible refine keepsP_fst (fenceMaxPhys_keeps (sub_of (by decide) hp) ?_)
    | with_reducible refine keepsP_eq (fenceMaxPhys_keeps (sub_of (by decide) hp) ?_) (by assumption)
    | with_reducible refine translateFrom_keeps (sub_of (by decide) hp) ?_
    | with_reducible refine keepsP_fst (translateFrom_keeps (sub_of (by decide) hp) ?_)
    | with_reducible refine keepsP_eq (translateFrom_keeps (sub_of (by decide) hp) ?_) (by assumption)
    | split
    | (clear_value *; split)
    | with_reducible refine keepsP_eq ?_ (by assumption)
    | with_reducible refine keepsO_eq ?_ (by assumption)
    | with_reducible refine keepsP_mk ?_

end Sys2Proof.Machine
end

