-- ==== Sys2Proof/Laws/FrameMatrix.lean ====
section
/-!
SUPPORT. Frames: for each operation of Sys2Proof/Machine/Matrix.lean, the parts of State it may change, and that it keeps the stores'
canonical form.
-/
namespace Sys2Proof.Machine

open Sys2Proof

theorem noteHazards_keeps {ps z} {s : Sys2Proof.Machine.State} {n : Nat} {src : Nat} {es : List (Nat × Nat)} (hp : [.regs] ⊆ ps) (h0 : Keeps ps z s) :
    Keeps ps z (noteHazards s n src es) := by
  unfold noteHazards
  repeat' first
    | with_reducible assumption
    | with_reducible exact keepsP_fst (by assumption)
    | (extract_lets -useContext +onlyGivenNames x; refine (fun (hx : Keeps ps z x) => ?_) ?_; clear_value x; revert x; intro _ _; rotate_left; unfold x; clear x; rotate_left)
    | (extract_lets -useContext +onlyGivenNames x; revert x; intro _)
    | with_reducible refine noteHazard_keeps (sub_of (by decide) hp) ?_
    | with_reducible refine keeps_foldl (fun t a ht => ?_) ?_
    | with_reducible refine keepsP_foldl (fun t a ht => ?_) ?_
    | split
    | (clear_value *; split)
    | with_reducible refine keepsP_eq ?_ (by assumption)
    | with_reducible refine keepsO_eq ?_ (by assumption)
    | with_reducible refine keepsP_mk ?_

theorem arrFail_keeps {ps z} {s : Sys2Proof.Machine.State} {n : Nat} {status : Nat} {code : Nat} {addr : Nat} {itag : Nat} {sub : Nat} {row : Nat} (hp : [.regs, .mem, .arr, .seq, .outbox, .bridge] ⊆ ps) (h0 : Keeps ps z s) :
    Keeps ps z (arrFail s n status code addr itag sub row) := by
  unfold arrFail
  repeat' first
    | with_reducible assumption
    | with_reducible exact keepsP_fst (by assumption)
    | (extract_lets -useContext +onlyGivenNames x; refine (fun (hx : Keeps ps z x) => ?_) ?_; clear_value x; revert x; intro _ _; rotate_left; unfold x; clear x; rotate_left)
    | (extract_lets -useContext +onlyGivenNames x; revert x; intro _)
    | with_reducible refine capture_keeps (sub_of (by decide) hp) ?_
    | with_reducible refine State.setArr_keeps (sub_of (by decide) hp) ?_
    | with_reducible refine State.setReg_keeps (sub_of (by decide) hp) ?_
    | with_reducible refine noteFailure_keeps (sub_of (by decide) hp) ?_
    | split
    | (clear_value *; split)
    | with_reducible refine keepsP_eq ?_ (by assumption)
    | with_reducible refine keepsO_eq ?_ (by assumption)
    | with_reducible refine keepsP_mk ?_

theorem tileFail_keeps {ps z} {s : Sys2Proof.Machine.State} {n : Nat} {i : Sys2Proof.Machine.MmInstr} {a3_ : Option (Nat × Nat)} (hp : [.regs, .mem, .arr, .seq, .outbox, .bridge] ⊆ ps) (h0 : Keeps ps z s) :
    Keeps ps z (tileFail s n i a3_) := by
  unfold tileFail
  repeat' first
    | with_reducible assumption
    | with_reducible exact keepsP_fst (by assumption)
    | (extract_lets -useContext +onlyGivenNames x; refine (fun (hx : Keeps ps z x) => ?_) ?_; clear_value x; revert x; intro _ _; rotate_left; unfold x; clear x; rotate_left)
    | (extract_lets -useContext +onlyGivenNames x; revert x; intro _)
    | with_reducible refine arrFail_keeps (sub_of (by decide) hp) ?_
    | split
    | (clear_value *; split)
    | with_reducible refine keepsP_eq ?_ (by assumption)
    | with_reducible refine keepsO_eq ?_ (by assumption)
    | with_reducible refine keepsP_mk ?_

theorem kickArr_keeps {ps z} {s : Sys2Proof.Machine.State} {n : Nat} (hp : [.regs, .mem, .arr, .seq, .outbox, .pwr, .bridge] ⊆ ps) (h0 : Keeps ps z s) :
    Keeps ps z (kickArr s n) := by
  unfold kickArr
  repeat' first
    | with_reducible assumption
    | with_reducible exact keepsP_fst (by assumption)
    | (extract_lets -useContext +onlyGivenNames x; refine (fun (hx : Keeps ps z x) => ?_) ?_; clear_value x; revert x; intro _ _; rotate_left; unfold x; clear x; rotate_left)
    | (extract_lets -useContext +onlyGivenNames x; revert x; intro _)
    | with_reducible refine tileFail_keeps (sub_of (by decide) hp) ?_
    | with_reducible refine State.setArr_keeps (sub_of (by decide) hp) ?_
    | with_reducible refine unitBegin_keeps (sub_of (by decide) hp) ?_
    | with_reducible refine arrFail_keeps (sub_of (by decide) hp) ?_
    | split
    | (clear_value *; split)
    | with_reducible refine keepsP_eq ?_ (by assumption)
    | with_reducible refine keepsO_eq ?_ (by assumption)
    | with_reducible refine keepsP_mk ?_

theorem settleArr_keeps {ps z} {s : Sys2Proof.Machine.State} {n : Nat} (hp : [.regs, .mem, .arr, .seq, .outbox, .pwr, .bridge] ⊆ ps) (h0 : Keeps ps z s) :
    Keeps ps z (settleArr s n) := by
  unfold settleArr
  repeat' first
    | with_reducible assumption
    | with_reducible exact keepsP_fst (by assumption)
    | (extract_lets -useContext +onlyGivenNames x; refine (fun (hx : Keeps ps z x) => ?_) ?_; clear_value x; revert x; intro _ _; rotate_left; unfold x; clear x; rotate_left)
    | (extract_lets -useContext +onlyGivenNames x; have _hx : ∀ a, x a = x a := fun _ => rfl; clear _hx; unfold x; clear x)
    | (extract_lets -useContext +onlyGivenNames x; revert x; intro _)
    | with_reducible refine kickArr_keeps (sub_of (by decide) hp) ?_
    | with_reducible refine State.setArr_keeps (sub_of (by decide) hp) ?_
    | with_reducible refine rampIfEmpty_keeps (sub_of (by decide) hp) ?_
    | split
    | (clear_value *; split)
    | with_reducible refine keepsP_eq ?_ (by assumption)
    | with_reducible refine keepsO_eq ?_ (by assumption)
    | with_reducible refine keepsP_mk ?_

theorem showBarrier_keeps {ps z} {s : Sys2Proof.Machine.State} {n : Nat} (hp : [.regs] ⊆ ps) (h0 : Keeps ps z s) :
    Keeps ps z (showBarrier s n) := by
  unfold showBarrier
  repeat' first
    | with_reducible assumption
    | with_reducible exact keepsP_fst (by assumption)
    | (extract_lets -useContext +onlyGivenNames x; refine (fun (hx : Keeps ps z x) => ?_) ?_; clear_value x; revert x; intro _ _; rotate_left; unfold x; clear x; rotate_left)
    | (extract_lets -useContext +onlyGivenNames x; revert x; intro _)
    | with_reducible refine State.setField_keeps (sub_of (by decide) hp) ?_
    | split
    | (clear_value *; split)
    | with_reducible refine keepsP_eq ?_ (by assumption)
    | with_reducible refine keepsO_eq ?_ (by assumption)
    | with_reducible refine keepsP_mk ?_

theorem issueMm_keeps {ps z} {s : Sys2Proof.Machine.State} {n : Nat} {addr : Nat} {seed : Nat} {step : Nat} (hp : [.regs, .mem, .arr, .seq, .outbox, .pwr, .bridge] ⊆ ps) (h0 : Keeps ps z s) :
    Keeps ps z (issueMm s n addr seed step) := by
  unfold issueMm
  repeat' first
    | with_reducible assumption
    | with_reducible exact keepsP_fst (by assumption)
    | (extract_lets -useContext +onlyGivenNames x; refine (fun (hx : Keeps ps z x) => ?_) ?_; clear_value x; revert x; intro _ _; rotate_left; unfold x; clear x; rotate_left)
    | (extract_lets -useContext +onlyGivenNames x; revert x; intro _)
    | with_reducible refine State.setArr_keeps (sub_of (by decide) hp) ?_
    | with_reducible refine settleArr_keeps (sub_of (by decide) hp) ?_
    | with_reducible refine noteHazards_keeps (sub_of (by decide) hp) ?_
    | with_reducible refine showBarrier_keeps (sub_of (by decide) hp) ?_
    | split
    | (clear_value *; split)
    | with_reducible refine keepsP_eq ?_ (by assumption)
    | with_reducible refine keepsO_eq ?_ (by assumption)
    | with_reducible refine keepsP_mk ?_

theorem advancePost_keeps {ps z} {s : Sys2Proof.Machine.State} {n : Nat} (hp : [.regs, .arr] ⊆ ps) (h0 : Keeps ps z s) :
    Keeps ps z (advancePost s n) := by
  unfold advancePost
  repeat' first
    | with_reducible assumption
    | with_reducible exact keepsP_fst (by assumption)
    | (extract_lets -useContext +onlyGivenNames x; refine (fun (hx : Keeps ps z x) => ?_) ?_; clear_value x; revert x; intro _ _; rotate_left; unfold x; clear x; rotate_left)
    | (extract_lets -useContext +onlyGivenNames x; revert x; intro _)
    | with_reducible refine State.setReg_keeps (sub_of (by decide) hp) ?_
    | with_reducible refine State.setArr_keeps (sub_of (by decide) hp) ?_
    | split
    | (clear_value *; split)
    | with_reducible refine keepsP_eq ?_ (by assumption)
    | with_reducible refine keepsO_eq ?_ (by assumption)
    | with_reducible refine keepsP_mk ?_

theorem afterRows_keeps {ps z} {s : Sys2Proof.Machine.State} {n : Nat} (hp : [.regs, .mem, .arr, .seq, .outbox, .pwr, .bridge] ⊆ ps) (h0 : Keeps ps z s) :
    Keeps ps z (afterRows s n) := by
  unfold afterRows
  repeat' first
    | with_reducible assumption
    | with_reducible exact keepsP_fst (by assumption)
    | (extract_lets -useContext +onlyGivenNames x; refine (fun (hx : Keeps ps z x) => ?_) ?_; clear_value x; revert x; intro _ _; rotate_left; unfold x; clear x; rotate_left)
    | (extract_lets -useContext +onlyGivenNames x; revert x; intro _)
    | with_reducible refine kickArr_keeps (sub_of (by decide) hp) ?_
    | with_reducible refine rampIfEmpty_keeps (sub_of (by decide) hp) ?_
    | with_reducible refine noteFailure_keeps (sub_of (by decide) hp) ?_
    | split
    | (clear_value *; split)
    | with_reducible refine keepsP_eq ?_ (by assumption)
    | with_reducible refine keepsO_eq ?_ (by assumption)
    | with_reducible refine keepsP_mk ?_

set_option maxRecDepth 20000 in

theorem stopAccumulation_keeps {ps z} {s : Sys2Proof.Machine.State} {n : Nat} {i : Sys2Proof.Machine.MmInstr} {tile : Sys2Proof.Machine.Tile} {a : Sys2Proof.Machine.Arr} {r : Nat} {k : Nat} {p : Nat} (hp : [.regs, .mem, .arr, .seq, .outbox, .pwr, .bridge] ⊆ ps) (h0 : Keeps ps z s) :
    Keeps ps z (stopAccumulation s n i tile a r k p) := by
  unfold stopAccumulation
  repeat' first
    | with_reducible assumption
    | with_reducible exact keepsP_fst (by assumption)
    | (extract_lets -useContext +onlyGivenNames x; refine (fun (hx : Keeps ps z x) => ?_) ?_; clear_value x; revert x; intro _ _; rotate_left; unfold x; clear x; rotate_left)
    | (extract_lets -useContext +onlyGivenNames x; revert x; intro _)
    | with_reducible refine State.setArr_keeps (sub_of (by decide) hp) ?_
    | with_reducible refine afterRows_keeps (sub_of (by decide) hp) ?_
    | with_reducible refine arrFail_keeps (sub_of (by decide) hp) ?_
    | with_reducible refine noteHazards_keeps (sub_of (by decide) hp) ?_
    | with_reducible refine countEvent_keeps (sub_of (by decide) hp) ?_
    | split
    | (clear_value *; split)
    | with_reducible refine keepsP_eq ?_ (by assumption)
    | with_reducible refine keepsO_eq ?_ (by assumption)
    | with_reducible refine keepsP_mk ?_

theorem endAccumulation_keeps {ps z} {s : Sys2Proof.Machine.State} {n : Nat} {i : Sys2Proof.Machine.MmInstr} {tile : Sys2Proof.Machine.Tile} {a : Sys2Proof.Machine.Arr} (hp : [.regs, .mem, .arr, .seq, .outbox, .pwr, .bridge] ⊆ ps) (h0 : Keeps ps z s) :
    Keeps ps z (endAccumulation s n i tile a) := by
  unfold endAccumulation
  repeat' first
    | with_reducible assumption
    | with_reducible exact keepsP_fst (by assumption)
    | (extract_lets -useContext +onlyGivenNames x; refine (fun (hx : Keeps ps z x) => ?_) ?_; clear_value x; revert x; intro _ _; rotate_left; unfold x; clear x; rotate_left)
    | (extract_lets -useContext +onlyGivenNames x; revert x; intro _)
    | with_reducible refine State.setArr_keeps (sub_of (by decide) hp) ?_
    | with_reducible refine advancePost_keeps (sub_of (by decide) hp) ?_
    | with_reducible refine afterRows_keeps (sub_of (by decide) hp) ?_
    | with_reducible refine countEvent_keeps (sub_of (by decide) hp) ?_
    | with_reducible refine noteHazards_keeps (sub_of (by decide) hp) ?_
    | split
    | (clear_value *; split)
    | with_reducible refine keepsP_eq ?_ (by assumption)
    | with_reducible refine keepsO_eq ?_ (by assumption)
    | with_reducible refine keepsP_mk ?_

theorem execMmAccumulationEnd_keeps {ps z} {n : Sys2Proof.ArrayId} {s : Sys2Proof.Machine.State} (hp : [.regs, .isl, .mem, .arr, .seq, .outbox, .pwr, .bridge] ⊆ ps) (h1 : Keeps ps z s) :
    KeepsR ps z (execMmAccumulationEnd n s) := by
  unfold execMmAccumulationEnd
  repeat' first
    | with_reducible assumption
    | with_reducible exact keepsP_fst (by assumption)
    | (extract_lets -useContext +onlyGivenNames x; refine (fun (hx : Keeps ps z x) => ?_) ?_; clear_value x; revert x; intro _ _; rotate_left; unfold x; clear x; rotate_left)
    | (extract_lets -useContext +onlyGivenNames x; revert x; intro _)
    | with_reducible refine keepsR_next ?_
    | with_reducible exact keepsR_fault
    | with_reducible refine unitEnd_keeps (sub_of (by decide) hp) ?_
    | with_reducible refine endAccumulation_keeps (sub_of (by decide) hp) ?_
    | with_reducible refine stopAccumulation_keeps (sub_of (by decide) hp) ?_
    | split
    | (clear_value *; split)
    | with_reducible refine keepsP_eq ?_ (by assumption)
    | with_reducible refine keepsO_eq ?_ (by assumption)
    | with_reducible refine keepsP_mk ?_

theorem follow_keeps {ps z} {s : Sys2Proof.Machine.State} {n : Nat} {w : Sys2Proof.Machine.MmInstr} {t : Sys2Proof.Machine.Tile} (hp : [.isl, .arr, .pwr] ⊆ ps) (h0 : Keeps ps z s) :
    Keeps ps z (follow s n w t) := by
  unfold follow
  repeat' first
    | with_reducible assumption
    | with_reducible exact keepsP_fst (by assumption)
    | (extract_lets -useContext +onlyGivenNames x; refine (fun (hx : Keeps ps z x) => ?_) ?_; clear_value x; revert x; intro _ _; rotate_left; unfold x; clear x; rotate_left)
    | (extract_lets -useContext +onlyGivenNames x; revert x; intro _)
    | with_reducible refine State.setArr_keeps (sub_of (by decide) hp) ?_
    | with_reducible refine unitEnd_keeps (sub_of (by decide) hp) ?_
    | with_reducible refine unitBegin_keeps (sub_of (by decide) hp) ?_
    | split
    | (clear_value *; split)
    | with_reducible refine keepsP_eq ?_ (by assumption)
    | with_reducible refine keepsO_eq ?_ (by assumption)
    | with_reducible refine keepsP_mk ?_

theorem execBTileLoadDone_keeps {ps z} {n : Sys2Proof.ArrayId} {s : Sys2Proof.Machine.State} (hp : [.regs, .isl, .mem, .arr, .seq, .outbox, .pwr, .bridge] ⊆ ps) (h1 : Keeps ps z s) :
    KeepsR ps z (execBTileLoadDone n s) := by
  unfold execBTileLoadDone
  repeat' first
    | with_reducible assumption
    | with_reducible exact keepsP_fst (by assumption)
    | (extract_lets -useContext +onlyGivenNames x; refine (fun (hx : Keeps ps z x) => ?_) ?_; clear_value x; revert x; intro _ _; rotate_left; unfold x; clear x; rotate_left)
    | (extract_lets -useContext +onlyGivenNames x; have _hx : ∀ a, x a = x a := fun _ => rfl; clear _hx; unfold x; clear x)
    | (extract_lets -useContext +onlyGivenNames x; revert x; intro _)
    | with_reducible refine keepsR_next ?_
    | with_reducible exact keepsR_fault
    | with_reducible refine follow_keeps (sub_of (by decide) hp) ?_
    | with_reducible refine afterRows_keeps (sub_of (by decide) hp) ?_
    | with_reducible refine arrFail_keeps (sub_of (by decide) hp) ?_
    | with_reducible refine settleArr_keeps (sub_of (by decide) hp) ?_
    | with_reducible refine State.setArr_keeps (sub_of (by decide) hp) ?_
    | with_reducible refine unitEnd_keeps (sub_of (by decide) hp) ?_
    | with_reducible refine noteHazards_keeps (sub_of (by decide) hp) ?_
    | with_reducible refine countEvent_keeps (sub_of (by decide) hp) ?_
    | with_reducible refine rampIfEmpty_keeps (sub_of (by decide) hp) ?_
    | split
    | (clear_value *; split)
    | with_reducible refine keepsP_eq ?_ (by assumption)
    | with_reducible refine keepsO_eq ?_ (by assumption)
    | with_reducible refine keepsP_mk ?_

theorem useShadow_keeps {ps z} {s : Sys2Proof.Machine.State} {n : Nat} {i : Sys2Proof.Machine.MmInstr} (hp : [.regs, .isl, .mem, .arr, .seq, .outbox, .pwr, .bridge] ⊆ ps) (h0 : Keeps ps z s) :
    Keeps ps z (useShadow s n i) := by
  unfold useShadow
  repeat' first
    | with_reducible assumption
    | with_reducible exact keepsP_fst (by assumption)
    | (extract_lets -useContext +onlyGivenNames x; refine (fun (hx : Keeps ps z x) => ?_) ?_; clear_value x; revert x; intro _ _; rotate_left; unfold x; clear x; rotate_left)
    | (extract_lets -useContext +onlyGivenNames x; revert x; intro _)
    | with_reducible refine State.setArr_keeps (sub_of (by decide) hp) ?_
    | with_reducible refine tileFail_keeps (sub_of (by decide) hp) ?_
    | with_reducible refine unitEnd_keeps (sub_of (by decide) hp) ?_
    | split
    | (clear_value *; split)
    | with_reducible refine keepsP_eq ?_ (by assumption)
    | with_reducible refine keepsO_eq ?_ (by assumption)
    | with_reducible refine keepsP_mk ?_

theorem execPreloadDone_keeps {ps z} {n : Sys2Proof.ArrayId} {s : Sys2Proof.Machine.State} (hp : [.regs, .isl, .mem, .arr, .seq, .outbox, .pwr, .bridge] ⊆ ps) (h1 : Keeps ps z s) :
    KeepsR ps z (execPreloadDone n s) := by
  unfold execPreloadDone
  repeat' first
    | with_reducible assumption
    | with_reducible exact keepsP_fst (by assumption)
    | (extract_lets -useContext +onlyGivenNames x; refine (fun (hx : Keeps ps z x) => ?_) ?_; clear_value x; revert x; intro _ _; rotate_left; unfold x; clear x; rotate_left)
    | (extract_lets -useContext +onlyGivenNames x; revert x; intro _)
    | with_reducible refine keepsR_next ?_
    | with_reducible exact keepsR_fault
    | with_reducible refine State.setArr_keeps (sub_of (by decide) hp) ?_
    | with_reducible refine noteHazards_keeps (sub_of (by decide) hp) ?_
    | with_reducible refine afterRows_keeps (sub_of (by decide) hp) ?_
    | with_reducible refine useShadow_keeps (sub_of (by decide) hp) ?_
    | split
    | (clear_value *; split)
    | with_reducible refine keepsP_eq ?_ (by assumption)
    | with_reducible refine keepsO_eq ?_ (by assumption)
    | with_reducible refine keepsP_mk ?_

theorem execRampUpDone_keeps {ps z} {n : Sys2Proof.ArrayId} {s : Sys2Proof.Machine.State} (hp : [.regs, .mem, .arr, .seq, .outbox, .pwr, .bridge] ⊆ ps) (h1 : Keeps ps z s) :
    KeepsR ps z (execRampUpDone n s) := by
  unfold execRampUpDone
  repeat' first
    | with_reducible assumption
    | with_reducible exact keepsP_fst (by assumption)
    | (extract_lets -useContext +onlyGivenNames x; refine (fun (hx : Keeps ps z x) => ?_) ?_; clear_value x; revert x; intro _ _; rotate_left; unfold x; clear x; rotate_left)
    | (extract_lets -useContext +onlyGivenNames x; revert x; intro _)
    | with_reducible refine keepsR_next ?_
    | with_reducible exact keepsR_fault
    | with_reducible refine State.setArr_keeps (sub_of (by decide) hp) ?_
    | with_reducible refine countEvent_keeps (sub_of (by decide) hp) ?_
    | with_reducible refine afterRows_keeps (sub_of (by decide) hp) ?_
    | split
    | (clear_value *; split)
    | with_reducible refine keepsP_eq ?_ (by assumption)
    | with_reducible refine keepsO_eq ?_ (by assumption)
    | with_reducible refine keepsP_mk ?_

theorem execRampDownDone_keeps {ps z} {n : Sys2Proof.ArrayId} {s : Sys2Proof.Machine.State} (hp : [.regs, .mem, .arr, .seq, .outbox, .pwr, .bridge] ⊆ ps) (h1 : Keeps ps z s) :
    KeepsR ps z (execRampDownDone n s) := by
  unfold execRampDownDone
  repeat' first
    | with_reducible assumption
    | with_reducible exact keepsP_fst (by assumption)
    | (extract_lets -useContext +onlyGivenNames x; refine (fun (hx : Keeps ps z x) => ?_) ?_; clear_value x; revert x; intro _ _; rotate_left; unfold x; clear x; rotate_left)
    | (extract_lets -useContext +onlyGivenNames x; revert x; intro _)
    | with_reducible refine keepsR_next ?_
    | with_reducible exact keepsR_fault
    | with_reducible refine State.setArr_keeps (sub_of (by decide) hp) ?_
    | with_reducible refine settleArr_keeps (sub_of (by decide) hp) ?_
    | with_reducible refine countEvent_keeps (sub_of (by decide) hp) ?_
    | split
    | (clear_value *; split)
    | with_reducible refine keepsP_eq ?_ (by assumption)
    | with_reducible refine keepsO_eq ?_ (by assumption)
    | with_reducible refine keepsP_mk ?_

theorem execMmFirstRow_keeps {ps z} {n : Sys2Proof.ArrayId} {s : Sys2Proof.Machine.State} (hp : [.isl, .arr, .pwr] ⊆ ps) (h1 : Keeps ps z s) :
    KeepsR ps z (execMmFirstRow n s) := by
  unfold execMmFirstRow
  repeat' first
    | with_reducible assumption
    | with_reducible exact keepsP_fst (by assumption)
    | (extract_lets -useContext +onlyGivenNames x; refine (fun (hx : Keeps ps z x) => ?_) ?_; clear_value x; revert x; intro _ _; rotate_left; unfold x; clear x; rotate_left)
    | (extract_lets -useContext +onlyGivenNames x; revert x; intro _)
    | with_reducible refine keepsR_next ?_
    | with_reducible exact keepsR_fault
    | with_reducible refine follow_keeps (sub_of (by decide) hp) ?_
    | split
    | (clear_value *; split)
    | with_reducible refine keepsP_eq ?_ (by assumption)
    | with_reducible refine keepsO_eq ?_ (by assumption)
    | with_reducible refine keepsP_mk ?_

set_option maxRecDepth 20000 in

theorem execSpillEnd_keeps {ps z} {n : Sys2Proof.ArrayId} {s : Sys2Proof.Machine.State} (hp : [.regs, .mem, .arr, .als, .seq, .outbox, .pwr, .bridge] ⊆ ps) (h1 : Keeps ps z s) :
    KeepsR ps z (execSpillEnd n s) := by
  unfold execSpillEnd
  repeat' first
    | with_reducible assumption
    | with_reducible exact keepsP_fst (by assumption)
    | (extract_lets -useContext +onlyGivenNames x; refine (fun (hx : Keeps ps z x) => ?_) ?_; clear_value x; revert x; intro _ _; rotate_left; unfold x; clear x; rotate_left)
    | (extract_lets -useContext +onlyGivenNames x; revert x; intro _)
    | with_reducible refine keepsR_next ?_
    | with_reducible exact keepsR_fault
    | with_reducible refine advancePost_keeps (sub_of (by decide) hp) ?_
    | with_reducible refine capture_keeps (sub_of (by decide) hp) ?_
    | with_reducible refine afterRows_keeps (sub_of (by decide) hp) ?_
    | with_reducible refine State.setArr_keeps (sub_of (by decide) hp) ?_
    | with_reducible refine State.setReg_keeps (sub_of (by decide) hp) ?_
    | with_reducible refine State.setAls_keeps (sub_of (by decide) hp) ?_ ?_
    | with_reducible refine noteHazards_keeps (sub_of (by decide) hp) ?_
    | split
    | (clear_value *; split)
    | with_reducible refine keepsP_eq ?_ (by assumption)
    | with_reducible refine keepsO_eq ?_ (by assumption)
    | (intro hw; repeat' first | with_reducible exact storeWf_empty | with_reducible refine storeWf_write ?_ | with_reducible refine storeWf_put ?_ | with_reducible refine epilogueAll_wf ?_ | with_reducible refine spillAll_wf ?_ | with_reducible refine spillRows_wf ?_ | with_reducible refine epilogueRows_wf ?_ | with_reducible refine spillFrom_wf ?_ | with_reducible refine vecRowsFrom_wf ?_ | with_reducible refine vecAll_wf ?_ | with_reducible refine storeWf_scrub ?_ | with_reducible refine storeWf_poison ?_ | with_reducible refine storeWf_fold (fun _ _ hu => ?_) ?_ | with_reducible assumption | split | with_reducible exact (Keeps.tidy (by assumption) hw).als _ | with_reducible exact (Keeps.tidy (by assumption) hw).dss _ | with_reducible refine (Keeps.tidy (ps := ps) ?_ hw).als _ | with_reducible refine (Keeps.tidy (ps := ps) ?_ hw).dss _)
    | with_reducible refine keepsP_mk ?_

theorem showEpi_keeps {ps z} {s : Sys2Proof.Machine.State} {n : Nat} {tag : Nat} {active : Bool} {barrier : Bool} (hp : [.regs] ⊆ ps) (h0 : Keeps ps z s) :
    Keeps ps z (showEpi s n tag active barrier) := by
  unfold showEpi
  repeat' first
    | with_reducible assumption
    | with_reducible exact keepsP_fst (by assumption)
    | (extract_lets -useContext +onlyGivenNames x; refine (fun (hx : Keeps ps z x) => ?_) ?_; clear_value x; revert x; intro _ _; rotate_left; unfold x; clear x; rotate_left)
    | (extract_lets -useContext +onlyGivenNames x; revert x; intro _)
    | with_reducible refine State.setReg_keeps (sub_of (by decide) hp) ?_
    | split
    | (clear_value *; split)
    | with_reducible refine keepsP_eq ?_ (by assumption)
    | with_reducible refine keepsO_eq ?_ (by assumption)
    | with_reducible refine keepsP_mk ?_

theorem execEpilogueStart_keeps {ps z} {n : Sys2Proof.ArrayId} {s : Sys2Proof.Machine.State} (hp : [.regs, .arr] ⊆ ps) (h1 : Keeps ps z s) :
    KeepsR ps z (execEpilogueStart n s) := by
  unfold execEpilogueStart
  repeat' first
    | with_reducible assumption
    | with_reducible exact keepsP_fst (by assumption)
    | (extract_lets -useContext +onlyGivenNames x; refine (fun (hx : Keeps ps z x) => ?_) ?_; clear_value x; revert x; intro _ _; rotate_left; unfold x; clear x; rotate_left)
    | (extract_lets -useContext +onlyGivenNames x; revert x; intro _)
    | with_reducible refine keepsR_next ?_
    | with_reducible exact keepsR_fault
    | with_reducible refine showEpi_keeps (sub_of (by decide) hp) ?_
    | with_reducible refine advancePost_keeps (sub_of (by decide) hp) ?_
    | with_reducible refine State.setArr_keeps (sub_of (by decide) hp) ?_
    | split
    | (clear_value *; split)
    | with_reducible refine keepsP_eq ?_ (by assumption)
    | with_reducible refine keepsO_eq ?_ (by assumption)
    | with_reducible refine keepsP_mk ?_

theorem showTile_keeps {ps z} {n : Nat} {d : Nat} {s : Sys2Proof.Machine.State} {a3_ : Sys2Proof.Machine.SubOp × Sys2Proof.Machine.TileStat} (hp : [.regs, .ctx] ⊆ ps) (h2 : Keeps ps z s) :
    Keeps ps z (showTile n d s a3_) := by
  unfold showTile
  repeat' first
    | with_reducible assumption
    | with_reducible exact keepsP_fst (by assumption)
    | (extract_lets -useContext +onlyGivenNames x; refine (fun (hx : Keeps ps z x) => ?_) ?_; clear_value x; revert x; intro _ _; rotate_left; unfold x; clear x; rotate_left)
    | (extract_lets -useContext +onlyGivenNames x; revert x; intro _)
    | with_reducible refine ctxCount_keeps (sub_of (by decide) hp) ?_
    | with_reducible refine State.setReg_keeps (sub_of (by decide) hp) ?_
    | with_reducible refine State.bump_keeps (sub_of (by decide) hp) ?_
    | split
    | (clear_value *; split)
    | with_reducible refine keepsP_eq ?_ (by assumption)
    | with_reducible refine keepsO_eq ?_ (by assumption)
    | with_reducible refine keepsP_mk ?_

theorem execEpilogueEnd_keeps {ps z} {n : Sys2Proof.ArrayId} {s : Sys2Proof.Machine.State} (hp : [.regs, .mem, .arr, .als, .ctx, .seq, .outbox, .pwr, .bridge] ⊆ ps) (h1 : Keeps ps z s) :
    KeepsR ps z (execEpilogueEnd n s) := by
  unfold execEpilogueEnd
  repeat' first
    | with_reducible assumption
    | with_reducible exact keepsP_fst (by assumption)
    | (extract_lets -useContext +onlyGivenNames x; refine (fun (hx : Keeps ps z x) => ?_) ?_; clear_value x; revert x; intro _ _; rotate_left; unfold x; clear x; rotate_left)
    | (extract_lets -useContext +onlyGivenNames x; revert x; intro _)
    | with_reducible refine keepsR_next ?_
    | with_reducible exact keepsR_fault
    | with_reducible refine showEpi_keeps (sub_of (by decide) hp) ?_
    | with_reducible refine advancePost_keeps (sub_of (by decide) hp) ?_
    | with_reducible refine afterRows_keeps (sub_of (by decide) hp) ?_
    | with_reducible refine capture_keeps (sub_of (by decide) hp) ?_
    | with_reducible refine showTile_keeps (sub_of (by decide) hp) ?_
    | with_reducible refine noteHazards_keeps (sub_of (by decide) hp) ?_
    | with_reducible refine State.setArr_keeps (sub_of (by decide) hp) ?_
    | with_reducible refine State.setAls_keeps (sub_of (by decide) hp) ?_ ?_
    | with_reducible refine keeps_foldl (fun t a ht => ?_) ?_
    | with_reducible refine keepsP_foldl (fun t a ht => ?_) ?_
    | split
    | (clear_value *; split)
    | with_reducible refine keepsP_eq ?_ (by assumption)
    | with_reducible refine keepsO_eq ?_ (by assumption)
    | (intro hw; repeat' first | with_reducible exact storeWf_empty | with_reducible refine storeWf_write ?_ | with_reducible refine storeWf_put ?_ | with_reducible refine epilogueAll_wf ?_ | with_reducible refine spillAll_wf ?_ | with_reducible refine spillRows_wf ?_ | with_reducible refine epilogueRows_wf ?_ | with_reducible refine spillFrom_wf ?_ | with_reducible refine vecRowsFrom_wf ?_ | with_reducible refine vecAll_wf ?_ | with_reducible refine storeWf_scrub ?_ | with_reducible refine storeWf_poison ?_ | with_reducible refine storeWf_fold (fun _ _ hu => ?_) ?_ | with_reducible assumption | split | with_reducible exact (Keeps.tidy (by assumption) hw).als _ | with_reducible exact (Keeps.tidy (by assumption) hw).dss _ | with_reducible refine (Keeps.tidy (ps := ps) ?_ hw).als _ | with_reducible refine (Keeps.tidy (ps := ps) ?_ hw).dss _)
    | with_reducible refine keepsP_mk ?_

theorem execMmInstructionComplete_keeps {ps z} {n : Sys2Proof.ArrayId} {s : Sys2Proof.Machine.State} (hp : [.regs, .arr, .ctx, .seq] ⊆ ps) (h1 : Keeps ps z s) :
    KeepsR ps z (execMmInstructionComplete n s) := by
  unfold execMmInstructionComplete
  repeat' first
    | with_reducible assumption
    | with_reducible exact keepsP_fst (by assumption)
    | (extract_lets -useContext +onlyGivenNames x; refine (fun (hx : Keeps ps z x) => ?_) ?_; clear_value x; revert x; intro _ _; rotate_left; unfold x; clear x; rotate_left)
    | (extract_lets -useContext +onlyGivenNames x; revert x; intro _)
    | with_reducible refine keepsR_next ?_
    | with_reducible exact keepsR_fault
    | with_reducible refine ctxCount_keeps (sub_of (by decide) hp) ?_
    | with_reducible refine State.setSeq_keeps (sub_of (by decide) hp) ?_
    | with_reducible refine State.setReg_keeps (sub_of (by decide) hp) ?_
    | with_reducible refine State.setArr_keeps (sub_of (by decide) hp) ?_
    | split
    | (clear_value *; split)
    | with_reducible refine keepsP_eq ?_ (by assumption)
    | with_reducible refine keepsO_eq ?_ (by assumption)
    | with_reducible refine keepsP_mk ?_

theorem execAccEccError_keeps {ps z} {n : Sys2Proof.ArrayId} {row : Fin 4096} {col : Fin 512} {uncorrectable : Bool} {tag : Fin 65536} {s : Sys2Proof.Machine.State} (hp : [.regs, .mem, .arr, .outbox, .bridge] ⊆ ps) (h5 : Keeps ps z s) :
    KeepsR ps z (execAccEccError n row col uncorrectable tag s) := by
  unfold execAccEccError
  repeat' first
    | with_reducible assumption
    | with_reducible exact keepsP_fst (by assumption)
    | (extract_lets -useContext +onlyGivenNames x; refine (fun (hx : Keeps ps z x) => ?_) ?_; clear_value x; revert x; intro _ _; rotate_left; unfold x; clear x; rotate_left)
    | (extract_lets -useContext +onlyGivenNames x; revert x; intro _)
    | with_reducible refine keepsR_next ?_
    | with_reducible exact keepsR_fault
    | with_reducible refine capture_keeps (sub_of (by decide) hp) ?_
    | with_reducible refine State.setArr_keeps (sub_of (by decide) hp) ?_
    | with_reducible refine State.bump_keeps (sub_of (by decide) hp) ?_
    | split
    | (clear_value *; split)
    | with_reducible refine keepsP_eq ?_ (by assumption)
    | with_reducible refine keepsO_eq ?_ (by assumption)
    | with_reducible refine keepsP_mk ?_

theorem issueTld_keeps {ps z} {s : Sys2Proof.Machine.State} {n : Nat} {addr : Nat} {first : Nat} {count : Nat} (hp : [.regs, .arr] ⊆ ps) (h0 : Keeps ps z s) :
    Keeps ps z (issueTld s n addr first count) := by
  unfold issueTld
  repeat' first
    | with_reducible assumption
    | with_reducible exact keepsP_fst (by assumption)
    | (extract_lets -useContext +onlyGivenNames x; refine (fun (hx : Keeps ps z x) => ?_) ?_; clear_value x; revert x; intro _ _; rotate_left; unfold x; clear x; rotate_left)
    | (extract_lets -useContext +onlyGivenNames x; revert x; intro _)
    | with_reducible refine State.setReg_keeps (sub_of (by decide) hp) ?_
    | with_reducible refine State.setArr_keeps (sub_of (by decide) hp) ?_
    | split
    | (clear_value *; split)
    | with_reducible refine keepsP_eq ?_ (by assumption)
    | with_reducible refine keepsO_eq ?_ (by assumption)
    | with_reducible refine keepsP_mk ?_

theorem execTableLoadDone_keeps {ps z} {n : Sys2Proof.ArrayId} {s : Sys2Proof.Machine.State} (hp : [.regs, .mem, .arr, .seq, .outbox, .pwr, .bridge] ⊆ ps) (h1 : Keeps ps z s) :
    KeepsR ps z (execTableLoadDone n s) := by
  unfold execTableLoadDone
  repeat' first
    | with_reducible assumption
    | with_reducible exact keepsP_fst (by assumption)
    | (extract_lets -useContext +onlyGivenNames x; refine (fun (hx : Keeps ps z x) => ?_) ?_; clear_value x; revert x; intro _ _; rotate_left; unfold x; clear x; rotate_left)
    | (extract_lets -useContext +onlyGivenNames x; revert x; intro _)
    | with_reducible refine keepsR_next ?_
    | with_reducible exact keepsR_fault
    | with_reducible refine State.setSeq_keeps (sub_of (by decide) hp) ?_
    | with_reducible refine capture_keeps (sub_of (by decide) hp) ?_
    | with_reducible refine State.setReg_keeps (sub_of (by decide) hp) ?_
    | with_reducible refine State.setArr_keeps (sub_of (by decide) hp) ?_
    | with_reducible refine noteHazard_keeps (sub_of (by decide) hp) ?_
    | with_reducible refine afterRows_keeps (sub_of (by decide) hp) ?_
    | split
    | (clear_value *; split)
    | with_reducible refine keepsP_eq ?_ (by assumption)
    | with_reducible refine keepsO_eq ?_ (by assumption)
    | with_reducible refine keepsP_mk ?_

theorem arrBoundary_keeps {ps z} {s : Sys2Proof.Machine.State} {n : Nat} (hp : [.regs, .arr] ⊆ ps) (h0 : Keeps ps z s) :
    Keeps ps z (arrBoundary s n) := by
  unfold arrBoundary
  repeat' first
    | with_reducible assumption
    | with_reducible exact keepsP_fst (by assumption)
    | (extract_lets -useContext +onlyGivenNames x; refine (fun (hx : Keeps ps z x) => ?_) ?_; clear_value x; revert x; intro _ _; rotate_left; unfold x; clear x; rotate_left)
    | (extract_lets -useContext +onlyGivenNames x; revert x; intro _)
    | with_reducible refine State.setArr_keeps (sub_of (by decide) hp) ?_
    | with_reducible refine showBarrier_keeps (sub_of (by decide) hp) ?_
    | split
    | (clear_value *; split)
    | with_reducible refine keepsP_eq ?_ (by assumption)
    | with_reducible refine keepsO_eq ?_ (by assumption)
    | with_reducible refine keepsP_mk ?_

theorem reachSpill_keeps {ps z} {s : Sys2Proof.Machine.State} {n : Nat} {k : Nat} {p : Sys2Proof.Machine.MmPost} (hp : [.arr, .als, .draws] ⊆ ps) (h0 : Keeps ps z s) :
    Keeps ps z (reachSpill s n k p) := by
  unfold reachSpill
  repeat' first
    | with_reducible assumption
    | with_reducible exact keepsP_fst (by assumption)
    | (extract_lets -useContext +onlyGivenNames x; refine (fun (hx : Keeps ps z x) => ?_) ?_; clear_value x; revert x; intro _ _; rotate_left; unfold x; clear x; rotate_left)
    | (extract_lets -useContext +onlyGivenNames x; revert x; intro _)
    | with_reducible refine State.setAls_keeps (sub_of (by decide) hp) ?_ ?_
    | with_reducible refine State.setArr_keeps (sub_of (by decide) hp) ?_
    | split
    | (clear_value *; split)
    | with_reducible refine keeps_with_draws (mem_of (by decide) hp) ?_
    | with_reducible refine keepsP_eq ?_ (by assumption)
    | with_reducible refine keepsO_eq ?_ (by assumption)
    | (intro hw; repeat' first | with_reducible exact storeWf_empty | with_reducible refine storeWf_write ?_ | with_reducible refine storeWf_put ?_ | with_reducible refine epilogueAll_wf ?_ | with_reducible refine spillAll_wf ?_ | with_reducible refine spillRows_wf ?_ | with_reducible refine epilogueRows_wf ?_ | with_reducible refine spillFrom_wf ?_ | with_reducible refine vecRowsFrom_wf ?_ | with_reducible refine vecAll_wf ?_ | with_reducible refine storeWf_scrub ?_ | with_reducible refine storeWf_poison ?_ | with_reducible refine storeWf_fold (fun _ _ hu => ?_) ?_ | with_reducible assumption | split | with_reducible exact (Keeps.tidy (by assumption) hw).als _ | with_reducible exact (Keeps.tidy (by assumption) hw).dss _ | with_reducible refine (Keeps.tidy (ps := ps) ?_ hw).als _ | with_reducible refine (Keeps.tidy (ps := ps) ?_ hw).dss _)
    | with_reducible refine keepsP_mk ?_

theorem reachEpilogue_keeps {ps z} {s : Sys2Proof.Machine.State} {n : Nat} {k : Nat} {p : Sys2Proof.Machine.MmPost} (hp : [.arr, .als, .draws] ⊆ ps) (h0 : Keeps ps z s) :
    Keeps ps z (reachEpilogue s n k p) := by
  unfold reachEpilogue
  repeat' first
    | with_reducible assumption
    | with_reducible exact keepsP_fst (by assumption)
    | (extract_lets -useContext +onlyGivenNames x; refine (fun (hx : Keeps ps z x) => ?_) ?_; clear_value x; revert x; intro _ _; rotate_left; unfold x; clear x; rotate_left)
    | (extract_lets -useContext +onlyGivenNames x; revert x; intro _)
    | with_reducible refine State.setAls_keeps (sub_of (by decide) hp) ?_ ?_
    | with_reducible refine State.setArr_keeps (sub_of (by decide) hp) ?_
    | split
    | (clear_value *; split)
    | with_reducible refine keeps_with_draws (mem_of (by decide) hp) ?_
    | with_reducible refine keepsP_eq ?_ (by assumption)
    | with_reducible refine keepsO_eq ?_ (by assumption)
    | (intro hw; repeat' first | with_reducible exact storeWf_empty | with_reducible refine storeWf_write ?_ | with_reducible refine storeWf_put ?_ | with_reducible refine epilogueAll_wf ?_ | with_reducible refine spillAll_wf ?_ | with_reducible refine spillRows_wf ?_ | with_reducible refine epilogueRows_wf ?_ | with_reducible refine spillFrom_wf ?_ | with_reducible refine vecRowsFrom_wf ?_ | with_reducible refine vecAll_wf ?_ | with_reducible refine storeWf_scrub ?_ | with_reducible refine storeWf_poison ?_ | with_reducible refine storeWf_fold (fun _ _ hu => ?_) ?_ | with_reducible assumption | split | with_reducible exact (Keeps.tidy (by assumption) hw).als _ | with_reducible exact (Keeps.tidy (by assumption) hw).dss _ | with_reducible refine (Keeps.tidy (ps := ps) ?_ hw).als _ | with_reducible refine (Keeps.tidy (ps := ps) ?_ hw).dss _)
    | with_reducible refine keepsP_mk ?_

theorem reachArr_keeps {ps z} {s : Sys2Proof.Machine.State} {n : Nat} (hp : [.arr, .als, .draws] ⊆ ps) (h0 : Keeps ps z s) :
    Keeps ps z (reachArr s n) := by
  unfold reachArr
  repeat' first
    | with_reducible assumption
    | with_reducible exact keepsP_fst (by assumption)
    | (extract_lets -useContext +onlyGivenNames x; refine (fun (hx : Keeps ps z x) => ?_) ?_; clear_value x; revert x; intro _ _; rotate_left; unfold x; clear x; rotate_left)
    | (extract_lets -useContext +onlyGivenNames x; have _hx : ∀ a, x a = x a := fun _ => rfl; clear _hx; unfold x; clear x)
    | (extract_lets -useContext +onlyGivenNames x; revert x; intro _)
    | with_reducible refine State.setArr_keeps (sub_of (by decide) hp) ?_
    | with_reducible refine reachEpilogue_keeps (sub_of (by decide) hp) ?_
    | with_reducible refine reachSpill_keeps (sub_of (by decide) hp) ?_
    | with_reducible refine keeps_foldl (fun t a ht => ?_) ?_
    | with_reducible refine keepsP_foldl (fun t a ht => ?_) ?_
    | split
    | (clear_value *; split)
    | with_reducible refine keeps_with_draws (mem_of (by decide) hp) ?_
    | with_reducible refine keepsP_eq ?_ (by assumption)
    | with_reducible refine keepsO_eq ?_ (by assumption)
    | with_reducible refine keepsP_mk ?_

end Sys2Proof.Machine
end

