-- ==== Sys2Proof/Laws/FrameVector.lean ====
section
/-!
SUPPORT. Frames: for each operation of Sys2Proof/Machine/Vector.lean, the parts of State it may change, and that it keeps the stores'
canonical form.
-/
namespace Sys2Proof.Machine

open Sys2Proof

theorem vecFail_keeps {ps z} {s : Sys2Proof.Machine.State} {n : Nat} {status : Nat} {code : Nat} {addr : Nat} {itag : Nat} {row : Nat} (hp : [.regs, .mem, .vec, .seq, .outbox, .bridge] ⊆ ps) (h0 : Keeps ps z s) :
    Keeps ps z (vecFail s n status code addr itag row) := by
  unfold vecFail
  repeat' first
    | with_reducible assumption
    | with_reducible exact keepsP_fst (by assumption)
    | (extract_lets -useContext +onlyGivenNames x; refine (fun (hx : Keeps ps z x) => ?_) ?_; clear_value x; revert x; intro _ _; rotate_left; unfold x; clear x; rotate_left)
    | (extract_lets -useContext +onlyGivenNames x; revert x; intro _)
    | with_reducible refine capture_keeps (sub_of (by decide) hp) ?_
    | with_reducible refine State.setVec_keeps (sub_of (by decide) hp) ?_
    | with_reducible refine State.setReg_keeps (sub_of (by decide) hp) ?_
    | with_reducible refine noteFailure_keeps (sub_of (by decide) hp) ?_
    | split
    | (clear_value *; split)
    | with_reducible refine keepsP_eq ?_ (by assumption)
    | with_reducible refine keepsO_eq ?_ (by assumption)
    | with_reducible refine keepsP_mk ?_

theorem kickVec_keeps {ps z} {s : Sys2Proof.Machine.State} {n : Nat} (hp : [.regs, .mem, .vec, .seq, .outbox, .pwr, .bridge] ⊆ ps) (h0 : Keeps ps z s) :
    Keeps ps z (kickVec s n) := by
  unfold kickVec
  repeat' first
    | with_reducible assumption
    | with_reducible exact keepsP_fst (by assumption)
    | (extract_lets -useContext +onlyGivenNames x; refine (fun (hx : Keeps ps z x) => ?_) ?_; clear_value x; revert x; intro _ _; rotate_left; unfold x; clear x; rotate_left)
    | (extract_lets -useContext +onlyGivenNames x; revert x; intro _)
    | with_reducible refine State.setVec_keeps (sub_of (by decide) hp) ?_
    | with_reducible refine unitBegin_keeps (sub_of (by decide) hp) ?_
    | with_reducible refine vecFail_keeps (sub_of (by decide) hp) ?_
    | split
    | (clear_value *; split)
    | with_reducible refine keepsP_eq ?_ (by assumption)
    | with_reducible refine keepsO_eq ?_ (by assumption)
    | with_reducible refine keepsP_mk ?_

/-- The stores of a vector run go back to the array. -/
theorem takeRun_keeps {ps z} {s : State} {n d rows : Nat} {x : VecRun} (hp : [.regs, .vec, .als, .ctx] ⊆ ps) (h0 : Keeps ps z s)
    (hv : z.tidy → tabWf 0 x.als.bytes = true) : Keeps ps z (takeRun s n d rows x) := by
  unfold takeRun
  extract_lets v s1 s2 s3 s4 k
  have h4 : Keeps ps z s4 := State.bump_keeps (sub_of (by decide) hp)
    (State.setVec_keeps (sub_of (by decide) hp) (State.setAls_keeps (sub_of (by decide) hp) (noteHazards_keeps (sub_of (by decide) hp) h0) hv))
  split
  · exact h4
  · exact countEvent_keeps (sub_of (by decide) hp) (ctxCount_keeps (sub_of (by decide) hp) h4)

theorem reachRow_keeps {ps z} {s : Sys2Proof.Machine.State} {n : Nat} (hp : [.regs, .vec, .als, .ctx, .draws] ⊆ ps) (h0 : Keeps ps z s) :
    Keeps ps z (reachRow s n) := by
  unfold reachRow
  repeat' first
    | with_reducible assumption
    | with_reducible exact keepsP_fst (by assumption)
    | (extract_lets -useContext +onlyGivenNames x; refine (fun (hx : Keeps ps z x) => ?_) ?_; clear_value x; revert x; intro _ _; rotate_left; unfold x; clear x; rotate_left)
    | (extract_lets -useContext +onlyGivenNames x; revert x; intro _)
    | with_reducible refine takeRun_keeps (sub_of (by decide) hp) ?_ ?_
    | split
    | (clear_value *; split)
    | with_reducible refine keeps_with_draws (mem_of (by decide) hp) ?_
    | with_reducible refine keepsP_eq ?_ (by assumption)
    | with_reducible refine keepsO_eq ?_ (by assumption)
    | (intro hw; repeat' first | with_reducible exact storeWf_empty | with_reducible refine storeWf_write ?_ | with_reducible refine storeWf_put ?_ | with_reducible refine epilogueAll_wf ?_ | with_reducible refine spillAll_wf ?_ | with_reducible refine spillRows_wf ?_ | with_reducible refine epilogueRows_wf ?_ | with_reducible refine spillFrom_wf ?_ | with_reducible refine vecRowsFrom_wf ?_ | with_reducible refine vecAll_wf ?_ | with_reducible refine storeWf_scrub ?_ | with_reducible refine storeWf_poison ?_ | with_reducible refine storeWf_fold (fun _ _ hu => ?_) ?_ | with_reducible assumption | split | with_reducible exact (Keeps.tidy (by assumption) hw).als _ | with_reducible exact (Keeps.tidy (by assumption) hw).dss _ | with_reducible refine (Keeps.tidy (ps := ps) ?_ hw).als _ | with_reducible refine (Keeps.tidy (ps := ps) ?_ hw).dss _)
    | with_reducible refine keepsP_mk ?_

theorem settleVec_keeps {ps z} {s : Sys2Proof.Machine.State} {n : Nat} (hp : [.regs, .mem, .vec, .als, .ctx, .seq, .outbox, .draws, .pwr, .bridge] ⊆ ps) (h0 : Keeps ps z s) :
    Keeps ps z (settleVec s n) := by
  unfold settleVec
  repeat' first
    | with_reducible assumption
    | with_reducible exact keepsP_fst (by assumption)
    | (extract_lets -useContext +onlyGivenNames x; refine (fun (hx : Keeps ps z x) => ?_) ?_; clear_value x; revert x; intro _ _; rotate_left; unfold x; clear x; rotate_left)
    | (extract_lets -useContext +onlyGivenNames x; revert x; intro _)
    | with_reducible refine State.setVec_keeps (sub_of (by decide) hp) ?_
    | with_reducible refine kickVec_keeps (sub_of (by decide) hp) ?_
    | with_reducible refine reachRow_keeps (sub_of (by decide) hp) ?_
    | split
    | (clear_value *; split)
    | with_reducible refine keepsP_eq ?_ (by assumption)
    | with_reducible refine keepsO_eq ?_ (by assumption)
    | with_reducible refine keepsP_mk ?_

theorem issueVec_keeps {ps z} {s : Sys2Proof.Machine.State} {n : Nat} {addr : Nat} {seed : Nat} {step : Nat} (hp : [.regs, .mem, .vec, .als, .ctx, .seq, .outbox, .draws, .pwr, .bridge] ⊆ ps) (h0 : Keeps ps z s) :
    Keeps ps z (issueVec s n addr seed step) := by
  unfold issueVec
  repeat' first
    | with_reducible assumption
    | with_reducible exact keepsP_fst (by assumption)
    | (extract_lets -useContext +onlyGivenNames x; refine (fun (hx : Keeps ps z x) => ?_) ?_; clear_value x; revert x; intro _ _; rotate_left; unfold x; clear x; rotate_left)
    | (extract_lets -useContext +onlyGivenNames x; revert x; intro _)
    | with_reducible refine State.setVec_keeps (sub_of (by decide) hp) ?_
    | with_reducible refine noteHazard_keeps (sub_of (by decide) hp) ?_
    | with_reducible refine settleVec_keeps (sub_of (by decide) hp) ?_
    | split
    | (clear_value *; split)
    | with_reducible refine keepsP_eq ?_ (by assumption)
    | with_reducible refine keepsO_eq ?_ (by assumption)
    | with_reducible refine keepsP_mk ?_

theorem execVecInstructionEnd_keeps {ps z} {n : Sys2Proof.ArrayId} {s : Sys2Proof.Machine.State} (hp : [.regs, .isl, .mem, .vec, .als, .ctx, .seq, .outbox, .draws, .pwr, .bridge] ⊆ ps) (h1 : Keeps ps z s) :
    KeepsR ps z (execVecInstructionEnd n s) := by
  unfold execVecInstructionEnd
  repeat' first
    | with_reducible assumption
    | with_reducible exact keepsP_fst (by assumption)
    | (extract_lets -useContext +onlyGivenNames x; refine (fun (hx : Keeps ps z x) => ?_) ?_; clear_value x; revert x; intro _ _; rotate_left; unfold x; clear x; rotate_left)
    | (extract_lets -useContext +onlyGivenNames x; revert x; intro _)
    | with_reducible refine keepsR_next ?_
    | with_reducible exact keepsR_fault
    | with_reducible refine State.setSeq_keeps (sub_of (by decide) hp) ?_
    | with_reducible refine State.setReg_keeps (sub_of (by decide) hp) ?_
    | with_reducible refine State.setVec_keeps (sub_of (by decide) hp) ?_
    | with_reducible refine vecFail_keeps (sub_of (by decide) hp) ?_
    | with_reducible refine takeRun_keeps (sub_of (by decide) hp) ?_ ?_
    | with_reducible refine unitEnd_keeps (sub_of (by decide) hp) ?_
    | with_reducible refine settleVec_keeps (sub_of (by decide) hp) ?_
    | split
    | (clear_value *; split)
    | with_reducible refine keepsP_eq ?_ (by assumption)
    | with_reducible refine keepsO_eq ?_ (by assumption)
    | with_reducible refine keepsO_getD ?_ ?_
    | (intro hw; repeat' first | with_reducible exact storeWf_empty | with_reducible refine storeWf_write ?_ | with_reducible refine storeWf_put ?_ | with_reducible refine epilogueAll_wf ?_ | with_reducible refine spillAll_wf ?_ | with_reducible refine spillRows_wf ?_ | with_reducible refine epilogueRows_wf ?_ | with_reducible refine spillFrom_wf ?_ | with_reducible refine vecRowsFrom_wf ?_ | with_reducible refine vecAll_wf ?_ | with_reducible refine storeWf_scrub ?_ | with_reducible refine storeWf_poison ?_ | with_reducible refine storeWf_fold (fun _ _ hu => ?_) ?_ | with_reducible assumption | split | with_reducible exact (Keeps.tidy (by assumption) hw).als _ | with_reducible exact (Keeps.tidy (by assumption) hw).dss _ | with_reducible refine (Keeps.tidy (ps := ps) ?_ hw).als _ | with_reducible refine (Keeps.tidy (ps := ps) ?_ hw).dss _)
    | with_reducible refine keepsP_mk ?_

theorem vecAbortAt_keeps {ps z} {s : Sys2Proof.Machine.State} {n : Nat} {rows : Nat} (hp : [.regs, .isl, .mem, .vec, .als, .ctx, .seq, .outbox, .draws, .pwr, .bridge] ⊆ ps) (h0 : Keeps ps z s) :
    Keeps ps z (vecAbortAt s n rows) := by
  unfold vecAbortAt
  repeat' first
    | with_reducible assumption
    | with_reducible exact keepsP_fst (by assumption)
    | (extract_lets -useContext +onlyGivenNames x; refine (fun (hx : Keeps ps z x) => ?_) ?_; clear_value x; revert x; intro _ _; rotate_left; unfold x; clear x; rotate_left)
    | (extract_lets -useContext +onlyGivenNames x; revert x; intro _)
    | with_reducible refine takeRun_keeps (sub_of (by decide) hp) ?_ ?_
    | with_reducible refine unitEnd_keeps (sub_of (by decide) hp) ?_
    | with_reducible refine State.setVec_keeps (sub_of (by decide) hp) ?_
    | with_reducible refine settleVec_keeps (sub_of (by decide) hp) ?_
    | split
    | (clear_value *; split)
    | with_reducible refine keepsP_eq ?_ (by assumption)
    | with_reducible refine keepsO_eq ?_ (by assumption)
    | (intro hw; repeat' first | with_reducible exact storeWf_empty | with_reducible refine storeWf_write ?_ | with_reducible refine storeWf_put ?_ | with_reducible refine epilogueAll_wf ?_ | with_reducible refine spillAll_wf ?_ | with_reducible refine spillRows_wf ?_ | with_reducible refine epilogueRows_wf ?_ | with_reducible refine spillFrom_wf ?_ | with_reducible refine vecRowsFrom_wf ?_ | with_reducible refine vecAll_wf ?_ | with_reducible refine storeWf_scrub ?_ | with_reducible refine storeWf_poison ?_ | with_reducible refine storeWf_fold (fun _ _ hu => ?_) ?_ | with_reducible assumption | split | with_reducible exact (Keeps.tidy (by assumption) hw).als _ | with_reducible exact (Keeps.tidy (by assumption) hw).dss _ | with_reducible refine (Keeps.tidy (ps := ps) ?_ hw).als _ | with_reducible refine (Keeps.tidy (ps := ps) ?_ hw).dss _)
    | with_reducible refine keepsP_mk ?_

theorem vecBoundary_keeps {ps z} {s : Sys2Proof.Machine.State} {n : Nat} (hp : [.vec] ⊆ ps) (h0 : Keeps ps z s) :
    Keeps ps z (vecBoundary s n) := by
  unfold vecBoundary
  repeat' first
    | with_reducible assumption
    | with_reducible exact keepsP_fst (by assumption)
    | (extract_lets -useContext +onlyGivenNames x; refine (fun (hx : Keeps ps z x) => ?_) ?_; clear_value x; revert x; intro _ _; rotate_left; unfold x; clear x; rotate_left)
    | (extract_lets -useContext +onlyGivenNames x; revert x; intro _)
    | with_reducible refine State.setVec_keeps (sub_of (by decide) hp) ?_
    | split
    | (clear_value *; split)
    | with_reducible refine keepsP_eq ?_ (by assumption)
    | with_reducible refine keepsO_eq ?_ (by assumption)
    | with_reducible refine keepsP_mk ?_

end Sys2Proof.Machine
end

