-- ==== Sys2Proof/Laws/FrameStores.lean ====
section
/-!
SUPPORT. Frames: for each operation of Sys2Proof/Machine/Stores.lean, the parts of State it may change, and that it keeps the stores'
canonical form.
-/
namespace Sys2Proof.Machine

open Sys2Proof

theorem execAlsEccError_keeps {ps z} {st : Sys2Proof.StoreRef} {addr : Nat} {uncorrectable : Bool} {s : Sys2Proof.Machine.State} (hp : [.regs, .mem, .als, .dss, .outbox, .bridge] ⊆ ps) (h3 : Keeps ps z s) :
    KeepsR ps z (execAlsEccError st addr uncorrectable s) := by
  unfold execAlsEccError
  repeat' first
    | with_reducible assumption
    | with_reducible exact keepsP_fst (by assumption)
    | (extract_lets -useContext +onlyGivenNames x; refine (fun (hx : Keeps ps z x) => ?_) ?_; clear_value x; revert x; intro _ _; rotate_left; unfold x; clear x; rotate_left)
    | (extract_lets -useContext +onlyGivenNames x; revert x; intro _)
    | with_reducible refine keepsR_next ?_
    | with_reducible exact keepsR_fault
    | with_reducible refine State.setDss_keeps (sub_of (by decide) hp) ?_ ?_
    | with_reducible refine State.setAls_keeps (sub_of (by decide) hp) ?_ ?_
    | with_reducible refine capture_keeps (sub_of (by decide) hp) ?_
    | with_reducible refine State.bump_keeps (sub_of (by decide) hp) ?_
    | split
    | (clear_value *; split)
    | with_reducible refine keepsP_eq ?_ (by assumption)
    | with_reducible refine keepsO_eq ?_ (by assumption)
    | (intro hw; repeat' first | with_reducible exact storeWf_empty | with_reducible refine storeWf_write ?_ | with_reducible refine storeWf_put ?_ | with_reducible refine epilogueAll_wf ?_ | with_reducible refine spillAll_wf ?_ | with_reducible refine spillRows_wf ?_ | with_reducible refine epilogueRows_wf ?_ | with_reducible refine spillFrom_wf ?_ | with_reducible refine vecRowsFrom_wf ?_ | with_reducible refine vecAll_wf ?_ | with_reducible refine storeWf_scrub ?_ | with_reducible refine storeWf_poison ?_ | with_reducible refine storeWf_fold (fun _ _ hu => ?_) ?_ | with_reducible assumption | split | with_reducible exact (Keeps.tidy (by assumption) hw).als _ | with_reducible exact (Keeps.tidy (by assumption) hw).dss _ | with_reducible refine (Keeps.tidy (ps := ps) ?_ hw).als _ | with_reducible refine (Keeps.tidy (ps := ps) ?_ hw).dss _)
    | with_reducible refine keepsP_mk ?_

theorem reachBursts_keeps {ps z} {s : Sys2Proof.Machine.State} {n : Nat} (hp : [.dma, .draws] ⊆ ps) (h0 : Keeps ps z s) :
    Keeps ps z (reachBursts s n) := by
  unfold reachBursts
  repeat' first
    | with_reducible assumption
    | with_reducible exact keepsP_fst (by assumption)
    | (extract_lets -useContext +onlyGivenNames x; refine (fun (hx : Keeps ps z x) => ?_) ?_; clear_value x; revert x; intro _ _; rotate_left; unfold x; clear x; rotate_left)
    | (extract_lets -useContext +onlyGivenNames x; revert x; intro _)
    | split
    | (clear_value *; split)
    | with_reducible refine keeps_with_dma_draws (mem_of (by decide) hp) (mem_of (by decide) hp) ?_
    | with_reducible refine keepsP_eq ?_ (by assumption)
    | with_reducible refine keepsO_eq ?_ (by assumption)
    | with_reducible refine keepsP_mk ?_

theorem requestScrub_keeps {ps z} {s : Sys2Proof.Machine.State} {n : Nat} (hp : [.regs, .arr, .vec, .als, .alsScrub, .dma, .ctx, .draws] ⊆ ps) (h0 : Keeps ps z s) :
    Keeps ps z (requestScrub s n) := by
  unfold requestScrub
  repeat' first
    | with_reducible assumption
    | with_reducible exact keepsP_fst (by assumption)
    | (extract_lets -useContext +onlyGivenNames x; refine (fun (hx : Keeps ps z x) => ?_) ?_; clear_value x; revert x; intro _ _; rotate_left; unfold x; clear x; rotate_left)
    | (extract_lets -useContext +onlyGivenNames x; revert x; intro _)
    | with_reducible refine reachRow_keeps (sub_of (by decide) hp) ?_
    | with_reducible refine reachArr_keeps (sub_of (by decide) hp) ?_
    | with_reducible refine reachBursts_keeps (sub_of (by decide) hp) ?_
    | split
    | (clear_value *; split)
    | with_reducible refine keeps_with_alsScrub (mem_of (by decide) hp) ?_
    | with_reducible refine keepsP_eq ?_ (by assumption)
    | with_reducible refine keepsO_eq ?_ (by assumption)
    | with_reducible refine keepsP_mk ?_

theorem execAlsScrubBegin_keeps {ps z} {n : Sys2Proof.ArrayId} {s : Sys2Proof.Machine.State} (hp : [.alsScrub] ⊆ ps) (h1 : Keeps ps z s) :
    KeepsR ps z (execAlsScrubBegin n s) := by
  unfold execAlsScrubBegin
  repeat' first
    | with_reducible assumption
    | with_reducible exact keepsP_fst (by assumption)
    | (extract_lets -useContext +onlyGivenNames x; refine (fun (hx : Keeps ps z x) => ?_) ?_; clear_value x; revert x; intro _ _; rotate_left; unfold x; clear x; rotate_left)
    | (extract_lets -useContext +onlyGivenNames x; revert x; intro _)
    | with_reducible refine keepsR_next ?_
    | with_reducible exact keepsR_fault
    | split
    | (clear_value *; split)
    | with_reducible refine keeps_with_alsScrub (mem_of (by decide) hp) ?_
    | with_reducible refine keepsP_eq ?_ (by assumption)
    | with_reducible refine keepsO_eq ?_ (by assumption)
    | with_reducible refine keepsP_mk ?_

theorem scrubAls_keeps {ps z} {s : Sys2Proof.Machine.State} {n : Nat} (hp : [.als] ⊆ ps) (h0 : Keeps ps z s) :
    Keeps ps z (scrubAls s n) := by
  unfold scrubAls
  repeat' first
    | with_reducible assumption
    | with_reducible exact keepsP_fst (by assumption)
    | (extract_lets -useContext +onlyGivenNames x; refine (fun (hx : Keeps ps z x) => ?_) ?_; clear_value x; revert x; intro _ _; rotate_left; unfold x; clear x; rotate_left)
    | (extract_lets -useContext +onlyGivenNames x; revert x; intro _)
    | with_reducible refine State.setAls_keeps (sub_of (by decide) hp) ?_ ?_
    | split
    | (clear_value *; split)
    | with_reducible refine keepsP_eq ?_ (by assumption)
    | with_reducible refine keepsO_eq ?_ (by assumption)
    | (intro hw; repeat' first | with_reducible exact storeWf_empty | with_reducible refine storeWf_write ?_ | with_reducible refine storeWf_put ?_ | with_reducible refine epilogueAll_wf ?_ | with_reducible refine spillAll_wf ?_ | with_reducible refine spillRows_wf ?_ | with_reducible refine epilogueRows_wf ?_ | with_reducible refine spillFrom_wf ?_ | with_reducible refine vecRowsFrom_wf ?_ | with_reducible refine vecAll_wf ?_ | with_reducible refine storeWf_scrub ?_ | with_reducible refine storeWf_poison ?_ | with_reducible refine storeWf_fold (fun _ _ hu => ?_) ?_ | with_reducible assumption | split | with_reducible exact (Keeps.tidy (by assumption) hw).als _ | with_reducible exact (Keeps.tidy (by assumption) hw).dss _ | with_reducible refine (Keeps.tidy (ps := ps) ?_ hw).als _ | with_reducible refine (Keeps.tidy (ps := ps) ?_ hw).dss _)
    | with_reducible refine keepsP_mk ?_

theorem execAlsScrubEnd_keeps {ps z} {n : Sys2Proof.ArrayId} {s : Sys2Proof.Machine.State} (hp : [.regs, .mem, .vec, .als, .alsScrub, .ctx, .seq, .outbox, .draws, .pwr, .bridge] ⊆ ps) (h1 : Keeps ps z s) :
    KeepsR ps z (execAlsScrubEnd n s) := by
  unfold execAlsScrubEnd
  repeat' first
    | with_reducible assumption
    | with_reducible exact keepsP_fst (by assumption)
    | (extract_lets -useContext +onlyGivenNames x; refine (fun (hx : Keeps ps z x) => ?_) ?_; clear_value x; revert x; intro _ _; rotate_left; unfold x; clear x; rotate_left)
    | (extract_lets -useContext +onlyGivenNames x; revert x; intro _)
    | with_reducible refine keepsR_next ?_
    | with_reducible exact keepsR_fault
    | with_reducible refine scrubAls_keeps (sub_of (by decide) hp) ?_
    | with_reducible refine settleVec_keeps (sub_of (by decide) hp) ?_
    | split
    | (clear_value *; split)
    | with_reducible refine keeps_with_alsScrub (mem_of (by decide) hp) ?_
    | with_reducible refine keepsP_eq ?_ (by assumption)
    | with_reducible refine keepsO_eq ?_ (by assumption)
    | with_reducible refine keepsP_mk ?_

theorem writePartOwner_keeps {ps z} {s : Sys2Proof.Machine.State} {d : Nat} {p : Nat} {v : Nat} (hp : [.regs] ⊆ ps) (h0 : Keeps ps z s) :
    Keeps ps z (writePartOwner s d p v) := by
  unfold writePartOwner
  repeat' first
    | with_reducible assumption
    | with_reducible exact keepsP_fst (by assumption)
    | (extract_lets -useContext +onlyGivenNames x; refine (fun (hx : Keeps ps z x) => ?_) ?_; clear_value x; revert x; intro _ _; rotate_left; unfold x; clear x; rotate_left)
    | (extract_lets -useContext +onlyGivenNames x; revert x; intro _)
    | with_reducible refine State.setReg_keeps (sub_of (by decide) hp) ?_
    | split
    | (clear_value *; split)
    | with_reducible refine keepsP_eq ?_ (by assumption)
    | with_reducible refine keepsO_eq ?_ (by assumption)
    | with_reducible refine keepsP_mk ?_

theorem scrubPart_keeps {ps z} {s : Sys2Proof.Machine.State} {d : Nat} {p : Nat} (hp : [.dss] ⊆ ps) (h0 : Keeps ps z s) :
    Keeps ps z (scrubPart s d p) := by
  unfold scrubPart
  repeat' first
    | with_reducible assumption
    | with_reducible exact keepsP_fst (by assumption)
    | (extract_lets -useContext +onlyGivenNames x; refine (fun (hx : Keeps ps z x) => ?_) ?_; clear_value x; revert x; intro _ _; rotate_left; unfold x; clear x; rotate_left)
    | (extract_lets -useContext +onlyGivenNames x; revert x; intro _)
    | with_reducible refine State.setDss_keeps (sub_of (by decide) hp) ?_ ?_
    | split
    | (clear_value *; split)
    | with_reducible refine keepsP_eq ?_ (by assumption)
    | with_reducible refine keepsO_eq ?_ (by assumption)
    | (intro hw; repeat' first | with_reducible exact storeWf_empty | with_reducible refine storeWf_write ?_ | with_reducible refine storeWf_put ?_ | with_reducible refine epilogueAll_wf ?_ | with_reducible refine spillAll_wf ?_ | with_reducible refine spillRows_wf ?_ | with_reducible refine epilogueRows_wf ?_ | with_reducible refine spillFrom_wf ?_ | with_reducible refine vecRowsFrom_wf ?_ | with_reducible refine vecAll_wf ?_ | with_reducible refine storeWf_scrub ?_ | with_reducible refine storeWf_poison ?_ | with_reducible refine storeWf_fold (fun _ _ hu => ?_) ?_ | with_reducible assumption | split | with_reducible exact (Keeps.tidy (by assumption) hw).als _ | with_reducible exact (Keeps.tidy (by assumption) hw).dss _ | with_reducible refine (Keeps.tidy (ps := ps) ?_ hw).als _ | with_reducible refine (Keeps.tidy (ps := ps) ?_ hw).dss _)
    | with_reducible refine keepsP_mk ?_

theorem execDssScrubEnd_keeps {ps z} {d : Sys2Proof.DieId} {p : Fin 16} {s : Sys2Proof.Machine.State} (hp : [.regs, .dss] ⊆ ps) (h2 : Keeps ps z s) :
    KeepsR ps z (execDssScrubEnd d p s) := by
  unfold execDssScrubEnd
  repeat' first
    | with_reducible assumption
    | with_reducible exact keepsP_fst (by assumption)
    | (extract_lets -useContext +onlyGivenNames x; refine (fun (hx : Keeps ps z x) => ?_) ?_; clear_value x; revert x; intro _ _; rotate_left; unfold x; clear x; rotate_left)
    | (extract_lets -useContext +onlyGivenNames x; revert x; intro _)
    | with_reducible refine keepsR_next ?_
    | with_reducible exact keepsR_fault
    | with_reducible refine State.setReg_keeps (sub_of (by decide) hp) ?_
    | with_reducible refine scrubPart_keeps (sub_of (by decide) hp) ?_
    | split
    | (clear_value *; split)
    | with_reducible refine keepsP_eq ?_ (by assumption)
    | with_reducible refine keepsO_eq ?_ (by assumption)
    | with_reducible refine keepsP_mk ?_

end Sys2Proof.Machine
end

