-- ==== Sys2Proof/Laws/FrameDma.lean ====
section
/-!
SUPPORT. Frames: for each operation of Sys2Proof/Machine/Dma.lean, the parts of State it may change, and that it keeps the stores'
canonical form.
-/
namespace Sys2Proof.Machine

open Sys2Proof

theorem State.setChReg_keeps {ps z} {s : Sys2Proof.Machine.State} {k : Nat} {o : Nat} {v : Nat} (hp : [.regs] ⊆ ps) (h0 : Keeps ps z s) :
    Keeps ps z (State.setChReg s k o v) := by
  unfold State.setChReg
  repeat' first
    | with_reducible assumption
    | with_reducible exact keepsP_fst (by assumption)
    | (extract_lets -useContext +onlyGivenNames x; refine (fun (hx : Keeps ps z x) => ?_) ?_; clear_value x; revert x; intro _ _; rotate_left; unfold x; clear x; rotate_left)
    | (extract_lets -useContext +onlyGivenNames x; revert x; intro _)
    | with_reducible refine State.setReg_keeps (sub_of (by decide) hp) ?_
    | split
    | (clear_value *; split)
    | with_reducible refine keepsP_eq ?_ (by assumption)
    | with_reducible refine keepsO_eq ?_ (by assumption)
    | with_reducible refine keepsP_mk ?_

theorem giveStarts_keeps {ps z} {s : Sys2Proof.Machine.State} {k : Nat} {n : Nat} (hp : [.dma] ⊆ ps) (h0 : Keeps ps z s) :
    Keeps ps z (giveStarts s k n) := by
  unfold giveStarts
  repeat' first
    | with_reducible assumption
    | with_reducible exact keepsP_fst (by assumption)
    | (extract_lets -useContext +onlyGivenNames x; refine (fun (hx : Keeps ps z x) => ?_) ?_; clear_value x; revert x; intro _ _; rotate_left; unfold x; clear x; rotate_left)
    | (extract_lets -useContext +onlyGivenNames x; revert x; intro _)
    | with_reducible refine State.setCh_keeps (sub_of (by decide) hp) ?_
    | split
    | (clear_value *; split)
    | with_reducible refine keepsP_eq ?_ (by assumption)
    | with_reducible refine keepsO_eq ?_ (by assumption)
    | with_reducible refine keepsP_mk ?_

theorem execDmaTimerExpiry_keeps {ps z} {d : Sys2Proof.DieId} {c : Sys2Proof.ChanId} {s : Sys2Proof.Machine.State} (hp : [.regs, .dma] ⊆ ps) (h2 : Keeps ps z s) :
    KeepsR ps z (execDmaTimerExpiry d c s) := by
  unfold execDmaTimerExpiry
  repeat' first
    | with_reducible assumption
    | with_reducible exact keepsP_fst (by assumption)
    | (extract_lets -useContext +onlyGivenNames x; refine (fun (hx : Keeps ps z x) => ?_) ?_; clear_value x; revert x; intro _ _; rotate_left; unfold x; clear x; rotate_left)
    | (extract_lets -useContext +onlyGivenNames x; revert x; intro _)
    | with_reducible refine keepsR_next ?_
    | with_reducible exact keepsR_fault
    | with_reducible refine State.setChReg_keeps (sub_of (by decide) hp) ?_
    | with_reducible refine giveStarts_keeps (sub_of (by decide) hp) ?_
    | split
    | (clear_value *; split)
    | with_reducible refine keepsP_eq ?_ (by assumption)
    | with_reducible refine keepsO_eq ?_ (by assumption)
    | with_reducible refine keepsP_mk ?_

theorem writeTimer_keeps {ps z} {s : Sys2Proof.Machine.State} {k : Nat} {v : Nat} (hp : [.regs] ⊆ ps) (h0 : Keeps ps z s) :
    Keeps ps z (writeTimer s k v) := by
  unfold writeTimer
  repeat' first
    | with_reducible assumption
    | with_reducible exact keepsP_fst (by assumption)
    | (extract_lets -useContext +onlyGivenNames x; refine (fun (hx : Keeps ps z x) => ?_) ?_; clear_value x; revert x; intro _ _; rotate_left; unfold x; clear x; rotate_left)
    | (extract_lets -useContext +onlyGivenNames x; revert x; intro _)
    | with_reducible refine State.setChReg_keeps (sub_of (by decide) hp) ?_
    | split
    | (clear_value *; split)
    | with_reducible refine keepsP_eq ?_ (by assumption)
    | with_reducible refine keepsO_eq ?_ (by assumption)
    | with_reducible refine keepsP_mk ?_

theorem dmaFault_keeps {ps z} {s : Sys2Proof.Machine.State} {k : Nat} {code : Nat} {dir : Nat} {burst : Nat} {addr : Nat} {kind : Nat} {arr : Nat} (hp : [.regs, .isl, .mem, .dma, .outbox, .bxl, .pwr, .bridge] ⊆ ps) (h0 : Keeps ps z s) :
    Keeps ps z (dmaFault s k code dir burst addr kind arr) := by
  unfold dmaFault
  repeat' first
    | with_reducible assumption
    | with_reducible exact keepsP_fst (by assumption)
    | (extract_lets -useContext +onlyGivenNames x; refine (fun (hx : Keeps ps z x) => ?_) ?_; clear_value x; revert x; intro _ _; rotate_left; unfold x; clear x; rotate_left)
    | (extract_lets -useContext +onlyGivenNames x; revert x; intro _)
    | with_reducible refine capture_keeps (sub_of (by decide) hp) ?_
    | with_reducible refine State.setChReg_keeps (sub_of (by decide) hp) ?_
    | with_reducible refine State.setCh_keeps (sub_of (by decide) hp) ?_
    | with_reducible refine burstsEnd_keeps (sub_of (by decide) hp) ?_
    | with_reducible refine dropAgent_keeps (sub_of (by decide) hp) ?_
    | split
    | (clear_value *; split)
    | with_reducible refine keepsP_eq ?_ (by assumption)
    | with_reducible refine keepsO_eq ?_ (by assumption)
    | with_reducible refine keepsO_getD ?_ ?_
    | with_reducible refine keepsP_mk ?_

theorem dmaComplete_keeps {ps z} {s : Sys2Proof.Machine.State} {k : Nat} (hp : [.regs, .isl, .dma, .bxl, .pwr] ⊆ ps) (h0 : Keeps ps z s) :
    Keeps ps z (dmaComplete s k) := by
  unfold dmaComplete
  repeat' first
    | with_reducible assumption
    | with_reducible exact keepsP_fst (by assumption)
    | (extract_lets -useContext +onlyGivenNames x; refine (fun (hx : Keeps ps z x) => ?_) ?_; clear_value x; revert x; intro _ _; rotate_left; unfold x; clear x; rotate_left)
    | (extract_lets -useContext +onlyGivenNames x; revert x; intro _)
    | with_reducible refine giveStarts_keeps (sub_of (by decide) hp) ?_
    | with_reducible refine State.setCh_keeps (sub_of (by decide) hp) ?_
    | with_reducible refine State.setChReg_keeps (sub_of (by decide) hp) ?_
    | with_reducible refine burstsEnd_keeps (sub_of (by decide) hp) ?_
    | with_reducible refine dropAgent_keeps (sub_of (by decide) hp) ?_
    | split
    | (clear_value *; split)
    | with_reducible refine keepsP_eq ?_ (by assumption)
    | with_reducible refine keepsO_eq ?_ (by assumption)
    | with_reducible refine keepsP_mk ?_

theorem dmaStop_keeps {ps z} {s : Sys2Proof.Machine.State} {k : Nat} (hp : [.regs, .isl, .dma, .bxl, .pwr] ⊆ ps) (h0 : Keeps ps z s) :
    Keeps ps z (dmaStop s k) := by
  unfold dmaStop
  repeat' first
    | with_reducible assumption
    | with_reducible exact keepsP_fst (by assumption)
    | (extract_lets -useContext +onlyGivenNames x; refine (fun (hx : Keeps ps z x) => ?_) ?_; clear_value x; revert x; intro _ _; rotate_left; unfold x; clear x; rotate_left)
    | (extract_lets -useContext +onlyGivenNames x; revert x; intro _)
    | with_reducible refine State.setChReg_keeps (sub_of (by decide) hp) ?_
    | with_reducible refine State.setCh_keeps (sub_of (by decide) hp) ?_
    | with_reducible refine burstsEnd_keeps (sub_of (by decide) hp) ?_
    | with_reducible refine dropAgent_keeps (sub_of (by decide) hp) ?_
    | split
    | (clear_value *; split)
    | with_reducible refine keepsP_eq ?_ (by assumption)
    | with_reducible refine keepsO_eq ?_ (by assumption)
    | with_reducible refine keepsP_mk ?_

theorem execDmaDescriptorFetch_keeps {ps z} {d : Sys2Proof.DieId} {c : Sys2Proof.ChanId} {s : Sys2Proof.Machine.State} (hp : [.regs, .isl, .mem, .mmu, .dma, .outbox, .bxl, .pwr, .bridge] ⊆ ps) (h2 : Keeps ps z s) :
    KeepsR ps z (execDmaDescriptorFetch d c s) := by
  unfold execDmaDescriptorFetch
  repeat' first
    | with_reducible assumption
    | with_reducible exact keepsP_fst (by assumption)
    | (extract_lets -useContext +onlyGivenNames x; refine (fun (hx : Keeps ps z x) => ?_) ?_; clear_value x; revert x; intro _ _; rotate_left; unfold x; clear x; rotate_left)
    | (extract_lets -useContext +onlyGivenNames x; refine (fun (hx : KeepsP ps z x) => ?_) ?_; clear_value x; revert x; intro _ _; rotate_left; unfold x; clear x; rotate_left)
    | (extract_lets -useContext +onlyGivenNames x; revert x; intro _)
    | with_reducible refine keepsR_next ?_
    | with_reducible exact keepsR_fault
    | with_reducible refine State.setChReg_keeps (sub_of (by decide) hp) ?_
    | with_reducible refine takeAnswers_keeps (sub_of (by decide) hp) ?_
    | with_reducible refine dmaFault_keeps (sub_of (by decide) hp) ?_
    | with_reducible refine memRead_keeps (sub_of (by decide) hp) ?_
    | with_reducible refine keepsP_fst (memRead_keeps (sub_of (by decide) hp) ?_)
    | with_reducible refine keepsP_eq (memRead_keeps (sub_of (by decide) hp) ?_) (by assumption)
    | with_reducible refine State.setCh_keeps (sub_of (by decide) hp) ?_
    | split
    | (clear_value *; split)
    | with_reducible refine keepsP_eq ?_ (by assumption)
    | with_reducible refine keepsO_eq ?_ (by assumption)
    | with_reducible refine keepsP_mk ?_

theorem dmaRead_keeps {ps z} {s : Sys2Proof.Machine.State} {k : Nat} {a2_ : Nat} {b : Nat} {a : Nat} {n : Nat} (hp : [.regs, .mem, .mmu, .outbox, .bxl, .bridge] ⊆ ps) (h0 : Keeps ps z s) :
    KeepsP ps z (dmaRead s k a2_ b a n) := by
  unfold dmaRead
  repeat' first
    | with_reducible assumption
    | with_reducible exact keepsP_fst (by assumption)
    | (extract_lets -useContext +onlyGivenNames x; refine (fun (hx : Keeps ps z x) => ?_) ?_; clear_value x; revert x; intro _ _; rotate_left; unfold x; clear x; rotate_left)
    | (extract_lets -useContext +onlyGivenNames x; refine (fun (hx : KeepsP ps z x) => ?_) ?_; clear_value x; revert x; intro _ _; rotate_left; unfold x; clear x; rotate_left)
    | (extract_lets -useContext +onlyGivenNames x; revert x; intro _)
    | with_reducible refine memRead_keeps (sub_of (by decide) hp) ?_
    | with_reducible refine keepsP_fst (memRead_keeps (sub_of (by decide) hp) ?_)
    | with_reducible refine keepsP_eq (memRead_keeps (sub_of (by decide) hp) ?_) (by assumption)
    | split
    | (clear_value *; split)
    | with_reducible refine keepsP_eq ?_ (by assumption)
    | with_reducible refine keepsO_eq ?_ (by assumption)
    | with_reducible refine keepsP_mk ?_

theorem toWaitArray_keeps {ps z} {s : Sys2Proof.Machine.State} {k : Nat} {a2_ : Nat} (hp : [.dma] ⊆ ps) (h0 : Keeps ps z s) :
    KeepsO ps z (toWaitArray s k a2_) := by
  unfold toWaitArray
  repeat' first
    | with_reducible assumption
    | with_reducible exact keepsP_fst (by assumption)
    | (extract_lets -useContext +onlyGivenNames x; refine (fun (hx : Keeps ps z x) => ?_) ?_; clear_value x; revert x; intro _ _; rotate_left; unfold x; clear x; rotate_left)
    | (extract_lets -useContext +onlyGivenNames x; refine (fun (hx : KeepsO ps z x) => ?_) ?_; clear_value x; revert x; intro _ _; rotate_left; unfold x; clear x; rotate_left)
    | with_reducible exact keepsO_get (by assumption)
    | (extract_lets -useContext +onlyGivenNames x; revert x; intro _)
    | exact keepsO_none
    | with_reducible refine keepsO_some ?_
    | with_reducible refine State.setCh_keeps (sub_of (by decide) hp) ?_
    | split
    | (clear_value *; split)
    | with_reducible refine keepsP_eq ?_ (by assumption)
    | with_reducible refine keepsO_eq ?_ (by assumption)
    | with_reducible refine keepsP_mk ?_

theorem readServed_keeps {ps z} {s : Sys2Proof.Machine.State} {k : Nat} (hp : [.isl] ⊆ ps) (h0 : Keeps ps z s) :
    Keeps ps z (readServed s k) := by
  unfold readServed
  repeat' first
    | with_reducible assumption
    | with_reducible exact keepsP_fst (by assumption)
    | (extract_lets -useContext +onlyGivenNames x; refine (fun (hx : Keeps ps z x) => ?_) ?_; clear_value x; revert x; intro _ _; rotate_left; unfold x; clear x; rotate_left)
    | (extract_lets -useContext +onlyGivenNames x; revert x; intro _)
    | with_reducible refine State.setIsl_keeps (sub_of (by decide) hp) ?_
    | split
    | (clear_value *; split)
    | with_reducible refine keepsP_eq ?_ (by assumption)
    | with_reducible refine keepsO_eq ?_ (by assumption)
    | with_reducible refine keepsP_mk ?_

theorem execDmaBurstIssue_keeps {ps z} {d : Sys2Proof.DieId} {c : Sys2Proof.ChanId} {b : Nat} {s : Sys2Proof.Machine.State} (hp : [.regs, .isl, .mem, .dma, .outbox, .bxl, .pwr, .bridge] ⊆ ps) (h3 : Keeps ps z s) :
    KeepsR ps z (execDmaBurstIssue d c b s) := by
  unfold execDmaBurstIssue
  repeat' first
    | with_reducible assumption
    | with_reducible exact keepsP_fst (by assumption)
    | (extract_lets -useContext +onlyGivenNames x; refine (fun (hx : Keeps ps z x) => ?_) ?_; clear_value x; revert x; intro _ _; rotate_left; unfold x; clear x; rotate_left)
    | (extract_lets -useContext +onlyGivenNames x; refine (fun (hx : KeepsO ps z x) => ?_) ?_; clear_value x; revert x; intro _ _; rotate_left; unfold x; clear x; rotate_left)
    | with_reducible exact keepsO_get (by assumption)
    | (extract_lets -useContext +onlyGivenNames x; revert x; intro _)
    | with_reducible refine keepsR_next ?_
    | with_reducible exact keepsR_fault
    | with_reducible refine State.setCh_keeps (sub_of (by decide) hp) ?_
    | with_reducible refine oweFor_keeps (sub_of (by decide) hp) ?_
    | with_reducible refine dmaFault_keeps (sub_of (by decide) hp) ?_
    | with_reducible refine toWaitArray_keeps (sub_of (by decide) hp) ?_
    | with_reducible refine keepsO_eq (toWaitArray_keeps (sub_of (by decide) hp) ?_) (by assumption)
    | with_reducible refine readServed_keeps (sub_of (by decide) hp) ?_
    | with_reducible refine burstBegin_keeps (sub_of (by decide) hp) ?_
    | split
    | (clear_value *; split)
    | with_reducible refine keepsP_eq ?_ (by assumption)
    | with_reducible refine keepsO_eq ?_ (by assumption)
    | with_reducible refine keepsP_mk ?_

theorem readFault_keeps {ps z} {s : Sys2Proof.Machine.State} {k : Nat} {a2_ : Nat} {b : Nat} {code : Nat} {addr : Nat} (hp : [.regs, .isl, .mem, .dma, .outbox, .bxl, .pwr, .bridge] ⊆ ps) (h0 : Keeps ps z s) :
    Keeps ps z (readFault s k a2_ b code addr) := by
  unfold readFault
  repeat' first
    | with_reducible assumption
    | with_reducible exact keepsP_fst (by assumption)
    | (extract_lets -useContext +onlyGivenNames x; refine (fun (hx : Keeps ps z x) => ?_) ?_; clear_value x; revert x; intro _ _; rotate_left; unfold x; clear x; rotate_left)
    | (extract_lets -useContext +onlyGivenNames x; revert x; intro _)
    | with_reducible refine dmaFault_keeps (sub_of (by decide) hp) ?_
    | split
    | (clear_value *; split)
    | with_reducible refine keepsP_eq ?_ (by assumption)
    | with_reducible refine keepsO_eq ?_ (by assumption)
    | with_reducible refine keepsP_mk ?_

theorem streamPart_keeps {ps z} {s : Sys2Proof.Machine.State} {k : Nat} {a2_ : Nat} {a : Nat} {n : Nat} (hp : [.regs, .mem, .mmu, .outbox, .bxl, .bridge] ⊆ ps) (h0 : Keeps ps z s) :
    KeepsP ps z (streamPart s k a2_ a n) := by
  unfold streamPart
  repeat' first
    | with_reducible assumption
    | with_reducible exact keepsP_fst (by assumption)
    | (extract_lets -useContext +onlyGivenNames x; refine (fun (hx : Keeps ps z x) => ?_) ?_; clear_value x; revert x; intro _ _; rotate_left; unfold x; clear x; rotate_left)
    | (extract_lets -useContext +onlyGivenNames x; refine (fun (hx : KeepsP ps z x) => ?_) ?_; clear_value x; revert x; intro _ _; rotate_left; unfold x; clear x; rotate_left)
    | (extract_lets -useContext +onlyGivenNames x; revert x; intro _)
    | with_reducible refine dmaRead_keeps (sub_of (by decide) hp) ?_
    | with_reducible refine keepsP_fst (dmaRead_keeps (sub_of (by decide) hp) ?_)
    | with_reducible refine keepsP_eq (dmaRead_keeps (sub_of (by decide) hp) ?_) (by assumption)
    | split
    | (clear_value *; split)
    | with_reducible refine keepsP_eq ?_ (by assumption)
    | with_reducible refine keepsO_eq ?_ (by assumption)
    | with_reducible refine keepsP_mk ?_

theorem streamBytes_keeps {ps z} {s : Sys2Proof.Machine.State} {k x a n : Nat} (hp : [.regs, .mem, .mmu, .outbox, .bxl, .bridge] ⊆ ps) (h0 : Keeps ps z s) :
    KeepsP ps z (streamBytes s k x a n) := by
  unfold streamBytes
  extract_lets m
  have h1 : KeepsP ps z (streamPart s k x a m) := streamPart_keeps hp h0
  split
  · rename_i heq
    have h2 := streamPart_keeps (k := k) (a2_ := x) (a := a + m) (n := n - m) hp (keepsP_eq h1 heq)
    split
    · rename_i heq'
      exact keepsP_mk (keepsP_eq h2 heq')
    · exact h2
  · exact h1

theorem streamChunks_keeps {ps z} {k x n : Nat} (hp : [.regs, .mem, .mmu, .outbox, .bxl, .bridge] ⊆ ps) {s : Sys2Proof.Machine.State} {pos : Nat} (h0 : Keeps ps z s) :
    KeepsP ps z (streamChunks s k x n pos) := by
  induction n generalizing s pos with
  | zero => exact h0
  | succ n ih =>
    unfold streamChunks
    extract_lets a
    split
    · exact h0
    have h1 := streamBytes_keeps (k := k) (x := x) (a := a) (n := 8) hp h0
    split
    · rename_i heq
      extract_lets w m
      split
      · exact keepsP_mk (keepsP_eq h1 heq)
      have h2 := streamBytes_keeps (k := k) (x := x) (a := a + 8) (n := m) hp (keepsP_eq h1 heq)
      split
      · rename_i heq'
        have h3 := ih (pos := pos + 8 + m) (keepsP_eq h2 heq')
        split
        · rename_i heq''
          exact keepsP_mk (keepsP_eq h3 heq'')
        · exact h3
      · exact h2
    · exact h1

theorem burstRead_keeps {ps z} {s : Sys2Proof.Machine.State} {k b read : Nat} {out : List Sys2Proof.Byte} {pz : List Bool} {pos : Nat}
    (hp : [.regs, .mem, .dma, .outbox, .bxl] ⊆ ps) (h0 : Keeps ps z s) :
    Keeps ps z (burstRead s k b read out pz pos) := by
  unfold burstRead
  extract_lets s1 y s2
  have h1 : Keeps ps z s1 := takeAnswers_keeps (sub_of (by decide) hp) h0
  exact countEvent_keeps (sub_of (by decide) hp) (State.setCh_keeps (sub_of (by decide) hp) h1)

theorem execDmaBurstReadDone_keeps {ps z} {d : Sys2Proof.DieId} {c : Sys2Proof.ChanId} {b : Nat} {s : Sys2Proof.Machine.State} (hp : [.regs, .isl, .mem, .mmu, .dma, .outbox, .bxl, .pwr, .bridge] ⊆ ps) (h3 : Keeps ps z s) :
    KeepsR ps z (execDmaBurstReadDone d c b s) := by
  unfold execDmaBurstReadDone
  repeat' first
    | with_reducible assumption
    | with_reducible exact keepsP_fst (by assumption)
    | (extract_lets -useContext +onlyGivenNames x; refine (fun (hx : Keeps ps z x) => ?_) ?_; clear_value x; revert x; intro _ _; rotate_left; unfold x; clear x; rotate_left)
    | (extract_lets -useContext +onlyGivenNames x; refine (fun (hx : KeepsP ps z x) => ?_) ?_; clear_value x; revert x; intro _ _; rotate_left; unfold x; clear x; rotate_left)
    | (extract_lets -useContext +onlyGivenNames x; revert x; intro _)
    | with_reducible refine keepsR_next ?_
    | with_reducible exact keepsR_fault
    | with_reducible refine burstRead_keeps (sub_of (by decide) hp) ?_
    | with_reducible refine streamChunks_keeps (sub_of (by decide) hp) ?_
    | with_reducible refine keepsP_fst (streamChunks_keeps (sub_of (by decide) hp) ?_)
    | with_reducible refine keepsP_eq (streamChunks_keeps (sub_of (by decide) hp) ?_) (by assumption)
    | with_reducible refine readFault_keeps (sub_of (by decide) hp) ?_
    | with_reducible refine dmaRead_keeps (sub_of (by decide) hp) ?_
    | with_reducible refine keepsP_fst (dmaRead_keeps (sub_of (by decide) hp) ?_)
    | with_reducible refine keepsP_eq (dmaRead_keeps (sub_of (by decide) hp) ?_) (by assumption)
    | split
    | (clear_value *; split)
    | with_reducible refine keepsP_eq ?_ (by assumption)
    | with_reducible refine keepsO_eq ?_ (by assumption)
    | with_reducible refine keepsP_mk ?_

theorem dmaWrite_keeps {ps z} {s : Sys2Proof.Machine.State} {k : Nat} {a2_ : Nat} {a : Nat} {data : List Sys2Proof.Byte} {p : List Bool} (hp : [.regs, .mem, .mmu, .als, .dss, .dma, .outbox, .bxl, .bridge] ⊆ ps) (h0 : Keeps ps z s) :
    KeepsP ps z (dmaWrite s k a2_ a data p) := by
  unfold dmaWrite
  repeat' first
    | with_reducible assumption
    | with_reducible exact keepsP_fst (by assumption)
    | (extract_lets -useContext +onlyGivenNames x; refine (fun (hx : Keeps ps z x) => ?_) ?_; clear_value x; revert x; intro _ _; rotate_left; unfold x; clear x; rotate_left)
    | (extract_lets -useContext +onlyGivenNames x; refine (fun (hx : KeepsP ps z x) => ?_) ?_; clear_value x; revert x; intro _ _; rotate_left; unfold x; clear x; rotate_left)
    | (extract_lets -useContext +onlyGivenNames x; revert x; intro _)
    | with_reducible refine State.setAls_keeps (sub_of (by decide) hp) ?_ ?_
    | with_reducible refine State.setCh_keeps (sub_of (by decide) hp) ?_
    | with_reducible refine State.setDss_keeps (sub_of (by decide) hp) ?_ ?_
    | with_reducible refine memWriteMarked_keeps (sub_of (by decide) hp) ?_
    | with_reducible refine keepsP_fst (memWriteMarked_keeps (sub_of (by decide) hp) ?_)
    | with_reducible refine keepsP_eq (memWriteMarked_keeps (sub_of (by decide) hp) ?_) (by assumption)
    | with_reducible refine keeps_foldl (fun t a ht => ?_) ?_
    | with_reducible refine keepsP_foldl (fun t a ht => ?_) ?_
    | split
    | (clear_value *; split)
    | with_reducible refine keepsP_eq ?_ (by assumption)
    | with_reducible refine keepsO_eq ?_ (by assumption)
    | (intro hw; repeat' first | with_reducible exact storeWf_empty | with_reducible refine storeWf_write ?_ | with_reducible refine storeWf_put ?_ | with_reducible refine epilogueAll_wf ?_ | with_reducible refine spillAll_wf ?_ | with_reducible refine spillRows_wf ?_ | with_reducible refine epilogueRows_wf ?_ | with_reducible refine spillFrom_wf ?_ | with_reducible refine vecRowsFrom_wf ?_ | with_reducible refine vecAll_wf ?_ | with_reducible refine storeWf_scrub ?_ | with_reducible refine storeWf_poison ?_ | with_reducible refine storeWf_fold (fun _ _ hu => ?_) ?_ | with_reducible assumption | split | with_reducible exact (Keeps.tidy (by assumption) hw).als _ | with_reducible exact (Keeps.tidy (by assumption) hw).dss _ | with_reducible refine (Keeps.tidy (ps := ps) ?_ hw).als _ | with_reducible refine (Keeps.tidy (ps := ps) ?_ hw).dss _)
    | with_reducible refine keepsP_mk ?_

theorem writePieces_keeps {ps z} {s : Sys2Proof.Machine.State} {k : Nat} {a2_ : Nat} {data : List Sys2Proof.Byte} {p : List Bool} {a5_ : List (Nat × Nat × Nat)} (hp : [.regs, .mem, .mmu, .als, .dss, .dma, .outbox, .bxl, .bridge] ⊆ ps) (h0 : Keeps ps z s) :
    KeepsP ps z (writePieces s k a2_ data p a5_) := by
  induction a5_ generalizing s k a2_ data p with
  | nil =>
    unfold writePieces
    repeat' first
      | with_reducible assumption
      | with_reducible exact keepsP_fst (by assumption)
      | (extract_lets -useContext +onlyGivenNames x; refine (fun (hx : Keeps ps z x) => ?_) ?_; clear_value x; revert x; intro _ _; rotate_left; unfold x; clear x; rotate_left)
      | (extract_lets -useContext +onlyGivenNames x; refine (fun (hx : KeepsP ps z x) => ?_) ?_; clear_value x; revert x; intro _ _; rotate_left; unfold x; clear x; rotate_left)
      | (extract_lets -useContext +onlyGivenNames x; revert x; intro _)
      | with_reducible refine dmaWrite_keeps (sub_of (by decide) hp) ?_
      | with_reducible refine keepsP_fst (dmaWrite_keeps (sub_of (by decide) hp) ?_)
      | with_reducible refine keepsP_eq (dmaWrite_keeps (sub_of (by decide) hp) ?_) (by assumption)
      | split
      | (clear_value *; split)
      | with_reducible refine keepsP_eq ?_ (by assumption)
      | with_reducible refine keepsO_eq ?_ (by assumption)
      | with_reducible refine keepsP_mk ?_
  | cons hd tl ih =>
    unfold writePieces
    repeat' first
      | with_reducible assumption
      | with_reducible exact keepsP_fst (by assumption)
      | (extract_lets -useContext +onlyGivenNames x; refine (fun (hx : Keeps ps z x) => ?_) ?_; clear_value x; revert x; intro _ _; rotate_left; unfold x; clear x; rotate_left)
      | (extract_lets -useContext +onlyGivenNames x; refine (fun (hx : KeepsP ps z x) => ?_) ?_; clear_value x; revert x; intro _ _; rotate_left; unfold x; clear x; rotate_left)
      | with_reducible refine ih ?_
      | with_reducible refine keepsP_fst (ih ?_)
      | with_reducible refine keepsP_eq (ih ?_) (by assumption)
      | (extract_lets -useContext +onlyGivenNames x; revert x; intro _)
      | with_reducible refine dmaWrite_keeps (sub_of (by decide) hp) ?_
      | with_reducible refine keepsP_fst (dmaWrite_keeps (sub_of (by decide) hp) ?_)
      | with_reducible refine keepsP_eq (dmaWrite_keeps (sub_of (by decide) hp) ?_) (by assumption)
      | split
      | (clear_value *; split)
      | with_reducible refine keepsP_eq ?_ (by assumption)
      | with_reducible refine keepsO_eq ?_ (by assumption)
      | with_reducible refine keepsP_mk ?_

theorem pieceMapped_keeps {ps z} {s : Sys2Proof.Machine.State} {k : Nat} {a2_ : Nat} {a : Nat} (hp : [.regs, .mem, .mmu, .outbox, .bxl, .bridge] ⊆ ps) (h0 : Keeps ps z s) :
    KeepsP ps z (pieceMapped s k a2_ a) := by
  unfold pieceMapped
  repeat' first
    | with_reducible assumption
    | with_reducible exact keepsP_fst (by assumption)
    | (extract_lets -useContext +onlyGivenNames x; refine (fun (hx : Keeps ps z x) => ?_) ?_; clear_value x; revert x; intro _ _; rotate_left; unfold x; clear x; rotate_left)
    | (extract_lets -useContext +onlyGivenNames x; refine (fun (hx : KeepsP ps z x) => ?_) ?_; clear_value x; revert x; intro _ _; rotate_left; unfold x; clear x; rotate_left)
    | (extract_lets -useContext +onlyGivenNames x; revert x; intro _)
    | with_reducible refine hostXlate_keeps (sub_of (by decide) hp) ?_
    | with_reducible refine keepsP_fst (hostXlate_keeps (sub_of (by decide) hp) ?_)
    | with_reducible refine keepsP_eq (hostXlate_keeps (sub_of (by decide) hp) ?_) (by assumption)
    | with_reducible refine translate_keeps (sub_of (by decide) hp) ?_
    | with_reducible refine keepsP_fst (translate_keeps (sub_of (by decide) hp) ?_)
    | with_reducible refine keepsP_eq (translate_keeps (sub_of (by decide) hp) ?_) (by assumption)
    | split
    | (clear_value *; split)
    | with_reducible refine keepsP_eq ?_ (by assumption)
    | with_reducible refine keepsO_eq ?_ (by assumption)
    | with_reducible refine keepsP_mk ?_

theorem piecesMapped_keeps {ps z} {s : Sys2Proof.Machine.State} {k : Nat} {a2_ : Nat} {a3_ : List (Nat × Nat × Nat)} (hp : [.regs, .mem, .mmu, .outbox, .bxl, .bridge] ⊆ ps) (h0 : Keeps ps z s) :
    KeepsP ps z (piecesMapped s k a2_ a3_) := by
  induction a3_ generalizing s k a2_ with
  | nil =>
    unfold piecesMapped
    repeat' first
      | with_reducible assumption
      | with_reducible exact keepsP_fst (by assumption)
      | (extract_lets -useContext +onlyGivenNames x; refine (fun (hx : Keeps ps z x) => ?_) ?_; clear_value x; revert x; intro _ _; rotate_left; unfold x; clear x; rotate_left)
      | (extract_lets -useContext +onlyGivenNames x; refine (fun (hx : KeepsP ps z x) => ?_) ?_; clear_value x; revert x; intro _ _; rotate_left; unfold x; clear x; rotate_left)
      | (extract_lets -useContext +onlyGivenNames x; revert x; intro _)
      | with_reducible refine pieceMapped_keeps (sub_of (by decide) hp) ?_
      | with_reducible refine keepsP_fst (pieceMapped_keeps (sub_of (by decide) hp) ?_)
      | with_reducible refine keepsP_eq (pieceMapped_keeps (sub_of (by decide) hp) ?_) (by assumption)
      | split
      | (clear_value *; split)
      | with_reducible refine keepsP_eq ?_ (by assumption)
      | with_reducible refine keepsO_eq ?_ (by assumption)
      | with_reducible refine keepsP_mk ?_
  | cons hd tl ih =>
    unfold piecesMapped
    repeat' first
      | with_reducible assumption
      | with_reducible exact keepsP_fst (by assumption)
      | (extract_lets -useContext +onlyGivenNames x; refine (fun (hx : Keeps ps z x) => ?_) ?_; clear_value x; revert x; intro _ _; rotate_left; unfold x; clear x; rotate_left)
      | (extract_lets -useContext +onlyGivenNames x; refine (fun (hx : KeepsP ps z x) => ?_) ?_; clear_value x; revert x; intro _ _; rotate_left; unfold x; clear x; rotate_left)
      | with_reducible refine ih ?_
      | with_reducible refine keepsP_fst (ih ?_)
      | with_reducible refine keepsP_eq (ih ?_) (by assumption)
      | (extract_lets -useContext +onlyGivenNames x; revert x; intro _)
      | with_reducible refine pieceMapped_keeps (sub_of (by decide) hp) ?_
      | with_reducible refine keepsP_fst (pieceMapped_keeps (sub_of (by decide) hp) ?_)
      | with_reducible refine keepsP_eq (pieceMapped_keeps (sub_of (by decide) hp) ?_) (by assumption)
      | split
      | (clear_value *; split)
      | with_reducible refine keepsP_eq ?_ (by assumption)
      | with_reducible refine keepsO_eq ?_ (by assumption)
      | with_reducible refine keepsP_mk ?_

theorem writeBurst_keeps {ps z} {s : Sys2Proof.Machine.State} {k : Nat} {a2_ : Nat} {e : Sys2Proof.Machine.BurstData} {a4_ : List (Nat × Nat × Nat)} (hp : [.regs, .mem, .mmu, .als, .dss, .dma, .outbox, .bxl, .bridge] ⊆ ps) (h0 : Keeps ps z s) :
    KeepsP ps z (writeBurst s k a2_ e a4_) := by
  unfold writeBurst
  repeat' first
    | with_reducible assumption
    | with_reducible exact keepsP_fst (by assumption)
    | (extract_lets -useContext +onlyGivenNames x; refine (fun (hx : Keeps ps z x) => ?_) ?_; clear_value x; revert x; intro _ _; rotate_left; unfold x; clear x; rotate_left)
    | (extract_lets -useContext +onlyGivenNames x; refine (fun (hx : KeepsP ps z x) => ?_) ?_; clear_value x; revert x; intro _ _; rotate_left; unfold x; clear x; rotate_left)
    | (extract_lets -useContext +onlyGivenNames x; revert x; intro _)
    | with_reducible refine piecesMapped_keeps (sub_of (by decide) hp) ?_
    | with_reducible refine keepsP_fst (piecesMapped_keeps (sub_of (by decide) hp) ?_)
    | with_reducible refine keepsP_eq (piecesMapped_keeps (sub_of (by decide) hp) ?_) (by assumption)
    | with_reducible refine writePieces_keeps (sub_of (by decide) hp) ?_
    | with_reducible refine keepsP_fst (writePieces_keeps (sub_of (by decide) hp) ?_)
    | with_reducible refine keepsP_eq (writePieces_keeps (sub_of (by decide) hp) ?_) (by assumption)
    | split
    | (clear_value *; split)
    | with_reducible refine keepsP_eq ?_ (by assumption)
    | with_reducible refine keepsO_eq ?_ (by assumption)
    | with_reducible refine keepsP_mk ?_

theorem notePoison_keeps {ps z} {s : Sys2Proof.Machine.State} {k : Nat} {src : Nat} {p : List Bool} (hp : [.regs, .mem, .outbox, .bridge] ⊆ ps) (h0 : Keeps ps z s) :
    Keeps ps z (notePoison s k src p) := by
  unfold notePoison
  repeat' first
    | with_reducible assumption
    | with_reducible exact keepsP_fst (by assumption)
    | (extract_lets -useContext +onlyGivenNames x; refine (fun (hx : Keeps ps z x) => ?_) ?_; clear_value x; revert x; intro _ _; rotate_left; unfold x; clear x; rotate_left)
    | (extract_lets -useContext +onlyGivenNames x; revert x; intro _)
    | with_reducible refine State.bump_keeps (sub_of (by decide) hp) ?_
    | with_reducible refine capture_keeps (sub_of (by decide) hp) ?_
    | with_reducible refine keeps_foldl (fun t a ht => ?_) ?_
    | with_reducible refine keepsP_foldl (fun t a ht => ?_) ?_
    | split
    | (clear_value *; split)
    | with_reducible refine keepsP_eq ?_ (by assumption)
    | with_reducible refine keepsO_eq ?_ (by assumption)
    | with_reducible refine keepsP_mk ?_

theorem execDmaBurstWritten_keeps {ps z} {d : Sys2Proof.DieId} {c : Sys2Proof.ChanId} {s : Sys2Proof.Machine.State} (hp : [.regs, .isl, .mem, .mmu, .als, .dss, .dma, .ctx, .outbox, .bxl, .pwr, .bridge] ⊆ ps) (h2 : Keeps ps z s) :
    KeepsR ps z (execDmaBurstWritten d c s) := by
  unfold execDmaBurstWritten
  repeat' first
    | with_reducible assumption
    | with_reducible exact keepsP_fst (by assumption)
    | (extract_lets -useContext +onlyGivenNames x; refine (fun (hx : Keeps ps z x) => ?_) ?_; clear_value x; revert x; intro _ _; rotate_left; unfold x; clear x; rotate_left)
    | (extract_lets -useContext +onlyGivenNames x; refine (fun (hx : KeepsP ps z x) => ?_) ?_; clear_value x; revert x; intro _ _; rotate_left; unfold x; clear x; rotate_left)
    | (extract_lets -useContext +onlyGivenNames x; refine (fun (hx : KeepsO ps z x) => ?_) ?_; clear_value x; revert x; intro _ _; rotate_left; unfold x; clear x; rotate_left)
    | with_reducible exact keepsO_get (by assumption)
    | (extract_lets -useContext +onlyGivenNames x; revert x; intro _)
    | with_reducible refine keepsR_next ?_
    | with_reducible exact keepsR_fault
    | with_reducible refine countEvent_keeps (sub_of (by decide) hp) ?_
    | with_reducible refine ctxCount_keeps (sub_of (by decide) hp) ?_
    | with_reducible refine State.setCh_keeps (sub_of (by decide) hp) ?_
    | with_reducible refine notePoison_keeps (sub_of (by decide) hp) ?_
    | with_reducible refine takeAnswers_keeps (sub_of (by decide) hp) ?_
    | with_reducible refine dmaFault_keeps (sub_of (by decide) hp) ?_
    | with_reducible refine toWaitArray_keeps (sub_of (by decide) hp) ?_
    | with_reducible refine keepsO_eq (toWaitArray_keeps (sub_of (by decide) hp) ?_) (by assumption)
    | with_reducible refine writeBurst_keeps (sub_of (by decide) hp) ?_
    | with_reducible refine keepsP_fst (writeBurst_keeps (sub_of (by decide) hp) ?_)
    | with_reducible refine keepsP_eq (writeBurst_keeps (sub_of (by decide) hp) ?_) (by assumption)
    | with_reducible refine burstEnd_keeps (sub_of (by decide) hp) ?_
    | split
    | (clear_value *; split)
    | with_reducible refine keepsP_eq ?_ (by assumption)
    | with_reducible refine keepsO_eq ?_ (by assumption)
    | with_reducible refine keepsO_getD ?_ ?_
    | with_reducible refine keepsP_mk ?_

theorem execDmaTransferComplete_keeps {ps z} {d : Sys2Proof.DieId} {c : Sys2Proof.ChanId} {s : Sys2Proof.Machine.State} (hp : [.regs, .isl, .dma, .bxl, .pwr] ⊆ ps) (h2 : Keeps ps z s) :
    KeepsR ps z (execDmaTransferComplete d c s) := by
  unfold execDmaTransferComplete
  repeat' first
    | with_reducible assumption
    | with_reducible exact keepsP_fst (by assumption)
    | (extract_lets -useContext +onlyGivenNames x; refine (fun (hx : Keeps ps z x) => ?_) ?_; clear_value x; revert x; intro _ _; rotate_left; unfold x; clear x; rotate_left)
    | (extract_lets -useContext +onlyGivenNames x; revert x; intro _)
    | with_reducible refine keepsR_next ?_
    | with_reducible exact keepsR_fault
    | with_reducible refine dmaComplete_keeps (sub_of (by decide) hp) ?_
    | split
    | (clear_value *; split)
    | with_reducible refine keepsP_eq ?_ (by assumption)
    | with_reducible refine keepsO_eq ?_ (by assumption)
    | with_reducible refine keepsP_mk ?_

theorem dmaAction_keeps {ps z} {s : Sys2Proof.Machine.State} {k : Nat} {action : Nat} (hp : [.regs, .isl, .dma, .bxl, .pwr] ⊆ ps) (h0 : Keeps ps z s) :
    Keeps ps z (dmaAction s k action) := by
  unfold dmaAction
  repeat' first
    | with_reducible assumption
    | with_reducible exact keepsP_fst (by assumption)
    | (extract_lets -useContext +onlyGivenNames x; refine (fun (hx : Keeps ps z x) => ?_) ?_; clear_value x; revert x; intro _ _; rotate_left; unfold x; clear x; rotate_left)
    | (extract_lets -useContext +onlyGivenNames x; revert x; intro _)
    | with_reducible refine dmaComplete_keeps (sub_of (by decide) hp) ?_
    | with_reducible refine State.setCh_keeps (sub_of (by decide) hp) ?_
    | with_reducible refine State.setChReg_keeps (sub_of (by decide) hp) ?_
    | split
    | (clear_value *; split)
    | with_reducible refine keepsP_eq ?_ (by assumption)
    | with_reducible refine keepsO_eq ?_ (by assumption)
    | with_reducible refine keepsP_mk ?_

theorem writeDmaCfg_keeps {ps z} {s : Sys2Proof.Machine.State} {k : Nat} {v : Nat} (hp : [.regs, .dma] ⊆ ps) (h0 : Keeps ps z s) :
    KeepsO ps z (writeDmaCfg s k v) := by
  unfold writeDmaCfg
  repeat' first
    | with_reducible assumption
    | with_reducible exact keepsP_fst (by assumption)
    | (extract_lets -useContext +onlyGivenNames x; refine (fun (hx : Keeps ps z x) => ?_) ?_; clear_value x; revert x; intro _ _; rotate_left; unfold x; clear x; rotate_left)
    | (extract_lets -useContext +onlyGivenNames x; refine (fun (hx : KeepsO ps z x) => ?_) ?_; clear_value x; revert x; intro _ _; rotate_left; unfold x; clear x; rotate_left)
    | with_reducible exact keepsO_get (by assumption)
    | (extract_lets -useContext +onlyGivenNames x; revert x; intro _)
    | exact keepsO_none
    | with_reducible refine keepsO_some ?_
    | with_reducible refine State.setCh_keeps (sub_of (by decide) hp) ?_
    | with_reducible refine State.setChReg_keeps (sub_of (by decide) hp) ?_
    | split
    | (clear_value *; split)
    | with_reducible refine keepsP_eq ?_ (by assumption)
    | with_reducible refine keepsO_eq ?_ (by assumption)
    | with_reducible refine keepsP_mk ?_

end Sys2Proof.Machine
end

