-- ==== Sys2Proof/Laws/FrameCmdEnd.lean ====
section
/-!
SUPPORT. Frames: for each operation of Sys2Proof/Machine/CmdEnd.lean, the parts of State it may change, and that it keeps the stores'
canonical form.
-/
namespace Sys2Proof.Machine

open Sys2Proof

theorem freshPair_keeps {ps z} {s : Sys2Proof.Machine.State} {p : Sys2Proof.Machine.Pair} (hp : [.regs, .pair] ⊆ ps) (h0 : Keeps ps z s) :
    Keeps ps z (freshPair s p) := by
  unfold freshPair
  repeat' first
    | with_reducible assumption
    | with_reducible exact keepsP_fst (by assumption)
    | (extract_lets -useContext +onlyGivenNames x; refine (fun (hx : Keeps ps z x) => ?_) ?_; clear_value x; revert x; intro _ _; rotate_left; unfold x; clear x; rotate_left)
    | (extract_lets -useContext +onlyGivenNames x; revert x; intro _)
    | with_reducible refine State.setReg_keeps (sub_of (by decide) hp) ?_
    | split
    | (clear_value *; split)
    | with_reducible refine keeps_with_pair (mem_of (by decide) hp) ?_
    | with_reducible refine keepsP_eq ?_ (by assumption)
    | with_reducible refine keepsO_eq ?_ (by assumption)
    | with_reducible refine keepsP_mk ?_

theorem updCmd_keeps {ps z} {s : Sys2Proof.Machine.State} {q : Nat} {n : Nat} {f : Sys2Proof.Machine.Cmd → Sys2Proof.Machine.Cmd} (hp : [.queues] ⊆ ps) (h0 : Keeps ps z s) :
    Keeps ps z (updCmd s q n f) := by
  unfold updCmd
  repeat' first
    | with_reducible assumption
    | with_reducible exact keepsP_fst (by assumption)
    | (extract_lets -useContext +onlyGivenNames x; refine (fun (hx : Keeps ps z x) => ?_) ?_; clear_value x; revert x; intro _ _; rotate_left; unfold x; clear x; rotate_left)
    | (extract_lets -useContext +onlyGivenNames x; revert x; intro _)
    | with_reducible refine State.setQueue_keeps (sub_of (by decide) hp) ?_
    | split
    | (clear_value *; split)
    | with_reducible refine keepsP_eq ?_ (by assumption)
    | with_reducible refine keepsO_eq ?_ (by assumption)
    | with_reducible refine keepsP_mk ?_

theorem reportEngine_keeps {ps z} {s : Sys2Proof.Machine.State} {q : Nat} {n : Nat} {eng : Nat} {e : Option Sys2Proof.Machine.EndStatus} (hp : [.queues, .bridge] ⊆ ps) (h0 : Keeps ps z s) :
    Keeps ps z (reportEngine s q n eng e) := by
  unfold reportEngine
  repeat' first
    | with_reducible assumption
    | with_reducible exact keepsP_fst (by assumption)
    | (extract_lets -useContext +onlyGivenNames x; refine (fun (hx : Keeps ps z x) => ?_) ?_; clear_value x; revert x; intro _ _; rotate_left; unfold x; clear x; rotate_left)
    | (extract_lets -useContext +onlyGivenNames x; revert x; intro _)
    | with_reducible refine updCmd_keeps (sub_of (by decide) hp) ?_
    | with_reducible refine crossTo_keeps (sub_of (by decide) hp) ?_
    | split
    | (clear_value *; split)
    | with_reducible refine keepsP_eq ?_ (by assumption)
    | with_reducible refine keepsO_eq ?_ (by assumption)
    | with_reducible refine keepsP_mk ?_

theorem endCmd_keeps {ps z} {s : Sys2Proof.Machine.State} {q : Nat} {n : Nat} {status : Nat} {info : Nat} (hp : [.queues] ⊆ ps) (h0 : Keeps ps z s) :
    Keeps ps z (endCmd s q n status info) := by
  unfold endCmd
  repeat' first
    | with_reducible assumption
    | with_reducible exact keepsP_fst (by assumption)
    | (extract_lets -useContext +onlyGivenNames x; refine (fun (hx : Keeps ps z x) => ?_) ?_; clear_value x; revert x; intro _ _; rotate_left; unfold x; clear x; rotate_left)
    | (extract_lets -useContext +onlyGivenNames x; revert x; intro _)
    | with_reducible refine updCmd_keeps (sub_of (by decide) hp) ?_
    | split
    | (clear_value *; split)
    | with_reducible refine keepsP_eq ?_ (by assumption)
    | with_reducible refine keepsO_eq ?_ (by assumption)
    | with_reducible refine keepsP_mk ?_

theorem failCmd_keeps {ps z} {s : Sys2Proof.Machine.State} {q : Nat} {n : Nat} {status : Nat} {off : Nat} (hp : [.queues] ⊆ ps) (h0 : Keeps ps z s) :
    Keeps ps z (failCmd s q n status off) := by
  unfold failCmd
  repeat' first
    | with_reducible assumption
    | with_reducible exact keepsP_fst (by assumption)
    | (extract_lets -useContext +onlyGivenNames x; refine (fun (hx : Keeps ps z x) => ?_) ?_; clear_value x; revert x; intro _ _; rotate_left; unfold x; clear x; rotate_left)
    | (extract_lets -useContext +onlyGivenNames x; revert x; intro _)
    | with_reducible refine updCmd_keeps (sub_of (by decide) hp) ?_
    | split
    | (clear_value *; split)
    | with_reducible refine keepsP_eq ?_ (by assumption)
    | with_reducible refine keepsO_eq ?_ (by assumption)
    | with_reducible refine keepsP_mk ?_

theorem badCmd_keeps {ps z} {s : Sys2Proof.Machine.State} {q : Nat} {n : Nat} {status : Nat} (hp : [.queues] ⊆ ps) (h0 : Keeps ps z s) :
    Keeps ps z (badCmd s q n status) := by
  unfold badCmd
  repeat' first
    | with_reducible assumption
    | with_reducible exact keepsP_fst (by assumption)
    | (extract_lets -useContext +onlyGivenNames x; refine (fun (hx : Keeps ps z x) => ?_) ?_; clear_value x; revert x; intro _ _; rotate_left; unfold x; clear x; rotate_left)
    | (extract_lets -useContext +onlyGivenNames x; revert x; intro _)
    | with_reducible refine endCmd_keeps (sub_of (by decide) hp) ?_
    | split
    | (clear_value *; split)
    | with_reducible refine keepsP_eq ?_ (by assumption)
    | with_reducible refine keepsO_eq ?_ (by assumption)
    | with_reducible refine keepsP_mk ?_

theorem doneCmd_keeps {ps z} {s : Sys2Proof.Machine.State} {q : Nat} {n : Nat} (hp : [.queues] ⊆ ps) (h0 : Keeps ps z s) :
    Keeps ps z (doneCmd s q n) := by
  unfold doneCmd
  repeat' first
    | with_reducible assumption
    | with_reducible exact keepsP_fst (by assumption)
    | (extract_lets -useContext +onlyGivenNames x; refine (fun (hx : Keeps ps z x) => ?_) ?_; clear_value x; revert x; intro _ _; rotate_left; unfold x; clear x; rotate_left)
    | (extract_lets -useContext +onlyGivenNames x; revert x; intro _)
    | with_reducible refine endCmd_keeps (sub_of (by decide) hp) ?_
    | split
    | (clear_value *; split)
    | with_reducible refine keepsP_eq ?_ (by assumption)
    | with_reducible refine keepsO_eq ?_ (by assumption)
    | with_reducible refine keepsP_mk ?_

theorem keepRequests_keeps {ps z} {s t : State} (hp : [.outbox] ⊆ ps) (h0 : Keeps ps z s) (h1 : Keeps ps z t) :
    Keeps ps z (keepRequests s t) := by
  have ho : Part.outbox ∈ ps := hp (by simp)
  exact ⟨fun p hq => by cases p <;> first | exact h0.frame _ hq | exact h1.frame _ hq | contradiction,
    fun w => ⟨(h0.tidy w).mem, (h0.tidy w).als, (h0.tidy w).dss, (h0.tidy w).flash⟩⟩

end Sys2Proof.Machine
end

