-- ==== Sys2Proof/Laws/FrameLink.lean ====
section
/-!
SUPPORT. Frames: for each operation of Sys2Proof/Machine/Link.lean, the parts of State it may change, and that it keeps the stores'
canonical form.
-/
namespace Sys2Proof.Machine

open Sys2Proof

theorem State.setPortState_keeps {ps z} {s : Sys2Proof.Machine.State} {p : Nat} {st : Nat} (hp : [.regs] ⊆ ps) (h0 : Keeps ps z s) :
    Keeps ps z (State.setPortState s p st) := by
  unfold State.setPortState
  repeat' first
    | with_reducible assumption
    | with_reducible exact keepsP_fst (by assumption)
    | (extract_lets -useContext +onlyGivenNames x; refine (fun (hx : Keeps ps z x) => ?_) ?_; clear_value x; revert x; intro _ _; rotate_left; unfold x; clear x; rotate_left)
    | (extract_lets -useContext +onlyGivenNames x; revert x; intro _)
    | with_reducible refine State.setReg_keeps (sub_of (by decide) hp) ?_
    | with_reducible refine State.setField_keeps (sub_of (by decide) hp) ?_
    | split
    | (clear_value *; split)
    | with_reducible refine keepsP_eq ?_ (by assumption)
    | with_reducible refine keepsO_eq ?_ (by assumption)
    | with_reducible refine keepsP_mk ?_

theorem State.setPort_keeps {ps z} {s : Sys2Proof.Machine.State} {p : Nat} {v : Sys2Proof.Machine.PortX} (hp : [.port] ⊆ ps) (h0 : Keeps ps z s) :
    Keeps ps z (State.setPort s p v) := by
  unfold State.setPort
  repeat' first
    | with_reducible assumption
    | with_reducible exact keepsP_fst (by assumption)
    | (extract_lets -useContext +onlyGivenNames x; refine (fun (hx : Keeps ps z x) => ?_) ?_; clear_value x; revert x; intro _ _; rotate_left; unfold x; clear x; rotate_left)
    | (extract_lets -useContext +onlyGivenNames x; revert x; intro _)
    | split
    | (clear_value *; split)
    | with_reducible refine keeps_with_port (mem_of (by decide) hp) ?_
    | with_reducible refine keepsP_eq ?_ (by assumption)
    | with_reducible refine keepsO_eq ?_ (by assumption)
    | with_reducible refine keepsP_mk ?_

theorem State.setLink_keeps {ps z} {s : Sys2Proof.Machine.State} {l : Nat} {v : Sys2Proof.Machine.LinkLayer} (hp : [.link] ⊆ ps) (h0 : Keeps ps z s) :
    Keeps ps z (State.setLink s l v) := by
  unfold State.setLink
  repeat' first
    | with_reducible assumption
    | with_reducible exact keepsP_fst (by assumption)
    | (extract_lets -useContext +onlyGivenNames x; refine (fun (hx : Keeps ps z x) => ?_) ?_; clear_value x; revert x; intro _ _; rotate_left; unfold x; clear x; rotate_left)
    | (extract_lets -useContext +onlyGivenNames x; revert x; intro _)
    | split
    | (clear_value *; split)
    | with_reducible refine keeps_with_link (mem_of (by decide) hp) ?_
    | with_reducible refine keepsP_eq ?_ (by assumption)
    | with_reducible refine keepsO_eq ?_ (by assumption)
    | with_reducible refine keepsP_mk ?_

theorem lnkRecord_keeps {ps z} {s : Sys2Proof.Machine.State} {p : Nat} {ev : Nat} {sev : Nat} (hp : [.regs, .mem, .outbox, .bridge] ⊆ ps) (h0 : Keeps ps z s) :
    Keeps ps z (lnkRecord s p ev sev) := by
  unfold lnkRecord
  repeat' first
    | with_reducible assumption
    | with_reducible exact keepsP_fst (by assumption)
    | (extract_lets -useContext +onlyGivenNames x; refine (fun (hx : Keeps ps z x) => ?_) ?_; clear_value x; revert x; intro _ _; rotate_left; unfold x; clear x; rotate_left)
    | (extract_lets -useContext +onlyGivenNames x; revert x; intro _)
    | with_reducible refine capture_keeps (sub_of (by decide) hp) ?_
    | split
    | (clear_value *; split)
    | with_reducible refine keepsP_eq ?_ (by assumption)
    | with_reducible refine keepsO_eq ?_ (by assumption)
    | with_reducible refine keepsP_mk ?_

theorem bxlRecord_keeps {ps z} {s : Sys2Proof.Machine.State} {code : Nat} (hp : [.regs, .mem, .outbox, .bridge] ⊆ ps) (h0 : Keeps ps z s) :
    Keeps ps z (bxlRecord s code) := by
  unfold bxlRecord
  repeat' first
    | with_reducible assumption
    | with_reducible exact keepsP_fst (by assumption)
    | (extract_lets -useContext +onlyGivenNames x; refine (fun (hx : Keeps ps z x) => ?_) ?_; clear_value x; revert x; intro _ _; rotate_left; unfold x; clear x; rotate_left)
    | (extract_lets -useContext +onlyGivenNames x; revert x; intro _)
    | with_reducible refine bxlFault_keeps (sub_of (by decide) hp) ?_
    | split
    | (clear_value *; split)
    | with_reducible refine keepsP_eq ?_ (by assumption)
    | with_reducible refine keepsO_eq ?_ (by assumption)
    | with_reducible refine keepsP_mk ?_

theorem noteLink_keeps {ps z} {s : Sys2Proof.Machine.State} {k : Nat} (hp : [.life] ⊆ ps) (h0 : Keeps ps z s) :
    Keeps ps z (noteLink s k) := by
  unfold noteLink
  repeat' first
    | with_reducible assumption
    | with_reducible exact keepsP_fst (by assumption)
    | (extract_lets -useContext +onlyGivenNames x; refine (fun (hx : Keeps ps z x) => ?_) ?_; clear_value x; revert x; intro _ _; rotate_left; unfold x; clear x; rotate_left)
    | (extract_lets -useContext +onlyGivenNames x; revert x; intro _)
    | split
    | (clear_value *; split)
    | with_reducible refine keeps_with_life (mem_of (by decide) hp) ?_
    | with_reducible refine keepsP_eq ?_ (by assumption)
    | with_reducible refine keepsO_eq ?_ (by assumption)
    | with_reducible refine keepsP_mk ?_

theorem enterDetect_keeps {ps z} {s : Sys2Proof.Machine.State} {p : Nat} {retrain : Bool} {error : Bool} (hp : [.regs, .mem, .outbox, .life, .port, .bridge] ⊆ ps) (h0 : Keeps ps z s) :
    Keeps ps z (enterDetect s p retrain error) := by
  unfold enterDetect
  repeat' first
    | with_reducible assumption
    | with_reducible exact keepsP_fst (by assumption)
    | (extract_lets -useContext +onlyGivenNames x; refine (fun (hx : Keeps ps z x) => ?_) ?_; clear_value x; revert x; intro _ _; rotate_left; unfold x; clear x; rotate_left)
    | (extract_lets -useContext +onlyGivenNames x; revert x; intro _)
    | with_reducible refine State.setPortState_keeps (sub_of (by decide) hp) ?_
    | with_reducible refine State.setPort_keeps (sub_of (by decide) hp) ?_
    | with_reducible refine lnkRecord_keeps (sub_of (by decide) hp) ?_
    | with_reducible refine State.bump_keeps (sub_of (by decide) hp) ?_
    | with_reducible refine bxlRecord_keeps (sub_of (by decide) hp) ?_
    | with_reducible refine noteLink_keeps (sub_of (by decide) hp) ?_
    | split
    | (clear_value *; split)
    | with_reducible refine keepsP_eq ?_ (by assumption)
    | with_reducible refine keepsO_eq ?_ (by assumption)
    | with_reducible refine keepsP_mk ?_

theorem retrainPort_keeps {ps z} {s : Sys2Proof.Machine.State} {p : Nat} {error : Bool} (hp : [.regs, .mem, .outbox, .life, .port, .bridge] ⊆ ps) (h0 : Keeps ps z s) :
    Keeps ps z (retrainPort s p error) := by
  unfold retrainPort
  repeat' first
    | with_reducible assumption
    | with_reducible exact keepsP_fst (by assumption)
    | (extract_lets -useContext +onlyGivenNames x; refine (fun (hx : Keeps ps z x) => ?_) ?_; clear_value x; revert x; intro _ _; rotate_left; unfold x; clear x; rotate_left)
    | (extract_lets -useContext +onlyGivenNames x; revert x; intro _)
    | with_reducible refine enterDetect_keeps (sub_of (by decide) hp) ?_
    | split
    | (clear_value *; split)
    | with_reducible refine keepsP_eq ?_ (by assumption)
    | with_reducible refine keepsO_eq ?_ (by assumption)
    | with_reducible refine keepsP_mk ?_

theorem flitPort_keeps {ps z} {s : Sys2Proof.Machine.State} {l : Nat} (hp : [.rtr] ⊆ ps) (h0 : Keeps ps z s) :
    KeepsP ps z (flitPort s l) := by
  unfold flitPort
  repeat' first
    | with_reducible assumption
    | with_reducible exact keepsP_fst (by assumption)
    | (extract_lets -useContext +onlyGivenNames x; refine (fun (hx : Keeps ps z x) => ?_) ?_; clear_value x; revert x; intro _ _; rotate_left; unfold x; clear x; rotate_left)
    | (extract_lets -useContext +onlyGivenNames x; revert x; intro _)
    | split
    | (clear_value *; split)
    | with_reducible refine keeps_with_rtr (mem_of (by decide) hp) ?_
    | with_reducible refine keepsP_eq ?_ (by assumption)
    | with_reducible refine keepsO_eq ?_ (by assumption)
    | with_reducible refine keepsP_mk ?_

theorem sendOn_keeps {ps z} {s : Sys2Proof.Machine.State} {l : Nat} {p : Nat} {ty : Nat} {seq : Nat} {body : List Sys2Proof.Byte} (hp : [.regs, .outbox, .port] ⊆ ps) (h0 : Keeps ps z s) :
    Keeps ps z (sendOn s l p ty seq body) := by
  unfold sendOn
  repeat' first
    | with_reducible assumption
    | with_reducible exact keepsP_fst (by assumption)
    | (extract_lets -useContext +onlyGivenNames x; refine (fun (hx : Keeps ps z x) => ?_) ?_; clear_value x; revert x; intro _ _; rotate_left; unfold x; clear x; rotate_left)
    | (extract_lets -useContext +onlyGivenNames x; revert x; intro _)
    | with_reducible refine State.send_keeps (sub_of (by decide) hp) ?_
    | with_reducible refine countEvent_keeps (sub_of (by decide) hp) ?_
    | with_reducible refine State.setPort_keeps (sub_of (by decide) hp) ?_
    | split
    | (clear_value *; split)
    | with_reducible refine keepsP_eq ?_ (by assumption)
    | with_reducible refine keepsO_eq ?_ (by assumption)
    | with_reducible refine keepsP_mk ?_

theorem sendFlit_keeps {ps z} {s : Sys2Proof.Machine.State} {l : Nat} {ty : Nat} {seq : Nat} {body : List Sys2Proof.Byte} (hp : [.regs, .outbox, .port, .rtr] ⊆ ps) (h0 : Keeps ps z s) :
    Keeps ps z (sendFlit s l ty seq body) := by
  unfold sendFlit
  repeat' first
    | with_reducible assumption
    | with_reducible exact keepsP_fst (by assumption)
    | (extract_lets -useContext +onlyGivenNames x; refine (fun (hx : Keeps ps z x) => ?_) ?_; clear_value x; revert x; intro _ _; rotate_left; unfold x; clear x; rotate_left)
    | (extract_lets -useContext +onlyGivenNames x; refine (fun (hx : KeepsP ps z x) => ?_) ?_; clear_value x; revert x; intro _ _; rotate_left; unfold x; clear x; rotate_left)
    | (extract_lets -useContext +onlyGivenNames x; revert x; intro _)
    | with_reducible refine flitPort_keeps (sub_of (by decide) hp) ?_
    | with_reducible refine keepsP_fst (flitPort_keeps (sub_of (by decide) hp) ?_)
    | with_reducible refine keepsP_eq (flitPort_keeps (sub_of (by decide) hp) ?_) (by assumption)
    | with_reducible refine sendOn_keeps (sub_of (by decide) hp) ?_
    | split
    | (clear_value *; split)
    | with_reducible refine keepsP_eq ?_ (by assumption)
    | with_reducible refine keepsO_eq ?_ (by assumption)
    | with_reducible refine keepsP_mk ?_

theorem pumpFlit_keeps {ps z} {s : Sys2Proof.Machine.State} {l : Nat} (hp : [.regs, .outbox, .link, .port, .rtr] ⊆ ps) (h0 : Keeps ps z s) :
    Keeps ps z (pumpFlit s l) := by
  unfold pumpFlit
  repeat' first
    | with_reducible assumption
    | with_reducible exact keepsP_fst (by assumption)
    | (extract_lets -useContext +onlyGivenNames x; refine (fun (hx : Keeps ps z x) => ?_) ?_; clear_value x; revert x; intro _ _; rotate_left; unfold x; clear x; rotate_left)
    | (extract_lets -useContext +onlyGivenNames x; revert x; intro _)
    | with_reducible refine State.setLink_keeps (sub_of (by decide) hp) ?_
    | with_reducible refine sendFlit_keeps (sub_of (by decide) hp) ?_
    | split
    | (clear_value *; split)
    | with_reducible refine keepsP_eq ?_ (by assumption)
    | with_reducible refine keepsO_eq ?_ (by assumption)
    | with_reducible refine keepsP_mk ?_

theorem pumpLink_keeps {ps z} {s : Sys2Proof.Machine.State} {l : Nat} (hp : [.regs, .outbox, .link, .port, .rtr] ⊆ ps) (h0 : Keeps ps z s) :
    Keeps ps z (pumpLink s l) := by
  unfold pumpLink
  repeat' first
    | with_reducible assumption
    | with_reducible exact keepsP_fst (by assumption)
    | (extract_lets -useContext +onlyGivenNames x; refine (fun (hx : Keeps ps z x) => ?_) ?_; clear_value x; revert x; intro _ _; rotate_left; unfold x; clear x; rotate_left)
    | (extract_lets -useContext +onlyGivenNames x; revert x; intro _)
    | with_reducible refine pumpFlit_keeps (sub_of (by decide) hp) ?_
    | with_reducible refine keeps_foldl (fun t a ht => ?_) ?_
    | with_reducible refine keepsP_foldl (fun t a ht => ?_) ?_
    | split
    | (clear_value *; split)
    | with_reducible refine keepsP_eq ?_ (by assumption)
    | with_reducible refine keepsO_eq ?_ (by assumption)
    | with_reducible refine keepsP_mk ?_

theorem replayAll_keeps {ps z} {s : Sys2Proof.Machine.State} {l : Nat} (hp : [.regs, .outbox, .port, .rtr] ⊆ ps) (h0 : Keeps ps z s) :
    Keeps ps z (replayAll s l) := by
  unfold replayAll
  repeat' first
    | with_reducible assumption
    | with_reducible exact keepsP_fst (by assumption)
    | (extract_lets -useContext +onlyGivenNames x; refine (fun (hx : Keeps ps z x) => ?_) ?_; clear_value x; revert x; intro _ _; rotate_left; unfold x; clear x; rotate_left)
    | (extract_lets -useContext +onlyGivenNames x; revert x; intro _)
    | with_reducible refine sendFlit_keeps (sub_of (by decide) hp) ?_
    | with_reducible refine keeps_foldl (fun t a ht => ?_) ?_
    | with_reducible refine keepsP_foldl (fun t a ht => ?_) ?_
    | split
    | (clear_value *; split)
    | with_reducible refine keepsP_eq ?_ (by assumption)
    | with_reducible refine keepsO_eq ?_ (by assumption)
    | with_reducible refine keepsP_mk ?_

theorem retrainLayer_keeps {ps z} {s : Sys2Proof.Machine.State} {l : Nat} (hp : [.regs, .mem, .outbox, .life, .link, .port, .bridge] ⊆ ps) (h0 : Keeps ps z s) :
    Keeps ps z (retrainLayer s l) := by
  unfold retrainLayer
  repeat' first
    | with_reducible assumption
    | with_reducible exact keepsP_fst (by assumption)
    | (extract_lets -useContext +onlyGivenNames x; refine (fun (hx : Keeps ps z x) => ?_) ?_; clear_value x; revert x; intro _ _; rotate_left; unfold x; clear x; rotate_left)
    | (extract_lets -useContext +onlyGivenNames x; revert x; intro _)
    | with_reducible refine retrainPort_keeps (sub_of (by decide) hp) ?_
    | with_reducible refine State.setLink_keeps (sub_of (by decide) hp) ?_
    | with_reducible refine keeps_foldl (fun t a ht => ?_) ?_
    | with_reducible refine keepsP_foldl (fun t a ht => ?_) ?_
    | split
    | (clear_value *; split)
    | with_reducible refine keepsP_eq ?_ (by assumption)
    | with_reducible refine keepsO_eq ?_ (by assumption)
    | with_reducible refine keepsP_mk ?_

theorem startReplay_keeps {ps z} {s : Sys2Proof.Machine.State} {l : Nat} {p : Nat} (hp : [.regs, .mem, .outbox, .life, .link, .port, .rtr, .bridge] ⊆ ps) (h0 : Keeps ps z s) :
    Keeps ps z (startReplay s l p) := by
  unfold startReplay
  repeat' first
    | with_reducible assumption
    | with_reducible exact keepsP_fst (by assumption)
    | (extract_lets -useContext +onlyGivenNames x; refine (fun (hx : Keeps ps z x) => ?_) ?_; clear_value x; revert x; intro _ _; rotate_left; unfold x; clear x; rotate_left)
    | (extract_lets -useContext +onlyGivenNames x; revert x; intro _)
    | with_reducible refine retrainLayer_keeps (sub_of (by decide) hp) ?_
    | with_reducible refine replayAll_keeps (sub_of (by decide) hp) ?_
    | with_reducible refine State.setPort_keeps (sub_of (by decide) hp) ?_
    | with_reducible refine noteLink_keeps (sub_of (by decide) hp) ?_
    | with_reducible refine State.bump_keeps (sub_of (by decide) hp) ?_
    | with_reducible refine State.setLink_keeps (sub_of (by decide) hp) ?_
    | with_reducible refine bxlRecord_keeps (sub_of (by decide) hp) ?_
    | split
    | (clear_value *; split)
    | with_reducible refine keepsP_eq ?_ (by assumption)
    | with_reducible refine keepsO_eq ?_ (by assumption)
    | with_reducible refine keepsP_mk ?_

theorem takeAck_keeps {ps z} {s : Sys2Proof.Machine.State} {l : Nat} {a : Nat} (hp : [.regs, .outbox, .link, .port, .rtr] ⊆ ps) (h0 : Keeps ps z s) :
    Keeps ps z (takeAck s l a) := by
  unfold takeAck
  repeat' first
    | with_reducible assumption
    | with_reducible exact keepsP_fst (by assumption)
    | (extract_lets -useContext +onlyGivenNames x; refine (fun (hx : Keeps ps z x) => ?_) ?_; clear_value x; revert x; intro _ _; rotate_left; unfold x; clear x; rotate_left)
    | (extract_lets -useContext +onlyGivenNames x; revert x; intro _)
    | with_reducible refine pumpLink_keeps (sub_of (by decide) hp) ?_
    | with_reducible refine State.setLink_keeps (sub_of (by decide) hp) ?_
    | split
    | (clear_value *; split)
    | with_reducible refine keepsP_eq ?_ (by assumption)
    | with_reducible refine keepsO_eq ?_ (by assumption)
    | with_reducible refine keepsP_mk ?_

theorem transmit_keeps {ps z} {s : Sys2Proof.Machine.State} {l : Nat} {k : Sys2Proof.Machine.Pkt} (hp : [.regs, .outbox, .link, .port, .rtr] ⊆ ps) (h0 : Keeps ps z s) :
    Keeps ps z (transmit s l k) := by
  unfold transmit
  repeat' first
    | with_reducible assumption
    | with_reducible exact keepsP_fst (by assumption)
    | (extract_lets -useContext +onlyGivenNames x; refine (fun (hx : Keeps ps z x) => ?_) ?_; clear_value x; revert x; intro _ _; rotate_left; unfold x; clear x; rotate_left)
    | (extract_lets -useContext +onlyGivenNames x; revert x; intro _)
    | with_reducible refine pumpLink_keeps (sub_of (by decide) hp) ?_
    | with_reducible refine State.setLink_keeps (sub_of (by decide) hp) ?_
    | split
    | (clear_value *; split)
    | with_reducible refine keepsP_eq ?_ (by assumption)
    | with_reducible refine keepsO_eq ?_ (by assumption)
    | with_reducible refine keepsP_mk ?_

theorem sendCreditOn_keeps {ps z} {s : Sys2Proof.Machine.State} {l : Nat} {p : Nat} (hp : [.regs, .outbox, .link, .port] ⊆ ps) (h0 : Keeps ps z s) :
    Keeps ps z (sendCreditOn s l p) := by
  unfold sendCreditOn
  repeat' first
    | with_reducible assumption
    | with_reducible exact keepsP_fst (by assumption)
    | (extract_lets -useContext +onlyGivenNames x; refine (fun (hx : Keeps ps z x) => ?_) ?_; clear_value x; revert x; intro _ _; rotate_left; unfold x; clear x; rotate_left)
    | (extract_lets -useContext +onlyGivenNames x; revert x; intro _)
    | with_reducible refine State.setLink_keeps (sub_of (by decide) hp) ?_
    | with_reducible refine State.setPort_keeps (sub_of (by decide) hp) ?_
    | with_reducible refine sendOn_keeps (sub_of (by decide) hp) ?_
    | split
    | (clear_value *; split)
    | with_reducible refine keepsP_eq ?_ (by assumption)
    | with_reducible refine keepsO_eq ?_ (by assumption)
    | with_reducible refine keepsP_mk ?_

theorem sendCredit_keeps {ps z} {s : Sys2Proof.Machine.State} {l : Nat} (hp : [.regs, .outbox, .link, .port, .rtr] ⊆ ps) (h0 : Keeps ps z s) :
    Keeps ps z (sendCredit s l) := by
  unfold sendCredit
  repeat' first
    | with_reducible assumption
    | with_reducible exact keepsP_fst (by assumption)
    | (extract_lets -useContext +onlyGivenNames x; refine (fun (hx : Keeps ps z x) => ?_) ?_; clear_value x; revert x; intro _ _; rotate_left; unfold x; clear x; rotate_left)
    | (extract_lets -useContext +onlyGivenNames x; refine (fun (hx : KeepsP ps z x) => ?_) ?_; clear_value x; revert x; intro _ _; rotate_left; unfold x; clear x; rotate_left)
    | (extract_lets -useContext +onlyGivenNames x; revert x; intro _)
    | with_reducible refine flitPort_keeps (sub_of (by decide) hp) ?_
    | with_reducible refine keepsP_fst (flitPort_keeps (sub_of (by decide) hp) ?_)
    | with_reducible refine keepsP_eq (flitPort_keeps (sub_of (by decide) hp) ?_) (by assumption)
    | with_reducible refine sendCreditOn_keeps (sub_of (by decide) hp) ?_
    | split
    | (clear_value *; split)
    | with_reducible refine keepsP_eq ?_ (by assumption)
    | with_reducible refine keepsO_eq ?_ (by assumption)
    | with_reducible refine keepsP_mk ?_

theorem freeUnits_keeps {ps z} {s : Sys2Proof.Machine.State} {l : Nat} {vc : Nat} {n : Nat} (hp : [.regs, .outbox, .link, .port, .rtr] ⊆ ps) (h0 : Keeps ps z s) :
    Keeps ps z (freeUnits s l vc n) := by
  unfold freeUnits
  repeat' first
    | with_reducible assumption
    | with_reducible exact keepsP_fst (by assumption)
    | (extract_lets -useContext +onlyGivenNames x; refine (fun (hx : Keeps ps z x) => ?_) ?_; clear_value x; revert x; intro _ _; rotate_left; unfold x; clear x; rotate_left)
    | (extract_lets -useContext +onlyGivenNames x; revert x; intro _)
    | with_reducible refine sendCredit_keeps (sub_of (by decide) hp) ?_
    | with_reducible refine State.setLink_keeps (sub_of (by decide) hp) ?_
    | split
    | (clear_value *; split)
    | with_reducible refine keepsP_eq ?_ (by assumption)
    | with_reducible refine keepsO_eq ?_ (by assumption)
    | with_reducible refine keepsP_mk ?_

theorem sendProbe_keeps {ps z} {s : Sys2Proof.Machine.State} {p : Nat} (hp : [.regs, .outbox, .link, .port] ⊆ ps) (h0 : Keeps ps z s) :
    Keeps ps z (sendProbe s p) := by
  unfold sendProbe
  repeat' first
    | with_reducible assumption
    | with_reducible exact keepsP_fst (by assumption)
    | (extract_lets -useContext +onlyGivenNames x; refine (fun (hx : Keeps ps z x) => ?_) ?_; clear_value x; revert x; intro _ _; rotate_left; unfold x; clear x; rotate_left)
    | (extract_lets -useContext +onlyGivenNames x; revert x; intro _)
    | with_reducible refine State.setLink_keeps (sub_of (by decide) hp) ?_
    | with_reducible refine sendOn_keeps (sub_of (by decide) hp) ?_
    | split
    | (clear_value *; split)
    | with_reducible refine keepsP_eq ?_ (by assumption)
    | with_reducible refine keepsO_eq ?_ (by assumption)
    | with_reducible refine keepsO_getD ?_ ?_
    | with_reducible refine keepsP_mk ?_

theorem execCreditTimer_keeps {ps z} {p : Sys2Proof.LnkId} {s : Sys2Proof.Machine.State} (hp : [.regs, .outbox, .link, .port] ⊆ ps) (h1 : Keeps ps z s) :
    KeepsR ps z (execCreditTimer p s) := by
  unfold execCreditTimer
  repeat' first
    | with_reducible assumption
    | with_reducible exact keepsP_fst (by assumption)
    | (extract_lets -useContext +onlyGivenNames x; refine (fun (hx : Keeps ps z x) => ?_) ?_; clear_value x; revert x; intro _ _; rotate_left; unfold x; clear x; rotate_left)
    | (extract_lets -useContext +onlyGivenNames x; revert x; intro _)
    | with_reducible refine keepsR_next ?_
    | with_reducible exact keepsR_fault
    | with_reducible refine sendProbe_keeps (sub_of (by decide) hp) ?_
    | with_reducible refine sendCreditOn_keeps (sub_of (by decide) hp) ?_
    | split
    | (clear_value *; split)
    | with_reducible refine keepsP_eq ?_ (by assumption)
    | with_reducible refine keepsO_eq ?_ (by assumption)
    | with_reducible refine keepsP_mk ?_

theorem releaseHeld_keeps {ps z} {s : Sys2Proof.Machine.State} {l : Nat} (hp : [.regs, .outbox, .link, .port, .rtr] ⊆ ps) (h0 : Keeps ps z s) :
    Keeps ps z (releaseHeld s l) := by
  unfold releaseHeld
  repeat' first
    | with_reducible assumption
    | with_reducible exact keepsP_fst (by assumption)
    | (extract_lets -useContext +onlyGivenNames x; refine (fun (hx : Keeps ps z x) => ?_) ?_; clear_value x; revert x; intro _ _; rotate_left; unfold x; clear x; rotate_left)
    | (extract_lets -useContext +onlyGivenNames x; revert x; intro _)
    | with_reducible refine State.setLink_keeps (sub_of (by decide) hp) ?_
    | with_reducible refine pumpLink_keeps (sub_of (by decide) hp) ?_
    | split
    | (clear_value *; split)
    | with_reducible refine keepsP_eq ?_ (by assumption)
    | with_reducible refine keepsO_eq ?_ (by assumption)
    | with_reducible refine keepsP_mk ?_

theorem pairPackets_keeps {ps z} {s : Sys2Proof.Machine.State} {m : Sys2Proof.Machine.Msg} (hp : [.rtr, .pair] ⊆ ps) (h0 : Keeps ps z s) :
    KeepsP ps z (pairPackets s m) := by
  unfold pairPackets
  repeat' first
    | with_reducible assumption
    | with_reducible exact keepsP_fst (by assumption)
    | (extract_lets -useContext +onlyGivenNames x; refine (fun (hx : Keeps ps z x) => ?_) ?_; clear_value x; revert x; intro _ _; rotate_left; unfold x; clear x; rotate_left)
    | (extract_lets -useContext +onlyGivenNames x; revert x; intro _)
    | split
    | (clear_value *; split)
    | with_reducible refine keeps_with_rtr_pair (mem_of (by decide) hp) (mem_of (by decide) hp) ?_
    | with_reducible refine keepsP_eq ?_ (by assumption)
    | with_reducible refine keepsO_eq ?_ (by assumption)
    | with_reducible refine keepsP_mk ?_

theorem linkTick_keeps {ps z} {s : Sys2Proof.Machine.State} (hp : [.regs, .outbox, .link, .port, .rtr, .pair] ⊆ ps) (h0 : Keeps ps z s) :
    Keeps ps z (linkTick s) := by
  unfold linkTick
  repeat' first
    | with_reducible assumption
    | with_reducible exact keepsP_fst (by assumption)
    | (extract_lets -useContext +onlyGivenNames x; refine (fun (hx : Keeps ps z x) => ?_) ?_; clear_value x; revert x; intro _ _; rotate_left; unfold x; clear x; rotate_left)
    | (extract_lets -useContext +onlyGivenNames x; refine (fun (hx : KeepsP ps z x) => ?_) ?_; clear_value x; revert x; intro _ _; rotate_left; unfold x; clear x; rotate_left)
    | (extract_lets -useContext +onlyGivenNames x; revert x; intro _)
    | with_reducible refine State.setLink_keeps (sub_of (by decide) hp) ?_
    | with_reducible refine pairPackets_keeps (sub_of (by decide) hp) ?_
    | with_reducible refine keepsP_fst (pairPackets_keeps (sub_of (by decide) hp) ?_)
    | with_reducible refine keepsP_eq (pairPackets_keeps (sub_of (by decide) hp) ?_) (by assumption)
    | with_reducible refine releaseHeld_keeps (sub_of (by decide) hp) ?_
    | with_reducible refine keeps_foldl (fun t a ht => ?_) ?_
    | with_reducible refine keepsP_foldl (fun t a ht => ?_) ?_
    | split
    | (clear_value *; split)
    | with_reducible refine keepsP_eq ?_ (by assumption)
    | with_reducible refine keepsO_eq ?_ (by assumption)
    | with_reducible refine keepsP_mk ?_

theorem execSignalDetect_keeps {ps z} {p : Sys2Proof.LnkId} {s : Sys2Proof.Machine.State} (hp : [.regs] ⊆ ps) (h1 : Keeps ps z s) :
    KeepsR ps z (execSignalDetect p s) := by
  unfold execSignalDetect
  repeat' first
    | with_reducible assumption
    | with_reducible exact keepsP_fst (by assumption)
    | (extract_lets -useContext +onlyGivenNames x; refine (fun (hx : Keeps ps z x) => ?_) ?_; clear_value x; revert x; intro _ _; rotate_left; unfold x; clear x; rotate_left)
    | (extract_lets -useContext +onlyGivenNames x; revert x; intro _)
    | with_reducible refine keepsR_next ?_
    | with_reducible exact keepsR_fault
    | with_reducible refine State.setPortState_keeps (sub_of (by decide) hp) ?_
    | split
    | (clear_value *; split)
    | with_reducible refine keepsP_eq ?_ (by assumption)
    | with_reducible refine keepsO_eq ?_ (by assumption)
    | with_reducible refine keepsP_mk ?_

theorem execEqualizeDone_keeps {ps z} {p : Sys2Proof.LnkId} {s : Sys2Proof.Machine.State} (hp : [.regs] ⊆ ps) (h1 : Keeps ps z s) :
    KeepsR ps z (execEqualizeDone p s) := by
  unfold execEqualizeDone
  repeat' first
    | with_reducible assumption
    | with_reducible exact keepsP_fst (by assumption)
    | (extract_lets -useContext +onlyGivenNames x; refine (fun (hx : Keeps ps z x) => ?_) ?_; clear_value x; revert x; intro _ _; rotate_left; unfold x; clear x; rotate_left)
    | (extract_lets -useContext +onlyGivenNames x; revert x; intro _)
    | with_reducible refine keepsR_next ?_
    | with_reducible exact keepsR_fault
    | with_reducible refine State.setPortState_keeps (sub_of (by decide) hp) ?_
    | split
    | (clear_value *; split)
    | with_reducible refine keepsP_eq ?_ (by assumption)
    | with_reducible refine keepsO_eq ?_ (by assumption)
    | with_reducible refine keepsP_mk ?_

theorem enterInit_keeps {ps z} {s : Sys2Proof.Machine.State} {p : Nat} (hp : [.regs, .outbox, .port] ⊆ ps) (h0 : Keeps ps z s) :
    Keeps ps z (enterInit s p) := by
  unfold enterInit
  repeat' first
    | with_reducible assumption
    | with_reducible exact keepsP_fst (by assumption)
    | (extract_lets -useContext +onlyGivenNames x; refine (fun (hx : Keeps ps z x) => ?_) ?_; clear_value x; revert x; intro _ _; rotate_left; unfold x; clear x; rotate_left)
    | (extract_lets -useContext +onlyGivenNames x; revert x; intro _)
    | with_reducible refine State.setPortState_keeps (sub_of (by decide) hp) ?_
    | with_reducible refine sendOn_keeps (sub_of (by decide) hp) ?_
    | with_reducible refine State.setPort_keeps (sub_of (by decide) hp) ?_
    | split
    | (clear_value *; split)
    | with_reducible refine keepsP_eq ?_ (by assumption)
    | with_reducible refine keepsO_eq ?_ (by assumption)
    | with_reducible refine keepsP_mk ?_

theorem execLockAchieved_keeps {ps z} {p : Sys2Proof.LnkId} {s : Sys2Proof.Machine.State} (hp : [.regs, .outbox, .port] ⊆ ps) (h1 : Keeps ps z s) :
    KeepsR ps z (execLockAchieved p s) := by
  unfold execLockAchieved
  repeat' first
    | with_reducible assumption
    | with_reducible exact keepsP_fst (by assumption)
    | (extract_lets -useContext +onlyGivenNames x; refine (fun (hx : Keeps ps z x) => ?_) ?_; clear_value x; revert x; intro _ _; rotate_left; unfold x; clear x; rotate_left)
    | (extract_lets -useContext +onlyGivenNames x; revert x; intro _)
    | with_reducible refine keepsR_next ?_
    | with_reducible exact keepsR_fault
    | with_reducible refine State.setReg_keeps (sub_of (by decide) hp) ?_
    | with_reducible refine enterInit_keeps (sub_of (by decide) hp) ?_
    | split
    | (clear_value *; split)
    | with_reducible refine keepsP_eq ?_ (by assumption)
    | with_reducible refine keepsO_eq ?_ (by assumption)
    | with_reducible refine keepsP_mk ?_

theorem execBxlHalfWidthTimeout_keeps {ps z} {hi : Bool} {s : Sys2Proof.Machine.State} (hp : [.regs, .outbox, .port] ⊆ ps) (h1 : Keeps ps z s) :
    KeepsR ps z (execBxlHalfWidthTimeout hi s) := by
  unfold execBxlHalfWidthTimeout
  repeat' first
    | with_reducible assumption
    | with_reducible exact keepsP_fst (by assumption)
    | (extract_lets -useContext +onlyGivenNames x; refine (fun (hx : Keeps ps z x) => ?_) ?_; clear_value x; revert x; intro _ _; rotate_left; unfold x; clear x; rotate_left)
    | (extract_lets -useContext +onlyGivenNames x; revert x; intro _)
    | with_reducible refine keepsR_next ?_
    | with_reducible exact keepsR_fault
    | with_reducible refine State.setReg_keeps (sub_of (by decide) hp) ?_
    | with_reducible refine enterInit_keeps (sub_of (by decide) hp) ?_
    | split
    | (clear_value *; split)
    | with_reducible refine keepsP_eq ?_ (by assumption)
    | with_reducible refine keepsO_eq ?_ (by assumption)
    | with_reducible refine keepsP_mk ?_

theorem loseBxl_keeps {ps z} {s : Sys2Proof.Machine.State} (hp : [.bxl] ⊆ ps) (h0 : Keeps ps z s) :
    Keeps ps z (loseBxl s) := by
  unfold loseBxl
  repeat' first
    | with_reducible assumption
    | with_reducible exact keepsP_fst (by assumption)
    | (extract_lets -useContext +onlyGivenNames x; refine (fun (hx : Keeps ps z x) => ?_) ?_; clear_value x; revert x; intro _ _; rotate_left; unfold x; clear x; rotate_left)
    | (extract_lets -useContext +onlyGivenNames x; revert x; intro _)
    | split
    | (clear_value *; split)
    | with_reducible refine keeps_with_bxl (mem_of (by decide) hp) ?_
    | with_reducible refine keepsP_eq ?_ (by assumption)
    | with_reducible refine keepsO_eq ?_ (by assumption)
    | with_reducible refine keepsP_mk ?_

theorem dropBuffer_keeps {ps z} {s : Sys2Proof.Machine.State} {l : Nat} (hp : [.link] ⊆ ps) (h0 : Keeps ps z s) :
    Keeps ps z (dropBuffer s l) := by
  unfold dropBuffer
  repeat' first
    | with_reducible assumption
    | with_reducible exact keepsP_fst (by assumption)
    | (extract_lets -useContext +onlyGivenNames x; refine (fun (hx : Keeps ps z x) => ?_) ?_; clear_value x; revert x; intro _ _; rotate_left; unfold x; clear x; rotate_left)
    | (extract_lets -useContext +onlyGivenNames x; revert x; intro _)
    | with_reducible refine State.setLink_keeps (sub_of (by decide) hp) ?_
    | split
    | (clear_value *; split)
    | with_reducible refine keepsP_eq ?_ (by assumption)
    | with_reducible refine keepsO_eq ?_ (by assumption)
    | with_reducible refine keepsP_mk ?_

theorem loseRetrain_keeps {ps z} {s : Sys2Proof.Machine.State} {p : Nat} (hp : [.regs, .mem, .arr, .outbox, .bxl, .life, .link, .port, .pins, .obs, .bridge] ⊆ ps) (h0 : Keeps ps z s) :
    Keeps ps z (loseRetrain s p) := by
  unfold loseRetrain
  repeat' first
    | with_reducible assumption
    | with_reducible exact keepsP_fst (by assumption)
    | (extract_lets -useContext +onlyGivenNames x; refine (fun (hx : Keeps ps z x) => ?_) ?_; clear_value x; revert x; intro _ _; rotate_left; unfold x; clear x; rotate_left)
    | (extract_lets -useContext +onlyGivenNames x; revert x; intro _)
    | with_reducible refine State.bump_keeps (sub_of (by decide) hp) ?_
    | with_reducible refine State.setLink_keeps (sub_of (by decide) hp) ?_
    | with_reducible refine State.setPort_keeps (sub_of (by decide) hp) ?_
    | with_reducible refine dropBuffer_keeps (sub_of (by decide) hp) ?_
    | with_reducible refine failLoad_keeps (sub_of (by decide) hp) ?_
    | with_reducible refine fatalError_keeps (sub_of (by decide) hp) ?_
    | with_reducible refine lnkRecord_keeps (sub_of (by decide) hp) ?_
    | with_reducible refine loseBxl_keeps (sub_of (by decide) hp) ?_
    | split
    | (clear_value *; split)
    | with_reducible refine keepsP_eq ?_ (by assumption)
    | with_reducible refine keepsO_eq ?_ (by assumption)
    | with_reducible refine keepsP_mk ?_

theorem execTrainingTimeout_keeps {ps z} {p : Sys2Proof.LnkId} {s : Sys2Proof.Machine.State} (hp : [.regs, .mem, .arr, .outbox, .bxl, .life, .link, .port, .pins, .obs, .bridge] ⊆ ps) (h1 : Keeps ps z s) :
    KeepsR ps z (execTrainingTimeout p s) := by
  unfold execTrainingTimeout
  repeat' first
    | with_reducible assumption
    | with_reducible exact keepsP_fst (by assumption)
    | (extract_lets -useContext +onlyGivenNames x; refine (fun (hx : Keeps ps z x) => ?_) ?_; clear_value x; revert x; intro _ _; rotate_left; unfold x; clear x; rotate_left)
    | (extract_lets -useContext +onlyGivenNames x; revert x; intro _)
    | with_reducible refine keepsR_next ?_
    | with_reducible exact keepsR_fault
    | with_reducible refine lnkRecord_keeps (sub_of (by decide) hp) ?_
    | with_reducible refine State.setPortState_keeps (sub_of (by decide) hp) ?_
    | with_reducible refine State.setPort_keeps (sub_of (by decide) hp) ?_
    | with_reducible refine loseRetrain_keeps (sub_of (by decide) hp) ?_
    | split
    | (clear_value *; split)
    | with_reducible refine keepsP_eq ?_ (by assumption)
    | with_reducible refine keepsO_eq ?_ (by assumption)
    | with_reducible refine keepsP_mk ?_

theorem execFailedRetry_keeps {ps z} {p : Sys2Proof.LnkId} {s : Sys2Proof.Machine.State} (hp : [.regs, .mem, .outbox, .life, .port, .bridge] ⊆ ps) (h1 : Keeps ps z s) :
    KeepsR ps z (execFailedRetry p s) := by
  unfold execFailedRetry
  repeat' first
    | with_reducible assumption
    | with_reducible exact keepsP_fst (by assumption)
    | (extract_lets -useContext +onlyGivenNames x; refine (fun (hx : Keeps ps z x) => ?_) ?_; clear_value x; revert x; intro _ _; rotate_left; unfold x; clear x; rotate_left)
    | (extract_lets -useContext +onlyGivenNames x; revert x; intro _)
    | with_reducible refine keepsR_next ?_
    | with_reducible exact keepsR_fault
    | with_reducible refine enterDetect_keeps (sub_of (by decide) hp) ?_
    | split
    | (clear_value *; split)
    | with_reducible refine keepsP_eq ?_ (by assumption)
    | with_reducible refine keepsO_eq ?_ (by assumption)
    | with_reducible refine keepsP_mk ?_

theorem execRetrainExpiry_keeps {ps z} {p : Sys2Proof.LnkId} {s : Sys2Proof.Machine.State} (hp : [.regs, .mem, .arr, .outbox, .bxl, .life, .link, .port, .pins, .obs, .bridge] ⊆ ps) (h1 : Keeps ps z s) :
    KeepsR ps z (execRetrainExpiry p s) := by
  unfold execRetrainExpiry
  repeat' first
    | with_reducible assumption
    | with_reducible exact keepsP_fst (by assumption)
    | (extract_lets -useContext +onlyGivenNames x; refine (fun (hx : Keeps ps z x) => ?_) ?_; clear_value x; revert x; intro _ _; rotate_left; unfold x; clear x; rotate_left)
    | (extract_lets -useContext +onlyGivenNames x; revert x; intro _)
    | with_reducible refine keepsR_next ?_
    | with_reducible exact keepsR_fault
    | with_reducible refine loseRetrain_keeps (sub_of (by decide) hp) ?_
    | split
    | (clear_value *; split)
    | with_reducible refine keepsP_eq ?_ (by assumption)
    | with_reducible refine keepsO_eq ?_ (by assumption)
    | with_reducible refine keepsP_mk ?_

theorem execProbationEnd_keeps {ps z} {p : Sys2Proof.PortId} {s : Sys2Proof.Machine.State} (hp : [.regs, .outbox, .link, .port, .rtr] ⊆ ps) (h1 : Keeps ps z s) :
    KeepsR ps z (execProbationEnd p s) := by
  unfold execProbationEnd
  repeat' first
    | with_reducible assumption
    | with_reducible exact keepsP_fst (by assumption)
    | (extract_lets -useContext +onlyGivenNames x; refine (fun (hx : Keeps ps z x) => ?_) ?_; clear_value x; revert x; intro _ _; rotate_left; unfold x; clear x; rotate_left)
    | (extract_lets -useContext +onlyGivenNames x; revert x; intro _)
    | with_reducible refine keepsR_next ?_
    | with_reducible exact keepsR_fault
    | with_reducible refine pumpLink_keeps (sub_of (by decide) hp) ?_
    | with_reducible refine State.setPortState_keeps (sub_of (by decide) hp) ?_
    | split
    | (clear_value *; split)
    | with_reducible refine keepsP_eq ?_ (by assumption)
    | with_reducible refine keepsO_eq ?_ (by assumption)
    | with_reducible refine keepsP_mk ?_

theorem execDegradeCheck_keeps {ps z} {p : Sys2Proof.LnkId} {s : Sys2Proof.Machine.State} (hp : [.regs, .mem, .outbox, .life, .port, .bridge] ⊆ ps) (h1 : Keeps ps z s) :
    KeepsR ps z (execDegradeCheck p s) := by
  unfold execDegradeCheck
  repeat' first
    | with_reducible assumption
    | with_reducible exact keepsP_fst (by assumption)
    | (extract_lets -useContext +onlyGivenNames x; refine (fun (hx : Keeps ps z x) => ?_) ?_; clear_value x; revert x; intro _ _; rotate_left; unfold x; clear x; rotate_left)
    | (extract_lets -useContext +onlyGivenNames x; revert x; intro _)
    | with_reducible refine keepsR_next ?_
    | with_reducible exact keepsR_fault
    | with_reducible refine retrainPort_keeps (sub_of (by decide) hp) ?_
    | with_reducible refine State.setPort_keeps (sub_of (by decide) hp) ?_
    | split
    | (clear_value *; split)
    | with_reducible refine keepsP_eq ?_ (by assumption)
    | with_reducible refine keepsO_eq ?_ (by assumption)
    | with_reducible refine keepsP_mk ?_

theorem execReplayTimeout_keeps {ps z} {p : Sys2Proof.LnkId} {s : Sys2Proof.Machine.State} (hp : [.regs, .mem, .outbox, .life, .link, .port, .rtr, .bridge] ⊆ ps) (h1 : Keeps ps z s) :
    KeepsR ps z (execReplayTimeout p s) := by
  unfold execReplayTimeout
  repeat' first
    | with_reducible assumption
    | with_reducible exact keepsP_fst (by assumption)
    | (extract_lets -useContext +onlyGivenNames x; refine (fun (hx : Keeps ps z x) => ?_) ?_; clear_value x; revert x; intro _ _; rotate_left; unfold x; clear x; rotate_left)
    | (extract_lets -useContext +onlyGivenNames x; revert x; intro _)
    | with_reducible refine keepsR_next ?_
    | with_reducible exact keepsR_fault
    | with_reducible refine startReplay_keeps (sub_of (by decide) hp) ?_
    | split
    | (clear_value *; split)
    | with_reducible refine keepsP_eq ?_ (by assumption)
    | with_reducible refine keepsO_eq ?_ (by assumption)
    | with_reducible refine keepsP_mk ?_

theorem bondPorts_keeps {ps z} {s : Sys2Proof.Machine.State} (hp : [.regs, .link] ⊆ ps) (h0 : Keeps ps z s) :
    Keeps ps z (bondPorts s) := by
  unfold bondPorts
  repeat' first
    | with_reducible assumption
    | with_reducible exact keepsP_fst (by assumption)
    | (extract_lets -useContext +onlyGivenNames x; refine (fun (hx : Keeps ps z x) => ?_) ?_; clear_value x; revert x; intro _ _; rotate_left; unfold x; clear x; rotate_left)
    | (extract_lets -useContext +onlyGivenNames x; revert x; intro _)
    | with_reducible refine State.setField_keeps (sub_of (by decide) hp) ?_
    | with_reducible refine State.setLink_keeps (sub_of (by decide) hp) ?_
    | with_reducible refine keeps_foldl (fun t a ht => ?_) ?_
    | with_reducible refine keepsP_foldl (fun t a ht => ?_) ?_
    | split
    | (clear_value *; split)
    | with_reducible refine keepsP_eq ?_ (by assumption)
    | with_reducible refine keepsO_eq ?_ (by assumption)
    | with_reducible refine keepsP_mk ?_

theorem resumeLayer_keeps {ps z} {s : Sys2Proof.Machine.State} {l : Nat} {last : Nat} (hp : [.regs, .outbox, .link, .port, .rtr] ⊆ ps) (h0 : Keeps ps z s) :
    Keeps ps z (resumeLayer s l last) := by
  unfold resumeLayer
  repeat' first
    | with_reducible assumption
    | with_reducible exact keepsP_fst (by assumption)
    | (extract_lets -useContext +onlyGivenNames x; refine (fun (hx : Keeps ps z x) => ?_) ?_; clear_value x; revert x; intro _ _; rotate_left; unfold x; clear x; rotate_left)
    | (extract_lets -useContext +onlyGivenNames x; revert x; intro _)
    | with_reducible refine State.setLink_keeps (sub_of (by decide) hp) ?_
    | with_reducible refine pumpLink_keeps (sub_of (by decide) hp) ?_
    | with_reducible refine replayAll_keeps (sub_of (by decide) hp) ?_
    | with_reducible refine takeAck_keeps (sub_of (by decide) hp) ?_
    | split
    | (clear_value *; split)
    | with_reducible refine keepsP_eq ?_ (by assumption)
    | with_reducible refine keepsO_eq ?_ (by assumption)
    | with_reducible refine keepsP_mk ?_

theorem resumePort_keeps {ps z} {s : Sys2Proof.Machine.State} {p : Nat} {l : Nat} {last : Nat} (hp : [.regs, .outbox, .link, .port, .rtr] ⊆ ps) (h0 : Keeps ps z s) :
    Keeps ps z (resumePort s p l last) := by
  unfold resumePort
  repeat' first
    | with_reducible assumption
    | with_reducible exact keepsP_fst (by assumption)
    | (extract_lets -useContext +onlyGivenNames x; refine (fun (hx : Keeps ps z x) => ?_) ?_; clear_value x; revert x; intro _ _; rotate_left; unfold x; clear x; rotate_left)
    | (extract_lets -useContext +onlyGivenNames x; revert x; intro _)
    | with_reducible refine State.setLink_keeps (sub_of (by decide) hp) ?_
    | with_reducible refine resumeLayer_keeps (sub_of (by decide) hp) ?_
    | with_reducible refine takeAck_keeps (sub_of (by decide) hp) ?_
    | split
    | (clear_value *; split)
    | with_reducible refine keepsP_eq ?_ (by assumption)
    | with_reducible refine keepsO_eq ?_ (by assumption)
    | with_reducible refine keepsP_mk ?_

theorem takeInit_keeps {ps z} {s : Sys2Proof.Machine.State} {p : Nat} {i : Sys2Proof.InitPar} (hp : [.regs, .mem, .outbox, .link, .port, .rtr, .bridge] ⊆ ps) (h0 : Keeps ps z s) :
    Keeps ps z (takeInit s p i) := by
  unfold takeInit
  repeat' first
    | with_reducible assumption
    | with_reducible exact keepsP_fst (by assumption)
    | (extract_lets -useContext +onlyGivenNames x; refine (fun (hx : Keeps ps z x) => ?_) ?_; clear_value x; revert x; intro _ _; rotate_left; unfold x; clear x; rotate_left)
    | (extract_lets -useContext +onlyGivenNames x; revert x; intro _)
    | with_reducible refine bondPorts_keeps (sub_of (by decide) hp) ?_
    | with_reducible refine State.setReg_keeps (sub_of (by decide) hp) ?_
    | with_reducible refine State.setField_keeps (sub_of (by decide) hp) ?_
    | with_reducible refine State.setPortState_keeps (sub_of (by decide) hp) ?_
    | with_reducible refine State.setPort_keeps (sub_of (by decide) hp) ?_
    | with_reducible refine malformed_keeps (sub_of (by decide) hp) ?_
    | with_reducible refine resumeLayer_keeps (sub_of (by decide) hp) ?_
    | with_reducible refine sendProbe_keeps (sub_of (by decide) hp) ?_
    | with_reducible refine resumePort_keeps (sub_of (by decide) hp) ?_
    | split
    | (clear_value *; split)
    | with_reducible refine keepsP_eq ?_ (by assumption)
    | with_reducible refine keepsO_eq ?_ (by assumption)
    | with_reducible refine keepsP_mk ?_

theorem sendNak_keeps {ps z} {s : Sys2Proof.Machine.State} {l : Nat} {p : Nat} (hp : [.regs, .outbox, .link, .port] ⊆ ps) (h0 : Keeps ps z s) :
    Keeps ps z (sendNak s l p) := by
  unfold sendNak
  repeat' first
    | with_reducible assumption
    | with_reducible exact keepsP_fst (by assumption)
    | (extract_lets -useContext +onlyGivenNames x; refine (fun (hx : Keeps ps z x) => ?_) ?_; clear_value x; revert x; intro _ _; rotate_left; unfold x; clear x; rotate_left)
    | (extract_lets -useContext +onlyGivenNames x; revert x; intro _)
    | with_reducible refine State.setLink_keeps (sub_of (by decide) hp) ?_
    | with_reducible refine sendOn_keeps (sub_of (by decide) hp) ?_
    | split
    | (clear_value *; split)
    | with_reducible refine keepsP_eq ?_ (by assumption)
    | with_reducible refine keepsO_eq ?_ (by assumption)
    | with_reducible refine keepsP_mk ?_

theorem restartProbation_keeps {ps z} {s : Sys2Proof.Machine.State} {p : Nat} (hp : [.port] ⊆ ps) (h0 : Keeps ps z s) :
    Keeps ps z (restartProbation s p) := by
  unfold restartProbation
  repeat' first
    | with_reducible assumption
    | with_reducible exact keepsP_fst (by assumption)
    | (extract_lets -useContext +onlyGivenNames x; refine (fun (hx : Keeps ps z x) => ?_) ?_; clear_value x; revert x; intro _ _; rotate_left; unfold x; clear x; rotate_left)
    | (extract_lets -useContext +onlyGivenNames x; revert x; intro _)
    | with_reducible refine State.setPort_keeps (sub_of (by decide) hp) ?_
    | split
    | (clear_value *; split)
    | with_reducible refine keepsP_eq ?_ (by assumption)
    | with_reducible refine keepsO_eq ?_ (by assumption)
    | with_reducible refine keepsP_mk ?_

theorem pushInput_keeps {ps z} {s : Sys2Proof.Machine.State} {input : Nat} {vc : Nat} {k : Sys2Proof.Machine.Pkt} (hp : [.rtr] ⊆ ps) (h0 : Keeps ps z s) :
    Keeps ps z (pushInput s input vc k) := by
  unfold pushInput
  repeat' first
    | with_reducible assumption
    | with_reducible exact keepsP_fst (by assumption)
    | (extract_lets -useContext +onlyGivenNames x; refine (fun (hx : Keeps ps z x) => ?_) ?_; clear_value x; revert x; intro _ _; rotate_left; unfold x; clear x; rotate_left)
    | (extract_lets -useContext +onlyGivenNames x; revert x; intro _)
    | split
    | (clear_value *; split)
    | with_reducible refine keeps_with_rtr (mem_of (by decide) hp) ?_
    | with_reducible refine keepsP_eq ?_ (by assumption)
    | with_reducible refine keepsO_eq ?_ (by assumption)
    | with_reducible refine keepsP_mk ?_

theorem takePacket_keeps {ps z} {l : Nat} {p : Nat} {s : Sys2Proof.Machine.State} {k : Sys2Proof.Machine.Pkt} (hp : [.regs, .outbox, .link, .port, .rtr] ⊆ ps) (h2 : Keeps ps z s) :
    Keeps ps z (takePacket l p s k) := by
  unfold takePacket
  repeat' first
    | with_reducible assumption
    | with_reducible exact keepsP_fst (by assumption)
    | (extract_lets -useContext +onlyGivenNames x; refine (fun (hx : Keeps ps z x) => ?_) ?_; clear_value x; revert x; intro _ _; rotate_left; unfold x; clear x; rotate_left)
    | (extract_lets -useContext +onlyGivenNames x; revert x; intro _)
    | with_reducible refine freeUnits_keeps (sub_of (by decide) hp) ?_
    | with_reducible refine pushInput_keeps (sub_of (by decide) hp) ?_
    | split
    | (clear_value *; split)
    | with_reducible refine keepsP_eq ?_ (by assumption)
    | with_reducible refine keepsO_eq ?_ (by assumption)
    | with_reducible refine keepsP_mk ?_

theorem takeMessage_keeps {ps z} {s : Sys2Proof.Machine.State} {b : List Sys2Proof.Byte} (hp : [.regs, .mem, .outbox, .link, .port, .rtr, .bridge] ⊆ ps) (h0 : Keeps ps z s) :
    Keeps ps z (takeMessage s b) := by
  unfold takeMessage
  repeat' first
    | with_reducible assumption
    | with_reducible exact keepsP_fst (by assumption)
    | (extract_lets -useContext +onlyGivenNames x; refine (fun (hx : Keeps ps z x) => ?_) ?_; clear_value x; revert x; intro _ _; rotate_left; unfold x; clear x; rotate_left)
    | (extract_lets -useContext +onlyGivenNames x; revert x; intro _)
    | with_reducible refine freeUnits_keeps (sub_of (by decide) hp) ?_
    | with_reducible refine malformed_keeps (sub_of (by decide) hp) ?_
    | with_reducible refine mmioReply_keeps (sub_of (by decide) hp) ?_
    | split
    | (clear_value *; split)
    | with_reducible refine keepsP_eq ?_ (by assumption)
    | with_reducible refine keepsO_eq ?_ (by assumption)
    | with_reducible refine keepsP_mk ?_

theorem takeStream_keeps {ps z} {s : Sys2Proof.Machine.State} {l : Nat} {p : Nat} {body : List Sys2Proof.Byte} (hp : [.regs, .mem, .outbox, .link, .port, .rtr, .bridge] ⊆ ps) (h0 : Keeps ps z s) :
    Keeps ps z (takeStream s l p body) := by
  unfold takeStream
  repeat' first
    | with_reducible assumption
    | with_reducible exact keepsP_fst (by assumption)
    | (extract_lets -useContext +onlyGivenNames x; refine (fun (hx : Keeps ps z x) => ?_) ?_; clear_value x; revert x; intro _ _; rotate_left; unfold x; clear x; rotate_left)
    | (extract_lets -useContext +onlyGivenNames x; revert x; intro _)
    | with_reducible refine State.setLink_keeps (sub_of (by decide) hp) ?_
    | with_reducible refine takeMessage_keeps (sub_of (by decide) hp) ?_
    | with_reducible refine takePacket_keeps (sub_of (by decide) hp) ?_
    | with_reducible refine keeps_foldl (fun t a ht => ?_) ?_
    | with_reducible refine keepsP_foldl (fun t a ht => ?_) ?_
    | split
    | (clear_value *; split)
    | with_reducible refine keepsP_eq ?_ (by assumption)
    | with_reducible refine keepsO_eq ?_ (by assumption)
    | with_reducible refine keepsP_mk ?_

theorem flitError_keeps {ps z} {s : Sys2Proof.Machine.State} {l : Nat} {p : Nat} {crc : Bool} (hp : [.regs, .mem, .outbox, .link, .port, .bridge] ⊆ ps) (h0 : Keeps ps z s) :
    Keeps ps z (flitError s l p crc) := by
  unfold flitError
  repeat' first
    | with_reducible assumption
    | with_reducible exact keepsP_fst (by assumption)
    | (extract_lets -useContext +onlyGivenNames x; refine (fun (hx : Keeps ps z x) => ?_) ?_; clear_value x; revert x; intro _ _; rotate_left; unfold x; clear x; rotate_left)
    | (extract_lets -useContext +onlyGivenNames x; revert x; intro _)
    | with_reducible refine State.bump_keeps (sub_of (by decide) hp) ?_
    | with_reducible refine bxlRecord_keeps (sub_of (by decide) hp) ?_
    | with_reducible refine lnkRecord_keeps (sub_of (by decide) hp) ?_
    | with_reducible refine restartProbation_keeps (sub_of (by decide) hp) ?_
    | with_reducible refine sendNak_keeps (sub_of (by decide) hp) ?_
    | split
    | (clear_value *; split)
    | with_reducible refine keepsP_eq ?_ (by assumption)
    | with_reducible refine keepsO_eq ?_ (by assumption)
    | with_reducible refine keepsP_mk ?_

theorem takeCredit_keeps {ps z} {s : Sys2Proof.Machine.State} {l : Nat} {body : List Sys2Proof.Byte} (hp : [.regs, .outbox, .link, .port, .rtr] ⊆ ps) (h0 : Keeps ps z s) :
    Keeps ps z (takeCredit s l body) := by
  unfold takeCredit
  repeat' first
    | with_reducible assumption
    | with_reducible exact keepsP_fst (by assumption)
    | (extract_lets -useContext +onlyGivenNames x; refine (fun (hx : Keeps ps z x) => ?_) ?_; clear_value x; revert x; intro _ _; rotate_left; unfold x; clear x; rotate_left)
    | (extract_lets -useContext +onlyGivenNames x; revert x; intro _)
    | with_reducible refine State.setLink_keeps (sub_of (by decide) hp) ?_
    | with_reducible refine releaseHeld_keeps (sub_of (by decide) hp) ?_
    | with_reducible refine keeps_foldl (fun t a ht => ?_) ?_
    | with_reducible refine keepsP_foldl (fun t a ht => ?_) ?_
    | split
    | (clear_value *; split)
    | with_reducible refine keepsP_eq ?_ (by assumption)
    | with_reducible refine keepsO_eq ?_ (by assumption)
    | with_reducible refine keepsP_mk ?_

theorem takeFlit_keeps {ps z} {p : Nat} {a : Sys2Proof.Machine.State × List Sys2Proof.InitPar} {bytes : List Sys2Proof.Byte} (hp : [.regs, .mem, .outbox, .life, .link, .port, .rtr, .bridge] ⊆ ps) (h1 : KeepsP ps z a) :
    KeepsP ps z (takeFlit p a bytes) := by
  unfold takeFlit
  repeat' first
    | with_reducible assumption
    | with_reducible exact keepsP_fst (by assumption)
    | (extract_lets -useContext +onlyGivenNames x; refine (fun (hx : Keeps ps z x) => ?_) ?_; clear_value x; revert x; intro _ _; rotate_left; unfold x; clear x; rotate_left)
    | (extract_lets -useContext +onlyGivenNames x; refine (fun (hx : KeepsP ps z x) => ?_) ?_; clear_value x; revert x; intro _ _; rotate_left; unfold x; clear x; rotate_left)
    | (extract_lets -useContext +onlyGivenNames x; revert x; intro _)
    | with_reducible refine State.setLink_keeps (sub_of (by decide) hp) ?_
    | with_reducible refine countEvent_keeps (sub_of (by decide) hp) ?_
    | with_reducible refine flitError_keeps (sub_of (by decide) hp) ?_
    | with_reducible refine startReplay_keeps (sub_of (by decide) hp) ?_
    | with_reducible refine takeAck_keeps (sub_of (by decide) hp) ?_
    | with_reducible refine takeCredit_keeps (sub_of (by decide) hp) ?_
    | with_reducible refine takeInit_keeps (sub_of (by decide) hp) ?_
    | with_reducible refine takeStream_keeps (sub_of (by decide) hp) ?_
    | split
    | (clear_value *; split)
    | with_reducible refine keepsP_eq ?_ (by assumption)
    | with_reducible refine keepsO_eq ?_ (by assumption)
    | with_reducible refine keepsP_mk ?_

theorem codewordLost_keeps {ps z} {s : Sys2Proof.Machine.State} {p : Nat} (hp : [.regs, .mem, .outbox, .link, .port, .bridge] ⊆ ps) (h0 : Keeps ps z s) :
    Keeps ps z (codewordLost s p) := by
  unfold codewordLost
  repeat' first
    | with_reducible assumption
    | with_reducible exact keepsP_fst (by assumption)
    | (extract_lets -useContext +onlyGivenNames x; refine (fun (hx : Keeps ps z x) => ?_) ?_; clear_value x; revert x; intro _ _; rotate_left; unfold x; clear x; rotate_left)
    | (extract_lets -useContext +onlyGivenNames x; revert x; intro _)
    | with_reducible refine State.bump_keeps (sub_of (by decide) hp) ?_
    | with_reducible refine State.setPort_keeps (sub_of (by decide) hp) ?_
    | with_reducible refine bxlRecord_keeps (sub_of (by decide) hp) ?_
    | with_reducible refine lnkRecord_keeps (sub_of (by decide) hp) ?_
    | with_reducible refine restartProbation_keeps (sub_of (by decide) hp) ?_
    | with_reducible refine sendNak_keeps (sub_of (by decide) hp) ?_
    | split
    | (clear_value *; split)
    | with_reducible refine keepsP_eq ?_ (by assumption)
    | with_reducible refine keepsO_eq ?_ (by assumption)
    | with_reducible refine keepsP_mk ?_

theorem countCorrected_keeps {ps z} {s : Sys2Proof.Machine.State} {p : Nat} {n : Nat} (hp : [.regs, .mem, .outbox, .bridge] ⊆ ps) (h0 : Keeps ps z s) :
    Keeps ps z (countCorrected s p n) := by
  unfold countCorrected
  repeat' first
    | with_reducible assumption
    | with_reducible exact keepsP_fst (by assumption)
    | (extract_lets -useContext +onlyGivenNames x; refine (fun (hx : Keeps ps z x) => ?_) ?_; clear_value x; revert x; intro _ _; rotate_left; unfold x; clear x; rotate_left)
    | (extract_lets -useContext +onlyGivenNames x; revert x; intro _)
    | with_reducible refine State.bump_keeps (sub_of (by decide) hp) ?_
    | with_reducible refine countEvent_keeps (sub_of (by decide) hp) ?_
    | with_reducible refine lnkRecord_keeps (sub_of (by decide) hp) ?_
    | split
    | (clear_value *; split)
    | with_reducible refine keepsP_eq ?_ (by assumption)
    | with_reducible refine keepsO_eq ?_ (by assumption)
    | with_reducible refine keepsP_mk ?_

theorem execCodewordRx_keeps {ps z} {p : Sys2Proof.LnkId} {low : List (List (BitVec 10))} {high : List (List (BitVec 10))} {inits : List Sys2Proof.InitPar} {s : Sys2Proof.Machine.State} (hp : [.regs, .mem, .outbox, .life, .link, .port, .rtr, .bridge] ⊆ ps) (h4 : Keeps ps z s) :
    KeepsR ps z (execCodewordRx p low high inits s) := by
  unfold execCodewordRx
  repeat' first
    | with_reducible assumption
    | with_reducible exact keepsP_fst (by assumption)
    | (extract_lets -useContext +onlyGivenNames x; refine (fun (hx : Keeps ps z x) => ?_) ?_; clear_value x; revert x; intro _ _; rotate_left; unfold x; clear x; rotate_left)
    | (extract_lets -useContext +onlyGivenNames x; refine (fun (hx : KeepsP ps z x) => ?_) ?_; clear_value x; revert x; intro _ _; rotate_left; unfold x; clear x; rotate_left)
    | (extract_lets -useContext +onlyGivenNames x; revert x; intro _)
    | with_reducible refine keepsR_next ?_
    | with_reducible exact keepsR_fault
    | with_reducible refine takeFlit_keeps (sub_of (by decide) hp) ?_
    | with_reducible refine keepsP_fst (takeFlit_keeps (sub_of (by decide) hp) ?_)
    | with_reducible refine keepsP_eq (takeFlit_keeps (sub_of (by decide) hp) ?_) (by assumption)
    | with_reducible refine codewordLost_keeps (sub_of (by decide) hp) ?_
    | with_reducible refine countCorrected_keeps (sub_of (by decide) hp) ?_
    | with_reducible refine keeps_foldl (fun t a ht => ?_) ?_
    | with_reducible refine keepsP_foldl (fun t a ht => ?_) ?_
    | split
    | (clear_value *; split)
    | with_reducible refine keepsP_eq ?_ (by assumption)
    | with_reducible refine keepsO_eq ?_ (by assumption)
    | with_reducible refine keepsP_mk ?_

theorem losePair_keeps {ps z} {s : Sys2Proof.Machine.State} (hp : [.regs] ⊆ ps) (h0 : Keeps ps z s) :
    Keeps ps z (losePair s) := by
  unfold losePair
  repeat' first
    | with_reducible assumption
    | with_reducible exact keepsP_fst (by assumption)
    | (extract_lets -useContext +onlyGivenNames x; refine (fun (hx : Keeps ps z x) => ?_) ?_; clear_value x; revert x; intro _ _; rotate_left; unfold x; clear x; rotate_left)
    | (extract_lets -useContext +onlyGivenNames x; revert x; intro _)
    | with_reducible refine State.setReg_keeps (sub_of (by decide) hp) ?_
    | split
    | (clear_value *; split)
    | with_reducible refine keepsP_eq ?_ (by assumption)
    | with_reducible refine keepsO_eq ?_ (by assumption)
    | with_reducible refine keepsP_mk ?_

theorem stopPort_keeps {ps z} {s : Sys2Proof.Machine.State} {p : Nat} {st : Nat} (hp : [.regs, .link, .port] ⊆ ps) (h0 : Keeps ps z s) :
    Keeps ps z (stopPort s p st) := by
  unfold stopPort
  repeat' first
    | with_reducible assumption
    | with_reducible exact keepsP_fst (by assumption)
    | (extract_lets -useContext +onlyGivenNames x; refine (fun (hx : Keeps ps z x) => ?_) ?_; clear_value x; revert x; intro _ _; rotate_left; unfold x; clear x; rotate_left)
    | (extract_lets -useContext +onlyGivenNames x; revert x; intro _)
    | with_reducible refine State.setPortState_keeps (sub_of (by decide) hp) ?_
    | with_reducible refine State.setPort_keeps (sub_of (by decide) hp) ?_
    | with_reducible refine State.setLink_keeps (sub_of (by decide) hp) ?_
    | split
    | (clear_value *; split)
    | with_reducible refine keepsP_eq ?_ (by assumption)
    | with_reducible refine keepsO_eq ?_ (by assumption)
    | with_reducible refine keepsP_mk ?_

theorem applyLnk_keeps {ps z} {s : Sys2Proof.Machine.State} {p : Nat} (hp : [.regs, .mem, .outbox, .life, .link, .port, .bridge] ⊆ ps) (h0 : Keeps ps z s) :
    Keeps ps z (applyLnk s p) := by
  unfold applyLnk
  repeat' first
    | with_reducible assumption
    | with_reducible exact keepsP_fst (by assumption)
    | (extract_lets -useContext +onlyGivenNames x; refine (fun (hx : Keeps ps z x) => ?_) ?_; clear_value x; revert x; intro _ _; rotate_left; unfold x; clear x; rotate_left)
    | (extract_lets -useContext +onlyGivenNames x; revert x; intro _)
    | with_reducible refine enterDetect_keeps (sub_of (by decide) hp) ?_
    | with_reducible refine stopPort_keeps (sub_of (by decide) hp) ?_
    | split
    | (clear_value *; split)
    | with_reducible refine keepsP_eq ?_ (by assumption)
    | with_reducible refine keepsO_eq ?_ (by assumption)
    | with_reducible refine keepsP_mk ?_

theorem writeLnkCtrl_keeps {ps z} {s : Sys2Proof.Machine.State} {p : Nat} {v : Nat} (hp : [.regs, .mem, .outbox, .life, .link, .port, .bridge] ⊆ ps) (h0 : Keeps ps z s) :
    Keeps ps z (writeLnkCtrl s p v) := by
  unfold writeLnkCtrl
  repeat' first
    | with_reducible assumption
    | with_reducible exact keepsP_fst (by assumption)
    | (extract_lets -useContext +onlyGivenNames x; refine (fun (hx : Keeps ps z x) => ?_) ?_; clear_value x; revert x; intro _ _; rotate_left; unfold x; clear x; rotate_left)
    | (extract_lets -useContext +onlyGivenNames x; revert x; intro _)
    | with_reducible refine bondPorts_keeps (sub_of (by decide) hp) ?_
    | with_reducible refine losePair_keeps (sub_of (by decide) hp) ?_
    | with_reducible refine retrainPort_keeps (sub_of (by decide) hp) ?_
    | with_reducible refine applyLnk_keeps (sub_of (by decide) hp) ?_
    | with_reducible refine State.setField_keeps (sub_of (by decide) hp) ?_
    | with_reducible refine State.setReg_keeps (sub_of (by decide) hp) ?_
    | with_reducible refine keeps_foldl (fun t a ht => ?_) ?_
    | with_reducible refine keepsP_foldl (fun t a ht => ?_) ?_
    | split
    | (clear_value *; split)
    | with_reducible refine keepsP_eq ?_ (by assumption)
    | with_reducible refine keepsO_eq ?_ (by assumption)
    | with_reducible refine keepsP_mk ?_

end Sys2Proof.Machine
end

