-- ==== Sys2Proof/Laws/FrameRouter.lean ====
section
/-!
SUPPORT. Frames: for each operation of Sys2Proof/Machine/Router.lean, the parts of State it may change, and that it keeps the stores'
canonical form.
-/
namespace Sys2Proof.Machine

open Sys2Proof

theorem rtrEvent_keeps {ps z} {s : Sys2Proof.Machine.State} {ev : Nat} (hp : [.regs, .mem, .outbox, .bridge] ⊆ ps) (h0 : Keeps ps z s) :
    Keeps ps z (rtrEvent s ev) := by
  unfold rtrEvent
  repeat' first
    | with_reducible assumption
    | with_reducible exact keepsP_fst (by assumption)
    | (extract_lets -useContext +onlyGivenNames x; refine (fun (hx : Keeps ps z x) => ?_) ?_; clear_value x; revert x; intro _ _; rotate_left; unfold x; clear x; rotate_left)
    | (extract_lets -useContext +onlyGivenNames x; revert x; intro _)
    | with_reducible refine State.bump_keeps (sub_of (by decide) hp) ?_
    | with_reducible refine capture_keeps (sub_of (by decide) hp) ?_
    | split
    | (clear_value *; split)
    | with_reducible refine keepsP_eq ?_ (by assumption)
    | with_reducible refine keepsO_eq ?_ (by assumption)
    | with_reducible refine keepsP_mk ?_

theorem State.setThrottle_keeps {ps z} {s : Sys2Proof.Machine.State} {half : Nat} {v : Sys2Proof.Machine.Throttle} (hp : [.rtr] ⊆ ps) (h0 : Keeps ps z s) :
    Keeps ps z (State.setThrottle s half v) := by
  unfold State.setThrottle
  repeat' first
    | with_reducible assumption
    | with_reducible exact keepsP_fst (by assumption)
    | (extract_lets -useContext +onlyGivenNames x; refine (fun (hx : Keeps ps z x) => ?_) ?_; clear_value x; revert x; intro _ _; rotate_left; unfold x; clear x; rotate_left)
    | (extract_lets -useContext +onlyGivenNames x; revert x; intro _)
    | split
    | (clear_value *; split)
    | with_reducible refine keeps_with_rtr (mem_of (by decide) hp) ?_
    | with_reducible refine keepsP_eq ?_ (by assumption)
    | with_reducible refine keepsO_eq ?_ (by assumption)
    | with_reducible refine keepsP_mk ?_

theorem judgeThrottle_keeps {ps z} {s : Sys2Proof.Machine.State} {half : Nat} (hp : [.rtr] ⊆ ps) (h0 : Keeps ps z s) :
    Keeps ps z (judgeThrottle s half) := by
  unfold judgeThrottle
  repeat' first
    | with_reducible assumption
    | with_reducible exact keepsP_fst (by assumption)
    | (extract_lets -useContext +onlyGivenNames x; refine (fun (hx : Keeps ps z x) => ?_) ?_; clear_value x; revert x; intro _ _; rotate_left; unfold x; clear x; rotate_left)
    | (extract_lets -useContext +onlyGivenNames x; revert x; intro _)
    | with_reducible refine State.setThrottle_keeps (sub_of (by decide) hp) ?_
    | split
    | (clear_value *; split)
    | with_reducible refine keepsP_eq ?_ (by assumption)
    | with_reducible refine keepsO_eq ?_ (by assumption)
    | with_reducible refine keepsP_mk ?_

theorem inject_keeps {ps z} {s : Sys2Proof.Machine.State} {half : Nat} {k : Sys2Proof.Machine.Pkt} (hp : [.rtr] ⊆ ps) (h0 : Keeps ps z s) :
    Keeps ps z (inject s half k) := by
  unfold inject
  repeat' first
    | with_reducible assumption
    | with_reducible exact keepsP_fst (by assumption)
    | (extract_lets -useContext +onlyGivenNames x; refine (fun (hx : Keeps ps z x) => ?_) ?_; clear_value x; revert x; intro _ _; rotate_left; unfold x; clear x; rotate_left)
    | (extract_lets -useContext +onlyGivenNames x; revert x; intro _)
    | with_reducible refine pushInput_keeps (sub_of (by decide) hp) ?_
    | with_reducible refine judgeThrottle_keeps (sub_of (by decide) hp) ?_
    | split
    | (clear_value *; split)
    | with_reducible refine keepsP_eq ?_ (by assumption)
    | with_reducible refine keepsO_eq ?_ (by assumption)
    | with_reducible refine keepsP_mk ?_

theorem throttleCycle_keeps {ps z} {s : Sys2Proof.Machine.State} {input : Nat} {vc : Nat} {sent : Bool} (hp : [.rtr] ⊆ ps) (h0 : Keeps ps z s) :
    Keeps ps z (throttleCycle s input vc sent) := by
  unfold throttleCycle
  repeat' first
    | with_reducible assumption
    | with_reducible exact keepsP_fst (by assumption)
    | (extract_lets -useContext +onlyGivenNames x; refine (fun (hx : Keeps ps z x) => ?_) ?_; clear_value x; revert x; intro _ _; rotate_left; unfold x; clear x; rotate_left)
    | (extract_lets -useContext +onlyGivenNames x; revert x; intro _)
    | with_reducible refine State.setThrottle_keeps (sub_of (by decide) hp) ?_
    | split
    | (clear_value *; split)
    | with_reducible refine keepsP_eq ?_ (by assumption)
    | with_reducible refine keepsO_eq ?_ (by assumption)
    | with_reducible refine keepsP_mk ?_

theorem popInput_keeps {ps z} {s : Sys2Proof.Machine.State} {input : Nat} {vc : Nat} {k : Sys2Proof.Machine.Pkt} (hp : [.regs, .outbox, .link, .port, .rtr] ⊆ ps) (h0 : Keeps ps z s) :
    Keeps ps z (popInput s input vc k) := by
  unfold popInput
  repeat' first
    | with_reducible assumption
    | with_reducible exact keepsP_fst (by assumption)
    | (extract_lets -useContext +onlyGivenNames x; refine (fun (hx : Keeps ps z x) => ?_) ?_; clear_value x; revert x; intro _ _; rotate_left; unfold x; clear x; rotate_left)
    | (extract_lets -useContext +onlyGivenNames x; revert x; intro _)
    | with_reducible refine freeUnits_keeps (sub_of (by decide) hp) ?_
    | with_reducible refine judgeThrottle_keeps (sub_of (by decide) hp) ?_
    | split
    | (clear_value *; split)
    | with_reducible refine keeps_with_rtr (mem_of (by decide) hp) ?_
    | with_reducible refine keepsP_eq ?_ (by assumption)
    | with_reducible refine keepsO_eq ?_ (by assumption)
    | with_reducible refine keepsP_mk ?_

theorem fencedNotice_keeps {ps z} {s : Sys2Proof.Machine.State} {k : Sys2Proof.Machine.Pkt} (hp : [.rtr] ⊆ ps) (h0 : Keeps ps z s) :
    Keeps ps z (fencedNotice s k) := by
  unfold fencedNotice
  repeat' first
    | with_reducible assumption
    | with_reducible exact keepsP_fst (by assumption)
    | (extract_lets -useContext +onlyGivenNames x; refine (fun (hx : Keeps ps z x) => ?_) ?_; clear_value x; revert x; intro _ _; rotate_left; unfold x; clear x; rotate_left)
    | (extract_lets -useContext +onlyGivenNames x; revert x; intro _)
    | with_reducible refine inject_keeps (sub_of (by decide) hp) ?_
    | split
    | (clear_value *; split)
    | with_reducible refine keepsP_eq ?_ (by assumption)
    | with_reducible refine keepsO_eq ?_ (by assumption)
    | with_reducible refine keepsP_mk ?_

theorem execPacketForward_keeps {ps z} {input : Fin 38} {vc : Fin 4} {s : Sys2Proof.Machine.State} (hp : [.regs, .mem, .outbox, .link, .port, .rtr, .bridge] ⊆ ps) (h2 : Keeps ps z s) :
    KeepsR ps z (execPacketForward input vc s) := by
  unfold execPacketForward
  repeat' first
    | with_reducible assumption
    | with_reducible exact keepsP_fst (by assumption)
    | (extract_lets -useContext +onlyGivenNames x; refine (fun (hx : Keeps ps z x) => ?_) ?_; clear_value x; revert x; intro _ _; rotate_left; unfold x; clear x; rotate_left)
    | (extract_lets -useContext +onlyGivenNames x; revert x; intro _)
    | with_reducible refine keepsR_next ?_
    | with_reducible exact keepsR_fault
    | with_reducible refine transmit_keeps (sub_of (by decide) hp) ?_
    | with_reducible refine countEvent_keeps (sub_of (by decide) hp) ?_
    | with_reducible refine fencedNotice_keeps (sub_of (by decide) hp) ?_
    | with_reducible refine rtrEvent_keeps (sub_of (by decide) hp) ?_
    | with_reducible refine popInput_keeps (sub_of (by decide) hp) ?_
    | with_reducible refine State.bump_keeps (sub_of (by decide) hp) ?_
    | with_reducible refine throttleCycle_keeps (sub_of (by decide) hp) ?_
    | with_reducible refine crossOnce_keeps (sub_of (by decide) hp) ?_
    | with_reducible refine crossTo_keeps (sub_of (by decide) hp) ?_
    | split
    | (clear_value *; split)
    | with_reducible refine keepsP_eq ?_ (by assumption)
    | with_reducible refine keepsO_eq ?_ (by assumption)
    | with_reducible refine keepsP_mk ?_

theorem execPacketStallTimeout_keeps {ps z} {input : Fin 38} {vc : Fin 4} {s : Sys2Proof.Machine.State} (hp : [.regs, .mem, .outbox, .link, .port, .rtr, .bridge] ⊆ ps) (h2 : Keeps ps z s) :
    KeepsR ps z (execPacketStallTimeout input vc s) := by
  unfold execPacketStallTimeout
  repeat' first
    | with_reducible assumption
    | with_reducible exact keepsP_fst (by assumption)
    | (extract_lets -useContext +onlyGivenNames x; refine (fun (hx : Keeps ps z x) => ?_) ?_; clear_value x; revert x; intro _ _; rotate_left; unfold x; clear x; rotate_left)
    | (extract_lets -useContext +onlyGivenNames x; revert x; intro _)
    | with_reducible refine keepsR_next ?_
    | with_reducible exact keepsR_fault
    | with_reducible refine popInput_keeps (sub_of (by decide) hp) ?_
    | with_reducible refine rtrEvent_keeps (sub_of (by decide) hp) ?_
    | split
    | (clear_value *; split)
    | with_reducible refine keepsP_eq ?_ (by assumption)
    | with_reducible refine keepsO_eq ?_ (by assumption)
    | with_reducible refine keepsP_mk ?_

theorem advanceEpoch_keeps {ps z} {s : Sys2Proof.Machine.State} (hp : [.regs, .rtr] ⊆ ps) (h0 : Keeps ps z s) :
    Keeps ps z (advanceEpoch s) := by
  unfold advanceEpoch
  repeat' first
    | with_reducible assumption
    | with_reducible exact keepsP_fst (by assumption)
    | (extract_lets -useContext +onlyGivenNames x; refine (fun (hx : Keeps ps z x) => ?_) ?_; clear_value x; revert x; intro _ _; rotate_left; unfold x; clear x; rotate_left)
    | (extract_lets -useContext +onlyGivenNames x; revert x; intro _)
    | with_reducible refine State.setField_keeps (sub_of (by decide) hp) ?_
    | with_reducible refine State.setReg_keeps (sub_of (by decide) hp) ?_
    | with_reducible refine keeps_foldl (fun t a ht => ?_) ?_
    | with_reducible refine keepsP_foldl (fun t a ht => ?_) ?_
    | split
    | (clear_value *; split)
    | with_reducible refine keeps_with_rtr (mem_of (by decide) hp) ?_
    | with_reducible refine keepsP_eq ?_ (by assumption)
    | with_reducible refine keepsO_eq ?_ (by assumption)
    | with_reducible refine keepsP_mk ?_

theorem writeEpochAt_keeps {ps z} {s : Sys2Proof.Machine.State} {v : Nat} (hp : [.regs, .rtr] ⊆ ps) (h0 : Keeps ps z s) :
    KeepsO ps z (writeEpochAt s v) := by
  unfold writeEpochAt
  repeat' first
    | with_reducible assumption
    | with_reducible exact keepsP_fst (by assumption)
    | (extract_lets -useContext +onlyGivenNames x; refine (fun (hx : Keeps ps z x) => ?_) ?_; clear_value x; revert x; intro _ _; rotate_left; unfold x; clear x; rotate_left)
    | (extract_lets -useContext +onlyGivenNames x; refine (fun (hx : KeepsO ps z x) => ?_) ?_; clear_value x; revert x; intro _ _; rotate_left; unfold x; clear x; rotate_left)
    | with_reducible exact keepsO_get (by assumption)
    | (extract_lets -useContext +onlyGivenNames x; revert x; intro _)
    | exact keepsO_none
    | with_reducible refine keepsO_some ?_
    | with_reducible refine State.setField_keeps (sub_of (by decide) hp) ?_
    | with_reducible refine advanceEpoch_keeps (sub_of (by decide) hp) ?_
    | with_reducible refine State.setReg_keeps (sub_of (by decide) hp) ?_
    | split
    | (clear_value *; split)
    | with_reducible refine keepsP_eq ?_ (by assumption)
    | with_reducible refine keepsO_eq ?_ (by assumption)
    | with_reducible refine keepsP_mk ?_

theorem execEpochAdvance_keeps {ps z} {s : Sys2Proof.Machine.State} (hp : [.regs, .rtr] ⊆ ps) (h0 : Keeps ps z s) :
    KeepsR ps z (execEpochAdvance s) := by
  unfold execEpochAdvance
  repeat' first
    | with_reducible assumption
    | with_reducible exact keepsP_fst (by assumption)
    | (extract_lets -useContext +onlyGivenNames x; refine (fun (hx : Keeps ps z x) => ?_) ?_; clear_value x; revert x; intro _ _; rotate_left; unfold x; clear x; rotate_left)
    | (extract_lets -useContext +onlyGivenNames x; revert x; intro _)
    | with_reducible refine keepsR_next ?_
    | with_reducible exact keepsR_fault
    | with_reducible refine advanceEpoch_keeps (sub_of (by decide) hp) ?_
    | split
    | (clear_value *; split)
    | with_reducible refine keepsP_eq ?_ (by assumption)
    | with_reducible refine keepsO_eq ?_ (by assumption)
    | with_reducible refine keepsP_mk ?_

theorem writeTdataLo_keeps {ps z} {s : Sys2Proof.Machine.State} {v : Nat} (hp : [.regs, .rtr] ⊆ ps) (h0 : Keeps ps z s) :
    KeepsO ps z (writeTdataLo s v) := by
  unfold writeTdataLo
  repeat' first
    | with_reducible assumption
    | with_reducible exact keepsP_fst (by assumption)
    | (extract_lets -useContext +onlyGivenNames x; refine (fun (hx : Keeps ps z x) => ?_) ?_; clear_value x; revert x; intro _ _; rotate_left; unfold x; clear x; rotate_left)
    | (extract_lets -useContext +onlyGivenNames x; refine (fun (hx : KeepsO ps z x) => ?_) ?_; clear_value x; revert x; intro _ _; rotate_left; unfold x; clear x; rotate_left)
    | with_reducible exact keepsO_get (by assumption)
    | (extract_lets -useContext +onlyGivenNames x; revert x; intro _)
    | exact keepsO_none
    | with_reducible refine keepsO_some ?_
    | with_reducible refine losePair_keeps (sub_of (by decide) hp) ?_
    | with_reducible refine State.setReg_keeps (sub_of (by decide) hp) ?_
    | split
    | (clear_value *; split)
    | with_reducible refine keeps_with_rtr (mem_of (by decide) hp) ?_
    | with_reducible refine keepsP_eq ?_ (by assumption)
    | with_reducible refine keepsO_eq ?_ (by assumption)
    | with_reducible refine keepsP_mk ?_

theorem writeTdataHi_keeps {ps z} {s : Sys2Proof.Machine.State} {v : Nat} (hp : [.regs, .rtr] ⊆ ps) (h0 : Keeps ps z s) :
    KeepsO ps z (writeTdataHi s v) := by
  unfold writeTdataHi
  repeat' first
    | with_reducible assumption
    | with_reducible exact keepsP_fst (by assumption)
    | (extract_lets -useContext +onlyGivenNames x; refine (fun (hx : Keeps ps z x) => ?_) ?_; clear_value x; revert x; intro _ _; rotate_left; unfold x; clear x; rotate_left)
    | (extract_lets -useContext +onlyGivenNames x; refine (fun (hx : KeepsO ps z x) => ?_) ?_; clear_value x; revert x; intro _ _; rotate_left; unfold x; clear x; rotate_left)
    | with_reducible exact keepsO_get (by assumption)
    | (extract_lets -useContext +onlyGivenNames x; revert x; intro _)
    | exact keepsO_none
    | with_reducible refine keepsO_some ?_
    | with_reducible refine State.setReg_keeps (sub_of (by decide) hp) ?_
    | split
    | (clear_value *; split)
    | with_reducible refine keeps_with_rtr (mem_of (by decide) hp) ?_
    | with_reducible refine keepsP_eq ?_ (by assumption)
    | with_reducible refine keepsO_eq ?_ (by assumption)
    | with_reducible refine keepsP_mk ?_

theorem sampleHist_keeps {ps z} {s : Sys2Proof.Machine.State} (hp : [.regs] ⊆ ps) (h0 : Keeps ps z s) :
    Keeps ps z (sampleHist s) := by
  unfold sampleHist
  repeat' first
    | with_reducible assumption
    | with_reducible exact keepsP_fst (by assumption)
    | (extract_lets -useContext +onlyGivenNames x; refine (fun (hx : Keeps ps z x) => ?_) ?_; clear_value x; revert x; intro _ _; rotate_left; unfold x; clear x; rotate_left)
    | (extract_lets -useContext +onlyGivenNames x; revert x; intro _)
    | with_reducible refine State.bump_keeps (sub_of (by decide) hp) ?_
    | with_reducible refine keeps_foldl (fun t a ht => ?_) ?_
    | with_reducible refine keepsP_foldl (fun t a ht => ?_) ?_
    | split
    | (clear_value *; split)
    | with_reducible refine keepsP_eq ?_ (by assumption)
    | with_reducible refine keepsO_eq ?_ (by assumption)
    | with_reducible refine keepsP_mk ?_

theorem execHistSample_keeps {ps z} {s : Sys2Proof.Machine.State} (hp : [.regs, .rtr] ⊆ ps) (h0 : Keeps ps z s) :
    KeepsR ps z (execHistSample s) := by
  unfold execHistSample
  repeat' first
    | with_reducible assumption
    | with_reducible exact keepsP_fst (by assumption)
    | (extract_lets -useContext +onlyGivenNames x; refine (fun (hx : Keeps ps z x) => ?_) ?_; clear_value x; revert x; intro _ _; rotate_left; unfold x; clear x; rotate_left)
    | (extract_lets -useContext +onlyGivenNames x; revert x; intro _)
    | with_reducible refine keepsR_next ?_
    | with_reducible exact keepsR_fault
    | with_reducible refine sampleHist_keeps (sub_of (by decide) hp) ?_
    | split
    | (clear_value *; split)
    | with_reducible refine keeps_with_rtr (mem_of (by decide) hp) ?_
    | with_reducible refine keepsP_eq ?_ (by assumption)
    | with_reducible refine keepsO_eq ?_ (by assumption)
    | with_reducible refine keepsP_mk ?_

theorem writeHistCfg_keeps {ps z} {s : Sys2Proof.Machine.State} {v : Nat} (hp : [.regs] ⊆ ps) (h0 : Keeps ps z s) :
    Keeps ps z (writeHistCfg s v) := by
  unfold writeHistCfg
  repeat' first
    | with_reducible assumption
    | with_reducible exact keepsP_fst (by assumption)
    | (extract_lets -useContext +onlyGivenNames x; refine (fun (hx : Keeps ps z x) => ?_) ?_; clear_value x; revert x; intro _ _; rotate_left; unfold x; clear x; rotate_left)
    | (extract_lets -useContext +onlyGivenNames x; revert x; intro _)
    | with_reducible refine State.setReg_keeps (sub_of (by decide) hp) ?_
    | with_reducible refine keeps_foldl (fun t a ht => ?_) ?_
    | with_reducible refine keepsP_foldl (fun t a ht => ?_) ?_
    | split
    | (clear_value *; split)
    | with_reducible refine keepsP_eq ?_ (by assumption)
    | with_reducible refine keepsO_eq ?_ (by assumption)
    | with_reducible refine keepsP_mk ?_

theorem sendCtrl_keeps {ps z} {s : Sys2Proof.Machine.State} {half : Nat} {dst : Nat} {c : Sys2Proof.CtrlPkt} {more : List Nat} (hp : [.outbox, .rtr] ⊆ ps) (h0 : Keeps ps z s) :
    Keeps ps z (sendCtrl s half dst c more) := by
  unfold sendCtrl
  repeat' first
    | with_reducible assumption
    | with_reducible exact keepsP_fst (by assumption)
    | (extract_lets -useContext +onlyGivenNames x; refine (fun (hx : Keeps ps z x) => ?_) ?_; clear_value x; revert x; intro _ _; rotate_left; unfold x; clear x; rotate_left)
    | (extract_lets -useContext +onlyGivenNames x; revert x; intro _)
    | with_reducible refine inject_keeps (sub_of (by decide) hp) ?_
    | with_reducible refine State.send_keeps (sub_of (by decide) hp) ?_
    | split
    | (clear_value *; split)
    | with_reducible refine keepsP_eq ?_ (by assumption)
    | with_reducible refine keepsO_eq ?_ (by assumption)
    | with_reducible refine keepsP_mk ?_

end Sys2Proof.Machine
end

