-- ==== Sys2Proof/Laws/FrameExchange.lean ====
section
/-!
SUPPORT. Frames: for each operation of Sys2Proof/Machine/Exchange.lean, the parts of State it may change, and that it keeps the stores'
canonical form.
-/
namespace Sys2Proof.Machine

open Sys2Proof

theorem State.putXop_keeps {ps z} {s : Sys2Proof.Machine.State} {a1_ : Sys2Proof.Machine.Xop} (hp : [.xch] ⊆ ps) (h0 : Keeps ps z s) :
    Keeps ps z (State.putXop s a1_) := by
  unfold State.putXop
  repeat' first
    | with_reducible assumption
    | with_reducible exact keepsP_fst (by assumption)
    | (extract_lets -useContext +onlyGivenNames x; refine (fun (hx : Keeps ps z x) => ?_) ?_; clear_value x; revert x; intro _ _; rotate_left; unfold x; clear x; rotate_left)
    | (extract_lets -useContext +onlyGivenNames x; revert x; intro _)
    | split
    | (clear_value *; split)
    | with_reducible refine keeps_with_xch (mem_of (by decide) hp) ?_
    | with_reducible refine keepsP_eq ?_ (by assumption)
    | with_reducible refine keepsO_eq ?_ (by assumption)
    | with_reducible refine keepsP_mk ?_

theorem xThen_keeps {ps z} {w : Sys2Proof.Machine.XW} {f : Sys2Proof.Machine.State → Sys2Proof.Machine.XW} (h0 : KeepsP ps z w) (h1 : ∀ x0, Keeps ps z x0 → KeepsP ps z (f x0)) :
    KeepsP ps z (xThen w f) := by
  unfold xThen
  repeat' first
    | with_reducible assumption
    | with_reducible exact keepsP_fst (by assumption)
    | (extract_lets -useContext +onlyGivenNames x; refine (fun (hx : Keeps ps z x) => ?_) ?_; clear_value x; revert x; intro _ _; rotate_left; unfold x; clear x; rotate_left)
    | (extract_lets -useContext +onlyGivenNames x; refine (fun (hx : KeepsP ps z x) => ?_) ?_; clear_value x; revert x; intro _ _; rotate_left; unfold x; clear x; rotate_left)
    | with_reducible refine h1 _ ?_
    | with_reducible refine keepsP_fst (h1 _ ?_)
    | with_reducible refine keepsP_eq (h1 _ ?_) (by assumption)
    | (extract_lets -useContext +onlyGivenNames x; revert x; intro _)
    | split
    | (clear_value *; split)
    | with_reducible refine keepsP_eq ?_ (by assumption)
    | with_reducible refine keepsO_eq ?_ (by assumption)
    | with_reducible refine keepsP_mk ?_

theorem xEvent_keeps {ps z} {s : Sys2Proof.Machine.State} {a1_ : Nat} {f : Sys2Proof.Machine.State → Sys2Proof.Machine.XW} (hp : [.outbox, .bxl] ⊆ ps) (h0 : Keeps ps z s) (h2 : ∀ x0, Keeps ps z x0 → KeepsP ps z (f x0)) :
    KeepsR ps z (xEvent s a1_ f) := by
  unfold xEvent
  repeat' first
    | with_reducible assumption
    | with_reducible exact keepsP_fst (by assumption)
    | (extract_lets -useContext +onlyGivenNames x; refine (fun (hx : Keeps ps z x) => ?_) ?_; clear_value x; revert x; intro _ _; rotate_left; unfold x; clear x; rotate_left)
    | (extract_lets -useContext +onlyGivenNames x; refine (fun (hx : KeepsP ps z x) => ?_) ?_; clear_value x; revert x; intro _ _; rotate_left; unfold x; clear x; rotate_left)
    | with_reducible refine h2 _ ?_
    | with_reducible refine keepsP_fst (h2 _ ?_)
    | with_reducible refine keepsP_eq (h2 _ ?_) (by assumption)
    | (extract_lets -useContext +onlyGivenNames x; revert x; intro _)
    | with_reducible refine keepsR_next ?_
    | with_reducible exact keepsR_fault
    | with_reducible refine takeAnswers_keeps (sub_of (by decide) hp) ?_
    | with_reducible refine keepRequests_keeps (sub_of (by decide) hp) ?_ ?_
    | split
    | (clear_value *; split)
    | with_reducible refine keepsP_eq ?_ (by assumption)
    | with_reducible refine keepsO_eq ?_ (by assumption)
    | with_reducible refine keepsP_mk ?_

theorem xReadPiece_keeps {ps z} {a0_ : Sys2Proof.Machine.Xop} {w : Sys2Proof.Machine.State × Except (Sys2Proof.Machine.Acc × Nat) (List Sys2Proof.Byte × List Bool)} {e : Nat × Nat × Nat} (hp : [.regs, .mem, .mmu, .outbox, .bxl, .bridge] ⊆ ps) (h1 : KeepsP ps z w) :
    KeepsP ps z (xReadPiece a0_ w e) := by
  unfold xReadPiece
  repeat' first
    | with_reducible assumption
    | with_reducible exact keepsP_fst (by assumption)
    | (extract_lets -useContext +onlyGivenNames x; refine (fun (hx : Keeps ps z x) => ?_) ?_; clear_value x; revert x; intro _ _; rotate_left; unfold x; clear x; rotate_left)
    | (extract_lets -useContext +onlyGivenNames x; refine (fun (hx : KeepsP ps z x) => ?_) ?_; clear_value x; revert x; intro _ _; rotate_left; unfold x; clear x; rotate_left)
    | (extract_lets -useContext +onlyGivenNames x; revert x; intro _)
    | with_reducible refine memRead_keeps (sub_of (by decide) hp) ?_
    | with_reducible refine keepsP_fst (memRead_keeps (sub_of (by decide) hp) ?_)
    | with_reducible refine keepsP_eq (memRead_keeps (sub_of (by decide) hp) ?_) (by assumption)
    | split
    | (clear_value *; split)
    | with_reducible refine keepsP_eq ?_ (by assumption)
    | with_reducible refine keepsO_eq ?_ (by assumption)
    | with_reducible refine keepsP_mk ?_

theorem xRead_keeps {ps z} {s : Sys2Proof.Machine.State} {a1_ : Sys2Proof.Machine.Xop} {va : Nat} {len : Nat} (hp : [.regs, .mem, .mmu, .outbox, .bxl, .bridge] ⊆ ps) (h0 : Keeps ps z s) :
    KeepsP ps z (xRead s a1_ va len) := by
  unfold xRead
  repeat' first
    | with_reducible assumption
    | with_reducible exact keepsP_fst (by assumption)
    | (extract_lets -useContext +onlyGivenNames x; refine (fun (hx : Keeps ps z x) => ?_) ?_; clear_value x; revert x; intro _ _; rotate_left; unfold x; clear x; rotate_left)
    | (extract_lets -useContext +onlyGivenNames x; refine (fun (hx : KeepsP ps z x) => ?_) ?_; clear_value x; revert x; intro _ _; rotate_left; unfold x; clear x; rotate_left)
    | (extract_lets -useContext +onlyGivenNames x; revert x; intro _)
    | with_reducible refine xReadPiece_keeps (sub_of (by decide) hp) ?_
    | with_reducible refine keepsP_fst (xReadPiece_keeps (sub_of (by decide) hp) ?_)
    | with_reducible refine keepsP_eq (xReadPiece_keeps (sub_of (by decide) hp) ?_) (by assumption)
    | with_reducible refine keeps_foldl (fun t a ht => ?_) ?_
    | with_reducible refine keepsP_foldl (fun t a ht => ?_) ?_
    | split
    | (clear_value *; split)
    | with_reducible refine keepsP_eq ?_ (by assumption)
    | with_reducible refine keepsO_eq ?_ (by assumption)
    | with_reducible refine keepsP_mk ?_

theorem xWriteGo_keeps {ps z} {a0_ : Sys2Proof.Machine.Xop} {data : List Sys2Proof.Byte} {p : List Bool} {a3_ : Sys2Proof.Machine.State} {a4_ : List (Nat × Nat × Nat)} (hp : [.regs, .mem, .mmu, .outbox, .bxl, .bridge] ⊆ ps) (h3 : Keeps ps z a3_) :
    KeepsP ps z (xWriteGo a0_ data p a3_ a4_) := by
  induction a4_ generalizing a0_ data p a3_ with
  | nil =>
    unfold xWriteGo
    repeat' first
      | with_reducible assumption
      | with_reducible exact keepsP_fst (by assumption)
      | (extract_lets -useContext +onlyGivenNames x; refine (fun (hx : Keeps ps z x) => ?_) ?_; clear_value x; revert x; intro _ _; rotate_left; unfold x; clear x; rotate_left)
      | (extract_lets -useContext +onlyGivenNames x; refine (fun (hx : KeepsP ps z x) => ?_) ?_; clear_value x; revert x; intro _ _; rotate_left; unfold x; clear x; rotate_left)
      | (extract_lets -useContext +onlyGivenNames x; revert x; intro _)
      | with_reducible refine memWriteMarked_keeps (sub_of (by decide) hp) ?_
      | with_reducible refine keepsP_fst (memWriteMarked_keeps (sub_of (by decide) hp) ?_)
      | with_reducible refine keepsP_eq (memWriteMarked_keeps (sub_of (by decide) hp) ?_) (by assumption)
      | split
      | (clear_value *; split)
      | with_reducible refine keepsP_eq ?_ (by assumption)
      | with_reducible refine keepsO_eq ?_ (by assumption)
      | with_reducible refine keepsP_mk ?_
  | cons hd tl ih =>
    unfold xWriteGo
    repeat' first
      | with_reducible assumption
      | with_reducible exact keepsP_fst (by assumption)
      | (extract_lets -useContext +onlyGivenNames x; refine (fun (hx : Keeps ps z x) => ?_) ?_; clear_value x; revert x; intro _ _; rotate_left; unfold x; clear x; rotate_left)
      | (extract_lets -useContext +onlyGivenNames x; refine (fun (hx : KeepsP ps z x) => ?_) ?_; clear_value x; revert x; intro _ _; rotate_left; unfold x; clear x; rotate_left)
      | with_reducible refine ih ?_
      | with_reducible refine keepsP_fst (ih ?_)
      | with_reducible refine keepsP_eq (ih ?_) (by assumption)
      | (extract_lets -useContext +onlyGivenNames x; revert x; intro _)
      | with_reducible refine memWriteMarked_keeps (sub_of (by decide) hp) ?_
      | with_reducible refine keepsP_fst (memWriteMarked_keeps (sub_of (by decide) hp) ?_)
      | with_reducible refine keepsP_eq (memWriteMarked_keeps (sub_of (by decide) hp) ?_) (by assumption)
      | split
      | (clear_value *; split)
      | with_reducible refine keepsP_eq ?_ (by assumption)
      | with_reducible refine keepsO_eq ?_ (by assumption)
      | with_reducible refine keepsP_mk ?_

theorem xWrite_keeps {ps z} {s : Sys2Proof.Machine.State} {a1_ : Sys2Proof.Machine.Xop} {va : Nat} {data : List Sys2Proof.Byte} {p : List Bool} (hp : [.regs, .mem, .mmu, .outbox, .bxl, .bridge] ⊆ ps) (h0 : Keeps ps z s) :
    KeepsP ps z (xWrite s a1_ va data p) := by
  unfold xWrite
  repeat' first
    | with_reducible assumption
    | with_reducible exact keepsP_fst (by assumption)
    | (extract_lets -useContext +onlyGivenNames x; refine (fun (hx : Keeps ps z x) => ?_) ?_; clear_value x; revert x; intro _ _; rotate_left; unfold x; clear x; rotate_left)
    | (extract_lets -useContext +onlyGivenNames x; refine (fun (hx : KeepsP ps z x) => ?_) ?_; clear_value x; revert x; intro _ _; rotate_left; unfold x; clear x; rotate_left)
    | (extract_lets -useContext +onlyGivenNames x; revert x; intro _)
    | with_reducible refine xWriteGo_keeps (sub_of (by decide) hp) ?_
    | with_reducible refine keepsP_fst (xWriteGo_keeps (sub_of (by decide) hp) ?_)
    | with_reducible refine keepsP_eq (xWriteGo_keeps (sub_of (by decide) hp) ?_) (by assumption)
    | split
    | (clear_value *; split)
    | with_reducible refine keepsP_eq ?_ (by assumption)
    | with_reducible refine keepsO_eq ?_ (by assumption)
    | with_reducible refine keepsP_mk ?_

theorem toRank_keeps {ps z} {s : Sys2Proof.Machine.State} {a1_ : Sys2Proof.Machine.Xop} {r : Nat} {c : Sys2Proof.CtrlPkt} (hp : [.outbox, .rtr] ⊆ ps) (h0 : Keeps ps z s) :
    Keeps ps z (toRank s a1_ r c) := by
  unfold toRank
  repeat' first
    | with_reducible assumption
    | with_reducible exact keepsP_fst (by assumption)
    | (extract_lets -useContext +onlyGivenNames x; refine (fun (hx : Keeps ps z x) => ?_) ?_; clear_value x; revert x; intro _ _; rotate_left; unfold x; clear x; rotate_left)
    | (extract_lets -useContext +onlyGivenNames x; revert x; intro _)
    | with_reducible refine sendCtrl_keeps (sub_of (by decide) hp) ?_
    | split
    | (clear_value *; split)
    | with_reducible refine keepsP_eq ?_ (by assumption)
    | with_reducible refine keepsO_eq ?_ (by assumption)
    | with_reducible refine keepsP_mk ?_

theorem abandonAll_keeps {ps z} {s : Sys2Proof.Machine.State} {a1_ : Sys2Proof.Machine.Xop} {routeInvalid : optParam Bool false} (hp : [.outbox, .rtr] ⊆ ps) (h0 : Keeps ps z s) :
    Keeps ps z (abandonAll s a1_ routeInvalid) := by
  unfold abandonAll
  repeat' first
    | with_reducible assumption
    | with_reducible exact keepsP_fst (by assumption)
    | (extract_lets -useContext +onlyGivenNames x; refine (fun (hx : Keeps ps z x) => ?_) ?_; clear_value x; revert x; intro _ _; rotate_left; unfold x; clear x; rotate_left)
    | (extract_lets -useContext +onlyGivenNames x; revert x; intro _)
    | with_reducible refine toRank_keeps (sub_of (by decide) hp) ?_
    | with_reducible refine keeps_foldl (fun t a ht => ?_) ?_
    | with_reducible refine keepsP_foldl (fun t a ht => ?_) ?_
    | split
    | (clear_value *; split)
    | with_reducible refine keepsP_eq ?_ (by assumption)
    | with_reducible refine keepsO_eq ?_ (by assumption)
    | with_reducible refine keepsP_mk ?_

theorem endEarly_keeps {ps z} {s : Sys2Proof.Machine.State} {a1_ : Sys2Proof.Machine.Xop} {status : Nat} {code : Nat} (hp : [.xch] ⊆ ps) (h0 : Keeps ps z s) :
    Keeps ps z (endEarly s a1_ status code) := by
  unfold endEarly
  repeat' first
    | with_reducible assumption
    | with_reducible exact keepsP_fst (by assumption)
    | (extract_lets -useContext +onlyGivenNames x; refine (fun (hx : Keeps ps z x) => ?_) ?_; clear_value x; revert x; intro _ _; rotate_left; unfold x; clear x; rotate_left)
    | (extract_lets -useContext +onlyGivenNames x; revert x; intro _)
    | with_reducible refine State.putXop_keeps (sub_of (by decide) hp) ?_
    | split
    | (clear_value *; split)
    | with_reducible refine keepsP_eq ?_ (by assumption)
    | with_reducible refine keepsO_eq ?_ (by assumption)
    | with_reducible refine keepsP_mk ?_

theorem accessFault_keeps {ps z} {s : Sys2Proof.Machine.State} {a1_ : Sys2Proof.Machine.Xop} {va : Nat} (hp : [.regs, .mem, .outbox, .rtr, .xch, .bridge] ⊆ ps) (h0 : Keeps ps z s) :
    Keeps ps z (accessFault s a1_ va) := by
  unfold accessFault
  repeat' first
    | with_reducible assumption
    | with_reducible exact keepsP_fst (by assumption)
    | (extract_lets -useContext +onlyGivenNames x; refine (fun (hx : Keeps ps z x) => ?_) ?_; clear_value x; revert x; intro _ _; rotate_left; unfold x; clear x; rotate_left)
    | (extract_lets -useContext +onlyGivenNames x; revert x; intro _)
    | with_reducible refine abandonAll_keeps (sub_of (by decide) hp) ?_
    | with_reducible refine capture_keeps (sub_of (by decide) hp) ?_
    | with_reducible refine endEarly_keeps (sub_of (by decide) hp) ?_
    | split
    | (clear_value *; split)
    | with_reducible refine keepsP_eq ?_ (by assumption)
    | with_reducible refine keepsO_eq ?_ (by assumption)
    | with_reducible refine keepsP_mk ?_

theorem xStore_keeps {ps z} {w : Sys2Proof.Machine.XW} {id : Nat} {va : Nat} {data : List Sys2Proof.Byte} {p : List Bool} (hp : [.regs, .mem, .mmu, .outbox, .bxl, .rtr, .xch, .bridge] ⊆ ps) (h0 : KeepsP ps z w) :
    KeepsP ps z (xStore w id va data p) := by
  unfold xStore
  repeat' first
    | with_reducible assumption
    | with_reducible exact keepsP_fst (by assumption)
    | (extract_lets -useContext +onlyGivenNames x; refine (fun (hx : Keeps ps z x) => ?_) ?_; clear_value x; revert x; intro _ _; rotate_left; unfold x; clear x; rotate_left)
    | (extract_lets -useContext +onlyGivenNames x; refine (fun (hx : KeepsP ps z x) => ?_) ?_; clear_value x; revert x; intro _ _; rotate_left; unfold x; clear x; rotate_left)
    | (extract_lets -useContext +onlyGivenNames x; revert x; intro _)
    | with_reducible refine accessFault_keeps (sub_of (by decide) hp) ?_
    | with_reducible refine xThen_keeps  ?_ (fun x0 hx0 => ?_)
    | with_reducible refine keepsP_fst (xThen_keeps  ?_ (fun x0 hx0 => ?_))
    | with_reducible refine keepsP_eq (xThen_keeps  ?_ (fun x0 hx0 => ?_)) (by assumption)
    | with_reducible refine xWrite_keeps (sub_of (by decide) hp) ?_
    | with_reducible refine keepsP_fst (xWrite_keeps (sub_of (by decide) hp) ?_)
    | with_reducible refine keepsP_eq (xWrite_keeps (sub_of (by decide) hp) ?_) (by assumption)
    | split
    | (clear_value *; split)
    | with_reducible refine keepsP_eq ?_ (by assumption)
    | with_reducible refine keepsO_eq ?_ (by assumption)
    | with_reducible refine keepsP_mk ?_

theorem writeLog_keeps {ps z} {s : Sys2Proof.Machine.State} {a1_ : Sys2Proof.Machine.Xop} {va : Nat} {r : List Sys2Proof.Byte} (hp : [.regs, .mem, .mmu, .outbox, .bxl, .bridge] ⊆ ps) (h0 : Keeps ps z s) :
    KeepsP ps z (writeLog s a1_ va r) := by
  unfold writeLog
  repeat' first
    | with_reducible assumption
    | with_reducible exact keepsP_fst (by assumption)
    | (extract_lets -useContext +onlyGivenNames x; refine (fun (hx : Keeps ps z x) => ?_) ?_; clear_value x; revert x; intro _ _; rotate_left; unfold x; clear x; rotate_left)
    | (extract_lets -useContext +onlyGivenNames x; refine (fun (hx : KeepsP ps z x) => ?_) ?_; clear_value x; revert x; intro _ _; rotate_left; unfold x; clear x; rotate_left)
    | (extract_lets -useContext +onlyGivenNames x; revert x; intro _)
    | with_reducible refine physWrite_keeps (sub_of (by decide) hp) ?_
    | with_reducible refine keepsP_fst (physWrite_keeps (sub_of (by decide) hp) ?_)
    | with_reducible refine keepsP_eq (physWrite_keeps (sub_of (by decide) hp) ?_) (by assumption)
    | with_reducible refine crossTo_keeps (sub_of (by decide) hp) ?_
    | with_reducible refine translateFrom_keeps (sub_of (by decide) hp) ?_
    | with_reducible refine keepsP_fst (translateFrom_keeps (sub_of (by decide) hp) ?_)
    | with_reducible refine keepsP_eq (translateFrom_keeps (sub_of (by decide) hp) ?_) (by assumption)
    | split
    | (clear_value *; split)
    | with_reducible refine keepsP_eq ?_ (by assumption)
    | with_reducible refine keepsO_eq ?_ (by assumption)
    | with_reducible refine keepsP_mk ?_

theorem logChoice_keeps {ps z} {w : Sys2Proof.Machine.XW} {a1_ : Sys2Proof.Machine.Xop} {kind : Nat} {time : Nat} {lo : Nat} {szm1 : Nat} {k : Nat} (hp : [.regs, .mem, .mmu, .ctx, .queues, .outbox, .bxl, .bridge] ⊆ ps) (h0 : KeepsP ps z w) :
    KeepsP ps z (logChoice w a1_ kind time lo szm1 k) := by
  unfold logChoice
  repeat' first
    | with_reducible assumption
    | with_reducible exact keepsP_fst (by assumption)
    | (extract_lets -useContext +onlyGivenNames x; refine (fun (hx : Keeps ps z x) => ?_) ?_; clear_value x; revert x; intro _ _; rotate_left; unfold x; clear x; rotate_left)
    | (extract_lets -useContext +onlyGivenNames x; refine (fun (hx : KeepsP ps z x) => ?_) ?_; clear_value x; revert x; intro _ _; rotate_left; unfold x; clear x; rotate_left)
    | (extract_lets -useContext +onlyGivenNames x; have _hx : ∀ a, x a = x a := fun _ => rfl; clear _hx; unfold x; clear x)
    | (extract_lets -useContext +onlyGivenNames x; revert x; intro _)
    | with_reducible refine State.setCtx_keeps (sub_of (by decide) hp) ?_
    | with_reducible refine updCmd_keeps (sub_of (by decide) hp) ?_
    | with_reducible refine writeLog_keeps (sub_of (by decide) hp) ?_
    | with_reducible refine keepsP_fst (writeLog_keeps (sub_of (by decide) hp) ?_)
    | with_reducible refine keepsP_eq (writeLog_keeps (sub_of (by decide) hp) ?_) (by assumption)
    | with_reducible refine xThen_keeps  ?_ (fun x0 hx0 => ?_)
    | with_reducible refine keepsP_fst (xThen_keeps  ?_ (fun x0 hx0 => ?_))
    | with_reducible refine keepsP_eq (xThen_keeps  ?_ (fun x0 hx0 => ?_)) (by assumption)
    | split
    | (clear_value *; split)
    | with_reducible refine keepsP_eq ?_ (by assumption)
    | with_reducible refine keepsO_eq ?_ (by assumption)
    | with_reducible refine keepsP_mk ?_

theorem sendMsg_keeps {ps z} {s : Sys2Proof.Machine.State} {a1_ : Sys2Proof.Machine.Xop} {m : Sys2Proof.Machine.XOut} (hp : [.regs, .ctx, .outbox, .draws, .pwr, .rtr] ⊆ ps) (h0 : Keeps ps z s) :
    Keeps ps z (sendMsg s a1_ m) := by
  unfold sendMsg
  repeat' first
    | with_reducible assumption
    | with_reducible exact keepsP_fst (by assumption)
    | (extract_lets -useContext +onlyGivenNames x; refine (fun (hx : Keeps ps z x) => ?_) ?_; clear_value x; revert x; intro _ _; rotate_left; unfold x; clear x; rotate_left)
    | (extract_lets -useContext +onlyGivenNames x; revert x; intro _)
    | with_reducible refine countEvent_keeps (sub_of (by decide) hp) ?_
    | with_reducible refine ctxCount_keeps (sub_of (by decide) hp) ?_
    | with_reducible refine inject_keeps (sub_of (by decide) hp) ?_
    | with_reducible refine State.send_keeps (sub_of (by decide) hp) ?_
    | with_reducible refine releaseUnit_keeps (sub_of (by decide) hp) ?_
    | with_reducible refine addDebt_keeps (sub_of (by decide) hp) ?_
    | with_reducible refine oweFor_keeps (sub_of (by decide) hp) ?_
    | with_reducible refine keeps_foldl (fun t a ht => ?_) ?_
    | with_reducible refine keepsP_foldl (fun t a ht => ?_) ?_
    | split
    | (clear_value *; split)
    | with_reducible refine keeps_with_draws_pwr_rtr (mem_of (by decide) hp) (mem_of (by decide) hp) (mem_of (by decide) hp) ?_
    | with_reducible refine keepsP_eq ?_ (by assumption)
    | with_reducible refine keepsO_eq ?_ (by assumption)
    | with_reducible refine keepsP_mk ?_

theorem sendQueued_keeps {ps z} {s : Sys2Proof.Machine.State} {id : Nat} (hp : [.regs, .ctx, .outbox, .draws, .pwr, .rtr, .xch] ⊆ ps) (h0 : Keeps ps z s) :
    Keeps ps z (sendQueued s id) := by
  unfold sendQueued
  repeat' first
    | with_reducible assumption
    | with_reducible exact keepsP_fst (by assumption)
    | (extract_lets -useContext +onlyGivenNames x; refine (fun (hx : Keeps ps z x) => ?_) ?_; clear_value x; revert x; intro _ _; rotate_left; unfold x; clear x; rotate_left)
    | (extract_lets -useContext +onlyGivenNames x; revert x; intro _)
    | with_reducible refine State.putXop_keeps (sub_of (by decide) hp) ?_
    | with_reducible refine sendMsg_keeps (sub_of (by decide) hp) ?_
    | with_reducible refine keeps_foldl (fun t a ht => ?_) ?_
    | with_reducible refine keepsP_foldl (fun t a ht => ?_) ?_
    | split
    | (clear_value *; split)
    | with_reducible refine keepsP_eq ?_ (by assumption)
    | with_reducible refine keepsO_eq ?_ (by assumption)
    | with_reducible refine keepsP_mk ?_

theorem queueMsg_keeps {ps z} {s : Sys2Proof.Machine.State} {id : Nat} {m : Sys2Proof.Machine.XOut} (hp : [.xch] ⊆ ps) (h0 : Keeps ps z s) :
    Keeps ps z (queueMsg s id m) := by
  unfold queueMsg
  repeat' first
    | with_reducible assumption
    | with_reducible exact keepsP_fst (by assumption)
    | (extract_lets -useContext +onlyGivenNames x; refine (fun (hx : Keeps ps z x) => ?_) ?_; clear_value x; revert x; intro _ _; rotate_left; unfold x; clear x; rotate_left)
    | (extract_lets -useContext +onlyGivenNames x; revert x; intro _)
    | with_reducible refine State.putXop_keeps (sub_of (by decide) hp) ?_
    | split
    | (clear_value *; split)
    | with_reducible refine keepsP_eq ?_ (by assumption)
    | with_reducible refine keepsO_eq ?_ (by assumption)
    | with_reducible refine keepsP_mk ?_

theorem queuePieces_keeps {ps z} {s : Sys2Proof.Machine.State} {id : Nat} {use : Sys2Proof.XUse} {r : Nat} {handle : Nat} {data : List Sys2Proof.Byte} {p : List Bool} (hp : [.xch] ⊆ ps) (h0 : Keeps ps z s) :
    Keeps ps z (queuePieces s id use r handle data p) := by
  unfold queuePieces
  repeat' first
    | with_reducible assumption
    | with_reducible exact keepsP_fst (by assumption)
    | (extract_lets -useContext +onlyGivenNames x; refine (fun (hx : Keeps ps z x) => ?_) ?_; clear_value x; revert x; intro _ _; rotate_left; unfold x; clear x; rotate_left)
    | (extract_lets -useContext +onlyGivenNames x; revert x; intro _)
    | with_reducible refine queueMsg_keeps (sub_of (by decide) hp) ?_
    | with_reducible refine keeps_foldl (fun t a ht => ?_) ?_
    | with_reducible refine keepsP_foldl (fun t a ht => ?_) ?_
    | split
    | (clear_value *; split)
    | with_reducible refine keepsP_eq ?_ (by assumption)
    | with_reducible refine keepsO_eq ?_ (by assumption)
    | with_reducible refine keepsP_mk ?_

theorem grantPieces_keeps {ps z} {s : Sys2Proof.Machine.State} {a1_ : Sys2Proof.Machine.Xop} {use : Sys2Proof.XUse} {r : Nat} {len : Nat} {value : Nat} {place : List (Nat × Nat)} {rows : List (Nat × Nat)} (hp : [.outbox, .rtr, .xch] ⊆ ps) (h0 : Keeps ps z s) :
    Keeps ps z (grantPieces s a1_ use r len value place rows) := by
  unfold grantPieces
  repeat' first
    | with_reducible assumption
    | with_reducible exact keepsP_fst (by assumption)
    | (extract_lets -useContext +onlyGivenNames x; refine (fun (hx : Keeps ps z x) => ?_) ?_; clear_value x; revert x; intro _ _; rotate_left; unfold x; clear x; rotate_left)
    | (extract_lets -useContext +onlyGivenNames x; revert x; intro _)
    | with_reducible refine State.putXop_keeps (sub_of (by decide) hp) ?_
    | with_reducible refine toRank_keeps (sub_of (by decide) hp) ?_
    | split
    | (clear_value *; split)
    | with_reducible refine keepsP_eq ?_ (by assumption)
    | with_reducible refine keepsO_eq ?_ (by assumption)
    | with_reducible refine keepsP_mk ?_

theorem placeGo_keeps {ps z} {id : Nat} {data : List Sys2Proof.Byte} {p : List Bool} {a3_ : Nat} {a4_ : List (Nat × Nat)} {a5_ : Sys2Proof.Machine.XW} (hp : [.regs, .mem, .mmu, .outbox, .bxl, .rtr, .xch, .bridge] ⊆ ps) (h5 : KeepsP ps z a5_) :
    KeepsP ps z (placeGo id data p a3_ a4_ a5_) := by
  induction a4_ generalizing id data p a3_ a5_ with
  | nil =>
    unfold placeGo
    repeat' first
      | with_reducible assumption
      | with_reducible exact keepsP_fst (by assumption)
      | (extract_lets -useContext +onlyGivenNames x; refine (fun (hx : Keeps ps z x) => ?_) ?_; clear_value x; revert x; intro _ _; rotate_left; unfold x; clear x; rotate_left)
      | (extract_lets -useContext +onlyGivenNames x; refine (fun (hx : KeepsP ps z x) => ?_) ?_; clear_value x; revert x; intro _ _; rotate_left; unfold x; clear x; rotate_left)
      | (extract_lets -useContext +onlyGivenNames x; revert x; intro _)
      | with_reducible refine xStore_keeps (sub_of (by decide) hp) ?_
      | with_reducible refine keepsP_fst (xStore_keeps (sub_of (by decide) hp) ?_)
      | with_reducible refine keepsP_eq (xStore_keeps (sub_of (by decide) hp) ?_) (by assumption)
      | split
      | (clear_value *; split)
      | with_reducible refine keepsP_eq ?_ (by assumption)
      | with_reducible refine keepsO_eq ?_ (by assumption)
      | with_reducible refine keepsP_mk ?_
  | cons hd tl ih =>
    unfold placeGo
    repeat' first
      | with_reducible assumption
      | with_reducible exact keepsP_fst (by assumption)
      | (extract_lets -useContext +onlyGivenNames x; refine (fun (hx : Keeps ps z x) => ?_) ?_; clear_value x; revert x; intro _ _; rotate_left; unfold x; clear x; rotate_left)
      | (extract_lets -useContext +onlyGivenNames x; refine (fun (hx : KeepsP ps z x) => ?_) ?_; clear_value x; revert x; intro _ _; rotate_left; unfold x; clear x; rotate_left)
      | with_reducible refine ih ?_
      | with_reducible refine keepsP_fst (ih ?_)
      | with_reducible refine keepsP_eq (ih ?_) (by assumption)
      | (extract_lets -useContext +onlyGivenNames x; revert x; intro _)
      | with_reducible refine xStore_keeps (sub_of (by decide) hp) ?_
      | with_reducible refine keepsP_fst (xStore_keeps (sub_of (by decide) hp) ?_)
      | with_reducible refine keepsP_eq (xStore_keeps (sub_of (by decide) hp) ?_) (by assumption)
      | split
      | (clear_value *; split)
      | with_reducible refine keepsP_eq ?_ (by assumption)
      | with_reducible refine keepsO_eq ?_ (by assumption)
      | with_reducible refine keepsP_mk ?_

theorem placeData_keeps {ps z} {w : Sys2Proof.Machine.XW} {id : Nat} {place : List (Nat × Nat)} {o : Nat} {data : List Sys2Proof.Byte} {p : List Bool} (hp : [.regs, .mem, .mmu, .outbox, .bxl, .rtr, .xch, .bridge] ⊆ ps) (h0 : KeepsP ps z w) :
    KeepsP ps z (placeData w id place o data p) := by
  unfold placeData
  repeat' first
    | with_reducible assumption
    | with_reducible exact keepsP_fst (by assumption)
    | (extract_lets -useContext +onlyGivenNames x; refine (fun (hx : Keeps ps z x) => ?_) ?_; clear_value x; revert x; intro _ _; rotate_left; unfold x; clear x; rotate_left)
    | (extract_lets -useContext +onlyGivenNames x; refine (fun (hx : KeepsP ps z x) => ?_) ?_; clear_value x; revert x; intro _ _; rotate_left; unfold x; clear x; rotate_left)
    | (extract_lets -useContext +onlyGivenNames x; revert x; intro _)
    | with_reducible refine placeGo_keeps (sub_of (by decide) hp) ?_
    | with_reducible refine keepsP_fst (placeGo_keeps (sub_of (by decide) hp) ?_)
    | with_reducible refine keepsP_eq (placeGo_keeps (sub_of (by decide) hp) ?_) (by assumption)
    | split
    | (clear_value *; split)
    | with_reducible refine keepsP_eq ?_ (by assumption)
    | with_reducible refine keepsO_eq ?_ (by assumption)
    | with_reducible refine keepsP_mk ?_

theorem putRec_keeps {ps z} {s : Sys2Proof.Machine.State} {a1_ : Nat} {src : Nat} {id : Nat} {r : Option Sys2Proof.Machine.MsgRec} (hp : [.xch] ⊆ ps) (h0 : Keeps ps z s) :
    Keeps ps z (putRec s a1_ src id r) := by
  unfold putRec
  repeat' first
    | with_reducible assumption
    | with_reducible exact keepsP_fst (by assumption)
    | (extract_lets -useContext +onlyGivenNames x; refine (fun (hx : Keeps ps z x) => ?_) ?_; clear_value x; revert x; intro _ _; rotate_left; unfold x; clear x; rotate_left)
    | (extract_lets -useContext +onlyGivenNames x; revert x; intro _)
    | split
    | (clear_value *; split)
    | with_reducible refine keeps_with_xch (mem_of (by decide) hp) ?_
    | with_reducible refine keepsP_eq ?_ (by assumption)
    | with_reducible refine keepsO_eq ?_ (by assumption)
    | with_reducible refine keepsP_mk ?_

theorem addMissing_keeps {ps z} {s : Sys2Proof.Machine.State} {a1_ : Sys2Proof.Machine.Xop} {r : Nat} (hp : [.xch] ⊆ ps) (h0 : Keeps ps z s) :
    Keeps ps z (addMissing s a1_ r) := by
  unfold addMissing
  repeat' first
    | with_reducible assumption
    | with_reducible exact keepsP_fst (by assumption)
    | (extract_lets -useContext +onlyGivenNames x; refine (fun (hx : Keeps ps z x) => ?_) ?_; clear_value x; revert x; intro _ _; rotate_left; unfold x; clear x; rotate_left)
    | (extract_lets -useContext +onlyGivenNames x; revert x; intro _)
    | with_reducible refine State.putXop_keeps (sub_of (by decide) hp) ?_
    | split
    | (clear_value *; split)
    | with_reducible refine keepsP_eq ?_ (by assumption)
    | with_reducible refine keepsO_eq ?_ (by assumption)
    | with_reducible refine keepsP_mk ?_

theorem fifthLate_keeps {ps z} {s : Sys2Proof.Machine.State} {a1_ : Sys2Proof.Machine.Xop} {ranges : List (Nat × Nat)} (hp : [.outbox, .rtr, .xch] ⊆ ps) (h0 : Keeps ps z s) :
    Keeps ps z (fifthLate s a1_ ranges) := by
  unfold fifthLate
  repeat' first
    | with_reducible assumption
    | with_reducible exact keepsP_fst (by assumption)
    | (extract_lets -useContext +onlyGivenNames x; refine (fun (hx : Keeps ps z x) => ?_) ?_; clear_value x; revert x; intro _ _; rotate_left; unfold x; clear x; rotate_left)
    | (extract_lets -useContext +onlyGivenNames x; revert x; intro _)
    | with_reducible refine abandonAll_keeps (sub_of (by decide) hp) ?_
    | with_reducible refine endEarly_keeps (sub_of (by decide) hp) ?_
    | split
    | (clear_value *; split)
    | with_reducible refine keepsP_eq ?_ (by assumption)
    | with_reducible refine keepsO_eq ?_ (by assumption)
    | with_reducible refine keepsP_mk ?_

end Sys2Proof.Machine
end

