-- ==== Sys2Proof/Laws/FrameCollective.lean ====
section
/-!
SUPPORT. Frames: for each operation of Sys2Proof/Machine/Collective.lean, the parts of State it may change, and that it keeps the stores'
canonical form.
-/
namespace Sys2Proof.Machine

open Sys2Proof

theorem pickOne_keeps {ps z} {s : Sys2Proof.Machine.State} {l : List Nat} (hp : [.draws] ⊆ ps) (h0 : Keeps ps z s) :
    KeepsQ ps z (pickOne s l) := by
  unfold pickOne
  repeat' first
    | with_reducible assumption
    | with_reducible exact keepsP_fst (by assumption)
    | (extract_lets -useContext +onlyGivenNames x; refine (fun (hx : Keeps ps z x) => ?_) ?_; clear_value x; revert x; intro _ _; rotate_left; unfold x; clear x; rotate_left)
    | (extract_lets -useContext +onlyGivenNames x; revert x; intro _)
    | exact keepsQ_none
    | with_reducible refine keepsQ_some ?_
    | split
    | (clear_value *; split)
    | with_reducible refine keeps_with_draws (mem_of (by decide) hp) ?_
    | with_reducible refine keepsP_eq ?_ (by assumption)
    | with_reducible refine keepsO_eq ?_ (by assumption)
    | with_reducible refine keepsP_mk ?_

set_option maxRecDepth 20000 in
theorem claimNode_keeps {ps z} {s : Sys2Proof.Machine.State} {a1_ : Sys2Proof.Machine.Xop} {lo : Nat} {size : Nat} {c : Nat} {need : Nat} {slotOk : Bool} (hp : [.draws] ⊆ ps) (h0 : Keeps ps z s) :
    KeepsQ ps z (claimNode s a1_ lo size c need slotOk) := by
  unfold claimNode
  repeat' first
    | with_reducible assumption
    | with_reducible exact keepsP_fst (by assumption)
    | (extract_lets -useContext +onlyGivenNames x; refine (fun (hx : Keeps ps z x) => ?_) ?_; clear_value x; revert x; intro _ _; rotate_left; unfold x; clear x; rotate_left)
    | (extract_lets -useContext +onlyGivenNames x; revert x; intro _)
    | exact keepsQ_none
    | with_reducible refine keepsQ_some ?_
    | with_reducible refine keepsQ_map ?_ (fun t a ht => ?_)
    | with_reducible refine pickOne_keeps (sub_of (by decide) hp) ?_
    | with_reducible refine keepsQ_eq (pickOne_keeps (sub_of (by decide) hp) ?_) (by assumption)
    | split
    | (clear_value *; split)
    | with_reducible refine keepsP_eq ?_ (by assumption)
    | with_reducible refine keepsO_eq ?_ (by assumption)
    | with_reducible refine keepsP_mk ?_

theorem grantNode_keeps {ps z} {s : Sys2Proof.Machine.State} {a1_ : Sys2Proof.Machine.Xop} {lo : Nat} {size : Nat} {c : Nat} (hp : [.outbox, .draws, .rtr, .xch] ⊆ ps) (h0 : Keeps ps z s) :
    Keeps ps z (grantNode s a1_ lo size c) := by
  unfold grantNode
  repeat' first
    | with_reducible assumption
    | with_reducible exact keepsP_fst (by assumption)
    | (extract_lets -useContext +onlyGivenNames x; refine (fun (hx : Keeps ps z x) => ?_) ?_; clear_value x; revert x; intro _ _; rotate_left; unfold x; clear x; rotate_left)
    | (extract_lets -useContext +onlyGivenNames x; revert x; intro _)
    | with_reducible refine State.putXop_keeps (sub_of (by decide) hp) ?_
    | with_reducible refine claimNode_keeps (sub_of (by decide) hp) ?_
    | with_reducible refine keepsQ_eq (claimNode_keeps (sub_of (by decide) hp) ?_) (by assumption)
    | with_reducible refine toRank_keeps (sub_of (by decide) hp) ?_
    | with_reducible refine keeps_foldl (fun t a ht => ?_) ?_
    | with_reducible refine keepsP_foldl (fun t a ht => ?_) ?_
    | split
    | (clear_value *; split)
    | with_reducible refine keepsP_eq ?_ (by assumption)
    | with_reducible refine keepsO_eq ?_ (by assumption)
    | with_reducible refine keepsO_getD ?_ ?_
    | with_reducible refine keepsP_mk ?_

theorem grantNodes_keeps {ps z} {s : Sys2Proof.Machine.State} {id : Nat} (hp : [.outbox, .draws, .rtr, .xch] ⊆ ps) (h0 : Keeps ps z s) :
    Keeps ps z (grantNodes s id) := by
  unfold grantNodes
  repeat' first
    | with_reducible assumption
    | with_reducible exact keepsP_fst (by assumption)
    | (extract_lets -useContext +onlyGivenNames x; refine (fun (hx : Keeps ps z x) => ?_) ?_; clear_value x; revert x; intro _ _; rotate_left; unfold x; clear x; rotate_left)
    | (extract_lets -useContext +onlyGivenNames x; revert x; intro _)
    | with_reducible refine grantNode_keeps (sub_of (by decide) hp) ?_
    | with_reducible refine keeps_foldl (fun t a ht => ?_) ?_
    | with_reducible refine keepsP_foldl (fun t a ht => ?_) ?_
    | split
    | (clear_value *; split)
    | with_reducible refine keepsP_eq ?_ (by assumption)
    | with_reducible refine keepsO_eq ?_ (by assumption)
    | with_reducible refine keepsP_mk ?_

theorem readStaged_keeps {ps z} {w : Sys2Proof.Machine.XW} {id : Nat} {n : Sys2Proof.Machine.XNode} {i : Nat} (hp : [.regs, .mem, .mmu, .outbox, .bxl, .rtr, .xch, .bridge] ⊆ ps) (h0 : KeepsP ps z w) :
    KeepsP ps z (readStaged w id n i) := by
  unfold readStaged
  repeat' first
    | with_reducible assumption
    | with_reducible exact keepsP_fst (by assumption)
    | (extract_lets -useContext +onlyGivenNames x; refine (fun (hx : Keeps ps z x) => ?_) ?_; clear_value x; revert x; intro _ _; rotate_left; unfold x; clear x; rotate_left)
    | (extract_lets -useContext +onlyGivenNames x; refine (fun (hx : KeepsP ps z x) => ?_) ?_; clear_value x; revert x; intro _ _; rotate_left; unfold x; clear x; rotate_left)
    | (extract_lets -useContext +onlyGivenNames x; have _hx : ∀ a, x a = x a := fun _ => rfl; clear _hx; unfold x; clear x)
    | (extract_lets -useContext +onlyGivenNames x; revert x; intro _)
    | with_reducible refine State.putXop_keeps (sub_of (by decide) hp) ?_
    | with_reducible refine accessFault_keeps (sub_of (by decide) hp) ?_
    | with_reducible refine xRead_keeps (sub_of (by decide) hp) ?_
    | with_reducible refine keepsP_fst (xRead_keeps (sub_of (by decide) hp) ?_)
    | with_reducible refine keepsP_eq (xRead_keeps (sub_of (by decide) hp) ?_) (by assumption)
    | with_reducible refine xThen_keeps  ?_ (fun x0 hx0 => ?_)
    | with_reducible refine keepsP_fst (xThen_keeps  ?_ (fun x0 hx0 => ?_))
    | with_reducible refine keepsP_eq (xThen_keeps  ?_ (fun x0 hx0 => ?_)) (by assumption)
    | split
    | (clear_value *; split)
    | with_reducible refine keepsP_eq ?_ (by assumption)
    | with_reducible refine keepsO_eq ?_ (by assumption)
    | with_reducible refine keepsP_mk ?_

theorem formNode_keeps {ps z} {w : Sys2Proof.Machine.XW} {id : Nat} {n : Sys2Proof.Machine.XNode} (hp : [.regs, .mem, .mmu, .outbox, .bxl, .rtr, .xch, .bridge] ⊆ ps) (h0 : KeepsP ps z w) :
    KeepsP ps z (formNode w id n) := by
  unfold formNode
  repeat' first
    | with_reducible assumption
    | with_reducible exact keepsP_fst (by assumption)
    | (extract_lets -useContext +onlyGivenNames x; refine (fun (hx : Keeps ps z x) => ?_) ?_; clear_value x; revert x; intro _ _; rotate_left; unfold x; clear x; rotate_left)
    | (extract_lets -useContext +onlyGivenNames x; refine (fun (hx : KeepsP ps z x) => ?_) ?_; clear_value x; revert x; intro _ _; rotate_left; unfold x; clear x; rotate_left)
    | (extract_lets -useContext +onlyGivenNames x; revert x; intro _)
    | with_reducible refine State.bump_keeps (sub_of (by decide) hp) ?_
    | with_reducible refine State.putXop_keeps (sub_of (by decide) hp) ?_
    | with_reducible refine fifthLate_keeps (sub_of (by decide) hp) ?_
    | with_reducible refine readStaged_keeps (sub_of (by decide) hp) ?_
    | with_reducible refine keepsP_fst (readStaged_keeps (sub_of (by decide) hp) ?_)
    | with_reducible refine keepsP_eq (readStaged_keeps (sub_of (by decide) hp) ?_) (by assumption)
    | with_reducible refine xThen_keeps  ?_ (fun x0 hx0 => ?_)
    | with_reducible refine keepsP_fst (xThen_keeps  ?_ (fun x0 hx0 => ?_))
    | with_reducible refine keepsP_eq (xThen_keeps  ?_ (fun x0 hx0 => ?_)) (by assumption)
    | split
    | (clear_value *; split)
    | with_reducible refine keepsP_eq ?_ (by assumption)
    | with_reducible refine keepsO_eq ?_ (by assumption)
    | with_reducible refine keepsP_mk ?_

theorem formNodes_keeps {ps z} {w : Sys2Proof.Machine.XW} {id : Nat} (hp : [.regs, .mem, .mmu, .outbox, .bxl, .rtr, .xch, .bridge] ⊆ ps) (h0 : KeepsP ps z w) :
    KeepsP ps z (formNodes w id) := by
  unfold formNodes
  repeat' first
    | with_reducible assumption
    | with_reducible exact keepsP_fst (by assumption)
    | (extract_lets -useContext +onlyGivenNames x; refine (fun (hx : Keeps ps z x) => ?_) ?_; clear_value x; revert x; intro _ _; rotate_left; unfold x; clear x; rotate_left)
    | (extract_lets -useContext +onlyGivenNames x; refine (fun (hx : KeepsP ps z x) => ?_) ?_; clear_value x; revert x; intro _ _; rotate_left; unfold x; clear x; rotate_left)
    | (extract_lets -useContext +onlyGivenNames x; revert x; intro _)
    | with_reducible refine formNode_keeps (sub_of (by decide) hp) ?_
    | with_reducible refine keepsP_fst (formNode_keeps (sub_of (by decide) hp) ?_)
    | with_reducible refine keepsP_eq (formNode_keeps (sub_of (by decide) hp) ?_) (by assumption)
    | with_reducible refine keeps_foldl (fun t a ht => ?_) ?_
    | with_reducible refine keepsP_foldl (fun t a ht => ?_) ?_
    | split
    | (clear_value *; split)
    | with_reducible refine keepsP_eq ?_ (by assumption)
    | with_reducible refine keepsO_eq ?_ (by assumption)
    | with_reducible refine keepsP_mk ?_

theorem sendOperands_keeps {ps z} {w : Sys2Proof.Machine.XW} {id : Nat} (hp : [.regs, .mem, .mmu, .outbox, .bxl, .rtr, .xch, .bridge] ⊆ ps) (h0 : KeepsP ps z w) :
    KeepsP ps z (sendOperands w id) := by
  unfold sendOperands
  repeat' first
    | with_reducible assumption
    | with_reducible exact keepsP_fst (by assumption)
    | (extract_lets -useContext +onlyGivenNames x; refine (fun (hx : Keeps ps z x) => ?_) ?_; clear_value x; revert x; intro _ _; rotate_left; unfold x; clear x; rotate_left)
    | (extract_lets -useContext +onlyGivenNames x; refine (fun (hx : KeepsP ps z x) => ?_) ?_; clear_value x; revert x; intro _ _; rotate_left; unfold x; clear x; rotate_left)
    | (extract_lets -useContext +onlyGivenNames x; revert x; intro _)
    | with_reducible refine State.putXop_keeps (sub_of (by decide) hp) ?_
    | with_reducible refine xStore_keeps (sub_of (by decide) hp) ?_
    | with_reducible refine keepsP_fst (xStore_keeps (sub_of (by decide) hp) ?_)
    | with_reducible refine keepsP_eq (xStore_keeps (sub_of (by decide) hp) ?_) (by assumption)
    | with_reducible refine xThen_keeps  ?_ (fun x0 hx0 => ?_)
    | with_reducible refine keepsP_fst (xThen_keeps  ?_ (fun x0 hx0 => ?_))
    | with_reducible refine keepsP_eq (xThen_keeps  ?_ (fun x0 hx0 => ?_)) (by assumption)
    | with_reducible refine queueMsg_keeps (sub_of (by decide) hp) ?_
    | with_reducible refine keeps_foldl (fun t a ht => ?_) ?_
    | with_reducible refine keepsP_foldl (fun t a ht => ?_) ?_
    | split
    | (clear_value *; split)
    | with_reducible refine keepsP_eq ?_ (by assumption)
    | with_reducible refine keepsO_eq ?_ (by assumption)
    | with_reducible refine keepsP_mk ?_

theorem grantSegs_keeps {ps z} {s : Sys2Proof.Machine.State} {id : Nat} (hp : [.outbox, .rtr, .xch] ⊆ ps) (h0 : Keeps ps z s) :
    Keeps ps z (grantSegs s id) := by
  unfold grantSegs
  repeat' first
    | with_reducible assumption
    | with_reducible exact keepsP_fst (by assumption)
    | (extract_lets -useContext +onlyGivenNames x; refine (fun (hx : Keeps ps z x) => ?_) ?_; clear_value x; revert x; intro _ _; rotate_left; unfold x; clear x; rotate_left)
    | (extract_lets -useContext +onlyGivenNames x; revert x; intro _)
    | with_reducible refine grantPieces_keeps (sub_of (by decide) hp) ?_
    | with_reducible refine keeps_foldl (fun t a ht => ?_) ?_
    | with_reducible refine keepsP_foldl (fun t a ht => ?_) ?_
    | split
    | (clear_value *; split)
    | with_reducible refine keepsP_eq ?_ (by assumption)
    | with_reducible refine keepsO_eq ?_ (by assumption)
    | with_reducible refine keepsP_mk ?_

theorem sendSegs_keeps {ps z} {s : Sys2Proof.Machine.State} {id : Nat} (hp : [.xch] ⊆ ps) (h0 : Keeps ps z s) :
    Keeps ps z (sendSegs s id) := by
  unfold sendSegs
  repeat' first
    | with_reducible assumption
    | with_reducible exact keepsP_fst (by assumption)
    | (extract_lets -useContext +onlyGivenNames x; refine (fun (hx : Keeps ps z x) => ?_) ?_; clear_value x; revert x; intro _ _; rotate_left; unfold x; clear x; rotate_left)
    | (extract_lets -useContext +onlyGivenNames x; revert x; intro _)
    | with_reducible refine State.putXop_keeps (sub_of (by decide) hp) ?_
    | with_reducible refine queueMsg_keeps (sub_of (by decide) hp) ?_
    | with_reducible refine keeps_foldl (fun t a ht => ?_) ?_
    | with_reducible refine keepsP_foldl (fun t a ht => ?_) ?_
    | split
    | (clear_value *; split)
    | with_reducible refine keepsP_eq ?_ (by assumption)
    | with_reducible refine keepsO_eq ?_ (by assumption)
    | with_reducible refine keepsP_mk ?_

theorem takeSeg_keeps {ps z} {w : Sys2Proof.Machine.XW} {id : Nat} {g : Sys2Proof.Machine.XSeg} (hp : [.regs, .mem, .mmu, .outbox, .bxl, .rtr, .xch, .bridge] ⊆ ps) (h0 : KeepsP ps z w) :
    KeepsP ps z (takeSeg w id g) := by
  unfold takeSeg
  repeat' first
    | with_reducible assumption
    | with_reducible exact keepsP_fst (by assumption)
    | (extract_lets -useContext +onlyGivenNames x; refine (fun (hx : Keeps ps z x) => ?_) ?_; clear_value x; revert x; intro _ _; rotate_left; unfold x; clear x; rotate_left)
    | (extract_lets -useContext +onlyGivenNames x; refine (fun (hx : KeepsP ps z x) => ?_) ?_; clear_value x; revert x; intro _ _; rotate_left; unfold x; clear x; rotate_left)
    | (extract_lets -useContext +onlyGivenNames x; revert x; intro _)
    | with_reducible refine State.putXop_keeps (sub_of (by decide) hp) ?_
    | with_reducible refine fifthLate_keeps (sub_of (by decide) hp) ?_
    | with_reducible refine xStore_keeps (sub_of (by decide) hp) ?_
    | with_reducible refine keepsP_fst (xStore_keeps (sub_of (by decide) hp) ?_)
    | with_reducible refine keepsP_eq (xStore_keeps (sub_of (by decide) hp) ?_) (by assumption)
    | with_reducible refine xThen_keeps  ?_ (fun x0 hx0 => ?_)
    | with_reducible refine keepsP_fst (xThen_keeps  ?_ (fun x0 hx0 => ?_))
    | with_reducible refine keepsP_eq (xThen_keeps  ?_ (fun x0 hx0 => ?_)) (by assumption)
    | split
    | (clear_value *; split)
    | with_reducible refine keepsP_eq ?_ (by assumption)
    | with_reducible refine keepsO_eq ?_ (by assumption)
    | with_reducible refine keepsP_mk ?_

theorem formRoots_keeps {ps z} {w : Sys2Proof.Machine.XW} {id : Nat} (hp : [.regs, .mem, .mmu, .outbox, .bxl, .rtr, .xch, .bridge] ⊆ ps) (h0 : KeepsP ps z w) :
    KeepsP ps z (formRoots w id) := by
  unfold formRoots
  repeat' first
    | with_reducible assumption
    | with_reducible exact keepsP_fst (by assumption)
    | (extract_lets -useContext +onlyGivenNames x; refine (fun (hx : Keeps ps z x) => ?_) ?_; clear_value x; revert x; intro _ _; rotate_left; unfold x; clear x; rotate_left)
    | (extract_lets -useContext +onlyGivenNames x; refine (fun (hx : KeepsP ps z x) => ?_) ?_; clear_value x; revert x; intro _ _; rotate_left; unfold x; clear x; rotate_left)
    | (extract_lets -useContext +onlyGivenNames x; revert x; intro _)
    | with_reducible refine takeSeg_keeps (sub_of (by decide) hp) ?_
    | with_reducible refine keepsP_fst (takeSeg_keeps (sub_of (by decide) hp) ?_)
    | with_reducible refine keepsP_eq (takeSeg_keeps (sub_of (by decide) hp) ?_) (by assumption)
    | with_reducible refine xThen_keeps  ?_ (fun x0 hx0 => ?_)
    | with_reducible refine keepsP_fst (xThen_keeps  ?_ (fun x0 hx0 => ?_))
    | with_reducible refine keepsP_eq (xThen_keeps  ?_ (fun x0 hx0 => ?_)) (by assumption)
    | with_reducible refine keeps_foldl (fun t a ht => ?_) ?_
    | with_reducible refine keepsP_foldl (fun t a ht => ?_) ?_
    | split
    | (clear_value *; split)
    | with_reducible refine keepsP_eq ?_ (by assumption)
    | with_reducible refine keepsO_eq ?_ (by assumption)
    | with_reducible refine keepsP_mk ?_

theorem ownSegs_keeps {ps z} {w : Sys2Proof.Machine.XW} {id : Nat} (hp : [.regs, .mem, .mmu, .outbox, .bxl, .rtr, .xch, .bridge] ⊆ ps) (h0 : KeepsP ps z w) :
    KeepsP ps z (ownSegs w id) := by
  unfold ownSegs
  repeat' first
    | with_reducible assumption
    | with_reducible exact keepsP_fst (by assumption)
    | (extract_lets -useContext +onlyGivenNames x; refine (fun (hx : Keeps ps z x) => ?_) ?_; clear_value x; revert x; intro _ _; rotate_left; unfold x; clear x; rotate_left)
    | (extract_lets -useContext +onlyGivenNames x; refine (fun (hx : KeepsP ps z x) => ?_) ?_; clear_value x; revert x; intro _ _; rotate_left; unfold x; clear x; rotate_left)
    | (extract_lets -useContext +onlyGivenNames x; revert x; intro _)
    | with_reducible refine xStore_keeps (sub_of (by decide) hp) ?_
    | with_reducible refine keepsP_fst (xStore_keeps (sub_of (by decide) hp) ?_)
    | with_reducible refine keepsP_eq (xStore_keeps (sub_of (by decide) hp) ?_) (by assumption)
    | with_reducible refine takeSeg_keeps (sub_of (by decide) hp) ?_
    | with_reducible refine keepsP_fst (takeSeg_keeps (sub_of (by decide) hp) ?_)
    | with_reducible refine keepsP_eq (takeSeg_keeps (sub_of (by decide) hp) ?_) (by assumption)
    | with_reducible refine xThen_keeps  ?_ (fun x0 hx0 => ?_)
    | with_reducible refine keepsP_fst (xThen_keeps  ?_ (fun x0 hx0 => ?_))
    | with_reducible refine keepsP_eq (xThen_keeps  ?_ (fun x0 hx0 => ?_)) (by assumption)
    | with_reducible refine keeps_foldl (fun t a ht => ?_) ?_
    | with_reducible refine keepsP_foldl (fun t a ht => ?_) ?_
    | split
    | (clear_value *; split)
    | with_reducible refine keepsP_eq ?_ (by assumption)
    | with_reducible refine keepsO_eq ?_ (by assumption)
    | with_reducible refine keepsP_mk ?_

theorem sendCounts_keeps {ps z} {s : Sys2Proof.Machine.State} {a1_ : Sys2Proof.Machine.Xop} (hp : [.outbox, .rtr] ⊆ ps) (h0 : Keeps ps z s) :
    Keeps ps z (sendCounts s a1_) := by
  unfold sendCounts
  repeat' first
    | with_reducible assumption
    | with_reducible exact keepsP_fst (by assumption)
    | (extract_lets -useContext +onlyGivenNames x; refine (fun (hx : Keeps ps z x) => ?_) ?_; clear_value x; revert x; intro _ _; rotate_left; unfold x; clear x; rotate_left)
    | (extract_lets -useContext +onlyGivenNames x; revert x; intro _)
    | with_reducible refine toRank_keeps (sub_of (by decide) hp) ?_
    | with_reducible refine keeps_foldl (fun t a ht => ?_) ?_
    | with_reducible refine keepsP_foldl (fun t a ht => ?_) ?_
    | split
    | (clear_value *; split)
    | with_reducible refine keepsP_eq ?_ (by assumption)
    | with_reducible refine keepsO_eq ?_ (by assumption)
    | with_reducible refine keepsP_mk ?_

theorem allotAll_keeps {ps z} {w : Sys2Proof.Machine.XW} {id : Nat} (hp : [.regs, .mem, .mmu, .outbox, .bxl, .rtr, .xch, .bridge] ⊆ ps) (h0 : KeepsP ps z w) :
    KeepsP ps z (allotAll w id) := by
  unfold allotAll
  repeat' first
    | with_reducible assumption
    | with_reducible exact keepsP_fst (by assumption)
    | (extract_lets -useContext +onlyGivenNames x; refine (fun (hx : Keeps ps z x) => ?_) ?_; clear_value x; revert x; intro _ _; rotate_left; unfold x; clear x; rotate_left)
    | (extract_lets -useContext +onlyGivenNames x; refine (fun (hx : KeepsP ps z x) => ?_) ?_; clear_value x; revert x; intro _ _; rotate_left; unfold x; clear x; rotate_left)
    | (extract_lets -useContext +onlyGivenNames x; revert x; intro _)
    | with_reducible refine xStore_keeps (sub_of (by decide) hp) ?_
    | with_reducible refine keepsP_fst (xStore_keeps (sub_of (by decide) hp) ?_)
    | with_reducible refine keepsP_eq (xStore_keeps (sub_of (by decide) hp) ?_) (by assumption)
    | with_reducible refine State.putXop_keeps (sub_of (by decide) hp) ?_
    | with_reducible refine xThen_keeps  ?_ (fun x0 hx0 => ?_)
    | with_reducible refine keepsP_fst (xThen_keeps  ?_ (fun x0 hx0 => ?_))
    | with_reducible refine keepsP_eq (xThen_keeps  ?_ (fun x0 hx0 => ?_)) (by assumption)
    | split
    | (clear_value *; split)
    | with_reducible refine keepsP_eq ?_ (by assumption)
    | with_reducible refine keepsO_eq ?_ (by assumption)
    | with_reducible refine keepsO_getD ?_ ?_
    | with_reducible refine keepsP_mk ?_

theorem grantPairs_keeps {ps z} {s : Sys2Proof.Machine.State} {id : Nat} (hp : [.outbox, .rtr, .xch] ⊆ ps) (h0 : Keeps ps z s) :
    Keeps ps z (grantPairs s id) := by
  unfold grantPairs
  repeat' first
    | with_reducible assumption
    | with_reducible exact keepsP_fst (by assumption)
    | (extract_lets -useContext +onlyGivenNames x; refine (fun (hx : Keeps ps z x) => ?_) ?_; clear_value x; revert x; intro _ _; rotate_left; unfold x; clear x; rotate_left)
    | (extract_lets -useContext +onlyGivenNames x; revert x; intro _)
    | with_reducible refine grantPieces_keeps (sub_of (by decide) hp) ?_
    | with_reducible refine keeps_foldl (fun t a ht => ?_) ?_
    | with_reducible refine keepsP_foldl (fun t a ht => ?_) ?_
    | split
    | (clear_value *; split)
    | with_reducible refine keepsP_eq ?_ (by assumption)
    | with_reducible refine keepsO_eq ?_ (by assumption)
    | with_reducible refine keepsP_mk ?_

theorem sendPairs_keeps {ps z} {s : Sys2Proof.Machine.State} {id : Nat} (hp : [.xch] ⊆ ps) (h0 : Keeps ps z s) :
    Keeps ps z (sendPairs s id) := by
  unfold sendPairs
  repeat' first
    | with_reducible assumption
    | with_reducible exact keepsP_fst (by assumption)
    | (extract_lets -useContext +onlyGivenNames x; refine (fun (hx : Keeps ps z x) => ?_) ?_; clear_value x; revert x; intro _ _; rotate_left; unfold x; clear x; rotate_left)
    | (extract_lets -useContext +onlyGivenNames x; revert x; intro _)
    | with_reducible refine State.putXop_keeps (sub_of (by decide) hp) ?_
    | with_reducible refine queuePieces_keeps (sub_of (by decide) hp) ?_
    | with_reducible refine keeps_foldl (fun t a ht => ?_) ?_
    | with_reducible refine keepsP_foldl (fun t a ht => ?_) ?_
    | split
    | (clear_value *; split)
    | with_reducible refine keepsP_eq ?_ (by assumption)
    | with_reducible refine keepsO_eq ?_ (by assumption)
    | with_reducible refine keepsP_mk ?_

theorem addCarry_keeps {ps z} {w : Sys2Proof.Machine.XW} {a1_ : Sys2Proof.Machine.Xop} {c : Nat} {vals : List Nat} {poison : Bool} (hp : [.regs, .mem, .mmu, .outbox, .bxl, .rtr, .xch, .bridge] ⊆ ps) (h0 : KeepsP ps z w) :
    KeepsP ps z (addCarry w a1_ c vals poison) := by
  unfold addCarry
  repeat' first
    | with_reducible assumption
    | with_reducible exact keepsP_fst (by assumption)
    | (extract_lets -useContext +onlyGivenNames x; refine (fun (hx : Keeps ps z x) => ?_) ?_; clear_value x; revert x; intro _ _; rotate_left; unfold x; clear x; rotate_left)
    | (extract_lets -useContext +onlyGivenNames x; refine (fun (hx : KeepsP ps z x) => ?_) ?_; clear_value x; revert x; intro _ _; rotate_left; unfold x; clear x; rotate_left)
    | (extract_lets -useContext +onlyGivenNames x; revert x; intro _)
    | with_reducible refine accessFault_keeps (sub_of (by decide) hp) ?_
    | with_reducible refine xRead_keeps (sub_of (by decide) hp) ?_
    | with_reducible refine keepsP_fst (xRead_keeps (sub_of (by decide) hp) ?_)
    | with_reducible refine keepsP_eq (xRead_keeps (sub_of (by decide) hp) ?_) (by assumption)
    | with_reducible refine xThen_keeps  ?_ (fun x0 hx0 => ?_)
    | with_reducible refine keepsP_fst (xThen_keeps  ?_ (fun x0 hx0 => ?_))
    | with_reducible refine keepsP_eq (xThen_keeps  ?_ (fun x0 hx0 => ?_)) (by assumption)
    | with_reducible refine xWrite_keeps (sub_of (by decide) hp) ?_
    | with_reducible refine keepsP_fst (xWrite_keeps (sub_of (by decide) hp) ?_)
    | with_reducible refine keepsP_eq (xWrite_keeps (sub_of (by decide) hp) ?_) (by assumption)
    | split
    | (clear_value *; split)
    | with_reducible refine keepsP_eq ?_ (by assumption)
    | with_reducible refine keepsO_eq ?_ (by assumption)
    | with_reducible refine keepsP_mk ?_

theorem State.putAny_keeps {ps z} {s : Sys2Proof.Machine.State} {a1_ : Sys2Proof.Machine.Xop} (hp : [.xch] ⊆ ps) (h0 : Keeps ps z s) :
    Keeps ps z (State.putAny s a1_) := by
  unfold State.putAny
  repeat' first
    | with_reducible assumption
    | with_reducible exact keepsP_fst (by assumption)
    | (extract_lets -useContext +onlyGivenNames x; refine (fun (hx : Keeps ps z x) => ?_) ?_; clear_value x; revert x; intro _ _; rotate_left; unfold x; clear x; rotate_left)
    | (extract_lets -useContext +onlyGivenNames x; revert x; intro _)
    | with_reducible refine State.putXop_keeps (sub_of (by decide) hp) ?_
    | split
    | (clear_value *; split)
    | with_reducible refine keeps_with_xch (mem_of (by decide) hp) ?_
    | with_reducible refine keepsP_eq ?_ (by assumption)
    | with_reducible refine keepsO_eq ?_ (by assumption)
    | with_reducible refine keepsP_mk ?_

theorem drainLate_keeps {ps z} {all : Bool} {a1_ : Nat} {a2_ : Sys2Proof.Machine.XW} {a3_ : Nat} (hp : [.regs, .mem, .mmu, .outbox, .bxl, .rtr, .xch, .bridge] ⊆ ps) (h2 : KeepsP ps z a2_) :
    KeepsP ps z (drainLate all a1_ a2_ a3_) := by
  induction a1_ generalizing all a2_ a3_ with
  | zero =>
    unfold drainLate
    repeat' first
      | with_reducible assumption
      | with_reducible exact keepsP_fst (by assumption)
      | (extract_lets -useContext +onlyGivenNames x; refine (fun (hx : Keeps ps z x) => ?_) ?_; clear_value x; revert x; intro _ _; rotate_left; unfold x; clear x; rotate_left)
      | (extract_lets -useContext +onlyGivenNames x; refine (fun (hx : KeepsP ps z x) => ?_) ?_; clear_value x; revert x; intro _ _; rotate_left; unfold x; clear x; rotate_left)
      | (extract_lets -useContext +onlyGivenNames x; revert x; intro _)
      | with_reducible refine State.putAny_keeps (sub_of (by decide) hp) ?_
      | with_reducible refine xThen_keeps  ?_ (fun x0 hx0 => ?_)
      | with_reducible refine keepsP_fst (xThen_keeps  ?_ (fun x0 hx0 => ?_))
      | with_reducible refine keepsP_eq (xThen_keeps  ?_ (fun x0 hx0 => ?_)) (by assumption)
      | with_reducible refine addCarry_keeps (sub_of (by decide) hp) ?_
      | with_reducible refine keepsP_fst (addCarry_keeps (sub_of (by decide) hp) ?_)
      | with_reducible refine keepsP_eq (addCarry_keeps (sub_of (by decide) hp) ?_) (by assumption)
      | split
      | (clear_value *; split)
      | with_reducible refine keepsP_eq ?_ (by assumption)
      | with_reducible refine keepsO_eq ?_ (by assumption)
      | with_reducible refine keepsO_getD ?_ ?_
      | with_reducible refine keepsP_mk ?_
  | succ fuel ih =>
    unfold drainLate
    repeat' first
      | with_reducible assumption
      | with_reducible exact keepsP_fst (by assumption)
      | (extract_lets -useContext +onlyGivenNames x; refine (fun (hx : Keeps ps z x) => ?_) ?_; clear_value x; revert x; intro _ _; rotate_left; unfold x; clear x; rotate_left)
      | (extract_lets -useContext +onlyGivenNames x; refine (fun (hx : KeepsP ps z x) => ?_) ?_; clear_value x; revert x; intro _ _; rotate_left; unfold x; clear x; rotate_left)
      | with_reducible refine ih ?_
      | with_reducible refine keepsP_fst (ih ?_)
      | with_reducible refine keepsP_eq (ih ?_) (by assumption)
      | (extract_lets -useContext +onlyGivenNames x; revert x; intro _)
      | with_reducible refine State.putAny_keeps (sub_of (by decide) hp) ?_
      | with_reducible refine xThen_keeps  ?_ (fun x0 hx0 => ?_)
      | with_reducible refine keepsP_fst (xThen_keeps  ?_ (fun x0 hx0 => ?_))
      | with_reducible refine keepsP_eq (xThen_keeps  ?_ (fun x0 hx0 => ?_)) (by assumption)
      | with_reducible refine addCarry_keeps (sub_of (by decide) hp) ?_
      | with_reducible refine keepsP_fst (addCarry_keeps (sub_of (by decide) hp) ?_)
      | with_reducible refine keepsP_eq (addCarry_keeps (sub_of (by decide) hp) ?_) (by assumption)
      | split
      | (clear_value *; split)
      | with_reducible refine keepsP_eq ?_ (by assumption)
      | with_reducible refine keepsO_eq ?_ (by assumption)
      | with_reducible refine keepsO_getD ?_ ?_
      | with_reducible refine keepsP_mk ?_

theorem takeLate_keeps {ps z} {w : Sys2Proof.Machine.XW} {a1_ : Sys2Proof.Machine.Xop} {lo : Nat} {c : Nat} {v : Sys2Proof.Machine.XVal} (hp : [.regs, .mem, .mmu, .outbox, .bxl, .rtr, .xch, .bridge] ⊆ ps) (h0 : KeepsP ps z w) :
    KeepsP ps z (takeLate w a1_ lo c v) := by
  unfold takeLate
  repeat' first
    | with_reducible assumption
    | with_reducible exact keepsP_fst (by assumption)
    | (extract_lets -useContext +onlyGivenNames x; refine (fun (hx : Keeps ps z x) => ?_) ?_; clear_value x; revert x; intro _ _; rotate_left; unfold x; clear x; rotate_left)
    | (extract_lets -useContext +onlyGivenNames x; refine (fun (hx : KeepsP ps z x) => ?_) ?_; clear_value x; revert x; intro _ _; rotate_left; unfold x; clear x; rotate_left)
    | (extract_lets -useContext +onlyGivenNames x; revert x; intro _)
    | with_reducible refine State.bump_keeps (sub_of (by decide) hp) ?_
    | with_reducible refine State.putAny_keeps (sub_of (by decide) hp) ?_
    | with_reducible refine drainLate_keeps (sub_of (by decide) hp) ?_
    | with_reducible refine keepsP_fst (drainLate_keeps (sub_of (by decide) hp) ?_)
    | with_reducible refine keepsP_eq (drainLate_keeps (sub_of (by decide) hp) ?_) (by assumption)
    | with_reducible refine xThen_keeps  ?_ (fun x0 hx0 => ?_)
    | with_reducible refine keepsP_fst (xThen_keeps  ?_ (fun x0 hx0 => ?_))
    | with_reducible refine keepsP_eq (xThen_keeps  ?_ (fun x0 hx0 => ?_)) (by assumption)
    | split
    | (clear_value *; split)
    | with_reducible refine keepsP_eq ?_ (by assumption)
    | with_reducible refine keepsO_eq ?_ (by assumption)
    | with_reducible refine keepsP_mk ?_

theorem declareLate_keeps {ps z} {s : Sys2Proof.Machine.State} {a1_ : Sys2Proof.Machine.Xop} (hp : [.regs, .outbox, .rtr, .xch] ⊆ ps) (h0 : Keeps ps z s) :
    Keeps ps z (declareLate s a1_) := by
  unfold declareLate
  repeat' first
    | with_reducible assumption
    | with_reducible exact keepsP_fst (by assumption)
    | (extract_lets -useContext +onlyGivenNames x; refine (fun (hx : Keeps ps z x) => ?_) ?_; clear_value x; revert x; intro _ _; rotate_left; unfold x; clear x; rotate_left)
    | (extract_lets -useContext +onlyGivenNames x; revert x; intro _)
    | with_reducible refine State.bump_keeps (sub_of (by decide) hp) ?_
    | with_reducible refine State.putXop_keeps (sub_of (by decide) hp) ?_
    | with_reducible refine fifthLate_keeps (sub_of (by decide) hp) ?_
    | split
    | (clear_value *; split)
    | with_reducible refine keepsP_eq ?_ (by assumption)
    | with_reducible refine keepsO_eq ?_ (by assumption)
    | with_reducible refine keepsP_mk ?_

theorem flushColl_keeps {ps z} {w : Sys2Proof.Machine.XW} {id : Nat} (hp : [.regs, .mem, .mmu, .outbox, .draws, .bxl, .rtr, .xch, .bridge] ⊆ ps) (h0 : KeepsP ps z w) :
    KeepsP ps z (flushColl w id) := by
  unfold flushColl
  repeat' first
    | with_reducible assumption
    | with_reducible exact keepsP_fst (by assumption)
    | (extract_lets -useContext +onlyGivenNames x; refine (fun (hx : Keeps ps z x) => ?_) ?_; clear_value x; revert x; intro _ _; rotate_left; unfold x; clear x; rotate_left)
    | (extract_lets -useContext +onlyGivenNames x; refine (fun (hx : KeepsP ps z x) => ?_) ?_; clear_value x; revert x; intro _ _; rotate_left; unfold x; clear x; rotate_left)
    | (extract_lets -useContext +onlyGivenNames x; revert x; intro _)
    | with_reducible refine allotAll_keeps (sub_of (by decide) hp) ?_
    | with_reducible refine keepsP_fst (allotAll_keeps (sub_of (by decide) hp) ?_)
    | with_reducible refine keepsP_eq (allotAll_keeps (sub_of (by decide) hp) ?_) (by assumption)
    | with_reducible refine formNodes_keeps (sub_of (by decide) hp) ?_
    | with_reducible refine keepsP_fst (formNodes_keeps (sub_of (by decide) hp) ?_)
    | with_reducible refine keepsP_eq (formNodes_keeps (sub_of (by decide) hp) ?_) (by assumption)
    | with_reducible refine formRoots_keeps (sub_of (by decide) hp) ?_
    | with_reducible refine keepsP_fst (formRoots_keeps (sub_of (by decide) hp) ?_)
    | with_reducible refine keepsP_eq (formRoots_keeps (sub_of (by decide) hp) ?_) (by assumption)
    | with_reducible refine grantNodes_keeps (sub_of (by decide) hp) ?_
    | with_reducible refine grantSegs_keeps (sub_of (by decide) hp) ?_
    | with_reducible refine ownSegs_keeps (sub_of (by decide) hp) ?_
    | with_reducible refine keepsP_fst (ownSegs_keeps (sub_of (by decide) hp) ?_)
    | with_reducible refine keepsP_eq (ownSegs_keeps (sub_of (by decide) hp) ?_) (by assumption)
    | with_reducible refine sendOperands_keeps (sub_of (by decide) hp) ?_
    | with_reducible refine keepsP_fst (sendOperands_keeps (sub_of (by decide) hp) ?_)
    | with_reducible refine keepsP_eq (sendOperands_keeps (sub_of (by decide) hp) ?_) (by assumption)
    | with_reducible refine sendPairs_keeps (sub_of (by decide) hp) ?_
    | with_reducible refine sendSegs_keeps (sub_of (by decide) hp) ?_
    | with_reducible refine xThen_keeps  ?_ (fun x0 hx0 => ?_)
    | with_reducible refine keepsP_fst (xThen_keeps  ?_ (fun x0 hx0 => ?_))
    | with_reducible refine keepsP_eq (xThen_keeps  ?_ (fun x0 hx0 => ?_)) (by assumption)
    | with_reducible refine grantPairs_keeps (sub_of (by decide) hp) ?_
    | split
    | (clear_value *; split)
    | with_reducible refine keepsP_eq ?_ (by assumption)
    | with_reducible refine keepsO_eq ?_ (by assumption)
    | with_reducible refine keepsP_mk ?_

end Sys2Proof.Machine
end

