-- ==== Sys2Proof/Laws/FrameExperts.lean ====
section
/-!
SUPPORT. Frames: for each operation of Sys2Proof/Machine/Experts.lean, the parts of State it may change, and that it keeps the stores'
canonical form.
-/
namespace Sys2Proof.Machine

open Sys2Proof

theorem catRead_keeps {ps z} {s : Sys2Proof.Machine.State} {i : Nat} (hp : [.regs, .draws, .cat] ⊆ ps) (h0 : Keeps ps z s) :
    Keeps ps z (catRead s i) := by
  unfold catRead
  repeat' first
    | with_reducible assumption
    | with_reducible exact keepsP_fst (by assumption)
    | (extract_lets -useContext +onlyGivenNames x; refine (fun (hx : Keeps ps z x) => ?_) ?_; clear_value x; revert x; intro _ _; rotate_left; unfold x; clear x; rotate_left)
    | (extract_lets -useContext +onlyGivenNames x; revert x; intro _)
    | with_reducible refine State.bump_keeps (sub_of (by decide) hp) ?_
    | split
    | (clear_value *; split)
    | with_reducible refine keeps_with_draws (mem_of (by decide) hp) ?_
    | with_reducible refine keeps_with_cat (mem_of (by decide) hp) ?_
    | with_reducible refine keepsP_eq ?_ (by assumption)
    | with_reducible refine keepsO_eq ?_ (by assumption)
    | with_reducible refine keepsP_mk ?_

theorem readRoute_keeps {ps z} {s : Sys2Proof.Machine.State} {a1_ : Sys2Proof.Machine.Xop} {recs : List Nat} {e : Nat × Nat} (hp : [.regs, .draws, .cat] ⊆ ps) (h0 : Keeps ps z s) :
    KeepsP ps z (readRoute s a1_ recs e) := by
  unfold readRoute
  repeat' first
    | with_reducible assumption
    | with_reducible exact keepsP_fst (by assumption)
    | (extract_lets -useContext +onlyGivenNames x; refine (fun (hx : Keeps ps z x) => ?_) ?_; clear_value x; revert x; intro _ _; rotate_left; unfold x; clear x; rotate_left)
    | (extract_lets -useContext +onlyGivenNames x; revert x; intro _)
    | with_reducible refine catRead_keeps (sub_of (by decide) hp) ?_
    | split
    | (clear_value *; split)
    | with_reducible refine keepsP_eq ?_ (by assumption)
    | with_reducible refine keepsO_eq ?_ (by assumption)
    | with_reducible refine keepsP_mk ?_

theorem readRoutes_keeps {ps z} {s : Sys2Proof.Machine.State} {a1_ : Sys2Proof.Machine.Xop} {recs : List Nat} (hp : [.regs, .draws, .cat] ⊆ ps) (h0 : Keeps ps z s) :
    KeepsP ps z (readRoutes s a1_ recs) := by
  unfold readRoutes
  repeat' first
    | with_reducible assumption
    | with_reducible exact keepsP_fst (by assumption)
    | (extract_lets -useContext +onlyGivenNames x; refine (fun (hx : Keeps ps z x) => ?_) ?_; clear_value x; revert x; intro _ _; rotate_left; unfold x; clear x; rotate_left)
    | (extract_lets -useContext +onlyGivenNames x; refine (fun (hx : KeepsP ps z x) => ?_) ?_; clear_value x; revert x; intro _ _; rotate_left; unfold x; clear x; rotate_left)
    | (extract_lets -useContext +onlyGivenNames x; revert x; intro _)
    | with_reducible refine readRoute_keeps (sub_of (by decide) hp) ?_
    | with_reducible refine keepsP_fst (readRoute_keeps (sub_of (by decide) hp) ?_)
    | with_reducible refine keepsP_eq (readRoute_keeps (sub_of (by decide) hp) ?_) (by assumption)
    | with_reducible refine xThen_keeps  ?_ (fun x0 hx0 => ?_)
    | with_reducible refine keepsP_fst (xThen_keeps  ?_ (fun x0 hx0 => ?_))
    | with_reducible refine keepsP_eq (xThen_keeps  ?_ (fun x0 hx0 => ?_)) (by assumption)
    | with_reducible refine keeps_foldl (fun t a ht => ?_) ?_
    | with_reducible refine keepsP_foldl (fun t a ht => ?_) ?_
    | split
    | (clear_value *; split)
    | with_reducible refine keepsP_eq ?_ (by assumption)
    | with_reducible refine keepsO_eq ?_ (by assumption)
    | with_reducible refine keepsP_mk ?_

theorem readSlots_keeps {ps z} {s : Sys2Proof.Machine.State} {d : Nat} (hp : [.regs, .draws, .cat] ⊆ ps) (h0 : Keeps ps z s) :
    Keeps ps z (readSlots s d) := by
  unfold readSlots
  repeat' first
    | with_reducible assumption
    | with_reducible exact keepsP_fst (by assumption)
    | (extract_lets -useContext +onlyGivenNames x; refine (fun (hx : Keeps ps z x) => ?_) ?_; clear_value x; revert x; intro _ _; rotate_left; unfold x; clear x; rotate_left)
    | (extract_lets -useContext +onlyGivenNames x; revert x; intro _)
    | with_reducible refine catRead_keeps (sub_of (by decide) hp) ?_
    | with_reducible refine keeps_foldl (fun t a ht => ?_) ?_
    | with_reducible refine keepsP_foldl (fun t a ht => ?_) ?_
    | split
    | (clear_value *; split)
    | with_reducible refine keepsP_eq ?_ (by assumption)
    | with_reducible refine keepsO_eq ?_ (by assumption)
    | with_reducible refine keepsP_mk ?_

theorem sendDispatchCounts_keeps {ps z} {s : Sys2Proof.Machine.State} {a1_ : Sys2Proof.Machine.Xop} (hp : [.outbox, .rtr] ⊆ ps) (h0 : Keeps ps z s) :
    Keeps ps z (sendDispatchCounts s a1_) := by
  unfold sendDispatchCounts
  repeat' first
    | with_reducible assumption
    | with_reducible exact keepsP_fst (by assumption)
    | (extract_lets -useContext +onlyGivenNames x; refine (fun (hx : Keeps ps z x) => ?_) ?_; clear_value x; revert x; intro _ _; rotate_left; unfold x; clear x; rotate_left)
    | (extract_lets -useContext +onlyGivenNames x; revert x; intro _)
    | with_reducible refine toRank_keeps (sub_of (by decide) hp) ?_
    | with_reducible refine keeps_foldl (fun t a ht => ?_) ?_
    | with_reducible refine keepsP_foldl (fun t a ht => ?_) ?_
    | split
    | (clear_value *; split)
    | with_reducible refine keepsP_eq ?_ (by assumption)
    | with_reducible refine keepsO_eq ?_ (by assumption)
    | with_reducible refine keepsP_mk ?_

theorem grantRows_keeps {ps z} {s : Sys2Proof.Machine.State} {id : Nat} (hp : [.outbox, .rtr, .xch] ⊆ ps) (h0 : Keeps ps z s) :
    Keeps ps z (grantRows s id) := by
  unfold grantRows
  repeat' first
    | with_reducible assumption
    | with_reducible exact keepsP_fst (by assumption)
    | (extract_lets -useContext +onlyGivenNames x; refine (fun (hx : Keeps ps z x) => ?_) ?_; clear_value x; revert x; intro _ _; rotate_left; unfold x; clear x; rotate_left)
    | (extract_lets -useContext +onlyGivenNames x; revert x; intro _)
    | with_reducible refine grantPieces_keeps (sub_of (by decide) hp) ?_
    | with_reducible refine keeps_foldl (fun t a ht => ?_) ?_
    | with_reducible refine keepsP_foldl (fun t a ht => ?_) ?_
    | split
    | (clear_value *; split)
    | with_reducible refine keepsP_eq ?_ (by assumption)
    | with_reducible refine keepsO_eq ?_ (by assumption)
    | with_reducible refine keepsP_mk ?_

theorem allocateRows_keeps {ps z} {w : Sys2Proof.Machine.XW} {id : Nat} (hp : [.regs, .mem, .mmu, .outbox, .bxl, .rtr, .xch, .bridge] ⊆ ps) (h0 : KeepsP ps z w) :
    KeepsP ps z (allocateRows w id) := by
  unfold allocateRows
  repeat' first
    | with_reducible assumption
    | with_reducible exact keepsP_fst (by assumption)
    | (extract_lets -useContext +onlyGivenNames x; refine (fun (hx : Keeps ps z x) => ?_) ?_; clear_value x; revert x; intro _ _; rotate_left; unfold x; clear x; rotate_left)
    | (extract_lets -useContext +onlyGivenNames x; refine (fun (hx : KeepsP ps z x) => ?_) ?_; clear_value x; revert x; intro _ _; rotate_left; unfold x; clear x; rotate_left)
    | (extract_lets -useContext +onlyGivenNames x; revert x; intro _)
    | with_reducible refine State.putXop_keeps (sub_of (by decide) hp) ?_
    | with_reducible refine placeData_keeps (sub_of (by decide) hp) ?_
    | with_reducible refine keepsP_fst (placeData_keeps (sub_of (by decide) hp) ?_)
    | with_reducible refine keepsP_eq (placeData_keeps (sub_of (by decide) hp) ?_) (by assumption)
    | with_reducible refine State.bump_keeps (sub_of (by decide) hp) ?_
    | with_reducible refine abandonAll_keeps (sub_of (by decide) hp) ?_
    | with_reducible refine endEarly_keeps (sub_of (by decide) hp) ?_
    | with_reducible refine xThen_keeps  ?_ (fun x0 hx0 => ?_)
    | with_reducible refine keepsP_fst (xThen_keeps  ?_ (fun x0 hx0 => ?_))
    | with_reducible refine keepsP_eq (xThen_keeps  ?_ (fun x0 hx0 => ?_)) (by assumption)
    | with_reducible refine grantRows_keeps (sub_of (by decide) hp) ?_
    | split
    | (clear_value *; split)
    | with_reducible refine keepsP_eq ?_ (by assumption)
    | with_reducible refine keepsO_eq ?_ (by assumption)
    | with_reducible refine keepsP_mk ?_

theorem sendRows_keeps {ps z} {s : Sys2Proof.Machine.State} {id : Nat} (hp : [.xch] ⊆ ps) (h0 : Keeps ps z s) :
    Keeps ps z (sendRows s id) := by
  unfold sendRows
  repeat' first
    | with_reducible assumption
    | with_reducible exact keepsP_fst (by assumption)
    | (extract_lets -useContext +onlyGivenNames x; refine (fun (hx : Keeps ps z x) => ?_) ?_; clear_value x; revert x; intro _ _; rotate_left; unfold x; clear x; rotate_left)
    | (extract_lets -useContext +onlyGivenNames x; revert x; intro _)
    | with_reducible refine State.putXop_keeps (sub_of (by decide) hp) ?_
    | with_reducible refine queuePieces_keeps (sub_of (by decide) hp) ?_
    | with_reducible refine keeps_foldl (fun t a ht => ?_) ?_
    | with_reducible refine keepsP_foldl (fun t a ht => ?_) ?_
    | split
    | (clear_value *; split)
    | with_reducible refine keepsP_eq ?_ (by assumption)
    | with_reducible refine keepsO_eq ?_ (by assumption)
    | with_reducible refine keepsP_mk ?_

theorem writeMaps_keeps {ps z} {w : Sys2Proof.Machine.XW} {id : Nat} (hp : [.regs, .mem, .mmu, .outbox, .bxl, .rtr, .xch, .bridge] ⊆ ps) (h0 : KeepsP ps z w) :
    KeepsP ps z (writeMaps w id) := by
  unfold writeMaps
  repeat' first
    | with_reducible assumption
    | with_reducible exact keepsP_fst (by assumption)
    | (extract_lets -useContext +onlyGivenNames x; refine (fun (hx : Keeps ps z x) => ?_) ?_; clear_value x; revert x; intro _ _; rotate_left; unfold x; clear x; rotate_left)
    | (extract_lets -useContext +onlyGivenNames x; refine (fun (hx : KeepsP ps z x) => ?_) ?_; clear_value x; revert x; intro _ _; rotate_left; unfold x; clear x; rotate_left)
    | (extract_lets -useContext +onlyGivenNames x; revert x; intro _)
    | with_reducible refine xStore_keeps (sub_of (by decide) hp) ?_
    | with_reducible refine keepsP_fst (xStore_keeps (sub_of (by decide) hp) ?_)
    | with_reducible refine keepsP_eq (xStore_keeps (sub_of (by decide) hp) ?_) (by assumption)
    | with_reducible refine keeps_foldl (fun t a ht => ?_) ?_
    | with_reducible refine keepsP_foldl (fun t a ht => ?_) ?_
    | split
    | (clear_value *; split)
    | with_reducible refine keepsP_eq ?_ (by assumption)
    | with_reducible refine keepsO_eq ?_ (by assumption)
    | with_reducible refine keepsP_mk ?_

theorem grantStage_keeps {ps z} {w : Sys2Proof.Machine.XW} {id : Nat} (hp : [.regs, .mem, .mmu, .outbox, .bxl, .rtr, .xch, .bridge] ⊆ ps) (h0 : KeepsP ps z w) :
    KeepsP ps z (grantStage w id) := by
  unfold grantStage
  repeat' first
    | with_reducible assumption
    | with_reducible exact keepsP_fst (by assumption)
    | (extract_lets -useContext +onlyGivenNames x; refine (fun (hx : Keeps ps z x) => ?_) ?_; clear_value x; revert x; intro _ _; rotate_left; unfold x; clear x; rotate_left)
    | (extract_lets -useContext +onlyGivenNames x; refine (fun (hx : KeepsP ps z x) => ?_) ?_; clear_value x; revert x; intro _ _; rotate_left; unfold x; clear x; rotate_left)
    | (extract_lets -useContext +onlyGivenNames x; revert x; intro _)
    | with_reducible refine grantPieces_keeps (sub_of (by decide) hp) ?_
    | with_reducible refine xStore_keeps (sub_of (by decide) hp) ?_
    | with_reducible refine keepsP_fst (xStore_keeps (sub_of (by decide) hp) ?_)
    | with_reducible refine keepsP_eq (xStore_keeps (sub_of (by decide) hp) ?_) (by assumption)
    | with_reducible refine State.putXop_keeps (sub_of (by decide) hp) ?_
    | with_reducible refine xThen_keeps  ?_ (fun x0 hx0 => ?_)
    | with_reducible refine keepsP_fst (xThen_keeps  ?_ (fun x0 hx0 => ?_))
    | with_reducible refine keepsP_eq (xThen_keeps  ?_ (fun x0 hx0 => ?_)) (by assumption)
    | with_reducible refine keeps_foldl (fun t a ht => ?_) ?_
    | with_reducible refine keepsP_foldl (fun t a ht => ?_) ?_
    | split
    | (clear_value *; split)
    | with_reducible refine keepsP_eq ?_ (by assumption)
    | with_reducible refine keepsO_eq ?_ (by assumption)
    | with_reducible refine keepsP_mk ?_

theorem sendOutputs_keeps {ps z} {s : Sys2Proof.Machine.State} {id : Nat} (hp : [.xch] ⊆ ps) (h0 : Keeps ps z s) :
    Keeps ps z (sendOutputs s id) := by
  unfold sendOutputs
  repeat' first
    | with_reducible assumption
    | with_reducible exact keepsP_fst (by assumption)
    | (extract_lets -useContext +onlyGivenNames x; refine (fun (hx : Keeps ps z x) => ?_) ?_; clear_value x; revert x; intro _ _; rotate_left; unfold x; clear x; rotate_left)
    | (extract_lets -useContext +onlyGivenNames x; revert x; intro _)
    | with_reducible refine State.putXop_keeps (sub_of (by decide) hp) ?_
    | with_reducible refine queuePieces_keeps (sub_of (by decide) hp) ?_
    | with_reducible refine keeps_foldl (fun t a ht => ?_) ?_
    | with_reducible refine keepsP_foldl (fun t a ht => ?_) ?_
    | split
    | (clear_value *; split)
    | with_reducible refine keepsP_eq ?_ (by assumption)
    | with_reducible refine keepsO_eq ?_ (by assumption)
    | with_reducible refine keepsP_mk ?_

theorem readStage_keeps {ps z} {a0_ : Sys2Proof.Machine.Xop} {t : Nat} {a2_ : Sys2Proof.Machine.State} {a3_ : List Nat} (hp : [.regs, .mem, .mmu, .outbox, .bxl, .bridge] ⊆ ps) (h2 : Keeps ps z a2_) :
    KeepsP ps z (readStage a0_ t a2_ a3_) := by
  induction a3_ generalizing a0_ t a2_ with
  | nil =>
    unfold readStage
    repeat' first
      | with_reducible assumption
      | with_reducible exact keepsP_fst (by assumption)
      | (extract_lets -useContext +onlyGivenNames x; refine (fun (hx : Keeps ps z x) => ?_) ?_; clear_value x; revert x; intro _ _; rotate_left; unfold x; clear x; rotate_left)
      | (extract_lets -useContext +onlyGivenNames x; refine (fun (hx : KeepsP ps z x) => ?_) ?_; clear_value x; revert x; intro _ _; rotate_left; unfold x; clear x; rotate_left)
      | (extract_lets -useContext +onlyGivenNames x; revert x; intro _)
      | with_reducible refine xRead_keeps (sub_of (by decide) hp) ?_
      | with_reducible refine keepsP_fst (xRead_keeps (sub_of (by decide) hp) ?_)
      | with_reducible refine keepsP_eq (xRead_keeps (sub_of (by decide) hp) ?_) (by assumption)
      | split
      | (clear_value *; split)
      | with_reducible refine keepsP_eq ?_ (by assumption)
      | with_reducible refine keepsO_eq ?_ (by assumption)
      | with_reducible refine keepsP_mk ?_
  | cons hd tl ih =>
    unfold readStage
    repeat' first
      | with_reducible assumption
      | with_reducible exact keepsP_fst (by assumption)
      | (extract_lets -useContext +onlyGivenNames x; refine (fun (hx : Keeps ps z x) => ?_) ?_; clear_value x; revert x; intro _ _; rotate_left; unfold x; clear x; rotate_left)
      | (extract_lets -useContext +onlyGivenNames x; refine (fun (hx : KeepsP ps z x) => ?_) ?_; clear_value x; revert x; intro _ _; rotate_left; unfold x; clear x; rotate_left)
      | with_reducible refine ih ?_
      | with_reducible refine keepsP_fst (ih ?_)
      | with_reducible refine keepsP_eq (ih ?_) (by assumption)
      | (extract_lets -useContext +onlyGivenNames x; revert x; intro _)
      | with_reducible refine xRead_keeps (sub_of (by decide) hp) ?_
      | with_reducible refine keepsP_fst (xRead_keeps (sub_of (by decide) hp) ?_)
      | with_reducible refine keepsP_eq (xRead_keeps (sub_of (by decide) hp) ?_) (by assumption)
      | split
      | (clear_value *; split)
      | with_reducible refine keepsP_eq ?_ (by assumption)
      | with_reducible refine keepsO_eq ?_ (by assumption)
      | with_reducible refine keepsP_mk ?_

theorem combineRow_keeps {ps z} {w : Sys2Proof.Machine.XW} {id : Nat} {t : Nat} (hp : [.regs, .mem, .mmu, .outbox, .bxl, .rtr, .xch, .bridge] ⊆ ps) (h0 : KeepsP ps z w) :
    KeepsP ps z (combineRow w id t) := by
  unfold combineRow
  repeat' first
    | with_reducible assumption
    | with_reducible exact keepsP_fst (by assumption)
    | (extract_lets -useContext +onlyGivenNames x; refine (fun (hx : Keeps ps z x) => ?_) ?_; clear_value x; revert x; intro _ _; rotate_left; unfold x; clear x; rotate_left)
    | (extract_lets -useContext +onlyGivenNames x; refine (fun (hx : KeepsP ps z x) => ?_) ?_; clear_value x; revert x; intro _ _; rotate_left; unfold x; clear x; rotate_left)
    | (extract_lets -useContext +onlyGivenNames x; revert x; intro _)
    | with_reducible refine State.putXop_keeps (sub_of (by decide) hp) ?_
    | with_reducible refine accessFault_keeps (sub_of (by decide) hp) ?_
    | with_reducible refine readStage_keeps (sub_of (by decide) hp) ?_
    | with_reducible refine keepsP_fst (readStage_keeps (sub_of (by decide) hp) ?_)
    | with_reducible refine keepsP_eq (readStage_keeps (sub_of (by decide) hp) ?_) (by assumption)
    | with_reducible refine xStore_keeps (sub_of (by decide) hp) ?_
    | with_reducible refine keepsP_fst (xStore_keeps (sub_of (by decide) hp) ?_)
    | with_reducible refine keepsP_eq (xStore_keeps (sub_of (by decide) hp) ?_) (by assumption)
    | with_reducible refine xThen_keeps  ?_ (fun x0 hx0 => ?_)
    | with_reducible refine keepsP_fst (xThen_keeps  ?_ (fun x0 hx0 => ?_))
    | with_reducible refine keepsP_eq (xThen_keeps  ?_ (fun x0 hx0 => ?_)) (by assumption)
    | with_reducible refine keeps_foldl (fun t a ht => ?_) ?_
    | with_reducible refine keepsP_foldl (fun t a ht => ?_) ?_
    | split
    | (clear_value *; split)
    | with_reducible refine keepsP_eq ?_ (by assumption)
    | with_reducible refine keepsO_eq ?_ (by assumption)
    | with_reducible refine keepsP_mk ?_

theorem flushExpert_keeps {ps z} {w : Sys2Proof.Machine.XW} {id : Nat} (hp : [.regs, .mem, .mmu, .outbox, .bxl, .rtr, .xch, .bridge] ⊆ ps) (h0 : KeepsP ps z w) :
    KeepsP ps z (flushExpert w id) := by
  unfold flushExpert
  repeat' first
    | with_reducible assumption
    | with_reducible exact keepsP_fst (by assumption)
    | (extract_lets -useContext +onlyGivenNames x; refine (fun (hx : Keeps ps z x) => ?_) ?_; clear_value x; revert x; intro _ _; rotate_left; unfold x; clear x; rotate_left)
    | (extract_lets -useContext +onlyGivenNames x; refine (fun (hx : KeepsP ps z x) => ?_) ?_; clear_value x; revert x; intro _ _; rotate_left; unfold x; clear x; rotate_left)
    | (extract_lets -useContext +onlyGivenNames x; revert x; intro _)
    | with_reducible refine sendOutputs_keeps (sub_of (by decide) hp) ?_
    | with_reducible refine grantStage_keeps (sub_of (by decide) hp) ?_
    | with_reducible refine keepsP_fst (grantStage_keeps (sub_of (by decide) hp) ?_)
    | with_reducible refine keepsP_eq (grantStage_keeps (sub_of (by decide) hp) ?_) (by assumption)
    | with_reducible refine xThen_keeps  ?_ (fun x0 hx0 => ?_)
    | with_reducible refine keepsP_fst (xThen_keeps  ?_ (fun x0 hx0 => ?_))
    | with_reducible refine keepsP_eq (xThen_keeps  ?_ (fun x0 hx0 => ?_)) (by assumption)
    | with_reducible refine sendRows_keeps (sub_of (by decide) hp) ?_
    | with_reducible refine grantRows_keeps (sub_of (by decide) hp) ?_
    | split
    | (clear_value *; split)
    | with_reducible refine keepsP_eq ?_ (by assumption)
    | with_reducible refine keepsO_eq ?_ (by assumption)
    | with_reducible refine keepsP_mk ?_

theorem State.setSslot_keeps {ps z} {s : Sys2Proof.Machine.State} {i : Nat} {v : Sys2Proof.Machine.SSlot} (hp : [.cat] ⊆ ps) (h0 : Keeps ps z s) :
    Keeps ps z (State.setSslot s i v) := by
  unfold State.setSslot
  repeat' first
    | with_reducible assumption
    | with_reducible exact keepsP_fst (by assumption)
    | (extract_lets -useContext +onlyGivenNames x; refine (fun (hx : Keeps ps z x) => ?_) ?_; clear_value x; revert x; intro _ _; rotate_left; unfold x; clear x; rotate_left)
    | (extract_lets -useContext +onlyGivenNames x; revert x; intro _)
    | split
    | (clear_value *; split)
    | with_reducible refine keeps_with_cat (mem_of (by decide) hp) ?_
    | with_reducible refine keepsP_eq ?_ (by assumption)
    | with_reducible refine keepsO_eq ?_ (by assumption)
    | with_reducible refine keepsP_mk ?_

theorem slotEnd_keeps {ps z} {s : Sys2Proof.Machine.State} {a1_ : Sys2Proof.Machine.Xop} {ok : Bool} (hp : [.cat] ⊆ ps) (h0 : Keeps ps z s) :
    Keeps ps z (slotEnd s a1_ ok) := by
  unfold slotEnd
  repeat' first
    | with_reducible assumption
    | with_reducible exact keepsP_fst (by assumption)
    | (extract_lets -useContext +onlyGivenNames x; refine (fun (hx : Keeps ps z x) => ?_) ?_; clear_value x; revert x; intro _ _; rotate_left; unfold x; clear x; rotate_left)
    | (extract_lets -useContext +onlyGivenNames x; revert x; intro _)
    | with_reducible refine State.setSslot_keeps (sub_of (by decide) hp) ?_
    | split
    | (clear_value *; split)
    | with_reducible refine keepsP_eq ?_ (by assumption)
    | with_reducible refine keepsO_eq ?_ (by assumption)
    | with_reducible refine keepsP_mk ?_

set_option maxRecDepth 20000 in
theorem loseSlots_keeps {ps z} {s : Sys2Proof.Machine.State} {p : Sys2Proof.Machine.SSlot → Bool} (hp : [.xch, .cat] ⊆ ps) (h0 : Keeps ps z s) :
    Keeps ps z (loseSlots s p) := by
  unfold loseSlots
  repeat' first
    | with_reducible assumption
    | with_reducible exact keepsP_fst (by assumption)
    | (extract_lets -useContext +onlyGivenNames x; refine (fun (hx : Keeps ps z x) => ?_) ?_; clear_value x; revert x; intro _ _; rotate_left; unfold x; clear x; rotate_left)
    | (extract_lets -useContext +onlyGivenNames x; revert x; intro _)
    | with_reducible refine State.setSslot_keeps (sub_of (by decide) hp) ?_
    | with_reducible refine keeps_foldl (fun t a ht => ?_) ?_
    | with_reducible refine keepsP_foldl (fun t a ht => ?_) ?_
    | split
    | (clear_value *; split)
    | with_reducible refine keeps_with_xch (mem_of (by decide) hp) ?_
    | with_reducible refine keepsP_eq ?_ (by assumption)
    | with_reducible refine keepsO_eq ?_ (by assumption)
    | with_reducible refine keepsP_mk ?_

end Sys2Proof.Machine
end

