-- ==== Sys2Proof/Laws/FrameXchRows.lean ====
section
/-!
SUPPORT. Frames: for each operation of Sys2Proof/Machine/XchRows.lean, the parts of State it may change, and that it keeps the stores'
canonical form.
-/
namespace Sys2Proof.Machine

open Sys2Proof

theorem endReq_keeps {ps z} {s : Sys2Proof.Machine.State} {a1_ : Nat} {q : Sys2Proof.Machine.XReq} {status : Nat} {code : Nat} {detail : Nat} (hp : [.regs, .queues, .seq, .bridge] ⊆ ps) (h0 : Keeps ps z s) :
    Keeps ps z (endReq s a1_ q status code detail) := by
  unfold endReq
  repeat' first
    | with_reducible assumption
    | with_reducible exact keepsP_fst (by assumption)
    | (extract_lets -useContext +onlyGivenNames x; refine (fun (hx : Keeps ps z x) => ?_) ?_; clear_value x; revert x; intro _ _; rotate_left; unfold x; clear x; rotate_left)
    | (extract_lets -useContext +onlyGivenNames x; revert x; intro _)
    | with_reducible refine reportEngine_keeps (sub_of (by decide) hp) ?_
    | with_reducible refine seqFail_keeps (sub_of (by decide) hp) ?_
    | with_reducible refine State.setSeq_keeps (sub_of (by decide) hp) ?_
    | with_reducible refine State.bump_keeps (sub_of (by decide) hp) ?_
    | with_reducible refine State.setReg_keeps (sub_of (by decide) hp) ?_
    | split
    | (clear_value *; split)
    | with_reducible refine keepsP_eq ?_ (by assumption)
    | with_reducible refine keepsO_eq ?_ (by assumption)
    | with_reducible refine keepsP_mk ?_

theorem failBegin_keeps {ps z} {s : Sys2Proof.Machine.State} {a1_ : Nat} {q : Sys2Proof.Machine.XReq} {status : Nat} {code : Nat} (hp : [.regs, .mem, .queues, .seq, .outbox, .bridge] ⊆ ps) (h0 : Keeps ps z s) :
    Keeps ps z (failBegin s a1_ q status code) := by
  unfold failBegin
  repeat' first
    | with_reducible assumption
    | with_reducible exact keepsP_fst (by assumption)
    | (extract_lets -useContext +onlyGivenNames x; refine (fun (hx : Keeps ps z x) => ?_) ?_; clear_value x; revert x; intro _ _; rotate_left; unfold x; clear x; rotate_left)
    | (extract_lets -useContext +onlyGivenNames x; revert x; intro _)
    | with_reducible refine endReq_keeps (sub_of (by decide) hp) ?_
    | with_reducible refine capture_keeps (sub_of (by decide) hp) ?_
    | split
    | (clear_value *; split)
    | with_reducible refine keepsP_eq ?_ (by assumption)
    | with_reducible refine keepsO_eq ?_ (by assumption)
    | with_reducible refine keepsP_mk ?_

theorem endOp_keeps {ps z} {s : Sys2Proof.Machine.State} {a1_ : Sys2Proof.Machine.Xop} {status : Nat} {code : Nat} {detail : Nat} (hp : [.regs, .ctx, .queues, .seq, .xch, .cat, .bridge] ⊆ ps) (h0 : Keeps ps z s) :
    Keeps ps z (endOp s a1_ status code detail) := by
  unfold endOp
  repeat' first
    | with_reducible assumption
    | with_reducible exact keepsP_fst (by assumption)
    | (extract_lets -useContext +onlyGivenNames x; refine (fun (hx : Keeps ps z x) => ?_) ?_; clear_value x; revert x; intro _ _; rotate_left; unfold x; clear x; rotate_left)
    | (extract_lets -useContext +onlyGivenNames x; revert x; intro _)
    | with_reducible refine endReq_keeps (sub_of (by decide) hp) ?_
    | with_reducible refine mergeFlags_keeps (sub_of (by decide) hp) ?_
    | with_reducible refine slotEnd_keeps (sub_of (by decide) hp) ?_
    | split
    | (clear_value *; split)
    | with_reducible refine keeps_with_xch (mem_of (by decide) hp) ?_
    | with_reducible refine keepsP_eq ?_ (by assumption)
    | with_reducible refine keepsO_eq ?_ (by assumption)
    | with_reducible refine keepsP_mk ?_

theorem flushOp_keeps {ps z} {w : Sys2Proof.Machine.XW} {id : Nat} (hp : [.regs, .mem, .mmu, .ctx, .outbox, .draws, .bxl, .pwr, .rtr, .xch, .bridge] ⊆ ps) (h0 : KeepsP ps z w) :
    KeepsP ps z (flushOp w id) := by
  unfold flushOp
  repeat' first
    | with_reducible assumption
    | with_reducible exact keepsP_fst (by assumption)
    | (extract_lets -useContext +onlyGivenNames x; refine (fun (hx : Keeps ps z x) => ?_) ?_; clear_value x; revert x; intro _ _; rotate_left; unfold x; clear x; rotate_left)
    | (extract_lets -useContext +onlyGivenNames x; refine (fun (hx : KeepsP ps z x) => ?_) ?_; clear_value x; revert x; intro _ _; rotate_left; unfold x; clear x; rotate_left)
    | (extract_lets -useContext +onlyGivenNames x; revert x; intro _)
    | with_reducible refine flushColl_keeps (sub_of (by decide) hp) ?_
    | with_reducible refine keepsP_fst (flushColl_keeps (sub_of (by decide) hp) ?_)
    | with_reducible refine keepsP_eq (flushColl_keeps (sub_of (by decide) hp) ?_) (by assumption)
    | with_reducible refine flushExpert_keeps (sub_of (by decide) hp) ?_
    | with_reducible refine keepsP_fst (flushExpert_keeps (sub_of (by decide) hp) ?_)
    | with_reducible refine keepsP_eq (flushExpert_keeps (sub_of (by decide) hp) ?_) (by assumption)
    | with_reducible refine sendQueued_keeps (sub_of (by decide) hp) ?_
    | with_reducible refine xThen_keeps  ?_ (fun x0 hx0 => ?_)
    | with_reducible refine keepsP_fst (xThen_keeps  ?_ (fun x0 hx0 => ?_))
    | with_reducible refine keepsP_eq (xThen_keeps  ?_ (fun x0 hx0 => ?_)) (by assumption)
    | split
    | (clear_value *; split)
    | with_reducible refine keepsP_eq ?_ (by assumption)
    | with_reducible refine keepsO_eq ?_ (by assumption)
    | with_reducible refine keepsP_mk ?_

theorem sendHalf_keeps {ps z} {s : Sys2Proof.Machine.State} {a1_ : Nat} (hp : [.regs, .ctx, .outbox, .draws, .pwr, .rtr, .xch] ⊆ ps) (h0 : Keeps ps z s) :
    Keeps ps z (sendHalf s a1_) := by
  unfold sendHalf
  repeat' first
    | with_reducible assumption
    | with_reducible exact keepsP_fst (by assumption)
    | (extract_lets -useContext +onlyGivenNames x; refine (fun (hx : Keeps ps z x) => ?_) ?_; clear_value x; revert x; intro _ _; rotate_left; unfold x; clear x; rotate_left)
    | (extract_lets -useContext +onlyGivenNames x; revert x; intro _)
    | with_reducible refine sendQueued_keeps (sub_of (by decide) hp) ?_
    | with_reducible refine keeps_foldl (fun t a ht => ?_) ?_
    | with_reducible refine keepsP_foldl (fun t a ht => ?_) ?_
    | split
    | (clear_value *; split)
    | with_reducible refine keepsP_eq ?_ (by assumption)
    | with_reducible refine keepsO_eq ?_ (by assumption)
    | with_reducible refine keepsP_mk ?_

theorem flushHalf_keeps {ps z} {w : Sys2Proof.Machine.XW} {a1_ : Nat} (hp : [.regs, .mem, .mmu, .ctx, .outbox, .draws, .bxl, .pwr, .rtr, .xch, .bridge] ⊆ ps) (h0 : KeepsP ps z w) :
    KeepsP ps z (flushHalf w a1_) := by
  unfold flushHalf
  repeat' first
    | with_reducible assumption
    | with_reducible exact keepsP_fst (by assumption)
    | (extract_lets -useContext +onlyGivenNames x; refine (fun (hx : Keeps ps z x) => ?_) ?_; clear_value x; revert x; intro _ _; rotate_left; unfold x; clear x; rotate_left)
    | (extract_lets -useContext +onlyGivenNames x; refine (fun (hx : KeepsP ps z x) => ?_) ?_; clear_value x; revert x; intro _ _; rotate_left; unfold x; clear x; rotate_left)
    | (extract_lets -useContext +onlyGivenNames x; revert x; intro _)
    | with_reducible refine flushOp_keeps (sub_of (by decide) hp) ?_
    | with_reducible refine keepsP_fst (flushOp_keeps (sub_of (by decide) hp) ?_)
    | with_reducible refine keepsP_eq (flushOp_keeps (sub_of (by decide) hp) ?_) (by assumption)
    | with_reducible refine keeps_foldl (fun t a ht => ?_) ?_
    | with_reducible refine keepsP_foldl (fun t a ht => ?_) ?_
    | split
    | (clear_value *; split)
    | with_reducible refine keepsP_eq ?_ (by assumption)
    | with_reducible refine keepsO_eq ?_ (by assumption)
    | with_reducible refine keepsP_mk ?_

theorem takeCtrl_keeps {ps z} {s : Sys2Proof.Machine.State} {a1_ : Sys2Proof.Machine.Xop} {k : Sys2Proof.CtrlPkt} (hp : [.regs, .mem, .outbox, .rtr, .xch, .bridge] ⊆ ps) (h0 : Keeps ps z s) :
    Keeps ps z (takeCtrl s a1_ k) := by
  unfold takeCtrl
  repeat' first
    | with_reducible assumption
    | with_reducible exact keepsP_fst (by assumption)
    | (extract_lets -useContext +onlyGivenNames x; refine (fun (hx : Keeps ps z x) => ?_) ?_; clear_value x; revert x; intro _ _; rotate_left; unfold x; clear x; rotate_left)
    | (extract_lets -useContext +onlyGivenNames x; have _hx : ∀ a, x a = x a := fun _ => rfl; clear _hx; unfold x; clear x)
    | (extract_lets -useContext +onlyGivenNames x; revert x; intro _)
    | with_reducible refine toRank_keeps (sub_of (by decide) hp) ?_
    | with_reducible refine addMissing_keeps (sub_of (by decide) hp) ?_
    | with_reducible refine State.putXop_keeps (sub_of (by decide) hp) ?_
    | with_reducible refine abandonAll_keeps (sub_of (by decide) hp) ?_
    | with_reducible refine endEarly_keeps (sub_of (by decide) hp) ?_
    | with_reducible refine rtrEvent_keeps (sub_of (by decide) hp) ?_
    | with_reducible refine keeps_foldl (fun t a ht => ?_) ?_
    | with_reducible refine keepsP_foldl (fun t a ht => ?_) ?_
    | split
    | (clear_value *; split)
    | with_reducible refine keepsP_eq ?_ (by assumption)
    | with_reducible refine keepsO_eq ?_ (by assumption)
    | with_reducible refine keepsP_mk ?_

theorem ctrlRx_keeps {ps z} {a0_ : Nat} {k : Sys2Proof.CtrlPkt} {s : Sys2Proof.Machine.State} (hp : [.regs, .mem, .mmu, .ctx, .outbox, .draws, .bxl, .pwr, .rtr, .xch, .bridge] ⊆ ps) (h2 : Keeps ps z s) :
    KeepsR ps z (ctrlRx a0_ k s) := by
  unfold ctrlRx
  repeat' first
    | with_reducible assumption
    | with_reducible exact keepsP_fst (by assumption)
    | (extract_lets -useContext +onlyGivenNames x; refine (fun (hx : Keeps ps z x) => ?_) ?_; clear_value x; revert x; intro _ _; rotate_left; unfold x; clear x; rotate_left)
    | (extract_lets -useContext +onlyGivenNames x; refine (fun (hx : KeepsP ps z x) => ?_) ?_; clear_value x; revert x; intro _ _; rotate_left; unfold x; clear x; rotate_left)
    | (extract_lets -useContext +onlyGivenNames x; revert x; intro _)
    | with_reducible refine keepsR_next ?_
    | with_reducible exact keepsR_fault
    | with_reducible refine rtrEvent_keeps (sub_of (by decide) hp) ?_
    | with_reducible refine takeCtrl_keeps (sub_of (by decide) hp) ?_
    | with_reducible refine flushHalf_keeps (sub_of (by decide) hp) ?_
    | with_reducible refine keepsP_fst (flushHalf_keeps (sub_of (by decide) hp) ?_)
    | with_reducible refine keepsP_eq (flushHalf_keeps (sub_of (by decide) hp) ?_) (by assumption)
    | with_reducible refine xEvent_keeps (sub_of (by decide) hp) ?_ (fun x0 hx0 => ?_)
    | with_reducible refine keepsR_eq (xEvent_keeps (sub_of (by decide) hp) ?_ (fun x0 hx0 => ?_)) (by assumption)
    | split
    | (clear_value *; split)
    | with_reducible refine keeps_with_xch (mem_of (by decide) hp) ?_
    | with_reducible refine keepsP_eq ?_ (by assumption)
    | with_reducible refine keepsO_eq ?_ (by assumption)
    | with_reducible refine keepsP_mk ?_

theorem execGrantRx_keeps {ps z} {a0_ : Sys2Proof.HalfId} {src : Nat} {op : Nat} {pcheck : Nat} {use : Sys2Proof.XUse} {handle : Nat} {value : Nat} {rows : List (Nat × Nat)} {s : Sys2Proof.Machine.State} (hp : [.regs, .mem, .mmu, .ctx, .outbox, .draws, .bxl, .pwr, .rtr, .xch, .bridge] ⊆ ps) (h8 : Keeps ps z s) :
    KeepsR ps z (execGrantRx a0_ src op pcheck use handle value rows s) := by
  unfold execGrantRx
  repeat' first
    | with_reducible assumption
    | with_reducible exact keepsP_fst (by assumption)
    | (extract_lets -useContext +onlyGivenNames x; refine (fun (hx : Keeps ps z x) => ?_) ?_; clear_value x; revert x; intro _ _; rotate_left; unfold x; clear x; rotate_left)
    | (extract_lets -useContext +onlyGivenNames x; revert x; intro _)
    | with_reducible refine keepsR_next ?_
    | with_reducible exact keepsR_fault
    | with_reducible refine ctrlRx_keeps (sub_of (by decide) hp) ?_
    | with_reducible refine keepsR_eq (ctrlRx_keeps (sub_of (by decide) hp) ?_) (by assumption)
    | split
    | (clear_value *; split)
    | with_reducible refine keepsP_eq ?_ (by assumption)
    | with_reducible refine keepsO_eq ?_ (by assumption)
    | with_reducible refine keepsP_mk ?_

theorem execCountRx_keeps {ps z} {a0_ : Sys2Proof.HalfId} {src : Nat} {op : Nat} {pcheck : Nat} {value : Nat} {counts : List Nat} {tokens : List (List Nat)} {s : Sys2Proof.Machine.State} (hp : [.regs, .mem, .mmu, .ctx, .outbox, .draws, .bxl, .pwr, .rtr, .xch, .bridge] ⊆ ps) (h7 : Keeps ps z s) :
    KeepsR ps z (execCountRx a0_ src op pcheck value counts tokens s) := by
  unfold execCountRx
  repeat' first
    | with_reducible assumption
    | with_reducible exact keepsP_fst (by assumption)
    | (extract_lets -useContext +onlyGivenNames x; refine (fun (hx : Keeps ps z x) => ?_) ?_; clear_value x; revert x; intro _ _; rotate_left; unfold x; clear x; rotate_left)
    | (extract_lets -useContext +onlyGivenNames x; revert x; intro _)
    | with_reducible refine keepsR_next ?_
    | with_reducible exact keepsR_fault
    | with_reducible refine ctrlRx_keeps (sub_of (by decide) hp) ?_
    | with_reducible refine keepsR_eq (ctrlRx_keeps (sub_of (by decide) hp) ?_) (by assumption)
    | split
    | (clear_value *; split)
    | with_reducible refine keepsP_eq ?_ (by assumption)
    | with_reducible refine keepsO_eq ?_ (by assumption)
    | with_reducible refine keepsP_mk ?_

theorem execEndRx_keeps {ps z} {a0_ : Sys2Proof.HalfId} {src : Nat} {op : Nat} {rank : Nat} {s : Sys2Proof.Machine.State} (hp : [.regs, .mem, .mmu, .ctx, .outbox, .draws, .bxl, .pwr, .rtr, .xch, .bridge] ⊆ ps) (h4 : Keeps ps z s) :
    KeepsR ps z (execEndRx a0_ src op rank s) := by
  unfold execEndRx
  repeat' first
    | with_reducible assumption
    | with_reducible exact keepsP_fst (by assumption)
    | (extract_lets -useContext +onlyGivenNames x; refine (fun (hx : Keeps ps z x) => ?_) ?_; clear_value x; revert x; intro _ _; rotate_left; unfold x; clear x; rotate_left)
    | (extract_lets -useContext +onlyGivenNames x; revert x; intro _)
    | with_reducible refine keepsR_next ?_
    | with_reducible exact keepsR_fault
    | with_reducible refine ctrlRx_keeps (sub_of (by decide) hp) ?_
    | with_reducible refine keepsR_eq (ctrlRx_keeps (sub_of (by decide) hp) ?_) (by assumption)
    | split
    | (clear_value *; split)
    | with_reducible refine keepsP_eq ?_ (by assumption)
    | with_reducible refine keepsO_eq ?_ (by assumption)
    | with_reducible refine keepsP_mk ?_

theorem execAbandonRx_keeps {ps z} {a0_ : Sys2Proof.HalfId} {src : Sys2Proof.Abandon} {op : Nat} {s : Sys2Proof.Machine.State} (hp : [.regs, .mem, .mmu, .ctx, .outbox, .draws, .bxl, .pwr, .rtr, .xch, .bridge] ⊆ ps) (h3 : Keeps ps z s) :
    KeepsR ps z (execAbandonRx a0_ src op s) := by
  unfold execAbandonRx
  repeat' first
    | with_reducible assumption
    | with_reducible exact keepsP_fst (by assumption)
    | (extract_lets -useContext +onlyGivenNames x; refine (fun (hx : Keeps ps z x) => ?_) ?_; clear_value x; revert x; intro _ _; rotate_left; unfold x; clear x; rotate_left)
    | (extract_lets -useContext +onlyGivenNames x; revert x; intro _)
    | with_reducible refine keepsR_next ?_
    | with_reducible exact keepsR_fault
    | with_reducible refine ctrlRx_keeps (sub_of (by decide) hp) ?_
    | with_reducible refine keepsR_eq (ctrlRx_keeps (sub_of (by decide) hp) ?_) (by assumption)
    | split
    | (clear_value *; split)
    | with_reducible refine keepsP_eq ?_ (by assumption)
    | with_reducible refine keepsO_eq ?_ (by assumption)
    | with_reducible refine keepsP_mk ?_

theorem execFencedNoticeRx_keeps {ps z} {a0_ : Sys2Proof.HalfId} {op : Nat} {fenced : Nat} {s : Sys2Proof.Machine.State} (hp : [.regs, .mem, .mmu, .ctx, .outbox, .draws, .bxl, .pwr, .rtr, .xch, .bridge] ⊆ ps) (h3 : Keeps ps z s) :
    KeepsR ps z (execFencedNoticeRx a0_ op fenced s) := by
  unfold execFencedNoticeRx
  repeat' first
    | with_reducible assumption
    | with_reducible exact keepsP_fst (by assumption)
    | (extract_lets -useContext +onlyGivenNames x; refine (fun (hx : Keeps ps z x) => ?_) ?_; clear_value x; revert x; intro _ _; rotate_left; unfold x; clear x; rotate_left)
    | (extract_lets -useContext +onlyGivenNames x; revert x; intro _)
    | with_reducible refine keepsR_next ?_
    | with_reducible exact keepsR_fault
    | with_reducible refine ctrlRx_keeps (sub_of (by decide) hp) ?_
    | with_reducible refine keepsR_eq (ctrlRx_keeps (sub_of (by decide) hp) ?_) (by assumption)
    | split
    | (clear_value *; split)
    | with_reducible refine keepsP_eq ?_ (by assumption)
    | with_reducible refine keepsO_eq ?_ (by assumption)
    | with_reducible refine keepsP_mk ?_

theorem execEarlyPacketExpiry_keeps {ps z} {i : Nat} {s : Sys2Proof.Machine.State} (hp : [.regs, .mem, .outbox, .xch, .bridge] ⊆ ps) (h1 : Keeps ps z s) :
    KeepsR ps z (execEarlyPacketExpiry i s) := by
  unfold execEarlyPacketExpiry
  repeat' first
    | with_reducible assumption
    | with_reducible exact keepsP_fst (by assumption)
    | (extract_lets -useContext +onlyGivenNames x; refine (fun (hx : Keeps ps z x) => ?_) ?_; clear_value x; revert x; intro _ _; rotate_left; unfold x; clear x; rotate_left)
    | (extract_lets -useContext +onlyGivenNames x; revert x; intro _)
    | with_reducible refine keepsR_next ?_
    | with_reducible exact keepsR_fault
    | with_reducible refine rtrEvent_keeps (sub_of (by decide) hp) ?_
    | split
    | (clear_value *; split)
    | with_reducible refine keeps_with_xch (mem_of (by decide) hp) ?_
    | with_reducible refine keepsP_eq ?_ (by assumption)
    | with_reducible refine keepsO_eq ?_ (by assumption)
    | with_reducible refine keepsP_mk ?_

theorem execMessagePacketRx_keeps {ps z} {a0_ : Sys2Proof.HalfId} {k : Sys2Proof.DataPkt} {s : Sys2Proof.Machine.State} (hp : [.regs, .mem, .mmu, .outbox, .bxl, .rtr, .xch, .bridge] ⊆ ps) (h2 : Keeps ps z s) :
    KeepsR ps z (execMessagePacketRx a0_ k s) := by
  unfold execMessagePacketRx
  repeat' first
    | with_reducible assumption
    | with_reducible exact keepsP_fst (by assumption)
    | (extract_lets -useContext +onlyGivenNames x; refine (fun (hx : Keeps ps z x) => ?_) ?_; clear_value x; revert x; intro _ _; rotate_left; unfold x; clear x; rotate_left)
    | (extract_lets -useContext +onlyGivenNames x; refine (fun (hx : KeepsP ps z x) => ?_) ?_; clear_value x; revert x; intro _ _; rotate_left; unfold x; clear x; rotate_left)
    | (extract_lets -useContext +onlyGivenNames x; revert x; intro _)
    | with_reducible refine keepsR_next ?_
    | with_reducible exact keepsR_fault
    | with_reducible refine placeData_keeps (sub_of (by decide) hp) ?_
    | with_reducible refine keepsP_fst (placeData_keeps (sub_of (by decide) hp) ?_)
    | with_reducible refine keepsP_eq (placeData_keeps (sub_of (by decide) hp) ?_) (by assumption)
    | with_reducible refine xThen_keeps  ?_ (fun x0 hx0 => ?_)
    | with_reducible refine keepsP_fst (xThen_keeps  ?_ (fun x0 hx0 => ?_))
    | with_reducible refine keepsP_eq (xThen_keeps  ?_ (fun x0 hx0 => ?_)) (by assumption)
    | with_reducible refine xEvent_keeps (sub_of (by decide) hp) ?_ (fun x0 hx0 => ?_)
    | with_reducible refine keepsR_eq (xEvent_keeps (sub_of (by decide) hp) ?_ (fun x0 hx0 => ?_)) (by assumption)
    | with_reducible refine putRec_keeps (sub_of (by decide) hp) ?_
    | with_reducible refine rtrEvent_keeps (sub_of (by decide) hp) ?_
    | split
    | (clear_value *; split)
    | with_reducible refine keepsP_eq ?_ (by assumption)
    | with_reducible refine keepsO_eq ?_ (by assumption)
    | with_reducible refine keepsP_mk ?_

theorem deliver_keeps {ps z} {s : Sys2Proof.Machine.State} {a1_ : Sys2Proof.Machine.Xop} {r : Sys2Proof.Machine.MsgRec} {b : List Sys2Proof.Byte} {p : List Bool} (hp : [.regs, .mem, .mmu, .ctx, .outbox, .bxl, .rtr, .xch, .bridge] ⊆ ps) (h0 : Keeps ps z s) :
    KeepsP ps z (deliver s a1_ r b p) := by
  unfold deliver
  repeat' first
    | with_reducible assumption
    | with_reducible exact keepsP_fst (by assumption)
    | (extract_lets -useContext +onlyGivenNames x; refine (fun (hx : Keeps ps z x) => ?_) ?_; clear_value x; revert x; intro _ _; rotate_left; unfold x; clear x; rotate_left)
    | (extract_lets -useContext +onlyGivenNames x; refine (fun (hx : KeepsP ps z x) => ?_) ?_; clear_value x; revert x; intro _ _; rotate_left; unfold x; clear x; rotate_left)
    | (extract_lets -useContext +onlyGivenNames x; revert x; intro _)
    | with_reducible refine takeSeg_keeps (sub_of (by decide) hp) ?_
    | with_reducible refine keepsP_fst (takeSeg_keeps (sub_of (by decide) hp) ?_)
    | with_reducible refine keepsP_eq (takeSeg_keeps (sub_of (by decide) hp) ?_) (by assumption)
    | with_reducible refine takeLate_keeps (sub_of (by decide) hp) ?_
    | with_reducible refine keepsP_fst (takeLate_keeps (sub_of (by decide) hp) ?_)
    | with_reducible refine keepsP_eq (takeLate_keeps (sub_of (by decide) hp) ?_) (by assumption)
    | with_reducible refine State.putAny_keeps (sub_of (by decide) hp) ?_
    | with_reducible refine ctxCount_keeps (sub_of (by decide) hp) ?_
    | with_reducible refine countEvent_keeps (sub_of (by decide) hp) ?_
    | split
    | (clear_value *; split)
    | with_reducible refine keepsP_eq ?_ (by assumption)
    | with_reducible refine keepsO_eq ?_ (by assumption)
    | with_reducible refine keepsP_mk ?_

theorem completeMsg_keeps {ps z} {a0_ : Nat} {src : Nat} {msgId : Nat} {slot : Bool} {s : Sys2Proof.Machine.State} (hp : [.regs, .mem, .mmu, .ctx, .outbox, .draws, .bxl, .pwr, .rtr, .xch, .bridge] ⊆ ps) (h4 : Keeps ps z s) :
    KeepsR ps z (completeMsg a0_ src msgId slot s) := by
  unfold completeMsg
  repeat' first
    | with_reducible assumption
    | with_reducible exact keepsP_fst (by assumption)
    | (extract_lets -useContext +onlyGivenNames x; refine (fun (hx : Keeps ps z x) => ?_) ?_; clear_value x; revert x; intro _ _; rotate_left; unfold x; clear x; rotate_left)
    | (extract_lets -useContext +onlyGivenNames x; refine (fun (hx : KeepsP ps z x) => ?_) ?_; clear_value x; revert x; intro _ _; rotate_left; unfold x; clear x; rotate_left)
    | (extract_lets -useContext +onlyGivenNames x; revert x; intro _)
    | with_reducible refine keepsR_next ?_
    | with_reducible exact keepsR_fault
    | with_reducible refine xThen_keeps  ?_ (fun x0 hx0 => ?_)
    | with_reducible refine keepsP_fst (xThen_keeps  ?_ (fun x0 hx0 => ?_))
    | with_reducible refine keepsP_eq (xThen_keeps  ?_ (fun x0 hx0 => ?_)) (by assumption)
    | with_reducible refine flushHalf_keeps (sub_of (by decide) hp) ?_
    | with_reducible refine keepsP_fst (flushHalf_keeps (sub_of (by decide) hp) ?_)
    | with_reducible refine keepsP_eq (flushHalf_keeps (sub_of (by decide) hp) ?_) (by assumption)
    | with_reducible refine deliver_keeps (sub_of (by decide) hp) ?_
    | with_reducible refine keepsP_fst (deliver_keeps (sub_of (by decide) hp) ?_)
    | with_reducible refine keepsP_eq (deliver_keeps (sub_of (by decide) hp) ?_) (by assumption)
    | with_reducible refine xEvent_keeps (sub_of (by decide) hp) ?_ (fun x0 hx0 => ?_)
    | with_reducible refine keepsR_eq (xEvent_keeps (sub_of (by decide) hp) ?_ (fun x0 hx0 => ?_)) (by assumption)
    | with_reducible refine putRec_keeps (sub_of (by decide) hp) ?_
    | split
    | (clear_value *; split)
    | with_reducible refine keepsP_eq ?_ (by assumption)
    | with_reducible refine keepsO_eq ?_ (by assumption)
    | with_reducible refine keepsP_mk ?_

theorem execMessageCompletion_keeps {ps z} {a0_ : Sys2Proof.HalfId} {src : Nat} {msgId : Nat} {s : Sys2Proof.Machine.State} (hp : [.regs, .mem, .mmu, .ctx, .outbox, .draws, .bxl, .pwr, .rtr, .xch, .bridge] ⊆ ps) (h3 : Keeps ps z s) :
    KeepsR ps z (execMessageCompletion a0_ src msgId s) := by
  unfold execMessageCompletion
  repeat' first
    | with_reducible assumption
    | with_reducible exact keepsP_fst (by assumption)
    | (extract_lets -useContext +onlyGivenNames x; refine (fun (hx : Keeps ps z x) => ?_) ?_; clear_value x; revert x; intro _ _; rotate_left; unfold x; clear x; rotate_left)
    | (extract_lets -useContext +onlyGivenNames x; revert x; intro _)
    | with_reducible refine keepsR_next ?_
    | with_reducible exact keepsR_fault
    | with_reducible refine completeMsg_keeps (sub_of (by decide) hp) ?_
    | with_reducible refine keepsR_eq (completeMsg_keeps (sub_of (by decide) hp) ?_) (by assumption)
    | split
    | (clear_value *; split)
    | with_reducible refine keepsP_eq ?_ (by assumption)
    | with_reducible refine keepsO_eq ?_ (by assumption)
    | with_reducible refine keepsP_mk ?_

theorem execReductionSlotOperand_keeps {ps z} {a0_ : Sys2Proof.HalfId} {src : Nat} {msgId : Nat} {s : Sys2Proof.Machine.State} (hp : [.regs, .mem, .mmu, .ctx, .outbox, .draws, .bxl, .pwr, .rtr, .xch, .bridge] ⊆ ps) (h3 : Keeps ps z s) :
    KeepsR ps z (execReductionSlotOperand a0_ src msgId s) := by
  unfold execReductionSlotOperand
  repeat' first
    | with_reducible assumption
    | with_reducible exact keepsP_fst (by assumption)
    | (extract_lets -useContext +onlyGivenNames x; refine (fun (hx : Keeps ps z x) => ?_) ?_; clear_value x; revert x; intro _ _; rotate_left; unfold x; clear x; rotate_left)
    | (extract_lets -useContext +onlyGivenNames x; revert x; intro _)
    | with_reducible refine keepsR_next ?_
    | with_reducible exact keepsR_fault
    | with_reducible refine completeMsg_keeps (sub_of (by decide) hp) ?_
    | with_reducible refine keepsR_eq (completeMsg_keeps (sub_of (by decide) hp) ?_) (by assumption)
    | split
    | (clear_value *; split)
    | with_reducible refine keepsP_eq ?_ (by assumption)
    | with_reducible refine keepsO_eq ?_ (by assumption)
    | with_reducible refine keepsP_mk ?_

theorem checkRead_keeps {ps z} {s : Sys2Proof.Machine.State} {a1_ : Nat} {c : Nat} {va : Nat} {len : Nat} (hp : [.regs, .mem, .mmu, .outbox, .bxl, .bridge] ⊆ ps) (h0 : Keeps ps z s) :
    KeepsP ps z (checkRead s a1_ c va len) := by
  unfold checkRead
  repeat' first
    | with_reducible assumption
    | with_reducible exact keepsP_fst (by assumption)
    | (extract_lets -useContext +onlyGivenNames x; refine (fun (hx : Keeps ps z x) => ?_) ?_; clear_value x; revert x; intro _ _; rotate_left; unfold x; clear x; rotate_left)
    | (extract_lets -useContext +onlyGivenNames x; refine (fun (hx : KeepsP ps z x) => ?_) ?_; clear_value x; revert x; intro _ _; rotate_left; unfold x; clear x; rotate_left)
    | (extract_lets -useContext +onlyGivenNames x; revert x; intro _)
    | with_reducible refine memRead_keeps (sub_of (by decide) hp) ?_
    | with_reducible refine keepsP_fst (memRead_keeps (sub_of (by decide) hp) ?_)
    | with_reducible refine keepsP_eq (memRead_keeps (sub_of (by decide) hp) ?_) (by assumption)
    | split
    | (clear_value *; split)
    | with_reducible refine keepsP_eq ?_ (by assumption)
    | with_reducible refine keepsO_eq ?_ (by assumption)
    | with_reducible refine keepsP_mk ?_

theorem readTables_keeps {ps z} {a0_ : Nat} {c : Nat} {a2_ : Sys2Proof.Machine.State} {a3_ : List (Nat × Nat)} (hp : [.regs, .mem, .mmu, .outbox, .bxl, .bridge] ⊆ ps) (h2 : Keeps ps z a2_) :
    KeepsP ps z (readTables a0_ c a2_ a3_) := by
  induction a3_ generalizing a0_ c a2_ with
  | nil =>
    unfold readTables
    repeat' first
      | with_reducible assumption
      | with_reducible exact keepsP_fst (by assumption)
      | (extract_lets -useContext +onlyGivenNames x; refine (fun (hx : Keeps ps z x) => ?_) ?_; clear_value x; revert x; intro _ _; rotate_left; unfold x; clear x; rotate_left)
      | (extract_lets -useContext +onlyGivenNames x; refine (fun (hx : KeepsP ps z x) => ?_) ?_; clear_value x; revert x; intro _ _; rotate_left; unfold x; clear x; rotate_left)
      | (extract_lets -useContext +onlyGivenNames x; revert x; intro _)
      | with_reducible refine checkRead_keeps (sub_of (by decide) hp) ?_
      | with_reducible refine keepsP_fst (checkRead_keeps (sub_of (by decide) hp) ?_)
      | with_reducible refine keepsP_eq (checkRead_keeps (sub_of (by decide) hp) ?_) (by assumption)
      | split
      | (clear_value *; split)
      | with_reducible refine keepsP_eq ?_ (by assumption)
      | with_reducible refine keepsO_eq ?_ (by assumption)
      | with_reducible refine keepsP_mk ?_
  | cons hd tl ih =>
    unfold readTables
    repeat' first
      | with_reducible assumption
      | with_reducible exact keepsP_fst (by assumption)
      | (extract_lets -useContext +onlyGivenNames x; refine (fun (hx : Keeps ps z x) => ?_) ?_; clear_value x; revert x; intro _ _; rotate_left; unfold x; clear x; rotate_left)
      | (extract_lets -useContext +onlyGivenNames x; refine (fun (hx : KeepsP ps z x) => ?_) ?_; clear_value x; revert x; intro _ _; rotate_left; unfold x; clear x; rotate_left)
      | with_reducible refine ih ?_
      | with_reducible refine keepsP_fst (ih ?_)
      | with_reducible refine keepsP_eq (ih ?_) (by assumption)
      | (extract_lets -useContext +onlyGivenNames x; revert x; intro _)
      | with_reducible refine checkRead_keeps (sub_of (by decide) hp) ?_
      | with_reducible refine keepsP_fst (checkRead_keeps (sub_of (by decide) hp) ?_)
      | with_reducible refine keepsP_eq (checkRead_keeps (sub_of (by decide) hp) ?_) (by assumption)
      | split
      | (clear_value *; split)
      | with_reducible refine keepsP_eq ?_ (by assumption)
      | with_reducible refine keepsO_eq ?_ (by assumption)
      | with_reducible refine keepsP_mk ?_

theorem takeCarry_keeps {ps z} {w : Sys2Proof.Machine.XW} {a1_ : Sys2Proof.Machine.Xop} (hp : [.regs, .mem, .mmu, .ctx, .queues, .outbox, .bxl, .rtr, .xch, .bridge] ⊆ ps) (h0 : KeepsP ps z w) :
    KeepsP ps z (takeCarry w a1_) := by
  unfold takeCarry
  repeat' first
    | with_reducible assumption
    | with_reducible exact keepsP_fst (by assumption)
    | (extract_lets -useContext +onlyGivenNames x; refine (fun (hx : Keeps ps z x) => ?_) ?_; clear_value x; revert x; intro _ _; rotate_left; unfold x; clear x; rotate_left)
    | (extract_lets -useContext +onlyGivenNames x; refine (fun (hx : KeepsP ps z x) => ?_) ?_; clear_value x; revert x; intro _ _; rotate_left; unfold x; clear x; rotate_left)
    | (extract_lets -useContext +onlyGivenNames x; have _hx : ∀ a, x a = x a := fun _ => rfl; clear _hx; unfold x; clear x)
    | (extract_lets -useContext +onlyGivenNames x; revert x; intro _)
    | with_reducible refine State.bump_keeps (sub_of (by decide) hp) ?_
    | with_reducible refine drainLate_keeps (sub_of (by decide) hp) ?_
    | with_reducible refine keepsP_fst (drainLate_keeps (sub_of (by decide) hp) ?_)
    | with_reducible refine keepsP_eq (drainLate_keeps (sub_of (by decide) hp) ?_) (by assumption)
    | with_reducible refine logChoice_keeps (sub_of (by decide) hp) ?_
    | with_reducible refine keepsP_fst (logChoice_keeps (sub_of (by decide) hp) ?_)
    | with_reducible refine keepsP_eq (logChoice_keeps (sub_of (by decide) hp) ?_) (by assumption)
    | with_reducible refine xThen_keeps  ?_ (fun x0 hx0 => ?_)
    | with_reducible refine keepsP_fst (xThen_keeps  ?_ (fun x0 hx0 => ?_))
    | with_reducible refine keepsP_eq (xThen_keeps  ?_ (fun x0 hx0 => ?_)) (by assumption)
    | with_reducible refine keeps_foldl (fun t a ht => ?_) ?_
    | with_reducible refine keepsP_foldl (fun t a ht => ?_) ?_
    | split
    | (clear_value *; split)
    | with_reducible refine keeps_with_xch (mem_of (by decide) hp) ?_
    | with_reducible refine keepsP_eq ?_ (by assumption)
    | with_reducible refine keepsO_eq ?_ (by assumption)
    | with_reducible refine keepsP_mk ?_

theorem useCarry_keeps {ps z} {w : Sys2Proof.Machine.XW} {id : Nat} (hp : [.regs, .mem, .mmu, .outbox, .bxl, .rtr, .xch, .bridge] ⊆ ps) (h0 : KeepsP ps z w) :
    KeepsP ps z (useCarry w id) := by
  unfold useCarry
  repeat' first
    | with_reducible assumption
    | with_reducible exact keepsP_fst (by assumption)
    | (extract_lets -useContext +onlyGivenNames x; refine (fun (hx : Keeps ps z x) => ?_) ?_; clear_value x; revert x; intro _ _; rotate_left; unfold x; clear x; rotate_left)
    | (extract_lets -useContext +onlyGivenNames x; refine (fun (hx : KeepsP ps z x) => ?_) ?_; clear_value x; revert x; intro _ _; rotate_left; unfold x; clear x; rotate_left)
    | (extract_lets -useContext +onlyGivenNames x; revert x; intro _)
    | with_reducible refine State.putXop_keeps (sub_of (by decide) hp) ?_
    | with_reducible refine accessFault_keeps (sub_of (by decide) hp) ?_
    | with_reducible refine xRead_keeps (sub_of (by decide) hp) ?_
    | with_reducible refine keepsP_fst (xRead_keeps (sub_of (by decide) hp) ?_)
    | with_reducible refine keepsP_eq (xRead_keeps (sub_of (by decide) hp) ?_) (by assumption)
    | with_reducible refine xStore_keeps (sub_of (by decide) hp) ?_
    | with_reducible refine keepsP_fst (xStore_keeps (sub_of (by decide) hp) ?_)
    | with_reducible refine keepsP_eq (xStore_keeps (sub_of (by decide) hp) ?_) (by assumption)
    | with_reducible refine xThen_keeps  ?_ (fun x0 hx0 => ?_)
    | with_reducible refine keepsP_fst (xThen_keeps  ?_ (fun x0 hx0 => ?_))
    | with_reducible refine keepsP_eq (xThen_keeps  ?_ (fun x0 hx0 => ?_)) (by assumption)
    | split
    | (clear_value *; split)
    | with_reducible refine keepsP_eq ?_ (by assumption)
    | with_reducible refine keepsO_eq ?_ (by assumption)
    | with_reducible refine keepsP_mk ?_

theorem readSrc_keeps {ps z} {w : Sys2Proof.Machine.XW} {id : Nat} {va : Nat} {len : Nat} (hp : [.regs, .mem, .mmu, .outbox, .bxl, .rtr, .xch, .bridge] ⊆ ps) (h0 : KeepsP ps z w) :
    KeepsP ps z (readSrc w id va len) := by
  unfold readSrc
  repeat' first
    | with_reducible assumption
    | with_reducible exact keepsP_fst (by assumption)
    | (extract_lets -useContext +onlyGivenNames x; refine (fun (hx : Keeps ps z x) => ?_) ?_; clear_value x; revert x; intro _ _; rotate_left; unfold x; clear x; rotate_left)
    | (extract_lets -useContext +onlyGivenNames x; refine (fun (hx : KeepsP ps z x) => ?_) ?_; clear_value x; revert x; intro _ _; rotate_left; unfold x; clear x; rotate_left)
    | (extract_lets -useContext +onlyGivenNames x; revert x; intro _)
    | with_reducible refine State.putXop_keeps (sub_of (by decide) hp) ?_
    | with_reducible refine accessFault_keeps (sub_of (by decide) hp) ?_
    | with_reducible refine capture_keeps (sub_of (by decide) hp) ?_
    | with_reducible refine xRead_keeps (sub_of (by decide) hp) ?_
    | with_reducible refine keepsP_fst (xRead_keeps (sub_of (by decide) hp) ?_)
    | with_reducible refine keepsP_eq (xRead_keeps (sub_of (by decide) hp) ?_) (by assumption)
    | with_reducible refine xThen_keeps  ?_ (fun x0 hx0 => ?_)
    | with_reducible refine keepsP_fst (xThen_keeps  ?_ (fun x0 hx0 => ?_))
    | with_reducible refine keepsP_eq (xThen_keeps  ?_ (fun x0 hx0 => ?_)) (by assumption)
    | split
    | (clear_value *; split)
    | with_reducible refine keepsP_eq ?_ (by assumption)
    | with_reducible refine keepsO_eq ?_ (by assumption)
    | with_reducible refine keepsP_mk ?_

theorem readOutputs_keeps {ps z} {w : Sys2Proof.Machine.XW} {id : Nat} {rows : List Nat} (hp : [.regs, .mem, .mmu, .outbox, .bxl, .rtr, .xch, .bridge] ⊆ ps) (h0 : KeepsP ps z w) :
    KeepsP ps z (readOutputs w id rows) := by
  unfold readOutputs
  repeat' first
    | with_reducible assumption
    | with_reducible exact keepsP_fst (by assumption)
    | (extract_lets -useContext +onlyGivenNames x; refine (fun (hx : Keeps ps z x) => ?_) ?_; clear_value x; revert x; intro _ _; rotate_left; unfold x; clear x; rotate_left)
    | (extract_lets -useContext +onlyGivenNames x; refine (fun (hx : KeepsP ps z x) => ?_) ?_; clear_value x; revert x; intro _ _; rotate_left; unfold x; clear x; rotate_left)
    | (extract_lets -useContext +onlyGivenNames x; revert x; intro _)
    | with_reducible refine State.putXop_keeps (sub_of (by decide) hp) ?_
    | with_reducible refine accessFault_keeps (sub_of (by decide) hp) ?_
    | with_reducible refine readSrc_keeps (sub_of (by decide) hp) ?_
    | with_reducible refine keepsP_fst (readSrc_keeps (sub_of (by decide) hp) ?_)
    | with_reducible refine keepsP_eq (readSrc_keeps (sub_of (by decide) hp) ?_) (by assumption)
    | with_reducible refine xRead_keeps (sub_of (by decide) hp) ?_
    | with_reducible refine keepsP_fst (xRead_keeps (sub_of (by decide) hp) ?_)
    | with_reducible refine keepsP_eq (xRead_keeps (sub_of (by decide) hp) ?_) (by assumption)
    | with_reducible refine xThen_keeps  ?_ (fun x0 hx0 => ?_)
    | with_reducible refine keepsP_fst (xThen_keeps  ?_ (fun x0 hx0 => ?_))
    | with_reducible refine keepsP_eq (xThen_keeps  ?_ (fun x0 hx0 => ?_)) (by assumption)
    | with_reducible refine keeps_foldl (fun t a ht => ?_) ?_
    | with_reducible refine keepsP_foldl (fun t a ht => ?_) ?_
    | split
    | (clear_value *; split)
    | with_reducible refine keepsP_eq ?_ (by assumption)
    | with_reducible refine keepsO_eq ?_ (by assumption)
    | with_reducible refine keepsP_mk ?_

theorem takeSlot_keeps {ps z} {s : Sys2Proof.Machine.State} {a1_ : Sys2Proof.Machine.Xop} (hp : [.cat] ⊆ ps) (h0 : Keeps ps z s) :
    Keeps ps z (takeSlot s a1_) := by
  unfold takeSlot
  repeat' first
    | with_reducible assumption
    | with_reducible exact keepsP_fst (by assumption)
    | (extract_lets -useContext +onlyGivenNames x; refine (fun (hx : Keeps ps z x) => ?_) ?_; clear_value x; revert x; intro _ _; rotate_left; unfold x; clear x; rotate_left)
    | (extract_lets -useContext +onlyGivenNames x; revert x; intro _)
    | with_reducible refine State.setSslot_keeps (sub_of (by decide) hp) ?_
    | split
    | (clear_value *; split)
    | with_reducible refine keepsP_eq ?_ (by assumption)
    | with_reducible refine keepsO_eq ?_ (by assumption)
    | with_reducible refine keepsP_mk ?_

theorem takeEarly_keeps {ps z} {s : Sys2Proof.Machine.State} {id : Nat} (hp : [.regs, .mem, .outbox, .rtr, .xch, .bridge] ⊆ ps) (h0 : Keeps ps z s) :
    Keeps ps z (takeEarly s id) := by
  unfold takeEarly
  repeat' first
    | with_reducible assumption
    | with_reducible exact keepsP_fst (by assumption)
    | (extract_lets -useContext +onlyGivenNames x; refine (fun (hx : Keeps ps z x) => ?_) ?_; clear_value x; revert x; intro _ _; rotate_left; unfold x; clear x; rotate_left)
    | (extract_lets -useContext +onlyGivenNames x; revert x; intro _)
    | with_reducible refine takeCtrl_keeps (sub_of (by decide) hp) ?_
    | with_reducible refine keeps_foldl (fun t a ht => ?_) ?_
    | with_reducible refine keepsP_foldl (fun t a ht => ?_) ?_
    | split
    | (clear_value *; split)
    | with_reducible refine keeps_with_xch (mem_of (by decide) hp) ?_
    | with_reducible refine keepsP_eq ?_ (by assumption)
    | with_reducible refine keepsO_eq ?_ (by assumption)
    | with_reducible refine keepsP_mk ?_

theorem startOp_keeps {ps z} {s : Sys2Proof.Machine.State} {a1_ : Nat} {a2_ : Sys2Proof.Machine.Xop} {outputs : List Sys2Proof.Byte} (hp : [.regs, .mem, .mmu, .ctx, .queues, .outbox, .draws, .bxl, .pwr, .rtr, .xch, .bridge] ⊆ ps) (h0 : Keeps ps z s) :
    KeepsP ps z (startOp s a1_ a2_ outputs) := by
  unfold startOp
  repeat' first
    | with_reducible assumption
    | with_reducible exact keepsP_fst (by assumption)
    | (extract_lets -useContext +onlyGivenNames x; refine (fun (hx : Keeps ps z x) => ?_) ?_; clear_value x; revert x; intro _ _; rotate_left; unfold x; clear x; rotate_left)
    | (extract_lets -useContext +onlyGivenNames x; refine (fun (hx : KeepsP ps z x) => ?_) ?_; clear_value x; revert x; intro _ _; rotate_left; unfold x; clear x; rotate_left)
    | (extract_lets -useContext +onlyGivenNames x; revert x; intro _)
    | with_reducible refine takeEarly_keeps (sub_of (by decide) hp) ?_
    | with_reducible refine flushHalf_keeps (sub_of (by decide) hp) ?_
    | with_reducible refine keepsP_fst (flushHalf_keeps (sub_of (by decide) hp) ?_)
    | with_reducible refine keepsP_eq (flushHalf_keeps (sub_of (by decide) hp) ?_) (by assumption)
    | with_reducible refine sendDispatchCounts_keeps (sub_of (by decide) hp) ?_
    | with_reducible refine sendCounts_keeps (sub_of (by decide) hp) ?_
    | with_reducible refine useCarry_keeps (sub_of (by decide) hp) ?_
    | with_reducible refine keepsP_fst (useCarry_keeps (sub_of (by decide) hp) ?_)
    | with_reducible refine keepsP_eq (useCarry_keeps (sub_of (by decide) hp) ?_) (by assumption)
    | with_reducible refine readSrc_keeps (sub_of (by decide) hp) ?_
    | with_reducible refine keepsP_fst (readSrc_keeps (sub_of (by decide) hp) ?_)
    | with_reducible refine keepsP_eq (readSrc_keeps (sub_of (by decide) hp) ?_) (by assumption)
    | with_reducible refine readOutputs_keeps (sub_of (by decide) hp) ?_
    | with_reducible refine keepsP_fst (readOutputs_keeps (sub_of (by decide) hp) ?_)
    | with_reducible refine keepsP_eq (readOutputs_keeps (sub_of (by decide) hp) ?_) (by assumption)
    | with_reducible refine xThen_keeps  ?_ (fun x0 hx0 => ?_)
    | with_reducible refine keepsP_fst (xThen_keeps  ?_ (fun x0 hx0 => ?_))
    | with_reducible refine keepsP_eq (xThen_keeps  ?_ (fun x0 hx0 => ?_)) (by assumption)
    | with_reducible refine takeCarry_keeps (sub_of (by decide) hp) ?_
    | with_reducible refine keepsP_fst (takeCarry_keeps (sub_of (by decide) hp) ?_)
    | with_reducible refine keepsP_eq (takeCarry_keeps (sub_of (by decide) hp) ?_) (by assumption)
    | split
    | (clear_value *; split)
    | with_reducible refine keeps_with_xch (mem_of (by decide) hp) ?_
    | with_reducible refine keepsP_eq ?_ (by assumption)
    | with_reducible refine keepsO_eq ?_ (by assumption)
    | with_reducible refine keepsP_mk ?_

theorem failDispatch_keeps {ps z} {s : Sys2Proof.Machine.State} {a1_ : Nat} {q : Sys2Proof.Machine.XReq} {a3_ : Sys2Proof.Machine.Xop} {status : Nat} {code : Nat} (hp : [.regs, .mem, .queues, .seq, .outbox, .rtr, .bridge] ⊆ ps) (h0 : Keeps ps z s) :
    Keeps ps z (failDispatch s a1_ q a3_ status code) := by
  unfold failDispatch
  repeat' first
    | with_reducible assumption
    | with_reducible exact keepsP_fst (by assumption)
    | (extract_lets -useContext +onlyGivenNames x; refine (fun (hx : Keeps ps z x) => ?_) ?_; clear_value x; revert x; intro _ _; rotate_left; unfold x; clear x; rotate_left)
    | (extract_lets -useContext +onlyGivenNames x; revert x; intro _)
    | with_reducible refine abandonAll_keeps (sub_of (by decide) hp) ?_
    | with_reducible refine failBegin_keeps (sub_of (by decide) hp) ?_
    | split
    | (clear_value *; split)
    | with_reducible refine keepsP_eq ?_ (by assumption)
    | with_reducible refine keepsO_eq ?_ (by assumption)
    | with_reducible refine keepsP_mk ?_

theorem beginDispatch_keeps {ps z} {s : Sys2Proof.Machine.State} {a1_ : Nat} {q : Sys2Proof.Machine.XReq} {a3_ : Sys2Proof.Machine.Xop} (hp : [.regs, .mem, .mmu, .ctx, .queues, .seq, .outbox, .draws, .bxl, .pwr, .rtr, .xch, .cat, .bridge] ⊆ ps) (h0 : Keeps ps z s) :
    KeepsP ps z (beginDispatch s a1_ q a3_) := by
  unfold beginDispatch
  repeat' first
    | with_reducible assumption
    | with_reducible exact keepsP_fst (by assumption)
    | (extract_lets -useContext +onlyGivenNames x; refine (fun (hx : Keeps ps z x) => ?_) ?_; clear_value x; revert x; intro _ _; rotate_left; unfold x; clear x; rotate_left)
    | (extract_lets -useContext +onlyGivenNames x; refine (fun (hx : KeepsP ps z x) => ?_) ?_; clear_value x; revert x; intro _ _; rotate_left; unfold x; clear x; rotate_left)
    | (extract_lets -useContext +onlyGivenNames x; revert x; intro _)
    | with_reducible refine checkRead_keeps (sub_of (by decide) hp) ?_
    | with_reducible refine keepsP_fst (checkRead_keeps (sub_of (by decide) hp) ?_)
    | with_reducible refine keepsP_eq (checkRead_keeps (sub_of (by decide) hp) ?_) (by assumption)
    | with_reducible refine failDispatch_keeps (sub_of (by decide) hp) ?_
    | with_reducible refine readRoutes_keeps (sub_of (by decide) hp) ?_
    | with_reducible refine keepsP_fst (readRoutes_keeps (sub_of (by decide) hp) ?_)
    | with_reducible refine keepsP_eq (readRoutes_keeps (sub_of (by decide) hp) ?_) (by assumption)
    | with_reducible refine startOp_keeps (sub_of (by decide) hp) ?_
    | with_reducible refine keepsP_fst (startOp_keeps (sub_of (by decide) hp) ?_)
    | with_reducible refine keepsP_eq (startOp_keeps (sub_of (by decide) hp) ?_) (by assumption)
    | with_reducible refine takeSlot_keeps (sub_of (by decide) hp) ?_
    | with_reducible refine readSlots_keeps (sub_of (by decide) hp) ?_
    | split
    | (clear_value *; split)
    | with_reducible refine keepsP_eq ?_ (by assumption)
    | with_reducible refine keepsO_eq ?_ (by assumption)
    | with_reducible refine keepsP_mk ?_

theorem beginOp_keeps {ps z} {s : Sys2Proof.Machine.State} {a1_ : Nat} {q : Sys2Proof.Machine.XReq} {d : Nat} {ts : List (Option (List Sys2Proof.Byte))} (hp : [.regs, .mem, .mmu, .ctx, .queues, .seq, .outbox, .draws, .bxl, .pwr, .rtr, .xch, .cat, .bridge] ⊆ ps) (h0 : Keeps ps z s) :
    KeepsP ps z (beginOp s a1_ q d ts) := by
  unfold beginOp
  repeat' first
    | with_reducible assumption
    | with_reducible exact keepsP_fst (by assumption)
    | (extract_lets -useContext +onlyGivenNames x; refine (fun (hx : Keeps ps z x) => ?_) ?_; clear_value x; revert x; intro _ _; rotate_left; unfold x; clear x; rotate_left)
    | (extract_lets -useContext +onlyGivenNames x; refine (fun (hx : KeepsP ps z x) => ?_) ?_; clear_value x; revert x; intro _ _; rotate_left; unfold x; clear x; rotate_left)
    | (extract_lets -useContext +onlyGivenNames x; revert x; intro _)
    | with_reducible refine beginDispatch_keeps (sub_of (by decide) hp) ?_
    | with_reducible refine keepsP_fst (beginDispatch_keeps (sub_of (by decide) hp) ?_)
    | with_reducible refine keepsP_eq (beginDispatch_keeps (sub_of (by decide) hp) ?_) (by assumption)
    | with_reducible refine failBegin_keeps (sub_of (by decide) hp) ?_
    | with_reducible refine startOp_keeps (sub_of (by decide) hp) ?_
    | with_reducible refine keepsP_fst (startOp_keeps (sub_of (by decide) hp) ?_)
    | with_reducible refine keepsP_eq (startOp_keeps (sub_of (by decide) hp) ?_) (by assumption)
    | with_reducible refine takeSlot_keeps (sub_of (by decide) hp) ?_
    | split
    | (clear_value *; split)
    | with_reducible refine keepsP_eq ?_ (by assumption)
    | with_reducible refine keepsO_eq ?_ (by assumption)
    | with_reducible refine keepsO_getD ?_ ?_
    | with_reducible refine keepsP_mk ?_

theorem failChecks_keeps {ps z} {s : Sys2Proof.Machine.State} {a1_ : Nat} {q : Sys2Proof.Machine.XReq} {d : Nat} {code : Nat} (hp : [.regs, .mem, .mmu, .queues, .seq, .outbox, .bxl, .rtr, .bridge] ⊆ ps) (h0 : Keeps ps z s) :
    KeepsP ps z (failChecks s a1_ q d code) := by
  unfold failChecks
  repeat' first
    | with_reducible assumption
    | with_reducible exact keepsP_fst (by assumption)
    | (extract_lets -useContext +onlyGivenNames x; refine (fun (hx : Keeps ps z x) => ?_) ?_; clear_value x; revert x; intro _ _; rotate_left; unfold x; clear x; rotate_left)
    | (extract_lets -useContext +onlyGivenNames x; refine (fun (hx : KeepsP ps z x) => ?_) ?_; clear_value x; revert x; intro _ _; rotate_left; unfold x; clear x; rotate_left)
    | (extract_lets -useContext +onlyGivenNames x; revert x; intro _)
    | with_reducible refine checkRead_keeps (sub_of (by decide) hp) ?_
    | with_reducible refine keepsP_fst (checkRead_keeps (sub_of (by decide) hp) ?_)
    | with_reducible refine keepsP_eq (checkRead_keeps (sub_of (by decide) hp) ?_) (by assumption)
    | with_reducible refine failBegin_keeps (sub_of (by decide) hp) ?_
    | with_reducible refine failDispatch_keeps (sub_of (by decide) hp) ?_
    | split
    | (clear_value *; split)
    | with_reducible refine keepsP_eq ?_ (by assumption)
    | with_reducible refine keepsO_eq ?_ (by assumption)
    | with_reducible refine keepsP_mk ?_

theorem execXchOpBegin_keeps {ps z} {a0_ : Sys2Proof.HalfId} {s : Sys2Proof.Machine.State} (hp : [.regs, .mem, .mmu, .ctx, .queues, .seq, .outbox, .draws, .bxl, .pwr, .rtr, .xch, .cat, .bridge] ⊆ ps) (h1 : Keeps ps z s) :
    KeepsR ps z (execXchOpBegin a0_ s) := by
  unfold execXchOpBegin
  repeat' first
    | with_reducible assumption
    | with_reducible exact keepsP_fst (by assumption)
    | (extract_lets -useContext +onlyGivenNames x; refine (fun (hx : Keeps ps z x) => ?_) ?_; clear_value x; revert x; intro _ _; rotate_left; unfold x; clear x; rotate_left)
    | (extract_lets -useContext +onlyGivenNames x; refine (fun (hx : KeepsP ps z x) => ?_) ?_; clear_value x; revert x; intro _ _; rotate_left; unfold x; clear x; rotate_left)
    | (extract_lets -useContext +onlyGivenNames x; have _hx : ∀ a, x a = x a := fun _ => rfl; clear _hx; unfold x; clear x)
    | (extract_lets -useContext +onlyGivenNames x; revert x; intro _)
    | with_reducible refine keepsR_next ?_
    | with_reducible exact keepsR_fault
    | with_reducible refine beginOp_keeps (sub_of (by decide) hp) ?_
    | with_reducible refine keepsP_fst (beginOp_keeps (sub_of (by decide) hp) ?_)
    | with_reducible refine keepsP_eq (beginOp_keeps (sub_of (by decide) hp) ?_) (by assumption)
    | with_reducible refine checkRead_keeps (sub_of (by decide) hp) ?_
    | with_reducible refine keepsP_fst (checkRead_keeps (sub_of (by decide) hp) ?_)
    | with_reducible refine keepsP_eq (checkRead_keeps (sub_of (by decide) hp) ?_) (by assumption)
    | with_reducible refine failBegin_keeps (sub_of (by decide) hp) ?_
    | with_reducible refine failChecks_keeps (sub_of (by decide) hp) ?_
    | with_reducible refine keepsP_fst (failChecks_keeps (sub_of (by decide) hp) ?_)
    | with_reducible refine keepsP_eq (failChecks_keeps (sub_of (by decide) hp) ?_) (by assumption)
    | with_reducible refine readTables_keeps (sub_of (by decide) hp) ?_
    | with_reducible refine keepsP_fst (readTables_keeps (sub_of (by decide) hp) ?_)
    | with_reducible refine keepsP_eq (readTables_keeps (sub_of (by decide) hp) ?_) (by assumption)
    | with_reducible refine xEvent_keeps (sub_of (by decide) hp) ?_ (fun x0 hx0 => ?_)
    | with_reducible refine keepsR_eq (xEvent_keeps (sub_of (by decide) hp) ?_ (fun x0 hx0 => ?_)) (by assumption)
    | split
    | (clear_value *; split)
    | with_reducible refine keeps_with_xch (mem_of (by decide) hp) ?_
    | with_reducible refine keepsP_eq ?_ (by assumption)
    | with_reducible refine keepsO_eq ?_ (by assumption)
    | with_reducible refine keepsP_mk ?_

theorem execLateDeadline_keeps {ps z} {op : Nat} {s : Sys2Proof.Machine.State} (hp : [.regs, .mem, .mmu, .ctx, .outbox, .draws, .bxl, .pwr, .rtr, .xch, .bridge] ⊆ ps) (h1 : Keeps ps z s) :
    KeepsR ps z (execLateDeadline op s) := by
  unfold execLateDeadline
  repeat' first
    | with_reducible assumption
    | with_reducible exact keepsP_fst (by assumption)
    | (extract_lets -useContext +onlyGivenNames x; refine (fun (hx : Keeps ps z x) => ?_) ?_; clear_value x; revert x; intro _ _; rotate_left; unfold x; clear x; rotate_left)
    | (extract_lets -useContext +onlyGivenNames x; refine (fun (hx : KeepsP ps z x) => ?_) ?_; clear_value x; revert x; intro _ _; rotate_left; unfold x; clear x; rotate_left)
    | (extract_lets -useContext +onlyGivenNames x; revert x; intro _)
    | with_reducible refine keepsR_next ?_
    | with_reducible exact keepsR_fault
    | with_reducible refine State.putXop_keeps (sub_of (by decide) hp) ?_
    | with_reducible refine declareLate_keeps (sub_of (by decide) hp) ?_
    | with_reducible refine flushHalf_keeps (sub_of (by decide) hp) ?_
    | with_reducible refine keepsP_fst (flushHalf_keeps (sub_of (by decide) hp) ?_)
    | with_reducible refine keepsP_eq (flushHalf_keeps (sub_of (by decide) hp) ?_) (by assumption)
    | with_reducible refine xEvent_keeps (sub_of (by decide) hp) ?_ (fun x0 hx0 => ?_)
    | with_reducible refine keepsR_eq (xEvent_keeps (sub_of (by decide) hp) ?_ (fun x0 hx0 => ?_)) (by assumption)
    | split
    | (clear_value *; split)
    | with_reducible refine keepsP_eq ?_ (by assumption)
    | with_reducible refine keepsO_eq ?_ (by assumption)
    | with_reducible refine keepsP_mk ?_

theorem lateChoices_keeps {ps z} {w : Sys2Proof.Machine.XW} {a1_ : Sys2Proof.Machine.Xop} {time : Nat} (hp : [.regs, .mem, .mmu, .ctx, .queues, .outbox, .bxl, .bridge] ⊆ ps) (h0 : KeepsP ps z w) :
    KeepsP ps z (lateChoices w a1_ time) := by
  unfold lateChoices
  repeat' first
    | with_reducible assumption
    | with_reducible exact keepsP_fst (by assumption)
    | (extract_lets -useContext +onlyGivenNames x; refine (fun (hx : Keeps ps z x) => ?_) ?_; clear_value x; revert x; intro _ _; rotate_left; unfold x; clear x; rotate_left)
    | (extract_lets -useContext +onlyGivenNames x; refine (fun (hx : KeepsP ps z x) => ?_) ?_; clear_value x; revert x; intro _ _; rotate_left; unfold x; clear x; rotate_left)
    | (extract_lets -useContext +onlyGivenNames x; revert x; intro _)
    | with_reducible refine logChoice_keeps (sub_of (by decide) hp) ?_
    | with_reducible refine keepsP_fst (logChoice_keeps (sub_of (by decide) hp) ?_)
    | with_reducible refine keepsP_eq (logChoice_keeps (sub_of (by decide) hp) ?_) (by assumption)
    | with_reducible refine keeps_foldl (fun t a ht => ?_) ?_
    | with_reducible refine keepsP_foldl (fun t a ht => ?_) ?_
    | split
    | (clear_value *; split)
    | with_reducible refine keepsP_eq ?_ (by assumption)
    | with_reducible refine keepsO_eq ?_ (by assumption)
    | with_reducible refine keepsP_mk ?_

theorem finishOp_keeps {ps z} {w : Sys2Proof.Machine.XW} {id : Nat} (hp : [.regs, .mem, .mmu, .ctx, .queues, .seq, .outbox, .draws, .bxl, .pwr, .rtr, .xch, .cat, .bridge] ⊆ ps) (h0 : KeepsP ps z w) :
    KeepsP ps z (finishOp w id) := by
  unfold finishOp
  repeat' first
    | with_reducible assumption
    | with_reducible exact keepsP_fst (by assumption)
    | (extract_lets -useContext +onlyGivenNames x; refine (fun (hx : Keeps ps z x) => ?_) ?_; clear_value x; revert x; intro _ _; rotate_left; unfold x; clear x; rotate_left)
    | (extract_lets -useContext +onlyGivenNames x; refine (fun (hx : KeepsP ps z x) => ?_) ?_; clear_value x; revert x; intro _ _; rotate_left; unfold x; clear x; rotate_left)
    | (extract_lets -useContext +onlyGivenNames x; revert x; intro _)
    | with_reducible refine State.putXop_keeps (sub_of (by decide) hp) ?_
    | with_reducible refine accessFault_keeps (sub_of (by decide) hp) ?_
    | with_reducible refine endOp_keeps (sub_of (by decide) hp) ?_
    | with_reducible refine flushHalf_keeps (sub_of (by decide) hp) ?_
    | with_reducible refine keepsP_fst (flushHalf_keeps (sub_of (by decide) hp) ?_)
    | with_reducible refine keepsP_eq (flushHalf_keeps (sub_of (by decide) hp) ?_) (by assumption)
    | with_reducible refine xThen_keeps  ?_ (fun x0 hx0 => ?_)
    | with_reducible refine keepsP_fst (xThen_keeps  ?_ (fun x0 hx0 => ?_))
    | with_reducible refine keepsP_eq (xThen_keeps  ?_ (fun x0 hx0 => ?_)) (by assumption)
    | with_reducible refine xWrite_keeps (sub_of (by decide) hp) ?_
    | with_reducible refine keepsP_fst (xWrite_keeps (sub_of (by decide) hp) ?_)
    | with_reducible refine keepsP_eq (xWrite_keeps (sub_of (by decide) hp) ?_) (by assumption)
    | with_reducible refine lateChoices_keeps (sub_of (by decide) hp) ?_
    | with_reducible refine keepsP_fst (lateChoices_keeps (sub_of (by decide) hp) ?_)
    | with_reducible refine keepsP_eq (lateChoices_keeps (sub_of (by decide) hp) ?_) (by assumption)
    | with_reducible refine keeps_foldl (fun t a ht => ?_) ?_
    | with_reducible refine keepsP_foldl (fun t a ht => ?_) ?_
    | split
    | (clear_value *; split)
    | with_reducible refine keepsP_eq ?_ (by assumption)
    | with_reducible refine keepsO_eq ?_ (by assumption)
    | with_reducible refine keepsP_mk ?_

theorem execXchOpEnd_keeps {ps z} {op : Nat} {s : Sys2Proof.Machine.State} (hp : [.regs, .mem, .mmu, .ctx, .queues, .seq, .outbox, .draws, .bxl, .pwr, .rtr, .xch, .cat, .bridge] ⊆ ps) (h1 : Keeps ps z s) :
    KeepsR ps z (execXchOpEnd op s) := by
  unfold execXchOpEnd
  repeat' first
    | with_reducible assumption
    | with_reducible exact keepsP_fst (by assumption)
    | (extract_lets -useContext +onlyGivenNames x; refine (fun (hx : Keeps ps z x) => ?_) ?_; clear_value x; revert x; intro _ _; rotate_left; unfold x; clear x; rotate_left)
    | (extract_lets -useContext +onlyGivenNames x; refine (fun (hx : KeepsP ps z x) => ?_) ?_; clear_value x; revert x; intro _ _; rotate_left; unfold x; clear x; rotate_left)
    | (extract_lets -useContext +onlyGivenNames x; revert x; intro _)
    | with_reducible refine keepsR_next ?_
    | with_reducible exact keepsR_fault
    | with_reducible refine finishOp_keeps (sub_of (by decide) hp) ?_
    | with_reducible refine keepsP_fst (finishOp_keeps (sub_of (by decide) hp) ?_)
    | with_reducible refine keepsP_eq (finishOp_keeps (sub_of (by decide) hp) ?_) (by assumption)
    | with_reducible refine flushHalf_keeps (sub_of (by decide) hp) ?_
    | with_reducible refine keepsP_fst (flushHalf_keeps (sub_of (by decide) hp) ?_)
    | with_reducible refine keepsP_eq (flushHalf_keeps (sub_of (by decide) hp) ?_) (by assumption)
    | with_reducible refine xThen_keeps  ?_ (fun x0 hx0 => ?_)
    | with_reducible refine keepsP_fst (xThen_keeps  ?_ (fun x0 hx0 => ?_))
    | with_reducible refine keepsP_eq (xThen_keeps  ?_ (fun x0 hx0 => ?_)) (by assumption)
    | with_reducible refine xEvent_keeps (sub_of (by decide) hp) ?_ (fun x0 hx0 => ?_)
    | with_reducible refine keepsR_eq (xEvent_keeps (sub_of (by decide) hp) ?_ (fun x0 hx0 => ?_)) (by assumption)
    | split
    | (clear_value *; split)
    | with_reducible refine keepsP_eq ?_ (by assumption)
    | with_reducible refine keepsO_eq ?_ (by assumption)
    | with_reducible refine keepsP_mk ?_

theorem execDispatchCountsComplete_keeps {ps z} {op : Nat} {s : Sys2Proof.Machine.State} (hp : [.regs, .mem, .mmu, .ctx, .outbox, .draws, .bxl, .pwr, .rtr, .xch, .bridge] ⊆ ps) (h1 : Keeps ps z s) :
    KeepsR ps z (execDispatchCountsComplete op s) := by
  unfold execDispatchCountsComplete
  repeat' first
    | with_reducible assumption
    | with_reducible exact keepsP_fst (by assumption)
    | (extract_lets -useContext +onlyGivenNames x; refine (fun (hx : Keeps ps z x) => ?_) ?_; clear_value x; revert x; intro _ _; rotate_left; unfold x; clear x; rotate_left)
    | (extract_lets -useContext +onlyGivenNames x; refine (fun (hx : KeepsP ps z x) => ?_) ?_; clear_value x; revert x; intro _ _; rotate_left; unfold x; clear x; rotate_left)
    | (extract_lets -useContext +onlyGivenNames x; revert x; intro _)
    | with_reducible refine keepsR_next ?_
    | with_reducible exact keepsR_fault
    | with_reducible refine allocateRows_keeps (sub_of (by decide) hp) ?_
    | with_reducible refine keepsP_fst (allocateRows_keeps (sub_of (by decide) hp) ?_)
    | with_reducible refine keepsP_eq (allocateRows_keeps (sub_of (by decide) hp) ?_) (by assumption)
    | with_reducible refine flushHalf_keeps (sub_of (by decide) hp) ?_
    | with_reducible refine keepsP_fst (flushHalf_keeps (sub_of (by decide) hp) ?_)
    | with_reducible refine keepsP_eq (flushHalf_keeps (sub_of (by decide) hp) ?_) (by assumption)
    | with_reducible refine xEvent_keeps (sub_of (by decide) hp) ?_ (fun x0 hx0 => ?_)
    | with_reducible refine keepsR_eq (xEvent_keeps (sub_of (by decide) hp) ?_ (fun x0 hx0 => ?_)) (by assumption)
    | split
    | (clear_value *; split)
    | with_reducible refine keepsP_eq ?_ (by assumption)
    | with_reducible refine keepsO_eq ?_ (by assumption)
    | with_reducible refine keepsP_mk ?_

theorem execDispatchEnd_keeps {ps z} {op : Nat} {s : Sys2Proof.Machine.State} (hp : [.regs, .mem, .mmu, .ctx, .queues, .seq, .outbox, .draws, .bxl, .pwr, .rtr, .xch, .cat, .bridge] ⊆ ps) (h1 : Keeps ps z s) :
    KeepsR ps z (execDispatchEnd op s) := by
  unfold execDispatchEnd
  repeat' first
    | with_reducible assumption
    | with_reducible exact keepsP_fst (by assumption)
    | (extract_lets -useContext +onlyGivenNames x; refine (fun (hx : Keeps ps z x) => ?_) ?_; clear_value x; revert x; intro _ _; rotate_left; unfold x; clear x; rotate_left)
    | (extract_lets -useContext +onlyGivenNames x; refine (fun (hx : KeepsP ps z x) => ?_) ?_; clear_value x; revert x; intro _ _; rotate_left; unfold x; clear x; rotate_left)
    | (extract_lets -useContext +onlyGivenNames x; revert x; intro _)
    | with_reducible refine keepsR_next ?_
    | with_reducible exact keepsR_fault
    | with_reducible refine finishOp_keeps (sub_of (by decide) hp) ?_
    | with_reducible refine keepsP_fst (finishOp_keeps (sub_of (by decide) hp) ?_)
    | with_reducible refine keepsP_eq (finishOp_keeps (sub_of (by decide) hp) ?_) (by assumption)
    | with_reducible refine writeMaps_keeps (sub_of (by decide) hp) ?_
    | with_reducible refine keepsP_fst (writeMaps_keeps (sub_of (by decide) hp) ?_)
    | with_reducible refine keepsP_eq (writeMaps_keeps (sub_of (by decide) hp) ?_) (by assumption)
    | with_reducible refine flushHalf_keeps (sub_of (by decide) hp) ?_
    | with_reducible refine keepsP_fst (flushHalf_keeps (sub_of (by decide) hp) ?_)
    | with_reducible refine keepsP_eq (flushHalf_keeps (sub_of (by decide) hp) ?_) (by assumption)
    | with_reducible refine xThen_keeps  ?_ (fun x0 hx0 => ?_)
    | with_reducible refine keepsP_fst (xThen_keeps  ?_ (fun x0 hx0 => ?_))
    | with_reducible refine keepsP_eq (xThen_keeps  ?_ (fun x0 hx0 => ?_)) (by assumption)
    | with_reducible refine xEvent_keeps (sub_of (by decide) hp) ?_ (fun x0 hx0 => ?_)
    | with_reducible refine keepsR_eq (xEvent_keeps (sub_of (by decide) hp) ?_ (fun x0 hx0 => ?_)) (by assumption)
    | split
    | (clear_value *; split)
    | with_reducible refine keepsP_eq ?_ (by assumption)
    | with_reducible refine keepsO_eq ?_ (by assumption)
    | with_reducible refine keepsP_mk ?_

theorem execCombineRowsArrived_keeps {ps z} {op : Nat} {s : Sys2Proof.Machine.State} (hp : [.regs, .mem, .mmu, .outbox, .bxl, .rtr, .xch, .bridge] ⊆ ps) (h1 : Keeps ps z s) :
    KeepsR ps z (execCombineRowsArrived op s) := by
  unfold execCombineRowsArrived
  repeat' first
    | with_reducible assumption
    | with_reducible exact keepsP_fst (by assumption)
    | (extract_lets -useContext +onlyGivenNames x; refine (fun (hx : Keeps ps z x) => ?_) ?_; clear_value x; revert x; intro _ _; rotate_left; unfold x; clear x; rotate_left)
    | (extract_lets -useContext +onlyGivenNames x; refine (fun (hx : KeepsP ps z x) => ?_) ?_; clear_value x; revert x; intro _ _; rotate_left; unfold x; clear x; rotate_left)
    | (extract_lets -useContext +onlyGivenNames x; revert x; intro _)
    | with_reducible refine keepsR_next ?_
    | with_reducible exact keepsR_fault
    | with_reducible refine State.putXop_keeps (sub_of (by decide) hp) ?_
    | with_reducible refine xThen_keeps  ?_ (fun x0 hx0 => ?_)
    | with_reducible refine keepsP_fst (xThen_keeps  ?_ (fun x0 hx0 => ?_))
    | with_reducible refine keepsP_eq (xThen_keeps  ?_ (fun x0 hx0 => ?_)) (by assumption)
    | with_reducible refine combineRow_keeps (sub_of (by decide) hp) ?_
    | with_reducible refine keepsP_fst (combineRow_keeps (sub_of (by decide) hp) ?_)
    | with_reducible refine keepsP_eq (combineRow_keeps (sub_of (by decide) hp) ?_) (by assumption)
    | with_reducible refine xEvent_keeps (sub_of (by decide) hp) ?_ (fun x0 hx0 => ?_)
    | with_reducible refine keepsR_eq (xEvent_keeps (sub_of (by decide) hp) ?_ (fun x0 hx0 => ?_)) (by assumption)
    | with_reducible refine keeps_foldl (fun t a ht => ?_) ?_
    | with_reducible refine keepsP_foldl (fun t a ht => ?_) ?_
    | split
    | (clear_value *; split)
    | with_reducible refine keepsP_eq ?_ (by assumption)
    | with_reducible refine keepsO_eq ?_ (by assumption)
    | with_reducible refine keepsP_mk ?_

theorem abandonOp_keeps {ps z} {s : Sys2Proof.Machine.State} {a1_ : Sys2Proof.Machine.Xop} (hp : [.regs, .ctx, .queues, .seq, .outbox, .rtr, .xch, .cat, .bridge] ⊆ ps) (h0 : Keeps ps z s) :
    Keeps ps z (abandonOp s a1_) := by
  unfold abandonOp
  repeat' first
    | with_reducible assumption
    | with_reducible exact keepsP_fst (by assumption)
    | (extract_lets -useContext +onlyGivenNames x; refine (fun (hx : Keeps ps z x) => ?_) ?_; clear_value x; revert x; intro _ _; rotate_left; unfold x; clear x; rotate_left)
    | (extract_lets -useContext +onlyGivenNames x; revert x; intro _)
    | with_reducible refine abandonAll_keeps (sub_of (by decide) hp) ?_
    | with_reducible refine endOp_keeps (sub_of (by decide) hp) ?_
    | split
    | (clear_value *; split)
    | with_reducible refine keepsP_eq ?_ (by assumption)
    | with_reducible refine keepsO_eq ?_ (by assumption)
    | with_reducible refine keepsP_mk ?_

theorem handOver_keeps {ps z} {s : Sys2Proof.Machine.State} {q : Nat} {opc : Nat} {kind : Nat} (hp : [.queues, .xch, .bridge] ⊆ ps) (h0 : Keeps ps z s) :
    KeepsR ps z (handOver s q opc kind) := by
  unfold handOver
  repeat' first
    | with_reducible assumption
    | with_reducible exact keepsP_fst (by assumption)
    | (extract_lets -useContext +onlyGivenNames x; refine (fun (hx : Keeps ps z x) => ?_) ?_; clear_value x; revert x; intro _ _; rotate_left; unfold x; clear x; rotate_left)
    | (extract_lets -useContext +onlyGivenNames x; revert x; intro _)
    | with_reducible refine keepsR_next ?_
    | with_reducible exact keepsR_fault
    | with_reducible refine updCmd_keeps (sub_of (by decide) hp) ?_
    | with_reducible refine crossTo_keeps (sub_of (by decide) hp) ?_
    | split
    | (clear_value *; split)
    | with_reducible refine keeps_with_xch (mem_of (by decide) hp) ?_
    | with_reducible refine keepsP_eq ?_ (by assumption)
    | with_reducible refine keepsO_eq ?_ (by assumption)
    | with_reducible refine keepsP_mk ?_

theorem execCollective_keeps {ps z} {q : Sys2Proof.QueueId} {s : Sys2Proof.Machine.State} (hp : [.queues, .xch, .bridge] ⊆ ps) (h1 : Keeps ps z s) :
    KeepsR ps z (execCollective q s) := by
  unfold execCollective
  repeat' first
    | with_reducible assumption
    | with_reducible exact keepsP_fst (by assumption)
    | (extract_lets -useContext +onlyGivenNames x; refine (fun (hx : Keeps ps z x) => ?_) ?_; clear_value x; revert x; intro _ _; rotate_left; unfold x; clear x; rotate_left)
    | (extract_lets -useContext +onlyGivenNames x; revert x; intro _)
    | with_reducible refine keepsR_next ?_
    | with_reducible exact keepsR_fault
    | with_reducible refine handOver_keeps (sub_of (by decide) hp) ?_
    | with_reducible refine keepsR_eq (handOver_keeps (sub_of (by decide) hp) ?_) (by assumption)
    | split
    | (clear_value *; split)
    | with_reducible refine keepsP_eq ?_ (by assumption)
    | with_reducible refine keepsO_eq ?_ (by assumption)
    | with_reducible refine keepsP_mk ?_

theorem execDispatch_keeps {ps z} {q : Sys2Proof.QueueId} {s : Sys2Proof.Machine.State} (hp : [.queues, .xch, .bridge] ⊆ ps) (h1 : Keeps ps z s) :
    KeepsR ps z (execDispatch q s) := by
  unfold execDispatch
  repeat' first
    | with_reducible assumption
    | with_reducible exact keepsP_fst (by assumption)
    | (extract_lets -useContext +onlyGivenNames x; refine (fun (hx : Keeps ps z x) => ?_) ?_; clear_value x; revert x; intro _ _; rotate_left; unfold x; clear x; rotate_left)
    | (extract_lets -useContext +onlyGivenNames x; revert x; intro _)
    | with_reducible refine keepsR_next ?_
    | with_reducible exact keepsR_fault
    | with_reducible refine handOver_keeps (sub_of (by decide) hp) ?_
    | with_reducible refine keepsR_eq (handOver_keeps (sub_of (by decide) hp) ?_) (by assumption)
    | split
    | (clear_value *; split)
    | with_reducible refine keepsP_eq ?_ (by assumption)
    | with_reducible refine keepsO_eq ?_ (by assumption)
    | with_reducible refine keepsP_mk ?_

theorem execCombine_keeps {ps z} {q : Sys2Proof.QueueId} {s : Sys2Proof.Machine.State} (hp : [.queues, .xch, .bridge] ⊆ ps) (h1 : Keeps ps z s) :
    KeepsR ps z (execCombine q s) := by
  unfold execCombine
  repeat' first
    | with_reducible assumption
    | with_reducible exact keepsP_fst (by assumption)
    | (extract_lets -useContext +onlyGivenNames x; refine (fun (hx : Keeps ps z x) => ?_) ?_; clear_value x; revert x; intro _ _; rotate_left; unfold x; clear x; rotate_left)
    | (extract_lets -useContext +onlyGivenNames x; revert x; intro _)
    | with_reducible refine keepsR_next ?_
    | with_reducible exact keepsR_fault
    | with_reducible refine handOver_keeps (sub_of (by decide) hp) ?_
    | with_reducible refine keepsR_eq (handOver_keeps (sub_of (by decide) hp) ?_) (by assumption)
    | split
    | (clear_value *; split)
    | with_reducible refine keepsP_eq ?_ (by assumption)
    | with_reducible refine keepsO_eq ?_ (by assumption)
    | with_reducible refine keepsP_mk ?_

theorem execCatLoad_keeps {ps z} {q : Sys2Proof.QueueId} {s : Sys2Proof.Machine.State} (hp : [.queues, .cat] ⊆ ps) (h1 : Keeps ps z s) :
    KeepsR ps z (execCatLoad q s) := by
  unfold execCatLoad
  repeat' first
    | with_reducible assumption
    | with_reducible exact keepsP_fst (by assumption)
    | (extract_lets -useContext +onlyGivenNames x; refine (fun (hx : Keeps ps z x) => ?_) ?_; clear_value x; revert x; intro _ _; rotate_left; unfold x; clear x; rotate_left)
    | (extract_lets -useContext +onlyGivenNames x; revert x; intro _)
    | with_reducible refine keepsR_next ?_
    | with_reducible exact keepsR_fault
    | with_reducible refine updCmd_keeps (sub_of (by decide) hp) ?_
    | with_reducible refine failCmd_keeps (sub_of (by decide) hp) ?_
    | split
    | (clear_value *; split)
    | with_reducible refine keeps_with_cat (mem_of (by decide) hp) ?_
    | with_reducible refine keepsP_eq ?_ (by assumption)
    | with_reducible refine keepsO_eq ?_ (by assumption)
    | with_reducible refine keepsP_mk ?_

theorem execCatLoadBegin_keeps {ps z} {s : Sys2Proof.Machine.State} (hp : [.regs, .cat] ⊆ ps) (h0 : Keeps ps z s) :
    KeepsR ps z (execCatLoadBegin s) := by
  unfold execCatLoadBegin
  repeat' first
    | with_reducible assumption
    | with_reducible exact keepsP_fst (by assumption)
    | (extract_lets -useContext +onlyGivenNames x; refine (fun (hx : Keeps ps z x) => ?_) ?_; clear_value x; revert x; intro _ _; rotate_left; unfold x; clear x; rotate_left)
    | (extract_lets -useContext +onlyGivenNames x; revert x; intro _)
    | with_reducible refine keepsR_next ?_
    | with_reducible exact keepsR_fault
    | with_reducible refine State.setReg_keeps (sub_of (by decide) hp) ?_
    | split
    | (clear_value *; split)
    | with_reducible refine keeps_with_cat (mem_of (by decide) hp) ?_
    | with_reducible refine keepsP_eq ?_ (by assumption)
    | with_reducible refine keepsO_eq ?_ (by assumption)
    | with_reducible refine keepsP_mk ?_

theorem putEntries_keeps {ps z} {s : Sys2Proof.Machine.State} {i : Nat} {a2_ : List Nat} (hp : [.cat] ⊆ ps) (h0 : Keeps ps z s) :
    Keeps ps z (putEntries s i a2_) := by
  induction a2_ generalizing s i with
  | nil =>
    unfold putEntries
    repeat' first
      | with_reducible assumption
      | with_reducible exact keepsP_fst (by assumption)
      | (extract_lets -useContext +onlyGivenNames x; refine (fun (hx : Keeps ps z x) => ?_) ?_; clear_value x; revert x; intro _ _; rotate_left; unfold x; clear x; rotate_left)
      | (extract_lets -useContext +onlyGivenNames x; revert x; intro _)
      | split
      | (clear_value *; split)
      | with_reducible refine keeps_with_cat (mem_of (by decide) hp) ?_
      | with_reducible refine keepsP_eq ?_ (by assumption)
      | with_reducible refine keepsO_eq ?_ (by assumption)
      | with_reducible refine keepsP_mk ?_
  | cons hd tl ih =>
    unfold putEntries
    repeat' first
      | with_reducible assumption
      | with_reducible exact keepsP_fst (by assumption)
      | (extract_lets -useContext +onlyGivenNames x; refine (fun (hx : Keeps ps z x) => ?_) ?_; clear_value x; revert x; intro _ _; rotate_left; unfold x; clear x; rotate_left)
      | with_reducible refine ih ?_
      | (extract_lets -useContext +onlyGivenNames x; revert x; intro _)
      | split
      | (clear_value *; split)
      | with_reducible refine keeps_with_cat (mem_of (by decide) hp) ?_
      | with_reducible refine keepsP_eq ?_ (by assumption)
      | with_reducible refine keepsO_eq ?_ (by assumption)
      | with_reducible refine keepsP_mk ?_

theorem loadPages_keeps {ps z} {c : Nat} {src : Nat} {first : Nat} {a3_ : Sys2Proof.Machine.State} {a4_ : Nat} {a5_ : List (Nat × Nat × Nat)} (hp : [.regs, .mem, .mmu, .outbox, .bxl, .cat, .bridge] ⊆ ps) (h3 : Keeps ps z a3_) :
    KeepsP ps z (loadPages c src first a3_ a4_ a5_) := by
  induction a5_ generalizing c src first a3_ a4_ with
  | nil =>
    unfold loadPages
    repeat' first
      | with_reducible assumption
      | with_reducible exact keepsP_fst (by assumption)
      | (extract_lets -useContext +onlyGivenNames x; refine (fun (hx : Keeps ps z x) => ?_) ?_; clear_value x; revert x; intro _ _; rotate_left; unfold x; clear x; rotate_left)
      | (extract_lets -useContext +onlyGivenNames x; refine (fun (hx : KeepsP ps z x) => ?_) ?_; clear_value x; revert x; intro _ _; rotate_left; unfold x; clear x; rotate_left)
      | (extract_lets -useContext +onlyGivenNames x; revert x; intro _)
      | with_reducible refine putEntries_keeps (sub_of (by decide) hp) ?_
      | with_reducible refine memRead_keeps (sub_of (by decide) hp) ?_
      | with_reducible refine keepsP_fst (memRead_keeps (sub_of (by decide) hp) ?_)
      | with_reducible refine keepsP_eq (memRead_keeps (sub_of (by decide) hp) ?_) (by assumption)
      | split
      | (clear_value *; split)
      | with_reducible refine keepsP_eq ?_ (by assumption)
      | with_reducible refine keepsO_eq ?_ (by assumption)
      | with_reducible refine keepsP_mk ?_
  | cons hd tl ih =>
    unfold loadPages
    repeat' first
      | with_reducible assumption
      | with_reducible exact keepsP_fst (by assumption)
      | (extract_lets -useContext +onlyGivenNames x; refine (fun (hx : Keeps ps z x) => ?_) ?_; clear_value x; revert x; intro _ _; rotate_left; unfold x; clear x; rotate_left)
      | (extract_lets -useContext +onlyGivenNames x; refine (fun (hx : KeepsP ps z x) => ?_) ?_; clear_value x; revert x; intro _ _; rotate_left; unfold x; clear x; rotate_left)
      | with_reducible refine ih ?_
      | with_reducible refine keepsP_fst (ih ?_)
      | with_reducible refine keepsP_eq (ih ?_) (by assumption)
      | (extract_lets -useContext +onlyGivenNames x; revert x; intro _)
      | with_reducible refine putEntries_keeps (sub_of (by decide) hp) ?_
      | with_reducible refine memRead_keeps (sub_of (by decide) hp) ?_
      | with_reducible refine keepsP_fst (memRead_keeps (sub_of (by decide) hp) ?_)
      | with_reducible refine keepsP_eq (memRead_keeps (sub_of (by decide) hp) ?_) (by assumption)
      | split
      | (clear_value *; split)
      | with_reducible refine keepsP_eq ?_ (by assumption)
      | with_reducible refine keepsO_eq ?_ (by assumption)
      | with_reducible refine keepsP_mk ?_

theorem execCatLoadDone_keeps {ps z} {s : Sys2Proof.Machine.State} (hp : [.regs, .mem, .mmu, .queues, .outbox, .bxl, .cat, .bridge] ⊆ ps) (h0 : Keeps ps z s) :
    KeepsR ps z (execCatLoadDone s) := by
  unfold execCatLoadDone
  repeat' first
    | with_reducible assumption
    | with_reducible exact keepsP_fst (by assumption)
    | (extract_lets -useContext +onlyGivenNames x; refine (fun (hx : Keeps ps z x) => ?_) ?_; clear_value x; revert x; intro _ _; rotate_left; unfold x; clear x; rotate_left)
    | (extract_lets -useContext +onlyGivenNames x; refine (fun (hx : KeepsP ps z x) => ?_) ?_; clear_value x; revert x; intro _ _; rotate_left; unfold x; clear x; rotate_left)
    | (extract_lets -useContext +onlyGivenNames x; revert x; intro _)
    | with_reducible refine keepsR_next ?_
    | with_reducible exact keepsR_fault
    | with_reducible refine badCmd_keeps (sub_of (by decide) hp) ?_
    | with_reducible refine doneCmd_keeps (sub_of (by decide) hp) ?_
    | with_reducible refine State.setReg_keeps (sub_of (by decide) hp) ?_
    | with_reducible refine takeAnswers_keeps (sub_of (by decide) hp) ?_
    | with_reducible refine keepRequests_keeps (sub_of (by decide) hp) ?_ ?_
    | with_reducible refine loadPages_keeps (sub_of (by decide) hp) ?_
    | with_reducible refine keepsP_fst (loadPages_keeps (sub_of (by decide) hp) ?_)
    | with_reducible refine keepsP_eq (loadPages_keeps (sub_of (by decide) hp) ?_) (by assumption)
    | with_reducible refine endCmd_keeps (sub_of (by decide) hp) ?_
    | split
    | (clear_value *; split)
    | with_reducible refine keeps_with_cat (mem_of (by decide) hp) ?_
    | with_reducible refine keepsP_eq ?_ (by assumption)
    | with_reducible refine keepsO_eq ?_ (by assumption)
    | with_reducible refine keepsP_mk ?_

theorem writeCatCtrl_keeps {ps z} {s : Sys2Proof.Machine.State} {v : Nat} (hp : [.regs] ⊆ ps) (h0 : Keeps ps z s) :
    KeepsO ps z (writeCatCtrl s v) := by
  unfold writeCatCtrl
  repeat' first
    | with_reducible assumption
    | with_reducible exact keepsP_fst (by assumption)
    | (extract_lets -useContext +onlyGivenNames x; refine (fun (hx : Keeps ps z x) => ?_) ?_; clear_value x; revert x; intro _ _; rotate_left; unfold x; clear x; rotate_left)
    | (extract_lets -useContext +onlyGivenNames x; refine (fun (hx : KeepsO ps z x) => ?_) ?_; clear_value x; revert x; intro _ _; rotate_left; unfold x; clear x; rotate_left)
    | with_reducible exact keepsO_get (by assumption)
    | (extract_lets -useContext +onlyGivenNames x; revert x; intro _)
    | exact keepsO_none
    | with_reducible refine keepsO_some ?_
    | with_reducible refine State.setReg_keeps (sub_of (by decide) hp) ?_
    | split
    | (clear_value *; split)
    | with_reducible refine keepsP_eq ?_ (by assumption)
    | with_reducible refine keepsO_eq ?_ (by assumption)
    | with_reducible refine keepsP_mk ?_

end Sys2Proof.Machine
end

