-- ==== Sys2Proof/Laws/FrameSequencer.lean ====
section
/-!
SUPPORT. Frames: for each operation of Sys2Proof/Machine/Sequencer.lean, the parts of State it may change, and that it keeps the stores'
canonical form.
-/
namespace Sys2Proof.Machine

open Sys2Proof

/-- The frame of an instruction's result, whatever the program counter does. -/
def KeepsS (ps : List Part) (z : State) (r : SRes) : Prop :=
  match r with
  | .next t | .jump t _ | .fault t _ | .host t | .stay t => Keeps ps z t
  | .stall => True

theorem keepsS_next {ps z t} (h : Keeps ps z t) : KeepsS ps z (.next t) := h
theorem keepsS_jump {ps z t o} (h : Keeps ps z t) : KeepsS ps z (.jump t o) := h
theorem keepsS_fault {ps z t c} (h : Keeps ps z t) : KeepsS ps z (.fault t c) := h
theorem keepsS_host {ps z t} (h : Keeps ps z t) : KeepsS ps z (.host t) := h
theorem keepsS_stay {ps z t} (h : Keeps ps z t) : KeepsS ps z (.stay t) := h
theorem keepsS_eq {ps z r r'} (h : KeepsS ps z r) (e : r = r') : KeepsS ps z r' := e ▸ h
theorem keepsS_host_eq {ps z r t} (h : KeepsS ps z r) (e : r = .host t) : Keeps ps z t := keepsS_eq h e
theorem keepsS_stall {ps z} : KeepsS ps z .stall := trivial

theorem State.setSeqReg_keeps {ps z} {s : Sys2Proof.Machine.State} {n : Nat} {o : Nat} {v : Nat} (hp : [.regs] ⊆ ps) (h0 : Keeps ps z s) :
    Keeps ps z (State.setSeqReg s n o v) := by
  unfold State.setSeqReg
  repeat' first
    | with_reducible assumption
    | with_reducible exact keepsP_fst (by assumption)
    | (extract_lets -useContext +onlyGivenNames x; refine (fun (hx : Keeps ps z x) => ?_) ?_; clear_value x; revert x; intro _ _; rotate_left; unfold x; clear x; rotate_left)
    | (extract_lets -useContext +onlyGivenNames x; revert x; intro _)
    | with_reducible refine State.setReg_keeps (sub_of (by decide) hp) ?_
    | split
    | (clear_value *; split)
    | with_reducible refine keepsP_eq ?_ (by assumption)
    | with_reducible refine keepsO_eq ?_ (by assumption)
    | with_reducible refine keepsP_mk ?_

theorem putTrace_keeps {ps z} {s : Sys2Proof.Machine.State} {n : Nat} {k : Sys2Proof.Machine.TraceKind} {word : Nat} {pc : Nat} (hp : [.regs, .isl, .mem, .seq, .outbox, .bridge] ⊆ ps) (h0 : Keeps ps z s) :
    Keeps ps z (putTrace s n k word pc) := by
  unfold putTrace
  repeat' first
    | with_reducible assumption
    | with_reducible exact keepsP_fst (by assumption)
    | (extract_lets -useContext +onlyGivenNames x; refine (fun (hx : Keeps ps z x) => ?_) ?_; clear_value x; revert x; intro _ _; rotate_left; unfold x; clear x; rotate_left)
    | (extract_lets -useContext +onlyGivenNames x; revert x; intro _)
    | with_reducible refine State.setIsl_keeps (sub_of (by decide) hp) ?_
    | with_reducible refine State.setSeqReg_keeps (sub_of (by decide) hp) ?_
    | with_reducible refine State.setSeq_keeps (sub_of (by decide) hp) ?_
    | with_reducible refine ringWrite_keeps (sub_of (by decide) hp) ?_
    | split
    | (clear_value *; split)
    | with_reducible refine keepsP_eq ?_ (by assumption)
    | with_reducible refine keepsO_eq ?_ (by assumption)
    | with_reducible refine keepsP_mk ?_

theorem trace_keeps {ps z} {s : Sys2Proof.Machine.State} {n : Nat} {k : Sys2Proof.Machine.TraceKind} {word : Nat} {pc : Nat} (hp : [.regs, .isl, .mem, .seq, .outbox, .draws, .bridge] ⊆ ps) (h0 : Keeps ps z s) :
    Keeps ps z (trace s n k word pc) := by
  unfold trace
  repeat' first
    | with_reducible assumption
    | with_reducible exact keepsP_fst (by assumption)
    | (extract_lets -useContext +onlyGivenNames x; refine (fun (hx : Keeps ps z x) => ?_) ?_; clear_value x; revert x; intro _ _; rotate_left; unfold x; clear x; rotate_left)
    | (extract_lets -useContext +onlyGivenNames x; revert x; intro _)
    | with_reducible refine putTrace_keeps (sub_of (by decide) hp) ?_
    | with_reducible refine State.setIsl_keeps (sub_of (by decide) hp) ?_
    | split
    | (clear_value *; split)
    | with_reducible refine keeps_with_draws (mem_of (by decide) hp) ?_
    | with_reducible refine keepsP_eq ?_ (by assumption)
    | with_reducible refine keepsO_eq ?_ (by assumption)
    | with_reducible refine keepsP_mk ?_

theorem traceIf_keeps {ps z} {s : Sys2Proof.Machine.State} {n : Nat} {op : Nat} {k : Sys2Proof.Machine.TraceKind} {word : Nat} {pc : Nat} (hp : [.regs, .isl, .mem, .seq, .outbox, .draws, .bridge] ⊆ ps) (h0 : Keeps ps z s) :
    Keeps ps z (traceIf s n op k word pc) := by
  unfold traceIf
  repeat' first
    | with_reducible assumption
    | with_reducible exact keepsP_fst (by assumption)
    | (extract_lets -useContext +onlyGivenNames x; refine (fun (hx : Keeps ps z x) => ?_) ?_; clear_value x; revert x; intro _ _; rotate_left; unfold x; clear x; rotate_left)
    | (extract_lets -useContext +onlyGivenNames x; revert x; intro _)
    | with_reducible refine trace_keeps (sub_of (by decide) hp) ?_
    | split
    | (clear_value *; split)
    | with_reducible refine keepsP_eq ?_ (by assumption)
    | with_reducible refine keepsO_eq ?_ (by assumption)
    | with_reducible refine keepsP_mk ?_

theorem seqFault_keeps {ps z} {s : Sys2Proof.Machine.State} {n : Nat} {code : Nat} (hp : [.regs, .mem, .seq, .outbox, .bridge] ⊆ ps) (h0 : Keeps ps z s) :
    Keeps ps z (seqFault s n code) := by
  unfold seqFault
  repeat' first
    | with_reducible assumption
    | with_reducible exact keepsP_fst (by assumption)
    | (extract_lets -useContext +onlyGivenNames x; refine (fun (hx : Keeps ps z x) => ?_) ?_; clear_value x; revert x; intro _ _; rotate_left; unfold x; clear x; rotate_left)
    | (extract_lets -useContext +onlyGivenNames x; revert x; intro _)
    | with_reducible refine seqFail_keeps (sub_of (by decide) hp) ?_
    | with_reducible refine capture_keeps (sub_of (by decide) hp) ?_
    | with_reducible refine State.setSeqReg_keeps (sub_of (by decide) hp) ?_
    | split
    | (clear_value *; split)
    | with_reducible refine keepsP_eq ?_ (by assumption)
    | with_reducible refine keepsO_eq ?_ (by assumption)
    | with_reducible refine keepsP_mk ?_

theorem seqRead_keeps {ps z} {s : Sys2Proof.Machine.State} {n : Nat} {va : Nat} {len : Nat} (hp : [.regs, .mem, .mmu, .outbox, .bxl, .bridge] ⊆ ps) (h0 : Keeps ps z s) :
    KeepsP ps z (seqRead s n va len) := by
  unfold seqRead
  repeat' first
    | with_reducible assumption
    | with_reducible exact keepsP_fst (by assumption)
    | (extract_lets -useContext +onlyGivenNames x; refine (fun (hx : Keeps ps z x) => ?_) ?_; clear_value x; revert x; intro _ _; rotate_left; unfold x; clear x; rotate_left)
    | (extract_lets -useContext +onlyGivenNames x; refine (fun (hx : KeepsP ps z x) => ?_) ?_; clear_value x; revert x; intro _ _; rotate_left; unfold x; clear x; rotate_left)
    | (extract_lets -useContext +onlyGivenNames x; revert x; intro _)
    | with_reducible refine memRead_keeps (sub_of (by decide) hp) ?_
    | with_reducible refine keepsP_fst (memRead_keeps (sub_of (by decide) hp) ?_)
    | with_reducible refine keepsP_eq (memRead_keeps (sub_of (by decide) hp) ?_) (by assumption)
    | split
    | (clear_value *; split)
    | with_reducible refine keepsP_eq ?_ (by assumption)
    | with_reducible refine keepsO_eq ?_ (by assumption)
    | with_reducible refine keepsP_mk ?_

theorem seqAdvance_keeps {ps z} {s0 : State} {n : Nat} {r : SRes} (hp : [.regs, .mem, .seq, .outbox, .bxl, .bridge] ⊆ ps) (h0 : Keeps ps z s0)
    (hr : KeepsS ps z r) : KeepsR ps z (seqAdvance s0 n r) := by
  unfold seqAdvance
  extract_lets f q
  have hf : ∀ t, Keeps ps z t → Keeps ps z (f t) := fun t ht => takeAnswers_keeps (sub_of (by decide) hp) ht
  have hs : ∀ t v, Keeps ps z t → Keeps ps z (t.setSeq n v) := fun t v ht => State.setSeq_keeps (sub_of (by decide) hp) ht
  clear_value f q
  cases r with
  | next t =>
    dsimp only
    split
    · exact keepsR_next (seqFault_keeps (sub_of (by decide) hp) (hf _ hr))
    · exact keepsR_next (hs _ _ (hf _ hr))
  | jump t o => exact keepsR_next (hs _ _ (hf _ hr))
  | fault t c => exact keepsR_next (seqFault_keeps (sub_of (by decide) hp) (hf _ hr))
  | stall => exact keepsR_next (hs _ _ h0)
  | host t => exact keepsR_next (hs _ _ (keepRequests_keeps (sub_of (by decide) hp) h0 hr))
  | stay t => exact keepsR_next (hf _ hr)

theorem seqStep_keeps {ps z} {n : Sys2Proof.SeqId} {op : Nat} {f : Sys2Proof.Machine.State → Nat → Sys2Proof.Machine.SRes} {s : Sys2Proof.Machine.State} (hp : [.regs, .mem, .mmu, .seq, .outbox, .bxl, .bridge] ⊆ ps) (h2 : ∀ x0 x1, Keeps ps z x0 → KeepsS ps z (f x0 x1)) (h3 : Keeps ps z s) :
    KeepsR ps z (seqStep n op f s) := by
  unfold seqStep
  repeat' first
    | with_reducible assumption
    | with_reducible exact keepsP_fst (by assumption)
    | (extract_lets -useContext +onlyGivenNames x; refine (fun (hx : Keeps ps z x) => ?_) ?_; clear_value x; revert x; intro _ _; rotate_left; unfold x; clear x; rotate_left)
    | (extract_lets -useContext +onlyGivenNames x; refine (fun (hx : KeepsP ps z x) => ?_) ?_; clear_value x; revert x; intro _ _; rotate_left; unfold x; clear x; rotate_left)
    | with_reducible refine h2 _ _ ?_
    | with_reducible refine keepsS_host_eq (h2 _ _ ?_) (by assumption)
    | with_reducible refine keepsS_eq (h2 _ _ ?_) (by assumption)
    | (extract_lets -useContext +onlyGivenNames x; revert x; intro _)
    | with_reducible refine keepsR_next ?_
    | with_reducible exact keepsR_fault
    | with_reducible refine keepsS_next ?_
    | with_reducible refine keepsS_jump ?_
    | with_reducible refine keepsS_fault ?_
    | with_reducible refine keepsS_host ?_
    | with_reducible refine keepsS_stay ?_
    | exact keepsS_stall
    | with_reducible refine seqAdvance_keeps (sub_of (by decide) hp) ?_ ?_
    | with_reducible refine keepsR_eq (seqAdvance_keeps (sub_of (by decide) hp) ?_ ?_) (by assumption)
    | with_reducible refine State.setSeq_keeps (sub_of (by decide) hp) ?_
    | with_reducible refine takeAnswers_keeps (sub_of (by decide) hp) ?_
    | with_reducible refine seqFault_keeps (sub_of (by decide) hp) ?_
    | with_reducible refine keepRequests_keeps (sub_of (by decide) hp) ?_ ?_
    | with_reducible refine seqRead_keeps (sub_of (by decide) hp) ?_
    | with_reducible refine keepsP_fst (seqRead_keeps (sub_of (by decide) hp) ?_)
    | with_reducible refine keepsP_eq (seqRead_keeps (sub_of (by decide) hp) ?_) (by assumption)
    | with_reducible refine seqFail_keeps (sub_of (by decide) hp) ?_
    | split
    | (clear_value *; split)
    | with_reducible refine keepsP_eq ?_ (by assumption)
    | with_reducible refine keepsO_eq ?_ (by assumption)
    | with_reducible refine keepsP_mk ?_

theorem seqAlu_keeps {ps z} {n : Nat} {g : Sys2Proof.Machine.Seq → Nat → Nat} {s : Sys2Proof.Machine.State} {w : Nat} (hp : [.regs, .isl, .mem, .seq, .outbox, .draws, .bridge] ⊆ ps) (h2 : Keeps ps z s) :
    KeepsS ps z (seqAlu n g s w) := by
  unfold seqAlu
  repeat' first
    | with_reducible assumption
    | with_reducible exact keepsP_fst (by assumption)
    | (extract_lets -useContext +onlyGivenNames x; refine (fun (hx : Keeps ps z x) => ?_) ?_; clear_value x; revert x; intro _ _; rotate_left; unfold x; clear x; rotate_left)
    | (extract_lets -useContext +onlyGivenNames x; revert x; intro _)
    | with_reducible refine keepsS_next ?_
    | with_reducible refine keepsS_jump ?_
    | with_reducible refine keepsS_fault ?_
    | with_reducible refine keepsS_host ?_
    | with_reducible refine keepsS_stay ?_
    | exact keepsS_stall
    | with_reducible refine State.setSeq_keeps (sub_of (by decide) hp) ?_
    | with_reducible refine traceIf_keeps (sub_of (by decide) hp) ?_
    | split
    | (clear_value *; split)
    | with_reducible refine keepsP_eq ?_ (by assumption)
    | with_reducible refine keepsO_eq ?_ (by assumption)
    | with_reducible refine keepsP_mk ?_

theorem execAdd_keeps {ps z} {n : Sys2Proof.SeqId} {s : Sys2Proof.Machine.State} (hp : [.regs, .isl, .mem, .mmu, .seq, .outbox, .draws, .bxl, .bridge] ⊆ ps) (h1 : Keeps ps z s) :
    KeepsR ps z (execAdd n s) := by
  unfold execAdd
  repeat' first
    | with_reducible assumption
    | with_reducible exact keepsP_fst (by assumption)
    | (extract_lets -useContext +onlyGivenNames x; refine (fun (hx : Keeps ps z x) => ?_) ?_; clear_value x; revert x; intro _ _; rotate_left; unfold x; clear x; rotate_left)
    | (extract_lets -useContext +onlyGivenNames x; revert x; intro _)
    | with_reducible refine keepsR_next ?_
    | with_reducible exact keepsR_fault
    | with_reducible refine keepsS_next ?_
    | with_reducible refine keepsS_jump ?_
    | with_reducible refine keepsS_fault ?_
    | with_reducible refine keepsS_host ?_
    | with_reducible refine keepsS_stay ?_
    | exact keepsS_stall
    | with_reducible refine seqAlu_keeps (sub_of (by decide) hp) ?_
    | with_reducible refine keepsS_host_eq (seqAlu_keeps (sub_of (by decide) hp) ?_) (by assumption)
    | with_reducible refine keepsS_eq (seqAlu_keeps (sub_of (by decide) hp) ?_) (by assumption)
    | with_reducible refine seqStep_keeps (sub_of (by decide) hp) (fun x0 x1 hx0 => ?_) ?_
    | with_reducible refine keepsR_eq (seqStep_keeps (sub_of (by decide) hp) (fun x0 x1 hx0 => ?_) ?_) (by assumption)
    | split
    | (clear_value *; split)
    | with_reducible refine keepsP_eq ?_ (by assumption)
    | with_reducible refine keepsO_eq ?_ (by assumption)
    | with_reducible refine keepsP_mk ?_

theorem execSub_keeps {ps z} {n : Sys2Proof.SeqId} {s : Sys2Proof.Machine.State} (hp : [.regs, .isl, .mem, .mmu, .seq, .outbox, .draws, .bxl, .bridge] ⊆ ps) (h1 : Keeps ps z s) :
    KeepsR ps z (execSub n s) := by
  unfold execSub
  repeat' first
    | with_reducible assumption
    | with_reducible exact keepsP_fst (by assumption)
    | (extract_lets -useContext +onlyGivenNames x; refine (fun (hx : Keeps ps z x) => ?_) ?_; clear_value x; revert x; intro _ _; rotate_left; unfold x; clear x; rotate_left)
    | (extract_lets -useContext +onlyGivenNames x; revert x; intro _)
    | with_reducible refine keepsR_next ?_
    | with_reducible exact keepsR_fault
    | with_reducible refine keepsS_next ?_
    | with_reducible refine keepsS_jump ?_
    | with_reducible refine keepsS_fault ?_
    | with_reducible refine keepsS_host ?_
    | with_reducible refine keepsS_stay ?_
    | exact keepsS_stall
    | with_reducible refine seqAlu_keeps (sub_of (by decide) hp) ?_
    | with_reducible refine keepsS_host_eq (seqAlu_keeps (sub_of (by decide) hp) ?_) (by assumption)
    | with_reducible refine keepsS_eq (seqAlu_keeps (sub_of (by decide) hp) ?_) (by assumption)
    | with_reducible refine seqStep_keeps (sub_of (by decide) hp) (fun x0 x1 hx0 => ?_) ?_
    | with_reducible refine keepsR_eq (seqStep_keeps (sub_of (by decide) hp) (fun x0 x1 hx0 => ?_) ?_) (by assumption)
    | split
    | (clear_value *; split)
    | with_reducible refine keepsP_eq ?_ (by assumption)
    | with_reducible refine keepsO_eq ?_ (by assumption)
    | with_reducible refine keepsP_mk ?_

theorem execSeqAnd_keeps {ps z} {n : Sys2Proof.SeqId} {s : Sys2Proof.Machine.State} (hp : [.regs, .isl, .mem, .mmu, .seq, .outbox, .draws, .bxl, .bridge] ⊆ ps) (h1 : Keeps ps z s) :
    KeepsR ps z (execSeqAnd n s) := by
  unfold execSeqAnd
  repeat' first
    | with_reducible assumption
    | with_reducible exact keepsP_fst (by assumption)
    | (extract_lets -useContext +onlyGivenNames x; refine (fun (hx : Keeps ps z x) => ?_) ?_; clear_value x; revert x; intro _ _; rotate_left; unfold x; clear x; rotate_left)
    | (extract_lets -useContext +onlyGivenNames x; revert x; intro _)
    | with_reducible refine keepsR_next ?_
    | with_reducible exact keepsR_fault
    | with_reducible refine keepsS_next ?_
    | with_reducible refine keepsS_jump ?_
    | with_reducible refine keepsS_fault ?_
    | with_reducible refine keepsS_host ?_
    | with_reducible refine keepsS_stay ?_
    | exact keepsS_stall
    | with_reducible refine seqAlu_keeps (sub_of (by decide) hp) ?_
    | with_reducible refine keepsS_host_eq (seqAlu_keeps (sub_of (by decide) hp) ?_) (by assumption)
    | with_reducible refine keepsS_eq (seqAlu_keeps (sub_of (by decide) hp) ?_) (by assumption)
    | with_reducible refine seqStep_keeps (sub_of (by decide) hp) (fun x0 x1 hx0 => ?_) ?_
    | with_reducible refine keepsR_eq (seqStep_keeps (sub_of (by decide) hp) (fun x0 x1 hx0 => ?_) ?_) (by assumption)
    | split
    | (clear_value *; split)
    | with_reducible refine keepsP_eq ?_ (by assumption)
    | with_reducible refine keepsO_eq ?_ (by assumption)
    | with_reducible refine keepsP_mk ?_

theorem execSeqOr_keeps {ps z} {n : Sys2Proof.SeqId} {s : Sys2Proof.Machine.State} (hp : [.regs, .isl, .mem, .mmu, .seq, .outbox, .draws, .bxl, .bridge] ⊆ ps) (h1 : Keeps ps z s) :
    KeepsR ps z (execSeqOr n s) := by
  unfold execSeqOr
  repeat' first
    | with_reducible assumption
    | with_reducible exact keepsP_fst (by assumption)
    | (extract_lets -useContext +onlyGivenNames x; refine (fun (hx : Keeps ps z x) => ?_) ?_; clear_value x; revert x; intro _ _; rotate_left; unfold x; clear x; rotate_left)
    | (extract_lets -useContext +onlyGivenNames x; revert x; intro _)
    | with_reducible refine keepsR_next ?_
    | with_reducible exact keepsR_fault
    | with_reducible refine keepsS_next ?_
    | with_reducible refine keepsS_jump ?_
    | with_reducible refine keepsS_fault ?_
    | with_reducible refine keepsS_host ?_
    | with_reducible refine keepsS_stay ?_
    | exact keepsS_stall
    | with_reducible refine seqAlu_keeps (sub_of (by decide) hp) ?_
    | with_reducible refine keepsS_host_eq (seqAlu_keeps (sub_of (by decide) hp) ?_) (by assumption)
    | with_reducible refine keepsS_eq (seqAlu_keeps (sub_of (by decide) hp) ?_) (by assumption)
    | with_reducible refine seqStep_keeps (sub_of (by decide) hp) (fun x0 x1 hx0 => ?_) ?_
    | with_reducible refine keepsR_eq (seqStep_keeps (sub_of (by decide) hp) (fun x0 x1 hx0 => ?_) ?_) (by assumption)
    | split
    | (clear_value *; split)
    | with_reducible refine keepsP_eq ?_ (by assumption)
    | with_reducible refine keepsO_eq ?_ (by assumption)
    | with_reducible refine keepsP_mk ?_

theorem execSeqXor_keeps {ps z} {n : Sys2Proof.SeqId} {s : Sys2Proof.Machine.State} (hp : [.regs, .isl, .mem, .mmu, .seq, .outbox, .draws, .bxl, .bridge] ⊆ ps) (h1 : Keeps ps z s) :
    KeepsR ps z (execSeqXor n s) := by
  unfold execSeqXor
  repeat' first
    | with_reducible assumption
    | with_reducible exact keepsP_fst (by assumption)
    | (extract_lets -useContext +onlyGivenNames x; refine (fun (hx : Keeps ps z x) => ?_) ?_; clear_value x; revert x; intro _ _; rotate_left; unfold x; clear x; rotate_left)
    | (extract_lets -useContext +onlyGivenNames x; revert x; intro _)
    | with_reducible refine keepsR_next ?_
    | with_reducible exact keepsR_fault
    | with_reducible refine keepsS_next ?_
    | with_reducible refine keepsS_jump ?_
    | with_reducible refine keepsS_fault ?_
    | with_reducible refine keepsS_host ?_
    | with_reducible refine keepsS_stay ?_
    | exact keepsS_stall
    | with_reducible refine seqAlu_keeps (sub_of (by decide) hp) ?_
    | with_reducible refine keepsS_host_eq (seqAlu_keeps (sub_of (by decide) hp) ?_) (by assumption)
    | with_reducible refine keepsS_eq (seqAlu_keeps (sub_of (by decide) hp) ?_) (by assumption)
    | with_reducible refine seqStep_keeps (sub_of (by decide) hp) (fun x0 x1 hx0 => ?_) ?_
    | with_reducible refine keepsR_eq (seqStep_keeps (sub_of (by decide) hp) (fun x0 x1 hx0 => ?_) ?_) (by assumption)
    | split
    | (clear_value *; split)
    | with_reducible refine keepsP_eq ?_ (by assumption)
    | with_reducible refine keepsO_eq ?_ (by assumption)
    | with_reducible refine keepsP_mk ?_

theorem execShl_keeps {ps z} {n : Sys2Proof.SeqId} {s : Sys2Proof.Machine.State} (hp : [.regs, .isl, .mem, .mmu, .seq, .outbox, .draws, .bxl, .bridge] ⊆ ps) (h1 : Keeps ps z s) :
    KeepsR ps z (execShl n s) := by
  unfold execShl
  repeat' first
    | with_reducible assumption
    | with_reducible exact keepsP_fst (by assumption)
    | (extract_lets -useContext +onlyGivenNames x; refine (fun (hx : Keeps ps z x) => ?_) ?_; clear_value x; revert x; intro _ _; rotate_left; unfold x; clear x; rotate_left)
    | (extract_lets -useContext +onlyGivenNames x; revert x; intro _)
    | with_reducible refine keepsR_next ?_
    | with_reducible exact keepsR_fault
    | with_reducible refine keepsS_next ?_
    | with_reducible refine keepsS_jump ?_
    | with_reducible refine keepsS_fault ?_
    | with_reducible refine keepsS_host ?_
    | with_reducible refine keepsS_stay ?_
    | exact keepsS_stall
    | with_reducible refine seqAlu_keeps (sub_of (by decide) hp) ?_
    | with_reducible refine keepsS_host_eq (seqAlu_keeps (sub_of (by decide) hp) ?_) (by assumption)
    | with_reducible refine keepsS_eq (seqAlu_keeps (sub_of (by decide) hp) ?_) (by assumption)
    | with_reducible refine seqStep_keeps (sub_of (by decide) hp) (fun x0 x1 hx0 => ?_) ?_
    | with_reducible refine keepsR_eq (seqStep_keeps (sub_of (by decide) hp) (fun x0 x1 hx0 => ?_) ?_) (by assumption)
    | split
    | (clear_value *; split)
    | with_reducible refine keepsP_eq ?_ (by assumption)
    | with_reducible refine keepsO_eq ?_ (by assumption)
    | with_reducible refine keepsP_mk ?_

theorem execShr_keeps {ps z} {n : Sys2Proof.SeqId} {s : Sys2Proof.Machine.State} (hp : [.regs, .isl, .mem, .mmu, .seq, .outbox, .draws, .bxl, .bridge] ⊆ ps) (h1 : Keeps ps z s) :
    KeepsR ps z (execShr n s) := by
  unfold execShr
  repeat' first
    | with_reducible assumption
    | with_reducible exact keepsP_fst (by assumption)
    | (extract_lets -useContext +onlyGivenNames x; refine (fun (hx : Keeps ps z x) => ?_) ?_; clear_value x; revert x; intro _ _; rotate_left; unfold x; clear x; rotate_left)
    | (extract_lets -useContext +onlyGivenNames x; revert x; intro _)
    | with_reducible refine keepsR_next ?_
    | with_reducible exact keepsR_fault
    | with_reducible refine keepsS_next ?_
    | with_reducible refine keepsS_jump ?_
    | with_reducible refine keepsS_fault ?_
    | with_reducible refine keepsS_host ?_
    | with_reducible refine keepsS_stay ?_
    | exact keepsS_stall
    | with_reducible refine seqAlu_keeps (sub_of (by decide) hp) ?_
    | with_reducible refine keepsS_host_eq (seqAlu_keeps (sub_of (by decide) hp) ?_) (by assumption)
    | with_reducible refine keepsS_eq (seqAlu_keeps (sub_of (by decide) hp) ?_) (by assumption)
    | with_reducible refine seqStep_keeps (sub_of (by decide) hp) (fun x0 x1 hx0 => ?_) ?_
    | with_reducible refine keepsR_eq (seqStep_keeps (sub_of (by decide) hp) (fun x0 x1 hx0 => ?_) ?_) (by assumption)
    | split
    | (clear_value *; split)
    | with_reducible refine keepsP_eq ?_ (by assumption)
    | with_reducible refine keepsO_eq ?_ (by assumption)
    | with_reducible refine keepsP_mk ?_

theorem execMul_keeps {ps z} {n : Sys2Proof.SeqId} {s : Sys2Proof.Machine.State} (hp : [.regs, .isl, .mem, .mmu, .seq, .outbox, .draws, .bxl, .bridge] ⊆ ps) (h1 : Keeps ps z s) :
    KeepsR ps z (execMul n s) := by
  unfold execMul
  repeat' first
    | with_reducible assumption
    | with_reducible exact keepsP_fst (by assumption)
    | (extract_lets -useContext +onlyGivenNames x; refine (fun (hx : Keeps ps z x) => ?_) ?_; clear_value x; revert x; intro _ _; rotate_left; unfold x; clear x; rotate_left)
    | (extract_lets -useContext +onlyGivenNames x; revert x; intro _)
    | with_reducible refine keepsR_next ?_
    | with_reducible exact keepsR_fault
    | with_reducible refine keepsS_next ?_
    | with_reducible refine keepsS_jump ?_
    | with_reducible refine keepsS_fault ?_
    | with_reducible refine keepsS_host ?_
    | with_reducible refine keepsS_stay ?_
    | exact keepsS_stall
    | with_reducible refine seqAlu_keeps (sub_of (by decide) hp) ?_
    | with_reducible refine keepsS_host_eq (seqAlu_keeps (sub_of (by decide) hp) ?_) (by assumption)
    | with_reducible refine keepsS_eq (seqAlu_keeps (sub_of (by decide) hp) ?_) (by assumption)
    | with_reducible refine seqStep_keeps (sub_of (by decide) hp) (fun x0 x1 hx0 => ?_) ?_
    | with_reducible refine keepsR_eq (seqStep_keeps (sub_of (by decide) hp) (fun x0 x1 hx0 => ?_) ?_) (by assumption)
    | split
    | (clear_value *; split)
    | with_reducible refine keepsP_eq ?_ (by assumption)
    | with_reducible refine keepsO_eq ?_ (by assumption)
    | with_reducible refine keepsP_mk ?_

theorem execSltu_keeps {ps z} {n : Sys2Proof.SeqId} {s : Sys2Proof.Machine.State} (hp : [.regs, .isl, .mem, .mmu, .seq, .outbox, .draws, .bxl, .bridge] ⊆ ps) (h1 : Keeps ps z s) :
    KeepsR ps z (execSltu n s) := by
  unfold execSltu
  repeat' first
    | with_reducible assumption
    | with_reducible exact keepsP_fst (by assumption)
    | (extract_lets -useContext +onlyGivenNames x; refine (fun (hx : Keeps ps z x) => ?_) ?_; clear_value x; revert x; intro _ _; rotate_left; unfold x; clear x; rotate_left)
    | (extract_lets -useContext +onlyGivenNames x; revert x; intro _)
    | with_reducible refine keepsR_next ?_
    | with_reducible exact keepsR_fault
    | with_reducible refine keepsS_next ?_
    | with_reducible refine keepsS_jump ?_
    | with_reducible refine keepsS_fault ?_
    | with_reducible refine keepsS_host ?_
    | with_reducible refine keepsS_stay ?_
    | exact keepsS_stall
    | with_reducible refine seqAlu_keeps (sub_of (by decide) hp) ?_
    | with_reducible refine keepsS_host_eq (seqAlu_keeps (sub_of (by decide) hp) ?_) (by assumption)
    | with_reducible refine keepsS_eq (seqAlu_keeps (sub_of (by decide) hp) ?_) (by assumption)
    | with_reducible refine seqStep_keeps (sub_of (by decide) hp) (fun x0 x1 hx0 => ?_) ?_
    | with_reducible refine keepsR_eq (seqStep_keeps (sub_of (by decide) hp) (fun x0 x1 hx0 => ?_) ?_) (by assumption)
    | split
    | (clear_value *; split)
    | with_reducible refine keepsP_eq ?_ (by assumption)
    | with_reducible refine keepsO_eq ?_ (by assumption)
    | with_reducible refine keepsP_mk ?_

theorem execAddi_keeps {ps z} {n : Sys2Proof.SeqId} {s : Sys2Proof.Machine.State} (hp : [.regs, .isl, .mem, .mmu, .seq, .outbox, .draws, .bxl, .bridge] ⊆ ps) (h1 : Keeps ps z s) :
    KeepsR ps z (execAddi n s) := by
  unfold execAddi
  repeat' first
    | with_reducible assumption
    | with_reducible exact keepsP_fst (by assumption)
    | (extract_lets -useContext +onlyGivenNames x; refine (fun (hx : Keeps ps z x) => ?_) ?_; clear_value x; revert x; intro _ _; rotate_left; unfold x; clear x; rotate_left)
    | (extract_lets -useContext +onlyGivenNames x; revert x; intro _)
    | with_reducible refine keepsR_next ?_
    | with_reducible exact keepsR_fault
    | with_reducible refine keepsS_next ?_
    | with_reducible refine keepsS_jump ?_
    | with_reducible refine keepsS_fault ?_
    | with_reducible refine keepsS_host ?_
    | with_reducible refine keepsS_stay ?_
    | exact keepsS_stall
    | with_reducible refine seqAlu_keeps (sub_of (by decide) hp) ?_
    | with_reducible refine keepsS_host_eq (seqAlu_keeps (sub_of (by decide) hp) ?_) (by assumption)
    | with_reducible refine keepsS_eq (seqAlu_keeps (sub_of (by decide) hp) ?_) (by assumption)
    | with_reducible refine seqStep_keeps (sub_of (by decide) hp) (fun x0 x1 hx0 => ?_) ?_
    | with_reducible refine keepsR_eq (seqStep_keeps (sub_of (by decide) hp) (fun x0 x1 hx0 => ?_) ?_) (by assumption)
    | split
    | (clear_value *; split)
    | with_reducible refine keepsP_eq ?_ (by assumption)
    | with_reducible refine keepsO_eq ?_ (by assumption)
    | with_reducible refine keepsP_mk ?_

theorem execAndi_keeps {ps z} {n : Sys2Proof.SeqId} {s : Sys2Proof.Machine.State} (hp : [.regs, .isl, .mem, .mmu, .seq, .outbox, .draws, .bxl, .bridge] ⊆ ps) (h1 : Keeps ps z s) :
    KeepsR ps z (execAndi n s) := by
  unfold execAndi
  repeat' first
    | with_reducible assumption
    | with_reducible exact keepsP_fst (by assumption)
    | (extract_lets -useContext +onlyGivenNames x; refine (fun (hx : Keeps ps z x) => ?_) ?_; clear_value x; revert x; intro _ _; rotate_left; unfold x; clear x; rotate_left)
    | (extract_lets -useContext +onlyGivenNames x; revert x; intro _)
    | with_reducible refine keepsR_next ?_
    | with_reducible exact keepsR_fault
    | with_reducible refine keepsS_next ?_
    | with_reducible refine keepsS_jump ?_
    | with_reducible refine keepsS_fault ?_
    | with_reducible refine keepsS_host ?_
    | with_reducible refine keepsS_stay ?_
    | exact keepsS_stall
    | with_reducible refine seqAlu_keeps (sub_of (by decide) hp) ?_
    | with_reducible refine keepsS_host_eq (seqAlu_keeps (sub_of (by decide) hp) ?_) (by assumption)
    | with_reducible refine keepsS_eq (seqAlu_keeps (sub_of (by decide) hp) ?_) (by assumption)
    | with_reducible refine seqStep_keeps (sub_of (by decide) hp) (fun x0 x1 hx0 => ?_) ?_
    | with_reducible refine keepsR_eq (seqStep_keeps (sub_of (by decide) hp) (fun x0 x1 hx0 => ?_) ?_) (by assumption)
    | split
    | (clear_value *; split)
    | with_reducible refine keepsP_eq ?_ (by assumption)
    | with_reducible refine keepsO_eq ?_ (by assumption)
    | with_reducible refine keepsP_mk ?_

theorem execOri_keeps {ps z} {n : Sys2Proof.SeqId} {s : Sys2Proof.Machine.State} (hp : [.regs, .isl, .mem, .mmu, .seq, .outbox, .draws, .bxl, .bridge] ⊆ ps) (h1 : Keeps ps z s) :
    KeepsR ps z (execOri n s) := by
  unfold execOri
  repeat' first
    | with_reducible assumption
    | with_reducible exact keepsP_fst (by assumption)
    | (extract_lets -useContext +onlyGivenNames x; refine (fun (hx : Keeps ps z x) => ?_) ?_; clear_value x; revert x; intro _ _; rotate_left; unfold x; clear x; rotate_left)
    | (extract_lets -useContext +onlyGivenNames x; revert x; intro _)
    | with_reducible refine keepsR_next ?_
    | with_reducible exact keepsR_fault
    | with_reducible refine keepsS_next ?_
    | with_reducible refine keepsS_jump ?_
    | with_reducible refine keepsS_fault ?_
    | with_reducible refine keepsS_host ?_
    | with_reducible refine keepsS_stay ?_
    | exact keepsS_stall
    | with_reducible refine seqAlu_keeps (sub_of (by decide) hp) ?_
    | with_reducible refine keepsS_host_eq (seqAlu_keeps (sub_of (by decide) hp) ?_) (by assumption)
    | with_reducible refine keepsS_eq (seqAlu_keeps (sub_of (by decide) hp) ?_) (by assumption)
    | with_reducible refine seqStep_keeps (sub_of (by decide) hp) (fun x0 x1 hx0 => ?_) ?_
    | with_reducible refine keepsR_eq (seqStep_keeps (sub_of (by decide) hp) (fun x0 x1 hx0 => ?_) ?_) (by assumption)
    | split
    | (clear_value *; split)
    | with_reducible refine keepsP_eq ?_ (by assumption)
    | with_reducible refine keepsO_eq ?_ (by assumption)
    | with_reducible refine keepsP_mk ?_

theorem execShli_keeps {ps z} {n : Sys2Proof.SeqId} {s : Sys2Proof.Machine.State} (hp : [.regs, .isl, .mem, .mmu, .seq, .outbox, .draws, .bxl, .bridge] ⊆ ps) (h1 : Keeps ps z s) :
    KeepsR ps z (execShli n s) := by
  unfold execShli
  repeat' first
    | with_reducible assumption
    | with_reducible exact keepsP_fst (by assumption)
    | (extract_lets -useContext +onlyGivenNames x; refine (fun (hx : Keeps ps z x) => ?_) ?_; clear_value x; revert x; intro _ _; rotate_left; unfold x; clear x; rotate_left)
    | (extract_lets -useContext +onlyGivenNames x; revert x; intro _)
    | with_reducible refine keepsR_next ?_
    | with_reducible exact keepsR_fault
    | with_reducible refine keepsS_next ?_
    | with_reducible refine keepsS_jump ?_
    | with_reducible refine keepsS_fault ?_
    | with_reducible refine keepsS_host ?_
    | with_reducible refine keepsS_stay ?_
    | exact keepsS_stall
    | with_reducible refine seqAlu_keeps (sub_of (by decide) hp) ?_
    | with_reducible refine keepsS_host_eq (seqAlu_keeps (sub_of (by decide) hp) ?_) (by assumption)
    | with_reducible refine keepsS_eq (seqAlu_keeps (sub_of (by decide) hp) ?_) (by assumption)
    | with_reducible refine seqStep_keeps (sub_of (by decide) hp) (fun x0 x1 hx0 => ?_) ?_
    | with_reducible refine keepsR_eq (seqStep_keeps (sub_of (by decide) hp) (fun x0 x1 hx0 => ?_) ?_) (by assumption)
    | split
    | (clear_value *; split)
    | with_reducible refine keepsP_eq ?_ (by assumption)
    | with_reducible refine keepsO_eq ?_ (by assumption)
    | with_reducible refine keepsP_mk ?_

theorem execShri_keeps {ps z} {n : Sys2Proof.SeqId} {s : Sys2Proof.Machine.State} (hp : [.regs, .isl, .mem, .mmu, .seq, .outbox, .draws, .bxl, .bridge] ⊆ ps) (h1 : Keeps ps z s) :
    KeepsR ps z (execShri n s) := by
  unfold execShri
  repeat' first
    | with_reducible assumption
    | with_reducible exact keepsP_fst (by assumption)
    | (extract_lets -useContext +onlyGivenNames x; refine (fun (hx : Keeps ps z x) => ?_) ?_; clear_value x; revert x; intro _ _; rotate_left; unfold x; clear x; rotate_left)
    | (extract_lets -useContext +onlyGivenNames x; revert x; intro _)
    | with_reducible refine keepsR_next ?_
    | with_reducible exact keepsR_fault
    | with_reducible refine keepsS_next ?_
    | with_reducible refine keepsS_jump ?_
    | with_reducible refine keepsS_fault ?_
    | with_reducible refine keepsS_host ?_
    | with_reducible refine keepsS_stay ?_
    | exact keepsS_stall
    | with_reducible refine seqAlu_keeps (sub_of (by decide) hp) ?_
    | with_reducible refine keepsS_host_eq (seqAlu_keeps (sub_of (by decide) hp) ?_) (by assumption)
    | with_reducible refine keepsS_eq (seqAlu_keeps (sub_of (by decide) hp) ?_) (by assumption)
    | with_reducible refine seqStep_keeps (sub_of (by decide) hp) (fun x0 x1 hx0 => ?_) ?_
    | with_reducible refine keepsR_eq (seqStep_keeps (sub_of (by decide) hp) (fun x0 x1 hx0 => ?_) ?_) (by assumption)
    | split
    | (clear_value *; split)
    | with_reducible refine keepsP_eq ?_ (by assumption)
    | with_reducible refine keepsO_eq ?_ (by assumption)
    | with_reducible refine keepsP_mk ?_

theorem execLdh_keeps {ps z} {n : Sys2Proof.SeqId} {s : Sys2Proof.Machine.State} (hp : [.regs, .isl, .mem, .mmu, .seq, .outbox, .draws, .bxl, .bridge] ⊆ ps) (h1 : Keeps ps z s) :
    KeepsR ps z (execLdh n s) := by
  unfold execLdh
  repeat' first
    | with_reducible assumption
    | with_reducible exact keepsP_fst (by assumption)
    | (extract_lets -useContext +onlyGivenNames x; refine (fun (hx : Keeps ps z x) => ?_) ?_; clear_value x; revert x; intro _ _; rotate_left; unfold x; clear x; rotate_left)
    | (extract_lets -useContext +onlyGivenNames x; revert x; intro _)
    | with_reducible refine keepsR_next ?_
    | with_reducible exact keepsR_fault
    | with_reducible refine keepsS_next ?_
    | with_reducible refine keepsS_jump ?_
    | with_reducible refine keepsS_fault ?_
    | with_reducible refine keepsS_host ?_
    | with_reducible refine keepsS_stay ?_
    | exact keepsS_stall
    | with_reducible refine seqAlu_keeps (sub_of (by decide) hp) ?_
    | with_reducible refine keepsS_host_eq (seqAlu_keeps (sub_of (by decide) hp) ?_) (by assumption)
    | with_reducible refine keepsS_eq (seqAlu_keeps (sub_of (by decide) hp) ?_) (by assumption)
    | with_reducible refine seqStep_keeps (sub_of (by decide) hp) (fun x0 x1 hx0 => ?_) ?_
    | with_reducible refine keepsR_eq (seqStep_keeps (sub_of (by decide) hp) (fun x0 x1 hx0 => ?_) ?_) (by assumption)
    | split
    | (clear_value *; split)
    | with_reducible refine keepsP_eq ?_ (by assumption)
    | with_reducible refine keepsO_eq ?_ (by assumption)
    | with_reducible refine keepsP_mk ?_

theorem execLd_keeps {ps z} {n : Sys2Proof.SeqId} {s : Sys2Proof.Machine.State} (hp : [.regs, .isl, .mem, .mmu, .seq, .outbox, .draws, .bxl, .bridge] ⊆ ps) (h1 : Keeps ps z s) :
    KeepsR ps z (execLd n s) := by
  unfold execLd
  repeat' first
    | with_reducible assumption
    | with_reducible exact keepsP_fst (by assumption)
    | (extract_lets -useContext +onlyGivenNames x; refine (fun (hx : Keeps ps z x) => ?_) ?_; clear_value x; revert x; intro _ _; rotate_left; unfold x; clear x; rotate_left)
    | (extract_lets -useContext +onlyGivenNames x; refine (fun (hx : KeepsP ps z x) => ?_) ?_; clear_value x; revert x; intro _ _; rotate_left; unfold x; clear x; rotate_left)
    | (extract_lets -useContext +onlyGivenNames x; revert x; intro _)
    | with_reducible refine keepsR_next ?_
    | with_reducible exact keepsR_fault
    | with_reducible refine keepsS_next ?_
    | with_reducible refine keepsS_jump ?_
    | with_reducible refine keepsS_fault ?_
    | with_reducible refine keepsS_host ?_
    | with_reducible refine keepsS_stay ?_
    | exact keepsS_stall
    | with_reducible refine State.setSeq_keeps (sub_of (by decide) hp) ?_
    | with_reducible refine traceIf_keeps (sub_of (by decide) hp) ?_
    | with_reducible refine seqRead_keeps (sub_of (by decide) hp) ?_
    | with_reducible refine keepsP_fst (seqRead_keeps (sub_of (by decide) hp) ?_)
    | with_reducible refine keepsP_eq (seqRead_keeps (sub_of (by decide) hp) ?_) (by assumption)
    | with_reducible refine seqStep_keeps (sub_of (by decide) hp) (fun x0 x1 hx0 => ?_) ?_
    | with_reducible refine keepsR_eq (seqStep_keeps (sub_of (by decide) hp) (fun x0 x1 hx0 => ?_) ?_) (by assumption)
    | split
    | (clear_value *; split)
    | with_reducible refine keepsP_eq ?_ (by assumption)
    | with_reducible refine keepsO_eq ?_ (by assumption)
    | with_reducible refine keepsP_mk ?_

theorem execSt_keeps {ps z} {n : Sys2Proof.SeqId} {s : Sys2Proof.Machine.State} (hp : [.regs, .isl, .mem, .mmu, .seq, .outbox, .draws, .bxl, .bridge] ⊆ ps) (h1 : Keeps ps z s) :
    KeepsR ps z (execSt n s) := by
  unfold execSt
  repeat' first
    | with_reducible assumption
    | with_reducible exact keepsP_fst (by assumption)
    | (extract_lets -useContext +onlyGivenNames x; refine (fun (hx : Keeps ps z x) => ?_) ?_; clear_value x; revert x; intro _ _; rotate_left; unfold x; clear x; rotate_left)
    | (extract_lets -useContext +onlyGivenNames x; refine (fun (hx : KeepsP ps z x) => ?_) ?_; clear_value x; revert x; intro _ _; rotate_left; unfold x; clear x; rotate_left)
    | (extract_lets -useContext +onlyGivenNames x; revert x; intro _)
    | with_reducible refine keepsR_next ?_
    | with_reducible exact keepsR_fault
    | with_reducible refine keepsS_next ?_
    | with_reducible refine keepsS_jump ?_
    | with_reducible refine keepsS_fault ?_
    | with_reducible refine keepsS_host ?_
    | with_reducible refine keepsS_stay ?_
    | exact keepsS_stall
    | with_reducible refine traceIf_keeps (sub_of (by decide) hp) ?_
    | with_reducible refine memWrite_keeps (sub_of (by decide) hp) ?_
    | with_reducible refine keepsP_fst (memWrite_keeps (sub_of (by decide) hp) ?_)
    | with_reducible refine keepsP_eq (memWrite_keeps (sub_of (by decide) hp) ?_) (by assumption)
    | with_reducible refine seqStep_keeps (sub_of (by decide) hp) (fun x0 x1 hx0 => ?_) ?_
    | with_reducible refine keepsR_eq (seqStep_keeps (sub_of (by decide) hp) (fun x0 x1 hx0 => ?_) ?_) (by assumption)
    | split
    | (clear_value *; split)
    | with_reducible refine keepsP_eq ?_ (by assumption)
    | with_reducible refine keepsO_eq ?_ (by assumption)
    | with_reducible refine keepsP_mk ?_

theorem execLda_keeps {ps z} {n : Sys2Proof.SeqId} {s : Sys2Proof.Machine.State} (hp : [.regs, .isl, .mem, .mmu, .seq, .outbox, .draws, .bxl, .bridge] ⊆ ps) (h1 : Keeps ps z s) :
    KeepsR ps z (execLda n s) := by
  unfold execLda
  repeat' first
    | with_reducible assumption
    | with_reducible exact keepsP_fst (by assumption)
    | (extract_lets -useContext +onlyGivenNames x; refine (fun (hx : Keeps ps z x) => ?_) ?_; clear_value x; revert x; intro _ _; rotate_left; unfold x; clear x; rotate_left)
    | (extract_lets -useContext +onlyGivenNames x; revert x; intro _)
    | with_reducible refine keepsR_next ?_
    | with_reducible exact keepsR_fault
    | with_reducible refine keepsS_next ?_
    | with_reducible refine keepsS_jump ?_
    | with_reducible refine keepsS_fault ?_
    | with_reducible refine keepsS_host ?_
    | with_reducible refine keepsS_stay ?_
    | exact keepsS_stall
    | with_reducible refine State.setSeq_keeps (sub_of (by decide) hp) ?_
    | with_reducible refine traceIf_keeps (sub_of (by decide) hp) ?_
    | with_reducible refine noteHazard_keeps (sub_of (by decide) hp) ?_
    | with_reducible refine seqStep_keeps (sub_of (by decide) hp) (fun x0 x1 hx0 => ?_) ?_
    | with_reducible refine keepsR_eq (seqStep_keeps (sub_of (by decide) hp) (fun x0 x1 hx0 => ?_) ?_) (by assumption)
    | split
    | (clear_value *; split)
    | with_reducible refine keepsP_eq ?_ (by assumption)
    | with_reducible refine keepsO_eq ?_ (by assumption)
    | with_reducible refine keepsP_mk ?_

theorem execSta_keeps {ps z} {n : Sys2Proof.SeqId} {s : Sys2Proof.Machine.State} (hp : [.regs, .isl, .mem, .mmu, .als, .seq, .outbox, .draws, .bxl, .bridge] ⊆ ps) (h1 : Keeps ps z s) :
    KeepsR ps z (execSta n s) := by
  unfold execSta
  repeat' first
    | with_reducible assumption
    | with_reducible exact keepsP_fst (by assumption)
    | (extract_lets -useContext +onlyGivenNames x; refine (fun (hx : Keeps ps z x) => ?_) ?_; clear_value x; revert x; intro _ _; rotate_left; unfold x; clear x; rotate_left)
    | (extract_lets -useContext +onlyGivenNames x; revert x; intro _)
    | with_reducible refine keepsR_next ?_
    | with_reducible exact keepsR_fault
    | with_reducible refine keepsS_next ?_
    | with_reducible refine keepsS_jump ?_
    | with_reducible refine keepsS_fault ?_
    | with_reducible refine keepsS_host ?_
    | with_reducible refine keepsS_stay ?_
    | exact keepsS_stall
    | with_reducible refine State.setAls_keeps (sub_of (by decide) hp) ?_ ?_
    | with_reducible refine traceIf_keeps (sub_of (by decide) hp) ?_
    | with_reducible refine seqStep_keeps (sub_of (by decide) hp) (fun x0 x1 hx0 => ?_) ?_
    | with_reducible refine keepsR_eq (seqStep_keeps (sub_of (by decide) hp) (fun x0 x1 hx0 => ?_) ?_) (by assumption)
    | split
    | (clear_value *; split)
    | with_reducible refine keepsP_eq ?_ (by assumption)
    | with_reducible refine keepsO_eq ?_ (by assumption)
    | (intro hw; repeat' first | with_reducible exact storeWf_empty | with_reducible refine storeWf_write ?_ | with_reducible refine storeWf_put ?_ | with_reducible refine epilogueAll_wf ?_ | with_reducible refine spillAll_wf ?_ | with_reducible refine spillRows_wf ?_ | with_reducible refine epilogueRows_wf ?_ | with_reducible refine spillFrom_wf ?_ | with_reducible refine vecRowsFrom_wf ?_ | with_reducible refine vecAll_wf ?_ | with_reducible refine storeWf_scrub ?_ | with_reducible refine storeWf_poison ?_ | with_reducible refine storeWf_fold (fun _ _ hu => ?_) ?_ | with_reducible assumption | split | with_reducible exact (Keeps.tidy (by assumption) hw).als _ | with_reducible exact (Keeps.tidy (by assumption) hw).dss _ | with_reducible refine (Keeps.tidy (ps := ps) ?_ hw).als _ | with_reducible refine (Keeps.tidy (ps := ps) ?_ hw).dss _)
    | with_reducible refine keepsP_mk ?_

theorem seqJump_keeps {ps z} {n : Nat} {s : Sys2Proof.Machine.State} {w : Nat} {off : Int} {f : Sys2Proof.Machine.Seq → Sys2Proof.Machine.Seq} (hp : [.regs, .isl, .mem, .seq, .outbox, .draws, .bridge] ⊆ ps) (h1 : Keeps ps z s) :
    KeepsS ps z (seqJump n s w off f) := by
  unfold seqJump
  repeat' first
    | with_reducible assumption
    | with_reducible exact keepsP_fst (by assumption)
    | (extract_lets -useContext +onlyGivenNames x; refine (fun (hx : Keeps ps z x) => ?_) ?_; clear_value x; revert x; intro _ _; rotate_left; unfold x; clear x; rotate_left)
    | (extract_lets -useContext +onlyGivenNames x; revert x; intro _)
    | with_reducible refine keepsS_next ?_
    | with_reducible refine keepsS_jump ?_
    | with_reducible refine keepsS_fault ?_
    | with_reducible refine keepsS_host ?_
    | with_reducible refine keepsS_stay ?_
    | exact keepsS_stall
    | with_reducible refine State.setSeq_keeps (sub_of (by decide) hp) ?_
    | with_reducible refine traceIf_keeps (sub_of (by decide) hp) ?_
    | split
    | (clear_value *; split)
    | with_reducible refine keepsP_eq ?_ (by assumption)
    | with_reducible refine keepsO_eq ?_ (by assumption)
    | with_reducible refine keepsP_mk ?_

theorem seqBranch_keeps {ps z} {n : Nat} {c : Nat → Nat → Bool} {s : Sys2Proof.Machine.State} {w : Nat} (hp : [.regs, .isl, .mem, .seq, .outbox, .draws, .bridge] ⊆ ps) (h2 : Keeps ps z s) :
    KeepsS ps z (seqBranch n c s w) := by
  unfold seqBranch
  repeat' first
    | with_reducible assumption
    | with_reducible exact keepsP_fst (by assumption)
    | (extract_lets -useContext +onlyGivenNames x; refine (fun (hx : Keeps ps z x) => ?_) ?_; clear_value x; revert x; intro _ _; rotate_left; unfold x; clear x; rotate_left)
    | (extract_lets -useContext +onlyGivenNames x; revert x; intro _)
    | with_reducible refine keepsS_next ?_
    | with_reducible refine keepsS_jump ?_
    | with_reducible refine keepsS_fault ?_
    | with_reducible refine keepsS_host ?_
    | with_reducible refine keepsS_stay ?_
    | exact keepsS_stall
    | with_reducible refine traceIf_keeps (sub_of (by decide) hp) ?_
    | with_reducible refine seqJump_keeps (sub_of (by decide) hp) ?_
    | with_reducible refine keepsS_host_eq (seqJump_keeps (sub_of (by decide) hp) ?_) (by assumption)
    | with_reducible refine keepsS_eq (seqJump_keeps (sub_of (by decide) hp) ?_) (by assumption)
    | split
    | (clear_value *; split)
    | with_reducible refine keepsP_eq ?_ (by assumption)
    | with_reducible refine keepsO_eq ?_ (by assumption)
    | with_reducible refine keepsP_mk ?_

theorem execBeq_keeps {ps z} {n : Sys2Proof.SeqId} {s : Sys2Proof.Machine.State} (hp : [.regs, .isl, .mem, .mmu, .seq, .outbox, .draws, .bxl, .bridge] ⊆ ps) (h1 : Keeps ps z s) :
    KeepsR ps z (execBeq n s) := by
  unfold execBeq
  repeat' first
    | with_reducible assumption
    | with_reducible exact keepsP_fst (by assumption)
    | (extract_lets -useContext +onlyGivenNames x; refine (fun (hx : Keeps ps z x) => ?_) ?_; clear_value x; revert x; intro _ _; rotate_left; unfold x; clear x; rotate_left)
    | (extract_lets -useContext +onlyGivenNames x; revert x; intro _)
    | with_reducible refine keepsR_next ?_
    | with_reducible exact keepsR_fault
    | with_reducible refine keepsS_next ?_
    | with_reducible refine keepsS_jump ?_
    | with_reducible refine keepsS_fault ?_
    | with_reducible refine keepsS_host ?_
    | with_reducible refine keepsS_stay ?_
    | exact keepsS_stall
    | with_reducible refine seqBranch_keeps (sub_of (by decide) hp) ?_
    | with_reducible refine keepsS_host_eq (seqBranch_keeps (sub_of (by decide) hp) ?_) (by assumption)
    | with_reducible refine keepsS_eq (seqBranch_keeps (sub_of (by decide) hp) ?_) (by assumption)
    | with_reducible refine seqStep_keeps (sub_of (by decide) hp) (fun x0 x1 hx0 => ?_) ?_
    | with_reducible refine keepsR_eq (seqStep_keeps (sub_of (by decide) hp) (fun x0 x1 hx0 => ?_) ?_) (by assumption)
    | split
    | (clear_value *; split)
    | with_reducible refine keepsP_eq ?_ (by assumption)
    | with_reducible refine keepsO_eq ?_ (by assumption)
    | with_reducible refine keepsP_mk ?_

theorem execBne_keeps {ps z} {n : Sys2Proof.SeqId} {s : Sys2Proof.Machine.State} (hp : [.regs, .isl, .mem, .mmu, .seq, .outbox, .draws, .bxl, .bridge] ⊆ ps) (h1 : Keeps ps z s) :
    KeepsR ps z (execBne n s) := by
  unfold execBne
  repeat' first
    | with_reducible assumption
    | with_reducible exact keepsP_fst (by assumption)
    | (extract_lets -useContext +onlyGivenNames x; refine (fun (hx : Keeps ps z x) => ?_) ?_; clear_value x; revert x; intro _ _; rotate_left; unfold x; clear x; rotate_left)
    | (extract_lets -useContext +onlyGivenNames x; revert x; intro _)
    | with_reducible refine keepsR_next ?_
    | with_reducible exact keepsR_fault
    | with_reducible refine keepsS_next ?_
    | with_reducible refine keepsS_jump ?_
    | with_reducible refine keepsS_fault ?_
    | with_reducible refine keepsS_host ?_
    | with_reducible refine keepsS_stay ?_
    | exact keepsS_stall
    | with_reducible refine seqBranch_keeps (sub_of (by decide) hp) ?_
    | with_reducible refine keepsS_host_eq (seqBranch_keeps (sub_of (by decide) hp) ?_) (by assumption)
    | with_reducible refine keepsS_eq (seqBranch_keeps (sub_of (by decide) hp) ?_) (by assumption)
    | with_reducible refine seqStep_keeps (sub_of (by decide) hp) (fun x0 x1 hx0 => ?_) ?_
    | with_reducible refine keepsR_eq (seqStep_keeps (sub_of (by decide) hp) (fun x0 x1 hx0 => ?_) ?_) (by assumption)
    | split
    | (clear_value *; split)
    | with_reducible refine keepsP_eq ?_ (by assumption)
    | with_reducible refine keepsO_eq ?_ (by assumption)
    | with_reducible refine keepsP_mk ?_

theorem execBltu_keeps {ps z} {n : Sys2Proof.SeqId} {s : Sys2Proof.Machine.State} (hp : [.regs, .isl, .mem, .mmu, .seq, .outbox, .draws, .bxl, .bridge] ⊆ ps) (h1 : Keeps ps z s) :
    KeepsR ps z (execBltu n s) := by
  unfold execBltu
  repeat' first
    | with_reducible assumption
    | with_reducible exact keepsP_fst (by assumption)
    | (extract_lets -useContext +onlyGivenNames x; refine (fun (hx : Keeps ps z x) => ?_) ?_; clear_value x; revert x; intro _ _; rotate_left; unfold x; clear x; rotate_left)
    | (extract_lets -useContext +onlyGivenNames x; revert x; intro _)
    | with_reducible refine keepsR_next ?_
    | with_reducible exact keepsR_fault
    | with_reducible refine keepsS_next ?_
    | with_reducible refine keepsS_jump ?_
    | with_reducible refine keepsS_fault ?_
    | with_reducible refine keepsS_host ?_
    | with_reducible refine keepsS_stay ?_
    | exact keepsS_stall
    | with_reducible refine seqBranch_keeps (sub_of (by decide) hp) ?_
    | with_reducible refine keepsS_host_eq (seqBranch_keeps (sub_of (by decide) hp) ?_) (by assumption)
    | with_reducible refine keepsS_eq (seqBranch_keeps (sub_of (by decide) hp) ?_) (by assumption)
    | with_reducible refine seqStep_keeps (sub_of (by decide) hp) (fun x0 x1 hx0 => ?_) ?_
    | with_reducible refine keepsR_eq (seqStep_keeps (sub_of (by decide) hp) (fun x0 x1 hx0 => ?_) ?_) (by assumption)
    | split
    | (clear_value *; split)
    | with_reducible refine keepsP_eq ?_ (by assumption)
    | with_reducible refine keepsO_eq ?_ (by assumption)
    | with_reducible refine keepsP_mk ?_

theorem execJmp_keeps {ps z} {n : Sys2Proof.SeqId} {s : Sys2Proof.Machine.State} (hp : [.regs, .isl, .mem, .mmu, .seq, .outbox, .draws, .bxl, .bridge] ⊆ ps) (h1 : Keeps ps z s) :
    KeepsR ps z (execJmp n s) := by
  unfold execJmp
  repeat' first
    | with_reducible assumption
    | with_reducible exact keepsP_fst (by assumption)
    | (extract_lets -useContext +onlyGivenNames x; refine (fun (hx : Keeps ps z x) => ?_) ?_; clear_value x; revert x; intro _ _; rotate_left; unfold x; clear x; rotate_left)
    | (extract_lets -useContext +onlyGivenNames x; revert x; intro _)
    | with_reducible refine keepsR_next ?_
    | with_reducible exact keepsR_fault
    | with_reducible refine keepsS_next ?_
    | with_reducible refine keepsS_jump ?_
    | with_reducible refine keepsS_fault ?_
    | with_reducible refine keepsS_host ?_
    | with_reducible refine keepsS_stay ?_
    | exact keepsS_stall
    | with_reducible refine seqJump_keeps (sub_of (by decide) hp) ?_
    | with_reducible refine keepsS_host_eq (seqJump_keeps (sub_of (by decide) hp) ?_) (by assumption)
    | with_reducible refine keepsS_eq (seqJump_keeps (sub_of (by decide) hp) ?_) (by assumption)
    | with_reducible refine seqStep_keeps (sub_of (by decide) hp) (fun x0 x1 hx0 => ?_) ?_
    | with_reducible refine keepsR_eq (seqStep_keeps (sub_of (by decide) hp) (fun x0 x1 hx0 => ?_) ?_) (by assumption)
    | split
    | (clear_value *; split)
    | with_reducible refine keepsP_eq ?_ (by assumption)
    | with_reducible refine keepsO_eq ?_ (by assumption)
    | with_reducible refine keepsP_mk ?_

theorem execCall_keeps {ps z} {n : Sys2Proof.SeqId} {s : Sys2Proof.Machine.State} (hp : [.regs, .isl, .mem, .mmu, .seq, .outbox, .draws, .bxl, .bridge] ⊆ ps) (h1 : Keeps ps z s) :
    KeepsR ps z (execCall n s) := by
  unfold execCall
  repeat' first
    | with_reducible assumption
    | with_reducible exact keepsP_fst (by assumption)
    | (extract_lets -useContext +onlyGivenNames x; refine (fun (hx : Keeps ps z x) => ?_) ?_; clear_value x; revert x; intro _ _; rotate_left; unfold x; clear x; rotate_left)
    | (extract_lets -useContext +onlyGivenNames x; revert x; intro _)
    | with_reducible refine keepsR_next ?_
    | with_reducible exact keepsR_fault
    | with_reducible refine keepsS_next ?_
    | with_reducible refine keepsS_jump ?_
    | with_reducible refine keepsS_fault ?_
    | with_reducible refine keepsS_host ?_
    | with_reducible refine keepsS_stay ?_
    | exact keepsS_stall
    | with_reducible refine seqJump_keeps (sub_of (by decide) hp) ?_
    | with_reducible refine keepsS_host_eq (seqJump_keeps (sub_of (by decide) hp) ?_) (by assumption)
    | with_reducible refine keepsS_eq (seqJump_keeps (sub_of (by decide) hp) ?_) (by assumption)
    | with_reducible refine seqStep_keeps (sub_of (by decide) hp) (fun x0 x1 hx0 => ?_) ?_
    | with_reducible refine keepsR_eq (seqStep_keeps (sub_of (by decide) hp) (fun x0 x1 hx0 => ?_) ?_) (by assumption)
    | split
    | (clear_value *; split)
    | with_reducible refine keepsP_eq ?_ (by assumption)
    | with_reducible refine keepsO_eq ?_ (by assumption)
    | with_reducible refine keepsP_mk ?_

theorem execRet_keeps {ps z} {n : Sys2Proof.SeqId} {s : Sys2Proof.Machine.State} (hp : [.regs, .isl, .mem, .mmu, .seq, .outbox, .draws, .bxl, .bridge] ⊆ ps) (h1 : Keeps ps z s) :
    KeepsR ps z (execRet n s) := by
  unfold execRet
  repeat' first
    | with_reducible assumption
    | with_reducible exact keepsP_fst (by assumption)
    | (extract_lets -useContext +onlyGivenNames x; refine (fun (hx : Keeps ps z x) => ?_) ?_; clear_value x; revert x; intro _ _; rotate_left; unfold x; clear x; rotate_left)
    | (extract_lets -useContext +onlyGivenNames x; revert x; intro _)
    | with_reducible refine keepsR_next ?_
    | with_reducible exact keepsR_fault
    | with_reducible refine keepsS_next ?_
    | with_reducible refine keepsS_jump ?_
    | with_reducible refine keepsS_fault ?_
    | with_reducible refine keepsS_host ?_
    | with_reducible refine keepsS_stay ?_
    | exact keepsS_stall
    | with_reducible refine seqJump_keeps (sub_of (by decide) hp) ?_
    | with_reducible refine keepsS_host_eq (seqJump_keeps (sub_of (by decide) hp) ?_) (by assumption)
    | with_reducible refine keepsS_eq (seqJump_keeps (sub_of (by decide) hp) ?_) (by assumption)
    | with_reducible refine seqStep_keeps (sub_of (by decide) hp) (fun x0 x1 hx0 => ?_) ?_
    | with_reducible refine keepsR_eq (seqStep_keeps (sub_of (by decide) hp) (fun x0 x1 hx0 => ?_) ?_) (by assumption)
    | split
    | (clear_value *; split)
    | with_reducible refine keepsP_eq ?_ (by assumption)
    | with_reducible refine keepsO_eq ?_ (by assumption)
    | with_reducible refine keepsP_mk ?_

theorem execLset_keeps {ps z} {n : Sys2Proof.SeqId} {s : Sys2Proof.Machine.State} (hp : [.regs, .isl, .mem, .mmu, .seq, .outbox, .draws, .bxl, .bridge] ⊆ ps) (h1 : Keeps ps z s) :
    KeepsR ps z (execLset n s) := by
  unfold execLset
  repeat' first
    | with_reducible assumption
    | with_reducible exact keepsP_fst (by assumption)
    | (extract_lets -useContext +onlyGivenNames x; refine (fun (hx : Keeps ps z x) => ?_) ?_; clear_value x; revert x; intro _ _; rotate_left; unfold x; clear x; rotate_left)
    | (extract_lets -useContext +onlyGivenNames x; revert x; intro _)
    | with_reducible refine keepsR_next ?_
    | with_reducible exact keepsR_fault
    | with_reducible refine keepsS_next ?_
    | with_reducible refine keepsS_jump ?_
    | with_reducible refine keepsS_fault ?_
    | with_reducible refine keepsS_host ?_
    | with_reducible refine keepsS_stay ?_
    | exact keepsS_stall
    | with_reducible refine State.setSeq_keeps (sub_of (by decide) hp) ?_
    | with_reducible refine traceIf_keeps (sub_of (by decide) hp) ?_
    | with_reducible refine seqStep_keeps (sub_of (by decide) hp) (fun x0 x1 hx0 => ?_) ?_
    | with_reducible refine keepsR_eq (seqStep_keeps (sub_of (by decide) hp) (fun x0 x1 hx0 => ?_) ?_) (by assumption)
    | split
    | (clear_value *; split)
    | with_reducible refine keepsP_eq ?_ (by assumption)
    | with_reducible refine keepsO_eq ?_ (by assumption)
    | with_reducible refine keepsP_mk ?_

theorem execLnext_keeps {ps z} {n : Sys2Proof.SeqId} {s : Sys2Proof.Machine.State} (hp : [.regs, .isl, .mem, .mmu, .seq, .outbox, .draws, .bxl, .bridge] ⊆ ps) (h1 : Keeps ps z s) :
    KeepsR ps z (execLnext n s) := by
  unfold execLnext
  repeat' first
    | with_reducible assumption
    | with_reducible exact keepsP_fst (by assumption)
    | (extract_lets -useContext +onlyGivenNames x; refine (fun (hx : Keeps ps z x) => ?_) ?_; clear_value x; revert x; intro _ _; rotate_left; unfold x; clear x; rotate_left)
    | (extract_lets -useContext +onlyGivenNames x; revert x; intro _)
    | with_reducible refine keepsR_next ?_
    | with_reducible exact keepsR_fault
    | with_reducible refine keepsS_next ?_
    | with_reducible refine keepsS_jump ?_
    | with_reducible refine keepsS_fault ?_
    | with_reducible refine keepsS_host ?_
    | with_reducible refine keepsS_stay ?_
    | exact keepsS_stall
    | with_reducible refine seqJump_keeps (sub_of (by decide) hp) ?_
    | with_reducible refine keepsS_host_eq (seqJump_keeps (sub_of (by decide) hp) ?_) (by assumption)
    | with_reducible refine keepsS_eq (seqJump_keeps (sub_of (by decide) hp) ?_) (by assumption)
    | with_reducible refine State.setSeq_keeps (sub_of (by decide) hp) ?_
    | with_reducible refine traceIf_keeps (sub_of (by decide) hp) ?_
    | with_reducible refine seqStep_keeps (sub_of (by decide) hp) (fun x0 x1 hx0 => ?_) ?_
    | with_reducible refine keepsR_eq (seqStep_keeps (sub_of (by decide) hp) (fun x0 x1 hx0 => ?_) ?_) (by assumption)
    | split
    | (clear_value *; split)
    | with_reducible refine keepsP_eq ?_ (by assumption)
    | with_reducible refine keepsO_eq ?_ (by assumption)
    | with_reducible refine keepsP_mk ?_

theorem execMmi_keeps {ps z} {n : Sys2Proof.SeqId} {s : Sys2Proof.Machine.State} (hp : [.regs, .isl, .mem, .mmu, .arr, .seq, .outbox, .draws, .bxl, .pwr, .bridge] ⊆ ps) (h1 : Keeps ps z s) :
    KeepsR ps z (execMmi n s) := by
  unfold execMmi
  repeat' first
    | with_reducible assumption
    | with_reducible exact keepsP_fst (by assumption)
    | (extract_lets -useContext +onlyGivenNames x; refine (fun (hx : Keeps ps z x) => ?_) ?_; clear_value x; revert x; intro _ _; rotate_left; unfold x; clear x; rotate_left)
    | (extract_lets -useContext +onlyGivenNames x; revert x; intro _)
    | with_reducible refine keepsR_next ?_
    | with_reducible exact keepsR_fault
    | with_reducible refine keepsS_next ?_
    | with_reducible refine keepsS_jump ?_
    | with_reducible refine keepsS_fault ?_
    | with_reducible refine keepsS_host ?_
    | with_reducible refine keepsS_stay ?_
    | exact keepsS_stall
    | with_reducible refine traceIf_keeps (sub_of (by decide) hp) ?_
    | with_reducible refine issueMm_keeps (sub_of (by decide) hp) ?_
    | with_reducible refine seqStep_keeps (sub_of (by decide) hp) (fun x0 x1 hx0 => ?_) ?_
    | with_reducible refine keepsR_eq (seqStep_keeps (sub_of (by decide) hp) (fun x0 x1 hx0 => ?_) ?_) (by assumption)
    | split
    | (clear_value *; split)
    | with_reducible refine keepsP_eq ?_ (by assumption)
    | with_reducible refine keepsO_eq ?_ (by assumption)
    | with_reducible refine keepsP_mk ?_

theorem execVei_keeps {ps z} {n : Sys2Proof.SeqId} {s : Sys2Proof.Machine.State} (hp : [.regs, .isl, .mem, .mmu, .vec, .als, .ctx, .seq, .outbox, .draws, .bxl, .pwr, .bridge] ⊆ ps) (h1 : Keeps ps z s) :
    KeepsR ps z (execVei n s) := by
  unfold execVei
  repeat' first
    | with_reducible assumption
    | with_reducible exact keepsP_fst (by assumption)
    | (extract_lets -useContext +onlyGivenNames x; refine (fun (hx : Keeps ps z x) => ?_) ?_; clear_value x; revert x; intro _ _; rotate_left; unfold x; clear x; rotate_left)
    | (extract_lets -useContext +onlyGivenNames x; revert x; intro _)
    | with_reducible refine keepsR_next ?_
    | with_reducible exact keepsR_fault
    | with_reducible refine keepsS_next ?_
    | with_reducible refine keepsS_jump ?_
    | with_reducible refine keepsS_fault ?_
    | with_reducible refine keepsS_host ?_
    | with_reducible refine keepsS_stay ?_
    | exact keepsS_stall
    | with_reducible refine traceIf_keeps (sub_of (by decide) hp) ?_
    | with_reducible refine issueVec_keeps (sub_of (by decide) hp) ?_
    | with_reducible refine seqStep_keeps (sub_of (by decide) hp) (fun x0 x1 hx0 => ?_) ?_
    | with_reducible refine keepsR_eq (seqStep_keeps (sub_of (by decide) hp) (fun x0 x1 hx0 => ?_) ?_) (by assumption)
    | split
    | (clear_value *; split)
    | with_reducible refine keepsP_eq ?_ (by assumption)
    | with_reducible refine keepsO_eq ?_ (by assumption)
    | with_reducible refine keepsP_mk ?_

theorem execTld_keeps {ps z} {n : Sys2Proof.SeqId} {s : Sys2Proof.Machine.State} (hp : [.regs, .isl, .mem, .mmu, .arr, .seq, .outbox, .draws, .bxl, .bridge] ⊆ ps) (h1 : Keeps ps z s) :
    KeepsR ps z (execTld n s) := by
  unfold execTld
  repeat' first
    | with_reducible assumption
    | with_reducible exact keepsP_fst (by assumption)
    | (extract_lets -useContext +onlyGivenNames x; refine (fun (hx : Keeps ps z x) => ?_) ?_; clear_value x; revert x; intro _ _; rotate_left; unfold x; clear x; rotate_left)
    | (extract_lets -useContext +onlyGivenNames x; revert x; intro _)
    | with_reducible refine keepsR_next ?_
    | with_reducible exact keepsR_fault
    | with_reducible refine keepsS_next ?_
    | with_reducible refine keepsS_jump ?_
    | with_reducible refine keepsS_fault ?_
    | with_reducible refine keepsS_host ?_
    | with_reducible refine keepsS_stay ?_
    | exact keepsS_stall
    | with_reducible refine traceIf_keeps (sub_of (by decide) hp) ?_
    | with_reducible refine issueTld_keeps (sub_of (by decide) hp) ?_
    | with_reducible refine seqStep_keeps (sub_of (by decide) hp) (fun x0 x1 hx0 => ?_) ?_
    | with_reducible refine keepsR_eq (seqStep_keeps (sub_of (by decide) hp) (fun x0 x1 hx0 => ?_) ?_) (by assumption)
    | split
    | (clear_value *; split)
    | with_reducible refine keepsP_eq ?_ (by assumption)
    | with_reducible refine keepsO_eq ?_ (by assumption)
    | with_reducible refine keepsP_mk ?_

theorem execXci_keeps {ps z} {n : Sys2Proof.SeqId} {s : Sys2Proof.Machine.State} (hp : [.regs, .isl, .mem, .mmu, .seq, .outbox, .draws, .bxl, .xch, .bridge] ⊆ ps) (h1 : Keeps ps z s) :
    KeepsR ps z (execXci n s) := by
  unfold execXci
  repeat' first
    | with_reducible assumption
    | with_reducible exact keepsP_fst (by assumption)
    | (extract_lets -useContext +onlyGivenNames x; refine (fun (hx : Keeps ps z x) => ?_) ?_; clear_value x; revert x; intro _ _; rotate_left; unfold x; clear x; rotate_left)
    | (extract_lets -useContext +onlyGivenNames x; refine (fun (hx : KeepsP ps z x) => ?_) ?_; clear_value x; revert x; intro _ _; rotate_left; unfold x; clear x; rotate_left)
    | (extract_lets -useContext +onlyGivenNames x; have _hx : ∀ a, x a = x a := fun _ => rfl; clear _hx; unfold x; clear x)
    | (extract_lets -useContext +onlyGivenNames x; revert x; intro _)
    | with_reducible refine keepsR_next ?_
    | with_reducible exact keepsR_fault
    | with_reducible refine keepsS_next ?_
    | with_reducible refine keepsS_jump ?_
    | with_reducible refine keepsS_fault ?_
    | with_reducible refine keepsS_host ?_
    | with_reducible refine keepsS_stay ?_
    | exact keepsS_stall
    | with_reducible refine seqRead_keeps (sub_of (by decide) hp) ?_
    | with_reducible refine keepsP_fst (seqRead_keeps (sub_of (by decide) hp) ?_)
    | with_reducible refine keepsP_eq (seqRead_keeps (sub_of (by decide) hp) ?_) (by assumption)
    | with_reducible refine State.setSeq_keeps (sub_of (by decide) hp) ?_
    | with_reducible refine traceIf_keeps (sub_of (by decide) hp) ?_
    | with_reducible refine seqStep_keeps (sub_of (by decide) hp) (fun x0 x1 hx0 => ?_) ?_
    | with_reducible refine keepsR_eq (seqStep_keeps (sub_of (by decide) hp) (fun x0 x1 hx0 => ?_) ?_) (by assumption)
    | split
    | (clear_value *; split)
    | with_reducible refine keeps_with_xch (mem_of (by decide) hp) ?_
    | with_reducible refine keepsP_eq ?_ (by assumption)
    | with_reducible refine keepsO_eq ?_ (by assumption)
    | with_reducible refine keepsP_mk ?_

theorem countSignal_keeps {ps z} {s : Sys2Proof.Machine.State} {m : Nat} {e : Nat} {count : Nat} (hp : [.seq] ⊆ ps) (h0 : Keeps ps z s) :
    Keeps ps z (countSignal s m e count) := by
  unfold countSignal
  repeat' first
    | with_reducible assumption
    | with_reducible exact keepsP_fst (by assumption)
    | (extract_lets -useContext +onlyGivenNames x; refine (fun (hx : Keeps ps z x) => ?_) ?_; clear_value x; revert x; intro _ _; rotate_left; unfold x; clear x; rotate_left)
    | (extract_lets -useContext +onlyGivenNames x; revert x; intro _)
    | with_reducible refine State.setSeq_keeps (sub_of (by decide) hp) ?_
    | split
    | (clear_value *; split)
    | with_reducible refine keepsP_eq ?_ (by assumption)
    | with_reducible refine keepsO_eq ?_ (by assumption)
    | with_reducible refine keepsP_mk ?_

theorem sendSignal_keeps {ps z} {s : Sys2Proof.Machine.State} {m : Nat} {e : Nat} {count : Nat} (hp : [.isl, .seq] ⊆ ps) (h0 : Keeps ps z s) :
    Keeps ps z (sendSignal s m e count) := by
  unfold sendSignal
  repeat' first
    | with_reducible assumption
    | with_reducible exact keepsP_fst (by assumption)
    | (extract_lets -useContext +onlyGivenNames x; refine (fun (hx : Keeps ps z x) => ?_) ?_; clear_value x; revert x; intro _ _; rotate_left; unfold x; clear x; rotate_left)
    | (extract_lets -useContext +onlyGivenNames x; revert x; intro _)
    | with_reducible refine State.setIsl_keeps (sub_of (by decide) hp) ?_
    | with_reducible refine countSignal_keeps (sub_of (by decide) hp) ?_
    | split
    | (clear_value *; split)
    | with_reducible refine keepsP_eq ?_ (by assumption)
    | with_reducible refine keepsO_eq ?_ (by assumption)
    | with_reducible refine keepsP_mk ?_

theorem execSig_keeps {ps z} {n : Sys2Proof.SeqId} {s : Sys2Proof.Machine.State} (hp : [.regs, .isl, .mem, .mmu, .dma, .seq, .outbox, .draws, .bxl, .bridge] ⊆ ps) (h1 : Keeps ps z s) :
    KeepsR ps z (execSig n s) := by
  unfold execSig
  repeat' first
    | with_reducible assumption
    | with_reducible exact keepsP_fst (by assumption)
    | (extract_lets -useContext +onlyGivenNames x; refine (fun (hx : Keeps ps z x) => ?_) ?_; clear_value x; revert x; intro _ _; rotate_left; unfold x; clear x; rotate_left)
    | (extract_lets -useContext +onlyGivenNames x; have _hx : ∀ a, x a = x a := fun _ => rfl; clear _hx; unfold x; clear x)
    | (extract_lets -useContext +onlyGivenNames x; revert x; intro _)
    | with_reducible refine keepsR_next ?_
    | with_reducible exact keepsR_fault
    | with_reducible refine keepsS_next ?_
    | with_reducible refine keepsS_jump ?_
    | with_reducible refine keepsS_fault ?_
    | with_reducible refine keepsS_host ?_
    | with_reducible refine keepsS_stay ?_
    | exact keepsS_stall
    | with_reducible refine giveStarts_keeps (sub_of (by decide) hp) ?_
    | with_reducible refine traceIf_keeps (sub_of (by decide) hp) ?_
    | with_reducible refine seqStep_keeps (sub_of (by decide) hp) (fun x0 x1 hx0 => ?_) ?_
    | with_reducible refine keepsR_eq (seqStep_keeps (sub_of (by decide) hp) (fun x0 x1 hx0 => ?_) ?_) (by assumption)
    | with_reducible refine sendSignal_keeps (sub_of (by decide) hp) ?_
    | with_reducible refine crossTo_keeps (sub_of (by decide) hp) ?_
    | split
    | (clear_value *; split)
    | with_reducible refine keepsP_eq ?_ (by assumption)
    | with_reducible refine keepsO_eq ?_ (by assumption)
    | with_reducible refine keepsP_mk ?_

theorem fenceRead_keeps {ps z} {s : Sys2Proof.Machine.State} {n : Nat} {a : Nat} (hp : [.regs, .mem, .mmu, .outbox, .bxl, .bridge] ⊆ ps) (h0 : Keeps ps z s) :
    KeepsP ps z (fenceRead s n a) := by
  unfold fenceRead
  repeat' first
    | with_reducible assumption
    | with_reducible exact keepsP_fst (by assumption)
    | (extract_lets -useContext +onlyGivenNames x; refine (fun (hx : Keeps ps z x) => ?_) ?_; clear_value x; revert x; intro _ _; rotate_left; unfold x; clear x; rotate_left)
    | (extract_lets -useContext +onlyGivenNames x; refine (fun (hx : KeepsP ps z x) => ?_) ?_; clear_value x; revert x; intro _ _; rotate_left; unfold x; clear x; rotate_left)
    | (extract_lets -useContext +onlyGivenNames x; revert x; intro _)
    | with_reducible refine seqRead_keeps (sub_of (by decide) hp) ?_
    | with_reducible refine keepsP_fst (seqRead_keeps (sub_of (by decide) hp) ?_)
    | with_reducible refine keepsP_eq (seqRead_keeps (sub_of (by decide) hp) ?_) (by assumption)
    | split
    | (clear_value *; split)
    | with_reducible refine keepsP_eq ?_ (by assumption)
    | with_reducible refine keepsO_eq ?_ (by assumption)
    | with_reducible refine keepsP_mk ?_

theorem waitHolds_keeps {ps z} {s : Sys2Proof.Machine.State} {n : Nat} {w : Nat} (hp : [.regs, .mem, .mmu, .outbox, .bxl, .bridge] ⊆ ps) (h0 : Keeps ps z s) :
    KeepsP ps z (waitHolds s n w) := by
  unfold waitHolds
  repeat' first
    | with_reducible assumption
    | with_reducible exact keepsP_fst (by assumption)
    | (extract_lets -useContext +onlyGivenNames x; refine (fun (hx : Keeps ps z x) => ?_) ?_; clear_value x; revert x; intro _ _; rotate_left; unfold x; clear x; rotate_left)
    | (extract_lets -useContext +onlyGivenNames x; refine (fun (hx : KeepsP ps z x) => ?_) ?_; clear_value x; revert x; intro _ _; rotate_left; unfold x; clear x; rotate_left)
    | (extract_lets -useContext +onlyGivenNames x; have _hx : ∀ a, x a = x a := fun _ => rfl; clear _hx; unfold x; clear x)
    | (extract_lets -useContext +onlyGivenNames x; revert x; intro _)
    | with_reducible refine fenceRead_keeps (sub_of (by decide) hp) ?_
    | with_reducible refine keepsP_fst (fenceRead_keeps (sub_of (by decide) hp) ?_)
    | with_reducible refine keepsP_eq (fenceRead_keeps (sub_of (by decide) hp) ?_) (by assumption)
    | split
    | (clear_value *; split)
    | with_reducible refine keepsP_eq ?_ (by assumption)
    | with_reducible refine keepsO_eq ?_ (by assumption)
    | with_reducible refine keepsP_mk ?_

theorem waitDone_keeps {ps z} {s : Sys2Proof.Machine.State} {n : Nat} (hp : [.regs, .isl, .mem, .seq, .outbox, .draws, .bridge] ⊆ ps) (h0 : Keeps ps z s) :
    Keeps ps z (waitDone s n) := by
  unfold waitDone
  repeat' first
    | with_reducible assumption
    | with_reducible exact keepsP_fst (by assumption)
    | (extract_lets -useContext +onlyGivenNames x; refine (fun (hx : Keeps ps z x) => ?_) ?_; clear_value x; revert x; intro _ _; rotate_left; unfold x; clear x; rotate_left)
    | (extract_lets -useContext +onlyGivenNames x; revert x; intro _)
    | with_reducible refine trace_keeps (sub_of (by decide) hp) ?_
    | with_reducible refine State.setSeq_keeps (sub_of (by decide) hp) ?_
    | split
    | (clear_value *; split)
    | with_reducible refine keeps_with_draws (mem_of (by decide) hp) ?_
    | with_reducible refine keepsP_eq ?_ (by assumption)
    | with_reducible refine keepsO_eq ?_ (by assumption)
    | with_reducible refine keepsP_mk ?_

theorem execWait_keeps {ps z} {n : Sys2Proof.SeqId} {s : Sys2Proof.Machine.State} (hp : [.regs, .isl, .mem, .mmu, .seq, .outbox, .draws, .bxl, .bridge] ⊆ ps) (h1 : Keeps ps z s) :
    KeepsR ps z (execWait n s) := by
  unfold execWait
  repeat' first
    | with_reducible assumption
    | with_reducible exact keepsP_fst (by assumption)
    | (extract_lets -useContext +onlyGivenNames x; refine (fun (hx : Keeps ps z x) => ?_) ?_; clear_value x; revert x; intro _ _; rotate_left; unfold x; clear x; rotate_left)
    | (extract_lets -useContext +onlyGivenNames x; refine (fun (hx : KeepsP ps z x) => ?_) ?_; clear_value x; revert x; intro _ _; rotate_left; unfold x; clear x; rotate_left)
    | (extract_lets -useContext +onlyGivenNames x; revert x; intro _)
    | with_reducible refine keepsR_next ?_
    | with_reducible exact keepsR_fault
    | with_reducible refine keepsS_next ?_
    | with_reducible refine keepsS_jump ?_
    | with_reducible refine keepsS_fault ?_
    | with_reducible refine keepsS_host ?_
    | with_reducible refine keepsS_stay ?_
    | exact keepsS_stall
    | with_reducible refine State.setSeq_keeps (sub_of (by decide) hp) ?_
    | with_reducible refine waitDone_keeps (sub_of (by decide) hp) ?_
    | with_reducible refine waitHolds_keeps (sub_of (by decide) hp) ?_
    | with_reducible refine keepsP_fst (waitHolds_keeps (sub_of (by decide) hp) ?_)
    | with_reducible refine keepsP_eq (waitHolds_keeps (sub_of (by decide) hp) ?_) (by assumption)
    | with_reducible refine seqStep_keeps (sub_of (by decide) hp) (fun x0 x1 hx0 => ?_) ?_
    | with_reducible refine keepsR_eq (seqStep_keeps (sub_of (by decide) hp) (fun x0 x1 hx0 => ?_) ?_) (by assumption)
    | split
    | (clear_value *; split)
    | with_reducible refine keepsP_eq ?_ (by assumption)
    | with_reducible refine keepsO_eq ?_ (by assumption)
    | with_reducible refine keepsP_mk ?_

theorem execWaitSatisfied_keeps {ps z} {n : Sys2Proof.SeqId} {s : Sys2Proof.Machine.State} (hp : [.regs, .isl, .mem, .mmu, .seq, .outbox, .draws, .bxl, .bridge] ⊆ ps) (h1 : Keeps ps z s) :
    KeepsR ps z (execWaitSatisfied n s) := by
  unfold execWaitSatisfied
  repeat' first
    | with_reducible assumption
    | with_reducible exact keepsP_fst (by assumption)
    | (extract_lets -useContext +onlyGivenNames x; refine (fun (hx : Keeps ps z x) => ?_) ?_; clear_value x; revert x; intro _ _; rotate_left; unfold x; clear x; rotate_left)
    | (extract_lets -useContext +onlyGivenNames x; refine (fun (hx : KeepsP ps z x) => ?_) ?_; clear_value x; revert x; intro _ _; rotate_left; unfold x; clear x; rotate_left)
    | (extract_lets -useContext +onlyGivenNames x; revert x; intro _)
    | with_reducible refine keepsR_next ?_
    | with_reducible exact keepsR_fault
    | with_reducible refine keepsS_next ?_
    | with_reducible refine keepsS_jump ?_
    | with_reducible refine keepsS_fault ?_
    | with_reducible refine keepsS_host ?_
    | with_reducible refine keepsS_stay ?_
    | exact keepsS_stall
    | with_reducible refine waitDone_keeps (sub_of (by decide) hp) ?_
    | with_reducible refine seqAdvance_keeps (sub_of (by decide) hp) ?_ ?_
    | with_reducible refine keepsR_eq (seqAdvance_keeps (sub_of (by decide) hp) ?_ ?_) (by assumption)
    | with_reducible refine takeAnswers_keeps (sub_of (by decide) hp) ?_
    | with_reducible refine seqFault_keeps (sub_of (by decide) hp) ?_
    | with_reducible refine keepRequests_keeps (sub_of (by decide) hp) ?_ ?_
    | with_reducible refine waitHolds_keeps (sub_of (by decide) hp) ?_
    | with_reducible refine keepsP_fst (waitHolds_keeps (sub_of (by decide) hp) ?_)
    | with_reducible refine keepsP_eq (waitHolds_keeps (sub_of (by decide) hp) ?_) (by assumption)
    | with_reducible refine seqFail_keeps (sub_of (by decide) hp) ?_
    | with_reducible refine State.setSeq_keeps (sub_of (by decide) hp) ?_
    | split
    | (clear_value *; split)
    | with_reducible refine keepsP_eq ?_ (by assumption)
    | with_reducible refine keepsO_eq ?_ (by assumption)
    | with_reducible refine keepsP_mk ?_

theorem execFsig_keeps {ps z} {n : Sys2Proof.SeqId} {s : Sys2Proof.Machine.State} (hp : [.regs, .isl, .mem, .mmu, .seq, .outbox, .draws, .bxl, .bridge] ⊆ ps) (h1 : Keeps ps z s) :
    KeepsR ps z (execFsig n s) := by
  unfold execFsig
  repeat' first
    | with_reducible assumption
    | with_reducible exact keepsP_fst (by assumption)
    | (extract_lets -useContext +onlyGivenNames x; refine (fun (hx : Keeps ps z x) => ?_) ?_; clear_value x; revert x; intro _ _; rotate_left; unfold x; clear x; rotate_left)
    | (extract_lets -useContext +onlyGivenNames x; refine (fun (hx : KeepsP ps z x) => ?_) ?_; clear_value x; revert x; intro _ _; rotate_left; unfold x; clear x; rotate_left)
    | (extract_lets -useContext +onlyGivenNames x; revert x; intro _)
    | with_reducible refine keepsR_next ?_
    | with_reducible exact keepsR_fault
    | with_reducible refine keepsS_next ?_
    | with_reducible refine keepsS_jump ?_
    | with_reducible refine keepsS_fault ?_
    | with_reducible refine keepsS_host ?_
    | with_reducible refine keepsS_stay ?_
    | exact keepsS_stall
    | with_reducible refine traceIf_keeps (sub_of (by decide) hp) ?_
    | with_reducible refine fenceMax_keeps (sub_of (by decide) hp) ?_
    | with_reducible refine keepsP_fst (fenceMax_keeps (sub_of (by decide) hp) ?_)
    | with_reducible refine keepsP_eq (fenceMax_keeps (sub_of (by decide) hp) ?_) (by assumption)
    | with_reducible refine seqStep_keeps (sub_of (by decide) hp) (fun x0 x1 hx0 => ?_) ?_
    | with_reducible refine keepsR_eq (seqStep_keeps (sub_of (by decide) hp) (fun x0 x1 hx0 => ?_) ?_) (by assumption)
    | split
    | (clear_value *; split)
    | with_reducible refine keepsP_eq ?_ (by assumption)
    | with_reducible refine keepsO_eq ?_ (by assumption)
    | with_reducible refine keepsP_mk ?_

theorem execMark_keeps {ps z} {n : Sys2Proof.SeqId} {s : Sys2Proof.Machine.State} (hp : [.regs, .isl, .mem, .mmu, .seq, .outbox, .draws, .bxl, .bridge] ⊆ ps) (h1 : Keeps ps z s) :
    KeepsR ps z (execMark n s) := by
  unfold execMark
  repeat' first
    | with_reducible assumption
    | with_reducible exact keepsP_fst (by assumption)
    | (extract_lets -useContext +onlyGivenNames x; refine (fun (hx : Keeps ps z x) => ?_) ?_; clear_value x; revert x; intro _ _; rotate_left; unfold x; clear x; rotate_left)
    | (extract_lets -useContext +onlyGivenNames x; revert x; intro _)
    | with_reducible refine keepsR_next ?_
    | with_reducible exact keepsR_fault
    | with_reducible refine keepsS_next ?_
    | with_reducible refine keepsS_jump ?_
    | with_reducible refine keepsS_fault ?_
    | with_reducible refine keepsS_host ?_
    | with_reducible refine keepsS_stay ?_
    | exact keepsS_stall
    | with_reducible refine traceIf_keeps (sub_of (by decide) hp) ?_
    | with_reducible refine seqStep_keeps (sub_of (by decide) hp) (fun x0 x1 hx0 => ?_) ?_
    | with_reducible refine keepsR_eq (seqStep_keeps (sub_of (by decide) hp) (fun x0 x1 hx0 => ?_) ?_) (by assumption)
    | split
    | (clear_value *; split)
    | with_reducible refine keepsP_eq ?_ (by assumption)
    | with_reducible refine keepsO_eq ?_ (by assumption)
    | with_reducible refine keepsP_mk ?_

theorem execSeqEnd_keeps {ps z} {n : Sys2Proof.SeqId} {s : Sys2Proof.Machine.State} (hp : [.regs, .mem, .mmu, .seq, .outbox, .bxl, .bridge] ⊆ ps) (h1 : Keeps ps z s) :
    KeepsR ps z (execSeqEnd n s) := by
  unfold execSeqEnd
  repeat' first
    | with_reducible assumption
    | with_reducible exact keepsP_fst (by assumption)
    | (extract_lets -useContext +onlyGivenNames x; refine (fun (hx : Keeps ps z x) => ?_) ?_; clear_value x; revert x; intro _ _; rotate_left; unfold x; clear x; rotate_left)
    | (extract_lets -useContext +onlyGivenNames x; revert x; intro _)
    | with_reducible refine keepsR_next ?_
    | with_reducible exact keepsR_fault
    | with_reducible refine keepsS_next ?_
    | with_reducible refine keepsS_jump ?_
    | with_reducible refine keepsS_fault ?_
    | with_reducible refine keepsS_host ?_
    | with_reducible refine keepsS_stay ?_
    | exact keepsS_stall
    | with_reducible refine State.setSeq_keeps (sub_of (by decide) hp) ?_
    | with_reducible refine seqStep_keeps (sub_of (by decide) hp) (fun x0 x1 hx0 => ?_) ?_
    | with_reducible refine keepsR_eq (seqStep_keeps (sub_of (by decide) hp) (fun x0 x1 hx0 => ?_) ?_) (by assumption)
    | split
    | (clear_value *; split)
    | with_reducible refine keepsP_eq ?_ (by assumption)
    | with_reducible refine keepsO_eq ?_ (by assumption)
    | with_reducible refine keepsP_mk ?_

theorem islandBoundary_keeps {ps z} {s : Sys2Proof.Machine.State} {n : Nat} (hp : [.regs, .arr, .vec, .ctx, .queues] ⊆ ps) (h0 : Keeps ps z s) :
    Keeps ps z (islandBoundary s n) := by
  unfold islandBoundary
  repeat' first
    | with_reducible assumption
    | with_reducible exact keepsP_fst (by assumption)
    | (extract_lets -useContext +onlyGivenNames x; refine (fun (hx : Keeps ps z x) => ?_) ?_; clear_value x; revert x; intro _ _; rotate_left; unfold x; clear x; rotate_left)
    | (extract_lets -useContext +onlyGivenNames x; revert x; intro _)
    | with_reducible refine State.setVec_keeps (sub_of (by decide) hp) ?_
    | with_reducible refine mergeIsland_keeps (sub_of (by decide) hp) ?_
    | with_reducible refine arrBoundary_keeps (sub_of (by decide) hp) ?_
    | with_reducible refine vecBoundary_keeps (sub_of (by decide) hp) ?_
    | with_reducible refine updCmd_keeps (sub_of (by decide) hp) ?_
    | split
    | (clear_value *; split)
    | with_reducible refine keepsP_eq ?_ (by assumption)
    | with_reducible refine keepsO_eq ?_ (by assumption)
    | with_reducible refine keepsP_mk ?_

theorem stopSiblings_keeps {ps z} {s : Sys2Proof.Machine.State} {n : Nat} (hp : [.seq] ⊆ ps) (h0 : Keeps ps z s) :
    Keeps ps z (stopSiblings s n) := by
  unfold stopSiblings
  repeat' first
    | with_reducible assumption
    | with_reducible exact keepsP_fst (by assumption)
    | (extract_lets -useContext +onlyGivenNames x; refine (fun (hx : Keeps ps z x) => ?_) ?_; clear_value x; revert x; intro _ _; rotate_left; unfold x; clear x; rotate_left)
    | (extract_lets -useContext +onlyGivenNames x; revert x; intro _)
    | with_reducible refine State.setSeq_keeps (sub_of (by decide) hp) ?_
    | with_reducible refine keeps_foldl (fun t a ht => ?_) ?_
    | with_reducible refine keepsP_foldl (fun t a ht => ?_) ?_
    | split
    | (clear_value *; split)
    | with_reducible refine keepsP_eq ?_ (by assumption)
    | with_reducible refine keepsO_eq ?_ (by assumption)
    | with_reducible refine keepsP_mk ?_

theorem traceEnd_keeps {ps z} {s : Sys2Proof.Machine.State} {n : Nat} {status : Nat} (hp : [.regs, .isl, .mem, .seq, .outbox, .draws, .bridge] ⊆ ps) (h0 : Keeps ps z s) :
    Keeps ps z (traceEnd s n status) := by
  unfold traceEnd
  repeat' first
    | with_reducible assumption
    | with_reducible exact keepsP_fst (by assumption)
    | (extract_lets -useContext +onlyGivenNames x; refine (fun (hx : Keeps ps z x) => ?_) ?_; clear_value x; revert x; intro _ _; rotate_left; unfold x; clear x; rotate_left)
    | (extract_lets -useContext +onlyGivenNames x; revert x; intro _)
    | with_reducible refine traceIf_keeps (sub_of (by decide) hp) ?_
    | split
    | (clear_value *; split)
    | with_reducible refine keepsP_eq ?_ (by assumption)
    | with_reducible refine keepsO_eq ?_ (by assumption)
    | with_reducible refine keepsP_mk ?_

theorem execSequencerDrained_keeps {ps z} {n : Sys2Proof.SeqId} {s : Sys2Proof.Machine.State} (hp : [.regs, .isl, .mem, .arr, .vec, .ctx, .queues, .seq, .outbox, .draws, .bxl, .bridge] ⊆ ps) (h1 : Keeps ps z s) :
    KeepsR ps z (execSequencerDrained n s) := by
  unfold execSequencerDrained
  repeat' first
    | with_reducible assumption
    | with_reducible exact keepsP_fst (by assumption)
    | (extract_lets -useContext +onlyGivenNames x; refine (fun (hx : Keeps ps z x) => ?_) ?_; clear_value x; revert x; intro _ _; rotate_left; unfold x; clear x; rotate_left)
    | (extract_lets -useContext +onlyGivenNames x; revert x; intro _)
    | with_reducible refine keepsR_next ?_
    | with_reducible exact keepsR_fault
    | with_reducible refine reportEngine_keeps (sub_of (by decide) hp) ?_
    | with_reducible refine State.setSeq_keeps (sub_of (by decide) hp) ?_
    | with_reducible refine islandBoundary_keeps (sub_of (by decide) hp) ?_
    | with_reducible refine stopSiblings_keeps (sub_of (by decide) hp) ?_
    | with_reducible refine seqFail_keeps (sub_of (by decide) hp) ?_
    | with_reducible refine traceEnd_keeps (sub_of (by decide) hp) ?_
    | with_reducible refine dropAgent_keeps (sub_of (by decide) hp) ?_
    | split
    | (clear_value *; split)
    | with_reducible refine keepsP_eq ?_ (by assumption)
    | with_reducible refine keepsO_eq ?_ (by assumption)
    | with_reducible refine keepsP_mk ?_

theorem writeTraceHead_keeps {ps z} {s : Sys2Proof.Machine.State} {n : Nat} {v : Nat} (hp : [.regs] ⊆ ps) (h0 : Keeps ps z s) :
    Keeps ps z (writeTraceHead s n v) := by
  unfold writeTraceHead
  repeat' first
    | with_reducible assumption
    | with_reducible exact keepsP_fst (by assumption)
    | (extract_lets -useContext +onlyGivenNames x; refine (fun (hx : Keeps ps z x) => ?_) ?_; clear_value x; revert x; intro _ _; rotate_left; unfold x; clear x; rotate_left)
    | (extract_lets -useContext +onlyGivenNames x; revert x; intro _)
    | with_reducible refine State.setSeqReg_keeps (sub_of (by decide) hp) ?_
    | split
    | (clear_value *; split)
    | with_reducible refine keepsP_eq ?_ (by assumption)
    | with_reducible refine keepsO_eq ?_ (by assumption)
    | with_reducible refine keepsP_mk ?_

end Sys2Proof.Machine
end

