-- ==== Sys2Proof/Laws/FrameFrontEnd.lean ====
section
/-!
SUPPORT. Frames: for each operation of Sys2Proof/Machine/FrontEnd.lean, the parts of State it may change, and that it keeps the stores'
canonical form.
-/
namespace Sys2Proof.Machine

open Sys2Proof

theorem fePhys_keeps {ps z} {s : Sys2Proof.Machine.State} {q : Nat} {a : Nat} {write : Bool} (hp : [.regs, .mem, .mmu, .outbox, .bridge] ⊆ ps) (h0 : Keeps ps z s) :
    KeepsP ps z (fePhys s q a write) := by
  unfold fePhys
  repeat' first
    | with_reducible assumption
    | with_reducible exact keepsP_fst (by assumption)
    | (extract_lets -useContext +onlyGivenNames x; refine (fun (hx : Keeps ps z x) => ?_) ?_; clear_value x; revert x; intro _ _; rotate_left; unfold x; clear x; rotate_left)
    | (extract_lets -useContext +onlyGivenNames x; refine (fun (hx : KeepsP ps z x) => ?_) ?_; clear_value x; revert x; intro _ _; rotate_left; unfold x; clear x; rotate_left)
    | (extract_lets -useContext +onlyGivenNames x; revert x; intro _)
    | with_reducible refine translateFrom_keeps (sub_of (by decide) hp) ?_
    | with_reducible refine keepsP_fst (translateFrom_keeps (sub_of (by decide) hp) ?_)
    | with_reducible refine keepsP_eq (translateFrom_keeps (sub_of (by decide) hp) ?_) (by assumption)
    | split
    | (clear_value *; split)
    | with_reducible refine keepsP_eq ?_ (by assumption)
    | with_reducible refine keepsO_eq ?_ (by assumption)
    | with_reducible refine keepsP_mk ?_

theorem feLine_keeps {ps z} {s : Sys2Proof.Machine.State} {q : Nat} {agent : Nat} {a : Nat} (hp : [.regs, .mem, .mmu, .outbox, .bxl, .bridge] ⊆ ps) (h0 : Keeps ps z s) :
    KeepsP ps z (feLine s q agent a) := by
  unfold feLine
  repeat' first
    | with_reducible assumption
    | with_reducible exact keepsP_fst (by assumption)
    | (extract_lets -useContext +onlyGivenNames x; refine (fun (hx : Keeps ps z x) => ?_) ?_; clear_value x; revert x; intro _ _; rotate_left; unfold x; clear x; rotate_left)
    | (extract_lets -useContext +onlyGivenNames x; refine (fun (hx : KeepsP ps z x) => ?_) ?_; clear_value x; revert x; intro _ _; rotate_left; unfold x; clear x; rotate_left)
    | (extract_lets -useContext +onlyGivenNames x; revert x; intro _)
    | with_reducible refine cacheRead_keeps (sub_of (by decide) hp) ?_
    | with_reducible refine keepsP_fst (cacheRead_keeps (sub_of (by decide) hp) ?_)
    | with_reducible refine keepsP_eq (cacheRead_keeps (sub_of (by decide) hp) ?_) (by assumption)
    | with_reducible refine fePhys_keeps (sub_of (by decide) hp) ?_
    | with_reducible refine keepsP_fst (fePhys_keeps (sub_of (by decide) hp) ?_)
    | with_reducible refine keepsP_eq (fePhys_keeps (sub_of (by decide) hp) ?_) (by assumption)
    | with_reducible refine readFrom_keeps (sub_of (by decide) hp) ?_
    | with_reducible refine keepsP_fst (readFrom_keeps (sub_of (by decide) hp) ?_)
    | with_reducible refine keepsP_eq (readFrom_keeps (sub_of (by decide) hp) ?_) (by assumption)
    | split
    | (clear_value *; split)
    | with_reducible refine keepsP_eq ?_ (by assumption)
    | with_reducible refine keepsO_eq ?_ (by assumption)
    | with_reducible refine keepsP_mk ?_

theorem feRecord_keeps {ps z} {s : Sys2Proof.Machine.State} {q : Nat} {a : Nat} {data : List Sys2Proof.Byte} (hp : [.regs, .mem, .mmu, .outbox, .bxl, .bridge] ⊆ ps) (h0 : Keeps ps z s) :
    KeepsP ps z (feRecord s q a data) := by
  unfold feRecord
  repeat' first
    | with_reducible assumption
    | with_reducible exact keepsP_fst (by assumption)
    | (extract_lets -useContext +onlyGivenNames x; refine (fun (hx : Keeps ps z x) => ?_) ?_; clear_value x; revert x; intro _ _; rotate_left; unfold x; clear x; rotate_left)
    | (extract_lets -useContext +onlyGivenNames x; refine (fun (hx : KeepsP ps z x) => ?_) ?_; clear_value x; revert x; intro _ _; rotate_left; unfold x; clear x; rotate_left)
    | (extract_lets -useContext +onlyGivenNames x; revert x; intro _)
    | with_reducible refine cacheWrite_keeps (sub_of (by decide) hp) ?_
    | with_reducible refine keepsP_fst (cacheWrite_keeps (sub_of (by decide) hp) ?_)
    | with_reducible refine keepsP_eq (cacheWrite_keeps (sub_of (by decide) hp) ?_) (by assumption)
    | with_reducible refine fePhys_keeps (sub_of (by decide) hp) ?_
    | with_reducible refine keepsP_fst (fePhys_keeps (sub_of (by decide) hp) ?_)
    | with_reducible refine keepsP_eq (fePhys_keeps (sub_of (by decide) hp) ?_) (by assumption)
    | with_reducible refine writeFrom_keeps (sub_of (by decide) hp) ?_
    | with_reducible refine keepsP_fst (writeFrom_keeps (sub_of (by decide) hp) ?_)
    | with_reducible refine keepsP_eq (writeFrom_keeps (sub_of (by decide) hp) ?_) (by assumption)
    | split
    | (clear_value *; split)
    | with_reducible refine keepsP_eq ?_ (by assumption)
    | with_reducible refine keepsO_eq ?_ (by assumption)
    | with_reducible refine keepsP_mk ?_

theorem feRead_keeps {ps z} {s : Sys2Proof.Machine.State} {q : Nat} {a : Nat} {n : Nat} (hp : [.regs, .mem, .mmu, .outbox, .bxl, .bridge] ⊆ ps) (h0 : Keeps ps z s) :
    KeepsP ps z (feRead s q a n) := by
  unfold feRead
  repeat' first
    | with_reducible assumption
    | with_reducible exact keepsP_fst (by assumption)
    | (extract_lets -useContext +onlyGivenNames x; refine (fun (hx : Keeps ps z x) => ?_) ?_; clear_value x; revert x; intro _ _; rotate_left; unfold x; clear x; rotate_left)
    | (extract_lets -useContext +onlyGivenNames x; refine (fun (hx : KeepsP ps z x) => ?_) ?_; clear_value x; revert x; intro _ _; rotate_left; unfold x; clear x; rotate_left)
    | (extract_lets -useContext +onlyGivenNames x; revert x; intro _)
    | with_reducible refine physRead_keeps (sub_of (by decide) hp) ?_
    | with_reducible refine keepsP_fst (physRead_keeps (sub_of (by decide) hp) ?_)
    | with_reducible refine keepsP_eq (physRead_keeps (sub_of (by decide) hp) ?_) (by assumption)
    | with_reducible refine memRead_keeps (sub_of (by decide) hp) ?_
    | with_reducible refine keepsP_fst (memRead_keeps (sub_of (by decide) hp) ?_)
    | with_reducible refine keepsP_eq (memRead_keeps (sub_of (by decide) hp) ?_) (by assumption)
    | split
    | (clear_value *; split)
    | with_reducible refine keepsP_eq ?_ (by assumption)
    | with_reducible refine keepsO_eq ?_ (by assumption)
    | with_reducible refine keepsP_mk ?_

theorem feWrite_keeps {ps z} {s : Sys2Proof.Machine.State} {q : Nat} {a : Nat} {data : List Sys2Proof.Byte} (hp : [.regs, .mem, .mmu, .outbox, .bxl, .bridge] ⊆ ps) (h0 : Keeps ps z s) :
    KeepsP ps z (feWrite s q a data) := by
  unfold feWrite
  repeat' first
    | with_reducible assumption
    | with_reducible exact keepsP_fst (by assumption)
    | (extract_lets -useContext +onlyGivenNames x; refine (fun (hx : Keeps ps z x) => ?_) ?_; clear_value x; revert x; intro _ _; rotate_left; unfold x; clear x; rotate_left)
    | (extract_lets -useContext +onlyGivenNames x; refine (fun (hx : KeepsP ps z x) => ?_) ?_; clear_value x; revert x; intro _ _; rotate_left; unfold x; clear x; rotate_left)
    | (extract_lets -useContext +onlyGivenNames x; revert x; intro _)
    | with_reducible refine physWrite_keeps (sub_of (by decide) hp) ?_
    | with_reducible refine keepsP_fst (physWrite_keeps (sub_of (by decide) hp) ?_)
    | with_reducible refine keepsP_eq (physWrite_keeps (sub_of (by decide) hp) ?_) (by assumption)
    | with_reducible refine memWrite_keeps (sub_of (by decide) hp) ?_
    | with_reducible refine keepsP_fst (memWrite_keeps (sub_of (by decide) hp) ?_)
    | with_reducible refine keepsP_eq (memWrite_keeps (sub_of (by decide) hp) ?_) (by assumption)
    | split
    | (clear_value *; split)
    | with_reducible refine keepsP_eq ?_ (by assumption)
    | with_reducible refine keepsO_eq ?_ (by assumption)
    | with_reducible refine keepsP_mk ?_

theorem feThen_keeps {ps z} {s0 : Sys2Proof.Machine.State} {agent : Nat} {r : Sys2Proof.Machine.State × Sys2Proof.Machine.Acc} {good : Sys2Proof.Machine.State → List Sys2Proof.Byte → Sys2Proof.Machine.Out} {bad : Sys2Proof.Machine.State → Sys2Proof.Machine.Out} (hp : [.outbox, .bxl] ⊆ ps) (h0 : Keeps ps z s0) (h2 : KeepsP ps z r) (h3 : ∀ x0 x1, Keeps ps z x0 → KeepsR ps z (good x0 x1)) (h4 : ∀ x0, Keeps ps z x0 → KeepsR ps z (bad x0)) :
    KeepsR ps z (feThen s0 agent r good bad) := by
  unfold feThen
  repeat' first
    | with_reducible assumption
    | with_reducible exact keepsP_fst (by assumption)
    | (extract_lets -useContext +onlyGivenNames x; refine (fun (hx : Keeps ps z x) => ?_) ?_; clear_value x; revert x; intro _ _; rotate_left; unfold x; clear x; rotate_left)
    | (extract_lets -useContext +onlyGivenNames x; refine (fun (hx : KeepsP ps z x) => ?_) ?_; clear_value x; revert x; intro _ _; rotate_left; unfold x; clear x; rotate_left)
    | with_reducible refine h3 _ _ ?_
    | with_reducible refine keepsR_eq (h3 _ _ ?_) (by assumption)
    | with_reducible refine h4 _ ?_
    | with_reducible refine keepsR_eq (h4 _ ?_) (by assumption)
    | (extract_lets -useContext +onlyGivenNames x; revert x; intro _)
    | with_reducible refine keepsR_next ?_
    | with_reducible exact keepsR_fault
    | with_reducible refine takeAnswers_keeps (sub_of (by decide) hp) ?_
    | with_reducible refine keepRequests_keeps (sub_of (by decide) hp) ?_ ?_
    | split
    | (clear_value *; split)
    | with_reducible refine keepsP_eq ?_ (by assumption)
    | with_reducible refine keepsO_eq ?_ (by assumption)
    | with_reducible refine keepsP_mk ?_

theorem noteReady_keeps {ps z} {s : Sys2Proof.Machine.State} {q : Nat} (hp : [.queues] ⊆ ps) (h0 : Keeps ps z s) :
    Keeps ps z (noteReady s q) := by
  unfold noteReady
  repeat' first
    | with_reducible assumption
    | with_reducible exact keepsP_fst (by assumption)
    | (extract_lets -useContext +onlyGivenNames x; refine (fun (hx : Keeps ps z x) => ?_) ?_; clear_value x; revert x; intro _ _; rotate_left; unfold x; clear x; rotate_left)
    | (extract_lets -useContext +onlyGivenNames x; revert x; intro _)
    | with_reducible refine State.setQueue_keeps (sub_of (by decide) hp) ?_
    | split
    | (clear_value *; split)
    | with_reducible refine keepsP_eq ?_ (by assumption)
    | with_reducible refine keepsO_eq ?_ (by assumption)
    | with_reducible refine keepsP_mk ?_

theorem putFetched_keeps {ps z} {s : Sys2Proof.Machine.State} {q : Nat} {raw : Nat} {check : Nat} {off : Nat} (hp : [.regs, .queues] ⊆ ps) (h0 : Keeps ps z s) :
    Keeps ps z (putFetched s q raw check off) := by
  unfold putFetched
  repeat' first
    | with_reducible assumption
    | with_reducible exact keepsP_fst (by assumption)
    | (extract_lets -useContext +onlyGivenNames x; refine (fun (hx : Keeps ps z x) => ?_) ?_; clear_value x; revert x; intro _ _; rotate_left; unfold x; clear x; rotate_left)
    | (extract_lets -useContext +onlyGivenNames x; revert x; intro _)
    | with_reducible refine State.bump_keeps (sub_of (by decide) hp) ?_
    | with_reducible refine State.setQueue_keeps (sub_of (by decide) hp) ?_
    | split
    | (clear_value *; split)
    | with_reducible refine keepsP_eq ?_ (by assumption)
    | with_reducible refine keepsO_eq ?_ (by assumption)
    | with_reducible refine keepsP_mk ?_

theorem takeFetched_keeps {ps z} {s : Sys2Proof.Machine.State} {q : Nat} {raw : Nat} (hp : [.regs, .queues] ⊆ ps) (h0 : Keeps ps z s) :
    Keeps ps z (takeFetched s q raw) := by
  unfold takeFetched
  repeat' first
    | with_reducible assumption
    | with_reducible exact keepsP_fst (by assumption)
    | (extract_lets -useContext +onlyGivenNames x; refine (fun (hx : Keeps ps z x) => ?_) ?_; clear_value x; revert x; intro _ _; rotate_left; unfold x; clear x; rotate_left)
    | (extract_lets -useContext +onlyGivenNames x; revert x; intro _)
    | with_reducible refine putFetched_keeps (sub_of (by decide) hp) ?_
    | split
    | (clear_value *; split)
    | with_reducible refine keepsP_eq ?_ (by assumption)
    | with_reducible refine keepsO_eq ?_ (by assumption)
    | with_reducible refine keepsP_mk ?_

theorem execCommandFetch_keeps {ps z} {q : Sys2Proof.QueueId} {s : Sys2Proof.Machine.State} (hp : [.regs, .mem, .mmu, .queues, .outbox, .draws, .bxl, .bridge] ⊆ ps) (h1 : Keeps ps z s) :
    KeepsR ps z (execCommandFetch q s) := by
  unfold execCommandFetch
  repeat' first
    | with_reducible assumption
    | with_reducible exact keepsP_fst (by assumption)
    | (extract_lets -useContext +onlyGivenNames x; refine (fun (hx : Keeps ps z x) => ?_) ?_; clear_value x; revert x; intro _ _; rotate_left; unfold x; clear x; rotate_left)
    | (extract_lets -useContext +onlyGivenNames x; refine (fun (hx : KeepsP ps z x) => ?_) ?_; clear_value x; revert x; intro _ _; rotate_left; unfold x; clear x; rotate_left)
    | (extract_lets -useContext +onlyGivenNames x; revert x; intro _)
    | with_reducible refine keepsR_next ?_
    | with_reducible exact keepsR_fault
    | with_reducible refine putFetched_keeps (sub_of (by decide) hp) ?_
    | with_reducible refine takeFetched_keeps (sub_of (by decide) hp) ?_
    | with_reducible refine feLine_keeps (sub_of (by decide) hp) ?_
    | with_reducible refine keepsP_fst (feLine_keeps (sub_of (by decide) hp) ?_)
    | with_reducible refine keepsP_eq (feLine_keeps (sub_of (by decide) hp) ?_) (by assumption)
    | with_reducible refine feThen_keeps (sub_of (by decide) hp) ?_ ?_ (fun x0 x1 hx0 => ?_) (fun x0 hx0 => ?_)
    | with_reducible refine keepsR_eq (feThen_keeps (sub_of (by decide) hp) ?_ ?_ (fun x0 x1 hx0 => ?_) (fun x0 hx0 => ?_)) (by assumption)
    | split
    | (clear_value *; split)
    | with_reducible refine keeps_with_draws (mem_of (by decide) hp) ?_
    | with_reducible refine keepsP_eq ?_ (by assumption)
    | with_reducible refine keepsO_eq ?_ (by assumption)
    | with_reducible refine keepsP_mk ?_

theorem noteReadyAll_keeps {ps z} {s : Sys2Proof.Machine.State} (hp : [.queues] ⊆ ps) (h0 : Keeps ps z s) :
    Keeps ps z (noteReadyAll s) := by
  unfold noteReadyAll
  repeat' first
    | with_reducible assumption
    | with_reducible exact keepsP_fst (by assumption)
    | (extract_lets -useContext +onlyGivenNames x; refine (fun (hx : Keeps ps z x) => ?_) ?_; clear_value x; revert x; intro _ _; rotate_left; unfold x; clear x; rotate_left)
    | (extract_lets -useContext +onlyGivenNames x; revert x; intro _)
    | with_reducible refine noteReady_keeps (sub_of (by decide) hp) ?_
    | with_reducible refine keeps_foldl (fun t a ht => ?_) ?_
    | with_reducible refine keepsP_foldl (fun t a ht => ?_) ?_
    | split
    | (clear_value *; split)
    | with_reducible refine keepsP_eq ?_ (by assumption)
    | with_reducible refine keepsO_eq ?_ (by assumption)
    | with_reducible refine keepsP_mk ?_

theorem resetCounters_keeps {ps z} {s : Sys2Proof.Machine.State} {q : Nat} {c : Sys2Proof.Machine.Cmd} (hp : [.ctx, .obs] ⊆ ps) (h0 : Keeps ps z s) :
    Keeps ps z (resetCounters s q c) := by
  unfold resetCounters
  repeat' first
    | with_reducible assumption
    | with_reducible exact keepsP_fst (by assumption)
    | (extract_lets -useContext +onlyGivenNames x; refine (fun (hx : Keeps ps z x) => ?_) ?_; clear_value x; revert x; intro _ _; rotate_left; unfold x; clear x; rotate_left)
    | (extract_lets -useContext +onlyGivenNames x; revert x; intro _)
    | with_reducible refine State.setCtx_keeps (sub_of (by decide) hp) ?_
    | split
    | (clear_value *; split)
    | with_reducible refine keeps_with_obs (mem_of (by decide) hp) ?_
    | with_reducible refine keepsP_eq ?_ (by assumption)
    | with_reducible refine keepsO_eq ?_ (by assumption)
    | with_reducible refine keepsP_mk ?_

theorem beginCmd_keeps {ps z} {s : Sys2Proof.Machine.State} {q : Nat} {c : Sys2Proof.Machine.Cmd} (hp : [.regs, .ctx, .queues, .obs] ⊆ ps) (h0 : Keeps ps z s) :
    Keeps ps z (beginCmd s q c) := by
  unfold beginCmd
  repeat' first
    | with_reducible assumption
    | with_reducible exact keepsP_fst (by assumption)
    | (extract_lets -useContext +onlyGivenNames x; refine (fun (hx : Keeps ps z x) => ?_) ?_; clear_value x; revert x; intro _ _; rotate_left; unfold x; clear x; rotate_left)
    | (extract_lets -useContext +onlyGivenNames x; revert x; intro _)
    | with_reducible refine updCmd_keeps (sub_of (by decide) hp) ?_
    | with_reducible refine resetCounters_keeps (sub_of (by decide) hp) ?_
    | with_reducible refine countEvent_keeps (sub_of (by decide) hp) ?_
    | split
    | (clear_value *; split)
    | with_reducible refine keepsP_eq ?_ (by assumption)
    | with_reducible refine keepsO_eq ?_ (by assumption)
    | with_reducible refine keepsP_mk ?_

theorem execCommandStart_keeps {ps z} {q : Sys2Proof.QueueId} {s : Sys2Proof.Machine.State} (hp : [.regs, .ctx, .queues, .obs] ⊆ ps) (h1 : Keeps ps z s) :
    KeepsR ps z (execCommandStart q s) := by
  unfold execCommandStart
  repeat' first
    | with_reducible assumption
    | with_reducible exact keepsP_fst (by assumption)
    | (extract_lets -useContext +onlyGivenNames x; refine (fun (hx : Keeps ps z x) => ?_) ?_; clear_value x; revert x; intro _ _; rotate_left; unfold x; clear x; rotate_left)
    | (extract_lets -useContext +onlyGivenNames x; revert x; intro _)
    | with_reducible refine keepsR_next ?_
    | with_reducible exact keepsR_fault
    | with_reducible refine beginCmd_keeps (sub_of (by decide) hp) ?_
    | with_reducible refine failCmd_keeps (sub_of (by decide) hp) ?_
    | with_reducible refine updCmd_keeps (sub_of (by decide) hp) ?_
    | with_reducible refine noteReady_keeps (sub_of (by decide) hp) ?_
    | split
    | (clear_value *; split)
    | with_reducible refine keepsP_eq ?_ (by assumption)
    | with_reducible refine keepsO_eq ?_ (by assumption)
    | with_reducible refine keepsP_mk ?_

theorem startSeq_keeps {ps z} {s : Sys2Proof.Machine.State} {q : Nat} {c : Sys2Proof.Machine.Cmd} {n : Nat} {bitNo : Nat} {entry : Nat} (hp : [.regs, .mem, .seq, .outbox, .bridge] ⊆ ps) (h0 : Keeps ps z s) :
    Keeps ps z (startSeq s q c n bitNo entry) := by
  unfold startSeq
  repeat' first
    | with_reducible assumption
    | with_reducible exact keepsP_fst (by assumption)
    | (extract_lets -useContext +onlyGivenNames x; refine (fun (hx : Keeps ps z x) => ?_) ?_; clear_value x; revert x; intro _ _; rotate_left; unfold x; clear x; rotate_left)
    | (extract_lets -useContext +onlyGivenNames x; revert x; intro _)
    | with_reducible refine seqFault_keeps (sub_of (by decide) hp) ?_
    | with_reducible refine State.setSeq_keeps (sub_of (by decide) hp) ?_
    | with_reducible refine crossTo_keeps (sub_of (by decide) hp) ?_
    | split
    | (clear_value *; split)
    | with_reducible refine keepsP_eq ?_ (by assumption)
    | with_reducible refine keepsO_eq ?_ (by assumption)
    | with_reducible refine keepsP_mk ?_

theorem execRunList_keeps {ps z} {q : Sys2Proof.QueueId} {s : Sys2Proof.Machine.State} (hp : [.regs, .mem, .mmu, .queues, .seq, .outbox, .bxl, .bridge] ⊆ ps) (h1 : Keeps ps z s) :
    KeepsR ps z (execRunList q s) := by
  unfold execRunList
  repeat' first
    | with_reducible assumption
    | with_reducible exact keepsP_fst (by assumption)
    | (extract_lets -useContext +onlyGivenNames x; refine (fun (hx : Keeps ps z x) => ?_) ?_; clear_value x; revert x; intro _ _; rotate_left; unfold x; clear x; rotate_left)
    | (extract_lets -useContext +onlyGivenNames x; refine (fun (hx : KeepsP ps z x) => ?_) ?_; clear_value x; revert x; intro _ _; rotate_left; unfold x; clear x; rotate_left)
    | (extract_lets -useContext +onlyGivenNames x; revert x; intro _)
    | with_reducible refine keepsR_next ?_
    | with_reducible exact keepsR_fault
    | with_reducible refine badCmd_keeps (sub_of (by decide) hp) ?_
    | with_reducible refine startSeq_keeps (sub_of (by decide) hp) ?_
    | with_reducible refine updCmd_keeps (sub_of (by decide) hp) ?_
    | with_reducible refine doneCmd_keeps (sub_of (by decide) hp) ?_
    | with_reducible refine feRead_keeps (sub_of (by decide) hp) ?_
    | with_reducible refine keepsP_fst (feRead_keeps (sub_of (by decide) hp) ?_)
    | with_reducible refine keepsP_eq (feRead_keeps (sub_of (by decide) hp) ?_) (by assumption)
    | with_reducible refine feThen_keeps (sub_of (by decide) hp) ?_ ?_ (fun x0 x1 hx0 => ?_) (fun x0 hx0 => ?_)
    | with_reducible refine keepsR_eq (feThen_keeps (sub_of (by decide) hp) ?_ ?_ (fun x0 x1 hx0 => ?_) (fun x0 hx0 => ?_)) (by assumption)
    | with_reducible refine keeps_foldl (fun t a ht => ?_) ?_
    | with_reducible refine keepsP_foldl (fun t a ht => ?_) ?_
    | split
    | (clear_value *; split)
    | with_reducible refine keepsP_eq ?_ (by assumption)
    | with_reducible refine keepsO_eq ?_ (by assumption)
    | with_reducible refine keepsP_mk ?_

theorem execDmaStart_keeps {ps z} {q : Sys2Proof.QueueId} {s : Sys2Proof.Machine.State} (hp : [.dma, .queues, .bridge] ⊆ ps) (h1 : Keeps ps z s) :
    KeepsR ps z (execDmaStart q s) := by
  unfold execDmaStart
  repeat' first
    | with_reducible assumption
    | with_reducible exact keepsP_fst (by assumption)
    | (extract_lets -useContext +onlyGivenNames x; refine (fun (hx : Keeps ps z x) => ?_) ?_; clear_value x; revert x; intro _ _; rotate_left; unfold x; clear x; rotate_left)
    | (extract_lets -useContext +onlyGivenNames x; revert x; intro _)
    | with_reducible refine keepsR_next ?_
    | with_reducible exact keepsR_fault
    | with_reducible refine failCmd_keeps (sub_of (by decide) hp) ?_
    | with_reducible refine giveStarts_keeps (sub_of (by decide) hp) ?_
    | with_reducible refine doneCmd_keeps (sub_of (by decide) hp) ?_
    | with_reducible refine crossTo_keeps (sub_of (by decide) hp) ?_
    | with_reducible refine keeps_foldl (fun t a ht => ?_) ?_
    | with_reducible refine keepsP_foldl (fun t a ht => ?_) ?_
    | split
    | (clear_value *; split)
    | with_reducible refine keepsP_eq ?_ (by assumption)
    | with_reducible refine keepsO_eq ?_ (by assumption)
    | with_reducible refine keepsP_mk ?_

theorem execDmaAction_keeps {ps z} {q : Sys2Proof.QueueId} {s : Sys2Proof.Machine.State} (hp : [.regs, .isl, .dma, .queues, .bxl, .pwr, .bridge] ⊆ ps) (h1 : Keeps ps z s) :
    KeepsR ps z (execDmaAction q s) := by
  unfold execDmaAction
  repeat' first
    | with_reducible assumption
    | with_reducible exact keepsP_fst (by assumption)
    | (extract_lets -useContext +onlyGivenNames x; refine (fun (hx : Keeps ps z x) => ?_) ?_; clear_value x; revert x; intro _ _; rotate_left; unfold x; clear x; rotate_left)
    | (extract_lets -useContext +onlyGivenNames x; revert x; intro _)
    | with_reducible refine keepsR_next ?_
    | with_reducible exact keepsR_fault
    | with_reducible refine failCmd_keeps (sub_of (by decide) hp) ?_
    | with_reducible refine State.setChReg_keeps (sub_of (by decide) hp) ?_
    | with_reducible refine dmaAction_keeps (sub_of (by decide) hp) ?_
    | with_reducible refine doneCmd_keeps (sub_of (by decide) hp) ?_
    | with_reducible refine crossTo_keeps (sub_of (by decide) hp) ?_
    | split
    | (clear_value *; split)
    | with_reducible refine keepsP_eq ?_ (by assumption)
    | with_reducible refine keepsO_eq ?_ (by assumption)
    | with_reducible refine keepsP_mk ?_

theorem State.setQState_keeps {ps z} {s : Sys2Proof.Machine.State} {q : Nat} {st : Sys2Proof.Machine.QState} (hp : [.queues] ⊆ ps) (h0 : Keeps ps z s) :
    Keeps ps z (State.setQState s q st) := by
  unfold State.setQState
  repeat' first
    | with_reducible assumption
    | with_reducible exact keepsP_fst (by assumption)
    | (extract_lets -useContext +onlyGivenNames x; refine (fun (hx : Keeps ps z x) => ?_) ?_; clear_value x; revert x; intro _ _; rotate_left; unfold x; clear x; rotate_left)
    | (extract_lets -useContext +onlyGivenNames x; revert x; intro _)
    | with_reducible refine State.setQueue_keeps (sub_of (by decide) hp) ?_
    | split
    | (clear_value *; split)
    | with_reducible refine keepsP_eq ?_ (by assumption)
    | with_reducible refine keepsO_eq ?_ (by assumption)
    | with_reducible refine keepsP_mk ?_

theorem waitFence_keeps {ps z} {s : Sys2Proof.Machine.State} {q : Nat} {c : Sys2Proof.Machine.Cmd} (hp : [.regs, .mem, .mmu, .ctx, .queues, .outbox, .bxl, .obs, .bridge] ⊆ ps) (h0 : Keeps ps z s) :
    KeepsR ps z (waitFence s q c) := by
  unfold waitFence
  repeat' first
    | with_reducible assumption
    | with_reducible exact keepsP_fst (by assumption)
    | (extract_lets -useContext +onlyGivenNames x; refine (fun (hx : Keeps ps z x) => ?_) ?_; clear_value x; revert x; intro _ _; rotate_left; unfold x; clear x; rotate_left)
    | (extract_lets -useContext +onlyGivenNames x; refine (fun (hx : KeepsP ps z x) => ?_) ?_; clear_value x; revert x; intro _ _; rotate_left; unfold x; clear x; rotate_left)
    | (extract_lets -useContext +onlyGivenNames x; revert x; intro _)
    | with_reducible refine keepsR_next ?_
    | with_reducible exact keepsR_fault
    | with_reducible refine badCmd_keeps (sub_of (by decide) hp) ?_
    | with_reducible refine updCmd_keeps (sub_of (by decide) hp) ?_
    | with_reducible refine State.setQState_keeps (sub_of (by decide) hp) ?_
    | with_reducible refine beginCmd_keeps (sub_of (by decide) hp) ?_
    | with_reducible refine doneCmd_keeps (sub_of (by decide) hp) ?_
    | with_reducible refine feLine_keeps (sub_of (by decide) hp) ?_
    | with_reducible refine keepsP_fst (feLine_keeps (sub_of (by decide) hp) ?_)
    | with_reducible refine keepsP_eq (feLine_keeps (sub_of (by decide) hp) ?_) (by assumption)
    | with_reducible refine feThen_keeps (sub_of (by decide) hp) ?_ ?_ (fun x0 x1 hx0 => ?_) (fun x0 hx0 => ?_)
    | with_reducible refine keepsR_eq (feThen_keeps (sub_of (by decide) hp) ?_ ?_ (fun x0 x1 hx0 => ?_) (fun x0 hx0 => ?_)) (by assumption)
    | split
    | (clear_value *; split)
    | with_reducible refine keepsP_eq ?_ (by assumption)
    | with_reducible refine keepsO_eq ?_ (by assumption)
    | with_reducible refine keepsP_mk ?_

theorem execFenceWait_keeps {ps z} {q : Sys2Proof.QueueId} {s : Sys2Proof.Machine.State} (hp : [.regs, .mem, .mmu, .ctx, .queues, .outbox, .bxl, .obs, .bridge] ⊆ ps) (h1 : Keeps ps z s) :
    KeepsR ps z (execFenceWait q s) := by
  unfold execFenceWait
  repeat' first
    | with_reducible assumption
    | with_reducible exact keepsP_fst (by assumption)
    | (extract_lets -useContext +onlyGivenNames x; refine (fun (hx : Keeps ps z x) => ?_) ?_; clear_value x; revert x; intro _ _; rotate_left; unfold x; clear x; rotate_left)
    | (extract_lets -useContext +onlyGivenNames x; revert x; intro _)
    | with_reducible refine keepsR_next ?_
    | with_reducible exact keepsR_fault
    | with_reducible refine waitFence_keeps (sub_of (by decide) hp) ?_
    | with_reducible refine keepsR_eq (waitFence_keeps (sub_of (by decide) hp) ?_) (by assumption)
    | with_reducible refine noteReady_keeps (sub_of (by decide) hp) ?_
    | split
    | (clear_value *; split)
    | with_reducible refine keepsP_eq ?_ (by assumption)
    | with_reducible refine keepsO_eq ?_ (by assumption)
    | with_reducible refine keepsP_mk ?_

theorem execFencePoll_keeps {ps z} {q : Sys2Proof.QueueId} {s : Sys2Proof.Machine.State} (hp : [.regs, .mem, .mmu, .ctx, .queues, .outbox, .bxl, .obs, .bridge] ⊆ ps) (h1 : Keeps ps z s) :
    KeepsR ps z (execFencePoll q s) := by
  unfold execFencePoll
  repeat' first
    | with_reducible assumption
    | with_reducible exact keepsP_fst (by assumption)
    | (extract_lets -useContext +onlyGivenNames x; refine (fun (hx : Keeps ps z x) => ?_) ?_; clear_value x; revert x; intro _ _; rotate_left; unfold x; clear x; rotate_left)
    | (extract_lets -useContext +onlyGivenNames x; revert x; intro _)
    | with_reducible refine keepsR_next ?_
    | with_reducible exact keepsR_fault
    | with_reducible refine waitFence_keeps (sub_of (by decide) hp) ?_
    | with_reducible refine keepsR_eq (waitFence_keeps (sub_of (by decide) hp) ?_) (by assumption)
    | split
    | (clear_value *; split)
    | with_reducible refine keepsP_eq ?_ (by assumption)
    | with_reducible refine keepsO_eq ?_ (by assumption)
    | with_reducible refine keepsP_mk ?_

theorem execFenceSignal_keeps {ps z} {q : Sys2Proof.QueueId} {s : Sys2Proof.Machine.State} (hp : [.regs, .mem, .mmu, .queues, .outbox, .bxl, .bridge] ⊆ ps) (h1 : Keeps ps z s) :
    KeepsR ps z (execFenceSignal q s) := by
  unfold execFenceSignal
  repeat' first
    | with_reducible assumption
    | with_reducible exact keepsP_fst (by assumption)
    | (extract_lets -useContext +onlyGivenNames x; refine (fun (hx : Keeps ps z x) => ?_) ?_; clear_value x; revert x; intro _ _; rotate_left; unfold x; clear x; rotate_left)
    | (extract_lets -useContext +onlyGivenNames x; refine (fun (hx : KeepsP ps z x) => ?_) ?_; clear_value x; revert x; intro _ _; rotate_left; unfold x; clear x; rotate_left)
    | (extract_lets -useContext +onlyGivenNames x; revert x; intro _)
    | with_reducible refine keepsR_next ?_
    | with_reducible exact keepsR_fault
    | with_reducible refine badCmd_keeps (sub_of (by decide) hp) ?_
    | with_reducible refine doneCmd_keeps (sub_of (by decide) hp) ?_
    | with_reducible refine fenceMaxPhys_keeps (sub_of (by decide) hp) ?_
    | with_reducible refine keepsP_fst (fenceMaxPhys_keeps (sub_of (by decide) hp) ?_)
    | with_reducible refine keepsP_eq (fenceMaxPhys_keeps (sub_of (by decide) hp) ?_) (by assumption)
    | with_reducible refine fenceMax_keeps (sub_of (by decide) hp) ?_
    | with_reducible refine keepsP_fst (fenceMax_keeps (sub_of (by decide) hp) ?_)
    | with_reducible refine keepsP_eq (fenceMax_keeps (sub_of (by decide) hp) ?_) (by assumption)
    | with_reducible refine feThen_keeps (sub_of (by decide) hp) ?_ ?_ (fun x0 x1 hx0 => ?_) (fun x0 hx0 => ?_)
    | with_reducible refine keepsR_eq (feThen_keeps (sub_of (by decide) hp) ?_ ?_ (fun x0 x1 hx0 => ?_) (fun x0 hx0 => ?_)) (by assumption)
    | split
    | (clear_value *; split)
    | with_reducible refine keepsP_eq ?_ (by assumption)
    | with_reducible refine keepsO_eq ?_ (by assumption)
    | with_reducible refine keepsP_mk ?_

theorem execNop_keeps {ps z} {q : Sys2Proof.QueueId} {s : Sys2Proof.Machine.State} (hp : [.queues] ⊆ ps) (h1 : Keeps ps z s) :
    KeepsR ps z (execNop q s) := by
  unfold execNop
  repeat' first
    | with_reducible assumption
    | with_reducible exact keepsP_fst (by assumption)
    | (extract_lets -useContext +onlyGivenNames x; refine (fun (hx : Keeps ps z x) => ?_) ?_; clear_value x; revert x; intro _ _; rotate_left; unfold x; clear x; rotate_left)
    | (extract_lets -useContext +onlyGivenNames x; revert x; intro _)
    | with_reducible refine keepsR_next ?_
    | with_reducible exact keepsR_fault
    | with_reducible refine doneCmd_keeps (sub_of (by decide) hp) ?_
    | split
    | (clear_value *; split)
    | with_reducible refine keepsP_eq ?_ (by assumption)
    | with_reducible refine keepsO_eq ?_ (by assumption)
    | with_reducible refine keepsP_mk ?_

theorem execFlagsRead_keeps {ps z} {q : Sys2Proof.QueueId} {s : Sys2Proof.Machine.State} (hp : [.regs, .mem, .mmu, .ctx, .queues, .outbox, .bxl, .bridge] ⊆ ps) (h1 : Keeps ps z s) :
    KeepsR ps z (execFlagsRead q s) := by
  unfold execFlagsRead
  repeat' first
    | with_reducible assumption
    | with_reducible exact keepsP_fst (by assumption)
    | (extract_lets -useContext +onlyGivenNames x; refine (fun (hx : Keeps ps z x) => ?_) ?_; clear_value x; revert x; intro _ _; rotate_left; unfold x; clear x; rotate_left)
    | (extract_lets -useContext +onlyGivenNames x; refine (fun (hx : KeepsP ps z x) => ?_) ?_; clear_value x; revert x; intro _ _; rotate_left; unfold x; clear x; rotate_left)
    | (extract_lets -useContext +onlyGivenNames x; revert x; intro _)
    | with_reducible refine keepsR_next ?_
    | with_reducible exact keepsR_fault
    | with_reducible refine badCmd_keeps (sub_of (by decide) hp) ?_
    | with_reducible refine doneCmd_keeps (sub_of (by decide) hp) ?_
    | with_reducible refine State.setCtx_keeps (sub_of (by decide) hp) ?_
    | with_reducible refine feWrite_keeps (sub_of (by decide) hp) ?_
    | with_reducible refine keepsP_fst (feWrite_keeps (sub_of (by decide) hp) ?_)
    | with_reducible refine keepsP_eq (feWrite_keeps (sub_of (by decide) hp) ?_) (by assumption)
    | with_reducible refine feThen_keeps (sub_of (by decide) hp) ?_ ?_ (fun x0 x1 hx0 => ?_) (fun x0 hx0 => ?_)
    | with_reducible refine keepsR_eq (feThen_keeps (sub_of (by decide) hp) ?_ ?_ (fun x0 x1 hx0 => ?_) (fun x0 hx0 => ?_)) (by assumption)
    | split
    | (clear_value *; split)
    | with_reducible refine keepsP_eq ?_ (by assumption)
    | with_reducible refine keepsO_eq ?_ (by assumption)
    | with_reducible refine keepsP_mk ?_

theorem stopQueue_keeps {ps z} {s : Sys2Proof.Machine.State} {q : Nat} {reason : Nat} {seq : Nat} (hp : [.regs, .queues, .outbox] ⊆ ps) (h0 : Keeps ps z s) :
    Keeps ps z (stopQueue s q reason seq) := by
  unfold stopQueue
  repeat' first
    | with_reducible assumption
    | with_reducible exact keepsP_fst (by assumption)
    | (extract_lets -useContext +onlyGivenNames x; refine (fun (hx : Keeps ps z x) => ?_) ?_; clear_value x; revert x; intro _ _; rotate_left; unfold x; clear x; rotate_left)
    | (extract_lets -useContext +onlyGivenNames x; revert x; intro _)
    | with_reducible refine State.setQueue_keeps (sub_of (by decide) hp) ?_
    | with_reducible refine raiseVector_keeps (sub_of (by decide) hp) ?_
    | split
    | (clear_value *; split)
    | with_reducible refine keepsP_eq ?_ (by assumption)
    | with_reducible refine keepsO_eq ?_ (by assumption)
    | with_reducible refine keepsP_mk ?_

theorem retireCmd_keeps {ps z} {s : Sys2Proof.Machine.State} {q : Nat} {c : Sys2Proof.Machine.Cmd} (hp : [.regs, .ctx, .queues, .outbox] ⊆ ps) (h0 : Keeps ps z s) :
    Keeps ps z (retireCmd s q c) := by
  unfold retireCmd
  repeat' first
    | with_reducible assumption
    | with_reducible exact keepsP_fst (by assumption)
    | (extract_lets -useContext +onlyGivenNames x; refine (fun (hx : Keeps ps z x) => ?_) ?_; clear_value x; revert x; intro _ _; rotate_left; unfold x; clear x; rotate_left)
    | (extract_lets -useContext +onlyGivenNames x; revert x; intro _)
    | with_reducible refine stopQueue_keeps (sub_of (by decide) hp) ?_
    | with_reducible refine ctxCount_keeps (sub_of (by decide) hp) ?_
    | with_reducible refine State.setQueue_keeps (sub_of (by decide) hp) ?_
    | split
    | (clear_value *; split)
    | with_reducible refine keepsP_eq ?_ (by assumption)
    | with_reducible refine keepsO_eq ?_ (by assumption)
    | with_reducible refine keepsP_mk ?_

theorem putOrphan_keeps {ps z} {s : Sys2Proof.Machine.State} {word : Nat} (hp : [.regs, .mem, .outbox, .bridge] ⊆ ps) (h0 : Keeps ps z s) :
    KeepsO ps z (putOrphan s word) := by
  unfold putOrphan
  repeat' first
    | with_reducible assumption
    | with_reducible exact keepsP_fst (by assumption)
    | (extract_lets -useContext +onlyGivenNames x; refine (fun (hx : Keeps ps z x) => ?_) ?_; clear_value x; revert x; intro _ _; rotate_left; unfold x; clear x; rotate_left)
    | (extract_lets -useContext +onlyGivenNames x; refine (fun (hx : KeepsP ps z x) => ?_) ?_; clear_value x; revert x; intro _ _; rotate_left; unfold x; clear x; rotate_left)
    | (extract_lets -useContext +onlyGivenNames x; refine (fun (hx : KeepsO ps z x) => ?_) ?_; clear_value x; revert x; intro _ _; rotate_left; unfold x; clear x; rotate_left)
    | with_reducible exact keepsO_get (by assumption)
    | (extract_lets -useContext +onlyGivenNames x; revert x; intro _)
    | exact keepsO_none
    | with_reducible refine keepsO_some ?_
    | with_reducible refine State.setReg_keeps (sub_of (by decide) hp) ?_
    | with_reducible refine writeFrom_keeps (sub_of (by decide) hp) ?_
    | with_reducible refine keepsP_fst (writeFrom_keeps (sub_of (by decide) hp) ?_)
    | with_reducible refine keepsP_eq (writeFrom_keeps (sub_of (by decide) hp) ?_) (by assumption)
    | split
    | (clear_value *; split)
    | with_reducible refine keepsP_eq ?_ (by assumption)
    | with_reducible refine keepsO_eq ?_ (by assumption)
    | with_reducible refine keepsP_mk ?_

theorem recordWritten_keeps {ps z} {s : Sys2Proof.Machine.State} {q : Nat} {a2_ : Sys2Proof.Machine.Held} (hp : [.regs, .queues, .outbox] ⊆ ps) (h0 : Keeps ps z s) :
    Keeps ps z (recordWritten s q a2_) := by
  unfold recordWritten
  repeat' first
    | with_reducible assumption
    | with_reducible exact keepsP_fst (by assumption)
    | (extract_lets -useContext +onlyGivenNames x; refine (fun (hx : Keeps ps z x) => ?_) ?_; clear_value x; revert x; intro _ _; rotate_left; unfold x; clear x; rotate_left)
    | (extract_lets -useContext +onlyGivenNames x; revert x; intro _)
    | with_reducible refine raiseVector_keeps (sub_of (by decide) hp) ?_
    | with_reducible refine State.setQueue_keeps (sub_of (by decide) hp) ?_
    | split
    | (clear_value *; split)
    | with_reducible refine keepsP_eq ?_ (by assumption)
    | with_reducible refine keepsO_eq ?_ (by assumption)
    | with_reducible refine keepsP_mk ?_

theorem drainOne_keeps {ps z} {s : Sys2Proof.Machine.State} {q : Nat} (hp : [.regs, .mem, .mmu, .queues, .outbox, .bxl, .bridge] ⊆ ps) (h0 : Keeps ps z s) :
    KeepsP ps z (drainOne s q) := by
  unfold drainOne
  repeat' first
    | with_reducible assumption
    | with_reducible exact keepsP_fst (by assumption)
    | (extract_lets -useContext +onlyGivenNames x; refine (fun (hx : Keeps ps z x) => ?_) ?_; clear_value x; revert x; intro _ _; rotate_left; unfold x; clear x; rotate_left)
    | (extract_lets -useContext +onlyGivenNames x; refine (fun (hx : KeepsP ps z x) => ?_) ?_; clear_value x; revert x; intro _ _; rotate_left; unfold x; clear x; rotate_left)
    | (extract_lets -useContext +onlyGivenNames x; refine (fun (hx : KeepsO ps z x) => ?_) ?_; clear_value x; revert x; intro _ _; rotate_left; unfold x; clear x; rotate_left)
    | with_reducible exact keepsO_get (by assumption)
    | (extract_lets -useContext +onlyGivenNames x; revert x; intro _)
    | with_reducible refine recordWritten_keeps (sub_of (by decide) hp) ?_
    | with_reducible refine takeAnswers_keeps (sub_of (by decide) hp) ?_
    | with_reducible refine keepRequests_keeps (sub_of (by decide) hp) ?_ ?_
    | with_reducible refine feRecord_keeps (sub_of (by decide) hp) ?_
    | with_reducible refine keepsP_fst (feRecord_keeps (sub_of (by decide) hp) ?_)
    | with_reducible refine keepsP_eq (feRecord_keeps (sub_of (by decide) hp) ?_) (by assumption)
    | with_reducible refine State.setQueue_keeps (sub_of (by decide) hp) ?_
    | with_reducible refine putOrphan_keeps (sub_of (by decide) hp) ?_
    | with_reducible refine keepsO_eq (putOrphan_keeps (sub_of (by decide) hp) ?_) (by assumption)
    | split
    | (clear_value *; split)
    | with_reducible refine keepsP_eq ?_ (by assumption)
    | with_reducible refine keepsO_eq ?_ (by assumption)
    | with_reducible refine keepsP_mk ?_

theorem drainHeld_keeps {ps z} {a0_ : Nat} {a1_ : Sys2Proof.Machine.State} {a2_ : Nat} (hp : [.regs, .mem, .mmu, .queues, .outbox, .bxl, .bridge] ⊆ ps) (h1 : Keeps ps z a1_) :
    Keeps ps z (drainHeld a0_ a1_ a2_) := by
  induction a0_ generalizing a1_ a2_ with
  | zero =>
    unfold drainHeld
    repeat' first
      | with_reducible assumption
      | with_reducible exact keepsP_fst (by assumption)
      | (extract_lets -useContext +onlyGivenNames x; refine (fun (hx : Keeps ps z x) => ?_) ?_; clear_value x; revert x; intro _ _; rotate_left; unfold x; clear x; rotate_left)
      | (extract_lets -useContext +onlyGivenNames x; refine (fun (hx : KeepsP ps z x) => ?_) ?_; clear_value x; revert x; intro _ _; rotate_left; unfold x; clear x; rotate_left)
      | (extract_lets -useContext +onlyGivenNames x; revert x; intro _)
      | with_reducible refine drainOne_keeps (sub_of (by decide) hp) ?_
      | with_reducible refine keepsP_fst (drainOne_keeps (sub_of (by decide) hp) ?_)
      | with_reducible refine keepsP_eq (drainOne_keeps (sub_of (by decide) hp) ?_) (by assumption)
      | split
      | (clear_value *; split)
      | with_reducible refine keepsP_eq ?_ (by assumption)
      | with_reducible refine keepsO_eq ?_ (by assumption)
      | with_reducible refine keepsP_mk ?_
  | succ fuel ih =>
    unfold drainHeld
    repeat' first
      | with_reducible assumption
      | with_reducible exact keepsP_fst (by assumption)
      | (extract_lets -useContext +onlyGivenNames x; refine (fun (hx : Keeps ps z x) => ?_) ?_; clear_value x; revert x; intro _ _; rotate_left; unfold x; clear x; rotate_left)
      | (extract_lets -useContext +onlyGivenNames x; refine (fun (hx : KeepsP ps z x) => ?_) ?_; clear_value x; revert x; intro _ _; rotate_left; unfold x; clear x; rotate_left)
      | with_reducible refine ih ?_
      | (extract_lets -useContext +onlyGivenNames x; revert x; intro _)
      | with_reducible refine drainOne_keeps (sub_of (by decide) hp) ?_
      | with_reducible refine keepsP_fst (drainOne_keeps (sub_of (by decide) hp) ?_)
      | with_reducible refine keepsP_eq (drainOne_keeps (sub_of (by decide) hp) ?_) (by assumption)
      | split
      | (clear_value *; split)
      | with_reducible refine keepsP_eq ?_ (by assumption)
      | with_reducible refine keepsO_eq ?_ (by assumption)
      | with_reducible refine keepsP_mk ?_

theorem completeCmd_keeps {ps z} {s : Sys2Proof.Machine.State} {q : Nat} {c : Sys2Proof.Machine.Cmd} (hp : [.regs, .mem, .mmu, .ctx, .queues, .outbox, .bxl, .bridge] ⊆ ps) (h0 : Keeps ps z s) :
    KeepsR ps z (completeCmd s q c) := by
  unfold completeCmd
  repeat' first
    | with_reducible assumption
    | with_reducible exact keepsP_fst (by assumption)
    | (extract_lets -useContext +onlyGivenNames x; refine (fun (hx : Keeps ps z x) => ?_) ?_; clear_value x; revert x; intro _ _; rotate_left; unfold x; clear x; rotate_left)
    | (extract_lets -useContext +onlyGivenNames x; refine (fun (hx : KeepsP ps z x) => ?_) ?_; clear_value x; revert x; intro _ _; rotate_left; unfold x; clear x; rotate_left)
    | (extract_lets -useContext +onlyGivenNames x; refine (fun (hx : KeepsO ps z x) => ?_) ?_; clear_value x; revert x; intro _ _; rotate_left; unfold x; clear x; rotate_left)
    | with_reducible exact keepsO_get (by assumption)
    | (extract_lets -useContext +onlyGivenNames x; have _hx : ∀ a, x a = x a := fun _ => rfl; clear _hx; unfold x; clear x)
    | (extract_lets -useContext +onlyGivenNames x; revert x; intro _)
    | with_reducible refine keepsR_next ?_
    | with_reducible exact keepsR_fault
    | with_reducible refine takeAnswers_keeps (sub_of (by decide) hp) ?_
    | with_reducible refine recordWritten_keeps (sub_of (by decide) hp) ?_
    | with_reducible refine keepRequests_keeps (sub_of (by decide) hp) ?_ ?_
    | with_reducible refine feRecord_keeps (sub_of (by decide) hp) ?_
    | with_reducible refine keepsP_fst (feRecord_keeps (sub_of (by decide) hp) ?_)
    | with_reducible refine keepsP_eq (feRecord_keeps (sub_of (by decide) hp) ?_) (by assumption)
    | with_reducible refine putOrphan_keeps (sub_of (by decide) hp) ?_
    | with_reducible refine keepsO_eq (putOrphan_keeps (sub_of (by decide) hp) ?_) (by assumption)
    | with_reducible refine State.setQueue_keeps (sub_of (by decide) hp) ?_
    | with_reducible refine retireCmd_keeps (sub_of (by decide) hp) ?_
    | split
    | (clear_value *; split)
    | with_reducible refine keepsP_eq ?_ (by assumption)
    | with_reducible refine keepsO_eq ?_ (by assumption)
    | with_reducible refine keepsP_mk ?_

theorem execCommandComplete_keeps {ps z} {q : Sys2Proof.QueueId} {s : Sys2Proof.Machine.State} (hp : [.regs, .mem, .mmu, .ctx, .queues, .outbox, .bxl, .bridge] ⊆ ps) (h1 : Keeps ps z s) :
    KeepsR ps z (execCommandComplete q s) := by
  unfold execCommandComplete
  repeat' first
    | with_reducible assumption
    | with_reducible exact keepsP_fst (by assumption)
    | (extract_lets -useContext +onlyGivenNames x; refine (fun (hx : Keeps ps z x) => ?_) ?_; clear_value x; revert x; intro _ _; rotate_left; unfold x; clear x; rotate_left)
    | (extract_lets -useContext +onlyGivenNames x; refine (fun (hx : KeepsP ps z x) => ?_) ?_; clear_value x; revert x; intro _ _; rotate_left; unfold x; clear x; rotate_left)
    | (extract_lets -useContext +onlyGivenNames x; revert x; intro _)
    | with_reducible refine keepsR_next ?_
    | with_reducible exact keepsR_fault
    | with_reducible refine completeCmd_keeps (sub_of (by decide) hp) ?_
    | with_reducible refine keepsR_eq (completeCmd_keeps (sub_of (by decide) hp) ?_) (by assumption)
    | with_reducible refine drainOne_keeps (sub_of (by decide) hp) ?_
    | with_reducible refine keepsP_fst (drainOne_keeps (sub_of (by decide) hp) ?_)
    | with_reducible refine keepsP_eq (drainOne_keeps (sub_of (by decide) hp) ?_) (by assumption)
    | split
    | (clear_value *; split)
    | with_reducible refine keepsP_eq ?_ (by assumption)
    | with_reducible refine keepsO_eq ?_ (by assumption)
    | with_reducible refine keepsP_mk ?_

theorem execCompletionWriteFault_keeps {ps z} {q : Sys2Proof.QueueId} {s : Sys2Proof.Machine.State} (hp : [.regs, .mem, .queues, .outbox, .bridge] ⊆ ps) (h1 : Keeps ps z s) :
    KeepsR ps z (execCompletionWriteFault q s) := by
  unfold execCompletionWriteFault
  repeat' first
    | with_reducible assumption
    | with_reducible exact keepsP_fst (by assumption)
    | (extract_lets -useContext +onlyGivenNames x; refine (fun (hx : Keeps ps z x) => ?_) ?_; clear_value x; revert x; intro _ _; rotate_left; unfold x; clear x; rotate_left)
    | (extract_lets -useContext +onlyGivenNames x; refine (fun (hx : KeepsO ps z x) => ?_) ?_; clear_value x; revert x; intro _ _; rotate_left; unfold x; clear x; rotate_left)
    | with_reducible exact keepsO_get (by assumption)
    | (extract_lets -useContext +onlyGivenNames x; revert x; intro _)
    | with_reducible refine keepsR_next ?_
    | with_reducible exact keepsR_fault
    | with_reducible refine putOrphan_keeps (sub_of (by decide) hp) ?_
    | with_reducible refine keepsO_eq (putOrphan_keeps (sub_of (by decide) hp) ?_) (by assumption)
    | with_reducible refine State.setQueue_keeps (sub_of (by decide) hp) ?_
    | with_reducible refine raiseVector_keeps (sub_of (by decide) hp) ?_
    | split
    | (clear_value *; split)
    | with_reducible refine keepsP_eq ?_ (by assumption)
    | with_reducible refine keepsO_eq ?_ (by assumption)
    | with_reducible refine keepsP_mk ?_

theorem writeCqHead_keeps {ps z} {s : Sys2Proof.Machine.State} {q : Nat} {v : Nat} (hp : [.regs, .mem, .mmu, .queues, .outbox, .bxl, .bridge] ⊆ ps) (h0 : Keeps ps z s) :
    Keeps ps z (writeCqHead s q v) := by
  unfold writeCqHead
  repeat' first
    | with_reducible assumption
    | with_reducible exact keepsP_fst (by assumption)
    | (extract_lets -useContext +onlyGivenNames x; refine (fun (hx : Keeps ps z x) => ?_) ?_; clear_value x; revert x; intro _ _; rotate_left; unfold x; clear x; rotate_left)
    | (extract_lets -useContext +onlyGivenNames x; revert x; intro _)
    | with_reducible refine State.setQueue_keeps (sub_of (by decide) hp) ?_
    | with_reducible refine drainHeld_keeps (sub_of (by decide) hp) ?_
    | split
    | (clear_value *; split)
    | with_reducible refine keepsP_eq ?_ (by assumption)
    | with_reducible refine keepsO_eq ?_ (by assumption)
    | with_reducible refine keepsP_mk ?_

theorem writeTail_keeps {ps z} {s : Sys2Proof.Machine.State} {q : Nat} {v : Nat} (hp : [.regs, .queues, .outbox] ⊆ ps) (h0 : Keeps ps z s) :
    KeepsO ps z (writeTail s q v) := by
  unfold writeTail
  repeat' first
    | with_reducible assumption
    | with_reducible exact keepsP_fst (by assumption)
    | (extract_lets -useContext +onlyGivenNames x; refine (fun (hx : Keeps ps z x) => ?_) ?_; clear_value x; revert x; intro _ _; rotate_left; unfold x; clear x; rotate_left)
    | (extract_lets -useContext +onlyGivenNames x; refine (fun (hx : KeepsO ps z x) => ?_) ?_; clear_value x; revert x; intro _ _; rotate_left; unfold x; clear x; rotate_left)
    | with_reducible exact keepsO_get (by assumption)
    | (extract_lets -useContext +onlyGivenNames x; revert x; intro _)
    | exact keepsO_none
    | with_reducible refine keepsO_some ?_
    | with_reducible refine State.setQueue_keeps (sub_of (by decide) hp) ?_
    | with_reducible refine stopQueue_keeps (sub_of (by decide) hp) ?_
    | split
    | (clear_value *; split)
    | with_reducible refine keepsP_eq ?_ (by assumption)
    | with_reducible refine keepsO_eq ?_ (by assumption)
    | with_reducible refine keepsP_mk ?_

theorem abortSeq_keeps {ps z} {q : Nat} {n : Nat} {s : Sys2Proof.Machine.State} {m : Nat} (hp : [.seq] ⊆ ps) (h2 : Keeps ps z s) :
    Keeps ps z (abortSeq q n s m) := by
  unfold abortSeq
  repeat' first
    | with_reducible assumption
    | with_reducible exact keepsP_fst (by assumption)
    | (extract_lets -useContext +onlyGivenNames x; refine (fun (hx : Keeps ps z x) => ?_) ?_; clear_value x; revert x; intro _ _; rotate_left; unfold x; clear x; rotate_left)
    | (extract_lets -useContext +onlyGivenNames x; revert x; intro _)
    | with_reducible refine State.setSeq_keeps (sub_of (by decide) hp) ?_
    | split
    | (clear_value *; split)
    | with_reducible refine keepsP_eq ?_ (by assumption)
    | with_reducible refine keepsO_eq ?_ (by assumption)
    | with_reducible refine keepsP_mk ?_

theorem abortEngines_keeps {ps z} {s : Sys2Proof.Machine.State} {q : Nat} {c : Sys2Proof.Machine.Cmd} (hp : [.arr, .vec, .seq, .nmu] ⊆ ps) (h0 : Keeps ps z s) :
    Keeps ps z (abortEngines s q c) := by
  unfold abortEngines
  repeat' first
    | with_reducible assumption
    | with_reducible exact keepsP_fst (by assumption)
    | (extract_lets -useContext +onlyGivenNames x; refine (fun (hx : Keeps ps z x) => ?_) ?_; clear_value x; revert x; intro _ _; rotate_left; unfold x; clear x; rotate_left)
    | (extract_lets -useContext +onlyGivenNames x; revert x; intro _)
    | with_reducible refine State.setArr_keeps (sub_of (by decide) hp) ?_
    | with_reducible refine State.setVec_keeps (sub_of (by decide) hp) ?_
    | with_reducible refine abortSeq_keeps (sub_of (by decide) hp) ?_
    | with_reducible refine rampIfEmpty_keeps (sub_of (by decide) hp) ?_
    | with_reducible refine keeps_foldl (fun t a ht => ?_) ?_
    | with_reducible refine keepsP_foldl (fun t a ht => ?_) ?_
    | split
    | (clear_value *; split)
    | with_reducible refine keeps_with_nmu (mem_of (by decide) hp) ?_
    | with_reducible refine keepsP_eq ?_ (by assumption)
    | with_reducible refine keepsO_eq ?_ (by assumption)
    | with_reducible refine keepsP_mk ?_

theorem abortCmd_keeps {ps z} {s : Sys2Proof.Machine.State} {q : Nat} {c : Sys2Proof.Machine.Cmd} {status : Nat} (hp : [.regs, .arr, .vec, .queues, .seq, .cat, .nmu, .pair] ⊆ ps) (h0 : Keeps ps z s) :
    Keeps ps z (abortCmd s q c status) := by
  unfold abortCmd
  repeat' first
    | with_reducible assumption
    | with_reducible exact keepsP_fst (by assumption)
    | (extract_lets -useContext +onlyGivenNames x; refine (fun (hx : Keeps ps z x) => ?_) ?_; clear_value x; revert x; intro _ _; rotate_left; unfold x; clear x; rotate_left)
    | (extract_lets -useContext +onlyGivenNames x; revert x; intro _)
    | with_reducible refine updCmd_keeps (sub_of (by decide) hp) ?_
    | with_reducible refine freshPair_keeps (sub_of (by decide) hp) ?_
    | with_reducible refine abortEngines_keeps (sub_of (by decide) hp) ?_
    | split
    | (clear_value *; split)
    | with_reducible refine keeps_with_pair (mem_of (by decide) hp) ?_
    | with_reducible refine keeps_with_cat (mem_of (by decide) hp) ?_
    | with_reducible refine keepsP_eq ?_ (by assumption)
    | with_reducible refine keepsO_eq ?_ (by assumption)
    | with_reducible refine keepsP_mk ?_

theorem execCommandTimeout_keeps {ps z} {q : Sys2Proof.QueueId} {s : Sys2Proof.Machine.State} (hp : [.regs, .arr, .vec, .queues, .seq, .cat, .nmu, .pair] ⊆ ps) (h1 : Keeps ps z s) :
    KeepsR ps z (execCommandTimeout q s) := by
  unfold execCommandTimeout
  repeat' first
    | with_reducible assumption
    | with_reducible exact keepsP_fst (by assumption)
    | (extract_lets -useContext +onlyGivenNames x; refine (fun (hx : Keeps ps z x) => ?_) ?_; clear_value x; revert x; intro _ _; rotate_left; unfold x; clear x; rotate_left)
    | (extract_lets -useContext +onlyGivenNames x; revert x; intro _)
    | with_reducible refine keepsR_next ?_
    | with_reducible exact keepsR_fault
    | with_reducible refine State.setQState_keeps (sub_of (by decide) hp) ?_
    | with_reducible refine updCmd_keeps (sub_of (by decide) hp) ?_
    | with_reducible refine endCmd_keeps (sub_of (by decide) hp) ?_
    | with_reducible refine abortCmd_keeps (sub_of (by decide) hp) ?_
    | split
    | (clear_value *; split)
    | with_reducible refine keepsP_eq ?_ (by assumption)
    | with_reducible refine keepsO_eq ?_ (by assumption)
    | with_reducible refine keepsP_mk ?_

end Sys2Proof.Machine
end

