-- ==== Sys2Proof/Laws/FrameMemory.lean ====
section
/-!
SUPPORT. Frames: for each operation of Sys2Proof/Machine/Memory.lean, the parts of State it may change, and that it keeps the stores'
canonical form.
-/
namespace Sys2Proof.Machine

open Sys2Proof

theorem mcRead_keeps {ps z} {s : Sys2Proof.Machine.State} {owner : Nat} {pa : Nat} {len : Nat} (hp : [.regs, .mem, .outbox, .bridge] ⊆ ps) (h0 : Keeps ps z s) :
    Keeps ps z (mcRead s owner pa len) := by
  unfold mcRead
  repeat' first
    | with_reducible assumption
    | with_reducible exact keepsP_fst (by assumption)
    | (extract_lets -useContext +onlyGivenNames x; refine (fun (hx : Keeps ps z x) => ?_) ?_; clear_value x; revert x; intro _ _; rotate_left; unfold x; clear x; rotate_left)
    | (extract_lets -useContext +onlyGivenNames x; refine (fun (hx : KeepsP ps z x) => ?_) ?_; clear_value x; revert x; intro _ _; rotate_left; unfold x; clear x; rotate_left)
    | (extract_lets -useContext +onlyGivenNames x; revert x; intro _)
    | with_reducible refine devRead_keeps (sub_of (by decide) hp) ?_
    | with_reducible refine keepsP_fst (devRead_keeps (sub_of (by decide) hp) ?_)
    | with_reducible refine keepsP_eq (devRead_keeps (sub_of (by decide) hp) ?_) (by assumption)
    | split
    | (clear_value *; split)
    | with_reducible refine keeps_with_mem (mem_of (by decide) hp) (fun w => w.mem) ?_
    | with_reducible refine keepsP_eq ?_ (by assumption)
    | with_reducible refine keepsO_eq ?_ (by assumption)
    | with_reducible refine keepsP_mk ?_

theorem mcWrite_keeps {ps z} {s : Sys2Proof.Machine.State} {owner : Nat} {pa : Nat} {data : List Sys2Proof.Byte} (hp : [.regs, .mem, .outbox, .bridge] ⊆ ps) (h0 : Keeps ps z s) :
    Keeps ps z (mcWrite s owner pa data) := by
  unfold mcWrite
  repeat' first
    | with_reducible assumption
    | with_reducible exact keepsP_fst (by assumption)
    | (extract_lets -useContext +onlyGivenNames x; refine (fun (hx : Keeps ps z x) => ?_) ?_; clear_value x; revert x; intro _ _; rotate_left; unfold x; clear x; rotate_left)
    | (extract_lets -useContext +onlyGivenNames x; refine (fun (hx : KeepsP ps z x) => ?_) ?_; clear_value x; revert x; intro _ _; rotate_left; unfold x; clear x; rotate_left)
    | (extract_lets -useContext +onlyGivenNames x; revert x; intro _)
    | with_reducible refine devWrite_keeps (sub_of (by decide) hp) ?_
    | with_reducible refine keepsP_fst (devWrite_keeps (sub_of (by decide) hp) ?_)
    | with_reducible refine keepsP_eq (devWrite_keeps (sub_of (by decide) hp) ?_) (by assumption)
    | split
    | (clear_value *; split)
    | with_reducible refine keeps_with_mem (mem_of (by decide) hp) (fun w => w.mem) ?_
    | with_reducible refine keepsP_eq ?_ (by assumption)
    | with_reducible refine keepsO_eq ?_ (by assumption)
    | with_reducible refine keepsP_mk ?_

theorem execMcRead_keeps {ps z} {owner : Fin 65} {pa : Nat} {len : Nat} {s : Sys2Proof.Machine.State} (hp : [.regs, .mem, .outbox, .bridge] ⊆ ps) (h3 : Keeps ps z s) :
    KeepsR ps z (execMcRead owner pa len s) := by
  unfold execMcRead
  repeat' first
    | with_reducible assumption
    | with_reducible exact keepsP_fst (by assumption)
    | (extract_lets -useContext +onlyGivenNames x; refine (fun (hx : Keeps ps z x) => ?_) ?_; clear_value x; revert x; intro _ _; rotate_left; unfold x; clear x; rotate_left)
    | (extract_lets -useContext +onlyGivenNames x; revert x; intro _)
    | with_reducible refine keepsR_next ?_
    | with_reducible exact keepsR_fault
    | with_reducible refine mcRead_keeps (sub_of (by decide) hp) ?_
    | with_reducible refine memWaits_keeps (sub_of (by decide) hp) ?_
    | split
    | (clear_value *; split)
    | with_reducible refine keepsP_eq ?_ (by assumption)
    | with_reducible refine keepsO_eq ?_ (by assumption)
    | with_reducible refine keepsP_mk ?_

theorem execMcWrite_keeps {ps z} {owner : Fin 65} {pa : Nat} {data : List Sys2Proof.Byte} {s : Sys2Proof.Machine.State} (hp : [.regs, .mem, .outbox, .bridge] ⊆ ps) (h3 : Keeps ps z s) :
    KeepsR ps z (execMcWrite owner pa data s) := by
  unfold execMcWrite
  repeat' first
    | with_reducible assumption
    | with_reducible exact keepsP_fst (by assumption)
    | (extract_lets -useContext +onlyGivenNames x; refine (fun (hx : Keeps ps z x) => ?_) ?_; clear_value x; revert x; intro _ _; rotate_left; unfold x; clear x; rotate_left)
    | (extract_lets -useContext +onlyGivenNames x; revert x; intro _)
    | with_reducible refine keepsR_next ?_
    | with_reducible exact keepsR_fault
    | with_reducible refine mcWrite_keeps (sub_of (by decide) hp) ?_
    | with_reducible refine memWaits_keeps (sub_of (by decide) hp) ?_
    | split
    | (clear_value *; split)
    | with_reducible refine keepsP_eq ?_ (by assumption)
    | with_reducible refine keepsO_eq ?_ (by assumption)
    | with_reducible refine keepsP_mk ?_

theorem showSpare_keeps {ps z} {s : Sys2Proof.Machine.State} {st : Nat} (hp : [.regs] ⊆ ps) (h0 : Keeps ps z s) :
    Keeps ps z (showSpare s st) := by
  unfold showSpare
  repeat' first
    | with_reducible assumption
    | with_reducible exact keepsP_fst (by assumption)
    | (extract_lets -useContext +onlyGivenNames x; refine (fun (hx : Keeps ps z x) => ?_) ?_; clear_value x; revert x; intro _ _; rotate_left; unfold x; clear x; rotate_left)
    | (extract_lets -useContext +onlyGivenNames x; have _hx : ∀ a, x a = x a := fun _ => rfl; clear _hx; unfold x; clear x)
    | (extract_lets -useContext +onlyGivenNames x; revert x; intro _)
    | with_reducible refine State.setReg_keeps (sub_of (by decide) hp) ?_
    | with_reducible refine keeps_foldl (fun t a ht => ?_) ?_
    | with_reducible refine keepsP_foldl (fun t a ht => ?_) ?_
    | split
    | (clear_value *; split)
    | with_reducible refine keepsP_eq ?_ (by assumption)
    | with_reducible refine keepsO_eq ?_ (by assumption)
    | with_reducible refine keepsP_mk ?_

theorem retireRow_keeps {ps z} {s : Sys2Proof.Machine.State} {r : Sys2Proof.Machine.RowCopy} (hp : [.regs, .mem] ⊆ ps) (h0 : Keeps ps z s) :
    Keeps ps z (retireRow s r) := by
  unfold retireRow
  repeat' first
    | with_reducible assumption
    | with_reducible exact keepsP_fst (by assumption)
    | (extract_lets -useContext +onlyGivenNames x; refine (fun (hx : Keeps ps z x) => ?_) ?_; clear_value x; revert x; intro _ _; rotate_left; unfold x; clear x; rotate_left)
    | (extract_lets -useContext +onlyGivenNames x; revert x; intro _)
    | with_reducible refine showSpare_keeps (sub_of (by decide) hp) ?_
    | with_reducible refine State.bump_keeps (sub_of (by decide) hp) ?_
    | split
    | (clear_value *; split)
    | with_reducible refine keeps_with_mem (mem_of (by decide) hp) (fun w => w.mem) ?_
    | with_reducible refine keepsP_eq ?_ (by assumption)
    | with_reducible refine keepsO_eq ?_ (by assumption)
    | with_reducible refine keepsP_mk ?_

theorem mcRecord_keeps {ps z} {s : Sys2Proof.Machine.State} {st : Nat} {ch : Nat} {ev : Nat} {sev : Nat} {pa : Nat} (hp : [.regs, .mem, .outbox, .bridge] ⊆ ps) (h0 : Keeps ps z s) :
    Keeps ps z (mcRecord s st ch ev sev pa) := by
  unfold mcRecord
  repeat' first
    | with_reducible assumption
    | with_reducible exact keepsP_fst (by assumption)
    | (extract_lets -useContext +onlyGivenNames x; refine (fun (hx : Keeps ps z x) => ?_) ?_; clear_value x; revert x; intro _ _; rotate_left; unfold x; clear x; rotate_left)
    | (extract_lets -useContext +onlyGivenNames x; revert x; intro _)
    | with_reducible refine capture_keeps (sub_of (by decide) hp) ?_
    | split
    | (clear_value *; split)
    | with_reducible refine keepsP_eq ?_ (by assumption)
    | with_reducible refine keepsO_eq ?_ (by assumption)
    | with_reducible refine keepsP_mk ?_

theorem eccCorrected_keeps {ps z} {s : Sys2Proof.Machine.State} {pa : Nat} (hp : [.regs, .mem, .life] ⊆ ps) (h0 : Keeps ps z s) :
    Keeps ps z (eccCorrected s pa) := by
  unfold eccCorrected
  repeat' first
    | with_reducible assumption
    | with_reducible exact keepsP_fst (by assumption)
    | (extract_lets -useContext +onlyGivenNames x; refine (fun (hx : Keeps ps z x) => ?_) ?_; clear_value x; revert x; intro _ _; rotate_left; unfold x; clear x; rotate_left)
    | (extract_lets -useContext +onlyGivenNames x; revert x; intro _)
    | with_reducible refine retireRow_keeps (sub_of (by decide) hp) ?_
    | with_reducible refine State.bump_keeps (sub_of (by decide) hp) ?_
    | split
    | (clear_value *; split)
    | with_reducible refine keeps_with_mem_life (mem_of (by decide) hp) (mem_of (by decide) hp) (fun w => w.mem) ?_
    | with_reducible refine keepsP_eq ?_ (by assumption)
    | with_reducible refine keepsO_eq ?_ (by assumption)
    | with_reducible refine keepsP_mk ?_

theorem eccUncorrectable_keeps {ps z} {s : Sys2Proof.Machine.State} {pa : Nat} (hp : [.regs, .mem] ⊆ ps) (h0 : Keeps ps z s) :
    Keeps ps z (eccUncorrectable s pa) := by
  unfold eccUncorrectable
  repeat' first
    | with_reducible assumption
    | with_reducible exact keepsP_fst (by assumption)
    | (extract_lets -useContext +onlyGivenNames x; refine (fun (hx : Keeps ps z x) => ?_) ?_; clear_value x; revert x; intro _ _; rotate_left; unfold x; clear x; rotate_left)
    | (extract_lets -useContext +onlyGivenNames x; revert x; intro _)
    | with_reducible refine retireRow_keeps (sub_of (by decide) hp) ?_
    | with_reducible refine poisonUnits_keeps (sub_of (by decide) hp) ?_
    | with_reducible refine State.bump_keeps (sub_of (by decide) hp) ?_
    | split
    | (clear_value *; split)
    | with_reducible refine keepsP_eq ?_ (by assumption)
    | with_reducible refine keepsO_eq ?_ (by assumption)
    | with_reducible refine keepsP_mk ?_

theorem upsetUnit_keeps {ps z} {s : Sys2Proof.Machine.State} {pa : Nat} {e : Sys2Proof.UnitErr} (hp : [.mem, .draws] ⊆ ps) (h0 : Keeps ps z s) :
    Keeps ps z (upsetUnit s pa e) := by
  unfold upsetUnit
  repeat' first
    | with_reducible assumption
    | with_reducible exact keepsP_fst (by assumption)
    | (extract_lets -useContext +onlyGivenNames x; refine (fun (hx : Keeps ps z x) => ?_) ?_; clear_value x; revert x; intro _ _; rotate_left; unfold x; clear x; rotate_left)
    | (extract_lets -useContext +onlyGivenNames x; revert x; intro _)
    | with_reducible refine State.setBlk_keeps (sub_of (by decide) hp) ?_
    | split
    | (clear_value *; split)
    | with_reducible refine keeps_with_draws (mem_of (by decide) hp) ?_
    | with_reducible refine keepsP_eq ?_ (by assumption)
    | with_reducible refine keepsO_eq ?_ (by assumption)
    | with_reducible refine keepsP_mk ?_

theorem eccEffect_keeps {ps z} {s : Sys2Proof.Machine.State} {pa : Nat} {e : Sys2Proof.UnitErr} (hp : [.regs, .mem, .draws, .life] ⊆ ps) (h0 : Keeps ps z s) :
    KeepsP ps z (eccEffect s pa e) := by
  unfold eccEffect
  repeat' first
    | with_reducible assumption
    | with_reducible exact keepsP_fst (by assumption)
    | (extract_lets -useContext +onlyGivenNames x; refine (fun (hx : Keeps ps z x) => ?_) ?_; clear_value x; revert x; intro _ _; rotate_left; unfold x; clear x; rotate_left)
    | (extract_lets -useContext +onlyGivenNames x; revert x; intro _)
    | with_reducible refine eccCorrected_keeps (sub_of (by decide) hp) ?_
    | with_reducible refine eccUncorrectable_keeps (sub_of (by decide) hp) ?_
    | with_reducible refine upsetUnit_keeps (sub_of (by decide) hp) ?_
    | split
    | (clear_value *; split)
    | with_reducible refine keepsP_eq ?_ (by assumption)
    | with_reducible refine keepsO_eq ?_ (by assumption)
    | with_reducible refine keepsP_mk ?_

theorem execMcEccError_keeps {ps z} {pa : Nat} {err : Sys2Proof.UnitErr} {s : Sys2Proof.Machine.State} (hp : [.regs, .mem, .outbox, .draws, .life, .bridge] ⊆ ps) (h2 : Keeps ps z s) :
    KeepsR ps z (execMcEccError pa err s) := by
  unfold execMcEccError
  repeat' first
    | with_reducible assumption
    | with_reducible exact keepsP_fst (by assumption)
    | (extract_lets -useContext +onlyGivenNames x; refine (fun (hx : Keeps ps z x) => ?_) ?_; clear_value x; revert x; intro _ _; rotate_left; unfold x; clear x; rotate_left)
    | (extract_lets -useContext +onlyGivenNames x; refine (fun (hx : KeepsP ps z x) => ?_) ?_; clear_value x; revert x; intro _ _; rotate_left; unfold x; clear x; rotate_left)
    | (extract_lets -useContext +onlyGivenNames x; revert x; intro _)
    | with_reducible refine keepsR_next ?_
    | with_reducible exact keepsR_fault
    | with_reducible refine captureAll_keeps (sub_of (by decide) hp) ?_
    | with_reducible refine eccEffect_keeps (sub_of (by decide) hp) ?_
    | with_reducible refine keepsP_fst (eccEffect_keeps (sub_of (by decide) hp) ?_)
    | with_reducible refine keepsP_eq (eccEffect_keeps (sub_of (by decide) hp) ?_) (by assumption)
    | split
    | (clear_value *; split)
    | with_reducible refine keepsP_eq ?_ (by assumption)
    | with_reducible refine keepsO_eq ?_ (by assumption)
    | with_reducible refine keepsP_mk ?_

theorem execEccCorrectedWriteback_keeps {ps z} {pa : Nat} {s : Sys2Proof.Machine.State} (hp : [.mem] ⊆ ps) (h1 : Keeps ps z s) :
    KeepsR ps z (execEccCorrectedWriteback pa s) := by
  unfold execEccCorrectedWriteback
  repeat' first
    | with_reducible assumption
    | with_reducible exact keepsP_fst (by assumption)
    | (extract_lets -useContext +onlyGivenNames x; refine (fun (hx : Keeps ps z x) => ?_) ?_; clear_value x; revert x; intro _ _; rotate_left; unfold x; clear x; rotate_left)
    | (extract_lets -useContext +onlyGivenNames x; revert x; intro _)
    | with_reducible refine keepsR_next ?_
    | with_reducible exact keepsR_fault
    | split
    | (clear_value *; split)
    | with_reducible refine keeps_with_mem (mem_of (by decide) hp) (fun w => w.mem) ?_
    | with_reducible refine keepsP_eq ?_ (by assumption)
    | with_reducible refine keepsO_eq ?_ (by assumption)
    | with_reducible refine keepsP_mk ?_

theorem execMcPatrol_keeps {ps z} {st : Sys2Proof.StackId} {units : List Nat} {errs : List Sys2Proof.UnitErr} {s : State} (hp : [.regs, .mem, .outbox, .draws, .life, .bridge] ⊆ ps) (h3 : Keeps ps z s) :
    KeepsR ps z (execMcPatrol st units errs s) := by
  unfold execMcPatrol
  split
  · exact keepsR_next h3
  · extract_lets here
    generalize hr : List.foldl _ (s, []) _ = r
    have h : KeepsP ps z r := by
      rw [← hr]
      refine keepsP_foldl (fun t a ht => ?_) (keepsP_mk h3)
      have he := eccEffect_keeps (pa := a.1) (e := a.2) (sub_of (by decide) hp) ht
      generalize eccEffect t.1 a.1 a.2 = q at he ⊢
      exact he
    obtain ⟨t, es⟩ := r
    exact keepsR_next (keeps_with_mem (mem_of (by decide) hp) (fun w => w.mem) (captureAll_keeps (sub_of (by decide) hp) h))

theorem retireChannel_keeps {ps z} {s : Sys2Proof.Machine.State} {st : Nat} {ch : Nat} (hp : [.regs, .mem, .outbox, .life, .bridge] ⊆ ps) (h0 : Keeps ps z s) :
    Keeps ps z (retireChannel s st ch) := by
  unfold retireChannel
  repeat' first
    | with_reducible assumption
    | with_reducible exact keepsP_fst (by assumption)
    | (extract_lets -useContext +onlyGivenNames x; refine (fun (hx : Keeps ps z x) => ?_) ?_; clear_value x; revert x; intro _ _; rotate_left; unfold x; clear x; rotate_left)
    | (extract_lets -useContext +onlyGivenNames x; revert x; intro _)
    | with_reducible refine mcRecord_keeps (sub_of (by decide) hp) ?_
    | with_reducible refine State.setReg_keeps (sub_of (by decide) hp) ?_
    | split
    | (clear_value *; split)
    | with_reducible refine keeps_with_life (mem_of (by decide) hp) ?_
    | with_reducible refine keepsP_eq ?_ (by assumption)
    | with_reducible refine keepsO_eq ?_ (by assumption)
    | with_reducible refine keepsP_mk ?_

theorem execMcInterfaceError_keeps {ps z} {st : Sys2Proof.StackId} {ch : Fin 32} {first : Bool} {s : Sys2Proof.Machine.State} (hp : [.regs, .mem, .outbox, .life, .bridge] ⊆ ps) (h3 : Keeps ps z s) :
    KeepsR ps z (execMcInterfaceError st ch first s) := by
  unfold execMcInterfaceError
  repeat' first
    | with_reducible assumption
    | with_reducible exact keepsP_fst (by assumption)
    | (extract_lets -useContext +onlyGivenNames x; refine (fun (hx : Keeps ps z x) => ?_) ?_; clear_value x; revert x; intro _ _; rotate_left; unfold x; clear x; rotate_left)
    | (extract_lets -useContext +onlyGivenNames x; revert x; intro _)
    | with_reducible refine keepsR_next ?_
    | with_reducible exact keepsR_fault
    | with_reducible refine State.bump_keeps (sub_of (by decide) hp) ?_
    | with_reducible refine retireChannel_keeps (sub_of (by decide) hp) ?_
    | with_reducible refine mcRecord_keeps (sub_of (by decide) hp) ?_
    | split
    | (clear_value *; split)
    | with_reducible refine keeps_with_mem (mem_of (by decide) hp) (fun w => w.mem) ?_
    | with_reducible refine keepsP_eq ?_ (by assumption)
    | with_reducible refine keepsO_eq ?_ (by assumption)
    | with_reducible refine keepsP_mk ?_

theorem State.answerX_keeps {ps z} {s : Sys2Proof.Machine.State} {a : Sys2Proof.Machine.XAns} (hp : [.mmu] ⊆ ps) (h0 : Keeps ps z s) :
    Keeps ps z (State.answerX s a) := by
  unfold State.answerX
  repeat' first
    | with_reducible assumption
    | with_reducible exact keepsP_fst (by assumption)
    | (extract_lets -useContext +onlyGivenNames x; refine (fun (hx : Keeps ps z x) => ?_) ?_; clear_value x; revert x; intro _ _; rotate_left; unfold x; clear x; rotate_left)
    | (extract_lets -useContext +onlyGivenNames x; revert x; intro _)
    | split
    | (clear_value *; split)
    | with_reducible refine keeps_with_mmu (mem_of (by decide) hp) ?_
    | with_reducible refine keepsP_eq ?_ (by assumption)
    | with_reducible refine keepsO_eq ?_ (by assumption)
    | with_reducible refine keepsP_mk ?_

theorem execMmuTranslate_keeps {ps z} {die : Sys2Proof.DieId} {req : Fin 5} {c : Sys2Proof.CtxId} {va : Nat} {write : Bool} {s : Sys2Proof.Machine.State} (hp : [.regs, .mem, .mmu, .outbox, .bridge] ⊆ ps) (h5 : Keeps ps z s) :
    KeepsR ps z (execMmuTranslate die req c va write s) := by
  unfold execMmuTranslate
  repeat' first
    | with_reducible assumption
    | with_reducible exact keepsP_fst (by assumption)
    | (extract_lets -useContext +onlyGivenNames x; refine (fun (hx : Keeps ps z x) => ?_) ?_; clear_value x; revert x; intro _ _; rotate_left; unfold x; clear x; rotate_left)
    | (extract_lets -useContext +onlyGivenNames x; revert x; intro _)
    | with_reducible refine keepsR_next ?_
    | with_reducible exact keepsR_fault
    | with_reducible refine latchFault_keeps (sub_of (by decide) hp) ?_
    | with_reducible refine State.answerX_keeps (sub_of (by decide) hp) ?_
    | split
    | (clear_value *; split)
    | with_reducible refine keeps_with_mmu (mem_of (by decide) hp) ?_
    | with_reducible refine keepsP_eq ?_ (by assumption)
    | with_reducible refine keepsO_eq ?_ (by assumption)
    | with_reducible refine keepsP_mk ?_

theorem execPageWalkDone_keeps {ps z} {die : Sys2Proof.DieId} {req : Fin 5} {c : Sys2Proof.CtxId} {va : Nat} {write : Bool} {s : Sys2Proof.Machine.State} (hp : [.regs, .mem, .mmu, .outbox, .bridge] ⊆ ps) (h5 : Keeps ps z s) :
    KeepsR ps z (execPageWalkDone die req c va write s) := by
  unfold execPageWalkDone
  repeat' first
    | with_reducible assumption
    | with_reducible exact keepsP_fst (by assumption)
    | (extract_lets -useContext +onlyGivenNames x; refine (fun (hx : Keeps ps z x) => ?_) ?_; clear_value x; revert x; intro _ _; rotate_left; unfold x; clear x; rotate_left)
    | (extract_lets -useContext +onlyGivenNames x; refine (fun (hx : KeepsP ps z x) => ?_) ?_; clear_value x; revert x; intro _ _; rotate_left; unfold x; clear x; rotate_left)
    | (extract_lets -useContext +onlyGivenNames x; revert x; intro _)
    | with_reducible refine keepsR_next ?_
    | with_reducible exact keepsR_fault
    | with_reducible refine State.answerX_keeps (sub_of (by decide) hp) ?_
    | with_reducible refine translate_keeps (sub_of (by decide) hp) ?_
    | with_reducible refine keepsP_fst (translate_keeps (sub_of (by decide) hp) ?_)
    | with_reducible refine keepsP_eq (translate_keeps (sub_of (by decide) hp) ?_) (by assumption)
    | split
    | (clear_value *; split)
    | with_reducible refine keeps_with_mmu (mem_of (by decide) hp) ?_
    | with_reducible refine keepsP_eq ?_ (by assumption)
    | with_reducible refine keepsO_eq ?_ (by assumption)
    | with_reducible refine keepsP_mk ?_

theorem startInval_keeps {ps z} {s : Sys2Proof.Machine.State} {v : Sys2Proof.Machine.Inval} (hp : [.mmu] ⊆ ps) (h0 : Keeps ps z s) :
    Keeps ps z (startInval s v) := by
  unfold startInval
  repeat' first
    | with_reducible assumption
    | with_reducible exact keepsP_fst (by assumption)
    | (extract_lets -useContext +onlyGivenNames x; refine (fun (hx : Keeps ps z x) => ?_) ?_; clear_value x; revert x; intro _ _; rotate_left; unfold x; clear x; rotate_left)
    | (extract_lets -useContext +onlyGivenNames x; revert x; intro _)
    | split
    | (clear_value *; split)
    | with_reducible refine keeps_with_mmu (mem_of (by decide) hp) ?_
    | with_reducible refine keepsP_eq ?_ (by assumption)
    | with_reducible refine keepsO_eq ?_ (by assumption)
    | with_reducible refine keepsP_mk ?_

theorem writeInval_keeps {ps z} {s : Sys2Proof.Machine.State} {v : Nat} (hp : [.regs, .mmu] ⊆ ps) (h0 : Keeps ps z s) :
    KeepsO ps z (writeInval s v) := by
  unfold writeInval
  repeat' first
    | with_reducible assumption
    | with_reducible exact keepsP_fst (by assumption)
    | (extract_lets -useContext +onlyGivenNames x; refine (fun (hx : Keeps ps z x) => ?_) ?_; clear_value x; revert x; intro _ _; rotate_left; unfold x; clear x; rotate_left)
    | (extract_lets -useContext +onlyGivenNames x; refine (fun (hx : KeepsO ps z x) => ?_) ?_; clear_value x; revert x; intro _ _; rotate_left; unfold x; clear x; rotate_left)
    | with_reducible exact keepsO_get (by assumption)
    | (extract_lets -useContext +onlyGivenNames x; revert x; intro _)
    | exact keepsO_none
    | with_reducible refine keepsO_some ?_
    | with_reducible refine startInval_keeps (sub_of (by decide) hp) ?_
    | with_reducible refine State.setReg_keeps (sub_of (by decide) hp) ?_
    | split
    | (clear_value *; split)
    | with_reducible refine keepsP_eq ?_ (by assumption)
    | with_reducible refine keepsO_eq ?_ (by assumption)
    | with_reducible refine keepsP_mk ?_

theorem writeMap_keeps {ps z} {s : State} {v : Nat} (hp : [.regs, .mem] ⊆ ps) (h0 : Keeps ps z s) : KeepsO ps z (writeMap s v) := by
  unfold writeMap
  extract_lets k
  split
  · exact keepsO_none
  · split
    · exact keepsO_some h0
    · have h1 : Keeps ps z (s.setReg .mmu 0 0x100 k) := State.setReg_keeps (sub_of (b := [.regs, .mem]) (by decide) hp) h0
      exact keepsO_some (keeps_with_mem (mem_of (b := [.regs, .mem]) (by decide) hp) (fun w => w.mem) h1)

end Sys2Proof.Machine
end

