-- ==== Sys2Proof/Laws/FrameNmu.lean ====
section
/-!
SUPPORT. Frames: for each operation of Sys2Proof/Machine/Nmu.lean, the parts of State it may change, and that it keeps the stores'
canonical form.
-/
namespace Sys2Proof.Machine

open Sys2Proof

theorem State.setNmu_keeps {ps z} {s : Sys2Proof.Machine.State} {u : Nat} {v : Sys2Proof.Machine.Nmu} (hp : [.nmu] ⊆ ps) (h0 : Keeps ps z s) :
    Keeps ps z (State.setNmu s u v) := by
  unfold State.setNmu
  repeat' first
    | with_reducible assumption
    | with_reducible exact keepsP_fst (by assumption)
    | (extract_lets -useContext +onlyGivenNames x; refine (fun (hx : Keeps ps z x) => ?_) ?_; clear_value x; revert x; intro _ _; rotate_left; unfold x; clear x; rotate_left)
    | (extract_lets -useContext +onlyGivenNames x; revert x; intro _)
    | split
    | (clear_value *; split)
    | with_reducible refine keeps_with_nmu (mem_of (by decide) hp) ?_
    | with_reducible refine keepsP_eq ?_ (by assumption)
    | with_reducible refine keepsO_eq ?_ (by assumption)
    | with_reducible refine keepsP_mk ?_

theorem nmuRead_keeps {ps z} {s : Sys2Proof.Machine.State} {u : Nat} {c : Nat} {shift : Nat} {a4_ : List (Nat × Nat)} (hp : [.regs, .mem, .mmu, .outbox, .bxl, .bridge] ⊆ ps) (h0 : Keeps ps z s) :
    KeepsP ps z (nmuRead s u c shift a4_) := by
  induction a4_ generalizing s u c shift with
  | nil =>
    unfold nmuRead
    repeat' first
      | with_reducible assumption
      | with_reducible exact keepsP_fst (by assumption)
      | (extract_lets -useContext +onlyGivenNames x; refine (fun (hx : Keeps ps z x) => ?_) ?_; clear_value x; revert x; intro _ _; rotate_left; unfold x; clear x; rotate_left)
      | (extract_lets -useContext +onlyGivenNames x; refine (fun (hx : KeepsP ps z x) => ?_) ?_; clear_value x; revert x; intro _ _; rotate_left; unfold x; clear x; rotate_left)
      | (extract_lets -useContext +onlyGivenNames x; revert x; intro _)
      | with_reducible refine memRead_keeps (sub_of (by decide) hp) ?_
      | with_reducible refine keepsP_fst (memRead_keeps (sub_of (by decide) hp) ?_)
      | with_reducible refine keepsP_eq (memRead_keeps (sub_of (by decide) hp) ?_) (by assumption)
      | split
      | (clear_value *; split)
      | with_reducible refine keepsP_eq ?_ (by assumption)
      | with_reducible refine keepsO_eq ?_ (by assumption)
      | with_reducible refine keepsP_mk ?_
  | cons hd tl ih =>
    unfold nmuRead
    repeat' first
      | with_reducible assumption
      | with_reducible exact keepsP_fst (by assumption)
      | (extract_lets -useContext +onlyGivenNames x; refine (fun (hx : Keeps ps z x) => ?_) ?_; clear_value x; revert x; intro _ _; rotate_left; unfold x; clear x; rotate_left)
      | (extract_lets -useContext +onlyGivenNames x; refine (fun (hx : KeepsP ps z x) => ?_) ?_; clear_value x; revert x; intro _ _; rotate_left; unfold x; clear x; rotate_left)
      | with_reducible refine ih ?_
      | with_reducible refine keepsP_fst (ih ?_)
      | with_reducible refine keepsP_eq (ih ?_) (by assumption)
      | (extract_lets -useContext +onlyGivenNames x; revert x; intro _)
      | with_reducible refine memRead_keeps (sub_of (by decide) hp) ?_
      | with_reducible refine keepsP_fst (memRead_keeps (sub_of (by decide) hp) ?_)
      | with_reducible refine keepsP_eq (memRead_keeps (sub_of (by decide) hp) ?_) (by assumption)
      | split
      | (clear_value *; split)
      | with_reducible refine keepsP_eq ?_ (by assumption)
      | with_reducible refine keepsO_eq ?_ (by assumption)
      | with_reducible refine keepsP_mk ?_

theorem nmuWrite_keeps {ps z} {s : Sys2Proof.Machine.State} {u : Nat} {c : Nat} {shift : Nat} {data : List Sys2Proof.Byte} {a5_ : List (Nat × Nat)} (hp : [.regs, .mem, .mmu, .outbox, .bxl, .bridge] ⊆ ps) (h0 : Keeps ps z s) :
    KeepsP ps z (nmuWrite s u c shift data a5_) := by
  induction a5_ generalizing s u c shift data with
  | nil =>
    unfold nmuWrite
    repeat' first
      | with_reducible assumption
      | with_reducible exact keepsP_fst (by assumption)
      | (extract_lets -useContext +onlyGivenNames x; refine (fun (hx : Keeps ps z x) => ?_) ?_; clear_value x; revert x; intro _ _; rotate_left; unfold x; clear x; rotate_left)
      | (extract_lets -useContext +onlyGivenNames x; refine (fun (hx : KeepsP ps z x) => ?_) ?_; clear_value x; revert x; intro _ _; rotate_left; unfold x; clear x; rotate_left)
      | (extract_lets -useContext +onlyGivenNames x; revert x; intro _)
      | with_reducible refine memWrite_keeps (sub_of (by decide) hp) ?_
      | with_reducible refine keepsP_fst (memWrite_keeps (sub_of (by decide) hp) ?_)
      | with_reducible refine keepsP_eq (memWrite_keeps (sub_of (by decide) hp) ?_) (by assumption)
      | split
      | (clear_value *; split)
      | with_reducible refine keepsP_eq ?_ (by assumption)
      | with_reducible refine keepsO_eq ?_ (by assumption)
      | with_reducible refine keepsP_mk ?_
  | cons hd tl ih =>
    unfold nmuWrite
    repeat' first
      | with_reducible assumption
      | with_reducible exact keepsP_fst (by assumption)
      | (extract_lets -useContext +onlyGivenNames x; refine (fun (hx : Keeps ps z x) => ?_) ?_; clear_value x; revert x; intro _ _; rotate_left; unfold x; clear x; rotate_left)
      | (extract_lets -useContext +onlyGivenNames x; refine (fun (hx : KeepsP ps z x) => ?_) ?_; clear_value x; revert x; intro _ _; rotate_left; unfold x; clear x; rotate_left)
      | with_reducible refine ih ?_
      | with_reducible refine keepsP_fst (ih ?_)
      | with_reducible refine keepsP_eq (ih ?_) (by assumption)
      | (extract_lets -useContext +onlyGivenNames x; revert x; intro _)
      | with_reducible refine memWrite_keeps (sub_of (by decide) hp) ?_
      | with_reducible refine keepsP_fst (memWrite_keeps (sub_of (by decide) hp) ?_)
      | with_reducible refine keepsP_eq (memWrite_keeps (sub_of (by decide) hp) ?_) (by assumption)
      | split
      | (clear_value *; split)
      | with_reducible refine keepsP_eq ?_ (by assumption)
      | with_reducible refine keepsO_eq ?_ (by assumption)
      | with_reducible refine keepsP_mk ?_

theorem nmuWrites_keeps {ps z} {s : Sys2Proof.Machine.State} {u : Nat} {c : Nat} {shift : Nat} {a4_ : List (List Sys2Proof.Byte × List (Nat × Nat))} (hp : [.regs, .mem, .mmu, .outbox, .bxl, .bridge] ⊆ ps) (h0 : Keeps ps z s) :
    KeepsP ps z (nmuWrites s u c shift a4_) := by
  induction a4_ generalizing s u c shift with
  | nil =>
    unfold nmuWrites
    repeat' first
      | with_reducible assumption
      | with_reducible exact keepsP_fst (by assumption)
      | (extract_lets -useContext +onlyGivenNames x; refine (fun (hx : Keeps ps z x) => ?_) ?_; clear_value x; revert x; intro _ _; rotate_left; unfold x; clear x; rotate_left)
      | (extract_lets -useContext +onlyGivenNames x; refine (fun (hx : KeepsP ps z x) => ?_) ?_; clear_value x; revert x; intro _ _; rotate_left; unfold x; clear x; rotate_left)
      | (extract_lets -useContext +onlyGivenNames x; revert x; intro _)
      | with_reducible refine nmuWrite_keeps (sub_of (by decide) hp) ?_
      | with_reducible refine keepsP_fst (nmuWrite_keeps (sub_of (by decide) hp) ?_)
      | with_reducible refine keepsP_eq (nmuWrite_keeps (sub_of (by decide) hp) ?_) (by assumption)
      | split
      | (clear_value *; split)
      | with_reducible refine keepsP_eq ?_ (by assumption)
      | with_reducible refine keepsO_eq ?_ (by assumption)
      | with_reducible refine keepsP_mk ?_
  | cons hd tl ih =>
    unfold nmuWrites
    repeat' first
      | with_reducible assumption
      | with_reducible exact keepsP_fst (by assumption)
      | (extract_lets -useContext +onlyGivenNames x; refine (fun (hx : Keeps ps z x) => ?_) ?_; clear_value x; revert x; intro _ _; rotate_left; unfold x; clear x; rotate_left)
      | (extract_lets -useContext +onlyGivenNames x; refine (fun (hx : KeepsP ps z x) => ?_) ?_; clear_value x; revert x; intro _ _; rotate_left; unfold x; clear x; rotate_left)
      | with_reducible refine ih ?_
      | with_reducible refine keepsP_fst (ih ?_)
      | with_reducible refine keepsP_eq (ih ?_) (by assumption)
      | (extract_lets -useContext +onlyGivenNames x; revert x; intro _)
      | with_reducible refine nmuWrite_keeps (sub_of (by decide) hp) ?_
      | with_reducible refine keepsP_fst (nmuWrite_keeps (sub_of (by decide) hp) ?_)
      | with_reducible refine keepsP_eq (nmuWrite_keeps (sub_of (by decide) hp) ?_) (by assumption)
      | split
      | (clear_value *; split)
      | with_reducible refine keepsP_eq ?_ (by assumption)
      | with_reducible refine keepsO_eq ?_ (by assumption)
      | with_reducible refine keepsP_mk ?_

theorem uTranslate_keeps {ps z} {s : Sys2Proof.Machine.State} {u : Nat} {c : Nat} {a3_ : List (Nat × Bool)} (hp : [.regs, .mem, .mmu, .outbox, .bridge] ⊆ ps) (h0 : Keeps ps z s) :
    KeepsP ps z (uTranslate s u c a3_) := by
  induction a3_ generalizing s u c with
  | nil =>
    unfold uTranslate
    repeat' first
      | with_reducible assumption
      | with_reducible exact keepsP_fst (by assumption)
      | (extract_lets -useContext +onlyGivenNames x; refine (fun (hx : Keeps ps z x) => ?_) ?_; clear_value x; revert x; intro _ _; rotate_left; unfold x; clear x; rotate_left)
      | (extract_lets -useContext +onlyGivenNames x; refine (fun (hx : KeepsP ps z x) => ?_) ?_; clear_value x; revert x; intro _ _; rotate_left; unfold x; clear x; rotate_left)
      | (extract_lets -useContext +onlyGivenNames x; revert x; intro _)
      | with_reducible refine translate_keeps (sub_of (by decide) hp) ?_
      | with_reducible refine keepsP_fst (translate_keeps (sub_of (by decide) hp) ?_)
      | with_reducible refine keepsP_eq (translate_keeps (sub_of (by decide) hp) ?_) (by assumption)
      | split
      | (clear_value *; split)
      | with_reducible refine keepsP_eq ?_ (by assumption)
      | with_reducible refine keepsO_eq ?_ (by assumption)
      | with_reducible refine keepsP_mk ?_
  | cons hd tl ih =>
    unfold uTranslate
    repeat' first
      | with_reducible assumption
      | with_reducible exact keepsP_fst (by assumption)
      | (extract_lets -useContext +onlyGivenNames x; refine (fun (hx : Keeps ps z x) => ?_) ?_; clear_value x; revert x; intro _ _; rotate_left; unfold x; clear x; rotate_left)
      | (extract_lets -useContext +onlyGivenNames x; refine (fun (hx : KeepsP ps z x) => ?_) ?_; clear_value x; revert x; intro _ _; rotate_left; unfold x; clear x; rotate_left)
      | with_reducible refine ih ?_
      | with_reducible refine keepsP_fst (ih ?_)
      | with_reducible refine keepsP_eq (ih ?_) (by assumption)
      | (extract_lets -useContext +onlyGivenNames x; revert x; intro _)
      | with_reducible refine translate_keeps (sub_of (by decide) hp) ?_
      | with_reducible refine keepsP_fst (translate_keeps (sub_of (by decide) hp) ?_)
      | with_reducible refine keepsP_eq (translate_keeps (sub_of (by decide) hp) ?_) (by assumption)
      | split
      | (clear_value *; split)
      | with_reducible refine keepsP_eq ?_ (by assumption)
      | with_reducible refine keepsO_eq ?_ (by assumption)
      | with_reducible refine keepsP_mk ?_

theorem mergeNmu_keeps {ps z} {s : Sys2Proof.Machine.State} {c : Nat} (hp : [.ctx, .nmu] ⊆ ps) (h0 : Keeps ps z s) :
    Keeps ps z (mergeNmu s c) := by
  unfold mergeNmu
  repeat' first
    | with_reducible assumption
    | with_reducible exact keepsP_fst (by assumption)
    | (extract_lets -useContext +onlyGivenNames x; refine (fun (hx : Keeps ps z x) => ?_) ?_; clear_value x; revert x; intro _ _; rotate_left; unfold x; clear x; rotate_left)
    | (extract_lets -useContext +onlyGivenNames x; revert x; intro _)
    | with_reducible refine State.setNmu_keeps (sub_of (by decide) hp) ?_
    | with_reducible refine mergeFlags_keeps (sub_of (by decide) hp) ?_
    | with_reducible refine keeps_foldl (fun t a ht => ?_) ?_
    | with_reducible refine keepsP_foldl (fun t a ht => ?_) ?_
    | split
    | (clear_value *; split)
    | with_reducible refine keepsP_eq ?_ (by assumption)
    | with_reducible refine keepsO_eq ?_ (by assumption)
    | with_reducible refine keepsP_mk ?_

theorem nmuLeave_keeps {ps z} {s : Sys2Proof.Machine.State} {u : Nat} {close : Sys2Proof.Machine.State → Nat → Sys2Proof.Machine.State × Bool} (hp : [.isl, .ctx, .queues, .pwr, .nmu, .bridge] ⊆ ps) (h0 : Keeps ps z s) (h2 : ∀ x0 x1, Keeps ps z x0 → KeepsP ps z (close x0 x1)) :
    Keeps ps z (nmuLeave s u close) := by
  unfold nmuLeave
  repeat' first
    | with_reducible assumption
    | with_reducible exact keepsP_fst (by assumption)
    | (extract_lets -useContext +onlyGivenNames x; refine (fun (hx : Keeps ps z x) => ?_) ?_; clear_value x; revert x; intro _ _; rotate_left; unfold x; clear x; rotate_left)
    | (extract_lets -useContext +onlyGivenNames x; refine (fun (hx : KeepsP ps z x) => ?_) ?_; clear_value x; revert x; intro _ _; rotate_left; unfold x; clear x; rotate_left)
    | with_reducible refine h2 _ _ ?_
    | with_reducible refine keepsP_fst (h2 _ _ ?_)
    | with_reducible refine keepsP_eq (h2 _ _ ?_) (by assumption)
    | (extract_lets -useContext +onlyGivenNames x; revert x; intro _)
    | with_reducible refine updCmd_keeps (sub_of (by decide) hp) ?_
    | with_reducible refine mergeNmu_keeps (sub_of (by decide) hp) ?_
    | with_reducible refine reportEngine_keeps (sub_of (by decide) hp) ?_
    | with_reducible refine State.setNmu_keeps (sub_of (by decide) hp) ?_
    | with_reducible refine unitEnd_keeps (sub_of (by decide) hp) ?_
    | split
    | (clear_value *; split)
    | with_reducible refine keepsP_eq ?_ (by assumption)
    | with_reducible refine keepsO_eq ?_ (by assumption)
    | with_reducible refine keepsP_mk ?_

theorem nmuFaultAt_keeps {ps z} {s : Sys2Proof.Machine.State} {u : Nat} {code : Nat} {close : Sys2Proof.Machine.State → Nat → Sys2Proof.Machine.State × Bool} (hp : [.regs, .isl, .ctx, .queues, .bxl, .pwr, .nmu, .bridge] ⊆ ps) (h0 : Keeps ps z s) (h3 : ∀ x0 x1, Keeps ps z x0 → KeepsP ps z (close x0 x1)) :
    Keeps ps z (nmuFaultAt s u code close) := by
  unfold nmuFaultAt
  repeat' first
    | with_reducible assumption
    | with_reducible exact keepsP_fst (by assumption)
    | (extract_lets -useContext +onlyGivenNames x; refine (fun (hx : Keeps ps z x) => ?_) ?_; clear_value x; revert x; intro _ _; rotate_left; unfold x; clear x; rotate_left)
    | (extract_lets -useContext +onlyGivenNames x; refine (fun (hx : KeepsP ps z x) => ?_) ?_; clear_value x; revert x; intro _ _; rotate_left; unfold x; clear x; rotate_left)
    | with_reducible refine h3 _ _ ?_
    | with_reducible refine keepsP_fst (h3 _ _ ?_)
    | with_reducible refine keepsP_eq (h3 _ _ ?_) (by assumption)
    | (extract_lets -useContext +onlyGivenNames x; revert x; intro _)
    | with_reducible refine State.setNmu_keeps (sub_of (by decide) hp) ?_
    | with_reducible refine takeAnswers_keeps (sub_of (by decide) hp) ?_
    | with_reducible refine nmuLeave_keeps (sub_of (by decide) hp) ?_ (fun x0 x1 hx0 => ?_)
    | with_reducible refine State.setReg_keeps (sub_of (by decide) hp) ?_
    | split
    | (clear_value *; split)
    | with_reducible refine keepsP_eq ?_ (by assumption)
    | with_reducible refine keepsO_eq ?_ (by assumption)
    | with_reducible refine keepsP_mk ?_

theorem nmuNext_keeps {ps z} {s : Sys2Proof.Machine.State} {u : Nat} {close : Sys2Proof.Machine.State → Nat → Sys2Proof.Machine.State × Bool} (hp : [.isl, .ctx, .queues, .bxl, .pwr, .nmu, .bridge] ⊆ ps) (h0 : Keeps ps z s) (h2 : ∀ x0 x1, Keeps ps z x0 → KeepsP ps z (close x0 x1)) :
    Keeps ps z (nmuNext s u close) := by
  unfold nmuNext
  repeat' first
    | with_reducible assumption
    | with_reducible exact keepsP_fst (by assumption)
    | (extract_lets -useContext +onlyGivenNames x; refine (fun (hx : Keeps ps z x) => ?_) ?_; clear_value x; revert x; intro _ _; rotate_left; unfold x; clear x; rotate_left)
    | (extract_lets -useContext +onlyGivenNames x; refine (fun (hx : KeepsP ps z x) => ?_) ?_; clear_value x; revert x; intro _ _; rotate_left; unfold x; clear x; rotate_left)
    | with_reducible refine h2 _ _ ?_
    | with_reducible refine keepsP_fst (h2 _ _ ?_)
    | with_reducible refine keepsP_eq (h2 _ _ ?_) (by assumption)
    | (extract_lets -useContext +onlyGivenNames x; revert x; intro _)
    | with_reducible refine nmuLeave_keeps (sub_of (by decide) hp) ?_ (fun x0 x1 hx0 => ?_)
    | with_reducible refine State.setNmu_keeps (sub_of (by decide) hp) ?_
    | with_reducible refine unitEnd_keeps (sub_of (by decide) hp) ?_
    | with_reducible refine takeAnswers_keeps (sub_of (by decide) hp) ?_
    | split
    | (clear_value *; split)
    | with_reducible refine keepsP_eq ?_ (by assumption)
    | with_reducible refine keepsO_eq ?_ (by assumption)
    | with_reducible refine keepsP_mk ?_

theorem nmuFetch_keeps {ps z} {s : Sys2Proof.Machine.State} {u : Nat} {close : Sys2Proof.Machine.State → Nat → Sys2Proof.Machine.State × Bool} (hp : [.regs, .isl, .mem, .mmu, .ctx, .queues, .outbox, .bxl, .pwr, .nmu, .bridge] ⊆ ps) (h0 : Keeps ps z s) (h2 : ∀ x0 x1, Keeps ps z x0 → KeepsP ps z (close x0 x1)) :
    KeepsR ps z (nmuFetch s u close) := by
  unfold nmuFetch
  repeat' first
    | with_reducible assumption
    | with_reducible exact keepsP_fst (by assumption)
    | (extract_lets -useContext +onlyGivenNames x; refine (fun (hx : Keeps ps z x) => ?_) ?_; clear_value x; revert x; intro _ _; rotate_left; unfold x; clear x; rotate_left)
    | (extract_lets -useContext +onlyGivenNames x; refine (fun (hx : KeepsP ps z x) => ?_) ?_; clear_value x; revert x; intro _ _; rotate_left; unfold x; clear x; rotate_left)
    | with_reducible refine h2 _ _ ?_
    | with_reducible refine keepsP_fst (h2 _ _ ?_)
    | with_reducible refine keepsP_eq (h2 _ _ ?_) (by assumption)
    | (extract_lets -useContext +onlyGivenNames x; revert x; intro _)
    | with_reducible refine keepsR_next ?_
    | with_reducible exact keepsR_fault
    | with_reducible refine uTranslate_keeps (sub_of (by decide) hp) ?_
    | with_reducible refine keepsP_fst (uTranslate_keeps (sub_of (by decide) hp) ?_)
    | with_reducible refine keepsP_eq (uTranslate_keeps (sub_of (by decide) hp) ?_) (by assumption)
    | with_reducible refine State.setNmu_keeps (sub_of (by decide) hp) ?_
    | with_reducible refine unitBegin_keeps (sub_of (by decide) hp) ?_
    | with_reducible refine takeAnswers_keeps (sub_of (by decide) hp) ?_
    | with_reducible refine keepRequests_keeps (sub_of (by decide) hp) ?_ ?_
    | with_reducible refine memRead_keeps (sub_of (by decide) hp) ?_
    | with_reducible refine keepsP_fst (memRead_keeps (sub_of (by decide) hp) ?_)
    | with_reducible refine keepsP_eq (memRead_keeps (sub_of (by decide) hp) ?_) (by assumption)
    | with_reducible refine nmuFaultAt_keeps (sub_of (by decide) hp) ?_ (fun x0 x1 hx0 => ?_)
    | split
    | (clear_value *; split)
    | with_reducible refine keepsP_eq ?_ (by assumption)
    | with_reducible refine keepsO_eq ?_ (by assumption)
    | with_reducible refine keepsP_mk ?_

theorem nmuReads_keeps {ps z} {s : Sys2Proof.Machine.State} {u : Nat} {c : Nat} {shift : Nat} {a4_ : List (List (Nat × Nat))} (hp : [.regs, .mem, .mmu, .outbox, .bxl, .bridge] ⊆ ps) (h0 : Keeps ps z s) :
    KeepsP ps z (nmuReads s u c shift a4_) := by
  induction a4_ generalizing s u c shift with
  | nil =>
    unfold nmuReads
    repeat' first
      | with_reducible assumption
      | with_reducible exact keepsP_fst (by assumption)
      | (extract_lets -useContext +onlyGivenNames x; refine (fun (hx : Keeps ps z x) => ?_) ?_; clear_value x; revert x; intro _ _; rotate_left; unfold x; clear x; rotate_left)
      | (extract_lets -useContext +onlyGivenNames x; refine (fun (hx : KeepsP ps z x) => ?_) ?_; clear_value x; revert x; intro _ _; rotate_left; unfold x; clear x; rotate_left)
      | (extract_lets -useContext +onlyGivenNames x; revert x; intro _)
      | with_reducible refine nmuRead_keeps (sub_of (by decide) hp) ?_
      | with_reducible refine keepsP_fst (nmuRead_keeps (sub_of (by decide) hp) ?_)
      | with_reducible refine keepsP_eq (nmuRead_keeps (sub_of (by decide) hp) ?_) (by assumption)
      | split
      | (clear_value *; split)
      | with_reducible refine keepsP_eq ?_ (by assumption)
      | with_reducible refine keepsO_eq ?_ (by assumption)
      | with_reducible refine keepsP_mk ?_
  | cons hd tl ih =>
    unfold nmuReads
    repeat' first
      | with_reducible assumption
      | with_reducible exact keepsP_fst (by assumption)
      | (extract_lets -useContext +onlyGivenNames x; refine (fun (hx : Keeps ps z x) => ?_) ?_; clear_value x; revert x; intro _ _; rotate_left; unfold x; clear x; rotate_left)
      | (extract_lets -useContext +onlyGivenNames x; refine (fun (hx : KeepsP ps z x) => ?_) ?_; clear_value x; revert x; intro _ _; rotate_left; unfold x; clear x; rotate_left)
      | with_reducible refine ih ?_
      | with_reducible refine keepsP_fst (ih ?_)
      | with_reducible refine keepsP_eq (ih ?_) (by assumption)
      | (extract_lets -useContext +onlyGivenNames x; revert x; intro _)
      | with_reducible refine nmuRead_keeps (sub_of (by decide) hp) ?_
      | with_reducible refine keepsP_fst (nmuRead_keeps (sub_of (by decide) hp) ?_)
      | with_reducible refine keepsP_eq (nmuRead_keeps (sub_of (by decide) hp) ?_) (by assumption)
      | split
      | (clear_value *; split)
      | with_reducible refine keepsP_eq ?_ (by assumption)
      | with_reducible refine keepsO_eq ?_ (by assumption)
      | with_reducible refine keepsP_mk ?_

theorem nmuSkip_keeps {ps z} {s : Sys2Proof.Machine.State} {u : Nat} {close : Sys2Proof.Machine.State → Nat → Sys2Proof.Machine.State × Bool} (hp : [.regs, .isl, .ctx, .queues, .bxl, .pwr, .nmu, .bridge] ⊆ ps) (h0 : Keeps ps z s) (h2 : ∀ x0 x1, Keeps ps z x0 → KeepsP ps z (close x0 x1)) :
    Keeps ps z (nmuSkip s u close) := by
  unfold nmuSkip
  repeat' first
    | with_reducible assumption
    | with_reducible exact keepsP_fst (by assumption)
    | (extract_lets -useContext +onlyGivenNames x; refine (fun (hx : Keeps ps z x) => ?_) ?_; clear_value x; revert x; intro _ _; rotate_left; unfold x; clear x; rotate_left)
    | (extract_lets -useContext +onlyGivenNames x; refine (fun (hx : KeepsP ps z x) => ?_) ?_; clear_value x; revert x; intro _ _; rotate_left; unfold x; clear x; rotate_left)
    | with_reducible refine h2 _ _ ?_
    | with_reducible refine keepsP_fst (h2 _ _ ?_)
    | with_reducible refine keepsP_eq (h2 _ _ ?_) (by assumption)
    | (extract_lets -useContext +onlyGivenNames x; revert x; intro _)
    | with_reducible refine State.bump_keeps (sub_of (by decide) hp) ?_
    | with_reducible refine State.setNmu_keeps (sub_of (by decide) hp) ?_
    | with_reducible refine nmuNext_keeps (sub_of (by decide) hp) ?_ (fun x0 x1 hx0 => ?_)
    | split
    | (clear_value *; split)
    | with_reducible refine keepsP_eq ?_ (by assumption)
    | with_reducible refine keepsO_eq ?_ (by assumption)
    | with_reducible refine keepsP_mk ?_

theorem nmuUpdateBlock_keeps {ps z} {s : Sys2Proof.Machine.State} {u : Nat} {d : Nat} {close : Sys2Proof.Machine.State → Nat → Sys2Proof.Machine.State × Bool} {after : Sys2Proof.Machine.State → Sys2Proof.Machine.State × Bool} (hp : [.regs, .isl, .mem, .mmu, .ctx, .queues, .outbox, .bxl, .pwr, .nmu, .bridge] ⊆ ps) (h0 : Keeps ps z s) (h3 : ∀ x0 x1, Keeps ps z x0 → KeepsP ps z (close x0 x1)) (h4 : ∀ x0, Keeps ps z x0 → KeepsP ps z (after x0)) :
    KeepsR ps z (nmuUpdateBlock s u d close after) := by
  unfold nmuUpdateBlock
  repeat' first
    | with_reducible assumption
    | with_reducible exact keepsP_fst (by assumption)
    | (extract_lets -useContext +onlyGivenNames x; refine (fun (hx : Keeps ps z x) => ?_) ?_; clear_value x; revert x; intro _ _; rotate_left; unfold x; clear x; rotate_left)
    | (extract_lets -useContext +onlyGivenNames x; refine (fun (hx : KeepsP ps z x) => ?_) ?_; clear_value x; revert x; intro _ _; rotate_left; unfold x; clear x; rotate_left)
    | with_reducible refine h3 _ _ ?_
    | with_reducible refine keepsP_fst (h3 _ _ ?_)
    | with_reducible refine keepsP_eq (h3 _ _ ?_) (by assumption)
    | with_reducible refine h4 _ ?_
    | with_reducible refine keepsP_fst (h4 _ ?_)
    | with_reducible refine keepsP_eq (h4 _ ?_) (by assumption)
    | (extract_lets -useContext +onlyGivenNames x; have _hx : ∀ a, x a = x a := fun _ => rfl; clear _hx; unfold x; clear x)
    | (extract_lets -useContext +onlyGivenNames x; revert x; intro _)
    | with_reducible refine keepsR_next ?_
    | with_reducible exact keepsR_fault
    | with_reducible refine State.setNmu_keeps (sub_of (by decide) hp) ?_
    | with_reducible refine nmuNext_keeps (sub_of (by decide) hp) ?_ (fun x0 x1 hx0 => ?_)
    | with_reducible refine countEvent_keeps (sub_of (by decide) hp) ?_
    | with_reducible refine ctxCount_keeps (sub_of (by decide) hp) ?_
    | with_reducible refine State.bump_keeps (sub_of (by decide) hp) ?_
    | with_reducible refine nmuWrites_keeps (sub_of (by decide) hp) ?_
    | with_reducible refine keepsP_fst (nmuWrites_keeps (sub_of (by decide) hp) ?_)
    | with_reducible refine keepsP_eq (nmuWrites_keeps (sub_of (by decide) hp) ?_) (by assumption)
    | with_reducible refine nmuSkip_keeps (sub_of (by decide) hp) ?_ (fun x0 x1 hx0 => ?_)
    | with_reducible refine nmuFaultAt_keeps (sub_of (by decide) hp) ?_ (fun x0 x1 hx0 => ?_)
    | with_reducible refine keepRequests_keeps (sub_of (by decide) hp) ?_ ?_
    | with_reducible refine nmuReads_keeps (sub_of (by decide) hp) ?_
    | with_reducible refine keepsP_fst (nmuReads_keeps (sub_of (by decide) hp) ?_)
    | with_reducible refine keepsP_eq (nmuReads_keeps (sub_of (by decide) hp) ?_) (by assumption)
    | split
    | (clear_value *; split)
    | with_reducible refine keepsP_eq ?_ (by assumption)
    | with_reducible refine keepsO_eq ?_ (by assumption)
    | with_reducible refine keepsP_mk ?_

theorem readUpdate_keeps {ps z} {s : Sys2Proof.Machine.State} {q : Nat} {table : Nat} {hyp : Nat} {clip : Nat} {shift : Nat} {c : Nat} (hp : [.regs, .mem, .mmu, .outbox, .bxl, .bridge] ⊆ ps) (h0 : Keeps ps z s) :
    KeepsP ps z (readUpdate s q table hyp clip shift c) := by
  unfold readUpdate
  repeat' first
    | with_reducible assumption
    | with_reducible exact keepsP_fst (by assumption)
    | (extract_lets -useContext +onlyGivenNames x; refine (fun (hx : Keeps ps z x) => ?_) ?_; clear_value x; revert x; intro _ _; rotate_left; unfold x; clear x; rotate_left)
    | (extract_lets -useContext +onlyGivenNames x; refine (fun (hx : KeepsP ps z x) => ?_) ?_; clear_value x; revert x; intro _ _; rotate_left; unfold x; clear x; rotate_left)
    | (extract_lets -useContext +onlyGivenNames x; have _hx : ∀ a, x a = x a := fun _ => rfl; clear _hx; unfold x; clear x)
    | (extract_lets -useContext +onlyGivenNames x; revert x; intro _)
    | with_reducible refine memRead_keeps (sub_of (by decide) hp) ?_
    | with_reducible refine keepsP_fst (memRead_keeps (sub_of (by decide) hp) ?_)
    | with_reducible refine keepsP_eq (memRead_keeps (sub_of (by decide) hp) ?_) (by assumption)
    | split
    | (clear_value *; split)
    | with_reducible refine keepsP_eq ?_ (by assumption)
    | with_reducible refine keepsO_eq ?_ (by assumption)
    | with_reducible refine keepsP_mk ?_

theorem startNmus_keeps {ps z} {s : Sys2Proof.Machine.State} {st : Sys2Proof.Machine.NmuState} {k : Sys2Proof.Machine.NmuCmd} {table : Nat} {flags : Nat} {close : Sys2Proof.Machine.State → Nat → Sys2Proof.Machine.State × Bool} (hp : [.isl, .ctx, .queues, .pwr, .nmu, .bridge] ⊆ ps) (h0 : Keeps ps z s) (h5 : ∀ x0 x1, Keeps ps z x0 → KeepsP ps z (close x0 x1)) :
    Keeps ps z (startNmus s st k table flags close) := by
  unfold startNmus
  repeat' first
    | with_reducible assumption
    | with_reducible exact keepsP_fst (by assumption)
    | (extract_lets -useContext +onlyGivenNames x; refine (fun (hx : Keeps ps z x) => ?_) ?_; clear_value x; revert x; intro _ _; rotate_left; unfold x; clear x; rotate_left)
    | (extract_lets -useContext +onlyGivenNames x; refine (fun (hx : KeepsP ps z x) => ?_) ?_; clear_value x; revert x; intro _ _; rotate_left; unfold x; clear x; rotate_left)
    | with_reducible refine h5 _ _ ?_
    | with_reducible refine keepsP_fst (h5 _ _ ?_)
    | with_reducible refine keepsP_eq (h5 _ _ ?_) (by assumption)
    | (extract_lets -useContext +onlyGivenNames x; have _hx : ∀ a, x a = x a := fun _ => rfl; clear _hx; unfold x; clear x)
    | (extract_lets -useContext +onlyGivenNames x; revert x; intro _)
    | with_reducible refine nmuLeave_keeps (sub_of (by decide) hp) ?_ (fun x0 x1 hx0 => ?_)
    | with_reducible refine updCmd_keeps (sub_of (by decide) hp) ?_
    | with_reducible refine State.setNmu_keeps (sub_of (by decide) hp) ?_
    | with_reducible refine crossTo_keeps (sub_of (by decide) hp) ?_
    | with_reducible refine keeps_foldl (fun t a ht => ?_) ?_
    | with_reducible refine keepsP_foldl (fun t a ht => ?_) ?_
    | split
    | (clear_value *; split)
    | with_reducible refine keepsP_eq ?_ (by assumption)
    | with_reducible refine keepsO_eq ?_ (by assumption)
    | with_reducible refine keepsP_mk ?_

theorem noClose_keeps {ps z} {s : Sys2Proof.Machine.State} {a1_ : Nat} (h0 : Keeps ps z s) :
    KeepsP ps z (noClose s a1_) := by
  unfold noClose
  repeat' first
    | with_reducible assumption
    | with_reducible exact keepsP_fst (by assumption)
    | (extract_lets -useContext +onlyGivenNames x; refine (fun (hx : Keeps ps z x) => ?_) ?_; clear_value x; revert x; intro _ _; rotate_left; unfold x; clear x; rotate_left)
    | (extract_lets -useContext +onlyGivenNames x; revert x; intro _)
    | split
    | (clear_value *; split)
    | with_reducible refine keepsP_eq ?_ (by assumption)
    | with_reducible refine keepsO_eq ?_ (by assumption)
    | with_reducible refine keepsP_mk ?_

theorem execNmuUpdate_keeps {ps z} {q : Sys2Proof.QueueId} {s : Sys2Proof.Machine.State} (hp : [.regs, .isl, .mem, .mmu, .ctx, .queues, .outbox, .bxl, .pwr, .nmu, .bridge] ⊆ ps) (h1 : Keeps ps z s) :
    KeepsR ps z (execNmuUpdate q s) := by
  unfold execNmuUpdate
  repeat' first
    | with_reducible assumption
    | with_reducible exact keepsP_fst (by assumption)
    | (extract_lets -useContext +onlyGivenNames x; refine (fun (hx : Keeps ps z x) => ?_) ?_; clear_value x; revert x; intro _ _; rotate_left; unfold x; clear x; rotate_left)
    | (extract_lets -useContext +onlyGivenNames x; refine (fun (hx : KeepsP ps z x) => ?_) ?_; clear_value x; revert x; intro _ _; rotate_left; unfold x; clear x; rotate_left)
    | (extract_lets -useContext +onlyGivenNames x; revert x; intro _)
    | with_reducible refine keepsR_next ?_
    | with_reducible exact keepsR_fault
    | with_reducible refine noClose_keeps  ?_
    | with_reducible refine keepsP_fst (noClose_keeps  ?_)
    | with_reducible refine keepsP_eq (noClose_keeps  ?_) (by assumption)
    | with_reducible refine startNmus_keeps (sub_of (by decide) hp) ?_ (fun x0 x1 hx0 => ?_)
    | with_reducible refine takeAnswers_keeps (sub_of (by decide) hp) ?_
    | with_reducible refine keepRequests_keeps (sub_of (by decide) hp) ?_ ?_
    | with_reducible refine readUpdate_keeps (sub_of (by decide) hp) ?_
    | with_reducible refine keepsP_fst (readUpdate_keeps (sub_of (by decide) hp) ?_)
    | with_reducible refine keepsP_eq (readUpdate_keeps (sub_of (by decide) hp) ?_) (by assumption)
    | with_reducible refine badCmd_keeps (sub_of (by decide) hp) ?_
    | with_reducible refine mergeFlags_keeps (sub_of (by decide) hp) ?_
    | split
    | (clear_value *; split)
    | with_reducible refine keepsP_eq ?_ (by assumption)
    | with_reducible refine keepsO_eq ?_ (by assumption)
    | with_reducible refine keepsP_mk ?_

end Sys2Proof.Machine
end

