-- ==== Sys2Proof/Laws/FrameMirror.lean ====
section
/-!
SUPPORT. Frames: for each operation of Sys2Proof/Machine/Mirror.lean, the parts of State it may change, and that it keeps the stores'
canonical form.
-/
namespace Sys2Proof.Machine

open Sys2Proof

theorem State.setPairState_keeps {ps z} {s : Sys2Proof.Machine.State} {v : Nat} (hp : [.regs] ⊆ ps) (h0 : Keeps ps z s) :
    Keeps ps z (State.setPairState s v) := by
  unfold State.setPairState
  repeat' first
    | with_reducible assumption
    | with_reducible exact keepsP_fst (by assumption)
    | (extract_lets -useContext +onlyGivenNames x; refine (fun (hx : Keeps ps z x) => ?_) ?_; clear_value x; revert x; intro _ _; rotate_left; unfold x; clear x; rotate_left)
    | (extract_lets -useContext +onlyGivenNames x; revert x; intro _)
    | with_reducible refine State.setField_keeps (sub_of (by decide) hp) ?_
    | split
    | (clear_value *; split)
    | with_reducible refine keepsP_eq ?_ (by assumption)
    | with_reducible refine keepsO_eq ?_ (by assumption)
    | with_reducible refine keepsP_mk ?_

theorem pairSend_keeps {ps z} {s : Sys2Proof.Machine.State} {what : Nat} {args : List Nat} {data : List Sys2Proof.Byte} (hp : [.outbox] ⊆ ps) (h0 : Keeps ps z s) :
    Keeps ps z (pairSend s what args data) := by
  unfold pairSend
  repeat' first
    | with_reducible assumption
    | with_reducible exact keepsP_fst (by assumption)
    | (extract_lets -useContext +onlyGivenNames x; refine (fun (hx : Keeps ps z x) => ?_) ?_; clear_value x; revert x; intro _ _; rotate_left; unfold x; clear x; rotate_left)
    | (extract_lets -useContext +onlyGivenNames x; revert x; intro _)
    | with_reducible refine State.send_keeps (sub_of (by decide) hp) ?_
    | split
    | (clear_value *; split)
    | with_reducible refine keepsP_eq ?_ (by assumption)
    | with_reducible refine keepsO_eq ?_ (by assumption)
    | with_reducible refine keepsP_mk ?_

theorem sendHandshake_keeps {ps z} {s : Sys2Proof.Machine.State} {kind : Nat} {data : List Sys2Proof.Byte} (hp : [.outbox] ⊆ ps) (h0 : Keeps ps z s) :
    Keeps ps z (sendHandshake s kind data) := by
  unfold sendHandshake
  repeat' first
    | with_reducible assumption
    | with_reducible exact keepsP_fst (by assumption)
    | (extract_lets -useContext +onlyGivenNames x; refine (fun (hx : Keeps ps z x) => ?_) ?_; clear_value x; revert x; intro _ _; rotate_left; unfold x; clear x; rotate_left)
    | (extract_lets -useContext +onlyGivenNames x; revert x; intro _)
    | with_reducible refine pairSend_keeps (sub_of (by decide) hp) ?_
    | with_reducible refine keeps_foldl (fun t a ht => ?_) ?_
    | with_reducible refine keepsP_foldl (fun t a ht => ?_) ?_
    | split
    | (clear_value *; split)
    | with_reducible refine keepsP_eq ?_ (by assumption)
    | with_reducible refine keepsO_eq ?_ (by assumption)
    | with_reducible refine keepsP_mk ?_

theorem ephemeral_keeps {ps z} {s : Sys2Proof.Machine.State} (hp : [.draws] ⊆ ps) (h0 : Keeps ps z s) :
    KeepsP ps z (ephemeral s) := by
  unfold ephemeral
  repeat' first
    | with_reducible assumption
    | with_reducible exact keepsP_fst (by assumption)
    | (extract_lets -useContext +onlyGivenNames x; refine (fun (hx : Keeps ps z x) => ?_) ?_; clear_value x; revert x; intro _ _; rotate_left; unfold x; clear x; rotate_left)
    | (extract_lets -useContext +onlyGivenNames x; refine (fun (hx : KeepsP ps z x) => ?_) ?_; clear_value x; revert x; intro _ _; rotate_left; unfold x; clear x; rotate_left)
    | (extract_lets -useContext +onlyGivenNames x; revert x; intro _)
    | with_reducible refine freeBytes_keeps (sub_of (by decide) hp) ?_
    | with_reducible refine keepsP_fst (freeBytes_keeps (sub_of (by decide) hp) ?_)
    | with_reducible refine keepsP_eq (freeBytes_keeps (sub_of (by decide) hp) ?_) (by assumption)
    | split
    | (clear_value *; split)
    | with_reducible refine keepsP_eq ?_ (by assumption)
    | with_reducible refine keepsO_eq ?_ (by assumption)
    | with_reducible refine keepsP_mk ?_

theorem sendSignature_keeps {ps z} {s : Sys2Proof.Machine.State} (hp : [.outbox, .draws, .pair] ⊆ ps) (h0 : Keeps ps z s) :
    Keeps ps z (sendSignature s) := by
  unfold sendSignature
  repeat' first
    | with_reducible assumption
    | with_reducible exact keepsP_fst (by assumption)
    | (extract_lets -useContext +onlyGivenNames x; refine (fun (hx : Keeps ps z x) => ?_) ?_; clear_value x; revert x; intro _ _; rotate_left; unfold x; clear x; rotate_left)
    | (extract_lets -useContext +onlyGivenNames x; refine (fun (hx : KeepsP ps z x) => ?_) ?_; clear_value x; revert x; intro _ _; rotate_left; unfold x; clear x; rotate_left)
    | (extract_lets -useContext +onlyGivenNames x; revert x; intro _)
    | with_reducible refine freeBytes_keeps (sub_of (by decide) hp) ?_
    | with_reducible refine keepsP_fst (freeBytes_keeps (sub_of (by decide) hp) ?_)
    | with_reducible refine keepsP_eq (freeBytes_keeps (sub_of (by decide) hp) ?_) (by assumption)
    | with_reducible refine sendHandshake_keeps (sub_of (by decide) hp) ?_
    | split
    | (clear_value *; split)
    | with_reducible refine keeps_with_pair (mem_of (by decide) hp) ?_
    | with_reducible refine keepsP_eq ?_ (by assumption)
    | with_reducible refine keepsO_eq ?_ (by assumption)
    | with_reducible refine keepsP_mk ?_

theorem answerHandshake_keeps {ps z} {old : Sys2Proof.Machine.State} {s : Sys2Proof.Machine.State} (hp : [.outbox, .draws, .pair] ⊆ ps) (h0 : Keeps ps z old) (h1 : Keeps ps z s) :
    Keeps ps z (answerHandshake old s) := by
  unfold answerHandshake
  repeat' first
    | with_reducible assumption
    | with_reducible exact keepsP_fst (by assumption)
    | (extract_lets -useContext +onlyGivenNames x; refine (fun (hx : Keeps ps z x) => ?_) ?_; clear_value x; revert x; intro _ _; rotate_left; unfold x; clear x; rotate_left)
    | (extract_lets -useContext +onlyGivenNames x; revert x; intro _)
    | with_reducible refine sendHandshake_keeps (sub_of (by decide) hp) ?_
    | with_reducible refine sendSignature_keeps (sub_of (by decide) hp) ?_
    | split
    | (clear_value *; split)
    | with_reducible refine keepsP_eq ?_ (by assumption)
    | with_reducible refine keepsO_eq ?_ (by assumption)
    | with_reducible refine keepsP_mk ?_

theorem execMirrorBind_keeps {ps z} {q : Sys2Proof.QueueId} {s : Sys2Proof.Machine.State} (hp : [.regs, .queues, .outbox, .draws, .pair] ⊆ ps) (h1 : Keeps ps z s) :
    KeepsR ps z (execMirrorBind q s) := by
  unfold execMirrorBind
  repeat' first
    | with_reducible assumption
    | with_reducible exact keepsP_fst (by assumption)
    | (extract_lets -useContext +onlyGivenNames x; refine (fun (hx : Keeps ps z x) => ?_) ?_; clear_value x; revert x; intro _ _; rotate_left; unfold x; clear x; rotate_left)
    | (extract_lets -useContext +onlyGivenNames x; refine (fun (hx : KeepsP ps z x) => ?_) ?_; clear_value x; revert x; intro _ _; rotate_left; unfold x; clear x; rotate_left)
    | (extract_lets -useContext +onlyGivenNames x; revert x; intro _)
    | with_reducible refine keepsR_next ?_
    | with_reducible exact keepsR_fault
    | with_reducible refine State.setField_keeps (sub_of (by decide) hp) ?_
    | with_reducible refine losePair_keeps (sub_of (by decide) hp) ?_
    | with_reducible refine State.setReg_keeps (sub_of (by decide) hp) ?_
    | with_reducible refine doneCmd_keeps (sub_of (by decide) hp) ?_
    | with_reducible refine failCmd_keeps (sub_of (by decide) hp) ?_
    | with_reducible refine badCmd_keeps (sub_of (by decide) hp) ?_
    | with_reducible refine ephemeral_keeps (sub_of (by decide) hp) ?_
    | with_reducible refine keepsP_fst (ephemeral_keeps (sub_of (by decide) hp) ?_)
    | with_reducible refine keepsP_eq (ephemeral_keeps (sub_of (by decide) hp) ?_) (by assumption)
    | with_reducible refine freshPair_keeps (sub_of (by decide) hp) ?_
    | with_reducible refine sendHandshake_keeps (sub_of (by decide) hp) ?_
    | with_reducible refine updCmd_keeps (sub_of (by decide) hp) ?_
    | with_reducible refine answerHandshake_keeps (sub_of (by decide) hp) ?_ ?_
    | split
    | (clear_value *; split)
    | with_reducible refine keepsP_eq ?_ (by assumption)
    | with_reducible refine keepsO_eq ?_ (by assumption)
    | with_reducible refine keepsP_mk ?_

theorem execPairHandshakeMsgRx_keeps {ps z} {p : Sys2Proof.PortId} {body : List Sys2Proof.Byte} {last : Bool} {s : Sys2Proof.Machine.State} (hp : [.outbox, .draws, .pair] ⊆ ps) (h3 : Keeps ps z s) :
    KeepsR ps z (execPairHandshakeMsgRx p body last s) := by
  unfold execPairHandshakeMsgRx
  repeat' first
    | with_reducible assumption
    | with_reducible exact keepsP_fst (by assumption)
    | (extract_lets -useContext +onlyGivenNames x; refine (fun (hx : Keeps ps z x) => ?_) ?_; clear_value x; revert x; intro _ _; rotate_left; unfold x; clear x; rotate_left)
    | (extract_lets -useContext +onlyGivenNames x; have _hx : ∀ a, x a = x a := fun _ => rfl; clear _hx; unfold x; clear x)
    | (extract_lets -useContext +onlyGivenNames x; revert x; intro _)
    | with_reducible refine keepsR_next ?_
    | with_reducible exact keepsR_fault
    | with_reducible refine answerHandshake_keeps (sub_of (by decide) hp) ?_ ?_
    | split
    | (clear_value *; split)
    | with_reducible refine keeps_with_pair (mem_of (by decide) hp) ?_
    | with_reducible refine keepsP_eq ?_ (by assumption)
    | with_reducible refine keepsO_eq ?_ (by assumption)
    | with_reducible refine keepsP_mk ?_

theorem execPairHandshakeDone_keeps {ps z} {good : Bool} {epoch : Sys2Proof.W32} {s : Sys2Proof.Machine.State} (hp : [.regs, .queues, .pair] ⊆ ps) (h2 : Keeps ps z s) :
    KeepsR ps z (execPairHandshakeDone good epoch s) := by
  unfold execPairHandshakeDone
  repeat' first
    | with_reducible assumption
    | with_reducible exact keepsP_fst (by assumption)
    | (extract_lets -useContext +onlyGivenNames x; refine (fun (hx : Keeps ps z x) => ?_) ?_; clear_value x; revert x; intro _ _; rotate_left; unfold x; clear x; rotate_left)
    | (extract_lets -useContext +onlyGivenNames x; revert x; intro _)
    | with_reducible refine keepsR_next ?_
    | with_reducible exact keepsR_fault
    | with_reducible refine doneCmd_keeps (sub_of (by decide) hp) ?_
    | with_reducible refine State.setPairState_keeps (sub_of (by decide) hp) ?_
    | with_reducible refine State.setReg_keeps (sub_of (by decide) hp) ?_
    | with_reducible refine State.bump_keeps (sub_of (by decide) hp) ?_
    | with_reducible refine badCmd_keeps (sub_of (by decide) hp) ?_
    | with_reducible refine freshPair_keeps (sub_of (by decide) hp) ?_
    | split
    | (clear_value *; split)
    | with_reducible refine keeps_with_pair (mem_of (by decide) hp) ?_
    | with_reducible refine keepsP_eq ?_ (by assumption)
    | with_reducible refine keepsO_eq ?_ (by assumption)
    | with_reducible refine keepsP_mk ?_

theorem depositClose_keeps {ps z} {s : Sys2Proof.Machine.State} {u : Nat} (hp : [.outbox, .pair] ⊆ ps) (h0 : Keeps ps z s) :
    KeepsP ps z (depositClose s u) := by
  unfold depositClose
  repeat' first
    | with_reducible assumption
    | with_reducible exact keepsP_fst (by assumption)
    | (extract_lets -useContext +onlyGivenNames x; refine (fun (hx : Keeps ps z x) => ?_) ?_; clear_value x; revert x; intro _ _; rotate_left; unfold x; clear x; rotate_left)
    | (extract_lets -useContext +onlyGivenNames x; revert x; intro _)
    | with_reducible refine pairSend_keeps (sub_of (by decide) hp) ?_
    | split
    | (clear_value *; split)
    | with_reducible refine keeps_with_pair (mem_of (by decide) hp) ?_
    | with_reducible refine keepsP_eq ?_ (by assumption)
    | with_reducible refine keepsO_eq ?_ (by assumption)
    | with_reducible refine keepsP_mk ?_

theorem sendClose_keeps {ps z} {s : Sys2Proof.Machine.State} {u : Nat} (hp : [.outbox, .pair] ⊆ ps) (h0 : Keeps ps z s) :
    KeepsP ps z (sendClose s u) := by
  unfold sendClose
  repeat' first
    | with_reducible assumption
    | with_reducible exact keepsP_fst (by assumption)
    | (extract_lets -useContext +onlyGivenNames x; refine (fun (hx : Keeps ps z x) => ?_) ?_; clear_value x; revert x; intro _ _; rotate_left; unfold x; clear x; rotate_left)
    | (extract_lets -useContext +onlyGivenNames x; revert x; intro _)
    | with_reducible refine pairSend_keeps (sub_of (by decide) hp) ?_
    | split
    | (clear_value *; split)
    | with_reducible refine keeps_with_pair (mem_of (by decide) hp) ?_
    | with_reducible refine keepsP_eq ?_ (by assumption)
    | with_reducible refine keepsO_eq ?_ (by assumption)
    | with_reducible refine keepsP_mk ?_

theorem redoClose_keeps {ps z} {s : Sys2Proof.Machine.State} {u : Nat} (hp : [.regs] ⊆ ps) (h0 : Keeps ps z s) :
    KeepsP ps z (redoClose s u) := by
  unfold redoClose
  repeat' first
    | with_reducible assumption
    | with_reducible exact keepsP_fst (by assumption)
    | (extract_lets -useContext +onlyGivenNames x; refine (fun (hx : Keeps ps z x) => ?_) ?_; clear_value x; revert x; intro _ _; rotate_left; unfold x; clear x; rotate_left)
    | (extract_lets -useContext +onlyGivenNames x; revert x; intro _)
    | with_reducible refine State.setReg_keeps (sub_of (by decide) hp) ?_
    | split
    | (clear_value *; split)
    | with_reducible refine keepsP_eq ?_ (by assumption)
    | with_reducible refine keepsO_eq ?_ (by assumption)
    | with_reducible refine keepsP_mk ?_

theorem execMirrorDeposit_keeps {ps z} {q : Sys2Proof.QueueId} {s : Sys2Proof.Machine.State} (hp : [.regs, .isl, .mem, .mmu, .ctx, .queues, .outbox, .bxl, .pwr, .nmu, .pair, .bridge] ⊆ ps) (h1 : Keeps ps z s) :
    KeepsR ps z (execMirrorDeposit q s) := by
  unfold execMirrorDeposit
  repeat' first
    | with_reducible assumption
    | with_reducible exact keepsP_fst (by assumption)
    | (extract_lets -useContext +onlyGivenNames x; refine (fun (hx : Keeps ps z x) => ?_) ?_; clear_value x; revert x; intro _ _; rotate_left; unfold x; clear x; rotate_left)
    | (extract_lets -useContext +onlyGivenNames x; refine (fun (hx : KeepsP ps z x) => ?_) ?_; clear_value x; revert x; intro _ _; rotate_left; unfold x; clear x; rotate_left)
    | (extract_lets -useContext +onlyGivenNames x; revert x; intro _)
    | with_reducible refine keepsR_next ?_
    | with_reducible exact keepsR_fault
    | with_reducible refine depositClose_keeps (sub_of (by decide) hp) ?_
    | with_reducible refine keepsP_fst (depositClose_keeps (sub_of (by decide) hp) ?_)
    | with_reducible refine keepsP_eq (depositClose_keeps (sub_of (by decide) hp) ?_) (by assumption)
    | with_reducible refine startNmus_keeps (sub_of (by decide) hp) ?_ (fun x0 x1 hx0 => ?_)
    | with_reducible refine takeAnswers_keeps (sub_of (by decide) hp) ?_
    | with_reducible refine keepRequests_keeps (sub_of (by decide) hp) ?_ ?_
    | with_reducible refine readUpdate_keeps (sub_of (by decide) hp) ?_
    | with_reducible refine keepsP_fst (readUpdate_keeps (sub_of (by decide) hp) ?_)
    | with_reducible refine keepsP_eq (readUpdate_keeps (sub_of (by decide) hp) ?_) (by assumption)
    | with_reducible refine badCmd_keeps (sub_of (by decide) hp) ?_
    | split
    | (clear_value *; split)
    | with_reducible refine keeps_with_pair (mem_of (by decide) hp) ?_
    | with_reducible refine keepsP_eq ?_ (by assumption)
    | with_reducible refine keepsO_eq ?_ (by assumption)
    | with_reducible refine keepsP_mk ?_

theorem execMirrorSend_keeps {ps z} {q : Sys2Proof.QueueId} {s : Sys2Proof.Machine.State} (hp : [.regs, .isl, .mem, .mmu, .ctx, .queues, .outbox, .bxl, .pwr, .nmu, .pair, .bridge] ⊆ ps) (h1 : Keeps ps z s) :
    KeepsR ps z (execMirrorSend q s) := by
  unfold execMirrorSend
  repeat' first
    | with_reducible assumption
    | with_reducible exact keepsP_fst (by assumption)
    | (extract_lets -useContext +onlyGivenNames x; refine (fun (hx : Keeps ps z x) => ?_) ?_; clear_value x; revert x; intro _ _; rotate_left; unfold x; clear x; rotate_left)
    | (extract_lets -useContext +onlyGivenNames x; refine (fun (hx : KeepsP ps z x) => ?_) ?_; clear_value x; revert x; intro _ _; rotate_left; unfold x; clear x; rotate_left)
    | (extract_lets -useContext +onlyGivenNames x; revert x; intro _)
    | with_reducible refine keepsR_next ?_
    | with_reducible exact keepsR_fault
    | with_reducible refine sendClose_keeps (sub_of (by decide) hp) ?_
    | with_reducible refine keepsP_fst (sendClose_keeps (sub_of (by decide) hp) ?_)
    | with_reducible refine keepsP_eq (sendClose_keeps (sub_of (by decide) hp) ?_) (by assumption)
    | with_reducible refine startNmus_keeps (sub_of (by decide) hp) ?_ (fun x0 x1 hx0 => ?_)
    | with_reducible refine takeAnswers_keeps (sub_of (by decide) hp) ?_
    | with_reducible refine keepRequests_keeps (sub_of (by decide) hp) ?_ ?_
    | with_reducible refine readUpdate_keeps (sub_of (by decide) hp) ?_
    | with_reducible refine keepsP_fst (readUpdate_keeps (sub_of (by decide) hp) ?_)
    | with_reducible refine keepsP_eq (readUpdate_keeps (sub_of (by decide) hp) ?_) (by assumption)
    | with_reducible refine badCmd_keeps (sub_of (by decide) hp) ?_
    | split
    | (clear_value *; split)
    | with_reducible refine keepsP_eq ?_ (by assumption)
    | with_reducible refine keepsO_eq ?_ (by assumption)
    | with_reducible refine keepsP_mk ?_

theorem nmuSendBlock_keeps {ps z} {s : Sys2Proof.Machine.State} {u : Nat} {d : Nat} {deposit : Bool} {close : Sys2Proof.Machine.State → Nat → Sys2Proof.Machine.State × Bool} (hp : [.regs, .isl, .mem, .mmu, .ctx, .queues, .outbox, .bxl, .pwr, .nmu, .pair, .bridge] ⊆ ps) (h0 : Keeps ps z s) (h4 : ∀ x0 x1, Keeps ps z x0 → KeepsP ps z (close x0 x1)) :
    KeepsR ps z (nmuSendBlock s u d deposit close) := by
  unfold nmuSendBlock
  repeat' first
    | with_reducible assumption
    | with_reducible exact keepsP_fst (by assumption)
    | (extract_lets -useContext +onlyGivenNames x; refine (fun (hx : Keeps ps z x) => ?_) ?_; clear_value x; revert x; intro _ _; rotate_left; unfold x; clear x; rotate_left)
    | (extract_lets -useContext +onlyGivenNames x; refine (fun (hx : KeepsP ps z x) => ?_) ?_; clear_value x; revert x; intro _ _; rotate_left; unfold x; clear x; rotate_left)
    | with_reducible refine h4 _ _ ?_
    | with_reducible refine keepsP_fst (h4 _ _ ?_)
    | with_reducible refine keepsP_eq (h4 _ _ ?_) (by assumption)
    | (extract_lets -useContext +onlyGivenNames x; revert x; intro _)
    | with_reducible refine keepsR_next ?_
    | with_reducible exact keepsR_fault
    | with_reducible refine State.setNmu_keeps (sub_of (by decide) hp) ?_
    | with_reducible refine nmuNext_keeps (sub_of (by decide) hp) ?_ (fun x0 x1 hx0 => ?_)
    | with_reducible refine pairSend_keeps (sub_of (by decide) hp) ?_
    | with_reducible refine nmuSkip_keeps (sub_of (by decide) hp) ?_ (fun x0 x1 hx0 => ?_)
    | with_reducible refine nmuFaultAt_keeps (sub_of (by decide) hp) ?_ (fun x0 x1 hx0 => ?_)
    | with_reducible refine keepRequests_keeps (sub_of (by decide) hp) ?_ ?_
    | with_reducible refine nmuReads_keeps (sub_of (by decide) hp) ?_
    | with_reducible refine keepsP_fst (nmuReads_keeps (sub_of (by decide) hp) ?_)
    | with_reducible refine keepsP_eq (nmuReads_keeps (sub_of (by decide) hp) ?_) (by assumption)
    | with_reducible refine crossTo_keeps (sub_of (by decide) hp) ?_
    | split
    | (clear_value *; split)
    | with_reducible refine keeps_with_pair (mem_of (by decide) hp) ?_
    | with_reducible refine keepsP_eq ?_ (by assumption)
    | with_reducible refine keepsO_eq ?_ (by assumption)
    | with_reducible refine keepsP_mk ?_

theorem execMirrorRedo_keeps {ps z} {q : Sys2Proof.QueueId} {s : Sys2Proof.Machine.State} (hp : [.regs, .isl, .mem, .mmu, .ctx, .queues, .outbox, .bxl, .pwr, .nmu, .bridge] ⊆ ps) (h1 : Keeps ps z s) :
    KeepsR ps z (execMirrorRedo q s) := by
  unfold execMirrorRedo
  repeat' first
    | with_reducible assumption
    | with_reducible exact keepsP_fst (by assumption)
    | (extract_lets -useContext +onlyGivenNames x; refine (fun (hx : Keeps ps z x) => ?_) ?_; clear_value x; revert x; intro _ _; rotate_left; unfold x; clear x; rotate_left)
    | (extract_lets -useContext +onlyGivenNames x; refine (fun (hx : KeepsP ps z x) => ?_) ?_; clear_value x; revert x; intro _ _; rotate_left; unfold x; clear x; rotate_left)
    | (extract_lets -useContext +onlyGivenNames x; revert x; intro _)
    | with_reducible refine keepsR_next ?_
    | with_reducible exact keepsR_fault
    | with_reducible refine redoClose_keeps (sub_of (by decide) hp) ?_
    | with_reducible refine keepsP_fst (redoClose_keeps (sub_of (by decide) hp) ?_)
    | with_reducible refine keepsP_eq (redoClose_keeps (sub_of (by decide) hp) ?_) (by assumption)
    | with_reducible refine startNmus_keeps (sub_of (by decide) hp) ?_ (fun x0 x1 hx0 => ?_)
    | with_reducible refine takeAnswers_keeps (sub_of (by decide) hp) ?_
    | with_reducible refine keepRequests_keeps (sub_of (by decide) hp) ?_ ?_
    | with_reducible refine readUpdate_keeps (sub_of (by decide) hp) ?_
    | with_reducible refine keepsP_fst (readUpdate_keeps (sub_of (by decide) hp) ?_)
    | with_reducible refine keepsP_eq (readUpdate_keeps (sub_of (by decide) hp) ?_) (by assumption)
    | with_reducible refine badCmd_keeps (sub_of (by decide) hp) ?_
    | with_reducible refine mergeFlags_keeps (sub_of (by decide) hp) ?_
    | with_reducible refine readFrom_keeps (sub_of (by decide) hp) ?_
    | with_reducible refine keepsP_fst (readFrom_keeps (sub_of (by decide) hp) ?_)
    | with_reducible refine keepsP_eq (readFrom_keeps (sub_of (by decide) hp) ?_) (by assumption)
    | split
    | (clear_value *; split)
    | with_reducible refine keepsP_eq ?_ (by assumption)
    | with_reducible refine keepsO_eq ?_ (by assumption)
    | with_reducible refine keepsP_mk ?_

theorem nmuRedoBlock_keeps {ps z} {s : Sys2Proof.Machine.State} {u : Nat} {d : Nat} (hp : [.regs, .isl, .mem, .mmu, .ctx, .queues, .outbox, .bxl, .pwr, .nmu, .bridge] ⊆ ps) (h0 : Keeps ps z s) :
    KeepsR ps z (nmuRedoBlock s u d) := by
  unfold nmuRedoBlock
  repeat' first
    | with_reducible assumption
    | with_reducible exact keepsP_fst (by assumption)
    | (extract_lets -useContext +onlyGivenNames x; refine (fun (hx : Keeps ps z x) => ?_) ?_; clear_value x; revert x; intro _ _; rotate_left; unfold x; clear x; rotate_left)
    | (extract_lets -useContext +onlyGivenNames x; refine (fun (hx : KeepsP ps z x) => ?_) ?_; clear_value x; revert x; intro _ _; rotate_left; unfold x; clear x; rotate_left)
    | (extract_lets -useContext +onlyGivenNames x; revert x; intro _)
    | with_reducible refine keepsR_next ?_
    | with_reducible exact keepsR_fault
    | with_reducible refine nmuUpdateBlock_keeps (sub_of (by decide) hp) ?_ (fun x0 x1 hx0 => ?_) (fun x0 hx0 => ?_)
    | with_reducible refine keepsR_eq (nmuUpdateBlock_keeps (sub_of (by decide) hp) ?_ (fun x0 x1 hx0 => ?_) (fun x0 hx0 => ?_)) (by assumption)
    | with_reducible refine nmuNext_keeps (sub_of (by decide) hp) ?_ (fun x0 x1 hx0 => ?_)
    | with_reducible refine redoClose_keeps (sub_of (by decide) hp) ?_
    | with_reducible refine keepsP_fst (redoClose_keeps (sub_of (by decide) hp) ?_)
    | with_reducible refine keepsP_eq (redoClose_keeps (sub_of (by decide) hp) ?_) (by assumption)
    | with_reducible refine nmuFaultAt_keeps (sub_of (by decide) hp) ?_ (fun x0 x1 hx0 => ?_)
    | with_reducible refine readFrom_keeps (sub_of (by decide) hp) ?_
    | with_reducible refine keepsP_fst (readFrom_keeps (sub_of (by decide) hp) ?_)
    | with_reducible refine keepsP_eq (readFrom_keeps (sub_of (by decide) hp) ?_) (by assumption)
    | with_reducible refine writeFrom_keeps (sub_of (by decide) hp) ?_
    | with_reducible refine keepsP_fst (writeFrom_keeps (sub_of (by decide) hp) ?_)
    | with_reducible refine keepsP_eq (writeFrom_keeps (sub_of (by decide) hp) ?_) (by assumption)
    | split
    | (clear_value *; split)
    | with_reducible refine keepsP_eq ?_ (by assumption)
    | with_reducible refine keepsO_eq ?_ (by assumption)
    | with_reducible refine keepsP_mk ?_

theorem closeOf_keeps {ps z} {a0_ : Sys2Proof.Machine.NmuState} {a1_ : Sys2Proof.Machine.State} {a2_ : Nat} (hp : [.regs, .outbox, .pair] ⊆ ps) (h1 : Keeps ps z a1_) :
    KeepsP ps z (closeOf a0_ a1_ a2_) := by
  unfold closeOf
  repeat' first
    | with_reducible assumption
    | with_reducible exact keepsP_fst (by assumption)
    | (extract_lets -useContext +onlyGivenNames x; refine (fun (hx : Keeps ps z x) => ?_) ?_; clear_value x; revert x; intro _ _; rotate_left; unfold x; clear x; rotate_left)
    | (extract_lets -useContext +onlyGivenNames x; refine (fun (hx : KeepsP ps z x) => ?_) ?_; clear_value x; revert x; intro _ _; rotate_left; unfold x; clear x; rotate_left)
    | (extract_lets -useContext +onlyGivenNames x; revert x; intro _)
    | with_reducible refine noClose_keeps  ?_
    | with_reducible refine keepsP_fst (noClose_keeps  ?_)
    | with_reducible refine keepsP_eq (noClose_keeps  ?_) (by assumption)
    | with_reducible refine redoClose_keeps (sub_of (by decide) hp) ?_
    | with_reducible refine keepsP_fst (redoClose_keeps (sub_of (by decide) hp) ?_)
    | with_reducible refine keepsP_eq (redoClose_keeps (sub_of (by decide) hp) ?_) (by assumption)
    | with_reducible refine sendClose_keeps (sub_of (by decide) hp) ?_
    | with_reducible refine keepsP_fst (sendClose_keeps (sub_of (by decide) hp) ?_)
    | with_reducible refine keepsP_eq (sendClose_keeps (sub_of (by decide) hp) ?_) (by assumption)
    | with_reducible refine depositClose_keeps (sub_of (by decide) hp) ?_
    | with_reducible refine keepsP_fst (depositClose_keeps (sub_of (by decide) hp) ?_)
    | with_reducible refine keepsP_eq (depositClose_keeps (sub_of (by decide) hp) ?_) (by assumption)
    | split
    | (clear_value *; split)
    | with_reducible refine keepsP_eq ?_ (by assumption)
    | with_reducible refine keepsO_eq ?_ (by assumption)
    | with_reducible refine keepsP_mk ?_

theorem execNmuDescriptorFetch_keeps {ps z} {u : Sys2Proof.StackId} {s : Sys2Proof.Machine.State} (hp : [.regs, .isl, .mem, .mmu, .ctx, .queues, .outbox, .bxl, .pwr, .nmu, .pair, .bridge] ⊆ ps) (h1 : Keeps ps z s) :
    KeepsR ps z (execNmuDescriptorFetch u s) := by
  unfold execNmuDescriptorFetch
  repeat' first
    | with_reducible assumption
    | with_reducible exact keepsP_fst (by assumption)
    | (extract_lets -useContext +onlyGivenNames x; refine (fun (hx : Keeps ps z x) => ?_) ?_; clear_value x; revert x; intro _ _; rotate_left; unfold x; clear x; rotate_left)
    | (extract_lets -useContext +onlyGivenNames x; refine (fun (hx : KeepsP ps z x) => ?_) ?_; clear_value x; revert x; intro _ _; rotate_left; unfold x; clear x; rotate_left)
    | (extract_lets -useContext +onlyGivenNames x; revert x; intro _)
    | with_reducible refine keepsR_next ?_
    | with_reducible exact keepsR_fault
    | with_reducible refine closeOf_keeps (sub_of (by decide) hp) ?_
    | with_reducible refine keepsP_fst (closeOf_keeps (sub_of (by decide) hp) ?_)
    | with_reducible refine keepsP_eq (closeOf_keeps (sub_of (by decide) hp) ?_) (by assumption)
    | with_reducible refine nmuFetch_keeps (sub_of (by decide) hp) ?_ (fun x0 x1 hx0 => ?_)
    | with_reducible refine keepsR_eq (nmuFetch_keeps (sub_of (by decide) hp) ?_ (fun x0 x1 hx0 => ?_)) (by assumption)
    | split
    | (clear_value *; split)
    | with_reducible refine keepsP_eq ?_ (by assumption)
    | with_reducible refine keepsO_eq ?_ (by assumption)
    | with_reducible refine keepsP_mk ?_

theorem execNmuBlockWritten_keeps {ps z} {u : Sys2Proof.StackId} {s : Sys2Proof.Machine.State} (hp : [.regs, .isl, .mem, .mmu, .ctx, .queues, .outbox, .bxl, .pwr, .nmu, .pair, .bridge] ⊆ ps) (h1 : Keeps ps z s) :
    KeepsR ps z (execNmuBlockWritten u s) := by
  unfold execNmuBlockWritten
  repeat' first
    | with_reducible assumption
    | with_reducible exact keepsP_fst (by assumption)
    | (extract_lets -useContext +onlyGivenNames x; refine (fun (hx : Keeps ps z x) => ?_) ?_; clear_value x; revert x; intro _ _; rotate_left; unfold x; clear x; rotate_left)
    | (extract_lets -useContext +onlyGivenNames x; refine (fun (hx : KeepsP ps z x) => ?_) ?_; clear_value x; revert x; intro _ _; rotate_left; unfold x; clear x; rotate_left)
    | (extract_lets -useContext +onlyGivenNames x; revert x; intro _)
    | with_reducible refine keepsR_next ?_
    | with_reducible exact keepsR_fault
    | with_reducible refine nmuRedoBlock_keeps (sub_of (by decide) hp) ?_
    | with_reducible refine keepsR_eq (nmuRedoBlock_keeps (sub_of (by decide) hp) ?_) (by assumption)
    | with_reducible refine sendClose_keeps (sub_of (by decide) hp) ?_
    | with_reducible refine keepsP_fst (sendClose_keeps (sub_of (by decide) hp) ?_)
    | with_reducible refine keepsP_eq (sendClose_keeps (sub_of (by decide) hp) ?_) (by assumption)
    | with_reducible refine depositClose_keeps (sub_of (by decide) hp) ?_
    | with_reducible refine keepsP_fst (depositClose_keeps (sub_of (by decide) hp) ?_)
    | with_reducible refine keepsP_eq (depositClose_keeps (sub_of (by decide) hp) ?_) (by assumption)
    | with_reducible refine nmuSendBlock_keeps (sub_of (by decide) hp) ?_ (fun x0 x1 hx0 => ?_)
    | with_reducible refine keepsR_eq (nmuSendBlock_keeps (sub_of (by decide) hp) ?_ (fun x0 x1 hx0 => ?_)) (by assumption)
    | with_reducible refine noClose_keeps  ?_
    | with_reducible refine keepsP_fst (noClose_keeps  ?_)
    | with_reducible refine keepsP_eq (noClose_keeps  ?_) (by assumption)
    | with_reducible refine nmuUpdateBlock_keeps (sub_of (by decide) hp) ?_ (fun x0 x1 hx0 => ?_) (fun x0 hx0 => ?_)
    | with_reducible refine keepsR_eq (nmuUpdateBlock_keeps (sub_of (by decide) hp) ?_ (fun x0 x1 hx0 => ?_) (fun x0 hx0 => ?_)) (by assumption)
    | with_reducible refine closeOf_keeps (sub_of (by decide) hp) ?_
    | with_reducible refine keepsP_fst (closeOf_keeps (sub_of (by decide) hp) ?_)
    | with_reducible refine keepsP_eq (closeOf_keeps (sub_of (by decide) hp) ?_) (by assumption)
    | with_reducible refine nmuFaultAt_keeps (sub_of (by decide) hp) ?_ (fun x0 x1 hx0 => ?_)
    | split
    | (clear_value *; split)
    | with_reducible refine keepsP_eq ?_ (by assumption)
    | with_reducible refine keepsO_eq ?_ (by assumption)
    | with_reducible refine keepsP_mk ?_

theorem pairWrite_keeps {ps z} {s : Sys2Proof.Machine.State} {u : Nat} {parts : List (Nat × List Sys2Proof.Byte)} (hp : [.regs, .mem, .mmu, .outbox, .bxl, .bridge] ⊆ ps) (h0 : Keeps ps z s) :
    KeepsP ps z (pairWrite s u parts) := by
  unfold pairWrite
  repeat' first
    | with_reducible assumption
    | with_reducible exact keepsP_fst (by assumption)
    | (extract_lets -useContext +onlyGivenNames x; refine (fun (hx : Keeps ps z x) => ?_) ?_; clear_value x; revert x; intro _ _; rotate_left; unfold x; clear x; rotate_left)
    | (extract_lets -useContext +onlyGivenNames x; refine (fun (hx : KeepsP ps z x) => ?_) ?_; clear_value x; revert x; intro _ _; rotate_left; unfold x; clear x; rotate_left)
    | (extract_lets -useContext +onlyGivenNames x; revert x; intro _)
    | with_reducible refine memWrite_keeps (sub_of (by decide) hp) ?_
    | with_reducible refine keepsP_fst (memWrite_keeps (sub_of (by decide) hp) ?_)
    | with_reducible refine keepsP_eq (memWrite_keeps (sub_of (by decide) hp) ?_) (by assumption)
    | with_reducible refine crossTo_keeps (sub_of (by decide) hp) ?_
    | with_reducible refine keeps_foldl (fun t a ht => ?_) ?_
    | with_reducible refine keepsP_foldl (fun t a ht => ?_) ?_
    | split
    | (clear_value *; split)
    | with_reducible refine keepsP_eq ?_ (by assumption)
    | with_reducible refine keepsO_eq ?_ (by assumption)
    | with_reducible refine keepsP_mk ?_

theorem nextRx_keeps {ps z} {s : Sys2Proof.Machine.State} (hp : [.pair] ⊆ ps) (h0 : Keeps ps z s) :
    Keeps ps z (nextRx s) := by
  unfold nextRx
  repeat' first
    | with_reducible assumption
    | with_reducible exact keepsP_fst (by assumption)
    | (extract_lets -useContext +onlyGivenNames x; refine (fun (hx : Keeps ps z x) => ?_) ?_; clear_value x; revert x; intro _ _; rotate_left; unfold x; clear x; rotate_left)
    | (extract_lets -useContext +onlyGivenNames x; revert x; intro _)
    | split
    | (clear_value *; split)
    | with_reducible refine keeps_with_pair (mem_of (by decide) hp) ?_
    | with_reducible refine keepsP_eq ?_ (by assumption)
    | with_reducible refine keepsO_eq ?_ (by assumption)
    | with_reducible refine keepsP_mk ?_

theorem badTag_keeps {ps z} {s : Sys2Proof.Machine.State} (hp : [.regs, .pair] ⊆ ps) (h0 : Keeps ps z s) :
    KeepsR ps z (badTag s) := by
  unfold badTag
  repeat' first
    | with_reducible assumption
    | with_reducible exact keepsP_fst (by assumption)
    | (extract_lets -useContext +onlyGivenNames x; refine (fun (hx : Keeps ps z x) => ?_) ?_; clear_value x; revert x; intro _ _; rotate_left; unfold x; clear x; rotate_left)
    | (extract_lets -useContext +onlyGivenNames x; revert x; intro _)
    | with_reducible refine keepsR_next ?_
    | with_reducible exact keepsR_fault
    | with_reducible refine State.bump_keeps (sub_of (by decide) hp) ?_
    | with_reducible refine nextRx_keeps (sub_of (by decide) hp) ?_
    | split
    | (clear_value *; split)
    | with_reducible refine keepsP_eq ?_ (by assumption)
    | with_reducible refine keepsO_eq ?_ (by assumption)
    | with_reducible refine keepsP_mk ?_

theorem openPacket_keeps {ps z} {s : Sys2Proof.Machine.State} {pkt : Sys2Proof.PairPkt} {good : Bool} {f : List (Nat × List Sys2Proof.Byte) → Sys2Proof.Machine.Out} (hp : [.regs, .pair] ⊆ ps) (h0 : Keeps ps z s) (h3 : ∀ x0, KeepsR ps z (f x0)) :
    KeepsR ps z (openPacket s pkt good f) := by
  unfold openPacket
  repeat' first
    | with_reducible assumption
    | with_reducible exact keepsP_fst (by assumption)
    | (extract_lets -useContext +onlyGivenNames x; refine (fun (hx : Keeps ps z x) => ?_) ?_; clear_value x; revert x; intro _ _; rotate_left; unfold x; clear x; rotate_left)
    | with_reducible refine h3 _
    | with_reducible refine keepsR_eq (h3 _) (by assumption)
    | (extract_lets -useContext +onlyGivenNames x; revert x; intro _)
    | with_reducible refine keepsR_next ?_
    | with_reducible exact keepsR_fault
    | with_reducible refine badTag_keeps (sub_of (by decide) hp) ?_
    | with_reducible refine keepsR_eq (badTag_keeps (sub_of (by decide) hp) ?_) (by assumption)
    | split
    | (clear_value *; split)
    | with_reducible refine keepsP_eq ?_ (by assumption)
    | with_reducible refine keepsO_eq ?_ (by assumption)
    | with_reducible refine keepsP_mk ?_

theorem execDepositBlockRx_keeps {ps z} {u : Sys2Proof.StackId} {epoch : Sys2Proof.W32} {pkt : Sys2Proof.PairPkt} {last : Bool} {good : Bool} {s : Sys2Proof.Machine.State} (hp : [.regs, .mem, .mmu, .outbox, .bxl, .pair, .bridge] ⊆ ps) (h5 : Keeps ps z s) :
    KeepsR ps z (execDepositBlockRx u epoch pkt last good s) := by
  unfold execDepositBlockRx
  repeat' first
    | with_reducible assumption
    | with_reducible exact keepsP_fst (by assumption)
    | (extract_lets -useContext +onlyGivenNames x; refine (fun (hx : Keeps ps z x) => ?_) ?_; clear_value x; revert x; intro _ _; rotate_left; unfold x; clear x; rotate_left)
    | (extract_lets -useContext +onlyGivenNames x; refine (fun (hx : KeepsP ps z x) => ?_) ?_; clear_value x; revert x; intro _ _; rotate_left; unfold x; clear x; rotate_left)
    | (extract_lets -useContext +onlyGivenNames x; revert x; intro _)
    | with_reducible refine keepsR_next ?_
    | with_reducible exact keepsR_fault
    | with_reducible refine State.setPairState_keeps (sub_of (by decide) hp) ?_
    | with_reducible refine takeAnswers_keeps (sub_of (by decide) hp) ?_
    | with_reducible refine keepRequests_keeps (sub_of (by decide) hp) ?_ ?_
    | with_reducible refine pairWrite_keeps (sub_of (by decide) hp) ?_
    | with_reducible refine keepsP_fst (pairWrite_keeps (sub_of (by decide) hp) ?_)
    | with_reducible refine keepsP_eq (pairWrite_keeps (sub_of (by decide) hp) ?_) (by assumption)
    | with_reducible refine nextRx_keeps (sub_of (by decide) hp) ?_
    | with_reducible refine openPacket_keeps (sub_of (by decide) hp) ?_ (fun x0 => ?_)
    | with_reducible refine keepsR_eq (openPacket_keeps (sub_of (by decide) hp) ?_ (fun x0 => ?_)) (by assumption)
    | split
    | (clear_value *; split)
    | with_reducible refine keeps_with_pair (mem_of (by decide) hp) ?_
    | with_reducible refine keepsP_eq ?_ (by assumption)
    | with_reducible refine keepsO_eq ?_ (by assumption)
    | with_reducible refine keepsP_mk ?_

theorem execDepositClose_keeps {ps z} {epoch : Sys2Proof.W32} {count : Nat} {header : Nat} {s : Sys2Proof.Machine.State} (hp : [.regs, .mem, .outbox, .pair, .bridge] ⊆ ps) (h3 : Keeps ps z s) :
    KeepsR ps z (execDepositClose epoch count header s) := by
  unfold execDepositClose
  repeat' first
    | with_reducible assumption
    | with_reducible exact keepsP_fst (by assumption)
    | (extract_lets -useContext +onlyGivenNames x; refine (fun (hx : Keeps ps z x) => ?_) ?_; clear_value x; revert x; intro _ _; rotate_left; unfold x; clear x; rotate_left)
    | (extract_lets -useContext +onlyGivenNames x; refine (fun (hx : KeepsP ps z x) => ?_) ?_; clear_value x; revert x; intro _ _; rotate_left; unfold x; clear x; rotate_left)
    | (extract_lets -useContext +onlyGivenNames x; revert x; intro _)
    | with_reducible refine keepsR_next ?_
    | with_reducible exact keepsR_fault
    | with_reducible refine State.setPairState_keeps (sub_of (by decide) hp) ?_
    | with_reducible refine pairSend_keeps (sub_of (by decide) hp) ?_
    | with_reducible refine writeFrom_keeps (sub_of (by decide) hp) ?_
    | with_reducible refine keepsP_fst (writeFrom_keeps (sub_of (by decide) hp) ?_)
    | with_reducible refine keepsP_eq (writeFrom_keeps (sub_of (by decide) hp) ?_) (by assumption)
    | split
    | (clear_value *; split)
    | with_reducible refine keeps_with_pair (mem_of (by decide) hp) ?_
    | with_reducible refine keepsP_eq ?_ (by assumption)
    | with_reducible refine keepsO_eq ?_ (by assumption)
    | with_reducible refine keepsP_mk ?_

theorem setReasm_keeps {ps z} {s : Sys2Proof.Machine.State} {u : Nat} {j : Nat} {r : Option Sys2Proof.Machine.Reasm} (hp : [.regs, .pair] ⊆ ps) (h0 : Keeps ps z s) :
    Keeps ps z (setReasm s u j r) := by
  unfold setReasm
  repeat' first
    | with_reducible assumption
    | with_reducible exact keepsP_fst (by assumption)
    | (extract_lets -useContext +onlyGivenNames x; refine (fun (hx : Keeps ps z x) => ?_) ?_; clear_value x; revert x; intro _ _; rotate_left; unfold x; clear x; rotate_left)
    | (extract_lets -useContext +onlyGivenNames x; revert x; intro _)
    | with_reducible refine State.setReg_keeps (sub_of (by decide) hp) ?_
    | split
    | (clear_value *; split)
    | with_reducible refine keeps_with_pair (mem_of (by decide) hp) ?_
    | with_reducible refine keepsP_eq ?_ (by assumption)
    | with_reducible refine keepsO_eq ?_ (by assumption)
    | with_reducible refine keepsP_mk ?_

theorem execMirrorBlockRx_keeps {ps z} {u : Sys2Proof.StackId} {j : Fin 1048576} {epoch : Sys2Proof.W32} {pkt : Sys2Proof.PairPkt} {whole : Bool} {good : Bool} {s : Sys2Proof.Machine.State} (hp : [.regs, .mem, .mmu, .outbox, .bxl, .pair, .bridge] ⊆ ps) (h6 : Keeps ps z s) :
    KeepsR ps z (execMirrorBlockRx u j epoch pkt whole good s) := by
  unfold execMirrorBlockRx
  repeat' first
    | with_reducible assumption
    | with_reducible exact keepsP_fst (by assumption)
    | (extract_lets -useContext +onlyGivenNames x; refine (fun (hx : Keeps ps z x) => ?_) ?_; clear_value x; revert x; intro _ _; rotate_left; unfold x; clear x; rotate_left)
    | (extract_lets -useContext +onlyGivenNames x; refine (fun (hx : KeepsP ps z x) => ?_) ?_; clear_value x; revert x; intro _ _; rotate_left; unfold x; clear x; rotate_left)
    | (extract_lets -useContext +onlyGivenNames x; revert x; intro _)
    | with_reducible refine keepsR_next ?_
    | with_reducible exact keepsR_fault
    | with_reducible refine takeAnswers_keeps (sub_of (by decide) hp) ?_
    | with_reducible refine keepRequests_keeps (sub_of (by decide) hp) ?_ ?_
    | with_reducible refine pairWrite_keeps (sub_of (by decide) hp) ?_
    | with_reducible refine keepsP_fst (pairWrite_keeps (sub_of (by decide) hp) ?_)
    | with_reducible refine keepsP_eq (pairWrite_keeps (sub_of (by decide) hp) ?_) (by assumption)
    | with_reducible refine setReasm_keeps (sub_of (by decide) hp) ?_
    | with_reducible refine State.setPairState_keeps (sub_of (by decide) hp) ?_
    | with_reducible refine State.setReg_keeps (sub_of (by decide) hp) ?_
    | with_reducible refine nextRx_keeps (sub_of (by decide) hp) ?_
    | with_reducible refine openPacket_keeps (sub_of (by decide) hp) ?_ (fun x0 => ?_)
    | with_reducible refine keepsR_eq (openPacket_keeps (sub_of (by decide) hp) ?_ (fun x0 => ?_)) (by assumption)
    | split
    | (clear_value *; split)
    | with_reducible refine keepsP_eq ?_ (by assumption)
    | with_reducible refine keepsO_eq ?_ (by assumption)
    | with_reducible refine keepsO_getD ?_ ?_
    | with_reducible refine keepsP_mk ?_

theorem execMirrorBlockWritten_keeps {ps z} {u : Sys2Proof.StackId} {j : Fin 1048576} {s : Sys2Proof.Machine.State} (hp : [.regs, .mem, .outbox, .pair, .bridge] ⊆ ps) (h2 : Keeps ps z s) :
    KeepsR ps z (execMirrorBlockWritten u j s) := by
  unfold execMirrorBlockWritten
  repeat' first
    | with_reducible assumption
    | with_reducible exact keepsP_fst (by assumption)
    | (extract_lets -useContext +onlyGivenNames x; refine (fun (hx : Keeps ps z x) => ?_) ?_; clear_value x; revert x; intro _ _; rotate_left; unfold x; clear x; rotate_left)
    | (extract_lets -useContext +onlyGivenNames x; refine (fun (hx : KeepsP ps z x) => ?_) ?_; clear_value x; revert x; intro _ _; rotate_left; unfold x; clear x; rotate_left)
    | (extract_lets -useContext +onlyGivenNames x; revert x; intro _)
    | with_reducible refine keepsR_next ?_
    | with_reducible exact keepsR_fault
    | with_reducible refine State.setReg_keeps (sub_of (by decide) hp) ?_
    | with_reducible refine setReasm_keeps (sub_of (by decide) hp) ?_
    | with_reducible refine readFrom_keeps (sub_of (by decide) hp) ?_
    | with_reducible refine keepsP_fst (readFrom_keeps (sub_of (by decide) hp) ?_)
    | with_reducible refine keepsP_eq (readFrom_keeps (sub_of (by decide) hp) ?_) (by assumption)
    | with_reducible refine writeFrom_keeps (sub_of (by decide) hp) ?_
    | with_reducible refine keepsP_fst (writeFrom_keeps (sub_of (by decide) hp) ?_)
    | with_reducible refine keepsP_eq (writeFrom_keeps (sub_of (by decide) hp) ?_) (by assumption)
    | split
    | (clear_value *; split)
    | with_reducible refine keepsP_eq ?_ (by assumption)
    | with_reducible refine keepsO_eq ?_ (by assumption)
    | with_reducible refine keepsP_mk ?_

theorem execMirrorStreamClose_keeps {ps z} {epoch : Sys2Proof.W32} {count : Nat} {s : Sys2Proof.Machine.State} (hp : [.regs, .outbox, .pair] ⊆ ps) (h2 : Keeps ps z s) :
    KeepsR ps z (execMirrorStreamClose epoch count s) := by
  unfold execMirrorStreamClose
  repeat' first
    | with_reducible assumption
    | with_reducible exact keepsP_fst (by assumption)
    | (extract_lets -useContext +onlyGivenNames x; refine (fun (hx : Keeps ps z x) => ?_) ?_; clear_value x; revert x; intro _ _; rotate_left; unfold x; clear x; rotate_left)
    | (extract_lets -useContext +onlyGivenNames x; revert x; intro _)
    | with_reducible refine keepsR_next ?_
    | with_reducible exact keepsR_fault
    | with_reducible refine pairSend_keeps (sub_of (by decide) hp) ?_
    | with_reducible refine State.setPairState_keeps (sub_of (by decide) hp) ?_
    | with_reducible refine State.setReg_keeps (sub_of (by decide) hp) ?_
    | split
    | (clear_value *; split)
    | with_reducible refine keeps_with_pair (mem_of (by decide) hp) ?_
    | with_reducible refine keepsP_eq ?_ (by assumption)
    | with_reducible refine keepsO_eq ?_ (by assumption)
    | with_reducible refine keepsP_mk ?_

theorem execMirrorAckRx_keeps {ps z} {stream : Bool} {epoch : Sys2Proof.W32} {s : Sys2Proof.Machine.State} (hp : [.regs, .queues, .pair, .bridge] ⊆ ps) (h2 : Keeps ps z s) :
    KeepsR ps z (execMirrorAckRx stream epoch s) := by
  unfold execMirrorAckRx
  repeat' first
    | with_reducible assumption
    | with_reducible exact keepsP_fst (by assumption)
    | (extract_lets -useContext +onlyGivenNames x; refine (fun (hx : Keeps ps z x) => ?_) ?_; clear_value x; revert x; intro _ _; rotate_left; unfold x; clear x; rotate_left)
    | (extract_lets -useContext +onlyGivenNames x; revert x; intro _)
    | with_reducible refine keepsR_next ?_
    | with_reducible exact keepsR_fault
    | with_reducible refine reportEngine_keeps (sub_of (by decide) hp) ?_
    | with_reducible refine State.setReg_keeps (sub_of (by decide) hp) ?_
    | split
    | (clear_value *; split)
    | with_reducible refine keeps_with_pair (mem_of (by decide) hp) ?_
    | with_reducible refine keepsP_eq ?_ (by assumption)
    | with_reducible refine keepsO_eq ?_ (by assumption)
    | with_reducible refine keepsP_mk ?_

end Sys2Proof.Machine
end

