-- ==== Sys2Proof/Laws/FramePageRegs.lean ====
section
/-!
SUPPORT. Frames: for each operation of Sys2Proof/Machine/PageRegs.lean, the parts of State it may change, and that it keeps the stores'
canonical form.
-/
namespace Sys2Proof.Machine

open Sys2Proof

theorem plainWrite_keeps {ps z} {s : Sys2Proof.Machine.State} {b : Sys2Proof.Block} {i : Nat} {po : Nat} {l : Sys2Proof.Lay} {priv : Bool} {v : Nat} (hp : [.regs] ⊆ ps) (h0 : Keeps ps z s) :
    Keeps ps z (plainWrite s b i po l priv v) := by
  unfold plainWrite
  repeat' first
    | with_reducible assumption
    | with_reducible exact keepsP_fst (by assumption)
    | (extract_lets -useContext +onlyGivenNames x; refine (fun (hx : Keeps ps z x) => ?_) ?_; clear_value x; revert x; intro _ _; rotate_left; unfold x; clear x; rotate_left)
    | (extract_lets -useContext +onlyGivenNames x; revert x; intro _)
    | with_reducible refine State.setReg_keeps (sub_of (by decide) hp) ?_
    | split
    | (clear_value *; split)
    | with_reducible refine keepsP_eq ?_ (by assumption)
    | with_reducible refine keepsO_eq ?_ (by assumption)
    | with_reducible refine keepsP_mk ?_

theorem clearErr_keeps {ps z} {s : Sys2Proof.Machine.State} {b : Sys2Proof.Block} {i : Nat} (hp : [.regs, .arr, .vec] ⊆ ps) (h0 : Keeps ps z s) :
    Keeps ps z (clearErr s b i) := by
  unfold clearErr
  repeat' first
    | with_reducible assumption
    | with_reducible exact keepsP_fst (by assumption)
    | (extract_lets -useContext +onlyGivenNames x; refine (fun (hx : Keeps ps z x) => ?_) ?_; clear_value x; revert x; intro _ _; rotate_left; unfold x; clear x; rotate_left)
    | (extract_lets -useContext +onlyGivenNames x; revert x; intro _)
    | with_reducible refine State.setVec_keeps (sub_of (by decide) hp) ?_
    | with_reducible refine State.setArr_keeps (sub_of (by decide) hp) ?_
    | with_reducible refine State.setReg_keeps (sub_of (by decide) hp) ?_
    | with_reducible refine keeps_foldl (fun t a ht => ?_) ?_
    | with_reducible refine keepsP_foldl (fun t a ht => ?_) ?_
    | split
    | (clear_value *; split)
    | with_reducible refine keepsP_eq ?_ (by assumption)
    | with_reducible refine keepsO_eq ?_ (by assumption)
    | with_reducible refine keepsP_mk ?_

theorem writeSel_keeps {ps z} {s : Sys2Proof.Machine.State} {b : Sys2Proof.Block} {i : Nat} {k : Nat} {v : Nat} (hp : [.regs] ⊆ ps) (h0 : Keeps ps z s) :
    KeepsO ps z (writeSel s b i k v) := by
  unfold writeSel
  repeat' first
    | with_reducible assumption
    | with_reducible exact keepsP_fst (by assumption)
    | (extract_lets -useContext +onlyGivenNames x; refine (fun (hx : Keeps ps z x) => ?_) ?_; clear_value x; revert x; intro _ _; rotate_left; unfold x; clear x; rotate_left)
    | (extract_lets -useContext +onlyGivenNames x; refine (fun (hx : KeepsO ps z x) => ?_) ?_; clear_value x; revert x; intro _ _; rotate_left; unfold x; clear x; rotate_left)
    | with_reducible exact keepsO_get (by assumption)
    | (extract_lets -useContext +onlyGivenNames x; revert x; intro _)
    | exact keepsO_none
    | with_reducible refine keepsO_some ?_
    | with_reducible refine State.setReg_keeps (sub_of (by decide) hp) ?_
    | split
    | (clear_value *; split)
    | with_reducible refine keepsP_eq ?_ (by assumption)
    | with_reducible refine keepsO_eq ?_ (by assumption)
    | with_reducible refine keepsP_mk ?_

theorem writeIntEnable_keeps {ps z} {s : Sys2Proof.Machine.State} {b : Sys2Proof.Block} {i : Nat} {v : Nat} (hp : [.regs, .outbox] ⊆ ps) (h0 : Keeps ps z s) :
    Keeps ps z (writeIntEnable s b i v) := by
  unfold writeIntEnable
  repeat' first
    | with_reducible assumption
    | with_reducible exact keepsP_fst (by assumption)
    | (extract_lets -useContext +onlyGivenNames x; refine (fun (hx : Keeps ps z x) => ?_) ?_; clear_value x; revert x; intro _ _; rotate_left; unfold x; clear x; rotate_left)
    | (extract_lets -useContext +onlyGivenNames x; revert x; intro _)
    | with_reducible refine raiseVector_keeps (sub_of (by decide) hp) ?_
    | with_reducible refine State.setReg_keeps (sub_of (by decide) hp) ?_
    | split
    | (clear_value *; split)
    | with_reducible refine keepsP_eq ?_ (by assumption)
    | with_reducible refine keepsO_eq ?_ (by assumption)
    | with_reducible refine keepsP_mk ?_

theorem writeHead_keeps {ps z} {s : Sys2Proof.Machine.State} {b : Sys2Proof.Block} {i : Nat} {po : Nat} {v : Nat} (hp : [.regs, .arr, .vec, .outbox] ⊆ ps) (h0 : Keeps ps z s) :
    KeepsO ps z (writeHead s b i po v) := by
  unfold writeHead
  repeat' first
    | with_reducible assumption
    | with_reducible exact keepsP_fst (by assumption)
    | (extract_lets -useContext +onlyGivenNames x; refine (fun (hx : Keeps ps z x) => ?_) ?_; clear_value x; revert x; intro _ _; rotate_left; unfold x; clear x; rotate_left)
    | (extract_lets -useContext +onlyGivenNames x; refine (fun (hx : KeepsO ps z x) => ?_) ?_; clear_value x; revert x; intro _ _; rotate_left; unfold x; clear x; rotate_left)
    | with_reducible exact keepsO_get (by assumption)
    | (extract_lets -useContext +onlyGivenNames x; revert x; intro _)
    | exact keepsO_none
    | with_reducible refine keepsO_some ?_
    | with_reducible refine writeSel_keeps (sub_of (by decide) hp) ?_
    | with_reducible refine keepsO_eq (writeSel_keeps (sub_of (by decide) hp) ?_) (by assumption)
    | with_reducible refine clearErr_keeps (sub_of (by decide) hp) ?_
    | with_reducible refine writeIntEnable_keeps (sub_of (by decide) hp) ?_
    | with_reducible refine State.setReg_keeps (sub_of (by decide) hp) ?_
    | split
    | (clear_value *; split)
    | with_reducible refine keepsP_eq ?_ (by assumption)
    | with_reducible refine keepsO_eq ?_ (by assumption)
    | with_reducible refine keepsP_mk ?_

theorem writeSeqReg_keeps {ps z} {s : Sys2Proof.Machine.State} {n : Nat} {o : Nat} {v : Nat} (hp : [.regs, .mem, .outbox, .bridge] ⊆ ps) (h0 : Keeps ps z s) :
    KeepsO ps z (writeSeqReg s n o v) := by
  unfold writeSeqReg
  repeat' first
    | with_reducible assumption
    | with_reducible exact keepsP_fst (by assumption)
    | (extract_lets -useContext +onlyGivenNames x; refine (fun (hx : Keeps ps z x) => ?_) ?_; clear_value x; revert x; intro _ _; rotate_left; unfold x; clear x; rotate_left)
    | (extract_lets -useContext +onlyGivenNames x; refine (fun (hx : KeepsO ps z x) => ?_) ?_; clear_value x; revert x; intro _ _; rotate_left; unfold x; clear x; rotate_left)
    | with_reducible exact keepsO_get (by assumption)
    | (extract_lets -useContext +onlyGivenNames x; revert x; intro _)
    | exact keepsO_none
    | with_reducible refine keepsO_some ?_
    | with_reducible refine writeTraceHead_keeps (sub_of (by decide) hp) ?_
    | with_reducible refine logIgnored_keeps (sub_of (by decide) hp) ?_
    | with_reducible refine State.setSeqReg_keeps (sub_of (by decide) hp) ?_
    | split
    | (clear_value *; split)
    | with_reducible refine keepsP_eq ?_ (by assumption)
    | with_reducible refine keepsO_eq ?_ (by assumption)
    | with_reducible refine keepsP_mk ?_

set_option maxRecDepth 20000 in
theorem writeArrayWord_keeps {ps z} {s : Sys2Proof.Machine.State} {b : Sys2Proof.Block} {n : Nat} {po : Nat} {v : Nat} {priv : Bool} (hp : [.regs, .mem, .arr, .vec, .als, .alsScrub, .dma, .ctx, .outbox, .draws, .bridge] ⊆ ps) (h0 : Keeps ps z s) :
    KeepsO ps z (writeArrayWord s b n po v priv) := by
  unfold writeArrayWord
  repeat' first
    | with_reducible assumption
    | with_reducible exact keepsP_fst (by assumption)
    | (extract_lets -useContext +onlyGivenNames x; refine (fun (hx : Keeps ps z x) => ?_) ?_; clear_value x; revert x; intro _ _; rotate_left; unfold x; clear x; rotate_left)
    | (extract_lets -useContext +onlyGivenNames x; refine (fun (hx : KeepsO ps z x) => ?_) ?_; clear_value x; revert x; intro _ _; rotate_left; unfold x; clear x; rotate_left)
    | with_reducible exact keepsO_get (by assumption)
    | (extract_lets -useContext +onlyGivenNames x; revert x; intro _)
    | exact keepsO_none
    | with_reducible refine keepsO_some ?_
    | with_reducible refine plainWrite_keeps (sub_of (by decide) hp) ?_
    | with_reducible refine requestScrub_keeps (sub_of (by decide) hp) ?_
    | with_reducible refine writeSeqReg_keeps (sub_of (by decide) hp) ?_
    | with_reducible refine keepsO_eq (writeSeqReg_keeps (sub_of (by decide) hp) ?_) (by assumption)
    | with_reducible refine State.setReg_keeps (sub_of (by decide) hp) ?_
    | split
    | (clear_value *; split)
    | with_reducible refine keepsP_eq ?_ (by assumption)
    | with_reducible refine keepsO_eq ?_ (by assumption)
    | with_reducible refine keepsP_mk ?_

theorem applyArrayWrite_keeps {ps z} {s : Sys2Proof.Machine.State} {w : Nat × Nat × Bool} (hp : [.regs, .mem, .arr, .vec, .als, .alsScrub, .dma, .ctx, .outbox, .draws, .bridge] ⊆ ps) (h0 : Keeps ps z s) :
    Keeps ps z (applyArrayWrite s w) := by
  unfold applyArrayWrite
  repeat' first
    | with_reducible assumption
    | with_reducible exact keepsP_fst (by assumption)
    | (extract_lets -useContext +onlyGivenNames x; refine (fun (hx : Keeps ps z x) => ?_) ?_; clear_value x; revert x; intro _ _; rotate_left; unfold x; clear x; rotate_left)
    | (extract_lets -useContext +onlyGivenNames x; refine (fun (hx : KeepsO ps z x) => ?_) ?_; clear_value x; revert x; intro _ _; rotate_left; unfold x; clear x; rotate_left)
    | with_reducible exact keepsO_get (by assumption)
    | (extract_lets -useContext +onlyGivenNames x; revert x; intro _)
    | with_reducible refine logIgnored_keeps (sub_of (by decide) hp) ?_
    | with_reducible refine writeArrayWord_keeps (sub_of (by decide) hp) ?_
    | with_reducible refine keepsO_eq (writeArrayWord_keeps (sub_of (by decide) hp) ?_) (by assumption)
    | with_reducible refine writeHead_keeps (sub_of (by decide) hp) ?_
    | with_reducible refine keepsO_eq (writeHead_keeps (sub_of (by decide) hp) ?_) (by assumption)
    | split
    | (clear_value *; split)
    | with_reducible refine keepsP_eq ?_ (by assumption)
    | with_reducible refine keepsO_eq ?_ (by assumption)
    | with_reducible refine keepsP_mk ?_

theorem wakeIsland_keeps {ps z} {s : Sys2Proof.Machine.State} {n : Nat} (hp : [.regs, .isl, .mem, .arr, .vec, .als, .alsScrub, .dma, .ctx, .seq, .outbox, .draws, .bridge] ⊆ ps) (h0 : Keeps ps z s) :
    Keeps ps z (wakeIsland s n) := by
  unfold wakeIsland
  repeat' first
    | with_reducible assumption
    | with_reducible exact keepsP_fst (by assumption)
    | (extract_lets -useContext +onlyGivenNames x; refine (fun (hx : Keeps ps z x) => ?_) ?_; clear_value x; revert x; intro _ _; rotate_left; unfold x; clear x; rotate_left)
    | (extract_lets -useContext +onlyGivenNames x; revert x; intro _)
    | with_reducible refine State.setIsl_keeps (sub_of (by decide) hp) ?_
    | with_reducible refine applyArrayWrite_keeps (sub_of (by decide) hp) ?_
    | with_reducible refine countSignal_keeps (sub_of (by decide) hp) ?_
    | with_reducible refine keeps_foldl (fun t a ht => ?_) ?_
    | with_reducible refine keepsP_foldl (fun t a ht => ?_) ?_
    | split
    | (clear_value *; split)
    | with_reducible refine keepsP_eq ?_ (by assumption)
    | with_reducible refine keepsO_eq ?_ (by assumption)
    | with_reducible refine keepsP_mk ?_

end Sys2Proof.Machine
end

