-- ==== Sys2Proof/Laws/FrameContexts.lean ====
section
/-!
SUPPORT. Frames: for each operation of Sys2Proof/Machine/Contexts.lean, the parts of State it may change, and that it keeps the stores'
canonical form.
-/
namespace Sys2Proof.Machine

open Sys2Proof

theorem execCtxCreate_keeps {ps z} {q : Sys2Proof.QueueId} {s : Sys2Proof.Machine.State} (hp : [.regs, .ctx, .queues] ⊆ ps) (h1 : Keeps ps z s) :
    KeepsR ps z (execCtxCreate q s) := by
  unfold execCtxCreate
  repeat' first
    | with_reducible assumption
    | with_reducible exact keepsP_fst (by assumption)
    | (extract_lets -useContext +onlyGivenNames x; refine (fun (hx : Keeps ps z x) => ?_) ?_; clear_value x; revert x; intro _ _; rotate_left; unfold x; clear x; rotate_left)
    | (extract_lets -useContext +onlyGivenNames x; revert x; intro _)
    | with_reducible refine keepsR_next ?_
    | with_reducible exact keepsR_fault
    | with_reducible refine doneCmd_keeps (sub_of (by decide) hp) ?_
    | with_reducible refine State.setReg_keeps (sub_of (by decide) hp) ?_
    | with_reducible refine State.setCtx_keeps (sub_of (by decide) hp) ?_
    | with_reducible refine failCmd_keeps (sub_of (by decide) hp) ?_
    | split
    | (clear_value *; split)
    | with_reducible refine keepsP_eq ?_ (by assumption)
    | with_reducible refine keepsO_eq ?_ (by assumption)
    | with_reducible refine keepsP_mk ?_

theorem execCtxDestroy_keeps {ps z} {q : Sys2Proof.QueueId} {s : Sys2Proof.Machine.State} (hp : [.regs, .ctx, .queues, .xch, .cat] ⊆ ps) (h1 : Keeps ps z s) :
    KeepsR ps z (execCtxDestroy q s) := by
  unfold execCtxDestroy
  repeat' first
    | with_reducible assumption
    | with_reducible exact keepsP_fst (by assumption)
    | (extract_lets -useContext +onlyGivenNames x; refine (fun (hx : Keeps ps z x) => ?_) ?_; clear_value x; revert x; intro _ _; rotate_left; unfold x; clear x; rotate_left)
    | (extract_lets -useContext +onlyGivenNames x; revert x; intro _)
    | with_reducible refine keepsR_next ?_
    | with_reducible exact keepsR_fault
    | with_reducible refine doneCmd_keeps (sub_of (by decide) hp) ?_
    | with_reducible refine State.setCtx_keeps (sub_of (by decide) hp) ?_
    | with_reducible refine loseSlots_keeps (sub_of (by decide) hp) ?_
    | with_reducible refine State.setField_keeps (sub_of (by decide) hp) ?_
    | with_reducible refine failCmd_keeps (sub_of (by decide) hp) ?_
    | split
    | (clear_value *; split)
    | with_reducible refine keepsP_eq ?_ (by assumption)
    | with_reducible refine keepsO_eq ?_ (by assumption)
    | with_reducible refine keepsP_mk ?_

theorem execQueueCreate_keeps {ps z} {q : Sys2Proof.QueueId} {s : Sys2Proof.Machine.State} (hp : [.queues] ⊆ ps) (h1 : Keeps ps z s) :
    KeepsR ps z (execQueueCreate q s) := by
  unfold execQueueCreate
  repeat' first
    | with_reducible assumption
    | with_reducible exact keepsP_fst (by assumption)
    | (extract_lets -useContext +onlyGivenNames x; refine (fun (hx : Keeps ps z x) => ?_) ?_; clear_value x; revert x; intro _ _; rotate_left; unfold x; clear x; rotate_left)
    | (extract_lets -useContext +onlyGivenNames x; have _hx : ∀ a, x a = x a := fun _ => rfl; clear _hx; unfold x; clear x)
    | (extract_lets -useContext +onlyGivenNames x; revert x; intro _)
    | with_reducible refine keepsR_next ?_
    | with_reducible exact keepsR_fault
    | with_reducible refine State.setQueue_keeps (sub_of (by decide) hp) ?_
    | with_reducible refine doneCmd_keeps (sub_of (by decide) hp) ?_
    | with_reducible refine failCmd_keeps (sub_of (by decide) hp) ?_
    | split
    | (clear_value *; split)
    | with_reducible refine keepsP_eq ?_ (by assumption)
    | with_reducible refine keepsO_eq ?_ (by assumption)
    | with_reducible refine keepsP_mk ?_

theorem execQueueResume_keeps {ps z} {q : Sys2Proof.QueueId} {s : Sys2Proof.Machine.State} (hp : [.queues] ⊆ ps) (h1 : Keeps ps z s) :
    KeepsR ps z (execQueueResume q s) := by
  unfold execQueueResume
  repeat' first
    | with_reducible assumption
    | with_reducible exact keepsP_fst (by assumption)
    | (extract_lets -useContext +onlyGivenNames x; refine (fun (hx : Keeps ps z x) => ?_) ?_; clear_value x; revert x; intro _ _; rotate_left; unfold x; clear x; rotate_left)
    | (extract_lets -useContext +onlyGivenNames x; revert x; intro _)
    | with_reducible refine keepsR_next ?_
    | with_reducible exact keepsR_fault
    | with_reducible refine State.setQueue_keeps (sub_of (by decide) hp) ?_
    | with_reducible refine doneCmd_keeps (sub_of (by decide) hp) ?_
    | with_reducible refine failCmd_keeps (sub_of (by decide) hp) ?_
    | split
    | (clear_value *; split)
    | with_reducible refine keepsP_eq ?_ (by assumption)
    | with_reducible refine keepsO_eq ?_ (by assumption)
    | with_reducible refine keepsP_mk ?_

theorem startIsland_keeps {ps z} {s : Sys2Proof.Machine.State} {p : Nat} (hp : [.regs, .isl, .mem, .arr, .vec, .als, .alsScrub, .dma, .ctx, .seq, .outbox, .draws, .pwr, .bridge] ⊆ ps) (h0 : Keeps ps z s) :
    Keeps ps z (startIsland s p) := by
  unfold startIsland
  repeat' first
    | with_reducible assumption
    | with_reducible exact keepsP_fst (by assumption)
    | (extract_lets -useContext +onlyGivenNames x; refine (fun (hx : Keeps ps z x) => ?_) ?_; clear_value x; revert x; intro _ _; rotate_left; unfold x; clear x; rotate_left)
    | (extract_lets -useContext +onlyGivenNames x; revert x; intro _)
    | with_reducible refine settleArr_keeps (sub_of (by decide) hp) ?_
    | with_reducible refine wakeIsland_keeps (sub_of (by decide) hp) ?_
    | split
    | (clear_value *; split)
    | with_reducible refine keepsP_eq ?_ (by assumption)
    | with_reducible refine keepsO_eq ?_ (by assumption)
    | with_reducible refine keepsP_mk ?_

theorem mapArray_keeps {ps z} {s : Sys2Proof.Machine.State} {k : Nat} {l : Nat} {p : Nat} (hp : [.regs, .isl, .mem, .arr, .vec, .als, .alsScrub, .dma, .ctx, .seq, .outbox, .draws, .pwr, .bridge] ⊆ ps) (h0 : Keeps ps z s) :
    Keeps ps z (mapArray s k l p) := by
  unfold mapArray
  repeat' first
    | with_reducible assumption
    | with_reducible exact keepsP_fst (by assumption)
    | (extract_lets -useContext +onlyGivenNames x; refine (fun (hx : Keeps ps z x) => ?_) ?_; clear_value x; revert x; intro _ _; rotate_left; unfold x; clear x; rotate_left)
    | (extract_lets -useContext +onlyGivenNames x; revert x; intro _)
    | with_reducible refine State.setCtx_keeps (sub_of (by decide) hp) ?_
    | with_reducible refine startIsland_keeps (sub_of (by decide) hp) ?_
    | split
    | (clear_value *; split)
    | with_reducible refine keepsP_eq ?_ (by assumption)
    | with_reducible refine keepsO_eq ?_ (by assumption)
    | with_reducible refine keepsP_mk ?_

theorem unmapArray_keeps {ps z} {s : Sys2Proof.Machine.State} {k : Nat} {l : Nat} {p : Nat} (hp : [.regs, .isl, .mem, .arr, .als, .ctx, .holder, .seq, .outbox, .pwr, .bridge] ⊆ ps) (h0 : Keeps ps z s) :
    Keeps ps z (unmapArray s k l p) := by
  unfold unmapArray
  repeat' first
    | with_reducible assumption
    | with_reducible exact keepsP_fst (by assumption)
    | (extract_lets -useContext +onlyGivenNames x; refine (fun (hx : Keeps ps z x) => ?_) ?_; clear_value x; revert x; intro _ _; rotate_left; unfold x; clear x; rotate_left)
    | (extract_lets -useContext +onlyGivenNames x; revert x; intro _)
    | with_reducible refine State.setIsl_keeps (sub_of (by decide) hp) ?_
    | with_reducible refine scrubAls_keeps (sub_of (by decide) hp) ?_
    | with_reducible refine State.setHolder_keeps (sub_of (by decide) hp) ?_
    | with_reducible refine State.setCtx_keeps (sub_of (by decide) hp) ?_
    | with_reducible refine settleArr_keeps (sub_of (by decide) hp) ?_
    | split
    | (clear_value *; split)
    | with_reducible refine keepsP_eq ?_ (by assumption)
    | with_reducible refine keepsO_eq ?_ (by assumption)
    | with_reducible refine keepsP_mk ?_

theorem execArrayAssign_keeps {ps z} {q : Sys2Proof.QueueId} {s : Sys2Proof.Machine.State} (hp : [.regs, .isl, .mem, .arr, .vec, .als, .alsScrub, .dma, .ctx, .queues, .holder, .seq, .outbox, .draws, .pwr, .bridge] ⊆ ps) (h1 : Keeps ps z s) :
    KeepsR ps z (execArrayAssign q s) := by
  unfold execArrayAssign
  repeat' first
    | with_reducible assumption
    | with_reducible exact keepsP_fst (by assumption)
    | (extract_lets -useContext +onlyGivenNames x; refine (fun (hx : Keeps ps z x) => ?_) ?_; clear_value x; revert x; intro _ _; rotate_left; unfold x; clear x; rotate_left)
    | (extract_lets -useContext +onlyGivenNames x; revert x; intro _)
    | with_reducible refine keepsR_next ?_
    | with_reducible exact keepsR_fault
    | with_reducible refine mapArray_keeps (sub_of (by decide) hp) ?_
    | with_reducible refine unmapArray_keeps (sub_of (by decide) hp) ?_
    | with_reducible refine doneCmd_keeps (sub_of (by decide) hp) ?_
    | with_reducible refine failCmd_keeps (sub_of (by decide) hp) ?_
    | split
    | (clear_value *; split)
    | with_reducible refine keepsP_eq ?_ (by assumption)
    | with_reducible refine keepsO_eq ?_ (by assumption)
    | with_reducible refine keepsP_mk ?_

theorem seedKeys_keeps {ps z} {s : Sys2Proof.Machine.State} (hp : [.draws, .mgmt] ⊆ ps) (h0 : Keeps ps z s) :
    Keeps ps z (seedKeys s) := by
  unfold seedKeys
  repeat' first
    | with_reducible assumption
    | with_reducible exact keepsP_fst (by assumption)
    | (extract_lets -useContext +onlyGivenNames x; refine (fun (hx : Keeps ps z x) => ?_) ?_; clear_value x; revert x; intro _ _; rotate_left; unfold x; clear x; rotate_left)
    | (extract_lets -useContext +onlyGivenNames x; refine (fun (hx : KeepsP ps z x) => ?_) ?_; clear_value x; revert x; intro _ _; rotate_left; unfold x; clear x; rotate_left)
    | (extract_lets -useContext +onlyGivenNames x; revert x; intro _)
    | with_reducible refine freeBytes_keeps (sub_of (by decide) hp) ?_
    | with_reducible refine keepsP_fst (freeBytes_keeps (sub_of (by decide) hp) ?_)
    | with_reducible refine keepsP_eq (freeBytes_keeps (sub_of (by decide) hp) ?_) (by assumption)
    | split
    | (clear_value *; split)
    | with_reducible refine keeps_with_mgmt (mem_of (by decide) hp) ?_
    | with_reducible refine keepsP_eq ?_ (by assumption)
    | with_reducible refine keepsO_eq ?_ (by assumption)
    | with_reducible refine keepsP_mk ?_

theorem drawKey_keeps {ps z} {s : Sys2Proof.Machine.State} {n : Nat} (hp : [.draws, .mgmt] ⊆ ps) (h0 : Keeps ps z s) :
    KeepsP ps z (drawKey s n) := by
  unfold drawKey
  repeat' first
    | with_reducible assumption
    | with_reducible exact keepsP_fst (by assumption)
    | (extract_lets -useContext +onlyGivenNames x; refine (fun (hx : Keeps ps z x) => ?_) ?_; clear_value x; revert x; intro _ _; rotate_left; unfold x; clear x; rotate_left)
    | (extract_lets -useContext +onlyGivenNames x; refine (fun (hx : KeepsP ps z x) => ?_) ?_; clear_value x; revert x; intro _ _; rotate_left; unfold x; clear x; rotate_left)
    | (extract_lets -useContext +onlyGivenNames x; revert x; intro _)
    | with_reducible refine freeBytes_keeps (sub_of (by decide) hp) ?_
    | with_reducible refine keepsP_fst (freeBytes_keeps (sub_of (by decide) hp) ?_)
    | with_reducible refine keepsP_eq (freeBytes_keeps (sub_of (by decide) hp) ?_) (by assumption)
    | split
    | (clear_value *; split)
    | with_reducible refine keeps_with_mgmt (mem_of (by decide) hp) ?_
    | with_reducible refine keepsP_eq ?_ (by assumption)
    | with_reducible refine keepsO_eq ?_ (by assumption)
    | with_reducible refine keepsP_mk ?_

theorem newKey_keeps {ps z} {s : Sys2Proof.Machine.State} {owner : Nat} (hp : [.mem, .draws, .mgmt] ⊆ ps) (h0 : Keeps ps z s) :
    Keeps ps z (newKey s owner) := by
  unfold newKey
  repeat' first
    | with_reducible assumption
    | with_reducible exact keepsP_fst (by assumption)
    | (extract_lets -useContext +onlyGivenNames x; refine (fun (hx : Keeps ps z x) => ?_) ?_; clear_value x; revert x; intro _ _; rotate_left; unfold x; clear x; rotate_left)
    | (extract_lets -useContext +onlyGivenNames x; refine (fun (hx : KeepsP ps z x) => ?_) ?_; clear_value x; revert x; intro _ _; rotate_left; unfold x; clear x; rotate_left)
    | (extract_lets -useContext +onlyGivenNames x; revert x; intro _)
    | with_reducible refine drawKey_keeps (sub_of (by decide) hp) ?_
    | with_reducible refine keepsP_fst (drawKey_keeps (sub_of (by decide) hp) ?_)
    | with_reducible refine keepsP_eq (drawKey_keeps (sub_of (by decide) hp) ?_) (by assumption)
    | split
    | (clear_value *; split)
    | with_reducible refine keeps_with_mem (mem_of (by decide) hp) (fun w => w.mem) ?_
    | with_reducible refine keepsP_eq ?_ (by assumption)
    | with_reducible refine keepsO_eq ?_ (by assumption)
    | with_reducible refine keepsP_mk ?_

theorem dropKey_keeps {ps z} {s : Sys2Proof.Machine.State} {owner : Nat} (hp : [.mem] ⊆ ps) (h0 : Keeps ps z s) :
    Keeps ps z (dropKey s owner) := by
  unfold dropKey
  repeat' first
    | with_reducible assumption
    | with_reducible exact keepsP_fst (by assumption)
    | (extract_lets -useContext +onlyGivenNames x; refine (fun (hx : Keeps ps z x) => ?_) ?_; clear_value x; revert x; intro _ _; rotate_left; unfold x; clear x; rotate_left)
    | (extract_lets -useContext +onlyGivenNames x; revert x; intro _)
    | split
    | (clear_value *; split)
    | with_reducible refine keeps_with_mem (mem_of (by decide) hp) (fun w => w.mem) ?_
    | with_reducible refine keepsP_eq ?_ (by assumption)
    | with_reducible refine keepsO_eq ?_ (by assumption)
    | with_reducible refine keepsP_mk ?_

theorem execKeyBind_keeps {ps z} {q : Sys2Proof.QueueId} {s : Sys2Proof.Machine.State} (hp : [.mem, .queues, .draws, .mgmt] ⊆ ps) (h1 : Keeps ps z s) :
    KeepsR ps z (execKeyBind q s) := by
  unfold execKeyBind
  repeat' first
    | with_reducible assumption
    | with_reducible exact keepsP_fst (by assumption)
    | (extract_lets -useContext +onlyGivenNames x; refine (fun (hx : Keeps ps z x) => ?_) ?_; clear_value x; revert x; intro _ _; rotate_left; unfold x; clear x; rotate_left)
    | (extract_lets -useContext +onlyGivenNames x; revert x; intro _)
    | with_reducible refine keepsR_next ?_
    | with_reducible exact keepsR_fault
    | with_reducible refine dropKey_keeps (sub_of (by decide) hp) ?_
    | with_reducible refine newKey_keeps (sub_of (by decide) hp) ?_
    | with_reducible refine doneCmd_keeps (sub_of (by decide) hp) ?_
    | with_reducible refine failCmd_keeps (sub_of (by decide) hp) ?_
    | split
    | (clear_value *; split)
    | with_reducible refine keepsP_eq ?_ (by assumption)
    | with_reducible refine keepsO_eq ?_ (by assumption)
    | with_reducible refine keepsP_mk ?_

theorem execTlbInval_keeps {ps z} {q : Sys2Proof.QueueId} {s : Sys2Proof.Machine.State} (hp : [.mmu, .queues] ⊆ ps) (h1 : Keeps ps z s) :
    KeepsR ps z (execTlbInval q s) := by
  unfold execTlbInval
  repeat' first
    | with_reducible assumption
    | with_reducible exact keepsP_fst (by assumption)
    | (extract_lets -useContext +onlyGivenNames x; refine (fun (hx : Keeps ps z x) => ?_) ?_; clear_value x; revert x; intro _ _; rotate_left; unfold x; clear x; rotate_left)
    | (extract_lets -useContext +onlyGivenNames x; revert x; intro _)
    | with_reducible refine keepsR_next ?_
    | with_reducible exact keepsR_fault
    | with_reducible refine updCmd_keeps (sub_of (by decide) hp) ?_
    | with_reducible refine startInval_keeps (sub_of (by decide) hp) ?_
    | with_reducible refine failCmd_keeps (sub_of (by decide) hp) ?_
    | with_reducible refine doneCmd_keeps (sub_of (by decide) hp) ?_
    | split
    | (clear_value *; split)
    | with_reducible refine keepsP_eq ?_ (by assumption)
    | with_reducible refine keepsO_eq ?_ (by assumption)
    | with_reducible refine keepsP_mk ?_

theorem execInvalidationComplete_keeps {ps z} {s : Sys2Proof.Machine.State} (hp : [.mmu, .queues] ⊆ ps) (h0 : Keeps ps z s) :
    KeepsR ps z (execInvalidationComplete s) := by
  unfold execInvalidationComplete
  repeat' first
    | with_reducible assumption
    | with_reducible exact keepsP_fst (by assumption)
    | (extract_lets -useContext +onlyGivenNames x; refine (fun (hx : Keeps ps z x) => ?_) ?_; clear_value x; revert x; intro _ _; rotate_left; unfold x; clear x; rotate_left)
    | (extract_lets -useContext +onlyGivenNames x; revert x; intro _)
    | with_reducible refine keepsR_next ?_
    | with_reducible exact keepsR_fault
    | with_reducible refine doneCmd_keeps (sub_of (by decide) hp) ?_
    | split
    | (clear_value *; split)
    | with_reducible refine keeps_with_mmu (mem_of (by decide) hp) ?_
    | with_reducible refine keepsP_eq ?_ (by assumption)
    | with_reducible refine keepsO_eq ?_ (by assumption)
    | with_reducible refine keepsP_mk ?_

theorem zeroBlocks_keeps {ps z} {s : Sys2Proof.Machine.State} {owner : Nat} {pa : Nat} {n : Nat} (hp : [.regs, .mem] ⊆ ps) (h0 : Keeps ps z s) :
    Keeps ps z (zeroBlocks s owner pa n) := by
  unfold zeroBlocks
  repeat' first
    | with_reducible assumption
    | with_reducible exact keepsP_fst (by assumption)
    | (extract_lets -useContext +onlyGivenNames x; refine (fun (hx : Keeps ps z x) => ?_) ?_; clear_value x; revert x; intro _ _; rotate_left; unfold x; clear x; rotate_left)
    | (extract_lets -useContext +onlyGivenNames x; refine (fun (hx : KeepsP ps z x) => ?_) ?_; clear_value x; revert x; intro _ _; rotate_left; unfold x; clear x; rotate_left)
    | (extract_lets -useContext +onlyGivenNames x; revert x; intro _)
    | with_reducible refine writeBlk_keeps (sub_of (by decide) hp) ?_
    | with_reducible refine keepsP_fst (writeBlk_keeps (sub_of (by decide) hp) ?_)
    | with_reducible refine keepsP_eq (writeBlk_keeps (sub_of (by decide) hp) ?_) (by assumption)
    | with_reducible refine keeps_foldl (fun t a ht => ?_) ?_
    | with_reducible refine keepsP_foldl (fun t a ht => ?_) ?_
    | split
    | (clear_value *; split)
    | with_reducible refine keepsP_eq ?_ (by assumption)
    | with_reducible refine keepsO_eq ?_ (by assumption)
    | with_reducible refine keepsP_mk ?_

theorem execMemInit_keeps {ps z} {q : Sys2Proof.QueueId} {s : Sys2Proof.Machine.State} (hp : [.regs, .mem, .queues, .bridge] ⊆ ps) (h1 : Keeps ps z s) :
    KeepsR ps z (execMemInit q s) := by
  unfold execMemInit
  repeat' first
    | with_reducible assumption
    | with_reducible exact keepsP_fst (by assumption)
    | (extract_lets -useContext +onlyGivenNames x; refine (fun (hx : Keeps ps z x) => ?_) ?_; clear_value x; revert x; intro _ _; rotate_left; unfold x; clear x; rotate_left)
    | (extract_lets -useContext +onlyGivenNames x; revert x; intro _)
    | with_reducible refine keepsR_next ?_
    | with_reducible exact keepsR_fault
    | with_reducible refine zeroBlocks_keeps (sub_of (by decide) hp) ?_
    | with_reducible refine doneCmd_keeps (sub_of (by decide) hp) ?_
    | with_reducible refine failCmd_keeps (sub_of (by decide) hp) ?_
    | with_reducible refine reach_keeps (sub_of (by decide) hp) ?_
    | split
    | (clear_value *; split)
    | with_reducible refine keepsP_eq ?_ (by assumption)
    | with_reducible refine keepsO_eq ?_ (by assumption)
    | with_reducible refine keepsP_mk ?_

theorem writeKqCfg_keeps {ps z} {s : Sys2Proof.Machine.State} {k : Nat} {v : Nat} (hp : [.regs, .queues] ⊆ ps) (h0 : Keeps ps z s) :
    KeepsO ps z (writeKqCfg s k v) := by
  unfold writeKqCfg
  repeat' first
    | with_reducible assumption
    | with_reducible exact keepsP_fst (by assumption)
    | (extract_lets -useContext +onlyGivenNames x; refine (fun (hx : Keeps ps z x) => ?_) ?_; clear_value x; revert x; intro _ _; rotate_left; unfold x; clear x; rotate_left)
    | (extract_lets -useContext +onlyGivenNames x; refine (fun (hx : KeepsO ps z x) => ?_) ?_; clear_value x; revert x; intro _ _; rotate_left; unfold x; clear x; rotate_left)
    | with_reducible exact keepsO_get (by assumption)
    | (extract_lets -useContext +onlyGivenNames x; revert x; intro _)
    | exact keepsO_none
    | with_reducible refine keepsO_some ?_
    | with_reducible refine State.setReg_keeps (sub_of (by decide) hp) ?_
    | with_reducible refine State.setQueue_keeps (sub_of (by decide) hp) ?_
    | split
    | (clear_value *; split)
    | with_reducible refine keepsP_eq ?_ (by assumption)
    | with_reducible refine keepsO_eq ?_ (by assumption)
    | with_reducible refine keepsP_mk ?_

theorem execQuantumExpiry_keeps {ps z} {n : Sys2Proof.ArrayId} {s : Sys2Proof.Machine.State} (hp : [.holder] ⊆ ps) (h1 : Keeps ps z s) :
    KeepsR ps z (execQuantumExpiry n s) := by
  unfold execQuantumExpiry
  repeat' first
    | with_reducible assumption
    | with_reducible exact keepsP_fst (by assumption)
    | (extract_lets -useContext +onlyGivenNames x; refine (fun (hx : Keeps ps z x) => ?_) ?_; clear_value x; revert x; intro _ _; rotate_left; unfold x; clear x; rotate_left)
    | (extract_lets -useContext +onlyGivenNames x; revert x; intro _)
    | with_reducible refine keepsR_next ?_
    | with_reducible exact keepsR_fault
    | with_reducible refine State.setHolder_keeps (sub_of (by decide) hp) ?_
    | split
    | (clear_value *; split)
    | with_reducible refine keepsP_eq ?_ (by assumption)
    | with_reducible refine keepsO_eq ?_ (by assumption)
    | with_reducible refine keepsP_mk ?_

theorem saveRun_keeps {ps z} {s : Sys2Proof.Machine.State} {die : Nat} {a : Nat} {data : List Sys2Proof.Byte} {p : List Bool} (hp : [.regs, .mem, .outbox, .bridge] ⊆ ps) (h0 : Keeps ps z s) :
    Keeps ps z (saveRun s die a data p) := by
  unfold saveRun
  repeat' first
    | with_reducible assumption
    | with_reducible exact keepsP_fst (by assumption)
    | (extract_lets -useContext +onlyGivenNames x; refine (fun (hx : Keeps ps z x) => ?_) ?_; clear_value x; revert x; intro _ _; rotate_left; unfold x; clear x; rotate_left)
    | (extract_lets -useContext +onlyGivenNames x; refine (fun (hx : KeepsP ps z x) => ?_) ?_; clear_value x; revert x; intro _ _; rotate_left; unfold x; clear x; rotate_left)
    | (extract_lets -useContext +onlyGivenNames x; revert x; intro _)
    | with_reducible refine poisonUnits_keeps (sub_of (by decide) hp) ?_
    | with_reducible refine writeFrom_keeps (sub_of (by decide) hp) ?_
    | with_reducible refine keepsP_fst (writeFrom_keeps (sub_of (by decide) hp) ?_)
    | with_reducible refine keepsP_eq (writeFrom_keeps (sub_of (by decide) hp) ?_) (by assumption)
    | split
    | (clear_value *; split)
    | with_reducible refine keepsP_eq ?_ (by assumption)
    | with_reducible refine keepsO_eq ?_ (by assumption)
    | with_reducible refine keepsP_mk ?_

theorem saveArray_keeps {ps z} {s : Sys2Proof.Machine.State} {n : Nat} {k : Nat} {l : Nat} (hp : [.regs, .mem, .ctx, .outbox, .bridge] ⊆ ps) (h0 : Keeps ps z s) :
    Keeps ps z (saveArray s n k l) := by
  unfold saveArray
  repeat' first
    | with_reducible assumption
    | with_reducible exact keepsP_fst (by assumption)
    | (extract_lets -useContext +onlyGivenNames x; refine (fun (hx : Keeps ps z x) => ?_) ?_; clear_value x; revert x; intro _ _; rotate_left; unfold x; clear x; rotate_left)
    | (extract_lets -useContext +onlyGivenNames x; revert x; intro _)
    | with_reducible refine State.setCtx_keeps (sub_of (by decide) hp) ?_
    | with_reducible refine saveRun_keeps (sub_of (by decide) hp) ?_
    | with_reducible refine keeps_foldl (fun t a ht => ?_) ?_
    | with_reducible refine keepsP_foldl (fun t a ht => ?_) ?_
    | split
    | (clear_value *; split)
    | with_reducible refine keepsP_eq ?_ (by assumption)
    | with_reducible refine keepsO_eq ?_ (by assumption)
    | with_reducible refine keepsP_mk ?_

theorem countSave_keeps {ps z} {s : Sys2Proof.Machine.State} {n : Nat} (hp : [.regs] ⊆ ps) (h0 : Keeps ps z s) :
    Keeps ps z (countSave s n) := by
  unfold countSave
  repeat' first
    | with_reducible assumption
    | with_reducible exact keepsP_fst (by assumption)
    | (extract_lets -useContext +onlyGivenNames x; refine (fun (hx : Keeps ps z x) => ?_) ?_; clear_value x; revert x; intro _ _; rotate_left; unfold x; clear x; rotate_left)
    | (extract_lets -useContext +onlyGivenNames x; revert x; intro _)
    | with_reducible refine State.setReg_keeps (sub_of (by decide) hp) ?_
    | split
    | (clear_value *; split)
    | with_reducible refine keepsP_eq ?_ (by assumption)
    | with_reducible refine keepsO_eq ?_ (by assumption)
    | with_reducible refine keepsP_mk ?_

theorem showRestore_keeps {ps z} {s : Sys2Proof.Machine.State} {n : Nat} (hp : [.regs, .draws] ⊆ ps) (h0 : Keeps ps z s) :
    Keeps ps z (showRestore s n) := by
  unfold showRestore
  repeat' first
    | with_reducible assumption
    | with_reducible exact keepsP_fst (by assumption)
    | (extract_lets -useContext +onlyGivenNames x; refine (fun (hx : Keeps ps z x) => ?_) ?_; clear_value x; revert x; intro _ _; rotate_left; unfold x; clear x; rotate_left)
    | (extract_lets -useContext +onlyGivenNames x; revert x; intro _)
    | with_reducible refine State.setReg_keeps (sub_of (by decide) hp) ?_
    | split
    | (clear_value *; split)
    | with_reducible refine keeps_with_draws (mem_of (by decide) hp) ?_
    | with_reducible refine keepsP_eq ?_ (by assumption)
    | with_reducible refine keepsO_eq ?_ (by assumption)
    | with_reducible refine keepsP_mk ?_

theorem showSave_keeps {ps z} {s : Sys2Proof.Machine.State} {n : Nat} {image : Bool} (hp : [.regs, .draws] ⊆ ps) (h0 : Keeps ps z s) :
    Keeps ps z (showSave s n image) := by
  unfold showSave
  repeat' first
    | with_reducible assumption
    | with_reducible exact keepsP_fst (by assumption)
    | (extract_lets -useContext +onlyGivenNames x; refine (fun (hx : Keeps ps z x) => ?_) ?_; clear_value x; revert x; intro _ _; rotate_left; unfold x; clear x; rotate_left)
    | (extract_lets -useContext +onlyGivenNames x; have _hx : ∀ a, x a = x a := fun _ => rfl; clear _hx; unfold x; clear x)
    | (extract_lets -useContext +onlyGivenNames x; revert x; intro _)
    | with_reducible refine State.setReg_keeps (sub_of (by decide) hp) ?_
    | with_reducible refine countSave_keeps (sub_of (by decide) hp) ?_
    | with_reducible refine showRestore_keeps (sub_of (by decide) hp) ?_
    | split
    | (clear_value *; split)
    | with_reducible refine keeps_with_draws (mem_of (by decide) hp) ?_
    | with_reducible refine keepsP_eq ?_ (by assumption)
    | with_reducible refine keepsO_eq ?_ (by assumption)
    | with_reducible refine keepsP_mk ?_

theorem restoreAcc_keeps {ps z} {s : Sys2Proof.Machine.State} {n : Nat} {base : Nat} (hp : [.regs, .mem, .arr, .outbox, .bridge] ⊆ ps) (h0 : Keeps ps z s) :
    Keeps ps z (restoreAcc s n base) := by
  unfold restoreAcc
  repeat' first
    | with_reducible assumption
    | with_reducible exact keepsP_fst (by assumption)
    | (extract_lets -useContext +onlyGivenNames x; refine (fun (hx : Keeps ps z x) => ?_) ?_; clear_value x; revert x; intro _ _; rotate_left; unfold x; clear x; rotate_left)
    | (extract_lets -useContext +onlyGivenNames x; refine (fun (hx : KeepsP ps z x) => ?_) ?_; clear_value x; revert x; intro _ _; rotate_left; unfold x; clear x; rotate_left)
    | (extract_lets -useContext +onlyGivenNames x; revert x; intro _)
    | with_reducible refine State.setArr_keeps (sub_of (by decide) hp) ?_
    | with_reducible refine readFrom_keeps (sub_of (by decide) hp) ?_
    | with_reducible refine keepsP_fst (readFrom_keeps (sub_of (by decide) hp) ?_)
    | with_reducible refine keepsP_eq (readFrom_keeps (sub_of (by decide) hp) ?_) (by assumption)
    | with_reducible refine keeps_foldl (fun t a ht => ?_) ?_
    | with_reducible refine keepsP_foldl (fun t a ht => ?_) ?_
    | split
    | (clear_value *; split)
    | with_reducible refine keepsP_eq ?_ (by assumption)
    | with_reducible refine keepsO_eq ?_ (by assumption)
    | with_reducible refine keepsP_mk ?_

theorem restoreTable_keeps {ps z} {s : Sys2Proof.Machine.State} {n : Nat} {base : Nat} (hp : [.regs, .mem, .arr, .outbox, .draws, .bridge] ⊆ ps) (h0 : Keeps ps z s) :
    Keeps ps z (restoreTable s n base) := by
  unfold restoreTable
  repeat' first
    | with_reducible assumption
    | with_reducible exact keepsP_fst (by assumption)
    | (extract_lets -useContext +onlyGivenNames x; refine (fun (hx : Keeps ps z x) => ?_) ?_; clear_value x; revert x; intro _ _; rotate_left; unfold x; clear x; rotate_left)
    | (extract_lets -useContext +onlyGivenNames x; refine (fun (hx : KeepsP ps z x) => ?_) ?_; clear_value x; revert x; intro _ _; rotate_left; unfold x; clear x; rotate_left)
    | (extract_lets -useContext +onlyGivenNames x; revert x; intro _)
    | with_reducible refine State.setArr_keeps (sub_of (by decide) hp) ?_
    | with_reducible refine readFrom_keeps (sub_of (by decide) hp) ?_
    | with_reducible refine keepsP_fst (readFrom_keeps (sub_of (by decide) hp) ?_)
    | with_reducible refine keepsP_eq (readFrom_keeps (sub_of (by decide) hp) ?_) (by assumption)
    | with_reducible refine keeps_foldl (fun t a ht => ?_) ?_
    | with_reducible refine keepsP_foldl (fun t a ht => ?_) ?_
    | split
    | (clear_value *; split)
    | with_reducible refine keeps_with_draws (mem_of (by decide) hp) ?_
    | with_reducible refine keepsP_eq ?_ (by assumption)
    | with_reducible refine keepsO_eq ?_ (by assumption)
    | with_reducible refine keepsP_mk ?_

theorem restoreAls_keeps {ps z} {s : Sys2Proof.Machine.State} {n : Nat} {base : Nat} {extent : Nat} (hp : [.regs, .mem, .als, .outbox, .bridge] ⊆ ps) (h0 : Keeps ps z s) :
    Keeps ps z (restoreAls s n base extent) := by
  unfold restoreAls
  repeat' first
    | with_reducible assumption
    | with_reducible exact keepsP_fst (by assumption)
    | (extract_lets -useContext +onlyGivenNames x; refine (fun (hx : Keeps ps z x) => ?_) ?_; clear_value x; revert x; intro _ _; rotate_left; unfold x; clear x; rotate_left)
    | (extract_lets -useContext +onlyGivenNames x; refine (fun (hx : KeepsP ps z x) => ?_) ?_; clear_value x; revert x; intro _ _; rotate_left; unfold x; clear x; rotate_left)
    | (extract_lets -useContext +onlyGivenNames x; revert x; intro _)
    | with_reducible refine State.setAls_keeps (sub_of (by decide) hp) ?_ ?_
    | with_reducible refine readFrom_keeps (sub_of (by decide) hp) ?_
    | with_reducible refine keepsP_fst (readFrom_keeps (sub_of (by decide) hp) ?_)
    | with_reducible refine keepsP_eq (readFrom_keeps (sub_of (by decide) hp) ?_) (by assumption)
    | with_reducible refine keeps_foldl (fun t a ht => ?_) ?_
    | with_reducible refine keepsP_foldl (fun t a ht => ?_) ?_
    | split
    | (clear_value *; split)
    | with_reducible refine keepsP_eq ?_ (by assumption)
    | with_reducible refine keepsO_eq ?_ (by assumption)
    | (intro hw; repeat' first | with_reducible exact storeWf_empty | with_reducible refine storeWf_write ?_ | with_reducible refine storeWf_put ?_ | with_reducible refine epilogueAll_wf ?_ | with_reducible refine spillAll_wf ?_ | with_reducible refine spillRows_wf ?_ | with_reducible refine epilogueRows_wf ?_ | with_reducible refine spillFrom_wf ?_ | with_reducible refine vecRowsFrom_wf ?_ | with_reducible refine vecAll_wf ?_ | with_reducible refine storeWf_scrub ?_ | with_reducible refine storeWf_poison ?_ | with_reducible refine storeWf_fold (fun _ _ hu => ?_) ?_ | with_reducible assumption | split | with_reducible exact (Keeps.tidy (by assumption) hw).als _ | with_reducible exact (Keeps.tidy (by assumption) hw).dss _ | with_reducible refine (Keeps.tidy (ps := ps) ?_ hw).als _ | with_reducible refine (Keeps.tidy (ps := ps) ?_ hw).dss _)
    | with_reducible refine keepsP_mk ?_

theorem parkChannels_keeps {ps z} {s : Sys2Proof.Machine.State} {n : Nat} {c : Nat} (hp : [.dma] ⊆ ps) (h0 : Keeps ps z s) :
    KeepsP ps z (parkChannels s n c) := by
  unfold parkChannels
  repeat' first
    | with_reducible assumption
    | with_reducible exact keepsP_fst (by assumption)
    | (extract_lets -useContext +onlyGivenNames x; refine (fun (hx : Keeps ps z x) => ?_) ?_; clear_value x; revert x; intro _ _; rotate_left; unfold x; clear x; rotate_left)
    | (extract_lets -useContext +onlyGivenNames x; revert x; intro _)
    | with_reducible refine State.setCh_keeps (sub_of (by decide) hp) ?_
    | with_reducible refine keeps_foldl (fun t a ht => ?_) ?_
    | with_reducible refine keepsP_foldl (fun t a ht => ?_) ?_
    | split
    | (clear_value *; split)
    | with_reducible refine keepsP_eq ?_ (by assumption)
    | with_reducible refine keepsO_eq ?_ (by assumption)
    | with_reducible refine keepsP_mk ?_

theorem switchOut_keeps {ps z} {s : Sys2Proof.Machine.State} {n : Nat} {k : Nat} (hp : [.regs, .mem, .arr, .vec, .als, .dma, .ctx, .holder, .outbox, .draws, .bridge] ⊆ ps) (h0 : Keeps ps z s) :
    Keeps ps z (switchOut s n k) := by
  unfold switchOut
  repeat' first
    | with_reducible assumption
    | with_reducible exact keepsP_fst (by assumption)
    | (extract_lets -useContext +onlyGivenNames x; refine (fun (hx : Keeps ps z x) => ?_) ?_; clear_value x; revert x; intro _ _; rotate_left; unfold x; clear x; rotate_left)
    | (extract_lets -useContext +onlyGivenNames x; refine (fun (hx : KeepsP ps z x) => ?_) ?_; clear_value x; revert x; intro _ _; rotate_left; unfold x; clear x; rotate_left)
    | (extract_lets -useContext +onlyGivenNames x; revert x; intro _)
    | with_reducible refine State.setHolder_keeps (sub_of (by decide) hp) ?_
    | with_reducible refine scrubAls_keeps (sub_of (by decide) hp) ?_
    | with_reducible refine saveArray_keeps (sub_of (by decide) hp) ?_
    | with_reducible refine mergeIsland_keeps (sub_of (by decide) hp) ?_
    | with_reducible refine parkChannels_keeps (sub_of (by decide) hp) ?_
    | with_reducible refine keepsP_fst (parkChannels_keeps (sub_of (by decide) hp) ?_)
    | with_reducible refine keepsP_eq (parkChannels_keeps (sub_of (by decide) hp) ?_) (by assumption)
    | with_reducible refine showSave_keeps (sub_of (by decide) hp) ?_
    | split
    | (clear_value *; split)
    | with_reducible refine keepsP_eq ?_ (by assumption)
    | with_reducible refine keepsO_eq ?_ (by assumption)
    | with_reducible refine keepsP_mk ?_

theorem execContextSwitchBegin_keeps {ps z} {n : Sys2Proof.ArrayId} {s : Sys2Proof.Machine.State} (hp : [.regs, .mem, .arr, .vec, .als, .dma, .ctx, .holder, .outbox, .draws, .bridge] ⊆ ps) (h1 : Keeps ps z s) :
    KeepsR ps z (execContextSwitchBegin n s) := by
  unfold execContextSwitchBegin
  repeat' first
    | with_reducible assumption
    | with_reducible exact keepsP_fst (by assumption)
    | (extract_lets -useContext +onlyGivenNames x; refine (fun (hx : Keeps ps z x) => ?_) ?_; clear_value x; revert x; intro _ _; rotate_left; unfold x; clear x; rotate_left)
    | (extract_lets -useContext +onlyGivenNames x; revert x; intro _)
    | with_reducible refine keepsR_next ?_
    | with_reducible exact keepsR_fault
    | with_reducible refine State.setHolder_keeps (sub_of (by decide) hp) ?_
    | with_reducible refine switchOut_keeps (sub_of (by decide) hp) ?_
    | with_reducible refine showRestore_keeps (sub_of (by decide) hp) ?_
    | split
    | (clear_value *; split)
    | with_reducible refine keepsP_eq ?_ (by assumption)
    | with_reducible refine keepsO_eq ?_ (by assumption)
    | with_reducible refine keepsP_mk ?_

theorem switchIn_keeps {ps z} {s : Sys2Proof.Machine.State} {n : Nat} {k : Nat} {last : Option Nat} (hp : [.regs, .mem, .arr, .als, .holder, .outbox, .draws, .bridge] ⊆ ps) (h0 : Keeps ps z s) :
    Keeps ps z (switchIn s n k last) := by
  unfold switchIn
  repeat' first
    | with_reducible assumption
    | with_reducible exact keepsP_fst (by assumption)
    | (extract_lets -useContext +onlyGivenNames x; refine (fun (hx : Keeps ps z x) => ?_) ?_; clear_value x; revert x; intro _ _; rotate_left; unfold x; clear x; rotate_left)
    | (extract_lets -useContext +onlyGivenNames x; revert x; intro _)
    | with_reducible refine State.setHolder_keeps (sub_of (by decide) hp) ?_
    | with_reducible refine State.setArr_keeps (sub_of (by decide) hp) ?_
    | with_reducible refine scrubAls_keeps (sub_of (by decide) hp) ?_
    | with_reducible refine restoreAls_keeps (sub_of (by decide) hp) ?_
    | with_reducible refine State.setReg_keeps (sub_of (by decide) hp) ?_
    | with_reducible refine restoreAcc_keeps (sub_of (by decide) hp) ?_
    | with_reducible refine restoreTable_keeps (sub_of (by decide) hp) ?_
    | split
    | (clear_value *; split)
    | with_reducible refine keepsP_eq ?_ (by assumption)
    | with_reducible refine keepsO_eq ?_ (by assumption)
    | with_reducible refine keepsO_getD ?_ ?_
    | with_reducible refine keepsP_mk ?_

theorem execContextSwitchEnd_keeps {ps z} {n : Sys2Proof.ArrayId} {s : Sys2Proof.Machine.State} (hp : [.regs, .mem, .arr, .als, .dma, .holder, .outbox, .draws, .bridge] ⊆ ps) (h1 : Keeps ps z s) :
    KeepsR ps z (execContextSwitchEnd n s) := by
  unfold execContextSwitchEnd
  repeat' first
    | with_reducible assumption
    | with_reducible exact keepsP_fst (by assumption)
    | (extract_lets -useContext +onlyGivenNames x; refine (fun (hx : Keeps ps z x) => ?_) ?_; clear_value x; revert x; intro _ _; rotate_left; unfold x; clear x; rotate_left)
    | (extract_lets -useContext +onlyGivenNames x; revert x; intro _)
    | with_reducible refine keepsR_next ?_
    | with_reducible exact keepsR_fault
    | with_reducible refine State.setCh_keeps (sub_of (by decide) hp) ?_
    | with_reducible refine State.setReg_keeps (sub_of (by decide) hp) ?_
    | with_reducible refine countEvent_keeps (sub_of (by decide) hp) ?_
    | with_reducible refine switchIn_keeps (sub_of (by decide) hp) ?_
    | with_reducible refine countSave_keeps (sub_of (by decide) hp) ?_
    | with_reducible refine keeps_foldl (fun t a ht => ?_) ?_
    | with_reducible refine keepsP_foldl (fun t a ht => ?_) ?_
    | split
    | (clear_value *; split)
    | with_reducible refine keepsP_eq ?_ (by assumption)
    | with_reducible refine keepsO_eq ?_ (by assumption)
    | with_reducible refine keepsP_mk ?_

theorem execQueueDestroy_keeps {ps z} {q : Sys2Proof.QueueId} {s : Sys2Proof.Machine.State} (hp : [.regs, .arr, .vec, .queues, .seq, .xch, .cat, .nmu, .pair] ⊆ ps) (h1 : Keeps ps z s) :
    KeepsR ps z (execQueueDestroy q s) := by
  unfold execQueueDestroy
  repeat' first
    | with_reducible assumption
    | with_reducible exact keepsP_fst (by assumption)
    | (extract_lets -useContext +onlyGivenNames x; refine (fun (hx : Keeps ps z x) => ?_) ?_; clear_value x; revert x; intro _ _; rotate_left; unfold x; clear x; rotate_left)
    | (extract_lets -useContext +onlyGivenNames x; revert x; intro _)
    | with_reducible refine keepsR_next ?_
    | with_reducible exact keepsR_fault
    | with_reducible refine State.setQueue_keeps (sub_of (by decide) hp) ?_
    | with_reducible refine loseSlots_keeps (sub_of (by decide) hp) ?_
    | with_reducible refine abortCmd_keeps (sub_of (by decide) hp) ?_
    | with_reducible refine State.setQState_keeps (sub_of (by decide) hp) ?_
    | with_reducible refine updCmd_keeps (sub_of (by decide) hp) ?_
    | with_reducible refine failCmd_keeps (sub_of (by decide) hp) ?_
    | with_reducible refine keeps_foldl (fun t a ht => ?_) ?_
    | with_reducible refine keepsP_foldl (fun t a ht => ?_) ?_
    | split
    | (clear_value *; split)
    | with_reducible refine keepsP_eq ?_ (by assumption)
    | with_reducible refine keepsO_eq ?_ (by assumption)
    | with_reducible refine keepsP_mk ?_

theorem fillReports_keeps {ps z} {s : Sys2Proof.Machine.State} {eng : Nat} {unit : Option Nat} {f : Nat → Sys2Proof.Machine.Report → Sys2Proof.Machine.Report} (hp : [.queues, .obs] ⊆ ps) (h0 : Keeps ps z s) :
    Keeps ps z (fillReports s eng unit f) := by
  unfold fillReports
  repeat' first
    | with_reducible assumption
    | with_reducible exact keepsP_fst (by assumption)
    | (extract_lets -useContext +onlyGivenNames x; refine (fun (hx : Keeps ps z x) => ?_) ?_; clear_value x; revert x; intro _ _; rotate_left; unfold x; clear x; rotate_left)
    | (extract_lets -useContext +onlyGivenNames x; revert x; intro _)
    | with_reducible refine State.setQueue_keeps (sub_of (by decide) hp) ?_
    | with_reducible refine keeps_foldl (fun t a ht => ?_) ?_
    | with_reducible refine keepsP_foldl (fun t a ht => ?_) ?_
    | split
    | (clear_value *; split)
    | with_reducible refine keeps_with_obs (mem_of (by decide) hp) ?_
    | with_reducible refine keepsP_eq ?_ (by assumption)
    | with_reducible refine keepsO_eq ?_ (by assumption)
    | with_reducible refine keepsP_mk ?_

theorem abortChannel_keeps {ps z} {s : Sys2Proof.Machine.State} {d : Nat} {c : Nat} (hp : [.regs, .isl, .dma, .queues, .bxl, .pwr, .obs] ⊆ ps) (h0 : Keeps ps z s) :
    Keeps ps z (abortChannel s d c) := by
  unfold abortChannel
  repeat' first
    | with_reducible assumption
    | with_reducible exact keepsP_fst (by assumption)
    | (extract_lets -useContext +onlyGivenNames x; refine (fun (hx : Keeps ps z x) => ?_) ?_; clear_value x; revert x; intro _ _; rotate_left; unfold x; clear x; rotate_left)
    | (extract_lets -useContext +onlyGivenNames x; revert x; intro _)
    | with_reducible refine dmaStop_keeps (sub_of (by decide) hp) ?_
    | with_reducible refine fillReports_keeps (sub_of (by decide) hp) ?_
    | split
    | (clear_value *; split)
    | with_reducible refine keepsP_eq ?_ (by assumption)
    | with_reducible refine keepsO_eq ?_ (by assumption)
    | with_reducible refine keepsP_mk ?_

theorem idleSeq_keeps {ps z} {s : Sys2Proof.Machine.State} {n : Nat} (hp : [.regs, .isl, .mem, .seq, .outbox, .draws, .bxl, .bridge] ⊆ ps) (h0 : Keeps ps z s) :
    Keeps ps z (idleSeq s n) := by
  unfold idleSeq
  repeat' first
    | with_reducible assumption
    | with_reducible exact keepsP_fst (by assumption)
    | (extract_lets -useContext +onlyGivenNames x; refine (fun (hx : Keeps ps z x) => ?_) ?_; clear_value x; revert x; intro _ _; rotate_left; unfold x; clear x; rotate_left)
    | (extract_lets -useContext +onlyGivenNames x; revert x; intro _)
    | with_reducible refine State.setSeq_keeps (sub_of (by decide) hp) ?_
    | with_reducible refine traceEnd_keeps (sub_of (by decide) hp) ?_
    | with_reducible refine dropAgent_keeps (sub_of (by decide) hp) ?_
    | split
    | (clear_value *; split)
    | with_reducible refine keepsP_eq ?_ (by assumption)
    | with_reducible refine keepsO_eq ?_ (by assumption)
    | with_reducible refine keepsP_mk ?_

theorem stopEngine_keeps {ps z} {s : Sys2Proof.Machine.State} {eng : Nat} {rows : Nat} {cmds : List (Nat × Nat)} (hp : [.regs, .isl, .mem, .arr, .vec, .als, .ctx, .queues, .seq, .outbox, .draws, .bxl, .pwr, .rtr, .xch, .cat, .nmu, .bridge] ⊆ ps) (h0 : Keeps ps z s) :
    KeepsO ps z (stopEngine s eng rows cmds) := by
  unfold stopEngine
  repeat' first
    | with_reducible assumption
    | with_reducible exact keepsP_fst (by assumption)
    | (extract_lets -useContext +onlyGivenNames x; refine (fun (hx : Keeps ps z x) => ?_) ?_; clear_value x; revert x; intro _ _; rotate_left; unfold x; clear x; rotate_left)
    | (extract_lets -useContext +onlyGivenNames x; refine (fun (hx : KeepsP ps z x) => ?_) ?_; clear_value x; revert x; intro _ _; rotate_left; unfold x; clear x; rotate_left)
    | (extract_lets -useContext +onlyGivenNames x; refine (fun (hx : KeepsO ps z x) => ?_) ?_; clear_value x; revert x; intro _ _; rotate_left; unfold x; clear x; rotate_left)
    | with_reducible exact keepsO_get (by assumption)
    | (extract_lets -useContext +onlyGivenNames x; have _hx : ∀ a, x a = x a := fun _ => rfl; clear _hx; unfold x; clear x)
    | (extract_lets -useContext +onlyGivenNames x; revert x; intro _)
    | exact keepsO_none
    | with_reducible refine keepsO_some ?_
    | with_reducible refine noClose_keeps  ?_
    | with_reducible refine keepsP_fst (noClose_keeps  ?_)
    | with_reducible refine keepsP_eq (noClose_keeps  ?_) (by assumption)
    | with_reducible refine State.setNmu_keeps (sub_of (by decide) hp) ?_
    | with_reducible refine nmuLeave_keeps (sub_of (by decide) hp) ?_ (fun x0 x1 hx0 => ?_)
    | with_reducible refine abandonOp_keeps (sub_of (by decide) hp) ?_
    | with_reducible refine endReq_keeps (sub_of (by decide) hp) ?_
    | with_reducible refine vecAbortAt_keeps (sub_of (by decide) hp) ?_
    | with_reducible refine islandBoundary_keeps (sub_of (by decide) hp) ?_
    | with_reducible refine idleSeq_keeps (sub_of (by decide) hp) ?_
    | with_reducible refine keeps_foldl (fun t a ht => ?_) ?_
    | with_reducible refine keepsP_foldl (fun t a ht => ?_) ?_
    | split
    | (clear_value *; split)
    | with_reducible refine keeps_with_xch (mem_of (by decide) hp) ?_
    | with_reducible refine keepsP_eq ?_ (by assumption)
    | with_reducible refine keepsO_eq ?_ (by assumption)
    | with_reducible refine keepsP_mk ?_

theorem execEngineAbortReached_keeps {ps z} {eng : Nat} {chan : Option (Fin 32)} {rows : Nat} {s : Sys2Proof.Machine.State} (hp : [.regs, .isl, .mem, .arr, .vec, .als, .dma, .ctx, .queues, .seq, .outbox, .draws, .bxl, .pwr, .rtr, .xch, .cat, .nmu, .obs, .bridge] ⊆ ps) (h3 : Keeps ps z s) :
    KeepsR ps z (execEngineAbortReached eng chan rows s) := by
  unfold execEngineAbortReached
  repeat' first
    | with_reducible assumption
    | with_reducible exact keepsP_fst (by assumption)
    | (extract_lets -useContext +onlyGivenNames x; refine (fun (hx : Keeps ps z x) => ?_) ?_; clear_value x; revert x; intro _ _; rotate_left; unfold x; clear x; rotate_left)
    | (extract_lets -useContext +onlyGivenNames x; refine (fun (hx : KeepsO ps z x) => ?_) ?_; clear_value x; revert x; intro _ _; rotate_left; unfold x; clear x; rotate_left)
    | with_reducible exact keepsO_get (by assumption)
    | (extract_lets -useContext +onlyGivenNames x; have _hx : ∀ a, x a = x a := fun _ => rfl; clear _hx; unfold x; clear x)
    | (extract_lets -useContext +onlyGivenNames x; revert x; intro _)
    | with_reducible refine keepsR_next ?_
    | with_reducible exact keepsR_fault
    | with_reducible refine fillReports_keeps (sub_of (by decide) hp) ?_
    | with_reducible refine reportEngine_keeps (sub_of (by decide) hp) ?_
    | with_reducible refine stopEngine_keeps (sub_of (by decide) hp) ?_
    | with_reducible refine keepsO_eq (stopEngine_keeps (sub_of (by decide) hp) ?_) (by assumption)
    | with_reducible refine abortChannel_keeps (sub_of (by decide) hp) ?_
    | with_reducible refine keeps_foldl (fun t a ht => ?_) ?_
    | with_reducible refine keepsP_foldl (fun t a ht => ?_) ?_
    | split
    | (clear_value *; split)
    | with_reducible refine keepsP_eq ?_ (by assumption)
    | with_reducible refine keepsO_eq ?_ (by assumption)
    | with_reducible refine keepsP_mk ?_

theorem execQueueDestroyDrained_keeps {ps z} {q : Sys2Proof.QueueId} {s : Sys2Proof.Machine.State} (hp : [.regs, .alsScrub, .ctx, .queues] ⊆ ps) (h1 : Keeps ps z s) :
    KeepsR ps z (execQueueDestroyDrained q s) := by
  unfold execQueueDestroyDrained
  repeat' first
    | with_reducible assumption
    | with_reducible exact keepsP_fst (by assumption)
    | (extract_lets -useContext +onlyGivenNames x; refine (fun (hx : Keeps ps z x) => ?_) ?_; clear_value x; revert x; intro _ _; rotate_left; unfold x; clear x; rotate_left)
    | (extract_lets -useContext +onlyGivenNames x; revert x; intro _)
    | with_reducible refine keepsR_next ?_
    | with_reducible exact keepsR_fault
    | with_reducible refine State.setCtx_keeps (sub_of (by decide) hp) ?_
    | with_reducible refine State.setReg_keeps (sub_of (by decide) hp) ?_
    | with_reducible refine State.setQueue_keeps (sub_of (by decide) hp) ?_
    | with_reducible refine keeps_foldl (fun t a ht => ?_) ?_
    | with_reducible refine keepsP_foldl (fun t a ht => ?_) ?_
    | split
    | (clear_value *; split)
    | with_reducible refine keeps_with_alsScrub (mem_of (by decide) hp) ?_
    | with_reducible refine keepsP_eq ?_ (by assumption)
    | with_reducible refine keepsO_eq ?_ (by assumption)
    | with_reducible refine keepsP_mk ?_

theorem execQueueDestroyComplete_keeps {ps z} {q : Sys2Proof.QueueId} {s : Sys2Proof.Machine.State} (hp : [.regs, .mem, .mmu, .queues, .outbox, .bxl, .xch, .cat, .bridge] ⊆ ps) (h1 : Keeps ps z s) :
    KeepsR ps z (execQueueDestroyComplete q s) := by
  unfold execQueueDestroyComplete
  repeat' first
    | with_reducible assumption
    | with_reducible exact keepsP_fst (by assumption)
    | (extract_lets -useContext +onlyGivenNames x; refine (fun (hx : Keeps ps z x) => ?_) ?_; clear_value x; revert x; intro _ _; rotate_left; unfold x; clear x; rotate_left)
    | (extract_lets -useContext +onlyGivenNames x; refine (fun (hx : KeepsP ps z x) => ?_) ?_; clear_value x; revert x; intro _ _; rotate_left; unfold x; clear x; rotate_left)
    | (extract_lets -useContext +onlyGivenNames x; revert x; intro _)
    | with_reducible refine keepsR_next ?_
    | with_reducible exact keepsR_fault
    | with_reducible refine badCmd_keeps (sub_of (by decide) hp) ?_
    | with_reducible refine updCmd_keeps (sub_of (by decide) hp) ?_
    | with_reducible refine feWrite_keeps (sub_of (by decide) hp) ?_
    | with_reducible refine keepsP_fst (feWrite_keeps (sub_of (by decide) hp) ?_)
    | with_reducible refine keepsP_eq (feWrite_keeps (sub_of (by decide) hp) ?_) (by assumption)
    | with_reducible refine feThen_keeps (sub_of (by decide) hp) ?_ ?_ (fun x0 x1 hx0 => ?_) (fun x0 hx0 => ?_)
    | with_reducible refine keepsR_eq (feThen_keeps (sub_of (by decide) hp) ?_ ?_ (fun x0 x1 hx0 => ?_) (fun x0 hx0 => ?_)) (by assumption)
    | with_reducible refine State.setQueue_keeps (sub_of (by decide) hp) ?_
    | with_reducible refine doneCmd_keeps (sub_of (by decide) hp) ?_
    | with_reducible refine loseSlots_keeps (sub_of (by decide) hp) ?_
    | split
    | (clear_value *; split)
    | with_reducible refine keepsP_eq ?_ (by assumption)
    | with_reducible refine keepsO_eq ?_ (by assumption)
    | with_reducible refine keepsO_getD ?_ ?_
    | with_reducible refine keepsP_mk ?_

end Sys2Proof.Machine
end

