-- ==== Sys2Proof/Laws/FrameBoot.lean ====
section
/-!
SUPPORT. Frames: for each operation of Sys2Proof/Machine/Boot.lean, the parts of State it may change, and that it keeps the stores'
canonical form.
-/
namespace Sys2Proof.Machine

open Sys2Proof

theorem enterReset_keeps {ps z} {s : State} (hp : [.regs, .hiCap, .isl, .mem, .mmu, .arr, .vec, .als, .alsScrub, .dss, .dma, .ctx, .queues, .holder, .seq, .bxl, .pwr, .halted, .life, .link, .port, .rtr, .xch, .cat, .nmu, .pair, .mgmt, .pins, .obs, .bridge] ⊆ ps) (h0 : Keeps ps z s) : Keeps ps z (enterReset s) :=
  keeps_of h0 (fun p hq => by cases p <;> first | rfl | exact absurd (hp (by decide)) hq) fun w =>
    ⟨w.mem, fun _ => rfl, fun _ => rfl, w.flash⟩

theorem execPkgResetAssert_keeps {ps z} {s : Sys2Proof.Machine.State} (hp : [.regs, .hiCap, .isl, .mem, .mmu, .arr, .vec, .als, .alsScrub, .dss, .dma, .ctx, .queues, .holder, .seq, .bxl, .pwr, .halted, .life, .link, .port, .rtr, .xch, .cat, .nmu, .pair, .mgmt, .pins, .obs, .bridge] ⊆ ps) (h0 : Keeps ps z s) :
    KeepsR ps z (execPkgResetAssert s) := by
  unfold execPkgResetAssert
  repeat' first
    | with_reducible assumption
    | with_reducible exact keepsP_fst (by assumption)
    | (extract_lets -useContext +onlyGivenNames x; refine (fun (hx : Keeps ps z x) => ?_) ?_; clear_value x; revert x; intro _ _; rotate_left; unfold x; clear x; rotate_left)
    | (extract_lets -useContext +onlyGivenNames x; revert x; intro _)
    | with_reducible refine keepsR_next ?_
    | with_reducible exact keepsR_fault
    | with_reducible refine enterReset_keeps (sub_of (by decide) hp) ?_
    | split
    | (clear_value *; split)
    | with_reducible refine keeps_with_pins (mem_of (by decide) hp) ?_
    | with_reducible refine keepsP_eq ?_ (by assumption)
    | with_reducible refine keepsO_eq ?_ (by assumption)
    | with_reducible refine keepsP_mk ?_

theorem execPkgResetRelease_keeps {ps z} {s : Sys2Proof.Machine.State} (hp : [.pins] ⊆ ps) (h0 : Keeps ps z s) :
    KeepsR ps z (execPkgResetRelease s) := by
  unfold execPkgResetRelease
  repeat' first
    | with_reducible assumption
    | with_reducible exact keepsP_fst (by assumption)
    | (extract_lets -useContext +onlyGivenNames x; refine (fun (hx : Keeps ps z x) => ?_) ?_; clear_value x; revert x; intro _ _; rotate_left; unfold x; clear x; rotate_left)
    | (extract_lets -useContext +onlyGivenNames x; revert x; intro _)
    | with_reducible refine keepsR_next ?_
    | with_reducible exact keepsR_fault
    | split
    | (clear_value *; split)
    | with_reducible refine keeps_with_pins (mem_of (by decide) hp) ?_
    | with_reducible refine keepsP_eq ?_ (by assumption)
    | with_reducible refine keepsO_eq ?_ (by assumption)
    | with_reducible refine keepsP_mk ?_

theorem execPwrGoodRise_keeps {ps z} {s : Sys2Proof.Machine.State} (hp : [.mgmt, .pins] ⊆ ps) (h0 : Keeps ps z s) :
    KeepsR ps z (execPwrGoodRise s) := by
  unfold execPwrGoodRise
  repeat' first
    | with_reducible assumption
    | with_reducible exact keepsP_fst (by assumption)
    | (extract_lets -useContext +onlyGivenNames x; refine (fun (hx : Keeps ps z x) => ?_) ?_; clear_value x; revert x; intro _ _; rotate_left; unfold x; clear x; rotate_left)
    | (extract_lets -useContext +onlyGivenNames x; revert x; intro _)
    | with_reducible refine keepsR_next ?_
    | with_reducible exact keepsR_fault
    | split
    | (clear_value *; split)
    | with_reducible refine keeps_with_mgmt_pins (mem_of (by decide) hp) (mem_of (by decide) hp) ?_
    | with_reducible refine keepsP_eq ?_ (by assumption)
    | with_reducible refine keepsO_eq ?_ (by assumption)
    | with_reducible refine keepsP_mk ?_

theorem execPwrGoodFall_keeps {ps z} {s : Sys2Proof.Machine.State} (hp : [.regs, .hiCap, .isl, .mem, .mmu, .arr, .vec, .als, .alsScrub, .dss, .dma, .ctx, .queues, .holder, .seq, .bxl, .pwr, .halted, .life, .link, .port, .rtr, .xch, .cat, .nmu, .pair, .mgmt, .pins, .obs, .bridge] ⊆ ps) (h0 : Keeps ps z s) :
    KeepsR ps z (execPwrGoodFall s) := by
  unfold execPwrGoodFall
  repeat' first
    | with_reducible assumption
    | with_reducible exact keepsP_fst (by assumption)
    | (extract_lets -useContext +onlyGivenNames x; refine (fun (hx : Keeps ps z x) => ?_) ?_; clear_value x; revert x; intro _ _; rotate_left; unfold x; clear x; rotate_left)
    | (extract_lets -useContext +onlyGivenNames x; revert x; intro _)
    | with_reducible refine keepsR_next ?_
    | with_reducible exact keepsR_fault
    | with_reducible refine enterReset_keeps (sub_of (by decide) hp) ?_
    | split
    | (clear_value *; split)
    | with_reducible refine keeps_with_pins (mem_of (by decide) hp) ?_
    | with_reducible refine keepsP_eq ?_ (by assumption)
    | with_reducible refine keepsO_eq ?_ (by assumption)
    | with_reducible refine keepsP_mk ?_

theorem execEffectiveResetRelease_keeps {ps z} {straps : Fin 512} {s : Sys2Proof.Machine.State} (hp : [.gtime, .regs, .halted, .mgmt, .pins] ⊆ ps) (h1 : Keeps ps z s) :
    KeepsR ps z (execEffectiveResetRelease straps s) := by
  unfold execEffectiveResetRelease
  repeat' first
    | with_reducible assumption
    | with_reducible exact keepsP_fst (by assumption)
    | (extract_lets -useContext +onlyGivenNames x; refine (fun (hx : Keeps ps z x) => ?_) ?_; clear_value x; revert x; intro _ _; rotate_left; unfold x; clear x; rotate_left)
    | (extract_lets -useContext +onlyGivenNames x; revert x; intro _)
    | with_reducible refine keepsR_next ?_
    | with_reducible exact keepsR_fault
    | with_reducible refine haltDevice_keeps (sub_of (by decide) hp) ?_
    | with_reducible refine State.setReg_keeps (sub_of (by decide) hp) ?_
    | with_reducible refine State.setField_keeps (sub_of (by decide) hp) ?_
    | split
    | (clear_value *; split)
    | with_reducible refine keeps_with_gtime_halted_pins (mem_of (by decide) hp) (mem_of (by decide) hp) (mem_of (by decide) hp) ?_
    | with_reducible refine keepsP_eq ?_ (by assumption)
    | with_reducible refine keepsO_eq ?_ (by assumption)
    | with_reducible refine keepsP_mk ?_

theorem loadColophon_keeps {ps z} {s : Sys2Proof.Machine.State} {base : Nat} (hp : [.regs, .pwr] ⊆ ps) (h0 : Keeps ps z s) :
    Keeps ps z (loadColophon s base) := by
  unfold loadColophon
  repeat' first
    | with_reducible assumption
    | with_reducible exact keepsP_fst (by assumption)
    | (extract_lets -useContext +onlyGivenNames x; refine (fun (hx : Keeps ps z x) => ?_) ?_; clear_value x; revert x; intro _ _; rotate_left; unfold x; clear x; rotate_left)
    | (extract_lets -useContext +onlyGivenNames x; revert x; intro _)
    | with_reducible refine State.setReg_keeps (sub_of (by decide) hp) ?_
    | with_reducible refine keeps_foldl (fun t a ht => ?_) ?_
    | with_reducible refine keepsP_foldl (fun t a ht => ?_) ?_
    | split
    | (clear_value *; split)
    | with_reducible refine keeps_with_pwr (mem_of (by decide) hp) ?_
    | with_reducible refine keepsP_eq ?_ (by assumption)
    | with_reducible refine keepsO_eq ?_ (by assumption)
    | with_reducible refine keepsP_mk ?_

theorem execColophonVerifyDone_keeps {ps z} {sigsA : Bool} {sigsB : Bool} {s : Sys2Proof.Machine.State} (hp : [.regs, .pwr, .halted, .mgmt, .pins] ⊆ ps) (h2 : Keeps ps z s) :
    KeepsR ps z (execColophonVerifyDone sigsA sigsB s) := by
  unfold execColophonVerifyDone
  repeat' first
    | with_reducible assumption
    | with_reducible exact keepsP_fst (by assumption)
    | (extract_lets -useContext +onlyGivenNames x; refine (fun (hx : Keeps ps z x) => ?_) ?_; clear_value x; revert x; intro _ _; rotate_left; unfold x; clear x; rotate_left)
    | (extract_lets -useContext +onlyGivenNames x; revert x; intro _)
    | with_reducible refine keepsR_next ?_
    | with_reducible exact keepsR_fault
    | with_reducible refine haltDevice_keeps (sub_of (by decide) hp) ?_
    | with_reducible refine State.setField_keeps (sub_of (by decide) hp) ?_
    | with_reducible refine loadColophon_keeps (sub_of (by decide) hp) ?_
    | with_reducible refine setBoot_keeps (sub_of (by decide) hp) ?_
    | split
    | (clear_value *; split)
    | with_reducible refine keepsP_eq ?_ (by assumption)
    | with_reducible refine keepsO_eq ?_ (by assumption)
    | with_reducible refine keepsP_mk ?_

theorem askFor_keeps {ps z} {s : Sys2Proof.Machine.State} {phase : Nat} (hp : [.outbox, .mgmt] ⊆ ps) (h0 : Keeps ps z s) :
    Keeps ps z (askFor s phase) := by
  unfold askFor
  repeat' first
    | with_reducible assumption
    | with_reducible exact keepsP_fst (by assumption)
    | (extract_lets -useContext +onlyGivenNames x; refine (fun (hx : Keeps ps z x) => ?_) ?_; clear_value x; revert x; intro _ _; rotate_left; unfold x; clear x; rotate_left)
    | (extract_lets -useContext +onlyGivenNames x; revert x; intro _)
    | with_reducible refine State.send_keeps (sub_of (by decide) hp) ?_
    | split
    | (clear_value *; split)
    | with_reducible refine keeps_with_mgmt (mem_of (by decide) hp) ?_
    | with_reducible refine keepsP_eq ?_ (by assumption)
    | with_reducible refine keepsO_eq ?_ (by assumption)
    | with_reducible refine keepsP_mk ?_

theorem askDhcp_keeps {ps z} {s : Sys2Proof.Machine.State} (hp : [.outbox, .mgmt] ⊆ ps) (h0 : Keeps ps z s) :
    Keeps ps z (askDhcp s) := by
  unfold askDhcp
  repeat' first
    | with_reducible assumption
    | with_reducible exact keepsP_fst (by assumption)
    | (extract_lets -useContext +onlyGivenNames x; refine (fun (hx : Keeps ps z x) => ?_) ?_; clear_value x; revert x; intro _ _; rotate_left; unfold x; clear x; rotate_left)
    | (extract_lets -useContext +onlyGivenNames x; revert x; intro _)
    | with_reducible refine askFor_keeps (sub_of (by decide) hp) ?_
    | split
    | (clear_value *; split)
    | with_reducible refine keepsP_eq ?_ (by assumption)
    | with_reducible refine keepsO_eq ?_ (by assumption)
    | with_reducible refine keepsP_mk ?_

theorem execPufUnwrapDone_keeps {ps z} {ok : Bool} {s : Sys2Proof.Machine.State} (hp : [.regs, .mem, .outbox, .halted, .life, .port, .mgmt, .pins, .bridge] ⊆ ps) (h1 : Keeps ps z s) :
    KeepsR ps z (execPufUnwrapDone ok s) := by
  unfold execPufUnwrapDone
  repeat' first
    | with_reducible assumption
    | with_reducible exact keepsP_fst (by assumption)
    | (extract_lets -useContext +onlyGivenNames x; refine (fun (hx : Keeps ps z x) => ?_) ?_; clear_value x; revert x; intro _ _; rotate_left; unfold x; clear x; rotate_left)
    | (extract_lets -useContext +onlyGivenNames x; revert x; intro _)
    | with_reducible refine keepsR_next ?_
    | with_reducible exact keepsR_fault
    | with_reducible refine askDhcp_keeps (sub_of (by decide) hp) ?_
    | with_reducible refine enterDetect_keeps (sub_of (by decide) hp) ?_
    | with_reducible refine setBoot_keeps (sub_of (by decide) hp) ?_
    | with_reducible refine haltDevice_keeps (sub_of (by decide) hp) ?_
    | split
    | (clear_value *; split)
    | with_reducible refine keeps_with_mgmt (mem_of (by decide) hp) ?_
    | with_reducible refine keepsP_eq ?_ (by assumption)
    | with_reducible refine keepsO_eq ?_ (by assumption)
    | with_reducible refine keepsP_mk ?_

theorem bootGo_keeps {ps z} {s : Sys2Proof.Machine.State} (hp : [.regs, .bxl, .mgmt] ⊆ ps) (h0 : Keeps ps z s) :
    Keeps ps z (bootGo s) := by
  unfold bootGo
  repeat' first
    | with_reducible assumption
    | with_reducible exact keepsP_fst (by assumption)
    | (extract_lets -useContext +onlyGivenNames x; refine (fun (hx : Keeps ps z x) => ?_) ?_; clear_value x; revert x; intro _ _; rotate_left; unfold x; clear x; rotate_left)
    | (extract_lets -useContext +onlyGivenNames x; revert x; intro _)
    | with_reducible refine setBxlBoot_keeps (sub_of (by decide) hp) ?_
    | with_reducible refine takeAnswers_keeps (sub_of (by decide) hp) ?_
    | split
    | (clear_value *; split)
    | with_reducible refine keeps_with_bxl_mgmt (mem_of (by decide) hp) (mem_of (by decide) hp) ?_
    | with_reducible refine keepsP_eq ?_ (by assumption)
    | with_reducible refine keepsO_eq ?_ (by assumption)
    | with_reducible refine keepsP_mk ?_

theorem execBootGo_keeps {ps z} {s : Sys2Proof.Machine.State} (hp : [.regs, .bxl, .mgmt] ⊆ ps) (h0 : Keeps ps z s) :
    KeepsR ps z (execBootGo s) := by
  unfold execBootGo
  repeat' first
    | with_reducible assumption
    | with_reducible exact keepsP_fst (by assumption)
    | (extract_lets -useContext +onlyGivenNames x; refine (fun (hx : Keeps ps z x) => ?_) ?_; clear_value x; revert x; intro _ _; rotate_left; unfold x; clear x; rotate_left)
    | (extract_lets -useContext +onlyGivenNames x; revert x; intro _)
    | with_reducible refine keepsR_next ?_
    | with_reducible exact keepsR_fault
    | with_reducible refine bootGo_keeps (sub_of (by decide) hp) ?_
    | split
    | (clear_value *; split)
    | with_reducible refine keepsP_eq ?_ (by assumption)
    | with_reducible refine keepsO_eq ?_ (by assumption)
    | with_reducible refine keepsP_mk ?_

theorem execImageTransferBegin_keeps {ps z} {s : Sys2Proof.Machine.State} (hp : [.regs] ⊆ ps) (h0 : Keeps ps z s) :
    KeepsR ps z (execImageTransferBegin s) := by
  unfold execImageTransferBegin
  repeat' first
    | with_reducible assumption
    | with_reducible exact keepsP_fst (by assumption)
    | (extract_lets -useContext +onlyGivenNames x; refine (fun (hx : Keeps ps z x) => ?_) ?_; clear_value x; revert x; intro _ _; rotate_left; unfold x; clear x; rotate_left)
    | (extract_lets -useContext +onlyGivenNames x; revert x; intro _)
    | with_reducible refine keepsR_next ?_
    | with_reducible exact keepsR_fault
    | with_reducible refine setBoot_keeps (sub_of (by decide) hp) ?_
    | split
    | (clear_value *; split)
    | with_reducible refine keepsP_eq ?_ (by assumption)
    | with_reducible refine keepsO_eq ?_ (by assumption)
    | with_reducible refine keepsP_mk ?_

theorem rejectLoad_keeps {ps z} {s : Sys2Proof.Machine.State} {reason : Nat} (hp : [.regs, .mgmt] ⊆ ps) (h0 : Keeps ps z s) :
    Keeps ps z (rejectLoad s reason) := by
  unfold rejectLoad
  repeat' first
    | with_reducible assumption
    | with_reducible exact keepsP_fst (by assumption)
    | (extract_lets -useContext +onlyGivenNames x; refine (fun (hx : Keeps ps z x) => ?_) ?_; clear_value x; revert x; intro _ _; rotate_left; unfold x; clear x; rotate_left)
    | (extract_lets -useContext +onlyGivenNames x; revert x; intro _)
    | with_reducible refine setBoot_keeps (sub_of (by decide) hp) ?_
    | with_reducible refine setBxlBoot_keeps (sub_of (by decide) hp) ?_
    | split
    | (clear_value *; split)
    | with_reducible refine keeps_with_mgmt (mem_of (by decide) hp) ?_
    | with_reducible refine keepsP_eq ?_ (by assumption)
    | with_reducible refine keepsO_eq ?_ (by assumption)
    | with_reducible refine keepsP_mk ?_

theorem readImage_keeps {ps z} {a0_ : Nat} {a1_ : Sys2Proof.Machine.State} (hp : [.regs, .outbox, .bxl, .mgmt] ⊆ ps) (h1 : Keeps ps z a1_) :
    KeepsR ps z (readImage a0_ a1_) := by
  induction a0_ generalizing a1_ with
  | zero =>
    unfold readImage
    repeat' first
      | with_reducible assumption
      | with_reducible exact keepsP_fst (by assumption)
      | (extract_lets -useContext +onlyGivenNames x; refine (fun (hx : Keeps ps z x) => ?_) ?_; clear_value x; revert x; intro _ _; rotate_left; unfold x; clear x; rotate_left)
      | (extract_lets -useContext +onlyGivenNames x; refine (fun (hx : KeepsP ps z x) => ?_) ?_; clear_value x; revert x; intro _ _; rotate_left; unfold x; clear x; rotate_left)
      | (extract_lets -useContext +onlyGivenNames x; revert x; intro _)
      | with_reducible refine keepsR_next ?_
      | with_reducible exact keepsR_fault
      | with_reducible refine rejectLoad_keeps (sub_of (by decide) hp) ?_
      | with_reducible refine takeAnswers_keeps (sub_of (by decide) hp) ?_
      | with_reducible refine keepRequests_keeps (sub_of (by decide) hp) ?_ ?_
      | with_reducible refine hostPhys_keeps (sub_of (by decide) hp) ?_
      | with_reducible refine keepsP_fst (hostPhys_keeps (sub_of (by decide) hp) ?_)
      | with_reducible refine keepsP_eq (hostPhys_keeps (sub_of (by decide) hp) ?_) (by assumption)
      | with_reducible refine setBoot_keeps (sub_of (by decide) hp) ?_
      | split
      | (clear_value *; split)
      | with_reducible refine keeps_with_bxl_mgmt (mem_of (by decide) hp) (mem_of (by decide) hp) ?_
      | with_reducible refine keepsP_eq ?_ (by assumption)
      | with_reducible refine keepsO_eq ?_ (by assumption)
      | with_reducible refine keepsP_mk ?_
  | succ fuel ih =>
    unfold readImage
    repeat' first
      | with_reducible assumption
      | with_reducible exact keepsP_fst (by assumption)
      | (extract_lets -useContext +onlyGivenNames x; refine (fun (hx : Keeps ps z x) => ?_) ?_; clear_value x; revert x; intro _ _; rotate_left; unfold x; clear x; rotate_left)
      | (extract_lets -useContext +onlyGivenNames x; refine (fun (hx : KeepsP ps z x) => ?_) ?_; clear_value x; revert x; intro _ _; rotate_left; unfold x; clear x; rotate_left)
      | with_reducible refine ih ?_
      | (extract_lets -useContext +onlyGivenNames x; revert x; intro _)
      | with_reducible refine keepsR_next ?_
      | with_reducible exact keepsR_fault
      | with_reducible refine rejectLoad_keeps (sub_of (by decide) hp) ?_
      | with_reducible refine takeAnswers_keeps (sub_of (by decide) hp) ?_
      | with_reducible refine keepRequests_keeps (sub_of (by decide) hp) ?_ ?_
      | with_reducible refine hostPhys_keeps (sub_of (by decide) hp) ?_
      | with_reducible refine keepsP_fst (hostPhys_keeps (sub_of (by decide) hp) ?_)
      | with_reducible refine keepsP_eq (hostPhys_keeps (sub_of (by decide) hp) ?_) (by assumption)
      | with_reducible refine setBoot_keeps (sub_of (by decide) hp) ?_
      | split
      | (clear_value *; split)
      | with_reducible refine keeps_with_bxl_mgmt (mem_of (by decide) hp) (mem_of (by decide) hp) ?_
      | with_reducible refine keepsP_eq ?_ (by assumption)
      | with_reducible refine keepsO_eq ?_ (by assumption)
      | with_reducible refine keepsP_mk ?_

theorem execBootImageLoaded_keeps {ps z} {s : Sys2Proof.Machine.State} (hp : [.regs, .outbox, .bxl, .mgmt] ⊆ ps) (h0 : Keeps ps z s) :
    KeepsR ps z (execBootImageLoaded s) := by
  unfold execBootImageLoaded
  repeat' first
    | with_reducible assumption
    | with_reducible exact keepsP_fst (by assumption)
    | (extract_lets -useContext +onlyGivenNames x; refine (fun (hx : Keeps ps z x) => ?_) ?_; clear_value x; revert x; intro _ _; rotate_left; unfold x; clear x; rotate_left)
    | (extract_lets -useContext +onlyGivenNames x; revert x; intro _)
    | with_reducible refine keepsR_next ?_
    | with_reducible exact keepsR_fault
    | with_reducible refine readImage_keeps (sub_of (by decide) hp) ?_
    | with_reducible refine keepsR_eq (readImage_keeps (sub_of (by decide) hp) ?_) (by assumption)
    | split
    | (clear_value *; split)
    | with_reducible refine keepsP_eq ?_ (by assumption)
    | with_reducible refine keepsO_eq ?_ (by assumption)
    | with_reducible refine keepsP_mk ?_

theorem endTransfer_keeps {ps z} {s : Sys2Proof.Machine.State} (hp : [.regs, .outbox, .mgmt] ⊆ ps) (h0 : Keeps ps z s) :
    Keeps ps z (endTransfer s) := by
  unfold endTransfer
  repeat' first
    | with_reducible assumption
    | with_reducible exact keepsP_fst (by assumption)
    | (extract_lets -useContext +onlyGivenNames x; refine (fun (hx : Keeps ps z x) => ?_) ?_; clear_value x; revert x; intro _ _; rotate_left; unfold x; clear x; rotate_left)
    | (extract_lets -useContext +onlyGivenNames x; revert x; intro _)
    | with_reducible refine setBoot_keeps (sub_of (by decide) hp) ?_
    | with_reducible refine askDhcp_keeps (sub_of (by decide) hp) ?_
    | split
    | (clear_value *; split)
    | with_reducible refine keepsP_eq ?_ (by assumption)
    | with_reducible refine keepsO_eq ?_ (by assumption)
    | with_reducible refine keepsP_mk ?_

theorem requestFile_keeps {ps z} {s : Sys2Proof.Machine.State} (hp : [.outbox] ⊆ ps) (h0 : Keeps ps z s) :
    Keeps ps z (requestFile s) := by
  unfold requestFile
  repeat' first
    | with_reducible assumption
    | with_reducible exact keepsP_fst (by assumption)
    | (extract_lets -useContext +onlyGivenNames x; refine (fun (hx : Keeps ps z x) => ?_) ?_; clear_value x; revert x; intro _ _; rotate_left; unfold x; clear x; rotate_left)
    | (extract_lets -useContext +onlyGivenNames x; revert x; intro _)
    | with_reducible refine State.send_keeps (sub_of (by decide) hp) ?_
    | split
    | (clear_value *; split)
    | with_reducible refine keepsP_eq ?_ (by assumption)
    | with_reducible refine keepsO_eq ?_ (by assumption)
    | with_reducible refine keepsP_mk ?_

theorem sendTftp_keeps {ps z} {s : Sys2Proof.Machine.State} {args : List Nat} (hp : [.outbox] ⊆ ps) (h0 : Keeps ps z s) :
    Keeps ps z (sendTftp s args) := by
  unfold sendTftp
  repeat' first
    | with_reducible assumption
    | with_reducible exact keepsP_fst (by assumption)
    | (extract_lets -useContext +onlyGivenNames x; refine (fun (hx : Keeps ps z x) => ?_) ?_; clear_value x; revert x; intro _ _; rotate_left; unfold x; clear x; rotate_left)
    | (extract_lets -useContext +onlyGivenNames x; revert x; intro _)
    | with_reducible refine State.send_keeps (sub_of (by decide) hp) ?_
    | split
    | (clear_value *; split)
    | with_reducible refine keepsP_eq ?_ (by assumption)
    | with_reducible refine keepsO_eq ?_ (by assumption)
    | with_reducible refine keepsP_mk ?_

theorem execDhcpOfferRx_keeps {ps z} {addr : Sys2Proof.W32} {opts : Sys2Proof.DhcpOpts} {s : Sys2Proof.Machine.State} (hp : [.outbox, .mgmt] ⊆ ps) (h2 : Keeps ps z s) :
    KeepsR ps z (execDhcpOfferRx addr opts s) := by
  unfold execDhcpOfferRx
  repeat' first
    | with_reducible assumption
    | with_reducible exact keepsP_fst (by assumption)
    | (extract_lets -useContext +onlyGivenNames x; refine (fun (hx : Keeps ps z x) => ?_) ?_; clear_value x; revert x; intro _ _; rotate_left; unfold x; clear x; rotate_left)
    | (extract_lets -useContext +onlyGivenNames x; have _hx : ∀ a, x a = x a := fun _ => rfl; clear _hx; unfold x; clear x)
    | (extract_lets -useContext +onlyGivenNames x; revert x; intro _)
    | with_reducible refine keepsR_next ?_
    | with_reducible exact keepsR_fault
    | with_reducible refine requestFile_keeps (sub_of (by decide) hp) ?_
    | split
    | (clear_value *; split)
    | with_reducible refine keeps_with_mgmt (mem_of (by decide) hp) ?_
    | with_reducible refine keepsP_eq ?_ (by assumption)
    | with_reducible refine keepsO_eq ?_ (by assumption)
    | with_reducible refine keepsP_mk ?_

theorem execDhcpRetry_keeps {ps z} {s : Sys2Proof.Machine.State} (hp : [.outbox, .mgmt] ⊆ ps) (h0 : Keeps ps z s) :
    KeepsR ps z (execDhcpRetry s) := by
  unfold execDhcpRetry
  repeat' first
    | with_reducible assumption
    | with_reducible exact keepsP_fst (by assumption)
    | (extract_lets -useContext +onlyGivenNames x; refine (fun (hx : Keeps ps z x) => ?_) ?_; clear_value x; revert x; intro _ _; rotate_left; unfold x; clear x; rotate_left)
    | (extract_lets -useContext +onlyGivenNames x; revert x; intro _)
    | with_reducible refine keepsR_next ?_
    | with_reducible exact keepsR_fault
    | with_reducible refine askFor_keeps (sub_of (by decide) hp) ?_
    | split
    | (clear_value *; split)
    | with_reducible refine keepsP_eq ?_ (by assumption)
    | with_reducible refine keepsO_eq ?_ (by assumption)
    | with_reducible refine keepsP_mk ?_

theorem execTftpBlockRx_keeps {ps z} {tsize : Option Nat} {block : Fin 65536} {data : List Sys2Proof.Byte} {s : Sys2Proof.Machine.State} (hp : [.regs, .outbox, .mgmt] ⊆ ps) (h3 : Keeps ps z s) :
    KeepsR ps z (execTftpBlockRx tsize block data s) := by
  unfold execTftpBlockRx
  repeat' first
    | with_reducible assumption
    | with_reducible exact keepsP_fst (by assumption)
    | (extract_lets -useContext +onlyGivenNames x; refine (fun (hx : Keeps ps z x) => ?_) ?_; clear_value x; revert x; intro _ _; rotate_left; unfold x; clear x; rotate_left)
    | (extract_lets -useContext +onlyGivenNames x; revert x; intro _)
    | with_reducible refine keepsR_next ?_
    | with_reducible exact keepsR_fault
    | with_reducible refine setBoot_keeps (sub_of (by decide) hp) ?_
    | with_reducible refine endTransfer_keeps (sub_of (by decide) hp) ?_
    | with_reducible refine sendTftp_keeps (sub_of (by decide) hp) ?_
    | split
    | (clear_value *; split)
    | with_reducible refine keeps_with_mgmt (mem_of (by decide) hp) ?_
    | with_reducible refine keepsP_eq ?_ (by assumption)
    | with_reducible refine keepsO_eq ?_ (by assumption)
    | with_reducible refine keepsP_mk ?_

theorem execTftpTimeout_keeps {ps z} {s : Sys2Proof.Machine.State} (hp : [.regs, .outbox, .mgmt] ⊆ ps) (h0 : Keeps ps z s) :
    KeepsR ps z (execTftpTimeout s) := by
  unfold execTftpTimeout
  repeat' first
    | with_reducible assumption
    | with_reducible exact keepsP_fst (by assumption)
    | (extract_lets -useContext +onlyGivenNames x; refine (fun (hx : Keeps ps z x) => ?_) ?_; clear_value x; revert x; intro _ _; rotate_left; unfold x; clear x; rotate_left)
    | (extract_lets -useContext +onlyGivenNames x; revert x; intro _)
    | with_reducible refine keepsR_next ?_
    | with_reducible exact keepsR_fault
    | with_reducible refine endTransfer_keeps (sub_of (by decide) hp) ?_
    | with_reducible refine requestFile_keeps (sub_of (by decide) hp) ?_
    | with_reducible refine sendTftp_keeps (sub_of (by decide) hp) ?_
    | split
    | (clear_value *; split)
    | with_reducible refine keeps_with_mgmt (mem_of (by decide) hp) ?_
    | with_reducible refine keepsP_eq ?_ (by assumption)
    | with_reducible refine keepsO_eq ?_ (by assumption)
    | with_reducible refine keepsP_mk ?_

theorem execImageVerifyDone_keeps {ps z} {digest : Bool} {rsa : Bool} {slh : Bool} {s : Sys2Proof.Machine.State} (hp : [.regs, .outbox, .mgmt] ⊆ ps) (h3 : Keeps ps z s) :
    KeepsR ps z (execImageVerifyDone digest rsa slh s) := by
  unfold execImageVerifyDone
  repeat' first
    | with_reducible assumption
    | with_reducible exact keepsP_fst (by assumption)
    | (extract_lets -useContext +onlyGivenNames x; refine (fun (hx : Keeps ps z x) => ?_) ?_; clear_value x; revert x; intro _ _; rotate_left; unfold x; clear x; rotate_left)
    | (extract_lets -useContext +onlyGivenNames x; revert x; intro _)
    | with_reducible refine keepsR_next ?_
    | with_reducible exact keepsR_fault
    | with_reducible refine State.setReg_keeps (sub_of (by decide) hp) ?_
    | with_reducible refine setBxlBoot_keeps (sub_of (by decide) hp) ?_
    | with_reducible refine askDhcp_keeps (sub_of (by decide) hp) ?_
    | with_reducible refine setBoot_keeps (sub_of (by decide) hp) ?_
    | with_reducible refine askFor_keeps (sub_of (by decide) hp) ?_
    | split
    | (clear_value *; split)
    | with_reducible refine keeps_with_mgmt (mem_of (by decide) hp) ?_
    | with_reducible refine keepsP_eq ?_ (by assumption)
    | with_reducible refine keepsO_eq ?_ (by assumption)
    | with_reducible refine keepsP_mk ?_

theorem execFwInitDone_keeps {ps z} {failed : List (Sys2Proof.StackId × Fin 32)} {margins : List Nat} {s : Sys2Proof.Machine.State} (hp : [.regs, .isl, .mem, .outbox, .draws, .life, .mgmt, .pins, .obs, .bridge] ⊆ ps) (h2 : Keeps ps z s) :
    KeepsR ps z (execFwInitDone failed margins s) := by
  unfold execFwInitDone
  repeat' first
    | with_reducible assumption
    | with_reducible exact keepsP_fst (by assumption)
    | (extract_lets -useContext +onlyGivenNames x; refine (fun (hx : Keeps ps z x) => ?_) ?_; clear_value x; revert x; intro _ _; rotate_left; unfold x; clear x; rotate_left)
    | (extract_lets -useContext +onlyGivenNames x; revert x; intro _)
    | with_reducible refine keepsR_next ?_
    | with_reducible exact keepsR_fault
    | with_reducible refine beginLog_keeps (sub_of (by decide) hp) ?_
    | with_reducible refine setBoot_keeps (sub_of (by decide) hp) ?_
    | with_reducible refine newKey_keeps (sub_of (by decide) hp) ?_
    | with_reducible refine noteMargin_keeps (sub_of (by decide) hp) ?_
    | with_reducible refine retireChannel_keeps (sub_of (by decide) hp) ?_
    | with_reducible refine State.setReg_keeps (sub_of (by decide) hp) ?_
    | with_reducible refine loadLife_keeps (sub_of (by decide) hp) ?_
    | with_reducible refine seedKeys_keeps (sub_of (by decide) hp) ?_
    | with_reducible refine keeps_foldl (fun t a ht => ?_) ?_
    | with_reducible refine keepsP_foldl (fun t a ht => ?_) ?_
    | split
    | (clear_value *; split)
    | with_reducible refine keeps_with_pins (mem_of (by decide) hp) ?_
    | with_reducible refine keepsP_eq ?_ (by assumption)
    | with_reducible refine keepsO_eq ?_ (by assumption)
    | with_reducible refine keepsP_mk ?_

theorem writeDcb_keeps {ps z} {s : Sys2Proof.Machine.State} {o : Nat} {v : Nat} (hp : [.regs] ⊆ ps) (h0 : Keeps ps z s) :
    KeepsO ps z (writeDcb s o v) := by
  unfold writeDcb
  repeat' first
    | with_reducible assumption
    | with_reducible exact keepsP_fst (by assumption)
    | (extract_lets -useContext +onlyGivenNames x; refine (fun (hx : Keeps ps z x) => ?_) ?_; clear_value x; revert x; intro _ _; rotate_left; unfold x; clear x; rotate_left)
    | (extract_lets -useContext +onlyGivenNames x; refine (fun (hx : KeepsO ps z x) => ?_) ?_; clear_value x; revert x; intro _ _; rotate_left; unfold x; clear x; rotate_left)
    | with_reducible exact keepsO_get (by assumption)
    | (extract_lets -useContext +onlyGivenNames x; revert x; intro _)
    | exact keepsO_none
    | with_reducible refine keepsO_some ?_
    | with_reducible refine State.setReg_keeps (sub_of (by decide) hp) ?_
    | split
    | (clear_value *; split)
    | with_reducible refine keepsP_eq ?_ (by assumption)
    | with_reducible refine keepsO_eq ?_ (by assumption)
    | with_reducible refine keepsP_mk ?_

theorem commitDcb_keeps {ps z} {s : Sys2Proof.Machine.State} {v : Nat} (hp : [.regs] ⊆ ps) (h0 : Keeps ps z s) :
    KeepsO ps z (commitDcb s v) := by
  unfold commitDcb
  repeat' first
    | with_reducible assumption
    | with_reducible exact keepsP_fst (by assumption)
    | (extract_lets -useContext +onlyGivenNames x; refine (fun (hx : Keeps ps z x) => ?_) ?_; clear_value x; revert x; intro _ _; rotate_left; unfold x; clear x; rotate_left)
    | (extract_lets -useContext +onlyGivenNames x; refine (fun (hx : KeepsO ps z x) => ?_) ?_; clear_value x; revert x; intro _ _; rotate_left; unfold x; clear x; rotate_left)
    | with_reducible exact keepsO_get (by assumption)
    | (extract_lets -useContext +onlyGivenNames x; revert x; intro _)
    | exact keepsO_none
    | with_reducible refine keepsO_some ?_
    | with_reducible refine State.setReg_keeps (sub_of (by decide) hp) ?_
    | split
    | (clear_value *; split)
    | with_reducible refine keepsP_eq ?_ (by assumption)
    | with_reducible refine keepsO_eq ?_ (by assumption)
    | with_reducible refine keepsP_mk ?_

theorem execDcbAreaWrite_keeps {ps z} {i : Fin 896} {v : Sys2Proof.W32} {s : Sys2Proof.Machine.State} (hp : [.regs, .mem, .outbox, .bridge] ⊆ ps) (h2 : Keeps ps z s) :
    KeepsR ps z (execDcbAreaWrite i v s) := by
  unfold execDcbAreaWrite
  repeat' first
    | with_reducible assumption
    | with_reducible exact keepsP_fst (by assumption)
    | (extract_lets -useContext +onlyGivenNames x; refine (fun (hx : Keeps ps z x) => ?_) ?_; clear_value x; revert x; intro _ _; rotate_left; unfold x; clear x; rotate_left)
    | (extract_lets -useContext +onlyGivenNames x; refine (fun (hx : KeepsO ps z x) => ?_) ?_; clear_value x; revert x; intro _ _; rotate_left; unfold x; clear x; rotate_left)
    | with_reducible exact keepsO_get (by assumption)
    | (extract_lets -useContext +onlyGivenNames x; revert x; intro _)
    | with_reducible refine keepsR_next ?_
    | with_reducible exact keepsR_fault
    | with_reducible refine logIgnored_keeps (sub_of (by decide) hp) ?_
    | with_reducible refine writeDcb_keeps (sub_of (by decide) hp) ?_
    | with_reducible refine keepsO_eq (writeDcb_keeps (sub_of (by decide) hp) ?_) (by assumption)
    | split
    | (clear_value *; split)
    | with_reducible refine keepsP_eq ?_ (by assumption)
    | with_reducible refine keepsO_eq ?_ (by assumption)
    | with_reducible refine keepsP_mk ?_

theorem execDcbCommit_keeps {ps z} {v : Sys2Proof.W32} {s : Sys2Proof.Machine.State} (hp : [.regs, .mem, .outbox, .bridge] ⊆ ps) (h1 : Keeps ps z s) :
    KeepsR ps z (execDcbCommit v s) := by
  unfold execDcbCommit
  repeat' first
    | with_reducible assumption
    | with_reducible exact keepsP_fst (by assumption)
    | (extract_lets -useContext +onlyGivenNames x; refine (fun (hx : Keeps ps z x) => ?_) ?_; clear_value x; revert x; intro _ _; rotate_left; unfold x; clear x; rotate_left)
    | (extract_lets -useContext +onlyGivenNames x; refine (fun (hx : KeepsO ps z x) => ?_) ?_; clear_value x; revert x; intro _ _; rotate_left; unfold x; clear x; rotate_left)
    | with_reducible exact keepsO_get (by assumption)
    | (extract_lets -useContext +onlyGivenNames x; revert x; intro _)
    | with_reducible refine keepsR_next ?_
    | with_reducible exact keepsR_fault
    | with_reducible refine logIgnored_keeps (sub_of (by decide) hp) ?_
    | with_reducible refine commitDcb_keeps (sub_of (by decide) hp) ?_
    | with_reducible refine keepsO_eq (commitDcb_keeps (sub_of (by decide) hp) ?_) (by assumption)
    | split
    | (clear_value *; split)
    | with_reducible refine keepsP_eq ?_ (by assumption)
    | with_reducible refine keepsO_eq ?_ (by assumption)
    | with_reducible refine keepsP_mk ?_

theorem applyKq_keeps {ps z} {s : Sys2Proof.Machine.State} {k : Nat} (hp : [.regs, .queues] ⊆ ps) (h0 : Keeps ps z s) :
    Keeps ps z (applyKq s k) := by
  unfold applyKq
  repeat' first
    | with_reducible assumption
    | with_reducible exact keepsP_fst (by assumption)
    | (extract_lets -useContext +onlyGivenNames x; refine (fun (hx : Keeps ps z x) => ?_) ?_; clear_value x; revert x; intro _ _; rotate_left; unfold x; clear x; rotate_left)
    | (extract_lets -useContext +onlyGivenNames x; refine (fun (hx : KeepsO ps z x) => ?_) ?_; clear_value x; revert x; intro _ _; rotate_left; unfold x; clear x; rotate_left)
    | with_reducible exact keepsO_get (by assumption)
    | (extract_lets -useContext +onlyGivenNames x; have _hx : ∀ a, x a = x a := fun _ => rfl; clear _hx; unfold x; clear x)
    | (extract_lets -useContext +onlyGivenNames x; revert x; intro _)
    | with_reducible refine writeKqCfg_keeps (sub_of (by decide) hp) ?_
    | with_reducible refine keepsO_eq (writeKqCfg_keeps (sub_of (by decide) hp) ?_) (by assumption)
    | with_reducible refine State.setReg_keeps (sub_of (by decide) hp) ?_
    | with_reducible refine keeps_foldl (fun t a ht => ?_) ?_
    | with_reducible refine keepsP_foldl (fun t a ht => ?_) ?_
    | split
    | (clear_value *; split)
    | with_reducible refine keepsP_eq ?_ (by assumption)
    | with_reducible refine keepsO_eq ?_ (by assumption)
    | with_reducible refine keepsO_getD ?_ ?_
    | with_reducible refine keepsP_mk ?_

theorem applyLink_keeps {ps z} {en : Nat} {media : Nat} {bond : Nat} {s : Sys2Proof.Machine.State} {p : Nat} (hp : [.regs, .mem, .outbox, .life, .link, .port, .bridge] ⊆ ps) (h3 : Keeps ps z s) :
    Keeps ps z (applyLink en media bond s p) := by
  unfold applyLink
  repeat' first
    | with_reducible assumption
    | with_reducible exact keepsP_fst (by assumption)
    | (extract_lets -useContext +onlyGivenNames x; refine (fun (hx : Keeps ps z x) => ?_) ?_; clear_value x; revert x; intro _ _; rotate_left; unfold x; clear x; rotate_left)
    | (extract_lets -useContext +onlyGivenNames x; revert x; intro _)
    | with_reducible refine State.setReg_keeps (sub_of (by decide) hp) ?_
    | with_reducible refine writeLnkCtrl_keeps (sub_of (by decide) hp) ?_
    | split
    | (clear_value *; split)
    | with_reducible refine keepsP_eq ?_ (by assumption)
    | with_reducible refine keepsO_eq ?_ (by assumption)
    | with_reducible refine keepsP_mk ?_

theorem applyDcb_keeps {ps z} {s : State} (hp : [.regs, .mem, .queues, .outbox, .life, .link, .port, .mgmt, .bridge] ⊆ ps) (h0 : Keeps ps z s) : Keeps ps z (applyDcb s) := by
  have hr : ∀ {t : State} {b i o v}, Keeps ps z t → Keeps ps z (t.setReg b i o v) := fun h =>
    State.setReg_keeps (sub_of (b := [.regs, .mem, .queues, .outbox, .life, .link, .port, .mgmt, .bridge]) (by decide) hp) h
  unfold applyDcb
  extract_lets s1 s2 en media s3 s4 s5 s6
  have h1 : Keeps ps z s1 := hr h0
  clear_value s1
  have h2 : Keeps ps z s2 := keepsO_getD (writeMap_keeps (sub_of (b := [.regs, .mem, .queues, .outbox, .life, .link, .port, .mgmt, .bridge]) (by decide) hp) h1) h1
  clear_value s2 en media
  have h3 : Keeps ps z s3 := keeps_foldl (fun _ _ h => applyLink_keeps (sub_of (b := [.regs, .mem, .queues, .outbox, .life, .link, .port, .mgmt, .bridge]) (by decide) hp) h) h2
  clear_value s3
  have h4 : Keeps ps z s4 := hr (hr (hr h3))
  clear_value s4
  have h5 : Keeps ps z s5 := keeps_with_mgmt (mem_of (b := [.regs, .mem, .queues, .outbox, .life, .link, .port, .mgmt, .bridge]) (by decide) hp) h4
  clear_value s5
  have h6 : Keeps ps z s6 := hr (hr h5)
  clear_value s6
  exact keeps_foldl (fun _ _ h => applyKq_keeps (sub_of (b := [.regs, .mem, .queues, .outbox, .life, .link, .port, .mgmt, .bridge]) (by decide) hp) h) h6

theorem execDcbCheckDone_keeps {ps z} {s : Sys2Proof.Machine.State} (hp : [.regs, .mem, .queues, .outbox, .life, .link, .port, .mgmt, .bridge] ⊆ ps) (h0 : Keeps ps z s) :
    KeepsR ps z (execDcbCheckDone s) := by
  unfold execDcbCheckDone
  repeat' first
    | with_reducible assumption
    | with_reducible exact keepsP_fst (by assumption)
    | (extract_lets -useContext +onlyGivenNames x; refine (fun (hx : Keeps ps z x) => ?_) ?_; clear_value x; revert x; intro _ _; rotate_left; unfold x; clear x; rotate_left)
    | (extract_lets -useContext +onlyGivenNames x; revert x; intro _)
    | with_reducible refine keepsR_next ?_
    | with_reducible exact keepsR_fault
    | with_reducible refine setBoot_keeps (sub_of (by decide) hp) ?_
    | with_reducible refine State.setField_keeps (sub_of (by decide) hp) ?_
    | with_reducible refine applyDcb_keeps (sub_of (by decide) hp) ?_
    | with_reducible refine State.setReg_keeps (sub_of (by decide) hp) ?_
    | split
    | (clear_value *; split)
    | with_reducible refine keepsP_eq ?_ (by assumption)
    | with_reducible refine keepsO_eq ?_ (by assumption)
    | with_reducible refine keepsP_mk ?_

end Sys2Proof.Machine
end

