-- ==== Sys2Proof/Laws/FrameViews.lean ====
section
/-!
SUPPORT. Frames: for each operation of Sys2Proof/Machine/Views.lean, the parts of State it may change, and that it keeps the stores'
canonical form.
-/
namespace Sys2Proof.Machine

open Sys2Proof

theorem noteUnassigned_keeps {ps z} {s : Sys2Proof.Machine.State} {p : Sys2Proof.Path} {off : Nat} {code : Nat} {write : Bool} (hp : [.regs, .mem, .outbox, .bridge] ⊆ ps) (h0 : Keeps ps z s) :
    Keeps ps z (noteUnassigned s p off code write) := by
  unfold noteUnassigned
  repeat' first
    | with_reducible assumption
    | with_reducible exact keepsP_fst (by assumption)
    | (extract_lets -useContext +onlyGivenNames x; refine (fun (hx : Keeps ps z x) => ?_) ?_; clear_value x; revert x; intro _ _; rotate_left; unfold x; clear x; rotate_left)
    | (extract_lets -useContext +onlyGivenNames x; revert x; intro _)
    | with_reducible refine State.bump_keeps (sub_of (by decide) hp) ?_
    | with_reducible refine capture_keeps (sub_of (by decide) hp) ?_
    | split
    | (clear_value *; split)
    | with_reducible refine keepsP_eq ?_ (by assumption)
    | with_reducible refine keepsO_eq ?_ (by assumption)
    | with_reducible refine keepsP_mk ?_

theorem readAt_keeps {ps z} {p : Sys2Proof.Path} {s : Sys2Proof.Machine.State} {b : Sys2Proof.Block} {i : Nat} {off : Nat} (hp : [.regs, .hiCap, .mem, .outbox, .bridge] ⊆ ps) (h1 : Keeps ps z s) :
    KeepsP ps z (readAt p s b i off) := by
  unfold readAt
  repeat' first
    | with_reducible assumption
    | with_reducible exact keepsP_fst (by assumption)
    | (extract_lets -useContext +onlyGivenNames x; refine (fun (hx : Keeps ps z x) => ?_) ?_; clear_value x; revert x; intro _ _; rotate_left; unfold x; clear x; rotate_left)
    | (extract_lets -useContext +onlyGivenNames x; revert x; intro _)
    | with_reducible refine capture_keeps (sub_of (by decide) hp) ?_
    | split
    | (clear_value *; split)
    | with_reducible refine keeps_with_hiCap (mem_of (by decide) hp) ?_
    | with_reducible refine keepsP_eq ?_ (by assumption)
    | with_reducible refine keepsO_eq ?_ (by assumption)
    | with_reducible refine keepsP_mk ?_

theorem readReg_keeps {ps z} {p : Sys2Proof.Path} {s : Sys2Proof.Machine.State} {off : Nat} (hp : [.regs, .hiCap, .mem, .outbox, .bridge] ⊆ ps) (h1 : Keeps ps z s) :
    KeepsP ps z (readReg p s off) := by
  unfold readReg
  repeat' first
    | with_reducible assumption
    | with_reducible exact keepsP_fst (by assumption)
    | (extract_lets -useContext +onlyGivenNames x; refine (fun (hx : Keeps ps z x) => ?_) ?_; clear_value x; revert x; intro _ _; rotate_left; unfold x; clear x; rotate_left)
    | (extract_lets -useContext +onlyGivenNames x; refine (fun (hx : KeepsP ps z x) => ?_) ?_; clear_value x; revert x; intro _ _; rotate_left; unfold x; clear x; rotate_left)
    | (extract_lets -useContext +onlyGivenNames x; revert x; intro _)
    | with_reducible refine readAt_keeps (sub_of (by decide) hp) ?_
    | with_reducible refine keepsP_fst (readAt_keeps (sub_of (by decide) hp) ?_)
    | with_reducible refine keepsP_eq (readAt_keeps (sub_of (by decide) hp) ?_) (by assumption)
    | with_reducible refine noteUnassigned_keeps (sub_of (by decide) hp) ?_
    | split
    | (clear_value *; split)
    | with_reducible refine keepsP_eq ?_ (by assumption)
    | with_reducible refine keepsO_eq ?_ (by assumption)
    | with_reducible refine keepsP_mk ?_

theorem readReg8_keeps {ps z} {p : Sys2Proof.Path} {s : Sys2Proof.Machine.State} {off : Nat} (hp : [.regs, .hiCap, .mem, .outbox, .bridge] ⊆ ps) (h1 : Keeps ps z s) :
    KeepsP ps z (readReg8 p s off) := by
  unfold readReg8
  repeat' first
    | with_reducible assumption
    | with_reducible exact keepsP_fst (by assumption)
    | (extract_lets -useContext +onlyGivenNames x; refine (fun (hx : Keeps ps z x) => ?_) ?_; clear_value x; revert x; intro _ _; rotate_left; unfold x; clear x; rotate_left)
    | (extract_lets -useContext +onlyGivenNames x; refine (fun (hx : KeepsP ps z x) => ?_) ?_; clear_value x; revert x; intro _ _; rotate_left; unfold x; clear x; rotate_left)
    | (extract_lets -useContext +onlyGivenNames x; revert x; intro _)
    | with_reducible refine readReg_keeps (sub_of (by decide) hp) ?_
    | with_reducible refine keepsP_fst (readReg_keeps (sub_of (by decide) hp) ?_)
    | with_reducible refine keepsP_eq (readReg_keeps (sub_of (by decide) hp) ?_) (by assumption)
    | split
    | (clear_value *; split)
    | with_reducible refine keepsP_eq ?_ (by assumption)
    | with_reducible refine keepsO_eq ?_ (by assumption)
    | with_reducible refine keepsP_mk ?_

end Sys2Proof.Machine
end

