-- ==== Sys2Proof/Laws/FrameRegisters.lean ====
section
/-!
SUPPORT. Frames: for each operation of Sys2Proof/Machine/Registers.lean, the parts of State it may change, and that it keeps the stores'
canonical form.
-/
namespace Sys2Proof.Machine

open Sys2Proof

theorem resetPage_keeps {ps z} {s : Sys2Proof.Machine.State} {e : Sys2Proof.Block × Nat} (hp : [.regs] ⊆ ps) (h0 : Keeps ps z s) :
    Keeps ps z (resetPage s e) := by
  unfold resetPage
  repeat' first
    | with_reducible assumption
    | with_reducible exact keepsP_fst (by assumption)
    | (extract_lets -useContext +onlyGivenNames x; refine (fun (hx : Keeps ps z x) => ?_) ?_; clear_value x; revert x; intro _ _; rotate_left; unfold x; clear x; rotate_left)
    | (extract_lets -useContext +onlyGivenNames x; revert x; intro _)
    | split
    | (clear_value *; split)
    | with_reducible refine keeps_with_regs (mem_of (by decide) hp) ?_
    | with_reducible refine keepsP_eq ?_ (by assumption)
    | with_reducible refine keepsO_eq ?_ (by assumption)
    | with_reducible refine keepsP_mk ?_

theorem resetCommands_keeps {ps z} {s : Sys2Proof.Machine.State} {eng : Nat} (hp : [.queues, .bridge] ⊆ ps) (h0 : Keeps ps z s) :
    Keeps ps z (resetCommands s eng) := by
  unfold resetCommands
  repeat' first
    | with_reducible assumption
    | with_reducible exact keepsP_fst (by assumption)
    | (extract_lets -useContext +onlyGivenNames x; refine (fun (hx : Keeps ps z x) => ?_) ?_; clear_value x; revert x; intro _ _; rotate_left; unfold x; clear x; rotate_left)
    | (extract_lets -useContext +onlyGivenNames x; revert x; intro _)
    | with_reducible refine reportEngine_keeps (sub_of (by decide) hp) ?_
    | with_reducible refine keeps_foldl (fun t a ht => ?_) ?_
    | with_reducible refine keepsP_foldl (fun t a ht => ?_) ?_
    | split
    | (clear_value *; split)
    | with_reducible refine keepsP_eq ?_ (by assumption)
    | with_reducible refine keepsO_eq ?_ (by assumption)
    | with_reducible refine keepsP_mk ?_

theorem discardItems_keeps {ps z} {s : Sys2Proof.Machine.State} {k : Nat} (hp : [.regs, .isl, .mem, .outbox, .draws, .bridge] ⊆ ps) (h0 : Keeps ps z s) :
    Keeps ps z (discardItems s k) := by
  unfold discardItems
  repeat' first
    | with_reducible assumption
    | with_reducible exact keepsP_fst (by assumption)
    | (extract_lets -useContext +onlyGivenNames x; refine (fun (hx : Keeps ps z x) => ?_) ?_; clear_value x; revert x; intro _ _; rotate_left; unfold x; clear x; rotate_left)
    | (extract_lets -useContext +onlyGivenNames x; revert x; intro _)
    | with_reducible refine capture_keeps (sub_of (by decide) hp) ?_
    | with_reducible refine State.setIsl_keeps (sub_of (by decide) hp) ?_
    | split
    | (clear_value *; split)
    | with_reducible refine keeps_with_draws (mem_of (by decide) hp) ?_
    | with_reducible refine keepsP_eq ?_ (by assumption)
    | with_reducible refine keepsO_eq ?_ (by assumption)
    | with_reducible refine keepsP_mk ?_

theorem refuseBursts_keeps {ps z} {s : Sys2Proof.Machine.State} {n : Nat} {k : Nat} (hp : [.dma] ⊆ ps) (h0 : Keeps ps z s) :
    Keeps ps z (refuseBursts s n k) := by
  unfold refuseBursts
  repeat' first
    | with_reducible assumption
    | with_reducible exact keepsP_fst (by assumption)
    | (extract_lets -useContext +onlyGivenNames x; refine (fun (hx : Keeps ps z x) => ?_) ?_; clear_value x; revert x; intro _ _; rotate_left; unfold x; clear x; rotate_left)
    | (extract_lets -useContext +onlyGivenNames x; revert x; intro _)
    | with_reducible refine State.setCh_keeps (sub_of (by decide) hp) ?_
    | split
    | (clear_value *; split)
    | with_reducible refine keepsP_eq ?_ (by assumption)
    | with_reducible refine keepsO_eq ?_ (by assumption)
    | with_reducible refine keepsP_mk ?_

theorem resetArray_keeps {ps z} {s : Sys2Proof.Machine.State} {n : Nat} (hp : [.isl, .arr, .vec, .alsScrub, .dma, .ctx, .seq, .bxl, .pwr] ⊆ ps) (h0 : Keeps ps z s) :
    Keeps ps z (resetArray s n) := by
  unfold resetArray
  repeat' first
    | with_reducible assumption
    | with_reducible exact keepsP_fst (by assumption)
    | (extract_lets -useContext +onlyGivenNames x; refine (fun (hx : Keeps ps z x) => ?_) ?_; clear_value x; revert x; intro _ _; rotate_left; unfold x; clear x; rotate_left)
    | (extract_lets -useContext +onlyGivenNames x; revert x; intro _)
    | with_reducible refine State.setArr_keeps (sub_of (by decide) hp) ?_
    | with_reducible refine State.setVec_keeps (sub_of (by decide) hp) ?_
    | with_reducible refine State.setSeq_keeps (sub_of (by decide) hp) ?_
    | with_reducible refine unitEnd_keeps (sub_of (by decide) hp) ?_
    | with_reducible refine mergeIsland_keeps (sub_of (by decide) hp) ?_
    | with_reducible refine refuseBursts_keeps (sub_of (by decide) hp) ?_
    | with_reducible refine dropAgent_keeps (sub_of (by decide) hp) ?_
    | with_reducible refine keeps_foldl (fun t a ht => ?_) ?_
    | with_reducible refine keepsP_foldl (fun t a ht => ?_) ?_
    | split
    | (clear_value *; split)
    | with_reducible refine keeps_with_alsScrub (mem_of (by decide) hp) ?_
    | with_reducible refine keepsP_eq ?_ (by assumption)
    | with_reducible refine keepsO_eq ?_ (by assumption)
    | with_reducible refine keepsP_mk ?_

theorem refuseNmu_keeps {ps z} {s : Sys2Proof.Machine.State} {u : Nat} (hp : [.nmu] ⊆ ps) (h0 : Keeps ps z s) :
    Keeps ps z (refuseNmu s u) := by
  unfold refuseNmu
  repeat' first
    | with_reducible assumption
    | with_reducible exact keepsP_fst (by assumption)
    | (extract_lets -useContext +onlyGivenNames x; refine (fun (hx : Keeps ps z x) => ?_) ?_; clear_value x; revert x; intro _ _; rotate_left; unfold x; clear x; rotate_left)
    | (extract_lets -useContext +onlyGivenNames x; revert x; intro _)
    | with_reducible refine State.setNmu_keeps (sub_of (by decide) hp) ?_
    | split
    | (clear_value *; split)
    | with_reducible refine keepsP_eq ?_ (by assumption)
    | with_reducible refine keepsO_eq ?_ (by assumption)
    | with_reducible refine keepsP_mk ?_

theorem resetDie_keeps {ps z} {s : Sys2Proof.Machine.State} {d : Nat} (hp : [.regs, .isl, .mmu, .dma, .seq, .bxl, .pwr, .nmu, .bridge] ⊆ ps) (h0 : Keeps ps z s) :
    Keeps ps z (resetDie s d) := by
  unfold resetDie
  repeat' first
    | with_reducible assumption
    | with_reducible exact keepsP_fst (by assumption)
    | (extract_lets -useContext +onlyGivenNames x; refine (fun (hx : Keeps ps z x) => ?_) ?_; clear_value x; revert x; intro _ _; rotate_left; unfold x; clear x; rotate_left)
    | (extract_lets -useContext +onlyGivenNames x; revert x; intro _)
    | with_reducible refine State.setSeq_keeps (sub_of (by decide) hp) ?_
    | with_reducible refine State.setReg_keeps (sub_of (by decide) hp) ?_
    | with_reducible refine State.setCh_keeps (sub_of (by decide) hp) ?_
    | with_reducible refine refuseNmu_keeps (sub_of (by decide) hp) ?_
    | with_reducible refine burstsEnd_keeps (sub_of (by decide) hp) ?_
    | with_reducible refine dropAgent_keeps (sub_of (by decide) hp) ?_
    | with_reducible refine refuseAgent_keeps (sub_of (by decide) hp) ?_
    | with_reducible refine keeps_foldl (fun t a ht => ?_) ?_
    | with_reducible refine keepsP_foldl (fun t a ht => ?_) ?_
    | split
    | (clear_value *; split)
    | with_reducible refine keeps_with_mmu_pwr_bridge (mem_of (by decide) hp) (mem_of (by decide) hp) (mem_of (by decide) hp) ?_
    | with_reducible refine keepsP_eq ?_ (by assumption)
    | with_reducible refine keepsO_eq ?_ (by assumption)
    | with_reducible refine keepsP_mk ?_

theorem blockReset_keeps {ps z} {s : Sys2Proof.Machine.State} {k : Nat} (hp : [.regs, .isl, .mem, .mmu, .arr, .vec, .alsScrub, .dma, .ctx, .queues, .seq, .outbox, .draws, .bxl, .pwr, .nmu, .bridge] ⊆ ps) (h0 : Keeps ps z s) :
    Keeps ps z (blockReset s k) := by
  unfold blockReset
  repeat' first
    | with_reducible assumption
    | with_reducible exact keepsP_fst (by assumption)
    | (extract_lets -useContext +onlyGivenNames x; refine (fun (hx : Keeps ps z x) => ?_) ?_; clear_value x; revert x; intro _ _; rotate_left; unfold x; clear x; rotate_left)
    | (extract_lets -useContext +onlyGivenNames x; revert x; intro _)
    | with_reducible refine State.setIsl_keeps (sub_of (by decide) hp) ?_
    | with_reducible refine resetDie_keeps (sub_of (by decide) hp) ?_
    | with_reducible refine resetArray_keeps (sub_of (by decide) hp) ?_
    | with_reducible refine resetPage_keeps (sub_of (by decide) hp) ?_
    | with_reducible refine stopSiblings_keeps (sub_of (by decide) hp) ?_
    | with_reducible refine resetCommands_keeps (sub_of (by decide) hp) ?_
    | with_reducible refine discardItems_keeps (sub_of (by decide) hp) ?_
    | with_reducible refine keeps_foldl (fun t a ht => ?_) ?_
    | with_reducible refine keepsP_foldl (fun t a ht => ?_) ?_
    | split
    | (clear_value *; split)
    | with_reducible refine keepsP_eq ?_ (by assumption)
    | with_reducible refine keepsO_eq ?_ (by assumption)
    | with_reducible refine keepsP_mk ?_

theorem endBlockReset_keeps {ps z} {s : Sys2Proof.Machine.State} {k : Nat} (hp : [.regs, .isl, .mem, .arr, .vec, .als, .alsScrub, .dss, .ctx, .seq, .outbox, .draws, .pwr, .rtr, .xch, .bridge] ⊆ ps) (h0 : Keeps ps z s) :
    Keeps ps z (endBlockReset s k) := by
  unfold endBlockReset
  repeat' first
    | with_reducible assumption
    | with_reducible exact keepsP_fst (by assumption)
    | (extract_lets -useContext +onlyGivenNames x; refine (fun (hx : Keeps ps z x) => ?_) ?_; clear_value x; revert x; intro _ _; rotate_left; unfold x; clear x; rotate_left)
    | (extract_lets -useContext +onlyGivenNames x; revert x; intro _)
    | with_reducible refine State.setIsl_keeps (sub_of (by decide) hp) ?_
    | with_reducible refine kickIsland_keeps (sub_of (by decide) hp) ?_
    | with_reducible refine scrubPart_keeps (sub_of (by decide) hp) ?_
    | with_reducible refine State.setReg_keeps (sub_of (by decide) hp) ?_
    | with_reducible refine scrubAls_keeps (sub_of (by decide) hp) ?_
    | with_reducible refine keeps_foldl (fun t a ht => ?_) ?_
    | with_reducible refine keepsP_foldl (fun t a ht => ?_) ?_
    | split
    | (clear_value *; split)
    | with_reducible refine keeps_with_alsScrub (mem_of (by decide) hp) ?_
    | with_reducible refine keepsP_eq ?_ (by assumption)
    | with_reducible refine keepsO_eq ?_ (by assumption)
    | with_reducible refine keepsP_mk ?_

theorem setQuiesce_keeps {ps z} {s : Sys2Proof.Machine.State} {k : Nat} {on : Bool} (hp : [.regs, .isl, .mem, .arr, .vec, .als, .ctx, .seq, .outbox, .draws, .pwr, .rtr, .xch, .bridge] ⊆ ps) (h0 : Keeps ps z s) :
    Keeps ps z (setQuiesce s k on) := by
  unfold setQuiesce
  repeat' first
    | with_reducible assumption
    | with_reducible exact keepsP_fst (by assumption)
    | (extract_lets -useContext +onlyGivenNames x; refine (fun (hx : Keeps ps z x) => ?_) ?_; clear_value x; revert x; intro _ _; rotate_left; unfold x; clear x; rotate_left)
    | (extract_lets -useContext +onlyGivenNames x; revert x; intro _)
    | with_reducible refine State.setIsl_keeps (sub_of (by decide) hp) ?_
    | with_reducible refine kickIsland_keeps (sub_of (by decide) hp) ?_
    | split
    | (clear_value *; split)
    | with_reducible refine keepsP_eq ?_ (by assumption)
    | with_reducible refine keepsO_eq ?_ (by assumption)
    | with_reducible refine keepsP_mk ?_

theorem setEnable_keeps {ps z} {s : Sys2Proof.Machine.State} {k : Nat} {on : Bool} (hp : [.regs, .isl, .mem, .arr, .vec, .als, .alsScrub, .dma, .ctx, .seq, .outbox, .draws, .pwr, .rtr, .xch, .bridge] ⊆ ps) (h0 : Keeps ps z s) :
    KeepsO ps z (setEnable s k on) := by
  unfold setEnable
  repeat' first
    | with_reducible assumption
    | with_reducible exact keepsP_fst (by assumption)
    | (extract_lets -useContext +onlyGivenNames x; refine (fun (hx : Keeps ps z x) => ?_) ?_; clear_value x; revert x; intro _ _; rotate_left; unfold x; clear x; rotate_left)
    | (extract_lets -useContext +onlyGivenNames x; refine (fun (hx : KeepsO ps z x) => ?_) ?_; clear_value x; revert x; intro _ _; rotate_left; unfold x; clear x; rotate_left)
    | with_reducible exact keepsO_get (by assumption)
    | (extract_lets -useContext +onlyGivenNames x; revert x; intro _)
    | exact keepsO_none
    | with_reducible refine keepsO_some ?_
    | with_reducible refine State.setIsl_keeps (sub_of (by decide) hp) ?_
    | with_reducible refine kickIsland_keeps (sub_of (by decide) hp) ?_
    | with_reducible refine startIsland_keeps (sub_of (by decide) hp) ?_
    | split
    | (clear_value *; split)
    | with_reducible refine keepsP_eq ?_ (by assumption)
    | with_reducible refine keepsO_eq ?_ (by assumption)
    | with_reducible refine keepsP_mk ?_

theorem writeCtrl_keeps {ps z} {s : Sys2Proof.Machine.State} {b : Sys2Proof.Block} {i : Nat} {off : Nat} {v : Nat} (hp : [.regs, .isl, .mem, .mmu, .arr, .vec, .als, .alsScrub, .dma, .ctx, .queues, .seq, .outbox, .draws, .bxl, .pwr, .rtr, .xch, .nmu, .bridge] ⊆ ps) (h0 : Keeps ps z s) :
    Keeps ps z (writeCtrl s b i off v) := by
  unfold writeCtrl
  repeat' first
    | with_reducible assumption
    | with_reducible exact keepsP_fst (by assumption)
    | (extract_lets -useContext +onlyGivenNames x; refine (fun (hx : Keeps ps z x) => ?_) ?_; clear_value x; revert x; intro _ _; rotate_left; unfold x; clear x; rotate_left)
    | (extract_lets -useContext +onlyGivenNames x; refine (fun (hx : KeepsO ps z x) => ?_) ?_; clear_value x; revert x; intro _ _; rotate_left; unfold x; clear x; rotate_left)
    | with_reducible exact keepsO_get (by assumption)
    | (extract_lets -useContext +onlyGivenNames x; revert x; intro _)
    | with_reducible refine setQuiesce_keeps (sub_of (by decide) hp) ?_
    | with_reducible refine setEnable_keeps (sub_of (by decide) hp) ?_
    | with_reducible refine keepsO_eq (setEnable_keeps (sub_of (by decide) hp) ?_) (by assumption)
    | with_reducible refine blockReset_keeps (sub_of (by decide) hp) ?_
    | with_reducible refine logIgnored_keeps (sub_of (by decide) hp) ?_
    | split
    | (clear_value *; split)
    | with_reducible refine keepsP_eq ?_ (by assumption)
    | with_reducible refine keepsO_eq ?_ (by assumption)
    | with_reducible refine keepsP_mk ?_

theorem writePwr_keeps {ps z} {s : Sys2Proof.Machine.State} {po : Nat} {v : Nat} (hp : [.regs, .isl, .pwr] ⊆ ps) (h0 : Keeps ps z s) :
    KeepsO ps z (writePwr s po v) := by
  unfold writePwr
  repeat' first
    | with_reducible assumption
    | with_reducible exact keepsP_fst (by assumption)
    | (extract_lets -useContext +onlyGivenNames x; refine (fun (hx : Keeps ps z x) => ?_) ?_; clear_value x; revert x; intro _ _; rotate_left; unfold x; clear x; rotate_left)
    | (extract_lets -useContext +onlyGivenNames x; refine (fun (hx : KeepsO ps z x) => ?_) ?_; clear_value x; revert x; intro _ _; rotate_left; unfold x; clear x; rotate_left)
    | with_reducible exact keepsO_get (by assumption)
    | (extract_lets -useContext +onlyGivenNames x; revert x; intro _)
    | exact keepsO_none
    | with_reducible refine keepsO_some ?_
    | with_reducible refine retune_keeps (sub_of (by decide) hp) ?_
    | with_reducible refine armSet_keeps (sub_of (by decide) hp) ?_
    | with_reducible refine plainWrite_keeps (sub_of (by decide) hp) ?_
    | split
    | (clear_value *; split)
    | with_reducible refine keepsP_eq ?_ (by assumption)
    | with_reducible refine keepsO_eq ?_ (by assumption)
    | with_reducible refine keepsP_mk ?_

theorem writeObs_keeps {ps z} {s : Sys2Proof.Machine.State} {po : Nat} {v : Nat} (hp : [.regs, .life, .obs] ⊆ ps) (h0 : Keeps ps z s) :
    KeepsO ps z (writeObs s po v) := by
  unfold writeObs
  repeat' first
    | with_reducible assumption
    | with_reducible exact keepsP_fst (by assumption)
    | (extract_lets -useContext +onlyGivenNames x; refine (fun (hx : Keeps ps z x) => ?_) ?_; clear_value x; revert x; intro _ _; rotate_left; unfold x; clear x; rotate_left)
    | (extract_lets -useContext +onlyGivenNames x; refine (fun (hx : KeepsO ps z x) => ?_) ?_; clear_value x; revert x; intro _ _; rotate_left; unfold x; clear x; rotate_left)
    | with_reducible exact keepsO_get (by assumption)
    | (extract_lets -useContext +onlyGivenNames x; revert x; intro _)
    | exact keepsO_none
    | with_reducible refine keepsO_some ?_
    | with_reducible refine writeLogCtrl_keeps (sub_of (by decide) hp) ?_
    | with_reducible refine plainWrite_keeps (sub_of (by decide) hp) ?_
    | split
    | (clear_value *; split)
    | with_reducible refine keepsP_eq ?_ (by assumption)
    | with_reducible refine keepsO_eq ?_ (by assumption)
    | with_reducible refine keepsP_mk ?_

theorem writeKq_keeps {ps z} {s : Sys2Proof.Machine.State} {po : Nat} {v : Nat} (hp : [.regs, .queues] ⊆ ps) (h0 : Keeps ps z s) :
    KeepsO ps z (writeKq s po v) := by
  unfold writeKq
  repeat' first
    | with_reducible assumption
    | with_reducible exact keepsP_fst (by assumption)
    | (extract_lets -useContext +onlyGivenNames x; refine (fun (hx : Keeps ps z x) => ?_) ?_; clear_value x; revert x; intro _ _; rotate_left; unfold x; clear x; rotate_left)
    | (extract_lets -useContext +onlyGivenNames x; refine (fun (hx : KeepsO ps z x) => ?_) ?_; clear_value x; revert x; intro _ _; rotate_left; unfold x; clear x; rotate_left)
    | with_reducible exact keepsO_get (by assumption)
    | (extract_lets -useContext +onlyGivenNames x; revert x; intro _)
    | exact keepsO_none
    | with_reducible refine keepsO_some ?_
    | with_reducible refine plainWrite_keeps (sub_of (by decide) hp) ?_
    | with_reducible refine writeKqCfg_keeps (sub_of (by decide) hp) ?_
    | with_reducible refine keepsO_eq (writeKqCfg_keeps (sub_of (by decide) hp) ?_) (by assumption)
    | split
    | (clear_value *; split)
    | with_reducible refine keepsP_eq ?_ (by assumption)
    | with_reducible refine keepsO_eq ?_ (by assumption)
    | with_reducible refine keepsP_mk ?_

set_option maxRecDepth 20000 in
theorem writeDma_keeps {ps z} {s : Sys2Proof.Machine.State} {d : Nat} {po : Nat} {v : Nat} {priv : Bool} (hp : [.regs, .isl, .mem, .dma, .outbox, .bxl, .pwr, .bridge] ⊆ ps) (h0 : Keeps ps z s) :
    KeepsO ps z (writeDma s d po v priv) := by
  unfold writeDma
  repeat' first
    | with_reducible assumption
    | with_reducible exact keepsP_fst (by assumption)
    | (extract_lets -useContext +onlyGivenNames x; refine (fun (hx : Keeps ps z x) => ?_) ?_; clear_value x; revert x; intro _ _; rotate_left; unfold x; clear x; rotate_left)
    | (extract_lets -useContext +onlyGivenNames x; refine (fun (hx : KeepsO ps z x) => ?_) ?_; clear_value x; revert x; intro _ _; rotate_left; unfold x; clear x; rotate_left)
    | with_reducible exact keepsO_get (by assumption)
    | (extract_lets -useContext +onlyGivenNames x; revert x; intro _)
    | exact keepsO_none
    | with_reducible refine keepsO_some ?_
    | with_reducible refine logIgnored_keeps (sub_of (by decide) hp) ?_
    | with_reducible refine giveStarts_keeps (sub_of (by decide) hp) ?_
    | with_reducible refine dmaAction_keeps (sub_of (by decide) hp) ?_
    | with_reducible refine State.setCh_keeps (sub_of (by decide) hp) ?_
    | with_reducible refine writeTimer_keeps (sub_of (by decide) hp) ?_
    | with_reducible refine writeDmaCfg_keeps (sub_of (by decide) hp) ?_
    | with_reducible refine keepsO_eq (writeDmaCfg_keeps (sub_of (by decide) hp) ?_) (by assumption)
    | with_reducible refine writeSeqReg_keeps (sub_of (by decide) hp) ?_
    | with_reducible refine keepsO_eq (writeSeqReg_keeps (sub_of (by decide) hp) ?_) (by assumption)
    | with_reducible refine plainWrite_keeps (sub_of (by decide) hp) ?_
    | split
    | (clear_value *; split)
    | with_reducible refine keepsP_eq ?_ (by assumption)
    | with_reducible refine keepsO_eq ?_ (by assumption)
    | with_reducible refine keepsP_mk ?_

theorem writeLnk_keeps {ps z} {s : Sys2Proof.Machine.State} {p : Nat} {po : Nat} {v : Nat} (hp : [.regs, .mem, .outbox, .life, .link, .port, .bridge] ⊆ ps) (h0 : Keeps ps z s) :
    Keeps ps z (writeLnk s p po v) := by
  unfold writeLnk
  repeat' first
    | with_reducible assumption
    | with_reducible exact keepsP_fst (by assumption)
    | (extract_lets -useContext +onlyGivenNames x; refine (fun (hx : Keeps ps z x) => ?_) ?_; clear_value x; revert x; intro _ _; rotate_left; unfold x; clear x; rotate_left)
    | (extract_lets -useContext +onlyGivenNames x; revert x; intro _)
    | with_reducible refine plainWrite_keeps (sub_of (by decide) hp) ?_
    | with_reducible refine logIgnored_keeps (sub_of (by decide) hp) ?_
    | with_reducible refine writeLnkCtrl_keeps (sub_of (by decide) hp) ?_
    | split
    | (clear_value *; split)
    | with_reducible refine keepsP_eq ?_ (by assumption)
    | with_reducible refine keepsO_eq ?_ (by assumption)
    | with_reducible refine keepsP_mk ?_

theorem clearHist_keeps {ps z} {s : Sys2Proof.Machine.State} (hp : [.regs] ⊆ ps) (h0 : Keeps ps z s) :
    Keeps ps z (clearHist s) := by
  unfold clearHist
  repeat' first
    | with_reducible assumption
    | with_reducible exact keepsP_fst (by assumption)
    | (extract_lets -useContext +onlyGivenNames x; refine (fun (hx : Keeps ps z x) => ?_) ?_; clear_value x; revert x; intro _ _; rotate_left; unfold x; clear x; rotate_left)
    | (extract_lets -useContext +onlyGivenNames x; revert x; intro _)
    | with_reducible refine State.setReg_keeps (sub_of (by decide) hp) ?_
    | with_reducible refine keeps_foldl (fun t a ht => ?_) ?_
    | with_reducible refine keepsP_foldl (fun t a ht => ?_) ?_
    | split
    | (clear_value *; split)
    | with_reducible refine keepsP_eq ?_ (by assumption)
    | with_reducible refine keepsO_eq ?_ (by assumption)
    | with_reducible refine keepsP_mk ?_

theorem writeRtr_keeps {ps z} {s : Sys2Proof.Machine.State} {po : Nat} {v : Nat} (hp : [.regs, .rtr] ⊆ ps) (h0 : Keeps ps z s) :
    KeepsO ps z (writeRtr s po v) := by
  unfold writeRtr
  repeat' first
    | with_reducible assumption
    | with_reducible exact keepsP_fst (by assumption)
    | (extract_lets -useContext +onlyGivenNames x; refine (fun (hx : Keeps ps z x) => ?_) ?_; clear_value x; revert x; intro _ _; rotate_left; unfold x; clear x; rotate_left)
    | (extract_lets -useContext +onlyGivenNames x; refine (fun (hx : KeepsO ps z x) => ?_) ?_; clear_value x; revert x; intro _ _; rotate_left; unfold x; clear x; rotate_left)
    | with_reducible exact keepsO_get (by assumption)
    | (extract_lets -useContext +onlyGivenNames x; revert x; intro _)
    | exact keepsO_none
    | with_reducible refine keepsO_some ?_
    | with_reducible refine plainWrite_keeps (sub_of (by decide) hp) ?_
    | with_reducible refine writeHistCfg_keeps (sub_of (by decide) hp) ?_
    | with_reducible refine writeTdataHi_keeps (sub_of (by decide) hp) ?_
    | with_reducible refine keepsO_eq (writeTdataHi_keeps (sub_of (by decide) hp) ?_) (by assumption)
    | with_reducible refine writeTdataLo_keeps (sub_of (by decide) hp) ?_
    | with_reducible refine keepsO_eq (writeTdataLo_keeps (sub_of (by decide) hp) ?_) (by assumption)
    | with_reducible refine writeEpochAt_keeps (sub_of (by decide) hp) ?_
    | with_reducible refine keepsO_eq (writeEpochAt_keeps (sub_of (by decide) hp) ?_) (by assumption)
    | split
    | (clear_value *; split)
    | with_reducible refine keepsP_eq ?_ (by assumption)
    | with_reducible refine keepsO_eq ?_ (by assumption)
    | with_reducible refine keepsO_getD ?_ ?_
    | with_reducible refine keepsP_mk ?_

set_option maxRecDepth 20000 in
theorem writeXch_keeps {ps z} {s : Sys2Proof.Machine.State} {po : Nat} {v : Nat} (hp : [.regs, .mem, .outbox, .bridge] ⊆ ps) (h0 : Keeps ps z s) :
    KeepsO ps z (writeXch s po v) := by
  unfold writeXch
  repeat' first
    | with_reducible assumption
    | with_reducible exact keepsP_fst (by assumption)
    | (extract_lets -useContext +onlyGivenNames x; refine (fun (hx : Keeps ps z x) => ?_) ?_; clear_value x; revert x; intro _ _; rotate_left; unfold x; clear x; rotate_left)
    | (extract_lets -useContext +onlyGivenNames x; refine (fun (hx : KeepsO ps z x) => ?_) ?_; clear_value x; revert x; intro _ _; rotate_left; unfold x; clear x; rotate_left)
    | with_reducible exact keepsO_get (by assumption)
    | (extract_lets -useContext +onlyGivenNames x; revert x; intro _)
    | exact keepsO_none
    | with_reducible refine keepsO_some ?_
    | with_reducible refine plainWrite_keeps (sub_of (by decide) hp) ?_
    | with_reducible refine writeSeqReg_keeps (sub_of (by decide) hp) ?_
    | with_reducible refine keepsO_eq (writeSeqReg_keeps (sub_of (by decide) hp) ?_) (by assumption)
    | split
    | (clear_value *; split)
    | with_reducible refine keepsP_eq ?_ (by assumption)
    | with_reducible refine keepsO_eq ?_ (by assumption)
    | with_reducible refine keepsP_mk ?_

theorem writeVecMask_keeps {ps z} {s : Sys2Proof.Machine.State} {i : Nat} {v : Nat} (hp : [.regs, .outbox] ⊆ ps) (h0 : Keeps ps z s) :
    Keeps ps z (writeVecMask s i v) := by
  unfold writeVecMask
  repeat' first
    | with_reducible assumption
    | with_reducible exact keepsP_fst (by assumption)
    | (extract_lets -useContext +onlyGivenNames x; refine (fun (hx : Keeps ps z x) => ?_) ?_; clear_value x; revert x; intro _ _; rotate_left; unfold x; clear x; rotate_left)
    | (extract_lets -useContext +onlyGivenNames x; revert x; intro _)
    | with_reducible refine State.send_keeps (sub_of (by decide) hp) ?_
    | with_reducible refine State.setReg_keeps (sub_of (by decide) hp) ?_
    | with_reducible refine keeps_foldl (fun t a ht => ?_) ?_
    | with_reducible refine keepsP_foldl (fun t a ht => ?_) ?_
    | split
    | (clear_value *; split)
    | with_reducible refine keepsP_eq ?_ (by assumption)
    | with_reducible refine keepsO_eq ?_ (by assumption)
    | with_reducible refine keepsP_mk ?_

theorem writeBxl_keeps {ps z} {s : Sys2Proof.Machine.State} {po : Nat} {v : Nat} {priv : Bool} (hp : [.regs, .mem, .outbox, .bxl, .life, .port, .mgmt, .bridge] ⊆ ps) (h0 : Keeps ps z s) :
    KeepsO ps z (writeBxl s po v priv) := by
  unfold writeBxl
  repeat' first
    | with_reducible assumption
    | with_reducible exact keepsP_fst (by assumption)
    | (extract_lets -useContext +onlyGivenNames x; refine (fun (hx : Keeps ps z x) => ?_) ?_; clear_value x; revert x; intro _ _; rotate_left; unfold x; clear x; rotate_left)
    | (extract_lets -useContext +onlyGivenNames x; refine (fun (hx : KeepsO ps z x) => ?_) ?_; clear_value x; revert x; intro _ _; rotate_left; unfold x; clear x; rotate_left)
    | with_reducible exact keepsO_get (by assumption)
    | (extract_lets -useContext +onlyGivenNames x; revert x; intro _)
    | exact keepsO_none
    | with_reducible refine keepsO_some ?_
    | with_reducible refine writeVecMask_keeps (sub_of (by decide) hp) ?_
    | with_reducible refine bootGo_keeps (sub_of (by decide) hp) ?_
    | with_reducible refine retrainPort_keeps (sub_of (by decide) hp) ?_
    | with_reducible refine plainWrite_keeps (sub_of (by decide) hp) ?_
    | split
    | (clear_value *; split)
    | with_reducible refine keepsP_eq ?_ (by assumption)
    | with_reducible refine keepsO_eq ?_ (by assumption)
    | with_reducible refine keepsP_mk ?_

theorem writeMmu_keeps {ps z} {s : Sys2Proof.Machine.State} {po : Nat} {v : Nat} {priv : Bool} (hp : [.regs, .mem, .mmu] ⊆ ps) (h0 : Keeps ps z s) :
    KeepsO ps z (writeMmu s po v priv) := by
  unfold writeMmu
  repeat' first
    | with_reducible assumption
    | with_reducible exact keepsP_fst (by assumption)
    | (extract_lets -useContext +onlyGivenNames x; refine (fun (hx : Keeps ps z x) => ?_) ?_; clear_value x; revert x; intro _ _; rotate_left; unfold x; clear x; rotate_left)
    | (extract_lets -useContext +onlyGivenNames x; refine (fun (hx : KeepsO ps z x) => ?_) ?_; clear_value x; revert x; intro _ _; rotate_left; unfold x; clear x; rotate_left)
    | with_reducible exact keepsO_get (by assumption)
    | (extract_lets -useContext +onlyGivenNames x; revert x; intro _)
    | exact keepsO_none
    | with_reducible refine keepsO_some ?_
    | with_reducible refine plainWrite_keeps (sub_of (by decide) hp) ?_
    | with_reducible refine writeInval_keeps (sub_of (by decide) hp) ?_
    | with_reducible refine keepsO_eq (writeInval_keeps (sub_of (by decide) hp) ?_) (by assumption)
    | with_reducible refine writeMap_keeps (sub_of (by decide) hp) ?_
    | with_reducible refine keepsO_eq (writeMap_keeps (sub_of (by decide) hp) ?_) (by assumption)
    | split
    | (clear_value *; split)
    | with_reducible refine keepsP_eq ?_ (by assumption)
    | with_reducible refine keepsO_eq ?_ (by assumption)
    | with_reducible refine keepsP_mk ?_

theorem writeDoorbell_keeps {ps z} {s : Sys2Proof.Machine.State} {q : Nat} {po : Nat} {v : Nat} (hp : [.regs, .mem, .mmu, .queues, .outbox, .bxl, .bridge] ⊆ ps) (h0 : Keeps ps z s) :
    KeepsO ps z (writeDoorbell s q po v) := by
  unfold writeDoorbell
  repeat' first
    | with_reducible assumption
    | with_reducible exact keepsP_fst (by assumption)
    | (extract_lets -useContext +onlyGivenNames x; refine (fun (hx : Keeps ps z x) => ?_) ?_; clear_value x; revert x; intro _ _; rotate_left; unfold x; clear x; rotate_left)
    | (extract_lets -useContext +onlyGivenNames x; refine (fun (hx : KeepsO ps z x) => ?_) ?_; clear_value x; revert x; intro _ _; rotate_left; unfold x; clear x; rotate_left)
    | with_reducible exact keepsO_get (by assumption)
    | (extract_lets -useContext +onlyGivenNames x; revert x; intro _)
    | exact keepsO_none
    | with_reducible refine keepsO_some ?_
    | with_reducible refine writeCqHead_keeps (sub_of (by decide) hp) ?_
    | with_reducible refine writeTail_keeps (sub_of (by decide) hp) ?_
    | with_reducible refine keepsO_eq (writeTail_keeps (sub_of (by decide) hp) ?_) (by assumption)
    | split
    | (clear_value *; split)
    | with_reducible refine keepsP_eq ?_ (by assumption)
    | with_reducible refine keepsO_eq ?_ (by assumption)
    | with_reducible refine keepsP_mk ?_

theorem writeNoc_keeps {ps z} {s : Sys2Proof.Machine.State} {d : Nat} {po : Nat} {v : Nat} (hp : [.regs, .bridge] ⊆ ps) (h0 : Keeps ps z s) :
    Keeps ps z (writeNoc s d po v) := by
  unfold writeNoc
  repeat' first
    | with_reducible assumption
    | with_reducible exact keepsP_fst (by assumption)
    | (extract_lets -useContext +onlyGivenNames x; refine (fun (hx : Keeps ps z x) => ?_) ?_; clear_value x; revert x; intro _ _; rotate_left; unfold x; clear x; rotate_left)
    | (extract_lets -useContext +onlyGivenNames x; revert x; intro _)
    | with_reducible refine State.setReg_keeps (sub_of (by decide) hp) ?_
    | with_reducible refine plainWrite_keeps (sub_of (by decide) hp) ?_
    | split
    | (clear_value *; split)
    | with_reducible refine keeps_with_bridge (mem_of (by decide) hp) ?_
    | with_reducible refine keepsP_eq ?_ (by assumption)
    | with_reducible refine keepsO_eq ?_ (by assumption)
    | with_reducible refine keepsP_mk ?_

theorem writeBlock_keeps {ps z} {s : Sys2Proof.Machine.State} {b : Sys2Proof.Block} {i : Nat} {po : Nat} {v : Nat} {priv : Bool} (hp : [.regs, .isl, .mem, .mmu, .arr, .vec, .als, .alsScrub, .dma, .ctx, .queues, .outbox, .draws, .bxl, .pwr, .life, .link, .port, .rtr, .mgmt, .obs, .bridge] ⊆ ps) (h0 : Keeps ps z s) :
    KeepsO ps z (writeBlock s b i po v priv) := by
  unfold writeBlock
  repeat' first
    | with_reducible assumption
    | with_reducible exact keepsP_fst (by assumption)
    | (extract_lets -useContext +onlyGivenNames x; refine (fun (hx : Keeps ps z x) => ?_) ?_; clear_value x; revert x; intro _ _; rotate_left; unfold x; clear x; rotate_left)
    | (extract_lets -useContext +onlyGivenNames x; refine (fun (hx : KeepsO ps z x) => ?_) ?_; clear_value x; revert x; intro _ _; rotate_left; unfold x; clear x; rotate_left)
    | with_reducible exact keepsO_get (by assumption)
    | (extract_lets -useContext +onlyGivenNames x; revert x; intro _)
    | exact keepsO_none
    | with_reducible refine keepsO_some ?_
    | with_reducible refine writeDoorbell_keeps (sub_of (by decide) hp) ?_
    | with_reducible refine keepsO_eq (writeDoorbell_keeps (sub_of (by decide) hp) ?_) (by assumption)
    | with_reducible refine writeMmu_keeps (sub_of (by decide) hp) ?_
    | with_reducible refine keepsO_eq (writeMmu_keeps (sub_of (by decide) hp) ?_) (by assumption)
    | with_reducible refine writeBxl_keeps (sub_of (by decide) hp) ?_
    | with_reducible refine keepsO_eq (writeBxl_keeps (sub_of (by decide) hp) ?_) (by assumption)
    | with_reducible refine writeCatCtrl_keeps (sub_of (by decide) hp) ?_
    | with_reducible refine keepsO_eq (writeCatCtrl_keeps (sub_of (by decide) hp) ?_) (by assumption)
    | with_reducible refine writeXch_keeps (sub_of (by decide) hp) ?_
    | with_reducible refine keepsO_eq (writeXch_keeps (sub_of (by decide) hp) ?_) (by assumption)
    | with_reducible refine writeRtr_keeps (sub_of (by decide) hp) ?_
    | with_reducible refine keepsO_eq (writeRtr_keeps (sub_of (by decide) hp) ?_) (by assumption)
    | with_reducible refine writeLnk_keeps (sub_of (by decide) hp) ?_
    | with_reducible refine writeDma_keeps (sub_of (by decide) hp) ?_
    | with_reducible refine keepsO_eq (writeDma_keeps (sub_of (by decide) hp) ?_) (by assumption)
    | with_reducible refine writePartOwner_keeps (sub_of (by decide) hp) ?_
    | with_reducible refine plainWrite_keeps (sub_of (by decide) hp) ?_
    | with_reducible refine writeKq_keeps (sub_of (by decide) hp) ?_
    | with_reducible refine keepsO_eq (writeKq_keeps (sub_of (by decide) hp) ?_) (by assumption)
    | with_reducible refine commitDcb_keeps (sub_of (by decide) hp) ?_
    | with_reducible refine keepsO_eq (commitDcb_keeps (sub_of (by decide) hp) ?_) (by assumption)
    | with_reducible refine writeDcb_keeps (sub_of (by decide) hp) ?_
    | with_reducible refine keepsO_eq (writeDcb_keeps (sub_of (by decide) hp) ?_) (by assumption)
    | with_reducible refine writeObs_keeps (sub_of (by decide) hp) ?_
    | with_reducible refine keepsO_eq (writeObs_keeps (sub_of (by decide) hp) ?_) (by assumption)
    | with_reducible refine writePwr_keeps (sub_of (by decide) hp) ?_
    | with_reducible refine keepsO_eq (writePwr_keeps (sub_of (by decide) hp) ?_) (by assumption)
    | with_reducible refine writeArrayWord_keeps (sub_of (by decide) hp) ?_
    | with_reducible refine keepsO_eq (writeArrayWord_keeps (sub_of (by decide) hp) ?_) (by assumption)
    | with_reducible refine writeNoc_keeps (sub_of (by decide) hp) ?_
    | split
    | (clear_value *; split)
    | with_reducible refine keepsP_eq ?_ (by assumption)
    | with_reducible refine keepsO_eq ?_ (by assumption)
    | with_reducible refine keepsP_mk ?_

theorem logPage_keeps {ps z} {s : Sys2Proof.Machine.State} {b : Sys2Proof.Block} {i : Nat} {off : Nat} (hp : [.regs, .mem, .outbox, .bridge] ⊆ ps) (h0 : Keeps ps z s) :
    Keeps ps z (logPage s b i off) := by
  unfold logPage
  repeat' first
    | with_reducible assumption
    | with_reducible exact keepsP_fst (by assumption)
    | (extract_lets -useContext +onlyGivenNames x; refine (fun (hx : Keeps ps z x) => ?_) ?_; clear_value x; revert x; intro _ _; rotate_left; unfold x; clear x; rotate_left)
    | (extract_lets -useContext +onlyGivenNames x; revert x; intro _)
    | with_reducible refine logIgnored_keeps (sub_of (by decide) hp) ?_
    | split
    | (clear_value *; split)
    | with_reducible refine keepsP_eq ?_ (by assumption)
    | with_reducible refine keepsO_eq ?_ (by assumption)
    | with_reducible refine keepsP_mk ?_

theorem takeWrite_keeps {ps z} {s : Sys2Proof.Machine.State} {b : Sys2Proof.Block} {i : Nat} {off : Nat} {v : Nat} {priv : Bool} (hp : [.regs, .isl, .mem, .mmu, .arr, .vec, .als, .alsScrub, .dma, .ctx, .queues, .seq, .outbox, .draws, .bxl, .pwr, .life, .link, .port, .rtr, .xch, .nmu, .mgmt, .obs, .bridge] ⊆ ps) (h0 : Keeps ps z s) :
    Keeps ps z (takeWrite s b i off v priv) := by
  unfold takeWrite
  repeat' first
    | with_reducible assumption
    | with_reducible exact keepsP_fst (by assumption)
    | (extract_lets -useContext +onlyGivenNames x; refine (fun (hx : Keeps ps z x) => ?_) ?_; clear_value x; revert x; intro _ _; rotate_left; unfold x; clear x; rotate_left)
    | (extract_lets -useContext +onlyGivenNames x; refine (fun (hx : KeepsO ps z x) => ?_) ?_; clear_value x; revert x; intro _ _; rotate_left; unfold x; clear x; rotate_left)
    | with_reducible exact keepsO_get (by assumption)
    | (extract_lets -useContext +onlyGivenNames x; revert x; intro _)
    | with_reducible refine logPage_keeps (sub_of (by decide) hp) ?_
    | with_reducible refine writeBlock_keeps (sub_of (by decide) hp) ?_
    | with_reducible refine keepsO_eq (writeBlock_keeps (sub_of (by decide) hp) ?_) (by assumption)
    | with_reducible refine writeHead_keeps (sub_of (by decide) hp) ?_
    | with_reducible refine keepsO_eq (writeHead_keeps (sub_of (by decide) hp) ?_) (by assumption)
    | with_reducible refine State.setIsl_keeps (sub_of (by decide) hp) ?_
    | with_reducible refine writeCtrl_keeps (sub_of (by decide) hp) ?_
    | split
    | (clear_value *; split)
    | with_reducible refine keepsP_eq ?_ (by assumption)
    | with_reducible refine keepsO_eq ?_ (by assumption)
    | with_reducible refine keepsP_mk ?_

theorem hostPart_keeps {ps z} {s : Sys2Proof.Machine.State} {b : Sys2Proof.Block} {po : Nat} {v : Nat} (hp : [.regs] ⊆ ps) (h0 : Keeps ps z s) :
    Keeps ps z (hostPart s b po v) := by
  unfold hostPart
  repeat' first
    | with_reducible assumption
    | with_reducible exact keepsP_fst (by assumption)
    | (extract_lets -useContext +onlyGivenNames x; refine (fun (hx : Keeps ps z x) => ?_) ?_; clear_value x; revert x; intro _ _; rotate_left; unfold x; clear x; rotate_left)
    | (extract_lets -useContext +onlyGivenNames x; revert x; intro _)
    | with_reducible refine clearHist_keeps (sub_of (by decide) hp) ?_
    | split
    | (clear_value *; split)
    | with_reducible refine keepsP_eq ?_ (by assumption)
    | with_reducible refine keepsO_eq ?_ (by assumption)
    | with_reducible refine keepsP_mk ?_

theorem writeReg_keeps {ps z} {p : Sys2Proof.Path} {s : Sys2Proof.Machine.State} {off : Nat} {v : Nat} (hp : [.regs, .isl, .mem, .mmu, .arr, .vec, .als, .alsScrub, .dma, .ctx, .queues, .seq, .outbox, .draws, .bxl, .pwr, .life, .link, .port, .rtr, .xch, .nmu, .mgmt, .obs, .bridge] ⊆ ps) (h1 : Keeps ps z s) :
    Keeps ps z (writeReg p s off v) := by
  unfold writeReg
  repeat' first
    | with_reducible assumption
    | with_reducible exact keepsP_fst (by assumption)
    | (extract_lets -useContext +onlyGivenNames x; refine (fun (hx : Keeps ps z x) => ?_) ?_; clear_value x; revert x; intro _ _; rotate_left; unfold x; clear x; rotate_left)
    | (extract_lets -useContext +onlyGivenNames x; revert x; intro _)
    | with_reducible refine takeWrite_keeps (sub_of (by decide) hp) ?_
    | with_reducible refine hostPart_keeps (sub_of (by decide) hp) ?_
    | with_reducible refine logPage_keeps (sub_of (by decide) hp) ?_
    | with_reducible refine noteUnassigned_keeps (sub_of (by decide) hp) ?_
    | split
    | (clear_value *; split)
    | with_reducible refine keepsP_eq ?_ (by assumption)
    | with_reducible refine keepsO_eq ?_ (by assumption)
    | with_reducible refine keepsP_mk ?_

theorem writeReg8_keeps {ps z} {p : Sys2Proof.Path} {s : Sys2Proof.Machine.State} {off : Nat} {v : Nat} (hp : [.regs, .isl, .mem, .mmu, .arr, .vec, .als, .alsScrub, .dma, .ctx, .queues, .seq, .outbox, .draws, .bxl, .pwr, .life, .link, .port, .rtr, .xch, .nmu, .mgmt, .obs, .bridge] ⊆ ps) (h1 : Keeps ps z s) :
    Keeps ps z (writeReg8 p s off v) := by
  unfold writeReg8
  repeat' first
    | with_reducible assumption
    | with_reducible exact keepsP_fst (by assumption)
    | (extract_lets -useContext +onlyGivenNames x; refine (fun (hx : Keeps ps z x) => ?_) ?_; clear_value x; revert x; intro _ _; rotate_left; unfold x; clear x; rotate_left)
    | (extract_lets -useContext +onlyGivenNames x; revert x; intro _)
    | with_reducible refine writeReg_keeps (sub_of (by decide) hp) ?_
    | split
    | (clear_value *; split)
    | with_reducible refine keepsP_eq ?_ (by assumption)
    | with_reducible refine keepsO_eq ?_ (by assumption)
    | with_reducible refine keepsP_mk ?_

end Sys2Proof.Machine
end

