-- ==== Sys2Proof/Laws/FrameCompanion.lean ====
section
/-!
SUPPORT. Frames: for each operation of Sys2Proof/Machine/Companion.lean, the parts of State it may change, and that it keeps the stores'
canonical form.
-/
namespace Sys2Proof.Machine

open Sys2Proof

theorem windowRead_keeps {ps z} {s : Sys2Proof.Machine.State} {tag : Nat} {addr : Nat} {owner : Nat} {pa : Nat} {len : Nat} (hp : [.regs, .mem, .outbox, .bridge] ⊆ ps) (h0 : Keeps ps z s) :
    Keeps ps z (windowRead s tag addr owner pa len) := by
  unfold windowRead
  repeat' first
    | with_reducible assumption
    | with_reducible exact keepsP_fst (by assumption)
    | (extract_lets -useContext +onlyGivenNames x; refine (fun (hx : Keeps ps z x) => ?_) ?_; clear_value x; revert x; intro _ _; rotate_left; unfold x; clear x; rotate_left)
    | (extract_lets -useContext +onlyGivenNames x; refine (fun (hx : KeepsP ps z x) => ?_) ?_; clear_value x; revert x; intro _ _; rotate_left; unfold x; clear x; rotate_left)
    | (extract_lets -useContext +onlyGivenNames x; revert x; intro _)
    | with_reducible refine mmioReply_keeps (sub_of (by decide) hp) ?_
    | with_reducible refine readFrom_keeps (sub_of (by decide) hp) ?_
    | with_reducible refine keepsP_fst (readFrom_keeps (sub_of (by decide) hp) ?_)
    | with_reducible refine keepsP_eq (readFrom_keeps (sub_of (by decide) hp) ?_) (by assumption)
    | split
    | (clear_value *; split)
    | with_reducible refine keepsP_eq ?_ (by assumption)
    | with_reducible refine keepsO_eq ?_ (by assumption)
    | with_reducible refine keepsP_mk ?_

theorem windowWrite_keeps {ps z} {s : Sys2Proof.Machine.State} {owner : Nat} {pa : Nat} {data : List Sys2Proof.Byte} {poison : Bool} (hp : [.regs, .mem, .outbox, .bridge] ⊆ ps) (h0 : Keeps ps z s) :
    Keeps ps z (windowWrite s owner pa data poison) := by
  unfold windowWrite
  repeat' first
    | with_reducible assumption
    | with_reducible exact keepsP_fst (by assumption)
    | (extract_lets -useContext +onlyGivenNames x; refine (fun (hx : Keeps ps z x) => ?_) ?_; clear_value x; revert x; intro _ _; rotate_left; unfold x; clear x; rotate_left)
    | (extract_lets -useContext +onlyGivenNames x; refine (fun (hx : KeepsP ps z x) => ?_) ?_; clear_value x; revert x; intro _ _; rotate_left; unfold x; clear x; rotate_left)
    | (extract_lets -useContext +onlyGivenNames x; revert x; intro _)
    | with_reducible refine poisonUnits_keeps (sub_of (by decide) hp) ?_
    | with_reducible refine writeFrom_keeps (sub_of (by decide) hp) ?_
    | with_reducible refine keepsP_fst (writeFrom_keeps (sub_of (by decide) hp) ?_)
    | with_reducible refine keepsP_eq (writeFrom_keeps (sub_of (by decide) hp) ?_) (by assumption)
    | split
    | (clear_value *; split)
    | with_reducible refine keepsP_eq ?_ (by assumption)
    | with_reducible refine keepsO_eq ?_ (by assumption)
    | with_reducible refine keepsP_mk ?_

theorem mmioRead_keeps {ps z} {s : Sys2Proof.Machine.State} {tag : Nat} {addr : Nat} {size : Nat} (hp : [.regs, .hiCap, .mem, .outbox, .bridge] ⊆ ps) (h0 : Keeps ps z s) :
    Keeps ps z (mmioRead s tag addr size) := by
  unfold mmioRead
  repeat' first
    | with_reducible assumption
    | with_reducible exact keepsP_fst (by assumption)
    | (extract_lets -useContext +onlyGivenNames x; refine (fun (hx : Keeps ps z x) => ?_) ?_; clear_value x; revert x; intro _ _; rotate_left; unfold x; clear x; rotate_left)
    | (extract_lets -useContext +onlyGivenNames x; refine (fun (hx : KeepsP ps z x) => ?_) ?_; clear_value x; revert x; intro _ _; rotate_left; unfold x; clear x; rotate_left)
    | (extract_lets -useContext +onlyGivenNames x; revert x; intro _)
    | with_reducible refine memWaits_keeps (sub_of (by decide) hp) ?_
    | with_reducible refine mmioReply_keeps (sub_of (by decide) hp) ?_
    | with_reducible refine readReg_keeps (sub_of (by decide) hp) ?_
    | with_reducible refine keepsP_fst (readReg_keeps (sub_of (by decide) hp) ?_)
    | with_reducible refine keepsP_eq (readReg_keeps (sub_of (by decide) hp) ?_) (by assumption)
    | with_reducible refine readReg8_keeps (sub_of (by decide) hp) ?_
    | with_reducible refine keepsP_fst (readReg8_keeps (sub_of (by decide) hp) ?_)
    | with_reducible refine keepsP_eq (readReg8_keeps (sub_of (by decide) hp) ?_) (by assumption)
    | with_reducible refine windowRead_keeps (sub_of (by decide) hp) ?_
    | split
    | (clear_value *; split)
    | with_reducible refine keepsP_eq ?_ (by assumption)
    | with_reducible refine keepsO_eq ?_ (by assumption)
    | with_reducible refine keepsP_mk ?_

theorem mmioWrite_keeps {ps z} {s : Sys2Proof.Machine.State} {addr : Nat} {poison : Bool} {data : List Sys2Proof.Byte} (hp : [.regs, .isl, .mem, .mmu, .arr, .vec, .als, .alsScrub, .dma, .ctx, .queues, .seq, .outbox, .draws, .bxl, .pwr, .life, .link, .port, .rtr, .xch, .nmu, .mgmt, .obs, .bridge] ⊆ ps) (h0 : Keeps ps z s) :
    Keeps ps z (mmioWrite s addr poison data) := by
  unfold mmioWrite
  repeat' first
    | with_reducible assumption
    | with_reducible exact keepsP_fst (by assumption)
    | (extract_lets -useContext +onlyGivenNames x; refine (fun (hx : Keeps ps z x) => ?_) ?_; clear_value x; revert x; intro _ _; rotate_left; unfold x; clear x; rotate_left)
    | (extract_lets -useContext +onlyGivenNames x; revert x; intro _)
    | with_reducible refine memWaits_keeps (sub_of (by decide) hp) ?_
    | with_reducible refine windowWrite_keeps (sub_of (by decide) hp) ?_
    | with_reducible refine writeReg_keeps (sub_of (by decide) hp) ?_
    | with_reducible refine writeReg8_keeps (sub_of (by decide) hp) ?_
    | split
    | (clear_value *; split)
    | with_reducible refine keepsP_eq ?_ (by assumption)
    | with_reducible refine keepsO_eq ?_ (by assumption)
    | with_reducible refine keepsP_mk ?_

theorem serveWait_keeps {ps z} {s : Sys2Proof.Machine.State} {w : Sys2Proof.Machine.MemWait} (hp : [.regs, .hiCap, .isl, .mem, .mmu, .arr, .vec, .als, .alsScrub, .dma, .ctx, .queues, .seq, .outbox, .draws, .bxl, .pwr, .life, .link, .port, .rtr, .xch, .nmu, .mgmt, .obs, .bridge] ⊆ ps) (h0 : Keeps ps z s) :
    Keeps ps z (serveWait s w) := by
  unfold serveWait
  repeat' first
    | with_reducible assumption
    | with_reducible exact keepsP_fst (by assumption)
    | (extract_lets -useContext +onlyGivenNames x; refine (fun (hx : Keeps ps z x) => ?_) ?_; clear_value x; revert x; intro _ _; rotate_left; unfold x; clear x; rotate_left)
    | (extract_lets -useContext +onlyGivenNames x; refine (fun (hx : KeepsP ps z x) => ?_) ?_; clear_value x; revert x; intro _ _; rotate_left; unfold x; clear x; rotate_left)
    | (extract_lets -useContext +onlyGivenNames x; revert x; intro _)
    | with_reducible refine mcRead_keeps (sub_of (by decide) hp) ?_
    | with_reducible refine mcWrite_keeps (sub_of (by decide) hp) ?_
    | with_reducible refine memWaits_keeps (sub_of (by decide) hp) ?_
    | with_reducible refine announce_keeps (sub_of (by decide) hp) ?_
    | with_reducible refine devWrite_keeps (sub_of (by decide) hp) ?_
    | with_reducible refine keepsP_fst (devWrite_keeps (sub_of (by decide) hp) ?_)
    | with_reducible refine keepsP_eq (devWrite_keeps (sub_of (by decide) hp) ?_) (by assumption)
    | with_reducible refine mmioRead_keeps (sub_of (by decide) hp) ?_
    | with_reducible refine mmioWrite_keeps (sub_of (by decide) hp) ?_
    | split
    | (clear_value *; split)
    | with_reducible refine keepsP_eq ?_ (by assumption)
    | with_reducible refine keepsO_eq ?_ (by assumption)
    | with_reducible refine keepsP_mk ?_

theorem execMmioRd_keeps {ps z} {tag : Fin 4096} {addr : Nat} {size : Nat} {s : Sys2Proof.Machine.State} (hp : [.regs, .hiCap, .mem, .outbox, .bridge] ⊆ ps) (h3 : Keeps ps z s) :
    KeepsR ps z (execMmioRd tag addr size s) := by
  unfold execMmioRd
  repeat' first
    | with_reducible assumption
    | with_reducible exact keepsP_fst (by assumption)
    | (extract_lets -useContext +onlyGivenNames x; refine (fun (hx : Keeps ps z x) => ?_) ?_; clear_value x; revert x; intro _ _; rotate_left; unfold x; clear x; rotate_left)
    | (extract_lets -useContext +onlyGivenNames x; revert x; intro _)
    | with_reducible refine keepsR_next ?_
    | with_reducible exact keepsR_fault
    | with_reducible refine malformed_keeps (sub_of (by decide) hp) ?_
    | with_reducible refine mmioRead_keeps (sub_of (by decide) hp) ?_
    | split
    | (clear_value *; split)
    | with_reducible refine keepsP_eq ?_ (by assumption)
    | with_reducible refine keepsO_eq ?_ (by assumption)
    | with_reducible refine keepsP_mk ?_

theorem execMmioWr_keeps {ps z} {addr : Nat} {poison : Bool} {data : List Sys2Proof.Byte} {s : Sys2Proof.Machine.State} (hp : [.regs, .isl, .mem, .mmu, .arr, .vec, .als, .alsScrub, .dma, .ctx, .queues, .seq, .outbox, .draws, .bxl, .pwr, .life, .link, .port, .rtr, .xch, .nmu, .mgmt, .obs, .bridge] ⊆ ps) (h3 : Keeps ps z s) :
    KeepsR ps z (execMmioWr addr poison data s) := by
  unfold execMmioWr
  repeat' first
    | with_reducible assumption
    | with_reducible exact keepsP_fst (by assumption)
    | (extract_lets -useContext +onlyGivenNames x; refine (fun (hx : Keeps ps z x) => ?_) ?_; clear_value x; revert x; intro _ _; rotate_left; unfold x; clear x; rotate_left)
    | (extract_lets -useContext +onlyGivenNames x; revert x; intro _)
    | with_reducible refine keepsR_next ?_
    | with_reducible exact keepsR_fault
    | with_reducible refine bxlError_keeps (sub_of (by decide) hp) ?_
    | with_reducible refine malformed_keeps (sub_of (by decide) hp) ?_
    | with_reducible refine mmioWrite_keeps (sub_of (by decide) hp) ?_
    | split
    | (clear_value *; split)
    | with_reducible refine keepsP_eq ?_ (by assumption)
    | with_reducible refine keepsO_eq ?_ (by assumption)
    | with_reducible refine keepsP_mk ?_

theorem settleInvs_keeps {ps z} {s : Sys2Proof.Machine.State} (hp : [.outbox, .bxl] ⊆ ps) (h0 : Keeps ps z s) :
    Keeps ps z (settleInvs s) := by
  unfold settleInvs
  repeat' first
    | with_reducible assumption
    | with_reducible exact keepsP_fst (by assumption)
    | (extract_lets -useContext +onlyGivenNames x; refine (fun (hx : Keeps ps z x) => ?_) ?_; clear_value x; revert x; intro _ _; rotate_left; unfold x; clear x; rotate_left)
    | (extract_lets -useContext +onlyGivenNames x; revert x; intro _)
    | with_reducible refine State.send_keeps (sub_of (by decide) hp) ?_
    | with_reducible refine keeps_foldl (fun t a ht => ?_) ?_
    | with_reducible refine keepsP_foldl (fun t a ht => ?_) ?_
    | split
    | (clear_value *; split)
    | with_reducible refine keeps_with_bxl (mem_of (by decide) hp) ?_
    | with_reducible refine keepsP_eq ?_ (by assumption)
    | with_reducible refine keepsO_eq ?_ (by assumption)
    | with_reducible refine keepsP_mk ?_

theorem closeReq_keeps {ps z} {s : Sys2Proof.Machine.State} {tag : Nat} (hp : [.outbox, .bxl] ⊆ ps) (h0 : Keeps ps z s) :
    Keeps ps z (closeReq s tag) := by
  unfold closeReq
  repeat' first
    | with_reducible assumption
    | with_reducible exact keepsP_fst (by assumption)
    | (extract_lets -useContext +onlyGivenNames x; refine (fun (hx : Keeps ps z x) => ?_) ?_; clear_value x; revert x; intro _ _; rotate_left; unfold x; clear x; rotate_left)
    | (extract_lets -useContext +onlyGivenNames x; revert x; intro _)
    | with_reducible refine settleInvs_keeps (sub_of (by decide) hp) ?_
    | split
    | (clear_value *; split)
    | with_reducible refine keeps_with_bxl (mem_of (by decide) hp) ?_
    | with_reducible refine keepsP_eq ?_ (by assumption)
    | with_reducible refine keepsO_eq ?_ (by assumption)
    | with_reducible refine keepsP_mk ?_

theorem answerReq_keeps {ps z} {s : Sys2Proof.Machine.State} {r : Sys2Proof.Machine.Req} {result : Nat} {poison : Bool} {data : List Sys2Proof.Byte} (hp : [.bxl] ⊆ ps) (h0 : Keeps ps z s) :
    Keeps ps z (answerReq s r result poison data) := by
  unfold answerReq
  repeat' first
    | with_reducible assumption
    | with_reducible exact keepsP_fst (by assumption)
    | (extract_lets -useContext +onlyGivenNames x; refine (fun (hx : Keeps ps z x) => ?_) ?_; clear_value x; revert x; intro _ _; rotate_left; unfold x; clear x; rotate_left)
    | (extract_lets -useContext +onlyGivenNames x; revert x; intro _)
    | split
    | (clear_value *; split)
    | with_reducible refine keeps_with_bxl (mem_of (by decide) hp) ?_
    | with_reducible refine keepsP_eq ?_ (by assumption)
    | with_reducible refine keepsO_eq ?_ (by assumption)
    | with_reducible refine keepsP_mk ?_

theorem failReq_keeps {ps z} {s : Sys2Proof.Machine.State} {tag : Nat} {r : Sys2Proof.Machine.Req} (hp : [.outbox, .bxl] ⊆ ps) (h0 : Keeps ps z s) :
    Keeps ps z (failReq s tag r) := by
  unfold failReq
  repeat' first
    | with_reducible assumption
    | with_reducible exact keepsP_fst (by assumption)
    | (extract_lets -useContext +onlyGivenNames x; refine (fun (hx : Keeps ps z x) => ?_) ?_; clear_value x; revert x; intro _ _; rotate_left; unfold x; clear x; rotate_left)
    | (extract_lets -useContext +onlyGivenNames x; revert x; intro _)
    | with_reducible refine closeReq_keeps (sub_of (by decide) hp) ?_
    | with_reducible refine answerReq_keeps (sub_of (by decide) hp) ?_
    | with_reducible refine unlistLine_keeps (sub_of (by decide) hp) ?_
    | split
    | (clear_value *; split)
    | with_reducible refine keepsP_eq ?_ (by assumption)
    | with_reducible refine keepsO_eq ?_ (by assumption)
    | with_reducible refine keepsP_mk ?_

theorem noReq_keeps {ps z} {s : Sys2Proof.Machine.State} {addr : Nat} (hp : [.regs, .mem, .outbox, .bridge] ⊆ ps) (h0 : Keeps ps z s) :
    Keeps ps z (noReq s addr) := by
  unfold noReq
  repeat' first
    | with_reducible assumption
    | with_reducible exact keepsP_fst (by assumption)
    | (extract_lets -useContext +onlyGivenNames x; refine (fun (hx : Keeps ps z x) => ?_) ?_; clear_value x; revert x; intro _ _; rotate_left; unfold x; clear x; rotate_left)
    | (extract_lets -useContext +onlyGivenNames x; revert x; intro _)
    | with_reducible refine bxlError_keeps (sub_of (by decide) hp) ?_
    | split
    | (clear_value *; split)
    | with_reducible refine keepsP_eq ?_ (by assumption)
    | with_reducible refine keepsO_eq ?_ (by assumption)
    | with_reducible refine keepsP_mk ?_

theorem grantLine_keeps {ps z} {s : Sys2Proof.Machine.State} {l : Nat} {st : Sys2Proof.Machine.LineState} {data : List Sys2Proof.Byte} {poison : Bool} (hp : [.bxl] ⊆ ps) (h0 : Keeps ps z s) :
    Keeps ps z (grantLine s l st data poison) := by
  unfold grantLine
  repeat' first
    | with_reducible assumption
    | with_reducible exact keepsP_fst (by assumption)
    | (extract_lets -useContext +onlyGivenNames x; refine (fun (hx : Keeps ps z x) => ?_) ?_; clear_value x; revert x; intro _ _; rotate_left; unfold x; clear x; rotate_left)
    | (extract_lets -useContext +onlyGivenNames x; revert x; intro _)
    | with_reducible refine unlistLine_keeps (sub_of (by decide) hp) ?_
    | with_reducible refine touchLine_keeps (sub_of (by decide) hp) ?_
    | split
    | (clear_value *; split)
    | with_reducible refine keepsP_eq ?_ (by assumption)
    | with_reducible refine keepsO_eq ?_ (by assumption)
    | with_reducible refine keepsP_mk ?_

theorem execBxlData_keeps {ps z} {tag : Fin 4096} {addr : Nat} {state : Fin 4} {status : Fin 16} {poison : Bool} {data : List Sys2Proof.Byte} {s : Sys2Proof.Machine.State} (hp : [.regs, .mem, .outbox, .bxl, .bridge] ⊆ ps) (h6 : Keeps ps z s) :
    KeepsR ps z (execBxlData tag addr state status poison data s) := by
  unfold execBxlData
  repeat' first
    | with_reducible assumption
    | with_reducible exact keepsP_fst (by assumption)
    | (extract_lets -useContext +onlyGivenNames x; refine (fun (hx : Keeps ps z x) => ?_) ?_; clear_value x; revert x; intro _ _; rotate_left; unfold x; clear x; rotate_left)
    | (extract_lets -useContext +onlyGivenNames x; revert x; intro _)
    | with_reducible refine keepsR_next ?_
    | with_reducible exact keepsR_fault
    | with_reducible refine answerReq_keeps (sub_of (by decide) hp) ?_
    | with_reducible refine grantLine_keeps (sub_of (by decide) hp) ?_
    | with_reducible refine closeReq_keeps (sub_of (by decide) hp) ?_
    | with_reducible refine bxlError_keeps (sub_of (by decide) hp) ?_
    | with_reducible refine failReq_keeps (sub_of (by decide) hp) ?_
    | with_reducible refine malformed_keeps (sub_of (by decide) hp) ?_
    | with_reducible refine noReq_keeps (sub_of (by decide) hp) ?_
    | split
    | (clear_value *; split)
    | with_reducible refine keepsP_eq ?_ (by assumption)
    | with_reducible refine keepsO_eq ?_ (by assumption)
    | with_reducible refine keepsP_mk ?_

theorem execCmp_keeps {ps z} {tag : Fin 4096} {addr : Nat} {state : Fin 4} {status : Fin 16} {data : Sys2Proof.CmpData} {s : Sys2Proof.Machine.State} (hp : [.regs, .mem, .outbox, .bxl, .bridge] ⊆ ps) (h5 : Keeps ps z s) :
    KeepsR ps z (execCmp tag addr state status data s) := by
  unfold execCmp
  repeat' first
    | with_reducible assumption
    | with_reducible exact keepsP_fst (by assumption)
    | (extract_lets -useContext +onlyGivenNames x; refine (fun (hx : Keeps ps z x) => ?_) ?_; clear_value x; revert x; intro _ _; rotate_left; unfold x; clear x; rotate_left)
    | (extract_lets -useContext +onlyGivenNames x; revert x; intro _)
    | with_reducible refine keepsR_next ?_
    | with_reducible exact keepsR_fault
    | with_reducible refine answerReq_keeps (sub_of (by decide) hp) ?_
    | with_reducible refine unlistLine_keeps (sub_of (by decide) hp) ?_
    | with_reducible refine grantLine_keeps (sub_of (by decide) hp) ?_
    | with_reducible refine closeReq_keeps (sub_of (by decide) hp) ?_
    | with_reducible refine bxlError_keeps (sub_of (by decide) hp) ?_
    | with_reducible refine failReq_keeps (sub_of (by decide) hp) ?_
    | with_reducible refine malformed_keeps (sub_of (by decide) hp) ?_
    | with_reducible refine noReq_keeps (sub_of (by decide) hp) ?_
    | split
    | (clear_value *; split)
    | with_reducible refine keepsP_eq ?_ (by assumption)
    | with_reducible refine keepsO_eq ?_ (by assumption)
    | with_reducible refine keepsP_mk ?_

theorem execXlateRsp_keeps {ps z} {tag : Fin 4096} {addr : Nat} {status : Fin 16} {page : Fin 4} {r : Bool} {w : Bool} {s : Sys2Proof.Machine.State} (hp : [.regs, .mem, .outbox, .bxl, .bridge] ⊆ ps) (h6 : Keeps ps z s) :
    KeepsR ps z (execXlateRsp tag addr status page r w s) := by
  unfold execXlateRsp
  repeat' first
    | with_reducible assumption
    | with_reducible exact keepsP_fst (by assumption)
    | (extract_lets -useContext +onlyGivenNames x; refine (fun (hx : Keeps ps z x) => ?_) ?_; clear_value x; revert x; intro _ _; rotate_left; unfold x; clear x; rotate_left)
    | (extract_lets -useContext +onlyGivenNames x; revert x; intro _)
    | with_reducible refine keepsR_next ?_
    | with_reducible exact keepsR_fault
    | with_reducible refine latchXlate_keeps (sub_of (by decide) hp) ?_
    | with_reducible refine answerReq_keeps (sub_of (by decide) hp) ?_
    | with_reducible refine bxlError_keeps (sub_of (by decide) hp) ?_
    | with_reducible refine failReq_keeps (sub_of (by decide) hp) ?_
    | with_reducible refine closeReq_keeps (sub_of (by decide) hp) ?_
    | with_reducible refine malformed_keeps (sub_of (by decide) hp) ?_
    | with_reducible refine noReq_keeps (sub_of (by decide) hp) ?_
    | split
    | (clear_value *; split)
    | with_reducible refine keeps_with_bxl (mem_of (by decide) hp) ?_
    | with_reducible refine keepsP_eq ?_ (by assumption)
    | with_reducible refine keepsO_eq ?_ (by assumption)
    | with_reducible refine keepsP_mk ?_

theorem snoopReply_keeps {ps z} {s : Sys2Proof.Machine.State} {tag : Nat} {addr : Nat} {st : Nat} {pending : Bool} {a5_ : Option Sys2Proof.Machine.HostLine} (hp : [.outbox] ⊆ ps) (h0 : Keeps ps z s) :
    Keeps ps z (snoopReply s tag addr st pending a5_) := by
  unfold snoopReply
  repeat' first
    | with_reducible assumption
    | with_reducible exact keepsP_fst (by assumption)
    | (extract_lets -useContext +onlyGivenNames x; refine (fun (hx : Keeps ps z x) => ?_) ?_; clear_value x; revert x; intro _ _; rotate_left; unfold x; clear x; rotate_left)
    | (extract_lets -useContext +onlyGivenNames x; revert x; intro _)
    | with_reducible refine State.send_keeps (sub_of (by decide) hp) ?_
    | split
    | (clear_value *; split)
    | with_reducible refine keepsP_eq ?_ (by assumption)
    | with_reducible refine keepsO_eq ?_ (by assumption)
    | with_reducible refine keepsO_getD ?_ ?_
    | with_reducible refine keepsP_mk ?_

theorem snoop_keeps {ps z} {s : Sys2Proof.Machine.State} {tag : Nat} {addr : Nat} {share : Bool} (hp : [.outbox, .bxl] ⊆ ps) (h0 : Keeps ps z s) :
    Keeps ps z (snoop s tag addr share) := by
  unfold snoop
  repeat' first
    | with_reducible assumption
    | with_reducible exact keepsP_fst (by assumption)
    | (extract_lets -useContext +onlyGivenNames x; refine (fun (hx : Keeps ps z x) => ?_) ?_; clear_value x; revert x; intro _ _; rotate_left; unfold x; clear x; rotate_left)
    | (extract_lets -useContext +onlyGivenNames x; revert x; intro _)
    | with_reducible refine unlistLine_keeps (sub_of (by decide) hp) ?_
    | with_reducible refine snoopReply_keeps (sub_of (by decide) hp) ?_
    | split
    | (clear_value *; split)
    | with_reducible refine keepsP_eq ?_ (by assumption)
    | with_reducible refine keepsO_eq ?_ (by assumption)
    | with_reducible refine keepsP_mk ?_

theorem execSnpInv_keeps {ps z} {tag : Fin 4096} {addr : Nat} {s : Sys2Proof.Machine.State} (hp : [.regs, .mem, .outbox, .bxl, .bridge] ⊆ ps) (h2 : Keeps ps z s) :
    KeepsR ps z (execSnpInv tag addr s) := by
  unfold execSnpInv
  repeat' first
    | with_reducible assumption
    | with_reducible exact keepsP_fst (by assumption)
    | (extract_lets -useContext +onlyGivenNames x; refine (fun (hx : Keeps ps z x) => ?_) ?_; clear_value x; revert x; intro _ _; rotate_left; unfold x; clear x; rotate_left)
    | (extract_lets -useContext +onlyGivenNames x; revert x; intro _)
    | with_reducible refine keepsR_next ?_
    | with_reducible exact keepsR_fault
    | with_reducible refine snoop_keeps (sub_of (by decide) hp) ?_
    | with_reducible refine malformed_keeps (sub_of (by decide) hp) ?_
    | split
    | (clear_value *; split)
    | with_reducible refine keepsP_eq ?_ (by assumption)
    | with_reducible refine keepsO_eq ?_ (by assumption)
    | with_reducible refine keepsP_mk ?_

theorem execSnpShr_keeps {ps z} {tag : Fin 4096} {addr : Nat} {s : Sys2Proof.Machine.State} (hp : [.regs, .mem, .outbox, .bxl, .bridge] ⊆ ps) (h2 : Keeps ps z s) :
    KeepsR ps z (execSnpShr tag addr s) := by
  unfold execSnpShr
  repeat' first
    | with_reducible assumption
    | with_reducible exact keepsP_fst (by assumption)
    | (extract_lets -useContext +onlyGivenNames x; refine (fun (hx : Keeps ps z x) => ?_) ?_; clear_value x; revert x; intro _ _; rotate_left; unfold x; clear x; rotate_left)
    | (extract_lets -useContext +onlyGivenNames x; revert x; intro _)
    | with_reducible refine keepsR_next ?_
    | with_reducible exact keepsR_fault
    | with_reducible refine snoop_keeps (sub_of (by decide) hp) ?_
    | with_reducible refine malformed_keeps (sub_of (by decide) hp) ?_
    | split
    | (clear_value *; split)
    | with_reducible refine keepsP_eq ?_ (by assumption)
    | with_reducible refine keepsO_eq ?_ (by assumption)
    | with_reducible refine keepsP_mk ?_

theorem execXlateInv_keeps {ps z} {tag : Fin 4096} {addr : Nat} {pages : Fin 1048576} {all : Bool} {s : Sys2Proof.Machine.State} (hp : [.regs, .mem, .outbox, .bxl, .bridge] ⊆ ps) (h4 : Keeps ps z s) :
    KeepsR ps z (execXlateInv tag addr pages all s) := by
  unfold execXlateInv
  repeat' first
    | with_reducible assumption
    | with_reducible exact keepsP_fst (by assumption)
    | (extract_lets -useContext +onlyGivenNames x; refine (fun (hx : Keeps ps z x) => ?_) ?_; clear_value x; revert x; intro _ _; rotate_left; unfold x; clear x; rotate_left)
    | (extract_lets -useContext +onlyGivenNames x; have _hx : ∀ a, x a = x a := fun _ => rfl; clear _hx; unfold x; clear x)
    | (extract_lets -useContext +onlyGivenNames x; revert x; intro _)
    | with_reducible refine keepsR_next ?_
    | with_reducible exact keepsR_fault
    | with_reducible refine settleInvs_keeps (sub_of (by decide) hp) ?_
    | with_reducible refine malformed_keeps (sub_of (by decide) hp) ?_
    | split
    | (clear_value *; split)
    | with_reducible refine keeps_with_bxl (mem_of (by decide) hp) ?_
    | with_reducible refine keepsP_eq ?_ (by assumption)
    | with_reducible refine keepsO_eq ?_ (by assumption)
    | with_reducible refine keepsP_mk ?_

theorem execBxlResponseTimeout_keeps {ps z} {tag : Fin 4096} {s : Sys2Proof.Machine.State} (hp : [.regs, .mem, .outbox, .bxl, .bridge] ⊆ ps) (h1 : Keeps ps z s) :
    KeepsR ps z (execBxlResponseTimeout tag s) := by
  unfold execBxlResponseTimeout
  repeat' first
    | with_reducible assumption
    | with_reducible exact keepsP_fst (by assumption)
    | (extract_lets -useContext +onlyGivenNames x; refine (fun (hx : Keeps ps z x) => ?_) ?_; clear_value x; revert x; intro _ _; rotate_left; unfold x; clear x; rotate_left)
    | (extract_lets -useContext +onlyGivenNames x; revert x; intro _)
    | with_reducible refine keepsR_next ?_
    | with_reducible exact keepsR_fault
    | with_reducible refine bxlError_keeps (sub_of (by decide) hp) ?_
    | with_reducible refine failReq_keeps (sub_of (by decide) hp) ?_
    | split
    | (clear_value *; split)
    | with_reducible refine keeps_with_bxl (mem_of (by decide) hp) ?_
    | with_reducible refine keepsP_eq ?_ (by assumption)
    | with_reducible refine keepsO_eq ?_ (by assumption)
    | with_reducible refine keepsP_mk ?_

theorem execBxlTagRetirementEnd_keeps {ps z} {tag : Fin 4096} {s : Sys2Proof.Machine.State} (hp : [.bxl] ⊆ ps) (h1 : Keeps ps z s) :
    KeepsR ps z (execBxlTagRetirementEnd tag s) := by
  unfold execBxlTagRetirementEnd
  repeat' first
    | with_reducible assumption
    | with_reducible exact keepsP_fst (by assumption)
    | (extract_lets -useContext +onlyGivenNames x; refine (fun (hx : Keeps ps z x) => ?_) ?_; clear_value x; revert x; intro _ _; rotate_left; unfold x; clear x; rotate_left)
    | (extract_lets -useContext +onlyGivenNames x; revert x; intro _)
    | with_reducible refine keepsR_next ?_
    | with_reducible exact keepsR_fault
    | split
    | (clear_value *; split)
    | with_reducible refine keeps_with_bxl (mem_of (by decide) hp) ?_
    | with_reducible refine keepsP_eq ?_ (by assumption)
    | with_reducible refine keepsO_eq ?_ (by assumption)
    | with_reducible refine keepsP_mk ?_

theorem execRowRetireDone_keeps {ps z} {st : Sys2Proof.StackId} {ch : Fin 32} {row : Nat} {s : Sys2Proof.Machine.State} (hp : [.regs, .hiCap, .isl, .mem, .mmu, .arr, .vec, .als, .alsScrub, .dma, .ctx, .queues, .seq, .outbox, .draws, .bxl, .pwr, .life, .link, .port, .rtr, .xch, .nmu, .mgmt, .obs, .bridge] ⊆ ps) (h3 : Keeps ps z s) :
    KeepsR ps z (execRowRetireDone st ch row s) := by
  unfold execRowRetireDone
  repeat' first
    | with_reducible assumption
    | with_reducible exact keepsP_fst (by assumption)
    | (extract_lets -useContext +onlyGivenNames x; refine (fun (hx : Keeps ps z x) => ?_) ?_; clear_value x; revert x; intro _ _; rotate_left; unfold x; clear x; rotate_left)
    | (extract_lets -useContext +onlyGivenNames x; revert x; intro _)
    | with_reducible refine keepsR_next ?_
    | with_reducible exact keepsR_fault
    | with_reducible refine serveWait_keeps (sub_of (by decide) hp) ?_
    | with_reducible refine keeps_foldl (fun t a ht => ?_) ?_
    | with_reducible refine keepsP_foldl (fun t a ht => ?_) ?_
    | split
    | (clear_value *; split)
    | with_reducible refine keeps_with_mem_life (mem_of (by decide) hp) (mem_of (by decide) hp) (fun w => w.mem) ?_
    | with_reducible refine keepsP_eq ?_ (by assumption)
    | with_reducible refine keepsO_eq ?_ (by assumption)
    | with_reducible refine keepsP_mk ?_

end Sys2Proof.Machine
end

