-- ==== Sys2Proof/Laws/FrameCounters.lean ====
section
/-!
SUPPORT. Frames: for each operation of Sys2Proof/Machine/Counters.lean, the parts of State it may change, and that it keeps the stores'
canonical form.
-/
namespace Sys2Proof.Machine

open Sys2Proof

theorem execCounterRead_keeps {ps z} {q : Sys2Proof.QueueId} {s : Sys2Proof.Machine.State} (hp : [.regs, .mem, .mmu, .queues, .outbox, .bxl, .bridge] ⊆ ps) (h1 : Keeps ps z s) :
    KeepsR ps z (execCounterRead q s) := by
  unfold execCounterRead
  repeat' first
    | with_reducible assumption
    | with_reducible exact keepsP_fst (by assumption)
    | (extract_lets -useContext +onlyGivenNames x; refine (fun (hx : Keeps ps z x) => ?_) ?_; clear_value x; revert x; intro _ _; rotate_left; unfold x; clear x; rotate_left)
    | (extract_lets -useContext +onlyGivenNames x; refine (fun (hx : KeepsP ps z x) => ?_) ?_; clear_value x; revert x; intro _ _; rotate_left; unfold x; clear x; rotate_left)
    | (extract_lets -useContext +onlyGivenNames x; revert x; intro _)
    | with_reducible refine keepsR_next ?_
    | with_reducible exact keepsR_fault
    | with_reducible refine badCmd_keeps (sub_of (by decide) hp) ?_
    | with_reducible refine doneCmd_keeps (sub_of (by decide) hp) ?_
    | with_reducible refine feWrite_keeps (sub_of (by decide) hp) ?_
    | with_reducible refine keepsP_fst (feWrite_keeps (sub_of (by decide) hp) ?_)
    | with_reducible refine keepsP_eq (feWrite_keeps (sub_of (by decide) hp) ?_) (by assumption)
    | with_reducible refine feThen_keeps (sub_of (by decide) hp) ?_ ?_ (fun x0 x1 hx0 => ?_) (fun x0 hx0 => ?_)
    | with_reducible refine keepsR_eq (feThen_keeps (sub_of (by decide) hp) ?_ ?_ (fun x0 x1 hx0 => ?_) (fun x0 hx0 => ?_)) (by assumption)
    | with_reducible refine failCmd_keeps (sub_of (by decide) hp) ?_
    | split
    | (clear_value *; split)
    | with_reducible refine keepsP_eq ?_ (by assumption)
    | with_reducible refine keepsO_eq ?_ (by assumption)
    | with_reducible refine keepsP_mk ?_

theorem execGcounterRead_keeps {ps z} {q : Sys2Proof.QueueId} {s : Sys2Proof.Machine.State} (hp : [.regs, .mem, .mmu, .queues, .outbox, .bxl, .bridge] ⊆ ps) (h1 : Keeps ps z s) :
    KeepsR ps z (execGcounterRead q s) := by
  unfold execGcounterRead
  repeat' first
    | with_reducible assumption
    | with_reducible exact keepsP_fst (by assumption)
    | (extract_lets -useContext +onlyGivenNames x; refine (fun (hx : Keeps ps z x) => ?_) ?_; clear_value x; revert x; intro _ _; rotate_left; unfold x; clear x; rotate_left)
    | (extract_lets -useContext +onlyGivenNames x; refine (fun (hx : KeepsP ps z x) => ?_) ?_; clear_value x; revert x; intro _ _; rotate_left; unfold x; clear x; rotate_left)
    | (extract_lets -useContext +onlyGivenNames x; revert x; intro _)
    | with_reducible refine keepsR_next ?_
    | with_reducible exact keepsR_fault
    | with_reducible refine badCmd_keeps (sub_of (by decide) hp) ?_
    | with_reducible refine doneCmd_keeps (sub_of (by decide) hp) ?_
    | with_reducible refine feWrite_keeps (sub_of (by decide) hp) ?_
    | with_reducible refine keepsP_fst (feWrite_keeps (sub_of (by decide) hp) ?_)
    | with_reducible refine keepsP_eq (feWrite_keeps (sub_of (by decide) hp) ?_) (by assumption)
    | with_reducible refine feThen_keeps (sub_of (by decide) hp) ?_ ?_ (fun x0 x1 hx0 => ?_) (fun x0 hx0 => ?_)
    | with_reducible refine keepsR_eq (feThen_keeps (sub_of (by decide) hp) ?_ ?_ (fun x0 x1 hx0 => ?_) (fun x0 hx0 => ?_)) (by assumption)
    | with_reducible refine failCmd_keeps (sub_of (by decide) hp) ?_
    | split
    | (clear_value *; split)
    | with_reducible refine keepsP_eq ?_ (by assumption)
    | with_reducible refine keepsO_eq ?_ (by assumption)
    | with_reducible refine keepsP_mk ?_

theorem execLedgerSample_keeps {ps z} {s : Sys2Proof.Machine.State} (hp : [.regs, .mem, .outbox, .draws, .obs, .bridge] ⊆ ps) (h0 : Keeps ps z s) :
    KeepsR ps z (execLedgerSample s) := by
  unfold execLedgerSample
  repeat' first
    | with_reducible assumption
    | with_reducible exact keepsP_fst (by assumption)
    | (extract_lets -useContext +onlyGivenNames x; refine (fun (hx : Keeps ps z x) => ?_) ?_; clear_value x; revert x; intro _ _; rotate_left; unfold x; clear x; rotate_left)
    | (extract_lets -useContext +onlyGivenNames x; revert x; intro _)
    | with_reducible refine keepsR_next ?_
    | with_reducible exact keepsR_fault
    | with_reducible refine State.setReg_keeps (sub_of (by decide) hp) ?_
    | with_reducible refine State.bump_keeps (sub_of (by decide) hp) ?_
    | with_reducible refine ringWrite_keeps (sub_of (by decide) hp) ?_
    | split
    | (clear_value *; split)
    | with_reducible refine keeps_with_obs (mem_of (by decide) hp) ?_
    | with_reducible refine keeps_with_draws_obs (mem_of (by decide) hp) (mem_of (by decide) hp) ?_
    | with_reducible refine keepsP_eq ?_ (by assumption)
    | with_reducible refine keepsO_eq ?_ (by assumption)
    | with_reducible refine keepsP_mk ?_

end Sys2Proof.Machine
end

