-- ==== Sys2Proof/Laws/FrameMgmt.lean ====
section
/-!
SUPPORT. Frames: for each operation of Sys2Proof/Machine/Mgmt.lean, the parts of State it may change, and that it keeps the stores'
canonical form.
-/
namespace Sys2Proof.Machine

open Sys2Proof

theorem State.setSessions_keeps {ps z} {s : Sys2Proof.Machine.State} {xs : List Sys2Proof.Machine.Session} (hp : [.mgmt] ⊆ ps) (h0 : Keeps ps z s) :
    Keeps ps z (State.setSessions s xs) := by
  unfold State.setSessions
  repeat' first
    | with_reducible assumption
    | with_reducible exact keepsP_fst (by assumption)
    | (extract_lets -useContext +onlyGivenNames x; refine (fun (hx : Keeps ps z x) => ?_) ?_; clear_value x; revert x; intro _ _; rotate_left; unfold x; clear x; rotate_left)
    | (extract_lets -useContext +onlyGivenNames x; revert x; intro _)
    | split
    | (clear_value *; split)
    | with_reducible refine keeps_with_mgmt (mem_of (by decide) hp) ?_
    | with_reducible refine keepsP_eq ?_ (by assumption)
    | with_reducible refine keepsO_eq ?_ (by assumption)
    | with_reducible refine keepsP_mk ?_

theorem portFlight_keeps {ps z} {s : Sys2Proof.Machine.State} {client : Sys2Proof.TlsClient} (hp : [.draws] ⊆ ps) (h0 : Keeps ps z s) :
    KeepsP ps z (portFlight s client) := by
  unfold portFlight
  repeat' first
    | with_reducible assumption
    | with_reducible exact keepsP_fst (by assumption)
    | (extract_lets -useContext +onlyGivenNames x; refine (fun (hx : Keeps ps z x) => ?_) ?_; clear_value x; revert x; intro _ _; rotate_left; unfold x; clear x; rotate_left)
    | (extract_lets -useContext +onlyGivenNames x; refine (fun (hx : KeepsP ps z x) => ?_) ?_; clear_value x; revert x; intro _ _; rotate_left; unfold x; clear x; rotate_left)
    | (extract_lets -useContext +onlyGivenNames x; revert x; intro _)
    | with_reducible refine freeBytes_keeps (sub_of (by decide) hp) ?_
    | with_reducible refine keepsP_fst (freeBytes_keeps (sub_of (by decide) hp) ?_)
    | with_reducible refine keepsP_eq (freeBytes_keeps (sub_of (by decide) hp) ?_) (by assumption)
    | split
    | (clear_value *; split)
    | with_reducible refine keepsP_eq ?_ (by assumption)
    | with_reducible refine keepsO_eq ?_ (by assumption)
    | with_reducible refine keepsP_mk ?_

theorem execMgmtSessionOpen_keeps {ps z} {client : Sys2Proof.TlsClient} {chain : List (List Sys2Proof.Byte)} {s : Sys2Proof.Machine.State} (hp : [.regs, .outbox, .draws, .mgmt] ⊆ ps) (h2 : Keeps ps z s) :
    KeepsR ps z (execMgmtSessionOpen client chain s) := by
  unfold execMgmtSessionOpen
  repeat' first
    | with_reducible assumption
    | with_reducible exact keepsP_fst (by assumption)
    | (extract_lets -useContext +onlyGivenNames x; refine (fun (hx : Keeps ps z x) => ?_) ?_; clear_value x; revert x; intro _ _; rotate_left; unfold x; clear x; rotate_left)
    | (extract_lets -useContext +onlyGivenNames x; refine (fun (hx : KeepsP ps z x) => ?_) ?_; clear_value x; revert x; intro _ _; rotate_left; unfold x; clear x; rotate_left)
    | (extract_lets -useContext +onlyGivenNames x; revert x; intro _)
    | with_reducible refine keepsR_next ?_
    | with_reducible exact keepsR_fault
    | with_reducible refine State.bump_keeps (sub_of (by decide) hp) ?_
    | with_reducible refine State.send_keeps (sub_of (by decide) hp) ?_
    | with_reducible refine portFlight_keeps (sub_of (by decide) hp) ?_
    | with_reducible refine keepsP_fst (portFlight_keeps (sub_of (by decide) hp) ?_)
    | with_reducible refine keepsP_eq (portFlight_keeps (sub_of (by decide) hp) ?_) (by assumption)
    | split
    | (clear_value *; split)
    | with_reducible refine keeps_with_mgmt (mem_of (by decide) hp) ?_
    | with_reducible refine keepsP_eq ?_ (by assumption)
    | with_reducible refine keepsO_eq ?_ (by assumption)
    | with_reducible refine keepsP_mk ?_

theorem execSessionIdleTimeout_keeps {ps z} {sid : Nat} {s : Sys2Proof.Machine.State} (hp : [.mgmt] ⊆ ps) (h1 : Keeps ps z s) :
    KeepsR ps z (execSessionIdleTimeout sid s) := by
  unfold execSessionIdleTimeout
  repeat' first
    | with_reducible assumption
    | with_reducible exact keepsP_fst (by assumption)
    | (extract_lets -useContext +onlyGivenNames x; refine (fun (hx : Keeps ps z x) => ?_) ?_; clear_value x; revert x; intro _ _; rotate_left; unfold x; clear x; rotate_left)
    | (extract_lets -useContext +onlyGivenNames x; revert x; intro _)
    | with_reducible refine keepsR_next ?_
    | with_reducible exact keepsR_fault
    | with_reducible refine State.setSessions_keeps (sub_of (by decide) hp) ?_
    | split
    | (clear_value *; split)
    | with_reducible refine keepsP_eq ?_ (by assumption)
    | with_reducible refine keepsO_eq ?_ (by assumption)
    | with_reducible refine keepsP_mk ?_

theorem mgmtReply_keeps {ps z} {s : Sys2Proof.Machine.State} {sid : Nat} {type : Nat} {rid : Nat} {status : Nat} {body : List Sys2Proof.Byte} (hp : [.outbox] ⊆ ps) (h0 : Keeps ps z s) :
    Keeps ps z (mgmtReply s sid type rid status body) := by
  unfold mgmtReply
  repeat' first
    | with_reducible assumption
    | with_reducible exact keepsP_fst (by assumption)
    | (extract_lets -useContext +onlyGivenNames x; refine (fun (hx : Keeps ps z x) => ?_) ?_; clear_value x; revert x; intro _ _; rotate_left; unfold x; clear x; rotate_left)
    | (extract_lets -useContext +onlyGivenNames x; revert x; intro _)
    | with_reducible refine State.send_keeps (sub_of (by decide) hp) ?_
    | split
    | (clear_value *; split)
    | with_reducible refine keepsP_eq ?_ (by assumption)
    | with_reducible refine keepsO_eq ?_ (by assumption)
    | with_reducible refine keepsP_mk ?_

theorem mgmtMsg_keeps {ps z} {s : Sys2Proof.Machine.State} {r : Sys2Proof.Machine.MgmtRow} {f : Sys2Proof.Machine.State → Sys2Proof.Machine.State × Option (Nat × List Sys2Proof.Byte)} (hp : [.outbox, .mgmt] ⊆ ps) (h0 : Keeps ps z s) (h2 : ∀ x0, Keeps ps z x0 → KeepsP ps z (f x0)) :
    KeepsR ps z (mgmtMsg s r f) := by
  unfold mgmtMsg
  repeat' first
    | with_reducible assumption
    | with_reducible exact keepsP_fst (by assumption)
    | (extract_lets -useContext +onlyGivenNames x; refine (fun (hx : Keeps ps z x) => ?_) ?_; clear_value x; revert x; intro _ _; rotate_left; unfold x; clear x; rotate_left)
    | (extract_lets -useContext +onlyGivenNames x; refine (fun (hx : KeepsP ps z x) => ?_) ?_; clear_value x; revert x; intro _ _; rotate_left; unfold x; clear x; rotate_left)
    | with_reducible refine h2 _ ?_
    | with_reducible refine keepsP_fst (h2 _ ?_)
    | with_reducible refine keepsP_eq (h2 _ ?_) (by assumption)
    | (extract_lets -useContext +onlyGivenNames x; have _hx : ∀ a, x a = x a := fun _ => rfl; clear _hx; unfold x; clear x)
    | (extract_lets -useContext +onlyGivenNames x; revert x; intro _)
    | with_reducible refine keepsR_next ?_
    | with_reducible exact keepsR_fault
    | with_reducible refine mgmtReply_keeps (sub_of (by decide) hp) ?_
    | with_reducible refine State.setSessions_keeps (sub_of (by decide) hp) ?_
    | split
    | (clear_value *; split)
    | with_reducible refine keeps_with_mgmt (mem_of (by decide) hp) ?_
    | with_reducible refine keepsP_eq ?_ (by assumption)
    | with_reducible refine keepsO_eq ?_ (by assumption)
    | with_reducible refine keepsP_mk ?_

theorem execIdentity_keeps {ps z} {sid : Nat} {a1_ : Sys2Proof.MsgHead} {s : Sys2Proof.Machine.State} (hp : [.outbox, .mgmt] ⊆ ps) (h2 : Keeps ps z s) :
    KeepsR ps z (execIdentity sid a1_ s) := by
  unfold execIdentity
  repeat' first
    | with_reducible assumption
    | with_reducible exact keepsP_fst (by assumption)
    | (extract_lets -useContext +onlyGivenNames x; refine (fun (hx : Keeps ps z x) => ?_) ?_; clear_value x; revert x; intro _ _; rotate_left; unfold x; clear x; rotate_left)
    | (extract_lets -useContext +onlyGivenNames x; have _hx : ∀ a, x a = x a := fun _ => rfl; clear _hx; unfold x; clear x)
    | (extract_lets -useContext +onlyGivenNames x; revert x; intro _)
    | with_reducible refine keepsR_next ?_
    | with_reducible exact keepsR_fault
    | with_reducible refine mgmtMsg_keeps (sub_of (by decide) hp) ?_ (fun x0 hx0 => ?_)
    | with_reducible refine keepsR_eq (mgmtMsg_keeps (sub_of (by decide) hp) ?_ (fun x0 hx0 => ?_)) (by assumption)
    | split
    | (clear_value *; split)
    | with_reducible refine keepsP_eq ?_ (by assumption)
    | with_reducible refine keepsO_eq ?_ (by assumption)
    | with_reducible refine keepsP_mk ?_

theorem execMgmtRegRead_keeps {ps z} {sid : Nat} {a1_ : Sys2Proof.MsgHead} {os : List Nat} {s : Sys2Proof.Machine.State} (hp : [.regs, .hiCap, .mem, .outbox, .mgmt, .bridge] ⊆ ps) (h3 : Keeps ps z s) :
    KeepsR ps z (execMgmtRegRead sid a1_ os s) := by
  unfold execMgmtRegRead
  repeat' first
    | with_reducible assumption
    | with_reducible exact keepsP_fst (by assumption)
    | (extract_lets -useContext +onlyGivenNames x; refine (fun (hx : Keeps ps z x) => ?_) ?_; clear_value x; revert x; intro _ _; rotate_left; unfold x; clear x; rotate_left)
    | (extract_lets -useContext +onlyGivenNames x; refine (fun (hx : KeepsP ps z x) => ?_) ?_; clear_value x; revert x; intro _ _; rotate_left; unfold x; clear x; rotate_left)
    | (extract_lets -useContext +onlyGivenNames x; revert x; intro _)
    | with_reducible refine keepsR_next ?_
    | with_reducible exact keepsR_fault
    | with_reducible refine readReg_keeps (sub_of (by decide) hp) ?_
    | with_reducible refine keepsP_fst (readReg_keeps (sub_of (by decide) hp) ?_)
    | with_reducible refine keepsP_eq (readReg_keeps (sub_of (by decide) hp) ?_) (by assumption)
    | with_reducible refine mgmtMsg_keeps (sub_of (by decide) hp) ?_ (fun x0 hx0 => ?_)
    | with_reducible refine keepsR_eq (mgmtMsg_keeps (sub_of (by decide) hp) ?_ (fun x0 hx0 => ?_)) (by assumption)
    | with_reducible refine keeps_foldl (fun t a ht => ?_) ?_
    | with_reducible refine keepsP_foldl (fun t a ht => ?_) ?_
    | split
    | (clear_value *; split)
    | with_reducible refine keepsP_eq ?_ (by assumption)
    | with_reducible refine keepsO_eq ?_ (by assumption)
    | with_reducible refine keepsP_mk ?_

theorem execMgmtRegWrite_keeps {ps z} {sid : Nat} {a1_ : Sys2Proof.MsgHead} {ws : List (Nat × Nat)} {s : Sys2Proof.Machine.State} (hp : [.regs, .isl, .mem, .mmu, .arr, .vec, .als, .alsScrub, .dma, .ctx, .queues, .seq, .outbox, .draws, .bxl, .pwr, .life, .link, .port, .rtr, .xch, .nmu, .mgmt, .obs, .bridge] ⊆ ps) (h3 : Keeps ps z s) :
    KeepsR ps z (execMgmtRegWrite sid a1_ ws s) := by
  unfold execMgmtRegWrite
  repeat' first
    | with_reducible assumption
    | with_reducible exact keepsP_fst (by assumption)
    | (extract_lets -useContext +onlyGivenNames x; refine (fun (hx : Keeps ps z x) => ?_) ?_; clear_value x; revert x; intro _ _; rotate_left; unfold x; clear x; rotate_left)
    | (extract_lets -useContext +onlyGivenNames x; revert x; intro _)
    | with_reducible refine keepsR_next ?_
    | with_reducible exact keepsR_fault
    | with_reducible refine writeReg_keeps (sub_of (by decide) hp) ?_
    | with_reducible refine mgmtMsg_keeps (sub_of (by decide) hp) ?_ (fun x0 hx0 => ?_)
    | with_reducible refine keepsR_eq (mgmtMsg_keeps (sub_of (by decide) hp) ?_ (fun x0 hx0 => ?_)) (by assumption)
    | with_reducible refine keeps_foldl (fun t a ht => ?_) ?_
    | with_reducible refine keepsP_foldl (fun t a ht => ?_) ?_
    | split
    | (clear_value *; split)
    | with_reducible refine keepsP_eq ?_ (by assumption)
    | with_reducible refine keepsO_eq ?_ (by assumption)
    | with_reducible refine keepsP_mk ?_

theorem execMgmtCounterRead_keeps {ps z} {sid : Nat} {a1_ : Sys2Proof.MsgHead} {sels : List Nat} {s : Sys2Proof.Machine.State} (hp : [.outbox, .mgmt] ⊆ ps) (h3 : Keeps ps z s) :
    KeepsR ps z (execMgmtCounterRead sid a1_ sels s) := by
  unfold execMgmtCounterRead
  repeat' first
    | with_reducible assumption
    | with_reducible exact keepsP_fst (by assumption)
    | (extract_lets -useContext +onlyGivenNames x; refine (fun (hx : Keeps ps z x) => ?_) ?_; clear_value x; revert x; intro _ _; rotate_left; unfold x; clear x; rotate_left)
    | (extract_lets -useContext +onlyGivenNames x; revert x; intro _)
    | with_reducible refine keepsR_next ?_
    | with_reducible exact keepsR_fault
    | with_reducible refine mgmtMsg_keeps (sub_of (by decide) hp) ?_ (fun x0 hx0 => ?_)
    | with_reducible refine keepsR_eq (mgmtMsg_keeps (sub_of (by decide) hp) ?_ (fun x0 hx0 => ?_)) (by assumption)
    | split
    | (clear_value *; split)
    | with_reducible refine keepsP_eq ?_ (by assumption)
    | with_reducible refine keepsO_eq ?_ (by assumption)
    | with_reducible refine keepsP_mk ?_

theorem mgmtPower_keeps {ps z} {s : Sys2Proof.Machine.State} {e : Sys2Proof.Machine.PwrEntry} (hp : [.isl, .pwr] ⊆ ps) (h0 : Keeps ps z s) :
    KeepsP ps z (mgmtPower s e) := by
  unfold mgmtPower
  repeat' first
    | with_reducible assumption
    | with_reducible exact keepsP_fst (by assumption)
    | (extract_lets -useContext +onlyGivenNames x; refine (fun (hx : Keeps ps z x) => ?_) ?_; clear_value x; revert x; intro _ _; rotate_left; unfold x; clear x; rotate_left)
    | (extract_lets -useContext +onlyGivenNames x; refine (fun (hx : KeepsO ps z x) => ?_) ?_; clear_value x; revert x; intro _ _; rotate_left; unfold x; clear x; rotate_left)
    | with_reducible exact keepsO_get (by assumption)
    | (extract_lets -useContext +onlyGivenNames x; revert x; intro _)
    | with_reducible refine enterPwr_keeps (sub_of (by decide) hp) ?_
    | with_reducible refine keepsO_eq (enterPwr_keeps (sub_of (by decide) hp) ?_) (by assumption)
    | split
    | (clear_value *; split)
    | with_reducible refine keepsP_eq ?_ (by assumption)
    | with_reducible refine keepsO_eq ?_ (by assumption)
    | with_reducible refine keepsP_mk ?_

theorem execSetpoint_keeps {ps z} {sid : Nat} {a1_ : Sys2Proof.MsgHead} {word : Sys2Proof.W32} {start : Nat} {s : Sys2Proof.Machine.State} (hp : [.isl, .outbox, .pwr, .mgmt] ⊆ ps) (h4 : Keeps ps z s) :
    KeepsR ps z (execSetpoint sid a1_ word start s) := by
  unfold execSetpoint
  repeat' first
    | with_reducible assumption
    | with_reducible exact keepsP_fst (by assumption)
    | (extract_lets -useContext +onlyGivenNames x; refine (fun (hx : Keeps ps z x) => ?_) ?_; clear_value x; revert x; intro _ _; rotate_left; unfold x; clear x; rotate_left)
    | (extract_lets -useContext +onlyGivenNames x; refine (fun (hx : KeepsP ps z x) => ?_) ?_; clear_value x; revert x; intro _ _; rotate_left; unfold x; clear x; rotate_left)
    | (extract_lets -useContext +onlyGivenNames x; revert x; intro _)
    | with_reducible refine keepsR_next ?_
    | with_reducible exact keepsR_fault
    | with_reducible refine mgmtPower_keeps (sub_of (by decide) hp) ?_
    | with_reducible refine keepsP_fst (mgmtPower_keeps (sub_of (by decide) hp) ?_)
    | with_reducible refine keepsP_eq (mgmtPower_keeps (sub_of (by decide) hp) ?_) (by assumption)
    | with_reducible refine mgmtMsg_keeps (sub_of (by decide) hp) ?_ (fun x0 hx0 => ?_)
    | with_reducible refine keepsR_eq (mgmtMsg_keeps (sub_of (by decide) hp) ?_ (fun x0 hx0 => ?_)) (by assumption)
    | split
    | (clear_value *; split)
    | with_reducible refine keepsP_eq ?_ (by assumption)
    | with_reducible refine keepsO_eq ?_ (by assumption)
    | with_reducible refine keepsP_mk ?_

theorem execMgmtMode_keeps {ps z} {sid : Nat} {a1_ : Sys2Proof.MsgHead} {word : Sys2Proof.W32} {start : Nat} {s : Sys2Proof.Machine.State} (hp : [.isl, .outbox, .pwr, .mgmt] ⊆ ps) (h4 : Keeps ps z s) :
    KeepsR ps z (execMgmtMode sid a1_ word start s) := by
  unfold execMgmtMode
  repeat' first
    | with_reducible assumption
    | with_reducible exact keepsP_fst (by assumption)
    | (extract_lets -useContext +onlyGivenNames x; refine (fun (hx : Keeps ps z x) => ?_) ?_; clear_value x; revert x; intro _ _; rotate_left; unfold x; clear x; rotate_left)
    | (extract_lets -useContext +onlyGivenNames x; refine (fun (hx : KeepsP ps z x) => ?_) ?_; clear_value x; revert x; intro _ _; rotate_left; unfold x; clear x; rotate_left)
    | (extract_lets -useContext +onlyGivenNames x; revert x; intro _)
    | with_reducible refine keepsR_next ?_
    | with_reducible exact keepsR_fault
    | with_reducible refine mgmtPower_keeps (sub_of (by decide) hp) ?_
    | with_reducible refine keepsP_fst (mgmtPower_keeps (sub_of (by decide) hp) ?_)
    | with_reducible refine keepsP_eq (mgmtPower_keeps (sub_of (by decide) hp) ?_) (by assumption)
    | with_reducible refine mgmtMsg_keeps (sub_of (by decide) hp) ?_ (fun x0 hx0 => ?_)
    | with_reducible refine keepsR_eq (mgmtMsg_keeps (sub_of (by decide) hp) ?_ (fun x0 hx0 => ?_)) (by assumption)
    | split
    | (clear_value *; split)
    | with_reducible refine keepsP_eq ?_ (by assumption)
    | with_reducible refine keepsO_eq ?_ (by assumption)
    | with_reducible refine keepsP_mk ?_

theorem execDcbWrite_keeps {ps z} {sid : Nat} {a1_ : Sys2Proof.MsgHead} {s : Sys2Proof.Machine.State} (hp : [.outbox, .mgmt] ⊆ ps) (h2 : Keeps ps z s) :
    KeepsR ps z (execDcbWrite sid a1_ s) := by
  unfold execDcbWrite
  repeat' first
    | with_reducible assumption
    | with_reducible exact keepsP_fst (by assumption)
    | (extract_lets -useContext +onlyGivenNames x; refine (fun (hx : Keeps ps z x) => ?_) ?_; clear_value x; revert x; intro _ _; rotate_left; unfold x; clear x; rotate_left)
    | (extract_lets -useContext +onlyGivenNames x; revert x; intro _)
    | with_reducible refine keepsR_next ?_
    | with_reducible exact keepsR_fault
    | with_reducible refine mgmtMsg_keeps (sub_of (by decide) hp) ?_ (fun x0 hx0 => ?_)
    | with_reducible refine keepsR_eq (mgmtMsg_keeps (sub_of (by decide) hp) ?_ (fun x0 hx0 => ?_)) (by assumption)
    | split
    | (clear_value *; split)
    | with_reducible refine keepsP_eq ?_ (by assumption)
    | with_reducible refine keepsO_eq ?_ (by assumption)
    | with_reducible refine keepsP_mk ?_

theorem execDepositRead_keeps {ps z} {sid : Nat} {a1_ : Sys2Proof.MsgHead} {off : Nat} {len : Nat} {s : Sys2Proof.Machine.State} (hp : [.regs, .mem, .outbox, .mgmt, .bridge] ⊆ ps) (h4 : Keeps ps z s) :
    KeepsR ps z (execDepositRead sid a1_ off len s) := by
  unfold execDepositRead
  repeat' first
    | with_reducible assumption
    | with_reducible exact keepsP_fst (by assumption)
    | (extract_lets -useContext +onlyGivenNames x; refine (fun (hx : Keeps ps z x) => ?_) ?_; clear_value x; revert x; intro _ _; rotate_left; unfold x; clear x; rotate_left)
    | (extract_lets -useContext +onlyGivenNames x; refine (fun (hx : KeepsP ps z x) => ?_) ?_; clear_value x; revert x; intro _ _; rotate_left; unfold x; clear x; rotate_left)
    | (extract_lets -useContext +onlyGivenNames x; revert x; intro _)
    | with_reducible refine keepsR_next ?_
    | with_reducible exact keepsR_fault
    | with_reducible refine mgmtMsg_keeps (sub_of (by decide) hp) ?_ (fun x0 hx0 => ?_)
    | with_reducible refine keepsR_eq (mgmtMsg_keeps (sub_of (by decide) hp) ?_ (fun x0 hx0 => ?_)) (by assumption)
    | with_reducible refine readFrom_keeps (sub_of (by decide) hp) ?_
    | with_reducible refine keepsP_fst (readFrom_keeps (sub_of (by decide) hp) ?_)
    | with_reducible refine keepsP_eq (readFrom_keeps (sub_of (by decide) hp) ?_) (by assumption)
    | split
    | (clear_value *; split)
    | with_reducible refine keepsP_eq ?_ (by assumption)
    | with_reducible refine keepsO_eq ?_ (by assumption)
    | with_reducible refine keepsP_mk ?_

theorem execLogRead_keeps {ps z} {sid : Nat} {a1_ : Sys2Proof.MsgHead} {off : Nat} {len : Nat} {s : Sys2Proof.Machine.State} (hp : [.outbox, .mgmt] ⊆ ps) (h4 : Keeps ps z s) :
    KeepsR ps z (execLogRead sid a1_ off len s) := by
  unfold execLogRead
  repeat' first
    | with_reducible assumption
    | with_reducible exact keepsP_fst (by assumption)
    | (extract_lets -useContext +onlyGivenNames x; refine (fun (hx : Keeps ps z x) => ?_) ?_; clear_value x; revert x; intro _ _; rotate_left; unfold x; clear x; rotate_left)
    | (extract_lets -useContext +onlyGivenNames x; revert x; intro _)
    | with_reducible refine keepsR_next ?_
    | with_reducible exact keepsR_fault
    | with_reducible refine mgmtMsg_keeps (sub_of (by decide) hp) ?_ (fun x0 hx0 => ?_)
    | with_reducible refine keepsR_eq (mgmtMsg_keeps (sub_of (by decide) hp) ?_ (fun x0 hx0 => ?_)) (by assumption)
    | split
    | (clear_value *; split)
    | with_reducible refine keepsP_eq ?_ (by assumption)
    | with_reducible refine keepsO_eq ?_ (by assumption)
    | with_reducible refine keepsP_mk ?_

theorem execTrustSet_keeps {ps z} {sid : Nat} {a1_ : Sys2Proof.MsgHead} {k : Nat} {cls : Nat} {fingerprint : Nat} {s : Sys2Proof.Machine.State} (hp : [.outbox, .mgmt] ⊆ ps) (h5 : Keeps ps z s) :
    KeepsR ps z (execTrustSet sid a1_ k cls fingerprint s) := by
  unfold execTrustSet
  repeat' first
    | with_reducible assumption
    | with_reducible exact keepsP_fst (by assumption)
    | (extract_lets -useContext +onlyGivenNames x; refine (fun (hx : Keeps ps z x) => ?_) ?_; clear_value x; revert x; intro _ _; rotate_left; unfold x; clear x; rotate_left)
    | (extract_lets -useContext +onlyGivenNames x; revert x; intro _)
    | with_reducible refine keepsR_next ?_
    | with_reducible exact keepsR_fault
    | with_reducible refine State.setSessions_keeps (sub_of (by decide) hp) ?_
    | with_reducible refine mgmtMsg_keeps (sub_of (by decide) hp) ?_ (fun x0 hx0 => ?_)
    | with_reducible refine keepsR_eq (mgmtMsg_keeps (sub_of (by decide) hp) ?_ (fun x0 hx0 => ?_)) (by assumption)
    | split
    | (clear_value *; split)
    | with_reducible refine keeps_with_mgmt (mem_of (by decide) hp) ?_
    | with_reducible refine keepsP_eq ?_ (by assumption)
    | with_reducible refine keepsO_eq ?_ (by assumption)
    | with_reducible refine keepsP_mk ?_

theorem execDebugUnlock_keeps {ps z} {sid : Nat} {a1_ : Sys2Proof.MsgHead} {s : Sys2Proof.Machine.State} (hp : [.regs, .mem, .arr, .vec, .queues, .seq, .outbox, .cat, .nmu, .pair, .mgmt] ⊆ ps) (h2 : Keeps ps z s) :
    KeepsR ps z (execDebugUnlock sid a1_ s) := by
  unfold execDebugUnlock
  repeat' first
    | with_reducible assumption
    | with_reducible exact keepsP_fst (by assumption)
    | (extract_lets -useContext +onlyGivenNames x; refine (fun (hx : Keeps ps z x) => ?_) ?_; clear_value x; revert x; intro _ _; rotate_left; unfold x; clear x; rotate_left)
    | (extract_lets -useContext +onlyGivenNames x; revert x; intro _)
    | with_reducible refine keepsR_next ?_
    | with_reducible exact keepsR_fault
    | with_reducible refine State.setField_keeps (sub_of (by decide) hp) ?_
    | with_reducible refine abortCmd_keeps (sub_of (by decide) hp) ?_
    | with_reducible refine dropKey_keeps (sub_of (by decide) hp) ?_
    | with_reducible refine mgmtMsg_keeps (sub_of (by decide) hp) ?_ (fun x0 hx0 => ?_)
    | with_reducible refine keepsR_eq (mgmtMsg_keeps (sub_of (by decide) hp) ?_ (fun x0 hx0 => ?_)) (by assumption)
    | with_reducible refine keeps_foldl (fun t a ht => ?_) ?_
    | with_reducible refine keepsP_foldl (fun t a ht => ?_) ?_
    | split
    | (clear_value *; split)
    | with_reducible refine keeps_with_mgmt (mem_of (by decide) hp) ?_
    | with_reducible refine keepsP_eq ?_ (by assumption)
    | with_reducible refine keepsO_eq ?_ (by assumption)
    | with_reducible refine keepsP_mk ?_

theorem execAttest_keeps {ps z} {sid : Nat} {a1_ : Sys2Proof.MsgHead} {nonce : List Sys2Proof.Byte} {s : Sys2Proof.Machine.State} (hp : [.outbox, .mgmt] ⊆ ps) (h3 : Keeps ps z s) :
    KeepsR ps z (execAttest sid a1_ nonce s) := by
  unfold execAttest
  repeat' first
    | with_reducible assumption
    | with_reducible exact keepsP_fst (by assumption)
    | (extract_lets -useContext +onlyGivenNames x; refine (fun (hx : Keeps ps z x) => ?_) ?_; clear_value x; revert x; intro _ _; rotate_left; unfold x; clear x; rotate_left)
    | (extract_lets -useContext +onlyGivenNames x; revert x; intro _)
    | with_reducible refine keepsR_next ?_
    | with_reducible exact keepsR_fault
    | with_reducible refine mgmtMsg_keeps (sub_of (by decide) hp) ?_ (fun x0 hx0 => ?_)
    | with_reducible refine keepsR_eq (mgmtMsg_keeps (sub_of (by decide) hp) ?_ (fun x0 hx0 => ?_)) (by assumption)
    | split
    | (clear_value *; split)
    | with_reducible refine keeps_with_mgmt (mem_of (by decide) hp) ?_
    | with_reducible refine keepsP_eq ?_ (by assumption)
    | with_reducible refine keepsO_eq ?_ (by assumption)
    | with_reducible refine keepsP_mk ?_

theorem mgmtRun_keeps {ps z} {m : Sys2Proof.Machine.MgmtWait} {s : Sys2Proof.Machine.State} (hp : [.regs, .hiCap, .isl, .mem, .mmu, .arr, .vec, .als, .alsScrub, .dma, .ctx, .queues, .seq, .outbox, .draws, .bxl, .pwr, .life, .link, .port, .rtr, .xch, .cat, .nmu, .pair, .mgmt, .obs, .bridge] ⊆ ps) (h1 : Keeps ps z s) :
    KeepsR ps z (mgmtRun m s) := by
  unfold mgmtRun
  repeat' first
    | with_reducible assumption
    | with_reducible exact keepsP_fst (by assumption)
    | (extract_lets -useContext +onlyGivenNames x; refine (fun (hx : Keeps ps z x) => ?_) ?_; clear_value x; revert x; intro _ _; rotate_left; unfold x; clear x; rotate_left)
    | (extract_lets -useContext +onlyGivenNames x; revert x; intro _)
    | with_reducible refine keepsR_next ?_
    | with_reducible exact keepsR_fault
    | with_reducible refine execAttest_keeps (sub_of (by decide) hp) ?_
    | with_reducible refine keepsR_eq (execAttest_keeps (sub_of (by decide) hp) ?_) (by assumption)
    | with_reducible refine execDcbWrite_keeps (sub_of (by decide) hp) ?_
    | with_reducible refine keepsR_eq (execDcbWrite_keeps (sub_of (by decide) hp) ?_) (by assumption)
    | with_reducible refine execDebugUnlock_keeps (sub_of (by decide) hp) ?_
    | with_reducible refine keepsR_eq (execDebugUnlock_keeps (sub_of (by decide) hp) ?_) (by assumption)
    | with_reducible refine execDepositRead_keeps (sub_of (by decide) hp) ?_
    | with_reducible refine keepsR_eq (execDepositRead_keeps (sub_of (by decide) hp) ?_) (by assumption)
    | with_reducible refine execIdentity_keeps (sub_of (by decide) hp) ?_
    | with_reducible refine keepsR_eq (execIdentity_keeps (sub_of (by decide) hp) ?_) (by assumption)
    | with_reducible refine execLogRead_keeps (sub_of (by decide) hp) ?_
    | with_reducible refine keepsR_eq (execLogRead_keeps (sub_of (by decide) hp) ?_) (by assumption)
    | with_reducible refine execMgmtCounterRead_keeps (sub_of (by decide) hp) ?_
    | with_reducible refine keepsR_eq (execMgmtCounterRead_keeps (sub_of (by decide) hp) ?_) (by assumption)
    | with_reducible refine execMgmtMode_keeps (sub_of (by decide) hp) ?_
    | with_reducible refine keepsR_eq (execMgmtMode_keeps (sub_of (by decide) hp) ?_) (by assumption)
    | with_reducible refine execMgmtRegRead_keeps (sub_of (by decide) hp) ?_
    | with_reducible refine keepsR_eq (execMgmtRegRead_keeps (sub_of (by decide) hp) ?_) (by assumption)
    | with_reducible refine execMgmtRegWrite_keeps (sub_of (by decide) hp) ?_
    | with_reducible refine keepsR_eq (execMgmtRegWrite_keeps (sub_of (by decide) hp) ?_) (by assumption)
    | with_reducible refine execSetpoint_keeps (sub_of (by decide) hp) ?_
    | with_reducible refine keepsR_eq (execSetpoint_keeps (sub_of (by decide) hp) ?_) (by assumption)
    | with_reducible refine execTrustSet_keeps (sub_of (by decide) hp) ?_
    | with_reducible refine keepsR_eq (execTrustSet_keeps (sub_of (by decide) hp) ?_) (by assumption)
    | split
    | (clear_value *; split)
    | with_reducible refine keepsP_eq ?_ (by assumption)
    | with_reducible refine keepsO_eq ?_ (by assumption)
    | with_reducible refine keepsP_mk ?_

theorem serveMessages_keeps {ps z} {s : Sys2Proof.Machine.State} (hp : [.regs, .hiCap, .isl, .mem, .mmu, .arr, .vec, .als, .alsScrub, .dma, .ctx, .queues, .seq, .outbox, .draws, .bxl, .pwr, .life, .link, .port, .rtr, .xch, .cat, .nmu, .pair, .mgmt, .obs, .bridge] ⊆ ps) (h0 : Keeps ps z s) :
    Keeps ps z (serveMessages s) := by
  unfold serveMessages
  repeat' first
    | with_reducible assumption
    | with_reducible exact keepsP_fst (by assumption)
    | (extract_lets -useContext +onlyGivenNames x; refine (fun (hx : Keeps ps z x) => ?_) ?_; clear_value x; revert x; intro _ _; rotate_left; unfold x; clear x; rotate_left)
    | (extract_lets -useContext +onlyGivenNames x; revert x; intro _)
    | with_reducible refine State.setSessions_keeps (sub_of (by decide) hp) ?_
    | with_reducible refine mgmtRun_keeps (sub_of (by decide) hp) ?_
    | with_reducible refine keepsR_eq (mgmtRun_keeps (sub_of (by decide) hp) ?_) (by assumption)
    | with_reducible refine keeps_foldl (fun t a ht => ?_) ?_
    | with_reducible refine keepsP_foldl (fun t a ht => ?_) ?_
    | split
    | (clear_value *; split)
    | with_reducible refine keeps_with_mgmt (mem_of (by decide) hp) ?_
    | with_reducible refine keepsP_eq ?_ (by assumption)
    | with_reducible refine keepsO_eq ?_ (by assumption)
    | with_reducible refine keepsO_getD ?_ ?_
    | with_reducible refine keepsP_mk ?_

theorem execAttestReportDone_keeps {ps z} {s : Sys2Proof.Machine.State} (hp : [.regs, .hiCap, .isl, .mem, .mmu, .arr, .vec, .als, .alsScrub, .dma, .ctx, .queues, .seq, .outbox, .draws, .bxl, .pwr, .life, .link, .port, .rtr, .xch, .cat, .nmu, .pair, .mgmt, .obs, .bridge] ⊆ ps) (h0 : Keeps ps z s) :
    KeepsR ps z (execAttestReportDone s) := by
  unfold execAttestReportDone
  repeat' first
    | with_reducible assumption
    | with_reducible exact keepsP_fst (by assumption)
    | (extract_lets -useContext +onlyGivenNames x; refine (fun (hx : Keeps ps z x) => ?_) ?_; clear_value x; revert x; intro _ _; rotate_left; unfold x; clear x; rotate_left)
    | (extract_lets -useContext +onlyGivenNames x; refine (fun (hx : KeepsP ps z x) => ?_) ?_; clear_value x; revert x; intro _ _; rotate_left; unfold x; clear x; rotate_left)
    | (extract_lets -useContext +onlyGivenNames x; revert x; intro _)
    | with_reducible refine keepsR_next ?_
    | with_reducible exact keepsR_fault
    | with_reducible refine mgmtReply_keeps (sub_of (by decide) hp) ?_
    | with_reducible refine State.setReg_keeps (sub_of (by decide) hp) ?_
    | with_reducible refine freeBytes_keeps (sub_of (by decide) hp) ?_
    | with_reducible refine keepsP_fst (freeBytes_keeps (sub_of (by decide) hp) ?_)
    | with_reducible refine keepsP_eq (freeBytes_keeps (sub_of (by decide) hp) ?_) (by assumption)
    | with_reducible refine serveMessages_keeps (sub_of (by decide) hp) ?_
    | split
    | (clear_value *; split)
    | with_reducible refine keeps_with_mgmt (mem_of (by decide) hp) ?_
    | with_reducible refine keepsP_eq ?_ (by assumption)
    | with_reducible refine keepsO_eq ?_ (by assumption)
    | with_reducible refine keepsP_mk ?_

theorem execSmbusRefresh_keeps {ps z} {s : Sys2Proof.Machine.State} (hp : [.mgmt] ⊆ ps) (h0 : Keeps ps z s) :
    KeepsR ps z (execSmbusRefresh s) := by
  unfold execSmbusRefresh
  repeat' first
    | with_reducible assumption
    | with_reducible exact keepsP_fst (by assumption)
    | (extract_lets -useContext +onlyGivenNames x; refine (fun (hx : Keeps ps z x) => ?_) ?_; clear_value x; revert x; intro _ _; rotate_left; unfold x; clear x; rotate_left)
    | (extract_lets -useContext +onlyGivenNames x; revert x; intro _)
    | with_reducible refine keepsR_next ?_
    | with_reducible exact keepsR_fault
    | split
    | (clear_value *; split)
    | with_reducible refine keeps_with_mgmt (mem_of (by decide) hp) ?_
    | with_reducible refine keepsP_eq ?_ (by assumption)
    | with_reducible refine keepsO_eq ?_ (by assumption)
    | with_reducible refine keepsP_mk ?_

theorem smbByte_keeps {ps z} {s : Sys2Proof.Machine.State} {o : Nat} (hp : [.mgmt] ⊆ ps) (h0 : Keeps ps z s) :
    KeepsP ps z (smbByte s o) := by
  unfold smbByte
  repeat' first
    | with_reducible assumption
    | with_reducible exact keepsP_fst (by assumption)
    | (extract_lets -useContext +onlyGivenNames x; refine (fun (hx : Keeps ps z x) => ?_) ?_; clear_value x; revert x; intro _ _; rotate_left; unfold x; clear x; rotate_left)
    | (extract_lets -useContext +onlyGivenNames x; revert x; intro _)
    | split
    | (clear_value *; split)
    | with_reducible refine keeps_with_mgmt (mem_of (by decide) hp) ?_
    | with_reducible refine keepsP_eq ?_ (by assumption)
    | with_reducible refine keepsO_eq ?_ (by assumption)
    | with_reducible refine keepsP_mk ?_

theorem smbBytes_keeps {ps z} {a0_ : Nat} {a1_ : Sys2Proof.Machine.State} {a2_ : Nat} (hp : [.mgmt] ⊆ ps) (h1 : Keeps ps z a1_) :
    KeepsP ps z (smbBytes a0_ a1_ a2_) := by
  induction a0_ generalizing a1_ a2_ with
  | zero =>
    unfold smbBytes
    repeat' first
      | with_reducible assumption
      | with_reducible exact keepsP_fst (by assumption)
      | (extract_lets -useContext +onlyGivenNames x; refine (fun (hx : Keeps ps z x) => ?_) ?_; clear_value x; revert x; intro _ _; rotate_left; unfold x; clear x; rotate_left)
      | (extract_lets -useContext +onlyGivenNames x; refine (fun (hx : KeepsP ps z x) => ?_) ?_; clear_value x; revert x; intro _ _; rotate_left; unfold x; clear x; rotate_left)
      | (extract_lets -useContext +onlyGivenNames x; revert x; intro _)
      | with_reducible refine smbByte_keeps (sub_of (by decide) hp) ?_
      | with_reducible refine keepsP_fst (smbByte_keeps (sub_of (by decide) hp) ?_)
      | with_reducible refine keepsP_eq (smbByte_keeps (sub_of (by decide) hp) ?_) (by assumption)
      | split
      | (clear_value *; split)
      | with_reducible refine keepsP_eq ?_ (by assumption)
      | with_reducible refine keepsO_eq ?_ (by assumption)
      | with_reducible refine keepsP_mk ?_
  | succ fuel ih =>
    unfold smbBytes
    repeat' first
      | with_reducible assumption
      | with_reducible exact keepsP_fst (by assumption)
      | (extract_lets -useContext +onlyGivenNames x; refine (fun (hx : Keeps ps z x) => ?_) ?_; clear_value x; revert x; intro _ _; rotate_left; unfold x; clear x; rotate_left)
      | (extract_lets -useContext +onlyGivenNames x; refine (fun (hx : KeepsP ps z x) => ?_) ?_; clear_value x; revert x; intro _ _; rotate_left; unfold x; clear x; rotate_left)
      | with_reducible refine ih ?_
      | with_reducible refine keepsP_fst (ih ?_)
      | with_reducible refine keepsP_eq (ih ?_) (by assumption)
      | (extract_lets -useContext +onlyGivenNames x; revert x; intro _)
      | with_reducible refine smbByte_keeps (sub_of (by decide) hp) ?_
      | with_reducible refine keepsP_fst (smbByte_keeps (sub_of (by decide) hp) ?_)
      | with_reducible refine keepsP_eq (smbByte_keeps (sub_of (by decide) hp) ?_) (by assumption)
      | split
      | (clear_value *; split)
      | with_reducible refine keepsP_eq ?_ (by assumption)
      | with_reducible refine keepsO_eq ?_ (by assumption)
      | with_reducible refine keepsP_mk ?_

theorem execSmbusRead_keeps {ps z} {o : Fin 32} {n : Fin 33} {block : Bool} {pec : Bool} {s : Sys2Proof.Machine.State} (hp : [.outbox, .mgmt] ⊆ ps) (h4 : Keeps ps z s) :
    KeepsR ps z (execSmbusRead o n block pec s) := by
  unfold execSmbusRead
  repeat' first
    | with_reducible assumption
    | with_reducible exact keepsP_fst (by assumption)
    | (extract_lets -useContext +onlyGivenNames x; refine (fun (hx : Keeps ps z x) => ?_) ?_; clear_value x; revert x; intro _ _; rotate_left; unfold x; clear x; rotate_left)
    | (extract_lets -useContext +onlyGivenNames x; refine (fun (hx : KeepsP ps z x) => ?_) ?_; clear_value x; revert x; intro _ _; rotate_left; unfold x; clear x; rotate_left)
    | (extract_lets -useContext +onlyGivenNames x; revert x; intro _)
    | with_reducible refine keepsR_next ?_
    | with_reducible exact keepsR_fault
    | with_reducible refine State.send_keeps (sub_of (by decide) hp) ?_
    | with_reducible refine smbBytes_keeps (sub_of (by decide) hp) ?_
    | with_reducible refine keepsP_fst (smbBytes_keeps (sub_of (by decide) hp) ?_)
    | with_reducible refine keepsP_eq (smbBytes_keeps (sub_of (by decide) hp) ?_) (by assumption)
    | split
    | (clear_value *; split)
    | with_reducible refine keepsP_eq ?_ (by assumption)
    | with_reducible refine keepsO_eq ?_ (by assumption)
    | with_reducible refine keepsP_mk ?_

theorem execSmbusWrite_keeps {ps z} {bytes : List Sys2Proof.Byte} {s : Sys2Proof.Machine.State} (hp : [.outbox] ⊆ ps) (h1 : Keeps ps z s) :
    KeepsR ps z (execSmbusWrite bytes s) := by
  unfold execSmbusWrite
  repeat' first
    | with_reducible assumption
    | with_reducible exact keepsP_fst (by assumption)
    | (extract_lets -useContext +onlyGivenNames x; refine (fun (hx : Keeps ps z x) => ?_) ?_; clear_value x; revert x; intro _ _; rotate_left; unfold x; clear x; rotate_left)
    | (extract_lets -useContext +onlyGivenNames x; revert x; intro _)
    | with_reducible refine keepsR_next ?_
    | with_reducible exact keepsR_fault
    | with_reducible refine State.send_keeps (sub_of (by decide) hp) ?_
    | split
    | (clear_value *; split)
    | with_reducible refine keepsP_eq ?_ (by assumption)
    | with_reducible refine keepsO_eq ?_ (by assumption)
    | with_reducible refine keepsP_mk ?_

theorem execTestPortAccess_keeps {ps z} {a : Sys2Proof.TapAccess} {s : Sys2Proof.Machine.State} (hp : [.outbox, .pins] ⊆ ps) (h1 : Keeps ps z s) :
    KeepsR ps z (execTestPortAccess a s) := by
  unfold execTestPortAccess
  repeat' first
    | with_reducible assumption
    | with_reducible exact keepsP_fst (by assumption)
    | (extract_lets -useContext +onlyGivenNames x; refine (fun (hx : Keeps ps z x) => ?_) ?_; clear_value x; revert x; intro _ _; rotate_left; unfold x; clear x; rotate_left)
    | (extract_lets -useContext +onlyGivenNames x; revert x; intro _)
    | with_reducible refine keepsR_next ?_
    | with_reducible exact keepsR_fault
    | with_reducible refine State.send_keeps (sub_of (by decide) hp) ?_
    | split
    | (clear_value *; split)
    | with_reducible refine keeps_with_pins (mem_of (by decide) hp) ?_
    | with_reducible refine keepsP_eq ?_ (by assumption)
    | with_reducible refine keepsO_eq ?_ (by assumption)
    | with_reducible refine keepsP_mk ?_

end Sys2Proof.Machine
end

