-- ==== Sys2Proof/Laws/FrameRegRows.lean ====
section
/-!
SUPPORT. Frames: for each operation of Sys2Proof/Machine/RegRows.lean, the parts of State it may change, and that it keeps the stores'
canonical form.
-/
namespace Sys2Proof.Machine

open Sys2Proof

theorem execRegWrite_keeps {ps z} {q : Sys2Proof.QueueId} {s : Sys2Proof.Machine.State} (hp : [.regs, .isl, .mem, .mmu, .arr, .vec, .als, .alsScrub, .dma, .ctx, .queues, .seq, .outbox, .draws, .bxl, .pwr, .life, .link, .port, .rtr, .xch, .nmu, .mgmt, .obs, .bridge] ⊆ ps) (h1 : Keeps ps z s) :
    KeepsR ps z (execRegWrite q s) := by
  unfold execRegWrite
  repeat' first
    | with_reducible assumption
    | with_reducible exact keepsP_fst (by assumption)
    | (extract_lets -useContext +onlyGivenNames x; refine (fun (hx : Keeps ps z x) => ?_) ?_; clear_value x; revert x; intro _ _; rotate_left; unfold x; clear x; rotate_left)
    | (extract_lets -useContext +onlyGivenNames x; revert x; intro _)
    | with_reducible refine keepsR_next ?_
    | with_reducible exact keepsR_fault
    | with_reducible refine doneCmd_keeps (sub_of (by decide) hp) ?_
    | with_reducible refine writeReg_keeps (sub_of (by decide) hp) ?_
    | with_reducible refine keeps_foldl (fun t a ht => ?_) ?_
    | with_reducible refine keepsP_foldl (fun t a ht => ?_) ?_
    | split
    | (clear_value *; split)
    | with_reducible refine keepsP_eq ?_ (by assumption)
    | with_reducible refine keepsO_eq ?_ (by assumption)
    | with_reducible refine keepsP_mk ?_

theorem readRegs_keeps {ps z} {p : Sys2Proof.Path} {a1_ : Sys2Proof.Machine.State} {a2_ : List Nat} (hp : [.regs, .hiCap, .mem, .outbox, .bridge] ⊆ ps) (h1 : Keeps ps z a1_) :
    KeepsP ps z (readRegs p a1_ a2_) := by
  induction a2_ generalizing p a1_ with
  | nil =>
    unfold readRegs
    repeat' first
      | with_reducible assumption
      | with_reducible exact keepsP_fst (by assumption)
      | (extract_lets -useContext +onlyGivenNames x; refine (fun (hx : Keeps ps z x) => ?_) ?_; clear_value x; revert x; intro _ _; rotate_left; unfold x; clear x; rotate_left)
      | (extract_lets -useContext +onlyGivenNames x; refine (fun (hx : KeepsP ps z x) => ?_) ?_; clear_value x; revert x; intro _ _; rotate_left; unfold x; clear x; rotate_left)
      | (extract_lets -useContext +onlyGivenNames x; revert x; intro _)
      | with_reducible refine readReg_keeps (sub_of (by decide) hp) ?_
      | with_reducible refine keepsP_fst (readReg_keeps (sub_of (by decide) hp) ?_)
      | with_reducible refine keepsP_eq (readReg_keeps (sub_of (by decide) hp) ?_) (by assumption)
      | split
      | (clear_value *; split)
      | with_reducible refine keepsP_eq ?_ (by assumption)
      | with_reducible refine keepsO_eq ?_ (by assumption)
      | with_reducible refine keepsP_mk ?_
  | cons hd tl ih =>
    unfold readRegs
    repeat' first
      | with_reducible assumption
      | with_reducible exact keepsP_fst (by assumption)
      | (extract_lets -useContext +onlyGivenNames x; refine (fun (hx : Keeps ps z x) => ?_) ?_; clear_value x; revert x; intro _ _; rotate_left; unfold x; clear x; rotate_left)
      | (extract_lets -useContext +onlyGivenNames x; refine (fun (hx : KeepsP ps z x) => ?_) ?_; clear_value x; revert x; intro _ _; rotate_left; unfold x; clear x; rotate_left)
      | with_reducible refine ih ?_
      | with_reducible refine keepsP_fst (ih ?_)
      | with_reducible refine keepsP_eq (ih ?_) (by assumption)
      | (extract_lets -useContext +onlyGivenNames x; revert x; intro _)
      | with_reducible refine readReg_keeps (sub_of (by decide) hp) ?_
      | with_reducible refine keepsP_fst (readReg_keeps (sub_of (by decide) hp) ?_)
      | with_reducible refine keepsP_eq (readReg_keeps (sub_of (by decide) hp) ?_) (by assumption)
      | split
      | (clear_value *; split)
      | with_reducible refine keepsP_eq ?_ (by assumption)
      | with_reducible refine keepsO_eq ?_ (by assumption)
      | with_reducible refine keepsP_mk ?_

theorem execRegRead_keeps {ps z} {q : Sys2Proof.QueueId} {s : Sys2Proof.Machine.State} (hp : [.regs, .hiCap, .mem, .mmu, .queues, .outbox, .bxl, .bridge] ⊆ ps) (h1 : Keeps ps z s) :
    KeepsR ps z (execRegRead q s) := by
  unfold execRegRead
  repeat' first
    | with_reducible assumption
    | with_reducible exact keepsP_fst (by assumption)
    | (extract_lets -useContext +onlyGivenNames x; refine (fun (hx : Keeps ps z x) => ?_) ?_; clear_value x; revert x; intro _ _; rotate_left; unfold x; clear x; rotate_left)
    | (extract_lets -useContext +onlyGivenNames x; refine (fun (hx : KeepsP ps z x) => ?_) ?_; clear_value x; revert x; intro _ _; rotate_left; unfold x; clear x; rotate_left)
    | (extract_lets -useContext +onlyGivenNames x; revert x; intro _)
    | with_reducible refine keepsR_next ?_
    | with_reducible exact keepsR_fault
    | with_reducible refine badCmd_keeps (sub_of (by decide) hp) ?_
    | with_reducible refine doneCmd_keeps (sub_of (by decide) hp) ?_
    | with_reducible refine feWrite_keeps (sub_of (by decide) hp) ?_
    | with_reducible refine keepsP_fst (feWrite_keeps (sub_of (by decide) hp) ?_)
    | with_reducible refine keepsP_eq (feWrite_keeps (sub_of (by decide) hp) ?_) (by assumption)
    | with_reducible refine feThen_keeps (sub_of (by decide) hp) ?_ ?_ (fun x0 x1 hx0 => ?_) (fun x0 hx0 => ?_)
    | with_reducible refine keepsR_eq (feThen_keeps (sub_of (by decide) hp) ?_ ?_ (fun x0 x1 hx0 => ?_) (fun x0 hx0 => ?_)) (by assumption)
    | with_reducible refine readRegs_keeps (sub_of (by decide) hp) ?_
    | with_reducible refine keepsP_fst (readRegs_keeps (sub_of (by decide) hp) ?_)
    | with_reducible refine keepsP_eq (readRegs_keeps (sub_of (by decide) hp) ?_) (by assumption)
    | split
    | (clear_value *; split)
    | with_reducible refine keepsP_eq ?_ (by assumption)
    | with_reducible refine keepsO_eq ?_ (by assumption)
    | with_reducible refine keepsP_mk ?_

theorem execRegisterWrite_keeps {ps z} {p : Sys2Proof.Path} {w : Fin 4194304} {v : Sys2Proof.W32} {s : Sys2Proof.Machine.State} (hp : [.regs, .isl, .mem, .mmu, .arr, .vec, .als, .alsScrub, .dma, .ctx, .queues, .seq, .outbox, .draws, .bxl, .pwr, .life, .link, .port, .rtr, .xch, .nmu, .mgmt, .obs, .bridge] ⊆ ps) (h3 : Keeps ps z s) :
    KeepsR ps z (execRegisterWrite p w v s) := by
  unfold execRegisterWrite
  repeat' first
    | with_reducible assumption
    | with_reducible exact keepsP_fst (by assumption)
    | (extract_lets -useContext +onlyGivenNames x; refine (fun (hx : Keeps ps z x) => ?_) ?_; clear_value x; revert x; intro _ _; rotate_left; unfold x; clear x; rotate_left)
    | (extract_lets -useContext +onlyGivenNames x; revert x; intro _)
    | with_reducible refine keepsR_next ?_
    | with_reducible exact keepsR_fault
    | with_reducible refine writeReg_keeps (sub_of (by decide) hp) ?_
    | split
    | (clear_value *; split)
    | with_reducible refine keepsP_eq ?_ (by assumption)
    | with_reducible refine keepsO_eq ?_ (by assumption)
    | with_reducible refine keepsP_mk ?_

theorem execRegisterLoRead_keeps {ps z} {p : Sys2Proof.Path} {w : Fin 4194304} {s : Sys2Proof.Machine.State} (hp : [.regs, .hiCap, .mem, .outbox, .bridge] ⊆ ps) (h2 : Keeps ps z s) :
    KeepsR ps z (execRegisterLoRead p w s) := by
  unfold execRegisterLoRead
  repeat' first
    | with_reducible assumption
    | with_reducible exact keepsP_fst (by assumption)
    | (extract_lets -useContext +onlyGivenNames x; refine (fun (hx : Keeps ps z x) => ?_) ?_; clear_value x; revert x; intro _ _; rotate_left; unfold x; clear x; rotate_left)
    | (extract_lets -useContext +onlyGivenNames x; refine (fun (hx : KeepsP ps z x) => ?_) ?_; clear_value x; revert x; intro _ _; rotate_left; unfold x; clear x; rotate_left)
    | (extract_lets -useContext +onlyGivenNames x; revert x; intro _)
    | with_reducible refine keepsR_next ?_
    | with_reducible exact keepsR_fault
    | with_reducible refine readReg_keeps (sub_of (by decide) hp) ?_
    | with_reducible refine keepsP_fst (readReg_keeps (sub_of (by decide) hp) ?_)
    | with_reducible refine keepsP_eq (readReg_keeps (sub_of (by decide) hp) ?_) (by assumption)
    | split
    | (clear_value *; split)
    | with_reducible refine keepsP_eq ?_ (by assumption)
    | with_reducible refine keepsO_eq ?_ (by assumption)
    | with_reducible refine keepsP_mk ?_

theorem execDoorbellWrite_keeps {ps z} {p : Sys2Proof.Path} {q : Sys2Proof.QueueId} {v : Sys2Proof.W32} {s : Sys2Proof.Machine.State} (hp : [.regs, .isl, .mem, .mmu, .arr, .vec, .als, .alsScrub, .dma, .ctx, .queues, .seq, .outbox, .draws, .bxl, .pwr, .life, .link, .port, .rtr, .xch, .nmu, .mgmt, .obs, .bridge] ⊆ ps) (h3 : Keeps ps z s) :
    KeepsR ps z (execDoorbellWrite p q v s) := by
  unfold execDoorbellWrite
  repeat' first
    | with_reducible assumption
    | with_reducible exact keepsP_fst (by assumption)
    | (extract_lets -useContext +onlyGivenNames x; refine (fun (hx : Keeps ps z x) => ?_) ?_; clear_value x; revert x; intro _ _; rotate_left; unfold x; clear x; rotate_left)
    | (extract_lets -useContext +onlyGivenNames x; revert x; intro _)
    | with_reducible refine keepsR_next ?_
    | with_reducible exact keepsR_fault
    | with_reducible refine writeReg_keeps (sub_of (by decide) hp) ?_
    | split
    | (clear_value *; split)
    | with_reducible refine keepsP_eq ?_ (by assumption)
    | with_reducible refine keepsO_eq ?_ (by assumption)
    | with_reducible refine keepsP_mk ?_

theorem execCqHeadWrite_keeps {ps z} {p : Sys2Proof.Path} {q : Sys2Proof.QueueId} {v : Sys2Proof.W32} {s : Sys2Proof.Machine.State} (hp : [.regs, .isl, .mem, .mmu, .arr, .vec, .als, .alsScrub, .dma, .ctx, .queues, .seq, .outbox, .draws, .bxl, .pwr, .life, .link, .port, .rtr, .xch, .nmu, .mgmt, .obs, .bridge] ⊆ ps) (h3 : Keeps ps z s) :
    KeepsR ps z (execCqHeadWrite p q v s) := by
  unfold execCqHeadWrite
  repeat' first
    | with_reducible assumption
    | with_reducible exact keepsP_fst (by assumption)
    | (extract_lets -useContext +onlyGivenNames x; refine (fun (hx : Keeps ps z x) => ?_) ?_; clear_value x; revert x; intro _ _; rotate_left; unfold x; clear x; rotate_left)
    | (extract_lets -useContext +onlyGivenNames x; revert x; intro _)
    | with_reducible refine keepsR_next ?_
    | with_reducible exact keepsR_fault
    | with_reducible refine writeReg_keeps (sub_of (by decide) hp) ?_
    | split
    | (clear_value *; split)
    | with_reducible refine keepsP_eq ?_ (by assumption)
    | with_reducible refine keepsO_eq ?_ (by assumption)
    | with_reducible refine keepsP_mk ?_

theorem execKqCfgWrite_keeps {ps z} {p : Sys2Proof.Path} {k : Fin 16} {v : Sys2Proof.W32} {s : Sys2Proof.Machine.State} (hp : [.regs, .isl, .mem, .mmu, .arr, .vec, .als, .alsScrub, .dma, .ctx, .queues, .seq, .outbox, .draws, .bxl, .pwr, .life, .link, .port, .rtr, .xch, .nmu, .mgmt, .obs, .bridge] ⊆ ps) (h3 : Keeps ps z s) :
    KeepsR ps z (execKqCfgWrite p k v s) := by
  unfold execKqCfgWrite
  repeat' first
    | with_reducible assumption
    | with_reducible exact keepsP_fst (by assumption)
    | (extract_lets -useContext +onlyGivenNames x; refine (fun (hx : Keeps ps z x) => ?_) ?_; clear_value x; revert x; intro _ _; rotate_left; unfold x; clear x; rotate_left)
    | (extract_lets -useContext +onlyGivenNames x; revert x; intro _)
    | with_reducible refine keepsR_next ?_
    | with_reducible exact keepsR_fault
    | with_reducible refine writeReg_keeps (sub_of (by decide) hp) ?_
    | split
    | (clear_value *; split)
    | with_reducible refine keepsP_eq ?_ (by assumption)
    | with_reducible refine keepsO_eq ?_ (by assumption)
    | with_reducible refine keepsP_mk ?_

theorem execArrRampCfgWrite_keeps {ps z} {p : Sys2Proof.Path} {n : Sys2Proof.ArrayId} {v : Sys2Proof.W32} {s : Sys2Proof.Machine.State} (hp : [.regs, .isl, .mem, .mmu, .arr, .vec, .als, .alsScrub, .dma, .ctx, .queues, .seq, .outbox, .draws, .bxl, .pwr, .life, .link, .port, .rtr, .xch, .nmu, .mgmt, .obs, .bridge] ⊆ ps) (h3 : Keeps ps z s) :
    KeepsR ps z (execArrRampCfgWrite p n v s) := by
  unfold execArrRampCfgWrite
  repeat' first
    | with_reducible assumption
    | with_reducible exact keepsP_fst (by assumption)
    | (extract_lets -useContext +onlyGivenNames x; refine (fun (hx : Keeps ps z x) => ?_) ?_; clear_value x; revert x; intro _ _; rotate_left; unfold x; clear x; rotate_left)
    | (extract_lets -useContext +onlyGivenNames x; revert x; intro _)
    | with_reducible refine keepsR_next ?_
    | with_reducible exact keepsR_fault
    | with_reducible refine writeReg_keeps (sub_of (by decide) hp) ?_
    | split
    | (clear_value *; split)
    | with_reducible refine keepsP_eq ?_ (by assumption)
    | with_reducible refine keepsO_eq ?_ (by assumption)
    | with_reducible refine keepsP_mk ?_

theorem execQntClearTflag_keeps {ps z} {p : Sys2Proof.Path} {n : Sys2Proof.ArrayId} {s : Sys2Proof.Machine.State} (hp : [.regs, .isl, .mem, .mmu, .arr, .vec, .als, .alsScrub, .dma, .ctx, .queues, .seq, .outbox, .draws, .bxl, .pwr, .life, .link, .port, .rtr, .xch, .nmu, .mgmt, .obs, .bridge] ⊆ ps) (h2 : Keeps ps z s) :
    KeepsR ps z (execQntClearTflag p n s) := by
  unfold execQntClearTflag
  repeat' first
    | with_reducible assumption
    | with_reducible exact keepsP_fst (by assumption)
    | (extract_lets -useContext +onlyGivenNames x; refine (fun (hx : Keeps ps z x) => ?_) ?_; clear_value x; revert x; intro _ _; rotate_left; unfold x; clear x; rotate_left)
    | (extract_lets -useContext +onlyGivenNames x; revert x; intro _)
    | with_reducible refine keepsR_next ?_
    | with_reducible exact keepsR_fault
    | with_reducible refine writeReg_keeps (sub_of (by decide) hp) ?_
    | split
    | (clear_value *; split)
    | with_reducible refine keepsP_eq ?_ (by assumption)
    | with_reducible refine keepsO_eq ?_ (by assumption)
    | with_reducible refine keepsP_mk ?_

theorem execQntClearMiss_keeps {ps z} {p : Sys2Proof.Path} {n : Sys2Proof.ArrayId} {s : Sys2Proof.Machine.State} (hp : [.regs, .isl, .mem, .mmu, .arr, .vec, .als, .alsScrub, .dma, .ctx, .queues, .seq, .outbox, .draws, .bxl, .pwr, .life, .link, .port, .rtr, .xch, .nmu, .mgmt, .obs, .bridge] ⊆ ps) (h2 : Keeps ps z s) :
    KeepsR ps z (execQntClearMiss p n s) := by
  unfold execQntClearMiss
  repeat' first
    | with_reducible assumption
    | with_reducible exact keepsP_fst (by assumption)
    | (extract_lets -useContext +onlyGivenNames x; refine (fun (hx : Keeps ps z x) => ?_) ?_; clear_value x; revert x; intro _ _; rotate_left; unfold x; clear x; rotate_left)
    | (extract_lets -useContext +onlyGivenNames x; revert x; intro _)
    | with_reducible refine keepsR_next ?_
    | with_reducible exact keepsR_fault
    | with_reducible refine writeReg_keeps (sub_of (by decide) hp) ?_
    | split
    | (clear_value *; split)
    | with_reducible refine keepsP_eq ?_ (by assumption)
    | with_reducible refine keepsO_eq ?_ (by assumption)
    | with_reducible refine keepsP_mk ?_

theorem execAlsScrubStart_keeps {ps z} {p : Sys2Proof.Path} {n : Sys2Proof.ArrayId} {s : Sys2Proof.Machine.State} (hp : [.regs, .isl, .mem, .mmu, .arr, .vec, .als, .alsScrub, .dma, .ctx, .queues, .seq, .outbox, .draws, .bxl, .pwr, .life, .link, .port, .rtr, .xch, .nmu, .mgmt, .obs, .bridge] ⊆ ps) (h2 : Keeps ps z s) :
    KeepsR ps z (execAlsScrubStart p n s) := by
  unfold execAlsScrubStart
  repeat' first
    | with_reducible assumption
    | with_reducible exact keepsP_fst (by assumption)
    | (extract_lets -useContext +onlyGivenNames x; refine (fun (hx : Keeps ps z x) => ?_) ?_; clear_value x; revert x; intro _ _; rotate_left; unfold x; clear x; rotate_left)
    | (extract_lets -useContext +onlyGivenNames x; revert x; intro _)
    | with_reducible refine keepsR_next ?_
    | with_reducible exact keepsR_fault
    | with_reducible refine writeReg_keeps (sub_of (by decide) hp) ?_
    | split
    | (clear_value *; split)
    | with_reducible refine keepsP_eq ?_ (by assumption)
    | with_reducible refine keepsO_eq ?_ (by assumption)
    | with_reducible refine keepsP_mk ?_

theorem execSeqTraceHeadWrite_keeps {ps z} {p : Sys2Proof.Path} {n : Sys2Proof.SeqId} {v : Sys2Proof.W32} {s : Sys2Proof.Machine.State} (hp : [.regs, .isl, .mem, .mmu, .arr, .vec, .als, .alsScrub, .dma, .ctx, .queues, .seq, .outbox, .draws, .bxl, .pwr, .life, .link, .port, .rtr, .xch, .nmu, .mgmt, .obs, .bridge] ⊆ ps) (h3 : Keeps ps z s) :
    KeepsR ps z (execSeqTraceHeadWrite p n v s) := by
  unfold execSeqTraceHeadWrite
  repeat' first
    | with_reducible assumption
    | with_reducible exact keepsP_fst (by assumption)
    | (extract_lets -useContext +onlyGivenNames x; refine (fun (hx : Keeps ps z x) => ?_) ?_; clear_value x; revert x; intro _ _; rotate_left; unfold x; clear x; rotate_left)
    | (extract_lets -useContext +onlyGivenNames x; revert x; intro _)
    | with_reducible refine keepsR_next ?_
    | with_reducible exact keepsR_fault
    | with_reducible refine writeReg_keeps (sub_of (by decide) hp) ?_
    | split
    | (clear_value *; split)
    | with_reducible refine keepsP_eq ?_ (by assumption)
    | with_reducible refine keepsO_eq ?_ (by assumption)
    | with_reducible refine keepsP_mk ?_

theorem execDssPartOwnerWrite_keeps {ps z} {p : Sys2Proof.Path} {d : Sys2Proof.DieId} {part : Fin 16} {v : Sys2Proof.W32} {s : Sys2Proof.Machine.State} (hp : [.regs, .isl, .mem, .mmu, .arr, .vec, .als, .alsScrub, .dma, .ctx, .queues, .seq, .outbox, .draws, .bxl, .pwr, .life, .link, .port, .rtr, .xch, .nmu, .mgmt, .obs, .bridge] ⊆ ps) (h4 : Keeps ps z s) :
    KeepsR ps z (execDssPartOwnerWrite p d part v s) := by
  unfold execDssPartOwnerWrite
  repeat' first
    | with_reducible assumption
    | with_reducible exact keepsP_fst (by assumption)
    | (extract_lets -useContext +onlyGivenNames x; refine (fun (hx : Keeps ps z x) => ?_) ?_; clear_value x; revert x; intro _ _; rotate_left; unfold x; clear x; rotate_left)
    | (extract_lets -useContext +onlyGivenNames x; revert x; intro _)
    | with_reducible refine keepsR_next ?_
    | with_reducible exact keepsR_fault
    | with_reducible refine writeReg_keeps (sub_of (by decide) hp) ?_
    | split
    | (clear_value *; split)
    | with_reducible refine keepsP_eq ?_ (by assumption)
    | with_reducible refine keepsO_eq ?_ (by assumption)
    | with_reducible refine keepsP_mk ?_

theorem execDmaChCfgWrite_keeps {ps z} {p : Sys2Proof.Path} {d : Sys2Proof.DieId} {c : Sys2Proof.ChanId} {v : Sys2Proof.W32} {s : Sys2Proof.Machine.State} (hp : [.regs, .isl, .mem, .mmu, .arr, .vec, .als, .alsScrub, .dma, .ctx, .queues, .seq, .outbox, .draws, .bxl, .pwr, .life, .link, .port, .rtr, .xch, .nmu, .mgmt, .obs, .bridge] ⊆ ps) (h4 : Keeps ps z s) :
    KeepsR ps z (execDmaChCfgWrite p d c v s) := by
  unfold execDmaChCfgWrite
  repeat' first
    | with_reducible assumption
    | with_reducible exact keepsP_fst (by assumption)
    | (extract_lets -useContext +onlyGivenNames x; refine (fun (hx : Keeps ps z x) => ?_) ?_; clear_value x; revert x; intro _ _; rotate_left; unfold x; clear x; rotate_left)
    | (extract_lets -useContext +onlyGivenNames x; revert x; intro _)
    | with_reducible refine keepsR_next ?_
    | with_reducible exact keepsR_fault
    | with_reducible refine writeReg_keeps (sub_of (by decide) hp) ?_
    | split
    | (clear_value *; split)
    | with_reducible refine keepsP_eq ?_ (by assumption)
    | with_reducible refine keepsO_eq ?_ (by assumption)
    | with_reducible refine keepsP_mk ?_

theorem execDmaTimerWrite_keeps {ps z} {p : Sys2Proof.Path} {d : Sys2Proof.DieId} {c : Sys2Proof.ChanId} {v : Sys2Proof.W32} {s : Sys2Proof.Machine.State} (hp : [.regs, .isl, .mem, .mmu, .arr, .vec, .als, .alsScrub, .dma, .ctx, .queues, .seq, .outbox, .draws, .bxl, .pwr, .life, .link, .port, .rtr, .xch, .nmu, .mgmt, .obs, .bridge] ⊆ ps) (h4 : Keeps ps z s) :
    KeepsR ps z (execDmaTimerWrite p d c v s) := by
  unfold execDmaTimerWrite
  repeat' first
    | with_reducible assumption
    | with_reducible exact keepsP_fst (by assumption)
    | (extract_lets -useContext +onlyGivenNames x; refine (fun (hx : Keeps ps z x) => ?_) ?_; clear_value x; revert x; intro _ _; rotate_left; unfold x; clear x; rotate_left)
    | (extract_lets -useContext +onlyGivenNames x; revert x; intro _)
    | with_reducible refine keepsR_next ?_
    | with_reducible exact keepsR_fault
    | with_reducible refine writeReg_keeps (sub_of (by decide) hp) ?_
    | split
    | (clear_value *; split)
    | with_reducible refine keepsP_eq ?_ (by assumption)
    | with_reducible refine keepsO_eq ?_ (by assumption)
    | with_reducible refine keepsP_mk ?_

theorem execDmaChStartWrite_keeps {ps z} {p : Sys2Proof.Path} {d : Sys2Proof.DieId} {c : Sys2Proof.ChanId} {n : Fin 256} {s : Sys2Proof.Machine.State} (hp : [.regs, .isl, .mem, .mmu, .arr, .vec, .als, .alsScrub, .dma, .ctx, .queues, .seq, .outbox, .draws, .bxl, .pwr, .life, .link, .port, .rtr, .xch, .nmu, .mgmt, .obs, .bridge] ⊆ ps) (h4 : Keeps ps z s) :
    KeepsR ps z (execDmaChStartWrite p d c n s) := by
  unfold execDmaChStartWrite
  repeat' first
    | with_reducible assumption
    | with_reducible exact keepsP_fst (by assumption)
    | (extract_lets -useContext +onlyGivenNames x; refine (fun (hx : Keeps ps z x) => ?_) ?_; clear_value x; revert x; intro _ _; rotate_left; unfold x; clear x; rotate_left)
    | (extract_lets -useContext +onlyGivenNames x; revert x; intro _)
    | with_reducible refine keepsR_next ?_
    | with_reducible exact keepsR_fault
    | with_reducible refine writeReg_keeps (sub_of (by decide) hp) ?_
    | split
    | (clear_value *; split)
    | with_reducible refine keepsP_eq ?_ (by assumption)
    | with_reducible refine keepsO_eq ?_ (by assumption)
    | with_reducible refine keepsP_mk ?_

theorem execDmaResume_keeps {ps z} {p : Sys2Proof.Path} {d : Sys2Proof.DieId} {c : Sys2Proof.ChanId} {s : Sys2Proof.Machine.State} (hp : [.regs, .isl, .mem, .mmu, .arr, .vec, .als, .alsScrub, .dma, .ctx, .queues, .seq, .outbox, .draws, .bxl, .pwr, .life, .link, .port, .rtr, .xch, .nmu, .mgmt, .obs, .bridge] ⊆ ps) (h3 : Keeps ps z s) :
    KeepsR ps z (execDmaResume p d c s) := by
  unfold execDmaResume
  repeat' first
    | with_reducible assumption
    | with_reducible exact keepsP_fst (by assumption)
    | (extract_lets -useContext +onlyGivenNames x; refine (fun (hx : Keeps ps z x) => ?_) ?_; clear_value x; revert x; intro _ _; rotate_left; unfold x; clear x; rotate_left)
    | (extract_lets -useContext +onlyGivenNames x; revert x; intro _)
    | with_reducible refine keepsR_next ?_
    | with_reducible exact keepsR_fault
    | with_reducible refine writeReg_keeps (sub_of (by decide) hp) ?_
    | split
    | (clear_value *; split)
    | with_reducible refine keepsP_eq ?_ (by assumption)
    | with_reducible refine keepsO_eq ?_ (by assumption)
    | with_reducible refine keepsP_mk ?_

theorem execDmaSkip_keeps {ps z} {p : Sys2Proof.Path} {d : Sys2Proof.DieId} {c : Sys2Proof.ChanId} {s : Sys2Proof.Machine.State} (hp : [.regs, .isl, .mem, .mmu, .arr, .vec, .als, .alsScrub, .dma, .ctx, .queues, .seq, .outbox, .draws, .bxl, .pwr, .life, .link, .port, .rtr, .xch, .nmu, .mgmt, .obs, .bridge] ⊆ ps) (h3 : Keeps ps z s) :
    KeepsR ps z (execDmaSkip p d c s) := by
  unfold execDmaSkip
  repeat' first
    | with_reducible assumption
    | with_reducible exact keepsP_fst (by assumption)
    | (extract_lets -useContext +onlyGivenNames x; refine (fun (hx : Keeps ps z x) => ?_) ?_; clear_value x; revert x; intro _ _; rotate_left; unfold x; clear x; rotate_left)
    | (extract_lets -useContext +onlyGivenNames x; revert x; intro _)
    | with_reducible refine keepsR_next ?_
    | with_reducible exact keepsR_fault
    | with_reducible refine writeReg_keeps (sub_of (by decide) hp) ?_
    | split
    | (clear_value *; split)
    | with_reducible refine keepsP_eq ?_ (by assumption)
    | with_reducible refine keepsO_eq ?_ (by assumption)
    | with_reducible refine keepsP_mk ?_

theorem execDmaAbort_keeps {ps z} {p : Sys2Proof.Path} {d : Sys2Proof.DieId} {c : Sys2Proof.ChanId} {s : Sys2Proof.Machine.State} (hp : [.regs, .isl, .mem, .mmu, .arr, .vec, .als, .alsScrub, .dma, .ctx, .queues, .seq, .outbox, .draws, .bxl, .pwr, .life, .link, .port, .rtr, .xch, .nmu, .mgmt, .obs, .bridge] ⊆ ps) (h3 : Keeps ps z s) :
    KeepsR ps z (execDmaAbort p d c s) := by
  unfold execDmaAbort
  repeat' first
    | with_reducible assumption
    | with_reducible exact keepsP_fst (by assumption)
    | (extract_lets -useContext +onlyGivenNames x; refine (fun (hx : Keeps ps z x) => ?_) ?_; clear_value x; revert x; intro _ _; rotate_left; unfold x; clear x; rotate_left)
    | (extract_lets -useContext +onlyGivenNames x; revert x; intro _)
    | with_reducible refine keepsR_next ?_
    | with_reducible exact keepsR_fault
    | with_reducible refine writeReg_keeps (sub_of (by decide) hp) ?_
    | split
    | (clear_value *; split)
    | with_reducible refine keepsP_eq ?_ (by assumption)
    | with_reducible refine keepsO_eq ?_ (by assumption)
    | with_reducible refine keepsP_mk ?_

theorem execMmuMapWrite_keeps {ps z} {p : Sys2Proof.Path} {v : Sys2Proof.W32} {s : Sys2Proof.Machine.State} (hp : [.regs, .isl, .mem, .mmu, .arr, .vec, .als, .alsScrub, .dma, .ctx, .queues, .seq, .outbox, .draws, .bxl, .pwr, .life, .link, .port, .rtr, .xch, .nmu, .mgmt, .obs, .bridge] ⊆ ps) (h2 : Keeps ps z s) :
    KeepsR ps z (execMmuMapWrite p v s) := by
  unfold execMmuMapWrite
  repeat' first
    | with_reducible assumption
    | with_reducible exact keepsP_fst (by assumption)
    | (extract_lets -useContext +onlyGivenNames x; refine (fun (hx : Keeps ps z x) => ?_) ?_; clear_value x; revert x; intro _ _; rotate_left; unfold x; clear x; rotate_left)
    | (extract_lets -useContext +onlyGivenNames x; revert x; intro _)
    | with_reducible refine keepsR_next ?_
    | with_reducible exact keepsR_fault
    | with_reducible refine writeReg_keeps (sub_of (by decide) hp) ?_
    | split
    | (clear_value *; split)
    | with_reducible refine keepsP_eq ?_ (by assumption)
    | with_reducible refine keepsO_eq ?_ (by assumption)
    | with_reducible refine keepsP_mk ?_

theorem execMmuInvalAll_keeps {ps z} {p : Sys2Proof.Path} {s : Sys2Proof.Machine.State} (hp : [.regs, .isl, .mem, .mmu, .arr, .vec, .als, .alsScrub, .dma, .ctx, .queues, .seq, .outbox, .draws, .bxl, .pwr, .life, .link, .port, .rtr, .xch, .nmu, .mgmt, .obs, .bridge] ⊆ ps) (h1 : Keeps ps z s) :
    KeepsR ps z (execMmuInvalAll p s) := by
  unfold execMmuInvalAll
  repeat' first
    | with_reducible assumption
    | with_reducible exact keepsP_fst (by assumption)
    | (extract_lets -useContext +onlyGivenNames x; refine (fun (hx : Keeps ps z x) => ?_) ?_; clear_value x; revert x; intro _ _; rotate_left; unfold x; clear x; rotate_left)
    | (extract_lets -useContext +onlyGivenNames x; revert x; intro _)
    | with_reducible refine keepsR_next ?_
    | with_reducible exact keepsR_fault
    | with_reducible refine writeReg_keeps (sub_of (by decide) hp) ?_
    | split
    | (clear_value *; split)
    | with_reducible refine keepsP_eq ?_ (by assumption)
    | with_reducible refine keepsO_eq ?_ (by assumption)
    | with_reducible refine keepsP_mk ?_

theorem execMmuInvalCtx_keeps {ps z} {p : Sys2Proof.Path} {c : Sys2Proof.CtxId} {s : Sys2Proof.Machine.State} (hp : [.regs, .isl, .mem, .mmu, .arr, .vec, .als, .alsScrub, .dma, .ctx, .queues, .seq, .outbox, .draws, .bxl, .pwr, .life, .link, .port, .rtr, .xch, .nmu, .mgmt, .obs, .bridge] ⊆ ps) (h2 : Keeps ps z s) :
    KeepsR ps z (execMmuInvalCtx p c s) := by
  unfold execMmuInvalCtx
  repeat' first
    | with_reducible assumption
    | with_reducible exact keepsP_fst (by assumption)
    | (extract_lets -useContext +onlyGivenNames x; refine (fun (hx : Keeps ps z x) => ?_) ?_; clear_value x; revert x; intro _ _; rotate_left; unfold x; clear x; rotate_left)
    | (extract_lets -useContext +onlyGivenNames x; revert x; intro _)
    | with_reducible refine keepsR_next ?_
    | with_reducible exact keepsR_fault
    | with_reducible refine writeReg_keeps (sub_of (by decide) hp) ?_
    | split
    | (clear_value *; split)
    | with_reducible refine keepsP_eq ?_ (by assumption)
    | with_reducible refine keepsO_eq ?_ (by assumption)
    | with_reducible refine keepsP_mk ?_

theorem execMmuInvalPage_keeps {ps z} {p : Sys2Proof.Path} {c : Sys2Proof.CtxId} {s : Sys2Proof.Machine.State} (hp : [.regs, .isl, .mem, .mmu, .arr, .vec, .als, .alsScrub, .dma, .ctx, .queues, .seq, .outbox, .draws, .bxl, .pwr, .life, .link, .port, .rtr, .xch, .nmu, .mgmt, .obs, .bridge] ⊆ ps) (h2 : Keeps ps z s) :
    KeepsR ps z (execMmuInvalPage p c s) := by
  unfold execMmuInvalPage
  repeat' first
    | with_reducible assumption
    | with_reducible exact keepsP_fst (by assumption)
    | (extract_lets -useContext +onlyGivenNames x; refine (fun (hx : Keeps ps z x) => ?_) ?_; clear_value x; revert x; intro _ _; rotate_left; unfold x; clear x; rotate_left)
    | (extract_lets -useContext +onlyGivenNames x; revert x; intro _)
    | with_reducible refine keepsR_next ?_
    | with_reducible exact keepsR_fault
    | with_reducible refine writeReg_keeps (sub_of (by decide) hp) ?_
    | split
    | (clear_value *; split)
    | with_reducible refine keepsP_eq ?_ (by assumption)
    | with_reducible refine keepsO_eq ?_ (by assumption)
    | with_reducible refine keepsP_mk ?_

theorem lnkField_keeps {ps z} {p : Sys2Proof.Path} {s : Sys2Proof.Machine.State} {port : Nat} {lo : Nat} {on : Bool} (hp : [.regs, .isl, .mem, .mmu, .arr, .vec, .als, .alsScrub, .dma, .ctx, .queues, .seq, .outbox, .draws, .bxl, .pwr, .life, .link, .port, .rtr, .xch, .nmu, .mgmt, .obs, .bridge] ⊆ ps) (h1 : Keeps ps z s) :
    Keeps ps z (lnkField p s port lo on) := by
  unfold lnkField
  repeat' first
    | with_reducible assumption
    | with_reducible exact keepsP_fst (by assumption)
    | (extract_lets -useContext +onlyGivenNames x; refine (fun (hx : Keeps ps z x) => ?_) ?_; clear_value x; revert x; intro _ _; rotate_left; unfold x; clear x; rotate_left)
    | (extract_lets -useContext +onlyGivenNames x; revert x; intro _)
    | with_reducible refine writeReg_keeps (sub_of (by decide) hp) ?_
    | split
    | (clear_value *; split)
    | with_reducible refine keepsP_eq ?_ (by assumption)
    | with_reducible refine keepsO_eq ?_ (by assumption)
    | with_reducible refine keepsP_mk ?_

theorem execLnkEnable_keeps {ps z} {p : Sys2Proof.Path} {port : Sys2Proof.PortId} {on : Bool} {s : Sys2Proof.Machine.State} (hp : [.regs, .isl, .mem, .mmu, .arr, .vec, .als, .alsScrub, .dma, .ctx, .queues, .seq, .outbox, .draws, .bxl, .pwr, .life, .link, .port, .rtr, .xch, .nmu, .mgmt, .obs, .bridge] ⊆ ps) (h3 : Keeps ps z s) :
    KeepsR ps z (execLnkEnable p port on s) := by
  unfold execLnkEnable
  repeat' first
    | with_reducible assumption
    | with_reducible exact keepsP_fst (by assumption)
    | (extract_lets -useContext +onlyGivenNames x; refine (fun (hx : Keeps ps z x) => ?_) ?_; clear_value x; revert x; intro _ _; rotate_left; unfold x; clear x; rotate_left)
    | (extract_lets -useContext +onlyGivenNames x; revert x; intro _)
    | with_reducible refine keepsR_next ?_
    | with_reducible exact keepsR_fault
    | with_reducible refine lnkField_keeps (sub_of (by decide) hp) ?_
    | split
    | (clear_value *; split)
    | with_reducible refine keepsP_eq ?_ (by assumption)
    | with_reducible refine keepsO_eq ?_ (by assumption)
    | with_reducible refine keepsP_mk ?_

theorem execLnkFence_keeps {ps z} {p : Sys2Proof.Path} {port : Sys2Proof.PortId} {on : Bool} {s : Sys2Proof.Machine.State} (hp : [.regs, .isl, .mem, .mmu, .arr, .vec, .als, .alsScrub, .dma, .ctx, .queues, .seq, .outbox, .draws, .bxl, .pwr, .life, .link, .port, .rtr, .xch, .nmu, .mgmt, .obs, .bridge] ⊆ ps) (h3 : Keeps ps z s) :
    KeepsR ps z (execLnkFence p port on s) := by
  unfold execLnkFence
  repeat' first
    | with_reducible assumption
    | with_reducible exact keepsP_fst (by assumption)
    | (extract_lets -useContext +onlyGivenNames x; refine (fun (hx : Keeps ps z x) => ?_) ?_; clear_value x; revert x; intro _ _; rotate_left; unfold x; clear x; rotate_left)
    | (extract_lets -useContext +onlyGivenNames x; revert x; intro _)
    | with_reducible refine keepsR_next ?_
    | with_reducible exact keepsR_fault
    | with_reducible refine lnkField_keeps (sub_of (by decide) hp) ?_
    | split
    | (clear_value *; split)
    | with_reducible refine keepsP_eq ?_ (by assumption)
    | with_reducible refine keepsO_eq ?_ (by assumption)
    | with_reducible refine keepsP_mk ?_

theorem execLnkRetrain_keeps {ps z} {p : Sys2Proof.Path} {port : Sys2Proof.PortId} {s : Sys2Proof.Machine.State} (hp : [.regs, .isl, .mem, .mmu, .arr, .vec, .als, .alsScrub, .dma, .ctx, .queues, .seq, .outbox, .draws, .bxl, .pwr, .life, .link, .port, .rtr, .xch, .nmu, .mgmt, .obs, .bridge] ⊆ ps) (h2 : Keeps ps z s) :
    KeepsR ps z (execLnkRetrain p port s) := by
  unfold execLnkRetrain
  repeat' first
    | with_reducible assumption
    | with_reducible exact keepsP_fst (by assumption)
    | (extract_lets -useContext +onlyGivenNames x; refine (fun (hx : Keeps ps z x) => ?_) ?_; clear_value x; revert x; intro _ _; rotate_left; unfold x; clear x; rotate_left)
    | (extract_lets -useContext +onlyGivenNames x; revert x; intro _)
    | with_reducible refine keepsR_next ?_
    | with_reducible exact keepsR_fault
    | with_reducible refine lnkField_keeps (sub_of (by decide) hp) ?_
    | split
    | (clear_value *; split)
    | with_reducible refine keepsP_eq ?_ (by assumption)
    | with_reducible refine keepsO_eq ?_ (by assumption)
    | with_reducible refine keepsP_mk ?_

theorem execLnkBond_keeps {ps z} {p : Sys2Proof.Path} {port : Sys2Proof.PortId} {on : Bool} {s : Sys2Proof.Machine.State} (hp : [.regs, .isl, .mem, .mmu, .arr, .vec, .als, .alsScrub, .dma, .ctx, .queues, .seq, .outbox, .draws, .bxl, .pwr, .life, .link, .port, .rtr, .xch, .nmu, .mgmt, .obs, .bridge] ⊆ ps) (h3 : Keeps ps z s) :
    KeepsR ps z (execLnkBond p port on s) := by
  unfold execLnkBond
  repeat' first
    | with_reducible assumption
    | with_reducible exact keepsP_fst (by assumption)
    | (extract_lets -useContext +onlyGivenNames x; refine (fun (hx : Keeps ps z x) => ?_) ?_; clear_value x; revert x; intro _ _; rotate_left; unfold x; clear x; rotate_left)
    | (extract_lets -useContext +onlyGivenNames x; revert x; intro _)
    | with_reducible refine keepsR_next ?_
    | with_reducible exact keepsR_fault
    | with_reducible refine lnkField_keeps (sub_of (by decide) hp) ?_
    | split
    | (clear_value *; split)
    | with_reducible refine keepsP_eq ?_ (by assumption)
    | with_reducible refine keepsO_eq ?_ (by assumption)
    | with_reducible refine keepsP_mk ?_

theorem execRtrEpochArm_keeps {ps z} {p : Sys2Proof.Path} {v : Sys2Proof.W32} {s : Sys2Proof.Machine.State} (hp : [.regs, .isl, .mem, .mmu, .arr, .vec, .als, .alsScrub, .dma, .ctx, .queues, .seq, .outbox, .draws, .bxl, .pwr, .life, .link, .port, .rtr, .xch, .nmu, .mgmt, .obs, .bridge] ⊆ ps) (h2 : Keeps ps z s) :
    KeepsR ps z (execRtrEpochArm p v s) := by
  unfold execRtrEpochArm
  repeat' first
    | with_reducible assumption
    | with_reducible exact keepsP_fst (by assumption)
    | (extract_lets -useContext +onlyGivenNames x; refine (fun (hx : Keeps ps z x) => ?_) ?_; clear_value x; revert x; intro _ _; rotate_left; unfold x; clear x; rotate_left)
    | (extract_lets -useContext +onlyGivenNames x; revert x; intro _)
    | with_reducible refine keepsR_next ?_
    | with_reducible exact keepsR_fault
    | with_reducible refine writeReg_keeps (sub_of (by decide) hp) ?_
    | split
    | (clear_value *; split)
    | with_reducible refine keepsP_eq ?_ (by assumption)
    | with_reducible refine keepsO_eq ?_ (by assumption)
    | with_reducible refine keepsP_mk ?_

theorem execRtrTdataCommit_keeps {ps z} {p : Sys2Proof.Path} {v : Sys2Proof.W32} {s : Sys2Proof.Machine.State} (hp : [.regs, .isl, .mem, .mmu, .arr, .vec, .als, .alsScrub, .dma, .ctx, .queues, .seq, .outbox, .draws, .bxl, .pwr, .life, .link, .port, .rtr, .xch, .nmu, .mgmt, .obs, .bridge] ⊆ ps) (h2 : Keeps ps z s) :
    KeepsR ps z (execRtrTdataCommit p v s) := by
  unfold execRtrTdataCommit
  repeat' first
    | with_reducible assumption
    | with_reducible exact keepsP_fst (by assumption)
    | (extract_lets -useContext +onlyGivenNames x; refine (fun (hx : Keeps ps z x) => ?_) ?_; clear_value x; revert x; intro _ _; rotate_left; unfold x; clear x; rotate_left)
    | (extract_lets -useContext +onlyGivenNames x; revert x; intro _)
    | with_reducible refine keepsR_next ?_
    | with_reducible exact keepsR_fault
    | with_reducible refine writeReg_keeps (sub_of (by decide) hp) ?_
    | split
    | (clear_value *; split)
    | with_reducible refine keepsP_eq ?_ (by assumption)
    | with_reducible refine keepsO_eq ?_ (by assumption)
    | with_reducible refine keepsP_mk ?_

theorem execRtrFenceWrite_keeps {ps z} {p : Sys2Proof.Path} {v : Sys2Proof.W32} {s : Sys2Proof.Machine.State} (hp : [.regs, .isl, .mem, .mmu, .arr, .vec, .als, .alsScrub, .dma, .ctx, .queues, .seq, .outbox, .draws, .bxl, .pwr, .life, .link, .port, .rtr, .xch, .nmu, .mgmt, .obs, .bridge] ⊆ ps) (h2 : Keeps ps z s) :
    KeepsR ps z (execRtrFenceWrite p v s) := by
  unfold execRtrFenceWrite
  repeat' first
    | with_reducible assumption
    | with_reducible exact keepsP_fst (by assumption)
    | (extract_lets -useContext +onlyGivenNames x; refine (fun (hx : Keeps ps z x) => ?_) ?_; clear_value x; revert x; intro _ _; rotate_left; unfold x; clear x; rotate_left)
    | (extract_lets -useContext +onlyGivenNames x; revert x; intro _)
    | with_reducible refine keepsR_next ?_
    | with_reducible exact keepsR_fault
    | with_reducible refine writeReg_keeps (sub_of (by decide) hp) ?_
    | split
    | (clear_value *; split)
    | with_reducible refine keepsP_eq ?_ (by assumption)
    | with_reducible refine keepsO_eq ?_ (by assumption)
    | with_reducible refine keepsP_mk ?_

theorem execHistFreeze_keeps {ps z} {p : Sys2Proof.Path} {on : Bool} {s : Sys2Proof.Machine.State} (hp : [.regs, .isl, .mem, .mmu, .arr, .vec, .als, .alsScrub, .dma, .ctx, .queues, .seq, .outbox, .draws, .bxl, .pwr, .life, .link, .port, .rtr, .xch, .nmu, .mgmt, .obs, .bridge] ⊆ ps) (h2 : Keeps ps z s) :
    KeepsR ps z (execHistFreeze p on s) := by
  unfold execHistFreeze
  repeat' first
    | with_reducible assumption
    | with_reducible exact keepsP_fst (by assumption)
    | (extract_lets -useContext +onlyGivenNames x; refine (fun (hx : Keeps ps z x) => ?_) ?_; clear_value x; revert x; intro _ _; rotate_left; unfold x; clear x; rotate_left)
    | (extract_lets -useContext +onlyGivenNames x; revert x; intro _)
    | with_reducible refine keepsR_next ?_
    | with_reducible exact keepsR_fault
    | with_reducible refine writeReg_keeps (sub_of (by decide) hp) ?_
    | split
    | (clear_value *; split)
    | with_reducible refine keepsP_eq ?_ (by assumption)
    | with_reducible refine keepsO_eq ?_ (by assumption)
    | with_reducible refine keepsP_mk ?_

theorem execHistClear_keeps {ps z} {p : Sys2Proof.Path} {s : Sys2Proof.Machine.State} (hp : [.regs, .isl, .mem, .mmu, .arr, .vec, .als, .alsScrub, .dma, .ctx, .queues, .seq, .outbox, .draws, .bxl, .pwr, .life, .link, .port, .rtr, .xch, .nmu, .mgmt, .obs, .bridge] ⊆ ps) (h1 : Keeps ps z s) :
    KeepsR ps z (execHistClear p s) := by
  unfold execHistClear
  repeat' first
    | with_reducible assumption
    | with_reducible exact keepsP_fst (by assumption)
    | (extract_lets -useContext +onlyGivenNames x; refine (fun (hx : Keeps ps z x) => ?_) ?_; clear_value x; revert x; intro _ _; rotate_left; unfold x; clear x; rotate_left)
    | (extract_lets -useContext +onlyGivenNames x; revert x; intro _)
    | with_reducible refine keepsR_next ?_
    | with_reducible exact keepsR_fault
    | with_reducible refine writeReg_keeps (sub_of (by decide) hp) ?_
    | split
    | (clear_value *; split)
    | with_reducible refine keepsP_eq ?_ (by assumption)
    | with_reducible refine keepsO_eq ?_ (by assumption)
    | with_reducible refine keepsP_mk ?_

theorem execCatCtrlWrite_keeps {ps z} {p : Sys2Proof.Path} {v : Sys2Proof.W32} {s : Sys2Proof.Machine.State} (hp : [.regs, .isl, .mem, .mmu, .arr, .vec, .als, .alsScrub, .dma, .ctx, .queues, .seq, .outbox, .draws, .bxl, .pwr, .life, .link, .port, .rtr, .xch, .nmu, .mgmt, .obs, .bridge] ⊆ ps) (h2 : Keeps ps z s) :
    KeepsR ps z (execCatCtrlWrite p v s) := by
  unfold execCatCtrlWrite
  repeat' first
    | with_reducible assumption
    | with_reducible exact keepsP_fst (by assumption)
    | (extract_lets -useContext +onlyGivenNames x; refine (fun (hx : Keeps ps z x) => ?_) ?_; clear_value x; revert x; intro _ _; rotate_left; unfold x; clear x; rotate_left)
    | (extract_lets -useContext +onlyGivenNames x; revert x; intro _)
    | with_reducible refine keepsR_next ?_
    | with_reducible exact keepsR_fault
    | with_reducible refine writeReg_keeps (sub_of (by decide) hp) ?_
    | split
    | (clear_value *; split)
    | with_reducible refine keepsP_eq ?_ (by assumption)
    | with_reducible refine keepsO_eq ?_ (by assumption)
    | with_reducible refine keepsP_mk ?_

theorem execBxlVecMaskWrite_keeps {ps z} {p : Sys2Proof.Path} {i : Fin 64} {v : Sys2Proof.W32} {s : Sys2Proof.Machine.State} (hp : [.regs, .isl, .mem, .mmu, .arr, .vec, .als, .alsScrub, .dma, .ctx, .queues, .seq, .outbox, .draws, .bxl, .pwr, .life, .link, .port, .rtr, .xch, .nmu, .mgmt, .obs, .bridge] ⊆ ps) (h3 : Keeps ps z s) :
    KeepsR ps z (execBxlVecMaskWrite p i v s) := by
  unfold execBxlVecMaskWrite
  repeat' first
    | with_reducible assumption
    | with_reducible exact keepsP_fst (by assumption)
    | (extract_lets -useContext +onlyGivenNames x; refine (fun (hx : Keeps ps z x) => ?_) ?_; clear_value x; revert x; intro _ _; rotate_left; unfold x; clear x; rotate_left)
    | (extract_lets -useContext +onlyGivenNames x; revert x; intro _)
    | with_reducible refine keepsR_next ?_
    | with_reducible exact keepsR_fault
    | with_reducible refine writeReg_keeps (sub_of (by decide) hp) ?_
    | split
    | (clear_value *; split)
    | with_reducible refine keepsP_eq ?_ (by assumption)
    | with_reducible refine keepsO_eq ?_ (by assumption)
    | with_reducible refine keepsP_mk ?_

theorem execBxlRetrain_keeps {ps z} {p : Sys2Proof.Path} {s : Sys2Proof.Machine.State} (hp : [.regs, .isl, .mem, .mmu, .arr, .vec, .als, .alsScrub, .dma, .ctx, .queues, .seq, .outbox, .draws, .bxl, .pwr, .life, .link, .port, .rtr, .xch, .nmu, .mgmt, .obs, .bridge] ⊆ ps) (h1 : Keeps ps z s) :
    KeepsR ps z (execBxlRetrain p s) := by
  unfold execBxlRetrain
  repeat' first
    | with_reducible assumption
    | with_reducible exact keepsP_fst (by assumption)
    | (extract_lets -useContext +onlyGivenNames x; refine (fun (hx : Keeps ps z x) => ?_) ?_; clear_value x; revert x; intro _ _; rotate_left; unfold x; clear x; rotate_left)
    | (extract_lets -useContext +onlyGivenNames x; revert x; intro _)
    | with_reducible refine keepsR_next ?_
    | with_reducible exact keepsR_fault
    | with_reducible refine writeReg_keeps (sub_of (by decide) hp) ?_
    | split
    | (clear_value *; split)
    | with_reducible refine keepsP_eq ?_ (by assumption)
    | with_reducible refine keepsO_eq ?_ (by assumption)
    | with_reducible refine keepsP_mk ?_

theorem execErrFirstClear_keeps {ps z} {p : Sys2Proof.Path} {page : Fin 4096} {s : Sys2Proof.Machine.State} (hp : [.regs, .isl, .mem, .mmu, .arr, .vec, .als, .alsScrub, .dma, .ctx, .queues, .seq, .outbox, .draws, .bxl, .pwr, .life, .link, .port, .rtr, .xch, .nmu, .mgmt, .obs, .bridge] ⊆ ps) (h2 : Keeps ps z s) :
    KeepsR ps z (execErrFirstClear p page s) := by
  unfold execErrFirstClear
  repeat' first
    | with_reducible assumption
    | with_reducible exact keepsP_fst (by assumption)
    | (extract_lets -useContext +onlyGivenNames x; refine (fun (hx : Keeps ps z x) => ?_) ?_; clear_value x; revert x; intro _ _; rotate_left; unfold x; clear x; rotate_left)
    | (extract_lets -useContext +onlyGivenNames x; revert x; intro _)
    | with_reducible refine keepsR_next ?_
    | with_reducible exact keepsR_fault
    | with_reducible refine writeReg_keeps (sub_of (by decide) hp) ?_
    | split
    | (clear_value *; split)
    | with_reducible refine keepsP_eq ?_ (by assumption)
    | with_reducible refine keepsO_eq ?_ (by assumption)
    | with_reducible refine keepsP_mk ?_

theorem execIntEnableWrite_keeps {ps z} {p : Sys2Proof.Path} {page : Fin 4096} {on : Bool} {s : Sys2Proof.Machine.State} (hp : [.regs, .isl, .mem, .mmu, .arr, .vec, .als, .alsScrub, .dma, .ctx, .queues, .seq, .outbox, .draws, .bxl, .pwr, .life, .link, .port, .rtr, .xch, .nmu, .mgmt, .obs, .bridge] ⊆ ps) (h3 : Keeps ps z s) :
    KeepsR ps z (execIntEnableWrite p page on s) := by
  unfold execIntEnableWrite
  repeat' first
    | with_reducible assumption
    | with_reducible exact keepsP_fst (by assumption)
    | (extract_lets -useContext +onlyGivenNames x; refine (fun (hx : Keeps ps z x) => ?_) ?_; clear_value x; revert x; intro _ _; rotate_left; unfold x; clear x; rotate_left)
    | (extract_lets -useContext +onlyGivenNames x; revert x; intro _)
    | with_reducible refine keepsR_next ?_
    | with_reducible exact keepsR_fault
    | with_reducible refine writeReg_keeps (sub_of (by decide) hp) ?_
    | split
    | (clear_value *; split)
    | with_reducible refine keepsP_eq ?_ (by assumption)
    | with_reducible refine keepsO_eq ?_ (by assumption)
    | with_reducible refine keepsP_mk ?_

theorem execCntSelWrite_keeps {ps z} {p : Sys2Proof.Path} {page : Fin 4096} {k : Fin 8} {v : Sys2Proof.W32} {s : Sys2Proof.Machine.State} (hp : [.regs, .isl, .mem, .mmu, .arr, .vec, .als, .alsScrub, .dma, .ctx, .queues, .seq, .outbox, .draws, .bxl, .pwr, .life, .link, .port, .rtr, .xch, .nmu, .mgmt, .obs, .bridge] ⊆ ps) (h4 : Keeps ps z s) :
    KeepsR ps z (execCntSelWrite p page k v s) := by
  unfold execCntSelWrite
  repeat' first
    | with_reducible assumption
    | with_reducible exact keepsP_fst (by assumption)
    | (extract_lets -useContext +onlyGivenNames x; refine (fun (hx : Keeps ps z x) => ?_) ?_; clear_value x; revert x; intro _ _; rotate_left; unfold x; clear x; rotate_left)
    | (extract_lets -useContext +onlyGivenNames x; revert x; intro _)
    | with_reducible refine keepsR_next ?_
    | with_reducible exact keepsR_fault
    | with_reducible refine writeReg_keeps (sub_of (by decide) hp) ?_
    | split
    | (clear_value *; split)
    | with_reducible refine keepsP_eq ?_ (by assumption)
    | with_reducible refine keepsO_eq ?_ (by assumption)
    | with_reducible refine keepsP_mk ?_

theorem ctrlWrite_keeps {ps z} {p : Sys2Proof.Path} {s : Sys2Proof.Machine.State} {k : Nat} {enable : Bool} {quiesce : Bool} {reset : Bool} (hp : [.regs, .isl, .mem, .mmu, .arr, .vec, .als, .alsScrub, .dma, .ctx, .queues, .seq, .outbox, .draws, .bxl, .pwr, .life, .link, .port, .rtr, .xch, .nmu, .mgmt, .obs, .bridge] ⊆ ps) (h1 : Keeps ps z s) :
    Keeps ps z (ctrlWrite p s k enable quiesce reset) := by
  unfold ctrlWrite
  repeat' first
    | with_reducible assumption
    | with_reducible exact keepsP_fst (by assumption)
    | (extract_lets -useContext +onlyGivenNames x; refine (fun (hx : Keeps ps z x) => ?_) ?_; clear_value x; revert x; intro _ _; rotate_left; unfold x; clear x; rotate_left)
    | (extract_lets -useContext +onlyGivenNames x; revert x; intro _)
    | with_reducible refine writeReg_keeps (sub_of (by decide) hp) ?_
    | split
    | (clear_value *; split)
    | with_reducible refine keepsP_eq ?_ (by assumption)
    | with_reducible refine keepsO_eq ?_ (by assumption)
    | with_reducible refine keepsP_mk ?_

theorem execCtrlQuiesce_keeps {ps z} {p : Sys2Proof.Path} {i : Fin 49} {on : Bool} {s : Sys2Proof.Machine.State} (hp : [.regs, .isl, .mem, .mmu, .arr, .vec, .als, .alsScrub, .dma, .ctx, .queues, .seq, .outbox, .draws, .bxl, .pwr, .life, .link, .port, .rtr, .xch, .nmu, .mgmt, .obs, .bridge] ⊆ ps) (h3 : Keeps ps z s) :
    KeepsR ps z (execCtrlQuiesce p i on s) := by
  unfold execCtrlQuiesce
  repeat' first
    | with_reducible assumption
    | with_reducible exact keepsP_fst (by assumption)
    | (extract_lets -useContext +onlyGivenNames x; refine (fun (hx : Keeps ps z x) => ?_) ?_; clear_value x; revert x; intro _ _; rotate_left; unfold x; clear x; rotate_left)
    | (extract_lets -useContext +onlyGivenNames x; revert x; intro _)
    | with_reducible refine keepsR_next ?_
    | with_reducible exact keepsR_fault
    | with_reducible refine ctrlWrite_keeps (sub_of (by decide) hp) ?_
    | split
    | (clear_value *; split)
    | with_reducible refine keepsP_eq ?_ (by assumption)
    | with_reducible refine keepsO_eq ?_ (by assumption)
    | with_reducible refine keepsP_mk ?_

theorem execQuiesceComplete_keeps {ps z} {i : Fin 49} {s : Sys2Proof.Machine.State} (hp : [.isl] ⊆ ps) (h1 : Keeps ps z s) :
    KeepsR ps z (execQuiesceComplete i s) := by
  unfold execQuiesceComplete
  repeat' first
    | with_reducible assumption
    | with_reducible exact keepsP_fst (by assumption)
    | (extract_lets -useContext +onlyGivenNames x; refine (fun (hx : Keeps ps z x) => ?_) ?_; clear_value x; revert x; intro _ _; rotate_left; unfold x; clear x; rotate_left)
    | (extract_lets -useContext +onlyGivenNames x; revert x; intro _)
    | with_reducible refine keepsR_next ?_
    | with_reducible exact keepsR_fault
    | with_reducible refine State.setIsl_keeps (sub_of (by decide) hp) ?_
    | split
    | (clear_value *; split)
    | with_reducible refine keepsP_eq ?_ (by assumption)
    | with_reducible refine keepsO_eq ?_ (by assumption)
    | with_reducible refine keepsP_mk ?_

theorem execCtrlEnable_keeps {ps z} {p : Sys2Proof.Path} {n : Sys2Proof.ArrayId} {on : Bool} {s : Sys2Proof.Machine.State} (hp : [.regs, .isl, .mem, .mmu, .arr, .vec, .als, .alsScrub, .dma, .ctx, .queues, .seq, .outbox, .draws, .bxl, .pwr, .life, .link, .port, .rtr, .xch, .nmu, .mgmt, .obs, .bridge] ⊆ ps) (h3 : Keeps ps z s) :
    KeepsR ps z (execCtrlEnable p n on s) := by
  unfold execCtrlEnable
  repeat' first
    | with_reducible assumption
    | with_reducible exact keepsP_fst (by assumption)
    | (extract_lets -useContext +onlyGivenNames x; refine (fun (hx : Keeps ps z x) => ?_) ?_; clear_value x; revert x; intro _ _; rotate_left; unfold x; clear x; rotate_left)
    | (extract_lets -useContext +onlyGivenNames x; revert x; intro _)
    | with_reducible refine keepsR_next ?_
    | with_reducible exact keepsR_fault
    | with_reducible refine ctrlWrite_keeps (sub_of (by decide) hp) ?_
    | split
    | (clear_value *; split)
    | with_reducible refine keepsP_eq ?_ (by assumption)
    | with_reducible refine keepsO_eq ?_ (by assumption)
    | with_reducible refine keepsP_mk ?_

theorem execCtrlBlockReset_keeps {ps z} {p : Sys2Proof.Path} {i : Fin 24} {s : Sys2Proof.Machine.State} (hp : [.regs, .isl, .mem, .mmu, .arr, .vec, .als, .alsScrub, .dma, .ctx, .queues, .seq, .outbox, .draws, .bxl, .pwr, .life, .link, .port, .rtr, .xch, .nmu, .mgmt, .obs, .bridge] ⊆ ps) (h2 : Keeps ps z s) :
    KeepsR ps z (execCtrlBlockReset p i s) := by
  unfold execCtrlBlockReset
  repeat' first
    | with_reducible assumption
    | with_reducible exact keepsP_fst (by assumption)
    | (extract_lets -useContext +onlyGivenNames x; refine (fun (hx : Keeps ps z x) => ?_) ?_; clear_value x; revert x; intro _ _; rotate_left; unfold x; clear x; rotate_left)
    | (extract_lets -useContext +onlyGivenNames x; revert x; intro _)
    | with_reducible refine keepsR_next ?_
    | with_reducible exact keepsR_fault
    | with_reducible refine ctrlWrite_keeps (sub_of (by decide) hp) ?_
    | split
    | (clear_value *; split)
    | with_reducible refine keepsP_eq ?_ (by assumption)
    | with_reducible refine keepsO_eq ?_ (by assumption)
    | with_reducible refine keepsP_mk ?_

theorem execBlockResetDone_keeps {ps z} {i : Fin 24} {s : Sys2Proof.Machine.State} (hp : [.regs, .isl, .mem, .arr, .vec, .als, .alsScrub, .dss, .ctx, .seq, .outbox, .draws, .pwr, .rtr, .xch, .bridge] ⊆ ps) (h1 : Keeps ps z s) :
    KeepsR ps z (execBlockResetDone i s) := by
  unfold execBlockResetDone
  repeat' first
    | with_reducible assumption
    | with_reducible exact keepsP_fst (by assumption)
    | (extract_lets -useContext +onlyGivenNames x; refine (fun (hx : Keeps ps z x) => ?_) ?_; clear_value x; revert x; intro _ _; rotate_left; unfold x; clear x; rotate_left)
    | (extract_lets -useContext +onlyGivenNames x; revert x; intro _)
    | with_reducible refine keepsR_next ?_
    | with_reducible exact keepsR_fault
    | with_reducible refine endBlockReset_keeps (sub_of (by decide) hp) ?_
    | split
    | (clear_value *; split)
    | with_reducible refine keepsP_eq ?_ (by assumption)
    | with_reducible refine keepsO_eq ?_ (by assumption)
    | with_reducible refine keepsP_mk ?_

end Sys2Proof.Machine
end

