-- ==== Sys2Proof/Laws/FrameTick.lean ====
section
/-!
SUPPORT. Frames: for each operation of Sys2Proof/Machine/Tick.lean, the parts of State it may change, and that it keeps the stores'
canonical form.
-/
namespace Sys2Proof.Machine

open Sys2Proof

theorem payDebt_keeps {ps z} {ns : Nat} {s : Sys2Proof.Machine.State} {e : Nat} (hp : [.ctx, .pwr] ⊆ ps) (h1 : Keeps ps z s) :
    Keeps ps z (payDebt ns s e) := by
  unfold payDebt
  repeat' first
    | with_reducible assumption
    | with_reducible exact keepsP_fst (by assumption)
    | (extract_lets -useContext +onlyGivenNames x; refine (fun (hx : Keeps ps z x) => ?_) ?_; clear_value x; revert x; intro _ _; rotate_left; unfold x; clear x; rotate_left)
    | (extract_lets -useContext +onlyGivenNames x; revert x; intro _)
    | with_reducible refine ctxCount_keeps (sub_of (by decide) hp) ?_
    | split
    | (clear_value *; split)
    | with_reducible refine keeps_with_pwr (mem_of (by decide) hp) ?_
    | with_reducible refine keepsP_eq ?_ (by assumption)
    | with_reducible refine keepsO_eq ?_ (by assumption)
    | with_reducible refine keepsP_mk ?_

theorem countHold_keeps {ps z} {ns : Nat} {s : Sys2Proof.Machine.State} {n : Nat} (hp : [.ctx] ⊆ ps) (h1 : Keeps ps z s) :
    Keeps ps z (countHold ns s n) := by
  unfold countHold
  repeat' first
    | with_reducible assumption
    | with_reducible exact keepsP_fst (by assumption)
    | (extract_lets -useContext +onlyGivenNames x; refine (fun (hx : Keeps ps z x) => ?_) ?_; clear_value x; revert x; intro _ _; rotate_left; unfold x; clear x; rotate_left)
    | (extract_lets -useContext +onlyGivenNames x; revert x; intro _)
    | with_reducible refine ctxCount_keeps (sub_of (by decide) hp) ?_
    | split
    | (clear_value *; split)
    | with_reducible refine keepsP_eq ?_ (by assumption)
    | with_reducible refine keepsO_eq ?_ (by assumption)
    | with_reducible refine keepsP_mk ?_

theorem romTick_keeps {ps z} {s : Sys2Proof.Machine.State} (hp : [.regs] ⊆ ps) (h0 : Keeps ps z s) :
    Keeps ps z (romTick s) := by
  unfold romTick
  repeat' first
    | with_reducible assumption
    | with_reducible exact keepsP_fst (by assumption)
    | (extract_lets -useContext +onlyGivenNames x; refine (fun (hx : Keeps ps z x) => ?_) ?_; clear_value x; revert x; intro _ _; rotate_left; unfold x; clear x; rotate_left)
    | (extract_lets -useContext +onlyGivenNames x; revert x; intro _)
    | with_reducible refine setBoot_keeps (sub_of (by decide) hp) ?_
    | split
    | (clear_value *; split)
    | with_reducible refine keepsP_eq ?_ (by assumption)
    | with_reducible refine keepsO_eq ?_ (by assumption)
    | with_reducible refine keepsP_mk ?_

theorem refTick_keeps {ps z} {s : Sys2Proof.Machine.State} (hp : [.gtime, .regs, .hiCap, .isl, .mem, .mmu, .arr, .vec, .als, .alsScrub, .dma, .ctx, .queues, .seq, .outbox, .draws, .bxl, .pwr, .life, .link, .port, .rtr, .xch, .cat, .nmu, .pair, .mgmt, .pins, .obs, .bridge] ⊆ ps) (h0 : Keeps ps z s) :
    Keeps ps z (refTick s) := by
  unfold refTick
  repeat' first
    | with_reducible assumption
    | with_reducible exact keepsP_fst (by assumption)
    | (extract_lets -useContext +onlyGivenNames x; refine (fun (hx : Keeps ps z x) => ?_) ?_; clear_value x; revert x; intro _ _; rotate_left; unfold x; clear x; rotate_left)
    | (extract_lets -useContext +onlyGivenNames x; revert x; intro _)
    | with_reducible refine payDebt_keeps (sub_of (by decide) hp) ?_
    | with_reducible refine countHold_keeps (sub_of (by decide) hp) ?_
    | with_reducible refine linkTick_keeps (sub_of (by decide) hp) ?_
    | with_reducible refine noteReadyAll_keeps (sub_of (by decide) hp) ?_
    | with_reducible refine romTick_keeps (sub_of (by decide) hp) ?_
    | with_reducible refine serveMessages_keeps (sub_of (by decide) hp) ?_
    | with_reducible refine keeps_foldl (fun t a ht => ?_) ?_
    | with_reducible refine keepsP_foldl (fun t a ht => ?_) ?_
    | split
    | (clear_value *; split)
    | with_reducible refine keeps_with_gtime_pwr_pins (mem_of (by decide) hp) (mem_of (by decide) hp) (mem_of (by decide) hp) ?_
    | with_reducible refine keepsP_eq ?_ (by assumption)
    | with_reducible refine keepsO_eq ?_ (by assumption)
    | with_reducible refine keepsP_mk ?_

end Sys2Proof.Machine
end

