-- ==== Sys2Proof/Laws/Pss.lean ====
section
/-!
SUPPORT. Bytes and the numbers that they spell, the lengths of SHA-384 and MGF1, and RSASSA-PSS: what is encoded verifies.
-/
namespace Sys2Proof

theorem littleBytes_length (v n : Nat) : (littleBytes v n).length = n := by simp [littleBytes]
theorem bigBytes_length (v n : Nat) : (bigBytes v n).length = n := by simp [bigBytes, littleBytes_length]
theorem littleBytes_lt (v n x : Nat) (h : x ∈ littleBytes v n) : x < 256 := by
  obtain ⟨i, -, rfl⟩ := List.mem_map.mp h
  exact Nat.mod_lt _ (by decide)
theorem bigBytes_lt (v n x : Nat) (h : x ∈ bigBytes v n) : x < 256 := littleBytes_lt v n x (List.mem_reverse.mp h)

theorem littleBytes_succ (v n : Nat) : littleBytes v (n + 1) = v % 256 :: littleBytes (v / 256) n := by
  simp only [littleBytes, List.range_succ_eq_map, List.map_cons, List.map_map]
  refine congr (congrArg _ (by simp)) (List.map_congr_left fun i _ => ?_)
  simp only [Function.comp]
  rw [Nat.div_div_eq_div_mul, show 256 = 2 ^ 8 by rfl, ← Nat.pow_add, Nat.mul_succ, Nat.add_comm 8]

/-- Bytes are read back from the number that they spell. -/
theorem littleBytes_littleVal (b : List Nat) (h : ∀ x ∈ b, x < 256) : littleBytes (littleVal b) b.length = b := by
  induction b with
  | nil => rfl
  | cons x b ih =>
    have hx := h x (.head _)
    have e : littleVal (x :: b) = x + 256 * littleVal b := rfl
    rw [List.length_cons, littleBytes_succ, e, Nat.add_mul_mod_self_left, Nat.mod_eq_of_lt hx, Nat.add_mul_div_left _ _ (by decide),
      Nat.div_eq_of_lt hx, Nat.zero_add, ih fun y hy => h y (.tail _ hy)]

theorem bigVal_eq (b : List Nat) : bigVal b = littleVal b.reverse := by
  rw [littleVal, List.foldr_reverse, bigVal]
  exact congrArg (List.foldl · 0 b) (funext fun v => funext fun x => Nat.add_comm _ _)

theorem bigBytes_bigVal (b : List Nat) (h : ∀ x ∈ b, x < 256) : bigBytes (bigVal b) b.length = b := by
  rw [bigBytes, bigVal_eq, ← List.length_reverse, littleBytes_littleVal _ fun x hx => h x (List.mem_reverse.mp hx), List.reverse_reverse]

theorem littleVal_lt (b : List Nat) (h : ∀ x ∈ b, x < 256) : littleVal b < 256 ^ b.length := by
  induction b with
  | nil => exact Nat.one_pos
  | cons x b ih =>
    have hx := h x (.head _)
    have hb := ih fun y hy => h y (.tail _ hy)
    have e : littleVal (x :: b) = x + 256 * littleVal b := rfl
    rw [e, List.length_cons, Nat.pow_succ]
    omega

theorem bigVal_cons (x : Nat) (b : List Nat) : bigVal (x :: b) = x * 256 ^ b.length + bigVal b := by
  have g : ∀ (b : List Nat) (v : Nat), b.foldl (fun v x => 256 * v + x) v = v * 256 ^ b.length + bigVal b := by
    intro b
    induction b with
    | nil => intro v; simp [bigVal]
    | cons y b ih =>
      intro v
      rw [bigVal, List.foldl_cons, List.foldl_cons, ih, ih (256 * 0 + y), List.length_cons, Nat.pow_succ]
      rw [Nat.mul_zero, Nat.zero_add, Nat.add_mul, Nat.mul_comm 256 v, Nat.mul_assoc, Nat.mul_comm 256, Nat.add_assoc]
  rw [bigVal, List.foldl_cons, g, Nat.mul_zero, Nat.zero_add]

theorem bigVal_lt (b : List Nat) (h : ∀ x ∈ b, x < 256) : bigVal b < 256 ^ b.length := by
  rw [bigVal_eq, ← List.length_reverse]
  exact littleVal_lt _ fun x hx => h x (List.mem_reverse.mp hx)

/-! SHA-384 -/

theorem compress_length (p : Sha) (h m : List Nat) (hl : h.length = 8) : (ShaOps.compress p h m).length = 8 := by
  have g : ∀ (kw : List Nat) (v : List Nat), v.length = 8 → (kw.foldl (ShaOps.round p) v).length = 8 := by
    intro kw
    induction kw with
    | nil => exact fun v hv => hv
    | cons x kw ih =>
      refine fun v hv => ih _ ?_
      unfold ShaOps.round
      split
      · rfl
      · exact hv
  rw [ShaOps.compress, List.length_zipWith, hl, g _ _ hl]
  rfl

theorem blocks_length (p : Sha) (n : Nat) (h m : List Nat) (hl : h.length = 8) : (ShaOps.blocks p n h m).length = 8 := by
  induction n generalizing h m with
  | zero => exact hl
  | succ n ih => exact ih _ _ (compress_length p h _ hl)

theorem digest_length (p : Sha) (m : List Nat) (h : p.init.length = 8) : (ShaOps.digest p m).length = 8 * (p.w / 8) := by
  rw [ShaOps.digest, List.length_flatMap]
  simp only [bigBytes_length, List.map_const', blocks_length p _ _ _ h, List.sum_replicate_nat]

theorem sha384_length (m : List Nat) : (sha384 m).length = 48 := by
  rw [sha384, List.length_take, digest_length _ _ (by simp [sha384p, bigWords])]
  rfl

theorem sha384_lt (m : List Nat) (x : Nat) (h : x ∈ sha384 m) : x < 256 := by
  obtain ⟨w, -, h⟩ := List.mem_flatMap.mp (List.mem_of_mem_take h)
  exact bigBytes_lt _ _ _ h

theorem hmac384_lt (k m : List Nat) (x : Nat) (h : x ∈ hmac384 k m) : x < 256 := sha384_lt _ _ h

theorem mgf1_length (seed : List Nat) (n : Nat) : (mgf1 sha384 48 seed n).length = n := by
  rw [mgf1, List.length_take, List.length_flatMap]
  simp only [sha384_length, List.map_const', List.length_range, List.sum_replicate_nat]
  omega

theorem mgf1_lt (seed : List Nat) (n x : Nat) (h : x ∈ mgf1 sha384 48 seed n) : x < 256 := by
  obtain ⟨w, -, h⟩ := List.mem_flatMap.mp (List.mem_of_mem_take h)
  exact sha384_lt _ _ h

/-! RSASSA-PSS -/

theorem xor_byte (a b : Nat) (ha : a < 256) (hb : b < 256) : a ^^^ b < 256 := Nat.xor_lt_two_pow (n := 8) ha hb

theorem xorBytes_length (a b : List Nat) : (xorBytes a b).length = min a.length b.length := List.length_zipWith ..

theorem xorBytes_lt (a b : List Nat) (ha : ∀ x ∈ a, x < 256) (hb : ∀ x ∈ b, x < 256) : ∀ x ∈ xorBytes a b, x < 256 := by
  intro x hx
  obtain ⟨i, hi, rfl⟩ := List.getElem_of_mem hx
  rw [xorBytes_length] at hi
  simp only [xorBytes, List.getElem_zipWith]
  exact xor_byte _ _ (ha _ (List.getElem_mem _)) (hb _ (List.getElem_mem _))

/-- A mask taken twice is none. -/
theorem xorBytes_twice (a b : List Nat) (h : a.length = b.length) : xorBytes (xorBytes a b) b = a := by
  refine List.ext_getElem (by simp [xorBytes_length, h]) fun i _ _ => ?_
  simp only [xorBytes, List.getElem_zipWith, Nat.xor_assoc, Nat.xor_self, Nat.xor_zero]

/-- An encoding by its parts: what follows the first byte, the hash, and the last byte. -/
theorem pssEncode_parts (m salt : List Nat) (h : salt.length = 48) : ∃ (a : Nat) (mask : List Nat),
    mgf1 sha384 48 (pssHash m salt) 335 = a :: mask ∧ mask.length = 334 ∧
    pssEncode m salt = a % 128 :: (xorBytes (List.replicate 285 0 ++ 1 :: salt) mask ++ pssHash m salt ++ [0xBC]) := by
  have hl := mgf1_length (pssHash m salt) 335
  rw [pssEncode]
  generalize mgf1 sha384 48 (pssHash m salt) 335 = b at hl ⊢
  match b, hl with
  | a :: mask, hl =>
    refine ⟨a, mask, rfl, Nat.succ.inj hl, ?_⟩
    rw [show List.replicate 286 0 = 0 :: List.replicate 285 0 from rfl]
    simp only [xorBytes, List.cons_append, List.zipWith_cons_cons, List.headD_cons, Nat.zero_xor, List.drop_succ_cons, List.drop_zero]

theorem pssEncode_length (m salt : List Nat) (h : salt.length = 48) : (pssEncode m salt).length = 384 := by
  obtain ⟨a, mask, -, hm, e⟩ := pssEncode_parts m salt h
  rw [e, List.length_cons, List.length_append, List.length_append, xorBytes_length, List.length_append, List.length_replicate,
    List.length_cons, h, hm, pssHash, sha384_length]
  rfl

theorem pssEncode_lt (m salt : List Nat) (h : salt.length = 48) (hs : ∀ x ∈ salt, x < 256) : ∀ x ∈ pssEncode m salt, x < 256 := by
  obtain ⟨a, mask, he, hm, e⟩ := pssEncode_parts m salt h
  intro x hx
  rw [e, List.mem_cons, List.mem_append, List.mem_append] at hx
  obtain hx | (hx | hx) | hx := hx
  · exact hx ▸ Nat.lt_trans (Nat.mod_lt _ (by decide)) (by decide)
  · refine xorBytes_lt _ _ ?_ (fun y hy => mgf1_lt (pssHash m salt) 335 y (he ▸ .tail _ hy)) x hx
    intro y hy
    rw [List.mem_append, List.mem_cons] at hy
    obtain hy | hy | hy := hy
    · rw [List.eq_of_mem_replicate hy]; decide
    · rw [hy]; decide
    · exact hs y hy
  · exact sha384_lt _ _ hx
  · rw [List.eq_of_mem_singleton hx]; decide

theorem pssEncode_head (m salt : List Nat) (h : salt.length = 48) : ∃ a b, pssEncode m salt = a :: b ∧ a < 128 := by
  obtain ⟨a, mask, -, -, e⟩ := pssEncode_parts m salt h
  exact ⟨_, _, e, Nat.mod_lt _ (by decide)⟩

theorem pssVerify_eq (m em : List Nat) : pssVerify 3071 m em =
    (em.length == 384 && decide (98 ≤ 384) && em.getD 383 0 == 0xBC && decide (em.headD 0 < 128) &&
      ((xorBytes (em.take 335) (mgf1 sha384 48 ((em.drop 335).take 48) 335)).headD 0 % 128 ::
        (xorBytes (em.take 335) (mgf1 sha384 48 ((em.drop 335).take 48) 335)).drop 1).take 287 == List.replicate 286 0 ++ [1] &&
      (em.drop 335).take 48 == pssHash m (((xorBytes (em.take 335) (mgf1 sha384 48 ((em.drop 335).take 48) 335)).headD 0 % 128 ::
        (xorBytes (em.take 335) (mgf1 sha384 48 ((em.drop 335).take 48) 335)).drop 1).drop 287)) := rfl

/-- What is encoded verifies, in 3,071 bits. -/
theorem pssVerify_pssEncode (m salt : List Nat) (h : salt.length = 48) : pssVerify 3071 m (pssEncode m salt) = true := by
  have hl := pssEncode_length m salt h
  obtain ⟨a, mask, he, hm, e⟩ := pssEncode_parts m salt h
  have hx : (xorBytes (List.replicate 285 0 ++ 1 :: salt) mask).length = 334 := by
    rw [xorBytes_length, hm, List.length_append, List.length_replicate, List.length_cons, h]; rfl
  have hh : (pssHash m salt).length = 48 := sha384_length _
  have ht : (a % 128 :: (xorBytes (List.replicate 285 0 ++ 1 :: salt) mask ++ pssHash m salt ++ [0xBC])).take 335 =
      a % 128 :: xorBytes (List.replicate 285 0 ++ 1 :: salt) mask := by
    rw [List.take_succ_cons, List.append_assoc, List.take_append_of_le_length (Nat.le_of_eq hx.symm), List.take_of_length_le (Nat.le_of_eq hx)]
  have hd : ((a % 128 :: (xorBytes (List.replicate 285 0 ++ 1 :: salt) mask ++ pssHash m salt ++ [0xBC])).drop 335).take 48 = pssHash m salt := by
    rw [List.drop_succ_cons, List.append_assoc, List.drop_append, hx, List.drop_of_length_le (Nat.le_of_eq hx), Nat.sub_self, List.drop_zero,
      List.nil_append, List.take_append_of_le_length (Nat.le_of_eq hh.symm), List.take_of_length_le (Nat.le_of_eq hh)]
  have hg : (a % 128 :: (xorBytes (List.replicate 285 0 ++ 1 :: salt) mask ++ pssHash m salt ++ [0xBC])).getD 383 0 = 0xBC := by
    rw [List.getD_eq_getElem?_getD, List.getElem?_cons_succ, List.getElem?_append_right (Nat.le_of_eq (by simp only [List.length_append, hx, hh])),
      List.length_append, hx, hh]
    rfl
  have hm' : xorBytes (a % 128 :: xorBytes (List.replicate 285 0 ++ 1 :: salt) mask) (a :: mask) =
      (a % 128 ^^^ a) :: (List.replicate 285 0 ++ 1 :: salt) := by
    have := xorBytes_twice (List.replicate 285 0 ++ 1 :: salt) mask (by
      rw [hm, List.length_append, List.length_replicate, List.length_cons, h])
    exact congrArg (_ :: ·) this
  have hz : (a % 128 ^^^ a) % 128 = 0 := by
    rw [show 128 = 2 ^ 7 from rfl, Nat.xor_mod_two_pow, Nat.mod_mod, Nat.xor_self]
  have hp : List.replicate 285 0 ++ 1 :: salt = (List.replicate 285 0 ++ [1]) ++ salt := by rw [List.append_assoc]; rfl
  have hq : (List.replicate 285 0 ++ [1] : List Nat).length = 286 := by rw [List.length_append, List.length_replicate]; rfl
  rw [pssVerify_eq, hl]
  rw [e] at *
  rw [hd, ht, he, hm', hg, List.headD_cons, List.headD_cons, hz, List.drop_succ_cons, List.drop_zero, List.take_succ_cons, List.drop_succ_cons, hp,
    List.take_append_of_le_length (Nat.le_of_eq hq.symm), List.take_of_length_le (Nat.le_of_eq hq), List.drop_append, hq,
    List.drop_of_length_le (Nat.le_of_eq hq), Nat.sub_self, List.drop_zero, List.nil_append, decide_eq_true (Nat.mod_lt a (by decide)),
    show (List.replicate 286 0 ++ [1] : List Nat) = 0 :: (List.replicate 285 0 ++ [1]) by rw [List.replicate_succ]; rfl]
  simp only [beq_self_eq_true, Bool.and_true]
  rfl

/-- With the exponent 1 and the modulus 2^3072 - 1, an encoding is its own signature. -/
theorem rsaVerify_one (m salt : List Nat) (h : salt.length = 48) (hs : ∀ x ∈ salt, x < 256) :
    rsaVerify ⟨2 ^ 3072 - 1, 1⟩ m (pssEncode m salt) = true := by
  have hl := pssEncode_length m salt h
  have hb := pssEncode_lt m salt h hs
  have hv : bigVal (pssEncode m salt) < 2 ^ 3071 := by
    obtain ⟨a, b, e, ha⟩ := pssEncode_head m salt h
    rw [e] at hl hb ⊢
    have hb' := bigVal_lt b fun x hx => hb x (.tail _ hx)
    rw [bigVal_cons, show b.length = 383 from Nat.succ.inj hl] at *
    have : 2 ^ 3071 = 128 * 256 ^ 383 := by decide +kernel
    rw [this]
    exact Nat.lt_of_lt_of_le (Nat.add_lt_add_left hb' _) (by rw [← Nat.succ_mul]; exact Nat.mul_le_mul_right _ ha)
  have hn : bigVal (pssEncode m salt) < 2 ^ 3072 - 1 := Nat.lt_of_lt_of_le hv (by decide +kernel)
  have hp : powMod (2 ^ 3072 - 1) 1 (bigVal (pssEncode m salt)) 1 = bigVal (pssEncode m salt) := by
    rw [powMod, powMod, if_pos rfl, Nat.mod_eq_of_lt (a := 1) (by decide +kernel), Nat.mul_one, Nat.mod_eq_of_lt hn]
  rw [rsaVerify, show (2 ^ 3072 - 1 : Nat).log2 = 3071 by decide +kernel, show (1 : Nat).log2 + 1 = 1 by decide +kernel]
  simp only [hp, show (3071 + 7) / 8 = 384 from rfl, ← hl, bigBytes_bigVal _ hb, pssVerify_pssEncode m salt h]
  rw [hl, decide_eq_true hn, decide_eq_true hv]
  rfl

theorem nats_ofNats (b : List Nat) (h : ∀ x ∈ b, x < 256) : nats (ofNats b) = b := by
  induction b with
  | nil => rfl
  | cons x b ih =>
    rw [ofNats, List.map_cons, nats, List.map_cons, BitVec.toNat_ofNat, Nat.mod_eq_of_lt (h x (.head _))]
    exact congrArg _ (ih fun y hy => h y (.tail _ hy))
end Sys2Proof
end

