-- ==== Sys2Proof/Laws/Sequencers.lean ====
section
/-!
SUPPORT. What the shared operations of a sequencer's step do: the fetch and the trace leave the engines and the stores as they are, and
an executing sequencer's step is its instruction's effect followed by the advance of PC.
-/
namespace Sys2Proof.Machine

open Sys2Proof

theorem setSeq_seqOf (s : State) (n : Nat) (q : Seq) (m : Nat) : (s.setSeq n q).seqOf m = if m = n then q else s.seqOf m := by
  unfold State.setSeq State.seqOf
  simp only
  rw [tabGet_set]

theorem seqOf_of {s t : State} (h : t.seq = s.seq) (m : Nat) : t.seqOf m = s.seqOf m := by unfold State.seqOf; rw [h]

/-- The engines and the local stores are as they were. -/
structure Same (s u : State) : Prop where
  seq : u.seq = s.seq
  als : u.als = s.als
  arr : u.arr = s.arr
  vec : u.vec = s.vec
  xch : u.xch = s.xch
  dma : u.dma = s.dma

theorem same_of {s u : State} (k : Keeps [.regs, .mem, .mmu, .outbox, .bxl, .isl, .draws, .bridge] s u) : Same s u :=
  ⟨k.frame .seq (by decide), k.frame .als (by decide), k.frame .arr (by decide), k.frame .vec (by decide), k.frame .xch (by decide), k.frame .dma (by decide)⟩

theorem seqRead_same {s n va len u a} (h : seqRead s n va len = (u, a)) : Same s u :=
  same_of (keepsP_eq (seqRead_keeps (by decide) keeps_refl) h)

theorem takeAnswers_same (s : State) (a : Nat) : Same s (takeAnswers s a) :=
  same_of (takeAnswers_keeps (by decide) keeps_refl)

/-- A trace record changes nothing of the engines but its sequencer's note that records were lost. -/
structure Traced (n : Nat) (s u : State) : Prop where
  own : u.seqOf n = { s.seqOf n with traceLost := (u.seqOf n).traceLost }
  other : ∀ m, m ≠ n → u.seqOf m = s.seqOf m
  als : u.als = s.als
  arr : u.arr = s.arr
  vec : u.vec = s.vec
  xch : u.xch = s.xch
  dma : u.dma = s.dma

theorem traced_refl {n s} : Traced n s s := ⟨rfl, fun _ _ => rfl, rfl, rfl, rfl, rfl, rfl⟩
theorem traced_trans {n a b c} (h : Traced n a b) (k : Traced n b c) : Traced n a c where
  own := by rw [k.own, h.own]
  other m hm := (k.other m hm).trans (h.other m hm)
  als := k.als.trans h.als
  arr := k.arr.trans h.arr
  vec := k.vec.trans h.vec
  xch := k.xch.trans h.xch
  dma := k.dma.trans h.dma
theorem traced_same {n s u} (h : Same s u) : Traced n s u :=
  ⟨by rw [seqOf_of h.seq], fun m _ => seqOf_of h.seq m, h.als, h.arr, h.vec, h.xch, h.dma⟩
theorem traced_setSeq {n s u} (q : Seq) (h : Same s u) (hq : q = { s.seqOf n with traceLost := q.traceLost }) : Traced n s (u.setSeq n q) := by
  refine ⟨?_, fun m hm => ?_, h.als, h.arr, h.vec, h.xch, h.dma⟩
  · rw [setSeq_seqOf, if_pos rfl]; exact hq
  · rw [setSeq_seqOf, if_neg hm, seqOf_of h.seq]

theorem setSeqReg_same (s : State) (n o v : Nat) : Same s (s.setSeqReg n o v) :=
  same_of (State.setSeqReg_keeps (by decide) keeps_refl)
theorem ringWrite_same (s : State) (die pa : Nat) (data : List Byte) : Same s (ringWrite s die pa data) :=
  same_of (ringWrite_keeps (by decide) keeps_refl)

theorem putTrace_traced (s : State) (n : Nat) (k : TraceKind) (w pc : Nat) : Traced n s (putTrace s n k w pc) := by
  unfold putTrace
  split
  · exact traced_setSeq _ (setSeqReg_same ..) rfl
  · extract_lets q i base tail r u
    have h1 : Same s u := ringWrite_same ..
    have h2 : Traced n s ((u.setSeqReg n 0x1C ((tail + 1) % 2 ^ 32)).setSeq n { q with traceLost := false }) := by
      refine traced_setSeq _ ?_ rfl
      have h3 := setSeqReg_same u n 0x1C ((tail + 1) % 2 ^ 32)
      exact ⟨h3.seq.trans h1.seq, h3.als.trans h1.als, h3.arr.trans h1.arr, h3.vec.trans h1.vec, h3.xch.trans h1.xch, h3.dma.trans h1.dma⟩
    exact ⟨h2.own, h2.other, h2.als, h2.arr, h2.vec, h2.xch, h2.dma⟩

theorem traced_draws (s : State) (n d : Nat) : Traced n s { s with draws := d } := ⟨rfl, fun _ _ => rfl, rfl, rfl, rfl, rfl, rfl⟩
theorem traced_setIsl {n i : Nat} {s u : State} {v : Island} (h : Traced n s u) : Traced n s (u.setIsl i v) :=
  ⟨h.own, h.other, h.als, h.arr, h.vec, h.xch, h.dma⟩

theorem traceIf_traced (s : State) (n op : Nat) (k : TraceKind) (w pc : Nat) : Traced n s (traceIf s n op k w pc) := by
  unfold traceIf
  split
  · unfold trace
    refine traced_trans ?_ (putTrace_traced ..)
    split
    · exact traced_setIsl (traced_trans (traced_draws s n (s.draws + 1)) (putTrace_traced ..))
    · exact traced_refl
  · exact traced_refl

/-- A fetch that succeeds read the word at LIST + 4 × PC, and leaves the sequencer in RUN (R233). -/
theorem fetched {s : State} {n : SeqId} {w : Nat} (h : (seqFetch s n).map (·.2) = some w) :
    ∃ u b p, seqRead s n (((s.seqOf n).list + 4 * (s.seqOf n).pc) % 2 ^ 64) 4 = (u, .ok b p) ∧ p.any id = false ∧ w = leNat b ∧
      seqNow s n = u.setSeq n { s.seqOf n with state := .run } := by
  have hn : seqNow s n = ((seqFetch s n).map (·.1)).getD s := rfl
  unfold seqFetch at h hn
  split at h
  next u b p e =>
    rw [e] at hn
    split at h
    · simp at h
    next hp =>
      refine ⟨u, b, p, e, by simpa using hp, by simpa using h.symm, ?_⟩
      rw [hn]; simp [hp]
  · simp at h

theorem now_seqOf {s : State} {n : SeqId} {w : Nat} (h : (seqFetch s n).map (·.2) = some w) (m : Nat) :
    (seqNow s n).seqOf m = if m = n then { s.seqOf n with state := .run } else s.seqOf m := by
  obtain ⟨u, b, p, e, -, -, hn⟩ := fetched h
  rw [hn, setSeq_seqOf, seqOf_of (seqRead_same e).seq]

theorem now_rest {s : State} {n : SeqId} {w : Nat} (h : (seqFetch s n).map (·.2) = some w) :
    (seqNow s n).als = s.als ∧ (seqNow s n).arr = s.arr ∧ (seqNow s n).vec = s.vec ∧ (seqNow s n).xch = s.xch ∧ (seqNow s n).dma = s.dma := by
  obtain ⟨u, b, p, e, -, -, hn⟩ := fetched h
  have k := seqRead_same e
  rw [hn]
  exact ⟨k.als, k.arr, k.vec, k.xch, k.dma⟩

/-- A step of a sequencer that executes is the effect of its instruction, and the advance. -/
theorem step_runs {s : State} {n : SeqId} {op w : Nat} (f : State → Nat → SRes) (h : seqExecutes s n op w) :
    seqStep n op f s = seqAdvance s n (f (seqNow s n) w) := by
  obtain ⟨u, b, p, e, hp, hw, hn⟩ := fetched h.word
  unfold seqStep
  extract_lets q
  have h1 : ¬((decide (q.state ≠ .run) && decide (q.state ≠ .stall)) = true) := by
    have : q.state = .run ∨ q.state = .stall := h.runs
    rcases this with e | e <;> simp [e]
  rw [if_neg h1, if_neg (by simp [h.free]), h.engines]
  simp only
  have e' : seqRead s n ((q.list + 4 * q.pc) % 2 ^ 64) 4 = (u, .ok b p) := e
  rw [e']
  simp only
  rw [if_neg (by simp [hp]), ← hw, if_neg (by simp [h.legal]), if_neg (fun k => k h.opcode), if_neg (by simp [h.room]), hn]

theorem advance_next {s t : State} {n : SeqId} (hpc : (t.seqOf n).pc + 1 < 2 ^ 24) :
    seqAdvance s n (.next t) = .next ((takeAnswers t (agSeq n)).setSeq n { t.seqOf n with pc := (t.seqOf n).pc + 1 }) := by
  unfold seqAdvance
  simp only
  rw [seqOf_of (takeAnswers_same t (agSeq n)).seq, if_neg (by omega)]

end Sys2Proof.Machine
end

