-- ==== Sys2Proof/Laws/State.lean ====
section
/-!
SUPPORT. What each update of the state leaves as it was, field by field, and what reading an indexed part gives after a write of
it. No later proof unfolds a record update.
-/
namespace Sys2Proof.Machine

open Sys2Proof

/-! `rset` -/

@[simp] theorem State.rset_pending (s : State) (off : Nat) (v : Nat) : (s.rset off v).pending = s.pending := rfl
@[simp] theorem State.rset_gtime (s : State) (off : Nat) (v : Nat) : (s.rset off v).gtime = s.gtime := rfl
@[simp] theorem State.rset_hiCap (s : State) (off : Nat) (v : Nat) : (s.rset off v).hiCap = s.hiCap := rfl
@[simp] theorem State.rset_isl (s : State) (off : Nat) (v : Nat) : (s.rset off v).isl = s.isl := rfl
@[simp] theorem State.rset_mem (s : State) (off : Nat) (v : Nat) : (s.rset off v).mem = s.mem := rfl
@[simp] theorem State.rset_mmu (s : State) (off : Nat) (v : Nat) : (s.rset off v).mmu = s.mmu := rfl
@[simp] theorem State.rset_arr (s : State) (off : Nat) (v : Nat) : (s.rset off v).arr = s.arr := rfl
@[simp] theorem State.rset_vec (s : State) (off : Nat) (v : Nat) : (s.rset off v).vec = s.vec := rfl
@[simp] theorem State.rset_als (s : State) (off : Nat) (v : Nat) : (s.rset off v).als = s.als := rfl
@[simp] theorem State.rset_alsScrub (s : State) (off : Nat) (v : Nat) : (s.rset off v).alsScrub = s.alsScrub := rfl
@[simp] theorem State.rset_dss (s : State) (off : Nat) (v : Nat) : (s.rset off v).dss = s.dss := rfl
@[simp] theorem State.rset_dma (s : State) (off : Nat) (v : Nat) : (s.rset off v).dma = s.dma := rfl
@[simp] theorem State.rset_ctx (s : State) (off : Nat) (v : Nat) : (s.rset off v).ctx = s.ctx := rfl
@[simp] theorem State.rset_queues (s : State) (off : Nat) (v : Nat) : (s.rset off v).queues = s.queues := rfl
@[simp] theorem State.rset_holder (s : State) (off : Nat) (v : Nat) : (s.rset off v).holder = s.holder := rfl
@[simp] theorem State.rset_seq (s : State) (off : Nat) (v : Nat) : (s.rset off v).seq = s.seq := rfl
@[simp] theorem State.rset_outbox (s : State) (off : Nat) (v : Nat) : (s.rset off v).outbox = s.outbox := rfl
@[simp] theorem State.rset_draws (s : State) (off : Nat) (v : Nat) : (s.rset off v).draws = s.draws := rfl
@[simp] theorem State.rset_bxl (s : State) (off : Nat) (v : Nat) : (s.rset off v).bxl = s.bxl := rfl
@[simp] theorem State.rset_pwr (s : State) (off : Nat) (v : Nat) : (s.rset off v).pwr = s.pwr := rfl
@[simp] theorem State.rset_halted (s : State) (off : Nat) (v : Nat) : (s.rset off v).halted = s.halted := rfl
@[simp] theorem State.rset_life (s : State) (off : Nat) (v : Nat) : (s.rset off v).life = s.life := rfl
@[simp] theorem State.rset_link (s : State) (off : Nat) (v : Nat) : (s.rset off v).link = s.link := rfl
@[simp] theorem State.rset_port (s : State) (off : Nat) (v : Nat) : (s.rset off v).port = s.port := rfl
@[simp] theorem State.rset_rtr (s : State) (off : Nat) (v : Nat) : (s.rset off v).rtr = s.rtr := rfl
@[simp] theorem State.rset_xch (s : State) (off : Nat) (v : Nat) : (s.rset off v).xch = s.xch := rfl
@[simp] theorem State.rset_cat (s : State) (off : Nat) (v : Nat) : (s.rset off v).cat = s.cat := rfl
@[simp] theorem State.rset_nmu (s : State) (off : Nat) (v : Nat) : (s.rset off v).nmu = s.nmu := rfl
@[simp] theorem State.rset_pair (s : State) (off : Nat) (v : Nat) : (s.rset off v).pair = s.pair := rfl
@[simp] theorem State.rset_mgmt (s : State) (off : Nat) (v : Nat) : (s.rset off v).mgmt = s.mgmt := rfl
@[simp] theorem State.rset_pins (s : State) (off : Nat) (v : Nat) : (s.rset off v).pins = s.pins := rfl
@[simp] theorem State.rset_obs (s : State) (off : Nat) (v : Nat) : (s.rset off v).obs = s.obs := rfl
@[simp] theorem State.rset_bridge (s : State) (off : Nat) (v : Nat) : (s.rset off v).bridge = s.bridge := rfl
@[simp] theorem State.rset_flash (s : State) (off : Nat) (v : Nat) : (s.rset off v).flash = s.flash := rfl

/-! `setReg` -/

@[simp] theorem State.setReg_pending (s : State) (b : Block) (i : Nat) (po : Nat) (v : Nat) : (s.setReg b i po v).pending = s.pending := rfl
@[simp] theorem State.setReg_gtime (s : State) (b : Block) (i : Nat) (po : Nat) (v : Nat) : (s.setReg b i po v).gtime = s.gtime := rfl
@[simp] theorem State.setReg_hiCap (s : State) (b : Block) (i : Nat) (po : Nat) (v : Nat) : (s.setReg b i po v).hiCap = s.hiCap := rfl
@[simp] theorem State.setReg_isl (s : State) (b : Block) (i : Nat) (po : Nat) (v : Nat) : (s.setReg b i po v).isl = s.isl := rfl
@[simp] theorem State.setReg_mem (s : State) (b : Block) (i : Nat) (po : Nat) (v : Nat) : (s.setReg b i po v).mem = s.mem := rfl
@[simp] theorem State.setReg_mmu (s : State) (b : Block) (i : Nat) (po : Nat) (v : Nat) : (s.setReg b i po v).mmu = s.mmu := rfl
@[simp] theorem State.setReg_arr (s : State) (b : Block) (i : Nat) (po : Nat) (v : Nat) : (s.setReg b i po v).arr = s.arr := rfl
@[simp] theorem State.setReg_vec (s : State) (b : Block) (i : Nat) (po : Nat) (v : Nat) : (s.setReg b i po v).vec = s.vec := rfl
@[simp] theorem State.setReg_als (s : State) (b : Block) (i : Nat) (po : Nat) (v : Nat) : (s.setReg b i po v).als = s.als := rfl
@[simp] theorem State.setReg_alsScrub (s : State) (b : Block) (i : Nat) (po : Nat) (v : Nat) : (s.setReg b i po v).alsScrub = s.alsScrub := rfl
@[simp] theorem State.setReg_dss (s : State) (b : Block) (i : Nat) (po : Nat) (v : Nat) : (s.setReg b i po v).dss = s.dss := rfl
@[simp] theorem State.setReg_dma (s : State) (b : Block) (i : Nat) (po : Nat) (v : Nat) : (s.setReg b i po v).dma = s.dma := rfl
@[simp] theorem State.setReg_ctx (s : State) (b : Block) (i : Nat) (po : Nat) (v : Nat) : (s.setReg b i po v).ctx = s.ctx := rfl
@[simp] theorem State.setReg_queues (s : State) (b : Block) (i : Nat) (po : Nat) (v : Nat) : (s.setReg b i po v).queues = s.queues := rfl
@[simp] theorem State.setReg_holder (s : State) (b : Block) (i : Nat) (po : Nat) (v : Nat) : (s.setReg b i po v).holder = s.holder := rfl
@[simp] theorem State.setReg_seq (s : State) (b : Block) (i : Nat) (po : Nat) (v : Nat) : (s.setReg b i po v).seq = s.seq := rfl
@[simp] theorem State.setReg_outbox (s : State) (b : Block) (i : Nat) (po : Nat) (v : Nat) : (s.setReg b i po v).outbox = s.outbox := rfl
@[simp] theorem State.setReg_draws (s : State) (b : Block) (i : Nat) (po : Nat) (v : Nat) : (s.setReg b i po v).draws = s.draws := rfl
@[simp] theorem State.setReg_bxl (s : State) (b : Block) (i : Nat) (po : Nat) (v : Nat) : (s.setReg b i po v).bxl = s.bxl := rfl
@[simp] theorem State.setReg_pwr (s : State) (b : Block) (i : Nat) (po : Nat) (v : Nat) : (s.setReg b i po v).pwr = s.pwr := rfl
@[simp] theorem State.setReg_halted (s : State) (b : Block) (i : Nat) (po : Nat) (v : Nat) : (s.setReg b i po v).halted = s.halted := rfl
@[simp] theorem State.setReg_life (s : State) (b : Block) (i : Nat) (po : Nat) (v : Nat) : (s.setReg b i po v).life = s.life := rfl
@[simp] theorem State.setReg_link (s : State) (b : Block) (i : Nat) (po : Nat) (v : Nat) : (s.setReg b i po v).link = s.link := rfl
@[simp] theorem State.setReg_port (s : State) (b : Block) (i : Nat) (po : Nat) (v : Nat) : (s.setReg b i po v).port = s.port := rfl
@[simp] theorem State.setReg_rtr (s : State) (b : Block) (i : Nat) (po : Nat) (v : Nat) : (s.setReg b i po v).rtr = s.rtr := rfl
@[simp] theorem State.setReg_xch (s : State) (b : Block) (i : Nat) (po : Nat) (v : Nat) : (s.setReg b i po v).xch = s.xch := rfl
@[simp] theorem State.setReg_cat (s : State) (b : Block) (i : Nat) (po : Nat) (v : Nat) : (s.setReg b i po v).cat = s.cat := rfl
@[simp] theorem State.setReg_nmu (s : State) (b : Block) (i : Nat) (po : Nat) (v : Nat) : (s.setReg b i po v).nmu = s.nmu := rfl
@[simp] theorem State.setReg_pair (s : State) (b : Block) (i : Nat) (po : Nat) (v : Nat) : (s.setReg b i po v).pair = s.pair := rfl
@[simp] theorem State.setReg_mgmt (s : State) (b : Block) (i : Nat) (po : Nat) (v : Nat) : (s.setReg b i po v).mgmt = s.mgmt := rfl
@[simp] theorem State.setReg_pins (s : State) (b : Block) (i : Nat) (po : Nat) (v : Nat) : (s.setReg b i po v).pins = s.pins := rfl
@[simp] theorem State.setReg_obs (s : State) (b : Block) (i : Nat) (po : Nat) (v : Nat) : (s.setReg b i po v).obs = s.obs := rfl
@[simp] theorem State.setReg_bridge (s : State) (b : Block) (i : Nat) (po : Nat) (v : Nat) : (s.setReg b i po v).bridge = s.bridge := rfl
@[simp] theorem State.setReg_flash (s : State) (b : Block) (i : Nat) (po : Nat) (v : Nat) : (s.setReg b i po v).flash = s.flash := rfl

/-! `setField` -/

@[simp] theorem State.setField_pending (s : State) (b : Block) (i : Nat) (po : Nat) (lo : Nat) (w : Nat) (v : Nat) : (s.setField b i po lo w v).pending = s.pending := rfl
@[simp] theorem State.setField_gtime (s : State) (b : Block) (i : Nat) (po : Nat) (lo : Nat) (w : Nat) (v : Nat) : (s.setField b i po lo w v).gtime = s.gtime := rfl
@[simp] theorem State.setField_hiCap (s : State) (b : Block) (i : Nat) (po : Nat) (lo : Nat) (w : Nat) (v : Nat) : (s.setField b i po lo w v).hiCap = s.hiCap := rfl
@[simp] theorem State.setField_isl (s : State) (b : Block) (i : Nat) (po : Nat) (lo : Nat) (w : Nat) (v : Nat) : (s.setField b i po lo w v).isl = s.isl := rfl
@[simp] theorem State.setField_mem (s : State) (b : Block) (i : Nat) (po : Nat) (lo : Nat) (w : Nat) (v : Nat) : (s.setField b i po lo w v).mem = s.mem := rfl
@[simp] theorem State.setField_mmu (s : State) (b : Block) (i : Nat) (po : Nat) (lo : Nat) (w : Nat) (v : Nat) : (s.setField b i po lo w v).mmu = s.mmu := rfl
@[simp] theorem State.setField_arr (s : State) (b : Block) (i : Nat) (po : Nat) (lo : Nat) (w : Nat) (v : Nat) : (s.setField b i po lo w v).arr = s.arr := rfl
@[simp] theorem State.setField_vec (s : State) (b : Block) (i : Nat) (po : Nat) (lo : Nat) (w : Nat) (v : Nat) : (s.setField b i po lo w v).vec = s.vec := rfl
@[simp] theorem State.setField_als (s : State) (b : Block) (i : Nat) (po : Nat) (lo : Nat) (w : Nat) (v : Nat) : (s.setField b i po lo w v).als = s.als := rfl
@[simp] theorem State.setField_alsScrub (s : State) (b : Block) (i : Nat) (po : Nat) (lo : Nat) (w : Nat) (v : Nat) : (s.setField b i po lo w v).alsScrub = s.alsScrub := rfl
@[simp] theorem State.setField_dss (s : State) (b : Block) (i : Nat) (po : Nat) (lo : Nat) (w : Nat) (v : Nat) : (s.setField b i po lo w v).dss = s.dss := rfl
@[simp] theorem State.setField_dma (s : State) (b : Block) (i : Nat) (po : Nat) (lo : Nat) (w : Nat) (v : Nat) : (s.setField b i po lo w v).dma = s.dma := rfl
@[simp] theorem State.setField_ctx (s : State) (b : Block) (i : Nat) (po : Nat) (lo : Nat) (w : Nat) (v : Nat) : (s.setField b i po lo w v).ctx = s.ctx := rfl
@[simp] theorem State.setField_queues (s : State) (b : Block) (i : Nat) (po : Nat) (lo : Nat) (w : Nat) (v : Nat) : (s.setField b i po lo w v).queues = s.queues := rfl
@[simp] theorem State.setField_holder (s : State) (b : Block) (i : Nat) (po : Nat) (lo : Nat) (w : Nat) (v : Nat) : (s.setField b i po lo w v).holder = s.holder := rfl
@[simp] theorem State.setField_seq (s : State) (b : Block) (i : Nat) (po : Nat) (lo : Nat) (w : Nat) (v : Nat) : (s.setField b i po lo w v).seq = s.seq := rfl
@[simp] theorem State.setField_outbox (s : State) (b : Block) (i : Nat) (po : Nat) (lo : Nat) (w : Nat) (v : Nat) : (s.setField b i po lo w v).outbox = s.outbox := rfl
@[simp] theorem State.setField_draws (s : State) (b : Block) (i : Nat) (po : Nat) (lo : Nat) (w : Nat) (v : Nat) : (s.setField b i po lo w v).draws = s.draws := rfl
@[simp] theorem State.setField_bxl (s : State) (b : Block) (i : Nat) (po : Nat) (lo : Nat) (w : Nat) (v : Nat) : (s.setField b i po lo w v).bxl = s.bxl := rfl
@[simp] theorem State.setField_pwr (s : State) (b : Block) (i : Nat) (po : Nat) (lo : Nat) (w : Nat) (v : Nat) : (s.setField b i po lo w v).pwr = s.pwr := rfl
@[simp] theorem State.setField_halted (s : State) (b : Block) (i : Nat) (po : Nat) (lo : Nat) (w : Nat) (v : Nat) : (s.setField b i po lo w v).halted = s.halted := rfl
@[simp] theorem State.setField_life (s : State) (b : Block) (i : Nat) (po : Nat) (lo : Nat) (w : Nat) (v : Nat) : (s.setField b i po lo w v).life = s.life := rfl
@[simp] theorem State.setField_link (s : State) (b : Block) (i : Nat) (po : Nat) (lo : Nat) (w : Nat) (v : Nat) : (s.setField b i po lo w v).link = s.link := rfl
@[simp] theorem State.setField_port (s : State) (b : Block) (i : Nat) (po : Nat) (lo : Nat) (w : Nat) (v : Nat) : (s.setField b i po lo w v).port = s.port := rfl
@[simp] theorem State.setField_rtr (s : State) (b : Block) (i : Nat) (po : Nat) (lo : Nat) (w : Nat) (v : Nat) : (s.setField b i po lo w v).rtr = s.rtr := rfl
@[simp] theorem State.setField_xch (s : State) (b : Block) (i : Nat) (po : Nat) (lo : Nat) (w : Nat) (v : Nat) : (s.setField b i po lo w v).xch = s.xch := rfl
@[simp] theorem State.setField_cat (s : State) (b : Block) (i : Nat) (po : Nat) (lo : Nat) (w : Nat) (v : Nat) : (s.setField b i po lo w v).cat = s.cat := rfl
@[simp] theorem State.setField_nmu (s : State) (b : Block) (i : Nat) (po : Nat) (lo : Nat) (w : Nat) (v : Nat) : (s.setField b i po lo w v).nmu = s.nmu := rfl
@[simp] theorem State.setField_pair (s : State) (b : Block) (i : Nat) (po : Nat) (lo : Nat) (w : Nat) (v : Nat) : (s.setField b i po lo w v).pair = s.pair := rfl
@[simp] theorem State.setField_mgmt (s : State) (b : Block) (i : Nat) (po : Nat) (lo : Nat) (w : Nat) (v : Nat) : (s.setField b i po lo w v).mgmt = s.mgmt := rfl
@[simp] theorem State.setField_pins (s : State) (b : Block) (i : Nat) (po : Nat) (lo : Nat) (w : Nat) (v : Nat) : (s.setField b i po lo w v).pins = s.pins := rfl
@[simp] theorem State.setField_obs (s : State) (b : Block) (i : Nat) (po : Nat) (lo : Nat) (w : Nat) (v : Nat) : (s.setField b i po lo w v).obs = s.obs := rfl
@[simp] theorem State.setField_bridge (s : State) (b : Block) (i : Nat) (po : Nat) (lo : Nat) (w : Nat) (v : Nat) : (s.setField b i po lo w v).bridge = s.bridge := rfl
@[simp] theorem State.setField_flash (s : State) (b : Block) (i : Nat) (po : Nat) (lo : Nat) (w : Nat) (v : Nat) : (s.setField b i po lo w v).flash = s.flash := rfl

/-! `bump` -/

@[simp] theorem State.bump_pending (s : State) (b : Block) (i : Nat) (po : Nat) (n : Nat) : (s.bump b i po n).pending = s.pending := rfl
@[simp] theorem State.bump_gtime (s : State) (b : Block) (i : Nat) (po : Nat) (n : Nat) : (s.bump b i po n).gtime = s.gtime := rfl
@[simp] theorem State.bump_hiCap (s : State) (b : Block) (i : Nat) (po : Nat) (n : Nat) : (s.bump b i po n).hiCap = s.hiCap := rfl
@[simp] theorem State.bump_isl (s : State) (b : Block) (i : Nat) (po : Nat) (n : Nat) : (s.bump b i po n).isl = s.isl := rfl
@[simp] theorem State.bump_mem (s : State) (b : Block) (i : Nat) (po : Nat) (n : Nat) : (s.bump b i po n).mem = s.mem := rfl
@[simp] theorem State.bump_mmu (s : State) (b : Block) (i : Nat) (po : Nat) (n : Nat) : (s.bump b i po n).mmu = s.mmu := rfl
@[simp] theorem State.bump_arr (s : State) (b : Block) (i : Nat) (po : Nat) (n : Nat) : (s.bump b i po n).arr = s.arr := rfl
@[simp] theorem State.bump_vec (s : State) (b : Block) (i : Nat) (po : Nat) (n : Nat) : (s.bump b i po n).vec = s.vec := rfl
@[simp] theorem State.bump_als (s : State) (b : Block) (i : Nat) (po : Nat) (n : Nat) : (s.bump b i po n).als = s.als := rfl
@[simp] theorem State.bump_alsScrub (s : State) (b : Block) (i : Nat) (po : Nat) (n : Nat) : (s.bump b i po n).alsScrub = s.alsScrub := rfl
@[simp] theorem State.bump_dss (s : State) (b : Block) (i : Nat) (po : Nat) (n : Nat) : (s.bump b i po n).dss = s.dss := rfl
@[simp] theorem State.bump_dma (s : State) (b : Block) (i : Nat) (po : Nat) (n : Nat) : (s.bump b i po n).dma = s.dma := rfl
@[simp] theorem State.bump_ctx (s : State) (b : Block) (i : Nat) (po : Nat) (n : Nat) : (s.bump b i po n).ctx = s.ctx := rfl
@[simp] theorem State.bump_queues (s : State) (b : Block) (i : Nat) (po : Nat) (n : Nat) : (s.bump b i po n).queues = s.queues := rfl
@[simp] theorem State.bump_holder (s : State) (b : Block) (i : Nat) (po : Nat) (n : Nat) : (s.bump b i po n).holder = s.holder := rfl
@[simp] theorem State.bump_seq (s : State) (b : Block) (i : Nat) (po : Nat) (n : Nat) : (s.bump b i po n).seq = s.seq := rfl
@[simp] theorem State.bump_outbox (s : State) (b : Block) (i : Nat) (po : Nat) (n : Nat) : (s.bump b i po n).outbox = s.outbox := rfl
@[simp] theorem State.bump_draws (s : State) (b : Block) (i : Nat) (po : Nat) (n : Nat) : (s.bump b i po n).draws = s.draws := rfl
@[simp] theorem State.bump_bxl (s : State) (b : Block) (i : Nat) (po : Nat) (n : Nat) : (s.bump b i po n).bxl = s.bxl := rfl
@[simp] theorem State.bump_pwr (s : State) (b : Block) (i : Nat) (po : Nat) (n : Nat) : (s.bump b i po n).pwr = s.pwr := rfl
@[simp] theorem State.bump_halted (s : State) (b : Block) (i : Nat) (po : Nat) (n : Nat) : (s.bump b i po n).halted = s.halted := rfl
@[simp] theorem State.bump_life (s : State) (b : Block) (i : Nat) (po : Nat) (n : Nat) : (s.bump b i po n).life = s.life := rfl
@[simp] theorem State.bump_link (s : State) (b : Block) (i : Nat) (po : Nat) (n : Nat) : (s.bump b i po n).link = s.link := rfl
@[simp] theorem State.bump_port (s : State) (b : Block) (i : Nat) (po : Nat) (n : Nat) : (s.bump b i po n).port = s.port := rfl
@[simp] theorem State.bump_rtr (s : State) (b : Block) (i : Nat) (po : Nat) (n : Nat) : (s.bump b i po n).rtr = s.rtr := rfl
@[simp] theorem State.bump_xch (s : State) (b : Block) (i : Nat) (po : Nat) (n : Nat) : (s.bump b i po n).xch = s.xch := rfl
@[simp] theorem State.bump_cat (s : State) (b : Block) (i : Nat) (po : Nat) (n : Nat) : (s.bump b i po n).cat = s.cat := rfl
@[simp] theorem State.bump_nmu (s : State) (b : Block) (i : Nat) (po : Nat) (n : Nat) : (s.bump b i po n).nmu = s.nmu := rfl
@[simp] theorem State.bump_pair (s : State) (b : Block) (i : Nat) (po : Nat) (n : Nat) : (s.bump b i po n).pair = s.pair := rfl
@[simp] theorem State.bump_mgmt (s : State) (b : Block) (i : Nat) (po : Nat) (n : Nat) : (s.bump b i po n).mgmt = s.mgmt := rfl
@[simp] theorem State.bump_pins (s : State) (b : Block) (i : Nat) (po : Nat) (n : Nat) : (s.bump b i po n).pins = s.pins := rfl
@[simp] theorem State.bump_obs (s : State) (b : Block) (i : Nat) (po : Nat) (n : Nat) : (s.bump b i po n).obs = s.obs := rfl
@[simp] theorem State.bump_bridge (s : State) (b : Block) (i : Nat) (po : Nat) (n : Nat) : (s.bump b i po n).bridge = s.bridge := rfl
@[simp] theorem State.bump_flash (s : State) (b : Block) (i : Nat) (po : Nat) (n : Nat) : (s.bump b i po n).flash = s.flash := rfl

/-! `send` -/

@[simp] theorem State.send_pending (s : State) (m : Msg) : (s.send m).pending = s.pending := rfl
@[simp] theorem State.send_gtime (s : State) (m : Msg) : (s.send m).gtime = s.gtime := rfl
@[simp] theorem State.send_regs (s : State) (m : Msg) : (s.send m).regs = s.regs := rfl
@[simp] theorem State.send_hiCap (s : State) (m : Msg) : (s.send m).hiCap = s.hiCap := rfl
@[simp] theorem State.send_isl (s : State) (m : Msg) : (s.send m).isl = s.isl := rfl
@[simp] theorem State.send_mem (s : State) (m : Msg) : (s.send m).mem = s.mem := rfl
@[simp] theorem State.send_mmu (s : State) (m : Msg) : (s.send m).mmu = s.mmu := rfl
@[simp] theorem State.send_arr (s : State) (m : Msg) : (s.send m).arr = s.arr := rfl
@[simp] theorem State.send_vec (s : State) (m : Msg) : (s.send m).vec = s.vec := rfl
@[simp] theorem State.send_als (s : State) (m : Msg) : (s.send m).als = s.als := rfl
@[simp] theorem State.send_alsScrub (s : State) (m : Msg) : (s.send m).alsScrub = s.alsScrub := rfl
@[simp] theorem State.send_dss (s : State) (m : Msg) : (s.send m).dss = s.dss := rfl
@[simp] theorem State.send_dma (s : State) (m : Msg) : (s.send m).dma = s.dma := rfl
@[simp] theorem State.send_ctx (s : State) (m : Msg) : (s.send m).ctx = s.ctx := rfl
@[simp] theorem State.send_queues (s : State) (m : Msg) : (s.send m).queues = s.queues := rfl
@[simp] theorem State.send_holder (s : State) (m : Msg) : (s.send m).holder = s.holder := rfl
@[simp] theorem State.send_seq (s : State) (m : Msg) : (s.send m).seq = s.seq := rfl
@[simp] theorem State.send_draws (s : State) (m : Msg) : (s.send m).draws = s.draws := rfl
@[simp] theorem State.send_bxl (s : State) (m : Msg) : (s.send m).bxl = s.bxl := rfl
@[simp] theorem State.send_pwr (s : State) (m : Msg) : (s.send m).pwr = s.pwr := rfl
@[simp] theorem State.send_halted (s : State) (m : Msg) : (s.send m).halted = s.halted := rfl
@[simp] theorem State.send_life (s : State) (m : Msg) : (s.send m).life = s.life := rfl
@[simp] theorem State.send_link (s : State) (m : Msg) : (s.send m).link = s.link := rfl
@[simp] theorem State.send_port (s : State) (m : Msg) : (s.send m).port = s.port := rfl
@[simp] theorem State.send_rtr (s : State) (m : Msg) : (s.send m).rtr = s.rtr := rfl
@[simp] theorem State.send_xch (s : State) (m : Msg) : (s.send m).xch = s.xch := rfl
@[simp] theorem State.send_cat (s : State) (m : Msg) : (s.send m).cat = s.cat := rfl
@[simp] theorem State.send_nmu (s : State) (m : Msg) : (s.send m).nmu = s.nmu := rfl
@[simp] theorem State.send_pair (s : State) (m : Msg) : (s.send m).pair = s.pair := rfl
@[simp] theorem State.send_mgmt (s : State) (m : Msg) : (s.send m).mgmt = s.mgmt := rfl
@[simp] theorem State.send_pins (s : State) (m : Msg) : (s.send m).pins = s.pins := rfl
@[simp] theorem State.send_obs (s : State) (m : Msg) : (s.send m).obs = s.obs := rfl
@[simp] theorem State.send_bridge (s : State) (m : Msg) : (s.send m).bridge = s.bridge := rfl
@[simp] theorem State.send_flash (s : State) (m : Msg) : (s.send m).flash = s.flash := rfl

/-! `setIsl` -/

@[simp] theorem State.setIsl_pending (s : State) (i : Nat) (v : Island) : (s.setIsl i v).pending = s.pending := rfl
@[simp] theorem State.setIsl_gtime (s : State) (i : Nat) (v : Island) : (s.setIsl i v).gtime = s.gtime := rfl
@[simp] theorem State.setIsl_regs (s : State) (i : Nat) (v : Island) : (s.setIsl i v).regs = s.regs := rfl
@[simp] theorem State.setIsl_hiCap (s : State) (i : Nat) (v : Island) : (s.setIsl i v).hiCap = s.hiCap := rfl
@[simp] theorem State.setIsl_mem (s : State) (i : Nat) (v : Island) : (s.setIsl i v).mem = s.mem := rfl
@[simp] theorem State.setIsl_mmu (s : State) (i : Nat) (v : Island) : (s.setIsl i v).mmu = s.mmu := rfl
@[simp] theorem State.setIsl_arr (s : State) (i : Nat) (v : Island) : (s.setIsl i v).arr = s.arr := rfl
@[simp] theorem State.setIsl_vec (s : State) (i : Nat) (v : Island) : (s.setIsl i v).vec = s.vec := rfl
@[simp] theorem State.setIsl_als (s : State) (i : Nat) (v : Island) : (s.setIsl i v).als = s.als := rfl
@[simp] theorem State.setIsl_alsScrub (s : State) (i : Nat) (v : Island) : (s.setIsl i v).alsScrub = s.alsScrub := rfl
@[simp] theorem State.setIsl_dss (s : State) (i : Nat) (v : Island) : (s.setIsl i v).dss = s.dss := rfl
@[simp] theorem State.setIsl_dma (s : State) (i : Nat) (v : Island) : (s.setIsl i v).dma = s.dma := rfl
@[simp] theorem State.setIsl_ctx (s : State) (i : Nat) (v : Island) : (s.setIsl i v).ctx = s.ctx := rfl
@[simp] theorem State.setIsl_queues (s : State) (i : Nat) (v : Island) : (s.setIsl i v).queues = s.queues := rfl
@[simp] theorem State.setIsl_holder (s : State) (i : Nat) (v : Island) : (s.setIsl i v).holder = s.holder := rfl
@[simp] theorem State.setIsl_seq (s : State) (i : Nat) (v : Island) : (s.setIsl i v).seq = s.seq := rfl
@[simp] theorem State.setIsl_outbox (s : State) (i : Nat) (v : Island) : (s.setIsl i v).outbox = s.outbox := rfl
@[simp] theorem State.setIsl_draws (s : State) (i : Nat) (v : Island) : (s.setIsl i v).draws = s.draws := rfl
@[simp] theorem State.setIsl_bxl (s : State) (i : Nat) (v : Island) : (s.setIsl i v).bxl = s.bxl := rfl
@[simp] theorem State.setIsl_pwr (s : State) (i : Nat) (v : Island) : (s.setIsl i v).pwr = s.pwr := rfl
@[simp] theorem State.setIsl_halted (s : State) (i : Nat) (v : Island) : (s.setIsl i v).halted = s.halted := rfl
@[simp] theorem State.setIsl_life (s : State) (i : Nat) (v : Island) : (s.setIsl i v).life = s.life := rfl
@[simp] theorem State.setIsl_link (s : State) (i : Nat) (v : Island) : (s.setIsl i v).link = s.link := rfl
@[simp] theorem State.setIsl_port (s : State) (i : Nat) (v : Island) : (s.setIsl i v).port = s.port := rfl
@[simp] theorem State.setIsl_rtr (s : State) (i : Nat) (v : Island) : (s.setIsl i v).rtr = s.rtr := rfl
@[simp] theorem State.setIsl_xch (s : State) (i : Nat) (v : Island) : (s.setIsl i v).xch = s.xch := rfl
@[simp] theorem State.setIsl_cat (s : State) (i : Nat) (v : Island) : (s.setIsl i v).cat = s.cat := rfl
@[simp] theorem State.setIsl_nmu (s : State) (i : Nat) (v : Island) : (s.setIsl i v).nmu = s.nmu := rfl
@[simp] theorem State.setIsl_pair (s : State) (i : Nat) (v : Island) : (s.setIsl i v).pair = s.pair := rfl
@[simp] theorem State.setIsl_mgmt (s : State) (i : Nat) (v : Island) : (s.setIsl i v).mgmt = s.mgmt := rfl
@[simp] theorem State.setIsl_pins (s : State) (i : Nat) (v : Island) : (s.setIsl i v).pins = s.pins := rfl
@[simp] theorem State.setIsl_obs (s : State) (i : Nat) (v : Island) : (s.setIsl i v).obs = s.obs := rfl
@[simp] theorem State.setIsl_bridge (s : State) (i : Nat) (v : Island) : (s.setIsl i v).bridge = s.bridge := rfl
@[simp] theorem State.setIsl_flash (s : State) (i : Nat) (v : Island) : (s.setIsl i v).flash = s.flash := rfl

/-! `setArr` -/

@[simp] theorem State.setArr_pending (s : State) (n : Nat) (v : Arr) : (s.setArr n v).pending = s.pending := rfl
@[simp] theorem State.setArr_gtime (s : State) (n : Nat) (v : Arr) : (s.setArr n v).gtime = s.gtime := rfl
@[simp] theorem State.setArr_regs (s : State) (n : Nat) (v : Arr) : (s.setArr n v).regs = s.regs := rfl
@[simp] theorem State.setArr_hiCap (s : State) (n : Nat) (v : Arr) : (s.setArr n v).hiCap = s.hiCap := rfl
@[simp] theorem State.setArr_isl (s : State) (n : Nat) (v : Arr) : (s.setArr n v).isl = s.isl := rfl
@[simp] theorem State.setArr_mem (s : State) (n : Nat) (v : Arr) : (s.setArr n v).mem = s.mem := rfl
@[simp] theorem State.setArr_mmu (s : State) (n : Nat) (v : Arr) : (s.setArr n v).mmu = s.mmu := rfl
@[simp] theorem State.setArr_vec (s : State) (n : Nat) (v : Arr) : (s.setArr n v).vec = s.vec := rfl
@[simp] theorem State.setArr_als (s : State) (n : Nat) (v : Arr) : (s.setArr n v).als = s.als := rfl
@[simp] theorem State.setArr_alsScrub (s : State) (n : Nat) (v : Arr) : (s.setArr n v).alsScrub = s.alsScrub := rfl
@[simp] theorem State.setArr_dss (s : State) (n : Nat) (v : Arr) : (s.setArr n v).dss = s.dss := rfl
@[simp] theorem State.setArr_dma (s : State) (n : Nat) (v : Arr) : (s.setArr n v).dma = s.dma := rfl
@[simp] theorem State.setArr_ctx (s : State) (n : Nat) (v : Arr) : (s.setArr n v).ctx = s.ctx := rfl
@[simp] theorem State.setArr_queues (s : State) (n : Nat) (v : Arr) : (s.setArr n v).queues = s.queues := rfl
@[simp] theorem State.setArr_holder (s : State) (n : Nat) (v : Arr) : (s.setArr n v).holder = s.holder := rfl
@[simp] theorem State.setArr_seq (s : State) (n : Nat) (v : Arr) : (s.setArr n v).seq = s.seq := rfl
@[simp] theorem State.setArr_outbox (s : State) (n : Nat) (v : Arr) : (s.setArr n v).outbox = s.outbox := rfl
@[simp] theorem State.setArr_draws (s : State) (n : Nat) (v : Arr) : (s.setArr n v).draws = s.draws := rfl
@[simp] theorem State.setArr_bxl (s : State) (n : Nat) (v : Arr) : (s.setArr n v).bxl = s.bxl := rfl
@[simp] theorem State.setArr_pwr (s : State) (n : Nat) (v : Arr) : (s.setArr n v).pwr = s.pwr := rfl
@[simp] theorem State.setArr_halted (s : State) (n : Nat) (v : Arr) : (s.setArr n v).halted = s.halted := rfl
@[simp] theorem State.setArr_life (s : State) (n : Nat) (v : Arr) : (s.setArr n v).life = s.life := rfl
@[simp] theorem State.setArr_link (s : State) (n : Nat) (v : Arr) : (s.setArr n v).link = s.link := rfl
@[simp] theorem State.setArr_port (s : State) (n : Nat) (v : Arr) : (s.setArr n v).port = s.port := rfl
@[simp] theorem State.setArr_rtr (s : State) (n : Nat) (v : Arr) : (s.setArr n v).rtr = s.rtr := rfl
@[simp] theorem State.setArr_xch (s : State) (n : Nat) (v : Arr) : (s.setArr n v).xch = s.xch := rfl
@[simp] theorem State.setArr_cat (s : State) (n : Nat) (v : Arr) : (s.setArr n v).cat = s.cat := rfl
@[simp] theorem State.setArr_nmu (s : State) (n : Nat) (v : Arr) : (s.setArr n v).nmu = s.nmu := rfl
@[simp] theorem State.setArr_pair (s : State) (n : Nat) (v : Arr) : (s.setArr n v).pair = s.pair := rfl
@[simp] theorem State.setArr_mgmt (s : State) (n : Nat) (v : Arr) : (s.setArr n v).mgmt = s.mgmt := rfl
@[simp] theorem State.setArr_pins (s : State) (n : Nat) (v : Arr) : (s.setArr n v).pins = s.pins := rfl
@[simp] theorem State.setArr_obs (s : State) (n : Nat) (v : Arr) : (s.setArr n v).obs = s.obs := rfl
@[simp] theorem State.setArr_bridge (s : State) (n : Nat) (v : Arr) : (s.setArr n v).bridge = s.bridge := rfl
@[simp] theorem State.setArr_flash (s : State) (n : Nat) (v : Arr) : (s.setArr n v).flash = s.flash := rfl

/-! `setVec` -/

@[simp] theorem State.setVec_pending (s : State) (n : Nat) (v : VecEng) : (s.setVec n v).pending = s.pending := rfl
@[simp] theorem State.setVec_gtime (s : State) (n : Nat) (v : VecEng) : (s.setVec n v).gtime = s.gtime := rfl
@[simp] theorem State.setVec_regs (s : State) (n : Nat) (v : VecEng) : (s.setVec n v).regs = s.regs := rfl
@[simp] theorem State.setVec_hiCap (s : State) (n : Nat) (v : VecEng) : (s.setVec n v).hiCap = s.hiCap := rfl
@[simp] theorem State.setVec_isl (s : State) (n : Nat) (v : VecEng) : (s.setVec n v).isl = s.isl := rfl
@[simp] theorem State.setVec_mem (s : State) (n : Nat) (v : VecEng) : (s.setVec n v).mem = s.mem := rfl
@[simp] theorem State.setVec_mmu (s : State) (n : Nat) (v : VecEng) : (s.setVec n v).mmu = s.mmu := rfl
@[simp] theorem State.setVec_arr (s : State) (n : Nat) (v : VecEng) : (s.setVec n v).arr = s.arr := rfl
@[simp] theorem State.setVec_als (s : State) (n : Nat) (v : VecEng) : (s.setVec n v).als = s.als := rfl
@[simp] theorem State.setVec_alsScrub (s : State) (n : Nat) (v : VecEng) : (s.setVec n v).alsScrub = s.alsScrub := rfl
@[simp] theorem State.setVec_dss (s : State) (n : Nat) (v : VecEng) : (s.setVec n v).dss = s.dss := rfl
@[simp] theorem State.setVec_dma (s : State) (n : Nat) (v : VecEng) : (s.setVec n v).dma = s.dma := rfl
@[simp] theorem State.setVec_ctx (s : State) (n : Nat) (v : VecEng) : (s.setVec n v).ctx = s.ctx := rfl
@[simp] theorem State.setVec_queues (s : State) (n : Nat) (v : VecEng) : (s.setVec n v).queues = s.queues := rfl
@[simp] theorem State.setVec_holder (s : State) (n : Nat) (v : VecEng) : (s.setVec n v).holder = s.holder := rfl
@[simp] theorem State.setVec_seq (s : State) (n : Nat) (v : VecEng) : (s.setVec n v).seq = s.seq := rfl
@[simp] theorem State.setVec_outbox (s : State) (n : Nat) (v : VecEng) : (s.setVec n v).outbox = s.outbox := rfl
@[simp] theorem State.setVec_draws (s : State) (n : Nat) (v : VecEng) : (s.setVec n v).draws = s.draws := rfl
@[simp] theorem State.setVec_bxl (s : State) (n : Nat) (v : VecEng) : (s.setVec n v).bxl = s.bxl := rfl
@[simp] theorem State.setVec_pwr (s : State) (n : Nat) (v : VecEng) : (s.setVec n v).pwr = s.pwr := rfl
@[simp] theorem State.setVec_halted (s : State) (n : Nat) (v : VecEng) : (s.setVec n v).halted = s.halted := rfl
@[simp] theorem State.setVec_life (s : State) (n : Nat) (v : VecEng) : (s.setVec n v).life = s.life := rfl
@[simp] theorem State.setVec_link (s : State) (n : Nat) (v : VecEng) : (s.setVec n v).link = s.link := rfl
@[simp] theorem State.setVec_port (s : State) (n : Nat) (v : VecEng) : (s.setVec n v).port = s.port := rfl
@[simp] theorem State.setVec_rtr (s : State) (n : Nat) (v : VecEng) : (s.setVec n v).rtr = s.rtr := rfl
@[simp] theorem State.setVec_xch (s : State) (n : Nat) (v : VecEng) : (s.setVec n v).xch = s.xch := rfl
@[simp] theorem State.setVec_cat (s : State) (n : Nat) (v : VecEng) : (s.setVec n v).cat = s.cat := rfl
@[simp] theorem State.setVec_nmu (s : State) (n : Nat) (v : VecEng) : (s.setVec n v).nmu = s.nmu := rfl
@[simp] theorem State.setVec_pair (s : State) (n : Nat) (v : VecEng) : (s.setVec n v).pair = s.pair := rfl
@[simp] theorem State.setVec_mgmt (s : State) (n : Nat) (v : VecEng) : (s.setVec n v).mgmt = s.mgmt := rfl
@[simp] theorem State.setVec_pins (s : State) (n : Nat) (v : VecEng) : (s.setVec n v).pins = s.pins := rfl
@[simp] theorem State.setVec_obs (s : State) (n : Nat) (v : VecEng) : (s.setVec n v).obs = s.obs := rfl
@[simp] theorem State.setVec_bridge (s : State) (n : Nat) (v : VecEng) : (s.setVec n v).bridge = s.bridge := rfl
@[simp] theorem State.setVec_flash (s : State) (n : Nat) (v : VecEng) : (s.setVec n v).flash = s.flash := rfl

/-! `setAls` -/

@[simp] theorem State.setAls_pending (s : State) (n : Nat) (v : Store) : (s.setAls n v).pending = s.pending := rfl
@[simp] theorem State.setAls_gtime (s : State) (n : Nat) (v : Store) : (s.setAls n v).gtime = s.gtime := rfl
@[simp] theorem State.setAls_regs (s : State) (n : Nat) (v : Store) : (s.setAls n v).regs = s.regs := rfl
@[simp] theorem State.setAls_hiCap (s : State) (n : Nat) (v : Store) : (s.setAls n v).hiCap = s.hiCap := rfl
@[simp] theorem State.setAls_isl (s : State) (n : Nat) (v : Store) : (s.setAls n v).isl = s.isl := rfl
@[simp] theorem State.setAls_mem (s : State) (n : Nat) (v : Store) : (s.setAls n v).mem = s.mem := rfl
@[simp] theorem State.setAls_mmu (s : State) (n : Nat) (v : Store) : (s.setAls n v).mmu = s.mmu := rfl
@[simp] theorem State.setAls_arr (s : State) (n : Nat) (v : Store) : (s.setAls n v).arr = s.arr := rfl
@[simp] theorem State.setAls_vec (s : State) (n : Nat) (v : Store) : (s.setAls n v).vec = s.vec := rfl
@[simp] theorem State.setAls_alsScrub (s : State) (n : Nat) (v : Store) : (s.setAls n v).alsScrub = s.alsScrub := rfl
@[simp] theorem State.setAls_dss (s : State) (n : Nat) (v : Store) : (s.setAls n v).dss = s.dss := rfl
@[simp] theorem State.setAls_dma (s : State) (n : Nat) (v : Store) : (s.setAls n v).dma = s.dma := rfl
@[simp] theorem State.setAls_ctx (s : State) (n : Nat) (v : Store) : (s.setAls n v).ctx = s.ctx := rfl
@[simp] theorem State.setAls_queues (s : State) (n : Nat) (v : Store) : (s.setAls n v).queues = s.queues := rfl
@[simp] theorem State.setAls_holder (s : State) (n : Nat) (v : Store) : (s.setAls n v).holder = s.holder := rfl
@[simp] theorem State.setAls_seq (s : State) (n : Nat) (v : Store) : (s.setAls n v).seq = s.seq := rfl
@[simp] theorem State.setAls_outbox (s : State) (n : Nat) (v : Store) : (s.setAls n v).outbox = s.outbox := rfl
@[simp] theorem State.setAls_draws (s : State) (n : Nat) (v : Store) : (s.setAls n v).draws = s.draws := rfl
@[simp] theorem State.setAls_bxl (s : State) (n : Nat) (v : Store) : (s.setAls n v).bxl = s.bxl := rfl
@[simp] theorem State.setAls_pwr (s : State) (n : Nat) (v : Store) : (s.setAls n v).pwr = s.pwr := rfl
@[simp] theorem State.setAls_halted (s : State) (n : Nat) (v : Store) : (s.setAls n v).halted = s.halted := rfl
@[simp] theorem State.setAls_life (s : State) (n : Nat) (v : Store) : (s.setAls n v).life = s.life := rfl
@[simp] theorem State.setAls_link (s : State) (n : Nat) (v : Store) : (s.setAls n v).link = s.link := rfl
@[simp] theorem State.setAls_port (s : State) (n : Nat) (v : Store) : (s.setAls n v).port = s.port := rfl
@[simp] theorem State.setAls_rtr (s : State) (n : Nat) (v : Store) : (s.setAls n v).rtr = s.rtr := rfl
@[simp] theorem State.setAls_xch (s : State) (n : Nat) (v : Store) : (s.setAls n v).xch = s.xch := rfl
@[simp] theorem State.setAls_cat (s : State) (n : Nat) (v : Store) : (s.setAls n v).cat = s.cat := rfl
@[simp] theorem State.setAls_nmu (s : State) (n : Nat) (v : Store) : (s.setAls n v).nmu = s.nmu := rfl
@[simp] theorem State.setAls_pair (s : State) (n : Nat) (v : Store) : (s.setAls n v).pair = s.pair := rfl
@[simp] theorem State.setAls_mgmt (s : State) (n : Nat) (v : Store) : (s.setAls n v).mgmt = s.mgmt := rfl
@[simp] theorem State.setAls_pins (s : State) (n : Nat) (v : Store) : (s.setAls n v).pins = s.pins := rfl
@[simp] theorem State.setAls_obs (s : State) (n : Nat) (v : Store) : (s.setAls n v).obs = s.obs := rfl
@[simp] theorem State.setAls_bridge (s : State) (n : Nat) (v : Store) : (s.setAls n v).bridge = s.bridge := rfl
@[simp] theorem State.setAls_flash (s : State) (n : Nat) (v : Store) : (s.setAls n v).flash = s.flash := rfl

/-! `setDss` -/

@[simp] theorem State.setDss_pending (s : State) (d : Nat) (v : Store) : (s.setDss d v).pending = s.pending := rfl
@[simp] theorem State.setDss_gtime (s : State) (d : Nat) (v : Store) : (s.setDss d v).gtime = s.gtime := rfl
@[simp] theorem State.setDss_regs (s : State) (d : Nat) (v : Store) : (s.setDss d v).regs = s.regs := rfl
@[simp] theorem State.setDss_hiCap (s : State) (d : Nat) (v : Store) : (s.setDss d v).hiCap = s.hiCap := rfl
@[simp] theorem State.setDss_isl (s : State) (d : Nat) (v : Store) : (s.setDss d v).isl = s.isl := rfl
@[simp] theorem State.setDss_mem (s : State) (d : Nat) (v : Store) : (s.setDss d v).mem = s.mem := rfl
@[simp] theorem State.setDss_mmu (s : State) (d : Nat) (v : Store) : (s.setDss d v).mmu = s.mmu := rfl
@[simp] theorem State.setDss_arr (s : State) (d : Nat) (v : Store) : (s.setDss d v).arr = s.arr := rfl
@[simp] theorem State.setDss_vec (s : State) (d : Nat) (v : Store) : (s.setDss d v).vec = s.vec := rfl
@[simp] theorem State.setDss_als (s : State) (d : Nat) (v : Store) : (s.setDss d v).als = s.als := rfl
@[simp] theorem State.setDss_alsScrub (s : State) (d : Nat) (v : Store) : (s.setDss d v).alsScrub = s.alsScrub := rfl
@[simp] theorem State.setDss_dma (s : State) (d : Nat) (v : Store) : (s.setDss d v).dma = s.dma := rfl
@[simp] theorem State.setDss_ctx (s : State) (d : Nat) (v : Store) : (s.setDss d v).ctx = s.ctx := rfl
@[simp] theorem State.setDss_queues (s : State) (d : Nat) (v : Store) : (s.setDss d v).queues = s.queues := rfl
@[simp] theorem State.setDss_holder (s : State) (d : Nat) (v : Store) : (s.setDss d v).holder = s.holder := rfl
@[simp] theorem State.setDss_seq (s : State) (d : Nat) (v : Store) : (s.setDss d v).seq = s.seq := rfl
@[simp] theorem State.setDss_outbox (s : State) (d : Nat) (v : Store) : (s.setDss d v).outbox = s.outbox := rfl
@[simp] theorem State.setDss_draws (s : State) (d : Nat) (v : Store) : (s.setDss d v).draws = s.draws := rfl
@[simp] theorem State.setDss_bxl (s : State) (d : Nat) (v : Store) : (s.setDss d v).bxl = s.bxl := rfl
@[simp] theorem State.setDss_pwr (s : State) (d : Nat) (v : Store) : (s.setDss d v).pwr = s.pwr := rfl
@[simp] theorem State.setDss_halted (s : State) (d : Nat) (v : Store) : (s.setDss d v).halted = s.halted := rfl
@[simp] theorem State.setDss_life (s : State) (d : Nat) (v : Store) : (s.setDss d v).life = s.life := rfl
@[simp] theorem State.setDss_link (s : State) (d : Nat) (v : Store) : (s.setDss d v).link = s.link := rfl
@[simp] theorem State.setDss_port (s : State) (d : Nat) (v : Store) : (s.setDss d v).port = s.port := rfl
@[simp] theorem State.setDss_rtr (s : State) (d : Nat) (v : Store) : (s.setDss d v).rtr = s.rtr := rfl
@[simp] theorem State.setDss_xch (s : State) (d : Nat) (v : Store) : (s.setDss d v).xch = s.xch := rfl
@[simp] theorem State.setDss_cat (s : State) (d : Nat) (v : Store) : (s.setDss d v).cat = s.cat := rfl
@[simp] theorem State.setDss_nmu (s : State) (d : Nat) (v : Store) : (s.setDss d v).nmu = s.nmu := rfl
@[simp] theorem State.setDss_pair (s : State) (d : Nat) (v : Store) : (s.setDss d v).pair = s.pair := rfl
@[simp] theorem State.setDss_mgmt (s : State) (d : Nat) (v : Store) : (s.setDss d v).mgmt = s.mgmt := rfl
@[simp] theorem State.setDss_pins (s : State) (d : Nat) (v : Store) : (s.setDss d v).pins = s.pins := rfl
@[simp] theorem State.setDss_obs (s : State) (d : Nat) (v : Store) : (s.setDss d v).obs = s.obs := rfl
@[simp] theorem State.setDss_bridge (s : State) (d : Nat) (v : Store) : (s.setDss d v).bridge = s.bridge := rfl
@[simp] theorem State.setDss_flash (s : State) (d : Nat) (v : Store) : (s.setDss d v).flash = s.flash := rfl

/-! `setCh` -/

@[simp] theorem State.setCh_pending (s : State) (k : Nat) (v : DmaCh) : (s.setCh k v).pending = s.pending := rfl
@[simp] theorem State.setCh_gtime (s : State) (k : Nat) (v : DmaCh) : (s.setCh k v).gtime = s.gtime := rfl
@[simp] theorem State.setCh_regs (s : State) (k : Nat) (v : DmaCh) : (s.setCh k v).regs = s.regs := rfl
@[simp] theorem State.setCh_hiCap (s : State) (k : Nat) (v : DmaCh) : (s.setCh k v).hiCap = s.hiCap := rfl
@[simp] theorem State.setCh_isl (s : State) (k : Nat) (v : DmaCh) : (s.setCh k v).isl = s.isl := rfl
@[simp] theorem State.setCh_mem (s : State) (k : Nat) (v : DmaCh) : (s.setCh k v).mem = s.mem := rfl
@[simp] theorem State.setCh_mmu (s : State) (k : Nat) (v : DmaCh) : (s.setCh k v).mmu = s.mmu := rfl
@[simp] theorem State.setCh_arr (s : State) (k : Nat) (v : DmaCh) : (s.setCh k v).arr = s.arr := rfl
@[simp] theorem State.setCh_vec (s : State) (k : Nat) (v : DmaCh) : (s.setCh k v).vec = s.vec := rfl
@[simp] theorem State.setCh_als (s : State) (k : Nat) (v : DmaCh) : (s.setCh k v).als = s.als := rfl
@[simp] theorem State.setCh_alsScrub (s : State) (k : Nat) (v : DmaCh) : (s.setCh k v).alsScrub = s.alsScrub := rfl
@[simp] theorem State.setCh_dss (s : State) (k : Nat) (v : DmaCh) : (s.setCh k v).dss = s.dss := rfl
@[simp] theorem State.setCh_ctx (s : State) (k : Nat) (v : DmaCh) : (s.setCh k v).ctx = s.ctx := rfl
@[simp] theorem State.setCh_queues (s : State) (k : Nat) (v : DmaCh) : (s.setCh k v).queues = s.queues := rfl
@[simp] theorem State.setCh_holder (s : State) (k : Nat) (v : DmaCh) : (s.setCh k v).holder = s.holder := rfl
@[simp] theorem State.setCh_seq (s : State) (k : Nat) (v : DmaCh) : (s.setCh k v).seq = s.seq := rfl
@[simp] theorem State.setCh_outbox (s : State) (k : Nat) (v : DmaCh) : (s.setCh k v).outbox = s.outbox := rfl
@[simp] theorem State.setCh_draws (s : State) (k : Nat) (v : DmaCh) : (s.setCh k v).draws = s.draws := rfl
@[simp] theorem State.setCh_bxl (s : State) (k : Nat) (v : DmaCh) : (s.setCh k v).bxl = s.bxl := rfl
@[simp] theorem State.setCh_pwr (s : State) (k : Nat) (v : DmaCh) : (s.setCh k v).pwr = s.pwr := rfl
@[simp] theorem State.setCh_halted (s : State) (k : Nat) (v : DmaCh) : (s.setCh k v).halted = s.halted := rfl
@[simp] theorem State.setCh_life (s : State) (k : Nat) (v : DmaCh) : (s.setCh k v).life = s.life := rfl
@[simp] theorem State.setCh_link (s : State) (k : Nat) (v : DmaCh) : (s.setCh k v).link = s.link := rfl
@[simp] theorem State.setCh_port (s : State) (k : Nat) (v : DmaCh) : (s.setCh k v).port = s.port := rfl
@[simp] theorem State.setCh_rtr (s : State) (k : Nat) (v : DmaCh) : (s.setCh k v).rtr = s.rtr := rfl
@[simp] theorem State.setCh_xch (s : State) (k : Nat) (v : DmaCh) : (s.setCh k v).xch = s.xch := rfl
@[simp] theorem State.setCh_cat (s : State) (k : Nat) (v : DmaCh) : (s.setCh k v).cat = s.cat := rfl
@[simp] theorem State.setCh_nmu (s : State) (k : Nat) (v : DmaCh) : (s.setCh k v).nmu = s.nmu := rfl
@[simp] theorem State.setCh_pair (s : State) (k : Nat) (v : DmaCh) : (s.setCh k v).pair = s.pair := rfl
@[simp] theorem State.setCh_mgmt (s : State) (k : Nat) (v : DmaCh) : (s.setCh k v).mgmt = s.mgmt := rfl
@[simp] theorem State.setCh_pins (s : State) (k : Nat) (v : DmaCh) : (s.setCh k v).pins = s.pins := rfl
@[simp] theorem State.setCh_obs (s : State) (k : Nat) (v : DmaCh) : (s.setCh k v).obs = s.obs := rfl
@[simp] theorem State.setCh_bridge (s : State) (k : Nat) (v : DmaCh) : (s.setCh k v).bridge = s.bridge := rfl
@[simp] theorem State.setCh_flash (s : State) (k : Nat) (v : DmaCh) : (s.setCh k v).flash = s.flash := rfl

/-! `setCtx` -/

@[simp] theorem State.setCtx_pending (s : State) (c : Nat) (v : Ctx) : (s.setCtx c v).pending = s.pending := rfl
@[simp] theorem State.setCtx_gtime (s : State) (c : Nat) (v : Ctx) : (s.setCtx c v).gtime = s.gtime := rfl
@[simp] theorem State.setCtx_regs (s : State) (c : Nat) (v : Ctx) : (s.setCtx c v).regs = s.regs := rfl
@[simp] theorem State.setCtx_hiCap (s : State) (c : Nat) (v : Ctx) : (s.setCtx c v).hiCap = s.hiCap := rfl
@[simp] theorem State.setCtx_isl (s : State) (c : Nat) (v : Ctx) : (s.setCtx c v).isl = s.isl := rfl
@[simp] theorem State.setCtx_mem (s : State) (c : Nat) (v : Ctx) : (s.setCtx c v).mem = s.mem := rfl
@[simp] theorem State.setCtx_mmu (s : State) (c : Nat) (v : Ctx) : (s.setCtx c v).mmu = s.mmu := rfl
@[simp] theorem State.setCtx_arr (s : State) (c : Nat) (v : Ctx) : (s.setCtx c v).arr = s.arr := rfl
@[simp] theorem State.setCtx_vec (s : State) (c : Nat) (v : Ctx) : (s.setCtx c v).vec = s.vec := rfl
@[simp] theorem State.setCtx_als (s : State) (c : Nat) (v : Ctx) : (s.setCtx c v).als = s.als := rfl
@[simp] theorem State.setCtx_alsScrub (s : State) (c : Nat) (v : Ctx) : (s.setCtx c v).alsScrub = s.alsScrub := rfl
@[simp] theorem State.setCtx_dss (s : State) (c : Nat) (v : Ctx) : (s.setCtx c v).dss = s.dss := rfl
@[simp] theorem State.setCtx_dma (s : State) (c : Nat) (v : Ctx) : (s.setCtx c v).dma = s.dma := rfl
@[simp] theorem State.setCtx_queues (s : State) (c : Nat) (v : Ctx) : (s.setCtx c v).queues = s.queues := rfl
@[simp] theorem State.setCtx_holder (s : State) (c : Nat) (v : Ctx) : (s.setCtx c v).holder = s.holder := rfl
@[simp] theorem State.setCtx_seq (s : State) (c : Nat) (v : Ctx) : (s.setCtx c v).seq = s.seq := rfl
@[simp] theorem State.setCtx_outbox (s : State) (c : Nat) (v : Ctx) : (s.setCtx c v).outbox = s.outbox := rfl
@[simp] theorem State.setCtx_draws (s : State) (c : Nat) (v : Ctx) : (s.setCtx c v).draws = s.draws := rfl
@[simp] theorem State.setCtx_bxl (s : State) (c : Nat) (v : Ctx) : (s.setCtx c v).bxl = s.bxl := rfl
@[simp] theorem State.setCtx_pwr (s : State) (c : Nat) (v : Ctx) : (s.setCtx c v).pwr = s.pwr := rfl
@[simp] theorem State.setCtx_halted (s : State) (c : Nat) (v : Ctx) : (s.setCtx c v).halted = s.halted := rfl
@[simp] theorem State.setCtx_life (s : State) (c : Nat) (v : Ctx) : (s.setCtx c v).life = s.life := rfl
@[simp] theorem State.setCtx_link (s : State) (c : Nat) (v : Ctx) : (s.setCtx c v).link = s.link := rfl
@[simp] theorem State.setCtx_port (s : State) (c : Nat) (v : Ctx) : (s.setCtx c v).port = s.port := rfl
@[simp] theorem State.setCtx_rtr (s : State) (c : Nat) (v : Ctx) : (s.setCtx c v).rtr = s.rtr := rfl
@[simp] theorem State.setCtx_xch (s : State) (c : Nat) (v : Ctx) : (s.setCtx c v).xch = s.xch := rfl
@[simp] theorem State.setCtx_cat (s : State) (c : Nat) (v : Ctx) : (s.setCtx c v).cat = s.cat := rfl
@[simp] theorem State.setCtx_nmu (s : State) (c : Nat) (v : Ctx) : (s.setCtx c v).nmu = s.nmu := rfl
@[simp] theorem State.setCtx_pair (s : State) (c : Nat) (v : Ctx) : (s.setCtx c v).pair = s.pair := rfl
@[simp] theorem State.setCtx_mgmt (s : State) (c : Nat) (v : Ctx) : (s.setCtx c v).mgmt = s.mgmt := rfl
@[simp] theorem State.setCtx_pins (s : State) (c : Nat) (v : Ctx) : (s.setCtx c v).pins = s.pins := rfl
@[simp] theorem State.setCtx_obs (s : State) (c : Nat) (v : Ctx) : (s.setCtx c v).obs = s.obs := rfl
@[simp] theorem State.setCtx_bridge (s : State) (c : Nat) (v : Ctx) : (s.setCtx c v).bridge = s.bridge := rfl
@[simp] theorem State.setCtx_flash (s : State) (c : Nat) (v : Ctx) : (s.setCtx c v).flash = s.flash := rfl

/-! `setQueue` -/

@[simp] theorem State.setQueue_pending (s : State) (q : Nat) (v : Queue) : (s.setQueue q v).pending = s.pending := rfl
@[simp] theorem State.setQueue_gtime (s : State) (q : Nat) (v : Queue) : (s.setQueue q v).gtime = s.gtime := rfl
@[simp] theorem State.setQueue_regs (s : State) (q : Nat) (v : Queue) : (s.setQueue q v).regs = s.regs := rfl
@[simp] theorem State.setQueue_hiCap (s : State) (q : Nat) (v : Queue) : (s.setQueue q v).hiCap = s.hiCap := rfl
@[simp] theorem State.setQueue_isl (s : State) (q : Nat) (v : Queue) : (s.setQueue q v).isl = s.isl := rfl
@[simp] theorem State.setQueue_mem (s : State) (q : Nat) (v : Queue) : (s.setQueue q v).mem = s.mem := rfl
@[simp] theorem State.setQueue_mmu (s : State) (q : Nat) (v : Queue) : (s.setQueue q v).mmu = s.mmu := rfl
@[simp] theorem State.setQueue_arr (s : State) (q : Nat) (v : Queue) : (s.setQueue q v).arr = s.arr := rfl
@[simp] theorem State.setQueue_vec (s : State) (q : Nat) (v : Queue) : (s.setQueue q v).vec = s.vec := rfl
@[simp] theorem State.setQueue_als (s : State) (q : Nat) (v : Queue) : (s.setQueue q v).als = s.als := rfl
@[simp] theorem State.setQueue_alsScrub (s : State) (q : Nat) (v : Queue) : (s.setQueue q v).alsScrub = s.alsScrub := rfl
@[simp] theorem State.setQueue_dss (s : State) (q : Nat) (v : Queue) : (s.setQueue q v).dss = s.dss := rfl
@[simp] theorem State.setQueue_dma (s : State) (q : Nat) (v : Queue) : (s.setQueue q v).dma = s.dma := rfl
@[simp] theorem State.setQueue_ctx (s : State) (q : Nat) (v : Queue) : (s.setQueue q v).ctx = s.ctx := rfl
@[simp] theorem State.setQueue_holder (s : State) (q : Nat) (v : Queue) : (s.setQueue q v).holder = s.holder := rfl
@[simp] theorem State.setQueue_seq (s : State) (q : Nat) (v : Queue) : (s.setQueue q v).seq = s.seq := rfl
@[simp] theorem State.setQueue_outbox (s : State) (q : Nat) (v : Queue) : (s.setQueue q v).outbox = s.outbox := rfl
@[simp] theorem State.setQueue_draws (s : State) (q : Nat) (v : Queue) : (s.setQueue q v).draws = s.draws := rfl
@[simp] theorem State.setQueue_bxl (s : State) (q : Nat) (v : Queue) : (s.setQueue q v).bxl = s.bxl := rfl
@[simp] theorem State.setQueue_pwr (s : State) (q : Nat) (v : Queue) : (s.setQueue q v).pwr = s.pwr := rfl
@[simp] theorem State.setQueue_halted (s : State) (q : Nat) (v : Queue) : (s.setQueue q v).halted = s.halted := rfl
@[simp] theorem State.setQueue_life (s : State) (q : Nat) (v : Queue) : (s.setQueue q v).life = s.life := rfl
@[simp] theorem State.setQueue_link (s : State) (q : Nat) (v : Queue) : (s.setQueue q v).link = s.link := rfl
@[simp] theorem State.setQueue_port (s : State) (q : Nat) (v : Queue) : (s.setQueue q v).port = s.port := rfl
@[simp] theorem State.setQueue_rtr (s : State) (q : Nat) (v : Queue) : (s.setQueue q v).rtr = s.rtr := rfl
@[simp] theorem State.setQueue_xch (s : State) (q : Nat) (v : Queue) : (s.setQueue q v).xch = s.xch := rfl
@[simp] theorem State.setQueue_cat (s : State) (q : Nat) (v : Queue) : (s.setQueue q v).cat = s.cat := rfl
@[simp] theorem State.setQueue_nmu (s : State) (q : Nat) (v : Queue) : (s.setQueue q v).nmu = s.nmu := rfl
@[simp] theorem State.setQueue_pair (s : State) (q : Nat) (v : Queue) : (s.setQueue q v).pair = s.pair := rfl
@[simp] theorem State.setQueue_mgmt (s : State) (q : Nat) (v : Queue) : (s.setQueue q v).mgmt = s.mgmt := rfl
@[simp] theorem State.setQueue_pins (s : State) (q : Nat) (v : Queue) : (s.setQueue q v).pins = s.pins := rfl
@[simp] theorem State.setQueue_obs (s : State) (q : Nat) (v : Queue) : (s.setQueue q v).obs = s.obs := rfl
@[simp] theorem State.setQueue_bridge (s : State) (q : Nat) (v : Queue) : (s.setQueue q v).bridge = s.bridge := rfl
@[simp] theorem State.setQueue_flash (s : State) (q : Nat) (v : Queue) : (s.setQueue q v).flash = s.flash := rfl

/-! `setHolder` -/

@[simp] theorem State.setHolder_pending (s : State) (n : Nat) (v : Holder) : (s.setHolder n v).pending = s.pending := rfl
@[simp] theorem State.setHolder_gtime (s : State) (n : Nat) (v : Holder) : (s.setHolder n v).gtime = s.gtime := rfl
@[simp] theorem State.setHolder_regs (s : State) (n : Nat) (v : Holder) : (s.setHolder n v).regs = s.regs := rfl
@[simp] theorem State.setHolder_hiCap (s : State) (n : Nat) (v : Holder) : (s.setHolder n v).hiCap = s.hiCap := rfl
@[simp] theorem State.setHolder_isl (s : State) (n : Nat) (v : Holder) : (s.setHolder n v).isl = s.isl := rfl
@[simp] theorem State.setHolder_mem (s : State) (n : Nat) (v : Holder) : (s.setHolder n v).mem = s.mem := rfl
@[simp] theorem State.setHolder_mmu (s : State) (n : Nat) (v : Holder) : (s.setHolder n v).mmu = s.mmu := rfl
@[simp] theorem State.setHolder_arr (s : State) (n : Nat) (v : Holder) : (s.setHolder n v).arr = s.arr := rfl
@[simp] theorem State.setHolder_vec (s : State) (n : Nat) (v : Holder) : (s.setHolder n v).vec = s.vec := rfl
@[simp] theorem State.setHolder_als (s : State) (n : Nat) (v : Holder) : (s.setHolder n v).als = s.als := rfl
@[simp] theorem State.setHolder_alsScrub (s : State) (n : Nat) (v : Holder) : (s.setHolder n v).alsScrub = s.alsScrub := rfl
@[simp] theorem State.setHolder_dss (s : State) (n : Nat) (v : Holder) : (s.setHolder n v).dss = s.dss := rfl
@[simp] theorem State.setHolder_dma (s : State) (n : Nat) (v : Holder) : (s.setHolder n v).dma = s.dma := rfl
@[simp] theorem State.setHolder_ctx (s : State) (n : Nat) (v : Holder) : (s.setHolder n v).ctx = s.ctx := rfl
@[simp] theorem State.setHolder_queues (s : State) (n : Nat) (v : Holder) : (s.setHolder n v).queues = s.queues := rfl
@[simp] theorem State.setHolder_seq (s : State) (n : Nat) (v : Holder) : (s.setHolder n v).seq = s.seq := rfl
@[simp] theorem State.setHolder_outbox (s : State) (n : Nat) (v : Holder) : (s.setHolder n v).outbox = s.outbox := rfl
@[simp] theorem State.setHolder_draws (s : State) (n : Nat) (v : Holder) : (s.setHolder n v).draws = s.draws := rfl
@[simp] theorem State.setHolder_bxl (s : State) (n : Nat) (v : Holder) : (s.setHolder n v).bxl = s.bxl := rfl
@[simp] theorem State.setHolder_pwr (s : State) (n : Nat) (v : Holder) : (s.setHolder n v).pwr = s.pwr := rfl
@[simp] theorem State.setHolder_halted (s : State) (n : Nat) (v : Holder) : (s.setHolder n v).halted = s.halted := rfl
@[simp] theorem State.setHolder_life (s : State) (n : Nat) (v : Holder) : (s.setHolder n v).life = s.life := rfl
@[simp] theorem State.setHolder_link (s : State) (n : Nat) (v : Holder) : (s.setHolder n v).link = s.link := rfl
@[simp] theorem State.setHolder_port (s : State) (n : Nat) (v : Holder) : (s.setHolder n v).port = s.port := rfl
@[simp] theorem State.setHolder_rtr (s : State) (n : Nat) (v : Holder) : (s.setHolder n v).rtr = s.rtr := rfl
@[simp] theorem State.setHolder_xch (s : State) (n : Nat) (v : Holder) : (s.setHolder n v).xch = s.xch := rfl
@[simp] theorem State.setHolder_cat (s : State) (n : Nat) (v : Holder) : (s.setHolder n v).cat = s.cat := rfl
@[simp] theorem State.setHolder_nmu (s : State) (n : Nat) (v : Holder) : (s.setHolder n v).nmu = s.nmu := rfl
@[simp] theorem State.setHolder_pair (s : State) (n : Nat) (v : Holder) : (s.setHolder n v).pair = s.pair := rfl
@[simp] theorem State.setHolder_mgmt (s : State) (n : Nat) (v : Holder) : (s.setHolder n v).mgmt = s.mgmt := rfl
@[simp] theorem State.setHolder_pins (s : State) (n : Nat) (v : Holder) : (s.setHolder n v).pins = s.pins := rfl
@[simp] theorem State.setHolder_obs (s : State) (n : Nat) (v : Holder) : (s.setHolder n v).obs = s.obs := rfl
@[simp] theorem State.setHolder_bridge (s : State) (n : Nat) (v : Holder) : (s.setHolder n v).bridge = s.bridge := rfl
@[simp] theorem State.setHolder_flash (s : State) (n : Nat) (v : Holder) : (s.setHolder n v).flash = s.flash := rfl

/-! `setSeq` -/

@[simp] theorem State.setSeq_pending (s : State) (n : Nat) (v : Seq) : (s.setSeq n v).pending = s.pending := rfl
@[simp] theorem State.setSeq_gtime (s : State) (n : Nat) (v : Seq) : (s.setSeq n v).gtime = s.gtime := rfl
@[simp] theorem State.setSeq_regs (s : State) (n : Nat) (v : Seq) : (s.setSeq n v).regs = s.regs := rfl
@[simp] theorem State.setSeq_hiCap (s : State) (n : Nat) (v : Seq) : (s.setSeq n v).hiCap = s.hiCap := rfl
@[simp] theorem State.setSeq_isl (s : State) (n : Nat) (v : Seq) : (s.setSeq n v).isl = s.isl := rfl
@[simp] theorem State.setSeq_mem (s : State) (n : Nat) (v : Seq) : (s.setSeq n v).mem = s.mem := rfl
@[simp] theorem State.setSeq_mmu (s : State) (n : Nat) (v : Seq) : (s.setSeq n v).mmu = s.mmu := rfl
@[simp] theorem State.setSeq_arr (s : State) (n : Nat) (v : Seq) : (s.setSeq n v).arr = s.arr := rfl
@[simp] theorem State.setSeq_vec (s : State) (n : Nat) (v : Seq) : (s.setSeq n v).vec = s.vec := rfl
@[simp] theorem State.setSeq_als (s : State) (n : Nat) (v : Seq) : (s.setSeq n v).als = s.als := rfl
@[simp] theorem State.setSeq_alsScrub (s : State) (n : Nat) (v : Seq) : (s.setSeq n v).alsScrub = s.alsScrub := rfl
@[simp] theorem State.setSeq_dss (s : State) (n : Nat) (v : Seq) : (s.setSeq n v).dss = s.dss := rfl
@[simp] theorem State.setSeq_dma (s : State) (n : Nat) (v : Seq) : (s.setSeq n v).dma = s.dma := rfl
@[simp] theorem State.setSeq_ctx (s : State) (n : Nat) (v : Seq) : (s.setSeq n v).ctx = s.ctx := rfl
@[simp] theorem State.setSeq_queues (s : State) (n : Nat) (v : Seq) : (s.setSeq n v).queues = s.queues := rfl
@[simp] theorem State.setSeq_holder (s : State) (n : Nat) (v : Seq) : (s.setSeq n v).holder = s.holder := rfl
@[simp] theorem State.setSeq_outbox (s : State) (n : Nat) (v : Seq) : (s.setSeq n v).outbox = s.outbox := rfl
@[simp] theorem State.setSeq_draws (s : State) (n : Nat) (v : Seq) : (s.setSeq n v).draws = s.draws := rfl
@[simp] theorem State.setSeq_bxl (s : State) (n : Nat) (v : Seq) : (s.setSeq n v).bxl = s.bxl := rfl
@[simp] theorem State.setSeq_pwr (s : State) (n : Nat) (v : Seq) : (s.setSeq n v).pwr = s.pwr := rfl
@[simp] theorem State.setSeq_halted (s : State) (n : Nat) (v : Seq) : (s.setSeq n v).halted = s.halted := rfl
@[simp] theorem State.setSeq_life (s : State) (n : Nat) (v : Seq) : (s.setSeq n v).life = s.life := rfl
@[simp] theorem State.setSeq_link (s : State) (n : Nat) (v : Seq) : (s.setSeq n v).link = s.link := rfl
@[simp] theorem State.setSeq_port (s : State) (n : Nat) (v : Seq) : (s.setSeq n v).port = s.port := rfl
@[simp] theorem State.setSeq_rtr (s : State) (n : Nat) (v : Seq) : (s.setSeq n v).rtr = s.rtr := rfl
@[simp] theorem State.setSeq_xch (s : State) (n : Nat) (v : Seq) : (s.setSeq n v).xch = s.xch := rfl
@[simp] theorem State.setSeq_cat (s : State) (n : Nat) (v : Seq) : (s.setSeq n v).cat = s.cat := rfl
@[simp] theorem State.setSeq_nmu (s : State) (n : Nat) (v : Seq) : (s.setSeq n v).nmu = s.nmu := rfl
@[simp] theorem State.setSeq_pair (s : State) (n : Nat) (v : Seq) : (s.setSeq n v).pair = s.pair := rfl
@[simp] theorem State.setSeq_mgmt (s : State) (n : Nat) (v : Seq) : (s.setSeq n v).mgmt = s.mgmt := rfl
@[simp] theorem State.setSeq_pins (s : State) (n : Nat) (v : Seq) : (s.setSeq n v).pins = s.pins := rfl
@[simp] theorem State.setSeq_obs (s : State) (n : Nat) (v : Seq) : (s.setSeq n v).obs = s.obs := rfl
@[simp] theorem State.setSeq_bridge (s : State) (n : Nat) (v : Seq) : (s.setSeq n v).bridge = s.bridge := rfl
@[simp] theorem State.setSeq_flash (s : State) (n : Nat) (v : Seq) : (s.setSeq n v).flash = s.flash := rfl

/-! `setBlk` -/

@[simp] theorem State.setBlk_pending (s : State) (b : Nat) (v : MemBlk) : (s.setBlk b v).pending = s.pending := rfl
@[simp] theorem State.setBlk_gtime (s : State) (b : Nat) (v : MemBlk) : (s.setBlk b v).gtime = s.gtime := rfl
@[simp] theorem State.setBlk_regs (s : State) (b : Nat) (v : MemBlk) : (s.setBlk b v).regs = s.regs := rfl
@[simp] theorem State.setBlk_hiCap (s : State) (b : Nat) (v : MemBlk) : (s.setBlk b v).hiCap = s.hiCap := rfl
@[simp] theorem State.setBlk_isl (s : State) (b : Nat) (v : MemBlk) : (s.setBlk b v).isl = s.isl := rfl
@[simp] theorem State.setBlk_mmu (s : State) (b : Nat) (v : MemBlk) : (s.setBlk b v).mmu = s.mmu := rfl
@[simp] theorem State.setBlk_arr (s : State) (b : Nat) (v : MemBlk) : (s.setBlk b v).arr = s.arr := rfl
@[simp] theorem State.setBlk_vec (s : State) (b : Nat) (v : MemBlk) : (s.setBlk b v).vec = s.vec := rfl
@[simp] theorem State.setBlk_als (s : State) (b : Nat) (v : MemBlk) : (s.setBlk b v).als = s.als := rfl
@[simp] theorem State.setBlk_alsScrub (s : State) (b : Nat) (v : MemBlk) : (s.setBlk b v).alsScrub = s.alsScrub := rfl
@[simp] theorem State.setBlk_dss (s : State) (b : Nat) (v : MemBlk) : (s.setBlk b v).dss = s.dss := rfl
@[simp] theorem State.setBlk_dma (s : State) (b : Nat) (v : MemBlk) : (s.setBlk b v).dma = s.dma := rfl
@[simp] theorem State.setBlk_ctx (s : State) (b : Nat) (v : MemBlk) : (s.setBlk b v).ctx = s.ctx := rfl
@[simp] theorem State.setBlk_queues (s : State) (b : Nat) (v : MemBlk) : (s.setBlk b v).queues = s.queues := rfl
@[simp] theorem State.setBlk_holder (s : State) (b : Nat) (v : MemBlk) : (s.setBlk b v).holder = s.holder := rfl
@[simp] theorem State.setBlk_seq (s : State) (b : Nat) (v : MemBlk) : (s.setBlk b v).seq = s.seq := rfl
@[simp] theorem State.setBlk_outbox (s : State) (b : Nat) (v : MemBlk) : (s.setBlk b v).outbox = s.outbox := rfl
@[simp] theorem State.setBlk_draws (s : State) (b : Nat) (v : MemBlk) : (s.setBlk b v).draws = s.draws := rfl
@[simp] theorem State.setBlk_bxl (s : State) (b : Nat) (v : MemBlk) : (s.setBlk b v).bxl = s.bxl := rfl
@[simp] theorem State.setBlk_pwr (s : State) (b : Nat) (v : MemBlk) : (s.setBlk b v).pwr = s.pwr := rfl
@[simp] theorem State.setBlk_halted (s : State) (b : Nat) (v : MemBlk) : (s.setBlk b v).halted = s.halted := rfl
@[simp] theorem State.setBlk_life (s : State) (b : Nat) (v : MemBlk) : (s.setBlk b v).life = s.life := rfl
@[simp] theorem State.setBlk_link (s : State) (b : Nat) (v : MemBlk) : (s.setBlk b v).link = s.link := rfl
@[simp] theorem State.setBlk_port (s : State) (b : Nat) (v : MemBlk) : (s.setBlk b v).port = s.port := rfl
@[simp] theorem State.setBlk_rtr (s : State) (b : Nat) (v : MemBlk) : (s.setBlk b v).rtr = s.rtr := rfl
@[simp] theorem State.setBlk_xch (s : State) (b : Nat) (v : MemBlk) : (s.setBlk b v).xch = s.xch := rfl
@[simp] theorem State.setBlk_cat (s : State) (b : Nat) (v : MemBlk) : (s.setBlk b v).cat = s.cat := rfl
@[simp] theorem State.setBlk_nmu (s : State) (b : Nat) (v : MemBlk) : (s.setBlk b v).nmu = s.nmu := rfl
@[simp] theorem State.setBlk_pair (s : State) (b : Nat) (v : MemBlk) : (s.setBlk b v).pair = s.pair := rfl
@[simp] theorem State.setBlk_mgmt (s : State) (b : Nat) (v : MemBlk) : (s.setBlk b v).mgmt = s.mgmt := rfl
@[simp] theorem State.setBlk_pins (s : State) (b : Nat) (v : MemBlk) : (s.setBlk b v).pins = s.pins := rfl
@[simp] theorem State.setBlk_obs (s : State) (b : Nat) (v : MemBlk) : (s.setBlk b v).obs = s.obs := rfl
@[simp] theorem State.setBlk_bridge (s : State) (b : Nat) (v : MemBlk) : (s.setBlk b v).bridge = s.bridge := rfl
@[simp] theorem State.setBlk_flash (s : State) (b : Nat) (v : MemBlk) : (s.setBlk b v).flash = s.flash := rfl

/-! `setPort` -/

@[simp] theorem State.setPort_pending (s : State) (p : Nat) (v : PortX) : (s.setPort p v).pending = s.pending := rfl
@[simp] theorem State.setPort_gtime (s : State) (p : Nat) (v : PortX) : (s.setPort p v).gtime = s.gtime := rfl
@[simp] theorem State.setPort_regs (s : State) (p : Nat) (v : PortX) : (s.setPort p v).regs = s.regs := rfl
@[simp] theorem State.setPort_hiCap (s : State) (p : Nat) (v : PortX) : (s.setPort p v).hiCap = s.hiCap := rfl
@[simp] theorem State.setPort_isl (s : State) (p : Nat) (v : PortX) : (s.setPort p v).isl = s.isl := rfl
@[simp] theorem State.setPort_mem (s : State) (p : Nat) (v : PortX) : (s.setPort p v).mem = s.mem := rfl
@[simp] theorem State.setPort_mmu (s : State) (p : Nat) (v : PortX) : (s.setPort p v).mmu = s.mmu := rfl
@[simp] theorem State.setPort_arr (s : State) (p : Nat) (v : PortX) : (s.setPort p v).arr = s.arr := rfl
@[simp] theorem State.setPort_vec (s : State) (p : Nat) (v : PortX) : (s.setPort p v).vec = s.vec := rfl
@[simp] theorem State.setPort_als (s : State) (p : Nat) (v : PortX) : (s.setPort p v).als = s.als := rfl
@[simp] theorem State.setPort_alsScrub (s : State) (p : Nat) (v : PortX) : (s.setPort p v).alsScrub = s.alsScrub := rfl
@[simp] theorem State.setPort_dss (s : State) (p : Nat) (v : PortX) : (s.setPort p v).dss = s.dss := rfl
@[simp] theorem State.setPort_dma (s : State) (p : Nat) (v : PortX) : (s.setPort p v).dma = s.dma := rfl
@[simp] theorem State.setPort_ctx (s : State) (p : Nat) (v : PortX) : (s.setPort p v).ctx = s.ctx := rfl
@[simp] theorem State.setPort_queues (s : State) (p : Nat) (v : PortX) : (s.setPort p v).queues = s.queues := rfl
@[simp] theorem State.setPort_holder (s : State) (p : Nat) (v : PortX) : (s.setPort p v).holder = s.holder := rfl
@[simp] theorem State.setPort_seq (s : State) (p : Nat) (v : PortX) : (s.setPort p v).seq = s.seq := rfl
@[simp] theorem State.setPort_outbox (s : State) (p : Nat) (v : PortX) : (s.setPort p v).outbox = s.outbox := rfl
@[simp] theorem State.setPort_draws (s : State) (p : Nat) (v : PortX) : (s.setPort p v).draws = s.draws := rfl
@[simp] theorem State.setPort_bxl (s : State) (p : Nat) (v : PortX) : (s.setPort p v).bxl = s.bxl := rfl
@[simp] theorem State.setPort_pwr (s : State) (p : Nat) (v : PortX) : (s.setPort p v).pwr = s.pwr := rfl
@[simp] theorem State.setPort_halted (s : State) (p : Nat) (v : PortX) : (s.setPort p v).halted = s.halted := rfl
@[simp] theorem State.setPort_life (s : State) (p : Nat) (v : PortX) : (s.setPort p v).life = s.life := rfl
@[simp] theorem State.setPort_link (s : State) (p : Nat) (v : PortX) : (s.setPort p v).link = s.link := rfl
@[simp] theorem State.setPort_rtr (s : State) (p : Nat) (v : PortX) : (s.setPort p v).rtr = s.rtr := rfl
@[simp] theorem State.setPort_xch (s : State) (p : Nat) (v : PortX) : (s.setPort p v).xch = s.xch := rfl
@[simp] theorem State.setPort_cat (s : State) (p : Nat) (v : PortX) : (s.setPort p v).cat = s.cat := rfl
@[simp] theorem State.setPort_nmu (s : State) (p : Nat) (v : PortX) : (s.setPort p v).nmu = s.nmu := rfl
@[simp] theorem State.setPort_pair (s : State) (p : Nat) (v : PortX) : (s.setPort p v).pair = s.pair := rfl
@[simp] theorem State.setPort_mgmt (s : State) (p : Nat) (v : PortX) : (s.setPort p v).mgmt = s.mgmt := rfl
@[simp] theorem State.setPort_pins (s : State) (p : Nat) (v : PortX) : (s.setPort p v).pins = s.pins := rfl
@[simp] theorem State.setPort_obs (s : State) (p : Nat) (v : PortX) : (s.setPort p v).obs = s.obs := rfl
@[simp] theorem State.setPort_bridge (s : State) (p : Nat) (v : PortX) : (s.setPort p v).bridge = s.bridge := rfl
@[simp] theorem State.setPort_flash (s : State) (p : Nat) (v : PortX) : (s.setPort p v).flash = s.flash := rfl

/-! `setLink` -/

@[simp] theorem State.setLink_pending (s : State) (l : Nat) (v : LinkLayer) : (s.setLink l v).pending = s.pending := rfl
@[simp] theorem State.setLink_gtime (s : State) (l : Nat) (v : LinkLayer) : (s.setLink l v).gtime = s.gtime := rfl
@[simp] theorem State.setLink_regs (s : State) (l : Nat) (v : LinkLayer) : (s.setLink l v).regs = s.regs := rfl
@[simp] theorem State.setLink_hiCap (s : State) (l : Nat) (v : LinkLayer) : (s.setLink l v).hiCap = s.hiCap := rfl
@[simp] theorem State.setLink_isl (s : State) (l : Nat) (v : LinkLayer) : (s.setLink l v).isl = s.isl := rfl
@[simp] theorem State.setLink_mem (s : State) (l : Nat) (v : LinkLayer) : (s.setLink l v).mem = s.mem := rfl
@[simp] theorem State.setLink_mmu (s : State) (l : Nat) (v : LinkLayer) : (s.setLink l v).mmu = s.mmu := rfl
@[simp] theorem State.setLink_arr (s : State) (l : Nat) (v : LinkLayer) : (s.setLink l v).arr = s.arr := rfl
@[simp] theorem State.setLink_vec (s : State) (l : Nat) (v : LinkLayer) : (s.setLink l v).vec = s.vec := rfl
@[simp] theorem State.setLink_als (s : State) (l : Nat) (v : LinkLayer) : (s.setLink l v).als = s.als := rfl
@[simp] theorem State.setLink_alsScrub (s : State) (l : Nat) (v : LinkLayer) : (s.setLink l v).alsScrub = s.alsScrub := rfl
@[simp] theorem State.setLink_dss (s : State) (l : Nat) (v : LinkLayer) : (s.setLink l v).dss = s.dss := rfl
@[simp] theorem State.setLink_dma (s : State) (l : Nat) (v : LinkLayer) : (s.setLink l v).dma = s.dma := rfl
@[simp] theorem State.setLink_ctx (s : State) (l : Nat) (v : LinkLayer) : (s.setLink l v).ctx = s.ctx := rfl
@[simp] theorem State.setLink_queues (s : State) (l : Nat) (v : LinkLayer) : (s.setLink l v).queues = s.queues := rfl
@[simp] theorem State.setLink_holder (s : State) (l : Nat) (v : LinkLayer) : (s.setLink l v).holder = s.holder := rfl
@[simp] theorem State.setLink_seq (s : State) (l : Nat) (v : LinkLayer) : (s.setLink l v).seq = s.seq := rfl
@[simp] theorem State.setLink_outbox (s : State) (l : Nat) (v : LinkLayer) : (s.setLink l v).outbox = s.outbox := rfl
@[simp] theorem State.setLink_draws (s : State) (l : Nat) (v : LinkLayer) : (s.setLink l v).draws = s.draws := rfl
@[simp] theorem State.setLink_bxl (s : State) (l : Nat) (v : LinkLayer) : (s.setLink l v).bxl = s.bxl := rfl
@[simp] theorem State.setLink_pwr (s : State) (l : Nat) (v : LinkLayer) : (s.setLink l v).pwr = s.pwr := rfl
@[simp] theorem State.setLink_halted (s : State) (l : Nat) (v : LinkLayer) : (s.setLink l v).halted = s.halted := rfl
@[simp] theorem State.setLink_life (s : State) (l : Nat) (v : LinkLayer) : (s.setLink l v).life = s.life := rfl
@[simp] theorem State.setLink_port (s : State) (l : Nat) (v : LinkLayer) : (s.setLink l v).port = s.port := rfl
@[simp] theorem State.setLink_rtr (s : State) (l : Nat) (v : LinkLayer) : (s.setLink l v).rtr = s.rtr := rfl
@[simp] theorem State.setLink_xch (s : State) (l : Nat) (v : LinkLayer) : (s.setLink l v).xch = s.xch := rfl
@[simp] theorem State.setLink_cat (s : State) (l : Nat) (v : LinkLayer) : (s.setLink l v).cat = s.cat := rfl
@[simp] theorem State.setLink_nmu (s : State) (l : Nat) (v : LinkLayer) : (s.setLink l v).nmu = s.nmu := rfl
@[simp] theorem State.setLink_pair (s : State) (l : Nat) (v : LinkLayer) : (s.setLink l v).pair = s.pair := rfl
@[simp] theorem State.setLink_mgmt (s : State) (l : Nat) (v : LinkLayer) : (s.setLink l v).mgmt = s.mgmt := rfl
@[simp] theorem State.setLink_pins (s : State) (l : Nat) (v : LinkLayer) : (s.setLink l v).pins = s.pins := rfl
@[simp] theorem State.setLink_obs (s : State) (l : Nat) (v : LinkLayer) : (s.setLink l v).obs = s.obs := rfl
@[simp] theorem State.setLink_bridge (s : State) (l : Nat) (v : LinkLayer) : (s.setLink l v).bridge = s.bridge := rfl
@[simp] theorem State.setLink_flash (s : State) (l : Nat) (v : LinkLayer) : (s.setLink l v).flash = s.flash := rfl

/-! `setNmu` -/

@[simp] theorem State.setNmu_pending (s : State) (u : Nat) (v : Nmu) : (s.setNmu u v).pending = s.pending := rfl
@[simp] theorem State.setNmu_gtime (s : State) (u : Nat) (v : Nmu) : (s.setNmu u v).gtime = s.gtime := rfl
@[simp] theorem State.setNmu_regs (s : State) (u : Nat) (v : Nmu) : (s.setNmu u v).regs = s.regs := rfl
@[simp] theorem State.setNmu_hiCap (s : State) (u : Nat) (v : Nmu) : (s.setNmu u v).hiCap = s.hiCap := rfl
@[simp] theorem State.setNmu_isl (s : State) (u : Nat) (v : Nmu) : (s.setNmu u v).isl = s.isl := rfl
@[simp] theorem State.setNmu_mem (s : State) (u : Nat) (v : Nmu) : (s.setNmu u v).mem = s.mem := rfl
@[simp] theorem State.setNmu_mmu (s : State) (u : Nat) (v : Nmu) : (s.setNmu u v).mmu = s.mmu := rfl
@[simp] theorem State.setNmu_arr (s : State) (u : Nat) (v : Nmu) : (s.setNmu u v).arr = s.arr := rfl
@[simp] theorem State.setNmu_vec (s : State) (u : Nat) (v : Nmu) : (s.setNmu u v).vec = s.vec := rfl
@[simp] theorem State.setNmu_als (s : State) (u : Nat) (v : Nmu) : (s.setNmu u v).als = s.als := rfl
@[simp] theorem State.setNmu_alsScrub (s : State) (u : Nat) (v : Nmu) : (s.setNmu u v).alsScrub = s.alsScrub := rfl
@[simp] theorem State.setNmu_dss (s : State) (u : Nat) (v : Nmu) : (s.setNmu u v).dss = s.dss := rfl
@[simp] theorem State.setNmu_dma (s : State) (u : Nat) (v : Nmu) : (s.setNmu u v).dma = s.dma := rfl
@[simp] theorem State.setNmu_ctx (s : State) (u : Nat) (v : Nmu) : (s.setNmu u v).ctx = s.ctx := rfl
@[simp] theorem State.setNmu_queues (s : State) (u : Nat) (v : Nmu) : (s.setNmu u v).queues = s.queues := rfl
@[simp] theorem State.setNmu_holder (s : State) (u : Nat) (v : Nmu) : (s.setNmu u v).holder = s.holder := rfl
@[simp] theorem State.setNmu_seq (s : State) (u : Nat) (v : Nmu) : (s.setNmu u v).seq = s.seq := rfl
@[simp] theorem State.setNmu_outbox (s : State) (u : Nat) (v : Nmu) : (s.setNmu u v).outbox = s.outbox := rfl
@[simp] theorem State.setNmu_draws (s : State) (u : Nat) (v : Nmu) : (s.setNmu u v).draws = s.draws := rfl
@[simp] theorem State.setNmu_bxl (s : State) (u : Nat) (v : Nmu) : (s.setNmu u v).bxl = s.bxl := rfl
@[simp] theorem State.setNmu_pwr (s : State) (u : Nat) (v : Nmu) : (s.setNmu u v).pwr = s.pwr := rfl
@[simp] theorem State.setNmu_halted (s : State) (u : Nat) (v : Nmu) : (s.setNmu u v).halted = s.halted := rfl
@[simp] theorem State.setNmu_life (s : State) (u : Nat) (v : Nmu) : (s.setNmu u v).life = s.life := rfl
@[simp] theorem State.setNmu_link (s : State) (u : Nat) (v : Nmu) : (s.setNmu u v).link = s.link := rfl
@[simp] theorem State.setNmu_port (s : State) (u : Nat) (v : Nmu) : (s.setNmu u v).port = s.port := rfl
@[simp] theorem State.setNmu_rtr (s : State) (u : Nat) (v : Nmu) : (s.setNmu u v).rtr = s.rtr := rfl
@[simp] theorem State.setNmu_xch (s : State) (u : Nat) (v : Nmu) : (s.setNmu u v).xch = s.xch := rfl
@[simp] theorem State.setNmu_cat (s : State) (u : Nat) (v : Nmu) : (s.setNmu u v).cat = s.cat := rfl
@[simp] theorem State.setNmu_pair (s : State) (u : Nat) (v : Nmu) : (s.setNmu u v).pair = s.pair := rfl
@[simp] theorem State.setNmu_mgmt (s : State) (u : Nat) (v : Nmu) : (s.setNmu u v).mgmt = s.mgmt := rfl
@[simp] theorem State.setNmu_pins (s : State) (u : Nat) (v : Nmu) : (s.setNmu u v).pins = s.pins := rfl
@[simp] theorem State.setNmu_obs (s : State) (u : Nat) (v : Nmu) : (s.setNmu u v).obs = s.obs := rfl
@[simp] theorem State.setNmu_bridge (s : State) (u : Nat) (v : Nmu) : (s.setNmu u v).bridge = s.bridge := rfl
@[simp] theorem State.setNmu_flash (s : State) (u : Nat) (v : Nmu) : (s.setNmu u v).flash = s.flash := rfl

/-! `putXop` -/

@[simp] theorem State.putXop_pending (s : State) (x : Xop) : (s.putXop x).pending = s.pending := rfl
@[simp] theorem State.putXop_gtime (s : State) (x : Xop) : (s.putXop x).gtime = s.gtime := rfl
@[simp] theorem State.putXop_regs (s : State) (x : Xop) : (s.putXop x).regs = s.regs := rfl
@[simp] theorem State.putXop_hiCap (s : State) (x : Xop) : (s.putXop x).hiCap = s.hiCap := rfl
@[simp] theorem State.putXop_isl (s : State) (x : Xop) : (s.putXop x).isl = s.isl := rfl
@[simp] theorem State.putXop_mem (s : State) (x : Xop) : (s.putXop x).mem = s.mem := rfl
@[simp] theorem State.putXop_mmu (s : State) (x : Xop) : (s.putXop x).mmu = s.mmu := rfl
@[simp] theorem State.putXop_arr (s : State) (x : Xop) : (s.putXop x).arr = s.arr := rfl
@[simp] theorem State.putXop_vec (s : State) (x : Xop) : (s.putXop x).vec = s.vec := rfl
@[simp] theorem State.putXop_als (s : State) (x : Xop) : (s.putXop x).als = s.als := rfl
@[simp] theorem State.putXop_alsScrub (s : State) (x : Xop) : (s.putXop x).alsScrub = s.alsScrub := rfl
@[simp] theorem State.putXop_dss (s : State) (x : Xop) : (s.putXop x).dss = s.dss := rfl
@[simp] theorem State.putXop_dma (s : State) (x : Xop) : (s.putXop x).dma = s.dma := rfl
@[simp] theorem State.putXop_ctx (s : State) (x : Xop) : (s.putXop x).ctx = s.ctx := rfl
@[simp] theorem State.putXop_queues (s : State) (x : Xop) : (s.putXop x).queues = s.queues := rfl
@[simp] theorem State.putXop_holder (s : State) (x : Xop) : (s.putXop x).holder = s.holder := rfl
@[simp] theorem State.putXop_seq (s : State) (x : Xop) : (s.putXop x).seq = s.seq := rfl
@[simp] theorem State.putXop_outbox (s : State) (x : Xop) : (s.putXop x).outbox = s.outbox := rfl
@[simp] theorem State.putXop_draws (s : State) (x : Xop) : (s.putXop x).draws = s.draws := rfl
@[simp] theorem State.putXop_bxl (s : State) (x : Xop) : (s.putXop x).bxl = s.bxl := rfl
@[simp] theorem State.putXop_pwr (s : State) (x : Xop) : (s.putXop x).pwr = s.pwr := rfl
@[simp] theorem State.putXop_halted (s : State) (x : Xop) : (s.putXop x).halted = s.halted := rfl
@[simp] theorem State.putXop_life (s : State) (x : Xop) : (s.putXop x).life = s.life := rfl
@[simp] theorem State.putXop_link (s : State) (x : Xop) : (s.putXop x).link = s.link := rfl
@[simp] theorem State.putXop_port (s : State) (x : Xop) : (s.putXop x).port = s.port := rfl
@[simp] theorem State.putXop_rtr (s : State) (x : Xop) : (s.putXop x).rtr = s.rtr := rfl
@[simp] theorem State.putXop_cat (s : State) (x : Xop) : (s.putXop x).cat = s.cat := rfl
@[simp] theorem State.putXop_nmu (s : State) (x : Xop) : (s.putXop x).nmu = s.nmu := rfl
@[simp] theorem State.putXop_pair (s : State) (x : Xop) : (s.putXop x).pair = s.pair := rfl
@[simp] theorem State.putXop_mgmt (s : State) (x : Xop) : (s.putXop x).mgmt = s.mgmt := rfl
@[simp] theorem State.putXop_pins (s : State) (x : Xop) : (s.putXop x).pins = s.pins := rfl
@[simp] theorem State.putXop_obs (s : State) (x : Xop) : (s.putXop x).obs = s.obs := rfl
@[simp] theorem State.putXop_bridge (s : State) (x : Xop) : (s.putXop x).bridge = s.bridge := rfl
@[simp] theorem State.putXop_flash (s : State) (x : Xop) : (s.putXop x).flash = s.flash := rfl

/-! `setSslot` -/

@[simp] theorem State.setSslot_pending (s : State) (i : Nat) (v : SSlot) : (s.setSslot i v).pending = s.pending := rfl
@[simp] theorem State.setSslot_gtime (s : State) (i : Nat) (v : SSlot) : (s.setSslot i v).gtime = s.gtime := rfl
@[simp] theorem State.setSslot_regs (s : State) (i : Nat) (v : SSlot) : (s.setSslot i v).regs = s.regs := rfl
@[simp] theorem State.setSslot_hiCap (s : State) (i : Nat) (v : SSlot) : (s.setSslot i v).hiCap = s.hiCap := rfl
@[simp] theorem State.setSslot_isl (s : State) (i : Nat) (v : SSlot) : (s.setSslot i v).isl = s.isl := rfl
@[simp] theorem State.setSslot_mem (s : State) (i : Nat) (v : SSlot) : (s.setSslot i v).mem = s.mem := rfl
@[simp] theorem State.setSslot_mmu (s : State) (i : Nat) (v : SSlot) : (s.setSslot i v).mmu = s.mmu := rfl
@[simp] theorem State.setSslot_arr (s : State) (i : Nat) (v : SSlot) : (s.setSslot i v).arr = s.arr := rfl
@[simp] theorem State.setSslot_vec (s : State) (i : Nat) (v : SSlot) : (s.setSslot i v).vec = s.vec := rfl
@[simp] theorem State.setSslot_als (s : State) (i : Nat) (v : SSlot) : (s.setSslot i v).als = s.als := rfl
@[simp] theorem State.setSslot_alsScrub (s : State) (i : Nat) (v : SSlot) : (s.setSslot i v).alsScrub = s.alsScrub := rfl
@[simp] theorem State.setSslot_dss (s : State) (i : Nat) (v : SSlot) : (s.setSslot i v).dss = s.dss := rfl
@[simp] theorem State.setSslot_dma (s : State) (i : Nat) (v : SSlot) : (s.setSslot i v).dma = s.dma := rfl
@[simp] theorem State.setSslot_ctx (s : State) (i : Nat) (v : SSlot) : (s.setSslot i v).ctx = s.ctx := rfl
@[simp] theorem State.setSslot_queues (s : State) (i : Nat) (v : SSlot) : (s.setSslot i v).queues = s.queues := rfl
@[simp] theorem State.setSslot_holder (s : State) (i : Nat) (v : SSlot) : (s.setSslot i v).holder = s.holder := rfl
@[simp] theorem State.setSslot_seq (s : State) (i : Nat) (v : SSlot) : (s.setSslot i v).seq = s.seq := rfl
@[simp] theorem State.setSslot_outbox (s : State) (i : Nat) (v : SSlot) : (s.setSslot i v).outbox = s.outbox := rfl
@[simp] theorem State.setSslot_draws (s : State) (i : Nat) (v : SSlot) : (s.setSslot i v).draws = s.draws := rfl
@[simp] theorem State.setSslot_bxl (s : State) (i : Nat) (v : SSlot) : (s.setSslot i v).bxl = s.bxl := rfl
@[simp] theorem State.setSslot_pwr (s : State) (i : Nat) (v : SSlot) : (s.setSslot i v).pwr = s.pwr := rfl
@[simp] theorem State.setSslot_halted (s : State) (i : Nat) (v : SSlot) : (s.setSslot i v).halted = s.halted := rfl
@[simp] theorem State.setSslot_life (s : State) (i : Nat) (v : SSlot) : (s.setSslot i v).life = s.life := rfl
@[simp] theorem State.setSslot_link (s : State) (i : Nat) (v : SSlot) : (s.setSslot i v).link = s.link := rfl
@[simp] theorem State.setSslot_port (s : State) (i : Nat) (v : SSlot) : (s.setSslot i v).port = s.port := rfl
@[simp] theorem State.setSslot_rtr (s : State) (i : Nat) (v : SSlot) : (s.setSslot i v).rtr = s.rtr := rfl
@[simp] theorem State.setSslot_xch (s : State) (i : Nat) (v : SSlot) : (s.setSslot i v).xch = s.xch := rfl
@[simp] theorem State.setSslot_nmu (s : State) (i : Nat) (v : SSlot) : (s.setSslot i v).nmu = s.nmu := rfl
@[simp] theorem State.setSslot_pair (s : State) (i : Nat) (v : SSlot) : (s.setSslot i v).pair = s.pair := rfl
@[simp] theorem State.setSslot_mgmt (s : State) (i : Nat) (v : SSlot) : (s.setSslot i v).mgmt = s.mgmt := rfl
@[simp] theorem State.setSslot_pins (s : State) (i : Nat) (v : SSlot) : (s.setSslot i v).pins = s.pins := rfl
@[simp] theorem State.setSslot_obs (s : State) (i : Nat) (v : SSlot) : (s.setSslot i v).obs = s.obs := rfl
@[simp] theorem State.setSslot_bridge (s : State) (i : Nat) (v : SSlot) : (s.setSslot i v).bridge = s.bridge := rfl
@[simp] theorem State.setSslot_flash (s : State) (i : Nat) (v : SSlot) : (s.setSslot i v).flash = s.flash := rfl

/-! Registers after the updates of other parts -/

@[simp] theorem State.send_reg (s : State) (m : Msg) (b' : Block) (i' po' : Nat) : (s.send m).reg b' i' po' = s.reg b' i' po' := rfl
@[simp] theorem State.setIsl_reg (s : State) (i : Nat) (v : Island) (b' : Block) (i' po' : Nat) : (s.setIsl i v).reg b' i' po' = s.reg b' i' po' := rfl
@[simp] theorem State.setArr_reg (s : State) (n : Nat) (v : Arr) (b' : Block) (i' po' : Nat) : (s.setArr n v).reg b' i' po' = s.reg b' i' po' := rfl
@[simp] theorem State.setVec_reg (s : State) (n : Nat) (v : VecEng) (b' : Block) (i' po' : Nat) : (s.setVec n v).reg b' i' po' = s.reg b' i' po' := rfl
@[simp] theorem State.setAls_reg (s : State) (n : Nat) (v : Store) (b' : Block) (i' po' : Nat) : (s.setAls n v).reg b' i' po' = s.reg b' i' po' := rfl
@[simp] theorem State.setDss_reg (s : State) (d : Nat) (v : Store) (b' : Block) (i' po' : Nat) : (s.setDss d v).reg b' i' po' = s.reg b' i' po' := rfl
@[simp] theorem State.setCh_reg (s : State) (k : Nat) (v : DmaCh) (b' : Block) (i' po' : Nat) : (s.setCh k v).reg b' i' po' = s.reg b' i' po' := rfl
@[simp] theorem State.setCtx_reg (s : State) (c : Nat) (v : Ctx) (b' : Block) (i' po' : Nat) : (s.setCtx c v).reg b' i' po' = s.reg b' i' po' := rfl
@[simp] theorem State.setQueue_reg (s : State) (q : Nat) (v : Queue) (b' : Block) (i' po' : Nat) : (s.setQueue q v).reg b' i' po' = s.reg b' i' po' := rfl
@[simp] theorem State.setHolder_reg (s : State) (n : Nat) (v : Holder) (b' : Block) (i' po' : Nat) : (s.setHolder n v).reg b' i' po' = s.reg b' i' po' := rfl
@[simp] theorem State.setSeq_reg (s : State) (n : Nat) (v : Seq) (b' : Block) (i' po' : Nat) : (s.setSeq n v).reg b' i' po' = s.reg b' i' po' := rfl
@[simp] theorem State.setBlk_reg (s : State) (b : Nat) (v : MemBlk) (b' : Block) (i' po' : Nat) : (s.setBlk b v).reg b' i' po' = s.reg b' i' po' := rfl
@[simp] theorem State.setPort_reg (s : State) (p : Nat) (v : PortX) (b' : Block) (i' po' : Nat) : (s.setPort p v).reg b' i' po' = s.reg b' i' po' := rfl
@[simp] theorem State.setLink_reg (s : State) (l : Nat) (v : LinkLayer) (b' : Block) (i' po' : Nat) : (s.setLink l v).reg b' i' po' = s.reg b' i' po' := rfl
@[simp] theorem State.setNmu_reg (s : State) (u : Nat) (v : Nmu) (b' : Block) (i' po' : Nat) : (s.setNmu u v).reg b' i' po' = s.reg b' i' po' := rfl
@[simp] theorem State.putXop_reg (s : State) (x : Xop) (b' : Block) (i' po' : Nat) : (s.putXop x).reg b' i' po' = s.reg b' i' po' := rfl
@[simp] theorem State.setSslot_reg (s : State) (i : Nat) (v : SSlot) (b' : Block) (i' po' : Nat) : (s.setSslot i v).reg b' i' po' = s.reg b' i' po' := rfl

/-! Indexed parts after the updates of others -/

@[simp] theorem State.rset_islOf (s : State) (off : Nat) (v : Nat) (k' : Nat) : (s.rset off v).islOf k' = s.islOf k' := rfl
@[simp] theorem State.setReg_islOf (s : State) (b : Block) (i : Nat) (po : Nat) (v : Nat) (k' : Nat) : (s.setReg b i po v).islOf k' = s.islOf k' := rfl
@[simp] theorem State.setField_islOf (s : State) (b : Block) (i : Nat) (po : Nat) (lo : Nat) (w : Nat) (v : Nat) (k' : Nat) : (s.setField b i po lo w v).islOf k' = s.islOf k' := rfl
@[simp] theorem State.bump_islOf (s : State) (b : Block) (i : Nat) (po : Nat) (n : Nat) (k' : Nat) : (s.bump b i po n).islOf k' = s.islOf k' := rfl
@[simp] theorem State.send_islOf (s : State) (m : Msg) (k' : Nat) : (s.send m).islOf k' = s.islOf k' := rfl
@[simp] theorem State.setArr_islOf (s : State) (n : Nat) (v : Arr) (k' : Nat) : (s.setArr n v).islOf k' = s.islOf k' := rfl
@[simp] theorem State.setVec_islOf (s : State) (n : Nat) (v : VecEng) (k' : Nat) : (s.setVec n v).islOf k' = s.islOf k' := rfl
@[simp] theorem State.setAls_islOf (s : State) (n : Nat) (v : Store) (k' : Nat) : (s.setAls n v).islOf k' = s.islOf k' := rfl
@[simp] theorem State.setDss_islOf (s : State) (d : Nat) (v : Store) (k' : Nat) : (s.setDss d v).islOf k' = s.islOf k' := rfl
@[simp] theorem State.setCh_islOf (s : State) (k : Nat) (v : DmaCh) (k' : Nat) : (s.setCh k v).islOf k' = s.islOf k' := rfl
@[simp] theorem State.setCtx_islOf (s : State) (c : Nat) (v : Ctx) (k' : Nat) : (s.setCtx c v).islOf k' = s.islOf k' := rfl
@[simp] theorem State.setQueue_islOf (s : State) (q : Nat) (v : Queue) (k' : Nat) : (s.setQueue q v).islOf k' = s.islOf k' := rfl
@[simp] theorem State.setHolder_islOf (s : State) (n : Nat) (v : Holder) (k' : Nat) : (s.setHolder n v).islOf k' = s.islOf k' := rfl
@[simp] theorem State.setSeq_islOf (s : State) (n : Nat) (v : Seq) (k' : Nat) : (s.setSeq n v).islOf k' = s.islOf k' := rfl
@[simp] theorem State.setBlk_islOf (s : State) (b : Nat) (v : MemBlk) (k' : Nat) : (s.setBlk b v).islOf k' = s.islOf k' := rfl
@[simp] theorem State.setPort_islOf (s : State) (p : Nat) (v : PortX) (k' : Nat) : (s.setPort p v).islOf k' = s.islOf k' := rfl
@[simp] theorem State.setLink_islOf (s : State) (l : Nat) (v : LinkLayer) (k' : Nat) : (s.setLink l v).islOf k' = s.islOf k' := rfl
@[simp] theorem State.setNmu_islOf (s : State) (u : Nat) (v : Nmu) (k' : Nat) : (s.setNmu u v).islOf k' = s.islOf k' := rfl
@[simp] theorem State.putXop_islOf (s : State) (x : Xop) (k' : Nat) : (s.putXop x).islOf k' = s.islOf k' := rfl
@[simp] theorem State.setSslot_islOf (s : State) (i : Nat) (v : SSlot) (k' : Nat) : (s.setSslot i v).islOf k' = s.islOf k' := rfl
@[simp] theorem State.rset_arrOf (s : State) (off : Nat) (v : Nat) (k' : Nat) : (s.rset off v).arrOf k' = s.arrOf k' := rfl
@[simp] theorem State.setReg_arrOf (s : State) (b : Block) (i : Nat) (po : Nat) (v : Nat) (k' : Nat) : (s.setReg b i po v).arrOf k' = s.arrOf k' := rfl
@[simp] theorem State.setField_arrOf (s : State) (b : Block) (i : Nat) (po : Nat) (lo : Nat) (w : Nat) (v : Nat) (k' : Nat) : (s.setField b i po lo w v).arrOf k' = s.arrOf k' := rfl
@[simp] theorem State.bump_arrOf (s : State) (b : Block) (i : Nat) (po : Nat) (n : Nat) (k' : Nat) : (s.bump b i po n).arrOf k' = s.arrOf k' := rfl
@[simp] theorem State.send_arrOf (s : State) (m : Msg) (k' : Nat) : (s.send m).arrOf k' = s.arrOf k' := rfl
@[simp] theorem State.setIsl_arrOf (s : State) (i : Nat) (v : Island) (k' : Nat) : (s.setIsl i v).arrOf k' = s.arrOf k' := rfl
@[simp] theorem State.setVec_arrOf (s : State) (n : Nat) (v : VecEng) (k' : Nat) : (s.setVec n v).arrOf k' = s.arrOf k' := rfl
@[simp] theorem State.setAls_arrOf (s : State) (n : Nat) (v : Store) (k' : Nat) : (s.setAls n v).arrOf k' = s.arrOf k' := rfl
@[simp] theorem State.setDss_arrOf (s : State) (d : Nat) (v : Store) (k' : Nat) : (s.setDss d v).arrOf k' = s.arrOf k' := rfl
@[simp] theorem State.setCh_arrOf (s : State) (k : Nat) (v : DmaCh) (k' : Nat) : (s.setCh k v).arrOf k' = s.arrOf k' := rfl
@[simp] theorem State.setCtx_arrOf (s : State) (c : Nat) (v : Ctx) (k' : Nat) : (s.setCtx c v).arrOf k' = s.arrOf k' := rfl
@[simp] theorem State.setQueue_arrOf (s : State) (q : Nat) (v : Queue) (k' : Nat) : (s.setQueue q v).arrOf k' = s.arrOf k' := rfl
@[simp] theorem State.setHolder_arrOf (s : State) (n : Nat) (v : Holder) (k' : Nat) : (s.setHolder n v).arrOf k' = s.arrOf k' := rfl
@[simp] theorem State.setSeq_arrOf (s : State) (n : Nat) (v : Seq) (k' : Nat) : (s.setSeq n v).arrOf k' = s.arrOf k' := rfl
@[simp] theorem State.setBlk_arrOf (s : State) (b : Nat) (v : MemBlk) (k' : Nat) : (s.setBlk b v).arrOf k' = s.arrOf k' := rfl
@[simp] theorem State.setPort_arrOf (s : State) (p : Nat) (v : PortX) (k' : Nat) : (s.setPort p v).arrOf k' = s.arrOf k' := rfl
@[simp] theorem State.setLink_arrOf (s : State) (l : Nat) (v : LinkLayer) (k' : Nat) : (s.setLink l v).arrOf k' = s.arrOf k' := rfl
@[simp] theorem State.setNmu_arrOf (s : State) (u : Nat) (v : Nmu) (k' : Nat) : (s.setNmu u v).arrOf k' = s.arrOf k' := rfl
@[simp] theorem State.putXop_arrOf (s : State) (x : Xop) (k' : Nat) : (s.putXop x).arrOf k' = s.arrOf k' := rfl
@[simp] theorem State.setSslot_arrOf (s : State) (i : Nat) (v : SSlot) (k' : Nat) : (s.setSslot i v).arrOf k' = s.arrOf k' := rfl
@[simp] theorem State.rset_vecOf (s : State) (off : Nat) (v : Nat) (k' : Nat) : (s.rset off v).vecOf k' = s.vecOf k' := rfl
@[simp] theorem State.setReg_vecOf (s : State) (b : Block) (i : Nat) (po : Nat) (v : Nat) (k' : Nat) : (s.setReg b i po v).vecOf k' = s.vecOf k' := rfl
@[simp] theorem State.setField_vecOf (s : State) (b : Block) (i : Nat) (po : Nat) (lo : Nat) (w : Nat) (v : Nat) (k' : Nat) : (s.setField b i po lo w v).vecOf k' = s.vecOf k' := rfl
@[simp] theorem State.bump_vecOf (s : State) (b : Block) (i : Nat) (po : Nat) (n : Nat) (k' : Nat) : (s.bump b i po n).vecOf k' = s.vecOf k' := rfl
@[simp] theorem State.send_vecOf (s : State) (m : Msg) (k' : Nat) : (s.send m).vecOf k' = s.vecOf k' := rfl
@[simp] theorem State.setIsl_vecOf (s : State) (i : Nat) (v : Island) (k' : Nat) : (s.setIsl i v).vecOf k' = s.vecOf k' := rfl
@[simp] theorem State.setArr_vecOf (s : State) (n : Nat) (v : Arr) (k' : Nat) : (s.setArr n v).vecOf k' = s.vecOf k' := rfl
@[simp] theorem State.setAls_vecOf (s : State) (n : Nat) (v : Store) (k' : Nat) : (s.setAls n v).vecOf k' = s.vecOf k' := rfl
@[simp] theorem State.setDss_vecOf (s : State) (d : Nat) (v : Store) (k' : Nat) : (s.setDss d v).vecOf k' = s.vecOf k' := rfl
@[simp] theorem State.setCh_vecOf (s : State) (k : Nat) (v : DmaCh) (k' : Nat) : (s.setCh k v).vecOf k' = s.vecOf k' := rfl
@[simp] theorem State.setCtx_vecOf (s : State) (c : Nat) (v : Ctx) (k' : Nat) : (s.setCtx c v).vecOf k' = s.vecOf k' := rfl
@[simp] theorem State.setQueue_vecOf (s : State) (q : Nat) (v : Queue) (k' : Nat) : (s.setQueue q v).vecOf k' = s.vecOf k' := rfl
@[simp] theorem State.setHolder_vecOf (s : State) (n : Nat) (v : Holder) (k' : Nat) : (s.setHolder n v).vecOf k' = s.vecOf k' := rfl
@[simp] theorem State.setSeq_vecOf (s : State) (n : Nat) (v : Seq) (k' : Nat) : (s.setSeq n v).vecOf k' = s.vecOf k' := rfl
@[simp] theorem State.setBlk_vecOf (s : State) (b : Nat) (v : MemBlk) (k' : Nat) : (s.setBlk b v).vecOf k' = s.vecOf k' := rfl
@[simp] theorem State.setPort_vecOf (s : State) (p : Nat) (v : PortX) (k' : Nat) : (s.setPort p v).vecOf k' = s.vecOf k' := rfl
@[simp] theorem State.setLink_vecOf (s : State) (l : Nat) (v : LinkLayer) (k' : Nat) : (s.setLink l v).vecOf k' = s.vecOf k' := rfl
@[simp] theorem State.setNmu_vecOf (s : State) (u : Nat) (v : Nmu) (k' : Nat) : (s.setNmu u v).vecOf k' = s.vecOf k' := rfl
@[simp] theorem State.putXop_vecOf (s : State) (x : Xop) (k' : Nat) : (s.putXop x).vecOf k' = s.vecOf k' := rfl
@[simp] theorem State.setSslot_vecOf (s : State) (i : Nat) (v : SSlot) (k' : Nat) : (s.setSslot i v).vecOf k' = s.vecOf k' := rfl
@[simp] theorem State.rset_alsOf (s : State) (off : Nat) (v : Nat) (k' : Nat) : (s.rset off v).alsOf k' = s.alsOf k' := rfl
@[simp] theorem State.setReg_alsOf (s : State) (b : Block) (i : Nat) (po : Nat) (v : Nat) (k' : Nat) : (s.setReg b i po v).alsOf k' = s.alsOf k' := rfl
@[simp] theorem State.setField_alsOf (s : State) (b : Block) (i : Nat) (po : Nat) (lo : Nat) (w : Nat) (v : Nat) (k' : Nat) : (s.setField b i po lo w v).alsOf k' = s.alsOf k' := rfl
@[simp] theorem State.bump_alsOf (s : State) (b : Block) (i : Nat) (po : Nat) (n : Nat) (k' : Nat) : (s.bump b i po n).alsOf k' = s.alsOf k' := rfl
@[simp] theorem State.send_alsOf (s : State) (m : Msg) (k' : Nat) : (s.send m).alsOf k' = s.alsOf k' := rfl
@[simp] theorem State.setIsl_alsOf (s : State) (i : Nat) (v : Island) (k' : Nat) : (s.setIsl i v).alsOf k' = s.alsOf k' := rfl
@[simp] theorem State.setArr_alsOf (s : State) (n : Nat) (v : Arr) (k' : Nat) : (s.setArr n v).alsOf k' = s.alsOf k' := rfl
@[simp] theorem State.setVec_alsOf (s : State) (n : Nat) (v : VecEng) (k' : Nat) : (s.setVec n v).alsOf k' = s.alsOf k' := rfl
@[simp] theorem State.setDss_alsOf (s : State) (d : Nat) (v : Store) (k' : Nat) : (s.setDss d v).alsOf k' = s.alsOf k' := rfl
@[simp] theorem State.setCh_alsOf (s : State) (k : Nat) (v : DmaCh) (k' : Nat) : (s.setCh k v).alsOf k' = s.alsOf k' := rfl
@[simp] theorem State.setCtx_alsOf (s : State) (c : Nat) (v : Ctx) (k' : Nat) : (s.setCtx c v).alsOf k' = s.alsOf k' := rfl
@[simp] theorem State.setQueue_alsOf (s : State) (q : Nat) (v : Queue) (k' : Nat) : (s.setQueue q v).alsOf k' = s.alsOf k' := rfl
@[simp] theorem State.setHolder_alsOf (s : State) (n : Nat) (v : Holder) (k' : Nat) : (s.setHolder n v).alsOf k' = s.alsOf k' := rfl
@[simp] theorem State.setSeq_alsOf (s : State) (n : Nat) (v : Seq) (k' : Nat) : (s.setSeq n v).alsOf k' = s.alsOf k' := rfl
@[simp] theorem State.setBlk_alsOf (s : State) (b : Nat) (v : MemBlk) (k' : Nat) : (s.setBlk b v).alsOf k' = s.alsOf k' := rfl
@[simp] theorem State.setPort_alsOf (s : State) (p : Nat) (v : PortX) (k' : Nat) : (s.setPort p v).alsOf k' = s.alsOf k' := rfl
@[simp] theorem State.setLink_alsOf (s : State) (l : Nat) (v : LinkLayer) (k' : Nat) : (s.setLink l v).alsOf k' = s.alsOf k' := rfl
@[simp] theorem State.setNmu_alsOf (s : State) (u : Nat) (v : Nmu) (k' : Nat) : (s.setNmu u v).alsOf k' = s.alsOf k' := rfl
@[simp] theorem State.putXop_alsOf (s : State) (x : Xop) (k' : Nat) : (s.putXop x).alsOf k' = s.alsOf k' := rfl
@[simp] theorem State.setSslot_alsOf (s : State) (i : Nat) (v : SSlot) (k' : Nat) : (s.setSslot i v).alsOf k' = s.alsOf k' := rfl
@[simp] theorem State.rset_dssOf (s : State) (off : Nat) (v : Nat) (k' : Nat) : (s.rset off v).dssOf k' = s.dssOf k' := rfl
@[simp] theorem State.setReg_dssOf (s : State) (b : Block) (i : Nat) (po : Nat) (v : Nat) (k' : Nat) : (s.setReg b i po v).dssOf k' = s.dssOf k' := rfl
@[simp] theorem State.setField_dssOf (s : State) (b : Block) (i : Nat) (po : Nat) (lo : Nat) (w : Nat) (v : Nat) (k' : Nat) : (s.setField b i po lo w v).dssOf k' = s.dssOf k' := rfl
@[simp] theorem State.bump_dssOf (s : State) (b : Block) (i : Nat) (po : Nat) (n : Nat) (k' : Nat) : (s.bump b i po n).dssOf k' = s.dssOf k' := rfl
@[simp] theorem State.send_dssOf (s : State) (m : Msg) (k' : Nat) : (s.send m).dssOf k' = s.dssOf k' := rfl
@[simp] theorem State.setIsl_dssOf (s : State) (i : Nat) (v : Island) (k' : Nat) : (s.setIsl i v).dssOf k' = s.dssOf k' := rfl
@[simp] theorem State.setArr_dssOf (s : State) (n : Nat) (v : Arr) (k' : Nat) : (s.setArr n v).dssOf k' = s.dssOf k' := rfl
@[simp] theorem State.setVec_dssOf (s : State) (n : Nat) (v : VecEng) (k' : Nat) : (s.setVec n v).dssOf k' = s.dssOf k' := rfl
@[simp] theorem State.setAls_dssOf (s : State) (n : Nat) (v : Store) (k' : Nat) : (s.setAls n v).dssOf k' = s.dssOf k' := rfl
@[simp] theorem State.setCh_dssOf (s : State) (k : Nat) (v : DmaCh) (k' : Nat) : (s.setCh k v).dssOf k' = s.dssOf k' := rfl
@[simp] theorem State.setCtx_dssOf (s : State) (c : Nat) (v : Ctx) (k' : Nat) : (s.setCtx c v).dssOf k' = s.dssOf k' := rfl
@[simp] theorem State.setQueue_dssOf (s : State) (q : Nat) (v : Queue) (k' : Nat) : (s.setQueue q v).dssOf k' = s.dssOf k' := rfl
@[simp] theorem State.setHolder_dssOf (s : State) (n : Nat) (v : Holder) (k' : Nat) : (s.setHolder n v).dssOf k' = s.dssOf k' := rfl
@[simp] theorem State.setSeq_dssOf (s : State) (n : Nat) (v : Seq) (k' : Nat) : (s.setSeq n v).dssOf k' = s.dssOf k' := rfl
@[simp] theorem State.setBlk_dssOf (s : State) (b : Nat) (v : MemBlk) (k' : Nat) : (s.setBlk b v).dssOf k' = s.dssOf k' := rfl
@[simp] theorem State.setPort_dssOf (s : State) (p : Nat) (v : PortX) (k' : Nat) : (s.setPort p v).dssOf k' = s.dssOf k' := rfl
@[simp] theorem State.setLink_dssOf (s : State) (l : Nat) (v : LinkLayer) (k' : Nat) : (s.setLink l v).dssOf k' = s.dssOf k' := rfl
@[simp] theorem State.setNmu_dssOf (s : State) (u : Nat) (v : Nmu) (k' : Nat) : (s.setNmu u v).dssOf k' = s.dssOf k' := rfl
@[simp] theorem State.putXop_dssOf (s : State) (x : Xop) (k' : Nat) : (s.putXop x).dssOf k' = s.dssOf k' := rfl
@[simp] theorem State.setSslot_dssOf (s : State) (i : Nat) (v : SSlot) (k' : Nat) : (s.setSslot i v).dssOf k' = s.dssOf k' := rfl
@[simp] theorem State.rset_chOf (s : State) (off : Nat) (v : Nat) (k' : Nat) : (s.rset off v).chOf k' = s.chOf k' := rfl
@[simp] theorem State.setReg_chOf (s : State) (b : Block) (i : Nat) (po : Nat) (v : Nat) (k' : Nat) : (s.setReg b i po v).chOf k' = s.chOf k' := rfl
@[simp] theorem State.setField_chOf (s : State) (b : Block) (i : Nat) (po : Nat) (lo : Nat) (w : Nat) (v : Nat) (k' : Nat) : (s.setField b i po lo w v).chOf k' = s.chOf k' := rfl
@[simp] theorem State.bump_chOf (s : State) (b : Block) (i : Nat) (po : Nat) (n : Nat) (k' : Nat) : (s.bump b i po n).chOf k' = s.chOf k' := rfl
@[simp] theorem State.send_chOf (s : State) (m : Msg) (k' : Nat) : (s.send m).chOf k' = s.chOf k' := rfl
@[simp] theorem State.setIsl_chOf (s : State) (i : Nat) (v : Island) (k' : Nat) : (s.setIsl i v).chOf k' = s.chOf k' := rfl
@[simp] theorem State.setArr_chOf (s : State) (n : Nat) (v : Arr) (k' : Nat) : (s.setArr n v).chOf k' = s.chOf k' := rfl
@[simp] theorem State.setVec_chOf (s : State) (n : Nat) (v : VecEng) (k' : Nat) : (s.setVec n v).chOf k' = s.chOf k' := rfl
@[simp] theorem State.setAls_chOf (s : State) (n : Nat) (v : Store) (k' : Nat) : (s.setAls n v).chOf k' = s.chOf k' := rfl
@[simp] theorem State.setDss_chOf (s : State) (d : Nat) (v : Store) (k' : Nat) : (s.setDss d v).chOf k' = s.chOf k' := rfl
@[simp] theorem State.setCtx_chOf (s : State) (c : Nat) (v : Ctx) (k' : Nat) : (s.setCtx c v).chOf k' = s.chOf k' := rfl
@[simp] theorem State.setQueue_chOf (s : State) (q : Nat) (v : Queue) (k' : Nat) : (s.setQueue q v).chOf k' = s.chOf k' := rfl
@[simp] theorem State.setHolder_chOf (s : State) (n : Nat) (v : Holder) (k' : Nat) : (s.setHolder n v).chOf k' = s.chOf k' := rfl
@[simp] theorem State.setSeq_chOf (s : State) (n : Nat) (v : Seq) (k' : Nat) : (s.setSeq n v).chOf k' = s.chOf k' := rfl
@[simp] theorem State.setBlk_chOf (s : State) (b : Nat) (v : MemBlk) (k' : Nat) : (s.setBlk b v).chOf k' = s.chOf k' := rfl
@[simp] theorem State.setPort_chOf (s : State) (p : Nat) (v : PortX) (k' : Nat) : (s.setPort p v).chOf k' = s.chOf k' := rfl
@[simp] theorem State.setLink_chOf (s : State) (l : Nat) (v : LinkLayer) (k' : Nat) : (s.setLink l v).chOf k' = s.chOf k' := rfl
@[simp] theorem State.setNmu_chOf (s : State) (u : Nat) (v : Nmu) (k' : Nat) : (s.setNmu u v).chOf k' = s.chOf k' := rfl
@[simp] theorem State.putXop_chOf (s : State) (x : Xop) (k' : Nat) : (s.putXop x).chOf k' = s.chOf k' := rfl
@[simp] theorem State.setSslot_chOf (s : State) (i : Nat) (v : SSlot) (k' : Nat) : (s.setSslot i v).chOf k' = s.chOf k' := rfl
@[simp] theorem State.rset_ctxOf (s : State) (off : Nat) (v : Nat) (k' : Nat) : (s.rset off v).ctxOf k' = s.ctxOf k' := rfl
@[simp] theorem State.setReg_ctxOf (s : State) (b : Block) (i : Nat) (po : Nat) (v : Nat) (k' : Nat) : (s.setReg b i po v).ctxOf k' = s.ctxOf k' := rfl
@[simp] theorem State.setField_ctxOf (s : State) (b : Block) (i : Nat) (po : Nat) (lo : Nat) (w : Nat) (v : Nat) (k' : Nat) : (s.setField b i po lo w v).ctxOf k' = s.ctxOf k' := rfl
@[simp] theorem State.bump_ctxOf (s : State) (b : Block) (i : Nat) (po : Nat) (n : Nat) (k' : Nat) : (s.bump b i po n).ctxOf k' = s.ctxOf k' := rfl
@[simp] theorem State.send_ctxOf (s : State) (m : Msg) (k' : Nat) : (s.send m).ctxOf k' = s.ctxOf k' := rfl
@[simp] theorem State.setIsl_ctxOf (s : State) (i : Nat) (v : Island) (k' : Nat) : (s.setIsl i v).ctxOf k' = s.ctxOf k' := rfl
@[simp] theorem State.setArr_ctxOf (s : State) (n : Nat) (v : Arr) (k' : Nat) : (s.setArr n v).ctxOf k' = s.ctxOf k' := rfl
@[simp] theorem State.setVec_ctxOf (s : State) (n : Nat) (v : VecEng) (k' : Nat) : (s.setVec n v).ctxOf k' = s.ctxOf k' := rfl
@[simp] theorem State.setAls_ctxOf (s : State) (n : Nat) (v : Store) (k' : Nat) : (s.setAls n v).ctxOf k' = s.ctxOf k' := rfl
@[simp] theorem State.setDss_ctxOf (s : State) (d : Nat) (v : Store) (k' : Nat) : (s.setDss d v).ctxOf k' = s.ctxOf k' := rfl
@[simp] theorem State.setCh_ctxOf (s : State) (k : Nat) (v : DmaCh) (k' : Nat) : (s.setCh k v).ctxOf k' = s.ctxOf k' := rfl
@[simp] theorem State.setQueue_ctxOf (s : State) (q : Nat) (v : Queue) (k' : Nat) : (s.setQueue q v).ctxOf k' = s.ctxOf k' := rfl
@[simp] theorem State.setHolder_ctxOf (s : State) (n : Nat) (v : Holder) (k' : Nat) : (s.setHolder n v).ctxOf k' = s.ctxOf k' := rfl
@[simp] theorem State.setSeq_ctxOf (s : State) (n : Nat) (v : Seq) (k' : Nat) : (s.setSeq n v).ctxOf k' = s.ctxOf k' := rfl
@[simp] theorem State.setBlk_ctxOf (s : State) (b : Nat) (v : MemBlk) (k' : Nat) : (s.setBlk b v).ctxOf k' = s.ctxOf k' := rfl
@[simp] theorem State.setPort_ctxOf (s : State) (p : Nat) (v : PortX) (k' : Nat) : (s.setPort p v).ctxOf k' = s.ctxOf k' := rfl
@[simp] theorem State.setLink_ctxOf (s : State) (l : Nat) (v : LinkLayer) (k' : Nat) : (s.setLink l v).ctxOf k' = s.ctxOf k' := rfl
@[simp] theorem State.setNmu_ctxOf (s : State) (u : Nat) (v : Nmu) (k' : Nat) : (s.setNmu u v).ctxOf k' = s.ctxOf k' := rfl
@[simp] theorem State.putXop_ctxOf (s : State) (x : Xop) (k' : Nat) : (s.putXop x).ctxOf k' = s.ctxOf k' := rfl
@[simp] theorem State.setSslot_ctxOf (s : State) (i : Nat) (v : SSlot) (k' : Nat) : (s.setSslot i v).ctxOf k' = s.ctxOf k' := rfl
@[simp] theorem State.rset_queueOf (s : State) (off : Nat) (v : Nat) (k' : Nat) : (s.rset off v).queueOf k' = s.queueOf k' := rfl
@[simp] theorem State.setReg_queueOf (s : State) (b : Block) (i : Nat) (po : Nat) (v : Nat) (k' : Nat) : (s.setReg b i po v).queueOf k' = s.queueOf k' := rfl
@[simp] theorem State.setField_queueOf (s : State) (b : Block) (i : Nat) (po : Nat) (lo : Nat) (w : Nat) (v : Nat) (k' : Nat) : (s.setField b i po lo w v).queueOf k' = s.queueOf k' := rfl
@[simp] theorem State.bump_queueOf (s : State) (b : Block) (i : Nat) (po : Nat) (n : Nat) (k' : Nat) : (s.bump b i po n).queueOf k' = s.queueOf k' := rfl
@[simp] theorem State.send_queueOf (s : State) (m : Msg) (k' : Nat) : (s.send m).queueOf k' = s.queueOf k' := rfl
@[simp] theorem State.setIsl_queueOf (s : State) (i : Nat) (v : Island) (k' : Nat) : (s.setIsl i v).queueOf k' = s.queueOf k' := rfl
@[simp] theorem State.setArr_queueOf (s : State) (n : Nat) (v : Arr) (k' : Nat) : (s.setArr n v).queueOf k' = s.queueOf k' := rfl
@[simp] theorem State.setVec_queueOf (s : State) (n : Nat) (v : VecEng) (k' : Nat) : (s.setVec n v).queueOf k' = s.queueOf k' := rfl
@[simp] theorem State.setAls_queueOf (s : State) (n : Nat) (v : Store) (k' : Nat) : (s.setAls n v).queueOf k' = s.queueOf k' := rfl
@[simp] theorem State.setDss_queueOf (s : State) (d : Nat) (v : Store) (k' : Nat) : (s.setDss d v).queueOf k' = s.queueOf k' := rfl
@[simp] theorem State.setCh_queueOf (s : State) (k : Nat) (v : DmaCh) (k' : Nat) : (s.setCh k v).queueOf k' = s.queueOf k' := rfl
@[simp] theorem State.setCtx_queueOf (s : State) (c : Nat) (v : Ctx) (k' : Nat) : (s.setCtx c v).queueOf k' = s.queueOf k' := rfl
@[simp] theorem State.setHolder_queueOf (s : State) (n : Nat) (v : Holder) (k' : Nat) : (s.setHolder n v).queueOf k' = s.queueOf k' := rfl
@[simp] theorem State.setSeq_queueOf (s : State) (n : Nat) (v : Seq) (k' : Nat) : (s.setSeq n v).queueOf k' = s.queueOf k' := rfl
@[simp] theorem State.setBlk_queueOf (s : State) (b : Nat) (v : MemBlk) (k' : Nat) : (s.setBlk b v).queueOf k' = s.queueOf k' := rfl
@[simp] theorem State.setPort_queueOf (s : State) (p : Nat) (v : PortX) (k' : Nat) : (s.setPort p v).queueOf k' = s.queueOf k' := rfl
@[simp] theorem State.setLink_queueOf (s : State) (l : Nat) (v : LinkLayer) (k' : Nat) : (s.setLink l v).queueOf k' = s.queueOf k' := rfl
@[simp] theorem State.setNmu_queueOf (s : State) (u : Nat) (v : Nmu) (k' : Nat) : (s.setNmu u v).queueOf k' = s.queueOf k' := rfl
@[simp] theorem State.putXop_queueOf (s : State) (x : Xop) (k' : Nat) : (s.putXop x).queueOf k' = s.queueOf k' := rfl
@[simp] theorem State.setSslot_queueOf (s : State) (i : Nat) (v : SSlot) (k' : Nat) : (s.setSslot i v).queueOf k' = s.queueOf k' := rfl
@[simp] theorem State.rset_holderOf (s : State) (off : Nat) (v : Nat) (k' : Nat) : (s.rset off v).holderOf k' = s.holderOf k' := rfl
@[simp] theorem State.setReg_holderOf (s : State) (b : Block) (i : Nat) (po : Nat) (v : Nat) (k' : Nat) : (s.setReg b i po v).holderOf k' = s.holderOf k' := rfl
@[simp] theorem State.setField_holderOf (s : State) (b : Block) (i : Nat) (po : Nat) (lo : Nat) (w : Nat) (v : Nat) (k' : Nat) : (s.setField b i po lo w v).holderOf k' = s.holderOf k' := rfl
@[simp] theorem State.bump_holderOf (s : State) (b : Block) (i : Nat) (po : Nat) (n : Nat) (k' : Nat) : (s.bump b i po n).holderOf k' = s.holderOf k' := rfl
@[simp] theorem State.send_holderOf (s : State) (m : Msg) (k' : Nat) : (s.send m).holderOf k' = s.holderOf k' := rfl
@[simp] theorem State.setIsl_holderOf (s : State) (i : Nat) (v : Island) (k' : Nat) : (s.setIsl i v).holderOf k' = s.holderOf k' := rfl
@[simp] theorem State.setArr_holderOf (s : State) (n : Nat) (v : Arr) (k' : Nat) : (s.setArr n v).holderOf k' = s.holderOf k' := rfl
@[simp] theorem State.setVec_holderOf (s : State) (n : Nat) (v : VecEng) (k' : Nat) : (s.setVec n v).holderOf k' = s.holderOf k' := rfl
@[simp] theorem State.setAls_holderOf (s : State) (n : Nat) (v : Store) (k' : Nat) : (s.setAls n v).holderOf k' = s.holderOf k' := rfl
@[simp] theorem State.setDss_holderOf (s : State) (d : Nat) (v : Store) (k' : Nat) : (s.setDss d v).holderOf k' = s.holderOf k' := rfl
@[simp] theorem State.setCh_holderOf (s : State) (k : Nat) (v : DmaCh) (k' : Nat) : (s.setCh k v).holderOf k' = s.holderOf k' := rfl
@[simp] theorem State.setCtx_holderOf (s : State) (c : Nat) (v : Ctx) (k' : Nat) : (s.setCtx c v).holderOf k' = s.holderOf k' := rfl
@[simp] theorem State.setQueue_holderOf (s : State) (q : Nat) (v : Queue) (k' : Nat) : (s.setQueue q v).holderOf k' = s.holderOf k' := rfl
@[simp] theorem State.setSeq_holderOf (s : State) (n : Nat) (v : Seq) (k' : Nat) : (s.setSeq n v).holderOf k' = s.holderOf k' := rfl
@[simp] theorem State.setBlk_holderOf (s : State) (b : Nat) (v : MemBlk) (k' : Nat) : (s.setBlk b v).holderOf k' = s.holderOf k' := rfl
@[simp] theorem State.setPort_holderOf (s : State) (p : Nat) (v : PortX) (k' : Nat) : (s.setPort p v).holderOf k' = s.holderOf k' := rfl
@[simp] theorem State.setLink_holderOf (s : State) (l : Nat) (v : LinkLayer) (k' : Nat) : (s.setLink l v).holderOf k' = s.holderOf k' := rfl
@[simp] theorem State.setNmu_holderOf (s : State) (u : Nat) (v : Nmu) (k' : Nat) : (s.setNmu u v).holderOf k' = s.holderOf k' := rfl
@[simp] theorem State.putXop_holderOf (s : State) (x : Xop) (k' : Nat) : (s.putXop x).holderOf k' = s.holderOf k' := rfl
@[simp] theorem State.setSslot_holderOf (s : State) (i : Nat) (v : SSlot) (k' : Nat) : (s.setSslot i v).holderOf k' = s.holderOf k' := rfl
@[simp] theorem State.rset_seqOf (s : State) (off : Nat) (v : Nat) (k' : Nat) : (s.rset off v).seqOf k' = s.seqOf k' := rfl
@[simp] theorem State.setReg_seqOf (s : State) (b : Block) (i : Nat) (po : Nat) (v : Nat) (k' : Nat) : (s.setReg b i po v).seqOf k' = s.seqOf k' := rfl
@[simp] theorem State.setField_seqOf (s : State) (b : Block) (i : Nat) (po : Nat) (lo : Nat) (w : Nat) (v : Nat) (k' : Nat) : (s.setField b i po lo w v).seqOf k' = s.seqOf k' := rfl
@[simp] theorem State.bump_seqOf (s : State) (b : Block) (i : Nat) (po : Nat) (n : Nat) (k' : Nat) : (s.bump b i po n).seqOf k' = s.seqOf k' := rfl
@[simp] theorem State.send_seqOf (s : State) (m : Msg) (k' : Nat) : (s.send m).seqOf k' = s.seqOf k' := rfl
@[simp] theorem State.setIsl_seqOf (s : State) (i : Nat) (v : Island) (k' : Nat) : (s.setIsl i v).seqOf k' = s.seqOf k' := rfl
@[simp] theorem State.setArr_seqOf (s : State) (n : Nat) (v : Arr) (k' : Nat) : (s.setArr n v).seqOf k' = s.seqOf k' := rfl
@[simp] theorem State.setVec_seqOf (s : State) (n : Nat) (v : VecEng) (k' : Nat) : (s.setVec n v).seqOf k' = s.seqOf k' := rfl
@[simp] theorem State.setAls_seqOf (s : State) (n : Nat) (v : Store) (k' : Nat) : (s.setAls n v).seqOf k' = s.seqOf k' := rfl
@[simp] theorem State.setDss_seqOf (s : State) (d : Nat) (v : Store) (k' : Nat) : (s.setDss d v).seqOf k' = s.seqOf k' := rfl
@[simp] theorem State.setCh_seqOf (s : State) (k : Nat) (v : DmaCh) (k' : Nat) : (s.setCh k v).seqOf k' = s.seqOf k' := rfl
@[simp] theorem State.setCtx_seqOf (s : State) (c : Nat) (v : Ctx) (k' : Nat) : (s.setCtx c v).seqOf k' = s.seqOf k' := rfl
@[simp] theorem State.setQueue_seqOf (s : State) (q : Nat) (v : Queue) (k' : Nat) : (s.setQueue q v).seqOf k' = s.seqOf k' := rfl
@[simp] theorem State.setHolder_seqOf (s : State) (n : Nat) (v : Holder) (k' : Nat) : (s.setHolder n v).seqOf k' = s.seqOf k' := rfl
@[simp] theorem State.setBlk_seqOf (s : State) (b : Nat) (v : MemBlk) (k' : Nat) : (s.setBlk b v).seqOf k' = s.seqOf k' := rfl
@[simp] theorem State.setPort_seqOf (s : State) (p : Nat) (v : PortX) (k' : Nat) : (s.setPort p v).seqOf k' = s.seqOf k' := rfl
@[simp] theorem State.setLink_seqOf (s : State) (l : Nat) (v : LinkLayer) (k' : Nat) : (s.setLink l v).seqOf k' = s.seqOf k' := rfl
@[simp] theorem State.setNmu_seqOf (s : State) (u : Nat) (v : Nmu) (k' : Nat) : (s.setNmu u v).seqOf k' = s.seqOf k' := rfl
@[simp] theorem State.putXop_seqOf (s : State) (x : Xop) (k' : Nat) : (s.putXop x).seqOf k' = s.seqOf k' := rfl
@[simp] theorem State.setSslot_seqOf (s : State) (i : Nat) (v : SSlot) (k' : Nat) : (s.setSslot i v).seqOf k' = s.seqOf k' := rfl
@[simp] theorem State.rset_portOf (s : State) (off : Nat) (v : Nat) (k' : Nat) : (s.rset off v).portOf k' = s.portOf k' := rfl
@[simp] theorem State.setReg_portOf (s : State) (b : Block) (i : Nat) (po : Nat) (v : Nat) (k' : Nat) : (s.setReg b i po v).portOf k' = s.portOf k' := rfl
@[simp] theorem State.setField_portOf (s : State) (b : Block) (i : Nat) (po : Nat) (lo : Nat) (w : Nat) (v : Nat) (k' : Nat) : (s.setField b i po lo w v).portOf k' = s.portOf k' := rfl
@[simp] theorem State.bump_portOf (s : State) (b : Block) (i : Nat) (po : Nat) (n : Nat) (k' : Nat) : (s.bump b i po n).portOf k' = s.portOf k' := rfl
@[simp] theorem State.send_portOf (s : State) (m : Msg) (k' : Nat) : (s.send m).portOf k' = s.portOf k' := rfl
@[simp] theorem State.setIsl_portOf (s : State) (i : Nat) (v : Island) (k' : Nat) : (s.setIsl i v).portOf k' = s.portOf k' := rfl
@[simp] theorem State.setArr_portOf (s : State) (n : Nat) (v : Arr) (k' : Nat) : (s.setArr n v).portOf k' = s.portOf k' := rfl
@[simp] theorem State.setVec_portOf (s : State) (n : Nat) (v : VecEng) (k' : Nat) : (s.setVec n v).portOf k' = s.portOf k' := rfl
@[simp] theorem State.setAls_portOf (s : State) (n : Nat) (v : Store) (k' : Nat) : (s.setAls n v).portOf k' = s.portOf k' := rfl
@[simp] theorem State.setDss_portOf (s : State) (d : Nat) (v : Store) (k' : Nat) : (s.setDss d v).portOf k' = s.portOf k' := rfl
@[simp] theorem State.setCh_portOf (s : State) (k : Nat) (v : DmaCh) (k' : Nat) : (s.setCh k v).portOf k' = s.portOf k' := rfl
@[simp] theorem State.setCtx_portOf (s : State) (c : Nat) (v : Ctx) (k' : Nat) : (s.setCtx c v).portOf k' = s.portOf k' := rfl
@[simp] theorem State.setQueue_portOf (s : State) (q : Nat) (v : Queue) (k' : Nat) : (s.setQueue q v).portOf k' = s.portOf k' := rfl
@[simp] theorem State.setHolder_portOf (s : State) (n : Nat) (v : Holder) (k' : Nat) : (s.setHolder n v).portOf k' = s.portOf k' := rfl
@[simp] theorem State.setSeq_portOf (s : State) (n : Nat) (v : Seq) (k' : Nat) : (s.setSeq n v).portOf k' = s.portOf k' := rfl
@[simp] theorem State.setBlk_portOf (s : State) (b : Nat) (v : MemBlk) (k' : Nat) : (s.setBlk b v).portOf k' = s.portOf k' := rfl
@[simp] theorem State.setLink_portOf (s : State) (l : Nat) (v : LinkLayer) (k' : Nat) : (s.setLink l v).portOf k' = s.portOf k' := rfl
@[simp] theorem State.setNmu_portOf (s : State) (u : Nat) (v : Nmu) (k' : Nat) : (s.setNmu u v).portOf k' = s.portOf k' := rfl
@[simp] theorem State.putXop_portOf (s : State) (x : Xop) (k' : Nat) : (s.putXop x).portOf k' = s.portOf k' := rfl
@[simp] theorem State.setSslot_portOf (s : State) (i : Nat) (v : SSlot) (k' : Nat) : (s.setSslot i v).portOf k' = s.portOf k' := rfl
@[simp] theorem State.rset_linkOf (s : State) (off : Nat) (v : Nat) (k' : Nat) : (s.rset off v).linkOf k' = s.linkOf k' := rfl
@[simp] theorem State.setReg_linkOf (s : State) (b : Block) (i : Nat) (po : Nat) (v : Nat) (k' : Nat) : (s.setReg b i po v).linkOf k' = s.linkOf k' := rfl
@[simp] theorem State.setField_linkOf (s : State) (b : Block) (i : Nat) (po : Nat) (lo : Nat) (w : Nat) (v : Nat) (k' : Nat) : (s.setField b i po lo w v).linkOf k' = s.linkOf k' := rfl
@[simp] theorem State.bump_linkOf (s : State) (b : Block) (i : Nat) (po : Nat) (n : Nat) (k' : Nat) : (s.bump b i po n).linkOf k' = s.linkOf k' := rfl
@[simp] theorem State.send_linkOf (s : State) (m : Msg) (k' : Nat) : (s.send m).linkOf k' = s.linkOf k' := rfl
@[simp] theorem State.setIsl_linkOf (s : State) (i : Nat) (v : Island) (k' : Nat) : (s.setIsl i v).linkOf k' = s.linkOf k' := rfl
@[simp] theorem State.setArr_linkOf (s : State) (n : Nat) (v : Arr) (k' : Nat) : (s.setArr n v).linkOf k' = s.linkOf k' := rfl
@[simp] theorem State.setVec_linkOf (s : State) (n : Nat) (v : VecEng) (k' : Nat) : (s.setVec n v).linkOf k' = s.linkOf k' := rfl
@[simp] theorem State.setAls_linkOf (s : State) (n : Nat) (v : Store) (k' : Nat) : (s.setAls n v).linkOf k' = s.linkOf k' := rfl
@[simp] theorem State.setDss_linkOf (s : State) (d : Nat) (v : Store) (k' : Nat) : (s.setDss d v).linkOf k' = s.linkOf k' := rfl
@[simp] theorem State.setCh_linkOf (s : State) (k : Nat) (v : DmaCh) (k' : Nat) : (s.setCh k v).linkOf k' = s.linkOf k' := rfl
@[simp] theorem State.setCtx_linkOf (s : State) (c : Nat) (v : Ctx) (k' : Nat) : (s.setCtx c v).linkOf k' = s.linkOf k' := rfl
@[simp] theorem State.setQueue_linkOf (s : State) (q : Nat) (v : Queue) (k' : Nat) : (s.setQueue q v).linkOf k' = s.linkOf k' := rfl
@[simp] theorem State.setHolder_linkOf (s : State) (n : Nat) (v : Holder) (k' : Nat) : (s.setHolder n v).linkOf k' = s.linkOf k' := rfl
@[simp] theorem State.setSeq_linkOf (s : State) (n : Nat) (v : Seq) (k' : Nat) : (s.setSeq n v).linkOf k' = s.linkOf k' := rfl
@[simp] theorem State.setBlk_linkOf (s : State) (b : Nat) (v : MemBlk) (k' : Nat) : (s.setBlk b v).linkOf k' = s.linkOf k' := rfl
@[simp] theorem State.setPort_linkOf (s : State) (p : Nat) (v : PortX) (k' : Nat) : (s.setPort p v).linkOf k' = s.linkOf k' := rfl
@[simp] theorem State.setNmu_linkOf (s : State) (u : Nat) (v : Nmu) (k' : Nat) : (s.setNmu u v).linkOf k' = s.linkOf k' := rfl
@[simp] theorem State.putXop_linkOf (s : State) (x : Xop) (k' : Nat) : (s.putXop x).linkOf k' = s.linkOf k' := rfl
@[simp] theorem State.setSslot_linkOf (s : State) (i : Nat) (v : SSlot) (k' : Nat) : (s.setSslot i v).linkOf k' = s.linkOf k' := rfl
@[simp] theorem State.rset_nmuOf (s : State) (off : Nat) (v : Nat) (k' : Nat) : (s.rset off v).nmuOf k' = s.nmuOf k' := rfl
@[simp] theorem State.setReg_nmuOf (s : State) (b : Block) (i : Nat) (po : Nat) (v : Nat) (k' : Nat) : (s.setReg b i po v).nmuOf k' = s.nmuOf k' := rfl
@[simp] theorem State.setField_nmuOf (s : State) (b : Block) (i : Nat) (po : Nat) (lo : Nat) (w : Nat) (v : Nat) (k' : Nat) : (s.setField b i po lo w v).nmuOf k' = s.nmuOf k' := rfl
@[simp] theorem State.bump_nmuOf (s : State) (b : Block) (i : Nat) (po : Nat) (n : Nat) (k' : Nat) : (s.bump b i po n).nmuOf k' = s.nmuOf k' := rfl
@[simp] theorem State.send_nmuOf (s : State) (m : Msg) (k' : Nat) : (s.send m).nmuOf k' = s.nmuOf k' := rfl
@[simp] theorem State.setIsl_nmuOf (s : State) (i : Nat) (v : Island) (k' : Nat) : (s.setIsl i v).nmuOf k' = s.nmuOf k' := rfl
@[simp] theorem State.setArr_nmuOf (s : State) (n : Nat) (v : Arr) (k' : Nat) : (s.setArr n v).nmuOf k' = s.nmuOf k' := rfl
@[simp] theorem State.setVec_nmuOf (s : State) (n : Nat) (v : VecEng) (k' : Nat) : (s.setVec n v).nmuOf k' = s.nmuOf k' := rfl
@[simp] theorem State.setAls_nmuOf (s : State) (n : Nat) (v : Store) (k' : Nat) : (s.setAls n v).nmuOf k' = s.nmuOf k' := rfl
@[simp] theorem State.setDss_nmuOf (s : State) (d : Nat) (v : Store) (k' : Nat) : (s.setDss d v).nmuOf k' = s.nmuOf k' := rfl
@[simp] theorem State.setCh_nmuOf (s : State) (k : Nat) (v : DmaCh) (k' : Nat) : (s.setCh k v).nmuOf k' = s.nmuOf k' := rfl
@[simp] theorem State.setCtx_nmuOf (s : State) (c : Nat) (v : Ctx) (k' : Nat) : (s.setCtx c v).nmuOf k' = s.nmuOf k' := rfl
@[simp] theorem State.setQueue_nmuOf (s : State) (q : Nat) (v : Queue) (k' : Nat) : (s.setQueue q v).nmuOf k' = s.nmuOf k' := rfl
@[simp] theorem State.setHolder_nmuOf (s : State) (n : Nat) (v : Holder) (k' : Nat) : (s.setHolder n v).nmuOf k' = s.nmuOf k' := rfl
@[simp] theorem State.setSeq_nmuOf (s : State) (n : Nat) (v : Seq) (k' : Nat) : (s.setSeq n v).nmuOf k' = s.nmuOf k' := rfl
@[simp] theorem State.setBlk_nmuOf (s : State) (b : Nat) (v : MemBlk) (k' : Nat) : (s.setBlk b v).nmuOf k' = s.nmuOf k' := rfl
@[simp] theorem State.setPort_nmuOf (s : State) (p : Nat) (v : PortX) (k' : Nat) : (s.setPort p v).nmuOf k' = s.nmuOf k' := rfl
@[simp] theorem State.setLink_nmuOf (s : State) (l : Nat) (v : LinkLayer) (k' : Nat) : (s.setLink l v).nmuOf k' = s.nmuOf k' := rfl
@[simp] theorem State.putXop_nmuOf (s : State) (x : Xop) (k' : Nat) : (s.putXop x).nmuOf k' = s.nmuOf k' := rfl
@[simp] theorem State.setSslot_nmuOf (s : State) (i : Nat) (v : SSlot) (k' : Nat) : (s.setSslot i v).nmuOf k' = s.nmuOf k' := rfl
@[simp] theorem State.rset_sslot (s : State) (off : Nat) (v : Nat) (k' : Nat) : (s.rset off v).sslot k' = s.sslot k' := rfl
@[simp] theorem State.setReg_sslot (s : State) (b : Block) (i : Nat) (po : Nat) (v : Nat) (k' : Nat) : (s.setReg b i po v).sslot k' = s.sslot k' := rfl
@[simp] theorem State.setField_sslot (s : State) (b : Block) (i : Nat) (po : Nat) (lo : Nat) (w : Nat) (v : Nat) (k' : Nat) : (s.setField b i po lo w v).sslot k' = s.sslot k' := rfl
@[simp] theorem State.bump_sslot (s : State) (b : Block) (i : Nat) (po : Nat) (n : Nat) (k' : Nat) : (s.bump b i po n).sslot k' = s.sslot k' := rfl
@[simp] theorem State.send_sslot (s : State) (m : Msg) (k' : Nat) : (s.send m).sslot k' = s.sslot k' := rfl
@[simp] theorem State.setIsl_sslot (s : State) (i : Nat) (v : Island) (k' : Nat) : (s.setIsl i v).sslot k' = s.sslot k' := rfl
@[simp] theorem State.setArr_sslot (s : State) (n : Nat) (v : Arr) (k' : Nat) : (s.setArr n v).sslot k' = s.sslot k' := rfl
@[simp] theorem State.setVec_sslot (s : State) (n : Nat) (v : VecEng) (k' : Nat) : (s.setVec n v).sslot k' = s.sslot k' := rfl
@[simp] theorem State.setAls_sslot (s : State) (n : Nat) (v : Store) (k' : Nat) : (s.setAls n v).sslot k' = s.sslot k' := rfl
@[simp] theorem State.setDss_sslot (s : State) (d : Nat) (v : Store) (k' : Nat) : (s.setDss d v).sslot k' = s.sslot k' := rfl
@[simp] theorem State.setCh_sslot (s : State) (k : Nat) (v : DmaCh) (k' : Nat) : (s.setCh k v).sslot k' = s.sslot k' := rfl
@[simp] theorem State.setCtx_sslot (s : State) (c : Nat) (v : Ctx) (k' : Nat) : (s.setCtx c v).sslot k' = s.sslot k' := rfl
@[simp] theorem State.setQueue_sslot (s : State) (q : Nat) (v : Queue) (k' : Nat) : (s.setQueue q v).sslot k' = s.sslot k' := rfl
@[simp] theorem State.setHolder_sslot (s : State) (n : Nat) (v : Holder) (k' : Nat) : (s.setHolder n v).sslot k' = s.sslot k' := rfl
@[simp] theorem State.setSeq_sslot (s : State) (n : Nat) (v : Seq) (k' : Nat) : (s.setSeq n v).sslot k' = s.sslot k' := rfl
@[simp] theorem State.setBlk_sslot (s : State) (b : Nat) (v : MemBlk) (k' : Nat) : (s.setBlk b v).sslot k' = s.sslot k' := rfl
@[simp] theorem State.setPort_sslot (s : State) (p : Nat) (v : PortX) (k' : Nat) : (s.setPort p v).sslot k' = s.sslot k' := rfl
@[simp] theorem State.setLink_sslot (s : State) (l : Nat) (v : LinkLayer) (k' : Nat) : (s.setLink l v).sslot k' = s.sslot k' := rfl
@[simp] theorem State.setNmu_sslot (s : State) (u : Nat) (v : Nmu) (k' : Nat) : (s.setNmu u v).sslot k' = s.sslot k' := rfl
@[simp] theorem State.putXop_sslot (s : State) (x : Xop) (k' : Nat) : (s.putXop x).sslot k' = s.sslot k' := rfl

/-! An indexed part after a write of it -/

@[simp] theorem State.setIsl_islOf_same (s : State) (i : Nat) (v : Island) : (s.setIsl i v).islOf i = v := tabGet_set_same ..
theorem State.setIsl_islOf_other (s : State) (i j : Nat) (v : Island) (h : j ≠ i) : (s.setIsl i v).islOf j = s.islOf j := tabGet_set_other _ _ _ _ _ h
@[simp] theorem State.setArr_arrOf_same (s : State) (n : Nat) (v : Arr) : (s.setArr n v).arrOf n = v := tabGet_set_same ..
theorem State.setArr_arrOf_other (s : State) (n j : Nat) (v : Arr) (h : j ≠ n) : (s.setArr n v).arrOf j = s.arrOf j := tabGet_set_other _ _ _ _ _ h
@[simp] theorem State.setVec_vecOf_same (s : State) (n : Nat) (v : VecEng) : (s.setVec n v).vecOf n = v := tabGet_set_same ..
theorem State.setVec_vecOf_other (s : State) (n j : Nat) (v : VecEng) (h : j ≠ n) : (s.setVec n v).vecOf j = s.vecOf j := tabGet_set_other _ _ _ _ _ h
@[simp] theorem State.setAls_alsOf_same (s : State) (n : Nat) (v : Store) : (s.setAls n v).alsOf n = v := tabGet_set_same ..
theorem State.setAls_alsOf_other (s : State) (n j : Nat) (v : Store) (h : j ≠ n) : (s.setAls n v).alsOf j = s.alsOf j := tabGet_set_other _ _ _ _ _ h
@[simp] theorem State.setDss_dssOf_same (s : State) (d : Nat) (v : Store) : (s.setDss d v).dssOf d = v := tabGet_set_same ..
theorem State.setDss_dssOf_other (s : State) (d j : Nat) (v : Store) (h : j ≠ d) : (s.setDss d v).dssOf j = s.dssOf j := tabGet_set_other _ _ _ _ _ h
@[simp] theorem State.setCh_chOf_same (s : State) (k : Nat) (v : DmaCh) : (s.setCh k v).chOf k = v := tabGet_set_same ..
theorem State.setCh_chOf_other (s : State) (k j : Nat) (v : DmaCh) (h : j ≠ k) : (s.setCh k v).chOf j = s.chOf j := tabGet_set_other _ _ _ _ _ h
@[simp] theorem State.setCtx_ctxOf_same (s : State) (c : Nat) (v : Ctx) : (s.setCtx c v).ctxOf c = v := tabGet_set_same ..
theorem State.setCtx_ctxOf_other (s : State) (c j : Nat) (v : Ctx) (h : j ≠ c) : (s.setCtx c v).ctxOf j = s.ctxOf j := tabGet_set_other _ _ _ _ _ h
@[simp] theorem State.setQueue_queueOf_same (s : State) (q : Nat) (v : Queue) : (s.setQueue q v).queueOf q = v := tabGet_set_same ..
theorem State.setQueue_queueOf_other (s : State) (q j : Nat) (v : Queue) (h : j ≠ q) : (s.setQueue q v).queueOf j = s.queueOf j := tabGet_set_other _ _ _ _ _ h
@[simp] theorem State.setHolder_holderOf_same (s : State) (n : Nat) (v : Holder) : (s.setHolder n v).holderOf n = v := tabGet_set_same ..
theorem State.setHolder_holderOf_other (s : State) (n j : Nat) (v : Holder) (h : j ≠ n) : (s.setHolder n v).holderOf j = s.holderOf j := tabGet_set_other _ _ _ _ _ h
@[simp] theorem State.setSeq_seqOf_same (s : State) (n : Nat) (v : Seq) : (s.setSeq n v).seqOf n = v := tabGet_set_same ..
theorem State.setSeq_seqOf_other (s : State) (n j : Nat) (v : Seq) (h : j ≠ n) : (s.setSeq n v).seqOf j = s.seqOf j := tabGet_set_other _ _ _ _ _ h
@[simp] theorem State.setPort_portOf_same (s : State) (p : Nat) (v : PortX) : (s.setPort p v).portOf p = v := tabGet_set_same ..
theorem State.setPort_portOf_other (s : State) (p j : Nat) (v : PortX) (h : j ≠ p) : (s.setPort p v).portOf j = s.portOf j := tabGet_set_other _ _ _ _ _ h
@[simp] theorem State.setLink_linkOf_same (s : State) (l : Nat) (v : LinkLayer) : (s.setLink l v).linkOf l = v := tabGet_set_same ..
theorem State.setLink_linkOf_other (s : State) (l j : Nat) (v : LinkLayer) (h : j ≠ l) : (s.setLink l v).linkOf j = s.linkOf j := tabGet_set_other _ _ _ _ _ h
@[simp] theorem State.setNmu_nmuOf_same (s : State) (u : Nat) (v : Nmu) : (s.setNmu u v).nmuOf u = v := tabGet_set_same ..
theorem State.setNmu_nmuOf_other (s : State) (u j : Nat) (v : Nmu) (h : j ≠ u) : (s.setNmu u v).nmuOf j = s.nmuOf j := tabGet_set_other _ _ _ _ _ h
@[simp] theorem State.setSslot_sslot_same (s : State) (i : Nat) (v : SSlot) : (s.setSslot i v).sslot i = v := tabGet_set_same ..
theorem State.setSslot_sslot_other (s : State) (i j : Nat) (v : SSlot) (h : j ≠ i) : (s.setSslot i v).sslot j = s.sslot j := tabGet_set_other _ _ _ _ _ h

/-! A register after a write of it -/

@[simp] theorem State.rset_rget_same (s : State) (off v : Nat) : (s.rset off v).rget off = v % 2 ^ 32 := by
  simp [State.rget, State.rset]

theorem State.rset_rget_other (s : State) (off off' v : Nat) (h : off' ≠ off) : (s.rset off v).rget off' = s.rget off' := by
  simp only [State.rget, State.rset, tabGet, tabSet]
  split
  · rw [tabFind_drop_other _ _ _ h]
  · rw [tabFind_put_other _ _ _ _ h]

@[simp] theorem State.setReg_reg_same (s : State) (b : Block) (i po v : Nat) : (s.setReg b i po v).reg b i po = v % 2 ^ 32 :=
  s.rset_rget_same _ v

theorem State.setReg_reg_other (s : State) (b b' : Block) (i i' po po' v : Nat) (h : pageBase b' i' + po' ≠ pageBase b i + po) :
    (s.setReg b i po v).reg b' i' po' = s.reg b' i' po' := s.rset_rget_other _ _ v h

end Sys2Proof.Machine
end

