-- ==== Sys2Proof/Tests/Slice0.lean ====
section
/-!
SUPPORT. The model's own tests. For each statement that has hypotheses a theorem shows states and operands that meet those of
each of its clauses, at the bounds where a clause has some; the worked cases of the manual are checked where one step shows them.
-/
open Sys2Proof Sys2Proof.Machine
namespace Sys2Proof.Tests

set_option Elab.async false

/-! Helpers -/

/-- Sixteen blocks of device memory under the key sets of the owners 0 and 64, and the first page of context 0 mapped onto them on
every die. -/
def keyed (bytes : Tab Byte) : State :=
  { mem := { bytes := bytes
             keys := [(0, 1), (64, 2)]
             nextKey := 2
             blks := (List.range 16).map fun i => (i, ⟨some (0, 1), 0⟩) }
    mmu := { tlb := (List.range 6).map fun d => (d, [⟨0, 0, 21, 0, true⟩]) } }

def mapped (bytes : Tab Byte) : State := (keyed bytes).setReg .mmu 0 0x200 1

/-- A sequencer that runs a list at address 0 whose first word is `w`. -/
def listAt (n : SeqId) (w : Nat) (q : Seq) : State :=
  (mapped (tabFill 0 [] 0 (leBytes w 4))).setSeq n { q with state := .run, engines := 2 ^ 26 - 1 }

/-- What a command answers with a next state, and a property of that state. -/
def after (i : Instr) (s : State) (p : State → Bool) : Bool :=
  match exec i s with
  | .next t => p t
  | _ => false

/-- An access that succeeded without poison. -/
def clean : Acc → Bool
  | .ok _ p => !p.any id
  | _ => false

/-! Sequencers -/

/-- The checks of a sequencer that executes, as one. -/
def executesNow (s : State) (n : SeqId) (op w : Nat) : Bool :=
  ((s.seqOf n).state == .run) && !s.islandHeld (seqIsland n) && (engineFailure s n).isNone && ((seqFetch s n).map (·.2) == some w) &&
  !seqIllegal n w && (w / 2 ^ 26 == op) && !(s.traces n op && s.traceStalls n)

theorem executes_of (s : State) (n : SeqId) (op w : Nat) (h : executesNow s n op w = true) : seqExecutes s n op w := by
  simp only [executesNow, Bool.and_eq_true, Bool.not_eq_true', beq_iff_eq, Option.isNone_iff_eq_none] at h
  obtain ⟨⟨⟨⟨⟨⟨h1, h2⟩, h3⟩, h4⟩, h5⟩, h6⟩, h7⟩ := h
  exact ⟨.inl h1, h2, h3, h4, h5, h6, by simpa using h7⟩

/-- A word with opcode, rd, ra, and the low half as it stands (R235). -/
def seqWord (op rd ra low : Nat) : Nat := op * 2 ^ 26 + rd * 2 ^ 21 + ra * 2 ^ 16 + low

theorem test_seq_registers_given : ∀ op ∈ [1, 2, 3, 4, 5, 6, 7, 8, 9, 0x10, 0x11, 0x12, 0x13, 0x14],
    executesNow (listAt 19 (seqWord op 1 2 (if op < 10 then 3 * 2 ^ 11 else 63)) { pc := 0 }) 19 op
      (seqWord op 1 2 (if op < 10 then 3 * 2 ^ 11 else 63)) = true := by decide +kernel

theorem test_ldh_given : executesNow (listAt 25 (seqWord 0x15 1 3 0xFFFF) {}) 25 0x15 (seqWord 0x15 1 3 0xFFFF) = true := by decide +kernel

theorem test_sub_wraps : after (.sub 19) (listAt 19 (seqWord 2 1 2 (3 * 2 ^ 11)) { regs := [(2, 5), (3, 7)] })
    (fun t => (t.seqOf 19).reg 1 == 2 ^ 64 - 2 && (t.seqOf 19).pc == 1) = true := by decide +kernel

theorem test_ldh_quarter : after (.ldh 25) (listAt 25 (seqWord 0x15 1 3 0xABCD) { regs := [(1, 0x1111222233334444)] })
    (fun t => (t.seqOf 25).reg 1 == 0xABCD222233334444) = true := by decide +kernel

theorem test_s0_discards : after (.addi 3) (listAt 3 (seqWord 0x10 0 2 7) { regs := [(2, 5)] })
    (fun t => (t.seqOf 3).reg 0 == 0 && (t.seqOf 3).pc == 1) = true := by decide +kernel

theorem test_seq_loads_given :
    executesNow (listAt 3 (seqWord 0x18 1 2 1) { regs := [(2, 56)] }) 3 0x18 (seqWord 0x18 1 2 1) = true ∧
    clean (seqRead (seqNow (listAt 3 (seqWord 0x18 1 2 1) { regs := [(2, 56)] }) 3) 3 64 8).2 = true ∧
    executesNow (listAt 3 (seqWord 0x1A 1 2 1) { regs := [(2, 2 ^ 25 - 8)] }) 3 0x1A (seqWord 0x1A 1 2 1) = true ∧
    ((listAt 3 (seqWord 0x1A 1 2 1) {}).alsOf 3).poisoned (2 ^ 25 - 4) 4 = none := by decide +kernel

theorem test_ld_own_word : after (.ld 3) (listAt 3 (seqWord 0x18 1 0 0) {})
    (fun t => (t.seqOf 3).reg 1 == seqWord 0x18 1 0 0) = true := by decide +kernel

theorem test_seq_stores_given :
    executesNow (listAt 3 (seqWord 0x19 1 2 1) { regs := [(2, 56)] }) 3 0x19 (seqWord 0x19 1 2 1) = true ∧
    clean (memWrite (seqNow (listAt 3 (seqWord 0x19 1 2 1) { regs := [(2, 56)] }) 3) (agSeq 3) (seqDie 3) reqSeq 0 64 (leBytes 5 8)).2 = true ∧
    executesNow (listAt 19 (seqWord 0x1B 1 2 1) { regs := [(2, 2 ^ 25 - 8)] }) 19 0x1B (seqWord 0x1B 1 2 1) = true ∧
    executesNow (listAt 24 (seqWord 0x32 0 2 (3 * 2 ^ 11)) { regs := [(2, 64)] }) 24 0x32 (seqWord 0x32 0 2 (3 * 2 ^ 11)) = true ∧
    clean (fenceMax (seqNow (listAt 24 (seqWord 0x32 0 2 (3 * 2 ^ 11)) { regs := [(2, 64)] }) 24) (agSeq 24) (seqDie 24) reqSeq 0 64 9).2 = true := by
  decide +kernel

theorem test_sta_top_word : after (.sta 19) (listAt 19 (seqWord 0x1B 1 2 1) { regs := [(1, 0x12345678), (2, 2 ^ 25 - 8)] })
    (fun t => tabGet 0 (t.alsOf 19).bytes (2 ^ 25 - 4) == 0x78 && tabGet 0 (t.alsOf 19).bytes (2 ^ 25 - 1) == 0x12) = true := by decide +kernel

theorem test_seq_branches_given :
    (∀ r ∈ [(0x20, seqWord 0x20 1 1 0xFFFF), (0x21, seqWord 0x21 1 1 5), (0x22, seqWord 0x22 1 1 5), (0x23, seqWord 0x23 0 0 0 + (2 ^ 24 - 1)),
      (0x24, seqWord 0x24 0 0 7), (0x25, seqWord 0x25 0 0 0), (0x26, seqWord 0x26 3 2 0), (0x27, seqWord 0x27 3 0 0x7FFF)],
      executesNow (listAt 23 r.2 { stack := [9] }) 23 r.1 r.2 = true) ∧ signed 26 (2 ^ 24 - 1) + 0 < 2 ^ 24 := by decide +kernel

theorem test_lnext_goes_back : after (.lnext 23) (listAt 23 (seqWord 0x27 3 0 0x7FFF) { lc := [(3, 2)] })
    (fun t => (t.seqOf 23).pc == 0x7FFF && tabGet 0 (t.seqOf 23).lc 3 == 1) = true := by decide +kernel

theorem test_lnext_ends : after (.lnext 23) (listAt 23 (seqWord 0x27 3 0 0x7FFF) { lc := [(3, 1)] })
    (fun t => (t.seqOf 23).pc == 1 && tabGet 0 (t.seqOf 23).lc 3 == 0) = true := by decide +kernel

theorem test_ret_pops : after (.ret 23) (listAt 23 (seqWord 0x25 0 0 0) { stack := [2 ^ 24 - 1, 4] })
    (fun t => (t.seqOf 23).pc == 2 ^ 24 - 1 && (t.seqOf 23).stack == [4]) = true := by decide +kernel

theorem test_seq_issues_given :
    executesNow (listAt 0 (seqWord 0x28 0 2 0) { regs := [(2, 64)] }) 0 0x28 (seqWord 0x28 0 2 0) = true ∧
    executesNow (listAt 0 (seqWord 0x29 0 2 0) { regs := [(2, 64)] }) 0 0x29 (seqWord 0x29 0 2 0) = true ∧
    executesNow (listAt 0 (seqWord 0x2A 0 2 (3 * 2 ^ 11)) { regs := [(3, 65536)] }) 0 0x2A (seqWord 0x2A 0 2 (3 * 2 ^ 11)) = true ∧
    executesNow (listAt 24 (seqWord 0x2B 0 2 0) { regs := [(2, 64)] }) 24 0x2B (seqWord 0x2B 0 2 0) = true ∧
    mmRoom ({ state := .active, exec := some {} } : Arr) = true ∧ vecRoom ({ exec := some {} } : VecEng) = true := by decide +kernel

theorem test_tld_whole_table : after (.tld 0) (listAt 0 (seqWord 0x2A 0 2 (3 * 2 ^ 11)) { regs := [(3, 65536)] })
    (fun t => (t.arrOf 0).tableLoad == some ⟨0, 0, 65536, 1, []⟩) = true := by decide +kernel

/-- Channel 31 of die 3 enabled for context 0. -/
def withChannel (s : State) : State := s.setReg .dma 3 (0x400 + 0x40 * 31) 64

/-- A sequencer that waits with the word given. -/
def waitingAt (n : SeqId) (w : Nat) (q : Seq) : State := (mapped []).setSeq n { q with state := .wait, waitWord := w }

theorem test_signals_given :
    executesNow (withChannel (listAt 5 (seqWord 0x30 0 2 255) { regs := [(2, 127)] })) 5 0x30 (seqWord 0x30 0 2 255) = true ∧
    (seqNow (withChannel (listAt 5 (seqWord 0x30 0 2 255) { regs := [(2, 127)] })) 5).chValid 127 = true ∧
    (seqNow (withChannel (listAt 5 (seqWord 0x30 0 2 255) { regs := [(2, 127)] })) 5).chCtx 127 = 0 ∧
    executesNow (listAt 5 (seqWord 0x30 8 2 255) { regs := [(2, 2 ^ 7 + 25)] }) 5 0x30 (seqWord 0x30 8 2 255) = true ∧
    (sibling ((listAt 5 (seqWord 0x30 8 2 255) { regs := [(2, 25)] }).setSeq 25 { state := .run, engines := 2 ^ 26 - 1, bitNo := 25 })
      { state := .run, engines := 2 ^ 26 - 1, regs := [(2, 25)] } 25).isSome = true := by decide +kernel

theorem test_sig_saturates : after (.sig 5) ((withChannel (listAt 5 (seqWord 0x30 0 2 255) { regs := [(2, 127)] })).setCh 127 { pending := 1 })
    (fun t => (t.chOf 127).pending == 255 && (t.chOf 127).overrun) = true := by decide +kernel

theorem test_waits_given :
    (∀ src ∈ [0, 1, 2, 3, 4, 5, 6], executesNow (listAt 5 (seqWord 0x31 (2 * src) 2 (3 * 2 ^ 11)) { regs := [(3, 1)] }) 5 0x31
      (seqWord 0x31 (2 * src) 2 (3 * 2 ^ 11)) = true) ∧
    (fenceRead (seqNow (listAt 5 (seqWord 0x31 12 2 (3 * 2 ^ 11)) {}) 5) 5 64).2.toOption = some 0 ∧
    (2 ^ 32 + 0 - 1) % 2 ^ 32 ≥ 2 ^ 31 ∧
    (waitingAt 5 (seqWord 0x31 4 2 0) { mdone := 2 ^ 31 - 1 }).islandHeld 5 = false := by decide +kernel

theorem test_wait_waits : after (.wait 5) (listAt 5 (seqWord 0x31 4 2 (3 * 2 ^ 11)) { regs := [(3, 1)] })
    (fun t => (t.seqOf 5).state == .wait && (t.seqOf 5).pc == 0) = true := by decide +kernel

theorem test_wait_released : after (.waitSatisfied 5) (waitingAt 5 (seqWord 0x31 4 2 0) { mdone := 2 ^ 31 - 1 })
    (fun t => (t.seqOf 5).state == .run && (t.seqOf 5).pc == 1) = true := by decide +kernel

theorem test_wait_half_range_later : after (.waitSatisfied 5) (waitingAt 5 (seqWord 0x31 4 2 0) { mdone := 2 ^ 31 })
    (fun t => (t.seqOf 5).state == .wait) = true := by decide +kernel

theorem test_seq_ends_given :
    executesNow (listAt 5 (seqWord 0x33 0 0 0xFFFF) { pc := 0 }) 5 0x33 (seqWord 0x33 0 0 0xFFFF) = true ∧
    executesNow (listAt 5 (seqWord 0x3F 0 0 0) {}) 5 0x3F (seqWord 0x3F 0 0 0) = true ∧
    seqQuiet ((mapped []).setSeq 5 { state := .drain }) 5 = true := by decide +kernel

theorem test_end_drains : after (.seqEnd 5) (listAt 5 (seqWord 0x3F 0 0 0) {}) (fun t => (t.seqOf 5).state == .drain) = true := by decide +kernel

/-! Register writes -/

/-- An array island that runs. -/
def running (n : Nat) : State := ({} : State).setArr n { state := .idle }

theorem test_array_island_given :
    (running 19).arrayDisabled 19 = false ∧ (running 19).islandStopped 19 = false ∧ (running 19).alsBlocked 19 = false ∧
    ({} : State).islandStopped 19 = true ∧ (({} : State).setReg .dev 0 0x108 (2 ^ 19)).arrayDisabled 19 = true := by decide +kernel

theorem test_ramp_bounds :
    after (.arrRampCfgWrite .kq 19 16#32) (running 19) (fun t => t.reg .arr 19 0x100 == 16) = true ∧
    after (.arrRampCfgWrite .kq 19 64#32) (running 19) (fun t => t.reg .arr 19 0x100 == 64) = true ∧
    after (.arrRampCfgWrite .kq 19 15#32) (running 19) (fun t => t.reg .arr 19 0x100 == 48) = true ∧
    after (.arrRampCfgWrite .kq 19 65#32) (running 19) (fun t => t.reg .arr 19 0x100 == 48) = true := by decide +kernel

theorem test_als_scrub_start : after (.alsScrubStart .kq 19) (running 19) (fun t => t.alsBlocked 19 && !t.alsScrubbing 19) = true := by decide +kernel

theorem test_stopped_write_waits : after (.arrRampCfgWrite .kq 2 32#32) {}
    (fun t => (t.islOf 2).writes == [(pageBase .arr 2 + 0x100, 32, true)]) = true := by decide +kernel

/-- A channel of die 3 whose CFG is valid with quota 64. -/
def channelOn (x : DmaCh) : State := (({} : State).setReg .dma 3 (0x400 + 0x40 * 31) (64 + 2 ^ 14)).setCh 127 x

theorem test_die_island_given :
    ({} : State).chValid 127 = false ∧ (channelOn { state := .idle }).chValid 127 = true ∧
    ((List.range 32).map fun i => if i ≠ 31 && (channelOn {}).chValid (96 + i) then (channelOn {}).chQuota (96 + i) else 0).sum = 0 ∧
    ((channelOn { state := .halted, desc := some 0 }).chOf 127).state = .halted ∧ dDecomp 0 = false ∧
    ((channelOn { state := .active }).chOf 127).state ≠ .idle := by decide +kernel

theorem test_quota_of_a_die :
    after (.dmaChCfgWrite .kq 3 0 (64 + 2 ^ 8)) (channelOn {}) (fun t => t.reg .dma 3 0x400 == 0) = true ∧
    after (.dmaChCfgWrite .kq 3 31 (64 + 2 ^ 14)) {} (fun t => t.chValid 127 && (t.chOf 127).state == .idle) = true ∧
    after (.dmaChCfgWrite .kq 3 31 (64 + 65 * 2 ^ 8)) {} (fun t => !t.chValid 127) = true := by decide +kernel

theorem test_start_saturates : after (.dmaChStartWrite .kq 3 31 255) (channelOn { pending := 1 })
    (fun t => (t.chOf 127).pending == 255 && (t.chOf 127).overrun) = true := by decide +kernel

theorem test_partition_scrub : after (.dssPartOwnerWrite .kq 3 15 (64 + 63)) {} (fun t => t.part 3 15 == 128 + 127) = true := by decide +kernel

/-- Bursts of a descriptor: one of 256 B, and none of them left after it. -/
theorem test_halts_given : ∃ y, dDecomp y = false ∧ 1 < (burstsOf y).length := ⟨2 ^ 32 * 256 + 2 ^ 64 * (2 ^ 16 + 2), by decide +kernel⟩

theorem test_dma_abort : after (.dmaAbort .kq 3 31) (channelOn { state := .halted, desc := some 0, pending := 7 })
    (fun t => (t.chOf 127).state == .idle && (t.chOf 127).pending == 0 && (t.chOf 127).desc == none) = true := by decide +kernel

theorem test_mmu_given :
    (({} : State).ctx.any fun e => e.2.resident) = false ∧ ({} : State).dlocal ≠ 69 ∧
    ((({} : State).setCtx 63 { resident := true }).ctx.any fun e => e.2.resident) = true ∧ ({} : State).mmu.inval = none := by decide +kernel

theorem test_dlocal_bounds :
    after (.mmuMapWrite .kq 69#32) {} (fun t => t.dlocal == 69) = true ∧ after (.mmuMapWrite .kq 70#32) {} (fun t => t.dlocal == 0) = true := by
  decide +kernel

theorem test_invalidation_drops : after (.mmuInvalCtx .kq 0) (mapped []) (fun t => t.mmu.tlb == [] && t.mmu.inval.isSome) = true := by decide +kernel

/-- A port in a state, with a CTRL word. -/
def portIn (p : Nat) (st ctrl : Nat) : State := (({} : State).setField .lnk p 0x108 0 4 st).setReg .lnk p 0x100 ctrl

theorem test_ports_given :
    (portIn 35 lsDown 0).portState 35 = lsDown ∧ (portIn 35 lsDown 0).committed = false ∧
    ((portIn 0 lsDown 0).setReg .mbx 0 0xF04 3).committed = true ∧ (portIn 31 lsFenced 3).portState 31 = lsFenced ∧
    (portIn 31 lsUp 1).portState 31 = lsUp ∧ (portIn 31 lsProbation 1).portState 31 = lsProbation := by decide +kernel

theorem test_enable_waits_for_the_configuration :
    after (.lnkEnable .kq 35 true) (portIn 35 lsDown 0) (fun t => t.portState 35 == lsDown) = true ∧
    after (.lnkEnable .kq 35 true) ((portIn 35 lsDown 0).setReg .mbx 0 0xF04 3) (fun t => t.portState 35 == lsDetect) = true := by decide +kernel

theorem test_fence_waits_for_the_configuration :
    after (.lnkFence .kq 31 true) (portIn 31 lsDown 1) (fun t => t.portState 31 == lsDown) = true ∧
    after (.lnkFence .kq 31 true) ((portIn 31 lsUp 1).setReg .mbx 0 0xF04 3) (fun t => t.portState 31 == lsFenced) = true ∧
    after (.lnkBond .kq 31 true) ((portIn 31 lsUp 1).setReg .mbx 0 0xF04 3) (fun t => t.portState 31 == lsUp && t.reg .lnk 31 0x100 == 1) = true := by
  decide +kernel

theorem test_bond_of_a_pair_port_only :
    after (.lnkBond .kq 31 true) (portIn 31 lsUp 1) (fun t => t.reg .lnk 31 0x100 == 1) = true ∧
    after (.lnkBond .kq 32 true) (portIn 32 lsUp 1) (fun t => (t.reg .lnk 32 0x100).testBit 3) = true := by decide +kernel

/-- The time of the last advance of the router's epoch, and the present time. -/
def advancedAt (at_ now : Nat) : State := { gtime := now, rtr := { advanced := at_ + 1 } }

theorem test_router_writes_given :
    ({} : State).rtr.advanced = 0 ∧ ¬(advancedAt 5 2000005).gtime < (advancedAt 5 2000005).rtr.advanced - 1 + 2000000 ∧
    (advancedAt 5 2000004).gtime < (advancedAt 5 2000004).rtr.advanced - 1 + 2000000 ∧
    tselKey (({} : State).setReg .rtr 0 0x110 (2 ^ 12 + 15)) = some 2063 ∧ bits (2 ^ 13 + 1023) 12 2 = 2 ∧
    (({} : State).reg .rtr 0 0x124).testBit 16 = false ∧ ({} : State).dispatchLive = false ∧
    ({ cat := { load := some ⟨0, 0, 0, 0, 0, 0, 0, false, 0⟩ } } : State).cat.load.isSome = true := by decide +kernel

theorem test_epoch_arms_two_ms_later :
    after (.rtrEpochArm .kq 0) (advancedAt 5 2000005) (fun t => t.routeEpoch == 1) = true ∧
    after (.rtrEpochArm .kq 0) (advancedAt 5 2000004) (fun t => t.routeEpoch == 0) = true := by decide +kernel

theorem test_last_fence_word : after (.rtrFenceWrite .kq 0x80000000#32) (({} : State).setReg .rtr 0 0x110 (2 ^ 13 + 1023))
    (fun t => t.fenced 32767 && !t.fenced 32766) = true := by decide +kernel

theorem test_vector_mask_given :
    ((({} : State).setReg .bxl 0 (0x500 + 4 * 63) 5).setReg .bxl 0 (0x400 + 4 * 63) 0xFFFFFFFF).reg .bxl 0 (0x500 + 4 * 63) = 5 ∧
    ((({} : State).setField .bxl 0 0x100 0 4 lsUp)).portState bxlPort = lsUp := by decide +kernel

theorem test_unmasked_vector_is_sent : after (.bxlVecMaskWrite .host 63 4) (({} : State).setReg .bxl 0 (0x500 + 4 * 63) 5)
    (fun t => t.outbox == [{ kind := .intr, dest := 32 * 63 }] && t.reg .bxl 0 (0x500 + 4 * 63) == 4) = true := by decide +kernel

theorem test_headers_given :
    pageOf (0x1000 * 0) = some (.dev, 0) ∧ hasHeader .dev = true ∧ ({} : State).pageDead .dev 0 = false ∧
    (({} : State).setReg .dev 0 0x14 1).reg .dev 0 0x14 % 2 = 1 ∧ (({} : State).setReg .dev 0 0x18 1).reg .dev 0 0x18 % 2 = 1 ∧
    eventOk .arr 0 0x13 = true ∧ eventOk .arr 0 0x14 = false ∧ (running 0).islandStopped 0 = false := by decide +kernel

theorem test_error_record_cleared : after (.errFirstClear .host 0) (({} : State).setReg .dev 0 0x20 1)
    (fun t => t.reg .dev 0 0x20 == 0) = true := by decide +kernel

/-- A quiesced island of an array. -/
def quiesced : State := { isl := [(19, { quiesce := true, quiesced := true })] }

theorem test_islands_given :
    (quiesced.islOf 19).quiesced = true ∧ (({ isl := [(48, { quiesce := true })] } : State).islOf 48).quiesce = true ∧
    ({ isl := [(48, { quiesce := true })] } : State).islandAtRest 48 = true ∧
    ({ isl := [(19, { enable := false })] } : State).arrayDisabled 19 = false ∧
    (({ isl := [(23, { resetting := true })] } : State).islOf 23).resetting = true := by decide +kernel

theorem test_disable_needs_the_quiesce :
    after (.ctrlEnable .kq 19 false) quiesced (fun t => !(t.islOf 19).enable) = true ∧
    after (.ctrlEnable .kq 19 false) {} (fun t => (t.islOf 19).enable) = true := by decide +kernel

theorem test_block_reset_ends : after (.blockResetDone 23) { isl := [(23, { resetting := true })] } (fun t => !(t.islOf 23).resetting) = true := by
  decide +kernel

/-- A queue of 64 entries. -/
def ringOf (x : Queue) : State := ({} : State).setQueue 1023 { x with log := 6 }

theorem test_doorbells_given :
    ((ringOf { state := .running, head := 2 ^ 32 - 1 }).queueOf 1023).state ≠ .disabled ∧ (2 ^ 32 + 63 - (2 ^ 32 - 1)) % 2 ^ 32 ≤ 2 ^ 6 ∧
    ¬(2 ^ 32 + 64 - (2 ^ 32 - 1)) % 2 ^ 32 ≤ 2 ^ 6 ∧ ((ringOf { state := .waiting }).queueOf 1023).state = .waiting ∧
    ((ringOf { state := .draining }).queueOf 1023).held = [] ∧
    clean (feRecord ((mapped []).setQueue 1 { state := .running, cq := 64, cqLog := 6, cqTail := 64, cqHead := 1, held := [⟨5, false⟩] }) 1
      (({ state := .running, cq := 64, cqLog := 6, cqTail := 64, cqHead := 1 } : Queue).cqSlot) (leBytes 5 32)).2 = true ∧
    (({} : State).kq 15 8).testBit 5 = false ∧ (({} : State).setReg .fe 2 (0x108 + 0x20 * 15) 32).kq 15 8 = 32 := by decide +kernel

theorem test_tail_across_the_wrap :
    after (.doorbellWrite .host 1023 63) (ringOf { state := .running, head := 2 ^ 32 - 1, tail := 2 ^ 32 - 1 })
      (fun t => (t.queueOf 1023).tail == 63 && (t.queueOf 1023).state == .running) = true ∧
    after (.doorbellWrite .host 1023 64) (ringOf { state := .running, head := 2 ^ 32 - 1, tail := 2 ^ 32 - 1 })
      (fun t => (t.queueOf 1023).state == .stopped && (t.queueOf 1023).reason == 2) = true := by decide +kernel

theorem test_kernel_queue_enabled : after (.kqCfgWrite .kq 15 (32 + 6)) (({} : State).setReg .mbx 0 0xF04 3)
    (fun t => (t.queueOf 1039).state == .running && (t.queueOf 1039).log == 6) = true := by decide +kernel

theorem test_aperture_given :
    pageOf 0xFFF000 = none ∧ pageOf 0 = some (.dev, 0) ∧ layIn .dev 0 0xFFC = none ∧ pageOf (pageBase .dpw 3 + 0x100) = some (.dpw, 3) ∧
    layIn .dpw 3 0x100 ≠ none ∧ (∃ l, layIn .pwr 0 0x118 = some l ∧ l.rwk ≠ 0) ∧ pairLow .pwr 0 0x120 = true ∧
    tabGet 0 ({} : State).hiCap (pageBase .pwr 0 + 0x120) = 0 := by
  refine ⟨by decide +kernel, by decide +kernel, by decide +kernel, by decide +kernel, by decide +kernel, ⟨(layIn .pwr 0 0x118).get (by decide +kernel), by decide +kernel, by decide +kernel⟩, by decide +kernel, by decide +kernel⟩

/-- R414's worked examples, and the bases of R411. -/
theorem test_page_examples : pageBase .qnt 13 = 0x1D5000 ∧ pageBase .noc 2 = 0x322000 := by decide +kernel
/-! Matrix arrays -/

/-- The BF16 instruction of the worked case of chapter 4, with one column: K = 16, G = 8, tag 9, A at 0, B at 0x1000, 64 B a row. -/
def caseMm : MmInstr :=
  { desc := 1 + 2 ^ 13 + 2 ^ 14 + 2 ^ 16 + 2 ^ 21 + 2 ^ 26 + 2 ^ 32 + 2 ^ 64 * (16 + 2 ^ 12) + 2 ^ 96 * 9 + 2 ^ 256 * 0x1000 + 2 ^ 288 * 64 }

/-- The ALS of that case; `x` stands for a[2]. -/
def caseAls (x : Nat) : Store :=
  { bytes := tabFill 0 (((List.range 16).zip ([0x4000, 0x6000, 0x3F80, 0xBF00] ++ List.replicate 12 0x3F80)).foldl
      (fun t e => tabFill 0 t (0x1000 + 64 * e.1) (leBytes e.2 2)) []) 0
      (([0x3F80, 0x6280, x, 0x4040] ++ List.replicate 12 0x3E80).flatMap fun v => leBytes v 2) }

/-- Array 7 with that ALS. -/
def caseOn (x : Nat) (a : Arr) : State := (({} : State).setAls 7 (caseAls x)).setArr 7 a

def caseTile : Tile := loadTile (caseAls 0) caseMm.desc [] false

/-- An array whose rows of that case have entered. -/
def caseRows : Arr := { state := .active, exec := some caseMm, stat := caseTile }

/-- An instruction behind the executing one, which keeps the tile. -/
def keepMm : MmInstr := { desc := caseMm.desc + 2 ^ 10 * 2 }

theorem test_tiles_given :
    ((caseOn 0 { state := .load, exec := some caseMm }).alsScrubbing 7 = false) ∧ caseTile.poisoned = none ∧
    (loadTile { caseAls 0 with poison := [(64, true)] } caseMm.desc [] false).poisoned.isSome = true ∧
    mmBsrc keepMm.desc ≠ 0 ∧ mayFollow (caseOn 0 { caseRows with wait := some keepMm }) 7 = true ∧
    (∃ t, tileFor { caseRows with wait := some keepMm } keepMm = some (.ok t)) := by
  refine ⟨by decide +kernel, by decide +kernel, by decide +kernel, by decide +kernel, by decide +kernel, ⟨caseTile, ?_⟩⟩
  rw [tileFor, if_neg (by decide +kernel), if_neg (by decide +kernel), if_neg (by decide +kernel)]
  rfl

theorem test_load_then_ramp : after (.bTileLoadDone 7) (caseOn 0 { state := .load, exec := some caseMm })
    (fun t => (t.arrOf 7).state == .rampUp && (t.arrOf 7).ramp == 48) = true := by decide +kernel

theorem test_results_given :
    (nextAccumulated caseRows).isSome = true ∧ firstBadRow (fun _ => caseAls 0) caseMm.desc (subOps caseMm.desc []) = none ∧
    (firstBadRow (fun _ => { caseAls 0 with poison := [(0, true)] }) caseMm.desc (subOps caseMm.desc [])).isSome = true ∧
    (spillAll (caseMm.desc + 2 ^ 28) [] { als := caseAls 0, acc := { acc := [], poison := [] } }).stop = none ∧
    (([{ instr := caseMm, spill := .running, epi := .waiting }] : List MmPost).findIdx? fun p => p.spill == .running) = some 0 ∧
    (([{ instr := caseMm, spill := .done, epi := .waiting }] : List MmPost).findIdx? fun p => p.epi == .waiting) = some 0 ∧
    (([{ instr := caseMm, spill := .done, epi := .running }] : List MmPost).findIdx? fun p => p.epi == .running) = some 0 := by decide +kernel

/-- The worked case of chapter 4: a NaN among the terms gives a NaN and no flag. -/
theorem test_case_nan : after (.mmAccumulationEnd 7) (caseOn 0x7FC0 caseRows)
    (fun t => tabGet 0 (t.arrOf 7).acc 0 == 0x7FF000000000 && (t.arrOf 7).flags == 0) = true := by decide +kernel

/-- Its contrast: 2^135 + 1.5 is rounded once, to 2^135, with NX. -/
theorem test_case_contrast : after (.mmAccumulationEnd 7) (caseOn 0 caseRows)
    (fun t => tabGet 0 (t.arrOf 7).acc 0 == 0x50C000000000 && (t.arrOf 7).flags == 0x10) = true := by decide +kernel

theorem test_completion_shows : after (.mmInstructionComplete 7) (caseOn 0 { post := [{ instr := caseMm }] })
    (fun t => t.reg .arr 7 0x108 == 9 && (t.seqOf 7).mdone == 1 && tabGet 0 (t.ctxOf (t.islandCtx 7)).counters 1 == 16) = true := by
  decide +kernel

theorem test_accumulator_given :
    tabGet false ((caseOn 0 { accPoison := [(accKey 4095 511, true)] }).arrOf 7).accPoison (accKey 4095 511) = true ∧
    (caseOn 0 {}).pageDead .acc 7 = false ∧ (caseOn 0 {}).reg .acc 7 0x20 % 2 = 0 ∧
    epiBefore { tableLoad := some ⟨0x1000, 65535, 1, 1, []⟩ } 1 = false ∧ (caseAls 0).poisoned 0x1000 8 = none := by decide +kernel

theorem test_acc_poison : after (.accEccError 19 4095 511 true 65535) {}
    (fun t => tabGet false (t.arrOf 19).accPoison (accKey 4095 511) && t.reg .acc 19 0x30 == 1 + 256 * 65535) = true := by decide +kernel

theorem test_last_table_entry : after (.tableLoadDone 7) (caseOn 0 { tableLoad := some ⟨0x1000, 65535, 1, 1, []⟩ })
    (fun t => tabGet rtOne (t.arrOf 7).rescale 65535 == 0x4000 && (t.seqOf 7).tdone == 1) = true := by decide +kernel

/-! Power, time and temperature -/

/-- A state at a time, with the power controller given and the duty model of chapter 17's worked case. -/
def poweredAt (now : Nat) (p : Pwr) : State := ({ gtime := now, pwr := p, flash := [(0x20, 20)] } : State).setReg .pwr 0 0x10C (600 + 2 ^ 16 * 2600)

/-- The ramp of that case from GTIME 0. -/
def caseRamp : Ramp := ⟨3200000000, 2400000000, 100, 0⟩

/-- The worked case of chapter 17: the duty at 2 ms, 4 ms and 8 ms of the ramp, and under the brake at 900 W. -/
theorem test_case_duty :
    (applyCaps (poweredAt 2000000 { ramp := some caseRamp })).pwr.duty = 945 ∧
    (applyCaps (poweredAt 4000000 { ramp := some caseRamp })).pwr.duty = 866 ∧
    (applyCaps (poweredAt 8000000 { ramp := some caseRamp })).pwr.duty = 708 ∧
    (applyCaps (poweredAt 5001000 { ramp := some caseRamp, braked := true })).pwr.duty = 118 := by decide +kernel

theorem test_caps_given :
    thermalAt { thermal := some 900000000, thermalFall := some true, thermalAt := 0 } 1000000 = some 850000000 ∧
    (poweredAt 0 {}).pwr.braked = false ∧ (poweredAt 0 {}).pwr.brakeRise = none ∧ (poweredAt 0 {}).pwr.thermal = none := by decide +kernel

/-- A started command of kernel queue 0 with the bytes given. -/
def kernelCmd (raw : Nat) (s : State) : State := s.setQueue 1024 { state := .running, cmds := [{ n := 5, raw := raw, started := true }] }

/-- A PWR_SETPOINT of 2,400 W at 100 W/ms, and a PWR_MODE to the ceiling mode, for GTIME 1,000. -/
def setpointRaw : Nat := 0xD8 + 2 ^ 64 * 2400 + 2 ^ 128 * 1000
def modeRaw : Nat := 0xD9 + 2 ^ 64 + 2 ^ 128 * 1000

/-- Eight pending setpoints, later than that. -/
def fullTable : List PwrEntry := (List.range 8).map fun i => ⟨false, 2000 + i, 720, 100⟩

theorem test_schedule_given :
    (actCmd (kernelCmd setpointRaw {}) 1024 0xD8).isSome = true ∧ (actCmd (kernelCmd modeRaw {}) 1024 0xD9).isSome = true ∧
    (setpointEntry (fld setpointRaw 8 0 32) (fld setpointRaw 0x10 0 64)).start = 1000 ∧ (modeEntry (fld modeRaw 8 0 32) (fld modeRaw 0x10 0 64)).start = 1000 ∧
    8 ≤ (fullTable.filter fun x => x.start != 1000 || x.isMode != false).length ∧ (kernelCmd setpointRaw { gtime := 1000 }).gtime = 1000 := by
  decide +kernel

theorem test_setpoint_enters : after (.pwrSetpoint 1024) (kernelCmd setpointRaw {})
    (fun t => t.pwr.table == [⟨false, 1000, 2400, 100⟩] && (t.queueOf 1024).cmds.all fun c => c.ended && c.status == 0) = true := by decide +kernel

theorem test_setpoint_table_full : after (.pwrSetpoint 1024) (kernelCmd setpointRaw (poweredAt 0 { table := fullTable }))
    (fun t => t.pwr.table == fullTable && (t.queueOf 1024).cmds.all fun c => c.ended && c.status == stTarget) = true := by decide +kernel

theorem test_setpoint_activates : after .setpointActivation (poweredAt 1000 { table := [⟨false, 1000, 2400, 100⟩] })
    (fun t => t.pwr.table == [] && (t.pwr.ramp.map (·.target)) == some 2400000000) = true := by decide +kernel

theorem test_controllers_given :
    (poweredAt 10000000 {}).powerRuns = true ∧ ({} : Pwr).capAt + 2000 ≤ 2000 ∧ (10000000 : Nat) + ({} : Pwr).trimAt ≤ 10000000 ∧
    (poweredAt 100000 { ceiling := true }).pwr.ceiling = true ∧ 0 ∉ ({} : Pwr).overs := by decide +kernel

theorem test_ceiling_bounds :
    after (.ceilingAdjust true) (poweredAt 100000 { ceiling := true, fceil := 0x78 }) (fun t => t.pwr.fceil == 0x78) = true ∧
    after (.ceilingAdjust false) (poweredAt 100000 { ceiling := true, fceil := 0x60 }) (fun t => t.pwr.fceil == 0x60) = true := by decide +kernel

theorem test_alerts_given :
    (poweredAt 0 {}).pwr.alerts.testBit 7 = false ∧ (poweredAt 0 { alerts := 128 }).pwr.alerts.testBit 7 = true ∧
    (poweredAt 0 {}).arrayDisabled 19 = false ∧ (poweredAt 0 { braked := true }).pwr.braked = true ∧
    (poweredAt 0 { braked := true }).brakeUw < schedAt (poweredAt 0 { braked := true }) 0 ∧
    (100000 : Nat) + ({} : Pwr).sampleAt ≤ 100000 ∧ (poweredAt 0 {}).field .pwr 0 0x118 0 7 = 95 := by decide +kernel

theorem test_trip_at_110 : after (.thermalSample (List.replicate 20 110) (List.replicate 24 0)) (poweredAt 100000 {})
    (fun t => t.halted && t.pins.trip) = true := by decide +kernel

theorem test_throttle_bounds :
    after (.thermalSample (List.replicate 20 95) (List.replicate 24 0)) (poweredAt 100000 {})
      (fun t => t.pwr.thermalFall == some true && !t.halted) = true ∧
    after (.thermalSample (List.replicate 20 93) (List.replicate 24 0)) (poweredAt 100000 { thermal := some 800000000, thermalFall := none })
      (fun t => t.pwr.thermalFall == some false) = true ∧
    after (.thermalSample (List.replicate 20 94) (List.replicate 24 0)) (poweredAt 100000 { thermal := some 800000000, thermalFall := none })
      (fun t => t.pwr.thermalFall == none) = true := by decide +kernel

/-- Array 7 at rest under a hold. -/
def heldAt7 : State := (({ isl := [(7, { hold := true })] } : State).setArr 7 { state := .held }).setCtx 0 { map := [(0, 8)] }

theorem test_holds_given :
    engineIsland 44 = 24 ∧ (poweredAt 0 {}).pwr.resWait.contains 44 = false ∧ heldAt7.islOf 7 = { hold := true } ∧ (heldAt7.arrOf 7).state = .held ∧
    heldAt7.arrAssigned 7 = true ∧
    (poweredAt 0 { resWait := [69] }).pwr.resWait.contains 69 = true ∧ (poweredAt 0 {}).limitNow 14 < (poweredAt 0 {}).reserved 14 + 4096 ∧
    (poweredAt 0 { quietWait := [40, 39] }).pwr.quietWait.contains 40 = true ∧ tabGet 0 (poweredAt 0 {}).pwr.debt 40 = 0 := by decide +kernel

theorem test_hold_released : after (.holdRelease 7) heldAt7 (fun t => (t.arrOf 7).state == .idle && !(t.islOf 7).hold) = true := by decide +kernel

theorem test_reservation_at_the_limit :
    after (.reservationGranted 69 [(poweredAt 0 {}).limitNow 0]) (poweredAt 0 { resWait := [69] }) (fun t => t.pwr.resWait == []) = true ∧
    after (.reservationGranted 69 [(poweredAt 0 {}).limitNow 0 + 1]) (poweredAt 0 { resWait := [69] }) (fun t => t.pwr.resWait == [69]) = true := by
  decide +kernel

theorem test_time_given :
    (poweredAt 5 {}).pwr.locked = false ∧ (poweredAt 1001000000 { locked := true }).pwr.locked = true ∧
    (ppsOffset (poweredAt 1001000000 { locked := true })).natAbs ≤ 1000000 ∧ 1000000 < (ppsOffset (poweredAt 1001000001 { locked := true })).natAbs ∧
    ((poweredAt 5 { armed := true }).setReg .pwr 0 0x130 1000000000).reg64 .pwr 0 0x130 0x134 % 10 ^ 9 = 0 ∧
    (poweredAt (3 * 10 ^ 9) { locked := true }).pwr.lastEdge + 3 * 10 ^ 9 ≤ 3 * 10 ^ 9 ∧ (poweredAt 5 {}).pending = [] := by decide +kernel

theorem test_first_edge_steps : after .ppsEdge (poweredAt 5 {}) (fun t => t.gtime == 1000000000 && t.pwr.locked) = true := by decide +kernel

theorem test_edge_slews : after .ppsEdge (poweredAt 1001000000 { locked := true })
    (fun t => t.gtime == 1001000000 && t.pwr.slew == 1000000) = true := by decide +kernel

theorem test_idle_cycle : (match step (poweredAt 5 {}) with | .next t => t.gtime == 15 | _ => false) = true := by decide +kernel

/-! Errors, the lifetime log, counters -/

theorem test_fatal_given :
    (poweredAt 0 {}).halted = false ∧ (poweredAt 0 {}).pins.inReset = false ∧ tabGet 0 ({ bridge := [(bridgeKey 3 2 1, 8)] } : State).bridge (bridgeKey 3 2 1) + 1 = 9 ∧
    (poweredAt 0 {}).reg .obs 0 0x1D0 = 0 ∧ (poweredAt 0 {}).obs.fatal = 0 ∧ (List.range 49).all (poweredAt 0 {}).islandIdle = true ∧
    (poweredAt 0 {}).depositBase = none ∧ (({} : State).setReg .obs 0 0x1C0 1).depositBase.isSome = true := by decide +kernel

theorem test_ninth_failure :
    after (.bridgeAttemptFail 3 2 true false) { bridge := [(bridgeKey 3 2 1, 7)] } (fun t => !t.life.fatal && t.reg .noc 3 0x10C == 9) = true ∧
    after (.bridgeAttemptFail 3 2 true false) { bridge := [(bridgeKey 3 2 1, 8)] } (fun t => t.life.fatal && t.obs.fatal == 1) = true := by decide +kernel
theorem test_fatal_rows_given :
    ({ obs := { fatal := 1, fatalAt := 0 }, gtime := 10000000 } : State).halted = false ∧
    (({ obs := { fatal := 2 } } : State).setReg .obs 0 0x1C0 1).depositBase = some 0 := by decide +kernel

theorem test_dump_waits_ten_ms :
    after .fatalStopTimeout { obs := { fatal := 1 }, gtime := 9999999 } (fun t => t.obs.fatal == 1) = true ∧
    after .fatalStopTimeout { obs := { fatal := 1 }, gtime := 10000000 } (fun t => t.obs.fatal == 3) = true := by decide +kernel

/-- Firmware runs, the configuration is committed, and session 7 of class `cls` is open. -/
def managed (cls : Nat) : State :=
  ({ mgmt := { sessions := [⟨7, cls, 0, 0⟩], nextSession := 8, anchors := [(0, 4 * 5 + cls)] } } : State).setReg .sec 0 0x100 8 |>.setReg .mbx 0 0xF04 3

theorem ready_of (s : State) (sid cls : Nat) (x : Session) (h1 : s.mgmtOpen = true) (h2 : s.mgmt.attest = []) (h5 : s.mgmt.held = [])
    (h3 : (s.mgmt.sessions.find? fun x => x.id == sid) = some x) (h4 : cls ≤ x.cls) :
    s.mgmtReady sid cls := ⟨h1, h2, h5, x, h3, h4⟩

theorem test_read_session_ready : (managed 1).mgmtReady 7 clsRead ∧ ¬(managed 1).mgmtReady 7 clsControl :=
  ⟨ready_of _ _ _ ⟨7, 1, 0, 0⟩ (by decide +kernel) (by decide +kernel) (by decide +kernel) (by decide +kernel) (by decide +kernel), by
    rintro ⟨-, -, -, x, h, h2⟩
    rw [show ((managed 1).mgmt.sessions.find? fun x => x.id == 7) = some ⟨7, 1, 0, 0⟩ by decide +kernel] at h
    cases h
    exact absurd h2 (by decide +kernel)⟩

theorem test_control_session_ready : (managed 2).mgmtReady 7 clsControl :=
  ready_of _ _ _ ⟨7, 2, 0, 0⟩ (by decide +kernel) (by decide +kernel) (by decide +kernel) (by decide +kernel) (by decide +kernel)

/-- Firmware runs and a second of GTIME has passed. -/
def powered : State := ({ gtime := 1000000000, life := { powerOn := 86400 } } : State).setReg .sec 0 0x100 7

theorem test_log_given :
    (({} : State).setReg .obs 0 0x200 4).logBusy = true ∧ ({ obs := { flushNext := some true } } : State).obs.flushNext = some true ∧
    powered.firmware = true ∧ powered.pwr.trip = false ∧ powered.obs.periodicAt + 600 ≤ powered.life.powerOn ∧ powered.logBusy = false ∧
    powered.obs.logSecond < powered.gtime / 10 ^ 9 ∧ powered.arrayDisabled 19 = false ∧
    (powered.ctx.any fun e => e.2.map.any fun m => m.2 == 20) = false ∧ 86400 + tabGet 0 powered.obs.marginAt 19 ≤ powered.life.powerOn := by
  decide +kernel

theorem test_margin_derates :
    after (.marginMeasure 19 19) (powered.setReg .pwr 0 (0x180 + 4 * 19) 0x7878) (fun t => t.field .pwr 0 (0x180 + 4 * 19) 8 8 == 0x77) = true ∧
    after (.marginMeasure 19 20) (powered.setReg .pwr 0 (0x180 + 4 * 19) 0x7878) (fun t => t.field .pwr 0 (0x180 + 4 * 19) 8 8 == 0x78) = true := by decide +kernel

theorem test_log_flush : after (.logFlush .kq 1) {} (fun t => t.logBusy && !t.obs.flushNow) = true := by decide +kernel

/-- A started command of queue 1, of context 0, over the memory given. -/
def userCmd (raw : Nat) (s : State) : State := s.setQueue 1 { state := .running, cmds := [{ n := 5, raw := raw, started := true, snap := [3] }] }

theorem test_counters_given :
    (actCmd (userCmd 0x02 (mapped [])) 1 0x02).isSome = true ∧ fld 0x02 0x18 0 64 = 0 ∧ fld (2 + 2 ^ 192 * 64) 0x18 0 64 ≠ 0 ∧
    clean (feWrite (userCmd (2 + 2 ^ 192 * 64) (mapped [])) 1 64 (snapshot {})).2 = true ∧ (actCmd (userCmd 0x03 {}) 1 0x03).isSome = true ∧
    (actCmd (userCmd 0x90 {}) 1 0x90).isSome = true ∧ (actCmd (kernelCmd 0x90 {}) 1024 0x90).isSome = true ∧ ((kernelCmd 0x90 {}).ctxOf 0).resident = false ∧
    clean (feWrite (userCmd (0x90 + 2 ^ 128 * 64) (mapped [])) 1 64 ((List.range 16).flatMap fun i => leBytes ([3].getD i 0) 8)).2 = true ∧
    (actCmd (kernelCmd 0xE0 {}) 1024 0xE0).isSome = true ∧ selectedAll {} [0xFFFFFF] = none := by decide +kernel

theorem test_step_counts : after (.stepAdvance 1) (userCmd 0x02 ((mapped []).setCtx 0 { step := 2 ^ 64 - 1 })) (fun t => (t.ctxOf 0).step == 0) = true := by
  decide +kernel

theorem test_seed_set_parts : after (.seedSet 1) (userCmd (3 + 2 ^ 64 + 2 ^ 128 * 9) (mapped [])) (fun t => (t.ctxOf 0).seed == 9 && (t.ctxOf 0).choice == 0) = true := by
  decide +kernel

/-- A ledger of 4 records at 64, one counter, every microsecond. -/
def ledger (tail head : Nat) : State :=
  ((({ gtime := 2010 } : State).setReg .obs 0 0x100 (1 + 2 ^ 20 + 2 ^ 26 * 2)).setReg .obs 0 0x10C tail).setReg .obs 0 0x110 head

theorem test_ledger_given :
    (ledger 3 0).ledgerPeriod ≠ 0 ∧ (ledger 3 0).gtime < (ledger 3 0).gtime / 1000 * 1000 + 11 ∧ (ledger 3 0).obs.ledgerAt ≠ 2001 ∧
    (2 ^ 32 + 3 - 0) % 2 ^ 32 ≠ 2 ^ (ledger 3 0).ledgerLog ∧ (2 ^ 32 + 1 - (2 ^ 32 - 3)) % 2 ^ 32 = 2 ^ (ledger 1 (2 ^ 32 - 3)).ledgerLog := by decide +kernel

theorem test_full_ledger_is_counted : after .ledgerSample (ledger 1 (2 ^ 32 - 3)) (fun t => t.obs.ledgerLost && t.reg .obs 0 0x114 == 1) = true := by decide +kernel

/-! Management -/

theorem test_sessions_given :
    (managed 2).mgmtOpen = true ∧ (managed 2).mgmt.sessions.length < 4 ∧ (managed 2).anchorClass 0 ≠ 0 ∧ (managed 2).anchorClass 3 = 0 ∧
    4 ≤ ({ mgmt := { sessions := List.replicate 4 ⟨0, 1, 0, 0⟩ } } : State).mgmt.sessions.length := by decide +kernel

/-- An element of 256 B or more. -/
def longDer (tag : Nat) (b : List Nat) : List Nat := tag :: 0x82 :: bigBytes b.length 2 ++ b

/-- The body of a certificate of the RSA key of modulus 2^3072 - 1 and exponent 1, valid from the year 1 to the year 9999. -/
def certBody (alg : List Nat) : List Nat :=
  let time := fun (t : String) => derOf 0x18 (asciiBytes t)
  let key := longDer 0x30 (longDer 2 (0 :: List.replicate 384 255) ++ [2, 1, 1])
  longDer 0x30 (derOf 0xA0 [2, 1, 2] ++ derOf 2 [1] ++ alg ++ derOf 0x30 [] ++ derOf 0x30 (time "00010101000000Z" ++ time "99991231235959Z") ++
    derOf 0x30 [] ++ longDer 0x30 (derOf 0x30 (derOf 6 oidRsa ++ [5, 0]) ++ longDer 3 (0 :: key)))

/-- That certificate under no good signature, and under one of the same key. -/
def certDer : List Nat := longDer 0x30 (certBody algEcdsa ++ algEcdsa ++ derOf 3 [0, 1])
def signedDer : List Nat :=
  let alg := algPss true true
  longDer 0x30 (certBody alg ++ alg ++ longDer 3 (0 :: pssEncode (certBody alg) (List.replicate 48 0)))

/-- A ClientHello with a share on secp384r1: the base point. -/
def helloBytes : List Nat :=
  let ext := fun (t : Nat) (b : List Nat) => bigBytes t 2 ++ tlsVec 2 b
  tlsMsg 1 ([3, 3] ++ List.replicate 32 0 ++ tlsVec 1 [] ++ tlsVec 2 [0x13, 2] ++ tlsVec 1 [0] ++
    tlsVec 2 (ext 43 (tlsVec 1 [3, 4]) ++ ext 10 (tlsVec 2 [0, 24]) ++ ext 13 (tlsVec 2 [8, 5]) ++
      ext 51 (tlsVec 2 ([0, 24] ++ tlsVec 2 (4 :: bigBytes P384.baseX 48 ++ bigBytes P384.baseY 48)))))

/-- A time, and the anchors in force: one of class CONTROL is that certificate. -/
def anchored (now : Nat) (anchors : Tab Nat) : State := { managed 2 with gtime := now, mgmt := { (managed 2).mgmt with anchors := anchors } }
def oneAnchor : Tab Nat := [(0, 4 * sha384Of (ofNats certDer) + 2)]

def certX : X509 := (x509 certDer).getD ⟨[], [], [], 0, [], [], 0, 0, .other, []⟩

theorem certX_given : x509 (nats (ofNats certDer)) = some certX ∧ certX.key = .rsa ⟨2 ^ 3072 - 1, 1⟩ ∧ certX.usage 0 = true ∧
    certX.forClient = true ∧ certX.notBefore = 26438400 ∧ certX.notAfter = 315564335999 ∧
    tabGet 0 oneAnchor 0 / 4 = sha384Of (ofNats certDer) := by decide +kernel

theorem chain_of_one (s : State) (der : List Byte) (k : Nat) (c : X509) (h : anchorOf s der = some k) (hx : x509 (nats der) = some c) :
    chainAnchor s [der] = ((some c).filter fun c => validNow s c.notBefore c.notAfter && c.usage 0 && c.forClient).map fun c => (k, c) := by
  rw [chainAnchor, upToAnchor, h, Option.bind_some, List.mapM_cons, hx, List.mapM_nil]
  rfl

theorem anchored_valid (now from_ to_ : Nat) (as : Tab Nat) : validNow (anchored now as) from_ to_ =
    (decide (10 ^ 9 * from_ ≤ 10 ^ 9 * Config.gtimeZero.val + now) && decide (10 ^ 9 * Config.gtimeZero.val + now ≤ 10 ^ 9 * to_)) := rfl

theorem anchored_anchor (now : Nat) : anchorOf (anchored now oneAnchor) (ofNats certDer) = some 0 := by
  rw [anchorOf, show List.range 4 = 0 :: [1, 2, 3] from rfl, List.find?_cons_of_pos]
  rw [show tabGet 0 (anchored now oneAnchor).mgmt.anchors 0 = tabGet 0 oneAnchor 0 from rfl, certX_given.2.2.2.2.2.2, beq_self_eq_true,
    Bool.and_true]
  show (tabGet 0 oneAnchor 0 % 4 != 0) = true
  rw [show tabGet 0 oneAnchor 0 = 4 * sha384Of (ofNats certDer) + 2 from rfl, Nat.mul_add_mod]
  rfl

/-- From GTIME 3 × 10^16 the certificate is valid, from the year 10000 it is not. -/
theorem test_chain_given : chainAnchor (anchored (3 * 10 ^ 16) oneAnchor) [ofNats certDer] = some (0, certX) ∧
    chainAnchor (anchored (3 * 10 ^ 16) []) [ofNats certDer] = none ∧
    chainAnchor (anchored (10 ^ 9 * 315564336000) oneAnchor) [ofNats certDer] = none := by
  obtain ⟨hx, -, hu, hc, hb, ha, -⟩ := certX_given
  have := Config.gtimeZero.isLt
  refine ⟨?_, rfl, ?_⟩
  · rw [chain_of_one _ _ _ _ (anchored_anchor _) hx, Option.filter_some, hu, hc, hb, ha, anchored_valid,
      decide_eq_true (by omega), decide_eq_true (by omega)]
    rfl
  · rw [chain_of_one _ _ _ _ (anchored_anchor _) hx, Option.filter_some, hu, hc, hb, ha, anchored_valid,
      decide_eq_false (p := _ ≤ 10 ^ 9 * 315564335999) (by omega), Bool.and_false]
    rfl

theorem flight_given (s : State) (c : TlsClient) (h : c.hellos = [ofNats helloBytes]) : ∃ u f, portFlight s c = (u, some f) := by
  have g : ∀ (x : List (List Nat)) (eph : Nat) (r salt : List Nat) (ch : List (List Nat)) (n d : Nat),
      (tlsOpening x).any (fun o => let b := o.2.2.share.getD []
        b.length = 97 && b.headD 0 == 4 && P384.onCurve (bigVal ((b.drop 1).take 48)) (bigVal ((b.drop 49).take 48))) = true →
      ∃ f, tlsFlight x eph r salt ch n d = some f := fun x eph r salt ch n d h => by
    obtain ⟨o, ho, hb⟩ := (Option.any_eq_true ..).mp h
    exact ⟨_, by rw [tlsFlight, ho, Option.bind_some, ecSecret, if_pos hb, Option.map_some]⟩
  obtain ⟨f, hf⟩ := g (c.hellos.map nats) _ _ _ _ _ _ (h ▸ by decide +kernel)
  exact ⟨_, f, Prod.ext rfl hf⟩

theorem client_good (f : TlsFlight) (chain : List (List Nat)) (k : RsaPub) (sig fin : List Nat) : tlsClientGood f chain (.rsa k) 0x0805 sig fin =
    (rsaVerify k (tlsSigned "client" (f.transcript ++ certificateMsg chain)) sig &&
      fin == verifyData f.secret (f.transcript ++ certificateMsg chain ++ certificateVerify 0x0805 sig)) := rfl

/-- A client that signs with that key and sends the Finished message of the port's flight opens a session. -/
theorem test_session_given : ∃ client u f, portFlight (anchored (3 * 10 ^ 16) oneAnchor) client = (u, some f) ∧
    tlsAnchor (anchored (3 * 10 ^ 16) oneAnchor) client [ofNats certDer] f = some 0 := by
  let c : TlsClient := { hellos := [ofNats helloBytes] }
  obtain ⟨u, f, hf⟩ := flight_given (anchored (3 * 10 ^ 16) oneAnchor) c rfl
  have hs : ∀ x ∈ List.replicate 48 0, x < 256 := fun x hx => List.eq_of_mem_replicate hx ▸ by decide
  let cert := certificateMsg [nats (ofNats certDer)]
  let sig := pssEncode (tlsSigned "client" (f.transcript ++ cert)) (List.replicate 48 0)
  let fin := verifyData f.secret (f.transcript ++ cert ++ certificateVerify 0x0805 sig)
  have h1 : nats (ofNats sig) = sig := nats_ofNats _ (pssEncode_lt _ _ (List.length_replicate ..) hs)
  have h2 : nats (ofNats fin) = fin := nats_ofNats fin fun x hx => hmac384_lt (expandLabel f.secret "finished" [] 48) _ x hx
  refine ⟨{ c with scheme := 0x0805, signature := ofNats sig, finished := ofNats fin }, u, f, hf, ?_⟩
  have h3 := rsaVerify_one (tlsSigned "client" (f.transcript ++ cert)) _ (List.length_replicate ..) hs
  rw [tlsAnchor, test_chain_given.1, Option.filter_some, certX_given.2.1, client_good, h1, h2, List.map_singleton, h3, beq_self_eq_true]
  rfl

theorem test_session_refused : after (.mgmtSessionOpen {} []) (managed 2) (fun t => t.mgmt.sessions.length == 1 && t.reg .sec 0 0x10C == 1 && t.outbox == []) = true ∧
    (portFlight (managed 2) {}).2 = none := by
  decide +kernel

theorem test_idle_session_closes :
    after (.sessionIdleTimeout 7) { managed 2 with gtime := 300 * 10 ^ 9 } (fun t => t.mgmt.sessions == []) = true ∧
    after (.sessionIdleTimeout 7) { managed 2 with gtime := 300 * 10 ^ 9 - 1 } (fun t => t.mgmt.sessions != []) = true := by decide +kernel

theorem test_messages_given :
    (∀ o ∈ [0, 2 ^ 24 - 4], o % 4 = 0 ∧ o < 2 ^ 24) ∧ (managed 1).depositBase = none ∧ ((managed 1).setReg .obs 0 0x1C0 1).depositBase = some 0 ∧
    selectedAll ((managed 1).heard 7) [] = some [] ∧ selectedAll ((managed 1).heard 7) [0xFFFFFF] = none ∧
    8192 + 0x3E00000 + 0 ≤ 8192 + 0x3E00000 ∧ bits 720 0 12 = 720 ∧ 3060 ≤ ({ managed 2 with flash := [(0x20, 18)] } : State).tdp := by decide +kernel

/-- A header of request 1, of a TYPE with a body of `len` bytes. -/
def headOf (type : Fin 65536) (len : Nat) : MsgHead := { rid := 1, type := type, length := len }

theorem test_heads_given :
    goodHead (headOf 1 0) 1 (some 0) ∧ goodHead (headOf 9 65536) 9 none ∧ ¬goodHead (headOf 9 65537) 9 none ∧ ¬goodHead { headOf 1 0 with flags := 1 } 1 (some 0) ∧
    ¬goodHead (headOf 3 8) 3 (some 4) := by
  unfold goodHead headOf; decide +kernel

theorem test_messages_in_order :
    after (.identity 7 (headOf 1 0)) { managed 1 with mgmt := { (managed 1).mgmt with attest := [(7, 0, 0)] } }
      (fun t => t.outbox == [] && t.mgmt.held == [⟨7, headOf 1 0, .identity⟩]) = true ∧
    after (.identity 7 (headOf 13 0)) (managed 1) (fun t => t.outbox.map (·.args) == [[13, 1, msBadRequest]]) = true ∧
    after (.identity 7 (headOf 2 0)) (managed 1) (fun t => t.outbox == []) = true := by decide +kernel

theorem test_mgmt_reg_write :
    after (.mgmtRegWrite 7 (headOf 4 8) [(pageBase .obs 0 + 0x10C, 0)]) (managed 1) (fun t => t.outbox.map (·.args) == [[0x0004, 1, msDenied]]) = true ∧
    after (.mgmtRegRead 7 (headOf 3 4) [2]) (managed 1) (fun t => t.outbox.map (·.args) == [[0x0003, 1, msBadRequest]]) = true := by decide +kernel

theorem test_setpoint_bounds :
    after (.setpoint 7 (headOf 6 0) 719 5) (managed 2) (fun t => t.pwr.table == []) = true ∧
    after (.setpoint 7 (headOf 6 0) 720 5) (managed 2) (fun t => t.pwr.table == [⟨false, 5, 720, 100⟩]) = true := by decide +kernel

theorem test_anchor_replaced : after (.trustSet 7 (headOf 11 0) 0 1 9) (managed 2) (fun t => tabGet 0 t.mgmt.anchors 0 == 37 && t.mgmt.sessions == []) = true := by decide +kernel

theorem test_attestation_given :
    (managed 1).mgmtReady 7 clsRead ∧ (List.replicate 32 (0 : Byte)).length = 32 ∧ (({} : State).setReg .sec 0 0x100 4096).reg .sec 0 0x100 = 4096 ∧
    ({ gtime := 100000000 } : State).mgmt.smbAt + 100000000 ≤ 100000000 ∧ (∃ f ∈ smbFields, f.1 < f.1 + f.2 - 1) ∧
    (∃ o : Fin 32, ∀ f ∈ smbFields, o.val < f.1 ∨ f.1 + f.2 ≤ o.val) :=
  ⟨ready_of _ _ _ ⟨7, 1, 0, 0⟩ (by decide +kernel) (by decide +kernel) (by decide +kernel) (by decide +kernel) (by decide +kernel), by decide +kernel, by decide +kernel,
    by decide +kernel, by decide +kernel, by decide +kernel⟩

theorem test_block_read_wraps : after (.smbusRead 31 2 true false) { mgmt := { smb := (List.range 32).map (· + 1) } }
    (fun t => t.outbox.map (·.data) == [[2, 0, 1]]) = true := by decide +kernel

/-! Reset and boot -/

/-- The device held in reset with power good for `n` cycles and the pin released. -/
def inReset (n : Nat) : State := { pins := { inReset := true, resetN := true, released := true, powerGood := true, goodFor := n } }

theorem test_reset_given :
    (inReset 1000000).pins.inReset = true ∧ (inReset 0).pins.released = true ∧ (inReset 999999).pins.goodFor < 1000000 ∧ bits 255 7 2 < 2 ∧ 2 ≤ bits 511 7 2 ∧
    ({} : State).pins.powerGood = true ∧ ({ pins := { powerGood := false } } : State).pins.powerGood = false ∧
    ({ pins := { resetN := false } } : State).pins.resetN = false := by decide +kernel

theorem test_release_needs_ten_ms :
    after (.effectiveResetRelease 0) (inReset 999999) (fun t => t.pins.inReset) = true ∧
    after (.effectiveResetRelease 255) (inReset 1000000) (fun t => !t.pins.inReset && t.bootSrc == 1) = true := by decide +kernel

theorem test_reserved_strap_halts : after (.effectiveResetRelease 256) (inReset 1000000) (fun t => t.halted && t.field .sec 0 0x100 4 4 == 3) = true := by
  decide +kernel

/-- The boot ROM reads the colophon, of which neither copy verifies. -/
def reading : State := ({} : State).setReg .sec 0 0x100 1

theorem test_boot_given :
    colophonGood reading 0 = false ∧ colophonGood reading 0x100000 = false ∧ reading.boot = bsColophon ∧ reading.halted = false ∧
    (({} : State).setReg .sec 0 0x100 2).boot = bsPuf ∧ ({} : State).portState bxlPort = lsDown ∧
    (setBxlBoot {} 1 0).bootOpen = true ∧ ({} : State).bootOpen = false ∧ ((setBxlBoot {} 1 0).setReg .bxl 0 0x18C 16777216).field .bxl 0 0x18C 0 25 = 16777216 ∧
    (({} : State).setReg .sec 0 0x100 4).boot = bsLoading ∧ (setBxlBoot {} 2 0).bxlBoot = 2 := by decide +kernel

theorem test_no_copy_halts :
    after (.colophonVerifyDone false false) reading (fun t => t.boot == bsHalted && t.field .sec 0 0x100 4 4 == 1) = true ∧
    after (.colophonVerifyDone true false) reading (fun t => t.boot == bsColophon && !t.halted) = true := by decide +kernel

theorem test_image_length :
    after .bootGo ((setBxlBoot {} 1 0).setReg .bxl 0 0x18C 16777216) (fun t => t.bxlBoot == 2) = true ∧
    after .bootGo ((setBxlBoot {} 1 0).setReg .bxl 0 0x18C 16777280) (fun t => t.bxlBoot == 3) = true := by decide +kernel

/-- A network boot that fetches block 1. -/
def fetching : State := ({ gtime := 10 ^ 9, mgmt := { net := { phase := 2 } } } : State).setReg .sec 0 0x100 4

theorem test_network_given :
    fetching.mgmt.net.phase = 2 ∧ fetching.boot = bsLoading ∧ fetching.mgmt.net.next % 65536 = 1 ∧ fetching.mgmt.net.heard + 10 ^ 9 ≤ fetching.gtime ∧
    fetching.mgmt.net.retries < 5 ∧ ({ mgmt := { net := { phase := 1 } }, gtime := 4 * 10 ^ 9 } : State).mgmt.net.phase = 1 := by decide +kernel

theorem test_five_retries :
    after .tftpTimeout { fetching with mgmt := { net := { phase := 2, retries := 4 } } } (fun t => t.mgmt.net.retries == 5 && t.boot == bsLoading) = true ∧
    after .tftpTimeout { fetching with mgmt := { net := { phase := 2, retries := 5 } } } (fun t => t.boot == bsWaitImage && t.mgmt.net.phase == 1) = true := by
  decide +kernel

theorem test_short_block_ends : after (.tftpBlockRx none 1 [5]) fetching (fun t => t.mgmt.image == [5] && t.boot == bsVerify) = true := by decide +kernel

/-- An image with an empty body. -/
def smallImage : List Byte := leBytes (0x4C4D4657 + 2 ^ 32 + 2 ^ 64 * 8496) 8496

theorem test_firmware_given :
    imageFault smallImage true true true = none ∧ imageFault smallImage true false true = some 0xA ∧ imageFault [] true true true = some 8 ∧
    foundFault {} = some 8 ∧
    (({} : State).setReg .sec 0 0x100 5).boot = bsVerify ∧ (({} : State).setReg .sec 0 0x100 6).boot = bsFwInit := by decide +kernel

/-- A configuration block whose every word is in range, with its CRC: it enables kernel queue 0. -/
def goodDcb : State :=
  ((((((({ flash := [(0x20, 20)] } : State).setReg .mbx 0 0x100 1).setReg .mbx 0 0x220 (2 ^ 16)).setReg .mbx 0 0x224 720).setReg .mbx 0 0x288 38).setReg .mbx 0 0x294 6).setReg .mbx 0 0xEFC 2551532933).setReg
    .mbx 0 0xF04 1

theorem test_configuration_given :
    ({ pins := { ready := true } } : State).dcbOpen = true ∧ ({} : State).dcbOpen = false ∧ goodDcb.dcbState = 1 ∧
    dcbFault (goodDcb.setReg .mbx 0 0x100 2) = some 0 ∧ (goodDcb.kq 0 8).testBit 5 = false ∧ (goodDcb.dcb 0x188).testBit 5 = true ∧
    (goodDcb.queueOf 1024).state = .disabled ∧ goodDcb.obs.fatal = 0 ∧ (inReset 0).pins.inReset = true := by decide +kernel

theorem test_commit_word :
    after (.dcbCommit 0x44434231) { pins := { ready := true } } (fun t => t.dcbState == 1) = true ∧
    after (.dcbCommit 0x44434232) { pins := { ready := true } } (fun t => t.dcbState == 2) = true := by decide +kernel
/-- `n` bit steps of CRC-32C, each evaluated before the next. -/
def crcFast : Nat → Nat → Nat
  | 0, c => c
  | n + 1, c => match Nat.xor (Nat.div c 2) (Nat.mul 0x82F63B78 (Nat.mod c 2)) with
    | 0 => crcFast n 0
    | k + 1 => crcFast n (k + 1)

/-- The running register of CRC-32C, evaluated byte by byte. -/
def crcStrict : List Byte → Nat → Nat
  | [], c => c
  | b :: bs, c => match crcFast 8 (c ^^^ b.toNat) with
    | 0 => crcStrict bs 0
    | k + 1 => crcStrict bs (k + 1)

theorem crcFast_eq (n : Nat) : ∀ c, crcFast n c = crcBits n c := by
  induction n with
  | zero => exact fun _ => rfl
  | succ n ih =>
    intro c
    have h : Nat.xor (Nat.div c 2) (Nat.mul 0x82F63B78 (Nat.mod c 2)) = crcBit c := by
      show (c / 2) ^^^ (0x82F63B78 * (c % 2)) = crcBit c
      rw [crcBit]
      rcases Nat.mod_two_eq_zero_or_one c with h | h <;> simp [h]
    rw [crcFast, crcBits, ← ih, h]
    cases crcBit c <;> rfl

theorem crcStrict_eq (bs : List Byte) : ∀ c, crcStrict bs c = crcRun bs c := by
  induction bs with
  | nil => exact fun _ => rfl
  | cons b bs ih =>
    intro c
    rw [crcStrict, crcRun, ← ih, crcFast_eq]
    generalize crcBits 8 (c ^^^ b.toNat) = x
    cases x <;> rfl

theorem test_dcb_crc : crcStrict ((dcbBytes goodDcb).take 0xDFC) max32 ^^^ max32 = 2551532933 := by decide +kernel

theorem test_dcb_words : (((List.range 895).map (4 * ·)).find? fun o => !dcbWordOk goodDcb o) = none := by decide +kernel

theorem test_dcb_good : dcbFault goodDcb = none := by
  have h : crc32c ((dcbBytes goodDcb).take 0xDFC) = 2551532933 := by rw [crc32c, ← crcStrict_eq]; exact test_dcb_crc
  have h2 : goodDcb.dcb 0xDFC = 2551532933 := by decide +kernel
  rw [dcbFault, if_neg (by decide +kernel), if_neg (by rw [h, h2]; exact fun x => x rfl)]
  exact test_dcb_words
/-! Device memory and translation -/

theorem test_reads_given :
    inDevice 0x1A27FFFFF00 256 = true ∧ oneBlock 0x1A27FFFFF00 256 = true ∧ inDevice 0x1A280000000 1 = false ∧ rowBusy (mapped []) 4092 = false ∧
    (mapped []).mem.keyOf 0 ≠ 0 ∧ (mapped []).mem.keyOf 1 = 0 ∧ (mapped []).chanRetired 4092 = false ∧
    (tabGet {} (mapped []).mem.blks (4092 / 256)).tag = some (0, (mapped []).mem.keyOf 0) ∧
    (tabGet {} (mapped []).mem.blks (4096 / 256)).tag ≠ some (0, (mapped []).mem.keyOf 0) ∧ (((List.range 24).foldl (fun (s : State) k => s.setReg .mc k 0x104 0xFFFFFFFF) {})).chanRetired 0 = true := by decide +kernel

theorem test_read_back : after (.mcWrite 0 4092 [1, 2, 3, 4]) (mapped [])
    (fun t => after (.mcRead 0 4092 4) t (fun u => u.mem.lastData == [1, 2, 3, 4] && u.mem.lastPoison == [false])) = true := by decide +kernel

theorem test_read_of_another_owner : after (.mcRead 64 0 8) (mapped [(0, 7)]) (fun t => t.mem.lastPoison == [true]) = true := by decide +kernel

theorem test_outside_memory : (match exec (.mcRead 0 0x1A280000000 1) {} with | .fault .noSuchAddress => true | _ => false) = true := by decide +kernel

theorem test_memory_events_given :
    inDevice 0x1A27FFFFFFF 1 = true ∧ (({} : State).field .mc 23 0x10C 0 16 ≠ 0) ∧
    ({ mem := { copies := [⟨32 * 23 + 31, 5⟩] } } : State).mem.copies.contains ⟨32 * 23 + 31, 5⟩ = true ∧ (({} : State).reg .mc 23 0x104).testBit 31 = false ∧
    tabGet 0 ({ mem := { ifTry := [(32 * 23 + 31, 8)] } } : State).mem.ifTry (32 * 23 + 31) + 1 = 9 := by decide +kernel

/-! The vectors are those of FIPS 197, SP 800-38B and IEEE 1619; the sequence number is R166's own. -/

theorem test_aes_vector : aesBlock (keySchedule (List.range 32)) (bigBytes 0x00112233445566778899AABBCCDDEEFF 16) =
    bigBytes 0x8EA2B7CA516745BFEAFC49904B496089 16 := by decide +kernel

theorem test_cmac_vectors :
    let k := bigBytes 0x603DEB1015CA71BE2B73AEF0857D77811F352C073B6108D72D9810A30914DFF4 32
    aesCmac k [] = bigBytes 0x028962F61B7BF89EFC6B551F4667D983 16 ∧
    aesCmac k (bigBytes 0x6BC1BEE22E409F96E93D7E117393172A 16) = bigBytes 0x28A7023F452E8F82BD4BF28D8C37C35C 16 := by decide +kernel

theorem test_xts_vector :
    (xtsEncrypt (bigBytes 0x2718281828459045235360287471352662497757247093699959574966967627 32 ++
        bigBytes 0x3141592653589793238462643383279502884197169399375105820974944592 32) 255 (List.range 64)).take 16 =
      bigBytes 0x1C3B3A102F770386E4836C99E370CF9B 16 ∧ 0x12345600 / 64 = 0x48D158 := by decide +kernel

theorem test_patrol_due_given : let s : State := { gtime := 86400000000000 }
    s.field .mc 23 0x10C 0 16 ≠ 0 ∧ tabGet 0 s.mem.patrolAt 23 + s.field .mc 23 0x10C 0 16 * 3600000000000 ≤ s.gtime ∧
    ({} : State).gtime < tabGet 0 ({} : State).mem.patrolAt 23 + ({} : State).field .mc 23 0x10C 0 16 * 3600000000000 := by decide +kernel

theorem test_eighth_interface_failure : after (.mcInterfaceError 23 31 false)
    { (({} : State).setReg .mc 23 0x20 1) with mem := { ifTry := [(32 * 23 + 31, 7)] } }
    (fun t => !(t.reg .mc 23 0x104).testBit 31 && tabGet 0 t.mem.ifTry (32 * 23 + 31) == 8) = true := by decide +kernel

/-- A read-only page of context 63, on die 3. -/
def readOnly : State := ({ mmu := { tlb := [(3, [⟨63, 2 ^ 48 - 2 ^ 21, 21, 2 ^ 21, false⟩])] } } : State).setReg .mmu 0 (0x200 + 8 * 63) 1

/-- A state whose walks are those given. -/
def walking (ws : List Walk) : State := { mapped [] with mmu := { (mapped []).mmu with walks := ws } }

theorem test_translation_given :
    2 ^ 48 - 1 < 2 ^ 48 ∧ readOnly.reg .mmu 0 (0x200 + 8 * 63) % 2 = 1 ∧ tlbFind readOnly 3 63 (2 ^ 48 - 1) = some ⟨63, 2 ^ 48 - 2 ^ 21, 21, 2 ^ 21, false⟩ ∧
    tlbFind readOnly 3 63 0 = none ∧ (readOnly.mmu.walks.filter fun x => x.die == 3).length < 16 ∧
    (walking [walkOf 0 0 0 5 false]).mmu.walks.contains (walkOf 0 0 0 5 false) = true ∧
    (match (translate (mapped []) 0 0 0 5 false).2 with | .pa a => a == 5 | _ => false) = true ∧
    (match (translate {} 0 0 0 5 false).2 with | .fault _ => true | _ => false) = true ∧
    (walking [{ walkOf 0 0 0 5 false with discard := true }]).mmu.walks.contains (walkOf 0 0 0 5 false) = false ∧
    ({ mmu := { inval := some ⟨1, 0, 0, none⟩ } } : State).mmu.inval.isSome = true := by decide +kernel

theorem test_translate_read_only :
    after (.mmuTranslate 3 2 63 (2 ^ 48 - 1) false) readOnly (fun t => t.mmu.answer == some (.pa (2 ^ 22 - 1))) = true ∧
    after (.mmuTranslate 3 2 63 (2 ^ 48 - 1) true) readOnly (fun t => t.mmu.answer == some (.fault fWriteProtect)) = true := by decide +kernel

theorem test_walk_answers : after (.pageWalkDone 0 0 0 5 false) (walking [walkOf 0 0 0 5 false])
    (fun t => t.mmu.answer == some (.pa 5) && t.mmu.walks == []) = true := by decide +kernel

/-! Local stores, vector engines, DMA -/

/-- Array 19's vector engine executes an instruction. -/
def vectorOn (i : VecInstr) : State := ({} : State).setVec 19 { exec := some i }

theorem test_stores_given :
    alsSize - 1 < alsSize ∧ tabGet false (({} : State).alsOf 19).poison ((alsSize - 1) / 64) = false ∧ ({} : State).pageDead .als 19 = false ∧
    tabGet .none ({ alsScrub := [(19, .requested)] } : State).alsScrub 19 = .requested ∧ ({ alsScrub := [(19, .running)] } : State).alsScrubbing 19 = true ∧
    (({} : State).setReg .dss 3 (0x100 + 4 * 15) 128).partBusy 3 15 = true ∧ (vectorOn {}).alsScrubbing 19 = false ∧
    ((vectorOn {}).vecOf 19).exec = some {} := by decide +kernel

theorem test_als_poison : after (.alsEccError (.als 19) (alsSize - 1) true) {}
    (fun t => tabGet false (t.alsOf 19).poison ((alsSize - 1) / 64) && t.reg .als 19 0x28 == alsSize - 64) = true := by decide +kernel

theorem test_partition_scrub_ends : after (.dssScrubEnd 3 15) ((({} : State).setReg .dss 3 (0x100 + 4 * 15) 128).setDss 3 { bytes := [(5, 1), (15 * partSize, 2)] })
    (fun t => t.part 3 15 == 0 && (t.dssOf 3).bytes == [(5, 1)]) = true := by decide +kernel

/-- A transfer of one row of 128 B from the DSS at 64 to the DSS at 256, and its channel. -/
def dssRow : Nat := 1 + 2 ^ 2 + 2 ^ 32 * 128 + 2 ^ 64 * (1 + 2 ^ 16) + 2 ^ 128 * 64 + 2 ^ 192 * 256

theorem test_dma_given :
    bits (((({} : State).setReg .dma 3 (0x40C + 0x40 * 31) 1)).ch 127 0xC) 0 24 ≠ 0 ∧ ({} : State).engineHeld (enDma 3) = false ∧
    (channelOn { state := .idle, pending := 1 }).chValid 127 = true ∧ dSrcKind dssRow = 1 ∧ dDstKind dssRow = 1 ∧ dDecomp dssRow = false ∧
    (burstsOf dssRow).length = 1 ∧ storesBusy (channelOn { state := .active, desc := some dssRow }) 127 dssRow = false ∧
    arraysHeld (channelOn {}) 127 dssRow = true ∧ targetsOk ((channelOn {}).setReg .dss 3 0x100 64) 127 dssRow = true ∧
    bufferedBytes { desc := some dssRow } (burstsOf dssRow) < 65536 * (channelOn {}).chQuota 127 ∧ ((burstsOf dssRow).getD 0 ⟨0, [], 0⟩).len ≠ 0 ∧
    dDecomp (dssRow + 2 ^ 13) = false ∧ dChain (dssRow + 2 ^ 13) = true := by decide +kernel

/-- Channels 30, of PRIO 1, and 31 of context 0 on die 3, each with the transfer of `dssRow` and its partition. -/
def twoChannels : State :=
  (((channelOn { state := .active, desc := some dssRow }).setReg .dss 3 0x100 64).setReg .dma 3 (0x400 + 0x40 * 30) (64 + 128 + 2 ^ 14)).setCh 126
    { state := .active, desc := some dssRow }

theorem test_read_turn_given :
    readTurn twoChannels 3 = some 30 ∧ readTurn ((channelOn { state := .active, desc := some dssRow }).setReg .dss 3 0x100 64) 3 = some 31 ∧
    burstsOut twoChannels 3 < 1024 ∧ srcArrays 3 dssRow = [] := by decide +kernel

theorem test_priority_first : after (.dmaBurstIssue 3 31 0) twoChannels (fun t => (t.chOf 127).issued == []) = true ∧
    after (.dmaBurstIssue 3 30 0) twoChannels (fun t => (t.chOf 126).issued == [0]) = true := by decide +kernel

/-- A channel of context 0 with one descriptor, at its list's address 64. -/
def listed (b : List Byte) : State :=
  (((mapped (tabFill 0 [] 64 b)).setReg .dma 3 0x400 (64 + 2 ^ 14)).setReg .dma 3 0x404 64).setReg .dma 3 0x408 (2 ^ 16) |>.setCh 96 { state := .idle, pending := 1 }

theorem test_dma_fetch_given :
    (listed (leBytes dssRow 64)).chValid 96 = true ∧ (listed (leBytes dssRow 64)).chListBase 96 = 64 ∧ (listed []).chListLen 96 ≠ 0 ∧
    clean (memRead ((listed (leBytes dssRow 64)).setCh 96 { state := .active, fetching := true }) (agDma 96) 3 reqDma 0 64 64).2 = true ∧
    descFault ((listed (leBytes dssRow 64)).setReg .dss 3 0x100 64) 96 dssRow = none ∧ (descFault (listed (leBytes 3 64)) 96 3).isSome = true := by decide +kernel

theorem test_dma_fetch : after (.dmaDescriptorFetch 3 0) ((listed (leBytes dssRow 64)).setReg .dss 3 0x100 64)
    (fun t => (t.chOf 96).desc == some dssRow && (t.chOf 96).state == .active && (t.chOf 96).pending == 0) = true := by decide +kernel

theorem test_dma_burst : after (.dmaBurstReadDone 3 31 0) ((channelOn { state := .active, desc := some dssRow, issued := [0] }).setDss 3 { bytes := [(64, 7)] })
    (fun t => (t.chOf 127).buffer.map (·.bytes.take 2) == [[7, 0]]) = true := by decide +kernel

/-- A burst whose request a block reset refused ends in a BUS fault (R21, R151). -/
theorem test_dma_refused : after (.dmaBurstReadDone 3 31 0) (channelOn { state := .active, desc := some dssRow, refused := [0] })
    (fun t => (t.chOf 127).state == .halted && bits (t.ch 127 0x20) 0 4 == dfBus) = true := by decide +kernel

theorem test_dma_written : after (.dmaBurstWritten 3 31)
    (((channelOn { state := .active, desc := some dssRow, buffer := [⟨0, 7 :: List.replicate 127 0, [false, false], 0⟩] })).setReg .dss 3 0x100 64)
    (fun t => (t.dssOf 3).bytes == [(256, 7)] && (t.chOf 127).written == 1) = true := by decide +kernel
/-! The front end and contexts -/

/-- Queue 1 of context 0, its ring and its completion ring at 64, with the commands given. -/
def feQueue (x : Queue) : State := (mapped []).setQueue 1 { x with ring := 64, log := 6, cq := 64, cqLog := 6 }

theorem test_queue_given :
    (feQueue { state := .running, tail := 1 }).fetches 1 = true ∧ clean (feLine (feQueue { state := .running, tail := 1 }) 1 (agFetch 1) 64).2 = true ∧
    (nextToStart (feQueue { state := .running, cmds := [{ n := 5, raw := 0x82 }] }) 1).isSome = true ∧
    enginesFree (feQueue {}) 1 { raw := 0x82 } = true ∧ servedAfter (feQueue {}) 1 { raw := 0x82 } = false ∧
    (nextToStart (feQueue { state := .running, cmds := [{ n := 5, raw := 0x82, check := 3 }] }) 1).isSome = true ∧
    unmapped (((feQueue {}).setCtx 0 { map := [(0, 20)] }).setHolder 19 { ctx := some 0 }) 1 { raw := 1 + 2 ^ 64 } = false ∧
    arraysAreHeld (((feQueue {}).setCtx 0 { map := [(0, 20)] }).setHolder 19 { ctx := some 0 }) 1 { raw := 1 + 2 ^ 64 } = true ∧
    (firstEnded { cmds := [{ n := 5, raw := 0x82, ended := true }] }).isSome = true ∧ cCompl 0x82 = 0 ∧ cCompl (0x82 + 2 ^ 18) ≠ 0 ∧
    ({ cqTail := 64, cqHead := 1, cqLog := 6 } : Queue).cqFull = false ∧
    clean (feRecord (feQueue {}) 1 64 (leBytes 5 32)).2 = true ∧
    (timedOut { mapped [] with gtime := 1000 } { timeout := 1, cmds := [{ raw := 0x82, started := true }] }).isSome = true ∧
    (timedOut { mapped [] with gtime := 999 } { timeout := 1, cmds := [{ raw := 0x82, started := true }] }) = none ∧ (mapped []).feRuns = true := by
  decide +kernel

/-- Queues 1 and 2 of context 0, each with an update to start; queue 1 has waited longer. -/
def twoUpdates : State := (feQueue { state := .running, cmds := [{ n := 5, raw := 0x30 }], since := some (5, 3) }).setQueue 2
  { state := .running, cmds := [{ n := 6, raw := 0x30 }], since := some (6, 4) }

theorem test_service_order_given :
    servedAfter twoUpdates 2 { n := 6, raw := 0x30 } = true ∧ servedAfter twoUpdates 1 { n := 5, raw := 0x30 } = false ∧
    dmaTarget (feQueue {}) 1 { raw := 0x40 + 2 ^ 96 } = true ∧ dmaTarget (feQueue {}) 1 { raw := 0x82 } = false ∧
    yields (((feQueue {}).setCtx 0 { map := [(0, 20)] }).setHolder 19 { ctx := some 0 }) 1 { raw := 1 + 2 ^ 64 } = false := by decide +kernel

theorem test_fetch_takes_the_head : after (.commandFetch 1) (feQueue { state := .running, head := 2 ^ 32 - 1, tail := 0 })
    (fun t => (t.queueOf 1).head == 0 && (t.queueOf 1).cmds.map (·.n) == [2 ^ 32 - 1]) = true := by decide +kernel

theorem test_orphaned : after (.completionWriteFault 1) (feQueue { state := .running, wfault := true, held := [⟨5, false⟩] })
    (fun t => (t.queueOf 1).state == .orphaned && (t.queueOf 1).orphan) = true := by decide +kernel

theorem test_nop_ends : after (.nop 1) (userCmd 0x82 {}) (fun t => (t.queueOf 1).cmds.all fun c => c.ended && c.status == stOk) = true := by decide +kernel

/-- A kernel queue over a block that the structure owner's key tagged. -/
def ownedCmd (raw : Nat) : State := kernelCmd raw { mem := { bytes := [(4096, 9)], keys := [(64, 2)], blks := [(16, ⟨some (64, 2), 0⟩)] } }

theorem test_front_end_given :
    (runSeqs ((userCmd (1 + 2 ^ 64 * (2 ^ 20 + 1)) (mapped [])).setCtx 0 { map := [(0, 20)] }) 1 { raw := 1 + 2 ^ 64 * (2 ^ 20 + 1) }) = [19, 20] ∧
    clean (feRead (userCmd (1 + 2 ^ 64 * (2 ^ 20 + 1)) (mapped [])) 1 0 208).2 = true ∧ setBits 26 (2 ^ 20 + 1) = [0, 20] ∧
    ownsChannel (withChannel (userCmd (0x40 + 2 ^ 64 * 3 + 2 ^ 96 * 2 ^ 31) {})) 1 127 = true ∧ ownsChannel {} 1 127 = false ∧
    bits (0x41 + 2 ^ 64 * 127 + 2 ^ 71 * 3) 71 2 = 3 ∧
    (nextToStart (feQueue { state := .running, cmds := [{ n := 5, raw := 0x80 + 2 ^ 128 * 64 }] }) 1).isSome = true ∧
    (nextToStart (feQueue { state := .waiting, cmds := [{ n := 5, raw := 0x80 + 2 ^ 128 * 64 + 2 ^ 192 }] }) 1).isSome = true ∧
    clean (feLine (feQueue {}) 1 (agFetch 1) 64).2 = true ∧
    (match (fenceMaxPhys (ownedCmd 0x81) 1024 reqFe 0 64 4096 8).2 with | .ok [] [false] => true | _ => false) = true ∧
    (match (feWrite (userCmd (0x83 + 2 ^ 128 * 64) (mapped [])) 1 64 (leBytes 0 8)).2 with | .ok [] [] => true | _ => false) = true ∧
    4096 + 8 ≤ devEnd ∧ (ownedCmd 0x81).mem.keyOf 64 ≠ 0 ∧ (ownedCmd 0x81).chanRetired 4096 = false ∧
    tabGet {} (ownedCmd 0x81).mem.blks 16 = ⟨some (64, (ownedCmd 0x81).mem.keyOf 64), 0⟩ := by decide +kernel

theorem test_signal_keeps_the_greater :
    after (.fenceSignal 1024) (ownedCmd (0x81 + 2 ^ 128 * 4096 + 2 ^ 192 * 8)) (fun t => t.mem.bytes == [(4096, 9)]) = true ∧
    after (.fenceSignal 1024) (ownedCmd (0x81 + 2 ^ 128 * 4096 + 2 ^ 192 * 10)) (fun t => t.mem.bytes == [(4096, 10)]) = true := by decide +kernel

theorem test_fence_waits :
    after (.fenceWait 1) (feQueue { state := .running, cmds := [{ n := 5, raw := 0x80 + 2 ^ 128 * 64 + 2 ^ 192 }] }) (fun t => (t.queueOf 1).state == .waiting) = true ∧
    after (.fenceWait 1) (feQueue { state := .running, cmds := [{ n := 5, raw := 0x80 + 2 ^ 128 * 64 }] }) (fun t => (t.queueOf 1).state == .running) = true := by
  decide +kernel

/-- Context 63 resident. -/
def residing (x : Ctx) : State := ({} : State).setCtx 63 { x with resident := true }

theorem test_contexts_given :
    (({} : State).ctxOf 63).resident = false ∧ fld (0xC0 + 2 ^ 64 * 63) 0x18 0 64 % 4096 = 0 ∧ ((residing {}).ctxOf 63).resident = true ∧
    (residing {}).ctxHolds 63 = false ∧ (residing { map := [(0, 1)] }).ctxHolds 63 = true ∧ (({} : State).queueOf 1023).state = .disabled ∧
    (2 ^ 32 + 5 - 1) % 2 ^ 32 ≤ 2 ^ 6 ∧ tabGet 0 ((residing {}).ctxOf 63).map 19 = 0 ∧ (residing {}).assignedTo 63 19 = false ∧
    (({} : State).setReg .dev 0 0x108 (2 ^ 19)).arrayDisabled 19 = true ∧ namesArray (residing { map := [(19, 20)] }) 63 19 = false ∧
    ((residing {}).setHolder 19 { ctx := some 63 }).holderOf 19 = { ctx := some 63 } ∧ slotHeld {} 63 = false ∧ slotHeld (residing { map := [(0, 1)] }) 63 = true ∧
    (mapped []).mem.keyOf 0 ≠ 0 ∧ (({} : State).mem.keyOf 64 = 0) := by decide +kernel

/-- No channel of any stack is retired. -/
theorem test_nothing_retired : ∀ a : Fin 4, ({} : State).chanRetired (2 ^ 21 * a) = false := by decide +kernel

theorem test_context_is_fresh : after (.ctxCreate 1024) (kernelCmd (0xC0 + 2 ^ 64 * 63) (({} : State).setCtx 63 { seed := 9, step := 4, logLog2 := 3 }))
    (fun t => (t.ctxOf 63).resident && (t.ctxOf 63).seed == 0 && (t.ctxOf 63).step == 0 && (t.ctxOf 63).logLog2 == 0) = true := by decide +kernel

theorem test_disabled_array_refused : after (.arrayAssign 1024) (kernelCmd (0xC4 + 2 ^ 64 * (63 + 2 ^ 11 * 19)) ((residing {}).setReg .dev 0 0x108 (2 ^ 19)))
    (fun t => (t.queueOf 1024).cmds.all (fun c => c.ended && c.status == stDisabledArray) && (t.ctxOf 63).map == []) = true := by decide +kernel

theorem test_key_bound : after (.keyBind 1024) (kernelCmd (0xC6 + 2 ^ 64 * (63 + 64)) {}) (fun t => t.mem.keyOf 63 == 1 && t.mem.keyOf 62 == 0) = true := by
  decide +kernel

/-- Queue 1 being destroyed by kernel queue 0. -/
def destroyed (cs : List Cmd) (d : Destroy) : State := (kernelCmd 0xC3 {}).setQueue 1 { state := .draining, cmds := cs, destroy := some d }

theorem test_destruction_given :
    (actCmd (kernelCmd (0xC3 + 2 ^ 64) {}) 1024 0xC3).isSome = true ∧ ((userCmd 0x82 {}).queueOf 1).state ≠ .draining ∧ ({} : State).queueOf 1 = {} ∧
    ({ obs := { fatal := 1 } } : State).obs.fatal = 1 ∧ arrAtBoundary {} = true ∧
    (19 : Nat) ∈ ({ n := 5, raw := 1, started := true, aborted := true, engines := [19] } : Cmd).engines ∧
    (⟨1024, 5, [⟨19, none, 0, 0, 0, 0, 0, true⟩], false⟩ : Destroy).reports.all (settled { state := .draining }) = true ∧
    scrubsRun (destroyed [] ⟨1024, 5, [], true⟩) 0 = false ∧ ((destroyed [] ⟨1024, 5, [], true⟩).cmdOf 1024 5).isSome = true ∧
    fld 0xC3 0x10 0 64 = 0 := by decide +kernel

theorem test_destroy_drains : after (.queueDestroy 1024) ((kernelCmd (0xC3 + 2 ^ 64) {}).setQueue 1 { state := .running, cmds := [{ n := 3, raw := 0x82 }] })
    (fun t => (t.queueOf 1).state == .draining && (t.queueOf 1).cmds.all fun c => c.ended && c.status == stAborted) = true := by decide +kernel

theorem test_destroyed_queue_is_fresh : after (.queueDestroyComplete 1) (destroyed [] ⟨1024, 5, [], true⟩)
    (fun t => t.queueOf 1 == {} && (t.queueOf 1024).cmds.all fun c => c.ended && c.status == stOk) = true := by decide +kernel

/-- Context 0 holds array 7 as its logical array 0; queue 2 of context 1 waits for it. -/
def sharing (h : Holder) (now : Nat) : State :=
  ((({ gtime := now } : State).setCtx 0 { resident := true, map := [(0, 8)], quantum := 5 }).setCtx 1 { resident := true, map := [(0, 8)] }).setHolder 7 h
    |>.setQueue 2 { state := .running, ctx := 1, since := some (5, 3), cmds := [{ n := 5, raw := 1 + 2 ^ 64 }] }

theorem test_switch_given :
    ((sharing { ctx := some 0 } 5000).ctxOf 0).quantum ≠ 0 ∧ ((sharing { ctx := some 1 } 5000).ctxOf 1).quantum = 0 ∧
    oldestReady (sharing {} 5) 7 none = some (3, 2, 1) ∧ oldestReady (sharing { ctx := some 0 } 5) 7 (some 0) = some (3, 2, 1) ∧
    busyOn (sharing { ctx := some 0 } 5) 0 7 = false ∧ readyFor (sharing { ctx := some 0 } 5) 0 7 = false ∧
    logicalOf ((sharing {} 5).ctxOf 0) 7 = some 0 ∧ (sharing {} 5).feRuns = true ∧
    tabGet none ((sharing {} 5).ctxOf 1).images ((logicalOf ((sharing {} 5).ctxOf 1) 7).getD 0) = none := by decide +kernel

theorem test_quantum_bounds :
    after (.quantumExpiry 7) (sharing { ctx := some 0 } 5000) (fun t => (t.holderOf 7).quantumOver) = true ∧
    after (.quantumExpiry 7) (sharing { ctx := some 0 } 4999) (fun t => !(t.holderOf 7).quantumOver) = true := by decide +kernel

theorem test_free_array_goes_to_the_oldest : after (.contextSwitchBegin 7) (sharing {} 5) (fun t => (t.holderOf 7).incoming == some 1) = true := by
  decide +kernel

theorem test_switch_ends : after (.contextSwitchEnd 7) (sharing { incoming := some 1 } 5)
    (fun t => (t.holderOf 7).ctx == some 1 && (t.holderOf 7).incoming == none) = true := by decide +kernel
/-! Update units and the mirror -/

/-- Thirty-two blocks of device memory under context 0's key set, mapped as `mapped` does. -/
def wide (bytes : Tab Byte) : State :=
  { mapped bytes with mem := { (mapped bytes).mem with blks := (List.range 32).map fun i => (i, ⟨some (0, 1), 0⟩) } }

/-- A sign-momentum update of 128 FP32 weights with BF16 gradients: weights at 0, gradient at 1,536, scales at 3,072, moment at 4,608. -/
def updWord : Nat := 2 + 2 ^ 3
def updDesc : Nat := 2 ^ 128 * 1536 + 2 ^ 192 * 3072 + 2 ^ 256 * 4608 + 2 ^ 448 * 128

/-- Unit 0 works on a list of one descriptor at 6,144. -/
def updating (b : List Byte) (x : Nmu) : State :=
  (wide (tabFill 0 [] 6144 b)).setNmu 0 { x with state := .update, cmd := { word := updWord }, count := 1, list := 6144 }

/-- The portions that the update reads. -/
def updReads (s : State) : State × Except Acc (List (List Byte) × Bool) :=
  nmuReads s 0 0 0 [uWeightPieces updWord updDesc, stripePieces (uG updDesc) 0 256, stripePieces (uS updDesc) 0 2, stripePieces (uM1 updDesc) 0 128, []]

/-- A table of one list for stack 0, and a command of queue 1 that names it at address 0. -/
def tabled (opc : Nat) : State := userCmd opc (wide (tabFill 0 [] 0 (leBytes (6144 + 2 ^ 64) 384)))

theorem test_update_given :
    (actCmd (tabled (0x30 + 2 ^ 64 * updWord)) 1 0x30).isSome = true ∧ (tabled 0x30).nmusFree = true ∧ uMirror updWord = false ∧ updFormatsBad updWord = false ∧
    (match (readUpdate (tabled 0x30) 1 0 0 0 0 0).2 with | .ok (t, h, c) => !tableBad t && !hypBad h && c.isNone && fld t 8 0 32 == 1 | _ => false) = true ∧
    (match clipFactor [] none with | .ok f => f == nOne | _ => false) = true ∧
    [(0x7FC00000, 0), (0x7FA00000, fNV), (0x7F800000, 0)].all (fun (q, e) => match clipFactor [] (some q) with | .error x => x == e | _ => false) = true := by decide +kernel

theorem test_unit_given :
    nmuMay (updating (leBytes updDesc 64) {}) 0 = true ∧ (updating (leBytes updDesc 64) {}).nmuOf 0 = { state := .update, cmd := { word := updWord }, count := 1, list := 6144 } ∧
    (match memRead (updating (leBytes updDesc 64) {}) (agNmu 0) 0 reqNmu 0 6144 64 with
      | (v, .ok b p) => !p.any id && leNat b == updDesc && (uTranslate (takeAnswers v (agNmu 0)) 0 0 (uTouched .update updWord updDesc 0)).2 == some true &&
          (uPortions .update updWord updDesc).all (placedOk (uTranslate (takeAnswers v (agNmu 0)) 0 0 (uTouched .update updWord updDesc 0)).1 0 0)
      | _ => false) = true ∧
    uCheck updWord updDesc = none ∧ uCheck updWord 0 = some 2 := by decide +kernel

theorem test_unit_reads : (match (updReads (updating [] {})).2 with | .ok (_, bad) => !bad | _ => false) = true ∧
    (match (updReads { updating [] {} with mem := { (updating [] {}).mem with blks := [(0, ⟨some (0, 1), 1⟩)] } }).2 with | .ok (_, bad) => bad | _ => false) = true := by
  decide +kernel

theorem test_unit_writes : (match updReads (updating [] {}) with
    | (v, .ok (parts, _)) => (match (nmuWrites v 0 0 0 (blockUpdate { word := updWord } updDesc (parts.getD 0 []) (parts.getD 1 []) (parts.getD 2 [])
        (parts.getD 3 []) (parts.getD 4 [])).1).2 with | .ok [] [] => true | _ => false)
    | _ => false) = true := by decide +kernel

theorem test_fetched_descriptor : after (.nmuDescriptorFetch 0) (updating (leBytes updDesc 64) {}) (fun t => (t.nmuOf 0).desc == some updDesc) = true := by
  decide +kernel

/-- The pair in a state, held by context 0, with the pair link up. -/
def paired (st : Nat) (p : Pair) (s : State) : State :=
  (({ s with pair := p } : State).setReg .nmu 0 0x200 st).setField .lnk 35 0x108 0 7 (64 + lsUp)

theorem test_pair_given :
    (paired psUnbound {} {}).pairState = psUnbound ∧ (paired psUnbound {} {}).pairUp = true ∧ (paired psIdle {} {}).pairBound = true ∧
    (paired psLost {} {}).pairState = psLost ∧ (paired psIdle {} {}).pairCtx = 0 ∧ (paired psIdle {} {}).bonded 35 = true ∧
    (paired psUnbound {} {}).bindWaits = false ∧ (paired psUnbound { binding := some (1, 5) } (userCmd 0xD0 {})).bindWaits = true ∧
    (0xD0 + 2 ^ 70 : Nat).testBit 70 = true ∧ (actCmd (paired psUnbound {} ((userCmd 0xD0 {}).setCtx 0 { resident := true })) 1 0xD0).isSome = true ∧
    ({ port := [(32, { init := some { side := true } })] } : State).peerSide = some (!({} : State).pairSide) ∧ sidesEqual {} = false ∧
    sidesEqual { port := (List.range 4).map fun i => (32 + i, { init := some { side := false } }) } = true ∧
    (takePart {} 0 1 [5]).whole = true ∧ (takePart {} 1 2 [5]).whole = false := by decide +kernel

theorem test_equal_straps : after (.mirrorBind 1) { (userCmd 0xD0 {}).setCtx 0 { resident := true } with
      port := (List.range 4).map fun i => (32 + i, { init := some { side := false } }) }
    (fun t => (t.queueOf 1).cmds.all fun c => c.ended && c.status == stBindMismatch) = true := by decide +kernel

theorem test_fragment : after (.pairHandshakeMsgRx 35 (leBytes (2 + 2 ^ 32 * 2) 8 ++ leBytes 7 32) false) (paired psUnbound { binding := some (1, 5) } (userCmd 0xD0 {}))
    (fun t => t.pair.hs.cert.next == 1 && t.pair.hs.cert.data == leBytes 7 32 && !t.pair.hs.cert.whole) = true := by decide +kernel

/-- A bind that waits, and a handshake of which everything but FINISHED has come: the root key is the one that signs, and the member's own. -/
def shaking (h : Handshake) : State :=
  paired psUnbound { binding := some (1, 5), hs := h } (userCmd 0xD0 { mgmt := { romRsa := ⟨2 ^ 3072 - 1, 1⟩ } })
def whole (b : List Nat) : HsPart := { data := ofNats b, whole := true }
def allCome : Handshake :=
  let h : Handshake := { eph := 1, share := whole (4 :: bigBytes P384.baseX 48 ++ bigBytes P384.baseY 48), cert := whole signedDer }
  { h with signature := whole (pssEncode (sharesDigest (shaking h)) (List.replicate 48 0)) }
def finishedHs : Handshake := { allCome with finished := { data := finishedData (shaking allCome) (!(shaking allCome).pairSide) true, whole := true } }

theorem good_of (s : State) (k : RsaPub) (b c : List Byte) (hb : s.pair.hs.cert.data = b) (hc : s.pair.hs.share.data = c)
    (h1 : chainKey s b = some (.rsa k)) (h2 : rsaVerify k (sharesDigest s) (nats s.pair.hs.signature.data) = true)
    (h3 : (ecSecret s.pair.hs.eph (nats c)).isSome = true) : handshakeGood s = true := by
  rw [handshakeGood]; simp only [hb, hc, h1, h2, h3, Bool.and_self]

theorem chain_given (s : State) (h : s.mgmt = (shaking {}).mgmt) : chainKey s (ofNats signedDer) = some (.rsa ⟨2 ^ 3072 - 1, 1⟩) := by
  rw [chainKey, h]; decide +kernel

theorem share_given : (ecSecret 1 (nats (ofNats (4 :: bigBytes P384.baseX 48 ++ bigBytes P384.baseY 48)))).isSome = true := by decide +kernel

theorem handshake_good (h : Handshake) (f : HsPart) (e : h = { allCome with finished := f }) : handshakeGood (shaking h) = true := by
  subst e
  have hs : ∀ x ∈ List.replicate 48 0, x < 256 := fun x hx => List.eq_of_mem_replicate hx ▸ by decide
  have hd : ∀ d, rsaVerify ⟨2 ^ 3072 - 1, 1⟩ d (nats (ofNats (pssEncode d (List.replicate 48 0)))) = true := fun d => by
    rw [nats_ofNats _ (pssEncode_lt d _ (List.length_replicate ..) hs)]
    exact rsaVerify_one d _ (List.length_replicate ..) hs
  exact good_of _ _ (ofNats signedDer) _ rfl rfl (chain_given _ rfl) (hd _) share_given

/-- A handshake with no chain fails; one of which all has come and verified waits for FINISHED, and then succeeds. -/
theorem test_handshake_given :
    (shaking { allCome with cert := { whole := true } }).bindWaits = true ∧ handshakeGood (shaking { allCome with cert := { whole := true } }) = false ∧
    handshakeResult (shaking allCome) = none ∧ handshakeResult (shaking finishedHs) = some true := by
  refine ⟨by decide +kernel, by decide +kernel, ?_, ?_⟩
  · rw [handshakeResult, handshake_good allCome {} rfl]; rfl
  · have hf : (finishedHs.finished.data == finishedData (shaking finishedHs) (!(shaking finishedHs).pairSide) true) = true :=
      beq_iff_eq.mpr rfl
    rw [handshakeResult, handshake_good finishedHs _ rfl]
    show some (finishedHs.finished.data == _) = _
    rw [hf]

/-- Of an early share, the first fragment is kept; the last fragment of a share that is awaited calls for a signature, of the last message
for FINISHED. -/
theorem test_early_share : after (.pairHandshakeMsgRx 35 (leBytes (1 + 2 ^ 32 * 4) 8 ++ leBytes 7 32) false) (paired psUnbound {} {})
    (fun t => t.pair.hs.share.next == 1 && t.pair.hs.share.data == leBytes 7 32 && t.outbox == []) = true := by decide +kernel

theorem test_messages_come :
    let last := { shaking {} with pair := { (shaking {}).pair with hs := { share := { next := 3, data := leBytes 0 96 } } } }
    let put := (takePart { next := 3, data := leBytes 0 96 } 3 4 (leBytes 0 32)).whole
    last.bindWaits = true ∧ put = true ∧ ({ allCome with cert := {} } : Handshake).come = false ∧ allCome.come = true := by decide +kernel

/-- A MIRROR_SEND of context 0 with an NMU_UPDATE of the same context in another queue. -/
def sendBeside : State := (userCmd 0x51 {}).setQueue 2 { cmds := [{ n := 1, raw := 0x30, started := true }] }

theorem test_send_refused :
    updateExecutes sendBeside 0 = true ∧ updateExecutes (userCmd 0x51 {}) 0 = false ∧
    after (.mirrorSend 1) sendBeside (fun t => (t.queueOf 1).cmds.all fun c => c.ended && c.status == stMirrorOrder) = true := by decide +kernel

theorem test_release_given :
    ((userCmd (0xD0 + 2 ^ 70) (paired psIdle {} ({} : State))).setCtx 0 { resident := true }).pairBound = true ∧
    after (.mirrorBind 1) ((userCmd (0xD0 + 2 ^ 70) (paired psIdle {} ({} : State))).setCtx 0 { resident := true })
      (fun t => t.pairState == psLost && t.pairPrior == psIdle) = true ∧
    after (.mirrorBind 1) ((userCmd (0xD0 + 2 ^ 70) (paired psLost {} ({} : State))).setCtx 0 { resident := true })
      (fun t => t.pairState == psUnbound) = true := by decide +kernel

theorem test_deposit_given :
    pairUser (paired psIdle {} (tabled (0x50 + 2 ^ 64 * (updWord + 2 ^ 14)))) 1 = true ∧ pairUser (tabled 0x50) 1 = false ∧
    ((paired psIdle {} (tabled 0x50)).reg .nmu 0 0x20C + 1) % 2 ^ 32 = 1 ∧ uMirror (updWord + 2 ^ 14) = true ∧ uClose (updWord + 2 ^ 14) = false ∧
    (paired psIdle {} (tabled 0x50)).nmusFree = true ∧
    (match (readUpdate (paired psIdle {} (tabled 0x50)) 1 0 0 0 0 0).2 with | .ok (t, _, _) => !tableBad t | _ => false) = true ∧
    (paired psIdle { depAcked := true, depEpoch := 1, depWord := updWord } (tabled 0x51)).pair.depAcked = true := by decide +kernel

theorem test_deposit_starts : after (.mirrorDeposit 1) (paired psIdle {} (tabled (0x50 + 2 ^ 64 * (updWord + 2 ^ 14) + 2 ^ 320)))
    (fun t => (t.nmuOf 0).state == .deposit && (t.nmuOf 1).state == .idle && t.pair.depEpoch == 1) = true := by decide +kernel

/-- Memory that holds a deposit header, whatever it is, at 0, and a table at 2,048. -/
def withHeader (h : Nat) : State :=
  wide (((List.range 128).map fun i => (i, BitVec.ofNat 8 (Config.headerBytes h / 2 ^ (8 * i)))) ++ tabFill 0 [] 2048 (leBytes (6144 + 2 ^ 64) 384))

theorem test_redo_given :
    (paired (psLost + 8 * psDepClosed) {} (userCmd 0x31 {})).pairState = psLost ∧ (paired (psLost + 8 * psDepClosed) {} {}).pairPrior = psDepClosed ∧
    (paired (psLost + 8 * psStreamOpen) {} {}).pairPrior = psStreamOpen ∧ (readFrom (withHeader 5) 4 0 0 128).2.bus = false ∧
    (readFrom (withHeader 5) 4 0 0 128).2.bad = false ∧
    (match (readUpdate (withHeader 5) 1 2048 0 0 0 0).2 with | .ok (t, _, _) => !tableBad t && fld t 8 0 32 == 1 | _ => false) = true := by decide +kernel

theorem test_receiver_given :
    ((paired psIdle {} (wide [])).pairEpoch + 1) % 2 ^ 32 = 1 ∧ (pairWrite (paired psIdle {} (wide [])) 23 [(64, [1, 2])]).2 = true ∧
    (writeFrom (paired psDepOpen {} (wide [])) 5 0 64 (leBytes 5 128)).2 = false ∧
    findReasm (paired psStreamOpen {} (wide [])) 23 1048575 = none ∧
    (findReasm (paired psStreamOpen { reasm := [⟨23, 1048575, 1, [], true⟩] } (wide [])) 23 1048575).isSome = true ∧
    (readFrom (paired psStreamOpen {} (wide [])) 3 0 (mapEntryAt (wide []) 0 7) 4).2.bus = false ∧
    (readFrom (paired psStreamOpen {} (wide [])) 3 0 (mapEntryAt (wide []) 0 7) 4).2.bad = false ∧
    (writeFrom (wide []) 3 0 (mapEntryAt (wide []) 0 7) (leBytes 1 4)).2 = false ∧
    (paired psIdle { waiting := some (1, 5, true, 0) } {}).pair.waiting.isSome = true := by decide +kernel

/-- A packet of the byte 9 for address 64, sealed under the zero key as the first of its direction. -/
def sealed : PairPkt := { head := leBytes 0 32, body := pairSeal (List.replicate 32 0) 0 (leBytes 0 32) [9], places := [(64, 1)] }
def receiving (st : Nat) : State := paired st { rxKey := List.replicate 32 0 } (wide [])

theorem test_sealed_opens :
    pairOpen (List.replicate 32 0) 0 sealed.head sealed.body = some [9] ∧ pairOpen (List.replicate 32 0) 1 sealed.head sealed.body = none := by decide +kernel

theorem test_bad_tag : after (.depositBlockRx 0 1 { sealed with body := List.replicate 17 0 } true false) (receiving psIdle)
    (fun t => t.pair.rxCtr == 1 && t.reg .sec 0 0x110 == 1 && t.mem.bytes == []) = true := by decide +kernel

theorem test_deposit_block : after (.depositBlockRx 0 1 sealed true true) (receiving psIdle)
    (fun t => t.pairState == psDepOpen && t.mem.bytes == [(64, 9)] && t.pair.rxDep == 1) = true := by decide +kernel

theorem test_stream_close : after (.mirrorStreamClose 1 0) (paired psStreamOpen {} (wide [])) (fun t => t.pairState == psIdle && t.pairEpoch == 1) = true := by
  decide +kernel

/-! The fabric -/

theorem test_training_given :
    (portIn 35 lsDetect 1).portState 35 = lsDetect ∧ (portIn 35 lsEqualize 1).portState 35 = lsEqualize ∧ (portIn 35 lsLock 1).portState 35 = lsLock ∧
    ({ portIn 35 lsLock 1 with gtime := 5000000000 }).trainingLate 35 = true ∧ (portIn 35 lsLock 1).trainingLate 35 = false ∧
    (portIn 35 lsFailed 1).portState 35 = lsFailed ∧
    ({ portIn 35 lsLock 1 with gtime := 5000000000, port := [(35, { retrained := true })] }).trainingLate 35 = true ∧
    (portIn 35 lsProbation 1).field .lnk 35 0x10C 0 16 * 1000000000 ≤ 65535000000000 ∧
    ({ portIn 31 lsUp 1 with link := [(31, { replay := [(0, [])] })] }).linkCarries 31 = true ∧
    (portIn 31 lsUp 1).layerOf 31 = 31 ∧ (portIn 31 lsUp 1).bonded 31 = false ∧
    ({ freed := [(1, 1)] } : LinkLayer).freed ≠ ({ freed := [(1, 1)] } : LinkLayer).told := by decide +kernel

/-- The Brixcia port UP. -/
def linkedPort : State := ({} : State).setField .bxl 0 0x100 0 4 lsUp

theorem test_retrain_given :
    (({ gtime := 5000000000, port := [(bxlPort, { retrained := true })] } : State).setField .bxl 0 0x100 0 4 lsLock).trainingLate bxlPort = true ∧
    ({ retrained := true } : PortX).lost = false ∧ ({} : PortX).creditAt + 1000 ≤ 5000000000 ∧ ({} : LinkLayer).replays < 7 ∧
    ({ linkedPort with link := [(bxlPort, { replay := [(0, [])] })] }).portState bxlPort = lsUp := by decide +kernel

theorem test_replays :
    after (.replayTimeout 36) { linkedPort with gtime := 1000, link := [(bxlPort, { replay := [(0, [])] })] }
      (fun t => (t.linkOf bxlPort).replays == 1 && t.reg .bxl 0 0x144 == 1) = true ∧
    ({ portIn 31 lsUp 1 with link := [(31, { replay := [(0, [])], replays := 7 })] }).portState 31 = lsUp := by decide +kernel

theorem test_training_steps :
    after (.signalDetect 35) (portIn 35 lsDetect 1) (fun t => t.portState 35 == lsEqualize) = true ∧
    after (.equalizeDone 35) (portIn 35 lsEqualize 1) (fun t => t.portState 35 == lsLock) = true ∧
    after (.lockAchieved 35) (portIn 35 lsLock 1) (fun t => t.portState 35 == lsInit) = true := by decide +kernel

theorem test_failed_retries_after_a_second :
    after (.failedRetry 35) { portIn 35 lsFailed 1 with gtime := 1000000000 } (fun t => t.portState 35 == lsDetect) = true ∧
    after (.failedRetry 35) { portIn 35 lsFailed 1 with gtime := 999999999 } (fun t => t.portState 35 == lsFailed) = true := by decide +kernel

/-- The lanes of a codeword with a first flit and four IDLE flits. -/
def codeword (f : List Byte) : List (List (BitVec 10)) :=
  (deal 4 136 (rsEncode (cwSymbols 9 (f :: List.replicate 4 (flitBytes 1 0 4095 []))))).map fun l => l.map (BitVec.ofNat 10)

/-- The word of a codeword, with one symbol struck. -/
def struckWord : List Nat := (undeal 136 ((codeword (flitBytes 0 0 4095 [])).map fun l => l.map (·.toNat))).set 100 5

theorem test_codewords_given :
    lsInit ≤ (portIn 35 lsInit 1).portState 35 ∧ (portIn 35 lsUp 1).portState 35 ≤ lsUp ∧ (codeword []).length = 4 ∧
    lanesOk (codeword []) = true ∧ ((portIn 35 lsUp 1).linkOf 35).replay = [] ∧
    (readFlit (flitBytes 0 7 4095 [])).good = true ∧ (readFlit (flitBytes 0 7 4095 [])).ty = 0 ∧ (readFlit (flitBytes 0 7 4095 [])).seq = 7 ∧
    (readFlit (flitBytes 0 7 4095 [])).seq ≠ ((portIn 35 lsUp 1).linkOf 35).expect ∧
    rsDecode (undeal 136 (List.replicate 4 (List.replicate 136 1))) = none := by decide +kernel

theorem test_code_corrects :
    (rsDecode struckWord).map (fun x => (x.2, (cwFlits x.1).map fun f => (readFlit f).ty)) = some (1, [0, 1, 1, 1, 1]) := by decide +kernel

theorem test_flit_accepted :
    after (.codewordRx 35 (codeword (flitBytes 0 0 4095 [])) [] []) (portIn 35 lsUp 1) (fun t => (t.linkOf 35).expect == 1) = true := by decide +kernel

/-- A packet for device 7 waits at input 37, channel 3, of device 5. -/
def routing (k : Pkt) : State :=
  ({ gtime := 1000000, rtr := { inb := [(4 * 37 + 3, { pkts := [{ k with dst := 7 }] })] } } : State).setReg .rtr 0 0x100 5

theorem test_router_given :
    (routing {}).deviceId = 5 ∧ (routing {}).fenced 7 = false ∧ ({ routing {} with rtr := { (routing {}).rtr with fence := [(0, 128)] } }).fenced 7 = true ∧
    ({ routing {} with rtr := { (routing {}).rtr with inb := [(151, { pkts := [{ dst := 5 }] })] } }).deviceId = 5 ∧
    (tabGet {} (routing {}).rtr.inb 151).since + 1000 * (({} : State).setReg .rtr 0 0x120 100).field .rtr 0 0x120 0 16 < 1000000 ∧
    ((({} : State).setReg .rtr 0 0x104 256).reg .rtr 0 0x104).testBit 8 = true ∧
    (({} : State).setReg .rtr 0 0x124 65536).reg .rtr 0 0x124 = 65536 ∧ (({} : State).setReg .rtr 0 0x124 1).field .rtr 0 0x124 0 16 ≠ 0 := by decide +kernel


/-- A data packet at the injection input of half 1, throttled. -/
def throttled : State :=
  { routing {} with rtr := { inb := [(4 * 37 + 1, { pkts := [{ dst := 7 }] })], throttle := [(1, { on := true, sent := 15 })] } }

theorem test_throttled_packet_waits : throttled.heldBack 37 1 = true ∧
    after (.packetForward 37 1) throttled (fun t => t.reg .rtr 0 0x160 == 1 && t.rtr.inb == throttled.rtr.inb) = true := by decide +kernel

/-- The same router with an entry for device 7 by port 3, which is up and has credits for all channels. -/
def routable : State :=
  { (((routing {}).setReg .lnk 3 0x108 (lsUp + 32)).setReg .lnk 3 0x100 1) with
    rtr := { (routing {}).rtr with cur := [(2048 + 7, 2 ^ 3 + 2 ^ 36 * 3 + 2 ^ 43)] }
    port := [(3, { init := some { bufs := [65536, 65536, 65536, 65536] } })] }

theorem test_forward_given : (match forward routable { dst := 7 } with | .send p k => p == 3 && k.hops == 1 | _ => false) = true := by decide +kernel

theorem test_forwarded : after (.packetForward 37 3) routable (fun t => (tabGet {} t.rtr.inb 151).pkts == []) = true := by decide +kernel

/-! The companion link -/

/-- The Brixcia port is up. -/
def linked (s : State) : State := s.setField .bxl 0 0x100 0 4 lsUp

/-- A request of agent 1 under tag 4,095. -/
def asked (r : Req) : State := linked { gtime := 5, bxl := { reqs := [(4095, some r)] } }

theorem test_requests_given :
    (linked {}).bxlUp = true ∧ badExtent 0xFFC 4 = false ∧ badExtent 0xFFFFFC 8 = true ∧ badExtent 0xFF8 8 = false ∧
    (windowPa (linked ((mapped []).setReg .bxl 0 0x10C 128)) (2 ^ 62) 8).isSome = true ∧
    mmioOffset (2 ^ 40) 4 = none ∧ windowPa (linked {}) (2 ^ 40) 4 = none ∧
    (linked { bxl := { lines := [(5, { st := .m })] } }).lineOf 5 = { st := .m } ∧ (linked {}).bxl.reqs = [] := by decide +kernel

theorem test_register_read_answered : after (.mmioRd 4095 0x104 4) (linked {}) (fun t => t.outbox.map (·.dest) == [4095]) = true := by decide +kernel

theorem test_shared_snoop : after (.snpShr 9 320) (linked { bxl := { lines := [(5, { st := .m, data := [7] })] } })
    (fun t => (t.lineOf 5).st == .s && t.outbox.map (·.data) == [[7]]) = true := by decide +kernel

theorem test_responses_given :
    tabGet none (linked {}).bxl.reqs 4095 = none ∧ (1 : Nat) ≠ agNone ∧
    tabGet none (asked ⟨mtRdCur, 64, 2, 1, 0, 0, 0, false, 0, []⟩).bxl.reqs 4095 = some ⟨mtRdCur, 64, 2, 1, 0, 0, 0, false, 0, []⟩ ∧
    (⟨mtRdCur, 64, 2, 1, 0, 0, 0, false, 0, []⟩ : Req).ofLine = false ∧
    ({ linked {} with gtime := 10 ^ 12 }).bxlTimeout ≤ 10 ^ 12 ∧ tabGet 0 ({ retired := [(4095, 5)] } : Bxl).retired 4095 = 5 := by decide +kernel

/-- A translation in flight whose page is invalidated fills nothing (R328). -/
theorem test_invalidated_translation :
    after (.xlateRsp 4095 8192 0 0 true true) (asked { mtype := mtXlate, addr := 0, size := 0, agent := 1, io := 4100, invs := [(4096, 8192, false)] })
      (fun t => t.bxl.atc == [] && t.bxl.reqs == []) = true ∧
    after (.xlateRsp 4095 8192 0 0 true true) (asked { mtype := mtXlate, addr := 0, size := 0, agent := 1, io := 4100 })
      (fun t => t.bxl.atc == [⟨4096, 12, 8192, true⟩]) = true := by decide +kernel

theorem test_response_frees_the_tag : after (.bxlData 4095 64 0 0 false [8, 9]) (asked ⟨mtRdCur, 64, 2, 1, 0, 0, 0, false, 0, []⟩)
    (fun t => t.bxl.reqs == [] && t.bxl.answers.map (·.data) == [[8, 9]]) = true := by decide +kernel

theorem test_retired_tag_freed :
    after (.bxlTagRetirementEnd 4095) { gtime := 5, bxl := { retired := [(4095, 5)] } } (fun t => t.bxl.retired == []) = true ∧
    after (.bxlTagRetirementEnd 4095) { gtime := 4, bxl := { retired := [(4095, 5)] } } (fun t => t.bxl.retired == [(4095, 5)]) = true := by decide +kernel
/-! The exchange engine and the catalogue -/

/-- A descriptor of operation 5 of rank 0 of two members, of the kind given, with further fields. -/
def opDesc (kind more : Nat) : Nat := kind + 2 ^ 32 * 5 + 2 ^ 192 * 2 + more

def opWith (kind : Nat) (x : Xop) : Xop := { x with desc := opDesc kind x.desc, group := [0, 77], pcheck := 9 }

/-- A half with one live operation. -/
def live (kind : Nat) (x : Xop) (v : Xch := {}) : State := { mapped [] with xch := { v with ops := [opWith kind x] } }

def plainOp : Xop := { half := 0, req := ⟨0, 0, 0, none, 1, 5⟩, desc := 0 }

/-- An operation that ends early has nothing more to do. -/
def endingOp : Xop := { plainOp with ending := some stPoisoned }

/-- A packet of 8 B of message 3 from device 77 for operation 5. -/
def packet : DataPkt :=
  { red := false, last := true, src := 77, msgId := 3, op := 5, offset := 0, total := 8, handle := 0x8000, data := [1, 2, 3, 4, 5, 6, 7, 8],
    poison := [], epoch := 0,
    pcrc := pcrcOf { typ := 1, last := true, dst := 0x7FFF, src := 77, msgId := 3, op := 5, total := 8, handle := 0x8000,
                     body := [1, 2, 3, 4, 5, 6, 7, 8] } }

def granted : Xop := { plainOp with handles := [⟨0x8000, .segment 1 0, 1, [(64, 4096)]⟩] }

def record (st : RecState) (handle : Nat) : MsgRec := ⟨0, 77, 3, st, 5, 8, handle, 8, [(0, packet.data, [])]⟩

theorem test_packets_given :
    DataPkt.good (live 5 granted) packet = true ∧ DataPkt.good (live 5 granted) { packet with pcrc := packet.pcrc + 1 } = false ∧
    (live 5 granted).anyXop 5 = some (opWith 5 granted) ∧ (live 5 granted).anyXop 6 = none ∧
    (live 5 granted).recOf 0 77 3 = none ∧ packet.offset + packet.data.length = packet.total ∧
    (placeData (live 5 granted, false) 5 [(64, 4096)] 0 packet.data []).2 = false ∧
    (live 5 granted { recs := [record .broken 0] }).recOf 0 77 3 = some (record .broken 0) ∧
    (opWith 5 granted).rankOf 77 = some 1 ∧ (opWith 5 granted).rankOf 78 = none := by decide +kernel

theorem test_packet_lands : after (.messagePacketRx 0 packet) (live 5 granted)
    (fun t => tabGet 0 t.mem.bytes 64 == 1 && tabGet 0 t.mem.bytes 71 == 8 && (t.recOf 0 77 3).map (·.state) == some .complete) = true := by
  decide +kernel

theorem test_completions_given :
    (live 5 endingOp { recs := [record .complete 1] }).recOf 0 77 3 = some (record .complete 1) ∧
    ({ xch := { recs := [record .complete (2 ^ 31)] } } : State).anyXop 5 = none ∧
    (deliver (live 5 endingOp) (opWith 5 endingOp) (record .complete 1) packet.data []).2 = false ∧
    (flushHalf (putRec (live 5 endingOp { recs := [record .complete 1] }) 0 77 3 none, false) 0).2 = false := by decide +kernel

theorem test_completion_frees : ∀ hd ∈ [1, 2 ^ 31],
    after (if hd = 1 then .messageCompletion 0 77 3 else .reductionSlotOperand 0 77 3) (live 5 endingOp { recs := [record .complete hd] })
      (fun t => t.xch.recs == []) = true := by decide +kernel

theorem test_controls_given :
    (live 8 plainOp).xopOf 5 = some (opWith 8 plainOp) ∧
    (flushHalf ((live 8 plainOp).putXop { opWith 8 plainOp with grants := [⟨.rows, 1, 7, 0, []⟩] }, false) 0).2 = false ∧
    (flushHalf ((live 8 plainOp).putXop { opWith 8 plainOp with counts := [(1, [8], [])] }, false) 0).2 = false ∧
    (flushHalf (endEarly (abandonAll (live 8 plainOp) (opWith 8 plainOp)) (opWith 8 plainOp) stGroupMismatch 0, false) 0).2 = false ∧
    (flushHalf (addMissing (live 8 plainOp) (opWith 8 plainOp) 1, false) 0).2 = false ∧ (opWith 8 plainOp).done = false ∧
    (opWith 9 plainOp).done = false ∧ (flushHalf (endEarly (live 9 plainOp) (opWith 9 plainOp) stRouteInvalid 0, false) 0).2 = false ∧
    (opWith 5 plainOp).done = true ∧ (flushHalf (live 5 plainOp, false) 0).2 = false := by decide +kernel

/-- R285, R294: a completed operation stays completed, and a receiver of equal keys tells the others so. -/
theorem test_ends_arrive :
    after (.endRx 0 77 5 1) (live 5 plainOp) (fun t => (t.xopOf 5).map (·.missing) == some []) = true ∧
    after (.abandonRx 0 ⟨77, true⟩ 5) (live 9 plainOp) (fun t => (t.xopOf 5).map (·.ending) == some (some stRouteInvalid)) = true := by
  decide +kernel

/-- A half that is held: its packets are taken, and nothing goes on (R285). -/
def heldHalf (kind : Nat) (x : Xop) : State := { live kind x with isl := [(48, { hold := true })] }

theorem test_held_half_given :
    (heldHalf 8 plainOp).engineHeld (enXch 0) = true ∧ (heldHalf 8 plainOp).xopOf 5 = some (opWith 8 plainOp) ∧
    (opWith 8 plainOp).rankOf 77 = some 1 ∧ (opWith 8 plainOp).done = false ∧ (heldHalf 5 endingOp).xopOf 5 = some (opWith 5 endingOp) ∧
    after (.grantRx 0 77 5 9 .rows 7 0 []) (heldHalf 8 plainOp) (fun t => (t.xopOf 5).map (fun y => y.grants.length) == some 1) = true ∧
    after (.xchOpEnd 5) (heldHalf 5 endingOp) (fun t => t.xch.ops == []) = true := by decide +kernel

/-- An operation over 8 elements or bytes. -/
def busyOp : Xop := { plainOp with desc := 2 ^ 384 * 8 }

theorem test_missing_member_ends_a_reduction : after (.abandonRx 0 { src := 77 } 5) (live 1 busyOp)
    (fun t => (t.xopOf 5).map (fun y => (y.ending, y.missing)) == some (some stPartial, [1])) = true := by decide +kernel

theorem test_group_mismatch : after (.countRx 0 77 5 8 0 [] []) (live 8 plainOp)
    (fun t => (t.xopOf 5).map (·.ending) == some (some stGroupMismatch)) = true := by decide +kernel

theorem test_notice_tells_the_group : after (.fencedNoticeRx 0 5 77) (live 8 plainOp)
    (fun t => (t.xopOf 5).map (·.missing) == some [1]) = true := by decide +kernel

/-- An early packet that came at the time given. -/
def early (t : Nat) : Early := ⟨0, t, .abandon { src := 77 } 5⟩

theorem test_early_packet_kept :
    after (.earlyPacketExpiry 0) { gtime := 1000000000, xch := { early := [early 1] } } (fun t => t.xch.early == [early 1]) = true ∧
    after (.abandonRx 0 { src := 77 } 5) { gtime := 3 } (fun t => t.xch.early == [early 3]) = true := by decide +kernel

/-- A command of queue 1 for half 1 with a descriptor at 128. -/
theorem test_exchange_commands_given : ∀ opc ∈ [0x60, 0x61, 0x62],
    (actCmd (userCmd (opc + 2 ^ 64 + 2 ^ 135) {}) 1 opc).map (fun c => (bits c.raw 64 1, bits c.raw 128 64)) = some (1, 128) := by decide +kernel

theorem test_collective_queued : after (.collective 1) (userCmd (0x60 + 2 ^ 64 + 2 ^ 135) {})
    (fun t => tabGet [] t.xch.queue 1 == [⟨0, 128, 0, none, 1, 5⟩]) = true := by decide +kernel

/-- A start queue with one operation whose descriptor stands at 0. -/
def starting (d : Nat) (kind : Nat := 0) : State :=
  { mapped (tabFill 0 (tabFill 0 [] 0 (leBytes d 128)) 1024 (leBytes 0x7FFF 2)) with xch := { queue := [(0, [⟨kind, 0, 0, none, 1, 5⟩])] } }

/-- A broadcast of 8 B from rank 0 of one, whose group table stands at 1,024 and names this device, 0x7FFF at reset. -/
def broadcast : Nat := 5 + 2 ^ 32 * 5 + 2 ^ 192 + 2 ^ 128 * 1024 + 2 ^ 256 * 1024 + 2 ^ 320 * 1088 + 2 ^ 384 * 8 + 2 ^ 512 * 2048

/-- What the beginning of the operation in front of half 0 reads, where every read succeeds. -/
def begins (s : State) (d : Nat) : Bool :=
  match checkRead s 0 0 0 128 with
  | (v, .ok (some b)) => leNat b == d && (descCheck 0 d 0).isNone &&
    (match readTables 0 0 v (tableList d 0) with
      | (w, .ok ts) => (tableCheck w d ts).isNone &&
        !(beginOp { w with xch := { w.xch with queue := tabSet [] w.xch.queue 0 [] } } 0 ⟨0, 0, 0, none, 1, 5⟩ d ts).2
      | _ => false)
  | _ => false

theorem test_beginning_given :
    begins (starting broadcast) broadcast = true ∧ (starting broadcast).engineHeld (enXch 0) = false ∧
    descCheck 0 11 0 = some 1 ∧ descCheck 0 9 0 = some 1 ∧ descCheck 9 9 0 = some 3 ∧
    (failChecks (starting 9 9) 0 ⟨9, 0, 0, none, 1, 5⟩ 9 3).2 = false := by decide +kernel

/-- R270: a COUNTS_SRC value that is not a multiple of 8 is reported before a buffer that is not aligned. -/
theorem test_shape_before_align :
    after (.xchOpBegin 0) (starting (8 + 2 ^ 32 * 5 + 2 ^ 192 + 2 ^ 128 * 1024 + 2 ^ 256 * 1025 + 2 ^ 640 * 1024))
      (fun t => t.xch.ops == [] && t.reg .xch 0 0x30 == 3) = true := by decide +kernel

theorem test_operation_begins : after (.xchOpBegin 0) (starting broadcast) (fun t => t.xch.ops.map (fun x => x.desc) == [broadcast]) = true := by
  decide +kernel

theorem test_operation_refused : after (.xchOpBegin 0) (starting 11) (fun t => t.xch.ops == [] && t.reg .xch 0 0x114 == 1) = true := by decide +kernel

/-- An operation whose deadline of 2 µs has passed. -/
def lateOp : Xop := { plainOp with desc := 2 ^ 17 + 2 ^ 224 * 2 }

theorem test_lateness_given :
    xLate (opWith 1 lateOp).desc ≠ 0 ∧ isReduction (xKind (opWith 1 lateOp).desc) = true ∧ (opWith 1 lateOp).began + 1000 * xDeadline (opWith 1 lateOp).desc = 2000 ∧
    (flushHalf (declareLate (({ live 1 lateOp with gtime := 2001 } : State).putXop { opWith 1 lateOp with judged := true })
      { opWith 1 lateOp with judged := true }, false) 0).2 = false ∧
    xLate (opWith 1 plainOp).desc = 0 := by decide +kernel

theorem test_held_lateness : after (.lateDeadline 5) { heldHalf 1 lateOp with gtime := 2001 }
    (fun t => (t.xopOf 5).map (·.judged) == some true) = true := by decide +kernel

theorem test_operation_end_given :
    (flushHalf (live 5 endingOp, false) 0).2 = false ∧ ((flushHalf (live 5 endingOp, false) 0).1.xopOf 5).map (·.ending) = some (some stPoisoned) ∧
    (flushHalf (endOp (live 5 endingOp) (opWith 5 endingOp) stPoisoned 0 0, false) 0).2 = false := by decide +kernel

theorem test_operation_ends : after (.xchOpEnd 5) (live 5 endingOp) (fun t => t.xch.ops == [] && t.reg .xch 0 0x114 == 1) = true := by decide +kernel

theorem test_dispatch_given :
    xKind (opWith 9 { plainOp with counts := [(1, [], [])] }).desc = 9 ∧ (opWith 9 { plainOp with counts := [(1, [], [])] }).countsKnown = true ∧
    (opWith 9 plainOp).countsKnown = false ∧
    (flushHalf (allocateRows (live 9 { plainOp with counts := [(1, [], [])] }, false) 5) 0).2 = false ∧
    (flushHalf (live 9 { plainOp with allotted := true }, false) 0).2 = false ∧ (opWith 9 { plainOp with allotted := true }).dispatchDone = true ∧
    (writeMaps (live 9 { plainOp with allotted := true }, false) 5).2 = false ∧
    (finishOp (live 9 { plainOp with allotted := true }, false) 5).2 = false := by decide +kernel

theorem test_combine_given : xKind (opWith 10 plainOp).desc = 10 ∧ (opWith 10 plainOp).rowsArrived = true ∧ eT (opWith 10 plainOp).desc = 0 ∧
    (opWith 10 { plainOp with desc := 2 ^ 16 }).combined = false := by decide +kernel

theorem test_combine_marks : after (.combineRowsArrived 5) (live 10 plainOp) (fun t => (t.xopOf 5).map (·.combined) == some true) = true := by decide +kernel

/-- A CAT_LOAD of `n` entries from entry `i` at generation `g`, from address 1,024. -/
def loadWord (i n g : Nat) : Nat := 0x63 + 2 ^ 64 * i + 2 ^ 96 * n + 2 ^ 138 + 2 ^ 192 * g

def ownsCat (s : State) (c : Nat) : State := s.setReg .cat 0 0x100 (64 + c)

theorem test_catalogue_given :
    (actCmd (ownsCat (userCmd (loadWord (cEntries - 1) 1 7) {}) 0) 1 0x63).map (fun c => (bits c.raw 64 17, bits c.raw 96 18, bits c.raw 192 32)) =
      some (cEntries - 1, 1, 7) ∧
    (actCmd (userCmd (loadWord 0 1 7) {}) 1 0x63).isSome = true ∧
    (ownsCat ({} : State) 0).reg .cat 0 0x100 % 128 = 64 ∧ ({} : State).reg .cat 0 0x100 % 128 ≠ 64 ∧ ({} : State).dispatchLive = false ∧
    (live 9 plainOp).dispatchLive = true := by decide +kernel

/-- A load of one entry at address 0 by queue 1's command, begun. -/
def loading (begun : Bool) : State :=
  let s := userCmd (loadWord 3 1 7) (mapped (tabFill 0 [] 0 (leBytes (2 ^ 127 + 5) 16)))
  { s with cat := { load := some { queue := 1, cmd := 5, first := 3, ctx := 0, count := 1, src := 0, gen := 7, begun := begun } } }

theorem test_catalogue_load : after (.catLoadDone) (loading true)
    (fun t => tabGet 0 t.cat.entries 3 == 2 ^ 127 + 5 && t.reg .cat 0 0x104 == 7 && t.cat.load == none) = true := by decide +kernel

theorem test_catalogue_load_begins : after .catLoadBegin (loading false)
    (fun t => t.reg .cat 0 0x104 == max32 && t.reg .cat 0 0x108 == 1 && (t.cat.load.map (·.begun)) == some true) = true := by decide +kernel

theorem test_catalogue_load_given :
    ((loading true).cmdOf 1 5).isSome = true ∧
    (match (loadPages 0 0 3 (loading true) 0 (cutPages (1 / 256 + 2) 0 0 16)).2 with | .ok (n, st) => n == 1 && st == stOk | _ => false) = true := by
  decide +kernel
/-! Well-formed commands: a term that each check refuses, and one at the bound that it takes -/

theorem test_wellFormed_memory :
    (∀ c ∈ [.alsEccError (.als 0) 0x2000000 true, .alsEccError (.dss 3) 0x8000000 false, .mcRead 0 255 2, .mcRead 64 (memoryEnd - 1) 2, .mcRead 1 0 0,
      .mcWrite 0 255 [1, 2], .mcWrite 0 memoryEnd [1], .mcEccError memoryEnd {}, .eccCorrectedWriteback memoryEnd, .mcPatrol 0 [memoryEnd] [{}], .mmuTranslate 0 0 0 (2 ^ 64) false, .pageWalkDone 0 0 0 (2 ^ 64) true, .depositBlockRx 0 0 { sealed with places := [(2 ^ 64, 1)] } true true,
      .mirrorBlockRx 0 0 0 { sealed with head := [] } true true, .mirrorBlockRx 0 0 0 { sealed with body := List.replicate 15 0 } true true], wellFormed c = false) ∧
    ∀ c ∈ [.alsEccError (.als 19) 0x1FFFFFF true, .alsEccError (.dss 3) 0x7FFFFFF false, .mcRead 64 (memoryEnd - 1) 1, .mcWrite 64 (memoryEnd - 256) [1, 2],
      .mcEccError (memoryEnd - 1) { symbols := [68], copies := 7 }, .eccCorrectedWriteback (memoryEnd - 1), .mcPatrol 23 [memoryEnd - 1] [{}], .mmuTranslate 3 4 63 (2 ^ 64 - 1) true],
      wellFormed c = true := by decide +kernel

theorem test_wellFormed_engines :
    (∀ c ∈ [.engineAbortReached 20 none 0, .engineAbortReached 0x24 none 0, .engineAbortReached 0x48 none 0, .engineAbortReached 0 (some 1) 0],
      wellFormed c = false) ∧
    ∀ c ∈ [.engineAbortReached 19 none 7, .engineAbortReached 0x23 (some 31) 0, .engineAbortReached 0x29 none 0, .engineAbortReached 0x47 none 0],
      wellFormed c = true := by decide +kernel

theorem test_wellFormed_fabric :
    (∀ c ∈ [.codewordRx 0 [] [] [], .codewordRx 0 (List.replicate 4 (List.replicate 68 0)) [] [],
      .codewordRx 0 (List.replicate 4 (List.replicate 136 0)) [] [{ dev := 2 ^ 15 }],
      .codewordRx 0 (List.replicate 4 (List.replicate 136 0)) [] (List.replicate 6 {}),
      .messagePacketRx 0 { packet with src := 2 ^ 15 }, .messagePacketRx 0 { packet with msgId := 2 ^ 32 }, .messagePacketRx 0 { packet with op := 2 ^ 16 },
      .messagePacketRx 0 { packet with handle := 2 ^ 32 }, .messagePacketRx 0 { packet with offset := 2 ^ 32 }, .messagePacketRx 0 { packet with total := 0 },
      .messagePacketRx 0 { packet with total := 2 ^ 32 }, .messagePacketRx 0 { packet with data := [] }, .messagePacketRx 0 { packet with data := [1] },
      .messagePacketRx 0 { packet with data := List.replicate 4104 0 },
      .messageCompletion 0 (2 ^ 15) 0, .messageCompletion 0 0 (2 ^ 32), .reductionSlotOperand 0 (2 ^ 15) 0, .reductionSlotOperand 0 0 (2 ^ 32),
      .grantRx 0 (2 ^ 15) 0 0 .rows 0 0 [], .grantRx 0 0 0 0 .rows (2 ^ 32) 0 [], .countRx 0 0 (2 ^ 16) 0 0 [] [], .endRx 0 0 (2 ^ 16) 0,
      .abandonRx 0 { src := 2 ^ 15 } 0, .fencedNoticeRx 0 (2 ^ 16) 0, .fencedNoticeRx 0 0 (2 ^ 15)], wellFormed c = false) ∧
    ∀ c ∈ [.codewordRx 35 (List.replicate 4 (List.replicate 136 0)) [] (List.replicate 5 {}),
      .codewordRx 36 (List.replicate 4 (List.replicate 68 1023)) (List.replicate 4 (List.replicate 68 0)) [], .messagePacketRx 1 packet,
      .grantRx 1 (2 ^ 15 - 1) (2 ^ 16 - 1) 0 .rows (2 ^ 32 - 1) 0 [], .abandonRx 0 { src := 0 } 0], wellFormed c = true := by decide +kernel

theorem test_wellFormed_host :
    (∀ c ∈ [.mmioRd 0 (2 ^ 64) 4, .mmioRd 0 0 4097, .mmioWr (2 ^ 64) false [], .mmioWr 0 true (List.replicate 4097 0), .bxlData 0 (2 ^ 64) 0 0 false [],
      .cmp 0 (2 ^ 64) 0 0 {}, .xlateRsp 0 (2 ^ 64) 0 0 true true, .snpInv 0 (2 ^ 64), .snpShr 0 (2 ^ 64), .xlateInv 0 (2 ^ 64) 0 true,
      .tftpBlockRx none 0 (List.replicate 1429 0), .mgmtRegRead 0 (headOf 3 4) [4, 2], .mgmtRegRead 0 (headOf 3 4) [2 ^ 24], .mgmtRegWrite 0 (headOf 4 8) [(1, 0)],
      .mgmtRegWrite 0 (headOf 4 8) [(4, 2 ^ 32)], .mgmtCounterRead 0 (headOf 5 4) [2 ^ 32], .setpoint 0 (headOf 6 8) 0 (2 ^ 64), .mgmtMode 0 (headOf 7 8) 0 (2 ^ 64),
      .trustSet 0 (headOf 11 8) 0 0 (2 ^ 384)], wellFormed c = false) ∧
    ∀ c ∈ [.mmioRd 4095 (2 ^ 64 - 1) 4096, .mmioWr 0 true [1, 2, 3, 4], .tftpBlockRx (some 8) 1 (List.replicate 1428 0),
      .mgmtRegRead 0 (headOf 3 4) [0, 2 ^ 24 - 4], .mgmtRegWrite 0 (headOf 4 8) [(4, 2 ^ 32 - 1)], .trustSet 0 (headOf 11 8) 0 0 (2 ^ 384 - 1), .bridgeAttemptFail 3 2 true true], wellFormed c = true := by decide +kernel

/-! The queue, the frame and the invariant -/

/-- Two commands wait. -/
def waiting : State := { pending := [.bridgeAttemptFail 3 2 true true, .snpInv 0 64] }

theorem test_step_takes_the_front :
    (match step waiting with | .next t => t.pending == [.snpInv 0 64] && t.reg .noc 3 0x108 == 1 | _ => false) = true := by decide +kernel

theorem test_invariant_given : waiting.tidy ∧ waiting.queueOk ∧ (match step waiting with | .next _ => true | _ => false) = true :=
  ⟨⟨by decide +kernel, fun _ => rfl, fun _ => rfl, by decide +kernel⟩, by unfold State.queueOk; decide +kernel, by decide +kernel⟩

theorem test_invariant_of_used_memory : (mapped (tabFill 0 [] 0 (leBytes 5 8))).tidy :=
  ⟨by decide +kernel, fun _ => rfl, fun _ => rfl, by decide +kernel⟩

theorem test_frame_given : after (.bridgeAttemptFail 3 2 true true) {} (fun _ => true) = true := by decide +kernel

/-! What waits, what is refused and what came to nothing -/

/-- The row of an address is being copied. -/
def copying (s : State) (pa : Nat) : State := { s with mem := { s.mem with copies := [rowAt s pa] } }

theorem rowBusy_copying (s : State) (pa : Nat) : rowBusy (copying s pa) pa = true :=
  (List.contains_cons ..).trans (Bool.or_eq_true_iff.mpr (Or.inl (beq_self_eq_true _)))

theorem rowsBusy_copying (s : State) (pa len : Nat) (h : pa % 512 = 0) : rowsBusy (copying s pa) pa len = true := by
  have e : pa / 512 * 512 + 512 * 0 = pa := by omega
  refine Bool.and_eq_true_iff.mpr ⟨rfl, List.any_eq_true.mpr ⟨0, List.mem_range.mpr (Nat.succ_pos _), ?_⟩⟩
  rw [e]; exact rowBusy_copying s pa

theorem test_copies_given : rowBusy (copying (mapped []) 4092) 4092 = true ∧ inDevice 4092 4 = true ∧ (mapped []).halted = false ∧
    dumpWaits (copying (({} : State).setReg .obs 0 0x1C0 1) 0) = true ∧
    rowsBusy (copying ((managed 1).setReg .obs 0 0x1C0 1) 0) 0 4 = true ∧
    imageBusy (copying (sharing { incoming := some 1 } 5) 0) 7 1 = true := by
  have e : (({} : State).setReg .obs 0 0x1C0 1).depositBase = some 0 := by decide +kernel
  refine ⟨rowBusy_copying _ _, by decide +kernel, by decide +kernel, ?_, rowsBusy_copying _ 0 4 (by decide), ?_⟩
  · have g : ∀ s : State, s.depositBase = some 0 → dumpWaits (copying s 0) = true := fun s h => by
      have h' : (copying s 0).depositBase = some 0 := h
      rw [dumpWaits, h', Option.any_some, Bool.or_eq_true]; exact Or.inl (rowsBusy_copying s 0 _ (by decide))
    exact g _ e
  · have g : ∀ s : State, logicalOf (s.ctxOf 1) 7 = some 0 → saveSlot (s.ctxOf 1) 0 = 0 → imageBusy (copying s 0) 7 1 = true := fun s h k => by
      have h' : logicalOf ((copying s 0).ctxOf 1) 7 = some 0 := h
      have k' : saveSlot ((copying s 0).ctxOf 1) 0 = 0 := k
      rw [imageBusy, h']; show rowsBusy _ (saveSlot _ 0) _ = true
      rw [k']; exact rowsBusy_copying s 0 _ (by decide)
    exact g _ (by decide +kernel) (by decide +kernel)

/-- An MMIO message waits. -/
def behind : State :=
  let s := linked ((mapped []).setReg .bxl 0 0x10C 128)
  { s with mem := { s.mem with waiting := [.mmioRd 9 (2 ^ 62) 4] } }

theorem test_mmio_held_given : mmioHeld behind = true ∧ mmioHeld (linked {}) = false ∧ windowPa behind (2 ^ 62) 8 = some 0 := by decide +kernel

theorem test_mmio_waits : after (.mmioRd 3 0x1000 8) behind (fun t => t.mem.waiting.length == 2 && t.outbox == []) = true := by decide +kernel

theorem test_start_fails_given :
    let s := feQueue { state := .running, cmds := [{ n := 5, raw := 0x40 + 2 ^ 96 }] }
    (nextToStart s 1).map (·.n) = some 5 ∧ engineWaits s { n := 5, raw := 0x40 + 2 ^ 96 } = false ∧ startFails s 1 { n := 5, raw := 0x40 + 2 ^ 96 } = stTarget ∧
    startFails (feQueue {}) 1 { raw := 0x82 } = 0 ∧
    engineWaits (feQueue { state := .running, cmds := [{ n := 4, raw := 0x82, started := true }, { n := 5, raw := 0x83 }] }) { n := 5, raw := 0x83 } = true := by
  decide +kernel

theorem test_start_fails : after (.commandStart 1) (feQueue { state := .running, cmds := [{ n := 5, raw := 0x40 + 2 ^ 96 }] })
    (fun t => (t.queueOf 1).cmds.all fun c => c.ended && c.status == stTarget) = true := by decide +kernel

/-- A write whose array a block reset takes away. -/
theorem test_refused_write : after (.dmaBurstWritten 3 31)
    (channelOn { state := .active, desc := some dssRow, buffer := [⟨0, 7 :: List.replicate 127 0, [false, false], 0⟩], writeRefused := some 2 })
    (fun t => (t.chOf 127).state == .halted && bits (t.ch 127 0x20) 0 4 == dfBus && bits (t.ch 127 0x2C) 18 3 == 2) = true := by decide +kernel

/-- A load whose command has been aborted (R289). -/
theorem test_aborted_load :
    after .catLoadDone (updCmd (loading true) 1 5 fun c => { c with aborted := true, abortStatus := stTimeout })
      (fun t => t.cat.load == none && t.reg .cat 0 0x104 == max32 && (t.queueOf 1).cmds.all fun c => c.ended && c.status == stTimeout) = true := by decide +kernel

theorem test_symbols_given :
    UnitErr.count {} = 0 ∧ UnitErr.count { symbols := [68, 68] } = 1 ∧ UnitErr.count { symbols := [0, 68], copies := 7 } = 2 ∧
    rsFinds {} { symbols := [68, 68] } = 1 ∧ rsFinds {} { symbols := [0, 68] } = 2 ∧ rsFinds {} {} = 0 := by decide +kernel

theorem test_unreached_given :
    ¬({ pins := { inReset := true } } : State).reaches .host .arr ∧ ¬({} : State).reaches .mgmt .arr ∧ ({} : State).reaches .mgmt .mc ∧ ({} : State).reaches .host .arr := by
  unfold State.reaches; decide +kernel

/-! What the later clauses of the statements ask for -/

/-- R14's table: the crossings between LD[0], CD[0] to CD[3] and LD[1]. -/
theorem test_crossings :
    ([4, 0, 1, 2, 3, 5].map fun a => [4, 0, 1, 2, 3, 5].map fun b => (bridgePath true a b).length) =
      [[0, 1, 2, 1, 2, 3], [1, 0, 1, 1, 2, 2], [2, 1, 0, 2, 1, 1], [1, 1, 2, 0, 1, 2], [2, 2, 1, 1, 0, 1], [3, 2, 1, 2, 1, 0]] ∧
    bridgePath true 4 5 = [0, 1, 1] ∧ bridgePath false 4 5 = [2, 3, 3] ∧ bridgePath true 0 3 = [1, 3] := by decide +kernel

/-- Array 3's island is disabled, and array 3 is not. -/
def stopped3 : State := ({} : State).setIsl 3 { enable := false }

theorem test_stopped_island_given : stopped3.islandStopped 3 = true ∧ stopped3.arrayDisabled 3 = false ∧ stopped3.pins.inReset = false ∧
    (stopped3.vecOf 3).exec = none ∧ (stopped3.arrOf 3).post = [] := by decide +kernel

theorem test_stopped_island_waits : after (.qntClearMiss .host 3) stopped3 (fun t => (t.islOf 3).writes == [(pageBase .qnt 3 + 0x108, 2, false)]) = true := by
  decide +kernel

/-- The executing instruction takes its tile from the shadow buffer, and the preload loads it there. -/
def shadowMm : MmInstr := { desc := caseMm.desc + 2 ^ 10 }
def aheadMm : MmInstr := { desc := caseMm.desc + 2 ^ 384 * 0x1000 }
def aheadOf (st : ArrState) : State := caseOn 0 { state := st, exec := some shadowMm, preload := some aheadMm }

theorem test_preload_given :
    mmBsrc shadowMm.desc = 1 ∧ ((aheadOf .rampUp).arrOf 7).loading = false ∧ (aheadOf .rampUp).alsBlocked 7 = false ∧
    (loadTile ((aheadOf .rampUp).loadAls 7 aheadMm) aheadMm.desc aheadMm.tab true).key = tileKey shadowMm.desc shadowMm.tab false ∧
    (loadTile ((aheadOf .rampUp).loadAls 7 aheadMm) aheadMm.desc aheadMm.tab true).poisoned = none ∧
    mmPasses (caseMm.desc + 2 ^ 15) = 3 ∧ mmBsrc caseMm.desc = 0 := by decide +kernel

theorem test_preload_follows_an_entry :
    after (.preloadDone 7) (aheadOf .rampUp) (fun t => (t.arrOf 7).stat.valid && !(t.arrOf 7).shadow.valid && (t.arrOf 7).preload.isNone) = true ∧
    after (.preloadDone 7) (aheadOf .load) (fun t => (t.arrOf 7).shadow.valid) = true := by decide +kernel

theorem test_reservation_given :
    (poweredAt 0 { resWait := [5] }).pwr.resWait.contains 5 = true ∧ tabWf 0 (poweredAt 0 { resWait := [5] }).pwr.resv = true ∧
    (poweredAt 0 { resWait := [5] }).reserved 0 + 1 ≤ (poweredAt 0 { resWait := [5] }).limitNow 0 := by decide +kernel

theorem test_reservation_adds : after (.reservationGranted 5 [1]) (poweredAt 0 { resWait := [5] })
    (fun t => t.reserved 0 == (poweredAt 0 {}).reserved 0 + 1 && t.reserved 1 == (poweredAt 0 {}).reserved 1) = true := by decide +kernel

theorem test_log_begun_given :
    ({ powered with life := { powered.life with begun := true } } : State).life.begun = true ∧ powered.halted = false ∧ powered.life.begun = false ∧
    ({ powered with halted := true } : State).halted = true ∧ powered.obs.periodicAt + 600 ≤ powered.life.powerOn := by decide +kernel

theorem test_no_record_after_trip : after .logWriteDone { powered with pwr := { powered.pwr with trip := true } } (fun t => t.flash == powered.flash) = true := by
  decide +kernel

/-- A ledger record and a ring's record to a row that is being copied wait. -/
theorem rowsBusy_from (s : State) (pa len : Nat) : rowsBusy (copying s (pa / 512 * 512)) pa len = true := by
  have e : pa / 512 * 512 + 512 * 0 = pa / 512 * 512 := by omega
  refine Bool.and_eq_true_iff.mpr ⟨rfl, List.any_eq_true.mpr ⟨0, List.mem_range.mpr (Nat.succ_pos _), ?_⟩⟩
  rw [e]; exact rowBusy_copying s _

theorem test_ledger_waits_given (len : Nat) : rowsBusy (copying (ledger 3 0) (((ledger 3 0).ledgerBase + 3 * (ledger 3 0).ledgerSize) / 512 * 512))
    ((ledger 3 0).ledgerBase + 3 * (ledger 3 0).ledgerSize) len = true := rowsBusy_from _ _ _

theorem test_refusals_given :
    (actCmd (kernelCmd (0xC5 + 2 ^ 64) {}) 1024 0xC5).isSome = true ∧ ((kernelCmd (0xC5 + 2 ^ 64) {}).queueOf 1).state ≠ .stopped ∧
    (actCmd (kernelCmd (0xC5 + 2 ^ 64 * (1 + 2 ^ 11) + 2 ^ 96) ({} : State)) 1024 0xC5).isSome = true ∧
    2 ^ ({} : Queue).log < (2 ^ 32 + ({} : Queue).tail - 1) % 2 ^ 32 ∧
    (actCmd (kernelCmd (0xC4 + 2 ^ 64 * 63) {}) 1024 0xC4).isSome = true ∧ (({} : State).ctxOf 63).resident = false ∧
    namesArray ((residing { map := [(19, 20)] }).setQueue 1 { state := .running, ctx := 63, cmds := [{ n := 1, raw := 1 + 2 ^ (64 + 19), started := true }] }) 63 19 = true ∧
    (residing { map := [(0, 20)] }).assignedTo 63 19 = true ∧ (actCmd (kernelCmd (0xC7 + 2 ^ 64 * 2) {}) 1024 0xC7).isSome = true := by decide +kernel

theorem test_refused :
    ∀ x ∈ [(Instr.queueResume 1024, kernelCmd (0xC5 + 2 ^ 64) {}), (.arrayAssign 1024, kernelCmd (0xC4 + 2 ^ 64 * 63) {}), (.tlbInval 1024, kernelCmd (0xC7 + 2 ^ 64 * 2) {})],
      after x.1 x.2 (fun t => (t.queueOf 1024).cmds.all fun c => c.ended && c.status == stTarget) = true := by decide +kernel

/-- Queue 1 is destroyed with a report at 64, which the structure owner's key reaches. -/
def reported : State := (ownedCmd (0xC3 + 2 ^ 128 * 4096)).setQueue 1 { state := .draining, destroy := some ⟨1024, 5, [], true⟩ }

theorem test_report_given :
    clean (feWrite (loseSlots reported fun v => v.queue == 1) 1024 4096 (reportBytes [])).2 = true ∧ fld (0xC3 + 2 ^ 128 * 4096) 0x10 0 64 = 4096 ∧
    (reported.cmdOf 1024 5).isSome = true ∧ scrubsRun reported 0 = false ∧ (([⟨3, 0x82, 0, [], [], 0, 0⟩] : List (Nat × Nat × Nat × List Nat × List Nat × Nat × Nat)).map (·.1)).Nodup ∧
    (({} : State).setReg .dss 3 0x100 64).partOwned 3 0 0 = true := by decide +kernel

theorem test_report_written : after (.queueDestroyComplete 1) reported
    (fun t => t.queueOf 1 == {} && (t.queueOf 1024).cmds.all fun c => c.ended && c.detailWritten) = true := by decide +kernel

/-- The first half of the message stands in an open record; the packet brings the second. -/
def half : DataPkt :=
  { packet with offset := 4, data := [5, 6, 7, 8],
                pcrc := pcrcOf { typ := 1, last := true, dst := 0x7FFF, src := 77, msgId := 3, op := 5, offset := 4, total := 8, handle := 0x8000, body := [5, 6, 7, 8] } }
def openRecord : MsgRec := ⟨0, 77, 3, .opened, 5, 8, 0x8000, 4, [(0, [1, 2, 3, 4], [])]⟩
def receivingHalf : State := live 5 granted { recs := [openRecord] }

theorem test_open_record_given :
    DataPkt.good receivingHalf half = true ∧ receivingHalf.recOf 0 half.src half.msgId = some openRecord ∧ receivingHalf.anyXop half.op = some (opWith 5 granted) ∧
    half.total = openRecord.total ∧ half.offset + half.data.length = half.total ∧ openRecord.n + half.data.length ≤ openRecord.total ∧
    (placeData (receivingHalf, false) half.op ((opWith 5 granted).placeOf half) half.offset half.data half.poison).2 = false ∧
    packet.total = 8 ∧ ¬(openRecord.n + packet.data.length ≤ openRecord.total) := by decide +kernel

theorem test_record_completes : after (.messagePacketRx 0 half) receivingHalf
    (fun t => (t.recOf 0 77 3).map (fun r => (r.state, r.n)) == some (.complete, 8) && tabGet 0 t.mem.bytes 68 == 5) = true := by decide +kernel

theorem test_record_breaks : nextRec 0 (some openRecord) packet = ({ openRecord with state := .broken, parts := [] }, true) := by decide +kernel

/-- A FENCE_WAIT behind a command that its engine has not taken up. -/
theorem test_fence_first_given :
    let w : Cmd := { n := 5, raw := 0x80 + 2 ^ 128 * 64 }
    let s := feQueue { state := .running, cmds := [w] }
    let b := feQueue { state := .running, cmds := [{ n := 4, raw := 0x82, started := true }, w] }
    engineWaits s w = false ∧ servedAfter s 1 w = false ∧ nextToStart s 1 = some w ∧ engineWaits b w = true ∧ nextToStart b 1 = some w := by decide +kernel

theorem test_fence_waits_its_turn : after (.fenceWait 1)
    (feQueue { state := .running, cmds := [{ n := 4, raw := 0x82, started := true }, { n := 5, raw := 0x80 + 2 ^ 128 * 64 }] })
    (fun t => (t.queueOf 1).state == .running && (t.queueOf 1).cmds.all fun c => !c.ended) = true := by decide +kernel

/-- A read through the window, from LD[0]. -/
theorem test_window_read_given : (readFrom (linked ((mapped []).setReg .bxl 0 0x10C 128)) 4 (linked ((mapped []).setReg .bxl 0 0x10C 128)).windowOwner 0 8).2.bus = false := by
  decide +kernel

end Sys2Proof.Tests
end

section
/-!
PROOF. What CTX_CREATE and a context switch make of the generators of a context (R305): seed, step counter, choice counter,
choice-log configuration and log-fault count.
-/
namespace Sys2Proof.Machine

open Sys2Proof

/-- Seed, step counter, choice counter, choice-log configuration (size and base) and log-fault count of a context (R305). -/
def Ctx.generators (x : Ctx) : Nat × Nat × Nat × Nat × Nat × Nat :=
  (x.seed, x.step, x.choice, x.logLog2, x.logBase, x.logFaults)

theorem Ctx.generators_eq_iff (x y : Ctx) : y.generators = x.generators ↔
    y.seed = x.seed ∧ y.step = x.step ∧ y.choice = x.choice ∧ y.logLog2 = x.logLog2 ∧ y.logBase = x.logBase ∧ y.logFaults = x.logFaults := by
  simp only [Ctx.generators, Prod.mk.injEq]

theorem freshCtx_generators (raw : Nat) : (freshCtx raw).generators = ({} : Ctx).generators := rfl

/-! The relation between two states that their contexts agree in the generators -/

/-- Every context of `t` has the generators that it has in `s`. -/
def SameGenerators (s t : State) : Prop := ∀ k, (t.ctxOf k).generators = (s.ctxOf k).generators

theorem SameGenerators.refl (s : State) : SameGenerators s s := fun _ => rfl

theorem SameGenerators.trans {s t u : State} (h : SameGenerators s t) (h' : SameGenerators t u) : SameGenerators s u :=
  fun k => (h' k).trans (h k)

/-- An operation whose frame leaves out the contexts leaves every context as it was. -/
theorem Keeps.ctxOf_eq {ps : List Part} {s t : State} (h : Keeps ps s t) (hp : Part.ctx ∉ ps) (k : Nat) : t.ctxOf k = s.ctxOf k := by
  have same : t.ctx = s.ctx := h.frame .ctx hp
  simp only [State.ctxOf, same]

theorem Keeps.sameGenerators {ps : List Part} {s t : State} (h : Keeps ps s t) (hp : Part.ctx ∉ ps) : SameGenerators s t :=
  fun k => congrArg Ctx.generators (h.ctxOf_eq hp k)

theorem sameGenerators_setCtx {s : State} {c : Nat} {v : Ctx} (hv : v.generators = (s.ctxOf c).generators) : SameGenerators s (s.setCtx c v) := by
  intro k
  by_cases h : k = c
  · subst h; rw [State.setCtx_ctxOf_same, hv]
  · rw [State.setCtx_ctxOf_other _ _ _ _ h]

/-! The operations of a switch that write a context -/

theorem mergeFlags_sameGenerators (s : State) (c byte f : Nat) : SameGenerators s (mergeFlags s c byte f) := sameGenerators_setCtx rfl

theorem mergeIsland_sameGenerators (s : State) (n c : Nat) : SameGenerators s (mergeIsland s n c) := by
  have cleared (u : State) (a : Arr) (v : VecEng) : SameGenerators u ((u.setArr n a).setVec n v) :=
    Keeps.sameGenerators (ps := [.arr, .vec]) (State.setVec_keeps (by decide) (State.setArr_keeps (by decide) keeps_refl)) (by decide)
  refine .trans ?_ (cleared _ _ _)
  exact .trans (.trans (mergeFlags_sameGenerators _ _ _ _) (mergeFlags_sameGenerators _ _ _ _)) (mergeFlags_sameGenerators _ _ _ _)

/-- A run of rows that is saved changes memory, its registers and its traffic alone. -/
theorem saveRuns_keeps {α : Type} {z s : State} {l : List α} {die : Nat} {a : α → Nat} {data : α → List Byte} {p : α → List Bool}
    (h : Keeps [.regs, .mem, .outbox, .bridge] z s) :
    Keeps [.regs, .mem, .outbox, .bridge] z (l.foldl (fun s r => saveRun s die (a r) (data r) (p r)) s) :=
  keeps_foldl (fun _ _ ht => saveRun_keeps (List.Subset.refl _) ht) h

theorem saveArray_sameGenerators (s : State) (n k l : Nat) : SameGenerators s (saveArray s n k l) := by
  unfold saveArray
  exact .trans (Keeps.sameGenerators (saveRuns_keeps (saveRuns_keeps (saveRuns_keeps keeps_refl))) (by decide)) (sameGenerators_setCtx rfl)

/-- A switch out writes a context in two places: the merged flags and the list of images. -/
theorem switchOut_sameGenerators (s : State) (n k : Nat) : SameGenerators s (switchOut s n k) := by
  have park : Keeps [.dma] s (parkChannels s n k).1 := parkChannels_keeps (List.Subset.refl _) keeps_refl
  have finish (u : State) : SameGenerators u ((scrubAls u n).setHolder n { (scrubAls u n).holderOf n with saved := true }) :=
    Keeps.sameGenerators (ps := [.als, .holder])
      (State.setHolder_keeps (by decide) (scrubAls_keeps (by decide) keeps_refl)) (by decide)
  unfold switchOut
  split
  case h_1 t e => exact Keeps.sameGenerators (keepsP_eq park e) (by decide)
  case h_2 t e =>
    have merged : SameGenerators s (mergeIsland t n k) :=
      (Keeps.sameGenerators (keepsP_eq park e) (by decide)).trans (mergeIsland_sameGenerators t n k)
    refine .trans ?_ (finish _)
    split
    · exact (merged.trans (saveArray_sameGenerators _ _ _ _)).trans
        (Keeps.sameGenerators (showSave_keeps (List.Subset.refl _) keeps_refl) (by decide))
    · exact merged

/-! The three commands -/

/-- What CONTEXT_SWITCH_BEGIN can do: nothing; go on with the outgoing context; choose the incoming one for a free array, whose image
it may begin to read; or choose it and begin with the outgoing one. -/
theorem execContextSwitchBegin_cases {n : ArrayId} {s t : State} (h : execContextSwitchBegin n s = .next t) :
    t = s ∨ (∃ k, t = switchOut s n k) ∨
    ∃ v, t = s.setHolder n v ∨ t = showRestore (s.setHolder n v) n ∨ ∃ k, t = switchOut (s.setHolder n v) n k := by
  simp only [execContextSwitchBegin] at h
  split at h
  · cases h; exact .inl rfl
  · split at h
    next => -- an incoming context has been chosen
      split at h
      · split at h <;> cases h
        · exact .inl rfl
        · exact .inr (.inl ⟨_, rfl⟩)
      · cases h; exact .inl rfl
    next => -- none has been chosen yet
      split at h
      · cases h; exact .inl rfl
      · split at h
        next => -- no context holds the array
          cases h
          split
          · exact .inr (.inr ⟨_, .inr (.inl rfl)⟩)
          · exact .inr (.inr ⟨_, .inl rfl⟩)
        next => -- a context holds the array
          split at h <;> cases h
          · exact .inl rfl
          · exact .inr (.inr ⟨_, .inr (.inr ⟨_, rfl⟩)⟩)

theorem execContextSwitchBegin_sameGenerators {n : ArrayId} {s t : State} (h : execContextSwitchBegin n s = .next t) : SameGenerators s t := by
  have chosen (v : Holder) : SameGenerators s (s.setHolder n v) :=
    Keeps.sameGenerators (State.setHolder_keeps (List.Subset.refl _) keeps_refl) (by decide)
  obtain rfl | ⟨k, rfl⟩ | ⟨v, rfl | rfl | ⟨k, rfl⟩⟩ := execContextSwitchBegin_cases h
  · exact .refl _
  · exact switchOut_sameGenerators _ _ _
  · exact chosen v
  · exact (chosen v).trans (Keeps.sameGenerators (showRestore_keeps (List.Subset.refl _) keeps_refl) (by decide))
  · exact (chosen v).trans (switchOut_sameGenerators _ _ _)

theorem execContextSwitchEnd_sameGenerators {n : ArrayId} {s t : State} (h : execContextSwitchEnd n s = .next t) : SameGenerators s t :=
  Keeps.sameGenerators (keepsR_eq (execContextSwitchEnd_keeps (List.Subset.refl _) keeps_refl) h) (by decide)

/-- CTX_CREATE of a context that is not resident makes it a fresh one. -/
theorem execCtxCreate_fresh {q : QueueId} {s : State} {c : Cmd} (hc : actCmd s q 0xC0 = some c)
    (hr : (s.ctxOf (fld c.raw 8 0 6)).resident = false) :
    ∃ t, execCtxCreate q s = .next t ∧ t.ctxOf (fld c.raw 8 0 6) = freshCtx c.raw := by
  simp only [execCtxCreate, hc, ctxCreateTarget, hr, Bool.false_eq_true, if_false]
  refine ⟨_, rfl, ?_⟩
  rw [Keeps.ctxOf_eq (doneCmd_keeps (List.Subset.refl _) keeps_refl) (by decide)]
  simp

end Sys2Proof.Machine

namespace Sys2Proof

open Machine

/-- Settles O46: a fresh context has the generators of the empty one, and neither end of a switch writes a generator. -/
theorem contextGenerators : Obligations.ContextGenerators := by
  unfold Obligations.ContextGenerators
  refine ⟨fun s q c hc hr => ?_, fun s t n k h => ?_⟩
  · obtain ⟨t, ht, fresh⟩ := execCtxCreate_fresh hc hr
    refine ⟨t, ht, ?_⟩
    rw [fresh]
    exact (Ctx.generators_eq_iff {} _).mp (freshCtx_generators c.raw)
  · have same : SameGenerators s t := h.elim execContextSwitchBegin_sameGenerators execContextSwitchEnd_sameGenerators
    exact (Ctx.generators_eq_iff _ _).mp (same k)

end Sys2Proof
end

section
/-!
PROOF. The aperture by groups (R411, R414): inside a group `pageOf` answers the page the group has there, outside every group
it answers none, so it inverts `pageBase` on the pages that exist.
-/
namespace Sys2Proof

/-- A run of groups of pages: `count` groups of `size` pages, one after another from page `first`, each with the pages of `blocks` at its
start and the rest unassigned. -/
structure PageGroup where
  first : Nat
  count : Nat
  size : Nat
  blocks : List Block

/-- The assigned rows of R411, with the pages R414 gives a group: the groups of several pages, then those of one. -/
def pageGroups : List PageGroup :=
  [⟨0x000, 1, 16, [.dev, .mbx, .pwr, .obs, .sec]⟩, ⟨0x100, 20, 16, [.arr, .acc, .vec, .seq, .als, .qnt]⟩,
   ⟨0x300, 4, 16, [.dss, .dma, .noc, .dpw]⟩, ⟨0x380, 24, 4, [.mc, .mpe, .nmu]⟩, ⟨0x460, 1, 2, [.cat, .catWin]⟩, ⟨0x010, 4, 1, [.fe]⟩,
   ⟨0x400, 36, 1, [.lnk]⟩, ⟨0x440, 1, 1, [.rtr]⟩, ⟨0x450, 1, 1, [.xch]⟩, ⟨0x480, 1, 1, [.bxl]⟩, ⟨0x4C0, 1, 1, [.mmu]⟩,
   ⟨0x800, 1040, 1, [.doorbell]⟩]

/-- How many pages a block has (R411, R414). -/
def pageCount : Block → Nat
  | .fe | .dss | .dma | .noc | .dpw => 4
  | .arr | .acc | .vec | .seq | .als | .qnt => 20
  | .mc | .mpe | .nmu => 24
  | .lnk => 36
  | .doorbell => 1040
  | .dev | .mbx | .pwr | .obs | .sec | .rtr | .xch | .cat | .catWin | .bxl | .mmu => 1

variable {off n k i : Nat} {b : Block} {g : PageGroup}

/-- Page `k` of a run's group `n` is the run's block `k`, or unassigned where the run has none. -/
theorem pageOf_group (hg : g ∈ pageGroups) (hn : n < g.count) (hk : k < g.size) (hp : off / 0x1000 = g.first + (g.size * n + k)) :
    pageOf off = g.blocks[k]?.map (·, n) := by
  have hdiv : (g.size * n + k) / g.size = n := by
    rw [Nat.mul_add_div (by omega), Nat.div_eq_of_lt hk, Nat.add_zero]
  have hmod : (g.size * n + k) % g.size = k := by
    rw [Nat.mul_add_mod, Nat.mod_eq_of_lt hk]
  have hone : g.size = 1 → g.size * n + k = n := fun h => by
    rw [h] at hk ⊢
    omega
  have hfirst : g.count = 1 → n = 0 := by omega
  simp only [pageGroups, List.mem_cons, List.not_mem_nil, or_false] at hg
  rcases hg with rfl | rfl | rfl | rfl | rfl | rfl | rfl | rfl | rfl | rfl | rfl | rfl
  all_goals
    dsimp only at *
    simp (disch := omega) only [pageOf, hp, ↓if_pos, ↓if_neg, Nat.add_sub_cancel_left, hone, hdiv, hmod, hfirst]
  · match k with -- DEV to SEC
    | 0 | 1 | 2 | 3 | 4 => rfl
    | k + 5 =>
      rw [if_neg (by omega), if_neg (by omega), if_neg (by omega), if_neg (by omega), if_neg (by omega)]
      rfl
  · match k with -- an array group
    | 0 | 1 | 2 | 3 | 4 | 5 => rfl
    | _ + 6 => rfl
  · match k with -- a die group
    | 0 | 1 | 2 | 3 => rfl
    | _ + 4 => rfl
  · match k with -- a stack group
    | 0 | 1 | 2 => rfl
    | _ + 3 => rfl
  · match k with -- CAT and its window
    | 0 | 1 => rfl
  all_goals
    obtain rfl : k = 0 := by omega
    rfl

theorem PageGroup.blocks_length_le (hg : g ∈ pageGroups) : g.blocks.length ≤ g.size := by
  revert g
  decide

theorem PageGroup.size_pos (hg : g ∈ pageGroups) : 0 < g.size := by
  revert g
  decide

theorem exists_pageGroup (b : Block) : ∃ g ∈ pageGroups, b ∈ g.blocks := by
  cases b <;> decide

/-- A block's row in a table of the aperture: its number of pages, the base of the first and the distance from each to the next. -/
def pageRow (b : Block) : Block × Nat × Nat × Nat := (b, pageCount b, pageBase b 0, pageBase b 1 - pageBase b 0)

theorem pageBase_eq_base_add_stride (b : Block) (i : Nat) : pageBase b i = (pageRow b).2.2.1 + (pageRow b).2.2.2 * i := by
  cases b <;> simp only [pageRow, pageBase] <;> omega

/-- The bases and strides of the model's pages are those of the runs. -/
theorem pageGroups_base_stride : ∀ g ∈ pageGroups, ∀ k, ∀ hk : k < g.blocks.length, pageBase g.blocks[k] 0 = (g.first + k) * 0x1000 ∧
    (pageCount g.blocks[k] = 1 ∨ (pageRow g.blocks[k]).2.2.2 = 0x1000 * g.size) := by
  decide

/-- The other direction of `pageOf_group`: page `n` of a run's block `k` stands at page `k` of group `n`. -/
theorem pageBase_group (hg : g ∈ pageGroups) (hb : g.blocks[k]? = some b) (hn : n < pageCount b) :
    pageBase b n = (g.first + (g.size * n + k)) * 0x1000 := by
  obtain ⟨hk, rfl⟩ := List.getElem?_eq_some_iff.mp hb
  obtain ⟨hbase, hone | hstride⟩ := pageGroups_base_stride g hg k hk
  · obtain rfl : n = 0 := Nat.lt_one_iff.mp (hone ▸ hn)
    rw [hbase, Nat.mul_zero, Nat.zero_add]
  · have hrow : pageBase g.blocks[k] n = pageBase g.blocks[k] 0 + 0x1000 * g.size * n := by
      rw [← hstride]
      exact pageBase_eq_base_add_stride ..
    rw [hrow, hbase, Nat.mul_assoc]
    omega

/-- A block has as many pages as its run has groups. -/
theorem pageCount_eq_of_mem (hg : g ∈ pageGroups) (hb : b ∈ g.blocks) : pageCount b = g.count := by
  have every : ∀ g ∈ pageGroups, ∀ b ∈ g.blocks, pageCount b = g.count := by decide
  exact every g hg b hb

theorem pageOf_outside_groups (h : ∀ g ∈ pageGroups, off / 0x1000 < g.first ∨ g.first + g.size * g.count ≤ off / 0x1000) :
    pageOf off = none := by
  simp only [pageGroups, List.forall_mem_cons] at h
  simp (disch := omega) only [pageOf, if_neg, ite_self]

theorem pageOf_of_pageBase (hi : i < pageCount b) (hbase : off / 0x1000 * 0x1000 = pageBase b i) : pageOf off = some (b, i) := by
  obtain ⟨g, hg, hmem⟩ := exists_pageGroup b
  obtain ⟨k, hb⟩ := List.mem_iff_getElem?.mp hmem
  have hk : k < g.size := Nat.lt_of_lt_of_le (List.getElem?_eq_some_iff.mp hb).1 (PageGroup.blocks_length_le hg)
  have hpage : off / 0x1000 = g.first + (g.size * i + k) := by
    rw [pageBase_group hg hb hi] at hbase
    omega
  rw [pageOf_group hg (pageCount_eq_of_mem hg hmem ▸ hi) hk hpage, hb, Option.map_some]

theorem pageBase_of_pageOf (h : pageOf off = some (b, i)) : i < pageCount b ∧ off / 0x1000 * 0x1000 = pageBase b i := by
  by_cases hout : ∀ g ∈ pageGroups, off / 0x1000 < g.first ∨ g.first + g.size * g.count ≤ off / 0x1000
  case pos => -- the offset lies in no group, so it has no page
    rw [pageOf_outside_groups hout] at h
    cases h
  case neg => -- the offset lies in a group, whose table names its page
    simp only [Classical.not_forall, not_or, Nat.not_lt, Nat.not_le] at hout
    obtain ⟨g, hg, hlo, hhi⟩ := hout
    have hn : (off / 0x1000 - g.first) / g.size < g.count := Nat.div_lt_of_lt_mul (by omega)
    have hk : (off / 0x1000 - g.first) % g.size < g.size := Nat.mod_lt _ (PageGroup.size_pos hg)
    have hpage : off / 0x1000 = g.first + (g.size * ((off / 0x1000 - g.first) / g.size) + (off / 0x1000 - g.first) % g.size) := by
      rw [Nat.div_add_mod, Nat.add_sub_of_le hlo]
    rw [pageOf_group hg hn hk hpage, Option.map_eq_some_iff] at h
    obtain ⟨b', hb, hbi⟩ := h
    obtain ⟨rfl, rfl⟩ := Prod.mk.inj hbi
    have hi := Nat.lt_of_lt_of_eq hn (pageCount_eq_of_mem hg (List.mem_of_getElem? hb)).symm
    exact ⟨hi, by rw [pageBase_group hg hb hi, ← hpage]⟩

/-- An offset lies in page `i` of block `b` exactly if the block has a page `i` and its base is the offset's, rounded down. -/
theorem pageOf_eq_some_iff : pageOf off = some (b, i) ↔ i < pageCount b ∧ off / 0x1000 * 0x1000 = pageBase b i :=
  ⟨pageBase_of_pageOf, fun ⟨hi, hbase⟩ => pageOf_of_pageBase hi hbase⟩

end Sys2Proof

namespace Sys2Proof

/-- Settles O57: `pageOf` inverts `pageBase` on the pages a block has, and the statement's table holds each block's row and no other. -/
theorem aperturePages : Obligations.AperturePages := by
  unfold Obligations.AperturePages
  intro pages off _
  have rowOf : ∀ e ∈ pages, e = pageRow e.1 := by
    unfold pages
    decide
  have listed : ∀ b, pageRow b ∈ pages := by
    intro b
    unfold pages
    cases b <;> decide
  refine ⟨fun b i => pageOf_eq_some_iff.trans ⟨fun ⟨hi, hbase⟩ => ?_, fun ⟨e, he, hb, hi, hbase⟩ => ?_⟩, fun b i h =>
    (pageBase_of_pageOf h).2.symm⟩
  · exact ⟨pageRow b, listed b, rfl, hi, hbase.trans (pageBase_eq_base_add_stride b i)⟩
  · subst hb
    rw [rowOf e he] at hi hbase
    exact ⟨hi, hbase.trans (pageBase_eq_base_add_stride e.1 i).symm⟩

end Sys2Proof
end
